-- ==== Sys2Proof/Word.lean ====
section
/-! DEFINITION. The word types of the Kryim LX1 and their plainest arithmetic (spec/00 R6, R7). -/

namespace Sys2Proof

/-- One byte of module memory, of a buffer or of a record. -/
abbrev Byte := BitVec 8

/-- A byte string, first byte at the lowest address (R7). -/
abbrev Bytes := List Byte

/-- 2^64 − 1: a 64-bit field of all ones. -/
def allOnes64 : Nat := 18446744073709551615

end Sys2Proof
end

