-- ==== Sys2Proof/Syntax.lean ====
section
/-! DEFINITION. The commands of the block: one constructor of `Instr` per row of
spec/opcode_table.json, with the operands the model gives each row (log 6). -/

namespace Sys2Proof

/-- One element of a scatter list (R358). -/
structure SgElem where
  addr : Nat
  len : Nat
deriving DecidableEq, Repr

/-- One entry of a submission ring as the module's fetch reads it: its 64 bytes, the scatter list that its data
pointer addresses where LIST is set (R357, R358), and, for a JOIN_HARBOUR, the parameter block as it reads before
acceptance (its join allowance is part of the bound, Table 12.7). -/
structure Placed where
  entry : Bytes
  sgl : List SgElem
  block : Bytes
deriving DecidableEq, Repr

/-- What a code that corrects one error and detects two says of what was read (R74, R199): no error, one corrected, or a detected error that
cannot be corrected. -/
inductive EccOutcome where
  | clean
  | corrected
  | uncorrectable
deriving DecidableEq, Repr

/-- A symbol of a line's code that reads otherwise than it was written (R199): 0 to 31 are the data, 32 to 34 the check symbols, and 35
and 36 the two formed from the line address, which differ where the line comes from another place. `diff` is the difference over
GF(2^16). -/
structure SymbolError where
  symbol : Nat
  diff : Nat
deriving DecidableEq, Repr

/-- Who makes an access to module memory, as the page classes tell them apart (Table 7.6). -/
inductive Source where
  | tide (record : Nat)
  | quayUnit
  | linkEngine
  | drain
deriving DecidableEq, Repr

/-- A HELLO record (Table 10.2). `flags` bit 0: partner port; bit 1: restore. -/
structure Hello where
  port : Nat
  topology : Nat
  feedId : Nat
  rank : Nat
  x : Nat
  y : Nat
  z : Nat
  partner : Bool
  restore : Bool
  harbourId : Nat
  digest : Bytes
  identity : Bytes
deriving DecidableEq, Repr

/-- A PROGRESS record (Table 10.2). -/
structure Progress where
  dataWait : Bool
  commandWait : Bool
  halted : Bool
  decided : Bool
  attempt : Nat
  rank : Nat
  step : Nat
  count : Nat
  wait : Nat
deriving DecidableEq, Repr

/-- An EJECT record (Table 10.2). -/
structure EjectRec where
  reason : Nat
  accused : Nat
  accuser : Nat
  step : Nat
  attempt : Nat
deriving DecidableEq, Repr

/-- A FAULT record (Table 10.2). -/
structure FaultRec where
  reason : Nat
  rank : Nat
  step : Nat
deriving DecidableEq, Repr

/-- State of a rank in a census entry (Table 10.11). -/
inductive RankState where
  | present
  | absent
  | ejected
deriving DecidableEq, Repr

/-- A census entry (Table 10.11); a committed step of all ones is `none`. -/
structure CensusEntry where
  state : RankState
  decided : Bool
  announced : Bool
  reason : Nat
  committed : Option Nat
  digest : Nat
deriving DecidableEq, Repr

/-- One part of a census view (Tables 10.10 and 10.11). -/
structure CensusPart where
  index : Nat
  count : Nat
  sender : Nat
  firstRank : Nat
  number : Nat
  harbourId : Nat
  entries : List CensusEntry
deriving DecidableEq, Repr

/-- The statistics of one tensor in one step (Table 10.8); `eps = none` is the zero marker 0x8000. -/
structure TensorStat where
  eps : Option Int
  cliff : Bool
  nar : Bool
  c : Nat
  f : Nat
  f4 : Nat
  sat : Nat
  dom : Nat
deriving DecidableEq, Repr

/-- One entry of the statistics bucket (Table 10.8). -/
inductive StatEntry where
  | harbour (members wait : Nat) (cliff nar : Bool) (digest : Nat)
  | bucket (digest : Nat)
  | tensor (s : TensorStat)
deriving DecidableEq, Repr

/-- The payload of a bucket frame (R302): P32 sums, G16 codes (`none` is NaR), or statistics entries. -/
inductive FramePayload where
  | p32 (vs : List (Option Int))
  | g16 (vs : List (Option Int))
  | stats (es : List StatEntry)
deriving DecidableEq, Repr

/-- A bucket frame (Table 10.7). -/
structure BucketFrame where
  phase : Nat
  bucket : Nat
  sender : Nat
  dest : Nat
  step : Nat
  digest : Nat
  attempt : Nat
  first : Nat
  payload : FramePayload
deriving DecidableEq, Repr

/-- What a restore receives over its port (R341 to R344): the image in the partner's store, a fragment of the
donor's transfer set, the donor's journal record of step n, or one forwarded step. -/
inductive StatePayload where
  | image (bytes : Bytes)
  | fragment (page quay digest : Nat) (data : Bytes)
  | donorRecord (bytes : Bytes)
  | g16 (step bucket first : Nat) (vs : List (Option Int))
  | stats (step : Nat) (es : List StatEntry)
  | refusedByDonor
deriving DecidableEq, Repr

/-- What the drain of the partner's snapshot sends to the snapshot store (R338, R339): a fragment, the copy of the record of the
snapshot's step, and last the header. -/
inductive SnapPiece where
  | fragment (number step page quay digest : Nat) (data : Bytes)
  | record (number : Nat) (bytes : Bytes)
  | header (bytes : Bytes)
deriving DecidableEq, Repr

/-- The data of such a piece. -/
inductive PieceData where
  | fragment (bytes : Bytes)
  | record (bytes : Bytes)
  | header (bytes : Bytes)
deriving DecidableEq, Repr

/-- The data of a store at a quay: bytes, or codes on their way into a public format, L19 codes in four bytes where `wide` and L16
codes otherwise (R40). -/
structure StoreData where
  bytes : Bytes
  wide : Bool
deriving DecidableEq, Repr

/-- Why a port is lost: R292, or the temperature of its optical engine (R427). -/
inductive PortLoss where
  | replayLimit
  | laneSilent
  | nakRate
  | overTemperature (temp : BitVec 16)
deriving DecidableEq, Repr

/-- The island whose generator loses lock, or the crystal (R420). -/
inductive ClockIsland where
  | stall (i : Nat)
  | quay (p : Nat)
  | aisle (h : Nat)
  | port (p : Nat)
  | control
  | crystal
deriving DecidableEq, Repr

/-- A DMA transfer that completes with an error (R379 class 7). -/
inductive DmaTarget where
  | command (sq cid : Nat)
  | batch (step group : Nat)
deriving DecidableEq, Repr

/-- What a Vorbiest port measures (Table 13.16): received and launched optical power of its four lanes, and the superframe count. -/
structure PortReading where
  port : Nat
  rx : Nat
  tx : Nat
  superframes : Nat
deriving DecidableEq, Repr

/-- The refreshed readings of R402: input voltage, current, 1 ms power, energy since the last refresh,
the 40 sensors, the stall sensors by stall index and the ports (R406). -/
structure Readings where
  milliVolts : Nat
  milliAmps : Nat
  milliWatts : Nat
  milliJoules : Nat
  temps : List (BitVec 16)
  stallTemps : List (Nat × BitVec 16)
  ports : List PortReading
deriving DecidableEq, Repr

/-- A line of the module that reads with symbols in error (R199, R200). -/
structure ScrubHit where
  line : Nat
  errors : List SymbolError
deriving DecidableEq, Repr

/-- A partial-sum contribution (R117, R130 to R132): its integer on the region's grid, NaR and cliff marks, and the contributions
that it brings: the block contributions of its A64 sum, or one in P32. -/
structure Contribution where
  value : Int
  nar : Bool
  cliff : Bool
  blocks : Nat
deriving DecidableEq, Repr

/-- The end of a weight plane's load: the stall, what the words of its store said as the plane port read them, and the word named
(R74, R80). -/
structure PlaneLoad where
  stall : Nat
  ecc : EccOutcome
  offset : Nat
deriving DecidableEq, Repr

/-- A DRAM die's temperature with its pile (R426). -/
structure DramReading where
  pile : Nat
  temp : BitVec 16
deriving DecidableEq, Repr

/-- The commands of the block, in the order of spec/opcode_table.json. -/
inductive Instr where
  | identify (sq cid : Nat)
  | loadTideTable (sq cid : Nat) (data : Bytes)
  | unload (sq cid : Nat)
  | feedTokenBatch (sq cid : Nat) (data : Bytes)
  | feedHostLayerResult (sq cid : Nat) (data : Bytes)
  | runSteps (sq cid : Nat)
  | serve (sq cid : Nat) (prompt : Bytes)
  | haltAtSlack (sq cid : Nat)
  | snapshot (sq cid : Nat)
  | restoreFromImage (sq cid : Nat) (data : Bytes)
  | restoreFromPartnerStore (sq cid : Nat)
  | restoreFromReplica (sq cid : Nat)
  | joinHarbour (sq cid : Nat) (block : Bytes)
  | leaveHarbour (sq cid : Nat)
  | readTelemetry (sq cid : Nat)
  | runTest (sq cid : Nat)
  | setPowerCap (sq cid : Nat)
  | attest (sq cid : Nat)
  | enrolKey (sq cid : Nat) (data : Bytes)
  | applyPatch (sq cid : Nat) (data : Bytes)
  | exportJournal (sq cid : Nat)
  | sqTailDb (q value : Nat) (placed : List Placed)
  | cqHeadDb (q value : Nat)
  | cqHeldEntryPost (q : Nat)
  | sqEnable (q cq log2Entries : Nat)
  | sqDisable (q cq log2Entries : Nat)
  | cqEnable (q : Nat) (intEnable : Bool) (vector log2Entries : Nat)
  | cqDisable (q : Nat) (intEnable : Bool) (vector log2Entries : Nat)
  | evAck (seq : Nat)
  | evCtrlIntEn (vector : Nat) (alertMask : BitVec 9)
  | satBitClear (offset size mask : Nat)
  | resetKey
  | telemetryFreezeSet
  | telemetryFreezeClear
  | bwBaseWrite (value : Nat)
  | bwBaseRead
  | msixVectorUnmask (v : Nat)
  | registerWrite (offset size value : Nat)
  | bar2Read (offset len : Nat) (hits : List ScrubHit)
  | bar2Write (offset : Nat) (data : Bytes)
  | i3cPointerWrite (pointer : Nat)
  | busMasterDisable
  | functionLevelReset
  | d3hotToD0
  | perstAssert
  | doeRequest (object : Nat) (payload : Bytes)
  | dmaErrorCompletion (target : DmaTarget) (address : Nat)
  | powerApplied (milliVolts straps : Nat)
  | bootStart (milliVolts : Nat) (failedStalls : List Nat)
  | resetNLow
  | resetNRelease (failedStalls : List Nat)
  | pwrEnLow
  | inputUndervolt (milliVolts : Nat)
  | inputLockout (milliVolts : Nat)
  | inputOvervoltage (milliVolts : Nat)
  | thermalStepDown (pipeline : Nat)
  | thermalStepUp (pipeline : Nat)
  | dramThermalHalve (pile : Nat) (temp : BitVec 16)
  | thermalTripFault (sensor : Nat) (temp : BitVec 16)
  | thermalTripAmrath (sensor : Nat) (temp : BitVec 16)
  | clockLockLost (island : ClockIsland)
  | sensorRefresh (r : Readings)
  | deferredCapApply
  | flitError (port : Nat) (codeword : Bytes)
  | replayTimeout (port : Nat)
  | nak (port expected : Nat)
  | hello (port : Nat) (h : Hello)
  | progress (port : Nat) (r : Progress)
  | progressSend
  | eject (port : Nat) (r : EjectRec)
  | fault (port : Nat) (r : FaultRec)
  | leave (port rank : Nat)
  | unknownControlRecord (port kind : Nat)
  | bucketFrame (port : Nat) (fr : BucketFrame)
  | censusPart (port : Nat) (p : CensusPart)
  | censusViewTimeout (rank : Nat)
  | bucketLate (suspect : Nat) (waitedUs : Nat)
  | portDown (port : Nat) (loss : PortLoss)
  | portRetrainComplete (port : Nat) (ok : Bool)
  | joinAllowanceExpiry
  | restoreHelloTimeout
  | journalMirrorReceived (port : Nat) (record : Bytes)
  | mirrorAck (port seq : Nat)
  | mirrorAckTimeout
  | snapshotFragmentReceived (port number step page quay digest : Nat) (data : PieceData)
  | stateTransferReceived (port : Nat) (p : StatePayload)
  | tideIssue (stall : Nat)
  | tideStart (stall : Nat) (ecc : EccOutcome) (offset : Nat)
  | tideComplete (record inst : Nat)
  | weightPlaneLoadComplete (load : PlaneLoad)
  | tileDeadlock (stall record inst : Nat)
  | regionOpen (record inst : Nat)
  | quayRead (src : Source) (addr len : Nat) (tensor : Option Nat) (hits : List ScrubHit)
  | quayWrite (src : Source) (addr : Nat) (tensor : Option Nat) (data : StoreData) (hits : List ScrubHit)
  | atomicAdd (record inst location step attempt : Nat) (c : Contribution)
  | patrolScrub (pile : Nat) (hits : List ScrubHit)
  | refresh (pile : Nat)
  | stashBlockPack (entry group tokenBlock feature : Nat)
  | groupForwardStart (group : Nat)
  | hostLayerRequest (record dir : Nat)
  | slackWater
  | bucketReduce
  | journalWriteComplete
  | flashTimeout
  | journalCompacted (partner : Bool)
  | snapshotDrainFragment (quay : Nat)
  | breakwaterStall (quay : Nat)
  | decodeStepBoundary (decodes : Nat)
  | testComplete (responses : List (List (Nat × Nat)))
  | portTrained (port : Nat)
  | flitAcknowledgement (port : Nat) (symbols checks : Bytes)
  | perstDeassert
  | busMasterEnable
  | inputUndervoltClear (milliVolts : Nat)
  | dramThermalHalveEnd (reading : DramReading)
  | powerRemoved
  | dvfsRailSettled (stall : Nat)
deriving DecidableEq, Repr

end Sys2Proof
end

