-- ==== Sys2Proof/Decode.lean ====
section
/-! DEFINITION. The words of the operation table: its rows give no bits, so no word spells a command (log 6). -/

namespace Sys2Proof

/-- The command that a word spells by the table's bits. -/
def decodeTableWord (_nbits _w : Nat) : Option Instr := none

end Sys2Proof
end

