-- ==== Sys2Proof/Config.lean ====
section
/-! DEFINITION. What one implementation or one device fixes: the constants the manual names, and the free values
(opaque constants: nothing in Lean can evaluate them or prove a value of them). -/

namespace Sys2Proof

/-- A lane function of Tables 5.1 and 5.2, as a chain can name it (R142 to R148), and the sum tree of a row (R147, R177). `eps`
is the L16 constant ε, which R148 places in the tide record: Tables 8.10 to 8.14 give it no field, and the model takes it from
the chain (DESIGN CHOICE, log 10). -/
inductive LaneFn where
  | mul | div | recip | sqrt | rsqrt | pow (n : Nat) | scale (j : Int) | neg | abs | max | min
  | add | sub | exp2 | exp | log2 | ln | relu | sigmoid | silu | gelu
  | softmax | logSoftmax | rmsNorm (eps : Nat) | layerNorm (eps : Nat) | sum
deriving DecidableEq, Repr

/-- Where a lane operation reads an operand: one of the lane's 64 registers, an input tensor of the tide, the
elements of the stash or row statistics through an input, or an L19 constant of the chain. -/
inductive LaneSrc where
  | reg (i : Nat)
  | input (k : Nat)
  | const (code : Nat)
deriving DecidableEq, Repr

/-- One operation of a lane chain: `dst := fn x y z` (R139). -/
structure LaneStep where
  fn : LaneFn
  dst : Nat
  x : LaneSrc
  y : LaneSrc
  z : LaneSrc
deriving DecidableEq, Repr

namespace Config

/-! ## Constants of the manual -/

/-- HM_IDENT.DEVICE (Table 13.2). -/
def deviceId : Nat := 0x4C58
/-- The target part, "KRY-LX1-1536" and four zero bytes (R1, Table 13.2). -/
def partBytes : Bytes :=
  [0x4B, 0x52, 0x59, 0x2D, 0x4C, 0x58, 0x31, 0x2D, 0x31, 0x35, 0x33, 0x36, 0, 0, 0, 0]
/-- Silicon stepping A1 (R1). -/
def stepping : Nat := 0xA1
/-- The revision identifier and the class code of the function, and the sizes of its base address registers (Table 12.1). -/
def pciRevision : Nat := 0xA1
def pciClass : Nat := 0x120000
def bar0Bytes : Nat := 0x2000000
def bar2Bytes : Nat := 0x1000000000
/-- The first address of hall 1 (R187). -/
def hall1Base : Nat := 0x0C000000000
/-- One past the last address of module memory (R187). -/
def memoryEnd : Nat := 0x18000000000
/-- Bytes of the device region that ends each hall (Table 7.2). -/
def deviceRegion : Nat := 0x3000000
/-- The module flash in MiB and its device area (R323). -/
def flashMiB : Nat := 131072
def flashDeviceMiB : Nat := 1024

/-! ## What one device carries (log 4) -/

/-- HM_FW_VERSION, the version of the mask ROM (R445). -/
opaque firmwareVersion : BitVec 32
/-- SHA-384 of the ROM image (R450). -/
opaque romHash : Bytes
/-- Duldaphor's root public keys, Ed25519 and ML-DSA-65, whose hashes OTP holds (R451). -/
opaque vendorEdKey : Bytes
opaque vendorMlKey : Bytes
/-- OTP: the device secret of 32 bytes (R451). -/
opaque deviceSecret : Bytes
/-- The fields of the endorsement's header to which R458 gives no value, by offset (log 92). -/
opaque endorseField (offset : Nat) : Nat
/-- The PCI-SIG vendor identifier of the function, which the manual does not number (R349; log 91). -/
opaque pciVendor : BitVec 16

/-! ## Published algorithms taken as they are (log 9) -/

/-- Ed25519 verification of RFC 8032 section 5.1: public key, message, signature (R224). -/
opaque edVerify (key msg sig : Bytes) : Bool
/-- Pure ML-DSA.Verify of FIPS 204 with an empty context (R224). -/
opaque mlVerify (key msg sig : Bytes) : Bool
/-- The public key of an Ed25519 private key seed (RFC 8032 section 5.1.5), and of a seed ξ of ML-DSA.KeyGen_internal (FIPS 204)
(R457). -/
opaque ed25519Public (seed : Bytes) : Bytes
opaque mldsaPublic (seed : Bytes) : Bytes
/-- Signatures of a message by the key of a seed (R459). -/
opaque edSign (seed msg : Bytes) : Bytes
opaque mlSign (seed msg : Bytes) : Bytes
/-- Signatures of a message by the vendor roots (R458). -/
opaque rootEdSign (msg : Bytes) : Bytes
opaque rootMlSign (msg : Bytes) : Bytes

/-! ## Free values (log 8): the manual leaves them open -/

/-- The IDENTIFY data, byte by byte (log 12). -/
opaque identifyByte (i : Nat) : Byte
/-- The digest of a token batch (R368 names no function; log 11). -/
opaque batchDigest (batch : Bytes) : BitVec 64
/-- The lane chain that a chain number names (Table 8.12; the manual numbers none; log 10). -/
opaque laneChain (n : Nat) : List LaneStep
/-- The tensor that is input `k` (1 or 2) of the lane chain of a PRODUCT or CLOSE record: a bias, a gain, a stash or row
statistics (R151, R156, R163). Tables 8.12 and 8.14 give it no field; the table is known by its digest (log 57). -/
opaque closeInput (table : Bytes) (record k : Nat) : Nat
/-- The logits tensor of a serving table, known by its digest (R184; no section names it; log 13). -/
opaque logitsTensor (table : Bytes) : Nat
/-- The token that sampling takes from a draw and the logits of a position (R184; log 13). -/
opaque sampleToken (draw : BitVec 32) (logits : List Nat) : Nat
/-- The index of the sampling draw on the stream of the logits tensor (R184; log 13). -/
opaque sampleIndex (stream : Nat) : Nat
/-- The expected signature of a logic or calibration test, by test number and target (R463; log 14). -/
opaque expectedSignature (test target : Nat) : BitVec 64
/-- The failing signature of a stall in the boot self-test: the row's operands name the stall alone (R442; log 14). -/
opaque bootSignature (n : Nat) : BitVec 64
/-- The stalls that fail the boot self-test of a module reset whose row names none (R442, R443; log 90). -/
opaque bootStallFails (n : Nat) : List Nat
/-- The state of the MISR of a test that is interrupted (R464, R468; log 93). -/
opaque abortSignature (n : Nat) : BitVec 64
/-- The speed and the width at which the link trains: places among those of Table 12.1 (R349, R441; log 91). -/
opaque linkRate (n : Nat) : Fin 5
opaque linkLanes (n : Nat) : Fin 3
/-- What a line with three symbols in error or more reads as: nothing where its check fails, else its 64 bytes and whether the code took
them for a correction (R199; log 100). -/
opaque beyondCode (n : Nat) : Option (Bytes × Bool)
/-- Which BW_BASE an access between the write and its read-back uses (R352; log 16). -/
opaque bwEither (n : Nat) : Bool
/-- Whether a member's harbour digest differs from the harbour's: no record of the harbour carries it (R314; log 32). -/
opaque digestDiffers (n : Nat) : Bool
/-- Whether a restore HELLO asks for a replica rather than for the image of the partner store: nothing in the HELLO tells them apart
(R343; log 33). -/
opaque wantsReplica (n : Nat) : Bool
/-- Whether a partner acknowledges a commit that a power failure overtakes within its 2 ms (R330, R333; log 88). -/
opaque ackInTime (n : Nat) : Bool
/-- Whether the partner of a pair with one feed has set the feed-share override: no record of the harbour carries it (R299;
log 32). -/
opaque partnerOverride (n : Nat) : Bool
/-- The received short tide digest that DIGEST_MISMATCH reports for the own join check, where none is received (R298; log 32). -/
opaque joinDigest (n : Nat) : BitVec 64
/-- What a partner message carries before its data, by its kind and the length of the data: the manual gives its messages no
layout beyond the message kind (Table 10.7; log 34). -/
opaque partnerHead (kind bytes : Nat) : Bytes
/-- The loss value that telemetry reports for a step (R155 gives no form; log 17). -/
opaque lossValue (n : Nat) : BitVec 16
/-- γ of a gradient tensor whose window holds zero markers alone and that had no γ (R52 keeps `the current`; log 20). -/
opaque firstGamma (tensor : Nat) : Int
/-- The γ that an anchor relative to γ takes in a probe step of a gradient tensor without one (R112 gives none; log 20). -/
opaque probeGamma (tensor : Nat) : Int
/-- The answer of the DOE Discovery object, by its payload (PCIe specification; log 18). -/
opaque doeDiscovery (payload : Bytes) : Bytes

end Config
end Sys2Proof
end

