-- ==== Sys2Proof/Machine/Bytes.lean ====
section
/-! DEFINITION. Byte order, record fields and digests: little-endian fields (R7), SHA-384 (FIPS 180-4, named by the
manual), CRC-32C (R290) and the Reed-Solomon check of a flit codeword (R289). -/

namespace Sys2Proof.Machine

/-! ## Little-endian fields (R7) -/

/-- The unsigned integer of a little-endian byte string. -/
def leNat : Bytes → Nat
  | [] => 0
  | b :: bs => b.toNat + 256 * leNat bs

/-- `n` little-endian bytes of `v`. -/
def toLe : Nat → Nat → Bytes
  | 0, _ => []
  | n + 1, v => BitVec.ofNat 8 (v % 256) :: toLe n (v / 256)

/-- `n` bytes of `v`, most significant first. -/
def toBe (n v : Nat) : Bytes := (toLe n v).reverse

/-- The two's complement reading of an unsigned `bits`-bit value. -/
def signed (bits v : Nat) : Int := if v % 2 ^ bits < 2 ^ (bits - 1) then ((v % 2 ^ bits : Nat) : Int) else ((v % 2 ^ bits : Nat) : Int) - 2 ^ bits

/-- The `bits`-bit two's complement pattern of an integer. -/
def pattern (bits : Nat) (v : Int) : Nat := (v % (2 ^ bits : Int)).toNat

/-- Bytes `off` to `off + n − 1` of a record; absent bytes are left out. -/
def slice (r : Bytes) (off n : Nat) : Bytes := (r.drop off).take n

/-- The unsigned field of `n` bytes at `off`. -/
def fld (r : Bytes) (off n : Nat) : Nat := leNat (slice r off n)

/-- The signed field of `n` bytes at `off`. -/
def sfld (r : Bytes) (off n : Nat) : Int := signed (8 * n) (fld r off n)

/-- Bit `i` of a field value. -/
def bit (v i : Nat) : Bool := v.testBit i

/-- Bits [hi:lo] of a field value. -/
def bits (v hi lo : Nat) : Nat := (v / 2 ^ lo) % 2 ^ (hi + 1 - lo)

/-- Every byte of the field is zero (R8). -/
def zeroAt (r : Bytes) (off n : Nat) : Bool := (slice r off n).all (· == 0)

/-- `n` zero bytes. -/
def zeros (n : Nat) : Bytes := List.replicate n 0

/-- A byte string cut or padded with zeros to `n` bytes. -/
def fit (n : Nat) (b : Bytes) : Bytes := b.take n ++ zeros (n - b.length)

/-- Fields (offset, size, value) written into `n` zero bytes, later fields over earlier ones. -/
def layout (n : Nat) (fs : List (Nat × Nat × Nat)) : Bytes :=
  fs.foldl (fun b f => b.take f.1 ++ toLe f.2.1 f.2.2 ++ b.drop (f.1 + f.2.1)) (zeros n)

/-- `b` with the bytes `v` written at `off`. -/
def patch (b : Bytes) (off : Nat) (v : Bytes) : Bytes := b.take off ++ v ++ b.drop (off + v.length)

/-- A byte string cut into records of `n` bytes, at most `k` of them. -/
def chunks (n : Nat) : Nat → Bytes → List Bytes
  | 0, _ => []
  | k + 1, b => if b.isEmpty then [] else b.take n :: chunks n k (b.drop n)

def ceilDiv (a b : Nat) : Nat := (a + b - 1) / b

def roundUp (a m : Nat) : Nat := ceilDiv a m * m

/-- The smallest exponent `e` with `n ≤ 2^e` (`ceil(log2 n)`; 0 for 0). -/
def ceilLog2 (n : Nat) : Nat := if n ≤ 1 then 0 else Nat.log2 (n - 1) + 1

/-- Floor division of an integer by a positive natural number. -/
def floorDiv (a : Int) (b : Nat) : Int := Int.fdiv a b

/-- Ceiling division of an integer by a positive natural number. -/
def ceilDivI (a : Int) (b : Nat) : Int := -(Int.fdiv (-a) b)

/-- `n / d` rounded to nearest, ties to even (R25, R34). -/
def roundHalfEven (n : Int) (d : Nat) : Int :=
  let q := Int.fdiv n d
  let r := (Int.fmod n d).toNat
  if 2 * r < d then q else if d < 2 * r then q + 1 else if q % 2 = 0 then q else q + 1

/-! ## SHA-384 (FIPS 180-4) -/

def primes80 : List Nat :=
  [2, 3, 5, 7, 11, 13, 17, 19, 23, 29, 31, 37, 41, 43, 47, 53, 59, 61, 67, 71,
   73, 79, 83, 89, 97, 101, 103, 107, 109, 113, 127, 131, 137, 139, 149, 151, 157, 163, 167, 173,
   179, 181, 191, 193, 197, 199, 211, 223, 227, 229, 233, 239, 241, 251, 257, 263, 269, 271, 277, 281,
   283, 293, 307, 311, 313, 317, 331, 337, 347, 349, 353, 359, 367, 373, 379, 383, 389, 397, 401, 409]

/-- The largest `r` of at most `b` bits with `r^k ≤ n`, bit by bit from the top. -/
def rootBits (k n : Nat) : Nat → Nat → Nat
  | 0, r => r
  | b + 1, r => let r' := r + 2 ^ b; if r' ^ k ≤ n then rootBits k n b r' else rootBits k n b r

/-- The first 64 bits of the fraction of the `k`-th root of `p`. -/
def rootFrac (k p : Nat) : Nat := rootBits k (p * 2 ^ (64 * k)) 70 0 % 2 ^ 64

def shaK : List (BitVec 64) := primes80.map fun p => BitVec.ofNat 64 (rootFrac 3 p)

def sha384Init : List (BitVec 64) :=
  [23, 29, 31, 37, 41, 43, 47, 53].map fun p => BitVec.ofNat 64 (rootFrac 2 p)

/-- Zero bytes after the 0x80 byte, so that the padded length is a multiple of 128. -/
def shaZeros (len : Nat) : Nat := (128 - (len + 17) % 128) % 128

def shaPadded (m : Bytes) : Bytes := m ++ [0x80] ++ zeros (shaZeros m.length) ++ toBe 16 (8 * m.length)

def beWord (b : Bytes) : BitVec 64 := BitVec.ofNat 64 (leNat b.reverse)

def shaSmall (a b c : Nat) (x : BitVec 64) : BitVec 64 := x.rotateRight a ^^^ x.rotateRight b ^^^ (x >>> c)
def shaBig (a b c : Nat) (x : BitVec 64) : BitVec 64 := x.rotateRight a ^^^ x.rotateRight b ^^^ x.rotateRight c

/-- The message schedule, newest word first, `k` more words. -/
def shaExpand : Nat → List (BitVec 64) → List (BitVec 64)
  | 0, w => w
  | k + 1, w =>
    let x := shaSmall 19 61 6 (w.getD 1 0) + w.getD 6 0 + shaSmall 1 8 7 (w.getD 14 0) + w.getD 15 0
    shaExpand k (x :: w)

structure ShaVars where
  (a b c d e f g h : BitVec 64)

def shaRound (v : ShaVars) (kw : BitVec 64 × BitVec 64) : ShaVars :=
  let t1 := v.h + shaBig 14 18 41 v.e + ((v.e &&& v.f) ^^^ (~~~v.e &&& v.g)) + kw.1 + kw.2
  let t2 := shaBig 28 34 39 v.a + ((v.a &&& v.b) ^^^ (v.a &&& v.c) ^^^ (v.b &&& v.c))
  { a := t1 + t2, b := v.a, c := v.b, d := v.c, e := v.d + t1, f := v.e, g := v.f, h := v.g }

def shaBlock (hs : List (BitVec 64)) (blk : Bytes) : List (BitVec 64) :=
  let w := (shaExpand 64 ((chunks 8 16 blk).map beWord).reverse).reverse
  let v0 : ShaVars := ⟨hs.getD 0 0, hs.getD 1 0, hs.getD 2 0, hs.getD 3 0, hs.getD 4 0, hs.getD 5 0, hs.getD 6 0, hs.getD 7 0⟩
  let v := (shaK.zip w).foldl shaRound v0
  List.zipWith (· + ·) hs [v.a, v.b, v.c, v.d, v.e, v.f, v.g, v.h]

/-- SHA-384 of a byte string, 48 bytes. -/
def sha384 (m : Bytes) : Bytes :=
  let p := shaPadded m
  let hs := (chunks 128 (p.length / 128) p).foldl shaBlock sha384Init
  (hs.flatMap fun w => toBe 8 w.toNat).take 48

/-! ## HMAC and HKDF over SHA-384 (R457) -/

/-- HMAC-SHA-384 (RFC 2104), with its block of 128 bytes. -/
def hmac384 (key msg : Bytes) : Bytes :=
  let k := fit 128 (if 128 < key.length then sha384 key else key)
  sha384 (k.map (· ^^^ 0x5C) ++ sha384 (k.map (· ^^^ 0x36) ++ msg))

/-- HKDF-SHA-384 (RFC 5869) for an output of at most 48 bytes, which takes one round of the expansion. -/
def hkdf384 (salt secret info : Bytes) (n : Nat) : Bytes := (hmac384 (hmac384 salt secret) (info ++ [1])).take n

/-- The ASCII bytes of a text. -/
def ascii (t : String) : Bytes := t.toList.map fun c => BitVec.ofNat 8 c.toNat

/-! ## CRC-32C of a flit (R290) -/

def crcBits : Nat → BitVec 32 → BitVec 32
  | 0, c => c
  | n + 1, c => crcBits n (if c.getLsbD 0 then (c >>> 1) ^^^ 0x82F63B78#32 else c >>> 1)

def crc32c (m : Bytes) : BitVec 32 :=
  ~~~(m.foldl (fun c b => crcBits 8 (c ^^^ b.setWidth 32)) 0xFFFFFFFF#32)

/-! ## The flit code RS(134, 128) over GF(2^8) (R289) -/

def gfDouble (a : BitVec 8) : BitVec 8 := if a.getLsbD 7 then (a <<< 1) ^^^ 0x1D#8 else a <<< 1

def gfMulBits : Nat → BitVec 8 → BitVec 8 → BitVec 8
  | 0, _, _ => 0
  | n + 1, a, b => (if b.getLsbD 0 then a else 0) ^^^ gfMulBits n (gfDouble a) (b >>> 1)

def gfMul (a b : BitVec 8) : BitVec 8 := gfMulBits 8 a b

/-- α^i, with α = x a root of x^8 + x^4 + x^3 + x^2 + 1. -/
def gfAlpha : Nat → BitVec 8
  | 0 => 1
  | n + 1 => gfDouble (gfAlpha n)

/-- The value of the codeword polynomial at a point, first symbol of the highest degree. -/
def gfEval (word : Bytes) (x : BitVec 8) : BitVec 8 := word.foldl (fun acc s => gfMul acc x ^^^ s) 0

/-- The six syndromes of a word: its values at the roots α^0 to α^5 of the generator. -/
def rsSyndromes (word : Bytes) : Bytes := (List.range 6).map fun i => gfEval word (gfAlpha i)

/-- A word of 134 symbols is a codeword when the roots of the generator are its roots. -/
def rsIsCodeword (word : Bytes) : Bool := (rsSyndromes word).all (· == 0)

/-- 1 / a as a^254; 0 for 0. -/
def gfInv (a : BitVec 8) : BitVec 8 :=
  ((List.range 7).foldl (fun (p : BitVec 8 × BitVec 8) _ => let q := gfMul p.1 p.1; (q, gfMul p.2 q)) (a, 1)).2

/-- Sum of two polynomials, lowest degree first. -/
def polyAdd : Bytes → Bytes → Bytes
  | [], q => q
  | p, [] => p
  | a :: p, b :: q => (a ^^^ b) :: polyAdd p q

def polyScale (c : BitVec 8) (p : Bytes) : Bytes := p.map (gfMul c)

def polyMul : Bytes → Bytes → Bytes
  | [], _ => []
  | a :: p, q => polyAdd (polyScale a q) (0 :: polyMul p q)

/-- The value of a polynomial, lowest degree first. -/
def polyAt (p : Bytes) (x : BitVec 8) : BitVec 8 := p.foldr (fun c a => c ^^^ gfMul x a) 0

/-- The generator (x − α^0) … (x − α^5) without its leading term, highest degree first. -/
def rsGenerator : Bytes := (((List.range 6).foldl (fun g i => polyMul [gfAlpha i, 1] g) [1]).take 6).reverse

/-- The six check symbols of 128 message symbols: the remainder of the message times x^6, first symbol of the highest degree. -/
def rsChecks (msg : Bytes) : Bytes :=
  msg.foldl (fun reg m =>
    let fb := m ^^^ reg.headD 0
    List.zipWith (· ^^^ ·) (reg.drop 1 ++ [0]) (polyScale fb rsGenerator)) (zeros 6)

/-- The error locator of the Berlekamp–Massey recursion: the locator, the last one that changed the length, the length, the shift
since then and its discrepancy. -/
structure RsLocator where
  (c b : Bytes)
  (l m : Nat)
  d : BitVec 8

def RsLocator.step (syn : Bytes) (s : RsLocator) (n : Nat) : RsLocator :=
  let d := (List.range (s.l + 1)).foldl (fun a i => a ^^^ gfMul (s.c.getD i 0) (syn.getD (n - i) 0)) 0
  let c := polyAdd s.c (zeros s.m ++ polyScale (gfMul d (gfInv s.d)) s.b)
  if d == 0 then { s with m := s.m + 1 }
  else if 2 * s.l ≤ n then ⟨c, s.c, n + 1 - s.l, 1, d⟩
  else { s with c := c, m := s.m + 1 }

/-- The locator polynomial of the errors of a word, and their number. -/
def rsLocator (syn : Bytes) : Bytes × Nat :=
  let s := (List.range 6).foldl (RsLocator.step syn) ⟨[1], [1], 0, 1, 1⟩
  (s.c, s.l)

/-- The symbols that the errors add at the degrees where the locator vanishes: (index in the word, error). -/
def rsErrors (n : Nat) (syn loc : Bytes) : List (Nat × BitVec 8) :=
  let value := (polyMul syn loc).take 6
  let slope := (loc.drop 1).zipIdx.map fun p => if p.2 % 2 = 0 then p.1 else 0
  ((List.range n).foldl (fun (acc : BitVec 8 × List (Nat × BitVec 8)) j =>
    let x := acc.1
    (gfMul x (gfAlpha 254),
      if polyAt loc x == 0 then acc.2 ++ [(n - 1 - j, gfMul (gfInv x) (gfMul (polyAt value x) (gfInv (polyAt slope x))))] else acc.2))
    (1, [])).2

/-- Up to three symbols of a word corrected: the codeword and the symbols changed; none where no codeword lies that near. -/
def rsCorrect (word : Bytes) : Option (Bytes × Nat) :=
  let syn := rsSyndromes word
  if syn.all (· == 0) then some (word, 0)
  else
    let loc := rsLocator syn
    let es := rsErrors word.length syn loc.1
    let fixed := es.foldl (fun (w : Bytes) e => w.set e.1 (w.getD e.1 0 ^^^ e.2)) word
    if loc.2 ≤ 3 && es.length == loc.2 && rsIsCodeword fixed then some (fixed, loc.2) else none

/-- Every second byte from `k`. -/
def everySecond (k : Nat) : Bytes → Bytes
  | [] => []
  | b :: bs => if k % 2 = 0 then b :: everySecond (k + 1) bs else everySecond (k + 1) bs

/-- Two byte strings of one length, interleaved. -/
def interleave (a b : Bytes) : Bytes := (a.zip b).flatMap fun p => [p.1, p.2]

/-- The 268-byte codeword of a flit: even bytes with checks 0 to 5, odd bytes with checks 6 to 11 (R289). -/
def flitCodeword (flit : Bytes) : Bytes := flit ++ rsChecks (everySecond 0 flit) ++ rsChecks (everySecond 1 flit)

/-- The flit that a received codeword holds and the symbols corrected; none where either half cannot be corrected (R289). -/
def flitOf (cw : Bytes) : Option (Bytes × Nat) :=
  if cw.length != 268 then none
  else match rsCorrect (everySecond 0 (cw.take 256) ++ slice cw 256 6), rsCorrect (everySecond 1 (cw.take 256) ++ slice cw 262 6) with
    | some a, some b => some (interleave (a.1.take 128) (b.1.take 128), a.2 + b.2)
    | _, _ => none

/-- The CRC of a flit, over its bytes 0x00 to 0xFB (Table 10.1). -/
def flitCrcOk (flit : Bytes) : Bool := fld flit 0xFC 4 == (crc32c (flit.take 0xFC)).toNat

/-- The alignment block of a superframe (R288): marker, lane, port, superframe count, filler. -/
def alignmentBlock (lane port count : Nat) : Bytes :=
  [0x3C, 0xC3, 0x5A, 0xA5, 0x96, 0x69, 0x0F, 0xF0, BitVec.ofNat 8 lane, BitVec.ofNat 8 port] ++ toLe 8 count
    ++ List.replicate 53 0x55

/-! ## Lists -/

/-- Bit `i` set where `b` holds. -/
def flag (b : Bool) (i : Nat) : Nat := if b then 2 ^ i else 0

def sumList (l : List Nat) : Nat := l.foldl (· + ·) 0

def insertSorted {α : Type} (lt : α → α → Bool) (x : α) : List α → List α
  | [] => [x]
  | y :: ys => if lt x y then x :: y :: ys else y :: insertSorted lt x ys

def sortBy {α : Type} (lt : α → α → Bool) (l : List α) : List α := l.foldl (fun acc x => insertSorted lt x acc) []

end Sys2Proof.Machine
end

