-- ==== Sys2Proof/Machine/Address.lean ====
section
/-! DEFINITION. The address map and the placement of arrays (spec/07, R187 to R189; spec/09, R262). -/

namespace Sys2Proof.Machine

/-- 2 MiB, one page; 24 MiB, one interleave group; 4 KiB, one granule. -/
def pageSize : Nat := 2097152
def groupSize : Nat := 25165824
def granuleSize : Nat := 4096

/-- The hall of an address (R188). -/
def hallOf (addr : Nat) : Nat := if addr < Config.hall1Base then 0 else 1

/-- The hall offset of an address (R188). -/
def hallOffset (addr : Nat) : Nat := addr - hallOf addr * Config.hall1Base

/-- R187: an address that names a byte of a pile. -/
def exists? (addr : Nat) : Bool := addr < Config.memoryEnd

/-- Whether an address lies in a device region (Table 7.2). -/
def inDeviceRegion (addr : Nat) : Bool := Config.hall1Base - Config.deviceRegion ≤ hallOffset addr

/-- Whether a byte range lies in job memory: one hall, below its device region (Table 7.2). -/
def inJobMemory (base len : Nat) : Bool :=
  exists? base && hallOf base == hallOf (base + len - 1) && hallOffset base + len ≤ Config.hall1Base - Config.deviceRegion

/-- A pinned range: hall, first group, group count (R261). -/
structure Pinned where
  hall : Nat
  first : Nat
  count : Nat
deriving DecidableEq, Repr

/-- Whether an interleave group is pinned. -/
def isPinned (ps : List Pinned) (hall grp : Nat) : Bool :=
  ps.any fun p => p.hall == hall && p.first ≤ grp && grp < p.first + p.count

/-- R188: the pile of an address and its pile-local address. -/
def locate (ps : List Pinned) (addr : Nat) : Nat × Nat :=
  let hall := hallOf addr
  let o := hallOffset addr
  let g := o / granuleSize
  let grp := g / 6144
  let c := g % 6144
  let q := if isPinned ps hall grp then (c / 512, grp * 512 + c % 512)
    else ((c + c / 12 + c / 144) % 12, g / 12)
  (12 * hall + q.1, q.2 * granuleSize + o % granuleSize)

/-- R189, Table 7.3: the fields of a pile-local address. -/
structure PileFields where
  byte : Nat
  line : Nat
  channel : Nat
  column : Nat
  bank : Nat
  row : Nat
deriving DecidableEq, Repr

def pileFields (a : Nat) : PileFields :=
  ⟨bits a 5 0, bits a 7 6, bits a 11 8, bits a 14 12, bits a 19 15, bits a 35 20⟩

/-- R262: the address of tile `n` of a tile-dealt array of unit `z`. -/
def dealt (base n z : Nat) : Nat :=
  let q := (pageSize - base % pageSize) / z
  let grp := n / (12 * q)
  let r := n % (12 * q)
  base + grp * groupSize + r % 12 * pageSize + r / 12 * z

/-- The byte ranges (base, length) that tiles 0 to `n − 1` of a tile-dealt array touch: one for each page used. -/
def dealtRanges (base n z : Nat) : List (Nat × Nat) :=
  let q := (pageSize - base % pageSize) / z
  (List.range (ceilDiv n (12 * q))).flatMap fun g =>
    let m := min (12 * q) (n - 12 * q * g)
    (List.range (min 12 m)).map fun k => (base + g * groupSize + k * pageSize, ceilDiv (m - k) 12 * z)

/-- The groups (hall, group) that a byte range touches. -/
def groupsOf (base len : Nat) : List (Nat × Nat) :=
  let g0 := hallOffset base / groupSize
  let g1 := (hallOffset base + len - 1) / groupSize
  (List.range (g1 + 1 - g0)).map fun i => (hallOf base, g0 + i)

/-- The page numbers that a byte range touches. -/
def pagesOf (base len : Nat) : List Nat :=
  if len = 0 then [] else (List.range ((base + len - 1) / pageSize + 1 - base / pageSize)).map (base / pageSize + ·)

/-- The quays that hold granules of a byte range (R188). -/
def quaysOf (ps : List Pinned) (base len : Nat) : List Nat :=
  let gs := (base + len - 1) / granuleSize + 1 - base / granuleSize
  ((List.range (min gs 6144)).map fun i => (locate ps ((base / granuleSize + i) * granuleSize)).1).eraseDups

/-- The granules of page `page` that lie on a quay: its fragment (R214). -/
def fragmentOf (ps : List Pinned) (quay page : Nat) : List Nat :=
  ((List.range 512).map fun i => page * pageSize + i * granuleSize).filter fun a => (locate ps a).1 == quay

end Sys2Proof.Machine
end

