-- ==== Sys2Proof/Machine/Numbers.lean ====
section
/-! DEFINITION. Numbers held as logarithms: every format, rounding and conversion (spec/01, R10 to R42). -/

namespace Sys2Proof.Machine

/-- The formats, with the codes of Table 9.3 (L19 among them: never stored, R18). -/
inductive Fmt where
  | l2 | l4 | l8 | l16 | g16 | ledger | l19 | e4m3 | e5m2 | binary16 | bfloat16 | binary32
deriving DecidableEq, Repr

def Fmt.ofCode : Nat → Option Fmt
  | 0x01 => some .l2 | 0x02 => some .l4 | 0x03 => some .l8 | 0x04 => some .l16 | 0x05 => some .g16
  | 0x08 => some .ledger | 0x09 => some .l19 | 0x10 => some .e4m3 | 0x11 => some .e5m2
  | 0x12 => some .binary16 | 0x13 => some .bfloat16 | 0x14 => some .binary32 | _ => none

def Fmt.toCode : Fmt → Nat
  | .l2 => 0x01 | .l4 => 0x02 | .l8 => 0x03 | .l16 => 0x04 | .g16 => 0x05 | .ledger => 0x08 | .l19 => 0x09
  | .e4m3 => 0x10 | .e5m2 => 0x11 | .binary16 => 0x12 | .bfloat16 => 0x13 | .binary32 => 0x14

def Fmt.isPublic : Fmt → Bool
  | .e4m3 | .e5m2 | .binary16 | .bfloat16 | .binary32 => true
  | _ => false

/-- Formats that carry one S8 scale per block of 32 (R10). -/
def Fmt.isBlock : Fmt → Bool
  | .l2 | .l4 | .l8 => true
  | _ => false

/-- Bits of one element code. -/
def Fmt.bits : Fmt → Nat
  | .l2 => 2 | .l4 | .ledger => 4 | .l8 | .e4m3 | .e5m2 => 8
  | .l16 | .g16 | .binary16 | .bfloat16 => 16 | .l19 => 19 | .binary32 => 32

/-- The meaning of an L19 code (R18): zero, NaR, an infinity, or sign and k, magnitude 2^(k/1024). -/
inductive Val where
  | zero
  | nar
  | inf (neg : Bool)
  | num (neg : Bool) (k : Int)
deriving DecidableEq, Repr

/-- What a conversion reports to the statistics of the tensor it writes (R26, R27). -/
inductive Note where
  | quiet
  | flush
  | sat
deriving DecidableEq, Repr

/-- The L19 code of a value. -/
def Val.code : Val → Nat
  | .zero => 0
  | .nar => 0x40000
  | .inf neg => (if neg then 0x40000 else 0) + 0x3FFFF
  | .num neg k => (if neg then 0x40000 else 0) + (k + 131072).toNat

/-- The value of an L19 code (R18, Table 1.7). -/
def Val.ofCode (c : Nat) : Val :=
  let m := c % 0x40000
  let neg := c.testBit 18
  if m = 0 then (if neg then .nar else .zero)
  else if m = 0x3FFFF then .inf neg
  else .num neg (m - 131072)

/-- A finite result of position k with the range of R26, R27 and R142: infinity above, zero (flushed) below. -/
def Val.ofK (neg : Bool) (k : Int) : Val × Note :=
  if 131070 < k then (.inf neg, .quiet)
  else if k < -131071 then (.zero, .flush)
  else (.num neg k, .quiet)

def Val.negate : Val → Val
  | .num neg k => .num (!neg) k
  | .inf neg => .inf (!neg)
  | v => v

def Val.isZero : Val → Bool
  | .zero => true
  | _ => false

def Val.isNar : Val → Bool
  | .nar => true
  | _ => false

/-- `some k` of a finite nonzero value. -/
def Val.k? : Val → Option Int
  | .num _ k => some k
  | _ => none

def Val.isNeg : Val → Bool
  | .num neg _ => neg
  | .inf neg => neg
  | _ => false

/-- The value 1. -/
def Val.one : Val := .num false 0

/-! ## Reading codes (R11 to R19) -/

/-- The S8 code of a scale byte, −128 marking the zero block (R11). -/
def s8OfByte (b : Nat) : Int := signed 8 b

def byteOfS8 (s : Int) : Nat := pattern 8 s

/-- The value of an element code against a block scale (Tables 1.3 to 1.6). The scale is ignored by L16. A block
whose scale is 0x80 reads as zero (R12). -/
def decodeLog (f : Fmt) (s8 : Int) (c : Nat) : Val :=
  match f with
  | .l2 =>
    if s8 = -128 then .zero
    else match c % 4 with
      | 0 => .zero
      | 1 => .num false (512 * s8)
      | 2 => .nar
      | _ => .num true (512 * s8)
  | .l4 =>
    let m := c % 8
    if s8 = -128 then .zero
    else if m = 0 then (if c.testBit 3 then .nar else .zero)
    else .num (c.testBit 3) (512 * s8 + 512 * (m - 7))
  | .l8 =>
    let m := c % 128
    if s8 = -128 then .zero
    else if m = 0 then (if c.testBit 7 then .nar else .zero)
    else .num (c.testBit 7) (512 * s8 + 128 * (m - 127))
  | .l16 =>
    let m := c % 32768
    if m = 0 then (if c.testBit 15 then .nar else .zero)
    else .num (c.testBit 15) (2 * ((m : Int) - 16384))
  | .l19 => Val.ofCode c
  | _ => .zero

/-- The NaR code of a log format. -/
def narCode : Fmt → Nat
  | .l2 => 2 | .l4 => 8 | .l8 => 0x80 | .l16 => 0x8000 | .g16 => 0x8000 | .l19 => 0x40000
  | .e4m3 => 0x7F | .e5m2 => 0x7E | .binary16 => 0x7E00 | .bfloat16 => 0x7FC0 | .binary32 => 0x7FC00000
  | .ledger => 0

/-- The code of a sign and a nonzero magnitude field. -/
def signMag (f : Fmt) (neg : Bool) (m : Nat) : Nat :=
  match f with
  | .l2 => if neg then 3 else 1
  | .l4 => (if neg then 8 else 0) + m
  | .l8 => (if neg then 0x80 else 0) + m
  | .l16 => (if neg then 0x8000 else 0) + m
  | _ => (if neg then 0x40000 else 0) + m

/-- The largest magnitude field (Table 1.9). -/
def maxM : Fmt → Nat
  | .l2 => 1 | .l4 => 7 | .l8 => 127 | .l16 => 32767 | _ => 262142

/-- The exact code position m* of R28, in units of 1/1024. -/
def position (f : Fmt) (s8 k : Int) : Int :=
  match f with
  | .l2 => 1024 + (k - 512 * s8)
  | .l4 => 7 * 1024 + 2 * (k - 512 * s8)
  | .l8 => 127 * 1024 + 8 * (k - 512 * s8)
  | .l16 => 16384 * 1024 + 512 * k
  | _ => 1024 * (k + 131072)

/-- R25 to R27: nearest magnitude field of a position in 1/1024, and what it reports. -/
def roundPos (maxm : Nat) (pos : Int) : Nat × Note :=
  if (1024 * maxm + 512 : Int) < pos then (maxm, .sat)
  else
    let r := roundHalfEven pos 1024
    if r ≤ 0 then (0, .flush) else (min r.toNat maxm, .quiet)

/-- R32: stochastic magnitude field, with the draw `u`. -/
def stochPos (maxm : Nat) (pos : Int) (u : Nat) : Nat × Note :=
  if pos < 0 then (0, .flush)
  else if (1024 * maxm : Int) < pos then roundPos maxm pos
  else
    let lo := (Int.fdiv pos 1024).toNat
    let f := (Int.fmod pos 1024).toNat
    let m := if u < f * 2 ^ 22 then lo + 1 else lo
    if m = 0 then (0, .flush) else (m, .quiet)

/-- R28: an L19 value narrowed into a log format; `u` is the draw where R30 applies. -/
def narrow (f : Fmt) (s8 : Int) (u : Option Nat) (v : Val) : Nat × Note :=
  match v with
  | .zero => (0, .quiet)
  | .nar => (narCode f, .quiet)
  | .inf neg => (signMag f neg (maxM f), .sat)
  | .num neg k =>
    let p := position f s8 k
    let r := match u with
      | none => roundPos (maxM f) p
      | some d => stochPos (maxM f) p d
    if r.1 = 0 then (0, r.2) else (signMag f neg r.1, r.2)

/-! ## From linear values (R28, R29) -/

/-- floor(log2 (n/d)) of positive integers. -/
def floorLog2Q (n d : Nat) : Int :=
  let e : Int := (Nat.log2 n : Int) - (Nat.log2 d : Int)
  if 0 ≤ e then (if d * 2 ^ e.toNat ≤ n then e else e - 1)
  else (if d ≤ n * 2 ^ (-e).toNat then e else e - 1)

/-- The nearest k of 1024 log2 (n/d): no value n/d lies on a midpoint (R25). -/
def nearestK (n d : Nat) : Int := Int.fdiv (floorLog2Q (n ^ 2048) (d ^ 2048) + 1) 2

/-- The truncated k: the largest code that does not exceed the magnitude. -/
def truncK (n d : Nat) : Int := floorLog2Q (n ^ 1024) (d ^ 1024)

/-- R29: a linear value ±n/d into L19, correctly rounded. -/
def linearToL19 (neg : Bool) (n d : Nat) : Val × Note :=
  if n = 0 then (.zero, .quiet) else Val.ofK neg (nearestK n d)

/-- R29: truncation never gives infinity. -/
def linearToL19Trunc (neg : Bool) (n d : Nat) : Val :=
  if n = 0 then .zero
  else
    let k := truncK n d
    if k < -131071 then .zero else .num neg (min k 131070)

/-- A rational on the grid: n · 2^e as a linear value into L19. -/
def dyadicToL19 (neg : Bool) (n : Nat) (e : Int) : Val × Note :=
  if 0 ≤ e then linearToL19 neg (n * 2 ^ e.toNat) 1 else linearToL19 neg n (2 ^ (-e).toNat)

def dyadicToL19Trunc (neg : Bool) (n : Nat) (e : Int) : Val :=
  if 0 ≤ e then linearToL19Trunc neg (n * 2 ^ e.toNat) 1 else linearToL19Trunc neg n (2 ^ (-e).toNat)

/-! ## The draw (R31) -/

def w64 : Nat := 18446744073709551616

def mix64 (x : Nat) : Nat :=
  let x := (x ^^^ (x >>> 30)) * 0xBF58476D1CE4E5B9 % w64
  let x := (x ^^^ (x >>> 27)) * 0x94D049BB133111EB % w64
  x ^^^ (x >>> 31)

/-- The 32-bit draw of seed, step, stream and element index. -/
def draw (seed step stream index : Nat) : Nat :=
  let x := mix64 ((seed ^^^ 0x9E3779B97F4A7C15) % w64)
  let x := mix64 ((x ^^^ step) % w64)
  let x := mix64 ((x ^^^ ((stream <<< 48) ||| index)) % w64)
  x >>> 32

/-! ## Linear formats (R19 to R21, R34 to R36) -/

/-- n · 2^k, rounded to nearest even on the exact quotient where k is negative (R34, R86). -/
def shiftRound (n k : Int) : Int :=
  if 0 ≤ k then n * 2 ^ k.toNat else roundHalfEven n (2 ^ (-k).toNat)

/-- A conversion onto a G16 grid from 2^a: clamp and report (R34). -/
def toG16 (n : Int) (a gamma : Int) : Int × Note :=
  let q := shiftRound n (a - (gamma - 15))
  if 32767 < q then (32767, .sat)
  else if q < -32767 then (-32767, .sat)
  else if q = 0 ∧ n ≠ 0 then (0, .flush)
  else (q, .quiet)

/-- A conversion onto the P32 grid; `none` is the cliff of R34. -/
def toP32 (n a beta : Int) : Option Int :=
  let p := shiftRound n (a - (beta - 24))
  if 2147483647 < p ∨ p < -2147483647 then none else some p

/-- A conversion onto the A64 grid; `none` is the cliff of R34. -/
def toA64 (n a alpha : Int) : Option Int :=
  let p := shiftRound n (a - (alpha - 48))
  if 9223372036854775807 < p ∨ p < -9223372036854775807 then none else some p

/-- round(2^(t/1024)) to nearest even, for t below 17 · 1024 (R35). -/
def roundPow2 (t : Int) : Nat :=
  if t ≤ -1024 then 0
  else (rootBits 1024 (2 ^ (t + 1024).toNat) 19 0 + 1) / 2

/-- R35: a log value into G16. -/
def logToG16 (gamma : Int) : Val → Option Int × Note
  | .zero => (some 0, .quiet)
  | .nar => (none, .quiet)
  | .inf neg => (some (if neg then -32767 else 32767), .sat)
  | .num neg k =>
    let t := k - 1024 * (gamma - 15)
    if 16 * 1024 ≤ t then (some (if neg then -32767 else 32767), .sat)
    else
      let q := roundPow2 t
      if q = 0 then (some 0, .flush)
      else if 32767 < q then (some (if neg then -32767 else 32767), .sat)
      else (some (if neg then -(q : Int) else q), .quiet)

/-- The integer of a G16 code; `none` is NaR (R19). -/
def g16OfCode (c : Nat) : Option Int := if c % 65536 = 0x8000 then none else some (signed 16 c)

def g16Code : Option Int → Nat
  | none => 0x8000
  | some q => pattern 16 q

/-- R36: a G16 value into L19, correctly rounded. -/
def g16ToL19 (gamma : Int) : Option Int → Val
  | none => .nar
  | some q => (dyadicToL19 (q < 0) q.natAbs (gamma - 15)).1

/-- The integer of a P32 pattern (R21). -/
def p32OfCode (c : Nat) : Option Int := if c % 4294967296 = 0x80000000 then none else some (signed 32 c)

def p32Code : Option Int → Nat
  | none => 0x80000000
  | some p => pattern 32 p

/-- The integer of a stored A64 pattern (R20). -/
def a64OfCode (c : Nat) : Option Int := if c % w64 = 0x8000000000000000 then none else some (signed 64 c)

def a64Code : Option Int → Nat
  | none => 0x8000000000000000
  | some n => pattern 64 n

/-! ## Public formats (R38 to R41, Table 1.10) -/

structure PubParams where
  expBits : Nat
  bias : Nat
  frac : Nat
deriving DecidableEq, Repr

def pubParams : Fmt → PubParams
  | .e4m3 => ⟨4, 7, 3⟩
  | .e5m2 => ⟨5, 15, 2⟩
  | .binary16 => ⟨5, 15, 10⟩
  | .bfloat16 => ⟨8, 127, 7⟩
  | _ => ⟨8, 127, 23⟩

/-- R39: a public code read in the load path becomes an L19 value. -/
def loadPublic (f : Fmt) (truncate : Bool) (c : Nat) : Val :=
  let p := pubParams f
  let fr := c % 2 ^ p.frac
  let ex := c / 2 ^ p.frac % 2 ^ p.expBits
  let neg := c.testBit (p.frac + p.expBits)
  let top := 2 ^ p.expBits - 1
  if f = .e4m3 ∧ ex = 15 ∧ fr = 7 then .nar
  else if f ≠ .e4m3 ∧ ex = top then (if fr = 0 then .inf neg else .nar)
  else if ex = 0 then .zero
  else
    let e : Int := (ex : Int) - p.bias - p.frac
    if truncate then dyadicToL19Trunc neg (2 ^ p.frac + fr) e else (dyadicToL19 neg (2 ^ p.frac + fr) e).1

/-- The code of a public format from sign, biased exponent and fraction. -/
def pubCode (p : PubParams) (neg : Bool) (ex fr : Nat) : Nat :=
  (if neg then 2 ^ (p.frac + p.expBits) else 0) + ex * 2 ^ p.frac + fr

/-- The largest finite code of a public format. -/
def pubMax (f : Fmt) (neg : Bool) : Nat :=
  let p := pubParams f
  if f = .e4m3 then pubCode p neg 15 6 else pubCode p neg (2 ^ p.expBits - 2) (2 ^ p.frac - 1)

/-- What a public format writes where a value overflows (R40, R41). -/
def pubOverflow (f : Fmt) (ieee neg : Bool) : Nat :=
  let p := pubParams f
  if f = .e4m3 ∨ (f = .e5m2 ∧ !ieee) then pubMax f neg else pubCode p neg (2 ^ p.expBits - 1) 0

/-- R40: a value written in the store path becomes a public code. -/
def storePublic (f : Fmt) (ieee : Bool) (v : Val) : Nat × Note :=
  let p := pubParams f
  match v with
  | .nar => (narCode f, .quiet)
  | .zero => (0, .quiet)
  | .inf neg => if f = .e4m3 ∨ (f = .e5m2 ∧ !ieee) then (pubMax f neg, .sat) else (pubOverflow f ieee neg, .quiet)
  | .num neg k =>
    let e := Int.fdiv k 1024
    let j := (Int.fmod k 1024).toNat
    if e < 1 - (p.bias : Int) then (if neg then 2 ^ (p.frac + p.expBits) else 0, .flush)
    else
      let sig := (rootBits 1024 (2 ^ (j + 1024 * (p.frac + 1))) (p.frac + 3) 0 + 1) / 2
      let e' := if sig = 2 ^ (p.frac + 1) then e + 1 else e
      let fr := sig % 2 ^ p.frac
      let ex := (e' + p.bias).toNat
      let ovf := if f = .e4m3 then 15 < ex ∨ (ex = 15 ∧ fr = 7) else 2 ^ p.expBits - 1 ≤ ex
      if ovf then (pubOverflow f ieee neg, .sat) else (pubCode p neg ex fr, .quiet)

/-! ## Packing (R13) -/

/-- Bytes of the codes of one block of 32. -/
def blockBytes : Fmt → Nat
  | .l2 => 8 | .l4 | .ledger => 16 | .l8 | .e4m3 | .e5m2 => 32 | .binary32 => 128 | _ => 64

/-- Codes of `n` elements unpacked from bytes. -/
def unpack (f : Fmt) (n : Nat) (b : Bytes) : List Nat :=
  match f with
  | .l2 => (List.range n).map fun i => (b.getD (i / 4) 0).toNat / 4 ^ (i % 4) % 4
  | .l4 | .ledger => (List.range n).map fun i => (b.getD (i / 2) 0).toNat / 16 ^ (i % 2) % 16
  | .l8 | .e4m3 | .e5m2 => (List.range n).map fun i => (b.getD i 0).toNat
  | .binary32 => (List.range n).map fun i => fld b (4 * i) 4
  | _ => (List.range n).map fun i => fld b (2 * i) 2

/-- Combine groups of `g` codes of `w` bits into bytes. -/
def packBits (w g : Nat) : Nat → List Nat → Bytes
  | 0, _ => []
  | fuel + 1, cs =>
    if cs.isEmpty then []
    else BitVec.ofNat 8 ((cs.take g).foldr (fun c acc => acc * 2 ^ w + c % 2 ^ w) 0) :: packBits w g fuel (cs.drop g)

/-- Codes packed in ascending element order from bit 0 of the first byte (R13). -/
def packCodes (f : Fmt) (cs : List Nat) : Bytes :=
  match f with
  | .l2 => packBits 2 4 cs.length cs
  | .l4 | .ledger => packBits 4 2 cs.length cs
  | .l8 | .e4m3 | .e5m2 => cs.map (BitVec.ofNat 8 ·)
  | .binary32 => cs.flatMap (toLe 4 ·)
  | _ => cs.flatMap (toLe 2 ·)

/-! ## Statistics of a conversion -/

def TensorStat.empty : TensorStat := ⟨none, false, false, 0, 0, 0, 0, 0⟩

/-- The maximum of amax exponents; the zero marker is below every ε (Table 10.8). -/
def maxEps : Option Int → Option Int → Option Int
  | none, b => b
  | a, none => a
  | some a, some b => some (max a b)

/-- R44, Table 10.8: maxima, integer sums and ORs; each sum saturates at all ones. -/
def satSum (a b : Nat) : Nat := min (a + b) allOnes64

def mergeStat (a b : TensorStat) : TensorStat :=
  { eps := maxEps a.eps b.eps, cliff := a.cliff || b.cliff, nar := a.nar || b.nar,
    c := satSum a.c b.c, f := satSum a.f b.f, f4 := satSum a.f4 b.f4, sat := satSum a.sat b.sat, dom := satSum a.dom b.dom }

/-- Count one conversion's note; on an overflow-is-fault tensor a saturation is a cliff (R27, R34, R40). -/
def countNote (fault : Bool) (n : Note) (s : TensorStat) : TensorStat :=
  match n with
  | .quiet => s
  | .flush => { s with f := satSum s.f 1 }
  | .sat => if fault then { s with cliff := true } else { s with sat := satSum s.sat 1 }

end Sys2Proof.Machine
end

