-- ==== Sys2Proof/Machine/Scales.lean ====
section
/-! DEFINITION. Scale recipes: block scales, gradient histories, the loss scale, promotion and narrowing
(spec/02, R43 to R71). -/

namespace Sys2Proof.Machine

/-! ## Block scales (R45 to R49, R65, R66) -/

/-- Half the element step in 1/1024 oct (Table 2.2). -/
def halfStep : Fmt → Int
  | .l2 => 512 | .l4 => 256 | _ => 64

/-- R45: the S8 code for a block maximum of exact log2 e, in 1/1024 oct. -/
def blockScale (f : Fmt) (e : Int) : Int := max (-127) (min 127 (ceilDivI (2 * (e - halfStep f)) 1024))

/-- The largest k of the finite nonzero elements (R45, R46). -/
def maxK (vs : List Val) : Option Int :=
  vs.foldl (fun acc v => match v.k? with | some k => some (match acc with | none => k | some a => max a k) | none => acc) none

/-- The scale code of a block (R12, R45, R46). -/
def scaleOf (f : Fmt) (vs : List Val) : Int :=
  match maxK vs with
  | some e => blockScale f e
  | none => if vs.all (·.isZero) then -128 else 0

/-- A block as it is stored: scale code and element codes. -/
structure EncBlock where
  s8 : Int
  codes : List Nat
  stat : TensorStat
deriving DecidableEq, Repr

/-- Draws for the elements of a block: `none` rounds to nearest. -/
abbrev Draws := Option (List Nat)

def drawAt (d : Draws) (i : Nat) : Option Nat := d.map fun us => us.getD i 0

/-- The codes of a block against a given scale, with the notes of R26 and R27. -/
def narrowAll (f : Fmt) (s8 : Int) (d : Draws) (vs : List Val) : List (Nat × Note) :=
  vs.zipIdx.map fun p => narrow f s8 (drawAt d p.2) p.1

/-- A code that is a nonzero finite one. -/
def isFiniteCode (f : Fmt) (c : Nat) : Bool := c ≠ 0 && c ≠ narCode f

/-- R66: exactly one nonzero finite code after, and some other element nonzero and finite before. An infinity may hold the one
code. -/
def isDominated (f : Fmt) (vs : List Val) (codes : List Nat) : Bool :=
  match codes.zipIdx.filter fun c => isFiniteCode f c.1 with
  | [c] => vs.zipIdx.any fun v => v.2 ≠ c.2 && v.1.k?.isSome
  | _ => false

/-- The number of elements that an L4 conversion with its own σ would have flushed (R62). -/
def l4Flushes (vs : List Val) : Nat :=
  let s := scaleOf .l4 vs
  (narrowAll .l4 s none vs).countP fun r => r.2 = .flush

/-- Encode one block of 32 values with the block's own scale (R12, R45, R65, R66); `promoted` also counts the
L4-equivalent flushes of R62. DESIGN CHOICE (log 75): R12's code 0x00 of a block with a NaR and no nonzero finite element is judged
on the values before the conversion, so a block whose finite elements all flush beside a NaR keeps the scale of its values. -/
def encodeBlock (f : Fmt) (fault promoted : Bool) (d : Draws) (vs : List Val) : EncBlock :=
  let s8 := scaleOf f vs
  if s8 = -128 then ⟨-128, vs.map fun _ => 0, TensorStat.empty⟩
  else
    let rs := narrowAll f s8 d vs
    let codes := rs.map (·.1)
    let st := rs.foldl (fun s r => countNote fault r.2 s) TensorStat.empty
    let st := { st with
      c := (vs.filter fun v => v.k?.isSome).length
      nar := vs.any (·.isNar)
      dom := if isDominated f vs codes then 1 else 0
      f4 := if promoted then l4Flushes vs else 0 }
    if codes.all (· == 0) then ⟨-128, codes, st⟩ else ⟨s8, codes, st⟩

/-! ## Gradient histories and γ (R50 to R53) -/

/-- One entry of a gradient history: the step (none for an initial entry, R267), ε (none for the zero marker), the
saturation bit. -/
structure HistEntry where
  step : Option Nat
  eps : Option Int
  sat : Bool
deriving DecidableEq, Repr

/-- The history of one gradient tensor, newest entry first, and its γ (Table 2.4). `reduced` marks the reduced
gradient of a weight. -/
structure GradHist where
  tensor : Nat
  reduced : Bool
  entries : List HistEntry
  gamma : Option Int
deriving DecidableEq, Repr

/-- Insert an entry keyed by step, replacing one of the same step, newest first, at most 16 (R51). -/
def insertEntry (e : HistEntry) (es : List HistEntry) : List HistEntry :=
  let rest := es.filter fun x => x.step ≠ e.step
  let newer := rest.filter fun x => match x.step, e.step with
    | some a, some b => b < a
    | _, _ => false
  let older := rest.filter fun x => match x.step, e.step with
    | some a, some b => a < b
    | _, _ => true
  (newer ++ e :: older).take 16

/-- R52. A tensor whose first entries are all zero markers has no γ to keep: the manual states none, and its γ is a
free value (log 20). -/
def gammaFrom (h : GradHist) : Option Int :=
  match (h.entries.filterMap (·.eps)) with
  | [] => if h.entries.isEmpty then h.gamma else some (h.gamma.getD (min 63 (max (-64) (Config.firstGamma h.tensor))))
  | x :: xs => some (min 63 (max (-64) (xs.foldl max x + 1)))

/-- Shift every entry, zero markers unchanged (R57). -/
def shiftHist (d : Int) (h : GradHist) : GradHist :=
  { h with entries := h.entries.map fun e => { e with eps := e.eps.map (· + d) } }

/-- The amax exponent ε = ceil(log2 amax) of a positive dyadic magnitude n · 2^e (R50). -/
def epsOfDyadic (n : Nat) (e : Int) : Option Int := if n = 0 then none else some ((ceilLog2 n : Int) + e)

/-- The amax exponent of an L19 value (R50). DESIGN CHOICE (log 58): R50 gives an infinite amax no ε, and the model takes 128,
the least exponent above every finite L19 magnitude. -/
def epsOfVal : Val → Option Int
  | .num _ k => some (ceilDivI k 1024)
  | .inf _ => some 128
  | _ => none

/-! ## The scale state (Table 2.4) -/

/-- Format state of a promotable layer (R60 to R62). -/
structure FormatState where
  tensor : Nat
  l8 : Bool
  demotion : Nat
deriving DecidableEq, Repr

structure Scale where
  lam : Int
  clean : Nat
  skips : Nat
  applied : Nat
  hists : List GradHist
  formats : List FormatState
  narrowed : List (Nat × Bool)
deriving DecidableEq, Repr

/-- R62: the format of one layer after an applied step with statistics `st`. The second component says whether it
was promoted (`some true`) or demoted (`some false`). -/
def updateFormat (st : TensorStat) (x : FormatState) : FormatState × Option Bool :=
  if x.l8 then
    if st.f4 * 512 < st.c ∨ st.c = 0 then
      if x.demotion + 1 = 200 then ({ x with l8 := false, demotion := 0 }, some false)
      else ({ x with demotion := x.demotion + 1 }, none)
    else ({ x with demotion := 0 }, none)
  else if st.c < st.f * 64 then ({ x with l8 := true, demotion := 0 }, some true)
  else (x, none)

/-- R64: whether the window of a gradient narrows. -/
def narrows (spread : Nat) (h : GradHist) : Bool :=
  let ps := h.entries.filterMap (·.eps)
  ps.length = 16 && h.entries.all (fun e => !e.sat) &&
    match ps with
    | [] => false
    | x :: xs => xs.foldl max x - xs.foldl min x ≤ (spread : Int)

/-- The policy values that the decisions use (R58, R64). -/
structure ScalePolicy where
  skipLimit : Nat
  spread : Nat
deriving DecidableEq, Repr

/-- A skipped step, or a probe step with a cliff or NaR (R57, R71). -/
def Scale.skip (s : Scale) : Scale :=
  let s := { s with clean := 0, skips := s.skips + 1 }
  if -32 < s.lam then { s with lam := s.lam - 1, hists := s.hists.map (shiftHist (-1)) } else s

/-- Write step n's entry of every gradient tensor (R51, R67). -/
def Scale.writeEntries (n : Nat) (eps : Nat → Bool → Option Int) (sat : Nat → Bool → Bool) (s : Scale) : Scale :=
  { s with hists := s.hists.map fun h =>
      { h with entries := insertEntry ⟨some n, eps h.tensor h.reduced, sat h.tensor h.reduced⟩ h.entries } }

/-- γ of every gradient tensor (R52, the last loop of R67). -/
def Scale.newGammas (s : Scale) : Scale :=
  { s with hists := s.hists.map fun h => { h with gamma := gammaFrom h } }

/-- The clean count and the raise of λ (Table 2.3). -/
def Scale.countClean (s : Scale) : Scale :=
  if s.clean + 1 = 2000 then
    let s := { s with clean := 0 }
    if s.lam < 63 then { s with lam := s.lam + 1, hists := s.hists.map (shiftHist 1) } else s
  else { s with clean := s.clean + 1 }

/-- R67, applied step, after the update: entries, formats, narrowing, clean count and γ, in this order. -/
def Scale.applyStep (n : Nat) (pol : ScalePolicy) (narrowable : Nat → Bool) (stat : Nat → TensorStat)
    (eps : Nat → Bool → Option Int) (sat : Nat → Bool → Bool) (s : Scale) : Scale :=
  let s := { s with skips := 0 }
  let s := s.writeEntries n eps sat
  let s := { s with formats := s.formats.map fun (x : FormatState) => (updateFormat (stat x.tensor) x).1 }
  let s := { s with narrowed := s.hists.filterMap fun (h : GradHist) =>
      if !h.reduced && narrowable h.tensor then some (h.tensor, narrows pol.spread h) else none }
  s.countClean.newGammas

/-- R70: a clean probe step writes its entries and forms γ; nothing else changes. -/
def Scale.applyProbe (n : Nat) (eps : Nat → Bool → Option Int) (sat : Nat → Bool → Bool) (s : Scale) : Scale :=
  (s.writeEntries n eps sat).newGammas

/-- R69, second case: the scale state after a restore without one; `lam0` is SCALE_POLICY's initial λ. -/
def Scale.lost (lam0 : Int) (s : Scale) : Scale :=
  { s with lam := lam0, clean := 0, skips := 0,
           hists := s.hists.map fun h => { h with entries := [], gamma := none },
           formats := s.formats.map fun x => { x with l8 := false, demotion := 0 },
           narrowed := s.narrowed.map fun p => (p.1, false) }

end Sys2Proof.Machine
end

