-- ==== Sys2Proof/Machine/Lanes.lean ====
section
/-! DEFINITION. Vector lanes: elementwise work in the log domain, the flushes that it counts, and the close of a tile
(spec/05, R139 to R152, R469). -/

namespace Sys2Proof.Machine

/-! ## Tables by integer arithmetic (R143, R149; log 21) -/

/-- `n` fraction bits of log2 of `y / 2^P`, where `1 ≤ y / 2^P < 2`, floored. -/
def log2Bits (P : Nat) : Nat → Nat → Nat → Nat
  | 0, _, acc => acc
  | n + 1, y, acc =>
    let y2 := y * y / 2 ^ P
    if 2 ^ (P + 1) ≤ y2 then log2Bits P n (y2 / 2) (2 * acc + 1) else log2Bits P n y2 (2 * acc)

/-- The nearest integer to 2^n · log2 (y / 2^P), for any positive y. -/
def scaledLog2 (P n y : Nat) : Int :=
  let s : Int := (Nat.log2 y : Int) - P
  let y' := if 0 ≤ s then y / 2 ^ s.toNat else y * 2 ^ (-s).toNat
  Int.fdiv (s * 2 ^ (n + 1) + log2Bits P (n + 1) y' 0 + 1) 2

/-- 2^120 · 2^(−D/1024), floored. -/
def pow2Neg (d : Nat) : Nat := rootBits 1024 (2 ^ (1024 * 120 - d)) 121 0

/-- round(2^20 · sb(D/1024)) (R143). -/
def sbEntry (d : Nat) : Int := if d = 0 then 2 ^ 20 else scaledLog2 120 20 (2 ^ 120 + pow2Neg d)

/-- round(2^20 · db(D/1024)) (R143); the entry of D = 0 is unused. -/
def dbEntry (d : Nat) : Int := if d = 0 then 0 else scaledLog2 120 20 (2 ^ 120 - pow2Neg d)

/-- LG[i] = round(2^24 · log2(1 + i/1024)) (R149). -/
def lgEntry (i : Nat) : Int := if i = 1024 then 2 ^ 24 else scaledLog2 120 24 (2 ^ 110 * (1024 + i))

/-- ln 2 and log2 e as fractions of 10^60 (their L19 codes and products are rounded by R29). -/
def ln2Num : Nat := 693147180559945309417232121458176568075500134360255254120680
def log2eNum : Nat := 1442695040888963407359924681001892137426645954152985934135449

/-! ## Code arithmetic (R142, Table 5.1) -/

/-- The order of values: negative infinity, negatives, zero, positives, positive infinity. -/
def Val.key : Val → Int
  | .zero => 0
  | .nar => 0
  | .inf neg => if neg then -400000 else 400000
  | .num neg k => if neg then -(k + 131072) else k + 131072

def laneMul (x y : Val) : Val :=
  match x, y with
  | .nar, _ => .nar
  | _, .nar => .nar
  | .zero, .inf _ => .nar
  | .inf _, .zero => .nar
  | .zero, _ => .zero
  | _, .zero => .zero
  | .inf a, .inf b => .inf (a != b)
  | .inf a, .num b _ => .inf (a != b)
  | .num a _, .inf b => .inf (a != b)
  | .num a k, .num b l => (Val.ofK (a != b) (k + l)).1

def laneDiv (x y : Val) : Val :=
  match x, y with
  | .nar, _ => .nar
  | _, .nar => .nar
  | .zero, .zero => .nar
  | .inf _, .inf _ => .nar
  | .inf a, .zero => .inf a
  | .num a _, .zero => .inf a
  | .zero, _ => .zero
  | .num _ _, .inf _ => .zero
  | .inf a, .num b _ => .inf (a != b)
  | .num a k, .num b l => (Val.ofK (a != b) (k - l)).1

def laneRecip (x : Val) : Val := laneDiv .one x

def laneSqrt : Val → Val
  | .zero => .zero
  | .inf false => .inf false
  | .num false k => .num false (roundHalfEven k 2)
  | _ => .nar

/-- −kx/2, an odd kx tied to even k (Table 5.1). -/
def laneRsqrt : Val → Val
  | .zero => .inf false
  | .inf false => .zero
  | .num false k => (Val.ofK false (roundHalfEven (-k) 2)).1
  | _ => .nar

/-- x^n as repeated products (Table 5.1). -/
def lanePow (n : Nat) : Val → Val
  | .zero => .zero
  | .nar => .nar
  | .inf neg => .inf (neg && n % 2 == 1)
  | .num neg k => (Val.ofK (neg && n % 2 == 1) (n * k)).1

def laneScale (j : Int) : Val → Val
  | .num neg k => (Val.ofK neg (k + 1024 * j)).1
  | v => v

def laneAbs : Val → Val
  | .num _ k => .num false k
  | .inf _ => .inf false
  | v => v

/-- Equal values give the lower operand index. -/
def laneMax (x y : Val) : Val :=
  if x.isNar || y.isNar then .nar else if y.key ≤ x.key then x else y

def laneMin (x y : Val) : Val :=
  if x.isNar || y.isNar then .nar else if x.key ≤ y.key then x else y

def laneRelu : Val → Val
  | .nar => .nar
  | .num false k => .num false k
  | .inf false => .inf false
  | _ => .zero

/-! ## Log-domain addition (R144) -/

/-- The table value v of R144 at distance D, in units of 2^−20 oct. -/
def tableAt (same : Bool) (d : Nat) : Int :=
  let e := fun n => if same then sbEntry n else dbEntry n
  if d < 1024 then e d
  else if d < 13312 then
    let j := (d - 1024) / 16
    let n0 := e (1024 + 16 * j)
    let n1 := e (1024 + 16 * (j + 1))
    n0 + Int.fdiv ((n1 - n0) * ((d - 1024) % 16 : Nat)) 16
  else 0

/-- R144 on nonzero finite operands, `k ≥ l`. -/
def logAddNum (neg : Bool) (k : Int) (neg' : Bool) (l : Int) : Val :=
  let d := (k - l).toNat
  if neg ≠ neg' ∧ d = 0 then .zero
  else (Val.ofK neg (k + roundHalfEven (tableAt (neg == neg') d) 1024)).1

def logAdd (x y : Val) : Val :=
  match x, y with
  | .nar, _ => .nar
  | _, .nar => .nar
  | .zero, v => v
  | v, .zero => v
  | .inf a, .inf b => if a = b then .inf a else .nar
  | .inf a, .num _ _ => .inf a
  | .num _ _, .inf b => .inf b
  | .num a k, .num b l => if k < l then logAddNum b l a k else logAddNum a k b l

def logSub (x y : Val) : Val := logAdd x y.negate

/-! ## Exponentials and logarithms (R146) -/

def log2eVal : Val := (linearToL19 false log2eNum (10 ^ 60)).1

/-- 1024 x rounded to nearest, ties to even, of a finite x; `none` beyond the range of L19. -/
def k1024 : Val → Option Int
  | .zero => some 0
  | .num neg k =>
    if 8 * 1024 ≤ k then none
    else let q : Int := roundPow2 (k + 10240); some (if neg then -q else q)
  | _ => none

def laneExp2 (x : Val) : Val :=
  match x with
  | .nar => .nar
  | _ => match k1024 x with
    | some k => (Val.ofK false k).1
    | none => if x.isNeg then .zero else .inf false

/-- e^x with the argument x · log2 e on the L19 grid (R146, R148). DESIGN CHOICE (log 22): the product takes log2 e as an L19
code, as R148 holds it, although the bound that R146 states for e^x is then missed for larger x. -/
def laneExp (x : Val) : Val := laneExp2 (laneMul x log2eVal)

/-- The correctly rounded code of kv · num / (1024 · den) (R146). -/
def laneLog (num den : Nat) : Val → Val
  | .nar => .nar
  | .zero => .inf true
  | .inf neg => if neg then .nar else .inf false
  | .num neg k => if neg then .nar else (linearToL19 (k < 0) (k.natAbs * num) (1024 * den)).1

def laneLog2 : Val → Val := laneLog 1 1
def laneLn : Val → Val := laneLog ln2Num (10 ^ 60)

/-- log2 σ = −sb(y) for y ≥ 0 and y − sb(−y) below, with y the nearest multiple of 1/1024 of x log2 e as in R146
(Table 5.2; log 22). -/
def laneSigmoid (x : Val) : Val :=
  let y := laneMul x log2eVal
  match y with
  | .nar => .nar
  | _ => match k1024 y with
    | some k =>
      let v := roundHalfEven (tableAt true k.natAbs) 1024
      if k < 0 then (Val.ofK false (k - v)).1 else (Val.ofK false (-v)).1
    | none => if y.isNeg then .zero else .one

def laneSilu (x : Val) : Val := laneMul x (laneSigmoid x)

def geluC1 : Val := (linearToL19 false 7978845608 (10 ^ 10)).1
def geluC2 : Val := (linearToL19 false 44715 (10 ^ 6)).1

/-- x · sigmoid(2z), z = 0.7978845608 (x + 0.044715 x³) (Table 5.2). -/
def laneGelu (x : Val) : Val :=
  let z := laneMul geluC1 (logAdd x (laneMul geluC2 (lanePow 3 x)))
  laneMul x (laneSigmoid (laneScale 1 z))

/-! ## Rows (R147, Table 5.2, R469) -/

/-- One level of the pairwise tree; an unpaired last element passes up unchanged. -/
def treeLevel (f : Val → Val → Val) : List Val → List Val
  | a :: b :: rest => f a b :: treeLevel f rest
  | l => l

def treeFold (f : Val → Val → Val) : Nat → List Val → List Val
  | 0, l => l
  | n + 1, l => treeFold f n (treeLevel f l)

/-- The pairwise tree of R147. -/
def tree (f : Val → Val → Val) (row : List Val) : Val := (treeFold f (ceilLog2 row.length) row).headD .zero

/-- The exponentials p_i of a softmax row; `none` where the row is outside the domain (Table 5.2, R469). -/
def softmaxTerms (row : List Val) : Option (List Val) :=
  let pinf := row.any (· == .inf false)
  let ninf := row.any (· == .inf true)
  if row.any (·.isNar) || (pinf && ninf) || row.all (· == .inf true) then none
  else if pinf then some (row.map fun v => if v = .inf false then .one else .zero)
  else
    let y := row.map (laneMul · log2eVal)
    let top := tree laneMax y
    some (y.map fun v => laneExp2 (logSub v top))

def softmax (row : List Val) : List Val :=
  match softmaxTerms row with
  | none => row.map fun _ => .nar
  | some p => let t := tree logAdd p; p.map (laneDiv · t)

def logSoftmax (row : List Val) : List Val := (softmax row).map laneLog2

/-- The divisor n of a normalisation as an L19 code (R148). -/
def countVal (n : Nat) : Val := (linearToL19 false n 1).1

def rmsNorm (eps : Val) (row gain : List Val) : List Val :=
  let ms := laneDiv (tree logAdd (row.map (lanePow 2))) (countVal row.length)
  let r := laneSqrt (logAdd ms eps)
  List.zipWith (fun x g => laneDiv (laneMul x g) r) row gain

def layerNorm (eps : Val) (row gain bias : List Val) : List Val :=
  let n := countVal row.length
  let mu := laneDiv (tree logAdd row) n
  let d := row.map (logSub · mu)
  let var := laneDiv (tree logAdd (d.map (lanePow 2))) n
  let r := laneSqrt (logAdd var eps)
  List.zipWith (fun y gb => logAdd (laneMul (laneDiv y r) gb.1) gb.2) d (gain.zip bias)

/-! ## Lane chains (R139, R148) -/

/-- One operation of a chain over a row: elementwise operations act on each element, the others on the row. `sum` gives every
element the sum tree of the row (R147, R177). -/
def laneRow (fn : LaneFn) (x y z : List Val) : List Val :=
  match fn with
  | .mul => List.zipWith laneMul x y
  | .div => List.zipWith laneDiv x y
  | .recip => x.map laneRecip
  | .sqrt => x.map laneSqrt
  | .rsqrt => x.map laneRsqrt
  | .pow n => x.map (lanePow n)
  | .scale j => x.map (laneScale j)
  | .neg => x.map (·.negate)
  | .abs => x.map laneAbs
  | .max => List.zipWith laneMax x y
  | .min => List.zipWith laneMin x y
  | .add => List.zipWith logAdd x y
  | .sub => List.zipWith logSub x y
  | .exp2 => x.map laneExp2
  | .exp => x.map laneExp
  | .log2 => x.map laneLog2
  | .ln => x.map laneLn
  | .relu => x.map laneRelu
  | .sigmoid => x.map laneSigmoid
  | .silu => x.map laneSilu
  | .gelu => x.map laneGelu
  | .softmax => softmax x
  | .logSoftmax => logSoftmax x
  | .rmsNorm e => rmsNorm (decodeLog .l16 0 e) x y
  | .layerNorm e => layerNorm (decodeLog .l16 0 e) x y z
  | .sum => let t := tree logAdd x; x.map fun _ => t

/-- A function that combines the elements of a row (R147). -/
def laneFnIsRow : LaneFn → Bool
  | .softmax | .logSoftmax | .rmsNorm _ | .layerNorm _ | .sum => true
  | _ => false

/-! ### Flushes (R142, R144: a result below the range is zero and counted as flushed)

Each count follows the operations of its function above, with their operands. -/

def flushOf (k : Int) : Nat := if k < -131071 then 1 else 0

def mulFlush : Val → Val → Nat
  | .num _ k, .num _ l => flushOf (k + l)
  | _, _ => 0

def divFlush : Val → Val → Nat
  | .num _ k, .num _ l => flushOf (k - l)
  | _, _ => 0

def powFlush (n : Nat) : Val → Nat
  | .num _ k => flushOf (n * k)
  | _ => 0

def scaleFlush (j : Int) : Val → Nat
  | .num _ k => flushOf (k + 1024 * j)
  | _ => 0

def addFlush : Val → Val → Nat
  | .num a k, .num b l =>
    let d := (k - l).natAbs
    if a ≠ b ∧ d = 0 then 0 else flushOf (max k l + roundHalfEven (tableAt (a == b) d) 1024)
  | _, _ => 0

def subFlush (x y : Val) : Nat := addFlush x y.negate

def exp2Flush (x : Val) : Nat :=
  match x with
  | .num neg _ => match k1024 x with
    | some k => flushOf k
    | none => if neg then 1 else 0
  | _ => 0

def expFlush (x : Val) : Nat := mulFlush x log2eVal + exp2Flush (laneMul x log2eVal)

def sigmoidFlush (x : Val) : Nat :=
  let y := laneMul x log2eVal
  mulFlush x log2eVal + (match y with
    | .num neg _ => match k1024 y with
      | some k =>
        let v := roundHalfEven (tableAt true k.natAbs) 1024
        if k < 0 then flushOf (k - v) else flushOf (-v)
      | none => if neg then 1 else 0
    | _ => 0)

def siluFlush (x : Val) : Nat := sigmoidFlush x + mulFlush x (laneSigmoid x)

def geluFlush (x : Val) : Nat :=
  let c := lanePow 3 x
  let m := laneMul geluC2 c
  let a := logAdd x m
  let z := laneMul geluC1 a
  let g := laneScale 1 z
  powFlush 3 x + mulFlush geluC2 c + addFlush x m + mulFlush geluC1 a + scaleFlush 1 z + sigmoidFlush g
    + mulFlush x (laneSigmoid g)

/-- Flushes of one level of the sum tree, and of the whole tree. -/
def levelFlush : List Val → Nat
  | a :: b :: rest => addFlush a b + levelFlush rest
  | _ => 0

def foldFlush : Nat → List Val → Nat
  | 0, _ => 0
  | n + 1, l => levelFlush l + foldFlush n (treeLevel logAdd l)

def treeFlush (row : List Val) : Nat := foldFlush (ceilLog2 row.length) row

def softmaxFlush (row : List Val) : Nat :=
  match softmaxTerms row with
  | none => 0
  | some p =>
    let t := tree logAdd p
    let formed := if row.any (· == .inf false) then 0 else
      let y := row.map (laneMul · log2eVal)
      let top := tree laneMax y
      sumList (row.map (mulFlush · log2eVal)) + sumList (y.map fun v => subFlush v top + exp2Flush (logSub v top))
    formed + treeFlush p + sumList (p.map (divFlush · t))

/-- Flushes of a mean of squares and its root: the row squared, the tree, the division and the addition of ε. -/
def rootFlush (eps : Val) (row : List Val) : Nat :=
  let sq := row.map (lanePow 2)
  let t := tree logAdd sq
  let n := countVal row.length
  sumList (row.map (powFlush 2)) + treeFlush sq + divFlush t n + addFlush (laneDiv t n) eps

def rmsFlush (eps : Val) (row gain : List Val) : Nat :=
  let r := laneSqrt (logAdd (laneDiv (tree logAdd (row.map (lanePow 2))) (countVal row.length)) eps)
  rootFlush eps row + sumList (List.zipWith (fun x g => mulFlush x g + divFlush (laneMul x g) r) row gain)

def layerFlush (eps : Val) (row gain bias : List Val) : Nat :=
  let n := countVal row.length
  let mu := laneDiv (tree logAdd row) n
  let d := row.map (logSub · mu)
  let r := laneSqrt (logAdd (laneDiv (tree logAdd (d.map (lanePow 2))) n) eps)
  treeFlush row + divFlush (tree logAdd row) n + sumList (row.map (subFlush · mu)) + rootFlush eps d
    + sumList (List.zipWith (fun y gb => divFlush y r + mulFlush (laneDiv y r) gb.1
        + addFlush (laneMul (laneDiv y r) gb.1) gb.2) d (gain.zip bias))

/-- Flushes of one operation of a chain over a row. -/
def rowFlush (fn : LaneFn) (x y z : List Val) : Nat :=
  match fn with
  | .mul => sumList (List.zipWith mulFlush x y)
  | .div => sumList (List.zipWith divFlush x y)
  | .pow n => sumList (x.map (powFlush n))
  | .scale j => sumList (x.map (scaleFlush j))
  | .add => sumList (List.zipWith addFlush x y)
  | .sub => sumList (List.zipWith subFlush x y)
  | .exp2 => sumList (x.map exp2Flush)
  | .exp => sumList (x.map expFlush)
  | .sigmoid => sumList (x.map sigmoidFlush)
  | .silu => sumList (x.map siluFlush)
  | .gelu => sumList (x.map geluFlush)
  | .softmax | .logSoftmax => softmaxFlush x
  | .rmsNorm e => rmsFlush (decodeLog .l16 0 e) x y
  | .layerNorm e => layerFlush (decodeLog .l16 0 e) x y z
  | .sum => treeFlush x
  | _ => 0

/-! ### Running a chain -/

/-- A source of a chain operation as a row of `n` values. `init` gives what register `i` of the lane of element `j` held before
the chain: a register that the chain has not written reads that (R139; DESIGN CHOICE, log 56: element `j` of a row is worked on
by lane `j mod 128`). -/
def laneFetch (init : Nat → Nat → Val) (n : Nat) (inputs : List (List Val)) (regs : List (Nat × List Val)) : LaneSrc → List Val
  | .reg i => ((regs.find? fun r => r.1 = i % 64).map (·.2)).getD ((List.range n).map fun j => init (i % 64) j)
  | .input k => inputs.getD k (List.replicate n .zero)
  | .const c => List.replicate n (Val.ofCode c)

/-- A chain after some of its operations: the registers written, newest first, the last result and the flushes so far. -/
structure ChainRun where
  regs : List (Nat × List Val)
  last : List Val
  flushes : Nat
deriving DecidableEq, Repr

/-- One operation of a chain. -/
def ChainRun.op (init : Nat → Nat → Val) (inputs : List (List Val)) (a : ChainRun) (s : LaneStep) : ChainRun :=
  let n := (inputs.headD []).length
  let x := laneFetch init n inputs a.regs s.x
  let y := laneFetch init n inputs a.regs s.y
  let z := laneFetch init n inputs a.regs s.z
  let v := laneRow s.fn x y z
  ⟨(s.dst % 64, v) :: a.regs, v, a.flushes + rowFlush s.fn x y z⟩

/-- A chain run over one row: register 0 starts as the first input, and the result is the last operation's
(the input itself for an empty chain). All intermediate results stay in L19 (R139). DESIGN CHOICE (log 56): no rule says that a
register takes the first input; register 0 of each lane takes it and keeps it after the chain. -/
def chainRun (init : Nat → Nat → Val) (steps : List LaneStep) (inputs : List (List Val)) : ChainRun :=
  let first := inputs.headD []
  steps.foldl (ChainRun.op init inputs) ⟨[(0, first)], first, 0⟩

/-- What the lanes' registers hold after a chain: `(64 · lane + register, L19 code)` of every register written, from the last
element that each lane worked on. -/
def ChainRun.written (a : ChainRun) : List (Nat × Nat) :=
  (List.range 64).flatMap fun i => match a.regs.find? fun r => r.1 = i with
    | none => []
    | some r =>
      let n := r.2.length
      (List.range (min 128 n)).map fun l => (64 * l + i, (r.2.getD (l + (n - 1 - l) / 128 * 128) .zero).code)

/-! ## Expert gates (R152) -/

/-- Insert (index, value) in descending value, equal values by the lower index first. -/
def insertRank (p : Nat × Val) : List (Nat × Val) → List (Nat × Val)
  | [] => [p]
  | q :: qs => if q.2.key < p.2.key then p :: q :: qs else q :: insertRank p qs

/-- The k highest logits, read in ascending expert index. -/
def topK (k : Nat) (logits : List Val) : List (Nat × Val) :=
  (logits.zipIdx.foldl (fun acc p => (insertRank (p.2, p.1) acc).take k) [])

/-- Expert indices and L19 gate weights of one token; `none` for a token routed to no expert. `first` selects the
softmax over all logits before the selection. -/
def gateScores (k : Nat) (softmaxFirst : Bool) (logits : List Val) : Option (List (Nat × Val)) :=
  if logits.any (·.isNar) then none
  else
    let sel := topK k logits
    let ws := if softmaxFirst then let p := softmax logits; sel.map fun s => p.getD s.1 .nar
      else softmax (sel.map (·.2))
    if ws.any (·.isNar) then none else some ((sel.map (·.1)).zip ws)

/-! ## Closing a tile (R149, R150) -/

/-- R149: T in units of 2^−24 oct of a nonzero A64 integer. -/
def fineLog (n : Int) (alpha : Int) : Int :=
  let a := n.natAbs
  let p := Nat.log2 a
  let f := (if 24 ≤ p then a / 2 ^ (p - 24) else a * 2 ^ (24 - p)) - 2 ^ 24
  let j := f / 2 ^ 14
  let t0 := lgEntry j
  let t1 := lgEntry (j + 1)
  ((p : Int) + alpha - 48) * 2 ^ 24 + (t0 + Int.fdiv ((t1 - t0) * (f % 2 ^ 14 : Nat)) (2 ^ 14))

/-- R149: the L19 intermediate of an accumulator, and whether it flushed or left the range. -/
def closeL19 (n : Int) (alpha : Int) : Val × Note :=
  if n = 0 then (.zero, .quiet) else Val.ofK (n < 0) (roundHalfEven (fineLog n alpha) (2 ^ 14))

/-- R150: the L16 code nearest to T. -/
def closeL16 (n : Int) (alpha : Int) : Nat × Note :=
  if n = 0 then (0, .quiet)
  else
    let num := 16384 * 2 ^ 15 + fineLog n alpha
    if 65535 * 2 ^ 15 < 2 * num then (signMag .l16 (n < 0) 32767, .sat)
    else
      let m := roundHalfEven num (2 ^ 15)
      if m ≤ 0 then (0, .flush) else (signMag .l16 (n < 0) (min m.toNat 32767), .quiet)

/-- R155: the gradient of the loss with respect to the logits of one token: (softmax − one at the target) times the loss
weight, times 2^λ. -/
def logitGradient (logits : List Val) (target : Nat) (weight : Val) (lam : Int) : List Val :=
  let p := softmax logits
  let z := fun v => laneScale lam (laneMul v weight)
  if weight.isZero then p.map fun v => laneMul v weight
  else if p.length ≤ target then p.map fun _ => .nar
  else p.zipIdx.map fun q => z (if q.2 = target then logSub q.1 .one else q.1)

/-- The flushes of the same operations. -/
def logitFlush (logits : List Val) (target : Nat) (weight : Val) (lam : Int) : Nat :=
  let p := softmax logits
  if weight.isZero || p.length ≤ target then softmaxFlush logits
  else softmaxFlush logits + sumList (p.zipIdx.map fun q =>
    let v := if q.2 = target then logSub q.1 .one else q.1
    (if q.2 = target then subFlush q.1 .one else 0) + mulFlush v weight + scaleFlush lam (laneMul v weight))

end Sys2Proof.Machine
end

