-- ==== Sys2Proof/Machine/Stall.lean ====
section
/-! DEFINITION. The product array of a stall: modes, block contributions of the tally, linear and bit-serial paths,
ledgers, split weights, crossed sparsity and rates (spec/03, R72 to R109). -/

namespace Sys2Proof.Machine

/-! ## Modes (R77, R79, Tables 3.2 to 3.4) -/

inductive Mode where
  | l2 | l4 | l8 | l16 | ledger | serial4 | serial8
deriving DecidableEq, Repr

/-- The width rank of a log operand. -/
def fmtRank : Fmt → Option Nat
  | .l2 => some 0 | .l4 => some 1 | .l8 => some 2 | .l16 => some 3 | _ => none

/-- The format in which an operand enters the array: a public format is delivered as L16 (R77, R202). -/
def arrayFmt (f : Fmt) : Fmt := if f.isPublic then .l16 else f

/-- Table 3.2: the mode of a stationary and a streaming format; `none` matches no row. -/
def modeOf (stat stream : Fmt) : Option Mode :=
  match arrayFmt stat, arrayFmt stream with
  | .ledger, .l2 => some .ledger
  | .ledger, .l4 => some .ledger
  | .l2, .g16 => some .serial4
  | .l4, .g16 => some .serial4
  | .l8, .g16 => some .serial8
  | s, x => match fmtRank s, fmtRank x with
    | some a, some b => match max a b with
      | 0 => some .l2 | 1 => some .l4 | 2 => some .l8 | _ => some .l16
    | _, _ => none

/-- Reduction elements of a dense stationary slice (Table 3.3). -/
def Mode.k : Mode → Nat
  | .l2 => 512 | .l4 | .serial4 => 256 | .l8 | .serial8 | .ledger => 128 | .l16 => 64

/-- Blocks per streaming row of a dense slice (Table 3.3). -/
def Mode.blocks (m : Mode) : Nat := m.k / 32

/-- Latency (Table 3.3); bit-serial at d = 9 (R97). -/
def Mode.latency : Mode → Nat
  | .l2 | .l4 => 6 | .l8 | .l16 | .ledger => 8 | .serial4 | .serial8 => 12

/-- Cycles per streaming row that the timing model counts (Table 3.3, R97). -/
def Mode.rowCycles : Mode → Nat
  | .serial4 | .serial8 => 9 | _ => 1

/-- Plane load cycles (Table 3.4): the plane bytes through a port of 512 bytes a cycle. The table gives the sparse figure
of L4 alone; those of L2 and L8 follow from codes, scales and masks in the same way (DEDUCED, log 23). -/
def Mode.load (m : Mode) (sparse : Bool) (pieces : Nat) : Nat :=
  if 1 < pieces then 34
  else match m with
  | .l2 => if sparse then 72 else 36
  | .l4 | .serial4 => if sparse then 52 else 34
  | .l8 | .serial8 => if sparse then 42 else 33
  | .l16 => 32
  | .ledger => 20

/-- Products per stall per cycle (Tables 3.3 and 3.9); a bit-serial figure counts digit-products. -/
def Mode.products (m : Mode) (sparse : Bool) : Nat := m.k * 128 * (if sparse then 2 else 1)

/-- Whether a mode admits a resident tile (R125). -/
def Mode.residentOk : Mode → Bool
  | .l2 | .l4 | .l8 | .ledger => true
  | _ => false

/-- Whether a mode admits a sparse stationary operand (R107). -/
def Mode.sparseOk : Mode → Bool
  | .ledger | .l16 => false
  | _ => true

/-! ## Operands of a block pair -/

/-- R78: an L2 code read as the L4 code of the same value. -/
def l2AsL4 (c : Nat) : Nat :=
  match c % 4 with
  | 0 => 0x0 | 1 => 0x7 | 2 => 0x8 | _ => 0xF

/-- One block of 32 reduction elements as the array latches it: its format, scale code and codes. -/
structure Block where
  fmt : Fmt
  s8 : Int
  codes : List Nat
deriving DecidableEq, Repr

/-- A block whose scale code is 0x80 is skipped (R81). L16 and G16 blocks carry no scale. -/
def Block.isZero (b : Block) : Bool := b.fmt.isBlock && b.s8 == -128

/-- The element values of a block (R82 reads NaR codes; a zero block reads as zero, R12). -/
def Block.vals (b : Block) : List Val := b.codes.map (decodeLog b.fmt b.s8)

/-- Whether a block holds a NaR code, or a G16 lane of 0x8000 (R82). -/
def Block.hasNar (b : Block) : Bool :=
  if b.fmt = .g16 then b.codes.any fun c => c % 65536 = 0x8000 else b.vals.any (·.isNar)

/-- One contribution to an accumulator before its share test: the integer on the tile's grid, the unshifted integer and
its exponent for a resident add (R123), the NaR flag, and whether a live product reached the sum. -/
structure BlockSum where
  value : Int
  raw : Int
  exp : Int
  nar : Bool
deriving DecidableEq, Repr

/-! ## The tally path (R83 to R87) -/

/-- Table 3.5: the constant of Ps for parity p, round(2^(22 + (s − 14)/2 + p/2)). -/
def bucketConst (p s : Nat) : Nat :=
  let e := 44 + s + p - 14
  if e % 2 = 0 then 2 ^ (e / 2) else (Nat.sqrt (4 * 2 ^ e) + 1) / 2

def asL4 (f : Fmt) (c : Nat) : Nat := if f = .l2 then l2AsL4 c else c % 16

/-- One pair's signed constant; zero and NaR codes form no product (R81, R82). -/
def tallyTerm (p : Nat) (x w : Nat) : Int :=
  if x % 8 = 0 ∨ w % 8 = 0 then 0
  else
    let k : Int := bucketConst p (x % 8 + w % 8)
    if x.testBit 3 = w.testBit 3 then k else -k

/-- R86: W, the weigh of the block's counts. -/
def weigh (p : Nat) (xs ws : List Nat) : Int := (List.zipWith (tallyTerm p) xs ws).foldl (· + ·) 0

def tallyBlock (x w : Block) (alpha : Int) : BlockSum :=
  let h := x.s8 + w.s8
  let W := weigh (h % 2).toNat (x.codes.map (asL4 x.fmt)) (w.codes.map (asL4 w.fmt))
  let half := Int.fdiv h 2
  ⟨shiftRound W (half - alpha + 26), W, half - 22, x.hasNar || w.hasNar⟩

/-! ## The linear path (R89 to R91) -/

/-- Φ[f] = round(2^(f/512) · 2^23) (R89). -/
def phi (f : Nat) : Nat := if f = 0 then 0x800000 else (rootBits 512 (2 ^ (f + 512 * 24)) 26 0 + 1) / 2

/-- Sign, Φ and i of the product of two values; `none` where no term forms. T = 512 t is (kx + kw) / 2 (R89). -/
def linearTerm (x w : Val) : Option (Bool × Nat × Int) :=
  match x, w with
  | .num a k, .num b l =>
    let t := Int.fdiv (k + l) 2
    some (a != b, phi (Int.fmod t 512).toNat, Int.fdiv t 512)
  | _, _ => none

/-- R90 on the terms of a block pair. -/
def linearSum (terms : List (Bool × Nat × Int)) (alpha : Int) : Int × Int × Int :=
  match terms with
  | [] => (0, 0, 0)
  | t :: ts =>
    let e := ts.foldl (fun m u => max m u.2.2) t.2.2
    let s := terms.foldl (fun (acc : Int) u =>
      let v := shiftRound u.2.1 (u.2.2 - e + 8)
      if u.1 then acc - v else acc + v) 0
    (shiftRound s (e - alpha + 17), s, e - 31)

/-- Terms of a block pair; a skipped pair forms none (R81). -/
def linearTerms (x w : Block) : List (Bool × Nat × Int) :=
  if x.isZero || w.isZero then [] else (List.zipWith linearTerm x.vals w.vals).filterMap id

def linearBlock (x w : Block) (alpha : Int) : BlockSum :=
  let r := linearSum (linearTerms x w) alpha
  ⟨r.1, r.2.1, r.2.2, x.hasNar || w.hasNar⟩

/-! ## Bit-serial products (R93 to R97) -/

/-- R93 on the unsigned pattern: signed digits (position, negative?) in ascending position. -/
def recodeFrom : Nat → Nat → Nat → List (Nat × Bool)
  | 0, _, _ => []
  | n + 1, i, u =>
    if u = 0 then []
    else if u % 2 = 1 then
      if u % 4 = 1 then (i, false) :: recodeFrom n (i + 1) ((u - 1) / 2)
      else (i, true) :: recodeFrom n (i + 1) ((u + 1) / 2)
    else recodeFrom n (i + 1) (u / 2)

/-- The digits of a G16 code other than 0x8000 (R93): the sign bit adds −1 at position 16. -/
def recode (q : Nat) : List (Nat × Bool) :=
  let ds := recodeFrom 18 0 (q % 65536)
  if q.testBit 15 then
    match ds.find? (fun d => d.1 = 16) with
    | some d => if d.2 then ds else ds.filter fun d => d.1 ≠ 16
    | none => ds ++ [(16, true)]
  else ds

/-- Digits a lane issues; a lane of 0x8000 issues none (R93). -/
def digitCount (q : Nat) : Nat := if q % 65536 = 0x8000 then 0 else (recode q).length

/-- R95: the cycles a block row occupies. -/
def blockRowCycles (qs : List Nat) : Nat := max 1 (qs.foldl (fun m q => max m (digitCount q)) 0)

/-- The live lanes of R94: q, product sign of w, Φ, i. -/
def serialLane (q : Nat) (w : Val) : Option (Int × Bool × Nat × Int) :=
  match w with
  | .num neg k =>
    if q % 65536 = 0 ∨ q % 65536 = 0x8000 then none
    else
      let t := Int.fdiv k 2
      some (signed 16 q, neg, phi (Int.fmod t 512).toNat, Int.fdiv t 512)
  | _ => none

def serialBlock (x w : Block) (gamma alpha : Int) : BlockSum :=
  let nar := x.hasNar || w.hasNar
  if w.isZero then ⟨0, 0, 0, nar⟩
  else
    match (List.zipWith serialLane x.codes w.vals).filterMap id with
    | [] => ⟨0, 0, 0, nar⟩
    | l :: ls =>
      let e := ls.foldl (fun m u => min m u.2.2.2) l.2.2.2
      let b := (l :: ls).foldl (fun (acc : Int) u =>
        let v := u.1 * ((u.2.2.1 * 2 ^ (u.2.2.2 - e).toNat : Nat) : Int)
        if u.2.1 then acc - v else acc + v) 0
      ⟨shiftRound b (e + gamma - alpha + 10), b, e + gamma - 38, nar⟩

/-! ## Ledgers (R98 to R100) -/

/-- The L16 codes of a ledger, entry 0 first. -/
def ledgerEntries (b : Bytes) : List Nat := (List.range 16).map fun j => fld b (2 * j) 2

/-- Whether entry `j` of a ledger meets R99: entry 0 is zero, every other entry is finite and nonzero. -/
def ledgerEntryOk (es : List Nat) (j : Nat) : Bool :=
  match es[j]? with
  | none => false
  | some c => if j = 0 then c == 0 else c % 32768 != 0

/-- R99. -/
def ledgerOk (es : List Nat) : Bool := es.length == 16 && (List.range 16).all (ledgerEntryOk es)

/-- The value of an index against its ledger: an entry that breaks R99 makes every product that reads it NaR. An index from a
poisoned line stands as 16, beyond every entry, and is NaR too (R201). -/
def ledgerVal (es : List Nat) (j : Nat) : Val :=
  if ledgerEntryOk es j then decodeLog .l16 0 (es.getD j 0) else .nar

/-- R100: the linear path on ledger entries as L16 codes, one ledger per stationary block. -/
def ledgerBlock (x : Block) (es : List Nat) (idx : List Nat) (alpha : Int) : BlockSum :=
  let ws := idx.map (ledgerVal es)
  let r := linearSum (if x.isZero then [] else (List.zipWith linearTerm x.vals ws).filterMap id) alpha
  ⟨r.1, r.2.1, r.2.2, x.hasNar || ws.any (·.isNar)⟩

/-! ## A block pair in its mode -/

/-- The contribution of one block pair (R83 to R94). -/
def blockSum (m : Mode) (x w : Block) (gamma alpha : Int) : BlockSum :=
  match m with
  | .l2 | .l4 => if x.isZero || w.isZero then ⟨0, 0, 0, x.hasNar || w.hasNar⟩ else tallyBlock x w alpha
  | .serial4 | .serial8 => serialBlock x w gamma alpha
  | _ => linearBlock x w alpha

/-! ## Crossed four-of-eight sparsity (R104 to R106) -/

/-- Bytes of one compressed unit: 4 of masks and 16 slots (R105). -/
def sparseUnitBytes : Fmt → Nat
  | .l2 => 8 | .l8 => 20 | _ => 12

/-- The eight codes of one group; a mask of more than four bits makes each NaR (R106). -/
def expandGroup (f : Fmt) (mask : Nat) (slots : List Nat) : List Nat :=
  let marked := (List.range 8).filter fun j => mask.testBit j
  if 4 < marked.length then List.replicate 8 (narCode f)
  else (List.range 8).map fun j =>
    if mask.testBit j then slots.getD ((List.range j).countP fun i => mask.testBit i) 0 else 0

/-- The 32 codes of a compressed unit (R105). -/
def expandUnit (f : Fmt) (u : Bytes) : List Nat :=
  let slots := unpack f 16 (u.drop 4)
  (List.range 4).flatMap fun g => expandGroup f (u.getD g 0).toNat ((slots.drop (4 * g)).take 4)

/-- The 32 codes of a compressed unit of which the bytes marked in `bad` cannot be read (R201): an element is NaR where its mask byte or
the bytes of its slot are among them. -/
def expandPoisoned (f : Fmt) (u : Bytes) (bad : List Bool) : List Nat :=
  let w := sparseUnitBytes f - 4
  let slots := (unpack f 16 (u.drop 4)).zipIdx.map fun c =>
    if (List.range (ceilDiv w 16)).any fun k => bad.getD (4 + c.2 * w / 16 + k) false then narCode f else c.1
  (List.range 4).flatMap fun g =>
    if bad.getD g false then List.replicate 8 (narCode f)
    else expandGroup f (u.getD g 0).toNat ((slots.drop (4 * g)).take 4)

/-- Marks of a group from its codes, ascending (R105): a nonzero code is marked. -/
def groupMask (codes : List Nat) : Nat :=
  codes.zipIdx.foldl (fun m c => if c.1 ≠ 0 then m + 2 ^ c.2 else m) 0

/-- The compressed unit of 32 codes (R105). -/
def compressUnit (f : Fmt) (codes : List Nat) : Bytes :=
  let gs := (List.range 4).map fun g => (codes.drop (8 * g)).take 8
  let masks := gs.map fun g => BitVec.ofNat 8 (groupMask g)
  let slots := gs.flatMap fun g =>
    let live := g.filter (· ≠ 0)
    (live ++ List.replicate (4 - live.length) 0).take 4
  masks ++ packCodes f slots

/-! ## Counted cycles (R80, R129) -/

/-- One pass over a plane: the larger of the row count times the cycles per row and the next plane's load time; a
resident chain also waits for its latency (R80, R129). -/
def passCycles (m : Mode) (sparse resident : Bool) (pieces rows : Nat) : Nat :=
  let c := max (rows * m.rowCycles) (m.load sparse pieces)
  if resident then max c (m.latency + m.blocks * (if sparse then 2 else 1)) else c

end Sys2Proof.Machine
end

