-- ==== Sys2Proof/Machine/Sums.lean ====
section
/-! DEFINITION. Exact sums: anchors, shares, accumulators, resident adds, partial-sum locations and the close of
accumulator rows (spec/04, R110 to R138; spec/05, R149 to R151). -/

namespace Sys2Proof.Machine

/-! ## Anchors (R111, R112, Table 4.1) -/

/-- The anchor that an anchor kind (Table 9.1: 0 absolute, 1 relative to γ, 2 relative to λ) and a value give in a step. -/
def anchorOf (kind : Nat) (value : Int) (gamma lam : Int) : Int :=
  match kind with
  | 1 => gamma + value
  | 2 => lam + value
  | _ => value

/-! ## Shares (R115, R116) -/

/-- The share of an A64 sum in LSBs. -/
def shareA64 (phi : Nat) : Nat := 2 ^ (63 - phi) - 1

/-- The share of a P32 sum in LSBs. -/
def shareP32 (phi : Nat) : Nat := 2 ^ (31 - phi) - 1

/-- The causes of CLIFF_OVERFLOW (Table 13.7). -/
inductive CliffCause where
  | share | count | conversion | infinite | resident
deriving DecidableEq, Repr

def CliffCause.code : CliffCause → Nat
  | .share => 1 | .count => 2 | .conversion => 3 | .infinite => 4 | .resident => 5

/-! ## Accumulators (R20, R117, R118, R122) -/

/-- One accumulator: an A64 integer, or the significand M of a resident pair whose exponent is `e`; its sticky NaR and
cliff flags and its count of contributions. -/
structure Acc where
  v : Int
  e : Int
  nar : Bool
  cliff : Bool
  count : Nat
deriving DecidableEq, Repr

def Acc.zero : Acc := ⟨0, 0, false, false, 0⟩

/-- What an add reports: a cliff with its cause, or the first NaR. -/
inductive AddNote where
  | none
  | cliff (c : CliffCause)
  | nar
deriving DecidableEq, Repr

/-- A contribution with its share and count tests, then its add (R116 to R118); a NaR accumulator reports no further
cliff (R20). -/
def Acc.add (phi : Nat) (c : Int) (isNar : Bool) (a : Acc) : Acc × AddNote :=
  if a.cliff then (a, .none)
  else if a.nar then ({ a with count := a.count + 1 }, .none)
  else if 2 ^ phi < a.count + 1 then ({ a with cliff := true, count := a.count + 1 }, .cliff .count)
  else if isNar then ({ a with nar := true, count := a.count + 1 }, .nar)
  else if shareA64 phi < c.natAbs then ({ a with cliff := true, count := a.count + 1 }, .cliff .share)
  else ({ a with v := a.v + c, count := a.count + 1 }, .none)

/-! ## Resident accumulation (R122 to R126) -/

/-- Bits of a magnitude. -/
def bitLength (n : Nat) : Nat := if n = 0 then 0 else Nat.log2 n + 1

/-- R124: the normalised pair, or `none` for an exponent out of range. -/
def normalise (x : Int) (j : Int) : Option (Int × Int) :=
  if x = 0 then some (0, 0)
  else
    let sh : Int := (bitLength x.natAbs : Int) - 54
    let r : Int × Int :=
      if 0 < sh then
        let m := roundHalfEven x (2 ^ sh.toNat)
        if m.natAbs = 2 ^ 54 then (m / 2, j + sh + 1) else (m, j + sh)
      else (x * 2 ^ (-sh).toNat, j + sh)
    if r.2 < -256 ∨ 255 < r.2 then none else some r

/-- R124: the resident add of c · 2^k. -/
def residentAdd (m e c k : Int) : Option (Int × Int) :=
  if c = 0 then some (m, e)
  else if m = 0 then normalise c k
  else
    let j := min e k
    normalise (m * 2 ^ (e - j).toNat + c * 2 ^ (k - j).toNat) j

/-- A contribution to a resident accumulator. -/
def Acc.addResident (phi : Nat) (c k : Int) (isNar : Bool) (a : Acc) : Acc × AddNote :=
  if a.cliff then (a, .none)
  else if a.nar then ({ a with count := a.count + 1 }, .none)
  else if 2 ^ phi < a.count + 1 then ({ a with cliff := true, count := a.count + 1 }, .cliff .count)
  else if isNar then ({ a with nar := true, count := a.count + 1 }, .nar)
  else match residentAdd a.v a.e c k with
    | some r => ({ a with v := r.1, e := r.2, count := a.count + 1 }, .none)
    | none => ({ a with cliff := true, count := a.count + 1 }, .cliff .resident)

/-- R126: a resident pair on the grid of the tile's anchor; `none` is the cliff. -/
def residentToA64 (m e alpha : Int) : Option Int :=
  let n := shiftRound m (e - alpha + 48)
  if 9223372036854775807 < n.natAbs then none else some n

/-- The 64 bits of a resident pair (R122). -/
def residentBits (m e : Int) : Nat := pattern 55 m * 512 + pattern 9 e

/-! ## The A64 pattern and P32 contribution -/

/-- The stored pattern of an accumulator (R20, R118). -/
def Acc.stored (a : Acc) : Nat := a64Code (if a.nar || a.cliff then none else some a.v)

/-- R114, R116: a sample group's complete A64 sum as a P32 contribution, with its share test. -/
def a64ToP32 (alpha beta : Int) (phi : Nat) (n : Int) : Option Int :=
  let p := shiftRound n (alpha - 48 - (beta - 24))
  if shareP32 phi < p.natAbs then none else some p

/-- A P32 add; NaR absorbs (R21). -/
def p32Add : Option Int → Option Int → Option Int
  | some a, some b => some (a + b)
  | _, _ => none

/-! ## Closing rows (R149, R150) -/

/-- What closing a row of accumulators gives: codes, block scales, statistics and the amax exponent (R50). -/
structure ClosedRow where
  codes : List Nat
  scales : List Int
  stat : TensorStat
deriving DecidableEq, Repr

/-- The L19 intermediate of an accumulator: NaR under a flag (R149). -/
def accVal (alpha : Int) (a : Acc) : Val := if a.nar || a.cliff then .nar else (closeL19 a.v alpha).1

/-- Nonzero accumulators with clear flags: counted in C (R150). -/
def Acc.counts (a : Acc) : Bool := !(a.nar || a.cliff) && a.v ≠ 0

/-- The amax exponent of a row of accumulators on the grid of α (R50). -/
def rowEps (alpha : Int) (row : List Acc) : Option Int :=
  epsOfDyadic (row.foldl (fun m a => if a.counts then max m a.v.natAbs else m) 0) (alpha - 48)

/-- One block of 32 columns closed into L2, L4 or L8 (R150). -/
def closeBlock (f : Fmt) (fault promoted : Bool) (d : Draws) (alpha : Int) (row : List Acc) : EncBlock :=
  let vs := row.map (accVal alpha)
  let padded := vs ++ List.replicate (32 - vs.length) .zero
  let b := encodeBlock f fault promoted d padded
  let pre := row.countP fun a => a.counts && (accVal alpha a).isZero
  let live := (b.codes.zip (row.map Acc.counts)).filter fun p => p.1 ≠ 0 && p.1 ≠ narCode f
  let dom := live.length = 1 && 1 < row.countP Acc.counts
  { b with codes := b.codes.take row.length
           stat := { b.stat with c := row.countP Acc.counts, f := b.stat.f + pre,
                                 f4 := if promoted then b.stat.f4 + pre else 0, dom := if dom then 1 else 0 } }

/-- The statistics common to every close: counts, NaR, cliff and amax. -/
def closeStat (alpha : Int) (row : List Acc) (s : TensorStat) : TensorStat :=
  { s with c := row.countP Acc.counts, nar := row.any fun a => a.nar || a.cliff, cliff := s.cliff || row.any (·.cliff),
           eps := rowEps alpha row }

/-- Consecutive groups of 32 (blocks along a row). -/
def groups32 {α : Type} : Nat → List α → List (List α)
  | 0, _ => []
  | n + 1, l => if l.isEmpty then [] else l.take 32 :: groups32 n (l.drop 32)

/-- R149, R150: one row of accumulators closed into a format. `gamma` serves G16, `draws` a narrowed gradient (R30). -/
def closeRow (f : Fmt) (fault promoted : Bool) (alpha gamma : Int) (draws : Draws) (row : List Acc) : ClosedRow :=
  match f with
  | .g16 =>
    let rs := row.map fun a => if a.nar || a.cliff then ((0x8000 : Nat), Note.quiet)
      else let r := toG16 a.v (alpha - 48) gamma; (pattern 16 r.1, r.2)
    ⟨rs.map (·.1), [], closeStat alpha row (rs.foldl (fun s r => countNote fault r.2 s) TensorStat.empty)⟩
  | .l16 =>
    let rs := row.map fun a => if a.nar || a.cliff then ((0x8000 : Nat), Note.quiet) else closeL16 a.v alpha
    ⟨rs.map (·.1), [], closeStat alpha row (rs.foldl (fun s r => countNote fault r.2 s) TensorStat.empty)⟩
  | _ =>
    let bs := (groups32 row.length row).zipIdx.map fun g =>
      closeBlock f fault promoted (draws.map fun us => us.drop (32 * g.2)) alpha g.1
    let st := bs.foldl (fun s b => mergeStat s b.stat) TensorStat.empty
    let full := closeStat alpha row st
    ⟨bs.flatMap (·.codes), bs.map (·.s8), { full with c := st.c }⟩

/-- Accumulators whose L19 intermediate flushes (R150). -/
def preFlush (alpha : Int) (row : List Acc) : Nat := row.countP fun a => a.counts && (accVal alpha a).isZero

/-- What a row of accumulators counts before a lane chain, a gate or a public format takes its L19 intermediates: C, the flushed
intermediates and the cliffs (R150, R151). -/
def preStat (alpha : Int) (promoted : Bool) (accs : List Acc) : TensorStat :=
  { TensorStat.empty with c := accs.countP Acc.counts, f := preFlush alpha accs,
                          f4 := if promoted then preFlush alpha accs else 0, cliff := accs.any (·.cliff) }

/-- The statistics of such a row's write: C is that of the accumulators. -/
def withPre (pre st : TensorStat) : TensorStat :=
  { st with c := pre.c, f := satSum st.f pre.f, f4 := satSum st.f4 pre.f4, cliff := st.cliff || pre.cliff }

/-- Flushes of a lane chain join the statistics of the tensor that it writes (R142). -/
def addFlushes (n : Nat) (st : TensorStat) : TensorStat := { st with f := satSum st.f n }

/-- A row of L19 values narrowed at a lane's write into a stored format (R139): codes, block scales, statistics. -/
def writeRow (f : Fmt) (ieee fault promoted : Bool) (gamma : Int) (draws : Draws) (row : List Val) : ClosedRow :=
  let base : TensorStat := { TensorStat.empty with
    c := row.countP fun v => v.k?.isSome
    nar := row.any (·.isNar)
    eps := row.foldl (fun m v => maxEps m (epsOfVal v)) none }
  let finish := fun (rs : List (Nat × Note)) => rs.foldl (fun s r => countNote fault r.2 s) base
  match f with
  | .g16 =>
    let rs := row.map fun v => let r := logToG16 gamma v; (g16Code r.1, r.2)
    ⟨rs.map (·.1), [], finish rs⟩
  | .l2 | .l4 | .l8 =>
    let bs := (groups32 row.length row).zipIdx.map fun g =>
      encodeBlock f fault promoted (draws.map fun us => us.drop (32 * g.2)) (g.1 ++ List.replicate (32 - g.1.length) .zero)
    let st := bs.foldl (fun s b => mergeStat s b.stat) TensorStat.empty
    ⟨(bs.flatMap (·.codes)).take row.length, bs.map (·.s8), { st with nar := base.nar, eps := base.eps }⟩
  | _ =>
    let rs := if f.isPublic then row.map (storePublic f ieee) else row.map (narrow .l16 0 none)
    ⟨rs.map (·.1), [], finish rs⟩

end Sys2Proof.Machine
end

