-- ==== Sys2Proof/Machine/Table.lean ====
section
/-! DEFINITION. A loaded tide table and the fields of its records (spec/08, spec/09). Records are kept as bytes, and
every field is read at its offset. -/

namespace Sys2Proof.Machine

/-- An active tide table: its header, digest (R225), sections as lists of records by type (the tide records for TIDES),
range starts, dependency array, TIMING header and entries, and the owner slot and key generation that signed it. -/
structure Table where
  header : Bytes
  digest : Bytes
  secs : List (Nat × List Bytes)
  range1 : Nat
  range2 : Nat
  deps : List Nat
  timing : Bytes
  entries : List (Nat × Nat)
  slot : Nat
  generation : Nat
deriving DecidableEq, Repr

def noAddr : Nat := 0xFFFFFFFFFFFFFFFF

/-- Section types (Table 8.3). -/
def secStallMap : Nat := 1
def secRoutes : Nat := 2
def secTides : Nat := 3
def secFormats : Nat := 4
def secScale : Nat := 5
def secShoal : Nat := 6
def secBuckets : Nat := 7
def secMasks : Nat := 8
def secLedgers : Nat := 9
def secRouter : Nat := 10
def secHostLayers : Nat := 11
def secSurvival : Nat := 12
def secTiming : Nat := 13

def Table.sec (t : Table) (ty : Nat) : List Bytes := ((t.secs.find? fun p => p.1 == ty).map (·.2)).getD []

/-- Records of one record type of a policy section (R256). -/
def Table.recs (t : Table) (ty rt : Nat) : List Bytes := (t.sec ty).filter fun r => fld r 0 1 == rt

/-- The training kind (Table 8.1). -/
def Table.isTraining (t : Table) : Bool := fld t.header 0x21 1 == 1

def Table.tides (t : Table) : List Bytes := t.sec secTides

/-- The job label (Table 8.1). -/
def Table.label (t : Table) : Bytes := slice t.header 0x68 16

/-! ## TIMING header (Table 8.16) -/

def Table.clock (t : Table) : Nat := fld t.timing 0 2
def Table.memAllowance (t : Table) : Nat := fld t.timing 2 2
/-- Gmax of a training table, the batch slots of a serving table. -/
def Table.maxInst (t : Table) : Nat := fld t.timing 4 2
def Table.chunk (t : Table) : Nat := fld t.timing 6 2
def Table.tModel (t : Table) : Nat := fld t.timing 8 8
def Table.tSlack (t : Table) : Nat := fld t.timing 0x10 8
def Table.tBw (t : Table) : Nat := fld t.timing 0x18 8
def Table.tDetect (t : Table) : Nat := fld t.timing 0x20 8
def Table.tChunk (t : Table) : Nat := fld t.timing 0x28 8
/-- T_step (R254). -/
def Table.tStep (t : Table) : Nat := t.tModel + t.tSlack + t.tBw

/-! ## FORMATS tensor record (Table 9.1) -/

def tKind (r : Bytes) : Nat := fld r 1 1
def tNum (r : Bytes) : Nat := fld r 2 2
def tFmt (r : Bytes) : Fmt := (Fmt.ofCode (fld r 4 1)).getD .l4
def tPieces (r : Bytes) : Nat := fld r 5 1
def tFlags (r : Bytes) : Nat := fld r 6 2
def tRows (r : Bytes) : Nat := fld r 8 4
def tCols (r : Bytes) : Nat := fld r 0xC 4
def tInst (r : Bytes) : Nat := fld r 0x10 1
def tGroup (r : Bytes) : Nat := fld r 0x11 1
def tAKind (r : Bytes) : Nat := fld r 0x12 1
def tAnchor (r : Bytes) : Int := sfld r 0x14 2
def tGamma (r : Bytes) : Nat := fld r 0x16 2
def tCodes (r : Bytes) : Nat := fld r 0x18 8
def tCodes2 (r : Bytes) : Nat := fld r 0x20 8
def tScales (r : Bytes) : Nat := fld r 0x28 8
def tScales2 (r : Bytes) : Nat := fld r 0x30 8
def tStride (r : Bytes) : Nat := fld r 0x38 8
def tMaster (r : Bytes) : Nat := fld r 0x40 8
def tM1 (r : Bytes) : Nat := fld r 0x48 8
def tM2 (r : Bytes) : Nat := fld r 0x50 8
def tAcc (r : Bytes) : Nat := fld r 0x58 8
def tIStride (r : Bytes) : Nat := fld r 0x60 8
def tFault (r : Bytes) : Bool := bit (tFlags r) 0
def tTrunc (r : Bytes) : Bool := bit (tFlags r) 1
def tIeee (r : Bytes) : Bool := bit (tFlags r) 2
def tSparse (r : Bytes) : Bool := bit (tFlags r) 3

/-- Kinds (Table 9.2). -/
def kWeight : Nat := 1
def kActivation : Nat := 2
def kGradient : Nat := 3
def kStash : Nat := 4
def kStats : Nat := 5
def kKey : Nat := 6
def kValue : Nat := 7
def kStaging : Nat := 8

def Table.tensors (t : Table) : List Bytes := t.recs secFormats 1

def Table.tensor? (t : Table) (n : Nat) : Option Bytes := t.tensors.find? fun r => tNum r == n

/-- A weight with an optimizer group (R264). -/
def tTrained (r : Bytes) : Bool := tKind r == kWeight && tGroup r != 0xFF

def Table.trained (t : Table) : List Bytes := t.tensors.filter tTrained

/-- Tiles of a weight (R260). -/
def tTilesI (r : Bytes) : Nat := ceilDiv (tRows r) 32
def tTilesO (r : Bytes) : Nat := ceilDiv (tCols r) 32
def tTiles (r : Bytes) : Nat := tTilesI r * tTilesO r

def Table.pinned (t : Table) : List Pinned :=
  (t.recs secFormats 2).map fun r => ⟨fld r 1 1, fld r 4 4, fld r 8 4⟩

/-! ## SCALE_POLICY (Table 9.7, R284) -/

def Table.scaleGlobal (t : Table) : Option Bytes := (t.recs secScale 1).head?

def Table.skipLimit (t : Table) : Nat :=
  match t.scaleGlobal with
  | none => 16
  | some r => if fld r 1 1 = 0 then 16 else fld r 1 1

def Table.initialLambda (t : Table) : Int := match t.scaleGlobal with | none => 16 | some r => sfld r 2 2

def Table.spread (t : Table) : Nat := match t.scaleGlobal with | none => 2 | some r => fld r 4 1

def Table.stochastic (t : Table) : Bool := match t.scaleGlobal with | none => false | some r => bit (fld r 5 1) 0

def Table.seed (t : Table) : Nat := match t.scaleGlobal with | none => 0 | some r => fld r 8 8

def Table.policy (t : Table) : ScalePolicy := ⟨t.skipLimit, t.spread⟩

/-- The tensor policy of a tensor: the first, where several name one tensor, which no rule forbids (DESIGN CHOICE, log 78). -/
def Table.tensorPolicy (t : Table) (n : Nat) : Option Bytes := (t.recs secScale 4).find? fun r => fld r 2 2 == n

def Table.stream (t : Table) (n : Nat) : Nat := match t.tensorPolicy n with | none => 0 | some r => fld r 4 2

def Table.policyFlag (t : Table) (n i : Nat) : Bool :=
  match t.tensorPolicy n with | none => false | some r => bit (fld r 6 2) i

def Table.promotable (t : Table) (n : Nat) : Bool := t.policyFlag n 0
def Table.narrowable (t : Table) (n : Nat) : Bool := t.policyFlag n 1

/-- The initial ε of a tensor with HISTORY (R267). -/
def Table.initialEps (t : Table) (n : Nat) : Option Int :=
  match t.tensorPolicy n with | none => none | some r => if bit (fld r 6 2) 2 then some (sfld r 8 2) else none

/-- The format of a tensor as the table accounts it, in its workspace and its rates: a promotable layer at L8 (R63). -/
def Table.countFmt (t : Table) (n : Nat) : Fmt :=
  match t.tensor? n with
  | none => .l4
  | some x => if t.promotable n then .l8 else tFmt x

/-- A frozen weight (R278). -/
def Table.frozen (t : Table) (n : Nat) : Bool := (t.recs secMasks 1).any fun r => fld r 2 2 == n

/-- The gradient tensors of a job: its activation gradients, then the reduced gradients of its trained weights (R266); a frozen
weight counts as untrained (R278). -/
def Table.gradients (t : Table) : List (Nat × Bool) :=
  (t.tensors.filter fun r => tKind r == kGradient).map (fun r => (tNum r, false))
    ++ (t.trained.filter fun r => !t.frozen (tNum r)).map fun r => (tNum r, true)

/-- An optimizer group as the chandler reads it (R205). -/
structure OptGroup where
  beta1 : Val
  beta2 : Val
  eps : Val
  decay : Val
  points : List (Nat × Val)
deriving DecidableEq, Repr

def l16 (c : Nat) : Val := decodeLog .l16 0 c

def Table.optGroup (t : Table) (g : Nat) : Option OptGroup :=
  ((t.recs secScale 2).find? fun r => fld r 1 1 == g).map fun r =>
    { beta1 := l16 (fld r 4 2), beta2 := l16 (fld r 6 2), eps := l16 (fld r 8 2), decay := l16 (fld r 10 2),
      points := ((t.recs secScale 3).filter fun p => fld p 1 1 == g).map fun p => (fld p 8 8, l16 (fld p 4 2)) }

/-- The scale state of a job that keeps nothing (R246, R267, R284). -/
def Table.initialScale (t : Table) : Scale :=
  { lam := t.initialLambda, clean := 0, skips := 0, applied := 0,
    hists := t.gradients.map fun g =>
      match t.initialEps g.1 with
      | some e => ⟨g.1, g.2, [⟨none, some e, false⟩], some (min 63 (max (-64) (e + 1)))⟩
      | none => ⟨g.1, g.2, [], none⟩,
    formats := (t.tensors.filter fun r => t.promotable (tNum r)).map fun r => ⟨tNum r, false, 0⟩,
    narrowed := (t.tensors.filter fun r => t.narrowable (tNum r)).map fun r => (tNum r, false) }

/-! ## BUCKETS (Table 9.9, R275, R276) -/

def Table.groupRec (t : Table) : Option Bytes := (t.recs secBuckets 1).head?
def Table.sampleGroups (t : Table) : Nat := match t.groupRec with | none => 0 | some r => fld r 4 4
def Table.sequences (t : Table) : Nat := match t.groupRec with | none => 0 | some r => fld r 8 4
def Table.maxTokens (t : Table) : Nat := match t.groupRec with | none => 0 | some r => fld r 0xC 4
def Table.buckets (t : Table) : List Bytes := t.recs secBuckets 2
def Table.bucket? (t : Table) (b : Nat) : Option Bytes := t.buckets.find? fun r => fld r 2 2 == b
def bNum (r : Bytes) : Nat := fld r 2 2
def bAKind (r : Bytes) : Nat := fld r 4 1
def bPhi (r : Bytes) : Nat := fld r 5 1
def bAnchor (r : Bytes) : Int := sfld r 6 2
def bFirst (r : Bytes) : Nat := fld r 8 2
def bCount (r : Bytes) : Nat := fld r 0xA 2
def bWire (r : Bytes) : Nat := fld r 0x10 8

/-- The trained weights of a bucket (R276). -/
def Table.bucketWeights (t : Table) (r : Bytes) : List Bytes :=
  (t.trained.filter fun w => bFirst r ≤ tNum w).take (bCount r)

/-! ## MASKS (R278) -/

/-- Bit `b` of the mask of kind `k` (1 row, 2 block) of a tensor; uncovered bits are set. -/
def Table.maskBit (t : Table) (k n b : Nat) : Bool :=
  match (t.recs secMasks 2).find? fun r => fld r 1 1 == k && fld r 2 2 == n && fld r 4 4 ≤ b && b < fld r 4 4 + 256 with
  | none => true
  | some r => bit (fld r (0x20 + (b - fld r 4 4) / 8) 1) ((b - fld r 4 4) % 8)

/-- Whether parameter (i, o) of a trained weight trains: inside the weight, not frozen and not masked. -/
def Table.trains (t : Table) (w : Bytes) (i o : Nat) : Bool :=
  i < tRows w && o < tCols w && !t.frozen (tNum w) && t.maskBit 1 (tNum w) o
    && t.maskBit 2 (tNum w) (o / 32 * tTilesI w + i / 32)

/-- Elements (i, j) of a tile in element order: i runs fastest (Table 9.5). -/
def tileElements : List (Nat × Nat) := (List.range 32).flatMap fun j => (List.range 32).map fun i => (i, j)

/-- The trained elements of tile `n` of a weight, as element numbers 32 j + i. -/
def Table.tileTrained (t : Table) (w : Bytes) (n : Nat) : List Nat :=
  let ti := n % tTilesI w
  let to' := n / tTilesI w
  (tileElements.filter fun e => t.trains w (32 * ti + e.1) (32 * to' + e.2)).map fun e => 32 * e.2 + e.1

/-- The wire locations of a bucket in order: (tensor, tile, element) (R276). -/
def Table.wireLocs (t : Table) (r : Bytes) : List (Nat × Nat × Nat) :=
  (t.bucketWeights r).flatMap fun w =>
    (List.range (tTiles w)).flatMap fun n => (t.tileTrained w n).map fun e => (tNum w, n, e)

/-- The count of trained, unmasked parameters of a weight, without listing them: rows I times the trained columns where
no block mask stands, tile by tile otherwise. -/
def Table.trainCount (t : Table) (w : Bytes) : Nat :=
  if t.frozen (tNum w) then 0
  else if (t.recs secMasks 2).any fun r => fld r 2 2 == tNum w then
    (List.range (tTiles w)).foldl (fun a n => a + (t.tileTrained w n).length) 0
  else tRows w * tCols w

/-! ## LEDGERS, ROUTER, HOST_LAYERS, SURVIVAL_POLICY -/

def Table.ledgerRec (t : Table) (n : Nat) : Option Bytes := (t.sec secLedgers).find? fun r => fld r 2 2 == n
def Table.router? (t : Table) (i : Nat) : Option Bytes := (t.sec secRouter)[i]?
def Table.hostLayer? (t : Table) (i : Nat) : Option Bytes := (t.sec secHostLayers)[i]?

def Table.journalRec (t : Table) : Option Bytes := (t.recs secSurvival 1).head?
def Table.mirror (t : Table) : Bool := match t.journalRec with | none => false | some r => bit (fld r 1 1) 0
def Table.snapshotToPartner (t : Table) : Bool := match t.journalRec with | none => false | some r => bit (fld r 1 1) 1
def Table.snapshotInterval (t : Table) : Nat := match t.journalRec with | none => 0 | some r => fld r 2 2
def Table.drainRate (t : Table) : Nat := match t.journalRec with | none => 64 | some r => fld r 4 4
def Table.recordBudget (t : Table) : Nat := match t.journalRec with | none => 4096 | some r => fld r 0x18 4
def Table.journalExtent (t : Table) : Nat := match t.journalRec with | none => 1024 | some r => fld r 0x1C 4
def Table.retained (t : Table) : Nat := match t.journalRec with | none => 2 | some r => fld r 0x20 4

/-! ## STALL_MAP (Table 8.5) -/

def Table.stallRec (t : Table) (i : Nat) : Option Bytes := (t.sec secStallMap).find? fun r => fld r 0 2 == i
def Table.pipelineOf (t : Table) (i : Nat) : Option Nat := (t.stallRec i).map fun r => fld r 2 2
def Table.stallsUsed (t : Table) : List Nat := (t.sec secStallMap).map fun r => fld r 0 2

/-! ## Tide records (Tables 8.10 to 8.14) -/

inductive TideKind where
  | product | close | lane | partialLoad | regionOpen | gatherOpen | route | hostLayer | barrier
deriving DecidableEq, Repr

def TideKind.ofCode : Nat → Option TideKind
  | 1 => some .product | 2 => some .close | 3 => some .lane | 4 => some .partialLoad | 5 => some .regionOpen
  | 6 => some .gatherOpen | 7 => some .route | 8 => some .hostLayer | 9 => some .barrier | _ => none

def rKind (r : Bytes) : TideKind := (TideKind.ofCode (fld r 0 1)).getD .barrier
def rFlags (r : Bytes) : Nat := fld r 1 1
def rStall (r : Bytes) : Nat := fld r 2 2

/-- The records a record depends on. -/
def Table.depsOf (t : Table) (r : Bytes) : List Nat := (t.deps.drop (fld r 4 4)).take (fld r 8 2)

def Table.tide (t : Table) (i : Nat) : Bytes := t.tides.getD i []

/-- The range of a record (Table 8.9). -/
def Table.rangeOf (t : Table) (i : Nat) : Nat := if i < t.range1 then 0 else if i < t.range2 then 1 else 2

/-- PRODUCT flags (Table 8.13). -/
def pContinue (r : Bytes) : Bool := bit (rFlags r) 0
def pGatherUse (r : Bytes) : Bool := bit (rFlags r) 1
def pVariable (r : Bytes) : Bool := bit (rFlags r) 2
def pToRegion (r : Bytes) : Bool := bit (rFlags r) 3
def pOneHot (r : Bytes) : Bool := bit (rFlags r) 4
def pKeepOpen (r : Bytes) : Bool := bit (rFlags r) 5

/-- Whether a PRODUCT opens a tile, and whether it closes one (R235). -/
def opensTile (r : Bytes) : Bool := !pContinue r && !pGatherUse r
def closesTile (r : Bytes) : Bool := !pKeepOpen r && !pGatherUse r

/-- A tile byte: first unit, units, resident. -/
def tileFirst (b : Nat) : Nat := bits b 2 0
def tileUnits (b : Nat) : Nat := bits b 5 3 + 1
def tileResident (b : Nat) : Bool := bit b 7

def pStat (r : Bytes) : Nat := fld r 0x10 2
def pStream (r : Bytes) : Nat := fld r 0x12 2
def pOut (r : Bytes) : Nat := fld r 0x14 2
def pChain (r : Bytes) : Nat := fld r 0x16 2
/-- The region record that TO_REGION names, of PRODUCT and CLOSE. -/
def pRegion (r : Bytes) : Nat := fld r 0x14 2 + 65536 * fld r 0x16 2
def pRowBase (r : Bytes) : Nat := fld r 0x18 4
def pRows (r : Bytes) : Nat := fld r 0x1C 2
def pRowTiles (r : Bytes) : Nat := fld r 0x1E 2
def pColBase (r : Bytes) : Nat := fld r 0x20 4
def pColTiles (r : Bytes) : Nat := fld r 0x24 2
def pTile (r : Bytes) : Nat := fld r 0x26 1
def pPhi (r : Bytes) : Nat := fld r 0x27 1
def pBlockBase (r : Bytes) : Nat := fld r 0x28 4
def pBlockCount (r : Bytes) : Nat := fld r 0x2C 4
def pTileRef (r : Bytes) : Nat := fld r 0x30 4
def pStatRoute (r : Bytes) : Nat := fld r 0x34 2
def pStreamRoute (r : Bytes) : Nat := fld r 0x36 2
def pOutRoute (r : Bytes) : Nat := fld r 0x38 2
def pPieces (r : Bytes) : Nat := fld r 0x3A 1
def pUse (r : Bytes) : Nat := fld r 0x3B 1
def pPart (r : Bytes) : Nat := fld r 0x3C 1
def pParts (r : Bytes) : Nat := fld r 0x3D 1

/-- CLOSE fields (Table 8.14). -/
def cTileRef (r : Bytes) : Nat := fld r 0x10 4
def cRowBase (r : Bytes) : Nat := fld r 0x18 4
def cColBase (r : Bytes) : Nat := fld r 0x1C 4
def cRoute (r : Bytes) : Nat := fld r 0x20 2
def cCloser (r : Bytes) : Bool := bit (rFlags r) 2

/-- LANE fields. -/
def lIn (r : Bytes) (k : Nat) : Nat := fld r (0x10 + 2 * k) 2
def lOut (r : Bytes) : Nat := fld r 0x16 2
def lChain (r : Bytes) : Nat := fld r 0x18 2
def lRowBase (r : Bytes) : Nat := fld r 0x1C 4
def lRows (r : Bytes) : Nat := fld r 0x20 4
def lColBase (r : Bytes) : Nat := fld r 0x24 4
def lCols (r : Bytes) : Nat := fld r 0x28 4

/-- PARTIAL_LOAD fields. -/
def plRegion (r : Bytes) : Nat := fld r 0x10 4
def plFirst (r : Bytes) : Nat := fld r 0x14 4
def plTileRef (r : Bytes) : Nat := fld r 0x18 4
def plRows (r : Bytes) : Nat := fld r 0x1C 2
def plTile (r : Bytes) : Nat := fld r 0x1E 1
def plPhi (r : Bytes) : Nat := fld r 0x1F 1

/-- REGION_OPEN fields. -/
def gBase (r : Bytes) : Nat := fld r 0x10 8
def gLocs (r : Bytes) : Nat := fld r 0x18 4
def gIsP32 (r : Bytes) : Bool := fld r 0x1C 1 == 2
def gAKind (r : Bytes) : Nat := fld r 0x1D 1
def gAnchor (r : Bytes) : Int := sfld r 0x1E 2
def gGamma (r : Bytes) : Nat := fld r 0x20 2
def gPhi (r : Bytes) : Nat := fld r 0x22 1
def gDone (r : Bytes) : Nat := fld r 0x24 2
def gBucket (r : Bytes) : Nat := fld r 0x26 2
def gPitch (r : Bytes) : Nat := fld r 0x28 4

/-- GATHER_OPEN fields. -/
def goTile (r : Bytes) : Nat := fld r 0x10 1
def goPhi (r : Bytes) : Nat := fld r 0x11 1
def goDelta (r : Bytes) : Int := sfld r 0x12 2
def goUses (r : Bytes) : Nat := fld r 0x14 2
def goCloser (r : Bytes) : Nat := fld r 0x18 4

/-- ROUTE and HOST_LAYER fields. -/
def roRouter (r : Bytes) : Nat := fld r 0x10 2
def roLogits (r : Bytes) : Nat := fld r 0x12 2
def roInput (r : Bytes) : Nat := fld r 0x14 2
def roGathered (r : Bytes) : Nat := fld r 0x16 2
def roTokens (r : Bytes) : Nat := fld r 0x18 4
def hlRec (r : Bytes) : Nat := fld r 0x10 2
def hlDir (r : Bytes) : Nat := fld r 0x12 1
def hlIn (r : Bytes) : Nat := fld r 0x14 2
def hlOut (r : Bytes) : Nat := fld r 0x16 2

/-! ## Layouts (Tables 9.5, 9.6) -/

/-- Bytes of one element of a format without blocks. -/
def elemBytes : Fmt → Nat
  | .binary32 => 4 | .e4m3 | .e5m2 => 1 | _ => 2

/-- Bytes of one 32-block or compressed unit of a weight. -/
def unitBytes (f : Fmt) (sparse : Bool) : Nat := if sparse then sparseUnitBytes f else blockBytes f

/-- The tile unit z of a weight's codes (Table 9.5). -/
def codesUnit (w : Bytes) : Nat := 32 * unitBytes (tFmt w) (tSparse w)

/-- Whether the weight's format carries scale codes (Table 9.5). -/
def hasScales (f : Fmt) : Bool := f.isBlock

/-- Address of the codes and of the scale byte of the block of one piece of a weight: forward order, column `o` and
input block `ti`, or transposed order, input row `i` and output block `to`. -/
def weightBlockAddr (w : Bytes) (transposed : Bool) (piece line blk : Nat) : Nat × Nat :=
  let n := if transposed then blk * tTilesI w + line / 32 else line / 32 * tTilesI w + blk
  let base := (if transposed then tCodes2 w else tCodes w) + piece * tStride w
  (dealt base n (codesUnit w) + line % 32 * unitBytes (tFmt w) (tSparse w),
   dealt (tScales w + piece * tStride w) n 64 + (if transposed then 32 else 0) + line % 32)

/-- Address of the codes and scale byte of block `b` of row `r` of a row-major tensor, at instance base `off`. -/
def rowBlockAddr (x : Bytes) (f : Fmt) (off r b : Nat) : Nat × Nat :=
  let idx := r * ceilDiv (tCols x) 32 + b
  (tCodes x + off + idx * blockBytes f, tScales x + off + idx)

/-- Address of element (r, c) of a row-major tensor without blocks. -/
def elemAddr (x : Bytes) (off r c : Nat) : Nat := tCodes x + off + (r * tCols x + c) * elemBytes (tFmt x)

/-- Address of element (r, c) of a G16 tensor in panels (R161). -/
def panelAddr (x : Bytes) (off r c : Nat) : Nat :=
  tCodes x + off + (r / 32 * ceilDiv (tCols x) 32 + c / 32) * 2048 + (r % 32 * 32 + c % 32) * 2

/-- Offsets of the codes and the scale byte of token block `tb` of feature `f` (stash, and the second copy of R162). -/
def tokenBlockOff (cols bytes tb f : Nat) : Nat × Nat := ((tb * cols + f) * bytes, tb * cols + f)

/-- Bytes per token of a row statistics tensor: mean and reciprocal deviation where the chain ends in a layer
normalisation, the root mean square otherwise (R157, Table 9.6). -/
def statBytes (chain : Nat) : Nat :=
  if chain = 0 then 2
  else match (Config.laneChain chain).getLast? with
  | some s => match s.fn with
    | .layerNorm _ => 4
    | _ => 2
  | none => 2

/-- The lane chain of the first record that writes a tensor: a PRODUCT that closes its tile, a CLOSE or a LANE. -/
def Table.chainTo (t : Table) (n : Nat) : Nat :=
  ((t.tides.find? fun r => match rKind r with
    | .product => closesTile r && pOut r == n && !pToRegion r
    | .close => pOut r == n && !pToRegion r
    | .lane => lOut r == n
    | _ => false).map fun r => if rKind r == .lane then lChain r else pChain r).getD 0

/-- Bytes per token of a row statistics tensor, by the chain that writes its source (R157, R263). -/
def Table.statWidth (t : Table) (n : Nat) : Nat :=
  match (t.recs secShoal 2).find? fun e => fld e 6 2 == n with
  | none => 2
  | some e => statBytes (t.chainTo (fld e 2 2))

/-! ## The stash frame (R269, R272, R273) -/

/-- The recompute segment of a stash or statistics tensor. -/
def Table.segmentOf (t : Table) (n : Nat) : Nat :=
  match (t.recs secShoal 2).find? fun e => fld e 4 2 == n || fld e 6 2 == n with
  | none => 0
  | some e => fld e 8 2

/-- Bytes of the codes of one instance of a tensor that is no weight, in its accounted format (Table 9.6, R63). -/
def Table.codesBytes (t : Table) (x : Bytes) : Nat :=
  let f := t.countFmt (tNum x)
  let k := tKind x
  if k = kGradient then ceilDiv (tRows x) 32 * ceilDiv (tCols x) 32 * 2048
  else if k = kStash then ceilDiv (tRows x) 32 * tCols x * 16
  else if k = kValue then ceilDiv (tRows x) 32 * tCols x * 32
  else if f.isBlock then tRows x * ceilDiv (tCols x) 32 * blockBytes f
  else if f = .g16 then ceilDiv (tRows x) 32 * ceilDiv (tCols x) 32 * 2048
  else tRows x * tCols x * elemBytes f

/-- Bytes of the scales of one instance of a tensor that is no weight (Table 9.6). -/
def scalesBytes (x : Bytes) : Nat :=
  let k := tKind x
  if k = kStash || k = kValue then ceilDiv (tRows x) 32 * tCols x
  else tRows x * ceilDiv (tCols x) 32

/-- Bytes of the second codes of one instance: the token-blocked L8 copy, or the open-block area of a value cache. -/
def codes2Bytes (x : Bytes) : Nat := if tKind x = kValue then 64 * tCols x else ceilDiv (tRows x) 32 * tCols x * 32

/-- Instances of a tensor in module memory (R263). -/
def Table.instances (t : Table) (x : Bytes) : Nat := if tInst x = 0 then 1 else t.maxInst

/-- The tile-dealt arrays of a weight but its accumulator: base and tile unit of each (R262, Table 9.5). -/
def Table.dealtArrays (t : Table) (x : Bytes) : List (Nat × Nat) :=
  let opt := fun (a s z : Nat) => if a = noAddr then [] else [(a + s, z)]
  ((List.range (tPieces x)).flatMap fun p =>
      (tCodes x + p * tStride x, codesUnit x) :: opt (tCodes2 x) (p * tStride x) (codesUnit x) ++ opt (tScales x) (p * tStride x) 64)
    ++ opt (tMaster x) 0 2048 ++ opt (tM1 x) 0 2048 ++ opt (tM2 x) 0 2048
    ++ (match t.ledgerRec (tNum x) with | none => [] | some l => [(fld l 8 8, 32)])

/-- The byte ranges (base, length) of every array of a tensor that has module addresses (R264): not of stash, row
statistics and cache tensors, whose addresses are offsets. -/
def Table.arrays (t : Table) (x : Bytes) : List (Nat × Nat) :=
  let k := tKind x
  if k = kStash || k = kStats || k = kKey || k = kValue then []
  else if k = kWeight then (t.dealtArrays x).flatMap fun a => dealtRanges a.1 (tTiles x) a.2
  else
    (List.range (t.instances x)).flatMap fun i =>
      let o := i * tIStride x
      [(tCodes x + o, t.codesBytes x)]
        ++ (if tScales x = noAddr then [] else [(tScales x + o, scalesBytes x)])
        ++ (if tCodes2 x = noAddr then [] else [(tCodes2 x + o, codes2Bytes x)])
        ++ (if tScales2 x = noAddr then [] else [(tScales2 x + o, ceilDiv (tRows x) 32 * tCols x)])

/-- The gradient accumulator of a trained weight (class 2, Table 9.2). -/
def accRanges (x : Bytes) : List (Nat × Nat) := if tAcc x = noAddr then [] else dealtRanges (tAcc x) (tTiles x) 4096

/-- Rows of the stash of an entry for a group of some tokens. The stash of a gathered tensor has a row for every place of every
expert (R177). -/
def Table.entryRows (t : Table) (e : Bytes) (tokens : Nat) : Nat :=
  match t.tensor? (fld e 4 2) with
  | none => 0
  | some y => if t.tides.any fun r => rKind r == .route && roGathered r == fld e 2 2 then tRows y else tokens

/-- The frame pages that a stash entry of a group of some tokens covers. -/
def Table.entryPages (t : Table) (e : Bytes) (tokens : Nat) : List Nat :=
  (match t.tensor? (fld e 4 2) with
    | none => []
    | some y =>
      let b := ceilDiv (t.entryRows e tokens) 32
      pagesOf (tCodes y) (b * tCols y * 16) ++ pagesOf (tScales y) (b * tCols y))
  ++ (match t.tensor? (fld e 6 2) with | none => [] | some y => pagesOf (tCodes y) (t.statWidth (tNum y) * tokens))

/-- The frame pages of a segment for a group of some tokens, ascending. -/
def Table.segmentPages (t : Table) (seg tokens : Nat) : List Nat :=
  sortBy (fun a b : Nat => a < b)
    (((t.recs secShoal 2).filter fun e => fld e 8 2 == seg).flatMap fun e => t.entryPages e tokens).eraseDups

/-- The class of a tensor's pages (Table 9.2). -/
def classOfKind (k : Nat) : Nat := if k = kWeight then 1 else if k = kStaging then 3 else 2

/-- The byte length of a partial-sum region that no bucket names. -/
def regionBytes (r : Bytes) : Nat := roundUp (gLocs r * (if gIsP32 r then 4 else 8)) 64

/-- Every byte range with its access class that the table places (R212): arrays, accumulators, shoal, reserve and KV
regions, partial-sum regions and breakwater. -/
def Table.placed (t : Table) : List (Nat × Nat × Nat) :=
  (t.tensors.flatMap fun x => (t.arrays x).map fun a => (classOfKind (tKind x), a.1, a.2))
    ++ (t.tensors.flatMap fun x => (accRanges x).map fun a => (2, a.1, a.2))
    ++ ((t.recs secShoal 1).map fun r => (2, fld r 8 8, fld r 0x10 8))
    ++ ((t.recs secShoal 4).map fun r => (2, fld r 8 8, fld r 0x10 8))
    ++ ((t.recs secShoal 5).map fun r => (2, fld r 8 8, fld r 4 2 * fld r 0x10 8))
    ++ ((t.tides.filter fun r => rKind r == .regionOpen && gBucket r == 0xFFFF).map fun r => (2, gBase r, regionBytes r))
    ++ ((t.recs secSurvival 2).map fun r => (4, fld r 8 8, fld r 0x10 8))

/-- The page classes (R212): each assigned page with its class. -/
def Table.pageClasses (t : Table) : List (Nat × Nat) :=
  (t.placed.flatMap fun p => (pagesOf p.2.1 p.2.2).map fun g => (g, p.1)).eraseDups

end Sys2Proof.Machine
end

