-- ==== Sys2Proof/Machine/State.lean ====
section
/-! DEFINITION. The state of the block as plain data, its faults and refusals, and the state after reset. -/

namespace Sys2Proof.Machine

/-- Why a command stops the block. -/
inductive Fault where
  /-- Raised by a quay request whose address lies at or above 0x180_0000_0000: no byte of a pile has it (R187). Safe:
  no rule gives such a request an effect. -/
  | noSuchAddress (addr : Nat)
deriving DecidableEq, Repr

/-- Why a command has no meaning. -/
inductive Refusal where
  /-- Raised by an arm of `exec` whose command has no meaning yet. Safe: the model stops. -/
  | notModelled (mnemonic : String)
deriving DecidableEq, Repr

/-! ## Module states (Table 13.3) -/

inductive ModuleState where
  | standby | booting | inert | configured | running | slack | faulted | quarantined | testing
deriving DecidableEq, Repr

def ModuleState.code : ModuleState → Nat
  | .standby => 1 | .booting => 2 | .inert => 3 | .configured => 4 | .running => 5 | .slack => 6
  | .faulted => 7 | .quarantined => 8 | .testing => 9

/-- Completion statuses (R359; the codes stand at each rule that names one). -/
inductive Status where
  | ok | refusedState | refusedDeadline | malformed | signature | deferred | fault | aborted | busy
deriving DecidableEq, Repr

def Status.code : Status → Nat
  | .ok => 0 | .refusedState => 1 | .refusedDeadline => 2 | .malformed => 3 | .signature => 4
  | .deferred => 5 | .fault => 6 | .aborted => 7 | .busy => 8

/-! ## What leaves the block (log 7) -/

/-- Traffic on a partner port (R335): a mirrored record, its acknowledgement, a snapshot fragment, the donor's side of a
restore. -/
inductive PartnerMsg where
  | mirror (record : Bytes)
  | mirrorAck (seq : Nat)
  | fragment (number step page quay digest : Nat) (data : Bytes)
  | imageRecord (number : Nat) (record : Bytes)
  | imageHeader (header : Bytes)
  | storeRead
  | image (bytes : Bytes)
  | transfer (page quay digest : Nat) (data : Bytes)
  | donorRecord (record : Bytes)
  | forwardG16 (step bucket first : Nat) (vs : List (Option Int))
  | forwardStats (step : Nat) (es : List StatEntry)
  | refused
deriving DecidableEq, Repr

/-- A link-layer or control transmission. -/
inductive LinkMsg where
  | hello (h : Hello)
  | progress (r : Progress)
  | nak (expected : Nat)
  | eject (r : EjectRec)
  | fault (r : FaultRec)
  | leave (rank : Nat)
  | resend (seq : Nat)
  | frame (f : BucketFrame)
  | forward (f : BucketFrame)
  | census (p : CensusPart)
  | partner (m : PartnerMsg)
deriving DecidableEq, Repr

/-- One thing the module sends through its connectors. -/
inductive Output where
  | msix (vector addr data : Nat)
  | entry (cq addr : Nat) (data : Bytes)
  | commandData (sq cid off : Nat) (data : Bytes) (poisoned : Bool)
  | hostWrite (addr : Nat) (data : Bytes) (poisoned : Bool)
  | bar0Return (offset value : Nat)
  | readReturn (offset : Nat) (data : Bytes) (poisoned : Bool)
  | quayReturn (addr : Nat) (data : Bytes) (codes : List Nat)
  | doe (data : Bytes)
  | link (port : Nat) (m : LinkMsg)
  | flit (port lane : Nat) (codeword : Bytes)
deriving DecidableEq, Repr

/-! ## Power, boot, PCIe -/

structure Power where
  present : Bool
  inputMv : Nat
  inputMa : Nat
  powerMw : Nat
  pwrEn : Bool
  resetLow : Bool
  pwrGood : Bool
  tripAlert : Bool
  undervolt : Bool
  feedId : Nat
  domains : BitVec 99
  cap : Nat
  capPending : Option Nat
  temps : List (BitVec 16)
  thermal : List (Nat × Nat × Nat)
  cool : List (Nat × Nat)
  halved : List Nat
deriving DecidableEq, Repr

/-- One generation of an owner slot (Table 15.5). -/
structure KeyGen where
  edHash : Bytes
  mlHash : Bytes
  revoked : Bool
deriving DecidableEq, Repr

/-- What the flash device area records of the last activated table (R455). -/
structure LastOwner where
  slot : Nat
  generation : Nat
  extent : Nat
deriving DecidableEq, Repr

structure Boot where
  mode : ModuleState
  prev : ModuleState
  patch : BitVec 32
  patchHeader : Option Bytes
  patchRam : Bytes
  verified : Bool
  storedPatch : Option Bytes
  svn : Nat
  slots : List (List KeyGen)
  keys : List (Nat × Bytes)
  lastOwner : Option LastOwner
  resetDue : Bool
deriving DecidableEq, Repr

structure MsixEntry where
  addr : Nat
  data : Nat
  masked : Bool
deriving DecidableEq, Repr

/-- What the host's software sets in the configuration space of the function (Table 12.1): the base addresses of BAR0 and BAR2,
Max_Payload_Size and Max_Read_Request_Size in bytes. No row writes it; it returns to its reset value with the PCIe domain (log 91). -/
structure PciConfig where
  bar0 : Nat
  bar2 : Nat
  maxPayload : Nat
  maxRead : Nat
deriving DecidableEq, Repr

/-- The function (R349, R350, R352, R378): `rate` is the trained speed in tenths of a GT/s and `lanes` the trained width. -/
structure Pcie where
  busMaster : Bool
  perst : Bool
  rate : Nat
  lanes : Nat
  config : PciConfig
  bwBase : Nat
  bwWritten : Option Nat
  bwRefused : Nat
  msix : List MsixEntry
  msixPend : List Nat
  i3cPtr : Nat
deriving DecidableEq, Repr

/-! ## Queues and commands -/

structure Sq where
  base : Nat
  enable : Bool
  cq : Nat
  log2 : Nat
  head : Nat
  tail : Nat
  blocked : Bool
  ring : List Placed
deriving DecidableEq, Repr

/-- A completion entry before it takes its place and phase in the ring (Table 12.4). -/
structure Entry where
  r0 : Nat
  r1 : Nat
  ext : Nat
  excess : Nat
  sq : Nat
  cid : Nat
  kind : Nat
  status : Nat
deriving DecidableEq, Repr

structure Cq where
  base : Nat
  enable : Bool
  intEn : Bool
  vector : Nat
  log2 : Nat
  tail : Nat
  head : Nat
  posted : Nat
  phase : Bool
  held : List Entry
deriving DecidableEq, Repr

/-- An accepted command without a final entry (R360 to R366). `broken` is the cause that has ended its promise,
0 while it stands; `faults` counts the harbour faults since its acceptance (R255). -/
structure Cmd where
  sq : Nat
  cq : Nat
  cid : Nat
  entry : Bytes
  sgl : List SgElem
  accepted : Nat
  bound : Nat
  ext : Nat
  deferred : Bool
  broken : Nat
  faults : Nat
  started : Bool
deriving DecidableEq, Repr

/-! ## Event log and telemetry -/

structure EventRec where
  seq : Nat
  code : Nat
  alerted : Bool
  srcKind : Nat
  srcIndex : Nat
  attempt : Nat
  step : Nat
  usec : Nat
  detail : Bytes
deriving DecidableEq, Repr

/-- The newest 512 records, newest first; `spill` is what has gone to the flash device area, newest first, which the host cannot read
(R323, R392). -/
structure EventLog where
  ring : List EventRec
  headSeq : Nat
  ack : Nat
  intEn : Bool
  vector : Nat
  alertMask : BitVec 9
  armed : Bool
  lastViol : List (Nat × Nat)
  spill : List EventRec
deriving DecidableEq, Repr

/-- Counters by BAR0 offset; an unlisted counter is zero. -/
structure Telemetry where
  ctr : List (Nat × Nat)
  sat : List Nat
  frozen : Bool
  image : List (Nat × Nat)
  lastLoss : BitVec 16
deriving DecidableEq, Repr

/-! ## The job -/

structure Batch where
  step : Nat
  group : Nat
  inModule : Bool
  addr : Nat
  data : Bytes
  digest : Nat
  bad : Bool
deriving DecidableEq, Repr

structure Job where
  table : Option Table
  step : Nat
  committed : Option Nat
  dataPos : Nat
  streamStep : Option Nat
  modelDigest : Nat
  attempt : Nat
  scale : Scale
  historyLost : Bool
  batches : List Batch
  progress : Nat
deriving DecidableEq, Repr

structure Mem where
  cells : List Host.Cell
  poisoned : List Nat
  classes : List (Nat × Nat)
deriving DecidableEq, Repr

/-! ## The run -/

inductive RunKind where
  | none | training | serving
deriving DecidableEq, Repr

/-- A RUN_STEPS under way: its steps, those used, the applied and skipped ones. -/
structure RunCmd where
  sq : Nat
  cid : Nat
  n : Nat
  used : Nat
  applied : Nat
  skipped : Nat
deriving DecidableEq, Repr

/-- A sample group of the step: its place among the module's groups, its frame pages in the shoal, recompute mode. -/
structure GroupRun where
  group : Nat
  place : Nat
  tokens : Nat
  pages : List Nat
  recompute : Bool
  started : Bool
  waitFrom : Option Nat
deriving DecidableEq, Repr

inductive TideStatus where
  | waiting | issued | started | done
deriving DecidableEq, Repr

/-- A tide: a record, its range and its instance (the place of the sample group, the chunk or the decode step). `read` and
`added` of a region stand with the region. -/
structure TideInst where
  tide : Nat
  inst : Nat
  status : TideStatus
deriving DecidableEq, Repr

/-- An open partial-sum region: per-location counts of the writes (R132) and of the contributions that they brought (R117), cliffed
locations, waiting contributions (location, contribution). -/
structure Region where
  tide : Nat
  inst : Nat
  opened : Bool
  counts : List (Nat × Nat)
  blocks : List (Nat × Nat)
  cliffs : List Nat
  complete : Bool
  waiting : List (Nat × Contribution)
deriving DecidableEq, Repr

/-- An admitted expert choice: routing tide, instance, expert, token, rank of the choice, gate weight as an L19 code. -/
structure Admit where
  tide : Nat
  inst : Nat
  expert : Nat
  token : Nat
  rank : Nat
  weight : Nat
deriving DecidableEq, Repr

/-- The output of an admitted choice, weighted by its gate, until every choice of its token has come (R177): L19 codes of the
columns from `col` on of tensor `out`. -/
structure GateOut where
  tide : Nat
  inst : Nat
  token : Nat
  rank : Nat
  out : Nat
  col : Nat
  codes : List Nat
  stat : TensorStat
deriving DecidableEq, Repr

/-- A piece of a row that waits for the rest of its token row before a function of the whole row runs (R147, R151, R157): L19
codes of the columns from `col` on, and what closing them reported. -/
structure RowPart where
  tensor : Nat
  inst : Nat
  row : Nat
  col : Nat
  codes : List Nat
  stat : TensorStat
deriving DecidableEq, Repr

/-- Row statistics of a group in recompute mode, until the recompute reserve takes them (R157, R159). -/
structure LatentStat where
  tensor : Nat
  inst : Nat
  row : Nat
  codes : List Nat
deriving DecidableEq, Repr

structure HostReq where
  tag : Nat
  layer : Nat
  dir : Nat
  tide : Nat
  inst : Nat
  sq : Nat
  cid : Nat
  posted : Nat
  bytes : Nat
deriving DecidableEq, Repr

/-- A request of a SERVE: its command, its slot once it has one, its tokens and chunks; `nar` tells that a token was NaR, `spoiled` that
a conversion of its rows met the cliff (R59). -/
structure ServeReq where
  sq : Nat
  cid : Nat
  slot : Option Nat
  prompt : List Nat
  output : List Nat
  chunks : Nat
  nar : Bool
  spoiled : Bool
deriving DecidableEq, Repr

inductive SlackPhase where
  | none | reducing | committing | census | testing
deriving DecidableEq, Repr

/-- What the step in slack water decided, for the journal record and what follows the commit. -/
inductive StepOutcome where
  | applied | skipped | probeClean | probeFailed
deriving DecidableEq, Repr

structure Run where
  kind : RunKind
  cur : Option RunCmd
  probe : Bool
  groups : List GroupRun
  tides : List TideInst
  regions : List Region
  admits : List Admit
  gated : List GateOut
  rowParts : List RowPart
  latent : List LatentStat
  packed : List (Nat × Nat × Nat × Nat)
  stats : List (Nat × TensorStat)
  reduced : List (Nat × TensorStat)
  stepCliff : Bool
  stepNar : Bool
  waitUs : Nat
  once : List (Nat × Nat × Nat)
  slack : SlackPhase
  outcome : StepOutcome
  hostReqs : List HostReq
  nextTag : Nat
  serves : List ServeReq
  decodes : Nat
  closing : Bool
deriving DecidableEq, Repr

/-! ## Stalls, quays -/

inductive TileState where
  | opened | gathering | closing
deriving DecidableEq, Repr

/-- A live accumulator tile (R73, R134): its opener, first unit and units, rows of 128 accumulators, the uses still due of a
gathering tile, and the parts of a resident reduction that have closed (R125). -/
structure Tile where
  tide : Nat
  inst : Nat
  first : Nat
  units : Nat
  resident : Bool
  state : TileState
  usesLeft : Nat
  accs : List (List Acc)
deriving DecidableEq, Repr

/-- A weight plane (R80, Table 3.4): whether it has finished loading, the tide whose slice it holds, the slice, block by block, and
the ledger image of each block. -/
structure Plane where
  loaded : Bool
  record : Nat
  inst : Nat
  blocks : List Block
  ledgers : List (List Nat)
deriving DecidableEq, Repr

/-- What the stall store holds (R72): streamed operands, the slices and the ledger images from which weight planes load, and the
operands and the results of lane chains. -/
inductive StorePart where
  | stream | stationary | ledger | operand | result
deriving DecidableEq, Repr

/-- Data in the stall store (R72, R165): the tide that it serves, what it is, its tensor, and its blocks as the quays delivered them or
the lanes formed them. -/
structure StoreItem where
  record : Nat
  inst : Nat
  part : StorePart
  tensor : Nat
  blocks : List Block
deriving DecidableEq, Repr

/-- A stall (Table 3.1): `planes` are its two weight planes, `active` the one that serves products, `passesLeft` the passes of the
PRODUCT on the array that wait for their plane; `store` is the stall store; `lanes` the registers of the vector lanes, by
64 · lane + register, as L19 codes (R139; an unlisted one holds zero). -/
structure Stall where
  state : Nat
  dvfs : Nat
  target : Option Nat
  pipeline : Nat
  lastRec : Option Nat
  lastInst : Nat
  temp : BitVec 16
  lastStep : Option Nat
  planes : List Plane
  active : Nat
  passesLeft : Nat
  store : List StoreItem
  lanes : List (Nat × Nat)
  tiles : List Tile
  parts : List (Nat × Nat × List (List Acc))
deriving DecidableEq, Repr

/-- A write that waits for breakwater room (R216). -/
structure HeldWrite where
  addr : Nat
  data : Bytes
  since : Nat
deriving DecidableEq, Repr

structure Quay where
  free : Nat
  waiting : List HeldWrite
  failed : Bool
deriving DecidableEq, Repr

/-! ## Snapshot, journal -/

/-- A snapshot in its drain: destination (host with its command or registered buffer, partner store, or a newcomer). -/
inductive SnapDest where
  | host (base len : Nat) (sq cid : Option Nat)
  | partner
  | newcomer (port : Nat)
deriving DecidableEq, Repr

structure SnapReq where
  sq : Nat
  cid : Nat
deriving DecidableEq, Repr

/-- A fragment held for the partner in the snapshot store (R323, R338). -/
structure StoreFrag where
  page : Nat
  quay : Nat
  digest : Nat
  data : Bytes
deriving DecidableEq, Repr

/-- An image of the partner in the snapshot store (R323, R339): its snapshot number, the header once it has come, the copy of the
record, and the fragments in the order of their arrival. -/
structure StoreImage where
  number : Nat
  header : Bytes
  record : Bytes
  frags : List StoreFrag
deriving DecidableEq, Repr

/-- The snapshot under way and the images kept: `pend` the fragments still to drain, `copies` those in the breakwater, `badCopies` the
copies that hold a poisoned line (R201, R214); `shown` is the step, bytes drained and total of the last snapshot, as the registers
show them while and after a transfer to a newcomer drains (R407). -/
structure Snap where
  draining : Bool
  number : Nat
  step : Nat
  dest : SnapDest
  total : Nat
  drained : Nat
  setDigest : Nat
  count : Nat
  imageOff : Nat
  record : Bytes
  pend : List (Nat × Nat)
  copies : List (Nat × Nat × Bytes)
  badCopies : List (Nat × Nat)
  requests : List SnapReq
  serving : List SnapReq
  recordDue : Bool
  doneNumber : Nat
  doneStep : Nat
  abandoned : Bool
  noDest : Bool
  hostBase : Nat
  hostLen : Nat
  intervalPending : Bool
  shown : Nat × Nat × Nat
  store : List StoreImage
deriving DecidableEq, Repr

/-- The records being committed in one write (R329): their bytes, whether the local write has finished and whether an
acknowledgement is owed; whether a step waits for the commit, and whether a snapshot-complete record is among the records
(R340). -/
structure Commit where
  records : List Bytes
  flashDone : Bool
  ackDue : Bool
  ofStep : Bool
  snapDone : Bool
deriving DecidableEq, Repr

structure Journal where
  own : List Bytes
  partner : List Bytes
  extent : Nat
  commit : Option Commit
  flashOk : Bool
  compacting : Bool
  suspended : Bool
deriving DecidableEq, Repr

/-! ## Harbour, ports -/

structure Joining where
  sq : Nat
  cid : Nat
  block : Bytes
  started : Nat
deriving DecidableEq, Repr

/-- The newest PROGRESS record of a neighbour: `since` is the time from which its count has stood, moved on by the time for which it
showed a wait flag (R311), `seen` that of the record. -/
structure Neighbour where
  rank : Nat
  count : Nat
  since : Nat
  seen : Nat
  waiting : Bool
  halted : Bool
  decided : Bool
  wait : Nat
deriving DecidableEq, Repr

/-- A restore over a port (R341 to R344): its command, source, port, donor, whether the HELLO has matched, the step and record
of the donor, the fragments received, the statistics that wait and the superseded sequence numbers. -/
structure RestoreRun where
  sq : Nat
  cid : Nat
  source : Nat
  port : Nat
  donor : Nat
  greeted : Bool
  step : Option Nat
  record : Bytes
  pages : List (Nat × Nat)
  setDigest : Nat
  stats : List (Nat × List StatEntry)
  superseded : Nat × Nat
deriving DecidableEq, Repr

/-- The link engine (R301 to R307): the bucket in reduction, the running sums and gathered codes by wire location, the
locations received and the transfers sent on each lane of the schedule, the statistics entries, held frames, and whether a
decided member's result is awaited (R315). -/
structure Link where
  bucket : Nat
  active : Bool
  awaiting : Bool
  sums : List (Option Int)
  codes : List (Option (Option Int))
  stats : List StatEntry
  ownEps : List (Nat × TensorStat)
  ownDigests : List (Nat × Nat)
  received : List Nat
  sent : List Nat
  held : List (Nat × BucketFrame)
  digests : List (Nat × Nat)
  result : Option (List StatEntry)
deriving DecidableEq, Repr

structure Harbour where
  joined : Bool
  id : Nat
  topo : Nat
  sizes : List Nat
  coords : List Nat
  rank : Nat
  partner : Nat
  partnerPort : Option Nat
  override : Bool
  joining : Option Joining
  present : List Nat
  ejected : List Nat
  census : Nat
  inCensus : Bool
  censusNo : Nat
  censusFrom : Nat
  view : List CensusEntry
  views : List (Nat × List CensusEntry)
  parts : List CensusPart
  causes : List EjectRec
  cuts : List (Nat × Nat)
  decided : Bool
  lastMismatch : Option Nat
  neighbours : List Neighbour
  leaving : Option SnapReq
  admitting : Bool
  leavers : List Nat
  joiners : List Nat
  shadow : Option RestoreRun
  restore : Option RestoreRun
  donating : Option Nat
  forwarding : Option Nat
  idleFrom : Option Nat
  halted : Bool
  link : Link
deriving DecidableEq, Repr

/-- A flit before it takes its sequence number (Table 10.1): its type, whether it is the last of its message, and its payload;
`prio` is the place of its traffic on the port, 0 first (R335). -/
structure FlitBody where
  kind : Nat
  last : Bool
  prio : Nat
  payload : Bytes
deriving DecidableEq, Repr

/-- A flit that waits for acknowledgement, and how often it has been resent (R291). -/
structure SentFlit where
  seq : Nat
  resends : Nat
  body : FlitBody
deriving DecidableEq, Repr

/-- A Vorbiest port (Tables 13.16, 10.1): its state and role, the neighbour's HELLO, optical readings, the send side (next sequence
number, flits that wait for the window, unacknowledged flits, credits), the receive side (next number expected, whether a NAK for
it is out), the times of the NAKs of the last millisecond, and one more than the step of its last loss. -/
structure Port where
  state : Nat
  role : Nat
  lanes : Nat
  nbrRank : Nat
  nbrPort : Nat
  rx : Nat
  tx : Nat
  superframes : Nat
  txSeq : Nat
  backlog : List FlitBody
  unacked : List SentFlit
  credits : Nat
  rxSeq : Nat
  awaiting : Bool
  naks : List Nat
  downs : Nat
  loss : Option PortLoss
  failed : Bool
deriving DecidableEq, Repr

/-! ## Tests -/

structure TestReq where
  sq : Nat
  cid : Nat
  scope : Nat
  test : Nat
  target : Nat
  deferred : Bool
  running : Bool
deriving DecidableEq, Repr

/-- The tests: what TS_STATUS to TS_EXPECTED show, the stalls that failed, the tests accepted and not finished, in order, and the
domains that the running test has switched on (R444, R462). -/
structure Test where
  active : Bool
  scope : Nat
  test : Nat
  target : Nat
  result : Nat
  signature : Nat
  expected : Nat
  failedStalls : List Nat
  queue : List TestReq
  lit : List Nat
deriving DecidableEq, Repr

/-! ## The state -/

/-- The whole block. `pending` is the queue of waiting commands; `out` and `freeCtr` are the model's own (logs 7, 8). -/
structure State where
  pending : List Instr
  out : List Output
  freeCtr : Nat
  usec : Nat
  power : Power
  boot : Boot
  pcie : Pcie
  sqs : List Sq
  cqs : List Cq
  sqTurn : Nat
  cmds : List Cmd
  log : EventLog
  tm : Telemetry
  job : Job
  mem : Mem
  run : Run
  stalls : List Stall
  quays : List Quay
  snap : Snap
  journal : Journal
  harbour : Harbour
  ports : List Port
  test : Test
deriving DecidableEq, Repr

/-! ## Reset -/

def Power.reset : Power :=
  { present := true, inputMv := 50000, inputMa := 0, powerMw := 0, pwrEn := true, resetLow := true, pwrGood := false,
    tripAlert := false, undervolt := false, feedId := 0xFF,
    domains := 0x7C03FFFFFC000000000000000#99, cap := 1000, capPending := none,
    temps := List.replicate 35 0x8000 ++ [0, 0, 0, 0x8000, 0x8000], thermal := [], cool := [], halved := [] }

def Boot.reset : Boot :=
  { mode := .booting, prev := .standby, patch := 0, patchHeader := none, patchRam := [], verified := false, storedPatch := none, svn := 0,
    slots := List.replicate 4 [], keys := [], lastOwner := none, resetDue := false }

/-- No base address is assigned, and the sizes are the least that the PCI Express specification starts with (PRESUMED, log 91). -/
def PciConfig.reset : PciConfig := ⟨0, 0, 128, 512⟩

def Pcie.reset : Pcie :=
  { busMaster := false, perst := false, rate := 320, lanes := 4, config := PciConfig.reset, bwBase := 0, bwWritten := none, bwRefused := 0,
    msix := List.replicate 64 ⟨0, 0, true⟩, msixPend := [], i3cPtr := 0 }

def Sq.reset : Sq := ⟨0, false, 0, 0, 0, 0, false, []⟩

def Cq.reset : Cq := ⟨0, false, false, 0, 0, 0, 0, 0, true, []⟩

def EventLog.reset : EventLog := ⟨[], 0, 0, false, 0, 0x1FF, false, [], []⟩

def Telemetry.reset : Telemetry := ⟨[], [], false, [], 0⟩

def Scale.reset : Scale := ⟨16, 0, 0, 0, [], [], []⟩

def Job.reset : Job := ⟨none, 0, none, 0, none, 0, 0, Scale.reset, false, [], 0⟩

def Mem.reset : Mem := ⟨[], [], []⟩

def Run.reset : Run :=
  { kind := .none, cur := none, probe := false, groups := [], tides := [], regions := [], admits := [], gated := [],
    rowParts := [], latent := [], packed := [], stats := [], reduced := [], stepCliff := false, stepNar := false, waitUs := 0, once := [], slack := .none,
    outcome := .applied, hostReqs := [], nextTag := 0, serves := [], decodes := 0, closing := false }

def Plane.reset : Plane := ⟨false, 0xFFFFFFFF, 0, [], []⟩

def Stall.reset : Stall :=
  { state := 0, dvfs := 0, target := none, pipeline := 0, lastRec := none, lastInst := 0, temp := 0x8000, lastStep := none,
    planes := [Plane.reset, Plane.reset], active := 0, passesLeft := 0, store := [], lanes := [], tiles := [], parts := [] }

def Quay.reset : Quay := ⟨0, [], false⟩

def Snap.reset : Snap :=
  { draining := false, number := 0, step := 0, dest := .partner, total := 0, drained := 0, setDigest := 0, count := 0,
    imageOff := 0, record := [], pend := [], copies := [], badCopies := [], requests := [], serving := [], recordDue := false,
    doneNumber := 0, doneStep := 0, abandoned := false, noDest := false, hostBase := 0, hostLen := 0,
    intervalPending := false, shown := (0, 0, 0), store := [] }

def Journal.reset : Journal := ⟨[], [], 0, none, true, false, false⟩

def Link.reset : Link := ⟨0, false, false, [], [], [], [], [], [], [], [], [], none⟩

def Harbour.reset : Harbour :=
  { joined := false, id := 0, topo := 0, sizes := [0, 0, 0], coords := [0, 0, 0], rank := 0xFFFF, partner := 0xFFFF,
    partnerPort := none, override := false, joining := none, present := [], ejected := [],
    census := 0, inCensus := false, censusNo := 0, censusFrom := 0, view := [], views := [], parts := [], causes := [], cuts := [],
    decided := false, lastMismatch := none, neighbours := [], leaving := none, admitting := false, leavers := [], joiners := [], shadow := none,
    restore := none, donating := none, forwarding := none, idleFrom := none, halted := false, link := Link.reset }

def Port.reset : Port :=
  { state := 0, role := 0, lanes := 0, nbrRank := 0xFFFF, nbrPort := 0xFF, rx := 0, tx := 0, superframes := 0, txSeq := 0, backlog := [],
    unacked := [], credits := 512, rxSeq := 0, awaiting := false, naks := [], downs := 0, loss := none,
    failed := false }

def Test.reset : Test := ⟨false, 0, 0, 0, 0, 0, 0, [], [], []⟩

/-- The block right after reset (log 3): BOOTING with RESET_N held low, every register at its Reset column. -/
def State.reset : State :=
  { pending := [], out := [], freeCtr := 0, usec := 0, power := Power.reset, boot := Boot.reset, pcie := Pcie.reset,
    sqs := List.replicate 16 Sq.reset, cqs := List.replicate 16 Cq.reset, sqTurn := 0, cmds := [], log := EventLog.reset,
    tm := Telemetry.reset, job := Job.reset, mem := Mem.reset, run := Run.reset,
    stalls := List.replicate 256 Stall.reset, quays := List.replicate 24 Quay.reset, snap := Snap.reset,
    journal := Journal.reset, harbour := Harbour.reset, ports := List.replicate 8 Port.reset, test := Test.reset }

/-! ## Updates of one part (their laws are in Laws/State.lean) -/

def State.emit (s : State) (o : Output) : State := { s with out := s.out ++ [o] }
def State.modPower (f : Power → Power) (s : State) : State := { s with power := f s.power }
def State.modBoot (f : Boot → Boot) (s : State) : State := { s with boot := f s.boot }
def State.modPcie (f : Pcie → Pcie) (s : State) : State := { s with pcie := f s.pcie }
def State.modSqs (f : List Sq → List Sq) (s : State) : State := { s with sqs := f s.sqs }
def State.modCqs (f : List Cq → List Cq) (s : State) : State := { s with cqs := f s.cqs }
def State.modCmds (f : List Cmd → List Cmd) (s : State) : State := { s with cmds := f s.cmds }
def State.modLog (f : EventLog → EventLog) (s : State) : State := { s with log := f s.log }
def State.modTm (f : Telemetry → Telemetry) (s : State) : State := { s with tm := f s.tm }
def State.modJob (f : Job → Job) (s : State) : State := { s with job := f s.job }
def State.modMem (f : Mem → Mem) (s : State) : State := { s with mem := f s.mem }
def State.modRun (f : Run → Run) (s : State) : State := { s with run := f s.run }
def State.modStalls (f : List Stall → List Stall) (s : State) : State := { s with stalls := f s.stalls }
def State.modQuays (f : List Quay → List Quay) (s : State) : State := { s with quays := f s.quays }
def State.modSnap (f : Snap → Snap) (s : State) : State := { s with snap := f s.snap }
def State.modJournal (f : Journal → Journal) (s : State) : State := { s with journal := f s.journal }
def State.modHarbour (f : Harbour → Harbour) (s : State) : State := { s with harbour := f s.harbour }
def State.modPorts (f : List Port → List Port) (s : State) : State := { s with ports := f s.ports }
def State.modTest (f : Test → Test) (s : State) : State := { s with test := f s.test }

end Sys2Proof.Machine
end

