-- ==== Sys2Proof/Machine/Shape.lean ====
section
/-! DEFINITION. What a tide record of a table says about its operands, its tile and the bytes it moves (spec/06, R160,
R168; spec/08, R234 to R239, R249, R250). -/

namespace Sys2Proof.Machine

/-! ## Lane chains of a record -/

/-- The chain that a chain number names; 0 is none (Table 8.12). -/
def chainOf (n : Nat) : List LaneStep := if n = 0 then [] else Config.laneChain n

/-- Latency and issue interval of a lane function on a row of n; the third component marks "per row" (Table 5.2). Table 5.2 has
no row for a sum tree alone: its figure is that of the tree within an RMS normalisation (DESIGN CHOICE, log 10). -/
def laneCost (n : Nat) : LaneFn → Nat × Nat × Bool
  | .add | .sub => (5, 1, false)
  | .exp2 | .exp | .log2 | .ln => (6, 2, false)
  | .relu => (1, 1, false)
  | .sigmoid => (12, 2, false)
  | .silu => (13, 2, false)
  | .gelu => (20, 3, false)
  | .softmax => (ceilDiv (2 * n) 128 + 11 * ceilLog2 n + 14, 0, true)
  | .logSoftmax => (ceilDiv (2 * n) 128 + 11 * ceilLog2 n + 20, 0, true)
  | .rmsNorm _ => (ceilDiv n 128 + 5 * ceilLog2 n + 12, 0, true)
  | .layerNorm _ => (ceilDiv (2 * n) 128 + 10 * ceilLog2 n + 18, 0, true)
  | .sum => (ceilDiv n 128 + 5 * ceilLog2 n, 0, true)
  | _ => (2, 1, false)

/-- q of a chain (R249). -/
def chainIssue (n : Nat) (c : List LaneStep) : Nat := c.foldl (fun a s => a + (laneCost n s.fn).2.1) 0

/-- Λ of a chain over `rows` rows: a per-row function counts its latency for every row (R249). -/
def chainLatency (rows n : Nat) (c : List LaneStep) : Nat :=
  c.foldl (fun a s => let k := laneCost n s.fn; a + (if k.2.2 then rows * k.1 else k.1)) 0

/-! ## Operands of a PRODUCT (log 19) -/

/-- How the stationary operand meets the reduction: a weight in forward or transposed order, the one-hot operand, a tensor
whose blocks run along its rows (stash, value cache) or along its columns (any other). -/
inductive StatView where
  | forward | transposed | oneHot | alongRows | alongCols
deriving DecidableEq, Repr

def Table.kindOf (t : Table) (n : Nat) : Nat := match t.tensor? n with | none => 0 | some r => tKind r

def Table.statView (t : Table) (r : Bytes) : StatView :=
  if pOneHot r then .oneHot
  else
    let k := t.kindOf (pStat r)
    if k = kWeight then (if t.kindOf (pStream r) = kGradient then .transposed else .forward)
    else if k = kStash ∨ k = kValue then .alongRows
    else .alongCols

/-- A weight-gradient product: the streaming rows are output features of a gradient, along tokens (Table 6.1, R168). -/
def Table.byFeature (t : Table) (r : Bytes) : Bool :=
  (t.statView r == .oneHot || t.statView r == .alongRows) && t.kindOf (pStream r) == kGradient

def rowsOf : Option Bytes → Nat
  | none => 0 | some x => tRows x
def colsOf : Option Bytes → Nat
  | none => 0 | some x => tCols x

/-- The region record that a TO_REGION close names. -/
def Table.regionOf (t : Table) (r : Bytes) : Option Bytes :=
  (t.tides[pRegion r]?).bind fun g => if rKind g == .regionOpen then some g else none

/-- Elements of the whole reduction that a PRODUCT takes a part of. -/
def Table.reduction (t : Table) (r : Bytes) : Nat :=
  let x := t.tensor? (pStream r)
  let w := t.tensor? (pStat r)
  match t.statView r with
  | .forward | .alongRows => rowsOf w
  | .transposed | .alongCols => colsOf w
  | .oneHot => rowsOf x

/-- The number of output columns the stationary operand offers. -/
def Table.statCols (t : Table) (r : Bytes) : Nat :=
  let w := t.tensor? (pStat r)
  match t.statView r with
  | .forward | .alongRows => colsOf w
  | .transposed | .alongCols => rowsOf w
  | .oneHot => if pToRegion r then (match t.regionOf r with | none => 0 | some g => gPitch g)
      else colsOf (t.tensor? (pOut r))

/-- The number of output rows the streaming operand offers. -/
def Table.streamRows (t : Table) (r : Bytes) : Nat :=
  let x := t.tensor? (pStream r)
  if t.byFeature r then colsOf x else rowsOf x

/-- The stationary format; a one-hot operand is L2 (R168). -/
def Table.statFmt (t : Table) (r : Bytes) : Fmt := if pOneHot r then .l2 else t.countFmt (pStat r)

/-- The mode of a PRODUCT (Table 3.2). -/
def Table.modeOf (t : Table) (r : Bytes) : Option Mode := Machine.modeOf (t.statFmt r) (t.countFmt (pStream r))

def Table.sparseStat (t : Table) (r : Bytes) : Bool :=
  !pOneHot r && (match t.tensor? (pStat r) with | none => false | some w => tSparse w)

/-- Blocks per slice (R235). -/
def blocksPerSlice (m : Mode) (sparse : Bool) : Nat := m.blocks * (if sparse then 2 else 1)

/-- Rows and width of an output column tile. -/
def Table.outWidth (t : Table) (r : Bytes) : Nat :=
  if pToRegion r then t.statCols r else colsOf (t.tensor? (pOut r))

/-! ## Tiles -/

/-- The flag TO_REGION of a CLOSE. -/
def cToRegion (r : Bytes) : Bool := bit (rFlags r) 3

/-- The rows of the tile that a CLOSE closes: those of its opener, or every row of a gathering tile. -/
def Table.tileRows (t : Table) (ref : Nat) : Nat :=
  let o := t.tide ref
  match rKind o with
  | .product => pRows o
  | .partialLoad => plRows o
  | .gatherOpen => 8 * tileUnits (goTile o)
  | _ => 0

/-- The columns that a PARTIAL_LOAD fills: 128, up to the end of the region's row. -/
def loadWidth (g r : Bytes) : Nat := min 128 (gPitch g - plFirst r % max 1 (gPitch g))

/-- The tile byte of a record that opens a tile. -/
def openedTile (i : Nat) (r : Bytes) : Option Nat :=
  match rKind r with
  | .product => if opensTile r then some (pTile r) else none
  | .partialLoad => if plTileRef r = i then some (plTile r) else none
  | .gatherOpen => some (goTile r)
  | _ => none

/-- The φ a record declares for its tile. -/
def tilePhi (r : Bytes) : Nat :=
  match rKind r with
  | .product => pPhi r | .partialLoad => plPhi r | .gatherOpen => goPhi r | _ => 0

/-- The record that opened the tile a record works on. -/
def tileOwner (i : Nat) (r : Bytes) : Nat :=
  match rKind r with
  | .product => if pContinue r || pGatherUse r then pTileRef r else i
  | .close => cTileRef r
  | .partialLoad => plTileRef r
  | _ => i

/-- The output columns, from `c0` on, that the tile of record `o` forms: those of its PRODUCT (its one column tile, where it is
kept open), of the region loaded, or of the widest use of a gathering tile. -/
def Table.tileWidth (t : Table) (o c0 : Nat) : Nat :=
  let r := t.tide o
  match rKind r with
  | .product => min 128 (t.statCols r - (if pKeepOpen r then pColBase r else c0))
  | .partialLoad => match t.tides[plRegion r]? with
    | none => 0
    | some g => loadWidth g r
  | .gatherOpen => (t.tides.filter fun p => rKind p == .product && pGatherUse p && pTileRef p == o).foldl
      (fun m p => max m (min 128 (t.statCols p - pColBase p))) 0
  | _ => 0

/-- The products and the loads that add into the tile of record `o`. -/
def Table.tileProducts (t : Table) (o : Nat) : List Bytes :=
  (t.tides.zipIdx.filter fun p => rKind p.1 == .product && tileOwner p.2 p.1 == o).map (·.1)

def Table.tileLoads (t : Table) (o : Nat) : List Bytes := t.tides.filter fun r => rKind r == .partialLoad && plTileRef r == o

/-- Whether a record closes the tile that record `o` opened. -/
def closesOf (o i : Nat) (r : Bytes) : Bool :=
  match rKind r with
  | .product => closesTile r && tileOwner i r == o && (pContinue r || i == o)
  | .close => cTileRef r == o
  | _ => false

/-- The first record that closes the tile of record `o`. -/
def Table.closer? (t : Table) (o : Nat) : Option Bytes := (t.tides.zipIdx.find? fun p => closesOf o p.2 p.1).map (·.1)

/-! ## Bytes (R250, Table 8.19), in units of 1/32 byte -/

def elemBytes32 : Fmt → Nat
  | .l2 => 9 | .l4 | .ledger => 17 | .l8 => 33 | .e4m3 | .e5m2 => 32 | .binary32 => 128 | _ => 64

/-- Bytes per element of the stationary operand: a sparse unit holds 16 slots and 4 mask bytes for 32 elements, with its
scale byte (R105, Table 8.19). -/
def statBytes32 (f : Fmt) (sparse : Bool) : Nat :=
  if sparse then 32 * (sparseUnitBytes f + 1) / 32 else elemBytes32 f

def bytesOf32 (n : Nat) : Nat := ceilDiv n 32

/-- Stationary slices of all column tiles, in 1/32 byte; a one-hot operand is generated in the stall and moves none. R250 does not
say how wide the slices of a last, narrow column tile count: they count 128 columns, as a plane holds them (DESIGN CHOICE, log 76). -/
def Table.statMoved (t : Table) (r : Bytes) : Nat :=
  if pOneHot r then 0
  else pBlockCount r * 32 * 128 * pColTiles r * statBytes32 (t.statFmt r) (t.sparseStat r) * pPieces r

def Table.streamMoved (t : Table) (r : Bytes) : Nat :=
  pRowTiles r * pRows r * pBlockCount r * 32 * elemBytes32 (t.countFmt (pStream r))

/-- Bytes per output element: the format of the output, 8 into an A64 region and 4 into a P32 region. -/
def Table.outElem32 (t : Table) (r : Bytes) (toRegion : Bool) (out : Nat) : Nat :=
  if toRegion then (match t.regionOf r with | some g => if gIsP32 g then 128 else 256 | none => 256)
  else elemBytes32 (t.countFmt out)

def Table.outMoved (t : Table) (r : Bytes) : Nat :=
  if closesTile r then
    pRowTiles r * pRows r * min (128 * pColTiles r) (t.outWidth r - pColBase r) * t.outElem32 r (pToRegion r) (pOut r)
  else 0

/-- Output of a CLOSE: the columns of its tile, into a region or a tensor. -/
def Table.closeMoved (t : Table) (r : Bytes) : Nat :=
  let w := if cToRegion r then t.tileWidth (cTileRef r) (cColBase r) else min 128 (colsOf (t.tensor? (pOut r)) - cColBase r)
  t.tileRows (cTileRef r) * w * t.outElem32 r (cToRegion r) (pOut r)

/-- The bytes that a LANE moves for one of its tensors. -/
def Table.laneBytes (t : Table) (r : Bytes) (n : Nat) : Nat :=
  if n = 0xFFFF then 0 else lRows r * lCols r * elemBytes32 (t.countFmt n)

/-- The tensors that a LANE reads. -/
def laneReads (r : Bytes) : List Nat := ([0, 1, 2].map (lIn r)).filter (· != 0xFFFF)

def Table.laneMoved (t : Table) (r : Bytes) : Nat :=
  sumList ((laneReads r).map (t.laneBytes r)) + t.laneBytes r (lOut r)

def Table.loadMoved (t : Table) (r : Bytes) : Nat :=
  match t.tides[plRegion r]? with
  | some g => plRows r * loadWidth g r * (if gIsP32 g then 128 else 256)
  | none => 0

/-- The working set of a PRODUCT: slices, two row tiles of streaming operand and two output tiles (R250), in bytes. -/
def Table.workingSet (t : Table) (r : Bytes) : Nat :=
  let stat := pBlockCount r * 32 * 128 * pColTiles r * statBytes32 (t.statFmt r) (t.sparseStat r) * pPieces r
  let stream := pRows r * pBlockCount r * 32 * elemBytes32 (t.countFmt (pStream r))
  let out := if closesTile r then pRows r * 128 * t.outElem32 r (pToRegion r) (pOut r) else 0
  bytesOf32 (stat + 2 * stream + 2 * out)

/-! ## Locations of a region (R236, R277) -/

/-- The weight whose gradient accumulator a region zeroes (R277). -/
def Table.regionWeight (t : Table) (g : Bytes) : Option Bytes :=
  if gBucket g = 0xFFFF then none else t.trained.find? fun w => tAcc w == gBase g

/-- The parameter (output, input) of a location of a bucket's region. -/
def regionParam (w : Bytes) (loc : Nat) : Nat × Nat := (loc / max 1 (tRows w), loc % max 1 (tRows w))

/-- A location that the region carries: a bucket has none for a masked or frozen parameter (R169, R276). -/
def Table.carries (t : Table) (g : Bytes) (loc : Nat) : Bool :=
  loc < gLocs g && (match t.regionWeight g with
    | some w => let p := regionParam w loc; t.trains w p.2 p.1
    | none => true)

/-- The records that write a region. -/
def Table.writersOf (t : Table) (g : Nat) : List (Bytes × Nat) :=
  t.tides.zipIdx.filter fun p =>
    (rKind p.1 == .close || (rKind p.1 == .product && closesTile p.1)) && pToRegion p.1 && pRegion p.1 == g

/-- Row base, rows, column base and columns of the elements that a record closes into its region. -/
def Table.writes (t : Table) (w : Bytes × Nat) : Nat × Nat × Nat × Nat :=
  let r := w.1
  match rKind r with
  | .product =>
    let o := tileOwner w.2 r
    (pRowBase r, pRows r * pRowTiles r, pColBase r,
      if 1 < pColTiles r then min (128 * pColTiles r) (t.statCols r - pColBase r) else t.tileWidth o (pColBase r))
  | .close => (cRowBase r, t.tileRows (cTileRef r), cColBase r, t.tileWidth (cTileRef r) (cColBase r))
  | _ => (0, 0, 0, 0)

/-- The runs of locations (first, end) that a record writes of a region of a row pitch: one for each row (R236). -/
def Table.spans (t : Table) (pitch : Nat) (w : Bytes × Nat) : List (Nat × Nat) :=
  let a := t.writes w
  (List.range a.2.1).map fun i => ((a.1 + i) * pitch + a.2.2.1, (a.1 + i) * pitch + a.2.2.1 + a.2.2.2)

/-- How often a record writes a location of a region. -/
def Table.covers (t : Table) (pitch : Nat) (w : Bytes × Nat) (loc : Nat) : Nat :=
  (t.spans pitch w).countP fun s => s.1 ≤ loc && loc < s.2

/-! ## Routes that a tide names (R228, R229) -/

/-- One use of a route by a tide: route index, 1/32 bytes, the classes of Table 8.6 that it may have, whether data flows to the
stall, and the piles that hold the data (none where the tide names no route for that access alone). -/
structure RouteUse where
  route : Nat
  bytes32 : Nat
  cls : List Nat
  toStall : Bool
  piles : List Nat
deriving DecidableEq, Repr

/-- The stash entry of which a tensor is the source (R271). -/
def Table.stashEntry (t : Table) (n : Nat) : Option Bytes := (t.recs secShoal 2).find? fun r => fld r 2 2 == n

/-- The twelve piles of a hall. -/
def hallPiles (h : Nat) : List Nat := (List.range 12).map (12 * h + ·)

/-- The quays that hold the accumulator of a weight. -/
def accQuays (w : Bytes) : List Nat := (List.range (min 12 (tTiles w))).map (12 * hallOf (tAcc w) + ·)

/-- The piles that hold a tensor, as the stall of a tide reaches it: those of its arrays, the halls of the shoal regions for the stash
and its statistics (R272), and the stall's own hall for a cache (R183). -/
def Table.pilesOf (t : Table) (r : Bytes) (n : Nat) : List Nat :=
  match t.tensor? n with
  | none => []
  | some x =>
    let k := tKind x
    if k = kKey ∨ k = kValue then hallPiles (rStall r / 128)
    else if k = kStash ∨ k = kStats then ((t.recs secShoal 1).flatMap fun g => hallPiles (fld g 1 1)).eraseDups
    else ((t.arrays x).flatMap fun a => quaysOf t.pinned a.1 a.2).eraseDups

/-- The quays that a region spans: those of its bucket's accumulator, or of its own range. -/
def Table.regionPiles (t : Table) (g : Bytes) : List Nat :=
  match t.regionWeight g with
  | some w => accQuays w
  | none => quaysOf t.pinned (gBase g) (regionBytes g)

/-- What a store of a tensor also sends to its stash, in 1/32 byte: its values in L4, and the statistics of its rows (R157, R271). -/
def Table.stashBytes32 (t : Table) (rows elems : Nat) (e : Bytes) : Nat :=
  elems * elemBytes32 .l4 + (if fld e 6 2 = 0xFFFF then 0 else 32 * rows * t.statWidth (fld e 6 2))

/-- The use of an output route: an atomic add into a region, or a store. What a tide stores of a tensor that SHOAL_MAP lists goes on
to its stash, with the statistics of its rows, so its route may be one for stash writes, and it carries the bytes of all (R157, R197,
R211, R228; DEDUCED, log 65). -/
def Table.outUse (t : Table) (r : Bytes) (route bytes rows elems : Nat) (toRegion : Bool) (out : Nat) : RouteUse :=
  if toRegion then ⟨route, bytes, [2], false, match t.regionOf r with | some g => t.regionPiles g | none => []⟩
  else match t.stashEntry out with
    | some e => ⟨route, bytes + t.stashBytes32 rows elems e, [1, 3], false, t.pilesOf r out⟩
    | none => ⟨route, bytes, [1], false, t.pilesOf r out⟩

/-- The further operands that the chain of closing record `i` reads beside its tile (R151, R163; log 57). -/
def Table.closeOperands (t : Table) (i : Nat) (r : Bytes) : List Nat :=
  let closes := match rKind r with
    | .product => closesTile r && !pToRegion r
    | .close => !cToRegion r
    | _ => false
  if closes && pChain r != 0 then
    ([1, 2].map (Config.closeInput t.digest i)).filter fun n => (t.tensor? n).isSome
  else []

/-- The bytes of the chain's further operands for some elements of an output: no record has a route field for them, and they count on
the route that the record names for its stream, or for its output (DEDUCED, log 65). -/
def Table.operandBytes32 (t : Table) (i : Nat) (r : Bytes) (elems : Nat) : Nat :=
  sumList ((t.closeOperands i r).map fun n => elems * elemBytes32 (t.countFmt n))

/-- Every use of a route by record `i` (R228). -/
def Table.routeUses (t : Table) (i : Nat) (r : Bytes) : List RouteUse :=
  let load := fun (route bytes n : Nat) => (⟨route, bytes, [0], true, t.pilesOf r n⟩ : RouteUse)
  match rKind r with
  | .product =>
    let rows := pRowTiles r * pRows r
    let elems := rows * min (128 * pColTiles r) (t.outWidth r - pColBase r)
    (if pOneHot r then [] else [load (pStatRoute r) (t.statMoved r) (pStat r)])
      ++ [load (pStreamRoute r) (t.streamMoved r + t.operandBytes32 i r elems) (pStream r)]
      ++ (if closesTile r then [t.outUse r (pOutRoute r) (t.outMoved r) rows elems (pToRegion r) (pOut r)] else [])
  | .close =>
    let rows := t.tileRows (cTileRef r)
    let elems := rows * min 128 (colsOf (t.tensor? (pOut r)) - cColBase r)
    [t.outUse r (cRoute r) (t.closeMoved r + t.operandBytes32 i r elems) rows elems (cToRegion r) (pOut r)]
  | .lane =>
    (laneReads r).map (fun n => load (fld r 0x2C 2) (t.laneBytes r n) n)
      ++ [t.outUse r (fld r 0x2E 2) (t.laneBytes r (lOut r)) (lRows r) (lRows r * lCols r) false (lOut r)]
  | .partialLoad =>
    [⟨fld r 0x20 2, t.loadMoved r, [0], true, match t.tides[plRegion r]? with | some g => t.regionPiles g | none => []⟩]
  | .route =>
    let bytes := fun n => roTokens r * colsOf (t.tensor? n) * elemBytes32 (t.countFmt n)
    let stored := rowsOf (t.tensor? (roGathered r)) * colsOf (t.tensor? (roGathered r)) * elemBytes32 (t.countFmt (roGathered r))
    [load (fld r 0x1C 2) (bytes (roInput r)) (roInput r), load (fld r 0x1C 2) (bytes (roLogits r)) (roLogits r),
      ⟨fld r 0x1C 2, stored, [0], true, []⟩]
  | _ => []

/-- The tensors that a tide record names (Tables 8.12 and 8.14). -/
def tensorsNamed (r : Bytes) : List Nat :=
  let some' := fun n => if n = 0xFFFF then [] else [n]
  match rKind r with
  | .product => (if pOneHot r then [] else [pStat r]) ++ [pStream r] ++ (if closesTile r && !pToRegion r then [pOut r] else [])
  | .close => if cToRegion r then [] else [pOut r]
  | .lane => some' (lIn r 0) ++ some' (lIn r 1) ++ some' (lIn r 2) ++ [lOut r]
  | .regionOpen => if gAKind r = 1 then [gGamma r] else []
  | .route => [roLogits r, roInput r, roGathered r]
  | .hostLayer => [hlIn r, hlOut r]
  | _ => []

/-! ## Elements that a product forms (R169) -/

/-- The region location that a closing record adds element (i, j) of its tile to, with its region (R236). -/
def Table.closesAt (t : Table) (c : Bytes) (i j : Nat) : Option (Bytes × Nat) :=
  if !pToRegion c then none
  else (t.regionOf c).map fun g =>
    let base := if rKind c == .close then (cRowBase c, cColBase c) else (pRowBase c, pColBase c)
    (g, (base.1 + i) * gPitch g + base.2 + j)

/-- Whether a location of a region carries a parameter that trains (R169): that of its bucket, or, for the A64 region of a tied or
split gradient, that of the location to which the tile that loads it closes. -/
def Table.feedsLoc (t : Table) (g : Bytes) (loc : Nat) : Bool :=
  if gBucket g != 0xFFFF then t.carries g loc
  else t.tides.zipIdx.all fun p =>
    let l := p.1
    let i := (loc - plFirst l) / max 1 (gPitch g)
    let j := (loc - plFirst l) % max 1 (gPitch g)
    if rKind l != .partialLoad || t.tide (plRegion l) != g || loc < plFirst l || plRows l ≤ i || 128 ≤ j then true
    else match (t.closer? (plTileRef l)).bind fun c => t.closesAt c i j with
      | none => true
      | some q => gBucket q.1 == 0xFFFF || t.carries q.1 q.2

/-- Whether the sum of element (row, col) of the output of PRODUCT `r`, record `i`, trains where it reaches a bucket. -/
def Table.feeds (t : Table) (i : Nat) (r : Bytes) (row col : Nat) : Bool :=
  match t.closer? (tileOwner i r) with
  | none => true
  | some c =>
    match t.closesAt c (row - pRowBase r) (col - pColBase r) with
    | none => true
    | some q => t.feedsLoc q.1 q.2

/-- Whether a streaming row of a PRODUCT enters a pass: not the row of a weight gradient whose output feature is masked in every
column of the pass from column `c0` on (R169). -/
def Table.rowStreams (t : Table) (i : Nat) (r : Bytes) (row c0 : Nat) : Bool :=
  if (t.sec secMasks).isEmpty || !t.byFeature r then true
  else (List.range (min 128 (t.statCols r - c0))).any fun j => t.feeds i r row (c0 + j)

/-- The streaming rows of a tile of a PRODUCT that enter a pass. -/
def Table.passRows (t : Table) (i : Nat) (r : Bytes) (rowTile colTile : Nat) : Nat :=
  (List.range (pRows r)).countP fun k => t.rowStreams i r (pRowBase r + rowTile * pRows r + k) (pColBase r + 128 * colTile)

end Sys2Proof.Machine
end

