-- ==== Sys2Proof/Machine/Timing.lean ====
section
/-! DEFINITION. The timing model of a table: counted and overtake cycles, the modelled schedule, the floors, the terms of
slack water, the breakwater minimum and the harbour terms (spec/08, R248 to R254, R470; spec/10, R311, R318 to R320;
spec/11, R329, R338). -/

namespace Sys2Proof.Machine

/-! ## Counted cycles (R249, R250) -/

/-- Dd of a byte count in 1/32 byte. -/
def dataCycles (m f bytes32 : Nat) : Nat := ceilDiv (bytes32 * (1024 + m) * f) (32 * 1024 * 76800)

/-- The cycles of every pass of a PRODUCT: each pass takes the larger of its streaming rows' cycles and its plane's load, and a
masked streaming row saves its cycles (R80, R129, R169, R249). -/
def Table.passesCycles (t : Table) (i : Nat) (r : Bytes) (m : Mode) (passes : Nat) : Nat :=
  let one := fun rows => passes * passCycles m (t.sparseStat r) (tileResident (pTile r)) (pPieces r) rows
  if (t.sec secMasks).isEmpty then pRowTiles r * pColTiles r * one (pRows r)
  else sumList ((List.range (pRowTiles r)).map fun a => sumList ((List.range (pColTiles r)).map fun b => one (t.passRows i r a b)))

/-- D of a PRODUCT, record `i` (Table 8.18); a per-row function of its chain runs over a row of the output. -/
def Table.productCycles (t : Table) (i : Nat) (r : Bytes) : Nat :=
  let m := (t.modeOf r).getD .l4
  let sp := t.sparseStat r
  let rows := pRows r
  let passes := ceilDiv (pBlockCount r) (blocksPerSlice m sp) * pPieces r
  let n := colsOf (t.tensor? (pOut r))
  let ch := if pToRegion r then [] else chainOf (pChain r)
  let cl := if closesTile r then rows * max 1 (chainIssue n ch) + 7 + chainLatency rows n ch else 0
  let ab := pRowTiles r * pColTiles r
  let a := m.load sp (pPieces r) + t.passesCycles i r m passes + m.latency
  max (max a (ab * cl) + cl) (dataCycles t.memAllowance t.clock (t.statMoved r + t.streamMoved r + t.outMoved r))

def Table.closeCycles (t : Table) (r : Bytes) : Nat :=
  let rows := t.tileRows (cTileRef r)
  let n := colsOf (t.tensor? (pOut r))
  let ch := if cToRegion r then [] else chainOf (pChain r)
  max (rows * max 1 (chainIssue n ch) + 7 + chainLatency rows n ch) (dataCycles t.memAllowance t.clock (t.closeMoved r))

def Table.laneCycles (t : Table) (r : Bytes) : Nat :=
  let ch := chainOf (lChain r)
  max (lRows r * chainIssue (lCols r) ch + chainLatency (lRows r) (lCols r) ch)
    (dataCycles t.memAllowance t.clock (t.laneMoved r))

/-- The number of quays that a region spans. -/
def Table.regionQuays (t : Table) (g : Bytes) : Nat := (t.regionPiles g).length

def Table.regionCycles (t : Table) (g : Bytes) : Nat :=
  ceilDiv (gLocs g * (if gIsP32 g then 4 else 8) * t.clock) (512 * max 1 (t.regionQuays g) * 1000)

/-- D of record `i` (Table 8.18). The tokens of a ROUTE count in whole 128s, rounded up: the table gives no rounding (DESIGN CHOICE,
log 77). -/
def Table.counted (t : Table) (i : Nat) (r : Bytes) : Nat :=
  match rKind r with
  | .product => t.productCycles i r
  | .close => t.closeCycles r
  | .lane => t.laneCycles r
  | .partialLoad => max (plRows r) (dataCycles t.memAllowance t.clock (t.loadMoved r))
  | .gatherOpen => 8 * tileUnits (goTile r)
  | .route => match t.router? (roRouter r) with
    | some x => ceilDiv (roTokens r) 128 * (fld x 2 2 + 4 * fld x 4 1 + 12)
    | none => 0
  | .regionOpen => t.regionCycles r
  | .hostLayer => match t.hostLayer? (hlRec r) with
    | some x => fld x (if hlDir r = 0 then 4 else 8) 4 * t.clock
    | none => 0
  | .barrier => 0

/-! ## Instances and dependencies (R231, R232) -/

/-- Records of a range, in ascending index. -/
def Table.inRange (t : Table) (k : Nat) : List Nat := (List.range t.tides.length).filter fun i => t.rangeOf i == k

/-- The instances of a training step with `g` sample groups, in schedule order (Table 8.9). -/
def Table.stepInstances (t : Table) (g : Nat) : List (Nat × Nat) :=
  (t.inRange 0).map (·, 0) ++ ((List.range g).flatMap fun k => (t.inRange 1).map (·, k)) ++ (t.inRange 2).map (·, 0)

/-- The instances that instance `inst` of record `i` waits for, with `g` instances of range 1 (R232). -/
def Table.depInstances (t : Table) (g i inst : Nat) : List (Nat × Nat) :=
  (t.depsOf (t.tide i)).flatMap fun j =>
    if t.rangeOf j = 0 then [(j, 0)]
    else if t.rangeOf j = t.rangeOf i then [(j, inst)]
    else (List.range g).map fun k => (j, k)

/-! ## Overtake cycles (R251) -/

/-- The stalls that the dependencies of a record run on, BARRIERs looked through; `fuel` bounds the chain. -/
def Table.depStalls (t : Table) : Nat → Nat → List Nat
  | 0, _ => []
  | fuel + 1, i => (t.depsOf (t.tide i)).flatMap fun j =>
      if rKind (t.tide j) == .barrier then t.depStalls fuel j else [rStall (t.tide j)]

/-- Whether a tide waits for a tide of another stall, of the quays or of the host. -/
def Table.waitsElsewhere (t : Table) (i : Nat) : Bool := (t.depStalls (i + 1) i).any (· != rStall (t.tide i))

/-- The largest D among the first 15 records of a list. -/
def largest15 (ds : Nat → Nat) (l : List Nat) : Nat := (l.take 15).foldl (fun m j => max m (ds j)) 0

/-- The largest D of the 15 tides that follow each place of record `i` in its stall's order. -/
def overtakeIn (ds : Nat → Nat) (i : Nat) : List Nat → Nat
  | [] => 0
  | j :: rest => max (if j = i then largest15 ds rest else 0) (overtakeIn ds i rest)

/-- The instances over which overtake is taken: range 1 at the maximum count of Table 8.16, between range 0 and range 2 (for a
serving table, whose later instances the harbourmaster starts, DEDUCED: log 66). -/
def Table.maxInstances (t : Table) : List (Nat × Nat) := t.stepInstances t.maxInst

def Table.overtake (t : Table) (ds : Nat → Nat) (order : List (Nat × Nat)) (i : Nat) : Nat :=
  let s := rStall (t.tide i)
  if s = 0xFFFF || !t.waitsElsewhere i then 0
  else overtakeIn ds i ((order.map (·.1)).filter fun j => rStall (t.tide j) == s)

/-- D and O of every record (Table 8.17). -/
def Table.countedAll (t : Table) : List (Nat × Nat) :=
  let ds := t.tides.zipIdx.map fun p => t.counted p.2 p.1
  let order := t.maxInstances
  (List.range t.tides.length).map fun i => (ds.getD i 0, t.overtake (fun j => ds.getD j 0) order i)

/-! ## The modelled schedule (R252) -/

/-- The state of the schedule: the cycle at which each stall falls free, and each tide finishes. -/
structure Sched where
  free : List (Nat × Nat)
  fin : List ((Nat × Nat) × Nat)
deriving DecidableEq, Repr

def lookupD (k : Nat) (l : List (Nat × Nat)) : Nat := ((l.find? fun p => p.1 == k).map (·.2)).getD 0

def Table.scheduleStep (t : Table) (g : Nat) (c : List (Nat × Nat)) (x : Sched) (u : Nat × Nat) : Sched :=
  let ready := (t.depInstances g u.1 u.2).foldl
    (fun m d => max m (((x.fin.find? fun p => p.1 == d).map (·.2)).getD 0)) 0
  let dc := c.getD u.1 (0, 0)
  let s := rStall (t.tide u.1)
  if s = 0xFFFF then { x with fin := (u, ready + dc.1) :: x.fin }
  else
    let fin := max (ready + dc.2) (lookupD s x.free) + dc.1
    { free := (s, fin) :: x.free.filter (fun p => p.1 != s), fin := (u, fin) :: x.fin }

def Table.schedule (t : Table) (g : Nat) (c : List (Nat × Nat)) (us : List (Nat × Nat)) : List ((Nat × Nat) × Nat) :=
  (us.foldl (t.scheduleStep g c) ⟨[], []⟩).fin

def lastFinish (fin : List ((Nat × Nat) × Nat)) : Nat := fin.foldl (fun m p => max m p.2) 0

/-! ## Floors (R253) -/

/-- The hall of an endpoint, for a stall, a quay or hall memory (Table 8.7). -/
def endpointHall (e : Nat) : Option Nat :=
  match e / 4096 with
  | 0 => some (e % 4096 / 128)
  | 1 => some (e % 4096 / 12)
  | 2 => some (e % 4096)
  | _ => none

/-- Whether an endpoint is a quay or hall memory of a hall. -/
def endpointQuays (h e : Nat) : Bool := (e / 4096 == 1 || e / 4096 == 2) && endpointHall e == some h

def Table.floors (t : Table) : Nat :=
  let rs := t.sec secRoutes
  let hall := fun h => (rs.filter fun r => endpointQuays h (fld r 0 2) || endpointQuays h (fld r 2 2)).foldl
    (fun a r => a + fld r 8 8) 0
  let cross := fun h => (rs.filter fun r => bit (fld r 5 1) 0 && endpointHall (fld r 0 2) == some h).foldl
    (fun a r => a + fld r 8 8) 0
  max (max (ceilDiv (hall 0) 6144) (ceilDiv (hall 1) 6144)) (max (ceilDiv (cross 0) 4000) (ceilDiv (cross 1) 4000))

/-- The modelled time of a list of instances in ns (R252). -/
def Table.modelledNs (t : Table) (g : Nat) (c : List (Nat × Nat)) (us : List (Nat × Nat)) : Nat :=
  max (ceilDiv (lastFinish (t.schedule g c us) * 1000) t.clock) t.floors

/-! ## Slack water (R253, R329) -/

/-- Parameters of tile `n` of a weight, padding left out. -/
def tileParams (w : Bytes) (n : Nat) : Nat :=
  min 32 (tRows w - 32 * (n % tTilesI w)) * min 32 (tCols w - 32 * (n / tTilesI w))

/-- Bytes, in 1/16, that the chandler moves on pile `p` for one weight (R253): 15.0625 for each parameter and 1.0625 for
each further piece. -/
def chandlerBytes (p : Nat) (w : Bytes) : Nat :=
  if tFaultHome w != p / 12 then 0
  else ((List.range (tTiles w)).filter fun n => n % 12 == p % 12).foldl (fun a n => a + tileParams w n) 0
    * (241 + 17 * (tPieces w - 1))
where tFaultHome (w : Bytes) : Nat := hallOf (tMaster w)

def Table.chandlerNs (t : Table) : Nat :=
  let ws := t.trained.filter fun w => !t.frozen (tNum w)
  ceilDiv ((List.range 24).foldl (fun m p => max m (ws.foldl (fun a w => a + chandlerBytes p w) 0)) 0) (16 * 512)

/-- The finish of a bucket in the modelled schedule (R253). -/
def Table.bucketDone (t : Table) (fin : List ((Nat × Nat) × Nat)) (b : Bytes) : Nat :=
  let regions := t.tides.filter fun r => rKind r == .regionOpen && gBucket r == bNum b
  let ws := (t.bucketWeights b).map tNum
  let writes := fun (i : Nat) =>
    let r := t.tide i
    if regions.isEmpty then (tensorsNamed r).any fun n => ws.contains n
    else (rKind r == .product && closesTile r || rKind r == .close) && pToRegion r
      && (match t.regionOf r with | some g => gBucket g == bNum b | none => false)
  lastFinish (fin.filter fun p => writes p.1.1)

/-- The quays that hold a bucket's accumulator. -/
def Table.bucketQuays (t : Table) (b : Bytes) : Nat := ((t.bucketWeights b).flatMap accQuays).eraseDups.length

/-- The local conversion of a bucket, in ns: 6 bytes for each of its parameters over its quays. R253 does not say whether a masked or
frozen parameter counts: each wire location counts, and so neither does (DESIGN CHOICE, log 79). -/
def Table.localNs (t : Table) (b : Bytes) : Nat := ceilDiv (6 * bWire b) (512 * max 1 (t.bucketQuays b))

/-- The last bucket to complete; of several at one instant, the highest-numbered (R253). -/
def Table.lastBucket (t : Table) (fin : List ((Nat × Nat) × Nat)) : Option Bytes :=
  t.buckets.foldl (fun acc b => match acc with
    | none => some b
    | some a => if t.bucketDone fin a ≤ t.bucketDone fin b then some b else acc) none

def Table.tailNs (t : Table) (fin : List ((Nat × Nat) × Nat)) : Nat :=
  match t.lastBucket fin with | none => 0 | some b => t.localNs b

/-- Bytes of the largest record (R327; log 24): a record with every entry, and a step record with the snapshot-complete record that
precedes it, taken together. -/
def Table.largestRecord (t : Table) : Nat :=
  let e1 := 8 + 264 * t.gradients.length
  let e2 := 8 + 8 * (t.tensors.filter fun r => t.promotable (tNum r)).length
  max (roundUp (240 + e1 + e2 + 40 + 80 + 40) 64) (roundUp (240 + e1 + e2 + 40 + 80) 64 + roundUp (240 + 40 + 80) 64)

/-- The step record budget (R325: the default follows the largest record). -/
def Table.budget (t : Table) : Nat :=
  match t.journalRec with | some _ => t.recordBudget | none => roundUp t.largestRecord 4096

/-- T_commit (R329). -/
def commitNs (budget : Nat) (mirror : Bool) : Nat :=
  20000 + ceilDiv budget 4 + (if mirror then 10000 + ceilDiv (budget * 1000) 15232 else 0)

/-- T_slack of a module outside a harbour (R253). -/
def Table.slackAlone (t : Table) (fin : List ((Nat × Nat) × Nat)) : Nat :=
  if t.isTraining then t.chandlerNs + t.tailNs fin + commitNs t.budget t.mirror else 0

/-! ## The breakwater allowance (R253, R338) -/

/-- Pages of the snapshot set: the ranges, or every class 1 page (R283). -/
def Table.snapshotPages (t : Table) : List Nat :=
  match t.recs secSurvival 3 with
  | [] => (t.pageClasses.filter fun p => p.2 == 1).map (·.1)
  | rs => (rs.flatMap fun r => pagesOf (fld r 8 8) (fld r 0x10 8)).eraseDups

/-- Granules of a list of pages on a quay. -/
def granulesOn (ps : List Pinned) (q : Nat) (pages : List Nat) : Nat :=
  pages.foldl (fun a p => a + (fragmentOf ps q p).length) 0

/-- Granules of breakwater on a quay. -/
def Table.breakwaterOn (t : Table) (q : Nat) : Nat :=
  (t.recs secSurvival 2).foldl (fun a r => if fld r 1 1 = q / 12 then a + fld r 0x10 8 / granuleSize / 12 else a) 0

/-- S / R in ns. -/
def Table.drainNs (t : Table) : Nat :=
  if t.journalRec.isNone then 0 else ceilDiv (t.snapshotPages.length * pageSize * 1000) (max 1 t.drainRate)

def Table.breakwaterHolds (t : Table) : Bool :=
  let pages := t.snapshotPages
  (List.range 24).all fun q => granulesOn t.pinned q pages ≤ t.breakwaterOn q

def Table.bwOk (t : Table) : Bool :=
  t.drainNs ≤ t.tBw || (t.tBw == 0 && (t.journalRec.isNone || t.breakwaterHolds))

/-! ## Bounds (R254) -/

def Table.runBound (t : Table) (n : Nat) (probe : Bool) : Nat :=
  100000 + (n + 1 + (if probe then 1 else 0)) * t.tStep + t.tDetect

def Table.serveBound (t : Table) (chunks gen : Nat) : Nat := 100000 + (chunks + gen + 2) * (t.tModel + t.tChunk)

/-- R247. -/
def loadBound (len : Nat) : Nat := 10000000 + 4 * len + 153600000

/-! ## The harbour terms (R311, R318 to R320, R470) -/

/-- T_late (R311). -/
def Table.tLate (t : Table) : Nat :=
  ceilDiv (t.entries.foldl (fun m e => max m e.1) 0 * 1000) (max 1 t.clock) + 1000000

/-- T_red, rounded up (R318). `topo` is the number of dimensions. -/
def tRed (w n topo : Nat) : Nat :=
  if n ≤ 2 then 0
  else
    let f := if topo = 1 then n - 3 else 5
    ceilDiv (6 * w * (n - 2) * 1000) ((n - 1) * topo * 15232) + 2 * (n - 2) * (2000 + f * 500)

/-- E, the entries of the statistics bucket (R305). -/
def Table.statEntries (t : Table) : Nat := 1 + t.buckets.length + t.tensors.length

/-- The harbour tail (R319). -/
def Table.harbourTail (t : Table) (fin : List ((Nat × Nat) × Nat)) (n topo : Nat) : Nat :=
  let f := t.buckets.foldl (fun f b => max f (ceilDiv (t.bucketDone fin b * 1000) t.clock) + tRed (bWire b) n topo) 0
  let f := f + tRed (8 * t.statEntries) n topo
  (f - t.tModel) + (match t.buckets.getLast? with | none => 0 | some b => t.localNs b)

/-- T_detect of a harbour of N members (R320). -/
def Table.detectNs (t : Table) (n : Nat) : Nat := t.tLate + 2000000 + 8000 * n

/-- R470: T_slack and T_detect against a harbour's shape. -/
def Table.shapeOk (t : Table) (n topo : Nat) : Bool :=
  let fin := t.schedule t.maxInst t.entries (t.stepInstances t.maxInst)
  t.tSlack == t.chandlerNs + t.harbourTail fin n topo + commitNs t.budget t.mirror && t.tDetect == t.detectNs n

end Sys2Proof.Machine
end

