-- ==== Sys2Proof/Machine/TableCheck.lean ====
section
/-! DEFINITION. Validation of a tide table, in the order of R241, with the codes of Tables 8.15 and 9.12 (spec/08, R219 to
R242; spec/09, R256 to R286; logs 25, 26). -/

namespace Sys2Proof.Machine

/-- The first failure: validation code, section type (0 for header, directory and trailer) and record index (R242). -/
structure Failure where
  code : Nat
  sec : Nat
  index : Nat
deriving DecidableEq, Repr

/-- The status of a failure: SIGNATURE for 0x0007 to 0x0009, MALFORMED otherwise (Table 8.15). -/
def Failure.isSignature (f : Failure) : Bool := 7 ≤ f.code && f.code ≤ 9

/-- The first failure of a list of checks in order. -/
def firstOf : List (Option Failure) → Option Failure
  | [] => none
  | some f :: _ => some f
  | none :: rest => firstOf rest

/-- A check that fails when its condition holds. -/
def failIf (bad : Bool) (code sec index : Nat) : Option Failure := if bad then some ⟨code, sec, index⟩ else none

/-- The first record of a list with a property. -/
def failAt (code sec : Nat) (rs : List Bytes) (bad : Nat → Bytes → Bool) : Option Failure :=
  (rs.zipIdx.find? fun p => bad p.2 p.1).map fun p => ⟨code, sec, p.2⟩

/-- Every byte outside the listed fields (offset, size) is zero. -/
def reservedClear (r : Bytes) (used : List (Nat × Nat)) : Bool :=
  r.zipIdx.all fun p => p.1 == 0 || used.any fun u => u.1 ≤ p.2 && p.2 < u.1 + u.2

/-! ## 1 and 2: framing, signatures and digest -/

/-- What the module holds that a table is checked against: the running firmware, and for a slot its current generation
and public keys (Ed25519, ML-DSA-65), if any (R452). -/
structure Signers where
  firmware : Nat
  key : Nat → Option (Nat × Bytes × Bytes)

def trailerBytes : Nat := 3392

def checkFraming (b : Bytes) : Option Failure :=
  let l := b.length
  let tr := b.drop (l - trailerBytes)
  firstOf [
    failIf (fld b 0 4 != 0x45444954 || fld tr 0 4 != 0x4E474953) 1 0 0,
    failIf (fld b 4 1 != 1 || fld b 5 1 != 2 || fld b 6 2 != 256) 2 0 0,
    failIf (fld b 8 8 != l || l % 8 != 0 || 33554432 < l || l < 256 + trailerBytes || fld b 0x30 8 != l - trailerBytes
      || fld tr 4 2 != 64 || fld tr 6 2 != 3309) 3 0 0,
    failIf (slice b 0x10 16 != Config.partBytes || fld b 0x20 1 != Config.stepping) 4 0 0]

def checkFirmware (b : Bytes) (k : Signers) : Option Failure := failIf (k.firmware < fld b 0x24 4) 5 0 0

def checkHeaderReserved (b : Bytes) : Option Failure :=
  let tr := b.drop (b.length - trailerBytes)
  failIf (!(zeroAt b 0x23 1 && zeroAt b 0x2A 6 && zeroAt b 0x78 136 && zeroAt tr 8 8 && zeroAt tr 0xD3D 3)) 6 0 0

def bodyOf (b : Bytes) : Bytes := slice b 0x100 (b.length - trailerBytes - 0x100)

def checkSignatures (b : Bytes) (k : Signers) : Option Failure :=
  let h := b.take 256
  let tr := b.drop (b.length - trailerBytes)
  match (if 3 < fld b 0x22 1 then none else k.key (fld b 0x22 1)) with
  | none => some ⟨7, 0, 0⟩
  | some (_, ed, ml) => firstOf [
      failIf (!(Config.edVerify ed h (slice tr 0x10 64) && Config.mlVerify ml h (slice tr 0x50 3309))) 8 0 0,
      failIf (sha384 (bodyOf b) != slice b 0x38 48) 9 0 0]

/-! ## 3: the directory -/

def dirEntries (b : Bytes) : List Bytes := (List.range (fld b 0x28 2)).map fun i => slice b (0x100 + 32 * i) 32

def dType (e : Bytes) : Nat := fld e 0 1
def dOff (e : Bytes) : Nat := fld e 8 8
def dLen (e : Bytes) : Nat := fld e 0x10 8

/-- Record size of a section (R241, R256). -/
def recordSize (ty : Nat) : Nat :=
  if ty = secStallMap ∨ ty = secRoutes then 16 else if ty = secTides ∨ ty = secTiming then 0
  else if ty = secFormats then 128 else 64

/-- Table 8.3: 0 optional, 1 required, 2 forbidden. -/
def sectionRule (training : Bool) (ty : Nat) : Nat :=
  if ty = secStallMap ∨ ty = secRoutes ∨ ty = secTides ∨ ty = secFormats ∨ ty = secShoal ∨ ty = secTiming then 1
  else if ty = secScale ∨ ty = secSurvival then (if training then 1 else 0)
  else if ty = secBuckets then (if training then 1 else 2)
  else if ty = secMasks then (if training then 0 else 2)
  else 0

def allSections : List Nat := [1, 2, 3, 4, 5, 6, 7, 8, 9, 10, 11, 12, 13]

/-- Zero padding between the directory, the sections and the trailer. -/
def paddingClear (b : Bytes) (es : List Bytes) : Bool :=
  let used := (0, 0x100 + 32 * es.length) :: (es.map fun e => (dOff e, dLen e))
  ((b.take (b.length - trailerBytes)).zipIdx).all fun p => p.1 == 0 || used.any fun u => u.1 ≤ p.2 && p.2 < u.1 + u.2

def checkDirectory (b : Bytes) : Option Failure :=
  let n := fld b 0x28 2
  let es := dirEntries b
  let stop := b.length - trailerBytes
  let kind := fld b 0x21 1
  let training := kind == 1
  let misplaced := fun (i : Nat) (e : Bytes) =>
    dOff e % 64 != 0 || dOff e < 0x100 + 32 * n || stop < dOff e + dLen e
      || (es.take i).any (fun x => dOff e < dOff x + dLen x && dOff x < dOff e + dLen e)
      || fld e 4 4 != recordSize (dType e)
      || (if recordSize (dType e) = 0 then fld e 0x18 4 != 0 else dLen e != fld e 4 4 * fld e 0x18 4)
  firstOf [
    failIf (kind != 1 && kind != 2) 0x15 0 0,
    failIf (n < 6 || 13 < n || stop < 0x100 + 32 * n) 0x10 0 0,
    failAt 0x11 0 es fun _ e => !allSections.contains (dType e) || fld e 1 1 != 1,
    failAt 0x12 0 es fun i e => (es.take i).any fun x => dType x == dType e,
    failIf (allSections.any fun ty => sectionRule training ty == 1 && !(es.any fun e => dType e == ty)) 0x13 0 0,
    failAt 0x14 0 es fun _ e => sectionRule training (dType e) == 2,
    failAt 0x15 0 es misplaced,
    failAt 6 0 es fun _ e => !(zeroAt e 2 2 && zeroAt e 0x1C 4),
    failIf (!paddingClear b es) 6 0 0]

/-- The sections of a table whose framing and directory hold. -/
def parseTable (b : Bytes) (generation : Nat) : Table :=
  let es := dirEntries b
  let raw := fun ty => match es.find? fun e => dType e == ty with | none => [] | some e => slice b (dOff e) (dLen e)
  let td := raw secTides
  let n := fld td 0 4
  let tm := raw secTiming
  { header := b.take 256, digest := sha384 (b.take 256),
    secs := es.filterMap fun e =>
      if dType e = secTiming then none
      else if dType e = secTides then some (secTides, (List.range (min n (td.length / 64))).map fun i => slice td (64 + 64 * i) 64)
      else some (dType e, chunks (recordSize (dType e)) (fld e 0x18 4) (slice b (dOff e) (dLen e))),
    range1 := fld td 4 4, range2 := fld td 8 4,
    deps := (List.range (min (fld td 0xC 4) (td.length / 4))).map fun i => fld td (64 + 64 * n + 4 * i) 4,
    timing := tm.take 128,
    entries := (List.range (min (fld tm 0x30 4) (tm.length / 16))).map fun i => (fld tm (128 + 16 * i) 4, fld tm (132 + 16 * i) 4),
    slot := fld b 0x22 1, generation := generation }

/-- The raw TIDES and TIMING sections, for their own checks. -/
def rawSection (b : Bytes) (ty : Nat) : Bytes :=
  match (dirEntries b).find? fun e => dType e == ty with | none => [] | some e => slice b (dOff e) (dLen e)

/-! ## 4: the sections on their own -/

/-- STALL_MAP on its own. A nonzero first slot or slot count with flag bit 0 clear is reported as 0x0006: Table 8.15 names no code for
it (DESIGN CHOICE, log 81). -/
def checkStallMap (t : Table) : Option Failure :=
  let rs := t.sec secStallMap
  let gap := fun (r : Bytes) =>
    let stages := (rs.filter fun x => fld x 2 2 == fld r 2 2).map fun x => fld x 4 2
    255 < fld r 2 2 || 255 < fld r 4 2 || !((List.range (fld r 4 2)).all fun s => stages.contains s)
  firstOf ((rs.zipIdx).map fun p =>
    let r := p.1
    let i := p.2
    firstOf [
      failIf (!(zeroAt r 0xC 4) || fld r 6 2 / 2 != 0 || (!bit (fld r 6 2) 0 && !zeroAt r 8 4)) 6 secStallMap i,
      failIf (255 < fld r 0 2 || (rs.take i).any (fun x => fld r 0 2 ≤ fld x 0 2)) 0x20 secStallMap i,
      failIf (gap r) 0x21 secStallMap i])

def endpointOk (e : Nat) : Bool :=
  match e / 4096 with
  | 0 => e % 4096 < 256
  | 1 => e % 4096 < 24
  | 2 => e % 4096 < 2
  | 3 => e % 4096 == 0
  | 4 => e % 4096 < 8
  | _ => false

/-- R229: the causeway bit is set exactly when both endpoints lie in halls, and in different ones. -/
def crosses (a b : Nat) : Bool :=
  match endpointHall a, endpointHall b with
  | some x, some y => x != y
  | _, _ => false

def checkRoutes (t : Table) : Option Failure :=
  firstOf ((t.sec secRoutes).zipIdx.map fun p =>
    let r := p.1
    firstOf [
      failIf (!(zeroAt r 6 2) || fld r 5 1 / 2 != 0) 6 secRoutes p.2,
      failIf (!endpointOk (fld r 0 2) || !endpointOk (fld r 2 2) || 4 < fld r 4 1) 0x30 secRoutes p.2,
      failIf (bit (fld r 5 1) 0 != crosses (fld r 0 2) (fld r 2 2)) 0x31 secRoutes p.2])

/-- The used bytes of a tide record body, and its allowed flag bits (Tables 8.12 to 8.14). -/
def tideFields : TideKind → List (Nat × Nat) × Nat
  | .product => ([(0x10, 0x2E)], 0x3F)
  | .close => ([(0x10, 0x12)], 0x0C)
  | .lane => ([(0x10, 10), (0x1C, 0x14)], 0)
  | .partialLoad => ([(0x10, 0x12)], 0)
  | .regionOpen => ([(0x10, 0x13), (0x24, 8)], 0)
  | .gatherOpen => ([(0x10, 6), (0x18, 4)], 0)
  | .route => ([(0x10, 0xE)], 0)
  | .hostLayer => ([(0x10, 3), (0x14, 4)], 0)
  | .barrier => ([], 0)

def tideReservedOk (r : Bytes) : Bool :=
  match TideKind.ofCode (fld r 0 1) with
  | none => zeroAt r 0xA 6
  | some k => reservedClear r ((0, 0xA) :: (tideFields k).1)
      && (match k with
          | .product => !bit (pTile r) 6
          | .partialLoad => !bit (plTile r) 6
          | .gatherOpen => !bit (goTile r) 6
          | _ => true)

/-- Whether a record opens a tile that a later record may name: a gathering tile, or one left open (R238). -/
def opensFor (gather : Bool) (o : Nat) (r : Bytes) : Bool :=
  match rKind r with
  | .gatherOpen => gather
  | .product => !gather && opensTile r && pKeepOpen r
  | .partialLoad => !gather && plTileRef r == o
  | _ => false

/-- Stall field of a record (Table 8.11). -/
def Table.stallOk (t : Table) (r : Bytes) : Bool :=
  match rKind r with
  | .regionOpen | .hostLayer | .barrier => rStall r == 0xFFFF
  | _ => (t.stallRec (rStall r)).isSome

/-- R232. -/
def Table.depsOk (t : Table) (i : Nat) (r : Bytes) : Bool :=
  fld r 4 4 + fld r 8 2 ≤ t.deps.length && (t.depsOf r).all fun j =>
    j < i && (t.rangeOf j == 0 || t.rangeOf j == t.rangeOf i
      || (t.isTraining && t.rangeOf i == 2 && t.rangeOf j == 1))

/-- The tile reference of a record names an earlier opener of its own range, stall and, where it continues, φ, whose tile no
record between has closed. -/
def Table.refOk (t : Table) (i : Nat) (r : Bytes) : Bool :=
  let ok := fun (gather : Bool) (o : Nat) =>
    o < i && opensFor gather o (t.tide o) && rStall (t.tide o) == rStall r && t.rangeOf o == t.rangeOf i
      && !((t.tides.take i).zipIdx.any fun p => closesOf o p.2 p.1)
  match rKind r with
  | .product =>
    if pGatherUse r then ok true (pTileRef r)
    else if pContinue r then ok false (pTileRef r) && pPhi r == tilePhi (t.tide (pTileRef r))
    else if pKeepOpen r then pTileRef r == i else pTileRef r == 0xFFFFFFFF
  | .close => ok (cCloser r) (cTileRef r)
  | .partialLoad => plTileRef r == i || (ok false (plTileRef r) && plPhi r == tilePhi (t.tide (plTileRef r)))
  | _ => true

/-- Every tile that a record leaves open is closed exactly once, later (R238). -/
def Table.closedOnce (t : Table) (i : Nat) (r : Bytes) : Bool :=
  let opens := match rKind r with
    | .product => opensTile r && pKeepOpen r
    | .partialLoad => plTileRef r == i
    | .gatherOpen => true
    | _ => false
  !opens || ((t.tides.zipIdx.filter fun p => i < p.2 && closesOf i p.2 p.1).length == 1)

/-- Where the tile of a resident product closes: its output, rows and columns. -/
def Table.partOf (t : Table) (o : Nat) : List Nat :=
  let r := t.tide o
  match t.closer? o with
  | none => []
  | some c => if rKind c == .close then [pOut c, cRowBase c, cColBase c, pRows r, 1, 1]
      else [pOut c, pRowBase r, pColBase r, pRows r, pRowTiles r, pColTiles r]

/-- The openers of the parts of the resident reduction to which the tile of record `o` belongs: resident tiles of one stall and range
that close to one place with one part count (R125). -/
def Table.partOpeners (t : Table) (o : Nat) : List (Bytes × Nat) :=
  let r := t.tide o
  t.tides.zipIdx.filter fun p =>
    rKind p.1 == .product && opensTile p.1 && tileResident (pTile p.1) && pParts p.1 == pParts r && rStall p.1 == rStall r
      && t.rangeOf p.2 == t.rangeOf o && t.partOf p.2 == t.partOf o

/-- R120, R125: the slices of a resident reduction ascend over the records of all its parts, without overlap, and the parts, all present
on one stall, ascend from 0. -/
def Table.residentOrderOk (t : Table) (i : Nat) (r : Bytes) : Bool :=
  let o := tileOwner i r
  if rKind r != .product || !tileResident (pTile (t.tide o)) then true
  else
    let parts := t.partOpeners o
    let before := (t.tides.take i).zipIdx.filter fun p => rKind p.1 == .product && parts.any fun q => q.2 == tileOwner p.2 p.1
    (before.all fun p => pBlockBase p.1 + pBlockCount p.1 ≤ pBlockBase r && pPart p.1 ≤ pPart r)
      && pPart r == pPart (t.tide o) && pParts r == pParts (t.tide o) && pPart r < pParts r
      && ((List.range (pParts r)).all fun k => (parts.filter fun p => pPart p.1 == k).length == 1)

/-- R238: the uses of a gathering tile and its closer. A tile byte with bit 7 set is reported as 0x004A: Table 8.15 names no code for
it (DESIGN CHOICE, log 81). -/
def Table.gatherOk (t : Table) (i : Nat) (r : Bytes) : Bool :=
  match rKind r with
  | .gatherOpen =>
    let uses := t.tides.zipIdx.filter fun p => rKind p.1 == .product && pGatherUse p.1 && pTileRef p.1 == i
    let c := t.tide (goCloser r)
    1 ≤ goUses r && goUses r ≤ 255 && !tileResident (goTile r) && uses.length == goUses r
      && ((List.range (goUses r)).all fun u => uses.any fun p => pUse p.1 == u)
      && rKind c == .close && cCloser c && cTileRef c == i && rStall c == rStall r
      && uses.all fun p => (t.depsOf c).contains p.2
  | .product => pGatherUse r || pUse r == 0
  | _ => true

def checkTides (t : Table) (raw : Bytes) : Option Failure :=
  let n := fld raw 0 4
  firstOf (
    [failIf (!zeroAt raw 0x18 40) 6 secTides 0,
     failIf (n < 1 || 262144 < n || fld raw 8 4 < fld raw 4 4 || n < fld raw 8 4 || fld raw 0x10 4 != 64
       || fld raw 0x14 4 != 64 + 64 * n || raw.length != 64 + 64 * n + 4 * fld raw 0xC 4) 0x4D secTides 0]
    ++ t.tides.zipIdx.map fun p =>
      let r := p.1
      let i := p.2
      firstOf [
        failIf (!tideReservedOk r) 6 secTides i,
        failIf (match TideKind.ofCode (fld r 0 1) with
          | none => true
          | some k => rFlags r &&& (0xFF - (tideFields k).2) != 0) 0x40 secTides i,
        failIf (!t.depsOk i r) 0x42 secTides i,
        failIf (!(t.refOk i r && t.closedOnce i r)) 0x46 secTides i,
        failIf (!t.residentOrderOk i r) 0x48 secTides i,
        failIf (!t.gatherOk i r) 0x4A secTides i])

/-- The named bytes of a policy record, by section and record type; `none` for an unknown type. -/
def policyFields (sec rt : Nat) : Option (List (Nat × Nat)) :=
  match sec, rt with
  | 4, 1 => some [(0, 0x13), (0x14, 0x54)]
  | 4, 2 => some [(0, 2), (4, 8)]
  | 5, 1 => some [(0, 6), (8, 8)]
  | 5, 2 => some [(0, 3), (4, 8)]
  | 5, 3 => some [(0, 3), (4, 2), (8, 8)]
  | 5, 4 => some [(0, 1), (2, 8)]
  | 6, 1 => some [(0, 2), (8, 0x18)]
  | 6, 2 => some [(0, 1), (2, 8)]
  | 6, 3 => some [(0, 1), (2, 4)]
  | 6, 4 => some [(0, 1), (8, 0x10)]
  | 6, 5 => some [(0, 6), (8, 0x10)]
  | 7, 1 => some [(0, 1), (4, 0xC)]
  | 7, 2 => some [(0, 1), (2, 10), (0x10, 8)]
  | 8, 1 => some [(0, 1), (2, 2)]
  | 8, 2 => some [(0, 8), (0x20, 32)]
  | 9, 1 => some [(0, 1), (2, 0xE)]
  | 10, 1 => some [(0, 5), (8, 0xD)]
  | 11, 1 => some [(0, 0xC), (0x10, 8)]
  | 12, 1 => some [(0, 8), (0x18, 0xC)]
  | 12, 2 => some [(0, 2), (8, 0x10)]
  | 12, 3 => some [(0, 1), (8, 0x10)]
  | _, _ => none

/-- Reserved flag bits of a policy record. -/
def policyFlagsOk (sec : Nat) (r : Bytes) : Bool :=
  match sec, fld r 0 1 with
  | 4, 1 => fld r 6 2 / 16 == 0
  | 5, 1 => fld r 5 1 / 2 == 0
  | 5, 4 => fld r 6 2 / 8 == 0
  | 11, 1 => fld r 3 1 / 2 == 0
  | 12, 1 => fld r 1 1 / 4 == 0
  | _, _ => true

/-- Whether the Reserved fields of a policy record are zero. -/
def policyReservedOk (sec : Nat) (r : Bytes) : Bool :=
  match policyFields sec (fld r 0 1) with
  | none => true
  | some fs => reservedClear r fs && policyFlagsOk sec r

/-! ## 5: the cross-checks -/

/-- Batch slots of a serving table, and the halls that serve each (R227). -/
def checkSlots (t : Table) : Option Failure :=
  if t.isTraining then none
  else
    let kv := (t.sec secStallMap).filter fun r => bit (fld r 6 2) 0
    let halls := fun s => (kv.filter fun r => fld r 8 2 ≤ s && s < fld r 8 2 + fld r 0xA 2).map fun r => fld r 0 2 / 128
    firstOf [
      failAt 0x22 secStallMap (t.sec secStallMap) fun _ r => bit (fld r 6 2) 0 && (fld r 0xA 2 == 0
        || (List.range (fld r 0xA 2)).any fun k => (halls (fld r 8 2 + k)).any (· != fld r 0 2 / 128)),
      failIf ((List.range t.maxInst).any fun s => (halls s).isEmpty) 0x22 secStallMap 0]

/-- Instances of a record at the maximum count of Table 8.16. -/
def Table.multiplicity (t : Table) (i : Nat) : Nat := if t.rangeOf i = 1 then t.maxInst else 1

def checkDeclared (t : Table) : Option Failure :=
  let uses := t.tides.zipIdx.flatMap fun p => (t.routeUses p.2 p.1).map fun u => (u.route, u.bytes32 * t.multiplicity p.2)
  failAt 0x32 secRoutes (t.sec secRoutes) fun i r =>
    fld r 8 8 < bytesOf32 ((uses.filter fun u => u.1 == i).foldl (fun a u => a + u.2) 0)

/-- Whether a copy from one tensor to another would turn one public format into another (R41). -/
def Table.publicCopy (t : Table) (a b : Nat) : Bool :=
  match t.tensor? a, t.tensor? b with
  | some x, some y => (tFmt x).isPublic && (tFmt y).isPublic && tFmt x != tFmt y
  | _, _ => false

/-- Whether the tile of a record's reference is resident (R110). -/
def Table.refResident (t : Table) (o : Nat) : Bool := tileResident ((openedTile o (t.tide o)).getD 0)

/-- Operand formats and combinations of a tide (R41, R77, R101, R103, R107, R110, R125). -/
def Table.operandsOk (t : Table) (i : Nat) (r : Bytes) : Bool :=
  (tensorsNamed r).all (fun n => (t.tensor? n).isSome) && (match rKind r with
  | .close => !(cToRegion r && t.refResident (cTileRef r))
  | .partialLoad => !tileResident (plTile r) && !t.refResident (plTileRef r)
  | .lane => !((chainOf (lChain r)).isEmpty && t.publicCopy (lIn r 0) (lOut r))
  | .route => !t.publicCopy (roInput r) (roGathered r)
  | .product =>
    (match t.modeOf r with
    | none => false
    | some m =>
      let w := t.tensor? (pStat r)
      let split := 1 < pPieces r
      let res := tileResident (pTile (t.tide (tileOwner i r)))
      1 ≤ pPieces r && pPieces r ≤ 3 && pPieces r == (if pOneHot r then 1 else match w with | some x => tPieces x | none => 1)
        && (!split || (t.statFmt r == .l4 && !t.sparseStat r && m != .l16))
        && (!t.sparseStat r || m.sparseOk)
        && (!res || (m.residentOk && !split && !pGatherUse r && !pToRegion r)))
  | _ => true)

/-- R162, R211: a tile that writes a narrowable gradient or a stashed tensor. -/
def Table.alignedRows (t : Table) (out rows base : Nat) : Bool :=
  !(t.narrowable out || (t.stashEntry out).isSome) || ((rows == 32 || rows == 64) && base % 32 == 0)

/-- The rows a VARIABLE_ROWS product covers: capacity C for each routing group of the ROUTE it depends on (R239). -/
def Table.routedRows (t : Table) (r : Bytes) : Option (Nat × Nat) :=
  ((t.depsOf r).map t.tide).find? (fun d => rKind d == .route) |>.bind fun d =>
    (t.router? (roRouter d)).map fun x => (fld x 0xC 4, roTokens d / max 1 (fld x 8 4) * fld x 0xC 4)

def Table.geometryOk (t : Table) (r : Bytes) : Bool :=
  match rKind r with
  | .product =>
    let one := pContinue r || pGatherUse r || pKeepOpen r
    let units := tileUnits (pTile r)
    tileFirst (pTile r) + units ≤ 8 && 1 ≤ pRows r && pRows r ≤ 8 * units && 1 ≤ pRowTiles r && 1 ≤ pColTiles r
      && (!one || (pRowTiles r == 1 && pColTiles r == 1))
      && (opensTile r || pRows r ≤ t.tileRows (pTileRef r))
      && pColBase r % 128 == 0 && pColBase r + 128 * (pColTiles r - 1) < t.statCols r
      && 1 ≤ pBlockCount r && pBlockBase r + pBlockCount r ≤ ceilDiv (t.reduction r) 32
      && (if pVariable r then (match t.routedRows r with
            | none => false
            | some c => c.1 % pRows r == 0 && pRowBase r + pRows r * pRowTiles r ≤ c.2)
          else pRowBase r + pRows r * pRowTiles r ≤ t.streamRows r)
      && (!closesTile r || pToRegion r ||
            (pRowBase r + pRows r * pRowTiles r ≤ rowsOf (t.tensor? (pOut r))
              && pColBase r + 128 * (pColTiles r - 1) < colsOf (t.tensor? (pOut r))
              && t.alignedRows (pOut r) (pRows r) (pRowBase r)))
  | .close =>
    cColBase r % 128 == 0 && (cToRegion r ||
      (cRowBase r + t.tileRows (cTileRef r) ≤ rowsOf (t.tensor? (pOut r)) && cColBase r < colsOf (t.tensor? (pOut r))
        && t.alignedRows (pOut r) (t.tileRows (cTileRef r)) (cRowBase r)))
  | .lane =>
    1 ≤ lRows r && 1 ≤ lCols r && ((tensorsNamed r).all fun n =>
      (t.kindOf n == kWeight || lRowBase r + lRows r ≤ rowsOf (t.tensor? n))
        && (t.kindOf n == kStats || lColBase r + lCols r ≤ colsOf (t.tensor? n)))
  | .partialLoad =>
    let units := tileUnits (plTile r)
    tileFirst (plTile r) + units ≤ 8 && 1 ≤ plRows r && plRows r ≤ 8 * units && plRows r ≤ t.tileRows (plTileRef r) && (match t.tides[plRegion r]? with
      | none => true
      | some g => plFirst r + (plRows r - 1) * gPitch g + min 128 (gPitch g) ≤ gLocs g)
  | .gatherOpen => tileFirst (goTile r) + tileUnits (goTile r) ≤ 8
  | .route => match t.router? (roRouter r) with
    | none => true
    | some x => 1 ≤ roTokens r && roTokens r % max 1 (fld x 8 4) == 0
        && roTokens r ≤ rowsOf (t.tensor? (roInput r)) && colsOf (t.tensor? (roLogits r)) == fld x 2 2
  | _ => true

/-- The live ranges of the tiles that record `o` opens, in the modelled schedule of a list of instances: instance, opening and close
(R136). -/
def Table.liveRanges (t : Table) (fin : List ((Nat × Nat) × Nat)) (o : Nat) : List (Nat × Nat × Nat) :=
  (fin.filter fun p => p.1.1 == o).map fun p =>
    let stop := (t.tides.zipIdx.find? fun q => o ≤ q.2 && closesOf o q.2 q.1).bind fun q => fin.find? fun x => x.1 == (q.2, p.1.2)
    (p.1.2, p.2 - (t.entries.getD o (0, 0)).1, (stop.map (·.2)).getD (p.2 + 1))

/-- The static schedules of TIDES and TIMING: a training step at Gmax; of a serving table, range 0 with a decode step, and a prefill
chunk (R136, R252). -/
def Table.staticSchedules (t : Table) : List (List ((Nat × Nat) × Nat)) :=
  if t.isTraining then [t.schedule t.maxInst t.entries (t.stepInstances t.maxInst)]
  else [t.schedule 1 t.entries ((t.inRange 0).map (·, 0) ++ (t.inRange 2).map (·, 0)), t.schedule 1 t.entries ((t.inRange 1).map (·, 0))]

/-- R136: no other tile of the stall that shares a unit is live in the static schedule while a tile that the record leaves open is. -/
def Table.liveOk (t : Table) (scheds : List (List ((Nat × Nat) × Nat))) (i : Nat) (r : Bytes) : Bool :=
  match openedTile i r with
  | none => true
  | some b =>
    if closesOf i i r then true
    else scheds.all fun fin =>
      let mine := t.liveRanges fin i
      t.tides.zipIdx.all fun p =>
        match openedTile p.2 p.1 with
        | none => true
        | some c =>
          rStall p.1 != rStall r || !(tileFirst b < tileFirst c + tileUnits c && tileFirst c < tileFirst b + tileUnits b)
            || (t.liveRanges fin p.2).all fun y => mine.all fun x => (p.2 == i && x.1 == y.1) || x.2.2 ≤ y.2.1 || y.2.2 ≤ x.2.1

/-- Block contributions that one element of a tile receives from a record (R115). -/
def contributionsOf (r : Bytes) : Nat := if rKind r == .product then pBlockCount r * pPieces r else 0

/-- The instances of a writer that one instance of a region takes. -/
def Table.seenFrom (t : Table) (g w : Nat) : Nat := if t.rangeOf g = t.rangeOf w then 1 else t.multiplicity w

/-- The locations at which the coverage of a region can change: the first, and the ends of every run that its writers write. -/
def Table.regionEdges (t : Table) (g : Nat) : List Nat :=
  0 :: (t.writersOf g).flatMap fun w => (t.spans (gPitch (t.tide g)) w).flatMap fun s => [s.1, s.2]

/-- The fan-in of the tile that record `x` opened, or, with `region`, of the region that it opens, at its busiest location: the
contributions of the products, of the loads that bring a region's own, and of the closes that bring a tile's own (R115).
`fuel` bounds the chain of loads and closes. -/
def Table.fanIn (t : Table) : Nat → Bool → Nat → Nat
  | 0, _, _ => 0
  | fuel + 1, false, x =>
    sumList ((t.tileProducts x).map contributionsOf) + sumList ((t.tileLoads x).map fun l => t.fanIn fuel true (plRegion l))
  | fuel + 1, true, x =>
    let ws := (t.writersOf x).map fun w => (w, t.seenFrom x w.2 * t.fanIn fuel false (tileOwner w.2 w.1))
    (t.regionEdges x).foldl (fun m l => max m (sumList (ws.map fun w => t.covers (gPitch (t.tide x)) w.1 l * w.2))) 0

def Table.tileFanIn (t : Table) (o : Nat) : Nat := t.fanIn (2 * t.tides.length + 1) false o
def Table.regionFanIn (t : Table) (g : Nat) : Nat := t.fanIn (2 * t.tides.length + 1) true g

/-! ### Anchors (R111 to R114, R121, Table 4.1) -/

/-- An anchor as a table declares it: kind, value or offset, and the γ tensor of kind 1. -/
def declaredAnchor (kind : Nat) (v : Int) (gamma : Nat) : Nat × Int × Nat := (kind, v, if kind = 1 then gamma else 0xFFFF)

def regionAnchorOf (g : Bytes) : Nat × Int × Nat := declaredAnchor (gAKind g) (gAnchor g) (gGamma g)

/-- Whether an anchor is the one that Table 4.1 gives the tile of record `o`: relative to λ for a gathering tile; relative to the γ of
the gradient that a product of it streams; absolute where none streams a gradient. A tile that only loads regions takes theirs. -/
def Table.anchorFits (t : Table) (a : Nat × Int × Nat) (o : Nat) : Bool :=
  let ps := t.tileProducts o
  let grads := (ps.map pStream).filter fun n => t.kindOf n == kGradient
  if rKind (t.tide o) == .gatherOpen then a.1 == 2
  else ps.isEmpty || (if grads.isEmpty then a.1 == 0 else a.1 == 1 && grads.contains a.2.2)

/-- The anchors that meet in the tile of record `o`: its own where it gathers, those of the regions that it loads, and that of the
tensor or A64 region that its close writes. A P32 region has a grid of its own (R114). -/
def Table.anchorsAt (t : Table) (o : Nat) : List (Nat × Int × Nat) :=
  (if rKind (t.tide o) == .gatherOpen then [(2, goDelta (t.tide o), 0xFFFF)] else [])
    ++ ((t.tileLoads o).filterMap fun l => (t.tides[plRegion l]?).map regionAnchorOf)
    ++ (match t.closer? o with
      | none => []
      | some c =>
        if pToRegion c then (match t.regionOf c with | some g => if gIsP32 g then [] else [regionAnchorOf g] | none => [])
        else match t.tensor? (pOut c) with | some x => [declaredAnchor (tAKind x) (tAnchor x) (tGamma x)] | none => [])

/-- The parts of one reduction have one anchor (R121, R135). -/
def Table.oneAnchor (t : Table) (o : Nat) : Bool :=
  let l := t.anchorsAt o
  l.all fun a => a == l.headD a

def Table.phiOk (t : Table) (i : Nat) (r : Bytes) : Bool :=
  let toRegion := fun (phi : Nat) => match t.regionOf r with | some g => gIsP32 g || gPhi g == phi | none => true
  match rKind r with
  | .product =>
    let o := tileOwner i r
    pPhi r ≤ 24 && ceilLog2 (if o = i then t.tileFanIn i else 0) ≤ pPhi r && pPhi r == tilePhi (t.tide o)
      && (!pToRegion r || !closesTile r || toRegion (pPhi r)) && (o != i || t.oneAnchor i)
  | .close => !cToRegion r || toRegion (tilePhi (t.tide (cTileRef r)))
  | .partialLoad => plPhi r ≤ 24 && (plTileRef r != i || (ceilLog2 (t.tileFanIn i) ≤ plPhi r && t.oneAnchor i))
      && (match t.tides[plRegion r]? with | some g => rKind g != .regionOpen || gPhi g == plPhi r | none => true)
  | .gatherOpen => goPhi r ≤ 24 && ceilLog2 (t.tileFanIn i) ≤ goPhi r && t.oneAnchor i
  | .regionOpen =>
    if gIsP32 r then gPhi r ≤ 16 && ceilLog2 (if gBucket r = 0xFFFF then gDone r else max (gDone r) t.sampleGroups) ≤ gPhi r
    else gPhi r ≤ 24 && ceilLog2 (t.regionFanIn i) ≤ gPhi r
  | _ => true

/-- Every location receives exactly the completion count of contributions (R130), and none falls outside the region (R236). -/
def Table.completionOk (t : Table) (g : Nat) (r : Bytes) : Bool :=
  let ws := t.writersOf g
  0 < gPitch r && (ws.all fun w => (t.spans (gPitch r) w).all fun s => s.2 ≤ gLocs r)
    && ((t.regionEdges g).filter (· < gLocs r)).all fun l =>
        sumList (ws.map fun w => t.seenFrom g w.2 * t.covers (gPitch r) w l) == gDone r

/-- The operands of a PRODUCT: those whose block runs join into one reduction. -/
def operandsKey (p : Bytes) : Nat × Nat × Bool := (if pOneHot p then 0 else pStat p, pStream p, pOneHot p)

/-- The block runs (first, count) that make up the whole sum of a sample group for a PRODUCT: every block of its reduction, or, against
the stash of a gathered tensor, those of one expert's places (R177, R236; log 61). -/
def Table.groupRuns (t : Table) (p : Bytes) : List (Nat × Nat) :=
  let n := ceilDiv (t.reduction p) 32
  (0, n) :: (match (t.recs secShoal 2).find? fun e => !pOneHot p && fld e 4 2 == pStat p with
    | none => []
    | some e => match (t.tides.find? fun r => rKind r == .route && roGathered r == fld e 2 2).bind fun r => t.router? (roRouter r) with
      | none => []
      | some x => let m := n / max 1 (fld x 2 2); (List.range (fld x 2 2)).map fun k => (k * m, m))

/-- Whether runs (first, count) follow one another from `a` to `b` without gap or overlap. -/
def tilesRun (runs : List (Nat × Nat)) (a b : Nat) : Bool :=
  (sortBy (fun (x y : Nat × Nat) => x.1 < y.1) runs).foldl
    (fun e x => match e with | some n => if x.1 = n then some (n + x.2) else none | none => none) (some a) == some b

/-- The products whose blocks reach one location: those of the tile of record `x`, at row and column `at'` of it, with those that closed
into the A64 regions loaded there; or, with `region`, those that reach location `at'.1` of the region of record `x`, an instance each.
`fuel` bounds the chain of loads and closes. -/
def Table.reaching (t : Table) : Nat → Bool → Nat → Nat × Nat → List Bytes
  | 0, _, _, _ => []
  | fuel + 1, false, x, at' => t.tileProducts x ++ (t.tileLoads x).flatMap fun l =>
      match t.tides[plRegion l]? with
      | none => []
      | some g => if plRows l ≤ at'.1 || loadWidth g l ≤ at'.2 then []
          else t.reaching fuel true (plRegion l) (plFirst l + at'.1 * gPitch g + at'.2, 0)
  | fuel + 1, true, x, at' => (t.writersOf x).flatMap fun w =>
      let a := t.writes w
      let pitch := max 1 (gPitch (t.tide x))
      let row := at'.1 / pitch
      let col := at'.1 % pitch
      if row < a.1 || a.1 + a.2.1 ≤ row || col < a.2.2.1 || a.2.2.1 + a.2.2.2 ≤ col then []
      else (List.replicate (t.seenFrom x w.2)
        (t.reaching fuel false (tileOwner w.2 w.1) ((row - a.1) % max 1 (t.tileRows (tileOwner w.2 w.1)), (col - a.2.2.1) % 128))).flatten

/-- Whether the products that reach a location cover the whole sum of a sample group: for each pair of operands, their block runs follow
one another over the reduction. -/
def Table.wholeGroup (t : Table) (ps : List Bytes) : Bool :=
  !ps.isEmpty && (ps.map operandsKey).eraseDups.all fun k =>
    let l := ps.filter fun p => operandsKey p == k
    (t.groupRuns (l.headD [])).any fun n => tilesRun (l.map fun p => (pBlockBase p, pBlockCount p)) n.1 (n.1 + n.2)

/-- The places of a tile at which what reaches it can change: its first, and those where a load begins a row or meets an edge of its
region's coverage. -/
def Table.tilePlaces (t : Table) (o : Nat) : List (Nat × Nat) :=
  (0, 0) :: (t.tileLoads o).flatMap fun l => match t.tides[plRegion l]? with
    | none => []
    | some g => (List.range (plRows l)).flatMap fun i =>
        let first := plFirst l + i * gPitch g
        (i, 0) :: ((t.regionEdges (plRegion l)).filter fun e => first < e && e < first + loadWidth g l).map fun e => (i, e - first)

/-- A contribution to a P32 region is a complete sample group (R114, R236): what reaches its tile covers every token block once, at
every place of the tile. -/
def Table.groupComplete (t : Table) (i : Nat) (r : Bytes) : Bool :=
  match t.regionOf r with
  | none => true
  | some g =>
    let o := if rKind r == .close then cTileRef r else tileOwner i r
    !gIsP32 g || (t.tilePlaces o).all fun p => t.wholeGroup (t.reaching (2 * t.tides.length + 1) false o p)

/-- The anchor of a region is of the kind that Table 4.1 gives its sum, within its range: a bucket's absolute or relative to λ; an
A64 region's that of the tiles written into it, relative to λ where a gathering tile is among them (R111, R167; log 67). -/
def Table.regionAnchorOk (t : Table) (i : Nat) (r : Bytes) : Bool :=
  let ws := t.writersOf i
  let gathers := fun (w : Bytes × Nat) => rKind (t.tide (tileOwner w.2 w.1)) == .gatherOpen
  (match gAKind r with
    | 0 => -128 ≤ gAnchor r && gAnchor r ≤ 127
    | 1 => !gIsP32 r && t.kindOf (gGamma r) == kGradient && -64 ≤ gAnchor r && gAnchor r ≤ 33
    | 2 => -96 ≤ gAnchor r && gAnchor r ≤ 64
    | _ => false)
    && (gIsP32 r || (if gAKind r = 2 then
            ws.any gathers && ws.all fun w => gathers w || (t.tileProducts (tileOwner w.2 w.1)).all t.byFeature
          else ws.all fun w => t.anchorFits (regionAnchorOf r) (tileOwner w.2 w.1)))

/-- Every byte range that a table places, with the section and index of its record: arrays, accumulators, shoal, reserve and KV
regions, partial-sum regions that no bucket names, breakwater (R187). -/
def Table.placings (t : Table) : List (Nat × Nat × Nat × Nat) :=
  let of := fun (sec : Nat) (f : Bytes → List (Nat × Nat)) =>
    (t.sec sec).zipIdx.flatMap fun p => (f p.1).map fun a => (sec, p.2, a.1, a.2)
  of secTides (fun r => if rKind r == .regionOpen && gBucket r == 0xFFFF then [(gBase r, regionBytes r)] else [])
    ++ of secFormats (fun r => if fld r 0 1 == 1 then t.arrays r ++ accRanges r else [])
    ++ of secShoal (fun r => match fld r 0 1 with
        | 1 | 4 => [(fld r 8 8, fld r 0x10 8)] | 5 => [(fld r 8 8, fld r 4 2 * fld r 0x10 8)] | _ => [])
    ++ of secSurvival (fun r => if fld r 0 1 == 2 then [(fld r 8 8, fld r 0x10 8)] else [])

/-- Two byte ranges (base, length) that share a byte. -/
def overlaps (a b : Nat × Nat) : Bool := 0 < a.2 && 0 < b.2 && a.1 < b.1 + b.2 && b.1 < a.1 + a.2

/-- Whether what a record places meets what another record places. -/
def Table.collides (t : Table) (all : List (Nat × Nat × Nat × Nat)) (sec i : Nat) : Bool :=
  (all.filter fun p => p.1 == sec && p.2.1 == i).any fun p => all.any fun q => !(q.1 == sec && q.2.1 == i) && overlaps p.2.2 q.2.2

def Table.regionOk (t : Table) (all : List (Nat × Nat × Nat × Nat)) (i : Nat) (r : Bytes) : Bool :=
  match rKind r with
  | .regionOpen =>
    (fld r 0x1C 1 == 1 || fld r 0x1C 1 == 2) && gBase r % 64 == 0 && 1 ≤ gLocs r
      && (gBucket r != 0xFFFF || (inJobMemory (gBase r) (regionBytes r) && !t.collides all secTides i))
      && t.regionAnchorOk i r && t.completionOk i r
  | .product => !(pToRegion r && closesTile r) || ((t.regionOf r).isSome && t.groupComplete i r)
  | .close => !cToRegion r || ((t.regionOf r).isSome && t.groupComplete i r)
  | .partialLoad => match t.tides[plRegion r]? with
    | some g => rKind g == .regionOpen && !gIsP32 g && plRegion r < i
    | none => false
  | _ => true

/-- Whether an endpoint reaches data on some piles: a quay that is one of them, or the memory of a hall that holds some (Table 8.7; an
access that no route field names alone has no piles, log 65). -/
def memoryReaches (e : Nat) (piles : List Nat) : Bool :=
  match e / 4096 with
  | 1 => piles.isEmpty || piles.contains (e % 4096)
  | 2 => piles.isEmpty || piles.any fun p => p / 12 == e % 4096
  | _ => false

/-- Route index, endpoints, pile or hall, and class of every use of record `i` (Tables 8.6 and 8.7). -/
def Table.routesOk (t : Table) (i : Nat) (r : Bytes) : Bool :=
  (t.routeUses i r).all fun u => match (t.sec secRoutes)[u.route]? with
    | none => false
    | some x =>
      let stall := if u.toStall then fld x 2 2 else fld x 0 2
      let mem := if u.toStall then fld x 0 2 else fld x 2 2
      u.cls.contains (fld x 4 1) && stall == rStall r && memoryReaches mem u.piles

def checkTideCross (t : Table) : Option Failure :=
  let rs := t.tides
  let scheds := t.staticSchedules
  let all := t.placings
  firstOf [
    failAt 0x41 secTides rs fun _ r => !t.stallOk r,
    failAt 0x43 secTides rs fun i r => !t.operandsOk i r,
    failAt 0x44 secTides rs fun _ r => !t.geometryOk r,
    failAt 0x45 secTides rs fun i r => !t.liveOk scheds i r,
    failAt 0x47 secTides rs fun i r => !t.phiOk i r,
    failAt 0x49 secTides rs fun i r => !t.regionOk all i r,
    failAt 0x4B secTides rs fun _ r => rKind r == .product && 4194304 < t.workingSet r,
    failAt 0x4C secTides rs fun i r => !t.routesOk i r]

/-! ### Policy sections (Table 9.12) -/

/-- The sort keys of the records of a section: type, then the key of R256's order (a key of 0 where none is stated). -/
def orderKey (sec : Nat) (r : Bytes) : Nat × Nat :=
  let k := match sec, fld r 0 1 with
    | 4, 1 => fld r 2 2
    | 5, 2 => fld r 1 1
    | 5, 3 => fld r 1 1 * 256 + fld r 2 1
    | 5, 4 => fld r 2 2
    | 6, 1 => fld r 1 1
    | 6, 2 => fld r 2 2
    | 6, 3 => fld r 2 2
    | 6, 5 => fld r 1 1
    | 7, 2 => fld r 2 2
    | 9, 1 => fld r 2 2
    | _, _ => 0
  (fld r 0 1, k)

/-- Record types of a section that appear exactly once (R256). -/
def oneTypes (sec : Nat) : List Nat := if sec = 5 ∨ sec = 7 ∨ sec = 12 then [1] else []

/-- A record that is unknown, out of order, or a second of a "one" type (R256). -/
def orderBad (rs : List Bytes) (sec i : Nat) (r : Bytes) : Bool :=
  (policyFields sec (fld r 0 1)).isNone
    || (oneTypes sec).contains (fld r 0 1) && (rs.take i).any (fun x => fld x 0 1 == fld r 0 1)
    || (match (rs.take i).getLast? with
        | none => false
        | some p => fld r 0 1 < fld p 0 1 || (fld r 0 1 == fld p 0 1 && (orderKey sec r).2 < (orderKey sec p).2))

def policySections : List Nat := [4, 5, 6, 7, 8, 9, 10, 11, 12]

/-- Tensors that a policy record names (0x0061). -/
def policyTensors (sec : Nat) (r : Bytes) : List Nat :=
  match sec, fld r 0 1 with
  | 5, 4 => [fld r 2 2]
  | 6, 2 => [fld r 2 2, fld r 4 2] ++ (if fld r 6 2 = 0xFFFF then [] else [fld r 6 2])
  | 6, 3 => [fld r 4 2]
  | 7, 2 => [fld r 8 2]
  | 8, _ => [fld r 2 2]
  | 9, 1 => [fld r 2 2]
  | 10, 1 => [fld r 0x10 2, fld r 0x12 2]
  | _, _ => []

def checkNames (t : Table) : Option Failure :=
  let fs := t.sec secFormats
  firstOf ([failAt 0x61 secTides t.tides fun _ r => (tensorsNamed r).any fun n => (t.tensor? n).isNone,
    failAt 0x61 secFormats fs fun i r => fld r 0 1 == 1
      && (tNum r == 65535 || (fs.take i).any fun x => fld x 0 1 == 1 && tNum x == tNum r)]
    ++ (policySections.drop 1).map fun s => failAt 0x61 s (t.sec s) fun _ r => (policyTensors s r).any fun n => (t.tensor? n).isNone)

/-- Formats allowed for a kind (Table 9.2). -/
def formatAllowed (k : Nat) (f : Fmt) : Bool :=
  match k with
  | 1 => f == .l2 || f == .l4 || f == .l8 || f == .l16 || f == .ledger
  | 2 => f == .l2 || f == .l4 || f == .l8 || f == .l16 || f.isPublic
  | 3 => f == .g16
  | 4 => f == .l4
  | 5 => f == .l16
  | 6 | 7 => f == .l8
  | 8 => f == .l2 || f == .l4 || f == .l8 || f == .l16 || f == .g16 || f.isPublic
  | _ => false

def formatOk (r : Bytes) : Bool :=
  match Fmt.ofCode (fld r 4 1) with
  | none => false
  | some f => f != .l19 && formatAllowed (tKind r) f
      && 1 ≤ tPieces r && tPieces r ≤ 3 && (tPieces r == 1 || (tKind r == kWeight && f == .l4))
      && (!tTrunc r || f.isPublic) && (!tIeee r || f == .e5m2)
      && (!tSparse r || (tKind r == kWeight && (f == .l2 || f == .l4 || f == .l8) && tPieces r == 1))

/-- Whether a tile or close writes a tensor (R259). -/
def Table.tileWritten (t : Table) (n : Nat) : Bool :=
  t.tides.any fun r => match rKind r with
    | .product => closesTile r && !pToRegion r && pOut r == n
    | .close => !cToRegion r && pOut r == n
    | _ => false

def Table.anchorOk (t : Table) (r : Bytes) : Bool :=
  let w := t.tileWritten (tNum r)
  let noneOk := tAKind r == 0xFF && tAnchor r == 0
  match tKind r with
  | 2 => if w then tAKind r == 0 && -128 ≤ tAnchor r && tAnchor r ≤ 127 else noneOk
  | 3 => if w then tAKind r == 1 && -64 ≤ tAnchor r && tAnchor r ≤ 33 else noneOk
  | _ => noneOk

/-- The γ tensor of an anchor is an activation gradient, and one that a product of every tile closing into the tensor streams
(R111, R113, Table 4.1). -/
def Table.gammaOk (t : Table) (r : Bytes) : Bool :=
  if tAKind r = 1 then
    t.kindOf (tGamma r) == kGradient && t.tides.zipIdx.all fun p =>
      !((rKind p.1 == .close || (rKind p.1 == .product && closesTile p.1)) && !pToRegion p.1 && pOut p.1 == tNum r)
        || t.anchorFits (declaredAnchor (tAKind r) (tAnchor r) (tGamma r)) (tileOwner p.2 p.1)
  else tGamma r == 0xFFFF

/-- Address fields of a tensor record that are not "none". -/
def addressFields (r : Bytes) : List Nat :=
  ([tCodes r, tCodes2 r, tScales r, tScales2 r, tMaster r, tM1 r, tM2 r, tAcc r].filter (· != noAddr))

def isOffsetKind (k : Nat) : Bool := k == kStash || k == kStats || k == kKey || k == kValue

/-- The ranges of a cache tensor within a slot region (R274). -/
def Table.cacheRanges (t : Table) (x : Bytes) : List (Nat × Nat) :=
  if tKind x = kKey ∨ tKind x = kValue then
    [(tCodes x, t.codesBytes x), (tScales x, scalesBytes x)] ++ (if tCodes2 x = noAddr then [] else [(tCodes2 x, codes2Bytes x)])
  else []

def Table.allRanges (t : Table) (r : Bytes) : List (Nat × Nat) := t.arrays r ++ accRanges r

def Table.addressesOk (t : Table) (i : Nat) (r : Bytes) : Bool :=
  let apart := fun (f : Bytes → List (Nat × Nat)) =>
    let mine := f r
    let others := ((t.sec secFormats).take i).flatMap fun x => if fld x 0 1 == 1 then f x else []
    mine.all (fun a => others.all fun o => !overlaps a o)
      && mine.zipIdx.all fun p => mine.zipIdx.all fun q => p.2 ≤ q.2 || !overlaps p.1 q.1
  (addressFields r).all (· % 64 == 0) && apart t.cacheRanges && (isOffsetKind (tKind r) ||
    ((t.allRanges r).all (fun a => inJobMemory a.1 a.2) && apart t.allRanges))

/-- Classes that the table gives a page. -/
def Table.classClash (t : Table) (rs : List (Nat × Nat)) (cls : Nat) : Bool :=
  (rs.flatMap fun a => pagesOf a.1 a.2).any fun g => t.placed.any fun p => p.1 != cls && (pagesOf p.2.1 p.2.2).contains g

/-- R262: every array of a weight begins in page 0 of a pinned group, with room for a tile unit in that page, and touches pinned groups
of one hall only. -/
def Table.dealtOk (t : Table) (r : Bytes) : Bool :=
  tKind r != kWeight ||
    ((t.dealtArrays r ++ (if tAcc r = noAddr then [] else [(tAcc r, 4096)])).all
        (fun a => hallOffset a.1 % groupSize + a.2 ≤ pageSize && hallOf a.1 == hallOf (tCodes r))
       && (t.allRanges r).all fun a => hallOf a.1 == hallOf (tCodes r) && (groupsOf a.1 a.2).all fun g => isPinned t.pinned g.1 g.2)

/-- A pinned range (R261). R261 gives a group count no minimum: one of 0 is refused (DESIGN CHOICE, log 81). -/
def pinnedOk (rs : List Bytes) (i : Nat) (r : Bytes) : Bool :=
  fld r 1 1 ≤ 1 && 1 ≤ fld r 8 4 && fld r 4 4 + fld r 8 4 ≤ 32766
    && (rs.take i).all fun x => fld x 0 1 != 2 || fld x 1 1 < fld r 1 1
      || (fld x 1 1 == fld r 1 1 && fld x 4 4 + fld x 8 4 ≤ fld r 4 4)

def Table.arraysOk (t : Table) (r : Bytes) : Bool :=
  let some' := fun (a : Nat) => a != noAddr
  let opt := [tMaster r, tM1 r, tM2 r, tAcc r]
  let instOk := match tKind r with
    | 1 => tInst r == 0
    | 2 | 3 | 8 => tInst r == 0 || (if t.isTraining then tInst r == 1 else tInst r == 2)
    | 4 | 5 => tInst r == 1 && t.isTraining
    | _ => tInst r == 2 && !t.isTraining
  instOk && (tInst r != 0 || tIStride r == 0)
    && (if tTrained r then opt.all some'
        else opt.all (fun a => !some' a) && (tKind r == kWeight || tGroup r == 0xFF))
    && some' (tCodes r) && ((tFmt r).isBlock == some' (tScales r) || isOffsetKind (tKind r) || tKind r == kGradient)

/-- The checks of FORMATS against the other sections. -/
def checkFormats (t : Table) : Option Failure :=
  let fs := t.sec secFormats
  let on := fun (code : Nat) (bad : Nat → Bytes → Bool) => failAt code secFormats fs fun i r => fld r 0 1 == 1 && bad i r
  let all := t.placings
  let apart := fun (sec : Nat) => failAt 0x66 sec (t.sec sec) fun i r =>
    t.collides all sec i || (sec == secLedgers && fld r 8 8 % 64 != 0)
  firstOf [
    failAt 0x64 secTides t.tides fun _ r => rKind r == .gatherOpen && !(-96 ≤ goDelta r && goDelta r ≤ 64),
    on 0x64 fun _ r => !t.anchorOk r,
    on 0x65 fun _ r => !t.gammaOk r,
    on 0x66 fun i r => !t.addressesOk i r || t.collides all secFormats i,
    apart secShoal, apart secLedgers, apart secSurvival,
    on 0x67 fun _ r => t.classClash (t.arrays r) (classOfKind (tKind r)) || t.classClash (accRanges r) 2,
    on 0x68 fun _ r => !t.dealtOk r]

/-- Ranges of Table 9.7. -/
def scaleValueOk (t : Table) (r : Bytes) : Bool :=
  let pos := fun (o : Nat) => fld r o 2 < 0x8000
  match fld r 0 1 with
  | 1 => -32 ≤ sfld r 2 2 && sfld r 2 2 ≤ 63 && fld r 4 1 ≤ 8
  | 2 => fld r 1 1 ≤ 7 && 2 ≤ fld r 2 1 && fld r 2 1 ≤ 16 && 1 ≤ fld r 4 2 && fld r 4 2 ≤ 0x3FFF && 1 ≤ fld r 6 2
      && fld r 6 2 ≤ 0x3FFF && pos 8 && fld r 8 2 != 0 && pos 10
      && ((t.recs secScale 2).filter fun x => fld x 1 1 == fld r 1 1).length == 1
  | 3 => pos 4 && (t.recs secScale 2).any fun x => fld x 1 1 == fld r 1 1
  | _ => -64 ≤ sfld r 8 2 && sfld r 8 2 ≤ 62

def groupPointsOk (t : Table) (r : Bytes) : Bool :=
  let ps := (t.recs secScale 3).filter fun p => fld p 1 1 == fld r 1 1
  ps.map (fun p => fld p 2 1) == List.range (fld r 2 1)
    && (ps.head?.map (fun p => fld p 8 8)).getD 1 == 0
    && ((ps.zip (ps.drop 1)).all fun q => fld q.1 8 8 < fld q.2 8 8)

def Table.tensorFlagsOk (t : Table) (r : Bytes) : Bool :=
  let n := fld r 2 2
  let f := fld r 6 2
  let k := t.kindOf n
  let x := t.tensor? n
  let ledgerStream := t.tides.any fun p => rKind p == .product && pStream p == n && !pOneHot p
    && (match t.tensor? (pStat p) with | some w => tFmt w == .ledger | none => false)
  (!bit f 0 || (k == kActivation && (x.map tFmt).getD .l2 == .l4 && !ledgerStream))
    && (!bit f 1 || (k == kGradient && t.tileWritten n && (x.map tCodes2).getD noAddr != noAddr))
    && (!bit f 2 || k == kGradient || (match x with | some w => tTrained w | none => false))
    && (bit f 2 || sfld r 8 2 == 0)

/-- The streams that the tensor of a policy uses (R268): one for each piece of a trained weight under stochastic requantization, one
for a narrowable gradient, one for the logits tensor of a serving table. A stream number beyond 65,535 goes on from 0: R268 gives it
no bound (DESIGN CHOICE, log 80). -/
def Table.streamsOf (t : Table) (r : Bytes) : List Nat :=
  let n := fld r 2 2
  let count := match t.tensor? n with
    | none => 0
    | some w =>
      if tTrained w then (if t.stochastic && !t.frozen n then tPieces w else 0)
      else if t.narrowable n || (!t.isTraining && n == Config.logitsTensor t.digest) then 1 else 0
  (List.range count).map fun k => (fld r 4 2 + k) % 65536

def Table.streamsOk (t : Table) (i : Nat) (r : Bytes) : Bool :=
  let mine := t.streamsOf r
  ((t.sec secScale).take i).all fun x => fld x 0 1 != 4 || mine.all fun s => !(t.streamsOf x).contains s

/-- The checks of SCALE_POLICY against FORMATS. -/
def checkScale (t : Table) : Option Failure :=
  let ss := t.sec secScale
  firstOf [
    failAt 0x72 secFormats (t.sec secFormats) fun _ r => fld r 0 1 == 1 && tTrained r && (t.optGroup (tGroup r)).isNone,
    failAt 0x73 secScale ss fun _ r => fld r 0 1 == 4 && !t.tensorFlagsOk r,
    failAt 0x74 secFormats (t.sec secFormats) fun _ r => fld r 0 1 == 1 && tTrained r && t.stochastic
      && !t.frozen (tNum r) && (t.tensorPolicy (tNum r)).isNone,
    failAt 0x74 secScale ss fun i r => fld r 0 1 == 4 && !t.streamsOk i r]

/-! ### Shoal and cache regions (R269 to R274) -/

/-- The end of a stash or row statistics tensor within its frame, at the maximum token count of R275. -/
def Table.frameEnd (t : Table) (x : Bytes) : Nat :=
  let n := tNum x
  let rows := match (t.recs secShoal 2).find? fun e => fld e 4 2 == n with
    | none => t.maxTokens
    | some e => t.entryRows e t.maxTokens
  if tKind x = kStash then max (tCodes x + ceilDiv rows 32 * tCols x * 16) (tScales x + ceilDiv rows 32 * tCols x)
  else tCodes x + t.maxTokens * t.statWidth n

/-- The frame size of R272. -/
def Table.frameSize (t : Table) : Nat :=
  roundUp ((t.tensors.filter fun x => tKind x == kStash || tKind x == kStats).foldl (fun m x => max m (t.frameEnd x)) 0) pageSize

def Table.segments (t : Table) : List Nat := (t.recs secShoal 3).map fun r => fld r 2 2

/-- Bytes of the frame pages of the largest segment (R273). -/
def Table.reserveNeed (t : Table) : Nat :=
  t.segments.foldl (fun m s => max m ((t.segmentPages s t.maxTokens).length * pageSize)) 0

def regionPlaceOk (base len hall : Nat) : Bool :=
  base % pageSize == 0 && len % pageSize == 0 && 0 < len && inJobMemory base len && hallOf base == hall

/-- Whether a range lies in striped groups. -/
def stripedRange (t : Table) (base len : Nat) : Bool := (groupsOf base len).all fun g => !isPinned t.pinned g.1 g.2

/-- Whether record `i` reads, by its fields or in the chain of its close, a stash or statistics tensor that no entry gives (R271). -/
def Table.uncovered (t : Table) (i : Nat) (r : Bytes) : Bool :=
  (tensorsNamed r ++ t.closeOperands i r).any fun n =>
    (t.kindOf n == kStash || t.kindOf n == kStats) && !((t.recs secShoal 2).any fun e => fld e 4 2 == n || fld e 6 2 == n)

/-- The byte length of a shoal, reserve or KV region. -/
def shoalLength (r : Bytes) : Nat := if fld r 0 1 = 5 then fld r 4 2 * fld r 0x10 8 else fld r 0x10 8

/-- A SHOAL_MAP record contrary to Table 9.8 or R270 by its own section. -/
def Table.shoalRegionBad (t : Table) (i : Nat) (r : Bytes) : Bool :=
  let before := (t.sec secShoal).take i
  let twice := before.any fun x => fld x 0 1 == fld r 0 1 && fld x 1 1 == fld r 1 1
  let place := fun (hall : Nat) => !regionPlaceOk (fld r 8 8) (shoalLength r) hall
  match fld r 0 1 with
  | 1 => !t.isTraining || 1 < fld r 1 1 || twice || place (fld r 1 1)
  | 4 => !t.isTraining || place (hallOf (fld r 8 8)) || !((t.recs secShoal 1).any fun x => fld x 1 1 == hallOf (fld r 8 8))
  | 5 => t.isTraining || 1 < fld r 1 1 || twice || fld r 4 2 == 0 || fld r 0x10 8 % pageSize != 0 || place (fld r 1 1)
  | 2 | 3 => !t.isTraining
  | _ => false

/-- A stash entry, segment or reserve contrary to Table 9.8 or R271 by its own section. -/
def Table.shoalEntryBad (t : Table) (i : Nat) (r : Bytes) : Bool :=
  let segs := t.segments
  let before := (t.sec secShoal).take i
  match fld r 0 1 with
  | 2 => before.any (fun x => fld x 0 1 == 2 && (fld x 2 2 == fld r 2 2 || fld x 4 2 == fld r 4 2))
      || (if segs.isEmpty then fld r 8 2 != 0xFFFF else !segs.contains (fld r 8 2))
  | 3 => !(segs == List.range segs.length) || 1024 < segs.length || !((t.recs secShoal 2).any fun e => fld e 8 2 == fld r 2 2)
      || (t.recs secShoal 4).isEmpty
  | 4 => segs.isEmpty || before.any fun x => fld x 0 1 == 4
  | _ => false

/-- A stash entry whose tensors are contrary to Table 9.8 or R271. -/
def Table.stashEntryBad (t : Table) (r : Bytes) : Bool :=
  let shape := fun (a b : Nat) => match t.tensor? a, t.tensor? b with
    | some x, some y => tRows x == tRows y && tCols x == tCols y && tInst y == 1
    | _, _ => false
  t.kindOf (fld r 2 2) != kActivation || ((t.tensor? (fld r 2 2)).map fun x => (tFmt x).isPublic).getD true
    || t.kindOf (fld r 4 2) != kStash || !shape (fld r 2 2) (fld r 4 2)
    || (fld r 6 2 != 0xFFFF && (t.kindOf (fld r 6 2) != kStats || !shape (fld r 2 2) (fld r 6 2)))

/-- The slots that a hall's stalls serve (R183, R227). -/
def Table.served (t : Table) (hall s : Nat) : Bool :=
  (t.sec secStallMap).any fun x => bit (fld x 6 2) 0 && fld x 0 2 / 128 == hall && fld x 8 2 ≤ s && s < fld x 8 2 + fld x 0xA 2

/-- The checks of SHOAL_MAP against the other sections (R269 to R274), each over its records in ascending section (R286; log 68). -/
def checkShoal (t : Table) : Option Failure :=
  let ms := t.sec secShoal
  let segs := t.segments
  let n := (t.recs secShoal 1).length
  let frames := t.frameSize / pageSize
  let need := fun (k : Nat) => ceilDiv (frames - k) n
  let kv := t.recs secShoal 5
  let ends := fun (x : Bytes) => (t.cacheRanges x).foldl (fun m a => max m (a.1 + a.2)) 0
  firstOf [
    failAt 0x78 secShoal ms fun _ r => [1, 4, 5].contains (fld r 0 1) && !stripedRange t (fld r 8 8) (shoalLength r),
    failAt 0x79 secTides t.tides fun i r => t.uncovered i r,
    failAt 0x79 secShoal ms fun _ r => (fld r 0 1 == 2 && t.stashEntryBad r)
      || (fld r 0 1 == 3 && t.kindOf (fld r 4 2) != kActivation),
    failAt 0x7A secShoal ms fun i r => match fld r 0 1 with
      | 1 => fld r 0x18 8 != t.frameSize || (segs.isEmpty && fld r 0x10 8 < need i * pageSize)
      | 4 => fld r 0x10 8 < t.reserveNeed
      | _ => false,
    failAt 0x7B secStallMap (t.sec secStallMap) fun _ x => bit (fld x 6 2) 0 && !(kv.any fun r =>
      fld r 1 1 == fld x 0 2 / 128 && fld r 2 2 ≤ fld x 8 2 && fld x 8 2 + fld x 0xA 2 ≤ fld r 2 2 + fld r 4 2),
    failAt 0x7B secFormats (t.sec secFormats) fun _ x => fld x 0 1 == 1 && kv.any fun r => fld r 0x10 8 < ends x,
    failAt 0x7B secShoal ms fun _ r => fld r 0 1 == 5
      && (List.range (fld r 4 2)).any fun k => !t.served (fld r 1 1) (fld r 2 2 + k)]

/-! ### Buckets and masks (R275 to R278) -/

def Table.regionBucketOk (t : Table) (r : Bytes) : Bool :=
  gBucket r == 0xFFFF || (match t.bucket? (gBucket r), t.regionWeight r with
    | some b, some w => gIsP32 r && (t.bucketWeights b).any (fun x => tNum x == tNum w) && gAKind r == bAKind b
        && gAnchor r == bAnchor b && gPhi r == bPhi b && gPitch r == tRows w && gDone r == t.maxInst
    | _, _ => false)

/-- A BUCKETS record contrary to R275 by its own section: the sample-group values, or a bucket out of number. -/
def bucketRecBad (i : Nat) (r : Bytes) : Bool :=
  fld r 0 1 == 1 && (fld r 4 4 == 0 || 65536 < fld r 4 4 || fld r 8 4 == 0
      || fld r 0xC 4 % 32 != 0 || fld r 0xC 4 < 32 || 1048576 < fld r 0xC 4) || (fld r 0 1 == 2 && bNum r + 1 != i)

/-- The checks of BUCKETS against the other sections (R275 to R277). -/
def checkBuckets (t : Table) : Option Failure :=
  let bs := t.sec secBuckets
  let covered := fun (n : Nat) => (t.buckets.filter fun b => (t.bucketWeights b).any fun w => tNum w == n).length
  firstOf [
    failAt 0x80 secFormats (t.sec secFormats) fun _ r => t.isTraining && fld r 0 1 == 1 && tInst r == 1 && tRows r < t.maxTokens,
    failAt 0x82 secFormats (t.sec secFormats) fun _ r => t.isTraining && fld r 0 1 == 1 && tTrained r && covered (tNum r) != 1,
    failAt 0x82 secBuckets bs fun _ r => fld r 0 1 == 2 && ((t.bucketWeights r).length != bCount r || bCount r == 0
      || !(t.trained.any fun w => tNum w == bFirst r)
      || bWire r != (t.bucketWeights r).foldl (fun a w => a + t.trainCount w) 0),
    failAt 0x83 secTides t.tides fun _ r => rKind r == .regionOpen && !t.regionBucketOk r]

/-- A MASKS record meets R278 within its own section: one frozen record or chunks of one kind for a tensor, chunks in order. -/
def maskAloneOk (rs : List Bytes) (i : Nat) (r : Bytes) : Bool :=
  let before := rs.take i
  if fld r 0 1 == 1 then
    !(rs.any fun x => fld x 0 1 == 2 && fld x 2 2 == fld r 2 2) && !(before.any fun x => fld x 0 1 == 1 && fld x 2 2 == fld r 2 2)
  else
    (fld r 1 1 == 1 || fld r 1 1 == 2) && fld r 4 4 % 256 == 0
      && before.all fun x => fld x 0 1 != 2 || fld x 2 2 < fld r 2 2
          || (fld x 2 2 == fld r 2 2 && fld x 1 1 == fld r 1 1 && fld x 4 4 < fld r 4 4)

/-- A MASKS record names a trained weight, and its bits beyond the weight are zero. -/
def Table.maskOk (t : Table) (r : Bytes) : Bool :=
  match t.tensor? (fld r 2 2) with
  | none => false
  | some w =>
    let lim := if fld r 1 1 == 1 then tCols w else tTiles w
    tTrained w && (fld r 0 1 == 1
      || (List.range 256).all fun b => fld r 4 4 + b < lim || !bit (fld r (0x20 + b / 8) 1) (b % 8))

/-- A tide closes into the accumulator of a weight: its dW tide (R160, R277). -/
def Table.gathersInto (t : Table) (n : Nat) : Bool :=
  t.tides.any fun r => (rKind r == .close || (rKind r == .product && closesTile r)) && pToRegion r
    && ((t.regionOf r).bind t.regionWeight).any fun w => tNum w == n

/-- R278: the records of MASKS against FORMATS, and a frozen weight has no dW tide. -/
def checkMasks (t : Table) : Option Failure :=
  failAt 0x88 secMasks (t.sec secMasks) fun _ r => !t.maskOk r || (fld r 0 1 == 1 && t.gathersInto (fld r 2 2))

/-- A LEDGERS record names a ledger weight, with interval 0 for an untrained one (R279). -/
def Table.ledgerRecOk (t : Table) (r : Bytes) : Bool :=
  match t.tensor? (fld r 2 2) with
  | none => false
  | some w => tFmt w == .ledger && (tTrained w || fld r 4 4 == 0)

def checkLedgers (t : Table) : Option Failure :=
  firstOf [
    failAt 0x90 secFormats (t.sec secFormats) fun _ r => fld r 0 1 == 1 && tKind r == kWeight && tFmt r == .ledger
      && (t.ledgerRec (tNum r)).isNone,
    failAt 0x90 secLedgers (t.sec secLedgers) fun _ r => !t.ledgerRecOk r]

/-- The values of a ROUTER record (Table 9.10). -/
def routerAloneOk (r : Bytes) : Bool :=
  let e := fld r 2 2
  let k := fld r 4 1
  let gs := fld r 8 4
  let c := fld r 0xC 4
  fld r 1 1 ≤ 1 && 2 ≤ e && e ≤ 256 && 1 ≤ k && k ≤ 8 && k ≤ e && gs % 32 == 0 && 32 ≤ gs && gs ≤ 65536 && c % 32 == 0
    && 0 < c && c ≤ gs && 1 ≤ fld r 0x14 1 && fld r 0x14 1 ≤ 8

/-- A ROUTER record against the other sections (R175, R184, R280). -/
def Table.routerOk (t : Table) (r : Bytes) : Bool :=
  let gs := fld r 8 4
  let c := fld r 0xC 4
  t.kindOf (fld r 0x10 2) == kActivation
    && ((List.range (fld r 2 2 * fld r 0x14 1)).all fun j => t.kindOf (fld r 0x12 2 + j) == kWeight)
    && (if t.isTraining then t.maxTokens % gs == 0 else c == gs && t.maxInst ≤ gs)

def checkRouter (t : Table) : Option Failure :=
  failAt 0x98 secRouter (t.sec secRouter) fun _ r => !t.routerOk r

/-- Bytes of a host-staging tensor in a public format, at its maximum rows. -/
def stagingBytes (f : Fmt) (x : Bytes) : Nat := tRows x * tCols x * elemBytes f

/-- The values of a HOST_LAYERS record (R281). -/
def hostLayerAloneOk (r : Bytes) : Bool :=
  (match Fmt.ofCode (fld r 1 1) with | none => false | some f => f.isPublic)
    && fld r 2 1 ≤ 15 && 1 ≤ fld r 4 4 && fld r 4 4 ≤ 1000000 && fld r 8 4 ≤ 1000000 && (fld r 8 4 == 0) == !bit (fld r 3 1) 0

/-- The tensors that the tides of a host layer name fit its largest request; one in another public format would have to be turned from
one into the other (R41, R281). -/
def Table.hostLayerOk (t : Table) (i : Nat) (r : Bytes) : Bool :=
  match Fmt.ofCode (fld r 1 1) with
  | none => false
  | some f => t.tides.all fun d => rKind d != .hostLayer || hlRec d != i || ([hlIn d, hlOut d].all fun n =>
          match t.tensor? n with
          | none => true
          | some x => stagingBytes f x ≤ fld r 0x10 8 && (!(tFmt x).isPublic || tFmt x == f))

def checkHostLayers (t : Table) : Option Failure :=
  firstOf [
    failAt 0xA0 secTides t.tides fun _ r => rKind r == .hostLayer && (1 < hlDir r || (hlDir r == 1
      && (match t.hostLayer? (hlRec r) with | none => false | some x => !bit (fld x 3 1) 0))),
    failAt 0xA0 secHostLayers (t.sec secHostLayers) fun i r => !t.hostLayerOk i r]

/-- The bytes of the largest snapshot image (R339). -/
def Table.imageBytes (t : Table) : Nat :=
  let pages := t.snapshotPages
  256 + t.budget + pages.foldl (fun a p =>
    a + pageSize + 32 * (quaysOf t.pinned (p * pageSize) pageSize).length) 0

/-- The values of a journal record (Table 9.11, R325, R338). -/
def journalAloneOk (r : Bytes) : Bool :=
  let e := fld r 0x1C 4
  let budget := fld r 0x18 4
  let mib := 1048576
  64 ≤ fld r 4 4 && fld r 4 4 ≤ 8000 && 4096 ≤ budget && budget ≤ 16777216 && 1024 ≤ e && e ≤ 131072 && 2 ≤ fld r 0x20 4
    && (fld r 0x20 4 + 4) * budget + 64 * mib ≤ e * mib
    && 1024 + e * (if bit (fld r 1 1) 0 then 2 else 1) ≤ Config.flashMiB
    && (!bit (fld r 1 1) 1 || fld r 4 4 ≤ 3000)

/-- A journal record against the other sections (R283, R325, R327). -/
def Table.journalOk (t : Table) (r : Bytes) : Bool :=
  t.largestRecord ≤ fld r 0x18 4
    && (!bit (fld r 1 1) 1
          || t.imageBytes ≤ (Config.flashMiB - 1024 - fld r 0x1C 4 * (if bit (fld r 1 1) 0 then 2 else 1)) * 1048576)
    && (fld r 2 2 == 0 || ((t.snapshotPages.map fun p => hallOf (p * pageSize)).eraseDups).all fun h =>
          (t.recs secSurvival 2).any fun x => fld x 1 1 == h)

/-- A SURVIVAL_POLICY record by its own section (R282, R283, Table 9.11). -/
def survivalAloneOk (rs : List Bytes) (i : Nat) (r : Bytes) : Bool :=
  let before := rs.take i
  match fld r 0 1 with
  | 1 => journalAloneOk r
  | 2 => fld r 1 1 ≤ 1 && !(before.any fun x => fld x 0 1 == 2 && fld x 1 1 == fld r 1 1)
      && fld r 8 8 % pageSize == 0 && fld r 0x10 8 % groupSize == 0
      && (fld r 0x10 8 == 0 || regionPlaceOk (fld r 8 8) (fld r 0x10 8) (fld r 1 1))
  | _ => fld r 8 8 % pageSize == 0 && fld r 0x10 8 % pageSize == 0
      && before.all fun x => fld x 0 1 != 3 || fld x 8 8 + fld x 0x10 8 ≤ fld r 8 8

/-- A SURVIVAL_POLICY record against the other sections. -/
def Table.survivalOk (t : Table) (r : Bytes) : Bool :=
  match fld r 0 1 with
  | 1 => t.journalOk r
  | 2 => fld r 0x10 8 == 0 || stripedRange t (fld r 8 8) (fld r 0x10 8)
  | _ => (pagesOf (fld r 8 8) (fld r 0x10 8)).all fun g => t.pageClasses.any fun p => p.1 == g && (p.2 == 1 || p.2 == 2)

def checkSurvival (t : Table) : Option Failure :=
  failAt 0xA8 secSurvival (t.sec secSurvival) fun _ r => !t.survivalOk r

def checkIndexes (t : Table) : Option Failure :=
  failAt 0xB0 secTides t.tides fun _ r =>
    (rKind r == .route && (t.router? (roRouter r)).isNone) || (rKind r == .hostLayer && (t.hostLayer? (hlRec r)).isNone)

/-! ## 6: TIMING -/

def checkTiming (t : Table) (raw : Bytes) : Option Failure :=
  let n := t.tides.length
  let tr := t.isTraining
  let clocks : List Nat := [800, 700, 600, 500, 400]
  let c := t.countedAll
  let fin := t.schedule t.maxInst c (if tr then t.stepInstances t.maxInst else (t.inRange 0).map (·, 0) ++ (t.inRange 2).map (·, 0))
  let model := max (ceilDiv (lastFinish fin * 1000) t.clock) t.floors
  let chunk := if tr then 0 else t.modelledNs 1 c ((t.inRange 1).map (·, 0))
  let slack := t.slackAlone fin
  firstOf [
    failIf (!zeroAt raw 0x34 76) 6 secTiming 0,
    failAt 6 secTiming ((List.range n).map fun i => slice raw (128 + 16 * i) 16) fun _ e => !zeroAt e 8 8,
    failIf (!clocks.contains t.clock || t.memAllowance < 64 || 1024 < t.memAllowance || t.maxInst == 0
      || (!tr && 1024 < t.maxInst)
      || (if tr then t.chunk != 0 || t.tChunk != 0
          else t.chunk % 32 != 0 || t.chunk < 32 || 8192 < t.chunk || t.tSlack != 0)
      || fld raw 0x30 4 != n || raw.length != 128 + 16 * n) 0x51 secTiming 0,
    failAt 0x50 secTiming t.tides fun i _ => t.entries.getD i (0, 0) != c.getD i (0, 0),
    failIf (t.tModel != model || t.tChunk != chunk
      || (if t.tDetect = 0 then t.tSlack != slack else t.tSlack < slack)) 0x50 secTiming 0,
    failIf (!t.bwOk) 0x52 secTiming 0]

/-! ## The policy sections on their own (R241, step 4; log 69) -/

/-- The codes of a policy record that its own section decides, in ascending order. -/
def ownCodes (t : Table) (sec i : Nat) (r : Bytes) : List (Option Failure) :=
  let on := fun (rt : Nat) (bad : Bool) (code : Nat) => failIf (fld r 0 1 == rt && bad) code sec i
  if sec = secFormats then
    [on 1 (!formatOk r) 0x62, on 1 (tRows r == 0 || tCols r == 0 || 2 ^ 48 ≤ tRows r * tCols r) 0x63,
     on 2 (!pinnedOk (t.sec secFormats) i r) 0x69, on 1 (!t.arraysOk r) 0x6A]
  else if sec = secScale then [failIf (!scaleValueOk t r) 0x70 sec i, on 2 (!groupPointsOk t r) 0x71]
  else if sec = secBuckets then
    [failIf (bucketRecBad i r) 0x80 sec i, on 2 (16 < bPhi r || bPhi r < ceilLog2 t.sampleGroups
      || !(bAKind r == 0 && -128 ≤ bAnchor r && bAnchor r ≤ 127 || bAKind r == 2 && -96 ≤ bAnchor r && bAnchor r ≤ 64)) 0x81]
  else if sec = secShoal then [failIf (t.shoalRegionBad i r) 0x78 sec i, failIf (t.shoalEntryBad i r) 0x79 sec i]
  else if sec = secMasks then [failIf (!maskAloneOk (t.sec sec) i r) 0x88 sec i]
  else if sec = secLedgers then [failIf (((t.sec sec).take i).any fun x => fld x 2 2 == fld r 2 2) 0x90 sec i]
  else if sec = secRouter then [failIf (!routerAloneOk r) 0x98 sec i]
  else if sec = secHostLayers then [failIf (!hostLayerAloneOk r) 0xA0 sec i]
  else if sec = secSurvival then [failIf (!survivalAloneOk (t.sec sec) i r) 0xA8 sec i]
  else []

/-- A policy section on its own: its records in ascending index, Reserved fields before its own codes; a "one" record that is missing,
or a SHOAL_MAP without the region that its kind of table needs (R270), is reported at index 0. -/
def checkAlone (t : Table) (sec : Nat) : Option Failure :=
  let rs := t.sec sec
  firstOf [
    firstOf (rs.zipIdx.map fun p => firstOf ([failIf (!policyReservedOk sec p.1) 6 sec p.2, failIf (orderBad rs sec p.2 p.1) 0x60 sec p.2]
      ++ ownCodes t sec p.2 p.1)),
    failIf ((t.secs.any fun p => p.1 == sec) && (oneTypes sec).any fun ty => !(rs.any fun r => fld r 0 1 == ty)) 0x60 sec 0,
    failIf (sec == secShoal && (t.recs sec (if t.isTraining then 1 else 5)).isEmpty) 0x78 sec 0]

/-! ## The whole check (R241) -/

/-- Steps 4 to 6 on a table whose framing, signatures and directory hold. -/
def checkSections (b : Bytes) (t : Table) : Option Failure :=
  firstOf [
    checkStallMap t, checkRoutes t, checkTides t (rawSection b secTides),
    firstOf (policySections.map (checkAlone t)),
    checkSlots t, checkDeclared t, checkTideCross t, checkNames t, checkFormats t, checkScale t, checkShoal t,
    checkBuckets t, checkMasks t, checkLedgers t, checkRouter t, checkHostLayers t, checkSurvival t, checkIndexes t,
    checkTiming t (rawSection b secTiming)]

/-- R241: the first failure of a table, or the table. -/
def validate (k : Signers) (b : Bytes) : Failure ⊕ Table :=
  match firstOf [checkFraming b, checkFirmware b k, checkHeaderReserved b, checkSignatures b k, checkDirectory b] with
  | some f => .inl f
  | none =>
    let t := parseTable b (match k.key (fld b 0x22 1) with | some g => g.1 | none => 0)
    match checkSections b t with
    | some f => .inl f
    | none => .inr t

end Sys2Proof.Machine
end

