-- ==== Sys2Proof/Machine/Ops.lean ====
section
/-! DEFINITION. The named operations of the block that every family shares: keyed lists, module memory, free values,
interrupts, counters, the event log, host protocol violations and completions (spec/07, R187, R201; spec/12, R356 to R366,
R378, R379; spec/13, R388 to R397). -/

namespace Sys2Proof.Machine

/-! ## Keyed lists -/

/-- The value of a key; an unlisted key reads 0. -/
def kvGet : List (Nat × Nat) → Nat → Nat
  | [], _ => 0
  | (k, v) :: rest, a => if a = k then v else kvGet rest a

/-- Replace the value of a key in a list of ascending keys; 0 removes it. -/
def kvPut : List (Nat × Nat) → Nat → Nat → List (Nat × Nat)
  | [], a, b => if b = 0 then [] else [(a, b)]
  | (k, v) :: rest, a, b =>
    if a < k then (if b = 0 then (k, v) :: rest else (a, b) :: (k, v) :: rest)
    else if a = k then (if b = 0 then rest else (a, b) :: rest)
    else (k, v) :: kvPut rest a b

/-- Add to a set held as a list without repeats. -/
def setAdd (a : Nat) (l : List Nat) : List Nat := if l.contains a then l else l ++ [a]

def setDel (a : Nat) (l : List Nat) : List Nat := l.filter (· != a)

/-- Element `i` of a list changed by `f`; an index beyond the list changes nothing. -/
def modAt {α : Type} (i : Nat) (f : α → α) : List α → List α
  | [] => []
  | x :: xs => match i with
    | 0 => f x :: xs
    | j + 1 => x :: modAt j f xs

/-! ## Module memory (log 5): cells of ascending address, no zero byte listed -/

/-- The byte at an address; an unlisted address reads 0. -/
def cellGet : List Host.Cell → Nat → Byte
  | [], _ => 0
  | (k, v) :: rest, a => if a = k then v else cellGet rest a

/-- The cells of consecutive bytes from an address on: a zero byte has none. -/
def cellsOf : Nat → Bytes → List Host.Cell
  | _, [] => []
  | a, b :: bs => if b = 0 then cellsOf (a + 1) bs else (a, b) :: cellsOf (a + 1) bs

/-- Consecutive bytes written from an address on; writing 0 removes a cell. -/
def cellsPut (cs : List Host.Cell) (a : Nat) (bs : Bytes) : List Host.Cell :=
  cs.filter (fun c => c.1 < a) ++ cellsOf a bs ++ cs.filter (fun c => a + bs.length ≤ c.1)

/-- The canonical form: addresses strictly rising and every listed byte nonzero. -/
def cellsWf : List Host.Cell → Bool
  | [] => true
  | [(_, v)] => v != 0
  | (k, v) :: (k', v') :: rest => v != 0 && k < k' && cellsWf ((k', v') :: rest)

def Mem.wf (m : Mem) : Bool := cellsWf m.cells

def Mem.byte (m : Mem) (a : Nat) : Byte := cellGet m.cells a

/-- `n` bytes from an address on (`Mem.read_eq`: byte `i` is the byte at `a + i`). -/
def Mem.read (m : Mem) (a n : Nat) : Bytes :=
  let cs := m.cells.filter fun c => a ≤ c.1 && c.1 < a + n
  (List.range n).map fun i => cellGet cs (a + i)

/-- The line number of an address. -/
def lineOf (a : Nat) : Nat := a / 64

/-- The lines that a byte range touches. -/
def linesOf (a n : Nat) : List Nat :=
  if n = 0 then [] else (List.range ((a + n - 1) / 64 + 1 - a / 64)).map (a / 64 + ·)

/-- A line that a write covers whole loses its poison (R201: a poisoned line stays so until it is rewritten). -/
def Mem.write (m : Mem) (a : Nat) (bs : Bytes) : Mem :=
  { m with cells := cellsPut m.cells a bs,
           poisoned := m.poisoned.filter fun l => !(a ≤ 64 * l && 64 * l + 64 ≤ a + bs.length) }

/-- A range set to zero: its cells leave the list, and its whole lines are valid again. -/
def Mem.zero (m : Mem) (a n : Nat) : Mem :=
  { m with cells := m.cells.filter fun c => !(a ≤ c.1 && c.1 < a + n),
           poisoned := m.poisoned.filter fun l => !(a ≤ 64 * l && 64 * l + 64 ≤ a + n) }

def Mem.poison (m : Mem) (line : Nat) : Mem := { m with poisoned := setAdd line m.poisoned }

/-- Whether a range reads a poisoned line. -/
def Mem.isPoisoned (m : Mem) (a n : Nat) : Bool := (linesOf a n).any m.poisoned.contains

/-- The access class of a page; an unlisted page is closed (R212). -/
def Mem.classOf (m : Mem) (page : Nat) : Nat := kvGet m.classes page

/-! ## Free values (log 8) -/

/-- The number of the next free value; each is used once. -/
def State.takeFree (s : State) : Nat × State := (s.freeCtr, { s with freeCtr := s.freeCtr + 1 })

/-! ## Reading the parts -/

def State.mode (s : State) : ModuleState := s.boot.mode

/-- The state of the module changes, and PREV_STATE takes the state before (R385). -/
def State.enter (m : ModuleState) (s : State) : State :=
  if s.boot.mode = m then s else s.modBoot fun b => { b with mode := m, prev := b.mode }

def State.sq (s : State) (q : Nat) : Sq := s.sqs.getD q Sq.reset
def State.cq (s : State) (q : Nat) : Cq := s.cqs.getD q Cq.reset
def State.port (s : State) (p : Nat) : Port := s.ports.getD p Port.reset
def State.stall (s : State) (i : Nat) : Stall := s.stalls.getD i Stall.reset
def State.quay (s : State) (q : Nat) : Quay := s.quays.getD q Quay.reset

def State.setSq (q : Nat) (f : Sq → Sq) (s : State) : State := s.modSqs (modAt q f)
def State.setCq (q : Nat) (f : Cq → Cq) (s : State) : State := s.modCqs (modAt q f)
def State.setPort (p : Nat) (f : Port → Port) (s : State) : State := s.modPorts (modAt p f)
def State.setStall (i : Nat) (f : Stall → Stall) (s : State) : State := s.modStalls (modAt i f)
def State.setQuay (q : Nat) (f : Quay → Quay) (s : State) : State := s.modQuays (modAt q f)

/-- The table, its pinned groups, and whether a run is in progress. -/
def State.table? (s : State) : Option Table := s.job.table
def State.pinned (s : State) : List Pinned := match s.job.table with | none => [] | some t => t.pinned
def State.inRun (s : State) : Bool := s.boot.mode == .running || s.boot.mode == .slack

/-- The step is still being computed or reduced: rows 1 and 2 of Table 6.2 are not through. -/
def State.stepOpen (s : State) : Bool := s.run.slack == .none || s.run.slack == .reducing

/-- HM_COMMITTED as software reads it. -/
def State.committedWord (s : State) : Nat := s.job.committed.getD allOnes64

/-! ## Interrupts (R378, R350) -/

/-- Signal an MSI-X vector: no message without Bus Master Enable; a masked vector sets its pending bit. -/
def State.msix (v : Nat) (s : State) : State :=
  if !s.pcie.busMaster then s
  else
    let e := s.pcie.msix.getD v ⟨0, 0, true⟩
    if e.masked then s.modPcie fun p => { p with msixPend := setAdd v p.msixPend }
    else s.emit (.msix v e.addr e.data)

/-! ## Counters and the event log (R388 to R397) -/

def evLostAt : Nat := 0x10018
def evViolationAt (c : Nat) : Nat := 0x10040 + 8 * (c - 1)
def tmAt (o : Nat) : Nat := 0x100000 + o
def tpAt (pile o : Nat) : Nat := 0x110000 + 0x100 * pile + o
def tlAt (port o : Nat) : Nat := 0x120000 + 0x100 * port + o
def ttAt (slot o : Nat) : Nat := 0x140000 + 0x40 * slot + o
def stAt (stall o : Nat) : Nat := 0x1000000 + 0x1000 * stall + o
def tsDeferredAt : Nat := 0x500020

/-- Whether an offset is that of a stall counter (R412). -/
def isStallCounter (o : Nat) : Bool := 0x1000000 ≤ o

/-- A counter after an increment: it stops at all ones and sets its SAT bit (R388). -/
def Telemetry.add (o n : Nat) (t : Telemetry) : Telemetry :=
  if allOnes64 < kvGet t.ctr o + n then { t with ctr := kvPut t.ctr o allOnes64, sat := setAdd o t.sat }
  else { t with ctr := kvPut t.ctr o (kvGet t.ctr o + n) }

/-- The increment takes the SAT bit from 0 to 1. -/
def Telemetry.saturates (o n : Nat) (t : Telemetry) : Bool := allOnes64 < kvGet t.ctr o + n && !t.sat.contains o

/-- R395. -/
def newer (a b : Nat) : Bool :=
  let d := (a + 4294967296 - b % 4294967296) % 4294967296
  0 < d && d < 2147483648

/-- A class that is not masked asserts ALERT; POWER_FAIL_COMMIT always does (R394). -/
def EventLog.alerts (l : EventLog) (code : Nat) : Bool := code == 0x0406 || !l.alertMask.getLsbD (code / 256 - 1)

/-- The next record overwrites one newer than EV_ACK (R392, R393). -/
def EventLog.overwrites (l : EventLog) : Bool := match l.ring[511]? with | none => false | some o => newer o.seq l.ack

/-- The log after a record (R392, R393). An EV_ACK more than 2^31 - 1 behind is one that stands ahead of EV_HEAD_SEQ (R395), and does
not move. -/
def EventLog.enter (r : EventRec) (l : EventLog) : EventLog :=
  let ahead := (r.seq + 4294967296 - l.ack) % 4294967296
  { l with ring := (r :: l.ring).take 512, headSeq := r.seq, spill := r :: l.spill,
           ack := if 1073741824 ≤ ahead ∧ ahead < 2147483648 then (r.seq + 4294967296 - 512) % 4294967296 else l.ack }

/-- A record for the next sequence number (R396). -/
def State.record (code kind index : Nat) (detail : Bytes) (s : State) : EventRec :=
  { seq := (s.log.headSeq + 1) % 4294967296, code := code, alerted := s.log.alerts code, srcKind := kind, srcIndex := index,
    attempt := s.job.attempt, step := s.job.step, usec := s.usec, detail := detail }

/-- The loss of an unread record, where the next record overwrites one. -/
def State.countLoss (s : State) : State := if s.log.overwrites then s.modTm (Telemetry.add evLostAt 1) else s

/-- The armed event vector, signalled once (R393). -/
def State.signalLog (s : State) : State :=
  if s.log.intEn && s.log.armed then (s.modLog fun l => { l with armed := false }).msix s.log.vector else s

/-- One record entered and signalled. -/
def State.enterRecord (code kind index : Nat) (detail : Bytes) (s : State) : State :=
  (s.countLoss.modLog (EventLog.enter (s.record code kind index detail))).signalLog

/-- The count of lost records reaches all ones with the next record. -/
def State.lossSaturates (s : State) : Bool := s.log.overwrites && s.tm.saturates evLostAt 1

/-- Detail bytes of an event: fields at their offsets in the record (Table 13.7). -/
def eventDetail (fs : List (Nat × Nat × Nat)) : Bytes := layout 32 (fs.map fun f => (f.1 - 0x20, f.2.1, f.2.2))

/-- Source kinds (Table 13.6). -/
def srcModule : Nat := 0
def srcStall : Nat := 1
def srcPile : Nat := 2
def srcPort : Nat := 3
def srcQueue : Nat := 4
def srcTensor : Nat := 5
def srcMember : Nat := 6
def srcSensor : Nat := 7
def srcHostLayer : Nat := 8
def srcBucket : Nat := 9

/-- Raise an event (R397); where its record takes EV_LOST to all ones, COUNTER_SATURATED of EV_LOST follows, whose own loss cannot
saturate it again (R388). -/
def State.raise (code kind index : Nat) (fs : List (Nat × Nat × Nat)) (s : State) : State :=
  let t := s.enterRecord code kind index (eventDetail fs)
  if s.lossSaturates then t.enterRecord 0x0901 srcModule 0xFFFF (eventDetail [(0x20, 4, evLostAt)]) else t

/-- COUNTER_SATURATED of one counter. -/
def State.saturated (o : Nat) (s : State) : State :=
  s.raise 0x0901 (if isStallCounter o then srcStall else srcModule) (if isStallCounter o then (o - 0x1000000) / 0x1000 else 0xFFFF)
    [(0x20, 4, o)]

/-- Count `n` on a counter (R388). -/
def State.count (o n : Nat) (s : State) : State :=
  if s.tm.saturates o n then (s.modTm (Telemetry.add o n)).saturated o else s.modTm (Telemetry.add o n)

/-- A module event, whose source index is 0xFFFF. -/
def State.raiseModule (code : Nat) (fs : List (Nat × Nat × Nat)) (s : State) : State := s.raise code srcModule 0xFFFF fs

/-- An event raised at most once in a step for a key (R118, R137, R216 and others). -/
def State.raiseOnce (code kind index : Nat) (fs : List (Nat × Nat × Nat)) (s : State) : State :=
  if s.run.once.contains (code, kind, index) then s
  else (s.modRun fun r => { r with once := r.once ++ [(code, kind, index)] }).raise code kind index fs

/-! ## Host protocol violations (R379) -/

/-- A violation of a class: counted, and raised at most once a millisecond for its class. -/
def State.violation (cls : Nat) (queue : Option Nat) (opcode cid addr : Nat) (s : State) : State :=
  let s := s.count (evViolationAt cls) 1
  let recent := match s.log.lastViol.find? fun p => p.1 == cls with
    | none => false
    | some p => s.usec < p.2 + 1000
  if recent then s
  else
    let s := s.modLog fun l => { l with lastViol := (cls, s.usec) :: l.lastViol.filter fun p => p.1 != cls }
    s.raise 0x0601 (match queue with | none => srcModule | some _ => srcQueue) (queue.getD 0xFFFF)
      [(0x20, 1, cls), (0x21, 1, opcode), (0x22, 2, cid), (0x28, 8, addr)]

/-! ## Completion queues (R356, R359, R360) -/

def Cq.entries (c : Cq) : Nat := 2 ^ c.log2

/-- Free entries of a CQ. -/
def Cq.room (c : Cq) : Nat := c.entries - c.posted

/-- The 32 bytes of an entry (Table 12.4). -/
def Entry.bytes (e : Entry) (sqHead : Nat) (phase : Bool) : Bytes :=
  layout 32 [(0, 8, e.r0), (8, 8, e.r1), (0x10, 4, min e.ext 0xFFFFFFFF), (0x14, 4, min e.excess 0xFFFFFFFF), (0x18, 2, sqHead),
    (0x1A, 1, e.sq), (0x1B, 1, e.kind), (0x1C, 2, e.cid), (0x1E, 1, e.status), (0x1F, 1, if phase then 1 else 0)]

/-- The CQ after one posted entry: the tail and, at its wrap, the phase (R359). -/
def Cq.advance (c : Cq) : Cq :=
  { c with tail := (c.tail + 1) % c.entries, posted := c.posted + 1,
           phase := if c.tail + 1 = c.entries then !c.phase else c.phase }

/-- The two writes of an entry: bytes 0x00 to 0x1E, and then byte 0x1F, which holds the phase (R359). -/
def State.emitEntry (q a : Nat) (b : Bytes) (s : State) : State := (s.emit (.entry q a (b.take 31))).emit (.entry q (a + 31) (b.drop 31))

/-- One entry written to the ring and its vector signalled. -/
def State.write (q : Nat) (e : Entry) (s : State) : State :=
  let c := s.cq q
  let head := if e.sq = 0xFF then 0 else (s.sq e.sq).head
  let s := (s.emitEntry q (c.base + 32 * c.tail) (e.bytes head c.phase)).setCq q Cq.advance
  if c.intEn then s.msix c.vector else s

/-- Post an entry: a disabled CQ drops it, a full CQ holds a final entry back (R356, R362). -/
def State.post (q : Nat) (e : Entry) (s : State) : State :=
  let c := s.cq q
  if !c.enable then s
  else if c.room = 0 || !c.held.isEmpty then s.setCq q fun c => { c with held := c.held ++ [e] }
  else s.write q e

/-! ## Commands (R360, R366) -/

/-- The outstanding command of a queue and command ID. -/
def State.cmd? (s : State) (sq cid : Nat) : Option Cmd := s.cmds.find? fun c => c.sq == sq && c.cid == cid

def State.setCmd (sq cid : Nat) (f : Cmd → Cmd) (s : State) : State :=
  s.modCmds fun l => l.map fun c => if c.sq = sq && c.cid = cid then f c else c

/-- The opcode of a command. -/
def Cmd.op (c : Cmd) : Nat := fld c.entry 0 1
def Cmd.isOp (op : Nat) (c : Cmd) : Bool := c.op == op

/-- Outstanding commands of an opcode, in the order of acceptance. -/
def State.cmdsOf (s : State) (op : Nat) : List Cmd := s.cmds.filter (Cmd.isOp op)

/-- Excess over the extended bound, in µs, rounded up (Table 12.4). -/
def Cmd.excess (c : Cmd) (now : Nat) : Nat := ceilDiv ((now - c.accepted) * 1000 - (c.bound + 1000 * c.ext)) 1000

/-- The final entry of an accepted command (R360, R366). -/
def State.finishCmd (c : Cmd) (st : Status) (r0 r1 : Nat) (s : State) : State :=
  let x := c.excess s.usec
  let s := s.modCmds fun l => l.filter fun d => !(d.sq == c.sq && d.cid == c.cid)
  let s := if x = 0 then s else s.count (tmAt 0x58) 1
  let s := if x = 0 then s
    else s.raise 0x0603 srcQueue c.sq [(0x20, 1, if c.broken = 0 then 5 else c.broken), (0x22, 2, c.cid), (0x28, 8, x)]
  s.post c.cq ⟨r0, r1, c.ext, x, c.sq, c.cid, 0, st.code⟩

/-- The final entry of the command of a queue and ID; nothing when it is not outstanding. -/
def State.finish (sq cid : Nat) (st : Status) (r0 r1 : Nat) (s : State) : State :=
  match s.cmd? sq cid with
  | none => s
  | some c => s.finishCmd c st r0 r1

/-- The final entries of several commands, in order. -/
def State.finishAll (l : List Cmd) (st : Status) (r0 r1 : Nat) (s : State) : State :=
  l.foldl (fun s c => s.finishCmd c st r0 r1) s

/-- The single final entry of a refused command (R360). -/
def State.refuse (sq cid : Nat) (st : Status) (r0 r1 : Nat) (s : State) : State :=
  (s.count (tmAt 0x68) 1).post (s.sq sq).cq ⟨r0, r1, 0, 0, sq, cid, 0, st.code⟩

/-- An extension granted to a command, in µs (R255, R366). -/
def State.extend (sq cid us : Nat) (s : State) : State :=
  if us = 0 then s else s.setCmd sq cid fun c => { c with ext := c.ext + us }

/-- A cause that ends the promise of the commands that `p` selects (R180, R255, R316); the first cause stands. -/
def State.endPromise (cause : Nat) (p : Cmd → Bool) (s : State) : State :=
  s.modCmds fun l => l.map fun c => if p c && c.broken = 0 then { c with broken := cause } else c

/-- A harbour fault: the second before a command completes ends its promise (R255). -/
def State.noteFault (s : State) : State :=
  (s.modCmds fun l => l.map fun c => { c with faults := c.faults + 1 }).endPromise 2 fun c => 2 ≤ c.faults

/-- Data written into the host buffer of a command, from byte `off` of the buffer on. -/
def State.toHost (sq cid off : Nat) (data : Bytes) (s : State) : State := s.emit (.commandData sq cid off data false)

end Sys2Proof.Machine
end

