-- ==== Sys2Proof/Machine/Supply.lean ====
section
/-! DEFINITION. Power domains, rated power, the DVFS and cap steps, and the thermal steps (spec/14, R414 to R417, R421 to
R426; spec/13, R402 to R404). -/

namespace Sys2Proof.Machine

/-! ## Domains (R403) -/

def rowDomain (stall : Nat) : Nat := stall / 8
def aisleDomain (h : Nat) : Nat := 32 + 3 * h
def pileIfDomain (h : Nat) : Nat := 33 + 3 * h
def opticsDomain (h : Nat) : Nat := 34 + 3 * h
def quayDomain (q : Nat) : Nat := 38 + q
def dramDomain (q : Nat) : Nat := 62 + q
def engineDomain (p : Nat) : Nat := 86 + p

/-- The hall of a Vorbiest port: ports 0 to 3 in hall 0, 4 to 7 in hall 1 (R287). -/
def portHall (p : Nat) : Nat := p / 4

/-- The domains of a list, as bits of PT_DOMAINS. -/
def domainMask (l : List Nat) : BitVec 99 := l.foldl (fun m d => m ||| BitVec.ofNat 99 (2 ^ d)) 0

/-- The INERT set (R417): the DRAM cores in self-refresh, the control die and Amrath. -/
def inertDomains : BitVec 99 := domainMask ((List.range 24).map dramDomain ++ [94, 95, 96, 97, 98])

/-- Amrath alone (STANDBY). -/
def standbyDomains : BitVec 99 := domainMask [98]

/-- The domains that the activation of a table adds to the INERT set (R417). -/
def Table.activeDomains (t : Table) : BitVec 99 :=
  domainMask ((List.range 24).map quayDomain ++ [aisleDomain 0, pileIfDomain 0, aisleDomain 1, pileIfDomain 1]
    ++ (t.stallsUsed.map rowDomain).eraseDups)

def State.powered (s : State) (d : Nat) : Bool := s.power.domains.getLsbD d

def State.switch (on : Bool) (l : List Nat) (s : State) : State :=
  s.modPower fun p => { p with domains := if on then p.domains ||| domainMask l else p.domains &&& ~~~(domainMask l) }

/-! ## Sensors (R402, R404) -/

/-- A reading in 1/16 °C. -/
def atLeast (deg : Int) (t : BitVec 16) : Bool := 16 * deg ≤ t.toInt
def atMost (deg : Int) (t : BitVec 16) : Bool := t.toInt ≤ 16 * deg

/-- Whether the domain that sensor `i` reads is on; Amrath reads sensors 35 to 37 itself. -/
def State.sensorOn (s : State) (i : Nat) : Bool :=
  if i < 2 then (List.range 16).any (fun r => s.powered (16 * i + r)) || (List.range 3).any fun k => s.powered (32 + 3 * i + k)
  else if i < 26 then s.powered (dramDomain (i - 2))
  else if i < 34 then s.powered (engineDomain (i - 26))
  else if i = 34 then s.powered 94
  else i < 38

def hotter (a b : BitVec 16) : BitVec 16 := if a.toInt < b.toInt then b else a

/-- The hottest junction of a hall: its own reading and those of the stalls of the rows that are on (R404, log 73). -/
def State.hallTemp (s : State) (h : Nat) : BitVec 16 :=
  (List.range 128).foldl (fun m k => if s.powered (rowDomain (128 * h + k)) then hotter m (s.stall (128 * h + k)).temp else m)
    (s.power.temps.getD h 0x8000)

/-- The reading of sensor `i`, 0x8000 while its domain is off. -/
def State.tempOf (s : State) (i : Nat) : BitVec 16 :=
  if !s.sensorOn i then 0x8000 else if i < 2 then s.hallTemp i else s.power.temps.getD i 0x8000

/-! ## Rated power (R414, R415), in tenths of a watt -/

/-- The clock of a DVFS code, in MHz, and the code of a clock (Table 14.6). -/
def mhzOf : Nat → Nat | 0 => 800 | 1 => 700 | 2 => 600 | 3 => 500 | _ => 400
def codeOf (mhz : Nat) : Nat := if 800 ≤ mhz then 0 else if 700 ≤ mhz then 1 else if 600 ≤ mhz then 2 else if 500 ≤ mhz then 3 else 4

/-- The row voltage of a DVFS code, in mV (Table 14.6). -/
def stepMv : Nat → Nat | 0 => 800 | 1 => 750 | 2 => 700 | 3 => 650 | _ => 600

def rowRating : Nat → Nat | 0 => 150 | 1 => 119 | 2 => 92 | 3 => 70 | _ => 53

/-- Table 14.2, stall rows at a step; a DRAM core is in self-refresh while no table is active. -/
def domainRating (active : Bool) (step d : Nat) : Nat :=
  if d < 32 then rowRating step
  else if d = 32 ∨ d = 35 then 140 else if d = 33 ∨ d = 36 then 200 else if d = 34 ∨ d = 37 then 60
  else if d < 62 then 50 else if d < 86 then (if active then 80 else 16) else if d < 94 then 30
  else if d = 94 then 50 else if d = 95 then 25 else if d = 96 then 20 else if d = 97 then 10 else 15

/-- The domains that count whether or not they are lit: the optics of a harbour's training table (R415). -/
def Table.countsOptics (t : Table) : Bool := t.isTraining && t.tDetect != 0

def ratedDomains (d : BitVec 99) (optics : Bool) : BitVec 99 :=
  if optics then d ||| domainMask ([34, 37] ++ (List.range 8).map engineDomain) else d

/-- P_rated in W of a set of domains at a step (R415). -/
def ratedWatts (d : BitVec 99) (active : Bool) (step : Nat) : Nat :=
  let sum := (List.range 99).foldl (fun a i => if d.getLsbD i then a + domainRating active step i else a) 0
  ceilDiv (40000 + 1095 * sum) 10000

def State.rated (s : State) (step : Nat) : Nat :=
  match s.job.table with
  | none => ratedWatts s.power.domains false step
  | some t => ratedWatts (ratedDomains s.power.domains t.countsOptics) true step

/-- The cap step (R424). -/
def State.capStep (s : State) : Nat := ((List.range 5).find? fun c => s.rated c ≤ s.power.cap).getD 4

/-- P_rated(f) of the active table (R425). -/
def State.ratedAtClock (s : State) : Nat :=
  match s.job.table with | none => 0 | some t => s.rated (codeOf t.clock)

/-! ## Pipeline steps (R422, R423, R426) -/

/-- The thermal step of a pipeline and when it last changed. -/
def State.thermalStep (s : State) (p : Nat) : Nat :=
  match s.power.thermal.find? fun e => e.1 == p with | none => 0 | some e => e.2.1

def State.thermalSince (s : State) (p : Nat) : Option Nat := (s.power.thermal.find? fun e => e.1 == p).map (·.2.2)

/-- The time from which the hottest stall of a pipeline has stood at 95 °C or below. -/
def State.coolSince (s : State) (p : Nat) : Option Nat := (s.power.cool.find? fun e => e.1 == p).map (·.2)

/-- A millisecond has passed since a change, where there was one (R422, R426). -/
def milliPast (since : Option Nat) (now : Nat) : Bool := match since with | none => true | some u => u + 1000 ≤ now

/-- The step at which the stalls of a pipeline run (R423). -/
def State.pipelineStep (s : State) (p : Nat) : Nat := max s.capStep (s.thermalStep p)

/-- One stall moves to a step: down at once, up when its rail has settled; a pipeline changes at most once a millisecond, and
a change that must wait is kept as the target (R422). -/
def Stall.retune (step now : Nat) (x : Stall) : Stall :=
  if step = x.dvfs then { x with target := none }
  else if x.dvfs < step && milliPast x.lastStep now then { x with dvfs := step, target := none, lastStep := some now }
  else { x with target := some step }

/-- The step whose voltage a stall needs: its own, and already the higher one to which it rises, since the rail rises first (R422). -/
def Stall.railStep (x : Stall) : Nat := match x.target with | none => x.dvfs | some k => min k x.dvfs

/-- The stalls of a row that run at a pipeline's step. -/
def State.rowStalls (s : State) (row : Nat) : List Nat :=
  match s.job.table with
  | none => []
  | some t => ((List.range 8).map (8 * row + ·)).filter fun i => (t.pipelineOf i).isSome

/-- The voltage of a stall row, in mV (R421, R422): that of the highest step among its stalls, so a fall of one pipeline leaves it while
a stall of another still needs the higher step; a row that is off has none. -/
def State.rowMv (s : State) (row : Nat) : Nat :=
  if !s.powered row then 0 else (s.rowStalls row).foldl (fun m i => max m (stepMv (s.stall i).railStep)) 0

/-- Every stall of the table follows the step of its pipeline. -/
def State.retuneStalls (s : State) : State :=
  match s.job.table with
  | none => s
  | some t => s.modStalls fun l => l.zipIdx.map fun p => match t.pipelineOf p.2 with
    | none => p.1
    | some q => p.1.retune (s.pipelineStep q) s.usec

/-- POWER_CAP_THROTTLE (R424). -/
def State.capThrottleEvent (s : State) : State :=
  s.raiseModule 0x0501 [(0x20, 2, s.power.cap), (0x24, 4, s.power.powerMw), (0x28, 1, s.capStep)]

/-- A change of the cap or of the powered domains: the cap step is recomputed, and the event raised where it falls below
800 MHz while stalls are running (R424). -/
def State.capChanged (f : State → State) (s : State) : State :=
  let before := s.capStep
  let s := (f s).retuneStalls
  if s.inRun && before = 0 && s.capStep ≠ 0 then s.capThrottleEvent else s

/-- PT_STATUS.CAP_THROTTLE: a run at a cap step below 800 MHz (R424). -/
def State.capThrottled (s : State) : Bool := s.inRun && s.capStep != 0

/-- PT_STATUS.THERMAL_THROTTLE: a pipeline below 800 MHz by its thermal step, or a halved quay (R426). -/
def State.thermalThrottled (s : State) : Bool := s.power.thermal.any (·.2.1 != 0) || !s.power.halved.isEmpty

/-- The bounded commands of R425. -/
def Cmd.bounded (c : Cmd) : Bool := c.isOp 5 || c.isOp 6

/-- A thermal reduction (a stall clock below f, or a halved quay) ends the promise of every outstanding command (R255,
R426). -/
def State.thermalReduced (s : State) : Bool :=
  !s.power.halved.isEmpty || (match s.job.table with
    | none => false
    | some t => s.power.thermal.any fun e => codeOf t.clock < e.2.1)

end Sys2Proof.Machine
end

