-- ==== Sys2Proof/Machine/Operands.lean ====
section
/-! DEFINITION. Submission entries, buffers, admission checks and bounds (spec/12, R357, R358, R361 to R366, R372 to R377;
spec/15, R462, R464, R465). -/

namespace Sys2Proof.Machine

/-! ## Fields of an entry (Tables 12.3 and 12.8) -/

def eOp (e : Bytes) : Nat := fld e 0 1
def eInModule (e : Bytes) : Bool := bit (fld e 1 1) 0
def eList (e : Bytes) : Bool := bit (fld e 1 1) 1
def eCid (e : Bytes) : Nat := fld e 2 2
def eDeadline (e : Bytes) : Nat := fld e 8 8
def ePtr (e : Bytes) : Nat := fld e 0x10 8
def eLen (e : Bytes) : Nat := fld e 0x18 8

def eKind (e : Bytes) : Nat := fld e 0x20 1
/-- Sample group, or request tag. -/
def eGroup (e : Bytes) : Nat := fld e 0x24 4
def eStep (e : Bytes) : Nat := fld e 0x28 8
def eSteps (e : Bytes) : Nat := fld e 0x20 8
def eOutput (e : Bytes) : Nat := fld e 0x20 8
def eTokens (e : Bytes) : Nat := fld e 0x28 4
def eStop (e : Bytes) : Nat := fld e 0x2C 4
def eSeed (e : Bytes) : Nat := fld e 0x30 8
def eSample (e : Bytes) : Bool := bit (fld e 0x38 1) 0
def eDest (e : Bytes) : Nat := fld e 0x20 1
def eSource (e : Bytes) : Nat := fld e 0x20 1
def ePort (e : Bytes) : Nat := fld e 0x21 1
def eDonor (e : Bytes) : Nat := fld e 0x22 2
def eTmOffset (e : Bytes) : Nat := fld e 0x20 8
def eTmBytes (e : Bytes) : Nat := fld e 0x28 4
def eScope (e : Bytes) : Nat := fld e 0x20 1
def eTest (e : Bytes) : Nat := fld e 0x22 2
def eTarget (e : Bytes) : Nat := fld e 0x24 4
def eWatts (e : Bytes) : Nat := fld e 0x20 2
def eNonce (e : Bytes) : Bytes := slice e 0x20 32
def eSlot (e : Bytes) : Nat := fld e 0x20 1
def eFirstSeq (e : Bytes) : Nat := fld e 0x20 8
def eJournal (e : Bytes) : Nat := fld e 0x28 1

/-- The opcodes of Table 12.8. -/
def opIdentify : Nat := 0x01
def opLoad : Nat := 0x02
def opUnload : Nat := 0x03
def opFeed : Nat := 0x04
def opRun : Nat := 0x05
def opServe : Nat := 0x06
def opHalt : Nat := 0x07
def opSnapshot : Nat := 0x08
def opRestore : Nat := 0x09
def opJoin : Nat := 0x0A
def opLeave : Nat := 0x0B
def opTelemetry : Nat := 0x0C
def opTest : Nat := 0x0D
def opCap : Nat := 0x0E
def opAttest : Nat := 0x0F
def opEnrol : Nat := 0x10
def opPatch : Nat := 0x11
def opExport : Nat := 0x12

/-- The command fields that Table 12.8 names, as (offset, size); every other byte is Reserved. -/
def namedFields (op : Nat) : List (Nat × Nat) :=
  [(0, 4), (8, 24)] ++
    (if op = opFeed then [(0x20, 1), (0x24, 4), (0x28, 8)]
    else if op = opRun then [(0x20, 8)]
    else if op = opServe then [(0x20, 8), (0x28, 4), (0x2C, 4), (0x30, 8), (0x38, 1)]
    else if op = opSnapshot then [(0x20, 1)]
    else if op = opRestore then [(0x20, 1), (0x21, 1), (0x22, 2)]
    else if op = opTelemetry then [(0x20, 8), (0x28, 4)]
    else if op = opTest then [(0x20, 1), (0x22, 2), (0x24, 4)]
    else if op = opCap then [(0x20, 2)]
    else if op = opAttest then [(0x20, 32)]
    else if op = opEnrol then [(0x20, 1)]
    else if op = opExport then [(0x20, 8), (0x28, 1)]
    else [])

/-! ## Tests (Table 15.8) -/

/-- Duration in ns at 800 MHz, and the number of signature entries; `none` for a test or target that the table does not
list. -/
def testInfo (scope test target : Nat) : Option (Nat × Nat) :=
  match scope, test with
  | 1, 0x0001 => if target < 256 then some (1800000, 1) else none
  | 1, 0x0002 => if target < 256 then some (600000, 1) else none
  | 1, 0x0003 => if target < 256 then some (200000, 1) else none
  | 2, 0x0101 => if target < 8 then some (5000000, 1) else none
  | 2, 0x0102 => if target < 8 then some (1000000, 1) else none
  | 3, 0x0201 => if target < 24 then some (1400000000, 1) else none
  | 3, 0x0202 => if target < 24 then some (3000000, 1) else none
  | 4, 0x0301 => if target = 0 then some (1500000000, 562) else none
  | _, _ => none

/-- The duration of a test at the cap step of the moment (R462). -/
def State.testNs (s : State) (scope test target : Nat) : Nat :=
  match testInfo scope test target with
  | none => 0
  | some d =>
    if scope = 1 then ceilDiv (d.1 * 800) (mhzOf s.capStep) + (if s.powered (rowDomain target) then 0 else 50000)
    else d.1

/-! ## Check 1: the entry itself (R361) -/

/-- An unknown opcode, or a Reserved bit or byte that is not zero: violation class 5 (Table 12.11). -/
def entryKnown (e : Bytes) : Bool :=
  1 ≤ eOp e && eOp e ≤ 0x12 && fld e 1 1 < 4 && reservedClear e (namedFields (eOp e))
    && (eOp e != opServe || fld e 0x38 1 < 2)

/-- Every command field within the values of Table 12.8. -/
def fieldsOk (e : Bytes) : Bool :=
  let op := eOp e
  if op = opFeed then eKind e == 1 || eKind e == 2
  else if op = opRun then 1 ≤ eSteps e && eSteps e ≤ 4294967296
  else if op = opServe then 1 ≤ eTokens e
  else if op = opSnapshot then eDest e ≤ 1
  else if op = opRestore then
    match eSource e with
    | 0 => ePort e == 0xFF && eDonor e == 0xFFFF
    | 1 => ePort e ≤ 7 && eDonor e == 0xFFFF
    | 2 => ePort e ≤ 7
    | _ => false
  else if op = opTelemetry then eTmOffset e % 8 == 0 && eTmBytes e % 8 == 0 && eTmBytes e ≤ 65536
  else if op = opTest then (testInfo (eScope e) (eTest e) (eTarget e)).isSome
  else if op = opCap then 400 ≤ eWatts e && eWatts e ≤ 1000
  else if op = opEnrol then eSlot e ≤ 3
  else if op = opExport then eJournal e ≤ 1
  else true

/-! ## Check 2: state and table (Table 12.6) -/

/-- Every state but STANDBY and BOOTING. -/
def ModuleState.answers : ModuleState → Bool
  | .standby | .booting => false
  | _ => true

/-- CONFIGURED, RUNNING, SLACK. -/
def ModuleState.jobState (m : ModuleState) : Bool := m == .configured || m == .running || m == .slack

/-- A gradient tensor without γ, or a lost history: the next step needs a probe step first (R69). -/
def State.needsProbe (s : State) : Bool := s.job.historyLost || s.job.scale.hists.any fun h => h.gamma.isNone

/-- Whether a training, or a serving, table is active. -/
def State.trainingTable (s : State) : Bool := match s.job.table with | none => false | some t => t.isTraining
def State.servingTable (s : State) : Bool := match s.job.table with | none => false | some t => !t.isTraining

/-- A run may start under the cap (R425). -/
def State.capAllows (s : State) : Bool := s.ratedAtClock ≤ s.power.cap

/-- G at most Gmax, outside a harbour (R153, R370). -/
def State.groupsFit (s : State) : Bool :=
  s.harbour.joined || (match s.job.table with | none => false | some t => t.sampleGroups ≤ t.maxInst)

/-- Every completion queue that the table's host layers name is enabled (R281). -/
def State.hostQueuesOn (s : State) : Bool :=
  match s.job.table with | none => true | some t => (t.sec secHostLayers).all fun r => (s.cq (fld r 2 1)).enable

/-- A port that RESTORE may not name (R341). -/
def Port.unusable (p : Port) : Bool := p.state == 4 || p.failed

def stateOk (s : State) (e : Bytes) : Bool :=
  let m := s.mode
  let op := eOp e
  let joined := s.harbour.joined
  if op = opIdentify || op = opTelemetry || op = opAttest || op = opCap then m.answers
  else if m == .testing then true
  else if op = opLoad then (m == .inert || m == .configured) && !joined
  else if op = opUnload then (m == .configured && !joined) || m == .faulted
  else if op = opFeed then
    if eKind e = 1 then m.jobState && s.trainingTable && s.job.dataPos ≤ eStep e
      && !(s.job.batches.any fun b => b.step == eStep e && b.group == eGroup e)
      && !((s.cmdsOf opFeed).any fun c => eKind c.entry == 1 && eStep c.entry == eStep e && eGroup c.entry == eGroup e)
    else s.inRun
  else if op = opRun then m.jobState && s.trainingTable && s.groupsFit && s.capAllows && s.hostQueuesOn
  else if op = opServe then (m == .configured || m == .running) && s.servingTable && s.capAllows && s.hostQueuesOn
  else if op = opHalt then m.jobState
  else if op = opSnapshot then m.jobState && s.trainingTable
  else if op = opRestore then
    m == .configured && !joined && s.trainingTable && (eSource e == 0 || !(s.port (ePort e)).unusable)
  else if op = opJoin then
    m == .configured && !joined && (match s.job.table with | none => false | some t => t.isTraining && t.tDetect != 0)
  else if op = opLeave then (m.jobState || m == .quarantined) && joined
  else if op = opTest then
    if 3 ≤ eScope e then m == .inert || s.inRun
    else (m == .inert || m.jobState || m == .faulted || m == .quarantined)
      && !(eTest e == 0x0101 && (s.port (eTarget e)).role != 0)
  else if op = opEnrol || op = opPatch then m == .inert
  else m == .inert || m.jobState || m == .faulted || m == .quarantined

/-! ## Check 3: exclusion and concurrency (Table 12.6) -/

/-- An outstanding LOAD_TIDE_TABLE, JOIN_HARBOUR or RESTORE, or TESTING. -/
def State.exclusive (s : State) : Bool :=
  s.mode == .testing || s.cmds.any fun c => c.isOp opLoad || c.isOp opJoin || c.isOp opRestore

/-- A snapshot drains: its last fragment has not been taken yet (R337, R340). -/
def State.drains (s : State) : Bool := s.snap.draining && !s.snap.recordDue

/-- The slots of a serving table that are occupied or promised (R373): the requests that hold or await a slot, and the
accepted SERVE commands not yet taken up. -/
def State.slotsTaken (s : State) : Nat :=
  s.run.serves.length + ((s.cmdsOf opServe).filter fun c => !c.started).length

def busy (s : State) (e : Bytes) : Bool :=
  let op := eOp e
  if op = opIdentify || op = opTelemetry || op = opAttest then false
  else if op = opCap then (s.cmdsOf opCap).any fun c => !c.deferred
  else s.exclusive ||
    (if op = opLoad || op = opUnload || op = opRestore || op = opJoin then s.drains
    else if op = opFeed then eKind e == 1 && (s.job.dataPos + 63 < eStep e || 4096 ≤ s.job.batches.length)
    else if op = opRun then 2 ≤ (s.cmdsOf opRun).length
    else if op = opServe then (match s.job.table with | none => true | some t => t.maxInst ≤ s.slotsTaken)
    else if op = opTest then 3 ≤ eScope e && s.inRun
    else if op = opExport then !(s.cmdsOf opExport).isEmpty
    else false)

/-! ## Check 4: buffers and lengths (R358, R365) -/

/-- The running sum of a scatter list reaches exactly the data length; only the last length may be no multiple of 64. -/
def sgOk : List SgElem → Nat → Bool
  | [], n => n == 0
  | [x], n => x.addr % 64 == 0 && 1 ≤ x.len && x.len == n
  | x :: rest, n => x.addr % 64 == 0 && 1 ≤ x.len && x.len % 64 == 0 && x.len < n && sgOk rest (n - x.len)

/-- A data buffer as R358 allows it; a buffer of no bytes has no pointer. -/
def bufferOk (m : Mem) (e : Bytes) (sgl : List SgElem) : Bool :=
  if eLen e = 0 then ePtr e == 0 && fld e 1 1 == 0
  else if eInModule e then
    !eList e && (eOp e == opFeed || eOp e == opLoad || eOp e == opRestore) && ePtr e % 64 == 0 && eLen e % 64 == 0
      && ePtr e + eLen e ≤ Config.memoryEnd && (pagesOf (ePtr e) (eLen e)).all fun g => m.classOf g == 3
  else if eList e then 1 ≤ sgl.length && sgl.length ≤ 65536 && sgOk sgl (eLen e)
  else ePtr e % 64 == 0

/-- The forward area of a HOST_LAYERS record in the host-layer buffer: its largest request, in whole 4 KiB (R281, R374). -/
def areaBytes (r : Bytes) : Nat := roundUp (fld r 0x10 8) 4096

/-- The backward area of a record, where its layer has a backward (R281). -/
def backAreaBytes (r : Bytes) : Nat := if bit (fld r 3 1) 0 then areaBytes r else 0

def Table.hostLayerBytes (t : Table) : Nat := (t.sec secHostLayers).foldl (fun a r => a + areaBytes r + backAreaBytes r) 0

/-- The rows of a serving slot's key cache (R372). -/
def Table.keyRows (t : Table) : Nat := match t.tensors.find? fun r => tKind r == kKey with | none => 0 | some r => tRows r

/-- The open host-layer request of a tag. -/
def State.hostReq? (s : State) (tag : Nat) : Option HostReq := s.run.hostReqs.find? fun r => r.tag == tag

/-- The least data length of a command, where it takes data (R365, R374, R461, R464). -/
def needBytes (s : State) (e : Bytes) : Option Nat :=
  let op := eOp e
  let t := s.job.table
  if op = opIdentify then some 4096
  else if op = opLoad || op = opFeed || op = opEnrol || op = opPatch || op = opExport then some 1
  else if op = opRun then (match t with | none => none | some t => if t.hostLayerBytes = 0 then none else some t.hostLayerBytes)
  else if op = opServe then some (max 4 (match t with | none => 0 | some t => t.hostLayerBytes))
  else if op = opSnapshot then (if eDest e = 0 then some (match t with | none => 1 | some t => t.imageBytes) else none)
  else if op = opRestore then (if eSource e = 0 then some 1 else none)
  else if op = opJoin then some 128
  else if op = opTelemetry then some (eTmBytes e)
  else if op = opTest then some (32 * ((testInfo (eScope e) (eTest e) (eTarget e)).map (·.2)).getD 0)
  else if op = opAttest then some 3904
  else none

def buffersOk (s : State) (p : Placed) : Bool :=
  let e := p.entry
  let op := eOp e
  (match needBytes s e with
    | none => eLen e == 0 && ePtr e == 0 && fld e 1 1 == 0
    | some n => n ≤ eLen e && bufferOk s.mem e p.sgl)
  && (if op = opFeed then
        if eKind e = 1 then (match s.job.table with | none => false | some t => eGroup e < t.sampleGroups)
        else (match s.hostReq? (eGroup e) with | none => false | some r => eLen e == r.bytes)
      else if op = opServe then
        eLen e % 4 == 0 && eOutput e % 64 == 0
          && (match s.job.table with | none => false | some t => eLen e / 4 + eTokens e ≤ t.keyRows)
      else if op = opJoin then eLen e == 128
      else true)

/-! ## Bounds (Table 12.7) -/

/-- bytes / ρ in ns: 4 GB/s at 32 GT/s and x4, in proportion to the trained speed and width (R362). -/
def Pcie.hostNs (p : Pcie) (bytes : Nat) : Nat := ceilDiv (bytes * 320) (max 1 (p.rate * p.lanes))

/-- What is left of a command's bound, extensions included, in ns. -/
def Cmd.leftNs (c : Cmd) (now : Nat) : Nat := c.bound + 1000 * c.ext - 1000 * (now - c.accepted)

/-- A run is in progress or accepted. -/
def State.runDue (s : State) : Bool := s.inRun || !(s.cmdsOf opRun).isEmpty || !(s.cmdsOf opServe).isEmpty

/-- A SET_POWER_CAP that must wait (R425). -/
def State.capDeferred (s : State) (watts : Nat) : Bool := s.cmds.any Cmd.bounded && watts < s.ratedAtClock

/-- A RUN_TEST that must wait for slack water (R377). -/
def State.testDeferred (s : State) (e : Bytes) : Bool := eScope e ≤ 2 && s.inRun

/-- Bytes of the pages that hold masters, moments and ledgers, and codes of untrained and frozen weights: the transfer set
(R278, R343). -/
def Table.transferPages (t : Table) : List Nat :=
  (t.tensors.flatMap fun x =>
    if tKind x != kWeight then []
    else
      let n := tTiles x
      let opt := fun (a z : Nat) => if a = noAddr then [] else dealtRanges a n z
      let state := opt (tMaster x) 2048 ++ opt (tM1 x) 2048 ++ opt (tM2 x) 2048
        ++ (match t.ledgerRec (tNum x) with | none => [] | some l => dealtRanges (fld l 8 8) n 32)
      (state ++ (if tTrained x && !t.frozen (tNum x) then [] else t.arrays x)).flatMap fun a => pagesOf a.1 a.2).eraseDups

/-- Bytes that UNLOAD zeroes. -/
def Table.pageBytes (t : Table) : Nat := t.pageClasses.length * pageSize

/-- UNLOAD erases the own journal, the partner journal and the snapshot store: all of the flash but its device area (R323,
R324). -/
def flashEraseNs : Nat := (Config.flashMiB - Config.flashDeviceMiB) / 1024 * 4000000

def State.bound (s : State) (p : Placed) : Nat :=
  let e := p.entry
  let op := eOp e
  let host := s.pcie.hostNs (eLen e)
  let step := match s.job.table with | none => 0 | some t => t.tStep
  let detect := match s.job.table with | none => 0 | some t => t.tDetect
  let slack := match s.job.table with | none => 0 | some t => t.tSlack
  if op = opIdentify then 1000000
  else if op = opLoad then loadBound (eLen e) + host
  else if op = opUnload then
    10000000 + (match s.job.table with | none => 0 | some t => ceilDiv (t.pageBytes * 100000) 1073741824) + flashEraseNs
  else if op = opFeed then 1000000 + host
  else if op = opRun then
    match s.job.table with
    | none => 0
    | some t => match s.cmdsOf opRun with
      | [] => t.runBound (eSteps e) s.needsProbe
      | c :: _ => t.runBound (eSteps e) false + c.leftNs s.usec
  else if op = opServe then
    match s.job.table with
    | none => 0
    | some t => t.serveBound (ceilDiv (eLen e / 4) (max 1 t.chunk)) (eTokens e)
  else if op = opHalt then
    if s.runDue then 100000 + (if s.servingTable then (match s.job.table with | none => 0 | some t => t.tModel) else step + detect)
    else 100000
  else if op = opSnapshot then 100000 + 2 * step + 2 * (match s.job.table with | none => 0 | some t => t.drainNs)
  else if op = opRestore then
    match eSource e with
    | 0 => 10000000 + host + slack
    | 1 => 110000000 + (match s.job.table with | none => 0 | some t => ceilDiv t.imageBytes 8) + slack
    | _ => 105000000 + (match s.job.table with | none => 0 | some t => ceilDiv (t.transferPages.length * pageSize) 12) + 3 * step
  else if op = opJoin then fld p.block 0xC 2 * 1000000000 + 100000000
  else if op = opLeave then (if s.runDue then 100000 + step + detect else 1000000)
  else if op = opTelemetry then 10000000 + s.pcie.hostNs (eTmBytes e)
  else if op = opTest then
    s.testNs (eScope e) (eTest e) (eTarget e)
      + (s.test.queue.foldl (fun a r => a + s.testNs r.scope r.test r.target) 0)
      + (((s.cmdsOf opTest).filter fun c => !c.started).foldl (fun a c => a + s.testNs (eScope c.entry) (eTest c.entry) (eTarget c.entry)) 0)
      + (if s.testDeferred e then step else 0)
  else if op = opCap then
    10000000 + (if s.capDeferred (eWatts e) then s.cmds.foldl (fun m c => max m (c.leftNs s.usec)) 0 else 0)
  else if op = opAttest then 50000000
  else if op = opEnrol then 500000000
  else if op = opPatch then 2000000000 + host
  else 10000000 + host

/-! ## Admission (R360, R361) -/

/-- The first failing check of Table 12.5, or acceptance. -/
inductive Verdict where
  | refuse (st : Status)
  | late (bound : Nat)
  | accept (bound : Nat)
deriving DecidableEq, Repr

def admission (s : State) (q : Nat) (p : Placed) : Verdict :=
  let e := p.entry
  if !entryKnown e || !fieldsOk e || (s.cmd? q (eCid e)).isSome then .refuse .malformed
  else if !stateOk s e then .refuse .refusedState
  else if busy s e then .refuse .busy
  else if !buffersOk s p then .refuse .malformed
  else
    let b := s.bound p
    if eDeadline e != 0 && eDeadline e < b then .late b else .accept b

/-- Whether an accepted command is acknowledged with DEFERRED (R377). -/
def State.defers (s : State) (e : Bytes) : Bool :=
  (eOp e == opTest && s.testDeferred e) || (eOp e == opCap && s.capDeferred (eWatts e))

/-- An accepted command: its record, the counter and the acceptance entry (R360). -/
def State.accept (q : Nat) (p : Placed) (b : Nat) (s : State) : State :=
  let e := p.entry
  let d := s.defers e
  let c := (s.sq q).cq
  let s := s.modCmds fun l => l ++ [⟨q, c, eCid e, e, p.sgl, s.usec, b, 0, d, if s.thermalReduced then 3 else 0, 0, false⟩]
  (s.count (tmAt 0x60) 1).post c ⟨b, s.usec, 0, 0, q, eCid e, 1, if d then 5 else 0⟩

/-- Violations that admission reports: class 5 for an unknown entry, class 8 for a FEED that answers no open request. -/
def State.entryViolations (q : Nat) (p : Placed) (s : State) : State :=
  let e := p.entry
  if !entryKnown e then s.violation 5 (some q) (eOp e) (eCid e) 0
  else if eOp e = opFeed && eKind e = 2 && fieldsOk e && (s.cmd? q (eCid e)).isNone && stateOk s e && !busy s e
      && (s.hostReq? (eGroup e)).isNone then s.violation 8 (some q) (eOp e) (eCid e) 0
  else s

/-- One fetched entry admitted or refused. The refusal of a SNAPSHOT for its length reports the bytes needed (Table 12.8). -/
def State.admitEntry (q : Nat) (p : Placed) (s : State) : State :=
  let e := p.entry
  match admission s q p with
  | .accept b => s.accept q p b
  | .late b =>
    (s.raise 0x0602 srcQueue q [(0x22, 2, eCid e), (0x28, 8, eDeadline e), (0x30, 8, b)]).refuse q (eCid e) .refusedDeadline 0 0
  | .refuse st =>
    let need := if eOp e = opSnapshot && st = .malformed && entryKnown e && fieldsOk e && (s.cmd? q (eCid e)).isNone
      then (needBytes s e).getD 0 else 0
    let need := if need ≤ eLen e then 0 else need
    (s.entryViolations q p).refuse q (eCid e) st need 0

/-! ## Fetching (R356) -/

/-- The entry that an SQ would fetch next. -/
def Sq.next? (x : Sq) : Option Placed := if x.enable && x.head != x.tail then x.ring.head? else none

def Sq.entries (x : Sq) : Nat := 2 ^ x.log2

/-- A CQ that takes both entries of a command. -/
def State.cqRoom (s : State) (c : Nat) : Bool := (s.cq c).enable && 2 ≤ (s.cq c).room && (s.cq c).held.isEmpty

/-- Whether an SQ may fetch: its CQ has room for both entries of a command. -/
def State.mayFetch (s : State) (q : Nat) : Bool :=
  let x := s.sq q
  x.next?.isSome && s.cqRoom x.cq

/-- The next SQ that may fetch, round robin from the turn on. -/
def State.fetchFrom (s : State) : Option Nat :=
  ((List.range 16).map fun k => (s.sqTurn + k) % 16).find? fun q => s.mayFetch q

def State.fetchOne (s : State) : Option State :=
  match s.fetchFrom with
  | none => none
  | some q => match (s.sq q).next? with
    | none => none
    | some p =>
      let s := s.setSq q fun x => { x with head := (x.head + 1) % x.entries, ring := x.ring.drop 1 }
      some ({ s with sqTurn := (q + 1) % 16 }.admitEntry q p)

/-- Fetching goes on while an SQ may fetch; `fuel` is the number of entries placed. -/
def State.fetchLoop : Nat → State → State
  | 0, s => s
  | n + 1, s => match s.fetchOne with | none => s | some s' => s'.fetchLoop n

/-- SQ_STATUS.FETCH_BLOCKED: an entry waits for space in the CQ. -/
def State.markBlocked (s : State) : State :=
  s.modSqs fun l => l.map fun x =>
    { x with blocked := x.next?.isSome && !s.cqRoom x.cq }

def State.fetch (s : State) : State :=
  if !s.pcie.busMaster then s
  else (s.fetchLoop (s.sqs.foldl (fun a x => a + x.ring.length) 0)).markBlocked

end Sys2Proof.Machine
end

