-- ==== Sys2Proof/Machine/Optimizer.lean ====
section
/-! DEFINITION. The arithmetic of the quay's units at slack water: the chandler, the requantizer, ledgers, split pieces and
the linear digests (spec/07, R205 to R210; spec/03, R102, R105; spec/10, R306). -/

namespace Sys2Proof.Machine

/-! ## The chandler (R205, R206) -/

structure StepConsts where
  c1 : Val
  c2 : Val
  inv1 : Val
  inv2 : Val
  eta : Val
deriving DecidableEq, Repr

/-- The learning rate at count `t`: geometric between schedule points. -/
def etaAt : List (Nat × Val) → Nat → Val
  | [], _ => .zero
  | [a], _ => a.2
  | a :: b :: rest, t =>
    if b.1 ≤ t then etaAt (b :: rest) t
    else match a.2.k?, b.2.k? with
      | some ka, some kb => .num false (ka + floorDiv (((t : Int) - a.1) * (kb - ka)) (b.1 - a.1))
      | _, _ => a.2

def stepConsts (g : OptGroup) (t : Nat) : StepConsts :=
  { c1 := logSub .one g.beta1, c2 := logSub .one g.beta2,
    inv1 := laneRecip (logSub .one (lanePow t g.beta1)), inv2 := laneRecip (logSub .one (lanePow t g.beta2)),
    eta := etaAt g.points t }

def narrowL16 (v : Val) : Nat := (narrow .l16 0 none v).1

/-- One parameter: master, moments and reduced G16 value (`none` is NaR) to master and moments. -/
def chandler (c : StepConsts) (g : OptGroup) (lam gamma : Int) (w m1 m2 : Nat) (q : Option Int) : Nat × Nat × Nat :=
  let gr := laneScale (-lam) (g16ToL19 gamma q)
  let w := l16 w
  let m1 := logAdd (laneMul g.beta1 (l16 m1)) (laneMul c.c1 gr)
  let m2 := logAdd (laneMul g.beta2 (l16 m2)) (laneMul c.c2 (laneMul gr gr))
  let den := logAdd (laneSqrt (laneMul m2 c.inv2)) g.eps
  let u := laneDiv (laneMul m1 c.inv1) den
  let u := if g.decay.isZero then u else logAdd u (laneMul g.decay w)
  let w := logSub w (laneMul c.eta u)
  (narrowL16 w, narrowL16 m1, narrowL16 m2)

/-! ## The crossed mask (R209) -/

/-- |k| of a value; zero ranks lowest. -/
def rankK : Val → Option Int := Val.k?

/-- One candidate element of a group of 8 × 8: magnitude, input, output. -/
def crossLt (a b : Int × Nat × Nat) : Bool :=
  b.1 < a.1 || (a.1 == b.1 && (a.2.1 < b.2.1 || (a.2.1 == b.2.1 && a.2.2 < b.2.2)))

/-- The kept elements (input, output) of one group whose first input and output are `i0` and `o0` of the tile. -/
def crossedGroup (tile : List Val) (i0 o0 : Nat) : List (Nat × Nat) :=
  let es := (List.range 8).flatMap fun i => (List.range 8).filterMap fun o =>
    (tile.getD (32 * (o0 + o) + i0 + i) .zero).k?.map fun k => (k, i, o)
  ((sortBy crossLt es).foldl (fun (acc : List (Nat × Nat)) e =>
    if (acc.countP fun p => p.1 == e.2.1) < 4 && (acc.countP fun p => p.2 == e.2.2) < 4 then acc ++ [(e.2.1, e.2.2)] else acc) []).map
    fun p => (i0 + p.1, o0 + p.2)

/-- The kept elements of a tile, by element number 32 j + i. -/
def crossedMask (tile : List Val) : List Nat :=
  (List.range 16).flatMap fun g => (crossedGroup tile (8 * (g % 4)) (8 * (g / 4))).map fun p => 32 * p.2 + p.1

/-- The compressed unit of 32 codes with its marks (R105, R209: a kept element whose code is zero stays marked). -/
def markedUnit (f : Fmt) (cs : List (Nat × Bool)) : Bytes :=
  let gs := (List.range 4).map fun g => (cs.drop (8 * g)).take 8
  let masks := gs.map fun g => BitVec.ofNat 8 (g.zipIdx.foldl (fun m c => if c.1.2 then m + 2 ^ c.2 else m) 0)
  let slots := gs.flatMap fun g =>
    let live := (g.filter (·.2)).map (·.1)
    (live ++ List.replicate (4 - live.length) 0).take 4
  masks ++ packCodes f slots

/-! ## Ledgers (R210) -/

def buildLedger (tile : List Nat) : List Nat :=
  let nz := sortBy (fun a b => decide ((l16 a).key < (l16 b).key)) (tile.filter fun c => !(l16 c).isZero)
  if nz.isEmpty then 0 :: List.replicate 15 0x4000
  else 0 :: (List.range 15).map fun j => nz.getD ((2 * (j + 1) - 1) * nz.length / 30) 0

/-- The magnitude rank of a distance: zero below every k. -/
def distLt (a b : Val) : Bool :=
  match a.k?, b.k? with
  | none, some _ => true
  | some x, some y => x < y
  | _, none => false

def ledgerIndex (ledger : List Nat) (w : Nat) : Nat :=
  if (l16 w).isZero then 0
  else
    let ds := (ledger.drop 1).map fun e => logSub (l16 w) (l16 e)
    (ds.zipIdx.foldl (fun (best : Nat × Val) d => if distLt d.1 best.2 then (d.2 + 1, d.1) else best) (1, ds.headD .zero)).1

/-! ## Requantizing one tile (R48, R102, R208) -/

/-- What the requantizer writes of one piece of a tile: the scale code and the 1,024 codes in element order. -/
structure TileCodes where
  s8 : Int
  codes : List Nat
deriving DecidableEq, Repr

/-- One piece: σ over the whole tile (R48), then every element with its draw; elements outside `kept` are zero. -/
def tileCodes (f : Fmt) (draws : Draws) (kept : Option (List Nat)) (vs : List Val) : TileCodes :=
  let s8 := scaleOf f vs
  ⟨s8, vs.zipIdx.map fun p =>
    if match kept with | some k => !k.contains p.2 | none => false then 0
    else if s8 = -128 && f.isBlock then 0 else (narrow f s8 (drawAt draws p.2) p.1).1⟩

/-- The pieces of a split weight: each takes the residual that the pieces before it leave (R102). -/
def splitPieces (f : Fmt) (draws : Nat → Draws) : Nat → Nat → List Val → List TileCodes
  | 0, _, _ => []
  | n + 1, k, vs =>
    let p := tileCodes f (draws k) none vs
    let r := List.zipWith (fun v c => logSub v (decodeLog f p.s8 c)) vs p.codes
    p :: splitPieces f draws n (k + 1) r

/-- The stored bytes of the codes of one tile in one order: forward order holds the 32 inputs of output `j`, transposed order
the 32 outputs of input `i` (Table 9.5). -/
def tileBytes (f : Fmt) (sparse : Option (List Nat)) (transposed : Bool) (c : TileCodes) : Bytes :=
  (List.range 32).flatMap fun line =>
    let es := (List.range 32).map fun x => if transposed then 32 * x + line else 32 * line + x
    match sparse with
    | none => packCodes f (es.map fun e => c.codes.getD e 0)
    | some k => markedUnit f (es.map fun e => (c.codes.getD e 0, k.contains e))

/-- The 64 scale bytes of a tile. -/
def tileScales (c : TileCodes) : Bytes := List.replicate 64 (BitVec.ofNat 8 (byteOfS8 c.s8))

/-! ## Linear digests (R306) -/

def m61 : Nat := 2305843009213693951
def dseed : Nat := 0x4C444731

/-- One term of a digest: value (an integer) at an index under a tag. -/
def digestTerm (tag index : Nat) (v : Int) : Nat := (v % (m61 : Int)).toNat * (draw dseed tag 0 index + 1) % m61

/-- A digest over values at given indices. -/
def digestOf (tag : Nat) (vs : List (Nat × Int)) : Nat := vs.foldl (fun d p => (d + digestTerm tag p.1 p.2) % m61) 0

def linearDigest (tag first : Nat) (vs : List Int) : Nat := digestOf tag (vs.zipIdx.map fun p => (first + p.2, p.1))

/-- A G16 value as digests read it: a signed integer, NaR as its code. -/
def g16Signed (v : Option Int) : Int := v.getD (-32768)

end Sys2Proof.Machine
end

