-- ==== Sys2Proof/Machine/Flits.lean ====
section
/-! DEFINITION. What goes over a Vorbiest port, byte by byte: control records, bucket frames, census parts, and the flits that carry
them (spec/10, R289 to R292, R302, R305, R313, Tables 10.1, 10.2, 10.7, 10.8, 10.10, 10.11; log 34). -/

namespace Sys2Proof.Machine

/-! ## Control records (Table 10.2) -/

def helloWire (h : Hello) : Bytes :=
  [1] ++ toLe 1 h.port ++ toLe 1 h.topology ++ toLe 1 h.feedId ++ toLe 2 h.rank ++ toLe 2 h.x ++ toLe 2 h.y ++ toLe 2 h.z
    ++ toLe 1 (flag h.partner 0 + flag h.restore 1) ++ toLe 8 h.harbourId ++ fit 48 h.digest ++ fit 16 h.identity

def progressWire (r : Progress) : Bytes :=
  [2] ++ toLe 1 (flag r.dataWait 0 + flag r.commandWait 1 + flag r.halted 2 + flag r.decided 3) ++ toLe 2 r.attempt ++ toLe 2 r.rank
    ++ zeros 2 ++ toLe 8 r.step ++ toLe 8 r.count ++ toLe 8 r.wait

def nakWire (expected : Nat) : Bytes := [3, 0] ++ toLe 2 expected

def ejectWire (e : EjectRec) : Bytes :=
  [4] ++ toLe 1 e.reason ++ toLe 2 e.accused ++ toLe 2 e.accuser ++ zeros 2 ++ toLe 8 e.step ++ toLe 2 e.attempt

def faultWire (f : FaultRec) : Bytes := [5] ++ toLe 1 f.reason ++ toLe 2 f.rank ++ zeros 4 ++ toLe 8 f.step

def leaveWire (rank : Nat) : Bytes := [6, 0] ++ toLe 2 rank

/-! ## Bucket frames (Tables 10.7 and 10.8) -/

def epsCode : Option Int → Nat
  | none => 0x8000
  | some v => pattern 16 v

/-- The 48 bytes of a statistics entry. -/
def entryWire : StatEntry → Bytes
  | .harbour m w c n d => layout 48 [(0, 8, m), (8, 8, w), (0x10, 4, flag c 0 + flag n 1), (0x18, 8, d)]
  | .bucket d => layout 48 [(0, 8, d)]
  | .tensor x => layout 48 [(0, 2, epsCode x.eps), (4, 4, flag x.cliff 0 + flag x.nar 1), (8, 8, x.c), (0x10, 8, x.f), (0x18, 8, x.f4),
      (0x20, 8, x.sat), (0x28, 8, x.dom)]

def payloadWire : FramePayload → Bytes
  | .p32 vs => vs.flatMap fun v => toLe 4 (p32Code v)
  | .g16 vs => vs.flatMap fun v => toLe 2 (g16Code v)
  | .stats es => es.flatMap entryWire

/-- Bytes of a payload. -/
def payloadBytes : FramePayload → Nat
  | .p32 vs => 4 * vs.length
  | .g16 vs => 2 * vs.length
  | .stats es => 48 * es.length

def frameWire (f : BucketFrame) : Bytes :=
  layout 32 [(0, 1, 1), (1, 1, f.phase), (2, 2, f.bucket), (4, 2, f.sender), (6, 2, f.dest), (8, 8, f.step), (0x10, 8, f.digest),
    (0x18, 2, f.attempt), (0x1A, 6, f.first)] ++ payloadWire f.payload

/-! ## Census parts (Tables 10.10 and 10.11) -/

def rankStateCode : RankState → Nat
  | .present => 0 | .absent => 1 | .ejected => 2

def censusEntryWire (e : CensusEntry) : Bytes :=
  layout 24 [(0, 1, rankStateCode e.state), (1, 1, flag e.decided 0 + flag e.announced 1), (2, 1, e.reason),
    (8, 8, e.committed.getD 0xFFFFFFFFFFFFFFFF), (0x10, 8, e.digest)]

def partWire (p : CensusPart) : Bytes :=
  layout 32 [(0, 1, 2), (1, 1, p.index), (2, 1, p.count), (4, 2, p.sender), (6, 2, p.firstRank), (8, 8, p.number), (0x10, 8, p.harbourId),
    (0x18, 2, p.entries.length)] ++ p.entries.flatMap censusEntryWire

/-! ## Partner traffic (R335) -/

/-- The data of a partner message (Table 13.12). -/
def PartnerMsg.data : PartnerMsg → Bytes
  | .mirror r => r
  | .mirrorAck n => toLe 8 n
  | .fragment _ _ _ _ _ d => d
  | .imageRecord _ r => r
  | .imageHeader h => h
  | .storeRead => zeros 8
  | .image b => b
  | .transfer _ _ _ d => d
  | .donorRecord r => r
  | .forwardG16 _ _ _ vs => payloadWire (.g16 vs)
  | .forwardStats _ es => payloadWire (.stats es)
  | .refused => zeros 8

/-- The kinds of partner message, as the free header is told them. -/
def PartnerMsg.kind : PartnerMsg → Nat
  | .mirror _ => 0 | .mirrorAck _ => 1 | .fragment .. => 2 | .imageRecord .. => 3 | .imageHeader _ => 4 | .storeRead => 5 | .image _ => 6
  | .transfer .. => 7 | .donorRecord _ => 8 | .forwardG16 .. => 9 | .forwardStats .. => 10 | .refused => 11

/-- Records and their acknowledgements first, then what a restore moves, then the drain to the partner store (R335). -/
def PartnerMsg.prio : PartnerMsg → Nat
  | .mirror _ | .mirrorAck _ => 0
  | .fragment .. | .imageRecord .. | .imageHeader _ => 2
  | _ => 1

def PartnerMsg.bytes (m : PartnerMsg) : Nat := m.data.length

/-! ## Flits (Table 10.1) -/

/-- Flits of a message of some bytes: 240 payload bytes each. -/
def messageFlits (bytes : Nat) : Nat := ceilDiv bytes 240

/-- The flits of a message: a start and its continuations. -/
def messageBodies (prio : Nat) (b : Bytes) : List FlitBody :=
  let ps := chunks 240 (messageFlits b.length) b
  ps.zipIdx.map fun p => ⟨if p.2 = 0 then 2 else 3, p.2 + 1 == ps.length, prio, p.1⟩

/-- A control record takes one flit. -/
def controlBody (b : Bytes) : List FlitBody := [⟨1, false, 0, b⟩]

/-- The flits of a transmission. -/
def LinkMsg.bodies : LinkMsg → List FlitBody
  | .hello h => controlBody (helloWire h)
  | .progress r => controlBody (progressWire r)
  | .nak n => controlBody (nakWire n)
  | .eject r => controlBody (ejectWire r)
  | .fault r => controlBody (faultWire r)
  | .leave r => controlBody (leaveWire r)
  | .resend _ => []
  | .frame f | .forward f => messageBodies 0 (frameWire f)
  | .census p => messageBodies 0 (partWire p)
  | .partner m => messageBodies m.prio (Config.partnerHead m.kind m.bytes ++ m.data)

/-- A flit as it travels: type, flags, sequence number, acknowledgement, credits, valid bytes, payload and CRC-32C. -/
def flitBytes (b : FlitBody) (seq ack credits : Nat) : Bytes :=
  let head := toLe 1 b.kind ++ toLe 1 (flag b.last 0) ++ toLe 2 seq ++ toLe 2 ack ++ toLe 2 credits ++ toLe 2 b.payload.length ++ zeros 2
    ++ fit 240 b.payload
  head ++ toLe 4 (crc32c head).toNat

/-- The acknowledgement of a port: the highest sequence number received in order. -/
def Port.ack (p : Port) : Nat := (p.rxSeq + 65535) % 65536

/-- A flit of a port, on lane s mod 4 (R290). -/
def Port.outFlit (p : Port) (i : Nat) (b : FlitBody) (seq credits : Nat) : Output :=
  .flit i (seq % 4) (flitCodeword (flitBytes b seq p.ack credits))

/-- An idle flit carries the next unused number (R290). -/
def Port.idleFlit (p : Port) (i credits : Nat) : Output := p.outFlit i ⟨0, false, 0, []⟩ p.txSeq credits

/-- Flits wait behind those of their own place or an earlier one, and never within a message that has begun (R335). -/
def enqueue (fs q : List FlitBody) : List FlitBody :=
  let prio := match fs.head? with | none => 0 | some f => f.prio
  let begun := q.takeWhile fun f => f.kind == 3
  let rest := q.drop begun.length
  begun ++ rest.takeWhile (fun f => f.prio ≤ prio) ++ fs ++ rest.dropWhile fun f => f.prio ≤ prio

/-- The flits that the window lets out: at most 512 unacknowledged, and never more than the credits. -/
def Port.open (p : Port) : Nat := min p.backlog.length (min (512 - p.unacked.length) p.credits)

/-- The flits that go out now, with their sequence numbers. -/
def Port.leaving (p : Port) : List SentFlit :=
  (p.backlog.take p.open).zipIdx.map fun f => ⟨(p.txSeq + f.2) % 65536, 0, f.1⟩

/-- Those flits wait for acknowledgement. -/
def Port.release (p : Port) : Port :=
  let n := p.open
  { p with backlog := p.backlog.drop n, credits := p.credits - n, txSeq := (p.txSeq + n) % 65536, unacked := p.unacked ++ p.leaving }

/-! ## NAKs (R292) -/

/-- A NAK sent or received: the times of those within the last millisecond. -/
def Port.noteNak (us : Nat) (p : Port) : Port := { p with naks := (p.naks.filter fun u => us < u + 1000) ++ [us] }

end Sys2Proof.Machine
end

