-- ==== Sys2Proof/Machine/Topology.lean ====
section
/-! DEFINITION. The topology of a harbour, its ports and its membership (spec/10, R293 to R295, R300, R313, R316). -/

namespace Sys2Proof.Machine

/-! ## Places (R293, R294) -/

/-- The sizes of the dimensions in use. -/
def Harbour.dims (h : Harbour) : List Nat := h.sizes.take h.topo

def Harbour.size (h : Harbour) : Nat := h.dims.foldl (· * ·) 1

/-- The rank of coordinates: x + n0 (y + n1 z). -/
def rankOf (sizes coords : List Nat) : Nat :=
  coords.getD 0 0 + sizes.getD 0 0 * (coords.getD 1 0 + sizes.getD 1 0 * coords.getD 2 0)

/-- The coordinates of a rank, in the dimensions in use. -/
def coordsOf : List Nat → Nat → List Nat
  | [], _ => []
  | n :: ns, r => r % max 1 n :: coordsOf ns (r / max 1 n)

def rankIn (dims coords : List Nat) : Nat := (List.zip dims coords).foldr (fun p a => p.2 + p.1 * a) 0

/-- The topology ports: VLd and VL(d + 4) for each dimension. -/
def topoPorts (d : Nat) : List Nat := (List.range d).flatMap fun k => [k, k + 4]

def Harbour.ports (h : Harbour) : List Nat := topoPorts h.topo

/-- The neighbour of rank `r` through topology port `p`. -/
def Harbour.across (h : Harbour) (r p : Nat) : Nat :=
  let d := p % 4
  let n := h.dims.getD d 1
  let c := coordsOf h.dims r
  rankIn h.dims (c.set d ((c.getD d 0 + (if p < 4 then 1 else n - 1)) % max 1 n))

/-- The port of the neighbour that a topology port is cabled to. -/
def farPort (p : Nat) : Nat := (p + 4) % 8

def Harbour.neighbour (h : Harbour) (p : Nat) : Nat := h.across h.rank p

/-! ## Membership -/

/-- The present members in ascending rank (R300). -/
def Harbour.members (h : Harbour) : List Nat := (List.range h.size).filter h.present.contains

def Harbour.count (h : Harbour) : Nat := h.members.length

/-- The place of a rank among the members. -/
def Harbour.placeOf (h : Harbour) (r : Nat) : Nat := h.members.findIdx (· == r)

/-- A port that carries traffic. -/
def Port.up (p : Port) : Bool := p.state == 2

/-- Links with a quarantined topology port, as pairs of ranks: by the own ports, and by the causes of reason 6 of other members
(R312, R316; log 70). -/
def State.cutLinks (s : State) : List (Nat × Nat) :=
  (((s.harbour.ports.filter fun p => (s.port p).state == 4).map fun p => (s.harbour.rank, s.harbour.neighbour p)) ++ s.harbour.cuts).map
    (fun l => (min l.1 l.2, max l.1 l.2)) |>.eraseDups

def State.topoQuarantined (s : State) : Bool := !s.cutLinks.isEmpty

/-- Whether the link of a rank through a topology port works: by the own ports at its ends; a link between two other members that
one of them has reported quarantined does not, unless a dimension of size 2 gives the pair a second one (log 70). -/
def State.linkWorks (s : State) (r p : Nat) : Bool :=
  let h := s.harbour
  let q := h.across r p
  if r = h.rank then (s.port p).up
  else if q = h.rank then (s.port (farPort p)).up
  else h.dims.getD (p % 4) 1 == 2 || !(s.cutLinks.contains (min r q, max r q))

/-- R316: below the full size, or with a quarantined topology port. -/
def State.degraded (s : State) : Bool := s.harbour.joined && (s.harbour.count < s.harbour.size || s.topoQuarantined)

/-- Hops between two ranks of the topology. -/
def Harbour.hops (h : Harbour) (a b : Nat) : Nat :=
  (List.zip h.dims (List.zip (coordsOf h.dims a) (coordsOf h.dims b))).foldl (fun d p =>
    let x := (p.2.1 + p.1 - p.2.2) % max 1 p.1
    d + min x (p.1 - x)) 0

/-- The places of an absent member, or of the two ports of a cut link. -/
def State.gonePlaces (s : State) : List (List Nat) :=
  ((List.range s.harbour.size).filter fun r => !s.harbour.present.contains r).map (fun r => [r]) ++ s.cutLinks.map fun l => [l.1, l.2]

/-- Two groups of places within two hops of each other. -/
def Harbour.closeBy (h : Harbour) (a b : List Nat) : Bool := a.any fun x => b.any fun y => h.hops x y ≤ 2

/-- A torus whose degraded schedule lies outside R316: two absent members or quarantined ports within two hops; the ports of one
link count once (log 70). -/
def State.rateLost (s : State) : Bool :=
  let gone := s.gonePlaces
  s.degraded && 2 ≤ s.harbour.topo && gone.zipIdx.any fun a => gone.zipIdx.any fun b => a.2 < b.2 && s.harbour.closeBy a.1 b.1

/-- The partner is present: joined, its port up, and a member (R335). -/
def State.partnerPresent (s : State) : Bool :=
  s.harbour.joined && s.harbour.partner != 0xFFFF && s.harbour.present.contains s.harbour.partner
    && (match s.harbour.partnerPort with | none => false | some p => (s.port p).up)

/-- Records are mirrored (R329, R330). -/
def State.mirrors (s : State) : Bool :=
  (match s.job.table with | none => false | some t => t.mirror) && s.partnerPresent && !s.journal.suspended

/-- The sample groups of the step that this module computes (R153, R300). -/
def State.assigned (s : State) : List Nat :=
  match s.job.table with
  | none => []
  | some t =>
    let g := t.sampleGroups
    if !s.harbour.joined then List.range g
    else
      let m := max 1 s.harbour.count
      let p := s.harbour.placeOf s.harbour.rank
      let a := p * g / m
      let b := (p + 1) * g / m
      (List.range (b - a)).map (a + ·)

/-! ## The flit layer (R290 to R292; log 34) -/

/-- Flits go out on a port, each with the port's acknowledgement. -/
def State.emitFlits (p : Nat) (fs : List SentFlit) (s : State) : State :=
  fs.foldl (fun s f => s.emit ((s.port p).outFlit p f.body f.seq 0)) s

/-- What waits goes out while the window is open. -/
def State.releaseFlits (p : Nat) (s : State) : State :=
  let fs := (s.port p).leaving
  if fs.isEmpty then s else ((s.emitFlits p fs).setPort p Port.release).count (tlAt p 0x00) fs.length

/-- Send a message on a port that is up. -/
def State.sendLink (p : Nat) (m : LinkMsg) (s : State) : State :=
  if !(s.port p).up then s
  else ((s.emit (.link p m)).setPort p fun x => { x with backlog := enqueue m.bodies x.backlog }).releaseFlits p

/-- A message of some flits accepted in order on a port: its buffer is emptied at once, and an idle flit acknowledges it and returns
the credits (R291; log 34). -/
def State.heard (p n : Nat) (s : State) : State :=
  let s := (s.setPort p fun x => { x with rxSeq := (x.rxSeq + n) % 65536, awaiting := false }).count (tlAt p 0x08) n
  s.emit ((s.port p).idleFlit p n)

/-- A NAK sent or received counts towards the limit of 64 in a millisecond (R292). -/
def State.noteNak (p : Nat) (s : State) : State := s.setPort p (Port.noteNak s.usec)

/-- Topology ports over which control records go: the present neighbours' ports that are up. -/
def State.livePorts (s : State) : List Nat := s.harbour.ports.filter fun p => (s.port p).up

/-- Send a message on every live topology port. -/
def State.flood (m : LinkMsg) (s : State) : State := s.livePorts.foldl (fun s p => s.sendLink p m) s

/-- The port joined with the partner, or the port lit for a restore or for shadowing. -/
def State.partnerLink (s : State) : Option Nat :=
  match s.harbour.partnerPort with
  | some p => some p
  | none => match s.harbour.restore, s.harbour.shadow with
    | some r, _ => if r.source = 0 then none else some r.port
    | none, some r => some r.port
    | none, none => none

def tlPartnerBytes : Nat := 0x58

/-- Send partner traffic on a port. -/
def State.toPartner (p : Nat) (m : PartnerMsg) (s : State) : State :=
  if (s.port p).up then (s.sendLink p (.partner m)).count (tlAt p tlPartnerBytes) m.bytes else s

end Sys2Proof.Machine
end

