-- ==== Sys2Proof/Machine/Identity.lean ====
section
/-! DEFINITION. Owner keys, identity, measurement, the harbour digest record and the attestation report (spec/15, R450 to
R459; spec/10, R297, R343). -/

namespace Sys2Proof.Machine

/-! ## Owner slots (R452) -/

def Boot.gens (b : Boot) (k : Nat) : List KeyGen := b.slots.getD k []

/-- The current generation of a slot; 0 when it has none. -/
def Boot.generation (b : Boot) (k : Nat) : Nat := (b.gens k).length

/-- The enrolled key of a slot: programmed and not revoked. -/
def Boot.enrolled (b : Boot) (k : Nat) : Option KeyGen :=
  match (b.gens k).getLast? with | none => none | some g => if g.revoked then none else some g

/-- All three generations revoked. -/
def Boot.exhausted (b : Boot) (k : Nat) : Bool := (b.gens k).length == 3 && (b.gens k).all (·.revoked)

def edKeyOf (block : Bytes) : Bytes := block.take 32
def mlKeyOf (block : Bytes) : Bytes := slice block 32 1952

/-- The keys of an enrolled slot, checked against their OTP hashes: (generation, Ed25519 key, ML-DSA-65 key). -/
def Boot.slotKey (b : Boot) (k : Nat) : Option (Nat × Bytes × Bytes) :=
  match b.enrolled k, b.keys.find? fun p => p.1 == k with
  | some g, some p =>
    let ed := edKeyOf p.2
    let ml := mlKeyOf p.2
    if sha384 ed = g.edHash && sha384 ml = g.mlHash then some (b.generation k, ed, ml) else none
  | _, _ => none

/-- Bit k set: slot k holds an enrolled key. -/
def Boot.slotBits (b : Boot) : Nat := (List.range 4).foldl (fun m k => if (b.enrolled k).isSome then m + 2 ^ k else m) 0

def Boot.signers (b : Boot) : Signers := { firmware := Config.firmwareVersion.toNat, key := b.slotKey }

def Boot.ownerEd (b : Boot) (k : Nat) : Bytes := match b.enrolled k with | none => zeros 48 | some g => fit 48 g.edHash
def Boot.ownerMl (b : Boot) (k : Nat) : Bytes := match b.enrolled k with | none => zeros 48 | some g => fit 48 g.mlHash

/-! ## Measurement and identity (R450, R457) -/

def Boot.measurement (b : Boot) : Bytes := sha384 (fit 48 Config.romHash ++ (b.patchHeader.getD (zeros 256)))

/-- The seed of an identity key pair, derived from the device secret (R457). -/
def identitySeed (info : String) : Bytes := hkdf384 (ascii "DULDAPHOR-KRYIM") (fit 32 Config.deviceSecret) (ascii info) 32
def identityEdSeed : Bytes := identitySeed "ID-ED25519"
def identityMlSeed : Bytes := identitySeed "ID-MLDSA65"

/-- The public identity keys. -/
def identityEdKey : Bytes := fit 32 (Config.ed25519Public identityEdSeed)
def identityMlKey : Bytes := fit 1952 (Config.mldsaPublic identityMlSeed)

def identityEd : Bytes := sha384 identityEdKey
def identityMl : Bytes := sha384 identityMlKey

/-- The device identity digest (Table 10.2). -/
def identityDigest : Bytes := identityEd.take 16

/-- The Device Serial Number of the function: the first 8 bytes of the device identity digest (R349). -/
def deviceSerial : Nat := fld identityDigest 0 8

/-! ## The harbour digest record (R297, Table 10.5) -/

/-- The current stored format of a tensor: L8 where it is promoted, its FORMATS code otherwise. -/
def State.storedFormat (s : State) (x : Bytes) : Fmt :=
  if s.job.scale.formats.any fun f => f.tensor == tNum x && f.l8 then .l8 else tFmt x

def State.isNarrowed (s : State) (n : Nat) : Bool := s.job.scale.narrowed.any fun p => p.1 == n && p.2

/-- γ of a tensor, of its activation gradient or its reduced weight gradient. -/
def State.gammaOf (s : State) (n : Nat) : Option Int :=
  match s.job.scale.hists.find? fun h => h.tensor == n with | none => none | some h => h.gamma

/-- The format-set digest: one item for each tensor in ascending number, then λ. -/
def State.formatSet (s : State) : Bytes :=
  match s.job.table with
  | none => zeros 48
  | some t => sha384 ((t.tensors.flatMap fun x =>
      toLe 2 (tNum x) ++ toLe 1 (s.storedFormat x).toCode ++ toLe 1 (if s.isNarrowed (tNum x) then 1 else 0)
        ++ toLe 1 (pattern 8 ((s.gammaOf (tNum x)).getD 0))) ++ toLe 2 (pattern 16 s.job.scale.lam))

/-- The 128-byte record with a harbour ID. -/
def State.harbourRecord (id : Nat) (s : State) : Bytes :=
  match s.job.table with
  | none => zeros 128
  | some t => fit 48 t.digest ++ toLe 4 Config.firmwareVersion.toNat ++ toLe 4 s.boot.patch.toNat ++ toLe 8 s.job.step
      ++ s.formatSet ++ toLe 8 id ++ toLe 8 (if s.job.committed.isSome then s.job.modelDigest else 0)

/-- The own harbour digest, zero while no table is active. -/
def State.harbourDigest (id : Nat) (s : State) : Bytes :=
  if s.job.table.isNone then zeros 48 else sha384 (s.harbourRecord id)

/-- The restore digest of R343: bytes 0x00 to 0x37 of the record. -/
def State.restoreDigest (s : State) : Bytes := sha384 ((s.harbourRecord 0).take 0x38)

/-- The short tide digest (R297). -/
def Table.shortDigest (t : Table) : Nat := fld t.digest 0 8

def State.shortDigest (s : State) : Nat := match s.job.table with | none => 0 | some t => t.shortDigest

/-! ## Attestation (Table 15.7) -/

def State.reportBody (s : State) (nonce : Bytes) : Bytes :=
  let owner := s.job.table
  fit 512 (([0x41, 0x54, 0x53, 0x54] : Bytes) ++ toLe 2 1 ++ toLe 2 512 ++ toLe 8 s.usec ++ fit 32 nonce ++ Config.partBytes
    ++ toLe 1 Config.stepping ++ toLe 1 s.mode.code
    ++ toLe 1 (match owner with | none => 0xFF | some t => t.slot) ++ toLe 1 (match owner with | none => 0 | some t => t.generation)
    ++ toLe 4 Config.firmwareVersion.toNat ++ toLe 4 s.boot.patch.toNat ++ toLe 4 s.boot.svn
    ++ s.boot.measurement ++ identityEd ++ identityMl
    ++ (match owner with | none => zeros 48 | some t => fit 48 t.digest)
    ++ toLe 8 s.job.step ++ toLe 8 s.committedWord ++ toLe 8 (if s.job.committed.isSome then s.job.modelDigest else 0)
    ++ toLe 8 (if s.harbour.joined then s.harbour.id else 0)
    ++ ((List.range 4).flatMap s.boot.ownerEd))

/-- The signature trailer of Table 8.4 with its two signatures. -/
def trailerOf (ed ml : Bytes) : Bytes :=
  fit trailerBytes (([0x53, 0x49, 0x47, 0x4E] : Bytes) ++ toLe 2 64 ++ toLe 2 3309 ++ zeros 8 ++ fit 64 ed ++ fit 3309 ml)

/-- The trailer over a body, by the identity keys. -/
def identityTrailer (body : Bytes) : Bytes := trailerOf (Config.edSign identityEdSeed body) (Config.mlSign identityMlSeed body)

def State.report (s : State) (nonce : Bytes) : Bytes := s.reportBody nonce ++ identityTrailer (s.reportBody nonce)

/-! ## The endorsement (R458; log 92) -/

/-- The two identity public keys as a key block of 1,984 bytes (R446). -/
def identityBlock : Bytes := identityEdKey ++ identityMlKey

/-- The body: the identity keys and the vendor signer key block. -/
def endorseBody : Bytes := identityBlock ++ fit 32 Config.vendorEdKey ++ fit 1952 Config.vendorMlKey

/-- The header in the framing of Table 15.3, with authority 0; R458 gives no value for the versions, the device binding and the code
length. -/
def endorseHeader : Bytes :=
  ascii "ENDR" ++ toLe 1 1 ++ toLe 1 0 ++ toLe 2 256 ++ toLe 8 7616 ++ Config.partBytes ++ toLe 1 Config.stepping ++ toLe 1 0 ++ zeros 2
    ++ toLe 4 (Config.endorseField 0x24) ++ toLe 4 (Config.endorseField 0x28) ++ toLe 4 (Config.endorseField 0x2C) ++ toLe 8 4224
    ++ sha384 endorseBody ++ toLe 16 (Config.endorseField 0x68) ++ toLe 4 (Config.endorseField 0x78) ++ zeros 132

/-- The endorsement of 7,616 bytes. -/
def endorsement : Bytes :=
  endorseHeader ++ endorseBody ++ trailerOf (Config.rootEdSign endorseHeader) (Config.rootMlSign endorseHeader)

end Sys2Proof.Machine
end

