-- ==== Sys2Proof/Machine/Flags.lean ====
section
/-! DEFINITION. The status words that software reads (spec/13, Tables 13.2, 13.4, 13.9, 13.14 to 13.18, 13.21; Table 12.2). -/

namespace Sys2Proof.Machine

/-- HM_STATE at 0x020 (Table 13.2). -/
def State.stateWord (s : State) : Nat :=
  s.mode.code + 2 ^ 8 * s.boot.prev.code + flag s.job.table.isSome 16 + flag s.servingTable 17 + flag s.harbour.joined 18
    + flag (2 ≤ (s.cmdsOf opRun).length) 19 + flag (!(s.cmdsOf opHalt).isEmpty) 20 + flag s.drains 21
    + flag (s.run.probe && s.inRun) 22 + 2 ^ 32 * (s.job.attempt % 65536)

/-- EV_CTRL (Table 13.4). -/
def EventLog.ctrl (l : EventLog) : Nat := flag l.intEn 0 + 2 ^ 8 * l.vector + 2 ^ 16 * l.alertMask.toNat

/-- EV_OLDEST_SEQ. -/
def EventLog.oldest (l : EventLog) : Nat := match l.ring.getLast? with | none => 0 | some r => r.seq

/-- The 64 bytes of an event record (Table 13.5). -/
def EventRec.bytes (r : EventRec) : Bytes :=
  toLe 4 r.seq ++ toLe 2 r.code ++ toLe 1 (1 + flag r.alerted 1) ++ toLe 1 r.srcKind ++ toLe 2 r.srcIndex ++ toLe 2 r.attempt
    ++ zeros 4 ++ toLe 8 r.step ++ toLe 8 r.usec ++ fit 32 r.detail

/-- ALERT: a record newer than EV_ACK carries ALERTED, or a thermal trip stands (R394, R427). -/
def State.alert (s : State) : Bool := s.power.tripAlert || s.log.ring.any fun r => r.alerted && newer r.seq s.log.ack

/-- SQ_CTRL and SQ_STATUS (Tables 12.2 and 13.9). -/
def Sq.ctrl (x : Sq) : Nat := flag x.enable 0 + 2 ^ 8 * x.cq + 2 ^ 12 * x.log2
def State.sqStatus (s : State) (q : Nat) : Nat :=
  (s.cmds.countP fun c => c.sq == q) % 65536 + flag (s.sq q).blocked 16

/-- CQ_CTRL and CQ_STATUS. -/
def Cq.ctrl (c : Cq) : Nat := flag c.enable 0 + flag c.intEn 1 + 2 ^ 8 * c.vector + 2 ^ 16 * c.log2
def Cq.status (c : Cq) : Nat := flag c.phase 0 + 2 ^ 16 * c.held.length

/-- PT_STATUS (Table 13.14). -/
def State.ptStatus (s : State) : Nat :=
  flag s.capThrottled 0 + flag s.thermalThrottled 1 + flag s.power.undervolt 2 + flag s.power.capPending.isSome 3
    + 2 ^ 8 * s.power.feedId

/-- HB_STATUS (Table 13.15). -/
def State.hbStatus (s : State) : Nat :=
  let h := s.harbour
  flag h.joined 0 + flag s.degraded 1 + flag h.shadow.isSome 2 + flag s.partnerPresent 3 + flag (h.joined && s.journal.suspended) 4
    + flag (h.joined && h.decided) 5 + 2 ^ 8 * (if h.joined then h.topo else 0) + 2 ^ 16 * (if h.joined then h.count else 0)
    + 2 ^ 32 * (if h.joined then h.rank else 0xFFFF) + 2 ^ 48 * (if h.joined then h.partner else 0xFFFF)

/-- VL_STATUS (Table 13.16). -/
def Port.status (p : Port) : Nat := p.state + 2 ^ 3 * p.role + 2 ^ 8 * p.lanes + 2 ^ 16 * p.nbrRank + 2 ^ 32 * p.nbrPort

/-- JS_STATUS (Table 13.17). -/
def State.jsStatus (s : State) : Nat :=
  let toPartner := match s.snap.dest with | .partner => true | _ => false
  flag s.journal.flashOk 0 + flag s.mirrors 1 + flag s.journal.compacting 2 + flag s.drains 3
    + flag (toPartner && (s.drains || s.snap.number != 0)) 4 + flag s.snap.abandoned 5 + flag s.snap.noDest 6

/-- TS_STATUS (Table 13.18). -/
def State.tsStatus (s : State) : Nat :=
  flag s.test.active 0 + flag (s.test.queue.any fun r => r.deferred && !r.running) 1 + 2 ^ 8 * s.test.scope + 2 ^ 16 * s.test.test
    + 2 ^ 32 * s.test.target

/-- AM_STATUS (Table 13.19). The vendor hashes are programmed and locked at manufacture (R451). -/
def State.amStatus (s : State) : Nat := 1 + flag s.boot.verified 1 + 2 ^ 4 * s.boot.slotBits

/-- Issued, unfinished tides of a stall (Table 13.21). -/
def State.issued (s : State) (i : Nat) : Nat :=
  match s.job.table with
  | none => 0
  | some t => s.run.tides.countP fun u => (u.status == .issued || u.status == .started) && rStall (t.tide u.tide) == i

/-- ST_STATUS.STATE: off while the row is off, at least idle while it is on; 3 for a stall in a test, which powers its row, and 4 for one
that failed. -/
def State.stallState (s : State) (i : Nat) : Nat :=
  if 3 ≤ (s.stall i).state then (s.stall i).state else if !s.powered (rowDomain i) then 0 else max 1 (s.stall i).state

def State.stStatus (s : State) (i : Nat) : Nat :=
  s.stallState i + 2 ^ 4 * (s.stall i).dvfs + 2 ^ 8 * min 16 (s.issued i) + 2 ^ 16 * ((s.stall i).pipeline % 256)

/-- TT_STATE of a tensor slot (Table 13.13); a narrowed gradient keeps its G16 code beside NARROWED, as in R297. -/
def State.ttState (s : State) (x : Bytes) : Nat :=
  let n := tNum x
  let h := s.job.scale.hists.find? fun h => h.tensor == n
  let eps := match h with
    | none => 0x8000
    | some h => match h.entries.head? with | none => 0x8000 | some e => (match e.eps with | none => 0x8000 | some v => pattern 16 v)
  let dem := match s.job.scale.formats.find? fun f => f.tensor == n with | none => 0 | some f => f.demotion
  eps + 2 ^ 16 * pattern 8 ((s.gammaOf n).getD 0)
    + 2 ^ 24 * (s.storedFormat x).toCode + flag (s.isNarrowed n) 32
    + 2 ^ 40 * (match h with | none => 0 | some h => h.entries.length) + 2 ^ 48 * (dem % 65536)

end Sys2Proof.Machine
end

