-- ==== Sys2Proof/Machine/Registers.lean ====
section
/-! DEFINITION. The BAR0 map: the 64-bit word at every offset, the captured telemetry image and reads (spec/12, R351; spec/13,
R383 to R412). -/

namespace Sys2Proof.Machine

/-- The 64-bit word of a byte field that starts at `base`. -/
def bytesWord (b : Bytes) (base o : Nat) : Nat := fld b (o - base) 8

/-- The word of a bitmap of ranks or stalls that starts at `base`. -/
def bitsWord (l : List Nat) (base o : Nat) : Nat :=
  (List.range 64).foldl (fun m i => if l.contains (8 * (o - base) + i) then m + 2 ^ i else m) 0

/-- Words of 16-bit readings. -/
def halvesWord (l : List (BitVec 16)) (base o : Nat) : Nat :=
  (List.range 4).foldl (fun m i => m + 2 ^ (16 * i) * (l.getD ((o - base) / 2 + i) 0).toNat) 0

/-! ## Identity and global state (Table 13.2) -/

def State.identWord (s : State) (o : Nat) : Nat :=
  if o = 0x000 then Config.deviceId + 2 ^ 16 * Config.stepping + 2 ^ 32 * 0x0600 + 2 ^ 48 * 0x02 + 2 ^ 56 * 0x18
  else if o = 0x008 then Config.firmwareVersion.toNat + 2 ^ 32 * s.boot.patch.toNat
  else if o = 0x010 ∨ o = 0x018 then bytesWord Config.partBytes 0x010 o
  else if o = 0x020 then s.stateWord
  else if o = 0x028 then s.job.step
  else if o = 0x030 then s.job.dataPos
  else if o = 0x038 then s.committedWord
  else if o = 0x040 then s.usec
  else if o = 0x048 then flag s.tm.frozen 0
  else match s.job.table with
    | none => 0
    | some t =>
      if 0x080 ≤ o ∧ o < 0x0B0 then bytesWord t.digest 0x080 o
      else if 0x0B0 ≤ o ∧ o < 0x0C0 then bytesWord t.label 0x0B0 o
      else 0

/-! ## Event log (Table 13.4) -/

/-- EV_SAT: bit 0 is EV_LOST, bit c is class c. -/
def State.evSat (s : State) : Nat :=
  (List.range 10).foldl (fun m c =>
    m + flag (s.tm.sat.contains (if c = 0 then evLostAt else evViolationAt c)) c) 0

/-- The record in a ring slot. -/
def EventLog.slot (l : EventLog) (k : Nat) : Bytes :=
  match l.ring.find? fun r => r.seq % 512 == k with | none => zeros 64 | some r => r.bytes

def State.evWord (s : State) (o : Nat) : Nat :=
  if o = 0x10000 then s.log.ctrl
  else if o = 0x10008 then s.log.headSeq + 2 ^ 32 * s.log.oldest
  else if o = 0x10010 then s.log.ack
  else if o = 0x10020 then s.evSat
  else if o = evLostAt ∨ (0x10040 ≤ o ∧ o < 0x10088) then kvGet s.tm.ctr o
  else if 0x18000 ≤ o ∧ o < 0x20000 then fld (s.log.slot ((o - 0x18000) / 64)) (o % 64) 8
  else 0

/-! ## MSI-X and queues (Tables 12.2, 13.8, 13.9) -/

def State.msixWord (s : State) (o : Nat) : Nat :=
  if o < 0x28400 then
    let e := s.pcie.msix.getD ((o - 0x28000) / 16) ⟨0, 0, true⟩
    if o % 16 = 0 then e.addr else e.data + 2 ^ 32 * flag e.masked 0
  else if o = 0x29000 then bitsWord s.pcie.msixPend 0x29000 o
  else 0

def State.queueWord (s : State) (o : Nat) : Nat :=
  let k := o % 0x40
  if o < 0x40400 then
    let q := (o - 0x40000) / 0x40
    let x := s.sq q
    if k = 0 then x.base else if k = 8 then x.ctrl + 2 ^ 32 * x.head else if k = 0x10 then s.sqStatus q else 0
  else if o < 0x40800 then
    let c := s.cq ((o - 0x40400) / 0x40)
    if k = 0 then c.base else if k = 8 then c.ctrl + 2 ^ 32 * c.tail else if k = 0x10 then c.status else 0
  else 0

/-! ## Telemetry (Tables 13.10 to 13.13) -/

/-- Poisoned lines of a pile that have not been rewritten. -/
def State.poisonedOn (s : State) (pile : Nat) : Nat := s.mem.poisoned.countP fun l => (locate s.pinned (64 * l)).1 == pile

def State.tensorSlot (s : State) (i : Nat) : Option Bytes := match s.job.table with | none => none | some t => t.tensors[i]?

/-- The state words of the telemetry block; `none` at an offset that holds none. -/
def State.stateWordAt (s : State) (o : Nat) : Option Nat :=
  if o = tmAt 0xF8 then some s.tm.lastLoss.toNat
  else if 0x110000 ≤ o ∧ o < 0x111800 then
    if o % 0x100 = 0x58 then some (s.quay ((o - 0x110000) / 0x100)).free
    else if o % 0x100 = 0x60 then some (s.poisonedOn ((o - 0x110000) / 0x100))
    else none
  else if 0x140000 ≤ o ∧ o < 0x180000 then
    if o % 0x40 = 0x38 then some (match s.tensorSlot ((o - 0x140000) / 0x40) with | none => 0x8000 | some x => s.ttState x)
    else none
  else none

/-- The SAT bits of the 64 slots of a bitmap word (R400). -/
def State.satWord (s : State) (o : Nat) : Nat :=
  let first := 0x100000 + 64 * (o - 0x180000)
  (List.range 64).foldl (fun m i => m + flag (s.tm.sat.contains (first + 8 * i)) i) 0

/-- The live word of the telemetry block. -/
def State.tmWord (s : State) (o : Nat) : Nat :=
  if 0x180000 ≤ o ∧ o < 0x182000 then s.satWord o
  else match s.stateWordAt o with | some w => w | none => kvGet s.tm.ctr o

/-- Offsets that the freeze covers: the telemetry block, the counters of the event log block and those of the stall pages
(R390). -/
def frozenOffset (o : Nat) : Bool :=
  (0x100000 ≤ o && o < 0x200000) || o == evLostAt || (0x10040 ≤ o && o < 0x10088)
    || (0x1000000 ≤ o && o < 0x1100000 && 0x100 ≤ o % 0x1000)

/-- The words captured when TELEMETRY_FREEZE goes from 0 to 1: every counter that is not zero, the state words and the SAT
words. -/
def State.capture (s : State) : List (Nat × Nat) :=
  let words := [tmAt 0xF8] ++ ((List.range 24).flatMap fun p => [tpAt p 0x58, tpAt p 0x60])
    ++ ((List.range (min 4096 (match s.job.table with | none => 0 | some t => t.tensors.length))).map fun i => ttAt i 0x38)
    ++ (s.tm.sat.filterMap fun o => if 0x100000 ≤ o && o < 0x180000 then some (0x180000 + (o - 0x100000) / 512 * 8) else none)
  words.foldl (fun m o => kvPut m o (s.tmWord o)) s.tm.ctr

/-- A captured word; the state word of a tensor slot that held no tensor reads 0x8000. -/
def Telemetry.imageWord (t : Telemetry) (o : Nat) : Nat :=
  if 0x140000 ≤ o ∧ o < 0x180000 ∧ o % 0x40 = 0x38 ∧ !(t.image.any fun p => p.1 == o) then 0x8000 else kvGet t.image o

/-! ## Power and thermal (Table 13.14) -/

def State.ptWord (s : State) (o : Nat) : Nat :=
  if o = 0x200000 then s.ptStatus
  else if o = 0x200008 then s.power.inputMv % 65536 + 2 ^ 32 * s.power.inputMa
  else if o = 0x200010 then s.power.powerMw
  else if o = 0x200018 then s.power.cap + 2 ^ 16 * s.power.capPending.getD 0
  else if o = 0x200020 then s.power.domains.toNat % 2 ^ 64
  else if o = 0x200028 then s.power.domains.toNat / 2 ^ 64
  else if 0x200040 ≤ o ∧ o < 0x200090 then halvesWord ((List.range 40).map s.tempOf) 0x200040 o
  else 0

/-! ## Harbour and ports (Tables 13.15, 13.16) -/

def State.hbWord (s : State) (o : Nat) : Nat :=
  let h := s.harbour
  let id := if h.joined then h.id else 0
  if o = 0x300000 then s.hbStatus
  else if o = 0x300008 then id
  else if o = 0x300010 then (if h.joined then h.sizes.getD 0 0 + 2 ^ 16 * h.sizes.getD 1 0 + 2 ^ 32 * h.sizes.getD 2 0 else 0)
  else if o = 0x300018 then (if h.joined then h.coords.getD 0 0 + 2 ^ 16 * h.coords.getD 1 0 + 2 ^ 32 * h.coords.getD 2 0 else 0)
  else if o = 0x300020 then (if h.joined then h.census else 0)
  else if o = 0x300028 then (match s.job.table with | none => 0 | some t => if h.joined then t.tLate else 0)
  else if 0x300040 ≤ o ∧ o < 0x300070 then bytesWord (s.harbourDigest id) 0x300040 o
  else if 0x300080 ≤ o ∧ o < 0x3000C0 then (if h.joined then bitsWord h.present 0x300080 o else 0)
  else if 0x3000C0 ≤ o ∧ o < 0x300100 then (if h.joined then bitsWord h.ejected 0x3000C0 o else 0)
  else if 0x300100 ≤ o ∧ o < 0x300180 then bytesWord (s.harbourRecord id) 0x300100 o
  else if 0x301000 ≤ o ∧ o < 0x301200 then
    let p := s.port ((o - 0x301000) / 0x40)
    let k := o % 0x40
    if k = 0 then p.status else if k = 8 then p.rx else if k = 0x10 then p.tx else if k = 0x18 then p.superframes else 0
  else 0

/-! ## Journal and snapshot (Table 13.17) -/

def recordSeq (r : Bytes) : Nat := fld r 0x10 8

/-- R326, R328: a record verifies by its trailer. -/
def recordVerifies (r : Bytes) : Bool := 240 ≤ r.length && r.drop (r.length - 48) == sha384 (r.take (r.length - 48))

/-- The records of a journal before the first torn one, oldest first (R328). -/
def verified (j : List Bytes) : List Bytes := j.takeWhile recordVerifies

def newestSeq (j : List Bytes) : Nat := match (verified j).getLast? with | none => 0 | some r => recordSeq r

/-- Bytes that records take from 4 KiB boundary to 4 KiB boundary (R329). -/
def journalUsed (j : List Bytes) : Nat := j.foldl (fun a r => a + roundUp r.length 4096) 0

def mib : Nat := 1048576

def Journal.ownFree (j : Journal) : Nat := j.extent * mib - journalUsed j.own

/-- The partner journal has an extent only with MIRROR (Table 11.2). -/
def State.partnerExtent (s : State) : Nat :=
  match s.job.table with | none => 0 | some t => if t.mirror then s.journal.extent else 0

/-- Step, bytes drained and total of the snapshot that drains or started last; a transfer to a newcomer is none (R343, R407). -/
def Snap.progress (x : Snap) : Nat × Nat × Nat := match x.dest with | .newcomer _ => x.shown | _ => (x.step, x.drained, x.total)

/-- The words of the journal block. While no table is active no journal is in use, and JS_OWN_SEQ and JS_PARTNER_SEQ read the zero of their
Reset column, although the flash keeps its records (R324, R382, R443; DEDUCED, log 96). -/
def State.jsWord (s : State) (o : Nat) : Nat :=
  let x := s.snap
  if o = 0x400000 then s.jsStatus
  else if o = 0x400008 then (if s.job.table.isNone then 0 else newestSeq s.journal.own)
  else if o = 0x400010 then (if s.job.table.isNone then 0 else newestSeq s.journal.partner)
  else if o = 0x400018 then s.journal.ownFree
  else if o = 0x400020 then s.partnerExtent * mib - journalUsed s.journal.partner
  else if o = 0x400028 then s.journal.extent
  else if o = 0x400030 then x.number
  else if o = 0x400038 then x.progress.1
  else if o = 0x400040 then x.progress.2.1
  else if o = 0x400048 then x.progress.2.2
  else if o = 0x400050 then x.doneNumber
  else if o = 0x400058 then x.doneStep
  else if o = 0x400060 then x.hostBase
  else if o = 0x400068 then x.hostLen
  else 0

/-! ## Test, Amrath, window, stalls (Tables 13.18 to 13.21) -/

def State.tsWord (s : State) (o : Nat) : Nat :=
  if o = 0x500000 then s.tsStatus
  else if o = 0x500008 then s.test.result
  else if o = 0x500010 then s.test.signature
  else if o = 0x500018 then s.test.expected
  else if o = tsDeferredAt then kvGet s.tm.ctr o
  else if o = 0x500028 then flag (s.tm.sat.contains tsDeferredAt) 0
  else if 0x500040 ≤ o ∧ o < 0x500060 then bitsWord s.test.failedStalls 0x500040 o
  else 0

def State.amWord (s : State) (o : Nat) : Nat :=
  let k := (o - 0x600100) / 0x80
  if o = 0x600000 then s.amStatus
  else if o = 0x600008 then s.boot.svn + 2 ^ 32 * 64
  else if 0x600040 ≤ o ∧ o < 0x600070 then bytesWord identityEd 0x600040 o
  else if 0x600080 ≤ o ∧ o < 0x6000B0 then bytesWord identityMl 0x600080 o
  else if 0x6000C0 ≤ o ∧ o < 0x6000F0 then bytesWord s.boot.measurement 0x6000C0 o
  else if 0x600100 ≤ o ∧ k < 4 ∧ o % 0x80 < 0x30 then bytesWord (s.boot.ownerEd k) (0x600100 + 0x80 * k) o
  else if 0x600100 ≤ o ∧ k < 4 ∧ 0x30 ≤ o % 0x80 ∧ o % 0x80 < 0x60 then bytesWord (s.boot.ownerMl k) (0x600130 + 0x80 * k) o
  else 0

/-- BW_BASE as software reads it: the last value written (R352). -/
def State.bwWord (s : State) (o : Nat) : Nat :=
  if o = 0x700000 then s.pcie.bwWritten.getD s.pcie.bwBase else if o = 0x700008 then s.pcie.bwRefused else 0

/-- ST_SAT of a stall (R412). -/
def State.stSat (s : State) (i : Nat) : Nat :=
  (List.range 12).foldl (fun m k => m + flag (s.tm.sat.contains (stAt i (0x100 + 8 * k))) k) 0

def State.stWord (s : State) (o : Nat) : Nat :=
  let i := (o - 0x1000000) / 0x1000
  let k := o % 0x1000
  if k = 0 then s.stStatus i
  else if k = 8 then (match (s.stall i).lastRec with | none => 0xFFFFFFFF | some r => r) + 2 ^ 32 * (s.stall i).lastInst
  else if k = 0x10 then (if s.powered (rowDomain i) then (s.stall i).temp.toNat else 0x8000)
  else if k = 0x18 then s.stSat i
  else if 0x100 ≤ k ∧ k < 0x160 then kvGet s.tm.ctr o
  else 0

/-! ## Reads (R351, R383, R384, R390) -/

/-- The live 64-bit word at an offset that is a multiple of 8; unoccupied offsets and doorbells read zero. -/
def State.liveWord (s : State) (o : Nat) : Nat :=
  if o < 0x10000 then s.identWord o
  else if o < 0x20000 then s.evWord o
  else if o < 0x28000 then 0
  else if o < 0x40000 then s.msixWord o
  else if o < 0x100000 then s.queueWord o
  else if o < 0x200000 then s.tmWord o
  else if o < 0x300000 then s.ptWord o
  else if o < 0x400000 then s.hbWord o
  else if o < 0x500000 then s.jsWord o
  else if o < 0x600000 then s.tsWord o
  else if o < 0x700000 then s.amWord o
  else if o < 0x800000 then s.bwWord o
  else if o < 0x1000000 then 0
  else if o < 0x1100000 then s.stWord o
  else 0

/-- The word that a BAR0 read returns. In BOOTING only identity, versions and the state word are readable; in STANDBY nothing
answers. -/
def State.barWord (s : State) (o : Nat) : Nat :=
  if s.mode = .standby then 0
  else if s.mode = .booting && !(o < 0x28) then 0
  else if s.tm.frozen && frozenOffset o then s.tm.imageWord o
  else s.liveWord o

/-- A read of 4 or 8 aligned bytes; any other size or alignment returns zero. -/
def State.bar0Read (s : State) (o size : Nat) : Nat :=
  if size = 8 && o % 8 = 0 then s.barWord o
  else if size = 4 && o % 4 = 0 then s.barWord (o - o % 8) / 2 ^ (8 * (o % 8)) % 4294967296
  else 0

/-- A READ_TELEMETRY sample: live words from an offset of the telemetry block (R365). -/
def State.telemetry (s : State) (off n : Nat) : Bytes :=
  (List.range (n / 8)).flatMap fun i =>
    let o := off + 8 * i
    toLe 8 (if o < 0x100000 then s.tmWord (0x100000 + o) else 0)

/-! ## The configuration space (R349, Table 12.1; log 91) -/

/-- What identifies the function to PCI software, and the sizes of its base address registers. -/
structure PciIdentity where
  vendor : Nat
  device : Nat
  revision : Nat
  classCode : Nat
  serial : Nat
  bar0Bytes : Nat
  bar2Bytes : Nat
deriving DecidableEq, Repr

def pciIdentity : PciIdentity :=
  ⟨Config.pciVendor.toNat, Config.deviceId, Config.pciRevision, Config.pciClass, deviceSerial, Config.bar0Bytes, Config.bar2Bytes⟩

/-! ## The management image (R434) -/

/-- The 4 KiB management image (R434). -/
def State.imageByte (s : State) (o : Nat) : Nat :=
  let w := if o < 0x28 then s.identWord (o - o % 8)
    else if 0x100 ≤ o ∧ o < 0x190 then s.ptWord (0x200000 + (o - 0x100) - o % 8) else 0
  w / 2 ^ (8 * (o % 8)) % 256

/-- What a read of `n` bytes over I3C returns: the bytes of the image from the pointer upward, while 50 V is present. -/
def State.i3cRead (s : State) (n : Nat) : List Nat :=
  if s.power.present then (List.range n).map fun i => s.imageByte (s.pcie.i3cPtr + i) else []

end Sys2Proof.Machine
end

