-- ==== Sys2Proof/Machine/TestBase.lean ====
section
/-! DEFINITION. Self-tests: signatures, the entries of a test, and the domains that a test switches on (spec/15, R444, R462 to R464;
logs 14 and 95). -/

namespace Sys2Proof.Machine

/-! ## Signatures (R463) -/

/-- One step of the 64-bit MISR. -/
def misrStep (s w : BitVec 64) : BitVec 64 := (if s.getLsbD 63 then (s <<< 1) ^^^ 0x1B#64 else s <<< 1) ^^^ w

/-- Multiplication by x modulo x^64 + x^4 + x^3 + x + 1. -/
def gf64Double (a : BitVec 64) : BitVec 64 := misrStep a 0

def gf64MulBits : Nat → BitVec 64 → BitVec 64 → BitVec 64
  | 0, _, _ => 0
  | n + 1, a, b => (if b.getLsbD 0 then a else 0) ^^^ gf64MulBits n (gf64Double a) (b >>> 1)

def gf64Mul (a b : BitVec 64) : BitVec 64 := gf64MulBits 64 a b

/-- The effect of `n` equal words: the state s becomes p.1 · s + p.2 · w; halving `n` bounds the steps. -/
def misrPower : Nat → Nat → BitVec 64 × BitVec 64
  | 0, _ => (1, 0)
  | k + 1, n =>
    if n = 0 then (1, 0)
    else
      let h := misrPower k (n / 2)
      let d := (gf64Mul h.1 h.1, h.2 ^^^ gf64Mul h.1 h.2)
      if n % 2 = 1 then (gf64Double d.1, gf64Double d.2 ^^^ 1) else d

/-- The MISR after `n` equal response words. -/
def misrRun (n : Nat) (s w : BitVec 64) : BitVec 64 :=
  let p := misrPower 64 n
  gf64Mul p.1 s ^^^ gf64Mul p.2 w

/-- The signature of response words given as runs (word, repetitions). -/
def misr (rs : List (Nat × Nat)) : BitVec 64 := rs.foldl (fun s r => misrRun r.2 s (BitVec.ofNat 64 r.1)) 0

/-- The response words of a healthy memory of `n` words under the march sequence. -/
def marchWords (n : Nat) : List (Nat × Nat) := [(0, n), (allOnes64, n), (0, n), (allOnes64, n), (0, n)]

/-- 64-bit words of one pile. -/
def pileWords : Nat := 8589934592

/-- 64-bit words of the memories of a stall: the stall store, the tally bank, and each weight plane, which holds the most that Table 3.4
puts into one (R72, R80; DEDUCED, log 14). -/
def stallWords : List Nat := [524288, 8192, 3328, 3328]

/-- The expected signature: that of the march sequence over each memory in turn for the march tests, a property of the part otherwise
(log 14). -/
def expectedSig (test target : Nat) : BitVec 64 :=
  if test = 0x0201 then misr (marchWords pileWords)
  else if test = 0x0002 then misr (stallWords.flatMap marchWords)
  else Config.expectedSignature test target

/-! ## Entries (Table 15.8, R464) -/

/-- The (scope, test, target) of every signature entry, in the order of the work. -/
def testEntries (scope test target : Nat) : List (Nat × Nat × Nat) :=
  if scope = 4 then
    ((List.range 24).map fun p => (3, 0x0201, p)) ++ ((List.range 24).map fun p => (3, 0x0202, p))
      ++ ((List.range 256).map fun i => (1, 0x0001, i)) ++ ((List.range 256).map fun i => (1, 0x0002, i))
      ++ [(4, 0x0301, 0), (4, 0x0301, 1)]
  else [(scope, test, target)]

structure TestEntry where
  scope : Nat
  test : Nat
  target : Nat
  signature : BitVec 64
  expected : BitVec 64
deriving DecidableEq, Repr

def entryPasses (e : TestEntry) : Bool := e.signature == e.expected

/-- The entries of a test with the signatures of their responses. -/
def testResults (scope test target : Nat) (responses : List (List (Nat × Nat))) : List TestEntry :=
  (testEntries scope test target).zipIdx.map fun p =>
    ⟨p.1.1, p.1.2.1, p.1.2.2, misr (responses.getD p.2 []), expectedSig p.1.2.1 p.1.2.2⟩

/-- An entry with its outcome: 1 pass, 2 fail, 3 aborted (R464). -/
def entryBytes (outcome : Nat) (e : TestEntry) : Bytes :=
  layout 32 [(0, 1, e.scope), (1, 1, outcome), (2, 2, e.test), (4, 4, e.target), (8, 8, e.signature.toNat), (0x10, 8, e.expected.toNat)]

def testEntryBytes (e : TestEntry) : Bytes := entryBytes (if entryPasses e then 1 else 2) e

/-! ## Domains (R444, R462, Table 15.2; log 95) -/

/-- The domains that a test needs: the row of its stall, the engine and the optics of its port, the quay of its pile with its hall's
infrastructure, and every quay with both halls' infrastructure for the module test, whose rows come on in turn. -/
def testDomains (scope target : Nat) : List Nat :=
  if scope = 1 then [rowDomain target]
  else if scope = 2 then [engineDomain target, opticsDomain (portHall target)]
  else if scope = 3 then [quayDomain target, aisleDomain (target / 12), pileIfDomain (target / 12)]
  else (List.range 24).map quayDomain ++ [aisleDomain 0, pileIfDomain 0, aisleDomain 1, pileIfDomain 1]

/-- Those of the running test. -/
def State.testNeeds (s : State) : List Nat :=
  match s.test.queue.find? (·.running) with | none => [] | some r => testDomains r.scope r.target

/-- A test switches on what it needs and finds off. -/
def State.lightTest (scope target : Nat) (s : State) : State :=
  let l := (testDomains scope target).filter fun d => !s.powered d
  (s.capChanged fun s => s.switch true l).modTest fun t => { t with lit := l }

/-- Whether a lit port uses a domain. -/
def State.portUses (s : State) (d : Nat) : Bool :=
  (List.range 8).any fun p =>
    (s.port p).state != 0 && (s.port p).state != 4 && (d == engineDomain p || d == opticsDomain (portHall p))

/-- The end of a test switches them off again, but for those of a port that has been lit meanwhile. -/
def State.darkTest (s : State) : State :=
  (s.capChanged fun s => s.switch false (s.test.lit.filter fun d => !s.portUses d)).modTest fun t => { t with lit := [] }

/-- The domains under a table, or without one, with those of the running test. -/
def State.setDomains (base : BitVec 99) (s : State) : State :=
  let l := s.testNeeds.filter fun d => !base.getLsbD d
  (s.modPower fun p => { p with domains := base ||| domainMask l }).modTest fun t => { t with lit := l }

end Sys2Proof.Machine
end

