-- ==== Sys2Proof/Machine/Faults.lean ====
section
/-! DEFINITION. The lighting of ports, and how an attempt, a run, a snapshot and the tests end, and the module fault of reason 4 (spec/06, R171; spec/07,
R201, R213; spec/10, R292, R298, R312, R314; spec/11, R340; spec/12, R363, R370, R371; spec/15, R466, R468). -/

namespace Sys2Proof.Machine

/-! ## Ports (R287, R298, Table 13.16) -/

/-- The optics interface of a hall is on while an engine of its ports is. -/
def State.settleOptics (s : State) : State :=
  [0, 1].foldl (fun s h =>
    s.switch ((List.range 8).any fun p => portHall p == h && s.powered (engineDomain p)) [opticsDomain h]) s

/-- Engines switched: the cap step follows the powered engines (R424). -/
def State.engines (on : Bool) (ps : List Nat) (s : State) : State :=
  s.capChanged fun s => (s.switch on (ps.map engineDomain)).settleOptics

/-- Light a port for a role and train it. A port that failed a test takes the role and stays quarantined and dark (R467). -/
def State.lightPort (role p : Nat) (s : State) : State :=
  if (s.port p).failed then s.setPort p fun x => { x with state := 4, role := role }
  else (s.setPort p fun _ => { Port.reset with state := 1, role := role }).engines true [p]

/-- Darken a port: a port that failed a test stays quarantined until module reset (R467). -/
def State.darkPort (p : Nat) (s : State) : State :=
  (s.setPort p fun x => { Port.reset with state := if x.failed then 4 else 0, failed := x.failed }).engines false [p]

def State.darkPorts (ps : List Nat) (s : State) : State := ps.foldl (fun s p => s.darkPort p) s

/-! ## The attempt -/

/-- The fields of a step: cleared when a step or an attempt begins or is abandoned. -/
def Run.cleared (r : Run) : Run :=
  { r with groups := [], tides := [], regions := [], admits := [], gated := [], rowParts := [], latent := [], packed := [], stats := [], reduced := [], stepCliff := false,
           stepNar := false, hostReqs := [] }

def Link.cleared (l : Link) : Link := { Link.reset with held := l.held }

/-- A wait for fed data ends: it is counted, and outside a harbour it extends every RUN_STEPS (R154, R255). -/
def State.endWait (g : GroupRun) (s : State) : State :=
  match g.waitFrom with
  | none => s
  | some u =>
    let w := s.usec - u
    let s := (s.count (tmAt 0x28) w).modRun fun r =>
      { r with waitUs := r.waitUs + w, groups := r.groups.map fun x => if x.place = g.place then { x with waitFrom := none } else x }
    if s.harbour.joined then s else (s.cmdsOf opRun).foldl (fun s c => s.extend c.sq c.cid w) s

def State.endWaits (s : State) : State := s.run.groups.foldl (fun s g => s.endWait g) s

/-- A stall without tiles, operands or loaded planes. -/
def Stall.dropped (x : Stall) : Stall :=
  { x with tiles := [], parts := [], planes := [Plane.reset, Plane.reset], active := 0, passesLeft := 0, store := [] }

/-- The tides of the attempt are cancelled, their tiles freed, their regions discarded, and the statistics dropped without a
decision (R312, R133). -/
def State.abandonAttempt (s : State) : State :=
  ((s.endWaits.modRun Run.cleared).modStalls fun l => l.map Stall.dropped).modHarbour
    fun h => { h with link := h.link.cleared }

/-! ## Runs -/

def RunCmd.result1 (r : RunCmd) : Nat := r.applied % 2 ^ 32 + 2 ^ 32 * (r.skipped % 2 ^ 32)

/-- Results of a RUN_STEPS: its counts, where it is the one under way (R370). -/
def State.runResult (s : State) (c : Cmd) : Nat :=
  match s.run.cur with
  | none => 0
  | some r => if r.sq = c.sq && r.cid = c.cid then r.result1 else 0

/-- The final entry of one RUN_STEPS. -/
def State.finishRun (c : Cmd) (st : Status) (s : State) : State := s.finishCmd c st s.committedWord (s.runResult c)

/-- Every outstanding RUN_STEPS: the first with the status given, those behind it with ABORTED (R363). -/
def State.finishRuns (st : Status) (s : State) : State :=
  match s.cmdsOf opRun with
  | [] => s
  | c :: rest => rest.foldl (fun s d => s.finishCmd d .aborted s.committedWord 0) (s.finishRun c st)

/-- Results of a SERVE: tokens generated; the stop and NaR bits and the slot (Table 12.8). -/
def State.serveResult (s : State) (c : Cmd) : Nat × Nat :=
  match s.run.serves.find? fun r => r.sq == c.sq && r.cid == c.cid with
  | none => (0, 0)
  | some r =>
    let stopped := match r.output.getLast? with | none => false | some v => v == eStop c.entry && eStop c.entry != 0xFFFFFFFF
    (r.output.length, flag stopped 0 + flag r.nar 1 + 2 ^ 32 * r.slot.getD 0)

def State.finishServe (c : Cmd) (st : Status) (s : State) : State :=
  let r := s.serveResult c
  s.finishCmd c st r.1 r.2

def State.finishServes (st : Status) (s : State) : State := (s.cmdsOf opServe).foldl (fun s c => s.finishServe c st) s

/-- Several HALT_AT_SLACK commands complete together (R371). -/
def State.finishHalts (s : State) : State := s.finishAll (s.cmdsOf opHalt) .ok s.committedWord 0

/-- A run that ends before the slack water of a deferred test completes it with ABORTED (R466). -/
def State.dropDeferredTests (s : State) : State :=
  let l := s.test.queue.filter fun r => r.deferred && !r.running
  l.foldl (fun s r => s.finish r.sq r.cid .aborted 0 0)
    (s.modTest fun t => { t with queue := t.queue.filter fun r => !(r.deferred && !r.running) })

/-- Stalls return to idle where their row is on. -/
def State.idleStalls (s : State) : State :=
  s.modStalls fun l => l.map fun x => if x.state = 2 then { x with state := 1 } else x

/-- The end of a run: the outstanding commands complete, and the module enters a state. -/
def State.endRun (st : Status) (m : ModuleState) (s : State) : State :=
  let s := ((s.finishRuns st).finishServes st).finishHalts.dropDeferredTests
  ((s.modRun fun r => { Run.reset with nextTag := r.nextTag }).modHarbour fun h => { h with decided := false, link := h.link.cleared }).idleStalls.enter m

/-! ## Snapshots (R340) -/

/-- Granules of a breakwater copy. -/
def State.copyGranules (s : State) (q page : Nat) : Nat := (fragmentOf s.pinned q page).length

/-- The copies of an ended drain are freed, and the writes that waited go ahead. -/
def State.releaseQuays (s : State) : State :=
  let freed := s.snap.copies
  let s := freed.foldl (fun s c => s.setQuay c.1 fun x => { x with free := x.free + s.copyGranules c.1 c.2.1 }) s
  let held := s.quays.zipIdx.flatMap fun q => q.1.waiting.map fun w => (q.2, w)
  let s := s.modQuays fun l => l.map fun x => { x with waiting := [] }
  held.foldl (fun s w => ((s.modMem fun m => m.write w.2.addr w.2.data).count (tpAt w.1 0x08) w.2.data.length).count (tpAt w.1 0x50)
    (s.usec - w.2.since)) s

def State.abandonSnapshot (s : State) : State :=
  if !s.snap.draining then s
  else
    let s := s.releaseQuays
    let l := s.snap.serving
    let s := s.modSnap fun x => { x with draining := false, abandoned := true, pend := [], copies := [], badCopies := [], serving := [], recordDue := false }
    l.foldl (fun s r => s.finish r.sq r.cid .fault s.snap.number 0) s

/-- SNAPSHOT requests that can no longer be served. -/
def State.dropSnapshots (st : Status) (s : State) : State :=
  let l := s.snap.requests
  l.foldl (fun s r => s.finish r.sq r.cid st 0 0) (s.modSnap fun x => { x with requests := [] })

/-! ## Tests (R468) -/

/-- The stall of a stall test shows testing while it runs. -/
def State.markTested (scope target : Nat) (s : State) : State :=
  if scope = 1 then s.setStall target fun x => if x.state = 4 then x else { x with state := 3 } else s

/-- The stalls that were in a test are idle again. -/
def State.unmarkTested (s : State) : State := s.modStalls fun l => l.map fun x => if x.state = 3 then { x with state := 1 } else x

/-- The entry of an interrupted test, and the registers that describe it (R464, R468; log 93). -/
def State.abortEntry (r : TestReq) (s : State) : State :=
  let f := s.takeFree
  let e : TestEntry := ⟨r.scope, r.test, r.target, Config.abortSignature f.1, expectedSig r.test r.target⟩
  let s := if (f.2.cmd? r.sq r.cid).isNone then f.2 else f.2.toHost r.sq r.cid 0 (entryBytes 3 e)
  s.modTest fun t =>
    { t with scope := r.scope, test := r.test, target := r.target, result := 3, signature := e.signature.toNat, expected := e.expected.toNat }

/-- A running test ends with outcome 3 and its command with ABORTED; tests that wait behind it end without an entry. -/
def State.abortTests (s : State) : State :=
  let l := s.test.queue
  let s := match l.find? (·.running) with
    | none => s
    | some r => s.darkTest.unmarkTested.abortEntry r
  l.foldl (fun s r => s.finish r.sq r.cid .aborted (if r.running then 1 else 0) 0) (s.modTest fun t => { t with active := false, queue := [] })

/-! ## The module fault of reason 4 (Table 10.9) -/

/-- A FAULT record of reason 4 on every live topology port, while joined. -/
def State.sendFault (s : State) : State :=
  if s.harbour.joined then s.flood (.fault ⟨4, s.harbour.rank, s.job.step⟩) else s

/-- Commands whose work a module fault stops, besides the run's: joining, leaving and restoring. -/
def State.faultOthers (s : State) : State :=
  s.finishAll (s.cmds.filter fun c => c.isOp opJoin || c.isOp opLeave || c.isOp opRestore) .fault s.committedWord 0

/-- A commit that a step waits for is dropped. -/
def State.dropCommit (s : State) : State := s.modJournal fun j => { j with commit := j.commit.filter fun c => !c.ofStep }

/-- A port that is lit only for a restore goes dark with it (R341). -/
def State.darkRestore (s : State) : State :=
  match s.harbour.restore with
  | none => s
  | some r => if r.source = 0 then s else s.darkPort r.port

/-- The drain, the tests and every outstanding command end, and the module enters FAULTED. -/
def State.enterFaulted (s : State) : State :=
  let s := ((s.darkRestore.abandonSnapshot.abortTests.dropCommit).dropSnapshots .fault).faultOthers
  (s.endRun .fault .faulted).modHarbour fun h => { h with joining := none, leaving := none, restore := none, inCensus := false }

/-- The module abandons the step without the chandler, completes its outstanding commands with FAULT and enters FAULTED; a test that runs
in FAULTED is interrupted (R468). -/
def State.moduleFault (s : State) : State :=
  if s.mode == .faulted then s.abortTests else s.sendFault.abandonAttempt.enterFaulted

/-- R213: a refused access of a tide, a quay unit or the link engine. -/
def State.refusedAccess (record page : Nat) (s : State) : State :=
  (s.raiseModule 0x0902 [(0x20, 2, 0), (0x24, 4, record), (0x28, 8, page * pageSize)]).moduleFault

end Sys2Proof.Machine
end

