-- ==== Sys2Proof/Machine/Store.lean ====
section
/-! DEFINITION. Module memory as the quays serve it: access classes, copy on first touch, the drain of a snapshot, ECC and
poison (spec/07, R199 to R202, R212 to R217; spec/11, R338 to R340). -/

namespace Sys2Proof.Machine

/-! ## Access classes (Table 7.6) -/

/-- Whether a page class lets a source read or write. -/
def classAllows (cls : Nat) (src : Source) (write : Bool) : Bool :=
  match src, cls with
  | .tide _, 1 => !write
  | .tide _, 2 => true
  | .tide _, 3 => !write
  | .quayUnit, 1 | .quayUnit, 2 | .linkEngine, 1 | .linkEngine, 2 => true
  | .quayUnit, 3 | .linkEngine, 3 => !write
  | .drain, 4 => true
  | .drain, 1 | .drain, 2 => !write
  | _, _ => false

def sourceRecord : Source → Nat
  | .tide r => r
  | _ => 0xFFFFFFFF

/-- The first page of a range that refuses a source, where one does (R213). -/
def State.refusedPage (s : State) (src : Source) (write : Bool) (a n : Nat) : Option Nat :=
  (pagesOf a (max 1 n)).find? fun g => inDeviceRegion (g * pageSize) || !classAllows (s.mem.classOf g) src write

/-- What a tide, a quay unit or the link engine does over the byte ranges `(write, base, length)` that it reaches: an access that a
page refuses stops it (R212, R213). -/
def State.guarded (src : Source) (rs : List (Bool × Nat × Nat)) (f : State → State) (s : State) : State :=
  match rs.findSome? fun r => s.refusedPage src r.1 r.2.1 r.2.2 with
  | none => f s
  | some g => s.refusedAccess (sourceRecord src) g

/-! ## Raw reads (R201, R352) -/

/-- Raw bytes: a poisoned line delivers all ones. -/
def Mem.raw (m : Mem) (a n : Nat) : Bytes :=
  (List.range n).map fun i => if m.poisoned.contains (lineOf (a + i)) then 0xFF else m.byte (a + i)

/-! ## First touch (R214 to R217) -/

/-- The fragment (quay, page) of an address. -/
def State.fragOf (s : State) (a : Nat) : Nat × Nat := ((locate s.pinned a).1, a / pageSize)

/-- The bytes of a fragment, its granules in ascending address. -/
def State.fragBytes (s : State) (f : Nat × Nat) : Bytes :=
  (fragmentOf s.pinned f.1 f.2).flatMap fun a => s.mem.raw a granuleSize

/-- Whether a fragment holds a poisoned line (R201). -/
def State.fragPoisoned (s : State) (f : Nat × Nat) : Bool := (fragmentOf s.pinned f.1 f.2).any fun a => s.mem.isPoisoned a granuleSize

def State.drainsToNewcomer (s : State) : Bool := match s.snap.dest with | .newcomer _ => true | _ => false

/-- Room for a copy of a fragment; a transfer to a newcomer makes no copies (R343). -/
def State.copyRoom (s : State) (f : Nat × Nat) : Bool :=
  !s.drainsToNewcomer && s.copyGranules f.1 f.2 ≤ (s.quay f.1).free

/-- The copy of a pending fragment is made before the write. -/
def State.copyFragment (f : Nat × Nat) (s : State) : State :=
  let d := s.fragBytes f
  let n := s.copyGranules f.1 f.2
  let bad := s.fragPoisoned f
  let s := s.setQuay f.1 fun x => { x with free := x.free - n }
  ((s.modSnap fun x => { x with copies := x.copies ++ [(f.1, f.2, d)], badCopies := if bad then x.badCopies ++ [f] else x.badCopies }).count
    (tpAt f.1 0x48) 1).count (tpAt f.1 0x00) d.length

/-- Whether a fragment is pending and still without a copy. -/
def State.untouched (s : State) (f : Nat × Nat) : Bool :=
  s.snap.pend.contains f && !(s.snap.copies.any fun c => c.1 == f.1 && c.2.1 == f.2)

/-- Bytes that reach one granule of a pile, and their count (R400). -/
def State.putBytes (a : Nat) (bs : Bytes) (s : State) : State :=
  (s.modMem fun m => m.write a bs).count (tpAt (s.fragOf a).1 0x08) bs.length

/-- A write within one granule: the first to a pending fragment makes the copy, or waits for room. A later write to a fragment
that has writes waiting waits behind them, so that the quay keeps the order of arrival (R131, R193, R204). -/
def State.writeGranule (a : Nat) (bs : Bytes) (s : State) : State :=
  let f := s.fragOf a
  let behind := (s.quay f.1).waiting.any fun w => s.fragOf w.addr == f
  if !behind && !s.untouched f then s.putBytes a bs
  else if !behind && s.copyRoom f then (s.copyFragment f).putBytes a bs
  else
    let s := s.raiseOnce 0x0203 srcPile f.1 [(0x28, 8, f.2 * pageSize), (0x30, 4, (s.quay f.1).free)]
    s.setQuay f.1 fun x => { x with waiting := x.waiting ++ [⟨a, bs, s.usec⟩] }

/-- A byte string cut at granule boundaries; `fuel` bounds the pieces. -/
def granules : Nat → Nat → Bytes → List (Nat × Bytes)
  | 0, _, _ => []
  | fuel + 1, a, bs =>
    if bs.isEmpty then []
    else
      let n := granuleSize - a % granuleSize
      (a, bs.take n) :: granules fuel (a + n) (bs.drop n)

/-- The count of a write that reaches the piles at once (R400). -/
def State.countWrites (a : Nat) (bs : Bytes) (s : State) : State :=
  (granules (bs.length / granuleSize + 2) a bs).foldl (fun s p => s.count (tpAt (s.fragOf p.1).1 0x08) p.2.length) s

/-- A write of any length. -/
def State.memWrite (a : Nat) (bs : Bytes) (s : State) : State :=
  if s.snap.pend.isEmpty then (s.modMem fun m => m.write a bs).countWrites a bs
  else (granules (bs.length / granuleSize + 2) a bs).foldl (fun s p => s.writeGranule p.1 p.2) s

/-- Memory with the waiting writes in place: what the quays' own units see of the writes they have made. -/
def State.view (s : State) : Mem := s.quays.foldl (fun m q => q.waiting.foldl (fun m w => m.write w.addr w.data) m) s.mem

/-- No write waits for breakwater room: what reads memory next goes on only then. -/
def State.settled (s : State) : Bool := s.quays.all fun q => q.waiting.isEmpty

/-- The waiting writes of a quay that may proceed do so, in order (R216). -/
def State.resumeQuay (q : Nat) (s : State) : State :=
  let l := (s.quay q).waiting
  let s := s.setQuay q fun x => { x with waiting := [] }
  l.foldl (fun s w =>
    let f := s.fragOf w.addr
    if s.untouched f && !s.copyRoom f then s.setQuay q fun x => { x with waiting := x.waiting ++ [w] }
    else (s.writeGranule w.addr w.data).count (tpAt q 0x50) (s.usec - w.since)) s

/-! ## The drain (R214, R338 to R340) -/

/-- The digest of a fragment: tag 2^36 + page, index = byte offset within the page / 8 (R339). -/
def fragDigest (ps : List Pinned) (q page : Nat) (d : Bytes) : Nat :=
  let as := fragmentOf ps q page
  digestOf (2 ^ 36 + page) ((as.zipIdx.flatMap fun p => (List.range 512).map fun w =>
    ((p.1 % pageSize) / 8 + w, (fld d (p.2 * granuleSize + 8 * w) 8 : Int))))

/-- The 32-byte descriptor of a chunk (R339). -/
def chunkHead (page q n digest : Nat) : Bytes := layout 32 [(0, 8, page * pageSize), (8, 1, q), (0xC, 4, n), (0x10, 8, digest)]

/-- Bytes into the drain's destination buffer, at an offset of the image. -/
def State.drainOut (off : Nat) (d : Bytes) (poisoned : Bool) (s : State) : State :=
  match s.snap.dest with
  | .host _ _ (some sq) (some cid) => s.emit (.commandData sq cid off d poisoned)
  | .host base _ _ _ => s.emit (.hostWrite (base + off) d poisoned)
  | _ => s

/-- The next pending fragment of a quay, in ascending page order. -/
def State.nextFragment (s : State) (q : Nat) : Option Nat :=
  (s.snap.pend.filter fun f => f.1 == q).foldl (fun m f => match m with | none => some f.2 | some p => some (min p f.2)) none

/-- The port that reaches the partner's store, or the newcomer. -/
def State.drainPort (s : State) : Option Nat :=
  match s.snap.dest with
  | .partner => s.harbour.partnerPort
  | .newcomer p => some p
  | .host _ _ _ _ => none

/-- The 256-byte header of an image (Table 11.6). -/
def State.snapHeader (s : State) : Bytes :=
  fit 256 (([0x53, 0x4E, 0x41, 0x50] : Bytes) ++ toLe 2 1 ++ toLe 2 256 ++ toLe 4 s.snap.number ++ toLe 4 s.snap.record.length
    ++ toLe 8 s.snap.step ++ toLe 8 s.snap.count ++ toLe 8 s.snap.imageOff ++ toLe 8 s.snap.setDigest
    ++ slice s.snap.record 0x38 8 ++ toLe 8 (if s.harbour.joined then s.harbour.id else 0) ++ slice s.snap.record 0x40 48)

/-- The end of a drain: the header last; a donor sends its record instead, and no snapshot-complete record follows. -/
def State.drainDone (s : State) : State :=
  if !s.snap.pend.isEmpty then s
  else match s.snap.dest with
    | .newcomer p => (s.toPartner p (.donorRecord s.snap.record)).modSnap fun x => { x with draining := false }
    | .partner =>
      let s := match s.drainPort with | none => s | some p => s.toPartner p (.imageHeader s.snapHeader)
      s.modSnap fun x => { x with recordDue := true }
    | .host _ _ _ _ => (s.drainOut 0 s.snapHeader false).modSnap fun x => { x with recordDue := true }

/-- The drain takes one fragment: from its copy where one exists, from the pile otherwise, and marked where a line of it was poisoned
when it was read (R201). -/
def State.takeFragment (q page : Nat) (s : State) : State := s.guarded .drain [(false, page * pageSize, 1)] fun s =>
  let copy := s.snap.copies.find? fun c => c.1 == q && c.2.1 == page
  let d := match copy with | none => s.fragBytes (q, page) | some c => c.2.2
  let bad := if copy.isSome then s.snap.badCopies.contains (q, page) else s.fragPoisoned (q, page)
  let dig := fragDigest s.pinned q page d
  let n := s.copyGranules q page
  let s := if copy.isSome then s else s.count (tpAt q 0x00) d.length
  let s := s.drainOut s.snap.imageOff (chunkHead page q n dig ++ d) bad
  let s := match s.drainPort, s.snap.dest with
    | some p, .partner => s.toPartner p (.fragment s.snap.number s.snap.step page q dig d)
    | some p, _ => s.toPartner p (.transfer page q dig d)
    | none, _ => s
  let s := if copy.isSome then s.setQuay q fun x => { x with free := x.free + n } else s
  let s := s.modSnap fun x =>
    { x with pend := x.pend.filter (· != (q, page)), copies := x.copies.filter (fun c => !(c.1 == q && c.2.1 == page)),
             badCopies := x.badCopies.filter (· != (q, page)),
             drained := x.drained + d.length, setDigest := (x.setDigest + dig) % m61, count := x.count + 1,
             imageOff := x.imageOff + 32 + d.length }
  (s.resumeQuay q).drainDone

/-! ## ECC (R199 to R201) -/

/-- Channel and pile-local line address of a line. -/
def State.lineDetail (s : State) (line : Nat) : Nat × List (Nat × Nat × Nat) :=
  let l := locate s.pinned (64 * line)
  (l.1, [(0x20, 1, (pileFields l.2).channel), (0x28, 8, l.2)])

/-- A corrected line: counted, and the first of a pile in a step raised (R200). -/
def State.eccCorrected (line : Nat) (s : State) : State :=
  let d := s.lineDetail line
  (s.count (tpAt d.1 0x18) 1).raiseOnce 0x0204 srcPile d.1 d.2

/-- An uncorrectable line: poisoned, counted, raised, and a module fault where a job exists (R201). -/
def State.eccPoison (line : Nat) (s : State) : State :=
  let d := s.lineDetail line
  let s := (s.modMem fun m => m.poison line).count (tpAt d.1 0x20) 1
  (s.raise 0x0205 srcPile d.1 d.2).moduleFault

/-- The symbols of a line that are in error: differences on one symbol add over GF(2^16). -/
def symbolsOff (es : List SymbolError) : List Nat :=
  (List.range 37).filter fun k => ((es.filter fun e => e.symbol == k).foldl (fun x e => x ^^^ e.diff % 65536) 0) != 0

/-- What the code of a line says (R199): its distance of 4 corrects any one symbol and detects any two. The symbols of the address are
not stored: one in error tells that the line comes from another place, and nothing corrects it. Beyond two symbols the distance tells
nothing. -/
def lineCheck (es : List SymbolError) : Option EccOutcome :=
  match symbolsOff es with
  | [] => some .clean
  | [k] => some (if k < 35 then .corrected else .uncorrectable)
  | [_, _] => some .uncorrectable
  | _ => none

/-- A line with more symbols in error than the code tells: its check fails, or it passes as bytes that were never written (log 100). -/
def State.eccBeyond (line : Nat) (s : State) : State :=
  let f := s.takeFree
  match Config.beyondCode f.1 with
  | none => f.2.eccPoison line
  | some d =>
    let s := f.2.modMem fun m => m.write (64 * line) (fit 64 d.1)
    if d.2 then s.eccCorrected line else s

/-- A line read with symbols in error (R199 to R201). -/
def State.ecc (line : Nat) (es : List SymbolError) (s : State) : State :=
  match lineCheck es with
  | none => s.eccBeyond line
  | some .clean => s
  | some .corrected => s.eccCorrected line
  | some .uncorrectable => s.eccPoison line

/-- The lines of an access that read with symbols in error. -/
def State.eccLines (a n : Nat) (hits : List ScrubHit) (s : State) : State :=
  (hits.filter fun h => (linesOf a n).contains h.line).foldl (fun s h => s.ecc h.line h.errors) s

/-! ## Conversion (R39, R40, R202) -/

/-- Whether element `i` of codes of a format at an address stands in a poisoned line (R201). -/
def Mem.badCode (m : Mem) (f : Fmt) (a i : Nat) : Bool := m.isPoisoned (a + i * f.bits / 8) (ceilDiv f.bits 8)

/-- `n` codes of a format at an address, NaR for each element of a poisoned line (R201); an index of a ledger from such a line
stands as 16. -/
def Mem.codes (m : Mem) (f : Fmt) (a n : Nat) : List Nat :=
  (unpack f n (m.read a (ceilDiv (n * f.bits) 8))).zipIdx.map fun p =>
    if m.badCode f a p.2 then (if f = .ledger then 16 else narCode f) else p.1

/-- What a read of a tensor delivers of `n` bytes: L16 codes of a public format, the stored codes of another. The conversion of a
load writes no tensor, so its flushes and saturations count in none (R26, R39, R202). -/
def loadCodes (x : Bytes) (m : Mem) (a n : Nat) : List Nat :=
  let f := tFmt x
  let cs := m.codes f a (n * 8 / f.bits)
  if f.isPublic then cs.map fun c => (narrow .l16 0 none (loadPublic f (tTrunc x) c)).1 else cs

/-- The statistics of values written in the store path (R38, R40): overflow as saturations, underflow as flushes, invalid as
NaR. -/
def storeStat (fault : Bool) (vs : List Val) (rs : List (Nat × Note)) : TensorStat :=
  rs.foldl (fun s r => countNote fault r.2 s)
    { TensorStat.empty with c := vs.countP fun v => v.k?.isSome, nar := vs.any (·.isNar) }

/-- The values that a write of a public format carries: L16 codes of two bytes, or L19 codes of four (R40). -/
def writtenVals (wide : Bool) (d : Bytes) : List Val :=
  if wide then (List.range (d.length / 4)).map fun i => Val.ofCode (fld d (4 * i) 4 % 2 ^ 19)
  else (unpack .l16 (d.length / 2) d).map l16

/-- What a write of a tensor stores, and its statistics: values into a public format's codes, bytes of another as they are. -/
def storeBytes (x : Bytes) (wide : Bool) (d : Bytes) : Bytes × TensorStat :=
  let f := tFmt x
  if f.isPublic then
    let vs := writtenVals wide d
    let rs := vs.map (storePublic f (tIeee x))
    (packCodes f (rs.map (·.1)), storeStat (tFault x) vs rs)
  else (d, TensorStat.empty)

end Sys2Proof.Machine
end

