-- ==== Sys2Proof/Machine/Model.lean ====
section
/-! DEFINITION. The model in module memory: the tiles of a weight, the gradient lines of a bucket, the model digest, the
chandler's and requantizer's pass over a table and the rebuilding of codes (spec/06, R170, R171; spec/07, R205 to R210;
spec/10, R301, R306; spec/11, R342). -/

namespace Sys2Proof.Machine

/-! ## Tiles (R260, R262) -/

/-- Row (input) and column (output) of element `e` of tile `n` of a weight. -/
def elemRow (w : Bytes) (n e : Nat) : Nat := 32 * (n % tTilesI w) + e % 32
def elemCol (w : Bytes) (n e : Nat) : Nat := 32 * (n / tTilesI w) + e / 32

/-- The logical row-major index of an element (R31). -/
def elemIndex (w : Bytes) (n e : Nat) : Nat := elemRow w n e * tCols w + elemCol w n e

/-- Elements of a tile that lie inside the weight. -/
def tileInside (w : Bytes) (n : Nat) : List Nat :=
  (List.range 1024).filter fun e => elemRow w n e < tRows w && elemCol w n e < tCols w

/-- The 1,024 L16 codes of a tile of an array, NaR in a poisoned line (R201). -/
def Mem.tile16 (m : Mem) (base n : Nat) : List Nat := m.codes .l16 (dealt base n 2048) 1024

/-! ## The model digest (R306) -/

def arrayDigest (m : Mem) (w : Bytes) (base tag : Nat) : Nat :=
  (List.range (tTiles w)).foldl (fun d n =>
    let cs := m.tile16 base n
    (d + digestOf tag ((tileInside w n).map fun e => (elemIndex w n e, ((cs.getD e 0 : Nat) : Int)))) % m61) 0

def weightDigest (m : Mem) (w : Bytes) : Nat :=
  let t := tNum w
  (arrayDigest m w (tMaster w) (2 ^ 32 + t) + arrayDigest m w (tM1 w) (2 ^ 33 + t) + arrayDigest m w (tM2 w) (2 ^ 34 + t)) % m61

def Table.modelDigest (t : Table) (m : Mem) : Nat := t.trained.foldl (fun d w => (d + weightDigest m w) % m61) 0

/-! ## Gradient lines (Table 9.5, R207) -/

/-- The address of the P32 sum of element `e` of tile `n`. -/
def accAddr (w : Bytes) (n e : Nat) : Nat := dealt (tAcc w) n 4096 + 4 * e

/-- The address of the G16 value of the same element; `odd` selects bytes 32 to 63 of the line (R343). -/
def g16Addr (w : Bytes) (odd : Bool) (n e : Nat) : Nat :=
  dealt (tAcc w) n 4096 + 64 * (e / 16) + (if odd then 32 else 0) + 2 * (e % 16)

/-- A P32 sum and a G16 value, NaR in a poisoned line (R201). -/
def Mem.p32At (m : Mem) (a : Nat) : Option Int := if m.isPoisoned a 4 then none else p32OfCode (leNat (m.read a 4))
def Mem.g16At (m : Mem) (a : Nat) : Option Int := if m.isPoisoned a 2 then none else g16OfCode (leNat (m.read a 2))

/-- The weight of a wire location. -/
def Table.weightOf (t : Table) (n : Nat) : Bytes := (t.tensor? n).getD []

/-- The P32 sums of a bucket in wire order (R276). -/
def Table.bucketSums (t : Table) (m : Mem) (b : Bytes) : List (Option Int) :=
  (t.wireLocs b).map fun l => m.p32At (accAddr (t.weightOf l.1) l.2.1 l.2.2)

/-- The G16 values of a bucket in wire order. -/
def Table.bucketG16 (t : Table) (m : Mem) (odd : Bool) (b : Bytes) : List (Option Int) :=
  (t.wireLocs b).map fun l => m.g16At (g16Addr (t.weightOf l.1) odd l.2.1 l.2.2)

/-- Write G16 values at wire locations from `first` on. -/
def State.writeG16 (t : Table) (b : Bytes) (odd : Bool) (first : Nat) (vs : List (Option Int)) (s : State) : State :=
  (List.zip ((t.wireLocs b).drop first) vs).foldl (fun s p =>
    s.memWrite (g16Addr (t.weightOf p.1.1) odd p.1.2.1 p.1.2.2) (toLe 2 (g16Code p.2))) s

/-! ## Conversion of a bucket's sums (R301 step 3, R34, R50) -/

/-- What one shard contributes: G16 values and the statistics of each tensor in it. -/
structure Converted where
  values : List (Option Int)
  stats : List (Nat × TensorStat)
deriving DecidableEq, Repr

/-- Merge a tensor's statistics into a list by tensor. -/
def mergeInto (l : List (Nat × TensorStat)) (n : Nat) (s : TensorStat) : List (Nat × TensorStat) :=
  if l.any fun p => p.1 == n then l.map fun p => if p.1 = n then (n, mergeStat p.2 s) else p else l ++ [(n, s)]

def statsOf (l : List (Nat × TensorStat)) (n : Nat) : TensorStat :=
  match l.find? fun p => p.1 == n with | none => TensorStat.empty | some p => p.2

/-- β of a bucket in a step (R111). -/
def State.bucketAnchor (s : State) (b : Bytes) : Int := anchorOf (bAKind b) (bAnchor b) 0 s.job.scale.lam

/-- One P32 sum to G16 with γ; a probe step takes the amax alone. -/
def convertSum (fault probe : Bool) (beta gamma : Int) : Option Int → Option Int × TensorStat
  | none => (none, { TensorStat.empty with nar := true })
  | some v =>
    let e := epsOfDyadic v.natAbs (beta - 24)
    if probe then (some 0, { TensorStat.empty with eps := e, c := if v = 0 then 0 else 1 })
    else
      let r := toG16 v (beta - 24) gamma
      (some r.1, countNote fault r.2 { TensorStat.empty with eps := e, c := if v = 0 then 0 else 1 })

/-- The sums of wire locations from `first` on, converted with each weight's γ. -/
def State.convertShard (s : State) (t : Table) (b : Bytes) (first : Nat) (vs : List (Option Int)) : Converted :=
  let beta := s.bucketAnchor b
  (List.zip ((t.wireLocs b).drop first) vs).foldl (fun acc p =>
    let w := t.weightOf p.1.1
    let r := convertSum (tFault w) s.run.probe beta ((s.gammaOf p.1.1).getD 0) p.2
    ⟨acc.values ++ [r.1], mergeInto acc.stats p.1.1 r.2⟩) ⟨[], []⟩

/-! ## The requantizer on memory (R208) -/

/-- The draws of the 1,024 elements of a tile for piece `k` (R31, R33, R102). -/
def Table.tileDraws (t : Table) (w : Bytes) (step n k : Nat) : Draws :=
  if t.stochastic && (tFmt w == .l4 || tFmt w == .l8) then
    some ((List.range 1024).map fun e => draw t.seed step ((t.stream (tNum w) + k) % 65536) (elemIndex w n e))
  else none

/-- Write the codes and scales of one piece of a tile in both orders. -/
def State.writePiece (w : Bytes) (n k : Nat) (kept : Option (List Nat)) (c : TileCodes) (s : State) : State :=
  let f := tFmt w
  let off := k * tStride w
  let z := codesUnit w
  let s := s.memWrite (dealt (tCodes w + off) n z) (tileBytes f kept false c)
  let s := if tCodes2 w = noAddr then s else s.memWrite (dealt (tCodes2 w + off) n z) (tileBytes f kept true c)
  if tScales w = noAddr then s else s.memWrite (dealt (tScales w + off) n 64) (tileScales c)

/-- Rebuild one tile of codes from its masters; `rebuild` says whether a ledger is due (R210). -/
def State.requantize (t : Table) (w : Bytes) (step n : Nat) (rebuild : Bool) (s : State) : State :=
  let ms := s.view.tile16 (tMaster w) n
  let vs := ms.map l16
  let f := tFmt w
  let s := s.count (tpAt (12 * hallOf (tMaster w) + n % 12) 0x38) 1
  if f = .ledger then
    match t.ledgerRec (tNum w) with
    | none => s
    | some l =>
      let a := dealt (fld l 8 8) n 32
      let led := if rebuild then buildLedger ms else s.view.codes .l16 a 16
      let s := if rebuild then s.memWrite a (packCodes .l16 led) else s
      s.writePiece w n 0 none ⟨0, ms.map (ledgerIndex led)⟩
  else if tSparse w then
    let kept := crossedMask vs
    s.writePiece w n 0 (some kept) (tileCodes f (t.tileDraws w step n 0) (some kept) vs)
  else if 1 < tPieces w then
    ((splitPieces f (fun k => t.tileDraws w step n k) (tPieces w) 0 vs).zipIdx).foldl (fun s p => s.writePiece w n p.2 none p.1) s
  else s.writePiece w n 0 none (tileCodes f (t.tileDraws w step n 0) none vs)

/-- Whether a ledger weight's ledgers are rebuilt at an applied-update count (R210). -/
def Table.ledgerDue (t : Table) (w : Bytes) (applied : Nat) : Bool :=
  match t.ledgerRec (tNum w) with | none => false | some l => fld l 4 4 != 0 && applied % fld l 4 4 == 0

/-! ## The chandler on memory (R206, R207) -/

/-- Update the trained elements of one tile; `applied` is the count after the advance. The chandler reads the tile's masters, both moments
and its gradients (R400; log 94). -/
def State.chandleTile (t : Table) (w : Bytes) (lam : Int) (odd : Bool) (applied step n : Nat) (s : State) : State :=
  let es := t.tileTrained w n
  match es, t.optGroup (tGroup w) with
  | [], _ => s
  | _, none => s
  | _, some g =>
    let c := stepConsts g applied
    let gamma := (s.gammaOf (tNum w)).getD 0
    let ms := s.view.tile16 (tMaster w) n
    let m1 := s.view.tile16 (tM1 w) n
    let m2 := s.view.tile16 (tM2 w) n
    let new := (List.range 1024).map fun e =>
      if es.contains e then
        chandler c g lam gamma (ms.getD e 0) (m1.getD e 0) (m2.getD e 0) (s.view.g16At (g16Addr w odd n e))
      else (ms.getD e 0, m1.getD e 0, m2.getD e 0)
    let s := s.memWrite (dealt (tMaster w) n 2048) (packCodes .l16 (new.map (·.1)))
    let s := s.memWrite (dealt (tM1 w) n 2048) (packCodes .l16 (new.map (·.2.1)))
    let s := s.memWrite (dealt (tM2 w) n 2048) (packCodes .l16 (new.map (·.2.2)))
    let pile := 12 * hallOf (tMaster w) + n % 12
    ((s.count (tpAt pile 0x00) (4 * 2048)).count (tpAt pile 0x30) es.length).requantize t w step n (t.ledgerDue w applied)

/-- The byte ranges that the chandlers and requantizers of a step reach. -/
def Table.chandlerReach (t : Table) : List (Bool × Nat × Nat) :=
  (t.trained.filter fun w => !t.frozen (tNum w)).flatMap fun w =>
    (t.arrays w).map (fun a => (true, a.1, a.2)) ++ (accRanges w).map fun a => (false, a.1, a.2)

/-- The gradient lines that the link engine reads and writes for a bucket. -/
def Table.bucketReach (t : Table) (b : Bytes) : List (Bool × Nat × Nat) :=
  (t.bucketWeights b).flatMap fun w => (accRanges w).map fun a => (true, a.1, a.2)

/-- Every trained, unfrozen weight, tile by tile (R171 step 4). -/
def State.chandle (t : Table) (lam : Int) (odd : Bool) (applied step : Nat) (s : State) : State :=
  (t.trained.filter fun w => !t.frozen (tNum w)).foldl (fun s w =>
    (List.range (tTiles w)).foldl (fun s n => s.chandleTile t w lam odd applied step n) s) s

/-- The requantizer rebuilds the codes of every trained weight from the masters, with the draws of step `n` (R342 step 4); the codes
of a frozen one come with the restored pages (R278). -/
def State.rebuildCodes (t : Table) (step : Nat) (s : State) : State :=
  (t.trained.filter fun w => !t.frozen (tNum w)).foldl (fun s w =>
    (List.range (tTiles w)).foldl (fun s n => s.requantize t w step n false) s) s

end Sys2Proof.Machine
end

