-- ==== Sys2Proof/Machine/JournalOps.lean ====
section
/-! DEFINITION. Journal records, commits and compaction (spec/11, R326 to R334). -/

namespace Sys2Proof.Machine

/-! ## Entries (Table 11.5) -/

def entryOf (ty : Nat) (body : Bytes) : Bytes := toLe 2 ty ++ zeros 2 ++ toLe 4 (8 + body.length) ++ body

def histItem (e : HistEntry) : Bytes :=
  toLe 8 (e.step.getD allOnes64) ++ toLe 2 (epsCode e.eps) ++ toLe 1 (flag e.sat 0) ++ zeros 5

/-- The gradient state of one tensor, oldest history item first. -/
def gradItem (x : Scale) (h : GradHist) : Bytes :=
  let nar := x.narrowed.any fun p => p.1 == h.tensor && p.2 && !h.reduced
  toLe 2 h.tensor ++ toLe 1 (flag nar 0 + flag h.reduced 1 + flag h.gamma.isSome 2) ++ toLe 1 (pattern 8 (h.gamma.getD 0))
    ++ toLe 1 h.entries.length ++ zeros 3 ++ (h.entries.reverse.flatMap histItem)

/-- Entry 0x01: every gradient tensor in ascending number. -/
def gradEntry (x : Scale) : Bytes :=
  entryOf 1 ((sortBy (fun (a b : GradHist) => a.tensor < b.tensor) x.hists).flatMap (gradItem x))

/-- Entry 0x02: every promotable layer in ascending number. -/
def formatEntry (x : Scale) : Bytes :=
  entryOf 2 ((sortBy (fun (a b : FormatState) => a.tensor < b.tensor) x.formats).flatMap fun f =>
    toLe 2 f.tensor ++ toLe 1 (Fmt.toCode (if f.l8 then .l8 else .l4)) ++ zeros 1 ++ toLe 4 f.demotion)

/-- Entry 0x03: a snapshot, draining (1) or complete (2). -/
def snapEntry (x : Snap) (st : Nat) : Bytes :=
  let dest := match x.dest with | .host _ _ _ _ => 0 | _ => 1
  entryOf 3 (toLe 4 x.number ++ toLe 1 st ++ toLe 1 dest ++ zeros 2 ++ toLe 8 x.step ++ toLe 8 x.setDigest ++ toLe 8 x.count)

/-- Entry 0x04: the membership. -/
def memberEntry (h : Harbour) : Bytes :=
  entryOf 4 (toLe 8 h.census ++ (List.range 64).map fun j =>
    BitVec.ofNat 8 ((List.range 8).foldl (fun m k => m + flag (h.present.contains (8 * j + k)) k) 0))

/-- Entry 0x05: a restore. -/
def restoreEntry (source step first last : Nat) : Bytes :=
  entryOf 5 (toLe 1 source ++ zeros 7 ++ toLe 8 step ++ toLe 8 first ++ toLe 8 last)

/-! ## Records (Table 11.3) -/

/-- Header, entries and padding to a multiple of 64 with the trailer, and the trailer over all of it. -/
def closeRecord (head : Bytes) (entries : List Bytes) : Bytes :=
  let body := entries.flatten
  let len := roundUp (192 + body.length + 48) 64
  let all := fit (len - 48) (patch (fit 192 head) 8 (toLe 4 len) ++ body)
  all ++ sha384 all

/-- The fields of a header that the state gives. -/
def State.recordHead (s : State) (t : Table) (kind flags seq step count : Nat) : Bytes :=
  let h := s.harbour
  let x := s.job.scale
  ([0x4A, 0x52, 0x4E, 0x4C, 1] : Bytes) ++ toLe 1 kind ++ toLe 2 flags ++ toLe 4 0 ++ toLe 2 s.job.attempt ++ zeros 2 ++ toLe 8 seq
    ++ toLe 8 step ++ toLe 8 s.job.dataPos ++ toLe 8 (s.job.streamStep.getD 0) ++ toLe 8 x.applied ++ toLe 8 s.job.modelDigest
    ++ fit 48 t.digest ++ fit 16 t.label ++ toLe 8 (if h.joined then h.id else 0) ++ toLe 2 (if h.joined then h.rank else 0xFFFF)
    ++ toLe 2 (if h.joined then h.count else 1) ++ toLe 2 (if h.joined then h.partner else 0xFFFF) ++ toLe 1 s.power.feedId ++ zeros 1
    ++ toLe 2 (pattern 16 x.lam) ++ toLe 2 x.clean ++ toLe 1 x.skips ++ zeros 3 ++ toLe 8 s.usec ++ toLe 4 count ++ zeros 28

/-- The next sequence number of the own journal. -/
def Journal.nextSeq (j : Journal) : Nat := (match j.own.getLast? with | none => 0 | some r => recordSeq r) + 1

/-- A record of a kind with its own entries; a draining snapshot and the membership go into every record. -/
def State.buildRecord (s : State) (t : Table) (kind flags seq step : Nat) (own : List (Nat × Bytes)) : Bytes :=
  let es := own ++ (if s.drains && !(own.any fun e => e.1 == 3) then [(3, snapEntry s.snap 1)] else [])
    ++ (if s.harbour.joined then [(4, memberEntry s.harbour)] else [])
  let es := sortBy (fun (a b : Nat × Bytes) => a.1 < b.1) es
  closeRecord (s.recordHead t kind (flags + flag s.mirrors 3) seq step es.length) (es.map (·.2))

/-- Entries 0x01 and 0x02: the scale state whole. -/
def scaleEntries (x : Scale) : List (Nat × Bytes) := [(1, gradEntry x), (2, formatEntry x)]

/-- MIRRORED cleared and the trailer made again (R330). -/
def clearMirrored (r : Bytes) : Bytes :=
  let all := patch (r.take (r.length - 48)) 6 (toLe 2 (fld r 6 2 % 65536 - flag (bit (fld r 6 2) 3) 3))
  all ++ sha384 all

/-! ## Compaction (R332) -/

def recordKind (r : Bytes) : Nat := fld r 5 1

/-- The newest record of a kind. -/
def newestOf (k : Nat) (j : List Bytes) : List Nat :=
  match (j.filter fun r => recordKind r == k).getLast? with | none => [] | some r => [recordSeq r]

/-- The records that compaction keeps: the newest ones, and the newest configuration, snapshot-complete and restore
records. -/
def compacted (retained : Nat) (j : List Bytes) : List Bytes :=
  let keep := ((j.drop (j.length - retained)).map recordSeq) ++ newestOf 2 j ++ newestOf 3 j ++ newestOf 4 j
  j.filter fun r => keep.contains (recordSeq r)

def compactDue (t : Table) (free : Nat) : Bool := free < (t.retained + 2) * t.budget

/-- Compact one journal, and raise JOURNAL_COMPACTED with the number of records reclaimed. -/
def State.compact (t : Table) (partner : Bool) (s : State) : State :=
  let j := if partner then s.journal.partner else s.journal.own
  let k := compacted t.retained j
  let s := s.modJournal fun x =>
    if partner then { x with partner := k } else { x with own := k, compacting := false }
  s.raiseModule 0x0405 [(0x20, 1, if partner then 1 else 0), (0x28, 8, j.length - k.length)]

/-! ## Writes (R329, R331) -/

/-- Bytes of records, each from its own 4 KiB boundary. -/
def recordsBytes (rs : List Bytes) : Nat := journalUsed rs

/-- Whether records fit in the own journal as it stands. -/
def State.fitsOwn (rs : List Bytes) (s : State) : Bool := recordsBytes rs ≤ s.journal.ownFree

/-- The journal compacted, where records do not fit. -/
def State.makeRoom (t : Table) (rs : List Bytes) (s : State) : State := if s.fitsOwn rs then s else s.compact t false

/-- Append records to the own journal; free space below the threshold starts a compaction. -/
def State.appendOwn (t : Table) (rs : List Bytes) (s : State) : State :=
  let s := s.modJournal fun j => { j with own := j.own ++ rs }
  if compactDue t s.journal.ownFree then s.modJournal fun j => { j with compacting := true } else s

/-- Send records to the partner's journal where they are mirrored. -/
def State.mirrorOut (rs : List Bytes) (s : State) : State :=
  if !s.mirrors then s
  else match s.harbour.partnerPort with
    | none => s
    | some p => rs.foldl (fun s r => s.toPartner p (.mirror r)) s

/-- Whether a record can be written. -/
def State.canWrite (t : Table) (r : Bytes) (s : State) : Bool := s.journal.flashOk && (s.makeRoom t [r]).fitsOwn [r]

/-- A record that no step waits for (configuration, restore, power-fail, a shadowed step): written within its command's allowance,
and acknowledged by the partner where it is mirrored (R329, R330). -/
def State.writeRecord (t : Table) (r : Bytes) (s : State) : State :=
  let s := (s.makeRoom t [r]).appendOwn t [r]
  if s.mirrors then (s.modJournal fun j => { j with commit := some ⟨[r], true, true, false, false⟩ }).mirrorOut [r] else s

/-- Such a record outside a power-fail: one that cannot be written is a module fault (R331, R332). -/
def State.writeNow (t : Table) (r : Bytes) (s : State) : State := if s.canWrite t r then s.writeRecord t r else s.moduleFault

/-- R331: the flash fails. -/
def State.flashFault (s : State) : State := s.modJournal (fun j => { j with flashOk := false }) |>.moduleFault

/-- The commit of a step begins: the records go to the own journal and the partner at the same time; `snap` says that a
snapshot-complete record is among them. -/
def State.startCommit (t : Table) (rs : List Bytes) (snap : Bool) (s : State) : State :=
  let s := s.makeRoom t rs
  if !s.fitsOwn rs || !s.journal.flashOk then s.moduleFault
  else (s.modJournal fun j => { j with commit := some ⟨rs, false, s.mirrors, true, snap⟩ }).mirrorOut rs

/-! ## Power-fail records (R333, R334) -/

/-- Step 4 and 5 of R333: the record, where a table is active, and POWER_FAIL_COMMIT; the record carries no entries (R334). -/
def State.powerFailRecord (mv : Nat) (s : State) : State :=
  match s.job.table with
  | none => s.raiseModule 0x0406 [(0x20, 4, mv), (0x28, 8, 0)]
  | some t =>
    let r := closeRecord (s.recordHead t 5 (flag s.mirrors 3) s.journal.nextSeq s.job.step 0) []
    if s.canWrite t r then (s.writeRecord t r).raiseModule 0x0406 [(0x20, 4, mv), (0x28, 8, recordSeq r)]
    else s.raiseModule 0x0406 [(0x20, 4, mv), (0x28, 8, 0)]

end Sys2Proof.Machine
end

