-- ==== Sys2Proof/Machine/TideData.lean ====
section
/-! DEFINITION. What a tide reads: instances, stash frames, cache slots, token batches, and the blocks and rows of its
operands (spec/06, R154 to R163, R168, R177, R182; spec/09, R260 to R274; spec/12, R367; log 27). -/

namespace Sys2Proof.Machine

/-! ## Instances (R263, R274; log 27) -/

/-- A tide: its table, record and instance. -/
structure Tide where
  t : Table
  idx : Nat
  inst : Nat
deriving DecidableEq, Repr

def Tide.bytes (u : Tide) : Bytes := u.t.tide u.idx
def Tide.range (u : Tide) : Nat := u.t.rangeOf u.idx
def Tide.stall (u : Tide) : Nat := rStall u.bytes

/-- Slots of a serving instance: prefill instance = 1024 · chunk + slot; in a decode step row `r` belongs to slot `r`. -/
def Tide.slot (u : Tide) (row : Nat) : Nat := if u.range = 1 then u.inst % 1024 else row

def Tide.chunkNo (u : Tide) : Nat := u.inst / 1024

/-- The sample group of an instance. -/
def State.group? (s : State) (inst : Nat) : Option GroupRun := s.run.groups.find? fun g => g.place == inst

/-- The serving request of a slot. -/
def State.slotReq? (s : State) (slot : Nat) : Option ServeReq := s.run.serves.find? fun r => r.slot == some slot

/-- The request that a tide computes for in a slot: a chunk of its prompt, or a decode step once its prompt is complete
(R181). -/
def State.tideReq? (s : State) (u : Tide) (slot : Nat) : Option ServeReq :=
  match s.slotReq? slot with
  | none => none
  | some r => if u.range = 1 || ceilDiv r.prompt.length (max 1 u.t.chunk) < r.chunks then some r else none

/-- The ROUTE tide that gathers a tensor, and its ROUTER record (R177). -/
def Table.gatherOf (t : Table) (n : Nat) : Option (Bytes × Bytes) :=
  (t.tides.find? fun r => rKind r == .route && roGathered r == n).bind fun r => (t.router? (roRouter r)).map fun x => (r, x)

/-- Whether a stash tensor holds the admitted rows of experts. -/
def Table.gatheredStash (t : Table) (n : Nat) : Bool :=
  (t.recs secShoal 2).any fun e => fld e 4 2 == n && (t.gatherOf (fld e 2 2)).isSome

/-- Token rows of the instance that exist; the rows beyond them are zero rows (R10, R157). -/
def State.liveRows (s : State) (u : Tide) : Nat :=
  if u.t.isTraining then (if u.range = 1 then (match s.group? u.inst with | none => 0 | some g => g.tokens) else 0)
  else if u.range = 1 then
    (match s.slotReq? (u.inst % 1024) with | none => 0 | some r => min u.t.chunk (r.prompt.length - u.chunkNo * u.t.chunk))
  else u.t.maxInst

/-- Whether a tensor's rows are tokens of the instance. The rows of a gathered tensor are admitted choices (R177). -/
def perToken (u : Tide) (x : Bytes) : Bool :=
  (u.t.gatherOf (tNum x)).isNone && (tInst x != 0 || (!u.t.isTraining && (tKind x == kActivation || tKind x == kStaging)))

/-- Rows of a stash tensor that hold anything: the tokens of the group, or every row of a gathered stash. -/
def State.stashRows (s : State) (u : Tide) (x : Bytes) : Nat :=
  if u.t.gatheredStash (tNum x) then tRows x else s.liveRows u

/-- Positions of a slot's context that the tide may read: the prompt up to the chunk, or all tokens so far. -/
def State.context (s : State) (u : Tide) (slot : Nat) : Nat :=
  match s.tideReq? u slot with
  | none => 0
  | some r => if u.range = 1 then min r.prompt.length ((u.chunkNo + 1) * u.t.chunk) else r.prompt.length + r.output.length

/-- The position that row `row` writes in its slot's cache. -/
def State.position (s : State) (u : Tide) (row : Nat) : Nat :=
  if u.range = 1 then u.chunkNo * u.t.chunk + row else s.context u row - 1

/-! ## Addresses -/

/-- The KV region record of a slot, and its base (R274). -/
def Table.slotBase (t : Table) (slot : Nat) : Nat :=
  match (t.recs secShoal 5).find? fun r => fld r 2 2 ≤ slot && slot < fld r 2 2 + fld r 4 2 with
  | none => 0
  | some r => fld r 8 8 + (slot - fld r 2 2) * fld r 0x10 8

/-- The base of the recompute reserve (R273). -/
def Table.reserveBase (t : Table) : Nat := match (t.recs secShoal 4).head? with | none => 0 | some r => fld r 8 8

/-- A frame offset of a stash or statistics tensor of a sample group: through its reservation, or in the recompute reserve, whose
page k holds the k-th frame page of the tensor's segment (R159, R272, R273). -/
def State.frameAddr (s : State) (u : Tide) (n off : Nat) : Nat :=
  match s.group? u.inst with
  | none => 0
  | some g =>
    if g.recompute then
      u.t.reserveBase + ((u.t.segmentPages (u.t.segmentOf n) g.tokens).idxOf (off / pageSize)) * pageSize + off % pageSize
    else g.pages.getD (off / pageSize) 0 + off % pageSize

/-- The physical address of an address or offset of a tensor's record, for row `row`. -/
def State.place (s : State) (u : Tide) (x : Bytes) (row a : Nat) : Nat :=
  let k := tKind x
  if k = kStash ∨ k = kStats then s.frameAddr u (tNum x) a
  else if k = kKey ∨ k = kValue then u.t.slotBase (u.slot row) + a
  else if tInst x = 1 then a + u.inst * tIStride x
  else if tInst x = 2 then a + u.slot row * tIStride x
  else a

/-- The row within the instance: a decode step gives each slot one token. -/
def Tide.rowIn (u : Tide) (x : Bytes) (row : Nat) : Nat :=
  if tInst x = 2 && u.range = 2 && !(tKind x == kKey || tKind x == kValue) then 0 else row

/-! ## Codes -/

/-- The format in which a tensor's codes stand: an activation gradient is L8 where it is narrowed and in a probe step (R64,
R70), a promoted activation is L8. -/
def State.codeFmt (s : State) (x : Bytes) : Fmt :=
  if tKind x = kGradient then (if s.run.probe || s.isNarrowed (tNum x) then .l8 else .g16) else s.storedFormat x

/-- `n` codes at a physical address, as the quays deliver them: NaR for the elements of a poisoned line (R201), L16 for a public
format (R202), and behind every write that arrived before (R193). -/
def State.codesAt (s : State) (x : Bytes) (f : Fmt) (a n : Nat) : List Nat :=
  if f.isPublic then loadCodes x s.view a (ceilDiv (n * f.bits) 8) else s.view.codes f a n

/-- A block from its codes and its scale byte: a scale in a poisoned line makes every element NaR (R201). -/
def State.scaled (s : State) (f : Fmt) (a : Nat) (codes : List Nat) : Block :=
  if s.view.isPoisoned a 1 then ⟨f, 0, codes.map fun _ => narCode f⟩ else ⟨f, s8OfByte (s.view.byte a).toNat, codes⟩

def zeroBlock (f : Fmt) : Block := ⟨f, if f.isBlock then -128 else 0, List.replicate 32 0⟩

/-- The scale array of feature-blocked L8 codes: a gradient without one keeps its probe scales behind its codes (log 28). -/
def scalesOf (x : Bytes) : Nat :=
  if tScales x = noAddr then tCodes x + tRows x * ceilDiv (tCols x) 32 * 32 else tScales x

/-- Block `b` of row `row`, along the columns. -/
def State.rowBlock (s : State) (u : Tide) (x : Bytes) (row b : Nat) : Block :=
  let f := s.codeFmt x
  let r := u.rowIn x row
  let pub := if f.isPublic then Fmt.l16 else f
  if perToken u x && s.liveRows u ≤ row then zeroBlock pub
  else if f.isBlock then
    let idx := r * ceilDiv (tCols x) 32 + b
    s.scaled f (s.place u x row (scalesOf x + idx)) (s.codesAt x f (s.place u x row (tCodes x + idx * blockBytes f)) 32)
  else
    let n := min 32 (tCols x - 32 * b)
    let a := if f = .g16 then panelAddr x 0 r (32 * b) else elemAddr x 0 r (32 * b)
    let cs := s.codesAt x f (s.place u x row a) n
    ⟨pub, 0, cs ++ List.replicate (32 - n) 0⟩

/-- One element of a row-major or panel tensor as an L19 value; G16 through its tensor's γ (R36). A host-staging tensor in G16 has no
gradient scale in the spec: it is read, and written, with γ = 0 (DESIGN CHOICE, log 82). -/
def State.elemVal (s : State) (u : Tide) (x : Bytes) (row c : Nat) : Val :=
  let b := s.rowBlock u x row (c / 32)
  if b.fmt = .g16 then g16ToL19 ((s.gammaOf (tNum x)).getD 0) (g16OfCode (b.codes.getD (c % 32) 0))
  else b.vals.getD (c % 32) .zero

/-- Block `tb` of 32 tokens, or positions, of column `col` (R157, R162, R182). -/
def State.colBlock (s : State) (u : Tide) (x : Bytes) (slotRow col tb : Nat) : Block :=
  let k := tKind x
  if k = kStash then
    if s.stashRows u x ≤ 32 * tb then zeroBlock .l4
    else
    let o := tokenBlockOff (tCols x) 16 tb col
    s.scaled .l4 (s.place u x 0 (tScales x + o.2)) (s.codesAt x .l4 (s.place u x 0 (tCodes x + o.1)) 32)
  else if k = kValue then
    let ctx := s.context u (u.slot slotRow)
    if (tb + 1) * 32 ≤ ctx then
      let o := tokenBlockOff (tCols x) 32 tb col
      s.scaled .l8 (s.place u x slotRow (tScales x + o.2)) (s.codesAt x .l8 (s.place u x slotRow (tCodes x + o.1)) 32)
    else if tb * 32 < ctx then
      let n := ctx - 32 * tb
      ⟨.l16, 0, s.codesAt x .l16 (s.place u x slotRow (tCodes2 x + 64 * col)) n ++ List.replicate (32 - n) 0⟩
    else zeroBlock .l8
  else
    let f := s.codeFmt x
    if f = .g16 then
      ⟨.g16, 0, (List.range 32).map fun j => (s.rowBlock u x (32 * tb + j) (col / 32)).codes.getD (col % 32) 0⟩
    else if f = .l8 && tCodes2 x != noAddr then
      let o := tokenBlockOff (tCols x) 32 tb col
      s.scaled .l8 (s.place u x 0 (tScales2 x + o.2)) (s.codesAt x .l8 (s.place u x 0 (tCodes2 x + o.1)) 32)
    else
      let e := encodeBlock .l8 false false none ((List.range 32).map fun j => s.elemVal u x (32 * tb + j) col)
      ⟨.l8, e.s8, e.codes⟩

/-! ## Weights (Table 9.5) -/

/-- A block of one piece of a weight against output column `line` (forward) or input row `line` (transposed).
For a weight in ledger indices the codes are the indices. A poisoned line makes NaR the elements whose mask or slot it holds (R201). -/
def State.weightBlock (s : State) (w : Bytes) (transposed : Bool) (piece line blk : Nat) : Block :=
  let f := tFmt w
  let a := weightBlockAddr w transposed piece line blk
  let codes := if tSparse w then
      (let n := sparseUnitBytes f
       expandPoisoned f (s.view.read a.1 n) ((List.range n).map fun k => s.view.isPoisoned (a.1 + k) 1))
    else s.codesAt w f a.1 32
  if hasScales f then s.scaled f a.2 codes else ⟨f, 0, codes⟩

/-- The ledger of the tile of a block (R98); a poisoned line makes its entries NaR. -/
def State.ledgerOf (s : State) (t : Table) (w : Bytes) (transposed : Bool) (line blk : Nat) : List Nat :=
  let n := if transposed then blk * tTilesI w + line / 32 else line / 32 * tTilesI w + blk
  match t.ledgerRec (tNum w) with
  | none => []
  | some l => s.codesAt w .l16 (dealt (fld l 8 8) n 32) 16

/-- The values of a weight block. -/
def State.weightVals (s : State) (t : Table) (w : Bytes) (line blk : Nat) : List Val :=
  let b := s.weightBlock w false 0 line blk
  if tFmt w = .ledger then b.codes.map (ledgerVal (s.ledgerOf t w false line blk)) else b.vals

/-! ## Token batches (Table 12.9) -/

structure Token where
  id : Nat
  target : Nat
  weight : Nat
deriving DecidableEq, Repr

def batchTokens (b : Bytes) : Nat := fld b 0x18 4

def batchToken (b : Bytes) (i : Nat) : Token :=
  let o := 64 + roundUp (4 * fld b 0x14 4) 64 + 16 * i
  ⟨fld b o 4, fld b (o + 4) 4, fld b (o + 8) 2⟩

/-- The retained batch of a sample group of the step. -/
def State.batch? (s : State) (group : Nat) : Option Batch := s.job.batches.find? fun b => b.step == s.job.step && b.group == group

/-- The bytes of a batch as they read now. -/
def State.batchBytes (s : State) (b : Batch) : Bytes := if b.inModule then s.view.raw b.addr b.data.length else b.data

/-- A batch that cannot be read, or whose digest differs (R369): its tokens are NaR. -/
def State.batchBad (s : State) (b : Batch) : Bool := b.bad || Config.batchDigest (s.batchBytes b) != BitVec.ofNat 64 b.digest

/-- The token of a row: `none` for a row without one; an unreadable batch names no identifier. -/
def State.tokenOf (s : State) (u : Tide) (row : Nat) : Option Token :=
  if s.liveRows u ≤ row then none
  else if u.t.isTraining then
    match (s.group? u.inst).bind fun g => s.batch? g.group with
    | none => none
    | some b => if s.batchBad b then some ⟨4294967295, 4294967295, 0x8000⟩ else some (batchToken (s.batchBytes b) row)
  else match s.tideReq? u (u.slot row) with
    | none => none
    | some r =>
      let p := s.position u row
      some ⟨(r.prompt ++ r.output).getD p 0, 0, 0⟩

/-! ## Experts (R176, R177) -/

/-- The ROUTE tide that a record depends on, and its ROUTER record. -/
def Table.routeOf (t : Table) (r : Bytes) : Option (Nat × Bytes) :=
  ((t.depsOf r).find? fun d => rKind (t.tide d) == .route).bind fun d => (t.router? (roRouter (t.tide d))).map fun x => (d, x)

/-- The expert whose weight a PRODUCT takes, and the place of that weight among the expert's tensors. -/
def expertOf (x r : Bytes) : Nat × Nat :=
  let per := max 1 (fld x 0x14 1)
  ((pStat r - fld x 0x12 2) / per, (pStat r - fld x 0x12 2) % per)

/-- The admitted choice at row `row` of an expert's operand: routing group row / C, place row mod C. -/
def State.admitted? (s : State) (u : Tide) (row : Nat) : Option Admit :=
  match u.t.routeOf u.bytes with
  | none => none
  | some (d, x) =>
    let e := (expertOf x u.bytes).1
    let c := max 1 (fld x 0xC 4)
    let g := max 1 (fld x 8 4)
    ((s.run.admits.filter fun a => a.tide == d && a.inst == u.inst && a.expert == e && a.token / g == row / c)[row % c]?)

/-- The tile that a record works on is one of an expert's rows. -/
def Table.variableTile (t : Table) (i : Nat) (r : Bytes) : Bool := pVariable (t.tide (tileOwner i r)) && rKind (t.tide (tileOwner i r)) == .product

/-- A record of an expert's last tensor, whose rows go back to their tokens (R177). -/
def Table.lastExpert (t : Table) (r : Bytes) : Bool :=
  pVariable r && (match t.routeOf r with
    | none => false
    | some d => t.kindOf (pStat r) == kWeight && t.statView r == .forward && (expertOf d.2 r).2 + 1 == fld d.2 0x14 1)

/-- The rows of a tensor that are places of admitted choices: the ROUTE tide, its ROUTER record, and the expert, none for the gathered
tensor, which has the places of every expert (R177; log 61). -/
def Table.placesOf (t : Table) (n : Nat) : Option (Nat × Bytes × Option Nat) :=
  match t.tides.zipIdx.find? fun p => rKind p.1 == .route && roGathered p.1 == n with
  | some p => (t.router? (roRouter p.1)).map fun x => (p.2, x, none)
  | none =>
    (t.tides.zipIdx.find? fun p => (rKind p.1 == .close || (rKind p.1 == .product && closesTile p.1)) && !pToRegion p.1 && pOut p.1 == n
        && t.variableTile p.2 p.1 && !t.lastExpert (t.tide (tileOwner p.2 p.1))).bind fun p =>
      let o := t.tide (tileOwner p.2 p.1)
      (t.routeOf o).map fun d => (d.1, d.2, some (expertOf d.2 o).1)

/-- The places of one expert: C for each routing group of the ROUTE. -/
def Table.expertPlaces (t : Table) (d : Nat) (x : Bytes) : Nat :=
  max 1 (ceilDiv (roTokens (t.tide d)) (max 1 (fld x 8 4)) * fld x 0xC 4)

/-- The admitted choice at a place of such a tensor: place p of routing group g of expert e stands at (e · groups + g) · C + p, or at
g · C + p in a tensor of expert e alone. -/
def State.choiceAt? (s : State) (u : Tide) (pl : Nat × Bytes × Option Nat) (p : Nat) : Option Admit :=
  let per := u.t.expertPlaces pl.1 pl.2.1
  let cap := max 1 (fld pl.2.1 0xC 4)
  let e := match pl.2.2 with | none => p / per | some e => e
  (s.run.admits.filter fun a => a.tide == pl.1 && a.inst == u.inst && a.expert == e
    && a.token / max 1 (fld pl.2.1 8 4) == p % per / cap)[p % cap]?

/-- Whether a PRODUCT streams the gathered rows of a ROUTE. -/
def Tide.gathers (u : Tide) : Bool :=
  pVariable u.bytes && (match u.t.routeOf u.bytes with | none => false | some d => roGathered (u.t.tide d.1) == pStream u.bytes)

/-! ## The operands of a PRODUCT (R76, R234; log 19) -/

/-- Block `tb` of 32 places, along column `col` of a gradient whose rows are tokens: the rows of the admitted tokens in admission order,
and zero where a place has no choice (R177). A narrowed gradient takes a scale for the places of the block (DESIGN CHOICE, log 61). -/
def State.gatheredCol (s : State) (u : Tide) (x : Bytes) (pl : Nat × Bytes × Option Nat) (col tb : Nat) : Block :=
  if s.codeFmt x = .g16 then
    ⟨.g16, 0, (List.range 32).map fun j => match s.choiceAt? u pl (32 * tb + j) with
      | none => 0
      | some a => (s.rowBlock u x a.token (col / 32)).codes.getD (col % 32) 0⟩
  else
    let e := encodeBlock .l8 false false none ((List.range 32).map fun j => match s.choiceAt? u pl (32 * tb + j) with
      | none => .zero
      | some a => s.elemVal u x a.token col)
    ⟨.l8, e.s8, e.codes⟩

/-- The source of a stash tensor. -/
def Table.stashSource (t : Table) (n : Nat) : Option Nat := ((t.recs secShoal 2).find? fun e => fld e 4 2 == n).map fun e => fld e 2 2

/-- Block `b` along the rows of a gradient, against the stationary operand of a weight gradient: along the places where that operand is
the stash of an expert's rows, along the tokens otherwise (R168, R177). -/
def State.featureBlock (s : State) (u : Tide) (x : Bytes) (col b : Nat) : Block :=
  match (u.t.stashSource (pStat u.bytes)).bind u.t.placesOf with
  | none => s.colBlock u x 0 col b
  | some pl => match u.t.placesOf (tNum x), pl.2.2 with
    | some (_, _, some _), none => s.colBlock u x 0 col (b % max 1 (u.t.expertPlaces pl.1 pl.2.1 / 32))
    | some _, _ => s.colBlock u x 0 col b
    | none, _ => s.gatheredCol u x pl col b

/-- Block `b` of streaming row `row`: an expert streams the rows of its admitted tokens in admission order (R177). -/
def State.streamBlock (s : State) (u : Tide) (x : Bytes) (row b : Nat) : Block :=
  if u.t.byFeature u.bytes then (if pOneHot u.bytes then s.colBlock u x 0 row b else s.featureBlock u x row b)
  else if pVariable u.bytes && (u.t.placesOf (tNum x)).isNone && perToken u x then
    match s.admitted? u row with
    | some a => s.rowBlock u x a.token b
    | none => zeroBlock (if (s.codeFmt x).isPublic then .l16 else s.codeFmt x)
  else if u.gathers then
    match s.admitted? u row, (u.t.routeOf u.bytes).bind fun d => u.t.tensor? (roInput (u.t.tide d.1)) with
    | some a, some y => s.rowBlock u y a.token b
    | _, some y => zeroBlock (if (s.codeFmt y).isPublic then .l16 else s.codeFmt y)
    | _, none => zeroBlock .l4
  else s.rowBlock u x row b

/-- The one-hot block of vocabulary identifier `col` over token block `b` (R168): an identifier outside the lookup weight is
NaR. -/
def State.oneHotBlock (s : State) (u : Tide) (col b : Nat) : Block :=
  ⟨.l2, 0, (List.range 32).map fun j =>
    match s.tokenOf u (32 * b + j) with
    | none => 0
    | some k => if u.t.statCols u.bytes ≤ k.id then 2 else if k.id = col then 1 else 0⟩

/-- Block `b` of stationary column `col` of a piece; `row` is the streaming row, for the slot of a cache. -/
def State.statBlock (s : State) (u : Tide) (piece row col b : Nat) : Block :=
  match u.t.statView u.bytes, u.t.tensor? (pStat u.bytes) with
  | .oneHot, _ => s.oneHotBlock u col b
  | _, none => zeroBlock .l4
  | .forward, some w => s.weightBlock w false piece col b
  | .transposed, some w => s.weightBlock w true piece col b
  | .alongRows, some w => s.colBlock u w row col b
  | .alongCols, some w =>
    if tKind w = kKey then
      (if s.context u (u.slot row) ≤ col then zeroBlock .l8
       else
        let idx := col * ceilDiv (tCols w) 32 + b
        s.scaled .l8 (s.place u w row (tScales w + idx)) (s.codesAt w .l8 (s.place u w row (tCodes w + 32 * idx)) 32))
    else s.rowBlock u w col b

/-! ## Rows of lane inputs (R139, R157, R163; log 27) -/

/-- `n` values of row `row` from column `c0` on. A weight of one row gives that row; of more rows, the row that the token's
identifier names, NaR beyond them (R367). -/
def State.rowVals (s : State) (u : Tide) (x : Bytes) (row c0 n : Nat) : List Val :=
  let k := tKind x
  if k = kWeight then
    let i := if tRows x = 1 then some 0 else (s.tokenOf u row).map (·.id)
    (List.range n).map fun j => match i with
      | none => .zero
      | some i => if tRows x ≤ i then .nar else (s.weightVals u.t x (c0 + j) (i / 32)).getD (i % 32) .zero
  else if k = kStash then (List.range n).map fun j => (s.colBlock u x 0 (c0 + j) (row / 32)).vals.getD (row % 32) .zero
  else if k = kStats then
    let b := u.t.statWidth (tNum x)
    let vs := (s.codesAt x .l16 (s.place u x row (tCodes x + b * row)) (b / 2)).map l16
    (List.range n).map fun j => vs.getD (j % max 1 (b / 2)) .zero
  else (List.range n).map fun j => s.elemVal u x row (c0 + j)

end Sys2Proof.Machine
end

