-- ==== Sys2Proof/Machine/TideOps.lean ====
section
/-! DEFINITION. What a tide writes: regions, closed rows, row statistics, cache rows, expert outputs and stash blocks (spec/04,
R110 to R137; spec/05, R149 to R152; spec/06, R155 to R163, R175 to R182; spec/07, R211; logs 15, 27, 28, 29). -/

namespace Sys2Proof.Machine

/-! ## Anchors (R111, R112, R235) -/

def clampGamma (g : Int) : Int := min 63 (max (-64) g)

def State.anchorGamma (s : State) (n : Nat) : Int := (s.gammaOf n).getD (clampGamma (Config.probeGamma n))

def State.tensorAnchor (s : State) (x : Bytes) : Int :=
  anchorOf (tAKind x) (tAnchor x) (s.anchorGamma (tGamma x)) s.job.scale.lam

def State.regionAnchor (s : State) (g : Bytes) : Int :=
  anchorOf (gAKind g) (gAnchor g) (s.anchorGamma (gGamma g)) s.job.scale.lam

/-- The anchor of the tensor or region that a closing record writes. -/
def State.closeAnchor (s : State) (t : Table) (r : Bytes) : Int :=
  if pToRegion r then (match t.regionOf r with | none => 0 | some g => s.regionAnchor g)
  else match t.tensor? (pOut r) with | none => 0 | some x => s.tensorAnchor x

/-- The region that a PARTIAL_LOAD adds into the tile of record `o`. -/
def Table.loadedRegion? (t : Table) (o : Nat) : Option Bytes :=
  (t.tides.find? fun r => rKind r == .partialLoad && plTileRef r == o).bind fun r => t.tides[plRegion r]?

/-- The anchor of the tile that record `o` opened: a gathering tile's own (R135), that of the A64 region loaded into it, whose
integers it takes as they are (R121), or that of the tensor or region that its close writes (R235). -/
def State.tileAnchor (s : State) (t : Table) (o : Nat) : Int :=
  if rKind (t.tide o) = .gatherOpen then s.job.scale.lam + goDelta (t.tide o)
  else match t.loadedRegion? o with
    | some g => s.regionAnchor g
    | none => match t.closer? o with | none => 0 | some r => s.closeAnchor t r

/-! ## Reports of a step -/

/-- An event raised at most once in a step for a key of its own. -/
def State.raiseKey (key : Nat × Nat × Nat) (code kind index : Nat) (fs : List (Nat × Nat × Nat)) (s : State) : State :=
  if s.run.once.contains key then s
  else (s.modRun fun r => { r with once := r.once ++ [key] }).raise code kind index fs

/-- CLIFF_OVERFLOW of a tide's tile, at most once a step (R118). -/
def State.cliffEvent (u : Tide) (owner tensor tile : Nat) (c : CliffCause) (s : State) : State :=
  s.raiseKey (0x10101, owner, u.inst) 0x0101 srcStall u.stall
    [(0x20, 1, c.code), (0x24, 4, u.idx), (0x28, 2, tensor), (0x2A, 1, tile)]

/-- NAR_SEEN, at most once a step for a tensor (log 29). -/
def State.narEvent (kind index tensor record row col : Nat) (s : State) : State :=
  s.raiseKey (0x10102, tensor, 0) 0x0102 kind index [(0x20, 2, tensor), (0x24, 4, record), (0x28, 4, row), (0x2C, 4, col)]

/-- Statistics of a tensor join those of the step (R44). -/
def State.noteStat (n : Nat) (st : TensorStat) (s : State) : State := s.modRun fun r => { r with stats := mergeInto r.stats n st }

/-! ## Partial-sum regions (R130 to R133, R277) -/

/-- The address of a location: that of its parameter in a bucket's region, linear from the base in another (R277). -/
def Table.regionAddr (t : Table) (g : Bytes) (loc : Nat) : Nat :=
  match t.regionWeight g with
  | some w =>
    let p := regionParam w loc
    accAddr w (p.1 / 32 * tTilesI w + p.2 / 32) (32 * (p.1 % 32) + p.2 % 32)
  | none => gBase g + (if gIsP32 g then 4 else 8) * loc

/-- The completion count in this step: the declared one counts Gmax sample groups (R277). -/
def State.regionDue (s : State) (t : Table) (i : Nat) : Nat :=
  let g := t.tide i
  if t.rangeOf i = 1 || !t.isTraining then gDone g
  else gDone g - (t.maxInst - s.run.groups.length) * sumList (((t.writersOf i).filter fun w => t.rangeOf w.2 == 1).map fun w => t.covers (gPitch g) w 0)

def State.region? (s : State) (i inst : Nat) : Option Region := s.run.regions.find? fun r => r.tide == i && r.inst == inst

def State.setRegion (i inst : Nat) (f : Region → Region) (s : State) : State :=
  s.modRun fun r => { r with regions := r.regions.map fun x => if x.tide = i && x.inst = inst then f x else x }

/-- Bytes of a location. -/
def locSize (g : Bytes) : Nat := if gIsP32 g then 4 else 8

/-- The stored value of a location, behind every write and add that arrived before (R131, R204); a poisoned line delivers NaR
(R201). -/
def State.locValue (s : State) (g : Bytes) (a : Nat) : Option Int :=
  let m := s.view
  if m.isPoisoned a (locSize g) then none
  else if gIsP32 g then p32OfCode (leNat (m.read a 4)) else a64OfCode (leNat (m.read a 8))

def locBytes (g : Bytes) (v : Option Int) : Bytes := if gIsP32 g then toLe 4 (p32Code v) else toLe 8 (a64Code v)

/-- CLIFF_OVERFLOW of a sum, at most once a step: for a bucket's region under the bucket's key, for another under the region's
(R118). -/
def State.sumCliff (g : Bytes) (i inst kind index : Nat) (fs : List (Nat × Nat × Nat)) (s : State) : State :=
  s.raiseKey (if gBucket g = 0xFFFF then (0x30101, i, inst) else (0x20101, gBucket g, 0)) 0x0101 kind index fs

/-- One contribution applied to a location of an open region: an exact add, counted with the block contributions that it brings; a NaR
or cliff mark, a write above the completion count, or contributions above 2^φ, make the location NaR (R117, R132). -/
def State.applyAdd (t : Table) (i inst loc : Nat) (c : Contribution) (s : State) : State :=
  match s.region? i inst with
  | none => s
  | some rg =>
    let g := t.tide i
    let due := s.regionDue t i
    let a := t.regionAddr g loc
    let q := (locate t.pinned a).1
    let n := kvGet rg.counts loc + 1
    let b := kvGet rg.blocks loc + c.blocks
    let excess := due < n || 2 ^ gPhi g < b
    let old := if rg.cliffs.contains loc then none else s.locValue g a
    let new := if c.nar || c.cliff || excess then none else match old with | none => none | some v => some (v + c.value)
    let s := (s.memWrite a (locBytes g new)).count (tpAt q 0x10) 1
    let s := s.setRegion i inst fun x =>
      { x with counts := kvPut x.counts loc n, blocks := kvPut x.blocks loc b, cliffs := if c.cliff || excess then setAdd loc x.cliffs else x.cliffs }
    let s := s.modRun fun r => { r with stepCliff := r.stepCliff || c.cliff || excess, stepNar := r.stepNar || c.nar }
    let s := if excess then s.sumCliff g i inst srcPile q
        [(0x20, 1, CliffCause.count.code), (0x24, 4, i), (0x28, 2, gBucket g)] else s
    match s.region? i inst with
    | none => s
    | some rg =>
      if (List.range (gLocs g)).all fun l => !t.carries g l || due ≤ kvGet rg.counts l then
        s.setRegion i inst fun x => { x with complete := true }
      else s

/-- A contribution that reaches a region: it waits while the region is not open (R130). -/
def State.regionAdd (t : Table) (i inst loc : Nat) (c : Contribution) (s : State) : State :=
  if !t.carries (t.tide i) loc then s
  else match s.region? i inst with
    | none => s.modRun fun r => { r with regions := r.regions ++ [⟨i, inst, false, [], [], [], false, [(loc, c)]⟩] }
    | some rg =>
      if rg.opened then s.guarded .quayUnit [(true, t.regionAddr (t.tide i) loc, locSize (t.tide i))] (State.applyAdd t i inst loc c)
      else s.setRegion i inst fun x => { x with waiting := x.waiting ++ [(loc, c)] }

/-- The byte ranges of a region: those of its bucket's accumulator, or its own (R277). -/
def Table.regionRanges (t : Table) (g : Bytes) : List (Nat × Nat) :=
  match t.regionWeight g with
  | some w => accRanges w
  | none => [(gBase g, regionBytes g)]

/-- Open a region: zero to every location, then the contributions that waited, in order (R130), where its pages let the quays write
(R212). -/
def State.openRegion (t : Table) (i inst : Nat) (s : State) : State :=
  let g := t.tide i
  s.guarded .quayUnit ((t.regionRanges g).map fun a => (true, a.1, a.2)) fun s =>
  let waiting := match s.region? i inst with | none => [] | some rg => rg.waiting
  let s := (List.range (gLocs g)).foldl (fun s l => s.memWrite (t.regionAddr g l) (locBytes g (some 0))) s
  let empty := (List.range (gLocs g)).all fun l => !t.carries g l || s.regionDue t i == 0
  let s := s.modRun fun r => { r with regions := r.regions.filter (fun x => !(x.tide == i && x.inst == inst))
      ++ [⟨i, inst, true, [], [], [], empty, []⟩] }
  waiting.foldl (fun s w => s.guarded .quayUnit [(true, t.regionAddr g w.1, locSize g)] (State.applyAdd t i inst w.1 w.2)) s

/-- The region instance that a tide of instance `inst` writes. -/
def Table.regionInst (t : Table) (g u inst : Nat) : Nat := if t.rangeOf g = t.rangeOf u then inst else 0

/-! ## Writing rows -/

/-- Codes (and scale bytes) of row `row` of a tensor, from column `c0` on. `r` is the row within the instance. -/
def State.putRowAt (u : Tide) (x : Bytes) (row r c0 : Nat) (f : Fmt) (codes : List Nat) (scales : List Int) (s : State) : State :=
  if f.isBlock then
    ((groups32 codes.length codes).zip scales).zipIdx.foldl (fun s p =>
      let idx := r * ceilDiv (tCols x) 32 + c0 / 32 + p.2
      let cs := p.1.1 ++ List.replicate (32 - p.1.1.length) 0
      let s := s.memWrite (s.place u x row (tCodes x + idx * blockBytes f)) (packCodes f cs)
      s.memWrite (s.place u x row (scalesOf x + idx)) [BitVec.ofNat 8 (byteOfS8 p.1.2)]) s
  else if f = .g16 then
    (groups32 codes.length codes).zipIdx.foldl (fun s p =>
      s.memWrite (s.place u x row (panelAddr x 0 r (c0 + 32 * p.2))) (packCodes .g16 p.1)) s
  else s.memWrite (s.place u x row (elemAddr x 0 r c0)) (packCodes f codes)

def State.putRow (u : Tide) (x : Bytes) (row c0 : Nat) (f : Fmt) (c : ClosedRow) (s : State) : State :=
  s.putRowAt u x row (u.rowIn x row) c0 f c.codes c.scales

/-- The draws of a row of a narrowed gradient at tile close (R30, R31): every element has one, by its logical position. A LANE or a host
layer rounds to nearest. -/
def State.rowDraws (s : State) (u : Tide) (x : Bytes) (row c0 n : Nat) : Draws :=
  if (rKind u.bytes == .product || rKind u.bytes == .close) && tKind x = kGradient && !s.run.probe && s.isNarrowed (tNum x) then
    some ((List.range n).map fun j => draw u.t.seed s.job.step (u.t.stream (tNum x)) (row * tCols x + c0 + j))
  else none

/-- The token-blocked second copy of a gradient held in L8 (R162): whole token blocks of the rows written. DESIGN CHOICE (log 59):
the statistics of the tensor count the first copy alone, so that no element counts twice. -/
def State.putTokenCopy (u : Tide) (x : Bytes) (row0 c0 : Nat) (rows : List (List Val)) (s : State) : State :=
  if tKind x != kGradient || s.codeFmt x != .l8 || tCodes2 x = noAddr then s
  else
    let w := (rows.headD []).length
    (List.range (rows.length / 32)).foldl (fun s k => (List.range w).foldl (fun s c =>
      let vs := (List.range 32).map fun j => (rows.getD (32 * k + j) []).getD c .zero
      let us := (List.range 32).map fun j => (drawAt (s.rowDraws u x (row0 + 32 * k + j) (c0 + c) 1) 0)
      let e := encodeBlock .l8 false false (if us.all Option.isSome then some (us.map (·.getD 0)) else none) vs
      let o := tokenBlockOff (tCols x) 32 (row0 / 32 + k) (c0 + c)
      let s := s.memWrite (s.place u x 0 (tCodes2 x + o.1)) (packCodes .l8 e.codes)
      s.memWrite (s.place u x 0 (tScales2 x + o.2)) [BitVec.ofNat 8 (byteOfS8 e.s8)]) s) s

/-- Whether a magnitude v · 2^e exceeds (2^15 − 1) · 2^(γ−15) (R51, R64). -/
def exceedsG16 (v : Nat) (e gamma : Int) : Bool :=
  let d := e - (gamma - 15)
  if 0 ≤ d then 32767 < v * 2 ^ d.toNat else 32767 * 2 ^ (-d).toNat < v

/-- A value of position k beyond the G16 range of γ: 2^(k/1024) > 32767 · 2^(γ−15) exactly where k ≥ 1024 γ, as 32767
lies between 2^(15 − 1/1024) and 2^15. -/
def valExceedsG16 (gamma : Int) : Val → Bool
  | .num _ k => 1024 * gamma ≤ k
  | .inf _ => true
  | _ => false

/-- The statistics of a close: a narrowed gradient reports its saturation against G16 (R64). An element that saturates in the L8
conversion lies beyond every G16 range, so the larger count holds both (DEDUCED, log 83). -/
def State.gradStat (s : State) (x : Bytes) (beyond : Nat) (st : TensorStat) : TensorStat :=
  if tKind x = kGradient && s.codeFmt x = .l8 && !s.run.probe then { st with sat := max st.sat beyond } else st

/-- Whether a tensor is a promoted layer's (R62). -/
def State.promoted (s : State) (x : Bytes) : Bool := s.job.scale.formats.any fun p => p.tensor == tNum x && p.l8

/-- The format of a row as it is first written: the open block of a value cache holds L16 (R182). -/
def State.rowFmt (s : State) (x : Bytes) : Fmt := if tKind x = kValue then .l16 else s.codeFmt x

/-- One row of lane results narrowed at its write (R139). -/
def State.laneRowOut (s : State) (u : Tide) (x : Bytes) (row c0 : Nat) (vs : List Val) : ClosedRow :=
  let gamma := (s.gammaOf (tNum x)).getD 0
  let c := writeRow (s.rowFmt x) (tIeee x) (tFault x) (s.promoted x) gamma (s.rowDraws u x row c0 vs.length) vs
  { c with stat := s.gradStat x (vs.countP (valExceedsG16 gamma)) c.stat }

/-- One row closed from accumulators without a lane chain (R149, R150). -/
def State.closedRow (s : State) (u : Tide) (x : Bytes) (row c0 : Nat) (alpha : Int) (accs : List Acc) : ClosedRow :=
  let f := s.rowFmt x
  let gamma := (s.gammaOf (tNum x)).getD 0
  if f.isPublic then
    let c := s.laneRowOut u x row c0 (accs.map (accVal alpha))
    { c with stat := withPre (preStat alpha false accs) c.stat }
  else
    let c := closeRow f (tFault x) (s.promoted x) alpha gamma (s.rowDraws u x row c0 accs.length) accs
    { c with stat := s.gradStat x (accs.countP fun a => a.counts && exceedsG16 a.v.natAbs (alpha - 48) gamma) c.stat }

/-- The pile of an address. -/
def State.pileOf (s : State) (a : Nat) : Nat := (locate s.pinned a).1

/-- What a quay's load or store path reports of a write that converted: its statistics and, on an overflow-is-fault tensor, the
cliff (R38, R40). -/
def State.storeReport (a record row col : Nat) (x : Bytes) (st : TensorStat) (s : State) : State :=
  let s := s.noteStat (tNum x) st
  let s := if st.cliff then s.raiseKey (0x10101, tNum x, 0xFFFF) 0x0101 srcPile (s.pileOf a)
      [(0x20, 1, CliffCause.conversion.code), (0x24, 4, record), (0x28, 2, tNum x)] else s
  if st.nar then s.narEvent srcPile (s.pileOf a) (tNum x) record row col else s

/-- The token of a row of a tensor: the row itself, or that of the choice admitted at its place (R177). -/
def State.rowToken (s : State) (u : Tide) (x : Bytes) (row : Nat) : Nat :=
  match u.t.placesOf (tNum x) with
  | none => row
  | some pl => match s.choiceAt? u pl row with | some a => a.token | none => row

/-- A conversion of a request's row met the cliff of an overflow-is-fault tensor: the outputs of the request are NaR from here on (R59;
log 74). -/
def State.spoil (u : Tide) (x : Bytes) (row : Nat) (s : State) : State :=
  if u.t.isTraining || u.range = 0 then s
  else
    let slot := u.slot (s.rowToken u x row)
    s.modRun fun r => { r with serves := r.serves.map fun q => if q.slot = some slot then { q with spoiled := true } else q }

/-- Whether a stored code reads as NaR (R17, R38). -/
def isNarCode (f : Fmt) (c : Nat) : Bool := if f.isPublic then (loadPublic f false c).isNar else c == narCode f

/-- The column of the first NaR of a written row (R23). -/
def State.narColumn (s : State) (x : Bytes) (c0 : Nat) (codes : List Nat) : Nat :=
  match codes.findIdx? (isNarCode (s.rowFmt x)) with | some i => c0 + i | none => c0

/-- What a written row reports: its statistics, a conversion cliff (cause 3) and the first NaR. The rows of a host-delegated layer
are written by the quays (R42, R179). -/
def State.reportRow (u : Tide) (x : Bytes) (row c0 tile : Nat) (accCliff : Bool) (c : ClosedRow) (s : State) : State :=
  let s := if c.stat.cliff && !accCliff then s.spoil u x row else s
  let col := s.narColumn x c0 c.codes
  if rKind u.bytes = .hostLayer then s.storeReport (s.place u x row (tCodes x)) u.idx row col x c.stat
  else
  let s := s.noteStat (tNum x) c.stat
  let s := if c.stat.cliff && !accCliff then s.cliffEvent u (tileOwner u.idx u.bytes) (tNum x) tile .conversion else s
  if c.stat.nar then s.narEvent srcStall u.stall (tNum x) u.idx row col else s

/-! ## Row statistics (R157; log 27) -/

/-- The root mean square of a row, and its mean and reciprocal standard deviation, as the functions of Table 5.2 form them. R157 names
the two statistics alone: they include the epsilon of the normalisation (DESIGN CHOICE, log 84). -/
def rmsRoot (eps : Val) (row : List Val) : Val :=
  laneSqrt (logAdd (laneDiv (tree logAdd (row.map (lanePow 2))) (countVal row.length)) eps)

def meanDev (eps : Val) (row : List Val) : Val × Val :=
  let mu := laneDiv (tree logAdd row) (countVal row.length)
  let var := laneDiv (tree logAdd (row.map fun v => lanePow 2 (logSub v mu))) (countVal row.length)
  (mu, laneRecip (laneSqrt (logAdd var eps)))

/-- The row statistics of a chain that ends in a normalisation, as L19 values. -/
def normStats (init : Nat → Nat → Val) (steps : List LaneStep) (inputs : List (List Val)) : List Val :=
  match steps.getLast? with
  | none => []
  | some l =>
    let before := chainRun init steps.dropLast inputs
    let x := laneFetch init (inputs.headD []).length inputs before.regs l.x
    match l.fn with
    | .rmsNorm e => [rmsRoot (l16 e) x]
    | .layerNorm e => let m := meanDev (l16 e) x; [m.1, m.2]
    | _ => []

/-- The stash entry of a source tensor. -/
def Table.stashOf (t : Table) (n : Nat) : Option Bytes := (t.recs secShoal 2).find? fun e => fld e 2 2 == n

def State.recomputes (s : State) (u : Tide) : Bool := match s.group? u.inst with | none => false | some g => g.recompute

/-- Write a row's statistics to the shoal beside the stash; a group in recompute mode writes them with its segment (R159). -/
def State.putStats (u : Tide) (n row : Nat) (vs : List Val) (s : State) : State :=
  match (u.t.stashOf n).bind fun e => u.t.tensor? (fld e 6 2), vs with
  | none, _ => s
  | some _, [] => s
  | some x, vs =>
    let c := s.laneRowOut u x row 0 vs
    let s := s.reportRow u x row 0 0 false c
    if s.recomputes u then
      s.modRun fun r => { r with latent := (r.latent.filter fun l => !(l.tensor == tNum x && l.inst == u.inst && l.row == row))
        ++ [⟨tNum x, u.inst, row, c.codes⟩] }
    else s.memWrite (s.place u x row (tCodes x + 2 * vs.length * row)) (packCodes .l16 c.codes)

/-! ## Segment checkpoints (R159, R273) -/

/-- The offset of a checkpoint in a group's checkpoint frame: the checkpoints of the lower segments stand before it, each with room for
its codes in the format in which the table accounts it (R63) and then its scale bytes (log 60). -/
def Table.checkpointOffset (t : Table) (seg tokens : Nat) : Nat :=
  ((t.recs secShoal 3).take seg).foldl (fun a r => match t.tensor? (fld r 4 2) with
    | none => a
    | some x =>
      let f := t.countFmt (tNum x)
      a + tokens * ceilDiv (tCols x) 32 * (blockBytes f + (if f.isBlock then 1 else 0))) 0

/-- A byte string at an offset of the pages that a group holds. -/
def State.frameWrite (pages : List Nat) (off : Nat) (bs : Bytes) (s : State) : State :=
  bs.zipIdx.foldl (fun s b => s.memWrite (pages.getD ((off + b.2) / pageSize) 0 + (off + b.2) % pageSize) [b.1]) s

/-- In recompute mode the forward writes each checkpoint, in its forward format, to the pages that the group holds. -/
def State.putCheckpoint (u : Tide) (x : Bytes) (row c0 : Nat) (c : ClosedRow) (s : State) : State :=
  match s.group? u.inst with
  | none => s
  | some g =>
    if !g.recompute then s
    else ((u.t.recs secShoal 3).filter fun r => fld r 4 2 == tNum x).foldl (fun s r =>
      let o := u.t.checkpointOffset (fld r 2 2) g.tokens
      let nb := ceilDiv (tCols x) 32
      let s := s.frameWrite g.pages (o + (row * nb + c0 / 32) * blockBytes (s.codeFmt x)) (packCodes (s.codeFmt x) c.codes)
      if (tFmt x).isBlock then
        s.frameWrite g.pages (o + g.tokens * nb * blockBytes (u.t.countFmt (tNum x)) + row * nb + c0 / 32) (c.scales.map fun z => BitVec.ofNat 8 (byteOfS8 z))
      else s) s

/-! ## Cache rows (R182) -/

/-- A value row: into the open block as L16, and the thirty-second position packs the block into L8. -/
def State.putValue (u : Tide) (x : Bytes) (row c0 : Nat) (codes : List Nat) (s : State) : State :=
  let p := s.position u row
  codes.zipIdx.foldl (fun s v =>
    let f := c0 + v.2
    let a := s.place u x row (tCodes2 x + 64 * f)
    let s := s.memWrite (a + 2 * (p % 32)) (toLe 2 v.1)
    if p % 32 = 31 then
      let vs := (s.codesAt x .l16 a 32).map l16
      let e := encodeBlock .l8 (tFault x) false none vs
      let o := tokenBlockOff (tCols x) 32 (p / 32) f
      let s := s.memWrite (s.place u x row (tCodes x + o.1)) (packCodes .l8 e.codes)
      let s := s.memWrite (s.place u x row (tScales x + o.2)) [BitVec.ofNat 8 (byteOfS8 e.s8)]
      s.reportRow u x p f 0 false ⟨e.codes, [e.s8], { e.stat with c := 0 }⟩
    else s) s

/-- Whether a row of a cache tensor has a request to belong to. -/
def State.cacheLive (s : State) (u : Tide) (row : Nat) : Bool := row < s.liveRows u && (s.tideReq? u (u.slot row)).isSome

/-- A written row of a tensor, with its reports. A cache row goes to its slot: a key row complete, a value row into its open
block. -/
def State.putOut (u : Tide) (x : Bytes) (row c0 tile : Nat) (accCliff : Bool) (c : ClosedRow) (s : State) : State :=
  if tKind x = kKey ∨ tKind x = kValue then
    if !s.cacheLive u row then s
    else
      let s := if tKind x = kKey then s.putRowAt u x row (s.position u row) c0 .l8 c.codes c.scales else s.putValue u x row c0 c.codes
      s.reportRow u x row c0 tile accCliff c
  else ((s.putRow u x row c0 (s.codeFmt x) c).putCheckpoint u x row c0 c).reportRow u x row c0 tile accCliff c

/-- Write one row of L19 values into a tensor; `adj` adds to its statistics what came before the write. -/
def State.putVals (u : Tide) (x : Bytes) (row c0 tile : Nat) (adj : TensorStat → TensorStat) (vs : List Val) (s : State) : State :=
  let c := s.laneRowOut u x row c0 vs
  let st := adj c.stat
  s.putOut u x row c0 tile (st.cliff && !c.stat.cliff) { c with stat := st }

/-! ## Lane chains in a stall (R139, R151, R156, R163; logs 56, 57) -/

/-- What the registers of a stall's lanes hold. -/
def State.laneInit (s : State) (i : Nat) : Nat → Nat → Val := fun r j => Val.ofCode (kvGet (s.stall i).lanes (64 * (j % 128) + r))

/-- The registers that a chain has written. -/
def State.keepLanes (i : Nat) (a : ChainRun) (s : State) : State :=
  s.setStall i fun x => { x with lanes := a.written.foldl (fun l p => kvPut l p.1 p.2) x.lanes }

/-- The inputs of the chain of a close: the L19 intermediates, then the tensors that give a bias, a gain, a stash or row
statistics (free values, log 57); an absent one reads zero. -/
def State.closeInputs (s : State) (u : Tide) (row c0 : Nat) (first : List Val) : List (List Val) :=
  first :: [1, 2].map fun k => match u.t.tensor? (Config.closeInput u.t.digest u.idx k) with
    | none => List.replicate first.length .zero
    | some x => s.rowVals u x row c0 first.length

/-- The intermediates of a row as its chain takes them: first column, values, what they counted. A chain with a function of the
whole row waits until every column tile of the row has closed (R147; log 57). -/
def State.joinRow (u : Tide) (x : Bytes) (row c0 : Nat) (ch : List LaneStep) (vals : List Val) (pre : TensorStat) (s : State) :
    Option (Nat × List Val × TensorStat) × State :=
  if !(ch.any fun o => laneFnIsRow o.fn) || tCols x ≤ vals.length then (some (c0, vals, pre), s)
  else
    let mine := fun (p : RowPart) => p.tensor == tNum x && p.inst == u.inst && p.row == row
    let all := (s.run.rowParts.filter fun p => !(mine p && p.col == c0)) ++ [⟨tNum x, u.inst, row, c0, vals.map (·.code), pre⟩]
    let row' := sortBy (fun (p q : RowPart) => p.col < q.col) (all.filter mine)
    if sumList (row'.map fun p => p.codes.length) < tCols x then (none, s.modRun fun r => { r with rowParts := all })
    else
      (some (0, row'.flatMap fun p => p.codes.map Val.ofCode, (row'.map (·.stat)).foldl mergeStat TensorStat.empty),
        s.modRun fun r => { r with rowParts := all.filter fun p => !mine p })

/-- A closed row after its chain: first column, values, what was counted before the write; `none` while the row waits. -/
def State.chainRow (u : Tide) (x : Bytes) (row c0 : Nat) (alpha : Int) (ch : List LaneStep) (accs : List Acc) (s : State) :
    Option (Nat × List Val × TensorStat) × State :=
  let pre := preStat alpha (s.promoted x) accs
  let vals := accs.map (accVal alpha)
  if ch.isEmpty then (some (c0, vals, pre), s)
  else match s.joinRow u x row c0 ch vals pre with
    | (none, s) => (none, s)
    | (some p, s) =>
      let ins := s.closeInputs u row p.1 p.2.1
      let init := s.laneInit u.stall
      let r := chainRun init ch ins
      let s := ((s.putStats u (tNum x) row (normStats init ch ins)).keepLanes u.stall r).count (stAt u.stall 0x150) ch.length
      (some (p.1, r.last, addFlushes r.flushes p.2.2), s)

/-! ## Expert outputs (R176, R177; log 30) -/

/-- The expert index that marks a token routed to no expert. -/
def noExpert : Nat := 65535

/-- The choices of a token that were admitted. -/
def State.choices (s : State) (d inst token : Nat) : List Admit :=
  s.run.admits.filter fun a => a.tide == d && a.inst == inst && a.token == token && a.expert != noExpert

/-- Flushes of rows added one to the next. -/
def sumFlush : List Val → List (List Val) → Nat
  | _, [] => 0
  | acc, r :: rest => sumList (List.zipWith addFlush acc r) + sumFlush (List.zipWith logAdd acc r) rest

/-- One weighted expert output: once every admitted choice of its token stands, their sum in ascending rank is added to the
token's residual row. DESIGN CHOICE (log 30): R177 names no tensor for the residual row, and the model takes the contents of the
output tensor as they stand. -/
def State.gateOut (u : Tide) (x : Bytes) (a : Admit) (c0 tile : Nat) (vs : List Val) (pre : TensorStat) (s : State) : State :=
  let g := Val.ofCode a.weight
  let mine := fun (o : GateOut) => o.tide == a.tide && o.inst == a.inst && o.token == a.token && o.out == tNum x && o.col == c0
  let o : GateOut := ⟨a.tide, a.inst, a.token, a.rank, tNum x, c0, (vs.map (laneMul · g)).map (·.code),
    addFlushes (sumList (vs.map (mulFlush · g))) pre⟩
  let all := (s.run.gated.filter fun p => !(mine p && p.rank == a.rank)) ++ [o]
  let have' := sortBy (fun (p q : GateOut) => p.rank < q.rank) (all.filter mine)
  if have'.length < (s.choices a.tide a.inst a.token).length then s.modRun fun r => { r with gated := all }
  else
    let rows := have'.map fun p => p.codes.map Val.ofCode
    let sum := (rows.drop 1).foldl (fun acc r => List.zipWith logAdd acc r) (rows.headD [])
    let res := (List.range vs.length).map fun j => s.elemVal u x a.token (c0 + j)
    let counted := addFlushes (sumFlush (rows.headD []) (rows.drop 1) + sumList (List.zipWith addFlush res sum))
      ((have'.map (·.stat)).foldl mergeStat TensorStat.empty)
    (s.modRun fun r => { r with gated := all.filter fun p => !mine p }).putVals u x a.token c0 tile (withPre counted)
      (List.zipWith logAdd res sum)

/-- Whether a PRODUCT makes the last tensor of an expert. -/
def Tide.lastExpert (u : Tide) : Bool := u.t.lastExpert u.bytes

/-- The tokens of routing group `g` of a ROUTE that no expert takes. -/
def State.unrouted (s : State) (u : Tide) (row : Nat) : List Nat :=
  match u.t.routeOf u.bytes with
  | none => []
  | some (d, x) =>
    (s.run.admits.filter fun a => a.tide == d && a.inst == u.inst && a.expert == noExpert
      && a.token / max 1 (fld x 8 4) == row / max 1 (fld x 0xC 4)).map (·.token)

/-! ## Closing a tile (R126, R149 to R151, R235, R236) -/

/-- A resident accumulator on the anchor's grid. -/
def Acc.toAnchored (alpha : Int) (a : Acc) : Acc :=
  match residentToA64 a.v a.e alpha with
  | some n => { a with v := n, e := 0 }
  | none => { a with v := 0, e := 0, cliff := a.cliff || !a.nar }

/-- One closed row of an expert's last tensor. -/
def State.closeExpertRow (u : Tide) (x : Bytes) (row c0 tile : Nat) (alpha : Int) (ch : List LaneStep) (accs : List Acc) (s : State) :
    State :=
  let cap := match u.t.routeOf u.bytes with | none => 1 | some d => max 1 (fld d.2 0xC 4)
  let s := if row % cap = 0 then
      (s.unrouted u row).foldl (fun s k => s.putVals u x k c0 tile id (List.replicate accs.length .nar)) s else s
  match s.admitted? u row with
  | none => s
  | some a => match s.chainRow u x row c0 alpha ch accs with
    | (none, s) => s
    | (some p, s) => s.gateOut u x a p.1 tile p.2.1 p.2.2

/-- One closed row into its tensor, and the values written with their first column. -/
def State.closeOneRow (u : Tide) (x : Bytes) (row c0 tile : Nat) (alpha : Int) (ch : List LaneStep) (accs : List Acc) (s : State) :
    (Nat × List Val) × State :=
  let cache := tKind x = kKey ∨ tKind x = kValue
  if !cache && tRows x ≤ row && tInst x != 2 then ((c0, []), s)
  else if ch.isEmpty then
    ((c0, accs.map (accVal alpha)), s.putOut u x row c0 tile (accs.any (·.cliff)) (s.closedRow u x row c0 alpha accs))
  else match s.chainRow u x row c0 alpha ch accs with
    | (none, s) => ((c0, []), s)
    | (some p, s) => ((p.1, p.2.1), s.putVals u x row p.1 tile (withPre p.2.2) p.2.1)

/-- The token-blocked copies of the rows that a close has written, block by block. -/
def State.putCopies (u : Tide) (x : Bytes) (row0 : Nat) (rows : List (Nat × List Val)) (s : State) : State :=
  (List.range (rows.length / 32)).foldl (fun s k =>
    let b := (rows.drop (32 * k)).take 32
    if b.any (·.2.isEmpty) then s else s.putTokenCopy u x (row0 + 32 * k) ((b.headD (0, [])).1) (b.map (·.2))) s

/-- The rows of a closed tile into a tensor. -/
def State.closeToTensor (u : Tide) (x : Bytes) (row0 c0 tile : Nat) (alpha : Int) (ch : List LaneStep) (accs : List (List Acc))
    (s : State) : State :=
  let rows := accs.map (·.take (min 128 (tCols x - c0)))
  if u.lastExpert then rows.zipIdx.foldl (fun s p => s.closeExpertRow u x (row0 + p.2) c0 tile alpha ch p.1) s
  else
    let r := rows.zipIdx.foldl (fun (a : List (Nat × List Val) × State) p =>
      let o := a.2.closeOneRow u x (row0 + p.2) c0 tile alpha ch p.1
      (a.1 ++ [o.1], o.2)) ([], s)
    r.2.putCopies u x row0 r.1

/-- The contribution of one closed element to a region (R114, R116, R117, R236): into an A64 region, the sum with the block contributions
that it counts; into a P32 region, one sample group's value, from the tile's grid of α onto that of the region. -/
def contributionOf (g : Bytes) (alpha beta : Int) (a : Acc) : Contribution :=
  let n := if gIsP32 g then 1 else a.count
  if a.nar || a.cliff then ⟨0, a.nar, a.cliff, n⟩
  else if gIsP32 g then
    match a64ToP32 alpha beta (gPhi g) a.v with
    | some v => ⟨v, false, false, n⟩
    | none => ⟨0, false, true, n⟩
  else ⟨a.v, false, false, n⟩

/-- The elements of a closed tile into a region, at (row base + i) · pitch + (column base + j). -/
def State.closeToRegion (u : Tide) (g row0 c0 tile : Nat) (alpha : Int) (accs : List (List Acc)) (s : State) : State :=
  let r := u.t.tide g
  let beta := s.regionAnchor r
  let inst := u.t.regionInst g u.idx u.inst
  let w := u.t.tileWidth (tileOwner u.idx u.bytes) c0
  accs.zipIdx.foldl (fun s p => (p.1.take w).zipIdx.foldl (fun s q =>
    let loc := (row0 + p.2) * gPitch r + (c0 + q.2)
    let c := contributionOf r alpha beta q.1
    let s := if c.cliff && !q.1.cliff then
        (s.count (stAt u.stall 0x138) 1).sumCliff r g inst srcStall u.stall
          [(0x20, 1, CliffCause.share.code), (0x24, 4, u.idx), (0x28, 2, gBucket r), (0x2A, 1, tile)] else s
    let s := if c.nar then s.narEvent srcStall u.stall 0xFFFF u.idx (row0 + p.2) (c0 + q.2) else s
    s.regionAdd u.t g inst loc c) s) s

/-- A tile closed by a record: into its region, or its tensor with its lane chain. -/
def State.closeTile (u : Tide) (row0 c0 tile : Nat) (resident : Bool) (accs : List (List Acc)) (s : State) : State :=
  let r := u.bytes
  let alpha := s.tileAnchor u.t (tileOwner u.idx r)
  let fixed := if resident then accs.map (·.map (Acc.toAnchored alpha)) else accs
  let lost := resident && (List.zip accs fixed).any fun p => (List.zip p.1 p.2).any fun q => q.2.cliff && !q.1.cliff
  let s := if lost then s.cliffEvent u (tileOwner u.idx r) (pOut r) tile .resident else s
  if pToRegion r then s.closeToRegion u (pRegion r) row0 c0 tile alpha fixed
  else match u.t.tensor? (pOut r) with
    | none => s
    | some x => s.closeToTensor u x row0 c0 tile alpha (chainOf (pChain r)) fixed

/-! ## The stash packer (R49, R157, R211) -/

/-- Pack the block of one token block and feature of a stash entry for the instance at `place`. -/
def State.packStash (u : Tide) (e : Bytes) (tb f : Nat) (s : State) : State :=
  match u.t.tensor? (fld e 2 2), u.t.tensor? (fld e 4 2) with
  | some x, some y =>
    let vs := (List.range 32).map fun j => s.elemVal u x (32 * tb + j) f
    let b := encodeBlock .l4 false false none vs
    let o := tokenBlockOff (tCols y) 16 tb f
    let a := s.place u y 0 (tCodes y + o.1)
    let z := s.place u y 0 (tScales y + o.2)
    s.guarded .quayUnit [(true, a, 16), (true, z, 1)] fun s =>
      let s := (s.memWrite a (packCodes .l4 b.codes)).memWrite z [BitVec.ofNat 8 (byteOfS8 b.s8)]
      (s.noteStat (tNum y) { b.stat with nar := vs.any (·.isNar) }).count (tpAt (locate u.t.pinned a).1 0x40) 1
  | _, _ => s

end Sys2Proof.Machine
end

