-- ==== Sys2Proof/Machine/TideEngine.lean ====
section
/-! DEFINITION. The tide sequencer, the scoreboard and what each tide does when it starts (spec/04, R120 to R138; spec/05, R149
to R155; spec/06, R156 to R169, R175 to R177; spec/07, R212, R213; spec/08,
R231 to R240; logs 10, 15, 19, 27, 31, 57, 61, 62). -/

namespace Sys2Proof.Machine

/-! ## Instances and their order (R231, R232, R240) -/

def State.tideStatus? (s : State) (i inst : Nat) : Option TideStatus :=
  (s.run.tides.find? fun u => u.tide == i && u.inst == inst).map (·.status)

def State.setTide (i inst : Nat) (st : TideStatus) (s : State) : State :=
  s.modRun fun r => { r with tides := r.tides.map fun u => if u.tide = i && u.inst = inst then { u with status := st } else u }

/-- Every instance that a tide waits for has completed. -/
def State.depsDone (s : State) (u : Tide) : Bool :=
  (u.t.depInstances s.run.groups.length u.idx u.inst).all fun d =>
    match s.tideStatus? d.1 d.2 with | none => true | some st => st == .done

/-- A tide has completed: it advances the module's progress (R310). -/
def State.tideOver (i inst : Nat) (s : State) : State :=
  (s.setTide i inst .done).modJob fun j => { j with progress := j.progress + 1 }

/-- The BARRIERs whose dependencies have completed complete too. -/
def State.passBarriers (t : Table) (s : State) : State :=
  s.run.tides.foldl (fun s u =>
    if u.status == .waiting && rKind (t.tide u.tide) == .barrier && s.depsDone ⟨t, u.tide, u.inst⟩
    then s.tideOver u.tide u.inst else s) s

/-- A tide completes, and the BARRIERs behind it. -/
def State.tideDone (t : Table) (i inst : Nat) (s : State) : State := (s.tideOver i inst).passBarriers t

/-- Tides run only in RUNNING, with a table active. -/
def State.tidesRun (s : State) : Bool := s.mode == .running && s.run.kind != .none

/-- The tides of a stall in schedule order. -/
def State.tidesOf (s : State) (t : Table) (i : Nat) : List TideInst := s.run.tides.filter fun u => rStall (t.tide u.tide) == i

/-- The next tide that the sequencer may issue to a stall: at most 16 issued and unfinished, and fewer than 16 places after the
earliest issued tide that has not started. -/
def State.nextIssue (s : State) (t : Table) (i : Nat) : Option TideInst :=
  let l := (s.tidesOf t i).zipIdx
  if 16 ≤ s.issued i then none
  else match l.find? (fun p => p.1.status == .waiting), l.find? (fun p => p.1.status == .issued) with
    | none, _ => none
    | some w, none => some w.1
    | some w, some e => if e.2 + 16 ≤ w.2 then none else some w.1

/-! ## The scoreboard (R134 to R137, Table 4.3) -/

def Tile.overlaps (b : Nat) (x : Tile) : Bool := tileFirst b < x.first + x.units && x.first < tileFirst b + tileUnits b

def State.tile? (s : State) (i o inst : Nat) : Option Tile := (s.stall i).tiles.find? fun x => x.tide == o && x.inst == inst

def State.setTile (i o inst : Nat) (f : Tile → Tile) (s : State) : State :=
  s.setStall i fun x => { x with tiles := x.tiles.map fun y => if y.tide = o && y.inst = inst then f y else y }

def State.addTile (i : Nat) (x : Tile) (s : State) : State := s.setStall i fun y => { y with tiles := y.tiles ++ [x] }

/-- The live tile that keeps a tide from opening its own. -/
def State.blocker (s : State) (u : Tide) : Option Tile :=
  match openedTile u.idx u.bytes with | none => none | some b => (s.stall u.stall).tiles.find? (Tile.overlaps b)

/-- Whether a record adds into, or closes, the tile of record `o`. -/
def Table.worksOn (t : Table) (o i : Nat) : Bool :=
  let r := t.tide i
  (rKind r == .product || rKind r == .close || rKind r == .partialLoad) && tileOwner i r == o

/-- A resident reduction takes its slices in schedule order over all its parts, and any tile closes after what stands before its close
(R120, R125). -/
def State.inTileOrder (s : State) (u : Tide) (resident : Bool) : Bool :=
  let o := tileOwner u.idx u.bytes
  let tiles := if resident && rKind (u.t.tide o) == .product then (u.t.partOpeners o).map (·.2) else [o]
  (!resident && !closesOf o u.idx u.bytes)
    || (List.range u.idx).all fun i => !(tiles.any fun q => u.t.worksOn q i) || s.tideStatus? i u.inst == some .done

/-- A tide may use its tile (Table 4.3). -/
def State.tileUsable (s : State) (u : Tide) : Bool :=
  let r := u.bytes
  match openedTile u.idx r with
  | some b => (s.blocker u).isNone && (!tileResident b || s.inTileOrder u true)
  | none =>
    if rKind r == .product || rKind r == .close || rKind r == .partialLoad then
      match s.tile? u.stall (tileOwner u.idx r) u.inst with
      | none => false
      | some x => match x.state with
        | .opened => s.inTileOrder u x.resident
        | .gathering => (rKind r == .product && pGatherUse r) || (rKind r == .close && x.usesLeft == 0)
        | .closing => false
    else true

/-- The tile byte of the tile that a tide works on, as an event names it. -/
def Tide.tileByte (u : Tide) : Nat :=
  let o := tileOwner u.idx u.bytes
  (openedTile o (u.t.tide o)).getD 0

/-! ## Readiness (R157, R158, R165) -/

/-- Array or lanes. -/
def onArray (k : TideKind) : Bool := k == .product || k == .gatherOpen || k == .partialLoad

/-- The unit of a stall that a tide needs is free. -/
def State.unitFree (s : State) (t : Table) (i : Nat) (k : TideKind) : Bool :=
  !(s.tidesOf t i).any fun u => u.status == .started && onArray (rKind (t.tide u.tide)) == onArray k

/-- The tensors that the lane chain of a close takes besides its intermediates (log 57). -/
def Tide.chainTensors (u : Tide) : List Nat := u.t.closeOperands u.idx u.bytes

/-- The tensors that a tide reads besides a streaming operand. -/
def Tide.besides (u : Tide) : List Nat :=
  let r := u.bytes
  (match rKind r with
    | .product => if pOneHot r then [] else [pStat r]
    | .lane => [lIn r 0, lIn r 1, lIn r 2]
    | _ => []) ++ u.chainTensors

/-- The stash entries (index, record) whose stash or row statistics a tide reads (R157, R158). -/
def Tide.stashRead (u : Tide) : List (Nat × Bytes) :=
  let ns := u.besides
  (u.t.recs secShoal 2).zipIdx.filterMap fun e =>
    if ns.contains (fld e.1 4 2) || ns.contains (fld e.1 6 2) then some (e.2, e.1) else none

/-- The token blocks (first, count) and features (first, count) that a tide reads of a stash entry: the reduction of a PRODUCT against
the stash, or the rows and columns that its lane chain writes. -/
def Tide.stashArea (u : Tide) (e : Bytes) : Nat × Nat × Nat × Nat :=
  let r := u.bytes
  let area := fun rowBase rows colBase cols => (rowBase / 32, ceilDiv (rowBase + rows) 32 - rowBase / 32, colBase, cols)
  match rKind r with
  | .product =>
    if !pOneHot r && pStat r == fld e 4 2 then
      (pBlockBase r, pBlockCount r, pColBase r, min (128 * pColTiles r) (u.t.statCols r - pColBase r))
    else area (pRowBase r) (pRowTiles r * pRows r) (pColBase r) (min (128 * pColTiles r) (u.t.outWidth r - pColBase r))
  | .close => area (cRowBase r) (u.t.tileRows (cTileRef r)) (cColBase r) (min 128 (colsOf (u.t.tensor? (pOut r)) - cColBase r))
  | _ => area (lRowBase r) (lRows r) (lColBase r) (lCols r)

/-- The blocks of a stash entry that a tide reads, as far as the stash holds rows; none where it reads the statistics alone. -/
def State.stashBlocks (s : State) (u : Tide) (e : Bytes) : List (Nat × Nat) :=
  if !u.besides.contains (fld e 4 2) then []
  else
    let live := match u.t.tensor? (fld e 4 2) with | none => 0 | some y => ceilDiv (s.stashRows u y) 32
    let a := u.stashArea e
    (List.range a.2.1).flatMap fun b =>
      if live ≤ a.1 + b then [] else (List.range a.2.2.2).map fun f => (a.1 + b, a.2.2.1 + f)

/-- A stash entry is read no more by a sample group but by tide `but`: every other tide of range 1 that reads it has completed. -/
def State.stashSpent (s : State) (t : Table) (inst e but : Nat) : Bool :=
  (t.inRange 1).all fun i =>
    i == but || !((Tide.stashRead ⟨t, i, inst⟩).any fun p => p.1 == e) || s.tideStatus? i inst == some .done

/-- The recompute reserve is free for the segments that a tide reads: every higher segment's backward is over (R159). -/
def State.reserveFree (s : State) (u : Tide) : Bool :=
  let segs := u.stashRead.map fun e => fld e.2 8 2
  (u.t.recs secShoal 2).zipIdx.all fun e =>
    !(segs.any fun k => k < fld e.1 8 2) || s.stashSpent u.t u.inst e.2 u.idx

/-- Every stash block that the tide reads has been packed; a recomputed segment is packed when it is read (R159). -/
def State.stashReady (s : State) (u : Tide) : Bool :=
  match s.group? u.inst with
  | none => true
  | some g =>
    if g.recompute then s.reserveFree u
    else u.stashRead.all fun e => (s.stashBlocks u e.2).all fun b => s.run.packed.contains (e.1, u.inst, b.1, b.2)

/-- The region that a PARTIAL_LOAD reads is complete (R132). -/
def State.regionReady (s : State) (u : Tide) : Bool :=
  rKind u.bytes != .partialLoad ||
    (match s.region? (plRegion u.bytes) (u.t.regionInst (plRegion u.bytes) u.idx u.inst) with
      | none => false
      | some g => g.complete)

/-- The sample group of a training tide of range 1 has started (R158). -/
def State.groupReady (s : State) (u : Tide) : Bool :=
  !u.t.isTraining || u.range != 1 || (match s.group? u.inst with | none => false | some g => g.started)

/-- The weight plane of a stall that serves no product. -/
def Stall.idle (x : Stall) : Plane := x.planes.getD (1 - x.active) Plane.reset

/-- Whether the first slice of a PRODUCT stands in the idle plane (R80, R165). -/
def State.planeFor (s : State) (u : Tide) : Bool :=
  let p := (s.stall u.stall).idle
  p.loaded && p.record == u.idx && p.inst == u.inst

/-- Ready but for its weight plane and its tile. -/
def State.dataReady (s : State) (u : Tide) : Bool :=
  s.depsDone u && s.groupReady u && s.regionReady u && s.stashReady u && s.unitFree u.t u.stall (rKind u.bytes)

/-- Ready but for its tile. -/
def State.otherwiseReady (s : State) (u : Tide) : Bool :=
  s.dataReady u && (rKind u.bytes != .product || s.planeFor u)

/-- The uses of the gathering tile that a closer waits for (R135). -/
def Table.isUseOf (t : Table) (o i : Nat) : Bool := rKind (t.tide i) == .product && pGatherUse (t.tide i) && pTileRef (t.tide i) == o

/-- A closer that waits for nothing but its uses (R138). -/
def State.closerWaits (s : State) (u : Tide) : Bool :=
  rKind u.bytes == .close && cCloser u.bytes && s.groupReady u && s.stashReady u && s.unitFree u.t u.stall .close
    && (u.t.depInstances s.run.groups.length u.idx u.inst).all fun d =>
        u.t.isUseOf (cTileRef u.bytes) d.1 || (match s.tideStatus? d.1 d.2 with | none => true | some st => st == .done)

/-- The issued tides of a stall. -/
def State.issuedOf (s : State) (t : Table) (i : Nat) : List Tide :=
  ((s.tidesOf t i).filter fun u => u.status == .issued).map fun u => ⟨t, u.tide, u.inst⟩

/-- The ready tide that stands earliest in schedule order. -/
def State.nextStart (s : State) (t : Table) (i : Nat) : Option Tide :=
  (s.issuedOf t i).find? fun u => s.otherwiseReady u && s.tileUsable u

/-- TILE_CONFLICT for every tide that waits on a tile live under another owner: counted once for each wait, raised once a step
for the stall (R137). -/
def State.conflicts (t : Table) (i : Nat) (s : State) : State :=
  (s.issuedOf t i).foldl (fun s u =>
    match s.blocker u with
    | none => s
    | some x =>
      if !s.otherwiseReady u || s.run.once.contains (0x30202, u.idx, u.inst) then s
      else ((s.modRun fun r => { r with once := r.once ++ [(0x30202, u.idx, u.inst)] }).count (stAt i 0x130) 1).raiseOnce 0x0202
        srcStall i [(0x20, 1, u.tileByte), (0x24, 4, u.idx), (0x28, 4, x.tide)]) s

/-! ## PRODUCT (R76 to R100, R115 to R118, R234, R235) -/

/-- An accumulator with what its adds report. -/
structure Reduced where
  acc : Acc
  notes : List AddNote
  zeros : Nat
deriving DecidableEq, Repr

/-- One block pair added: the mode is that of the two blocks (Table 3.2). -/
def Reduced.pair (phi : Nat) (resident : Bool) (gamma alpha : Int) (ledger : List Nat) (x w : Block) (a : Reduced) : Reduced :=
  match modeOf w.fmt x.fmt with
  | none => a
  | some m =>
    let b := if m = .ledger then ledgerBlock x ledger w.codes alpha else blockSum m x w gamma alpha
    let r := if resident then a.acc.addResident phi b.raw b.exp b.nar else a.acc.add phi b.value b.nar
    ⟨r.1, if r.2 = .none then a.notes else a.notes ++ [r.2], a.zeros + (if x.isZero || w.isZero then 1 else 0)⟩

/-- The ledger of a stationary block. -/
def State.ledgerFor (s : State) (u : Tide) (col blk : Nat) : List Nat :=
  match u.t.statView u.bytes, u.t.tensor? (pStat u.bytes) with
  | .forward, some w => if tFmt w = .ledger then s.ledgerOf u.t w false col blk else []
  | .transposed, some w => if tFmt w = .ledger then s.ledgerOf u.t w true col blk else []
  | _, _ => []

/-- An element that the product forms: inside both operands, and trained where its sum reaches a bucket (R169). -/
def Tide.feeds (u : Tide) (row col : Nat) : Bool :=
  let r := u.bytes
  (u.gathers || row < u.t.streamRows r) && col < u.t.statCols r && u.t.feeds u.idx r row col

/-- The tensor that an event of a tide names. -/
def outTensor (r : Bytes) : Nat := if pToRegion r then 0xFFFF else pOut r

/-- The tensor to which the tile of a tide closes. -/
def Tide.sumTensor (u : Tide) : Nat :=
  match u.t.closer? (tileOwner u.idx u.bytes) with | none => 0xFFFF | some c => outTensor c

/-- The counters and events of one element's adds. -/
def State.reportAdds (u : Tide) (row col : Nat) (x : Reduced) (s : State) : State :=
  let s := if x.zeros = 0 then s else s.count (stAt u.stall 0x128) x.zeros
  x.notes.foldl (fun s n => match n with
    | .none => s
    | .nar => (s.count (stAt u.stall 0x140) 1).narEvent srcStall u.stall u.sumTensor u.idx row col
    | .cliff c =>
      (if c = .share || c = .count then s.count (stAt u.stall 0x138) 1 else s).cliffEvent u (tileOwner u.idx u.bytes)
        u.sumTensor u.tileByte c) s

/-! ## The recompute reserve (R159) -/

/-- The row statistics of an entry go to the recompute reserve (R157, R159). -/
def State.putLatent (u : Tide) (e : Bytes) (s : State) : State :=
  match u.t.tensor? (fld e 6 2) with
  | none => s
  | some x =>
    (s.run.latent.filter fun l => l.tensor == tNum x && l.inst == u.inst).foldl (fun s l =>
      let a := s.place u x l.row (tCodes x + 2 * l.codes.length * l.row)
      s.guarded .quayUnit [(true, a, 2 * l.codes.length)] fun s => s.memWrite a (packCodes .l16 l.codes)) s

/-- What a tide of a recomputed group reads of its segment's stash is packed into the reserve first, each block once (R159). -/
def State.repack (u : Tide) (s : State) : State :=
  if !s.recomputes u then s
  else u.stashRead.foldl (fun s e =>
    (s.stashBlocks u e.2).foldl (fun s b =>
      if s.run.packed.contains (e.1, u.inst, b.1, b.2) then s
      else (s.packStash u e.2 b.1 b.2).modRun fun r => { r with packed := r.packed ++ [(e.1, u.inst, b.1, b.2)] })
      (s.putLatent u e.2)) s

/-! ## Passes over the weight planes (R80, R235) -/

/-- One pass of a PRODUCT: the row and column of its tile, its first block, its blocks and its piece, whether it is the first and
whether it is the last of its tile. -/
structure Pass where
  row : Nat
  col : Nat
  block : Nat
  count : Nat
  piece : Nat
  first : Bool
  last : Bool
deriving DecidableEq, Repr

/-- Blocks per slice of a PRODUCT: those of its mode. -/
def Table.sliceBlocks (t : Table) (r : Bytes) : Nat :=
  max 1 (match t.modeOf r with | none => pBlockCount r | some m => blocksPerSlice m (t.sparseStat r))

/-- The passes of a PRODUCT in order: row tiles, column tiles, slices and pieces, each ascending. -/
def Tide.passes (u : Tide) : List Pass :=
  let r := u.bytes
  let k := u.t.sliceBlocks r
  let n := ceilDiv (pBlockCount r) k
  (List.range (pRowTiles r)).flatMap fun a => (List.range (pColTiles r)).flatMap fun b => (List.range n).flatMap fun i =>
    (List.range (pPieces r)).map fun p =>
      ⟨pRowBase r + a * pRows r, pColBase r + 128 * b, pBlockBase r + i * k, min k (pBlockCount r - i * k), p,
        i == 0 && p == 0, i + 1 == n && p + 1 == pPieces r⟩

/-- Whether the stationary operand differs from row to row: the cache of each slot. -/
def Table.statByRow (t : Table) (r : Bytes) : Bool := !pOneHot r && (t.kindOf (pStat r) == kKey || t.kindOf (pStat r) == kValue)

/-- The rows for which a plane holds a slice of its own. -/
def Table.planeRows (t : Table) (r : Bytes) : Nat := if t.statByRow r then pRows r else 1

/-- The slice of a pass: block by block, and within a block column by column. -/
def State.passSlice (s : State) (u : Tide) (p : Pass) : List Block × List (List Nat) :=
  let l := (List.range (u.t.planeRows u.bytes)).flatMap fun i => (List.range p.count).flatMap fun k => (List.range 128).map fun j =>
    (s.statBlock u p.piece (p.row + i) (p.col + j) (p.block + k), s.ledgerFor u (p.col + j) (p.block + k))
  (l.map (·.1), l.map (·.2))

/-- Whether an item of a stall's store is a part of a tide's data. -/
def StoreItem.isOf (u : Tide) (p : StorePart) (n : Nat) (o : StoreItem) : Bool :=
  o.record == u.idx && o.inst == u.inst && o.part == p && o.tensor == n

/-- Blocks of a tensor in the stall store, in place of what the tide had there (R72; log 15). -/
def State.keepStore (u : Tide) (p : StorePart) (n : Nat) (bs : List Block) (s : State) : State :=
  s.setStall u.stall fun y => { y with store := (y.store.filter fun o => !o.isOf u p n) ++ [⟨u.idx, u.inst, p, n, bs⟩] }

/-- The blocks of a tensor that a tide holds in the stall store. -/
def State.stored (s : State) (u : Tide) (p : StorePart) (n : Nat) : List Block :=
  match (s.stall u.stall).store.find? (StoreItem.isOf u p n) with | none => [] | some o => o.blocks

/-- A plane takes the slice of a pass, with the ledger image of each block, from the stall store (R72, R80). -/
def State.loadPlane (k : Nat) (u : Tide) (p : Pass) (s : State) : State :=
  let l := s.passSlice u p
  let n := pStat u.bytes
  let s := (s.keepStore u .stationary n l.1).keepStore u .ledger n (l.2.map fun es => ⟨.l16, 0, es⟩)
  let plane : Plane := ⟨true, u.idx, u.inst, s.stored u .stationary n, (s.stored u .ledger n).map (·.codes)⟩
  s.setStall u.stall fun x => { x with planes := x.planes.set k plane }

/-- The streaming rows of a row tile in the stall store. -/
def State.storeRows (u : Tide) (x : Bytes) (row : Nat) (s : State) : State :=
  let r := u.bytes
  s.keepStore u .stream (tNum x) ((List.range (pRows r)).flatMap fun i => (List.range (pBlockCount r)).map fun k =>
    s.streamBlock u x (row + i) (pBlockBase r + k))

/-- A row of values of a lane chain in the stall store, as L19 codes, behind the rows before it. -/
def State.keepLaneRow (u : Tide) (p : StorePart) (n : Nat) (vs : List Val) (s : State) : State :=
  s.keepStore u p n (s.stored u p n ++ [⟨.l19, 0, vs.map (·.code)⟩])

/-- The reduction of one output element over the slice in the plane: ascending blocks (Table 4.2). -/
def State.reduce (s : State) (u : Tide) (p : Pass) (phi : Nat) (resident : Bool) (alpha : Int) (i j : Nat) (a : Acc) : Reduced :=
  let r := u.bytes
  let gamma := (s.gammaOf (pStream r)).getD 0
  let xs := s.stored u .stream (pStream r)
  let pl := (s.stall u.stall).planes.getD (s.stall u.stall).active Plane.reset
  (List.range p.count).foldl (fun acc k =>
    let o := ((if u.t.statByRow r then i * p.count else 0) + k) * 128 + j
    acc.pair phi resident gamma alpha (pl.ledgers.getD o []) (xs.getD (i * pBlockCount r + (p.block - pBlockBase r) + k) (zeroBlock .l4))
      (pl.blocks.getD o (zeroBlock .l4))) ⟨a, [], 0⟩

/-- The rows of a tile that one pass streams (R169). -/
def Tide.passRows (u : Tide) (p : Pass) : List Nat :=
  (List.range (pRows u.bytes)).filter fun i => u.t.rowStreams u.idx u.bytes (p.row + i) p.col

/-- Bit-serial digits of the streaming rows of one pass. -/
def State.digits (s : State) (u : Tide) (x : Bytes) (p : Pass) : Nat :=
  if s.codeFmt x != .g16 then 0
  else (u.passRows p).foldl (fun n i => (List.range p.count).foldl (fun n k =>
    n + (s.streamBlock u x (p.row + i) (p.block + k)).codes.foldl (fun n q => n + digitCount q) 0) n) 0

/-- One pass: every element with what its adds report. -/
def State.passTile (s : State) (u : Tide) (p : Pass) (accs : List (List Acc)) : List (List Reduced) :=
  let r := u.bytes
  let o := tileOwner u.idx r
  let phi := tilePhi (u.t.tide o)
  let res := tileResident u.tileByte
  let alpha := s.tileAnchor u.t o
  (List.range (pRows r)).map fun i => (List.range 128).map fun j =>
    let a := (accs.getD i []).getD j Acc.zero
    if u.feeds (p.row + i) (p.col + j) then s.reduce u p phi res alpha i j a else ⟨a, [], 0⟩

/-- The accumulators after a pass. -/
def passAccs (out : List (List Reduced)) : List (List Acc) := out.map fun l => l.map (·.acc)

/-- The products, the bit-serial digits, and the reports of every element of a pass. -/
def State.reportPass (u : Tide) (x : Bytes) (p : Pass) (out : List (List Reduced)) (s : State) : State :=
  let d := s.digits u x p
  let s := s.count (stAt u.stall 0x100) ((u.passRows p).length * 4096 * p.count)
  let s := if d = 0 then s else s.count (stAt u.stall 0x108) d
  out.zipIdx.foldl (fun s a => a.1.zipIdx.foldl (fun s q => s.reportAdds u (p.row + a.2) (p.col + q.2) q.1) s) s

/-! ## Resident parts (R125) -/

/-- Merge one part into the sum of the parts before it, with the resident add; contributions above 2^φ are a cliff (R117). -/
def Acc.merge (phi : Nat) (a b : Acc) : Acc :=
  let a := { a with count := a.count + b.count }
  if a.cliff || b.cliff || 2 ^ phi < a.count then { a with cliff := true }
  else if a.nar || b.nar then { a with nar := true }
  else match residentAdd a.v a.e b.v b.e with
    | some r => { a with v := r.1, e := r.2 }
    | none => { a with cliff := true }

def mergeParts (phi : Nat) (ps : List (List (List Acc))) : List (List Acc) :=
  match ps with
  | [] => []
  | p :: _ => ps.foldl (fun acc q => List.zipWith (List.zipWith (Acc.merge phi)) acc q) (p.map (·.map fun _ => Acc.zero))

/-- One number for the output tile that the parts of a reduction share. -/
def partKey (u : Tide) (row0 col0 : Nat) : Nat := ((u.inst * 65536 + outTensor u.bytes) * 2 ^ 32 + row0) * 2 ^ 32 + col0

/-- A closed tile goes to its output; a part of a resident reduction, as the PRODUCT that opened it numbers it, waits for the others,
and the last merges them in ascending part order. A merge that leaves the resident range, or counts above 2^φ, is a cliff (R117,
R124). -/
def State.closeOwned (u : Tide) (row0 col0 : Nat) (accs : List (List Acc)) (s : State) : State :=
  let o := u.t.tide (tileOwner u.idx u.bytes)
  let res := tileResident u.tileByte
  if !res || rKind o != .product || pParts o ≤ 1 then s.closeTile u row0 col0 u.tileByte res accs
  else
    let key := partKey u row0 col0
    let ps := (s.stall u.stall).parts ++ [(pPart o, key, accs)]
    let mine := sortBy (fun (a b : Nat × Nat × List (List Acc)) => a.1 < b.1) (ps.filter fun p => p.2.1 == key)
    if mine.length < pParts o then s.setStall u.stall fun x => { x with parts := ps }
    else
      let phi := tilePhi o
      let whole := mergeParts phi (mine.map (·.2.2))
      let lost := whole.zipIdx.any fun l => l.1.zipIdx.any fun a =>
        a.1.cliff && !(mine.any fun p => ((p.2.2.getD l.2 []).getD a.2 Acc.zero).cliff)
      let cause : CliffCause := if whole.any fun l => l.any fun a => 2 ^ phi < a.count then .count else .resident
      let s := s.setStall u.stall fun x => { x with parts := ps.filter fun p => p.2.1 != key }
      let s := if lost then s.cliffEvent u (tileOwner u.idx u.bytes) (outTensor u.bytes) u.tileByte cause else s
      s.closeTile u row0 col0 u.tileByte res whole

def newTile (u : Tide) (b uses : Nat) (st : TileState) (accs : List (List Acc)) : Tile :=
  ⟨u.idx, u.inst, tileFirst b, tileUnits b, tileResident b, st, uses, accs⟩

/-- One pass of a PRODUCT over the plane that serves it: a pass that opens a tile starts from zero accumulators, and the last of a
tile closes it where the PRODUCT closes. -/
def State.runPass (u : Tide) (p : Pass) (s : State) : State :=
  let r := u.bytes
  match u.t.tensor? (pStream r) with
  | none => s
  | some x =>
    let o := tileOwner u.idx r
    let cur := if p.first && opensTile r then [] else match s.tile? u.stall o u.inst with | none => [] | some y => y.accs
    let s := if p.first && p.col == pColBase r then s.storeRows u x p.row else s
    let out := s.passTile u p cur
    let accs := passAccs out ++ cur.drop out.length
    let s := s.reportPass u x p out
    if p.last && closesTile r then (s.closeOwned u p.row p.col accs).setTile u.stall o u.inst fun y => { y with accs := [] }
    else s.setTile u.stall o u.inst fun y => { y with accs := accs }

/-- The tile of a PRODUCT that has made its last pass is closing. -/
def State.passesEnd (u : Tide) (s : State) : State :=
  if (s.stall u.stall).passesLeft = 0 && closesTile u.bytes then
    s.setTile u.stall (tileOwner u.idx u.bytes) u.inst fun y => { y with state := .closing }
  else s

/-- The planes change roles, and the pass numbered `k` runs over the one that now serves products. -/
def State.servePass (u : Tide) (k : Nat) (s : State) : State :=
  let l := u.passes
  let s := s.setStall u.stall fun x =>
    { x with active := 1 - x.active, planes := x.planes.set x.active Plane.reset, passesLeft := l.length - (k + 1) }
  match l[k]? with | none => s | some p => (s.runPass u p).passesEnd u

/-- A PRODUCT starts: its tile opens and its first pass runs. -/
def State.startProduct (u : Tide) (s : State) : State :=
  (if opensTile u.bytes then s.addTile u.stall (newTile u (pTile u.bytes) 0 .opened []) else s).servePass u 0

/-- The PRODUCT on the array of a stall. -/
def State.running (s : State) (t : Table) (i : Nat) : Option Tide :=
  ((s.tidesOf t i).find? fun u => u.status == .started && rKind (t.tide u.tide) == .product).map fun u => ⟨t, u.tide, u.inst⟩

/-- The stationary operand of a PRODUCT stands: it is a weight, which no tide writes, or what the PRODUCT waits for has completed (R157,
R165). -/
def State.statReady (s : State) (u : Tide) : Bool :=
  (!pOneHot u.bytes && u.t.kindOf (pStat u.bytes) == kWeight) || (s.depsDone u && s.groupReady u && s.stashReady u)

/-- The PRODUCT whose first slice the idle plane loads next: the earliest that could start, else the earliest whose data is ready,
else the earliest issued whose stationary operand stands (DESIGN CHOICE, log 15). -/
def State.nextPlane (s : State) (t : Table) (i : Nat) : Option Tide :=
  let l := (s.issuedOf t i).filter fun u => rKind u.bytes == .product
  match l.find? fun u => s.dataReady u && s.tileUsable u with
  | some u => some u
  | none => match l.find? s.dataReady with
    | some u => some u
    | none => l.find? s.statReady

/-- The idle plane takes the first slice of the PRODUCT to come; a stashed operand of a recomputed group is packed first (R159). -/
def State.planeAhead (t : Table) (i : Nat) (s : State) : State :=
  match s.nextPlane t i with
  | none => s
  | some u => match u.passes.head? with
    | none => s
    | some p => (if s.depsDone u && s.stashReady u then s.repack u else s).loadPlane (1 - (s.stall i).active) u p

/-- The idle plane of a stall has finished loading (R80): while passes of the PRODUCT on the array remain, the planes change roles
and its next pass runs; otherwise the plane holds the first slice of a PRODUCT to come. -/
def State.planeLoaded (i : Nat) (t : Table) (s : State) : State :=
  let x := s.stall i
  match s.running t i with
  | none => s.planeAhead t i
  | some u =>
    let k := u.passes.length - x.passesLeft
    if x.passesLeft = 0 then s.planeAhead t i
    else match u.passes[k]? with
      | none => s
      | some p => (s.loadPlane (1 - x.active) u p).servePass u k

/-! ## CLOSE, PARTIAL_LOAD, GATHER_OPEN (R135, R151, R237) -/

def State.startClose (u : Tide) (s : State) : State :=
  let r := u.bytes
  match s.tile? u.stall (cTileRef r) u.inst with
  | none => s
  | some x => (s.closeOwned u (cRowBase r) (cColBase r) x.accs).setTile u.stall (cTileRef r) u.inst fun y =>
      { y with state := .closing, accs := [] }

/-- A location added into an accumulator, with the `k` block contributions that it has received and their test (R117): its share was
tested where its contributions were formed (R116). -/
def Acc.load (phi k : Nat) (v : Option Int) (cliff : Bool) (a : Acc) : Acc × AddNote :=
  if a.cliff then (a, .none)
  else if cliff then ({ a with cliff := true, count := a.count + k }, .none)
  else if a.nar then ({ a with count := a.count + k }, .none)
  else if 2 ^ phi < a.count + k then ({ a with cliff := true, count := a.count + k }, .cliff .count)
  else match v with
    | none => ({ a with nar := true, count := a.count + k }, .nar)
    | some n => ({ a with v := a.v + n, count := a.count + k }, .none)

/-- The rows of a completed region into a tile: row i, column j from location first + i · pitch + j. -/
def State.startLoad (u : Tide) (s : State) : State :=
  let r := u.bytes
  let g := u.t.tide (plRegion r)
  let phi := tilePhi (u.t.tide (plTileRef r))
  let rg := s.region? (plRegion r) (u.t.regionInst (plRegion r) u.idx u.inst)
  let cliffs := match rg with | none => [] | some x => x.cliffs
  let blocks := match rg with | none => [] | some x => x.blocks
  let cur := if plTileRef r = u.idx then [] else match s.tile? u.stall (plTileRef r) u.inst with | none => [] | some y => y.accs
  let out := (List.range (plRows r)).map fun i => (List.range 128).map fun j =>
    let loc := plFirst r + i * gPitch g + j
    let a := (cur.getD i []).getD j Acc.zero
    if gPitch g ≤ plFirst r % max 1 (gPitch g) + j || gLocs g ≤ loc then (⟨a, [], 0⟩ : Reduced)
    else
      let x := Acc.load phi (kvGet blocks loc) (s.locValue g (u.t.regionAddr g loc)) (cliffs.contains loc) a
      ⟨x.1, if x.2 = .none then [] else [x.2], 0⟩
  let accs := passAccs out ++ cur.drop out.length
  let s := out.zipIdx.foldl (fun s l => l.1.zipIdx.foldl (fun s q => s.reportAdds u l.2 q.2 q.1) s) s
  if plTileRef r = u.idx then s.addTile u.stall (newTile u (plTile r) 0 .opened accs)
  else s.setTile u.stall (plTileRef r) u.inst fun y => { y with accs := accs }

def State.startGather (u : Tide) (s : State) : State :=
  let r := u.bytes
  s.addTile u.stall (newTile u (goTile r) (goUses r) .gathering
    (List.replicate (8 * tileUnits (goTile r)) (List.replicate 128 Acc.zero)))

/-! ## LANE (R139 to R148, R155, R163; log 27) -/

/-- The input rows of a LANE; an unused input reads zero. -/
def State.laneInputs (s : State) (u : Tide) (row : Nat) : List (List Val) :=
  let r := u.bytes
  (List.range 3).map fun k => match u.t.tensor? (lIn r k) with
    | none => List.replicate (lCols r) .zero
    | some x => s.rowVals u x row (lColBase r) (lCols r)

/-- A LANE that makes a gradient from no gradient forms that of the loss with respect to the logits (R155; DEDUCED). -/
def Tide.isLoss (u : Tide) : Bool :=
  let r := u.bytes
  u.t.kindOf (lOut r) == kGradient && (List.range 3).all fun k => u.t.kindOf (lIn r k) != kGradient

/-- The result row of a LANE with what its functions flush. -/
def State.laneResult (s : State) (u : Tide) (row : Nat) (r : ChainRun) : List Val × Nat :=
  if !u.isLoss then (r.last, r.flushes)
  else match s.tokenOf u row with
    | none => (r.last.map fun _ => .zero, 0)
    | some k => (logitGradient r.last k.target (l16 k.weight) s.job.scale.lam,
        r.flushes + logitFlush r.last k.target (l16 k.weight) s.job.scale.lam)

/-- One row of a LANE: its chain over the input rows, the row statistics, the registers and the result. -/
def State.laneRowStep (u : Tide) (x : Bytes) (ch : List LaneStep) (row : Nat) (s : State) : List Val × State :=
  let ins := s.laneInputs u row
  let init := s.laneInit u.stall
  let r := chainRun init ch ins
  let v := s.laneResult u row r
  let s := ((laneReads u.bytes).zip ins).foldl (fun s p => s.keepLaneRow u .operand p.1 p.2) s
  let s := ((s.putStats u (tNum x) row (normStats init ch ins)).keepLanes u.stall r).keepLaneRow u .result (tNum x) v.1
  (v.1, s.putVals u x row (lColBase u.bytes) 0 (addFlushes v.2) v.1)

def State.startLane (u : Tide) (s : State) : State :=
  let r := u.bytes
  match u.t.tensor? (lOut r) with
  | none => s
  | some x =>
    let ch := chainOf (lChain r)
    let s := s.count (stAt u.stall 0x150) (lRows r * ch.length)
    let o := (List.range (lRows r)).foldl (fun (a : List (List Val) × State) i =>
      let p := a.2.laneRowStep u x ch (lRowBase r + i)
      (a.1 ++ [p.1], p.2)) ([], s)
    o.2.putTokenCopy u x (lRowBase r) (lColBase r) o.1

/-! ## ROUTE (R152, R176) -/

/-- The choices of a routing group by rank and then token: (token, rank, expert, gate code). -/
def rankChoices (k : Nat) (scores : List (Nat × Option (List (Nat × Val)))) : List (Nat × Nat × Nat × Nat) :=
  (List.range k).flatMap fun rank => scores.filterMap fun s => match s.2 with
    | none => none
    | some l => (l[rank]?).map fun c => (s.1, rank, c.1, (Val.code (l16 (narrowL16 c.2))))

/-- Admission in order, up to capacity C for each expert: the admitted choices and how many were dropped. -/
def admitChoices (u : Tide) (cap : Nat) (cs : List (Nat × Nat × Nat × Nat)) : List Admit × Nat :=
  cs.foldl (fun acc c =>
    if (acc.1.countP fun a => a.expert == c.2.2.1) < cap then (acc.1 ++ [⟨u.idx, u.inst, c.2.2.1, c.1, c.2.1, c.2.2.2⟩], acc.2)
    else (acc.1, acc.2 + 1)) ([], 0)

/-- A row of a tensor copied to row `out` of another, zero where there is none: codes and scales as they stand in one format of the
array, and through L19 where the formats differ or are public (R40, R42). -/
def State.copyRow (u : Tide) (x y : Bytes) (row : Option Nat) (out : Nat) (s : State) : State :=
  let n := tCols y
  let f := s.codeFmt y
  match row with
  | none => s.putRowAt u y out out 0 f (List.replicate n 0) (List.replicate (ceilDiv n 32) (-128))
  | some k =>
    if s.codeFmt x = f && !f.isPublic then
      let bs := (List.range (ceilDiv n 32)).map fun b => s.rowBlock u x k b
      s.putRowAt u y out out 0 f ((bs.flatMap (·.codes)).take n) (bs.map (·.s8))
    else
      let c := s.laneRowOut u y out 0 ((List.range n).map (s.elemVal u x k))
      (s.putRowAt u y out out 0 f c.codes c.scales).reportRow u y out 0 0 false c

/-- The admitted rows of a ROUTE in the gathered tensor: place p of routing group g of expert e is row (e · groups + g) · C + p, and the
places without a choice are zero rows (R177; log 61). -/
def State.putGathered (u : Tide) (x : Bytes) (s : State) : State :=
  match u.t.tensor? (roInput u.bytes), u.t.tensor? (roGathered u.bytes) with
  | some a, some y =>
    (List.range (fld x 2 2 * u.t.expertPlaces u.idx x)).foldl (fun s p =>
      s.copyRow u a y ((s.choiceAt? u (u.idx, x, none) p).map (·.token)) p) s
  | _, _ => s

/-- Scoring of the logits that the ROUTER section names (R152), admission and gathering of every routing group; a token routed to no
expert is marked. -/
def State.startRoute (u : Tide) (s : State) : State :=
  match u.t.router? (roRouter u.bytes), (u.t.router? (roRouter u.bytes)).bind fun x => u.t.tensor? (fld x 0x10 2) with
  | some x, some y =>
    let g := max 1 (fld x 8 4)
    let live := min (s.liveRows u) (roTokens u.bytes)
    let s := (List.range (ceilDiv live g)).foldl (fun s k =>
      let scores := (List.range (min g (live - k * g))).map fun i =>
        (k * g + i, gateScores (fld x 4 1) (fld x 1 1 == 0) (s.rowVals u y (k * g + i) 0 (fld x 2 2)))
      let a := admitChoices u (fld x 0xC 4) (rankChoices (fld x 4 1) scores)
      let lost := (scores.filter (·.2.isNone)).map fun p => (⟨u.idx, u.inst, noExpert, p.1, 0, 0⟩ : Admit)
      (s.modRun fun r => { r with admits := r.admits ++ a.1 ++ lost }).count (tmAt 0x40) a.2) s
    s.putGathered u x
  | _, _ => s

/-! ## Access classes of a tide (R212, R213) -/

/-- The byte ranges at which a tide reaches a tensor. -/
def State.extent (s : State) (u : Tide) (x : Bytes) : List (Nat × Nat) :=
  let k := tKind x
  if k = kStash ∨ k = kStats then
    match s.group? u.inst with
    | none => []
    | some g => if g.recompute then (u.t.recs secShoal 4).map fun r => (fld r 8 8, fld r 0x10 8)
        else (g.pages.filter (· != noAddr)).map fun p => (p, pageSize)
  else if k = kKey ∨ k = kValue then
    (s.run.serves.filterMap (·.slot)).flatMap fun n => (u.t.cacheRanges x).map fun a => (u.t.slotBase n + a.1, a.2)
  else u.t.arrays x

/-- The byte ranges that go with the writing of a tensor: the statistics of its rows in the shoal, and its checkpoint (R157, R159). -/
def State.besideWrites (s : State) (u : Tide) (n : Nat) : List (Nat × Nat) :=
  match s.group? u.inst with
  | none => []
  | some g =>
    let pages := (g.pages.filter (· != noAddr)).map fun p => (p, pageSize)
    if g.recompute then (if (u.t.recs secShoal 3).any fun r => fld r 4 2 == n then pages else [])
    else if (u.t.stashEntry n).any fun e => fld e 6 2 != 0xFFFF then pages else []

/-- Every byte range that a tide reads or writes itself; contributions to a region are the quays' adds. -/
def State.reach (s : State) (u : Tide) : List (Bool × Nat × Nat) :=
  let r := u.bytes
  let at' := fun (w : Bool) (n : Nat) => match u.t.tensor? n with | none => [] | some x => (s.extent u x).map fun a => (w, a.1, a.2)
  let reads := (match rKind r with
    | .product => [pStream r]
    | .route => [match u.t.router? (roRouter r) with | none => roLogits r | some x => fld x 0x10 2, roInput r]
    | _ => []) ++ u.besides
  let writes := match rKind r with
    | .product => if closesTile r && !pToRegion r then [pOut r] else []
    | .close => if pToRegion r then [] else [pOut r]
    | .lane => [lOut r]
    | .route => [roGathered r]
    | _ => []
  let loads := if rKind r == .partialLoad then
      (match u.t.tides[plRegion r]? with
        | none => []
        | some g => [(false, u.t.regionAddr g (plFirst r), locSize g * ((plRows r - 1) * gPitch g + loadWidth g r))]) else []
  reads.flatMap (at' false) ++ writes.flatMap (at' true)
    ++ (writes.flatMap fun n => (s.besideWrites u n).map fun a => (true, a.1, a.2)) ++ loads

/-- The instance that ST_TIDE shows: sample group, chunk or decode step (Table 13.21). -/
def State.shownInst (s : State) (u : Tide) : Nat :=
  if u.t.isTraining then (match s.group? u.inst with | none => 0 | some g => if u.range = 1 then g.group else 0)
  else if u.range = 1 then u.chunkNo else u.inst

/-- Whether a tide reads the token batch of its sample group: a one-hot operand, the targets of the loss, or rows of a weight that the
tokens' identifiers name (R155, R168, R367). -/
def Tide.readsTokens (u : Tide) : Bool :=
  let r := u.bytes
  let rows := fun n => match u.t.tensor? n with | none => false | some x => tKind x == kWeight && tRows x != 1
  u.range = 1 && u.t.isTraining
    && ((rKind r == .product && pOneHot r) || (rKind r == .lane && (u.isLoss || (laneReads r).any rows)) || u.chainTensors.any rows)

/-- A later read of a batch: one whose digest differs is a violation of class 7, as one that has failed was when it failed; either takes the
tokens as NaR, and the step is skipped (R369). -/
def State.checkBatch (b : Batch) (s : State) : State :=
  if !s.batchBad b then s
  else (if b.bad then s else s.violation 7 none 0 0 b.addr).modRun fun r => { r with stepNar := true }

/-- The reading of its batch by a tide (R369). -/
def State.readBatch (u : Tide) (s : State) : State :=
  if !u.readsTokens then s
  else match (s.group? u.inst).bind fun g => s.batch? g.group with
    | none => s
    | some b => s.checkBatch b

/-- The bytes that a tide reads from the piles, as Table 8.18 counts them, in equal parts on the piles that hold the data (R400; DESIGN
CHOICE, log 94). -/
def State.countReads (u : Tide) (s : State) : State :=
  ((u.t.routeUses u.idx u.bytes).filter (·.toStall)).foldl (fun s x =>
    x.piles.foldl (fun s p => s.count (tpAt p 0x00) (ceilDiv (ceilDiv x.bytes32 32) x.piles.length)) s) s

/-- A tide starts on its unit, its operands in the stall store, and its work is done (log 15). -/
def State.runTide (u : Tide) (s : State) : State :=
  let s := (s.readBatch u).countReads u
  let shown := s.shownInst u
  let s := (s.setTide u.idx u.inst .started).setStall u.stall fun x => { x with state := 2, lastRec := some u.idx, lastInst := shown }
  let s := s.repack u
  match rKind u.bytes with
  | .product => s.startProduct u
  | .close => s.startClose u
  | .lane => s.startLane u
  | .partialLoad => s.startLoad u
  | .gatherOpen => s.startGather u
  | .route => s.startRoute u
  | _ => s

/-- A tide starts, where the pages that it reaches let it (R212, R213). -/
def State.startTide (u : Tide) (s : State) : State := s.guarded (.tide u.idx) (s.reach u) (State.runTide u)

/-- No record. -/
def noRecord : Nat := 0xFFFFFFFF

/-- The frame pages of a group that no unread stash entry covers are freed (R158). -/
def State.freeStash (t : Table) (inst : Nat) (s : State) : State :=
  match s.group? inst with
  | none => s
  | some g =>
    let live := ((t.recs secShoal 2).zipIdx.filter fun e => !s.stashSpent t inst e.2 noRecord).flatMap fun e => t.entryPages e.1 g.tokens
    let pages := if g.recompute then (if live.isEmpty then g.pages.map fun _ => noAddr else g.pages)
      else g.pages.zipIdx.map fun p => if live.contains p.2 then p.1 else noAddr
    s.modRun fun r => { r with groups := r.groups.map fun x => if x.place = inst then { x with pages := pages } else x }

/-- A started tide completes: its closed tile is freed, a gathering use is counted off, and stash pages read for the last time
are freed. -/
def State.completeTide (u : Tide) (s : State) : State :=
  let r := u.bytes
  let o := tileOwner u.idx r
  let s := s.setStall u.stall fun x =>
    { x with store := x.store.filter (fun y => !(y.record == u.idx && y.inst == u.inst)), tiles := (x.tiles.filter fun y => !(y.tide == o && y.inst == u.inst && y.state == .closing)).map fun y =>
        if rKind r == .product && pGatherUse r && y.tide = o && y.inst = u.inst then { y with usesLeft := y.usesLeft - 1 } else y }
  let s := (s.count (stAt u.stall 0x158) 1).tideDone u.t u.idx u.inst
  let busy := (s.tidesOf u.t u.stall).any fun v => v.status == .started
  let s := if busy then s else s.setStall u.stall fun x => { x with state := if x.state = 2 then 1 else x.state }
  if u.t.isTraining && u.range = 1 && !u.stashRead.isEmpty then s.freeStash u.t u.inst else s

end Sys2Proof.Machine
end

