-- ==== Sys2Proof/Machine/HarbourBase.lean ====
section
/-! DEFINITION. Census views and the causes of re-formation (spec/10, R312, R313,
R317). -/

namespace Sys2Proof.Machine

/-- The ports in use. -/
def State.litPorts (s : State) : List Nat := (List.range 8).filter fun p => (s.port p).role != 0

/-! ## Census views (R313) -/

def rangesOf158 (n : Nat) : Nat := ceilDiv n 158

/-- The own entry of a view. -/
def State.ownEntry (s : State) : CensusEntry :=
  ⟨.present, s.harbour.decided, false, 0, s.job.committed, if s.job.committed.isSome then s.job.modelDigest else 0⟩

/-- A first view: the members present and those that ask to join, those that have left, the others as the last view held them. -/
def State.firstView (s : State) : List CensusEntry :=
  (List.range s.harbour.size).map fun r =>
    if r = s.harbour.rank then s.ownEntry
    else if s.harbour.leavers.contains r then ⟨.absent, false, true, 7, none, 0⟩
    else if s.harbour.present.contains r || s.harbour.joiners.contains r then ⟨.present, false, false, 0, none, 0⟩
    else match s.harbour.view[r]? with
      | some e => if e.state = .present then ⟨.absent, false, false, 1, none, 0⟩ else e
      | none => ⟨.absent, false, false, 1, none, 0⟩

/-- The parts of the own view. -/
def State.viewParts (s : State) : List CensusPart :=
  let h := s.harbour
  (List.range (rangesOf158 h.size)).map fun i =>
    ⟨i, rangesOf158 h.size, h.rank, 158 * i, h.censusNo, h.id, (h.view.drop (158 * i)).take 158⟩

/-- Whether a rank stands present in the own view. -/
def Harbour.holds (h : Harbour) (r : Nat) : Bool := match h.view[r]? with | none => false | some e => e.state == .present

/-- Topology ports to neighbours that the view holds present. -/
def State.viewPorts (s : State) : List Nat := s.livePorts.filter fun p => s.harbour.holds (s.harbour.neighbour p)

def State.sendView (s : State) : State :=
  s.viewPorts.foldl (fun s p => s.viewParts.foldl (fun s c => s.sendLink p (.census c)) s) s

/-- Enter a census with the own first view (R312, R313). -/
def State.enterCensus (s : State) : State :=
  if s.harbour.inCensus then s
  else
    let v := s.firstView
    (s.modHarbour fun h =>
      { h with inCensus := true, censusNo := h.census + 1, censusFrom := s.usec, view := v, views := [], parts := [] }).sendView

/-- Change one rank's entry of the view; a change is flooded. -/
def State.setEntry (r : Nat) (f : CensusEntry → CensusEntry) (s : State) : State :=
  let v := modAt r f s.harbour.view
  if v = s.harbour.view then s else (s.modHarbour fun h => { h with view := v }).sendView

/-- A rank becomes absent or ejected under a reason; ejected takes precedence. -/
def CensusEntry.lose (ej announced : Bool) (reason : Nat) (e : CensusEntry) : CensusEntry :=
  { e with state := if ej || e.state = .ejected then .ejected else .absent, announced := e.announced || announced,
           reason := if e.state = .present then reason else e.reason }

def State.markLost (r reason : Nat) (ej announced : Bool) (s : State) : State := s.setEntry r (CensusEntry.lose ej announced reason)

/-! ## Causes (R312) -/

/-- A member that has not stopped: a quarantined or faulted one takes part in no census (R314, R315). -/
def State.takesPart (s : State) : Bool := s.harbour.joined && s.mode != .quarantined && s.mode != .faulted

/-- The attempt is abandoned unless the member is decided, the cause flooded, and the census entered. -/
def State.reform (m : LinkMsg) (s : State) : State :=
  ((if s.harbour.decided then s else s.abandonAttempt).flood m).enterCensus

/-- What a cause does to the view: reason 2 ejects the accused; reasons 3 and 5 leave the digests to decide; reason 6 names a link
with a quarantined port, of the accuser. -/
def State.applyEject (e : EjectRec) (s : State) : State :=
  if e.reason = 2 then s.markLost e.accused 2 true false
  else s.modHarbour fun h =>
    { h with causes := h.causes ++ [e],
             cuts := if e.reason = 6 && !h.cuts.contains (e.accuser, e.accused) then h.cuts ++ [(e.accuser, e.accused)] else h.cuts }

/-- An EJECT that the census in progress already holds. -/
def Harbour.knows (h : Harbour) (e : EjectRec) : Bool :=
  h.inCensus && (if e.reason = 2 then !h.holds e.accused else h.causes.contains e)

/-- An EJECT of the own making or received: flooded once, then the census. -/
def State.eject (e : EjectRec) (s : State) : State :=
  if !s.takesPart || s.harbour.knows e then s else (s.reform (.eject e)).applyEject e

/-- A LEAVE heard in a run waits for the own commit: the step is not repeated (R317, Table 10.9; log 71). -/
def State.deferLeaver (r : Nat) (s : State) : State :=
  s.modHarbour fun h => { h with admitting := true, leavers := setAdd r h.leavers }

/-- A member that faulted or left (R312, R317). -/
def State.lostMember (m : LinkMsg) (r reason : Nat) (s : State) : State :=
  if s.takesPart then (s.reform m).markLost r reason false true else s

/-- A quarantined topology port starts a re-formation that ejects no one (reason 6). The record has no field for a port: it names
the neighbour as the accused (log 70). -/
def State.portReform (p : Nat) (s : State) : State :=
  s.eject ⟨6, s.harbour.neighbour p, s.harbour.rank, s.job.step, s.job.attempt⟩

/-! ## Leaving (R315, R317) -/

/-- The module leaves its harbour: the ports go dark (the partner port may stay lit), nothing of the harbour remains. -/
def State.outOfHarbour (keepPartner : Bool) (s : State) : State :=
  let ps := s.litPorts.filter fun p => !(keepPartner && some p == s.harbour.partnerPort)
  let partner := s.harbour.partner
  let port := s.harbour.partnerPort
  (s.darkPorts ps).modHarbour fun h =>
    { Harbour.reset with lastMismatch := h.lastMismatch,
                         partner := if keepPartner then partner else 0xFFFF, partnerPort := if keepPartner then port else none }

end Sys2Proof.Machine
end

