-- ==== Sys2Proof/Machine/LinkEngine.lean ====
section
/-! DEFINITION. The link engine: the reduction schedule, bucket frames, statistics and the decision (spec/10, R300 to R308, R316;
spec/11, R343). -/

namespace Sys2Proof.Machine

/-! ## Rings and paths (Table 10.6, R316) -/

/-- One stage of a lane: ring length, own place, the next and previous member, and the ports towards them. -/
structure Ring where
  n : Nat
  c : Nat
  next : Nat
  prev : Nat
  plus : Option Nat
  minus : Option Nat
deriving DecidableEq, Repr

/-- Ranks within `k` hops of a rank over present members and working links. -/
def State.within (s : State) : Nat → Nat → List Nat
  | 0, d => [d]
  | k + 1, d =>
    let h := s.harbour
    let l := s.within k d
    (l ++ l.flatMap fun r => (h.ports.filter (s.linkWorks r)).map (h.across r)).eraseDups.filter fun r => h.present.contains r

/-- The first port of a shortest path from one rank to another: fewer forwarding members, then the lower dimension, then the +
direction. -/
def State.hopFrom (s : State) (r d : Nat) : Option Nat :=
  let h := s.harbour
  let found := (List.range h.size).findSome? fun k =>
    let l := s.within k d
    h.ports.find? fun p => s.linkWorks r p && h.present.contains (h.across r p) && l.contains (h.across r p)
  if d = r then none else found

/-- The own first port towards a rank. -/
def State.nextHop (s : State) (d : Nat) : Option Nat := s.hopFrom s.harbour.rank d

/-- Whether a rank lies on the path from `a` to `d`; `fuel` bounds the hops. -/
def State.onPath (s : State) (r d : Nat) : Nat → Nat → Bool
  | 0, _ => false
  | n + 1, a =>
    a == r || (match s.hopFrom a d with
      | none => false
      | some p => s.onPath r d n (s.harbour.across a p))

/-- The stages of slice `j` in the intact schedule: dimensions j, j + 1, … modulo D. -/
def State.intactRings (s : State) (j : Nat) : List Ring :=
  let h := s.harbour
  (List.range h.topo).map fun k =>
    let d := (j + k) % max 1 h.topo
    ⟨h.dims.getD d 1, (coordsOf h.dims h.rank).getD d 0, h.neighbour d, h.neighbour (d + 4), some d, some (d + 4)⟩

def rotate (j : Nat) (l : List Nat) : List Nat := l.drop j ++ l.take j

/-- Members in the order of logical ring `j`: the rank read with dimension j varying fastest. -/
def Harbour.ringOrder (h : Harbour) (j : Nat) : List Nat :=
  let key := fun r => rankIn (rotate j h.dims) (rotate j (coordsOf h.dims r))
  sortBy (fun (a b : Nat) => key a < key b) h.members

def State.logicalRing (s : State) (j : Nat) : Ring :=
  let l := s.harbour.ringOrder j
  let n := l.length
  let c := l.findIdx (· == s.harbour.rank)
  let next := l.getD ((c + 1) % max 1 n) 0
  let prev := l.getD ((c + n - 1) % max 1 n) 0
  ⟨n, c, next, prev, s.nextHop next, s.nextHop prev⟩

def State.rings (s : State) (j : Nat) : List Ring := if s.degraded then [s.logicalRing j] else s.intactRings j

/-! ## Transfers (Table 10.6) -/

/-- One step of a lane: what is sent where, and what is received from whom. -/
structure Xfer where
  gather : Bool
  port : Option Nat
  dest : Nat
  sendLo : Nat
  sendHi : Nat
  source : Nat
  recvLo : Nat
  recvHi : Nat
deriving DecidableEq, Repr

/-- Shard `i` of `n` of a range. -/
def shardOf (lo hi n i : Nat) : Nat × Nat := (lo + i * (hi - lo) / max 1 n, lo + (i + 1) * (hi - lo) / max 1 n)

/-- The reduce-scatter steps of a stage; `east` halves go through the + port. -/
def Ring.scatter (r : Ring) (east : Bool) (lo hi : Nat) : List Xfer :=
  (List.range (r.n - 1)).map fun k =>
    let m := max 1 r.n
    let out := shardOf lo hi r.n (if east then (r.c + 2 * m - k - 1) % m else (r.c + k + 1) % m)
    let inn := shardOf lo hi r.n (if east then (r.c + 2 * m - k - 2) % m else (r.c + k + 2) % m)
    if east then ⟨false, r.plus, r.next, out.1, out.2, r.prev, inn.1, inn.2⟩
    else ⟨false, r.minus, r.prev, out.1, out.2, r.next, inn.1, inn.2⟩

/-- The all-gather steps of a stage. -/
def Ring.gather (r : Ring) (east : Bool) (lo hi : Nat) : List Xfer :=
  (List.range (r.n - 1)).map fun k =>
    let m := max 1 r.n
    let out := shardOf lo hi r.n (if east then (r.c + m - k) % m else (r.c + k) % m)
    let inn := shardOf lo hi r.n (if east then (r.c + 2 * m - k - 1) % m else (r.c + k + 1) % m)
    if east then ⟨true, r.plus, r.next, out.1, out.2, r.prev, inn.1, inn.2⟩
    else ⟨true, r.minus, r.prev, out.1, out.2, r.next, inn.1, inn.2⟩

/-- A lane: its reduce-scatter steps, its all-gather steps in reverse order of the stages, and the shard it owns between. -/
structure Lane where
  scatter : List Xfer
  gather : List Xfer
  lo : Nat
  hi : Nat
deriving DecidableEq, Repr

def laneOf (east : Bool) : List Ring → Nat → Nat → Lane
  | [], lo, hi => ⟨[], [], lo, hi⟩
  | r :: rest, lo, hi =>
    let own := shardOf lo hi r.n r.c
    let q := laneOf east rest own.1 own.2
    ⟨r.scatter east lo hi ++ q.scatter, q.gather ++ r.gather east lo hi, q.lo, q.hi⟩

/-- Slice, direction and locations of the two lanes of each slice of `w` locations: the east half, its first floor(S / 2)
locations, and the west half. -/
def State.laneSpans (s : State) (w : Nat) : List (Nat × Bool × Nat × Nat) :=
  let d := max 1 s.harbour.topo
  (List.range d).flatMap fun j =>
    let lo := j * w / d
    let hi := (j + 1) * w / d
    let mid := lo + (hi - lo) / 2
    [(j, true, lo, mid), (j, false, mid, hi)]

def State.lanes (s : State) (w : Nat) : List Lane :=
  (s.laneSpans w).map fun x => laneOf x.2.1 (s.rings x.1) x.2.2.1 x.2.2.2

def Xfer.due (x : Xfer) : Nat := x.recvHi - x.recvLo

/-- Locations that a lane receives in a list of steps. -/
def dueOf (l : List Xfer) : Nat := l.foldl (fun a x => a + x.due) 0

/-- The step that a lane stands in after `got` received locations, and how many of its own it has. -/
def currentXfer : List Xfer → Nat → Option (Xfer × Nat)
  | [], _ => none
  | x :: rest, got => if got < x.due then some (x, got) else currentXfer rest (got - x.due)

/-- The steps of a lane that are not complete after `got` received locations. -/
def stepsLeft : List Xfer → Nat → List Xfer
  | [], _ => []
  | x :: rest, got => if got < x.due then x :: rest else stepsLeft rest (got - x.due)

/-- Locations that a source has given a lane, of its first `got`. -/
def takenFrom (src : Nat) : List Xfer → Nat → Nat
  | [], _ => 0
  | x :: rest, got => (if x.source = src then min got x.due else 0) + takenFrom src rest (got - x.due)

/-! ## Statistics entries (Table 10.8) -/

/-- FORMATS tensors in ascending number. -/
def Table.byNumber (t : Table) : List Bytes := sortBy (fun (a b : Bytes) => tNum a < tNum b) t.tensors

def mergeEntry : StatEntry → StatEntry → StatEntry
  | .harbour m w c n d, .harbour m' w' c' n' d' =>
    .harbour (min allOnes64 (m + m')) (max w w') (c || c') (n || n') (if d = d' then d else allOnes64)
  | .bucket d, .bucket d' => .bucket ((d + d') % m61)
  | .tensor x, .tensor y => .tensor (mergeStat x y)
  | x, _ => x

/-- The module's own entries: the harbour entry, the digests of its own shards, its own tensor statistics with those of its own
shards. -/
def State.ownStats (s : State) (t : Table) : List StatEntry :=
  let k := s.harbour.link
  .harbour 1 s.run.waitUs s.run.stepCliff s.run.stepNar (if s.job.committed.isSome then s.job.modelDigest else 0)
    :: (t.buckets.map fun b => .bucket (kvGet k.ownDigests (bNum b)))
    ++ t.byNumber.map fun x => .tensor (mergeStat (statsOf s.run.stats (tNum x)) (statsOf k.ownEps (tNum x)))

/-! ## Frames (R302, Table 10.7) -/

def payloadCount : FramePayload → Nat
  | .p32 vs => vs.length
  | .g16 vs => vs.length
  | .stats es => es.length

/-- Ranges of at most `k` locations, ascending. -/
def cutRange (k lo hi : Nat) : List (Nat × Nat) :=
  (List.range (ceilDiv (hi - lo) (max 1 k))).map fun i => (lo + i * k, min hi (lo + (i + 1) * k))

/-- Whether the bucket in work is the statistics bucket. -/
def State.onStats (s : State) (t : Table) : Bool := t.buckets.length ≤ s.harbour.link.bucket

/-- The phase of a step of the bucket in work. -/
def State.phaseOf (s : State) (t : Table) (gather : Bool) : Nat := (if s.onStats t then 2 else 0) + (if gather then 1 else 0)

/-- The payload of a range as it stands. -/
def State.payload (s : State) (t : Table) (gather : Bool) (lo hi : Nat) : FramePayload :=
  let k := s.harbour.link
  if s.onStats t then .stats ((k.stats.drop lo).take (hi - lo))
  else if gather then .g16 (((k.codes.drop lo).take (hi - lo)).map fun c => c.getD none)
  else .p32 ((k.sums.drop lo).take (hi - lo))

/-- Locations that one frame carries. -/
def frameSize (stats gather : Bool) : Nat := if stats then 79 else if gather then 1904 else 952

/-- A frame of the bucket in work. -/
def State.frameOf (s : State) (phase dest first : Nat) (p : FramePayload) : BucketFrame :=
  ⟨phase, s.harbour.link.bucket, s.harbour.rank, dest, s.job.step, s.shortDigest, s.job.attempt, first, p⟩

def State.sendFrame (port : Nat) (f : BucketFrame) (s : State) : State :=
  (s.sendLink port (.frame f)).count (tlAt port 0x48) (payloadBytes f.payload)

/-- Send one step of a lane, frame by frame. -/
def State.sendXfer (t : Table) (x : Xfer) (s : State) : State :=
  match x.port with
  | none => s
  | some p => (cutRange (frameSize (s.onStats t) x.gather) x.sendLo x.sendHi).foldl (fun s r =>
      s.sendFrame p (s.frameOf (s.phaseOf t x.gather) x.dest r.1 (s.payload t x.gather r.1 r.2))) s

/-! ## Progress of a lane -/

def State.modLink (f : Link → Link) (s : State) : State := s.modHarbour fun h => { h with link := f h.link }

/-- The bucket in work. -/
def State.curBucket (s : State) (t : Table) : Option Bytes := t.buckets[s.harbour.link.bucket]?

/-- Locations of the bucket in work: wire locations, or entries. -/
def State.bucketSize (s : State) (t : Table) : Nat :=
  match s.curBucket t with | some b => (t.wireLocs b).length | none => t.statEntries

/-- The steps of a lane: a probe step gathers no G16 values (R70). -/
def State.stepsOf (s : State) (t : Table) (l : Lane) : List Xfer :=
  if s.run.probe && !s.onStats t then l.scatter else l.scatter ++ l.gather

/-- CLIFF_OVERFLOW of the link engine's conversion, once a step for the bucket (R34, R118). -/
def State.convertCliff (b : Bytes) (c : Converted) (s : State) : State :=
  if c.stats.any fun p => p.2.cliff then
    s.raiseKey (0x20101, bNum b, 0) 0x0101 srcModule 0xFFFF [(0x20, 1, CliffCause.conversion.code), (0x24, 4, 0xFFFFFFFF), (0x28, 2, bNum b)]
  else s

/-- NAR_SEEN of the link engine's conversion, once a step for a tensor (R23, log 29): it knows neither record nor place. -/
def State.convertNar (c : Converted) (s : State) : State :=
  c.stats.foldl (fun s p => if p.2.nar then s.narEvent srcModule 0xFFFF p.1 0xFFFFFFFF 0xFFFFFFFF 0xFFFFFFFF else s) s

/-- The complete sum of an owned shard becomes G16 values, its amax and counts, and its digest (R301 step 3); a probe step writes no
G16 values and forms no digest over them (R70, R307). -/
def State.convertOwn (t : Table) (l : Lane) (s : State) : State :=
  match s.curBucket t with
  | none => s
  | some b =>
    let vs := (s.harbour.link.sums.drop l.lo).take (l.hi - l.lo)
    let c := s.convertShard t b l.lo vs
    let d := if s.run.probe then 0 else linearDigest (bNum b) l.lo (c.values.map g16Signed)
    ((s.convertCliff b c).convertNar c).modLink fun k =>
      { k with codes := k.codes.take l.lo ++ c.values.map some ++ k.codes.drop l.hi,
               ownEps := c.stats.foldl (fun a p => mergeInto a p.1 p.2) k.ownEps,
               ownDigests := kvPut k.ownDigests (bNum b) ((kvGet k.ownDigests (bNum b) + d) % m61) }

/-- Send the steps that a lane may send: step m once every step before it has been received; `fuel` bounds the steps. -/
def State.sendReady (t : Table) (i : Nat) (l : List Xfer) : Nat → State → State
  | 0, s => s
  | n + 1, s =>
    let k := s.harbour.link
    let m := k.sent.getD i 0
    match l[m]? with
    | none => s
    | some x =>
      if k.received.getD i 0 < dueOf (l.take m) then s
      else ((s.sendXfer t x).modLink fun k => { k with sent := k.sent.set i (m + 1) }).sendReady t i l n

/-- Received locations added into the sums, or stored (R301, Table 10.8). -/
def Link.take (gather : Bool) (first : Nat) (p : FramePayload) (k : Link) : Link :=
  match p with
  | .p32 vs =>
    { k with sums := k.sums.take first ++ List.zipWith p32Add ((k.sums.drop first).take vs.length) vs ++ k.sums.drop (first + vs.length) }
  | .g16 vs => { k with codes := k.codes.take first ++ vs.map some ++ k.codes.drop (first + vs.length) }
  | .stats es =>
    let new := if gather then es else List.zipWith mergeEntry ((k.stats.drop first).take es.length) es
    { k with stats := k.stats.take first ++ new ++ k.stats.drop (first + es.length) }

/-- Locations arrive on a lane: taken in, the owned shard converted when its sum is complete, and what is now due sent. -/
def State.receiveOn (t : Table) (i : Nat) (l : Lane) (gather : Bool) (first : Nat) (p : FramePayload) (s : State) : State :=
  let steps := s.stepsOf t l
  let before := s.harbour.link.received.getD i 0
  let after := before + payloadCount p
  let full := dueOf l.scatter
  let s := s.modLink fun k => { k.take gather first p with received := k.received.set i after }
  let s := if before < full && full ≤ after then s.convertOwn t l else s
  s.sendReady t i steps steps.length

/-! ## Completion of a bucket (R301 step 4, R307, R308) -/

/-- Every lane has received all it is due. -/
def State.bucketDone (s : State) (t : Table) : Bool :=
  (s.lanes (s.bucketSize t)).zipIdx.all fun p => dueOf (s.stepsOf t p.1) ≤ s.harbour.link.received.getD p.2 0

def Link.nextBucket (k : Link) : Link :=
  { k with bucket := k.bucket + 1, active := false, sums := [], codes := [], received := [], sent := [] }

/-- Step results go to a newcomer that is shadowing, as they are written (R343). -/
def State.forward (m : PartnerMsg) (s : State) : State :=
  match s.harbour.forwarding with
  | none => s
  | some p => s.toPartner p m

/-- The gathered values of a bucket are written, and its digest formed over them. -/
def State.closeBucket (t : Table) (b : Bytes) (s : State) : State :=
  let vs := s.harbour.link.codes.map fun c => c.getD none
  let s := if s.run.probe then s else (s.writeG16 t b false 0 vs).forward (.forwardG16 s.job.step (bNum b) 0 vs)
  let d := if s.run.probe then 0 else linearDigest (bNum b) 0 (vs.map g16Signed)
  s.modLink fun k => { k.nextBucket with digests := kvPut k.digests (bNum b) d }

/-- Own value and the harbour's of the first bucket whose digests differ. -/
def State.badBucket (s : State) (t : Table) (es : List StatEntry) : Option (Nat × Nat × Nat) :=
  (t.buckets.zip (es.drop 1)).findSome? fun p => match p.2 with
    | .bucket d => if kvGet s.harbour.link.digests (bNum p.1) = d then none else some (bNum p.1, kvGet s.harbour.link.digests (bNum p.1), d)
    | _ => none

/-- REPLICA_MISMATCH of the step: treated as a fault under reason 5 (R307). -/
def State.replicaFault (s : State) : State :=
  s.eject ⟨5, s.harbour.rank, s.harbour.rank, s.job.step, s.job.attempt⟩

/-- The statistics are complete: incomplete ones are a fault of the member's own, a digest that differs a mismatch, and
otherwise the member is decided. The result of a decided member counts the members of its attempt, which may be more than the
survivors; its digests alone are checked (R315). -/
def State.closeStats (t : Table) (s : State) : State :=
  let es := s.harbour.link.stats
  let given := s.harbour.link.awaiting
  let s := s.modLink fun k => { k.nextBucket with awaiting := false }
  match es.head?, s.badBucket t es with
  | some (.harbour m _ _ _ d), bad =>
    if !given && m != s.harbour.count then s.moduleFault
    else match bad with
      | some b => (s.raise 0x0403 srcBucket b.1 [(0x20, 1, 1), (0x28, 8, b.2.1), (0x30, 8, b.2.2)]).replicaFault
      | none =>
        if d = allOnes64 then
          (s.raiseModule 0x0403 [(0x20, 1, 2), (0x28, 8, s.job.modelDigest), (0x30, 8, d)]).replicaFault
        else ((s.modLink fun k => { k with result := some es }).forward (.forwardStats s.job.step es)).modHarbour
          fun h => { h with decided := true }
  | _, _ => s.moduleFault

def State.finishBucket (t : Table) (s : State) : State :=
  if !s.harbour.link.active || !s.bucketDone t then s
  else match s.curBucket t with
    | some b => s.closeBucket t b
    | none => s.closeStats t

/-! ## Receiving frames (R303) -/

/-- The payload kind of a phase. -/
def payloadFits (p : FramePayload) (phase : Nat) : Bool :=
  match p with
  | .p32 _ => phase == 0
  | .g16 _ => phase == 1 || phase == 4
  | .stats _ => 2 ≤ phase

/-- The state with another bucket in work: what the schedule says of that bucket is read there. -/
def State.atBucket (b : Nat) (s : State) : State := s.modLink fun k => { k with bucket := b }

/-- The steps of a lane of a bucket. -/
def State.stepsAt (s : State) (t : Table) (b i : Nat) : List Xfer :=
  let x := s.atBucket b
  match (x.lanes (x.bucketSize t))[i]? with | none => [] | some l => x.stepsOf t l

/-- Locations that a lane of a bucket has received: of the bucket in work, those that its engine has taken. -/
def State.gotOn (s : State) (b i : Nat) : Nat :=
  let k := s.harbour.link
  if b = k.bucket && k.active then k.received.getD i 0 else 0

/-- A frame of the attempt in progress. -/
def State.ofAttempt (s : State) (f : BucketFrame) : Bool := f.step == s.job.step && f.attempt == s.job.attempt && f.phase != 4

/-- Locations of a lane of a bucket that frames of a sender hold back. -/
def State.heldOn (s : State) (t : Table) (b i src : Nat) : Nat :=
  let x := s.atBucket b
  match (x.laneSpans (x.bucketSize t))[i]? with
  | none => 0
  | some l => sumList ((s.harbour.link.held.filter fun p =>
      s.ofAttempt p.2 && p.2.sender == src && p.2.bucket == b && l.2.2.1 ≤ p.2.first && p.2.first < l.2.2.2).map fun p => payloadCount p.2.payload)

/-- What a lane expects next from a sender, from bucket `b` on: the bucket, the step and the locations of it already here; `fuel`
bounds the buckets. -/
def State.dueNext (s : State) (t : Table) (src i : Nat) : Nat → Nat → Option (Nat × Xfer × Nat)
  | 0, _ => none
  | n + 1, b =>
    let l := s.stepsAt t b i
    match currentXfer (l.filter fun x => x.source == src) (takenFrom src l (s.gotOn b i) + s.heldOn t b i src) with
    | some c => some (b, c.1, c.2)
    | none => s.dueNext t src i n (b + 1)

/-- R303: bucket, phase and locations match what the schedule expects next from the sender on one of the lanes. -/
def State.expects (s : State) (t : Table) (f : BucketFrame) : Bool :=
  let n := payloadCount f.payload
  0 < n && payloadFits f.payload f.phase && (List.range (s.laneSpans 0).length).any fun i =>
    match s.dueNext t f.sender i (t.buckets.length + 1 - s.harbour.link.bucket) s.harbour.link.bucket with
    | none => false
    | some (b, x, o) => f.bucket == b && f.phase == (s.atBucket b).phaseOf t x.gather && f.first == x.recvLo + o && f.first + n ≤ x.recvHi

/-- The lane of the bucket in work whose current step takes a frame now. -/
def State.matchFrame (s : State) (t : Table) (f : BucketFrame) : Option (Nat × Lane) :=
  if !s.harbour.link.active || f.bucket != s.harbour.link.bucket then none
  else (s.lanes (s.bucketSize t)).zipIdx.findSome? fun p =>
    match currentXfer (s.stepsOf t p.1) (s.harbour.link.received.getD p.2 0) with
    | none => none
    | some c =>
      if c.1.source == f.sender && f.phase == s.phaseOf t c.1.gather && f.first == c.1.recvLo + c.2
          && f.first + payloadCount f.payload ≤ c.1.recvHi then some (p.2, p.1) else none

/-- Rejected under R303: DIGEST_MISMATCH, and an EJECT of the sender with reason 3. -/
def State.rejectFrame (port : Nat) (f : BucketFrame) (s : State) : State :=
  (s.raise 0x0302 srcMember f.sender [(0x20, 1, port), (0x28, 8, f.digest), (0x30, 8, s.shortDigest)]).eject
    ⟨3, f.sender, s.harbour.rank, s.job.step, s.job.attempt⟩

def State.holdFrame (port : Nat) (f : BucketFrame) (s : State) : State := s.modLink fun k => { k with held := k.held ++ [(port, f)] }

/-- An expected frame: taken where its lane stands at it, and held until then otherwise. -/
def State.useFrame (t : Table) (port : Nat) (f : BucketFrame) (s : State) : State :=
  match s.matchFrame t f with
  | none => s.holdFrame port f
  | some (i, l) =>
    ((s.receiveOn t i l (f.phase % 2 == 1) f.first f.payload).modJob fun j => { j with progress := j.progress + 1 }).finishBucket t

/-- Held frames that the lanes now stand at are consumed; `fuel` bounds them. -/
def State.useHeld (t : Table) : Nat → State → State
  | 0, s => s
  | n + 1, s =>
    match s.harbour.link.held.find? fun p => s.ofAttempt p.2 && (s.matchFrame t p.2).isSome with
    | none => s
    | some p => ((s.modLink fun k => { k with held := k.held.erase p }).useFrame t p.1 p.2).useHeld t n

/-! ## Starting a bucket (R301, R305) -/

/-- The regions of a bucket have completed (R132). -/
def State.bucketReady (s : State) (t : Table) (b : Bytes) : Bool :=
  (List.range t.tides.length).all fun i =>
    rKind (t.tide i) != .regionOpen || gBucket (t.tide i) != bNum b
      || (match s.region? i 0 with | none => false | some g => g.complete)

/-- The lanes of the bucket begin: an empty scatter owns its shard at once. -/
def State.startLanes (t : Table) (s : State) : State :=
  let ls := s.lanes (s.bucketSize t)
  let s := s.modLink fun k => { k with active := true, received := ls.map fun _ => 0, sent := ls.map fun _ => 0 }
  let s := ls.zipIdx.foldl (fun s p =>
    let s := if dueOf p.1.scatter = 0 then s.convertOwn t p.1 else s
    let l := s.stepsOf t p.1
    s.sendReady t p.2 l l.length) s
  let s := s.finishBucket t
  s.useHeld t (s.harbour.link.held.length + 1)

/-- A bucket outside a harbour: its sums are converted where they stand (R171 row 2). -/
def State.reduceAlone (t : Table) (b : Bytes) (s : State) : State :=
  let c := s.convertShard t b 0 (t.bucketSums s.view b)
  let s := (s.convertCliff b c).convertNar c
  let s := if s.run.probe then s else s.writeG16 t b false 0 c.values
  (s.modRun fun r => { r with reduced := c.stats.foldl (fun a p => mergeInto a p.1 p.2) r.reduced }).modLink Link.nextBucket

/-- The next bucket, or the statistics bucket once every tide of the step has completed. -/
def State.reduceBucket (t : Table) (s : State) : State :=
  if !s.inRun || s.run.kind != .training || !s.stepOpen || s.harbour.link.active || s.harbour.inCensus then s
  else match s.curBucket t with
    | some b =>
      if !s.bucketReady t b then s
      else s.guarded .linkEngine (t.bucketReach b) fun s =>
        let s := s.modJob fun j => { j with progress := j.progress + 1 }
        if !s.harbour.joined then s.reduceAlone t b
        else
          let v := t.bucketSums s.view b
          (s.modLink fun k => { k with sums := v, codes := v.map fun _ => none }).startLanes t
    | none =>
      if !s.harbour.joined || s.harbour.decided || !(s.run.groups.all (·.started) && s.run.tides.all fun u => u.status == .done) then s
      else (s.modLink fun k => { k with stats := s.ownStats t }).startLanes t

/-! ## The result of a decided member (R315) -/

/-- The full gradient and the statistics in phase-4 frames, to each rank of a list. -/
def State.sendResult (t : Table) (ranks : List Nat) (s : State) : State :=
  ranks.foldl (fun s d => match s.nextHop d with
    | none => s
    | some p =>
      let s := t.buckets.foldl (fun s b =>
        let vs := t.bucketG16 s.view false b
        (cutRange 1904 0 vs.length).foldl (fun s r =>
          s.sendFrame p { s.frameOf 4 d r.1 (.g16 ((vs.drop r.1).take (r.2 - r.1))) with bucket := bNum b }) s) s
      let es := s.harbour.link.result.getD []
      (cutRange 79 0 es.length).foldl (fun s r =>
        s.sendFrame p { s.frameOf 4 d r.1 (.stats ((es.drop r.1).take (r.2 - r.1))) with bucket := t.buckets.length }) s) s

/-- Open the next bucket of the result; one without locations closes at once. `fuel` bounds the buckets. -/
def State.openResult (t : Table) : Nat → State → State
  | 0, s => s
  | n + 1, s => match s.curBucket t with
    | none => s.modLink fun k => { k with active := true, awaiting := true }
    | some b =>
      let l := t.wireLocs b
      let s := s.modLink fun k => { k with active := true, awaiting := true, codes := l.map fun _ => none }
      if l.isEmpty then (s.closeBucket t b).openResult t n else s

/-- Start to receive the result: the buckets from the first on. -/
def State.awaitResult (t : Table) (s : State) : State :=
  (s.modLink fun k => { Link.reset with held := k.held }).openResult t (t.buckets.length + 1)

/-- Locations of the result received so far, in order. -/
def Link.filled (k : Link) : Nat := k.codes.countP Option.isSome

/-- One phase-4 frame: the next locations of the next bucket, then the statistics. -/
def State.takeResult (t : Table) (port : Nat) (f : BucketFrame) (s : State) : State :=
  let k := s.harbour.link
  match s.curBucket t, f.payload with
  | some b, .g16 vs =>
    if f.bucket != bNum b || f.first != k.filled || k.codes.length < f.first + vs.length then s.rejectFrame port f
    else
      let s := s.modLink fun k => k.take true f.first f.payload
      if s.harbour.link.filled < s.harbour.link.codes.length then s
      else
        s.guarded .linkEngine (t.bucketReach b) fun s => (s.closeBucket t b).openResult t (t.buckets.length + 1)
  | none, .stats es =>
    if f.bucket != t.buckets.length || f.first != k.stats.length then s.rejectFrame port f
    else
      let s := s.modLink fun k => { k with stats := k.stats ++ es }
      if s.harbour.link.stats.length < t.statEntries then s else s.closeStats t
  | _, _ => s.rejectFrame port f

/-- Held frames of the result, in order; `fuel` bounds them. -/
def State.useHeldResult (t : Table) : Nat → State → State
  | 0, s => s
  | n + 1, s =>
    let k := s.harbour.link
    match k.held.find? fun p => p.2.phase == 4 && p.2.step == s.job.step && p.2.attempt == s.job.attempt with
    | none => s
    | some p =>
      if !k.awaiting then s
      else ((s.modLink fun k => { k with held := k.held.erase p }).takeResult t p.1 p.2).useHeldResult t n

/-- A frame for this member, checked in the order of R303. A member that has not begun the step holds it for the attempt that
begins; one that has abandoned the attempt discards what still comes of it (R304), but for a decided member's result. -/
def State.checkFrame (t : Table) (port : Nat) (f : BucketFrame) (s : State) : State :=
  let k := s.harbour.link
  let own := if s.inRun && s.stepOpen then s.job.attempt else 0
  if f.digest != s.shortDigest || f.step != s.job.step then s.rejectFrame port f
  else if f.attempt < own then s
  else if own < f.attempt || !s.inRun || !s.stepOpen then s.holdFrame port f
  else if k.awaiting then (if f.phase = 4 then s.takeResult t port f else s)
  else if s.harbour.inCensus && !s.harbour.decided then (if f.phase = 4 then s.holdFrame port f else s)
  else if !s.expects t f then s.rejectFrame port f
  else (s.useFrame t port f).useHeld t (s.harbour.link.held.length + 1)

/-- An attempt begins: the frames held for it are checked, those of a later one stay, and late ones are dropped (R303, R304). -/
def State.recheckHeld (t : Table) (s : State) : State :=
  let l := s.harbour.link.held.filter fun p => p.2.step == s.job.step && s.job.attempt ≤ p.2.attempt
  l.foldl (fun s p => s.checkFrame t p.1 p.2) (s.modLink fun k => { k with held := [] })

/-- A frame for another member goes on at link level; its payload counts on both ports (R316, Table 13.12). -/
def State.forwardFrame (f : BucketFrame) (s : State) : State :=
  match s.nextHop f.dest with
  | none => s
  | some p => (s.sendLink p (.forward f)).count (tlAt p 0x48) (payloadBytes f.payload)

/-- A bucket frame arrives (R303, R304, R316). -/
def State.frameIn (t : Table) (port : Nat) (f : BucketFrame) (s : State) : State :=
  if !(s.port port).up then s
  else
    let s := s.count (tlAt port 0x50) (payloadBytes f.payload)
    if !s.takesPart || !s.harbour.ports.contains port then s
    else if f.dest != s.harbour.rank then s.forwardFrame f
    else s.checkFrame t port f

end Sys2Proof.Machine
end

