-- ==== Sys2Proof/Machine/Runs.lean ====
section
/-! DEFINITION. A training run: its steps and attempts, the start of a sample group, host-delegated layers, slack water, the
commit and what follows it (spec/02, R56 to R71; spec/06, R153, R154, R158, R159, R171, R179, R180; spec/11, R329, R337 to R340;
spec/12, R363, R370, R371, R374, R375; spec/15, R466). -/

namespace Sys2Proof.Machine

/-! ## Steps and attempts (R153, R165, R304) -/

/-- An attempt of the step begins: the sample groups that fall to the module, and every tide instance waiting. -/
def State.beginAttempt (t : Table) (s : State) : State :=
  let s := s.abandonAttempt
  let gs := s.assigned.zipIdx.map fun p => (⟨p.1, p.2, 0, [], false, false, none⟩ : GroupRun)
  let us := (t.stepInstances gs.length).map fun u => (⟨u.1, u.2, .waiting⟩ : TideInst)
  let s := (s.modRun fun r => { r with groups := gs, tides := us, slack := .none }).modHarbour fun h => { h with decided := false }
  let s := s.modJob fun j => { j with streamStep := some (max (j.streamStep.getD 0) j.step) }
  let s := (s.passBarriers t).enter .running
  if s.harbour.joined then s.recheckHeld t else s

/-- The next step begins with attempt 0; a probe step comes first where a gradient tensor has no γ (R69). -/
def State.beginStep (t : Table) (s : State) : State :=
  let s := s.modJob fun j => { j with attempt := 0 }
  (s.modRun fun r => { r with once := [], probe := s.needsProbe, outcome := .applied }).beginAttempt t

/-- A RUN_STEPS starts. In a harbour the time held for want of one is a wait of the step (R310), and a cap step below 800 MHz is
reported (R424). -/
def State.startRun (t : Table) (c : Cmd) (s : State) : State :=
  let idle := match s.harbour.idleFrom with | none => 0 | some u => s.usec - u
  let s := (s.setCmd c.sq c.cid fun c => { c with started := true }).count (tmAt 0x30) idle
  let s := s.modRun fun r => { r with kind := .training, cur := some ⟨c.sq, c.cid, eSteps c.entry, 0, 0, 0⟩, waitUs := r.waitUs + idle }
  let s := (s.modHarbour fun h => { h with idleFrom := none, halted := false }).beginStep t
  let s := if s.rateLost then s.endPromise 4 (Cmd.isOp opRun) else s
  if s.capStep = 0 then s else s.capThrottleEvent

/-- A repetition of the step takes the next attempt. -/
def State.repeatStep (t : Table) (s : State) : State :=
  let s := (s.modJob fun j => { j with attempt := j.attempt + 1 }).count (tmAt 0x18) 1
  (s.raiseModule 0x0305 [(0x20, 2, s.job.attempt), (0x22, 2, s.harbour.count)]).beginAttempt t

/-! ## Start of a sample group (R154, R158, R159, R272) -/

def State.setGroup (place : Nat) (f : GroupRun → GroupRun) (s : State) : State :=
  s.modRun fun r => { r with groups := r.groups.map fun x => if x.place = place then f x else x }

/-- Shoal pages that sample groups hold. -/
def State.framesUsed (s : State) : List Nat := (s.run.groups.flatMap (·.pages)).filter (· != noAddr)

/-- The lowest free page of a shoal region. -/
def freePage (used : List Nat) (r : Bytes) : Option Nat :=
  ((List.range (fld r 0x10 8 / pageSize)).map fun k => fld r 8 8 + k * pageSize).find? fun a => !used.contains a

/-- `n` frame pages from page `k` on: page k comes from shoal region k mod r. -/
def reservePages (regions : List Bytes) : Nat → Nat → List Nat → Option (List Nat)
  | 0, _, _ => some []
  | n + 1, k, used => match regions[k % max 1 regions.length]? with
    | none => none
    | some r => match freePage used r with
      | none => none
      | some a => (reservePages regions n (k + 1) (a :: used)).map fun l => a :: l

/-- Frame pages of a group of some tokens. -/
def Table.framePages (t : Table) (tokens : Nat) : Nat :=
  ((t.recs secShoal 2).flatMap fun e => t.entryPages e tokens).foldl (fun m p => max m (p + 1)) 0

/-- Pages of a group's segment checkpoints, in their forward formats (R159, R273). -/
def Table.checkpointPages (t : Table) (tokens : Nat) : Nat :=
  ceilDiv (t.checkpointOffset (t.recs secShoal 3).length tokens) pageSize

def State.pagesFree (s : State) (t : Table) : Nat :=
  (t.recs secShoal 1).foldl (fun a r => a + fld r 0x10 8 / pageSize) 0 - s.framesUsed.length

/-- A started group of an earlier place has tides of range 1 to complete. -/
def State.earlierBusy (s : State) (t : Table) (place : Nat) : Bool :=
  s.run.groups.any fun g => g.place < place && g.started && (t.inRange 1).any fun i => s.tideStatus? i g.place != some .done

/-- The group's forward starts with its whole reservation; it waits while an earlier group may free pages; otherwise it starts
in recompute mode with its checkpoints. -/
def State.startGroup (t : Table) (g : GroupRun) (tokens : Nat) (s : State) : State :=
  let regions := t.recs secShoal 1
  let n := t.framePages tokens
  match reservePages regions n 0 s.framesUsed with
  | some ps => s.setGroup g.place fun x => { x with tokens := tokens, pages := ps, started := true }
  | none =>
    if s.earlierBusy t g.place || t.segments.isEmpty then s
    else
      let s := s.raiseOnce 0x0201 srcModule 0xFFFF [(0x20, 4, g.group), (0x24, 4, n), (0x28, 4, s.pagesFree t)]
      match reservePages regions (t.checkpointPages tokens) 0 s.framesUsed with
      | none => s
      | some ps =>
        (s.count (tmAt 0x38) 1).setGroup g.place fun x => { x with tokens := tokens, pages := ps, recompute := true, started := true }

/-- The forward of a sample group is due: it waits for its batch, and a batch that fails its check makes the step NaR (R369). -/
def State.groupForward (t : Table) (n : Nat) (s : State) : State :=
  match s.run.groups.find? fun g => g.group == n with
  | none => s
  | some g =>
    if g.started || s.run.groups.any (fun x => x.place < g.place && !x.started) then s
    else match s.batch? g.group with
      | none => s.setGroup g.place fun x => { x with waitFrom := some (x.waitFrom.getD s.usec) }
      | some b =>
        let s := s.endWait g
        let tokens := batchTokens (s.batchBytes b)
        let s' := s.startGroup t g tokens
        if s'.run.groups.any fun x => x.group == n && x.started then s'.checkBatch b else s'

/-! ## Host-delegated layers (R179, R180, R374, R375) -/

/-- The command whose buffer the host layers use: the RUN_STEPS under way, or the first outstanding SERVE. -/
def State.layerCmd (s : State) : Option Cmd :=
  match s.run.cur with
  | some r => s.cmd? r.sq r.cid
  | none => (s.cmdsOf opServe).head?

/-- The offset of a record's area for a direction. -/
def Table.areaOffset (t : Table) (i dir : Nat) : Nat :=
  ((t.sec secHostLayers).take i).foldl (fun a r => a + areaBytes r + backAreaBytes r) 0
    + (if dir = 0 then 0 else match t.hostLayer? i with | none => 0 | some r => areaBytes r)

/-- Rows of a host-layer tide's tensor: the tokens of the instance, or every row. -/
def State.layerRows (s : State) (u : Tide) (x : Bytes) : Nat := if perToken u x then min (tRows x) (s.liveRows u) else tRows x

/-- A tensor in a public format with what the store path counts (R40; in the statistics of the tensor itself, log 63); a tensor that
stands in the format goes as it is (R41). -/
def State.layerBytes (s : State) (u : Tide) (x : Bytes) (f : Fmt) : Bytes × TensorStat :=
  let rows := s.layerRows u x
  if tFmt x = f then
    (packCodes f ((List.range rows).flatMap fun i => s.view.codes f (s.place u x i (elemAddr x 0 (u.rowIn x i) 0)) (tCols x)),
      TensorStat.empty)
  else
    let vs := (List.range rows).flatMap fun i => (List.range (tCols x)).map (s.elemVal u x i)
    let rs := vs.map (storePublic f (tIeee x))
    (packCodes f (rs.map (·.1)), storeStat (tFault x) vs rs)

/-- The next request tag: ascending modulo 2^16, none that is open. -/
def State.freeTag (s : State) : Nat :=
  ((List.range 65536).map fun k => (s.run.nextTag + k) % 65536).find? (fun k => !(s.run.hostReqs.any fun r => r.tag == k)) |>.getD 0

/-- The waiting HOST_LAYER tide of a record and direction whose input is ready. -/
def State.layerTide (s : State) (t : Table) (i dir : Nat) : Option Tide :=
  ((s.run.tides.map fun u => (u, (⟨t, u.tide, u.inst⟩ : Tide))).find? fun p =>
    p.1.status == .waiting && rKind p.2.bytes == .hostLayer && hlRec p.2.bytes == i && hlDir p.2.bytes == dir
      && s.depsDone p.2 && s.groupReady p.2).map (·.2)

/-- The pages that a host layer reaches: its input is read as a tide reads, and its output written as a tide writes. DESIGN CHOICE
(log 87): Table 7.6 has no column for the DMA engines; the output's host-staging pages, which no tide writes, are the host's to
write. -/
def State.layerReach (s : State) (u : Tide) (x : Bytes) (write : Bool) : List (Bool × Nat × Nat) :=
  (s.extent u x).map fun a => (write && tKind x != kStaging, a.1, a.2)

/-- A request: the input goes to its area, and the kind 2 entry to the record's queue. -/
def State.hostRequest (t : Table) (i dir : Nat) (s : State) : State :=
  match s.layerTide t i dir, t.hostLayer? i, s.layerCmd with
  | some u, some r, some c =>
    match t.tensor? (hlIn u.bytes), t.tensor? (hlOut u.bytes), Fmt.ofCode (fld r 1 1) with
    | some x, some y, some f =>
      if !s.pcie.busMaster || s.run.hostReqs.any (fun q => q.layer == i && q.dir == dir) then s
      else s.guarded (.tide u.idx) (s.layerReach u x false) fun s =>
        let o := s.layerBytes u x f
        let d := o.1
        let off := t.areaOffset i dir
        let tag := s.freeTag
        let need := s.layerRows u y * tCols y * elemBytes f
        let s := if tFmt x = f then s else s.storeReport (s.place u x 0 (tCodes x)) u.idx 0 0 x o.2
        let s := (s.toHost c.sq c.cid off d).modRun fun q =>
          { q with hostReqs := q.hostReqs ++ [⟨tag, i, dir, u.idx, u.inst, c.sq, c.cid, s.usec, need⟩],
                   nextTag := (tag + 1) % 65536 }
        let s := s.post (fld r 2 1) ⟨off, d.length + 2 ^ 32 * i + 2 ^ 48 * dir, 0, 0, 0xFF, tag, 2, 0⟩
        (s.count (tmAt 0x48) 1).setTide u.idx u.inst .started
    | _, _, _ => s
  | _, _, _ => s

/-- A late result ends the promise of the outstanding command (R180). -/
def State.lateLayer (q : HostReq) (allow : Nat) (s : State) : State :=
  let waited := s.usec - q.posted
  if waited ≤ allow then s
  else
    ((s.count (tmAt 0x50) 1).raise 0x0603 srcHostLayer q.layer [(0x20, 1, 1), (0x22, 2, q.tag), (0x28, 8, waited - allow)]).endPromise 1
      fun c => c.sq == q.sq && c.cid == q.cid

/-- The values of a result, through the load path (R39). -/
def layerVals (y : Bytes) (f : Fmt) (d : Bytes) : List Val := (unpack f (d.length / elemBytes f) d).map (loadPublic f (tTrunc y))

/-- Rows of `n` elements. -/
def rowsOfN {α : Type} (n : Nat) (vs : List α) : List (List α) :=
  (List.range (vs.length / max 1 n)).map fun i => (vs.drop (i * n)).take n

/-- A result into the layer's output tensor: narrowed once into its format (R28, R42), or as it is where the tensor stands in the
public format (R41). -/
def State.putLayer (u : Tide) (y : Bytes) (f : Fmt) (d : Bytes) (s : State) : State :=
  if tFmt y = f then
    (rowsOfN (tCols y * elemBytes f) d).zipIdx.foldl (fun s p => s.memWrite (s.place u y p.2 (elemAddr y 0 (u.rowIn y p.2) 0)) p.1) s
  else
    let rows := rowsOfN (tCols y) (layerVals y f d)
    (rows.zipIdx.foldl (fun s p => s.putVals u y p.2 0 0 id p.1) s).putTokenCopy u y 0 0 rows

/-- A result arrives: the layer's output is written and its tide completes. -/
def State.hostResult (t : Table) (q : HostReq) (d : Bytes) (s : State) : State :=
  let u : Tide := ⟨t, q.tide, q.inst⟩
  match t.tensor? (hlOut u.bytes), t.hostLayer? q.layer with
  | some y, some r =>
    match Fmt.ofCode (fld r 1 1) with
    | none => s
    | some f =>
      let s := s.lateLayer q (fld r (if q.dir = 0 then 4 else 8) 4)
      s.guarded (.tide u.idx) (s.layerReach u y true) fun s =>
      let s := (s.putLayer u y f d).modRun fun x => { x with hostReqs := x.hostReqs.filter fun z => z.tag != q.tag }
      s.tideDone t q.tide q.inst
  | _, _ => s

/-! ## Snapshots at slack water (R337, R338, R408) -/

/-- The pages of a drain: the transfer set for a newcomer, the snapshot set otherwise. -/
def Table.drainPages (t : Table) : SnapDest → List Nat
  | .newcomer _ => t.transferPages
  | _ => t.snapshotPages

/-- Every fragment of a list of pages. -/
def fragments (ps : List Pinned) (pages : List Nat) : List (Nat × Nat) :=
  pages.flatMap fun p => ((List.range 24).filter fun q => !(fragmentOf ps q p).isEmpty).map fun q => (q, p)

/-- The destination that a SNAPSHOT names, where it is available. -/
def State.snapDestOf (s : State) (t : Table) (r : SnapReq) : Option SnapDest :=
  match s.cmd? r.sq r.cid with
  | none => none
  | some c =>
    if eDest c.entry = 0 then (if s.pcie.busMaster then some (.host (ePtr c.entry) (eLen c.entry) (some r.sq) (some r.cid)) else none)
    else if t.snapshotToPartner && s.partnerPresent then some .partner else none

/-- The destination of an interval snapshot. -/
def State.intervalDest (s : State) (t : Table) : Option SnapDest :=
  if t.snapshotToPartner then (if s.partnerPresent then some .partner else none)
  else if t.imageBytes ≤ s.snap.hostLen && s.pcie.busMaster then some (.host s.snap.hostBase s.snap.hostLen none none) else none

/-- A snapshot is planned: its fragments are marked when the step has committed. -/
def State.beginSnapshot (t : Table) (d : SnapDest) (served : List SnapReq) (s : State) : State :=
  let number := match d with | .newcomer _ => s.snap.number | _ => s.snap.number + 1
  s.modSnap fun x =>
    { x with draining := true, number := number, step := s.job.step, dest := d, total := (t.drainPages d).length * pageSize,
             drained := 0, setDigest := 0, count := 0, imageOff := 256, record := [], pend := [], copies := [], badCopies := [], serving := served,
             requests := [], intervalPending := false, recordDue := false, abandoned := false, noDest := false }

/-- The interval snapshot falls due at an applied step. -/
def State.intervalDue (s : State) (t : Table) : Bool :=
  s.run.outcome == .applied && t.snapshotInterval != 0 && s.job.scale.applied % t.snapshotInterval == 0

/-- An interval that falls due waits as a request does. -/
def State.noteInterval (t : Table) (s : State) : State :=
  if s.intervalDue t then s.modSnap fun x => { x with intervalPending := true } else s

/-- A donor's transfer begins; the requests that wait go on waiting, and the registers go on showing the last snapshot. -/
def State.beginTransfer (t : Table) (p : Nat) (s : State) : State :=
  let y := s.snap
  ((s.beginSnapshot t (.newcomer p) []).modSnap fun x =>
    { x with requests := y.requests, intervalPending := y.intervalPending, shown := y.progress, abandoned := y.abandoned,
             noDest := y.noDest }).modHarbour fun h =>
    { h with donating := none, forwarding := some p }

/-- What starts at this slack water: a donor's transfer, one snapshot for the pending requests, or an interval snapshot. A probe
step's slack water starts none: its image would restore to the step after one that has not been computed (R70, R345; log 72). -/
def State.planSnapshot (t : Table) (s : State) : State :=
  let s := s.noteInterval t
  if s.run.probe || s.snap.draining then s
  else match s.harbour.donating with
    | some p => s.beginTransfer t p
    | none =>
      let l := s.snap.requests
      let ok := l.filter fun r => (s.snapDestOf t r).isSome
      let bad := l.filter fun r => (s.snapDestOf t r).isNone
      let s := bad.foldl (fun s r => s.finish r.sq r.cid .refusedState 0 0) s
      let s := s.modSnap fun x => { x with requests := ok }
      match ok.head?.bind (s.snapDestOf t) with
      | some d => s.beginSnapshot t d ok
      | none =>
        if !s.snap.intervalPending then s
        else match s.intervalDest t with
          | some d => s.beginSnapshot t d []
          | none => s.modSnap fun x => { x with intervalPending := false, noDest := true }

/-! ## Scale decisions (R55 to R71) -/

/-- The statistics of the step for each tensor: harbour-wide where joined, the module's own otherwise (R44). -/
def State.stepStats (s : State) (t : Table) : List (Nat × TensorStat) :=
  match s.harbour.link.result with
  | some es =>
    (t.byNumber.zip (es.drop (1 + t.buckets.length))).map fun p =>
      (tNum p.1, match p.2 with | .tensor x => x | _ => TensorStat.empty)
  | none => t.byNumber.map fun x => (tNum x, mergeStat (statsOf s.run.stats (tNum x)) (statsOf s.run.reduced (tNum x)))

/-- The flags of the harbour entry. -/
def State.stepFlags (s : State) : Bool × Bool :=
  match s.harbour.link.result with
  | some (.harbour _ _ c n _ :: _) => (c, n)
  | _ => (s.run.stepCliff, s.run.stepNar)

/-- A scale state after the step's decisions; a probe takes γ from an amax of values that no γ has clipped (R51, R70). -/
def Scale.decide (x : Scale) (t : Table) (step : Nat) (o : StepOutcome) (stats : List (Nat × TensorStat)) : Scale :=
  let eps := fun n (_ : Bool) => (statsOf stats n).eps
  let sat := fun n (_ : Bool) => (statsOf stats n).sat != 0
  let noSat := fun (_ : Nat) (_ : Bool) => false
  match o with
  | .applied => x.applyStep step t.policy t.narrowable (statsOf stats) eps sat
  | .probeClean => x.applyProbe step eps noSat
  | .skipped | .probeFailed => x.skip.newGammas

/-- FORMAT_PROMOTED and FORMAT_DEMOTED of an applied step. -/
def State.formatEvents (before : Scale) (stats : List (Nat × TensorStat)) (s : State) : State :=
  let s := before.formats.foldl (fun s f =>
    let st := statsOf stats f.tensor
    match (updateFormat st f).2 with
    | none => s
    | some up => s.raise (if up then 0x0104 else 0x0105) srcTensor f.tensor
        [(0x20, 1, Fmt.toCode (if up then .l8 else .l4)), (0x28, 8, if up then st.f else st.f4), (0x30, 8, st.c)]) s
  s.job.scale.narrowed.foldl (fun s p =>
    let was := before.narrowed.any fun q => q.1 == p.1 && q.2
    let st := statsOf stats p.1
    if was = p.2 then s
    else s.raise (if p.2 then 0x0105 else 0x0104) srcTensor p.1
      [(0x20, 1, Fmt.toCode (if p.2 then .l8 else .g16)), (0x21, 1, 1), (0x28, 8, st.f), (0x30, 8, st.c)]) s

/-- LOSS_SCALE_LOWERED, and BLOCK_DOMINATED with the harbour-wide counts. DESIGN CHOICE (log 64): the probe step of step n and the
applied step n that follows it each raise BLOCK_DOMINATED for a tensor, as each has a slack water of its own (R66, R70). -/
def State.scaleEvents (before : Scale) (stats : List (Nat × TensorStat)) (s : State) : State :=
  let x := s.job.scale
  let s := if x.lam < before.lam then s.raiseModule 0x0103 [(0x20, 2, pattern 16 x.lam), (0x22, 1, x.skips)] else s
  stats.foldl (fun s p => if p.2.dom = 0 then s else s.raise 0x0106 srcTensor p.1 [(0x28, 8, p.2.dom)]) s

def stepOutcome (probe bad : Bool) : StepOutcome :=
  match probe, bad with
  | true, true => .probeFailed
  | true, false => .probeClean
  | false, true => .skipped
  | false, false => .applied

/-- What the statistics of the step decide. -/
def State.outcomeOf (s : State) (t : Table) : StepOutcome :=
  let f := s.stepFlags
  stepOutcome s.run.probe (f.1 || f.2 || (s.stepStats t).any fun p => p.2.cliff || p.2.nar)

/-- The decisions of R67, with the chandler where the step is applied; a newcomer that shadows takes the odd steps' gradients from
the second half of each line (R343). -/
def State.decide (t : Table) (odd : Bool) (s : State) : State :=
  let stats := s.stepStats t
  let o := s.outcomeOf t
  let before := s.job.scale
  let s := s.modRun fun r => { r with outcome := o }
  let s := if o = .applied then s.chandle t before.lam odd (before.applied + 1) s.job.step else s
  let s := s.modJob fun j =>
    let x := if o = .applied then { before with applied := before.applied + 1 } else before
    { j with scale := x.decide t j.step o stats, historyLost := j.historyLost && o != .probeClean }
  let s := if o = .applied then s.formatEvents before stats else s
  s.scaleEvents before stats

/-- The harbour wait of the step extends every RUN_STEPS (R310). -/
def State.harbourWait (s : State) : State :=
  match s.harbour.link.result with
  | some (.harbour _ w _ _ _ :: _) => (s.cmdsOf opRun).foldl (fun s c => s.extend c.sq c.cid w) s
  | _ => s

/-! ## Slack water (R171, Table 6.2) -/

/-- The flags of a step record. -/
def StepOutcome.flags : StepOutcome → Nat
  | .applied => 1 | .skipped => 2 | .probeClean => 4 | .probeFailed => 6

/-- A probe step advances nothing (R70). -/
def StepOutcome.isProbe : StepOutcome → Bool
  | .probeClean | .probeFailed => true
  | _ => false

/-- The job as it stands after the step's records: the data position and the digest of the masters and moments as written. -/
def State.recorded (s : State) (t : Table) : State :=
  s.modJob fun j =>
    { j with dataPos := if s.run.outcome.isProbe then j.dataPos else j.step + 1, modelDigest := t.modelDigest s.view }

/-- The step record, built as the state stands after the commit. -/
def State.stepRecord (s : State) (t : Table) (seq : Nat) : Bytes :=
  (s.recorded t).buildRecord t 1 s.run.outcome.flags seq s.job.step (scaleEntries s.job.scale)

/-- The commit of the step: the snapshot-complete record, where one is due, and the step record (R329, R340). -/
def State.commitStep (t : Table) (s : State) : State :=
  let s := s.planSnapshot t
  let seq := s.journal.nextSeq
  let first := if s.snap.recordDue then [(s.recorded t).buildRecord t 3 0 seq s.snap.step [(3, snapEntry s.snap 2)]] else []
  let r := s.stepRecord t (seq + first.length)
  (s.modRun fun r => { r with slack := .committing }).startCommit t (first ++ [r]) s.snap.recordDue

/-- Every tide of the step has completed: the last sample group's backward is over. -/
def State.tidesDone (s : State) : Bool := s.run.groups.all (·.started) && s.run.tides.all fun u => u.status == .done

/-- Rows 1 to 3 of Table 6.2 are through: every bucket is reduced and, in a harbour, the member is decided. -/
def State.stepDone (s : State) (t : Table) : Bool :=
  s.tidesDone && (if s.harbour.joined then s.harbour.decided else t.buckets.length ≤ s.harbour.link.bucket)

/-- The decisions of the step and its commit, once its statistics are complete, where the pages let the quays' units reach what an
applied step writes (R213). -/
def State.decideStep (t : Table) (s : State) : State :=
  if !s.stepDone t then s
  else s.guarded .quayUnit (if s.outcomeOf t = .applied then t.chandlerReach else []) fun s =>
    (s.harbourWait.decide t false).commitStep t

/-- Entry to SLACK after the last backward, and rows 3 to 6 once the buckets are through (R171, Table 6.2). -/
def State.slackWater (t : Table) (s : State) : State :=
  if s.run.kind != .training || !s.tidesDone || (s.harbour.inCensus && !s.harbour.decided) then s
  else if s.mode == .running && s.run.slack == .none then
    ((s.enter .slack).modRun fun r => { r with slack := .reducing }).decideStep t
  else if s.mode == .slack && s.run.slack == .reducing then s.decideStep t
  else s

/-! ## The commit (R329, R330) -/

/-- A donor's transfer that started before this step has not ended: the step commits only after its last fragment (R343). -/
def State.transferOpen (s : State) : Bool := s.snap.draining && s.drainsToNewcomer && s.snap.step < s.job.step

/-- The commit is through: local write, acknowledgement where it is owed, and for a step the chandlers' writes and a donor's
transfer. -/
def State.commitReady (s : State) : Bool :=
  match s.journal.commit with
  | none => false
  | some c => c.flashDone && !c.ackDue && (!c.ofStep || (s.settled && !s.transferOpen))

/-- The snapshot-complete record ends its snapshot: its commands complete with OK (R340). -/
def State.snapshotDone (s : State) : State :=
  let l := s.snap.serving
  let n := s.snap.number
  let len := s.snap.imageOff
  let s := s.modSnap fun x => { x with draining := false, recordDue := false, serving := [], doneNumber := x.number, doneStep := x.step }
  l.foldl (fun s r => s.finish r.sq r.cid .ok n len) s

/-- The tensor counters of one step (R401). -/
def State.countTensors (t : Table) (s : State) : State :=
  let stats := s.stepStats t
  (t.tensors.take 4096).zipIdx.foldl (fun s p =>
    let x := statsOf stats (tNum p.1)
    [(0x00, x.c), (0x08, x.f), (0x10, x.f4), (0x18, x.sat), (0x20, x.dom), (0x28, if x.cliff then 1 else 0), (0x30, if x.nar then 1 else 0)].foldl
      (fun s c => if c.2 = 0 then s else s.count (ttAt p.2 c.1) c.2) s) s

/-- A RUN_STEPS after one step: a clean probe step is not counted, a failed one counts as skipped (R370). -/
def RunCmd.tally (o : StepOutcome) (c : RunCmd) : RunCmd :=
  { c with used := if o = .probeClean then c.used else c.used + 1,
           applied := if o = .applied then c.applied + 1 else c.applied,
           skipped := if o = .skipped || o = .probeFailed then c.skipped + 1 else c.skipped }

/-- The module counters and the RUN_STEPS count of one step. -/
def State.countStep (s : State) : State :=
  let o := s.run.outcome
  let s := match o with
    | .applied => (s.count (tmAt 0) 1).count (tmAt 0x20) ((s.run.groups.map GroupRun.tokens).foldl (· + ·) 0)
    | .skipped => s.count (tmAt 8) 1
    | .probeClean | .probeFailed => s.count (tmAt 0x10) 1
  s.modRun fun r => { r with cur := r.cur.map (RunCmd.tally o) }

/-- The committed step and what goes with it: its batches are consumed and its loss is shown (R154, R155; log 17). -/
def State.advance (digest : Nat) (s : State) : State :=
  let f := s.takeFree
  let s := f.2.modTm fun t => { t with lastLoss := Config.lossValue f.1 }
  s.modJob fun j =>
    { j with committed := some j.step, step := j.step + 1, dataPos := j.step + 1, modelDigest := digest,
             batches := j.batches.filter fun b => j.step < b.step }

/-- A snapshot that was planned at this slack water begins to drain after the commit: it takes the copy of the step's record as
committed, and marks its fragments pending (R214, R337, R339). -/
def State.markPending (t : Table) (step : Nat) (r : Bytes) (s : State) : State :=
  if s.snap.draining && s.snap.step = step && s.snap.record.isEmpty then
    let s := s.modSnap fun x =>
      { x with record := r, imageOff := 256 + r.length, pend := fragments t.pinned (t.drainPages x.dest) }
    let s := match s.snap.dest, s.drainPort with
      | .partner, some p => s.toPartner p (.imageRecord s.snap.number r)
      | _, _ => s
    s.drainDone
  else s

/-! ## After the commit (R171 rows 7 and 8, R317, R371, R466) -/

/-- A deferred test starts; the RUN_STEPS is extended, in a harbour through the wait of the next step. -/
def State.runDeferred (r : TestReq) (s : State) : State :=
  let ns := s.testNs r.scope r.test r.target
  let us := ceilDiv ns 1000
  let s := s.modTest fun t =>
    { t with active := true, scope := r.scope, test := r.test, target := r.target,
             queue := t.queue.map fun x => if x.sq = r.sq && x.cid = r.cid then { x with running := true } else x }
  let s := ((s.lightTest r.scope r.target).markTested r.scope r.target).raise 0x0701 (if r.scope = 1 then srcStall else srcPort) r.target
    [(0x20, 2, r.test), (0x28, 8, ns)]
  if s.harbour.joined then s.modRun fun x => { x with waitUs := x.waitUs + us }
  else (s.cmdsOf opRun).foldl (fun s c => s.extend c.sq c.cid us) s

/-- The first deferred test takes its place in slack water, once no other test runs; `none` where none is left. -/
def State.startDeferred (s : State) : Option State :=
  match s.test.queue.find? fun r => r.deferred && !r.running with
  | none => none
  | some r => some ((if s.test.queue.any (·.running) then s else s.runDeferred r).modRun fun x => { x with slack := .testing })

/-- The RUN_STEPS under way has used its steps. -/
def State.runUsed (s : State) : Bool := match s.run.cur with | none => true | some c => c.n ≤ c.used

/-- The skip limit is reached at a step that counted a skip (R58, R71). -/
def State.skipLimitHit (s : State) (t : Table) : Bool :=
  (s.run.outcome == .skipped || s.run.outcome == .probeFailed) && t.skipLimit ≤ s.job.scale.skips

/-- A run ends at slack water: the module waits in CONFIGURED, in a harbour as a member that holds the others. -/
def State.rest (st : Status) (halted : Bool) (s : State) : State :=
  (s.endRun st .configured).modHarbour fun h => if h.joined then { h with idleFrom := some s.usec, halted := halted } else h

/-- The module leaves: the LEAVE record goes out and the ports go dark (R317). -/
def State.depart (s : State) : State := ((s.flood (.leave s.harbour.rank)).outOfHarbour false).enter .configured

/-- LEAVE_HARBOUR completes. -/
def State.leaveNow (r : SnapReq) (s : State) : State := s.depart.finish r.sq r.cid .ok s.committedWord 0

/-- The RUN_STEPS behind the one that has completed starts, without a command wait (R363). -/
def State.nextRun (t : Table) (s : State) : State :=
  match s.cmdsOf opRun with
  | [] => s.rest .ok false
  | c :: _ =>
    let s := s.finishRun c .ok
    match s.cmdsOf opRun with
    | [] => s.rest .ok false
    | d :: _ => s.startRun t d

/-- A step whose slack water is the last of its RUN_STEPS has no later wait field to carry the time of its tests: the commands that end here
take it as their extension at once (R466); `all` where every RUN_STEPS ends. -/
def State.lastWait (all : Bool) (s : State) : State :=
  if !s.harbour.joined then s
  else (if all then s.cmdsOf opRun else (s.cmdsOf opRun).take 1).foldl (fun s c => s.extend c.sq c.cid s.run.waitUs) s

/-- What ends the slack water: a LEAVE, a host that has gone (R380), the skip limit, a halt, the end of the RUN_STEPS, or the
next step. -/
def State.closeSlack (t : Table) (s : State) : State :=
  let s := s.modRun fun r => { r with slack := .none }
  let early := if s.runUsed then Status.ok else Status.aborted
  let lim := s.skipLimitHit t
  let ends := s.harbour.leaving.isSome || s.run.closing || lim || !(s.cmdsOf opHalt).isEmpty
  let s := if ends then s.lastWait true else if s.runUsed then s.lastWait false else s
  match s.harbour.leaving with
  | some r => (s.endRun (if lim then .fault else early) .configured).leaveNow r
  | none =>
    if s.run.closing then
      let s := s.endRun (if lim then .fault else early) .configured
      if s.harbour.joined then s.depart else s
    else if lim then s.rest .fault false
    else if !(s.cmdsOf opHalt).isEmpty then s.rest early true
    else if s.runUsed then s.nextRun t
    else s.beginStep t

/-- A census held at slack water comes before the next step; its time runs from the commit (R317). -/
def State.afterTests (t : Table) (s : State) : State :=
  let s := if s.harbour.joined && s.harbour.admitting then s.enterCensus else s
  if s.harbour.inCensus then s.modRun fun r => { r with slack := .census }
  else s.closeSlack t

def State.afterCommit (t : Table) (s : State) : State :=
  match s.startDeferred with
  | some s => s
  | none => s.afterTests t

/-- A donor whose transfer is over forwards its record of each step to the newcomer that shadows it (R343). -/
def State.forwardRecord (r : Bytes) (s : State) : State :=
  match s.harbour.forwarding with
  | none => s
  | some p => if s.snap.draining && s.drainsToNewcomer then s else s.toPartner p (.donorRecord r)

/-- The end of a commit. -/
def State.finishCommit (t : Table) (c : Commit) (s : State) : State :=
  let step := s.job.step
  let r := c.records.getLast?.getD []
  let s := s.modJournal fun j => { j with commit := none }
  let s := if c.snapDone then s.snapshotDone else s
  let s := (s.countTensors t).countStep
  let s := if s.run.outcome.isProbe then s else s.advance (fld r 0x38 8)
  let s := (s.markPending t step r).modRun fun r => { r with waitUs := 0 }
  let s := if s.harbour.inCensus then s.setEntry s.harbour.rank fun _ => s.ownEntry else s
  let s := s.forwardRecord r
  (s.modHarbour fun h => { h with censusFrom := s.usec }).afterCommit t

/-- Finish the commit once nothing is owed any more. -/
def State.tryCommit (s : State) : State :=
  if !s.commitReady then s
  else match s.job.table, s.journal.commit with
    | some t, some c => if c.ofStep then s.finishCommit t c else s.modJournal fun j => { j with commit := none }
    | _, _ => s

end Sys2Proof.Machine
end

