-- ==== Sys2Proof/Machine/Census.lean ====
section
/-! DEFINITION. The census: merging views, closing, ejections, a stopped harbour, formation and what follows (spec/10, R296 to
R299, R310 to R317; log 32). -/

namespace Sys2Proof.Machine

/-! ## Limits (R296, R314) -/

/-- ceil(G / Gmax). -/
def Table.leastMembers (t : Table) : Nat := ceilDiv t.sampleGroups (max 1 t.maxInst)

def State.leastMembers (s : State) : Nat := match s.job.table with | none => 1 | some t => t.leastMembers

/-! ## Stopping, leaving by ejection (R314, R315) -/

/-- What is outstanding of a LEAVE or JOIN completes, with the ports dark. -/
def State.closeHarbourCmds (st : Status) (s : State) : State :=
  let l := s.harbour.leaving
  let j := s.harbour.joining
  let s := s.modHarbour fun h => { h with leaving := none, joining := none }
  let s := match l with | none => s | some r => s.finish r.sq r.cid st s.committedWord 0
  match j with | none => s | some r => s.finish r.sq r.cid st 0 0

/-- A member of a stopped harbour that still runs: its commands complete with FAULT and it stands in CONFIGURED. -/
def State.stopHarbour (s : State) : State :=
  let s := s.closeHarbourCmds .fault
  let s := if s.inRun then s.abandonAttempt.dropCommit.endRun .fault .configured else s
  s.outOfHarbour false

/-- An ejected member: its outstanding commands complete with FAULT, and it stands in QUARANTINED with its topology ports dark and its
partner port lit; ports quarantined before stay so (Table 13.16). A LEAVE that waited is done at once. -/
def State.quarantined (s : State) : State :=
  let s := s.abandonAttempt.dropCommit.endRun .fault .quarantined
  let s := (s.darkPorts (s.harbour.ports.filter fun p => (s.port p).state != 4)).modHarbour fun h => { h with inCensus := false, views := [], parts := [], causes := [], idleFrom := none }
  match s.harbour.leaving with
  | none => s
  | some r => s.leaveNow r

/-- The join fails: the command's status, and every port dark. -/
def State.endJoin (st : Status) (s : State) : State :=
  match s.harbour.joining with
  | none => s
  | some j => (s.outOfHarbour false).finish j.sq j.cid st 0 0

/-! ## Merging (R313) -/

/-- Two entries of one rank: ejected before absent before present, flags joined; the step and digest of the rank's own view, or
those of the higher committed step. -/
def mergeCensusEntry (latest : Option CensusEntry) (a b : CensusEntry) : CensusEntry :=
  let worst := if a.state = .ejected then a else if b.state = .ejected then b else if a.state = .absent then a else b
  let ahead := match a.committed, b.committed with
    | none, some _ => b
    | some x, some y => if x < y then b else a
    | _, none => a
  let data := latest.getD ahead
  ⟨worst.state, a.decided || b.decided, a.announced || b.announced, worst.reason, data.committed, data.digest⟩

/-- A received view merged into the own; the own entry keeps the own step and digest. -/
def Harbour.merged (h : Harbour) (v : List CensusEntry) : List CensusEntry :=
  (List.zip h.view v).zipIdx.map fun p =>
    let latest := if p.2 = h.rank then h.view[h.rank]? else match h.views.find? fun x => x.1 == p.2 with
      | none => none
      | some x => x.2[p.2]?
    mergeCensusEntry latest p.1.1 p.1.2

/-- The view of a sender whose parts are all here. -/
def Harbour.fullView (h : Harbour) (sender : Nat) : Option (List CensusEntry) :=
  let ps := h.parts.filter fun p => p.sender == sender
  let n := rangesOf158 h.size
  if (List.range n).all fun i => ps.any fun p => p.index == i then
    let v := (List.range n).flatMap fun i => match ps.find? fun p => p.index == i with | none => [] | some p => p.entries
    if v.length = h.size then some v else none
  else none

/-- The own census number: that of the census in progress, or of the last closed one. -/
def Harbour.number (h : Harbour) : Nat := if h.inCensus then h.censusNo else h.census

/-- A higher census number is taken, and the own view sent under it. -/
def State.takeNumber (n : Nat) (s : State) : State :=
  if s.harbour.inCensus then (s.modHarbour fun h => { h with censusNo := n, views := [], parts := [] }).sendView
  else
    let s := s.enterCensus
    if s.harbour.censusNo = n then s else (s.modHarbour fun h => { h with censusNo := n }).sendView

/-- Whether an entry stands behind another: a view only ever loses ranks, and gains flags and committed steps. -/
def CensusEntry.behind (a b : CensusEntry) : Bool :=
  rankStateCode a.state < rankStateCode b.state || (b.decided && !a.decided) || (b.announced && !a.announced)
    || (match a.committed, b.committed with | none, some _ => true | some x, some y => x < y | _, none => false)

/-- Whether a part is no newer than the one held of its sender and index. -/
def Harbour.hasPart (h : Harbour) (p : CensusPart) : Bool :=
  match h.parts.find? fun q => q.sender == p.sender && q.index == p.index with
  | none => false
  | some q => q == p || (q.entries.zip p.entries).any fun e => CensusEntry.behind e.2 e.1

/-- A part goes on to the other neighbours held present: a census closes on the views of all members, so those that are no
neighbours reach this member through another (R313; log 32). -/
def State.passPart (port : Nat) (p : CensusPart) (s : State) : State :=
  (s.viewPorts.filter (· != port)).foldl (fun s q => s.sendLink q (.census p)) s

/-- One part of a view: kept and passed on, and the view merged once it is whole; a change of the own view is flooded. -/
def State.addPart (port : Nat) (p : CensusPart) (s : State) : State :=
  let s := (s.modHarbour fun h =>
    { h with parts := h.parts.filter (fun q => !(q.sender == p.sender && q.index == p.index)) ++ [p] }).passPart port p
  match s.harbour.fullView p.sender with
  | none => s
  | some v =>
    let s := s.modHarbour fun h => { h with views := h.views.filter (fun x => x.1 != p.sender) ++ [(p.sender, v)] }
    let m := s.harbour.merged v
    if m = s.harbour.view then s else (s.modHarbour fun h => { h with view := m }).sendView

/-- Every rank held present has sent a complete view equal to the own. -/
def Harbour.agreed (h : Harbour) : Bool :=
  (List.range h.size).all fun r => r == h.rank || !h.holds r || h.views.any fun x => x.1 == r && x.2 == h.view

/-! ## The rules at the close (R314) -/

def Harbour.entry (h : Harbour) (r : Nat) : CensusEntry := h.view.getD r ⟨.absent, false, false, 1, none, 0⟩

/-- Rule 1: the model digest most members of a committed step hold; the lowest rank's on equal counts. -/
def Harbour.groupDigest (h : Harbour) (group : List Nat) : Nat :=
  let count := fun r => group.countP fun q => (h.entry q).digest == (h.entry r).digest
  match group.foldl (fun (best : Option Nat) r => match best with
      | none => some r
      | some b => if count b < count r then some r else some b) none with
  | none => 0
  | some r => (h.entry r).digest

/-- Members that rule 1 ejects. -/
def Harbour.byDigest (h : Harbour) (present : List Nat) : List Nat :=
  present.filter fun r =>
    let g := present.filter fun q => (h.entry q).committed == (h.entry r).committed
    (h.entry r).digest != h.groupDigest g

/-- Rule 2: of the sender and the accuser, those whose harbour digest differs; the sender where neither does. -/
def ruleTwo (accused accuser : Nat) (a b : Bool) : List Nat :=
  if a || b then (if a then [accused] else []) ++ (if b then [accuser] else []) else [accused]

/-- Rule 3: a surviving membership that stops. -/
def Harbour.stops (h : Harbour) (least : Nat) (prev surv : List Nat) : Bool :=
  let kept := prev.filter surv.contains
  let lost := prev.filter fun r => !surv.contains r
  let half := 2 * kept.length == prev.length
  let lowest := match prev.head? with | none => true | some r => surv.contains r
  (2 * kept.length ≤ prev.length && !(half && (lowest || lost.all fun r => (h.entry r).announced))) || surv.length < least

/-! ## Continuing (R315) -/

/-- The step whose result a decided member holds: the one it has just committed, while it stands in that slack water. -/
def State.resultStep (s : State) : Nat :=
  if s.run.slack = .testing || s.run.slack = .census then s.job.step - 1 else s.job.step

/-- The undecided members receive the result of the lowest decided one; without one the step is repeated. -/
def State.resume (t : Table) (surv : List Nat) (s : State) : State :=
  let h := s.harbour
  let dec := surv.filter fun r => (h.entry r).decided
  let und := surv.filter fun r => !(h.entry r).decided
  if !s.inRun then s
  else if h.decided then (if dec.head? = some h.rank then (withStep s.resultStep fun s => s.sendResult t und) s else s)
  else if dec.isEmpty then s.repeatStep t
  else
    let s := s.abandonAttempt.awaitResult t
    s.useHeldResult t (s.harbour.link.held.length + 1)
where
  /-- The frames of a result name its step. -/
  withStep (n : Nat) (f : State → State) (s : State) : State :=
    let cur := s.job.step
    (f (s.modJob fun j => { j with step := n })).modJob fun j => { j with step := cur }

/-- A census held at slack water ends: its time extends every RUN_STEPS, and the slack water closes (R317). -/
def State.slackCensusDone (t : Table) (s : State) : State :=
  if s.run.slack != .census then s
  else
    let us := s.usec - s.harbour.censusFrom
    ((s.cmdsOf opRun).foldl (fun s c => s.extend c.sq c.cid us) s).closeSlack t

/-- MODULE_EJECTED for each lost rank. -/
def State.reportLost (prev surv : List Nat) (s : State) : State :=
  (prev.filter fun r => !surv.contains r).foldl (fun s r =>
    let e := s.harbour.entry r
    s.raise 0x0304 srcMember r [(0x20, 1, e.reason), (0x21, 1, if e.state = .ejected then 2 else 1), (0x28, 8, s.harbour.censusNo)]) s

/-- The membership that a close leaves; what its departed members reported quarantined is forgotten. -/
def Harbour.settle (h : Harbour) (surv : List Nat) : Harbour :=
  { h with joined := true, present := surv, census := h.censusNo, inCensus := false, views := [], parts := [], causes := [],
           cuts := h.cuts.filter fun c => surv.contains c.1,
           ejected := (h.ejected ++ ((h.present.filter fun r => !surv.contains r))).eraseDups, admitting := false, leavers := [],
           joiners := [], forwarding := if surv.contains h.partner then none else h.forwarding }

/-- A cause of the census is a REPLICA_MISMATCH. -/
def Harbour.mismatched (h : Harbour) : Bool := h.causes.any fun e => e.reason == 5

/-- A second mismatch of bucket digests at one step, with no member ejected in between, stops the harbour (R315). -/
def State.secondMismatch (s : State) (ejected : Bool) : Bool :=
  s.harbour.mismatched && !ejected && s.harbour.lastMismatch == some s.job.step

def State.noteMismatch (ejected : Bool) (s : State) : State :=
  s.modHarbour fun h => { h with lastMismatch := if ejected then none else if h.mismatched then some s.job.step else h.lastMismatch }

/-- The partner of a settled membership is mirrored to again (R330). -/
def State.unsuspend (s : State) : State :=
  if s.harbour.present.contains s.harbour.partner then s.modJournal fun j => { j with suspended := false } else s

/-- Whether a rank's harbour digest differs from the harbour's, whose model digest is that of the rank's group (rule 1). The own
digest is computed; no record of the harbour carries another rank's at a census, which is a free value (log 32). -/
def State.digestDiffers (s : State) (present : List Nat) (r free : Nat) : Bool :=
  let h := s.harbour
  if r = h.rank then
    let g := h.groupDigest (present.filter fun q => (h.entry q).committed == (h.entry r).committed)
    s.harbourDigest h.id != sha384 (patch (s.harbourRecord h.id) 0x78 (toLe 8 g))
  else Config.digestDiffers free

/-- Rule 2 for one cause of reason 3: those of the ranks it ejects that are present join the list. -/
def State.judge (present : List Nat) (e : EjectRec) (acc : List (Nat × Nat) × State) : List (Nat × Nat) × State :=
  if e.reason != 3 then acc
  else
    let a := acc.2.takeFree
    let b := a.2.takeFree
    (acc.1 ++ ((ruleTwo e.accused e.accuser (b.2.digestDiffers present e.accused a.1) (b.2.digestDiffers present e.accuser b.1)).filter
      present.contains).map (·, 3), b.2)

/-- Ranks that the rules eject: by model digest, and for each cause of reason 3 by harbour digest. -/
def State.ejections (present : List Nat) (s : State) : List (Nat × Nat) × State :=
  s.harbour.causes.foldl (fun acc e => State.judge present e acc) ((s.harbour.byDigest present).map (·, 5), s)

/-- The close of a census at a member. -/
def State.closeCensus (t : Table) (s : State) : State :=
  let present := (List.range s.harbour.size).filter s.harbour.holds
  let out := s.ejections present
  let s := out.1.foldl (fun s p => s.modHarbour fun h => { h with view := modAt p.1 (CensusEntry.lose true false p.2) h.view }) out.2
  let prev := s.harbour.members
  let surv := present.filter s.harbour.holds
  let ejected := prev.any fun r => !surv.contains r && (s.harbour.entry r).state == .ejected
  if !surv.contains s.harbour.rank then s.quarantined
  else if s.harbour.stops t.leastMembers prev surv || s.secondMismatch ejected then (s.reportLost prev surv).stopHarbour
  else
    let fault := s.stepOpen || (prev.any fun r => !surv.contains r && (s.harbour.entry r).reason != 7)
    let s := if fault then s.noteFault else s
    let s := ((s.reportLost prev surv).noteMismatch ejected).modHarbour fun h => h.settle surv
    let s := if s.rateLost then s.endPromise 4 (Cmd.isOp opRun) else s
    let s := s.unsuspend
    if s.stepOpen then s.resume t surv
    else
      let s := if s.harbour.decided then s.resume t surv else s
      s.slackCensusDone t

/-! ## Formation (R298, R317) -/

/-- A forming census closes with every rank present, or with one absent and enough members; an admission as it stands. -/
def State.mayForm (s : State) (present : List Nat) : Bool :=
  let h := s.harbour
  1 < h.censusNo || present.length == h.size || (present.length + 1 == h.size && s.leastMembers ≤ present.length)

/-- The harbour forms, or admits the module: JOIN_HARBOUR completes with OK. -/
def State.formHarbour (j : Joining) (s : State) : State :=
  let present := (List.range s.harbour.size).filter s.harbour.holds
  if !s.mayForm present then s
  else
    let gone := ((List.range s.harbour.size).find? fun r => !present.contains r).getD 0xFFFF
    let s := s.modHarbour fun h => { h.settle present with joining := none, shadow := none, idleFrom := some s.usec }
    let s := s.unsuspend
    s.finish j.sq j.cid .ok s.harbour.rank gone

/-- The neighbour whose view leaves this rank out; another member where it is no neighbour's, all ones where no view is here. -/
def Harbour.refuser (h : Harbour) : Nat :=
  let without := (h.views.filter fun v => match v.2[h.rank]? with | none => false | some e => e.state != .present).map (·.1)
  ((h.ports.map h.neighbour).find? without.contains).getD (without.headD 0xFFFF)

/-- A module that finds itself absent in the merged view has been refused by a neighbour. -/
def State.joinRefused (s : State) : State :=
  (s.raiseModule 0x0303 [(0x20, 1, 4), (0x22, 2, s.harbour.refuser)]).endJoin .fault

/-- A census closes once the views agree. -/
def State.tryClose (s : State) : State :=
  if !s.harbour.inCensus then s
  else match s.harbour.joining, s.job.table with
    | some j, _ => if !s.harbour.holds s.harbour.rank then s.joinRefused else if s.harbour.agreed then s.formHarbour j else s
    | none, some t =>
      if !s.harbour.agreed || s.run.slack = .committing || s.run.slack = .testing then s
      else s.closeCensus t
    | none, none => s

/-! ## Rows of the census (R312, R313) -/

/-- A census part arrives. -/
def State.censusIn (port : Nat) (p : CensusPart) (s : State) : State :=
  let h := s.harbour
  if !(s.takesPart || h.joining.isSome) || !(s.port port).up || !h.ports.contains port || p.harbourId != h.id
      || p.number < h.number || (!h.inCensus && p.number == h.number) || h.size ≤ p.sender || p.sender = h.rank then s
  else
    let s := if h.number < p.number then s.takeNumber p.number else s
    if s.harbour.hasPart p then s else (s.addPart port p).tryClose

/-- No complete view of a rank within T_late: the rank is absent with reason 1. -/
def State.viewTimeout (r : Nat) (s : State) : State :=
  if !s.harbour.inCensus || r = s.harbour.rank || !s.harbour.holds r || s.harbour.views.any fun x => x.1 == r then s
  else (s.markLost r 1 false false).tryClose

/-- A FAULT record names its sender: the cause is flooded once. -/
def State.faultIn (r : FaultRec) (s : State) : State :=
  let h := s.harbour
  if !h.joined || r.rank = h.rank || !h.present.contains r.rank || (h.inCensus && (h.entry r.rank).announced) then s
  else (s.lostMember (.fault r) r.rank r.reason).tryClose

/-- A LEAVE record: passed on once; a member in a run waits for its own commit, and one that is not, or that is in a census, counts
its sender absent at once. -/
def State.leaveIn (r : Nat) (s : State) : State :=
  let h := s.harbour
  if !h.joined || r = h.rank || !h.present.contains r || h.leavers.contains r || (h.inCensus && (h.entry r).announced) then s
  else
    if s.inRun && !h.inCensus then (s.flood (.leave r)).deferLeaver r else (s.lostMember (.leave r) r 7).tryClose

def State.ejectIn (e : EjectRec) (s : State) : State := (s.eject e).tryClose

end Sys2Proof.Machine
end

