-- ==== Sys2Proof/Machine/Survival.lean ====
section
/-! DEFINITION. Restoring a job from an image, the partner's store or a replica, shadowing, and the partner's mirror and store
(spec/11, R321 to R346; spec/02, R68, R69; log 33). -/

namespace Sys2Proof.Machine

/-! ## Reading a record (R326, R327) -/

/-- The entries of a record as (type, body); `fuel` bounds them. -/
def entriesOf : Nat → Bytes → List (Nat × Bytes)
  | 0, _ => []
  | n + 1, b =>
    let len := fld b 4 4
    if b.length < 8 || len < 8 then [] else (fld b 0 2, slice b 8 (len - 8)) :: entriesOf n (b.drop len)

/-- Reserved fields of the gradient states of entry 0x01; `n` bounds them. -/
def gradsClear : Nat → Bytes → Bool
  | 0, b => b.isEmpty
  | n + 1, b =>
    let k := fld b 4 1
    b.isEmpty || (8 + 16 * k ≤ b.length && fld b 2 1 < 8 && zeroAt b 5 3
      && ((List.range k).all fun i => fld b (8 + 16 * i + 10) 1 < 2 && zeroAt b (8 + 16 * i + 11) 5) && gradsClear n (b.drop (8 + 16 * k)))

/-- Reserved fields in the body of an entry of a type (Table 11.5). -/
def entryClear (ty : Nat) (b : Bytes) : Bool :=
  if ty = 1 then gradsClear b.length b
  else if ty = 2 then (List.range (b.length / 8)).all fun i => zeroAt b (8 * i + 3) 1
  else if ty = 3 then zeroAt b 6 2
  else if ty = 5 then zeroAt b 1 7
  else true

/-- Reserved fields of some entries and the padding after them. -/
def entriesClear : Nat → Bytes → Bool
  | 0, b => b.all (· == 0)
  | n + 1, b =>
    let len := fld b 4 4
    8 ≤ len && len ≤ b.length && zeroAt b 2 2 && entryClear (fld b 0 2) (slice b 8 (len - 8)) && entriesClear n (b.drop len)

/-- Every Reserved field of a record is zero (R8, Tables 11.3 and 11.5). -/
def recordReserved (r : Bytes) : Bool :=
  fld r 6 2 < 16 && zeroAt r 0x0E 2 && zeroAt r 0x8F 1 && zeroAt r 0x95 3 && zeroAt r 0xA4 28
    && entriesClear (fld r 0xA0 4) ((r.take (r.length - 48)).drop 192)

/-- A record from outside that stands: it verifies and is not malformed. DESIGN CHOICE (log 86): chapter 11 names no status for a
malformed record, which counts here as one that does not verify. -/
def recordStands (r : Bytes) : Bool := recordVerifies r && recordReserved r

/-- The body of the entry of a type. -/
def recordEntry (r : Bytes) (ty : Nat) : Bytes :=
  match (entriesOf (fld r 0xA0 4) (r.drop 192)).find? fun e => e.1 == ty with
  | none => []
  | some e => e.2

def histOf (b : Bytes) : HistEntry :=
  ⟨if fld b 0 8 = allOnes64 then none else some (fld b 0 8), if fld b 8 2 = 0x8000 then none else some (sfld b 8 2), bit (fld b 10 1) 0⟩

/-- The gradient states of entry 0x01, with the narrowed flag of each. -/
def gradsOf : Nat → Bytes → List (GradHist × Bool)
  | 0, _ => []
  | n + 1, b =>
    if b.length < 8 then []
    else
      let f := fld b 2 1
      let k := fld b 4 1
      let items := (List.range k).map fun i => histOf (slice b (8 + 16 * i) 16)
      (⟨fld b 0 2, bit f 1, items.reverse, if bit f 2 then some (sfld b 3 1) else none⟩, bit f 0) :: gradsOf n (b.drop (8 + 16 * k))

/-- The format states of entry 0x02. -/
def formatsOf (b : Bytes) : List FormatState :=
  (List.range (b.length / 8)).map fun i => ⟨fld b (8 * i) 2, fld b (8 * i + 2) 1 == Fmt.toCode .l8, fld b (8 * i + 4) 4⟩

/-- The scale state that a record holds (R68); `x` gives the narrowable tensors. -/
def scaleOfRecord (x : Scale) (r : Bytes) : Scale :=
  let g := gradsOf (r.length / 8) (recordEntry r 1)
  { lam := sfld r 0x90 2, clean := fld r 0x92 2, skips := fld r 0x94 1, applied := fld r 0x30 8, hists := g.map (·.1),
    formats := formatsOf (recordEntry r 2),
    narrowed := x.narrowed.map fun p => (p.1, g.any fun q => q.1.tensor == p.1 && !q.1.reduced && q.2) }

/-- Why a restored state has no scale history (R346): 1 the record does not verify, 2 its table digest differs, 3 there is
none. -/
def historyCause (t : Table) (r : Bytes) : Option Nat :=
  if r.isEmpty then some 3
  else if !recordStands r then some 1
  else if slice r 0x40 48 != fit 48 t.digest then some 2
  else none

/-! ## Pages -/

/-- Every page of a class set to zero. -/
def State.zeroClass (k : Nat) (s : State) : State :=
  s.mem.classes.foldl (fun s p => if p.2 = k then s.modMem fun m => m.zero (p.1 * pageSize) pageSize else s) s

/-- A fragment written to its page. -/
def State.putFragment (q page : Nat) (d : Bytes) (s : State) : State :=
  (fragmentOf s.pinned q page).zipIdx.foldl (fun s p => s.modMem fun m => m.write p.1 (slice d (granuleSize * p.2) granuleSize)) s

/-- A chunk of an image (R339). -/
structure Chunk where
  page : Nat
  quay : Nat
  digest : Nat
  data : Bytes
deriving DecidableEq, Repr

/-- The chunks of an image; `none` where they do not parse. -/
def chunksOf : Nat → Bytes → Option (List Chunk)
  | 0, b => if b.isEmpty then some [] else none
  | n + 1, b =>
    let len := fld b 0xC 4 * granuleSize
    if b.length < 32 + len || fld b 0 8 % pageSize != 0 || !zeroAt b 9 3 || !zeroAt b 0x18 8 then none
    else (chunksOf n (b.drop (32 + len))).map fun l => ⟨fld b 0 8 / pageSize, fld b 8 1, fld b 0x10 8, slice b 32 len⟩ :: l

/-- A chunk that fits a fragment of a job's page. -/
def State.chunkFits (s : State) (c : Chunk) : Bool :=
  (s.mem.classOf c.page == 1 || s.mem.classOf c.page == 2) && c.data.length != 0
    && c.data.length == granuleSize * (fragmentOf s.pinned c.quay c.page).length

/-- The image's chunks, where its header, its table and its set hold (R342 step 1). -/
def State.imageChunks (s : State) (t : Table) (b : Bytes) : Option (List Chunk) :=
  let len := fld b 0x20 8
  let rec_ := fld b 0xC 4
  if b.take 4 != ([0x53, 0x4E, 0x41, 0x50] : Bytes) || fld b 4 2 != 1 || fld b 6 2 != 256 || b.length < len || len < 256 + rec_
      || slice b 0x40 48 != fit 48 t.digest || !zeroAt b 0x70 144 then none
  else match chunksOf (fld b 0x18 8) ((b.take len).drop (256 + rec_)) with
    | none => none
    | some l =>
      if l.all s.chunkFits && (fragments t.pinned t.transferPages).all fun f => l.any fun c => c.quay == f.1 && c.page == f.2
      then some l else none

/-! ## Taking the restored state (R342 steps 4 and 5, R345, R346) -/

/-- Sequence numbers that the restore records of a journal name as superseded. -/
def supersededRanges (j : List Bytes) : List (Nat × Nat) :=
  (j.filter fun r => recordKind r == 4).map fun r => (fld (recordEntry r 5) 16 8, fld (recordEntry r 5) 24 8)

/-- Own records that a restore to step `n` supersedes: the newest, those that no earlier restore has superseded (R345). -/
def supersededBy (n : Nat) (j : List Bytes) : List Bytes :=
  let v := verified j
  let gone := supersededRanges v
  v.filter fun r => ((recordKind r == 1 && n < fld r 0x18 8) || n < fld r 0x28 8)
    && !(gone.any fun p => p.1 ≤ recordSeq r && recordSeq r ≤ p.2)

/-- First and last sequence number of superseded records; 0 for none. -/
def firstLast (l : List Bytes) : Nat × Nat :=
  ((l.head?.map recordSeq).getD 0, (l.getLast?.map recordSeq).getD 0)

/-- RESTORE_SKEW: the committed steps superseded and the difference in stream step. -/
def State.skewEvent (n : Nat) (s : State) : State :=
  let l := supersededBy n s.journal.own
  if l.isEmpty then s
  else
    let steps := l.foldl (fun m r => if recordKind r = 1 then max m (fld r 0x18 8 - n) else m) 0
    let stream := l.foldl (fun m r => max m (fld r 0x28 8 - n)) 0
    s.raiseModule 0x0401 [(0x28, 8, steps), (0x30, 8, stream)]

/-- The scale state of the restored step, or a lost history (R69). -/
def State.takeScale (t : Table) (r : Bytes) (s : State) : State :=
  match historyCause t r with
  | none => s.modJob fun j => { j with scale := scaleOfRecord t.initialScale r, historyLost := false }
  | some c =>
    let applied := if c = 2 then fld r 0x30 8 else s.job.scale.applied
    (s.modJob fun j =>
      { j with scale := { j.scale with applied := applied }.lost t.initialLambda, historyLost := true }).raiseModule 0x0402 [(0x20, 1, c)]

/-- Step, data position and stream after a restore to step `n` with its record; the codes are rebuilt. -/
def State.takeRestored (t : Table) (n digest : Nat) (r : Bytes) (s : State) : State :=
  let s := (s.rebuildCodes t n).takeScale t r
  (s.modJob fun j =>
    { j with step := n + 1, committed := some n, dataPos := n + 1, streamStep := some n, modelDigest := digest, attempt := 0 }).skewEvent n

/-- The restore record. -/
def State.restoreRecord (t : Table) (source n : Nat) (sup : Nat × Nat) (s : State) : State :=
  s.writeNow t (s.buildRecord t 4 0 s.journal.nextSeq (s.job.committed.getD n)
    (scaleEntries s.job.scale ++ [(5, restoreEntry source n sup.1 sup.2)]))

/-- REPLICA_MISMATCH of a restore: the class 1 pages are zeroed. -/
def State.restoreMismatch (digest own expected : Nat) (s : State) : State :=
  (s.raiseModule 0x0403 [(0x20, 1, digest), (0x28, 8, own), (0x30, 8, expected)]).zeroClass 1

/-- A restore from an image (R342) with its final entry: MALFORMED, FAULT, or OK with the restored step and the data position. -/
def State.finishImage (t : Table) (sq cid source : Nat) (b : Bytes) (s : State) : State :=
  match s.imageChunks t b with
  | none => s.finish sq cid .malformed 0 0
  | some l =>
    let s := (s.zeroClass 2).modJob fun j => { j with batches := [] }
    let own := fun (c : Chunk) => fragDigest s.pinned c.quay c.page c.data
    let good := l.takeWhile fun c => own c == c.digest
    let s := good.foldl (fun s c => s.putFragment c.quay c.page c.data) s
    let set := l.foldl (fun d c => (d + c.digest) % m61) 0
    let n := fld b 0x10 8
    match l[good.length]? with
    | some c => ((s.putFragment c.quay c.page c.data).restoreMismatch 3 (own c) c.digest).finish sq cid .fault 0 0
    | none =>
      let digest := t.modelDigest s.mem
      if set != fld b 0x28 8 then (s.restoreMismatch 3 set (fld b 0x28 8)).finish sq cid .fault 0 0
      else if digest != fld b 0x30 8 then (s.restoreMismatch 2 digest (fld b 0x30 8)).finish sq cid .fault 0 0
      else
        let sup := firstLast (supersededBy n s.journal.own)
        let s := (s.takeRestored t n digest (slice b 256 (fld b 0xC 4))).restoreRecord t source n sup
        s.finish sq cid .ok n s.job.dataPos

/-! ## Restores over a port (R341, R343) -/

/-- The port of a restore goes dark and its command completes. -/
def State.failRestore (r : RestoreRun) (st : Status) (s : State) : State :=
  ((s.darkPort r.port).modHarbour fun h => { h with restore := none }).finish r.sq r.cid st 0 0

/-- A shadowing ends: its port goes dark. -/
def State.endShadow (s : State) : State :=
  match s.harbour.shadow with
  | none => s
  | some r => (s.darkPort r.port).modHarbour fun h => { h with shadow := none }

/-- A restore over a port begins: the port is lit for the partner's role. A replica's newcomer zeroes its class 2 pages and drops
its batches. -/
def State.beginRestore (sq cid source port donor : Nat) (s : State) : State :=
  let s := s.endShadow
  let s := if source = 2 then (s.zeroClass 2).modJob fun j => { j with batches := [] } else s
  (s.lightPort 2 port).modHarbour fun h => { h with restore := some ⟨sq, cid, source, port, donor, false, none, [], [], 0, [], (0, 0)⟩ }

/-- The HELLO that a restore carries: rank 0xFFFF at the newcomer. -/
def State.restoreHello (port : Nat) (s : State) : Hello :=
  let h := s.harbour
  ⟨port, if h.joined then h.topo else 0, s.power.feedId, if h.joined then h.rank else 0xFFFF, if h.joined then h.coords.getD 0 0 else 0,
    if h.joined then h.coords.getD 1 0 else 0, if h.joined then h.coords.getD 2 0 else 0, true, true, if h.joined then h.id else 0,
    s.restoreDigest, identityDigest⟩

/-- The partner's HELLO at the newcomer. -/
def State.restoreHelloIn (r : RestoreRun) (port : Nat) (x : Hello) (s : State) : State :=
  if r.greeted then s
  else if !x.restore || x.digest != s.restoreDigest || (r.source == 2 && r.donor != 0xFFFF && x.rank != r.donor) then
    (s.raise 0x0303 srcPort port [(0x20, 1, 5), (0x22, 2, x.rank)]).failRestore r .fault
  else
    let s := s.modHarbour fun h => { h with restore := some { r with greeted := true } }
    if r.source = 1 then s.toPartner port .storeRead else s

/-! ### The partner's side -/

/-- An image of the store as bytes: header, record, and the chunks in the order of their arrival (R339). -/
def StoreImage.bytes (x : StoreImage) : Bytes :=
  x.header ++ x.record ++ x.frags.flatMap fun f => chunkHead f.page f.quay (f.data.length / granuleSize) f.digest ++ f.data

/-- The newest complete image of the snapshot store: the header comes last. -/
def State.storeImage (s : State) : Option Bytes :=
  ((s.snap.store.filter fun x => !x.header.isEmpty).getLast?).map StoreImage.bytes

/-- A running member accepts a transfer where T_bw covers the transfer set at 12 GB/s (R343). -/
def State.mayDonate (s : State) (t : Table) : Bool := s.inRun && t.isTraining && t.transferPages.length * pageSize ≤ 12 * t.tBw

/-- A restore HELLO at the partner: it answers. Nothing in the HELLO tells a restore from the partner store, to which it sends the image
it holds, from one from a replica, which it takes up at its next slack water or refuses: that is a free value (log 33). -/
def State.donorHello (port : Nat) (x : Hello) (s : State) : State :=
  match s.job.table with
  | none => s
  | some t =>
    let s := s.sendLink port (.hello (s.restoreHello port))
    if x.digest != s.restoreDigest then s
    else
      let f := s.takeFree
      let s := f.2
      if !Config.wantsReplica f.1 then
        match s.storeImage with
        | none => s
        | some b => s.toPartner port (.image b)
      else if s.mayDonate t then s.modHarbour fun h => { h with donating := some port }
      else s.toPartner port .refused

/-! ### What the newcomer receives (R343, R344) -/

/-- A failed comparison: while restoring the command completes with FAULT, while shadowing the shadowing ends. -/
def State.shadowMismatch (digest own expected : Nat) (s : State) : State :=
  match s.harbour.restore with
  | some r => (s.restoreMismatch digest own expected).failRestore r .fault
  | none => (s.raiseModule 0x0403 [(0x20, 1, digest), (0x28, 8, own), (0x30, 8, expected)]).endShadow

def State.modShadow (f : RestoreRun → RestoreRun) (s : State) : State :=
  s.modHarbour fun h => match h.restore with
    | some r => { h with restore := some (f r) }
    | none => { h with shadow := h.shadow.map f }

/-- The run that a transfer feeds: a restore from a replica, or the shadowing after it. -/
def Harbour.newcomer (h : Harbour) : Option RestoreRun :=
  match h.restore with
  | some r => if r.source = 2 then some r else none
  | none => h.shadow

/-- The set of the donor's step n is complete: verified, the state taken and the codes rebuilt (step 4). -/
def State.setComplete (t : Table) (r : RestoreRun) (s : State) : State :=
  let n := fld r.record 0x18 8
  let d := t.modelDigest s.mem
  if d != fld r.record 0x38 8 then s.shadowMismatch 2 d (fld r.record 0x38 8)
  else
    let sup := firstLast (supersededBy n s.journal.own)
    (s.takeRestored t n d r.record).modShadow fun x => { x with step := some n, superseded := sup }

/-- The transfer's record and every fragment are here. -/
def State.trySet (t : Table) (s : State) : State :=
  match s.harbour.newcomer with
  | none => s
  | some r =>
    if r.step.isNone && !r.record.isEmpty && (fragments t.pinned t.transferPages).all r.pages.contains then s.setComplete t r else s

/-- The record of a shadowed step, and what goes with its commit. -/
def State.shadowCommit (t : Table) (s : State) : State :=
  let r := s.stepRecord t s.journal.nextSeq
  if !s.canWrite t r then s.moduleFault
  else
    let s := ((s.writeRecord t r).countTensors t).countStep
    let s := if s.run.outcome.isProbe then s else s.advance (fld r 0x38 8)
    (s.modRun fun r => { r with probe := false }).modHarbour fun h => { h with link := Link.reset }

/-- One forwarded step applied: the decisions of R67 from the forwarded statistics, the update, with the draws of that step, and a
record of its own (step 5). -/
def State.shadowStep (t : Table) (es : List StatEntry) (s : State) : State :=
  let step := s.job.step
  let s := (s.modRun fun r => { r.cleared with probe := s.needsProbe }).modHarbour fun h => { h with link := { Link.reset with result := some es } }
  let s := s.modJob fun j => { j with streamStep := some (max (j.streamStep.getD 0) step) }
  s.guarded .quayUnit (if s.outcomeOf t = .applied then t.chandlerReach else []) fun s => (s.decide t (step % 2 == 1)).shadowCommit t

/-- Statistics that wait for the set or for an earlier step, in order; `fuel` bounds them. -/
def State.shadowSteps (t : Table) : Nat → State → State
  | 0, s => s
  | n + 1, s => match s.harbour.newcomer with
    | none => s
    | some r =>
      if r.step.isNone then s
      else match r.stats.find? fun p => p.1 == s.job.step with
        | none => s
        | some p => ((s.modShadow fun x => { x with stats := x.stats.erase p }).shadowStep t p.2).shadowSteps t n

/-- The donor's record: that of the transferred set, or of a forwarded step, whose model digest is compared. -/
def State.donorRecordIn (t : Table) (b : Bytes) (s : State) : State :=
  match s.harbour.newcomer with
  | none => s
  | some r =>
    let d := fld b 0x38 8
    if !recordStands b then s
    else if r.record.isEmpty then
      let s := (s.modShadow fun x => { x with record := b }).trySet t
      s.shadowSteps t (r.stats.length + 1)
    else if r.step.isNone || s.job.committed != some (fld b 0x18 8) || r.step == s.job.committed then s
    else if s.job.modelDigest != d then s.shadowMismatch 2 s.job.modelDigest d
    else match s.harbour.restore with
      | none => s
      | some x =>
        let n := x.step.getD 0
        let s := s.restoreRecord t 2 n x.superseded
        if s.mode == .faulted then s
        else (s.modHarbour fun h => { h with restore := none, shadow := some x }).finish x.sq x.cid .ok n s.job.dataPos

/-- A fragment of the transfer set: its digest is checked, and it is written. -/
def State.fragmentIn (t : Table) (page q dig : Nat) (d : Bytes) (s : State) : State :=
  match s.harbour.newcomer with
  | none => s
  | some r =>
    let own := fragDigest s.pinned q page d
    if r.step.isSome || !t.transferPages.contains page || !s.chunkFits ⟨page, q, dig, d⟩ then s
    else if own != dig then (s.putFragment q page d).shadowMismatch 3 own dig
    else
      let s := ((s.putFragment q page d).modShadow fun x =>
        { x with pages := x.pages ++ [(q, page)], setDigest := (x.setDigest + dig) % m61 }).trySet t
      s.shadowSteps t (r.stats.length + 1)

/-- Forwarded G16 values: odd steps go into bytes 32 to 63 of each line. -/
def State.forwardedG16 (t : Table) (step bucket first : Nat) (vs : List (Option Int)) (s : State) : State :=
  match s.harbour.newcomer, t.bucket? bucket with
  | some _, some b => s.guarded .linkEngine (t.bucketReach b) (State.writeG16 t b (step % 2 == 1) first vs)
  | _, _ => s

def State.forwardedStats (t : Table) (step : Nat) (es : List StatEntry) (s : State) : State :=
  match s.harbour.newcomer with
  | none => s
  | some r => (s.modShadow fun x => { x with stats := x.stats ++ [(step, es)] }).shadowSteps t (r.stats.length + 1)

/-- State arrives over the port of a restore or of the shadowing. -/
def State.transferIn (t : Table) (port : Nat) (p : StatePayload) (s : State) : State :=
  match s.harbour.restore, s.harbour.shadow with
  | none, none => s
  | some r, _ =>
    if r.port != port || !r.greeted || !(s.port port).up then s
    else match p with
      | .image b => if r.source = 1 then ((s.darkPort port).modHarbour fun h => { h with restore := none }).finishImage t r.sq r.cid 1 b else s
      | .refusedByDonor => if r.source = 2 && r.record.isEmpty then s.failRestore r .refusedState else s
      | .fragment page q dig d => s.fragmentIn t page q dig d
      | .donorRecord b => s.donorRecordIn t b
      | .g16 step b first vs => s.forwardedG16 t step b first vs
      | .stats step es => s.forwardedStats t step es
  | none, some r =>
    if r.port != port || !(s.port port).up then s
    else match p with
      | .donorRecord b => s.donorRecordIn t b
      | .g16 step b first vs => s.forwardedG16 t step b first vs
      | .stats step es => s.forwardedStats t step es
      | _ => s

/-! ## The partner's mirror and store (R329, R330, R338) -/

/-- Whether a partner port carries traffic for the harbour. -/
def State.fromPartner (s : State) (port : Nat) : Bool := s.harbour.partnerPort == some port && (s.port port).up && (s.port port).role == 2

/-- A mirrored record: written to the partner journal and acknowledged once it is safe there; without room it is not. -/
def State.mirrorIn (port : Nat) (r : Bytes) (s : State) : State :=
  if !s.fromPartner port || !s.journal.flashOk || !recordStands r then s
  else match s.job.table with
    | none => s
    | some t =>
      let free := s.partnerExtent * mib - journalUsed s.journal.partner
      let s := if recordsBytes [r] ≤ free then s else s.compact t true
      if s.partnerExtent * mib - journalUsed s.journal.partner < recordsBytes [r] then s
      else (s.modJournal fun j => { j with partner := j.partner ++ [r] }).toPartner port (.mirrorAck (recordSeq r))

/-- Acknowledgements that the records of a commit, or the newest record, carry. -/
def Commit.seq (c : Commit) : Nat := (c.records.getLast?.map recordSeq).getD 0

def State.mirrorAckIn (port seq : Nat) (s : State) : State :=
  if !s.fromPartner port then s
  else s.modJournal fun j => { j with commit := j.commit.map fun c => if c.seq = seq then { c with ackDue := false } else c }

/-- No acknowledgement in time: the records are kept without MIRRORED and mirroring is suspended (R330). -/
def State.mirrorTimeout (s : State) : State :=
  match s.journal.commit with
  | none => s
  | some c =>
    if !c.ackDue then s
    else
      let seqs := c.records.map recordSeq
      s.modJournal fun j =>
        { j with suspended := true, own := j.own.map fun r => if seqs.contains (recordSeq r) then clearMirrored r else r,
                 commit := some { c with ackDue := false, records := c.records.map clearMirrored } }

/-- Bytes that an image takes in the store. -/
def StoreImage.size (x : StoreImage) : Nat := 256 + x.record.length + sumList (x.frags.map fun f => 32 + f.data.length)

/-- The snapshot store: what the device area and the journals leave of the flash (Table 11.2). -/
def State.storeRoom (s : State) : Nat :=
  (Config.flashMiB - Config.flashDeviceMiB - s.journal.extent - s.partnerExtent) * mib

/-- The piece that a message brings. -/
def pieceOf (number step page quay digest : Nat) : PieceData → SnapPiece
  | .fragment d => .fragment number step page quay digest d
  | .record r => .record number r
  | .header h => .header h

/-- The snapshot that a piece belongs to. -/
def pieceNumber : SnapPiece → Nat
  | .fragment n _ _ _ _ _ => n
  | .record n _ => n
  | .header h => fld h 8 4

/-- A piece in its image. -/
def StoreImage.put (p : SnapPiece) (x : StoreImage) : StoreImage :=
  match p with
  | .fragment _ _ page quay digest d => { x with frags := x.frags ++ [⟨page, quay, digest, d⟩] }
  | .record _ r => { x with record := r }
  | .header h => { x with header := h }

/-- A piece in its image of the store, which begins with its first piece. -/
def putPiece (p : SnapPiece) (l : List StoreImage) : List StoreImage :=
  let n := pieceNumber p
  if l.any fun x => x.number == n then l.map fun x => if x.number == n then x.put p else x else l ++ [StoreImage.put p ⟨n, [], [], []⟩]

/-- Older images are erased while the store lacks room for the newest (DESIGN CHOICE, log 33). -/
def trimStore (room : Nat) : List StoreImage → List StoreImage
  | [] => []
  | x :: rest => if sumList ((x :: rest).map StoreImage.size) ≤ room then x :: rest else trimStore room rest

/-- A piece of the partner's snapshot is written where the store has room for its image (R323, R338). -/
def State.storePiece (port : Nat) (p : SnapPiece) (s : State) : State :=
  if !s.fromPartner port || !s.journal.flashOk then s
  else
    let l := trimStore s.storeRoom (putPiece p s.snap.store)
    if l.any fun x => x.number == pieceNumber p then s.modSnap fun x => { x with store := l } else s

end Sys2Proof.Machine
end

