-- ==== Sys2Proof/Machine/Joining.lean ====
section
/-! DEFINITION. Joining and leaving a harbour, HELLO records, PROGRESS and suspicion, and the loss of ports (spec/10, R292 to R299,
R310 to R313, R317; spec/12, R376; spec/14, R427; spec/08, R470). -/

namespace Sys2Proof.Machine

/-! ## The parameter block (Table 12.10) -/

def jbId (b : Bytes) : Nat := fld b 0 8
def jbTopo (b : Bytes) : Nat := fld b 8 1
def jbPort (b : Bytes) : Nat := fld b 9 1
def jbOverride (b : Bytes) : Bool := fld b 0xA 1 == 1
def jbAllowance (b : Bytes) : Nat := fld b 0xC 2
def jbPartner (b : Bytes) : Nat := fld b 0xE 2
def jbSizes (b : Bytes) : List Nat := [fld b 0x10 2, fld b 0x12 2, fld b 0x14 2]
def jbCoords (b : Bytes) : List Nat := [fld b 0x16 2, fld b 0x18 2, fld b 0x1A 2]
def jbDigest (b : Bytes) : Bytes := slice b 0x20 48
def jbDims (b : Bytes) : List Nat := (jbSizes b).take (jbTopo b)
def jbCount (b : Bytes) : Nat := (jbDims b).foldl (· * ·) 1
def jbRank (b : Bytes) : Nat := rankOf (jbSizes b) (jbCoords b)

/-- Every value within Tables 10.3, 10.4 and 12.10. -/
def joinBlockOk (b : Bytes) : Bool :=
  let d := jbTopo b
  b.length == 128 && jbId b != 0 && 1 ≤ d && d ≤ 3
    && ((List.range 3).all fun k =>
      if k < d then 2 ≤ (jbSizes b).getD k 0 && (jbCoords b).getD k 0 < (jbSizes b).getD k 0
      else (jbSizes b).getD k 0 == 0 && (jbCoords b).getD k 0 == 0)
    && jbCount b ≤ 512 && fld b 0xA 1 ≤ 1 && 1 ≤ jbAllowance b && jbAllowance b ≤ 600
    && zeroAt b 0xB 1 && zeroAt b 0x1C 4 && zeroAt b 0x50 48
    && (jbPort b == 0xFF) == (jbPartner b == 0xFFFF)
    && (jbPort b == 0xFF || (jbPort b ≤ 7 && !(topoPorts d).contains (jbPort b)
        && jbPartner b < jbCount b && jbPartner b != jbRank b))

/-! ## JOIN_HARBOUR (R296, R298) -/

/-- Own digest against the expected one fails: DIGEST_MISMATCH and JOIN_REFUSED, with no port lit. -/
def State.ownDigestRefused (sq cid : Nat) (s : State) : State :=
  let f := s.takeFree
  let s := f.2.raiseModule 0x0302 [(0x20, 1, 0xFF), (0x28, 8, (Config.joinDigest f.1).toNat), (0x30, 8, s.shortDigest)]
  (s.raiseModule 0x0303 [(0x20, 1, 1), (0x22, 2, 0xFFFF)]).finish sq cid .fault 0 0

/-- The HELLO of a joining or joined module on a port. -/
def State.ownHello (port : Nat) (s : State) : Hello :=
  let h := s.harbour
  ⟨port, h.topo, s.power.feedId, h.rank, h.coords.getD 0 0, h.coords.getD 1 0, h.coords.getD 2 0, !h.ports.contains port, false, h.id,
    s.harbourDigest h.id, identityDigest⟩

/-- The partner port, lit for its role; one that is up already, from shadowing, is taken over (R341). -/
def State.lightPartner (p : Nat) (s : State) : State :=
  if (s.port p).up && (s.port p).role = 2 then s.sendLink p (.hello (s.ownHello p)) else s.lightPort 2 p

/-- The ports are lit and the census is entered. -/
def State.beginJoin (sq cid : Nat) (b : Bytes) (s : State) : State :=
  let keep := if jbPort b = 0xFF then none else some (jbPort b)
  let s := match s.harbour.shadow with
    | none => s
    | some r => if keep = some r.port then s else s.endShadow
  let s := s.modHarbour fun h =>
    { Harbour.reset with
      id := jbId b, topo := jbTopo b, sizes := jbSizes b, coords := jbCoords b, rank := jbRank b,
      partner := jbPartner b, partnerPort := keep, override := jbOverride b,
      joining := some ⟨sq, cid, b, s.usec⟩, present := List.range (jbCount b), lastMismatch := h.lastMismatch,
      shadow := h.shadow }
  let s := (topoPorts (jbTopo b)).foldl (fun s p => s.lightPort 1 p) s
  let s := match keep with | none => s | some p => s.lightPartner p
  s.enterCensus

/-- The checks of the block, after acceptance. -/
def State.joinHarbour (t : Table) (sq cid : Nat) (b : Bytes) (s : State) : State :=
  if !joinBlockOk b then s.finish sq cid .malformed 0 0
  else if jbCount b < t.leastMembers then s.finish sq cid .refusedState 0 0
  else if !t.shapeOk (jbCount b) (jbTopo b) then
    (s.raiseModule 0x0902 [(0x20, 2, 0x50), (0x22, 1, 0x0D), (0x24, 4, 0xFFFFFFFF)]).finish sq cid .refusedState 0 0
  else if s.harbourDigest (jbId b) != jbDigest b then s.ownDigestRefused sq cid
  else s.beginJoin sq cid b

/-! ## PORT_TRAINED and HELLO (R288, R294, R298, R299) -/

/-- A port has trained: its lanes are aligned and it sends its HELLO. -/
def State.portTrained (p : Nat) (s : State) : State :=
  let x := s.port p
  if x.state != 1 || x.role = 0 then s
  else
    let s := s.setPort p fun x => { x with state := 2, lanes := 0xF, superframes := 0 }
    match s.harbour.restore with
    | some r => if r.port = p then s.sendLink p (.hello (s.restoreHello p)) else s
    | none => if s.harbour.joined || s.harbour.joining.isSome then s.sendLink p (.hello (s.ownHello p)) else s

/-- JOIN_REFUSED for a port. -/
def State.refuseHello (p cause rank : Nat) (s : State) : State := s.raise 0x0303 srcPort p [(0x20, 1, cause), (0x22, 2, rank)]

def State.noteNeighbour (p : Nat) (x : Hello) (s : State) : State := s.setPort p fun y => { y with nbrRank := x.rank, nbrPort := x.port }

/-- R294. -/
def State.helloFits (s : State) (p : Nat) (x : Hello) : Bool :=
  let h := s.harbour
  x.harbourId == h.id && x.topology == h.topo && x.rank == h.neighbour p && x.port == farPort p && !x.partner

/-- A HELLO on a topology port: a refused neighbour is absent; a rank that is absent from a running harbour asks to be admitted
(R317). -/
def State.topologyHello (p : Nat) (x : Hello) (s : State) : State :=
  let h := s.harbour
  let want := h.neighbour p
  let cause := if !s.helloFits p x then 2 else if x.digest != s.harbourDigest h.id then 3 else 0
  if cause != 0 then
    let s := s.refuseHello p cause want
    if h.joining.isSome then (s.markLost want 1 false false).tryClose else s
  else
    if h.inCensus && h.joining.isSome then (s.viewParts.foldl (fun s c => s.sendLink p (.census c)) s).tryClose
    else if !h.joined || h.present.contains want || h.joiners.contains want then s
    else
      let s := (s.modHarbour fun h => { h with admitting := true, joiners := setAdd want h.joiners }).sendLink p (.hello (s.ownHello p))
      if s.inRun || h.inCensus then s else s.enterCensus

/-- A HELLO on the partner port, checked as one on a topology port is (R298): two equal feeds are refused unless an override is set; 0xFF names no feed and counts
as shared (R431). -/
def State.partnerHello (p : Nat) (x : Hello) (s : State) : State :=
  let h := s.harbour
  if x.harbourId != h.id || x.rank != h.partner || !x.partner then s.refuseHello p 2 h.partner
  else if x.digest != s.harbourDigest h.id then s.refuseHello p 3 h.partner
  else
    if x.feedId != s.power.feedId && x.feedId != 0xFF && s.power.feedId != 0xFF then s
    else
      let f := s.takeFree
      let accept := h.override || Config.partnerOverride f.1
      let s := (if h.override then s else f.2).raise 0x0404 srcPort p [(0x20, 1, x.feedId), (0x21, 1, if accept then 1 else 0)]
      if accept then s else s.endJoin .fault

/-- A HELLO arrives. -/
def State.helloIn (p : Nat) (x : Hello) (s : State) : State :=
  if !(s.port p).up then s
  else
    let s := (s.heard p 1).noteNeighbour p x
    let h := s.harbour
    match h.restore with
    | some r => if r.port = p then s.restoreHelloIn r p x else s
    | none =>
      if !h.joined && h.joining.isNone then s
      else if h.ports.contains p then s.topologyHello p x
      else if h.partnerPort != some p then s
      else if x.restore then (if h.joined then s.donorHello p x else s)
      else s.partnerHello p x

/-- The join allowance runs out. -/
def State.joinExpired (s : State) : State := s.endJoin .aborted

/-! ## LEAVE_HARBOUR (R317) -/

def State.leaveHarbour (sq cid : Nat) (s : State) : State :=
  let s := s.setCmd sq cid fun c => { c with started := true }
  if s.inRun then s.modHarbour fun h => { h with leaving := some ⟨sq, cid⟩ } else s.leaveNow ⟨sq, cid⟩

/-! ## PROGRESS (R310) -/

/-- The waits of the current step, those still open included, in µs. -/
def State.openWait (s : State) : Nat :=
  s.run.waitUs + (s.run.groups.foldl (fun a g => match g.waitFrom with | none => a | some u => a + (s.usec - u)) 0)
    + (match s.harbour.idleFrom with | none => 0 | some u => s.usec - u)

def State.progressRecord (s : State) : Progress :=
  let h := s.harbour
  ⟨s.run.groups.any (·.waitFrom.isSome), h.idleFrom.isSome, h.halted, h.decided, s.job.attempt, h.rank, s.job.step, s.job.progress,
    s.openWait⟩

/-- A PROGRESS record on every topology port. -/
def State.progressSend (s : State) : State := if s.harbour.joined then s.flood (.progress s.progressRecord) else s

/-- The time from which a neighbour's count has stood: a count that moves starts it anew, and the time for which the last record
showed a wait flag does not count (R311). -/
def Neighbour.standing (now count : Nat) (n : Neighbour) : Nat :=
  if n.count < count then now else if n.waiting then n.since + (now - n.seen) else n.since

/-- A neighbour's PROGRESS record. -/
def State.progressIn (p : Nat) (r : Progress) (s : State) : State :=
  if !(s.port p).up then s
  else
    let s := s.heard p 1
    let h := s.harbour
    if !h.joined || !h.ports.contains p || r.rank != h.neighbour p then s
    else
      let since := match h.neighbours.find? fun n => n.rank == r.rank with | none => s.usec | some n => n.standing s.usec r.count
      let new : Neighbour := ⟨r.rank, r.count, since, s.usec, r.dataWait || r.commandWait || r.halted, r.halted, r.decided, r.wait⟩
      s.modHarbour fun h => { h with neighbours := h.neighbours.filter (fun n => n.rank != r.rank) ++ [new] }

/-! ## Suspicion (R311) -/

/-- The survivor that sends its result to the members that are not decided (R315). -/
def Harbour.resultSource (h : Harbour) : Option Nat := h.members.find? fun r => (h.entry r).decided

/-- Bucket and phase of a frame that is awaited from a member: of the result, or of the step that a lane stands at. -/
def State.awaitedFrom (s : State) (t : Table) (suspect : Nat) : Option (Nat × Nat) :=
  let k := s.harbour.link
  if k.awaiting then (if s.harbour.resultSource = some suspect then some (k.bucket, 4) else none)
  else if !k.active then none
  else (s.lanes (s.bucketSize t)).zipIdx.findSome? fun p =>
    match currentXfer (s.stepsOf t p.1) (k.received.getD p.2 0) with
    | some (x, _) => if x.source = suspect then some (k.bucket, s.phaseOf t x.gather) else none
    | none => none

/-- The steps of a bucket still due from a member or through it. -/
def State.stillDue (s : State) (t : Table) (suspect b : Nat) : List Xfer :=
  ((List.range (s.laneSpans 0).length).flatMap fun i => stepsLeft (s.stepsAt t b i) (s.gotOn b i)).filter fun x =>
    x.due != 0 && (x.source == suspect || s.onPath suspect s.harbour.rank s.harbour.size x.source)

/-- The next bucket and phase that the schedule has due from or through a member, from bucket `b` on; `fuel` bounds them. -/
def State.nextDue (s : State) (t : Table) (suspect : Nat) : Nat → Nat → Option (Nat × Nat)
  | 0, _ => none
  | n + 1, b => match s.stillDue t suspect b with
    | [] => s.nextDue t suspect n (b + 1)
    | l => some (b, (s.atBucket b).phaseOf t (l.all (·.gather)))

/-- Bucket and phase that BUCKET_LATE names: those of the awaited frame, or the next due from or through the suspect. -/
def State.lateAt (s : State) (t : Table) (suspect : Nat) : Nat × Nat :=
  match s.awaitedFrom t suspect with
  | some b => b
  | none =>
    if !s.inRun || !s.stepOpen || s.harbour.decided then (0xFFFF, 0xFF)
    else (s.nextDue t suspect (t.buckets.length + 1 - s.harbour.link.bucket) s.harbour.link.bucket).getD (0xFFFF, 0xFF)

/-- A neighbour whose progress count has stood for T_late, waits excluded. -/
def State.stalled (s : State) (t : Table) (r : Nat) : Bool :=
  (s.harbour.ports.any fun p => s.harbour.neighbour p == r)
    && !(s.harbour.neighbours.any fun n => n.rank == r && (s.usec - n.since) * 1000 < t.tLate)

/-- A neighbour without progress, or the source of an awaited frame, for T_late: BUCKET_LATE, and an EJECT of reason 2. -/
def State.bucketLate (t : Table) (suspect waited : Nat) (s : State) : State :=
  let h := s.harbour
  let waiting := h.neighbours.any fun n => n.rank == suspect && n.waiting
  if !s.takesPart || suspect = h.rank || !h.present.contains suspect || waiting || waited * 1000 < t.tLate
      || ((s.awaitedFrom t suspect).isNone && !s.stalled t suspect) then s
  else
    let b := s.lateAt t suspect
    (s.raise 0x0301 srcMember suspect [(0x20, 2, b.1), (0x22, 1, b.2), (0x28, 8, waited)]).ejectIn
      ⟨2, suspect, h.rank, s.job.step, s.job.attempt⟩

/-! ## Ports going down (R292, R313, R335) -/

/-- The loss cause of PORT_QUARANTINED. The table has none for an engine at its limit, whose lanes are silent (DESIGN CHOICE,
log 85). -/
def lossCode : PortLoss → Nat
  | .replayLimit => 1 | .laneSilent | .overTemperature _ => 2 | .nakRate => 3

/-- Whether the module's own counts support a loss: eight resends, more than 64 NAKs in a millisecond, or an optical engine at 80 °C
or above (R292, R427). -/
def Port.lossHolds (p : Port) : PortLoss → Bool
  | .replayLimit => p.unacked.any fun f => 8 ≤ f.resends
  | .nakRate => 64 < p.naks.length
  | .laneSilent => true
  | .overTemperature t => atLeast 80 t

/-- A neighbour that no path of present members and working ports reaches, and whose view has not come, is absent (R313). -/
def State.cutOff (p : Nat) (s : State) : State :=
  let h := s.harbour
  let r := h.neighbour p
  if !h.inCensus || !h.ports.contains p || !h.holds r || h.views.any (fun v => v.1 == r) || (s.nextHop r).isSome then s
  else (s.markLost r 1 false false).tryClose

/-- A donor's transfer over a port that is lost ends: what waited for its drain goes ahead, and a commit that waited for it completes
(R335, R343). -/
def State.endTransfer (p : Nat) (s : State) : State :=
  if s.snap.draining && s.snap.dest == .newcomer p then
    (s.releaseQuays.modSnap fun x => { x with draining := false, pend := [], copies := [], badCopies := [] }).tryCommit
  else s

/-- What a quarantined partner port suspends; a restore over the port ends (log 33). -/
def State.suspendPartner (p : Nat) (s : State) : State :=
  let s := (s.modJournal fun j => { j with suspended := true }).modHarbour fun h => { h with donating := none, forwarding := none }
  let s := s.endTransfer p
  let s := match s.harbour.restore with
    | some r => if r.port = p then (s.modHarbour fun h => { h with restore := none }).finish r.sq r.cid .fault 0 0 else s
    | none => s
  match s.harbour.shadow with
  | some r => if r.port = p then s.modHarbour fun h => { h with shadow := none } else s
  | none => s

/-- A port is quarantined: dark, its role kept; a topology port starts a re-formation. -/
def State.quarantinePort (p cause : Nat) (loss : PortLoss) (s : State) : State :=
  let role := (s.port p).role
  let s := (s.setPort p fun x => { Port.reset with state := 4, role := x.role, nbrRank := x.nbrRank, nbrPort := x.nbrPort, downs := x.downs,
                                                   loss := some loss, failed := x.failed }).engines false [p]
  let s := s.raise 0x0306 srcPort p [(0x20, 1, cause), (0x21, 1, lossCode loss), (0x22, 1, role)]
  if role = 1 then ((s.portReform p).cutOff p).tryClose else s.suspendPartner p

/-- A port goes down: it retrains once, and is quarantined at its second loss in one step. -/
def State.portDown (p : Nat) (loss : PortLoss) (s : State) : State :=
  let x := s.port p
  if !x.up || !x.lossHolds loss then s
  else if x.downs = s.job.step + 1 then s.quarantinePort p 2 loss
  else
    let s := s.setPort p fun x => { x with state := 3, lanes := 0, downs := s.job.step + 1, loss := some loss }
    (s.count (tlAt p 0x40) 1).cutOff p

/-- Retraining ends: the port is up again, or quarantined. -/
def State.portRetrained (p : Nat) (ok : Bool) (s : State) : State :=
  let x := s.port p
  if x.state != 3 then s
  else if ok then
    (s.setPort p fun x => { x with state := 2, lanes := 0xF, superframes := 0, naks := [], unacked := x.unacked.map fun f => { f with resends := 0 } }).releaseFlits p
  else s.quarantinePort p 1 (x.loss.getD .laneSilent)

/-! ## Flits (R289 to R292) -/

/-- A flit that fails its CRC or its code is discarded, counted, and answered with one NAK for the number expected. -/
def State.flitError (p : Nat) (crc : Bool) (s : State) : State :=
  let x := s.port p
  let s := s.count (tlAt p (if crc then 0x38 else 0x30)) 1
  if x.awaiting then s
  else
    let s := (s.setPort p fun x => { x with awaiting := true }).sendLink p (.nak x.rxSeq)
    (s.count (tlAt p 0x18) 1).noteNak p

/-- One more resend of every flit from place `k` on. -/
def resendFlits (k : Nat) (l : List SentFlit) : List SentFlit := l.take k ++ (l.drop k).map fun f => { f with resends := f.resends + 1 }

/-- Flits from a sequence number on go again, each resend counted against it. -/
def State.resendFrom (p seq : Nat) (s : State) : State :=
  let x := s.port p
  let k := x.unacked.findIdx fun f => f.seq == seq
  let fs := x.unacked.drop k
  if fs.isEmpty then s
  else
    let s := ((s.setPort p fun x => { x with unacked := resendFlits k x.unacked }).emit (.link p (.resend seq))).emitFlits p fs
    (s.count (tlAt p 0x00) fs.length).count (tlAt p 0x10) fs.length

/-- Flits before a sequence number have been received. -/
def State.ackBefore (p seq : Nat) (s : State) : State :=
  s.setPort p fun x =>
    let k := x.unacked.findIdx fun f => f.seq == seq
    { x with unacked := if k < x.unacked.length then x.unacked.drop k else x.unacked }

/-- A NAK names the flit to resend from. -/
def State.nakIn (p seq : Nat) (s : State) : State :=
  if !(s.port p).up then s
  else ((((s.heard p 1).count (tlAt p 0x20) 1).noteNak p).ackBefore p seq).resendFrom p seq

/-- A flit has waited 20 µs: the oldest and every later one go again. -/
def State.replayTimeout (p : Nat) (s : State) : State :=
  match (s.port p).unacked.head? with
  | none => s
  | some f => if (s.port p).up then s.resendFrom p f.seq else s

/-- The acknowledgement and the credits of a good flit. -/
def Port.acked (seq credits : Nat) (x : Port) : Port :=
  let k := x.unacked.findIdx fun f => f.seq == seq
  { x with unacked := if k < x.unacked.length then x.unacked.drop (k + 1) else x.unacked, credits := min 512 (x.credits + credits) }

/-- A good flit's acknowledgement and credits; the window opens. -/
def State.flitAck (p acked credits : Nat) (s : State) : State := (s.setPort p (Port.acked acked credits)).releaseFlits p

/-- A codeword arrives: what its code corrects is counted, a flit that cannot be corrected or fails its CRC is in error, a good one
that comes while another number is awaited is discarded (R291), and otherwise it acknowledges and returns credits. What a control or message flit carries arrives with the command of its record. -/
def State.codewordIn (p : Nat) (cw : Bytes) (s : State) : State :=
  if !(s.port p).up then s
  else match flitOf cw with
    | none => s.flitError p false
    | some (flit, n) =>
      let s := s.count (tlAt p 0x28) n
      if !flitCrcOk flit then s.flitError p true
      else if (s.port p).awaiting && fld flit 2 2 != (s.port p).rxSeq then s
      else (s.setPort p fun x => { x with awaiting := false }).flitAck p (fld flit 4 2) (fld flit 6 2)

/-- A control record of an unknown kind is discarded and counts as a NAK (R292). -/
def State.unknownRecord (p : Nat) (s : State) : State :=
  if !(s.port p).up then s else ((s.heard p 1).count (tlAt p 0x20) 1).noteNak p

end Sys2Proof.Machine
end

