-- ==== Sys2Proof/Machine/TestOps.lean ====
section
/-! DEFINITION. Self-tests: the start of a test, its end and what a failure does (spec/15, R462 to R468; spec/12, R377; log 14). -/

namespace Sys2Proof.Machine

/-! ## Failures (R442, R467) -/

def testKind (scope : Nat) : Nat := if scope = 1 then srcStall else if scope = 2 then srcPort else if scope = 3 then srcPile else srcModule

/-- TEST_FAIL of one entry. -/
def State.testFailEvent (e : TestEntry) (s : State) : State :=
  s.raise 0x0702 (testKind e.scope) (if e.scope = 4 then 0xFFFF else e.target)
    [(0x20, 2, e.test), (0x28, 8, e.signature.toNat), (0x30, 8, e.expected.toNat)]

/-- A stall that has failed: state 4 and its bit until module reset. -/
def State.failStall (i : Nat) (s : State) : State :=
  (s.setStall i fun x => { x with state := 4 }).modTest fun t => { t with failedStalls := setAdd i t.failedStalls }

/-- A failed port is treated as quarantined until module reset. -/
def State.failPort (p : Nat) (s : State) : State :=
  let role := (s.port p).role
  let s := (s.setPort p fun x => { Port.reset with state := 4, role := x.role, nbrRank := x.nbrRank, nbrPort := x.nbrPort, failed := true }).engines false [p]
  if role = 1 then ((s.portReform p).cutOff p).tryClose else if role = 2 then s.suspendPartner p else s

/-- What a failed entry does; a failed stall of the active table is a module fault, raised by the end of the test. -/
def State.failEntry (e : TestEntry) (s : State) : State :=
  let s := s.testFailEvent e
  if e.scope = 1 then s.failStall e.target
  else if e.scope = 2 then s.failPort e.target
  else if e.scope = 3 then s.setQuay e.target fun x => { x with failed := true }
  else s

/-- The march test of a pile destroys its contents and leaves zeros. -/
def State.zeroPile (p : Nat) (s : State) : State :=
  s.modMem fun m => { m with cells := m.cells.filter fun c => (locate s.pinned c.1).1 != p,
                             poisoned := m.poisoned.filter fun l => (locate s.pinned (64 * l)).1 != p }

/-! ## Start and end (R465, R466) -/

/-- A test starts at once. -/
def State.startTest (r : TestReq) (s : State) : State :=
  let s := ((s.lightTest r.scope r.target).markTested r.scope r.target).modTest fun t =>
    { t with active := true, scope := r.scope, test := r.test, target := r.target,
             queue := t.queue.map fun x => if x.sq = r.sq && x.cid = r.cid then { x with running := true } else x }
  if 3 ≤ r.scope then s.enter .testing else s

/-- The next test that waits for no slack water. -/
def State.startQueued (s : State) : State :=
  if s.test.queue.any (·.running) then s
  else match s.test.queue.find? fun r => !r.deferred with
    | none => s
    | some r => s.startTest r

/-- RUN_TEST: run at once, queued behind another, or deferred to slack water; a deferred one whose run has ended is aborted. -/
def State.runTest (c : Cmd) (s : State) : State :=
  let e := c.entry
  let s := s.setCmd c.sq c.cid fun c => { c with started := true }
  if c.deferred && !s.inRun then s.finish c.sq c.cid .aborted 0 0
  else
    let r : TestReq := ⟨c.sq, c.cid, eScope e, eTest e, eTarget e, c.deferred, false⟩
    let s := s.modTest fun t => { t with queue := t.queue ++ [r] }
    if c.deferred then s.count tsDeferredAt 1 else s.startQueued

/-- After a test: the next one that waits for no slack water, or, where none runs and slack water waits for tests, the next deferred one or
what follows them (R465, R466). -/
def State.afterTest (s : State) : State :=
  let s := s.startQueued
  if s.test.queue.any (·.running) then s
  else match s.job.table with
    | some t => if s.run.slack = .testing then (s.afterCommit t).tryClose else s
    | none => s

/-- A failed stall that the active table uses is a module fault of reason 4. -/
def State.stallFault (es : List TestEntry) (s : State) : State :=
  match s.job.table with
  | none => s
  | some t => if es.any fun e => e.scope == 1 && !entryPasses e && t.stallsUsed.contains e.target then s.moduleFault else s

/-- The running test ends: its entries, registers, failures and final entry. -/
def State.testComplete (responses : List (List (Nat × Nat))) (s : State) : State :=
  match s.test.queue.find? (·.running) with
  | none => s
  | some r =>
    let es := testResults r.scope r.test r.target responses
    let failed := es.filter fun e => !entryPasses e
    let s := s.darkTest.unmarkTested
    let s := if (s.cmd? r.sq r.cid).isNone then s else s.toHost r.sq r.cid 0 (es.flatMap testEntryBytes)
    let s := match es.getLast? with
      | none => s
      | some e => s.modTest fun t =>
        { t with scope := e.scope, test := e.test, target := e.target, result := if entryPasses e then 1 else 2, signature := e.signature.toNat, expected := e.expected.toNat }
    let s := s.modTest fun t => { t with active := false, queue := t.queue.filter fun x => !(x.sq == r.sq && x.cid == r.cid) }
    let s := es.foldl (fun s e => if e.test = 0x0201 then s.zeroPile e.target else s) s
    let s := if s.mode == .testing then s.enter .inert else s
    let s := failed.foldl (fun s e => s.failEntry e) s
    ((s.finish r.sq r.cid .ok es.length failed.length).stallFault es).afterTest

end Sys2Proof.Machine
end

