-- ==== Sys2Proof/Machine/Lifecycle.lean ====
section
/-! DEFINITION. The life of the block: activation and unloading of a table, signed objects, module reset and start-up, the host
going away, and the 50 V input (spec/07, R191; spec/08, R242 to R246; spec/11, R324, R333, R471; spec/12, R380; spec/13, R382,
R386, R390; spec/14, R413, R417, R427, R433; spec/15, R440 to R455). -/

namespace Sys2Proof.Machine

/-! ## Activation (R191, R212, R244 to R246, R324, R390, R417) -/

/-- Whether both tables were signed by the same generation of the same owner slot (R455). -/
def sameOwner (a b : Table) : Bool := a.slot == b.slot && a.generation == b.generation

/-- The pages a table assigns. -/
def Table.pages (t : Table) : List Nat := t.pageClasses.map (·.1)

/-- Whether the interleave group of a page is pinned in a table. -/
def Table.pagePinned (t : Table) (page : Nat) : Bool :=
  let a := page * pageSize
  isPinned t.pinned (hallOf a) (hallOffset a / groupSize)

/-- Pages that keep their contents: assigned by both tables of one owner, in a group whose mode is unchanged. -/
def keptPages (prev : Option Table) (t : Table) : List Nat :=
  match prev with
  | none => []
  | some p => if sameOwner p t then t.pages.filter fun g => p.pages.contains g && p.pagePinned g == t.pagePinned g else []

def State.zeroPages (l : List Nat) (s : State) : State := l.foldl (fun s g => s.modMem fun m => m.zero (g * pageSize) pageSize) s

/-- A list of page classes as the map that memory holds. -/
def classMap (l : List (Nat × Nat)) : List (Nat × Nat) := l.foldl (fun m p => kvPut m p.1 p.2) []

/-- Tensors whose number, kind and shape are the same in both tables. -/
def sameTensor (p t : Table) (n : Nat) : Bool :=
  match p.tensor? n, t.tensor? n with
  | some a, some b => tKind a == tKind b && tRows a == tRows b && tCols a == tCols b
  | _, _ => false

/-- The scale state that a replacement keeps (R246). -/
def keptScale (p t : Table) (x : Scale) : Scale :=
  let y := t.initialScale
  { y with
    lam := x.lam, clean := x.clean, skips := x.skips, applied := x.applied,
    hists := y.hists.map fun h =>
      match (if sameTensor p t h.tensor then x.hists.find? fun g => g.tensor == h.tensor && g.reduced == h.reduced else none) with
      | some g => g
      | none => { h with entries := [], gamma := none },
    formats := y.formats.map fun f => if sameTensor p t f.tensor then (x.formats.find? fun g => g.tensor == f.tensor).getD f else f,
    narrowed := y.narrowed.map fun f => if sameTensor p t f.1 then (x.narrowed.find? fun g => g.1 == f.1).getD f else f }

/-- The job under a new table. -/
def keptJob (prev : Option Table) (t : Table) (j : Job) : Job :=
  match prev with
  | none => { Job.reset with table := some t, scale := t.initialScale }
  | some p =>
    if sameOwner p t then { j with table := some t, scale := keptScale p t j.scale, batches := [], attempt := 0, historyLost := false, progress := 0 }
    else { Job.reset with table := some t, scale := t.initialScale }

/-- The journal is kept for the same owner and extent, and erased with the snapshot store otherwise. -/
def State.keepFlash (t : Table) (s : State) : State :=
  let owner : LastOwner := ⟨t.slot, t.generation, t.journalExtent⟩
  let keep := s.boot.lastOwner == some owner
  let s := s.modBoot fun b => { b with lastOwner := some owner }
  let s := s.modJournal fun j =>
    if keep then { j with extent := t.journalExtent, commit := none, compacting := false, suspended := false }
    else { Journal.reset with extent := t.journalExtent, flashOk := j.flashOk }
  s.modSnap fun x =>
    if keep then { x with draining := false, pend := [], copies := [], requests := [], serving := [], recordDue := false }
    else { Snap.reset with hostBase := x.hostBase, hostLen := x.hostLen }

/-- The tensor counters return to zero. -/
def Telemetry.clearTensors (t : Telemetry) : Telemetry :=
  let keep := fun o => !(0x140000 ≤ o && o < 0x180000)
  { t with ctr := t.ctr.filter fun p => keep p.1, sat := t.sat.filter keep }

/-- A stall under a table: idle and in its pipeline where the table uses it, its clock started afresh; one that is in a test or failed one
keeps its state (R227, R245). -/
def Table.setUpStall (t : Table) (i : Nat) (x : Stall) : Stall :=
  { x.dropped with state := if 3 ≤ x.state then x.state else if t.stallsUsed.contains i then 1 else 0,
                   pipeline := (t.pipelineOf i).getD 0, dvfs := 0, target := none, lastStep := none }

/-- A valid table that must not be activated: it uses a stall or a pile that has failed, or the input stands below its warning. -/
def State.barred (s : State) (t : Table) : Bool :=
  s.power.undervolt || (t.stallsUsed.any fun i => (s.stall i).state == 4)
    || (t.pages.any fun g => (quaysOf t.pinned (g * pageSize) pageSize).any fun q => (s.quay q).failed)

/-- Activation, up to the final entry; a configuration record that cannot be written is a module fault (R331). -/
def State.activate (t : Table) (s : State) : State :=
  let prev := s.job.table
  let kept := keptPages prev t
  let s := (s.endShadow.zeroPages (t.pages.filter fun g => !kept.contains g)).modMem fun m => { m with classes := classMap t.pageClasses }
  let s := s.modJob (keptJob prev t)
  let s := ((s.keepFlash t).modTm Telemetry.clearTensors).modRun fun r => { Run.reset with nextTag := r.nextTag }
  let s := s.modStalls fun l => l.zipIdx.map fun p => t.setUpStall p.2 p.1
  let s := s.modQuays fun l => l.zipIdx.map fun p => { p.1 with free := t.breakwaterOn p.2, waiting := [] }
  let s := s.modHarbour fun _ => Harbour.reset
  let s := s.modPower fun p => { p with thermal := [], cool := [] }
  let s := (s.capChanged fun s => s.setDomains (inertDomains ||| t.activeDomains)).enter .configured
  s.writeNow t (s.buildRecord t 2 0 s.journal.nextSeq s.job.step [])

/-- LOAD_TIDE_TABLE with the copy of the table's bytes (R242 to R244). -/
def State.loadTable (sq cid : Nat) (b : Bytes) (s : State) : State :=
  match validate s.boot.signers b with
  | .inl f =>
    let r0 := f.code + 2 ^ 16 * f.sec
    if f.isSignature then
      let failed := if f.code = 9 then 4 else if f.code = 8 then
          (match s.boot.signers.key (fld b 0x22 1) with
            | none => 0
            | some k =>
              let tr := b.drop (b.length - trailerBytes)
              flag (!Config.edVerify k.2.1 (b.take 256) (slice tr 0x10 64)) 0 + flag (!Config.mlVerify k.2.2 (b.take 256) (slice tr 0x50 3309)) 1)
        else 0
      (s.raiseModule 0x0801 [(0x20, 1, 1), (0x21, 1, fld b 0x22 1), (0x22, 2, f.code), (0x24, 1, failed)]).finish sq cid .signature r0 f.index
    else (s.raiseModule 0x0902 [(0x20, 2, f.code), (0x22, 1, f.sec), (0x24, 4, f.index)]).finish sq cid .malformed r0 f.index
  | .inr t =>
    if s.barred t then s.finish sq cid .fault 0 0
    else
      let n := (t.pages.filter fun g => !(keptPages s.job.table t).contains g).length
      let s := s.activate t
      if s.mode == .faulted then s.finish sq cid .fault 0 0 else s.finish sq cid .ok (n * pageSize) 0

/-! ## UNLOAD (R191, R324, R417) -/

/-- The INERT defaults that an unloading leaves. -/
def State.unload (s : State) : State :=
  let pages := match s.job.table with | none => [] | some t => t.pages
  let s := (((s.outOfHarbour false).zeroPages pages).modMem fun m => { m with classes := [] }).modJob fun _ => Job.reset
  let s := s.modJournal fun j => { Journal.reset with flashOk := j.flashOk }
  let s := s.modSnap fun x => { Snap.reset with hostBase := x.hostBase, hostLen := x.hostLen }
  let s := s.modRun fun r => { Run.reset with nextTag := r.nextTag }
  let s := s.modStalls fun l => l.map fun x =>
    { x.dropped with state := if 3 ≤ x.state then x.state else 0, dvfs := 0, target := none, pipeline := 0 }
  let s := s.modQuays fun l => l.map fun x => { x with free := 0, waiting := [] }
  ((s.setDomains inertDomains).modPower fun p => { p with thermal := [], cool := [], halved := [] }).enter .inert

/-! ## Signed objects (Tables 15.3 and 15.4) -/

def soMagic (o : Bytes) : Bytes := o.take 4
def soAuthority (o : Bytes) : Nat := fld o 0x21 1
def soVersion (o : Bytes) : Nat := fld o 0x28 4
def soSlot (o : Bytes) : Nat := fld o 0x28 1
def soAction (o : Bytes) : Nat := fld o 0x29 1
def soGeneration (o : Bytes) : Nat := fld o 0x2A 1
def soSvn (o : Bytes) : Nat := fld o 0x2C 4
def soBinding (o : Bytes) : Bytes := slice o 0x68 16
def soCode (o : Bytes) : Nat := fld o 0x78 4
def soSigner (o : Bytes) : Bytes := slice o 256 1984
def soNewKey (o : Bytes) : Bytes := slice o 2240 1984
def soTrailer (o : Bytes) : Bytes := o.drop (o.length - trailerBytes)

def magicPatch : Bytes := [0x50, 0x54, 0x43, 0x48]
def magicEnrol : Bytes := [0x45, 0x4E, 0x52, 0x4C]

/-- OTP's vendor root hashes (R451). -/
def vendorEdHash : Bytes := sha384 (fit 32 Config.vendorEdKey)
def vendorMlHash : Bytes := sha384 (fit 1952 Config.vendorMlKey)

/-- AM_SVN.MAXIMUM. -/
def svnMaximum : Nat := 64

/-- The keys that the authority names. -/
def Boot.authority (b : Boot) (o : Bytes) : Option (Bytes × Bytes) :=
  if soAuthority o = 0 then
    let ed := edKeyOf (soSigner o)
    let ml := mlKeyOf (soSigner o)
    if sha384 ed = vendorEdHash && sha384 ml = vendorMlHash then some (ed, ml) else none
  else if 4 < soAuthority o then none
  else match b.slotKey (soAuthority o - 1) with
    | none => none
    | some k => some k.2

def edHolds (k : Bytes × Bytes) (o : Bytes) : Bool := Config.edVerify k.1 (o.take 256) (slice (soTrailer o) 0x10 64)
def mlHolds (k : Bytes × Bytes) (o : Bytes) : Bool := Config.mlVerify k.2 (o.take 256) (slice (soTrailer o) 0x50 3309)

/-- The framing of code 0x0201: the length is that of the kind that the magic names (R446). -/
def soFramed (o : Bytes) : Bool :=
  let l := o.length
  let tr := soTrailer o
  (soMagic o == magicPatch || soMagic o == magicEnrol) && fld o 4 1 == 1 && fld o 5 1 == 0 && fld o 6 2 == 256 && fld o 8 8 == l
    && l % 8 == 0 && 2240 + trailerBytes ≤ l && (soMagic o == magicPatch || l == 7616) && fld o 0x30 8 == l - trailerBytes
    && tr.take 4 == ([0x53, 0x49, 0x47, 0x4E] : Bytes) && fld tr 4 2 == 64 && fld tr 6 2 == 3309
    && zeroAt tr 8 8 && zeroAt tr 0xD3D 3

/-- Reserved header fields, and those that the object's kind holds at 0 (code 0x0203). -/
def soReservedClear (patch : Bool) (o : Bytes) : Bool :=
  zeroAt o 0x22 2 && zeroAt o 0x7C 132 && (soAuthority o == 0 || (soSigner o).all (· == 0))
    && (if patch then zeroAt o 0x68 16 else zeroAt o 0x24 4 && zeroAt o 0x2B 1 && zeroAt o 0x2C 4 && zeroAt o 0x78 4)

/-- Code 0x020A: who may sign the action. -/
def authorityAllows (o : Bytes) : Bool := soAction o == 1 || soAuthority o == 0 || soAuthority o == soSlot o + 1

/-- Code 0x020C: the generation that the action needs. -/
def Boot.generationFits (b : Boot) (o : Bytes) : Bool :=
  let k := soSlot o
  let g := soGeneration o
  if soAction o = 1 then (b.enrolled k).isNone && g == b.generation k + 1 && g ≤ 3
  else (b.enrolled k).isSome && g == b.generation k

/-- Checks 0x0201 to 0x0206, common to both kinds. -/
def Boot.checkFrame (b : Boot) (patch : Bool) (o : Bytes) : Option Nat :=
  if !soFramed o then some 0x0201
  else if slice o 0x10 16 != Config.partBytes || fld o 0x20 1 != Config.stepping || soMagic o != (if patch then magicPatch else magicEnrol) then
    some 0x0202
  else if !soReservedClear patch o then some 0x0203
  else if patch && soAuthority o != 0 then some 0x0204
  else match b.authority o with
    | none => some 0x0204
    | some k =>
      if !(edHolds k o && mlHolds k o) then some 0x0205
      else if sha384 (slice o 256 (o.length - trailerBytes - 256)) != slice o 0x38 48 then some 0x0206
      else none

/-- The first failing code of a patch bundle. -/
def Boot.checkPatch (b : Boot) (o : Bytes) : Option Nat :=
  match b.checkFrame true o with
  | some c => some c
  | none =>
    let n := soCode o
    if fld o 0x24 4 != Config.firmwareVersion.toNat || n % 64 != 0 || 262144 < n || (n == 0) != (soVersion o == 0) || o.length != 5632 + n then
      some 0x0207
    else if soSvn o < b.svn || svnMaximum < soSvn o then some 0x0208
    else none

/-- The first failing code of an enrolment for a slot. -/
def Boot.checkEnrol (b : Boot) (slot : Nat) (o : Bytes) : Option Nat :=
  match b.checkFrame false o with
  | some c => some c
  | none =>
    if 3 < soSlot o || soSlot o != slot || !(soAction o == 1 || soAction o == 2)
        || !((soBinding o).all (· == 0) || soBinding o == identityDigest) || (soAction o == 2 && !(soNewKey o).all (· == 0)) then some 0x0209
    else if !authorityAllows o then some 0x020A
    else if soGeneration o < b.generation slot then some 0x020B
    else if !b.generationFits o then some 0x020C
    else none

/-- Codes whose status is SIGNATURE. -/
def soIsSignature (c : Nat) : Bool := [0x0204, 0x0205, 0x0206, 0x0208, 0x020A, 0x020B].contains c

/-- The events of a failed object: 2 a patch bundle, 3 an enrolment. -/
def State.objectEvents (obj c : Nat) (o : Bytes) (s : State) : State :=
  let failed := match s.boot.authority o with
    | none => 0
    | some k => if c = 0x0205 then flag (!edHolds k o) 0 + flag (!mlHolds k o) 1 else flag (c == 0x0206) 2
  let slot := if soAuthority o = 0 then 0xFF else soAuthority o - 1
  let s := if soIsSignature c then s.raiseModule 0x0801 [(0x20, 1, obj), (0x21, 1, slot), (0x22, 2, c), (0x24, 1, failed)] else s
  if c = 0x0208 then s.raiseModule 0x0802 [(0x20, 1, obj), (0x24, 4, soSvn o), (0x28, 4, s.boot.svn)]
  else if c = 0x020B then s.raiseModule 0x0802 [(0x20, 1, obj), (0x24, 4, soGeneration o), (0x28, 4, s.boot.svn)]
  else s

def objectStatus (c : Nat) : Status := if soIsSignature c then .signature else .malformed

/-- APPLY_PATCH (R448). -/
def State.applyPatch (sq cid : Nat) (o : Bytes) (s : State) : State :=
  match s.boot.checkPatch o with
  | some c => (s.objectEvents 2 c o).finish sq cid (objectStatus c) c 0
  | none =>
    (s.modBoot fun b =>
      { b with svn := max b.svn (soSvn o), storedPatch := if soVersion o = 0 then none else some o }).finish sq cid .ok (soVersion o) 0

/-- The slots after an enrolment or a revocation. -/
def Boot.program (b : Boot) (o : Bytes) : Boot :=
  let k := soSlot o
  if soAction o = 1 then
    { b with slots := modAt k (fun l => l ++ [⟨sha384 (edKeyOf (soNewKey o)), sha384 (mlKeyOf (soNewKey o)), false⟩]) b.slots,
             keys := b.keys.filter (fun p => p.1 != k) ++ [(k, soNewKey o)] }
  else { b with slots := modAt k (fun l => l.zipIdx.map fun p => if p.2 + 1 = l.length then { p.1 with revoked := true } else p.1) b.slots }

/-- ENROL_KEY (R453, R454). -/
def State.enrolKey (sq cid slot : Nat) (o : Bytes) (s : State) : State :=
  match s.boot.checkEnrol slot o with
  | some c => (s.objectEvents 3 c o).finish sq cid (objectStatus c) c 0
  | none => (s.modBoot fun b => b.program o).finish sq cid .ok slot 0

/-! ## Reset and start-up (R440 to R449) -/

/-- Everything but OTP, the flash and what the input side holds returns to its reset value. -/
def State.forget (mode : ModuleState) (domains : BitVec 99) (s : State) : State :=
  { State.reset with
    pending := s.pending, out := s.out, freeCtr := s.freeCtr, usec := s.usec,
    power := { s.power with domains := domains, pwrGood := false, cap := 1000, capPending := none, thermal := [], cool := [], halved := [] },
    boot := { s.boot with mode := mode, prev := .standby, patch := 0, patchHeader := none, patchRam := [], verified := false, resetDue := false },
    pcie := { Pcie.reset with perst := s.pcie.perst, rate := s.pcie.rate, lanes := s.pcie.lanes, config := s.pcie.config, i3cPtr := s.pcie.i3cPtr },
    log := { EventLog.reset with spill := s.log.spill },
    journal := { Journal.reset with own := s.journal.own, partner := s.journal.partner },
    snap := { Snap.reset with store := s.snap.store },
    mem := { s.mem with classes := [] } }

/-- The code of a patch bundle: what follows its signer key block (R446). -/
def soPatchCode (o : Bytes) : Bytes := slice o 2240 (soCode o)

/-- The stored bundle is checked and loaded into patch RAM at row 5 (R445, R449): a bundle that fails gives its code of Table 15.4. -/
def Boot.loadPatch (b : Boot) : Boot × Option Nat :=
  match b.storedPatch with
  | none => ({ b with verified := true }, none)
  | some o => match b.checkPatch o with
    | some c => (b, some c)
    | none => ({ b with patch := BitVec.ofNat 32 (soVersion o), patchHeader := some (o.take 256), patchRam := soPatchCode o, verified := true }, none)

/-- A stall that fails the boot self-test (R442). -/
def State.bootFailure (i : Nat) (s : State) : State :=
  let e := expectedSig 0x0001 i
  let f := s.takeFree
  (f.2.raise 0x0702 srcStall i [(0x20, 2, 1), (0x28, 8, (Config.bootSignature f.1).toNat), (0x30, 8, e.toNat)]).failStall i

/-- Rows 4 to 10 of Table 15.1, up to INERT, with the boot events in the new log (log 3). -/
def State.finishBoot (failed : List Nat) (s : State) : State :=
  let p := s.boot.loadPatch
  let s := (s.modBoot fun _ => p.1).modPower fun x => { x with domains := inertDomains, pwrGood := true }
  let s := match p.2, s.boot.storedPatch with
    | some c, some o => s.objectEvents 2 c o
    | _, _ => s
  let s := (failed.filter (· < 256)).foldl (fun s i => s.bootFailure i) s
  let s := if s.power.undervolt then s.raiseModule 0x0503 [(0x20, 4, s.power.inputMv)] else s
  s.enter .inert

/-- A module reset: restart at row 4, on to INERT unless RESET_N is held low (R443). -/
def State.moduleReset (failed : List Nat) (s : State) : State :=
  let s := (s.forget .booting inertDomains).modPower fun p => { p with tripAlert := false }
  if s.power.resetLow then s else s.finishBoot failed

/-- Every domain but Amrath goes off: the contents of the piles are lost (R334). -/
def State.toStandby (s : State) : State :=
  if s.mode == .standby then s else { s.forget .standby standbyDomains with mem := Mem.reset }

/-- The link trains from its start, with the configuration space at its reset values: the speed and the width that it reaches are not the
module's to tell (R349, R441; log 91). -/
def State.trainLink (s : State) : State :=
  let f := s.takeFree
  f.2.modPcie fun p =>
    { p with config := PciConfig.reset, rate := [25, 50, 80, 160, 320].getD (Config.linkRate f.1).val 320,
             lanes := [1, 2, 4].getD (Config.linkLanes f.1).val 4 }

/-- From STANDBY: the boot sequence (R440); the PCIe domain comes on, and its link trains unless PERST# holds it (R441). -/
def State.startUp (failed : List Nat) (s : State) : State :=
  let s := s.forget .booting inertDomains
  let s := if s.pcie.perst then s else s.trainLink
  if s.power.resetLow then s else s.finishBoot failed

/-! ## The host goes away (R380, R382) -/

/-- Disabled queues, with nothing owed; their registers stand. -/
def Sq.stop (x : Sq) : Sq := { x with enable := false, ring := [], blocked := false }
def Cq.stop (c : Cq) : Cq := { c with enable := false, posted := 0, held := [] }

/-- Whether a sample group still reads a batch that does not stand in class 3 pages: one that has not started, and one with a tide to
complete that reads it. -/
def State.groupNeedsHost (s : State) (t : Table) (g : GroupRun) : Bool :=
  (match s.batch? g.group with | none => true | some b => !b.inModule)
    && (!g.started || s.run.tides.any fun u => u.status != .done && u.inst == g.place && Tide.readsTokens ⟨t, u.tide, u.inst⟩)

/-- Whether the step still needs the host: a batch not in class 3 pages, a host-layer result, or a serving buffer. -/
def State.needsHost (s : State) (t : Table) : Bool :=
  s.run.kind == .serving || !s.run.hostReqs.isEmpty || (s.run.groups.any fun g => s.groupNeedsHost t g)
    || s.run.tides.any fun u => u.status != .done && rKind (t.tide u.tide) == .hostLayer

/-- The run after the host has gone: it ends at its slack water, or the step is abandoned. -/
def State.runWithoutHost (s : State) : State :=
  match s.job.table with
  | none => s
  | some t =>
    if !s.inRun then s
    else if s.mode == .running && s.needsHost t then
      (if s.harbour.joined then s.moduleFault else s.abandonAttempt.endRun .fault .configured)
    else s.modRun fun r => { r with closing := true }

/-- A drain to a host buffer is abandoned; pending SNAPSHOT requests have no command left. -/
def State.snapWithoutHost (s : State) : State :=
  let s := match s.snap.dest with
    | .host _ _ _ _ => s.abandonSnapshot
    | _ => s
  s.modSnap fun x => { x with requests := [], serving := [] }

/-- Tests go on without their commands: no command that comes later is theirs, whatever its queue and ID (R468). -/
def State.testsWithoutHost (s : State) : State :=
  s.modTest fun t => { t with queue := t.queue.map fun r => { r with sq := r.sq + 16 } }

/-- No DMA and no message any more; queues disabled, completions discarded, the run closed. -/
def State.hostGone (s : State) : State :=
  let on := s.sqs.any (·.enable) || s.cqs.any (·.enable)
  let s := s.modPcie fun p => { p with busMaster := false }
  let s := if on then s.violation 9 none 0 0 0 else s
  let s := ((s.modSqs fun l => l.map Sq.stop).modCqs fun l => l.map Cq.stop).modCmds fun _ => []
  let s := s.testsWithoutHost.snapWithoutHost.runWithoutHost
  s.modJob fun j => { j with batches := j.batches.filter (·.inModule) }

/-- The registers of Table 12.2, BW_BASE and the MSI-X table at their reset values. -/
def State.resetQueues (s : State) : State :=
  (((s.modSqs fun _ => List.replicate 16 Sq.reset).modCqs fun _ => List.replicate 16 Cq.reset).modPcie fun p =>
    { p with bwBase := 0, bwWritten := none, msix := Pcie.reset.msix, msixPend := [] })

/-- EV_CTRL, HM_CTRL and the interval buffer return to reset, and EV_ACK takes EV_HEAD_SEQ. -/
def State.resetHostRegs (s : State) : State :=
  ((s.modLog fun l => { l with intEn := false, vector := 0, alertMask := 0x1FF, armed := false, ack := l.headSeq }).modTm fun t =>
    { t with frozen := false, image := [] }).modSnap fun x => { x with hostBase := 0, hostLen := 0 }

/-- A Function Level Reset, and a return from D3hot to D0. -/
def State.functionReset (s : State) : State := s.hostGone.resetQueues.resetHostRegs

/-! ## A requested module reset (R386, R443) -/

/-- The reset follows once no run is in progress; no row names the stalls that then fail the self-test (log 90). -/
def State.settleReset (s : State) : State :=
  if s.boot.resetDue && !s.inRun then s.takeFree.2.moduleReset (Config.bootStallFails s.takeFree.1) else s

/-- A reset is requested: the effects of R380 on a Function Level Reset first, where a run is active or the module is joined. -/
def State.requestReset (s : State) : State :=
  let s := if s.inRun || s.harbour.joined then s.hostGone.resetQueues else s
  let s := if s.harbour.joined && !s.inRun && s.mode != .faulted then s.depart else s
  (s.modBoot fun b => { b with resetDue := true }).settleReset

/-! ## Power fail (R333, R334, R427, R433) -/

/-- An acknowledgement that is owed at a power failure: it comes within its 2 ms or it does not (R330; log 88). -/
def State.sealMirror (c : Commit) (s : State) : State :=
  if !c.ackDue then s
  else
    let f := s.takeFree
    if Config.ackInTime f.1 then f.2 else f.2.mirrorTimeout

/-- A commit already being written completes; nothing follows it. -/
def State.sealCommit (s : State) : State :=
  match s.job.table, s.journal.commit with
  | some t, some c =>
    if !c.ofStep then s
    else
      let s := (if c.flashDone then s else s.appendOwn t c.records).sealMirror c
      let s := s.modJournal fun j => { j with commit := none }
      let s := ((if c.snapDone then s.snapshotDone else s).countTensors t).countStep
      if s.run.outcome.isProbe then s else s.advance (fld (c.records.getLast?.getD []) 0x38 8)
  | _, _ => s

/-- Steps 1 to 5 of R333, and FAULTED. -/
def State.powerFail (mv : Nat) (s : State) : State :=
  let s := if s.harbour.decided then s else if s.stepOpen then s.abandonAttempt else s
  (s.sealCommit.sendFault.powerFailRecord mv).enterFaulted

/-- From CONFIGURED on a job exists (R471). -/
def ModuleState.hasJob : ModuleState → Bool
  | .configured | .running | .slack | .faulted | .quarantined => true
  | _ => false

end Sys2Proof.Machine
end

