-- ==== Sys2Proof/Machine/LinkCmds.lean ====
section
/-! DEFINITION. Events of the Vorbiest ports (spec/10, R288 to R293, R298; logs 2 and 34). -/

namespace Sys2Proof.Machine

def execFlitError (port : Nat) (codeword : Bytes) (s : State) : Host.Outcome State Fault Refusal := .next (s.codewordIn port codeword)
def execReplayTimeout (port : Nat) (s : State) : Host.Outcome State Fault Refusal := .next (s.replayTimeout port)
def execNak (port expected : Nat) (s : State) : Host.Outcome State Fault Refusal := .next (s.nakIn port expected)
def execUnknownControlRecord (port _kind : Nat) (s : State) : Host.Outcome State Fault Refusal := .next (s.unknownRecord port)
def execPortDown (port : Nat) (loss : PortLoss) (s : State) : Host.Outcome State Fault Refusal := .next (s.portDown port loss).settleReset
def execPortRetrainComplete (port : Nat) (ok : Bool) (s : State) : Host.Outcome State Fault Refusal :=
  .next (s.portRetrained port ok).settleReset
def execPortTrained (port : Nat) (s : State) : Host.Outcome State Fault Refusal := .next (s.portTrained port)
/-- A codeword: the 256 bytes of the flit, and then the check symbols. -/
def execFlitAcknowledgement (port : Nat) (symbols checks : Bytes) (s : State) : Host.Outcome State Fault Refusal :=
  .next (s.codewordIn port (symbols ++ checks))

end Sys2Proof.Machine
end

