-- ==== Sys2Proof/Machine/HostCmds.lean ====
section
/-! DEFINITION. The commands of the submission queues, once accepted (spec/12, R360 to R377; spec/06, R154, R181; spec/11, R337,
R341 to R343; spec/14, R425; spec/15, R448, R453, R461, R464; logs 2 and 6). -/

namespace Sys2Proof.Machine

/-! ## Accepted commands -/

/-- The accepted command of a queue and ID, where it is of the opcode and its work has not begun. -/
def State.waiting (s : State) (op sq cid : Nat) : Option Cmd :=
  match s.cmd? sq cid with
  | none => none
  | some c => if c.isOp op && !c.started then some c else none

def State.markStarted (c : Cmd) (s : State) : State := s.setCmd c.sq c.cid fun c => { c with started := true }

/-- The input data of a command: the bytes that its buffer delivers, or module memory where IN_MODULE is set (R358). -/
def State.dataOf (s : State) (c : Cmd) (data : Bytes) : Bytes :=
  if eInModule c.entry then s.mem.raw (ePtr c.entry) (eLen c.entry) else fit (eLen c.entry) data

/-- No run is in progress, and no test that waits for INERT stands before the command. -/
def State.restsForLoad (s : State) : Bool := !s.inRun && !s.test.queue.any fun r => 3 ≤ r.scope

/-! ## IDENTIFY, READ_TELEMETRY, ATTEST, EXPORT_JOURNAL (R365, R461; log 12) -/

def State.identify (c : Cmd) (s : State) : State :=
  (s.toHost c.sq c.cid 0 ((List.range 4096).map Config.identifyByte)).finishCmd c .ok 0 0

def State.sampleTelemetry (c : Cmd) (s : State) : State :=
  (s.toHost c.sq c.cid 0 (s.telemetry (eTmOffset c.entry) (eTmBytes c.entry))).finishCmd c .ok s.usec 0

def State.attest (c : Cmd) (s : State) : State :=
  let r := s.report (eNonce c.entry)
  (s.toHost c.sq c.cid 0 r).finishCmd c .ok 3904 0

/-- Whole records from the front while they fit in `room` bytes. -/
def fitting : Nat → List Bytes → List Bytes
  | _, [] => []
  | room, r :: rs => if r.length ≤ room then r :: fitting (room - r.length) rs else []

def State.exportJournal (c : Cmd) (s : State) : State :=
  let j := if eJournal c.entry = 0 then s.journal.own else s.journal.partner
  let l := fitting (eLen c.entry) ((verified j).filter fun r => eFirstSeq c.entry ≤ recordSeq r)
  let d := l.flatten
  (s.toHost c.sq c.cid 0 d).finishCmd c .ok ((l.getLast?.map recordSeq).getD 0) d.length

/-! ## FEED (R154, R367 to R369, R375) -/

/-- A loss weight is zero or positive. -/
def weightOk (code : Nat) : Bool := match l16 code with | .zero => true | .num neg _ => !neg | _ => false

/-- Every value of a batch within Table 12.9. -/
def batchOk (t : Table) (e b : Bytes) : Bool :=
  let n := fld b 0x14 4
  let at_ := 64 + roundUp (4 * n) 64
  let lens := (List.range n).map fun i => fld b (64 + 4 * i) 4
  b.take 4 == ([0x42, 0x54, 0x43, 0x48] : Bytes) && fld b 4 1 == 1 && zeroAt b 5 3 && fld b 8 8 == eStep e && fld b 0x10 4 == eGroup e
    && n == t.sequences && batchTokens b == lens.foldl (· + ·) 0 && batchTokens b ≤ t.maxTokens && zeroAt b 0x1C 36
    && b.length == at_ + 16 * batchTokens b && lens.all (1 ≤ ·) && zeroAt b (64 + 4 * n) (at_ - 64 - 4 * n)
    && (List.range (batchTokens b)).all fun i => weightOk (fld b (at_ + 16 * i + 8) 2) && zeroAt b (at_ + 16 * i + 10) 6

/-- A batch is retained by reference; the wait of its sample group ends. -/
def State.retain (c : Cmd) (d : Bytes) (s : State) : State :=
  let e := c.entry
  let x : Batch := ⟨eStep e, eGroup e, eInModule e, ePtr e, d, (Config.batchDigest d).toNat, false⟩
  let s := s.modJob fun j => { j with batches := j.batches ++ [x] }
  let s := if eStep e != s.job.step then s else match s.run.groups.find? fun g => g.group == eGroup e with
    | none => s
    | some g => s.endWait g
  s.finishCmd c .ok x.digest 0

def State.feedBatch (c : Cmd) (data : Bytes) (s : State) : State :=
  match s.job.table with
  | none => s.finishCmd c .aborted 0 0
  | some t =>
    let d := s.dataOf c data
    if !batchOk t c.entry d then s.finishCmd c .malformed 0 0 else s.retain c d

/-- A host-layer result answers its request; one whose attempt has been abandoned meanwhile is not used. -/
def State.feedResult (c : Cmd) (data : Bytes) (s : State) : State :=
  let d := s.dataOf c data
  match s.job.table, s.hostReq? (eGroup c.entry) with
  | some t, some q => (s.hostResult t q d).finishCmd c .ok (Config.batchDigest d).toNat 0
  | _, _ => s.finishCmd c .aborted 0 0

/-! ## RUN_STEPS, SERVE, HALT_AT_SLACK, SNAPSHOT (R337, R363, R370 to R373) -/

/-- The first outstanding RUN_STEPS starts; one that is pending waits for the slack water of the first. -/
def State.runSteps (c : Cmd) (s : State) : State :=
  match s.job.table with
  | none => s.finishCmd c .aborted s.committedWord 0
  | some t =>
    if !t.isTraining then s.finishCmd c .aborted s.committedWord 0
    else if s.mode != .configured || s.harbour.inCensus || (s.cmdsOf opRun).head? != some c then s
    else s.startRun t c

/-- A serving run begins with the range 0 instances (R231). -/
def State.startServing (t : Table) (s : State) : State :=
  let s := s.modRun fun r => { Run.reset with kind := .serving, nextTag := r.nextTag, tides := (t.inRange 0).map fun i => ⟨i, 0, .waiting⟩ }
  let s := (s.enter .running).passBarriers t
  if s.capStep = 0 then s else s.capThrottleEvent

/-- The prompt as token identifiers. -/
def promptOf (d : Bytes) : List Nat := (List.range (d.length / 4)).map fun i => fld d (4 * i) 4

/-- SERVE: the requests take their places in the order of acceptance (R373), each once those accepted before it have theirs. -/
def State.serve (c : Cmd) (prompt : Bytes) (s : State) : State :=
  match s.job.table with
  | none => s.finishCmd c .aborted 0 0
  | some t =>
    if t.isTraining || !(s.mode == .configured || s.mode == .running) then s.finishCmd c .aborted 0 0
    else if ((s.cmdsOf opServe).find? fun d => !d.started) != some c then s
    else
      let s := (if s.run.kind = .serving then s else s.startServing t).markStarted c
      s.modRun fun r => { r with serves := r.serves ++ [⟨c.sq, c.cid, none, promptOf (s.dataOf c prompt), [], 0, false, false⟩] }

/-- In a run the halt waits for slack water or the decode-step boundary. -/
def State.halt (c : Cmd) (s : State) : State := if s.inRun then s.markStarted c else s.finishHalts

def State.askSnapshot (c : Cmd) (s : State) : State :=
  if !s.mode.jobState then s.finishCmd c .fault 0 0
  else (s.markStarted c).modSnap fun x => { x with requests := x.requests ++ [⟨c.sq, c.cid⟩] }

/-! ## LOAD_TIDE_TABLE, UNLOAD (R191, R242 to R244) -/

def State.load (c : Cmd) (data : Bytes) (s : State) : State :=
  if !s.restsForLoad then s
  else if s.mode != .inert && s.mode != .configured then s.finishCmd c .fault 0 0
  else s.loadTable c.sq c.cid (s.dataOf c data)

/-- Commands accepted behind an UNLOAD that need the table end with it, each with the results of Table 12.8: no token of a SERVE, the
newest snapshot number, no digest of a batch that has not been read. -/
def State.dropJobCmds (s : State) : State :=
  let s := (s.finishHalts.finishAll (s.cmdsOf opRun) .aborted s.committedWord 0).finishServes .aborted
  (s.finishAll (s.cmdsOf opSnapshot) .aborted s.snap.number 0).finishAll (s.cmdsOf opFeed) .aborted 0 0

def State.unloadTable (c : Cmd) (s : State) : State :=
  if s.inRun || s.drains then s
  else match s.job.table with
    | none => s.unload.finishCmd c .ok 0 0
    | some t => s.dropJobCmds.unload.finishCmd c .ok t.pageBytes 0

/-! ## RESTORE (R341 to R343) -/

/-- A RESTORE of a source: it starts where the module still stands as its admission found it. -/
def State.restoreWith (source : Nat) (c : Cmd) (f : Table → State → State) (s : State) : State :=
  if eSource c.entry != source || s.inRun then s
  else match s.job.table with
    | none => s.finishCmd c .fault 0 0
    | some t => if s.mode != .configured || s.harbour.joined then s.finishCmd c .fault 0 0 else f t (s.markStarted c)

/-! ## JOIN_HARBOUR, LEAVE_HARBOUR (R298, R317) -/

def State.joinCmd (c : Cmd) (block : Bytes) (s : State) : State :=
  if s.inRun then s
  else match s.job.table with
    | none => s.finishCmd c .fault 0 0
    | some t =>
      if s.mode != .configured || s.harbour.joined then s.finishCmd c .fault 0 0
      else (s.markStarted c).joinHarbour t c.sq c.cid (fit 128 block)

def State.leaveCmd (c : Cmd) (s : State) : State :=
  if s.harbour.joined then s.leaveHarbour c.sq c.cid else s.finishCmd c .ok s.committedWord 0

/-! ## RUN_TEST (R465, R466) -/

/-- A test of the module or of a pile runs only in INERT. -/
def State.testCmd (c : Cmd) (s : State) : State :=
  if 3 ≤ eScope c.entry && s.mode != .inert && s.mode != .testing then s.finishCmd c .aborted 0 0 else s.runTest c

/-! ## SET_POWER_CAP (R377, R424, R425) -/

/-- The deferred SET_POWER_CAP that holds PT_CAP.PENDING. -/
def State.heldCap (s : State) : List Cmd := (s.cmdsOf opCap).filter (·.started)

/-- A cap takes effect. -/
def State.applyCap (w : Nat) (s : State) : State := s.capChanged fun s => s.modPower fun p => { p with cap := w, capPending := none }

/-- A cap is held pending, or takes effect at once; either replaces the cap held before. -/
def State.setPowerCap (c : Cmd) (s : State) : State :=
  let w := eWatts c.entry
  let old := s.heldCap
  if s.capDeferred w then
    ((s.finishAll old .aborted s.power.cap 0).markStarted c).modPower fun p => { p with capPending := some w }
  else ((s.applyCap w).finishAll old .aborted w 0).finishCmd c .ok w 0

/-! ## The rows -/

/-- A row that begins the work of an accepted command. -/
def State.onCmd (op sq cid : Nat) (f : Cmd → State → State) (s : State) : Host.Outcome State Fault Refusal :=
  match s.waiting op sq cid with
  | none => .next s
  | some c => .next (f c s)

def execIdentify (sq cid : Nat) (s : State) : Host.Outcome State Fault Refusal := s.onCmd opIdentify sq cid State.identify
def execLoadTideTable (sq cid : Nat) (data : Bytes) (s : State) : Host.Outcome State Fault Refusal :=
  s.onCmd opLoad sq cid fun c => State.load c data
def execUnload (sq cid : Nat) (s : State) : Host.Outcome State Fault Refusal := s.onCmd opUnload sq cid State.unloadTable
def execFeedTokenBatch (sq cid : Nat) (data : Bytes) (s : State) : Host.Outcome State Fault Refusal :=
  s.onCmd opFeed sq cid fun c s => if eKind c.entry = 1 then s.feedBatch c data else s
def execFeedHostLayerResult (sq cid : Nat) (data : Bytes) (s : State) : Host.Outcome State Fault Refusal :=
  s.onCmd opFeed sq cid fun c s => if eKind c.entry = 2 then s.feedResult c data else s
def execRunSteps (sq cid : Nat) (s : State) : Host.Outcome State Fault Refusal := s.onCmd opRun sq cid State.runSteps
def execServe (sq cid : Nat) (prompt : Bytes) (s : State) : Host.Outcome State Fault Refusal :=
  s.onCmd opServe sq cid fun c => State.serve c prompt
def execHaltAtSlack (sq cid : Nat) (s : State) : Host.Outcome State Fault Refusal := s.onCmd opHalt sq cid State.halt
def execSnapshot (sq cid : Nat) (s : State) : Host.Outcome State Fault Refusal := s.onCmd opSnapshot sq cid State.askSnapshot
def execRestoreFromImage (sq cid : Nat) (data : Bytes) (s : State) : Host.Outcome State Fault Refusal :=
  s.onCmd opRestore sq cid fun c s => s.restoreWith 0 c fun t s => s.finishImage t sq cid 0 (s.dataOf c data)
def execRestoreFromPartnerStore (sq cid : Nat) (s : State) : Host.Outcome State Fault Refusal :=
  s.onCmd opRestore sq cid fun c s => s.restoreWith 1 c fun _ s => s.beginRestore sq cid 1 (ePort c.entry) 0xFFFF
def execRestoreFromReplica (sq cid : Nat) (s : State) : Host.Outcome State Fault Refusal :=
  s.onCmd opRestore sq cid fun c s => s.restoreWith 2 c fun _ s => s.beginRestore sq cid 2 (ePort c.entry) (eDonor c.entry)
def execJoinHarbour (sq cid : Nat) (block : Bytes) (s : State) : Host.Outcome State Fault Refusal :=
  s.onCmd opJoin sq cid fun c => State.joinCmd c block
def execLeaveHarbour (sq cid : Nat) (s : State) : Host.Outcome State Fault Refusal := s.onCmd opLeave sq cid State.leaveCmd
def execReadTelemetry (sq cid : Nat) (s : State) : Host.Outcome State Fault Refusal :=
  s.onCmd opTelemetry sq cid State.sampleTelemetry
def execRunTest (sq cid : Nat) (s : State) : Host.Outcome State Fault Refusal := s.onCmd opTest sq cid State.testCmd
def execSetPowerCap (sq cid : Nat) (s : State) : Host.Outcome State Fault Refusal := s.onCmd opCap sq cid State.setPowerCap
def execAttest (sq cid : Nat) (s : State) : Host.Outcome State Fault Refusal := s.onCmd opAttest sq cid State.attest
def execEnrolKey (sq cid : Nat) (data : Bytes) (s : State) : Host.Outcome State Fault Refusal :=
  s.onCmd opEnrol sq cid fun c s => s.enrolKey sq cid (eSlot c.entry) (s.dataOf c data)
def execApplyPatch (sq cid : Nat) (data : Bytes) (s : State) : Host.Outcome State Fault Refusal :=
  s.onCmd opPatch sq cid fun c s => s.applyPatch sq cid (s.dataOf c data)
def execExportJournal (sq cid : Nat) (s : State) : Host.Outcome State Fault Refusal := s.onCmd opExport sq cid State.exportJournal

end Sys2Proof.Machine
end

