-- ==== Sys2Proof/Machine/PowerCmds.lean ====
section
/-! DEFINITION. The 50 V input, the start from STANDBY, temperatures, clocks, sensors and the deferred cap (spec/14, R413, R420 to
R429, R433; spec/11, R333, R334, R471; spec/13, R402; spec/15, R440; logs 3 and 37). -/

namespace Sys2Proof.Machine

/-! ## Supply (R333, R413, R433, R440, R471) -/

def startMv : Nat := 44000
def warningMv : Nat := 42000
def warningClearMv : Nat := 42500
def lockoutMv : Nat := 38000
def amrathMv : Nat := 30000
def overMv : Nat := 62000

def State.setInput (mv : Nat) (s : State) : State := s.modPower fun p => { p with inputMv := mv }

/-- The input rises through 30 V: Amrath reads the straps and starts HM_USEC; the module stands in STANDBY. -/
def State.powerUp (mv straps : Nat) (s : State) : State :=
  if s.power.present || mv < amrathMv then s
  else
    let s := { s.forget .standby standbyDomains with mem := Mem.reset, usec := 0 }
    (s.modPower fun p => { p with present := true, inputMv := mv, feedId := straps % 256, undervolt := false, tripAlert := false }).modPcie
      fun p => { p with i3cPtr := 0 }

/-- Nothing is powered: only OTP and the flash keep their contents. -/
def State.powerDown (s : State) : State :=
  if !s.power.present then s
  else
    let s := { s.forget .standby 0 with mem := Mem.reset, usec := 0 }
    (s.modPower fun p => { Power.reset with present := false, inputMv := 0, pwrEn := p.pwrEn, resetLow := p.resetLow, domains := 0 }).modPcie
      fun p => { p with i3cPtr := 0 }

/-- The start from STANDBY: PWR_EN high, the input at 44 V and Amrath ready. -/
def State.bootStart (mv : Nat) (failed : List Nat) (s : State) : State :=
  if s.mode != .standby || !s.power.present || mv < startMv || overMv ≤ mv then s
  else ((s.modPower fun p => { p with pwrEn := true, inputMv := mv, undervolt := false }).startUp failed)

/-- PWR_EN goes low: the power-fail steps where a run is in progress or the module is joined, unless a warning has run them. -/
def State.pwrEnLow (s : State) : State :=
  if !s.power.present then s
  else
    let s := s.modPower fun p => { p with pwrEn := false }
    let s := if (s.inRun || s.harbour.joined) && !s.power.undervolt then s.powerFail s.power.inputMv else s
    s.toStandby

/-- The power-fail warning: the event from INERT on, the sequence of R333 from CONFIGURED on. -/
def State.underVolt (mv : Nat) (s : State) : State :=
  if !s.power.present || warningMv ≤ mv || s.power.undervolt then s
  else
    let s := s.modPower fun p => { p with inputMv := mv, undervolt := true }
    if s.mode == .standby || s.mode == .booting then s
    else
      let s := s.raiseModule 0x0503 [(0x20, 4, mv)]
      if s.mode.hasJob then (s.powerFail mv).settleReset else s

def State.underVoltClear (mv : Nat) (s : State) : State :=
  if !s.power.present || mv < warningClearMv then s else s.modPower fun p => { p with inputMv := mv, undervolt := false }

/-- The input stage's lockout: no commit is possible any more. -/
def State.lockout (mv : Nat) (s : State) : State :=
  if !s.power.present || lockoutMv ≤ mv then s else (s.setInput mv).toStandby

def State.overVolt (mv : Nat) (s : State) : State :=
  if !s.power.present || mv < overMv then s
  else
    let s := s.setInput mv
    (if s.mode.hasJob then s.powerFail mv else s).toStandby

/-! ## Temperatures (R426, R427) -/

def State.setTemp (i : Nat) (t : BitVec 16) (s : State) : State :=
  s.modPower fun p => { p with temps := modAt i (fun _ => t) p.temps }

/-- The stalls of a pipeline of the active table. -/
def State.pipelineStalls (s : State) (p : Nat) : List Nat :=
  match s.job.table with
  | none => []
  | some t => (List.range 256).filter fun i => t.pipelineOf i == some p

/-- The hottest stall of a pipeline, lowest index first among equals. -/
def State.hottest (s : State) (p : Nat) : Option Nat :=
  (s.pipelineStalls p).foldl (fun m i => match m with
    | none => some i
    | some j => if (s.stall j).temp.toInt < (s.stall i).temp.toInt then some i else some j) none

/-- The lowest DVFS step that any pipeline of the table has: the greatest code. -/
def State.slowestStep (s : State) : Nat :=
  match s.job.table with
  | none => s.capStep
  | some t => (t.stallsUsed.filterMap t.pipelineOf).foldl (fun m p => max m (s.pipelineStep p)) s.capStep

def State.setThermal (p step : Nat) (s : State) : State :=
  s.modPower fun x => { x with thermal := (x.thermal.filter fun e => e.1 != p) ++ [(p, step, s.usec)] }

/-- A thermal reduction ends the promise of every outstanding command (R255). -/
def State.checkReduced (s : State) : State := if s.thermalReduced then s.endPromise 3 fun _ => true else s

/-- A millisecond has passed since the pipeline's thermal step last changed. -/
def State.thermalMayChange (s : State) (p : Nat) : Bool := milliPast (s.thermalSince p) s.usec

/-- The hottest stall of a pipeline has stood at 95 °C or below for 10 ms. -/
def State.hasCooled (s : State) (p : Nat) : Bool :=
  match s.coolSince p with | none => false | some u => u + 10000 ≤ s.usec

/-- The pipelines whose hottest stall stands at 95 °C or below, each with the time of the first reading that found it so. -/
def State.trackCool (s : State) : State :=
  match s.job.table with
  | none => s
  | some t => s.modPower fun p =>
    { p with cool := ((t.stallsUsed.filterMap t.pipelineOf).eraseDups.filter fun k =>
        match s.hottest k with | none => false | some i => atMost 95 (s.stall i).temp).map fun k => (k, (s.coolSince k).getD s.usec) }

/-- 100 °C or above: the thermal step falls by one; THERMAL_THROTTLE is raised as the reduction begins. -/
def State.thermalDown (p : Nat) (s : State) : State :=
  match s.hottest p with
  | none => s
  | some i =>
    let k := s.thermalStep p
    if !atLeast 100 (s.stall i).temp || 4 ≤ k || !s.thermalMayChange p then s
    else
      let s := (s.setThermal p (k + 1)).retuneStalls
      let s := if k = 0 then s.raise 0x0502 srcSensor (i / 128) [(0x20, 2, (s.stall i).temp.toNat), (0x28, 1, s.slowestStep)] else s
      s.checkReduced

/-- After 10 ms at 95 °C or below the step rises by one. -/
def State.thermalUp (p : Nat) (s : State) : State :=
  match s.hottest p with
  | none => s
  | some i =>
    let k := s.thermalStep p
    if !atMost 95 (s.stall i).temp || !s.hasCooled p || k = 0 || !s.thermalMayChange p then s
    else (s.setThermal p (k - 1)).retuneStalls

/-- A DRAM die at 95 °C or above halves its quay. -/
def State.halveQuay (pile : Nat) (t : BitVec 16) (s : State) : State :=
  if 24 ≤ pile || !s.sensorOn (pile + 2) || !atLeast 95 t || s.power.halved.contains pile then s
  else
    let s := (s.setTemp (pile + 2) t).modPower fun p => { p with halved := setAdd pile p.halved }
    (s.raise 0x0502 srcSensor (pile + 2) [(0x20, 2, t.toNat), (0x28, 1, s.slowestStep)]).checkReduced

/-- The die is at 90 °C or below: the quay serves at its full rate again. -/
def State.restoreQuay (r : DramReading) (s : State) : State :=
  if 24 ≤ r.pile || !s.sensorOn (r.pile + 2) || !atMost 90 r.temp then s
  else (s.setTemp (r.pile + 2) r.temp).modPower fun p => { p with halved := setDel r.pile p.halved }

/-- A trip of the harbourmaster: a hall junction at 108 °C, a DRAM die at 100 °C. -/
def tripHolds (sensor : Nat) (t : BitVec 16) : Bool :=
  (sensor < 2 && atLeast 108 t) || (2 ≤ sensor && sensor < 26 && atLeast 100 t)

/-- Every stall row and quay off. -/
def State.darkHalls (s : State) : State := s.switch false (List.range 32 ++ (List.range 24).map quayDomain)

/-- The module fault of R427; where no job exists there is nothing to commit (R471). -/
def State.thermalTrip (sensor : Nat) (t : BitVec 16) (s : State) : State :=
  if !tripHolds sensor t || !s.sensorOn sensor || s.mode == .standby || s.mode == .booting then s
  else
    let s := s.setTemp sensor t
    let s := if s.mode.hasJob then s.powerFail s.power.inputMv else s.moduleFault
    s.darkHalls.settleReset

/-- Amrath's comparator at 115 °C. -/
def State.amrathTrip (sensor : Nat) (t : BitVec 16) (s : State) : State :=
  if !s.power.present || !s.sensorOn sensor || !atLeast 115 t then s
  else ((s.setTemp sensor t).toStandby).modPower fun p => { p with tripAlert := true }

/-! ## Clocks and DVFS (R420, R422) -/

/-- Whether an island's generator runs. -/
def State.islandOn (s : State) : ClockIsland → Bool
  | .stall i => s.powered (rowDomain i)
  | .quay p => s.powered (quayDomain p)
  | .aisle h => s.powered (aisleDomain h)
  | .port p => s.powered (engineDomain p)
  | .control => s.powered 94
  | .crystal => true

def State.clockLost (i : ClockIsland) (s : State) : State :=
  if s.mode == .standby || s.mode == .booting || !s.islandOn i then s else s.moduleFault.settleReset

/-- The rail of a stall has settled after a rise: its generator switches to the higher clock. -/
def Stall.railSettled (now : Nat) (x : Stall) : Stall :=
  match x.target with
  | none => x
  | some k => if k < x.dvfs && milliPast x.lastStep now then { x with dvfs := k, target := none, lastStep := some now } else x

/-- A rail has settled: the generators of the stall's pipeline switch together (R227, R422). -/
def State.railSettled (i : Nat) (s : State) : State :=
  match s.job.table with
  | none => s.setStall i (Stall.railSettled s.usec)
  | some t => s.modStalls fun l => l.zipIdx.map fun p =>
      if p.2 = i || ((t.pipelineOf i).isSome && t.pipelineOf p.2 == t.pipelineOf i) then p.1.railSettled s.usec else p.1

/-! ## Readings and the deferred cap (R402, R425) -/

def State.refreshSensors (r : Readings) (s : State) : State :=
  if !s.power.present then s
  else
    let s := s.modPower fun p =>
      { p with inputMv := r.milliVolts, inputMa := r.milliAmps, powerMw := r.milliWatts,
               temps := (List.range 40).map fun i => r.temps.getD i (p.temps.getD i 0x8000) }
    let s := r.stallTemps.foldl (fun s e => s.setStall e.1 fun x => { x with temp := e.2 }) s
    let s := r.ports.foldl (fun s e => s.setPort e.port fun x =>
      if x.role = 0 then x else { x with rx := e.rx, tx := e.tx, superframes := e.superframes }) s
    (if r.milliJoules = 0 then s else s.count (tmAt 0x78) r.milliJoules).trackCool.retuneStalls

/-- The held cap takes effect once no bounded command remains. -/
def State.applyHeldCap (s : State) : State :=
  match s.power.capPending with
  | none => s
  | some w => if s.cmds.any Cmd.bounded then s else (s.applyCap w).finishAll s.heldCap .ok w 0

/-! ## The rows -/

def execPowerApplied (milliVolts straps : Nat) (s : State) : Host.Outcome State Fault Refusal := .next (s.powerUp milliVolts straps)
def execPowerRemoved (s : State) : Host.Outcome State Fault Refusal := .next s.powerDown
def execBootStart (milliVolts : Nat) (failedStalls : List Nat) (s : State) : Host.Outcome State Fault Refusal :=
  .next (s.bootStart milliVolts failedStalls)
def execPwrEnLow (s : State) : Host.Outcome State Fault Refusal := .next s.pwrEnLow
def execInputUndervolt (milliVolts : Nat) (s : State) : Host.Outcome State Fault Refusal := .next (s.underVolt milliVolts)
def execInputUndervoltClear (milliVolts : Nat) (s : State) : Host.Outcome State Fault Refusal := .next (s.underVoltClear milliVolts)
def execInputLockout (milliVolts : Nat) (s : State) : Host.Outcome State Fault Refusal := .next (s.lockout milliVolts)
def execInputOvervoltage (milliVolts : Nat) (s : State) : Host.Outcome State Fault Refusal := .next (s.overVolt milliVolts)
def execThermalStepDown (pipeline : Nat) (s : State) : Host.Outcome State Fault Refusal := .next (s.thermalDown pipeline)
def execThermalStepUp (pipeline : Nat) (s : State) : Host.Outcome State Fault Refusal := .next (s.thermalUp pipeline)
def execDramThermalHalve (pile : Nat) (temp : BitVec 16) (s : State) : Host.Outcome State Fault Refusal := .next (s.halveQuay pile temp)
def execDramThermalHalveEnd (reading : DramReading) (s : State) : Host.Outcome State Fault Refusal := .next (s.restoreQuay reading)
def execThermalTripFault (sensor : Nat) (temp : BitVec 16) (s : State) : Host.Outcome State Fault Refusal := .next (s.thermalTrip sensor temp)
def execThermalTripAmrath (sensor : Nat) (temp : BitVec 16) (s : State) : Host.Outcome State Fault Refusal := .next (s.amrathTrip sensor temp)
def execClockLockLost (island : ClockIsland) (s : State) : Host.Outcome State Fault Refusal := .next (s.clockLost island)
def execDvfsRailSettled (stall : Nat) (s : State) : Host.Outcome State Fault Refusal := .next (s.railSettled stall)
def execSensorRefresh (r : Readings) (s : State) : Host.Outcome State Fault Refusal := .next (s.refreshSensors r)
def execDeferredCapApply (s : State) : Host.Outcome State Fault Refusal := .next s.applyHeldCap

end Sys2Proof.Machine
end

