-- ==== Sys2Proof/Machine/QueueCmds.lean ====
section
/-! DEFINITION. The doorbells and the queue configuration registers (spec/12, R353 to R356, R359, R362, R379; spec/13, R382, R398,
R399; log 35). -/

namespace Sys2Proof.Machine

/-- A request of the host reaches the function: the PCIe domain is on and out of reset (R384, R435). -/
def State.hostReaches (s : State) : Bool := s.mode != .standby && !s.pcie.perst

/-- BAR0 writes are discarded in STANDBY and BOOTING (R384). -/
def State.takesWrites (s : State) : Bool := s.hostReaches && s.mode != .booting

/-- A module reset may be requested (R386). -/
def State.takesReset (s : State) : Bool := s.mode != .standby && s.mode != .booting

/-! ## Doorbells (R354, R356) -/

def sqDoorbell (q : Nat) : Nat := 0x20000 + 0x10 * q
def cqDoorbell (q : Nat) : Nat := 0x20008 + 0x10 * q

/-- Entries that a host has not placed read as zeros. -/
def placedAt (l : List Placed) (i : Nat) : Placed :=
  match l[i]? with
  | none => ⟨zeros 64, [], []⟩
  | some p => { p with entry := fit 64 p.entry }

/-- The ring after a new tail: the entries from the head up to it, those already placed first. -/
def Sq.place (tail : Nat) (placed : List Placed) (x : Sq) : Sq :=
  let n := (tail + x.entries - x.head) % x.entries
  { x with tail := tail, ring := x.ring.take n ++ (List.range (n - x.ring.length)).map (placedAt placed) }

/-- SQ_TAIL_DB. -/
def State.ringTail (q value : Nat) (placed : List Placed) (s : State) : State :=
  if !(s.sq q).enable || (s.sq q).entries ≤ value then s.violation 3 (some q) 0 0 (sqDoorbell q)
  else (s.setSq q (Sq.place value placed)).fetch

/-- Entries that a new head consumes: a head that does not move consumes a full ring. -/
def Cq.consumed (c : Cq) (value : Nat) : Nat :=
  let n := (value + c.entries - c.head) % c.entries
  if n = 0 && c.posted = c.entries then c.entries else n

/-- CQ_HEAD_DB: a head beyond the tail is a violation. -/
def State.ringHead (q value : Nat) (s : State) : State :=
  let c := s.cq q
  if !c.enable || c.entries ≤ value || c.posted < c.consumed value then s.violation 3 none 0 0 (cqDoorbell q)
  else (s.setCq q fun c => { c with head := value, posted := c.posted - c.consumed value }).fetch

/-- The allowance of a host-layer request runs from the posting of its entry, where a full ring has held that back (R375). -/
def State.requestPosted (e : Entry) (s : State) : State :=
  if e.kind = 2 then
    s.modRun fun r => { r with hostReqs := r.hostReqs.map fun q => if q.tag = e.cid then { q with posted := s.usec } else q }
  else s

/-- An entry that a full ring held back takes its place. -/
def State.postHeld (q : Nat) (s : State) : State :=
  match (s.cq q).held with
  | [] => s
  | e :: rest =>
    if !(s.cq q).enable || (s.cq q).room = 0 then s
    else (((s.setCq q fun c => { c with held := rest }).write q e).requestPosted e).fetch

/-! ## Queue configuration (R355) -/

def sqBlock (q : Nat) : Nat := 0x40000 + 0x40 * q
def cqBlock (q : Nat) : Nat := 0x40400 + 0x40 * q

/-- A refused write of a queue register. -/
def State.queueRefused (sub : Bool) (q k : Nat) (s : State) : State :=
  s.violation 4 (if sub then some q else none) 0 0 ((if sub then sqBlock q else cqBlock q) + k)

def sizeOk (log2 : Nat) : Bool := 4 ≤ log2 && log2 ≤ 12

/-- An SQ enabled: head and tail at 0, nothing placed. -/
def Sq.start (x : Sq) : Sq := { x with enable := true, head := 0, tail := 0, ring := [], blocked := false }

/-- SQ_CTRL: an enabled queue takes only the clearing of ENABLE; a disabled one takes its CQ, a valid size, and ENABLE where its
conditions hold. -/
def State.sqCtrl (q : Nat) (enable : Bool) (cq log2 : Nat) (s : State) : State :=
  let x := s.sq q
  if x.enable then
    let s := if enable then s else s.setSq q Sq.stop
    if cq = x.cq && log2 = x.log2 then s else s.queueRefused true q 8
  else
    let s := s.setSq q fun x => { x with cq := cq, log2 := if sizeOk log2 then log2 else x.log2 }
    let go := s.pcie.busMaster && sizeOk log2 && (s.cq cq).enable
    let s := if enable && go then s.setSq q Sq.start else s
    if sizeOk log2 && (!enable || go) then s else s.queueRefused true q 8

/-- Commands whose completions a CQ that is disabled discards: their entries have no queue any more (class 6). -/
def State.loseEntries (q : Nat) (s : State) : State :=
  let lost := s.cmds.filter fun c => c.cq == q
  let s := lost.foldl (fun s c => s.violation 6 (some c.sq) c.op c.cid 0) s
  let s := (s.cq q).held.foldl (fun s e => s.violation 6 (some e.sq) 0 e.cid 0) s
  s.modCmds fun l => l.map fun c => if c.cq = q then { c with cq := 16 } else c

def Cq.start (c : Cq) : Cq := { c with enable := true, tail := 0, head := 0, posted := 0, phase := true, held := [] }

/-- CQ_CTRL: INT_ENABLE and VECTOR are taken at any time; the entries that waited for an enabled CQ are fetched (R356). -/
def State.cqCtrl (q : Nat) (enable intEnable : Bool) (vector log2 : Nat) (s : State) : State :=
  let c := s.cq q
  let s := s.setCq q fun c => { c with intEn := intEnable, vector := vector % 64 }
  if c.enable then
    let s := if enable then s else (s.loseEntries q).setCq q Cq.stop
    if log2 = c.log2 then s else s.queueRefused false q 8
  else
    let s := s.setCq q fun c => { c with log2 := if sizeOk log2 then log2 else c.log2 }
    let go := s.pcie.busMaster && sizeOk log2
    let s := if enable && go then (s.setCq q Cq.start).fetch else s
    if sizeOk log2 && (!enable || go) then s else s.queueRefused false q 8

/-- SQ_BASE and CQ_BASE. -/
def State.sqBase (q addr : Nat) (s : State) : State :=
  if (s.sq q).enable then s.queueRefused true q 0 else s.setSq q fun x => { x with base := addr / 4096 * 4096 }
def State.cqBase (q addr : Nat) (s : State) : State :=
  if (s.cq q).enable then s.queueRefused false q 0 else s.setCq q fun c => { c with base := addr / 4096 * 4096 }

/-! ## The rows -/

/-- A register write that an awake module takes. -/
def State.onWrite (f : State → State) (s : State) : Host.Outcome State Fault Refusal := .next (if s.takesWrites then f s else s)

def execSqTailDb (q value : Nat) (placed : List Placed) (s : State) : Host.Outcome State Fault Refusal :=
  s.onWrite (State.ringTail q value placed)
def execCqHeadDb (q value : Nat) (s : State) : Host.Outcome State Fault Refusal := s.onWrite (State.ringHead q value)
def execCqHeldEntryPost (q : Nat) (s : State) : Host.Outcome State Fault Refusal := .next (s.postHeld q)
def execSqEnable (q cq log2 : Nat) (s : State) : Host.Outcome State Fault Refusal := s.onWrite (State.sqCtrl q true cq log2)
def execSqDisable (q cq log2 : Nat) (s : State) : Host.Outcome State Fault Refusal := s.onWrite (State.sqCtrl q false cq log2)
def execCqEnable (q : Nat) (intEnable : Bool) (vector log2 : Nat) (s : State) : Host.Outcome State Fault Refusal :=
  s.onWrite (State.cqCtrl q true intEnable vector log2)
def execCqDisable (q : Nat) (intEnable : Bool) (vector log2 : Nat) (s : State) : Host.Outcome State Fault Refusal :=
  s.onWrite (State.cqCtrl q false intEnable vector log2)

end Sys2Proof.Machine
end

