-- ==== Sys2Proof/Machine/RegCmds.lean ====
section
/-! DEFINITION. Writes of the other BAR0 registers, the BAR2 window, MSI-X, the DOE mailbox, the management pointer and DMA errors
(spec/12, R350 to R352, R378, R379; spec/13, R384, R386, R388 to R393; spec/14, R434; spec/15, R460; logs 16, 18, 35, 36). -/

namespace Sys2Proof.Machine

/-! ## Event log (R389, R393) -/

/-- EV_ACK: every write arms the vector; where records newer than the value are left, it signals at once. -/
def State.evAck (seq : Nat) (s : State) : State :=
  let s := s.modLog fun l => { l with ack := seq % 4294967296, armed := true }
  if s.log.intEn && s.log.ring.any fun r => newer r.seq s.log.ack then s.msix s.log.vector else s

/-- EV_CTRL: a write of 1 to INT_EN arms the vector. -/
def State.evCtrl (intEn : Bool) (vector : Nat) (alertMask : BitVec 9) (s : State) : State :=
  s.modLog fun l => { l with intEn := intEn, vector := vector % 64, alertMask := alertMask, armed := l.armed || intEn }

/-! ## SAT bits (R388, R389, R400, R412) -/

/-- The counter behind bit `i` of the SAT word at an offset. -/
def satCounter (o i : Nat) : Option Nat :=
  if o = 0x10020 then (if i = 0 then some evLostAt else if i < 10 then some (evViolationAt i) else none)
  else if 0x180000 ≤ o ∧ o < 0x182000 then some (0x100000 + 64 * (o - 0x180000) + 8 * i)
  else if o = 0x500028 then (if i = 0 then some tsDeferredAt else none)
  else if 0x1000000 ≤ o ∧ o < 0x1100000 ∧ o % 0x1000 = 0x18 then
    (if i < 12 then some (stAt ((o - 0x1000000) / 0x1000) (0x100 + 8 * i)) else none)
  else none

/-- A SAT bit written with 1: where it is set it is cleared and its counter is zero. -/
def Telemetry.clearSat (c : Nat) (t : Telemetry) : Telemetry :=
  if t.sat.contains c then { t with sat := setDel c t.sat, ctr := kvPut t.ctr c 0 } else t

/-- The bits of a 64-bit word at an 8-aligned offset that an access of `size` bytes at `o` reaches, and the value there. -/
def reaches (o size i : Nat) : Bool := 8 * (o % 8) ≤ i && i < 8 * (o % 8) + 8 * size
def spread (o size value : Nat) : Nat := value % 2 ^ (8 * size) * 2 ^ (8 * (o % 8))

/-- An access of a size and alignment that R351 allows. -/
def sizeFits (o size : Nat) : Bool := (size == 4 && o % 4 == 0) || (size == 8 && o % 8 == 0)

def State.clearSats (o size mask : Nat) (s : State) : State :=
  let w := spread o size mask
  (List.range 64).foldl (fun s i =>
    if reaches o size i && bit w i then match satCounter (o - o % 8) i with
      | none => s
      | some c => s.modTm (Telemetry.clearSat c)
    else s) s

/-! ## HM_CTRL (R386, R390) -/

def State.freeze (s : State) : State := if s.tm.frozen then s else s.modTm fun t => { t with frozen := true, image := s.capture }
def State.unfreeze (s : State) : State := s.modTm fun t => { t with frozen := false, image := [] }

/-! ## MSI-X (R378) -/

/-- A pending vector that is not masked sends its message. -/
def State.sendPending (v : Nat) (s : State) : State :=
  if s.pcie.msixPend.contains v && s.pcie.busMaster && !(s.pcie.msix.getD v ⟨0, 0, true⟩).masked then
    (s.modPcie fun p => { p with msixPend := setDel v p.msixPend }).msix v
  else s

def State.unmask (v : Nat) (s : State) : State :=
  (s.modPcie fun p => { p with msix := modAt v (fun e => { e with masked := false }) p.msix }).sendPending v

/-! ## BW_BASE (R352, R411; log 16) -/

/-- Address bits [40:21]. -/
def baseBits (v : Nat) : Nat := v / 2097152 % 1048576 * 2097152

def State.bwWrite (v : Nat) (s : State) : State := s.modPcie fun p => { p with bwWritten := some (baseBits v) }

/-- A read of BAR0: what it returns, and the violation of class 1 of a size or an alignment that is not allowed (R351). BW_BASE has the
only row that reads BAR0, because no other read has an effect (log 46). -/
def State.bar0Load (o size : Nat) (s : State) : Nat × State :=
  (s.bar0Read o size, if sizeFits o size then s else s.violation 1 none 0 0 o)

/-- A read of BW_BASE returns it, and the base applies from then on. -/
def State.bwRead (s : State) : State :=
  let r := s.bar0Load 0x700000 8
  (r.2.emit (.bar0Return 0x700000 r.1)).modPcie fun p => { p with bwBase := p.bwWritten.getD p.bwBase, bwWritten := none }

/-- The base that an access uses: either of two between a write and its read-back. -/
def State.window (s : State) : Nat :=
  match s.pcie.bwWritten with
  | none => s.pcie.bwBase
  | some b => if Config.bwEither s.freeCtr then b else s.pcie.bwBase

/-- The free choice of one access is used. -/
def State.windowUsed (s : State) : State := if s.pcie.bwWritten.isSome then s.takeFree.2 else s

/-! ## BAR0 writes (R351) -/

/-- Bits that an access reaches replace those of a word. -/
def merged (o size value old : Nat) : Nat :=
  let low := 2 ^ (8 * (o % 8))
  let top := 2 ^ (8 * (o % 8) + 8 * size)
  old % low + spread o size value + old / top * top

def State.writeHm (o size value : Nat) (s : State) : State :=
  let w := spread o size value
  let s := if !reaches o size 0 then s else if bit w 0 then s.freeze else s.unfreeze
  if reaches o size 16 && w / 65536 % 65536 = 0xD1A0 then s.requestReset else s

def State.writeMsix (o size value : Nat) (s : State) : State :=
  let v := (o - 0x28000) / 16
  let e := s.pcie.msix.getD v ⟨0, 0, true⟩
  let w := merged o size value (s.msixWord (o - o % 8))
  let e' : MsixEntry := if o % 16 < 8 then { e with addr := w } else { e with data := w % 2 ^ 32, masked := bit w 32 }
  (s.modPcie fun p => { p with msix := modAt v (fun _ => e') p.msix }).sendPending v

def State.writeQueue (o size value : Nat) (s : State) : State :=
  let sub := o < 0x40400
  let q := if sub then (o - 0x40000) / 0x40 else (o - 0x40400) / 0x40
  let k := o % 0x40
  let w := merged o size value (s.queueWord (o - o % 8))
  if k < 8 then (if sub then s.sqBase q w else s.cqBase q w)
  else if !reaches o size 0 || 16 ≤ k then s
  else if sub then s.sqCtrl q (bit w 0) (w / 256 % 16) (w / 4096 % 16)
  else s.cqCtrl q (bit w 0) (bit w 1) (w / 256 % 64) (w / 65536 % 16)

/-- A write that reaches a register: a register that software may not write, and an offset without one, discard it. The tail
doorbells have their own row, which brings the entries. -/
def State.writeReg (o size value : Nat) (s : State) : State :=
  let a := o - o % 8
  let w := spread o size value
  if a = 0x48 then s.writeHm o size value
  else if a = 0x10000 then (if reaches o size 0 then s.evCtrl (bit w 0) (w / 256 % 64) (BitVec.ofNat 9 (w / 65536)) else s)
  else if a = 0x10010 then (if reaches o size 0 then s.evAck (w % 4294967296) else s)
  else if a = 0x10020 ∨ (0x180000 ≤ a ∧ a < 0x182000) ∨ a = 0x500028 ∨ (0x1000000 ≤ a ∧ a < 0x1100000 ∧ a % 0x1000 = 0x18) then
    s.clearSats o size value
  else if 0x20000 ≤ a ∧ a < 0x20100 ∧ a % 16 = 8 then (if reaches o size 0 then s.ringHead ((a - 0x20000) / 16) (w % 65536) else s)
  else if 0x28000 ≤ a ∧ a < 0x28400 then s.writeMsix o size value
  else if 0x40000 ≤ a ∧ a < 0x40800 then s.writeQueue o size value
  else if a = 0x400060 then s.modSnap fun x => { x with hostBase := merged o size value x.hostBase / 64 * 64 }
  else if a = 0x400068 then s.modSnap fun x => { x with hostLen := merged o size value x.hostLen }
  else if a = 0x700000 then s.bwWrite (merged o size value (s.pcie.bwWritten.getD s.pcie.bwBase))
  else s

/-- A BAR0 write: a size or an alignment that is not allowed is a violation of class 1. -/
def State.bar0Write (o size value : Nat) (s : State) : State :=
  if sizeFits o size then s.writeReg o size value else s.violation 1 none 0 0 o

/-! ## BAR2 (R213, R215, R346, R352; logs 33 and 36) -/

/-- Whether the host may reach a byte range: one page of one class; a write to class 1 or 2 only in CONFIGURED. -/
def State.hostMay (s : State) (write : Bool) (a n : Nat) : Bool :=
  let k := s.mem.classOf (a / pageSize)
  a + n ≤ Config.memoryEnd && !inDeviceRegion a && (k == 3 || ((k == 1 || k == 2) && (!write || s.mode == .configured)))

/-- A refused access: its address is kept, and the class 2 violation raised. -/
def State.bar2Refused (a : Nat) (s : State) : State :=
  (s.modPcie fun p => { p with bwRefused := a }).violation 2 none 0 0 a

def State.bar2Read (o n : Nat) (hits : List ScrubHit) (s : State) : State :=
  let a := s.window + o
  let s := s.windowUsed
  if !s.hostMay false a n then (s.emit (.readReturn o (zeros n) false)).bar2Refused a
  else
    let s := s.eccLines a n hits
    s.emit (.readReturn o (s.view.raw a n) (s.view.isPoisoned a n))

/-- Whether a range touches one of some arrays of the trained weights, dealt by 2,048 bytes a tile. -/
def Table.touchesAny (t : Table) (bases : Bytes → List Nat) (a n : Nat) : Bool :=
  t.tensors.any fun x => tTrained x && (bases x).any fun b =>
    b != noAddr && (dealtRanges b (tTiles x) 2048).any fun r => r.1 < a + n && a < r.1 + r.2

/-- Whether a range touches the masters or moments of a trained weight. -/
def Table.touchesMasters (t : Table) (a n : Nat) : Bool := t.touchesAny (fun x => [tMaster x, tM1 x, tM2 x]) a n

/-- Whether a range touches the moments of a trained weight. -/
def Table.touchesMoments (t : Table) (a n : Nat) : Bool := t.touchesAny (fun x => [tM1 x, tM2 x]) a n

/-- Masters and moments imported from the host come without a record (R346, R69). Under a table with no committed step, masters alone are
the first weights of a new job and keep the initial history of SCALE_POLICY; moments are a state from elsewhere (DESIGN CHOICE,
log 89). -/
def State.hostImport (a n : Nat) (s : State) : State :=
  match s.job.table with
  | none => s
  | some t =>
    if s.job.historyLost || !(if s.job.committed.isNone then t.touchesMoments a n else t.touchesMasters a n) then s
    else (s.modJob fun j => { j with scale := j.scale.lost t.initialLambda, historyLost := true }).raiseModule 0x0402 [(0x20, 1, 3)]

def State.bar2Write (o : Nat) (d : Bytes) (s : State) : State :=
  let a := s.window + o
  let s := s.windowUsed
  if d.isEmpty then s
  else if !s.hostMay true a d.length then s.bar2Refused a
  else (s.memWrite a d).hostImport a d.length

/-! ## DOE (R460; log 18) -/

/-- The answer of the attestation object. -/
def State.doeAnswer (s : State) (b : Bytes) : Bytes :=
  if b.length != 36 || !zeroAt b 1 3 then [0xFF]
  else if fld b 0 1 = 1 then s.report (slice b 4 32)
  else if fld b 0 1 = 2 then identityBlock
  else if fld b 0 1 = 3 then endorsement
  else [0xFF]

/-- The DOE Busy bit, which the mailbox holds set in STANDBY and BOOTING (R460). -/
def State.doeBusy (s : State) : Bool := !s.mode.answers

/-- Object 0 is DOE Discovery, object 1 the attestation exchange; no other has an answer. A busy mailbox takes no request. -/
def State.doe (object : Nat) (b : Bytes) (s : State) : State :=
  if !s.hostReaches || s.doeBusy then s
  else if object = 0 then s.emit (.doe (Config.doeDiscovery b))
  else if object = 1 then s.emit (.doe (s.doeAnswer b))
  else s

/-! ## DMA errors (R369, R379) -/

/-- The command completes with ABORTED: a run ends without its step, a drain to the host is abandoned (log 36). -/
def State.dmaAbort (sq cid addr : Nat) (s : State) : State :=
  match s.cmd? sq cid with
  | none => s
  | some c =>
    let s := s.violation 7 (some sq) c.op cid addr
    if c.isOp opRun && c.started then s.abandonAttempt.rest .aborted true
    else if c.isOp opSnapshot && s.snap.serving.contains ⟨sq, cid⟩ then (s.finishCmd c .aborted s.snap.number 0).abandonSnapshot
    else if c.isOp opServe then
      let r := s.serveResult c
      (s.modRun fun r => { r with serves := r.serves.filter fun x => !(x.sq == sq && x.cid == cid) }).finishCmd c .aborted r.1 r.2
    else s.finishCmd c .aborted 0 0

/-- A batch that cannot be read: its sample group takes NaR, and the step of a group that has started is skipped. -/
def State.dmaBatch (step group addr : Nat) (s : State) : State :=
  if !(s.job.batches.any fun b => b.step == step && b.group == group) then s
  else
    let s := (s.violation 7 none 0 0 addr).modJob fun j =>
      { j with batches := j.batches.map fun b => if b.step = step && b.group = group then { b with bad := true } else b }
    if step = s.job.step && s.run.groups.any fun g => g.group == group && g.started then s.modRun fun r => { r with stepNar := true } else s

/-! ## The rows -/

def execEvAck (seq : Nat) (s : State) : Host.Outcome State Fault Refusal := s.onWrite (State.evAck seq)
def execEvCtrlIntEn (vector : Nat) (alertMask : BitVec 9) (s : State) : Host.Outcome State Fault Refusal :=
  s.onWrite (State.evCtrl true vector alertMask)
def execSatBitClear (offset size mask : Nat) (s : State) : Host.Outcome State Fault Refusal :=
  s.onWrite fun s => if sizeFits offset size then s.clearSats offset size mask else s.violation 1 none 0 0 offset
def execResetKey (s : State) : Host.Outcome State Fault Refusal := s.onWrite State.requestReset
def execTelemetryFreezeSet (s : State) : Host.Outcome State Fault Refusal := s.onWrite State.freeze
def execTelemetryFreezeClear (s : State) : Host.Outcome State Fault Refusal := s.onWrite State.unfreeze
def execBwBaseWrite (value : Nat) (s : State) : Host.Outcome State Fault Refusal := s.onWrite (State.bwWrite value)
def execBwBaseRead (s : State) : Host.Outcome State Fault Refusal := .next (if s.hostReaches then s.bwRead else s)
def execMsixVectorUnmask (v : Nat) (s : State) : Host.Outcome State Fault Refusal := s.onWrite (State.unmask v)
def execRegisterWrite (offset size value : Nat) (s : State) : Host.Outcome State Fault Refusal :=
  s.onWrite (State.bar0Write offset size value)
def execBar2Read (offset len : Nat) (hits : List ScrubHit) (s : State) : Host.Outcome State Fault Refusal :=
  .next (if s.hostReaches then (s.bar2Read offset len hits).settleReset else s)
def execBar2Write (offset : Nat) (data : Bytes) (s : State) : Host.Outcome State Fault Refusal :=
  .next (if s.hostReaches then s.bar2Write offset data else s)
/-- Amrath serves the interface, so it answers while 50 V is present (R434). -/
def execI3cPointerWrite (pointer : Nat) (s : State) : Host.Outcome State Fault Refusal :=
  .next (if s.power.present then s.modPcie fun p => { p with i3cPtr := pointer % 65536 } else s)
def execDoeRequest (object : Nat) (payload : Bytes) (s : State) : Host.Outcome State Fault Refusal := .next (s.doe object payload)
def execDmaErrorCompletion (target : DmaTarget) (address : Nat) (s : State) : Host.Outcome State Fault Refusal :=
  .next (match target with
    | .command sq cid => s.dmaAbort sq cid address
    | .batch step group => s.dmaBatch step group address)

end Sys2Proof.Machine
end

