-- ==== Sys2Proof/Machine/ResetCmds.lean ====
section
/-! DEFINITION. RESET_N, PERST#, Bus Master Enable and the resets of the function (spec/12, R350, R380; spec/13, R382, R386;
spec/14, R433, R435; spec/15, R441, R443; log 3). -/

namespace Sys2Proof.Machine

/-! ## RESET_N (R433, R443) -/

/-- RESET_N low requests a module reset and holds the module in it. -/
def State.resetNLow (s : State) : State :=
  if !s.power.present then s
  else
    let s := s.modPower fun p => { p with resetLow := true }
    if s.takesReset then s.requestReset else s

/-- RESET_N is released: a module held before row 4 goes on to INERT. -/
def State.resetNRelease (failed : List Nat) (s : State) : State :=
  let s := s.modPower fun p => { p with resetLow := false }
  if s.mode == .booting then s.finishBoot failed else s

/-! ## The function (R350, R380, R382, R435) -/

def State.busMasterOff (s : State) : State := if s.pcie.busMaster then s.hostGone.settleReset else s

/-- Bus Master Enable is set: pending vectors that are not masked send their messages. -/
def State.busMasterOn (s : State) : State :=
  if !s.hostReaches || s.pcie.busMaster then s
  else (List.range 64).foldl (fun s v => s.sendPending v) (s.modPcie fun p => { p with busMaster := true })

def State.flr (s : State) : State := if s.hostReaches then s.functionReset.settleReset else s

/-- PERST# resets the PCIe domain: the effects of R380 on a Function Level Reset, and nothing else. -/
def State.perstOn (s : State) : State :=
  let s := s.modPcie fun p => { p with perst := true, config := PciConfig.reset }
  if s.mode == .standby then s else s.hostGone.resetQueues.settleReset

/-- PERST# is released: the link trains where the PCIe domain is on (R435, R441). -/
def State.perstOff (s : State) : State :=
  let t := s.modPcie fun p => { p with perst := false }
  if !s.pcie.perst || s.mode == .standby then t else t.trainLink

/-! ## The rows -/

def execResetNLow (s : State) : Host.Outcome State Fault Refusal := .next s.resetNLow
def execResetNRelease (failedStalls : List Nat) (s : State) : Host.Outcome State Fault Refusal := .next (s.resetNRelease failedStalls)
def execBusMasterDisable (s : State) : Host.Outcome State Fault Refusal := .next s.busMasterOff
def execBusMasterEnable (s : State) : Host.Outcome State Fault Refusal := .next s.busMasterOn
def execFunctionLevelReset (s : State) : Host.Outcome State Fault Refusal := .next s.flr
def execD3hotToD0 (s : State) : Host.Outcome State Fault Refusal := .next s.flr
def execPerstAssert (s : State) : Host.Outcome State Fault Refusal := .next s.perstOn
def execPerstDeassert (s : State) : Host.Outcome State Fault Refusal := .next s.perstOff

end Sys2Proof.Machine
end

