-- ==== Sys2Proof/Machine/HarbourCmds.lean ====
section
/-! DEFINITION. What a harbour brings: control records, bucket frames, census parts and the waits for them (spec/10, R298, R303,
R310 to R317; logs 2 and 32). -/

namespace Sys2Proof.Machine

/-- A record of `n` flits heard on a port that is up; what follows may end a run. -/
def State.onPort (port n : Nat) (f : State → State) (s : State) : State :=
  if (s.port port).up then (f (s.heard port n)).settleReset else s

/-- A bucket frame under the active table. -/
def State.takeFrame (port : Nat) (fr : BucketFrame) (s : State) : State :=
  match s.job.table with
  | none => s
  | some t => (s.frameIn t port fr).tryClose

def State.lateMember (suspect waited : Nat) (s : State) : State :=
  match s.job.table with
  | none => s
  | some t => (s.bucketLate t suspect waited).settleReset

/-- The join allowance runs out while the module is joining. -/
def State.allowanceEnds (s : State) : State := if s.harbour.joining.isSome then s.joinExpired else s

def execHello (port : Nat) (h : Hello) (s : State) : Host.Outcome State Fault Refusal := .next (s.helloIn port h).settleReset
def execProgress (port : Nat) (r : Progress) (s : State) : Host.Outcome State Fault Refusal := .next (s.progressIn port r)
def execProgressSend (s : State) : Host.Outcome State Fault Refusal := .next s.progressSend
def execEject (port : Nat) (r : EjectRec) (s : State) : Host.Outcome State Fault Refusal := .next (s.onPort port 1 (State.ejectIn r))
def execFault (port : Nat) (r : FaultRec) (s : State) : Host.Outcome State Fault Refusal := .next (s.onPort port 1 (State.faultIn r))
def execLeave (port rank : Nat) (s : State) : Host.Outcome State Fault Refusal := .next (s.onPort port 1 (State.leaveIn rank))
def execBucketFrame (port : Nat) (fr : BucketFrame) (s : State) : Host.Outcome State Fault Refusal :=
  .next (s.onPort port (LinkMsg.frame fr).bodies.length (State.takeFrame port fr))
def execCensusPart (port : Nat) (p : CensusPart) (s : State) : Host.Outcome State Fault Refusal :=
  .next (s.onPort port (LinkMsg.census p).bodies.length (State.censusIn port p))
def execCensusViewTimeout (rank : Nat) (s : State) : Host.Outcome State Fault Refusal := .next (s.viewTimeout rank).settleReset
def execBucketLate (suspect waitedUs : Nat) (s : State) : Host.Outcome State Fault Refusal := .next (s.lateMember suspect waitedUs)
def execJoinAllowanceExpiry (s : State) : Host.Outcome State Fault Refusal := .next s.allowanceEnds

end Sys2Proof.Machine
end

