-- ==== Sys2Proof/Machine/SurvivalCmds.lean ====
section
/-! DEFINITION. Journal writes, mirrors, snapshots and restores as events (spec/11, R329 to R332, R338, R341, R343; spec/07, R214;
logs 2 and 33). -/

namespace Sys2Proof.Machine

/-- What follows when nothing holds the commit back any more. -/
def State.afterWrite (s : State) : State := s.tryCommit.tryClose.settleReset

/-- Partner traffic heard on a port: its flits and bytes (Table 13.12). -/
def State.onPartner (port kind bytes : Nat) (f : State → State) (s : State) : State :=
  s.onPort port (messageFlits ((Config.partnerHead kind bytes).length + bytes)) fun s => f (s.count (tlAt port tlPartnerBytes) bytes)

/-! ## Journal (R329 to R332) -/

/-- The local write of the commit has finished. -/
def State.localWritten (s : State) : State :=
  match s.job.table, s.journal.commit with
  | some t, some c =>
    if c.flashDone then s
    else ((s.appendOwn t c.records).modJournal fun j => { j with commit := some { c with flashDone := true } }).afterWrite
  | _, _ => s

/-- Flash that fails: a module fault where a job exists. -/
def State.flashFails (s : State) : State :=
  if s.mode.jobState || s.mode == .quarantined then s.flashFault.settleReset else s.modJournal fun j => { j with flashOk := false }

def State.compactNow (partner : Bool) (s : State) : State :=
  match s.job.table with
  | none => s
  | some t =>
    let due := if partner then s.partnerExtent != 0 && compactDue t (s.partnerExtent * mib - journalUsed s.journal.partner) else s.journal.compacting
    if due then s.compact t partner else s

/-! ## Snapshots (R214, R338) -/

/-- The drain's destination takes data. -/
def State.drainOpen (s : State) : Bool :=
  match s.snap.dest with
  | .host _ _ _ _ => s.pcie.busMaster
  | _ => match s.drainPort with | none => false | some p => (s.port p).up

def State.drainFragment (q : Nat) (s : State) : State :=
  match s.nextFragment q with
  | none => s
  | some page => if s.snap.draining && s.drainOpen then (s.takeFragment q page).afterWrite else s

/-! ## Restores (R341, R343) -/

/-- No HELLO of the partner within 100 ms of training. -/
def State.helloTimeout (s : State) : State :=
  match s.harbour.restore with
  | none => s
  | some r => if r.greeted then s else s.failRestore r .aborted

/-- The partner message that brings a payload of a restore. -/
def transferMsg : StatePayload → PartnerMsg
  | .image b => .image b
  | .fragment page quay digest d => .transfer page quay digest d
  | .donorRecord b => .donorRecord b
  | .g16 step bucket first vs => .forwardG16 step bucket first vs
  | .stats step es => .forwardStats step es
  | .refusedByDonor => .refused

/-- The partner message that brings a piece of a snapshot. -/
def pieceMsg : SnapPiece → PartnerMsg
  | .fragment number step page quay digest d => .fragment number step page quay digest d
  | .record number r => .imageRecord number r
  | .header h => .imageHeader h

def State.takeTransfer (port : Nat) (p : StatePayload) (s : State) : State :=
  match s.job.table with
  | none => s
  | some t => s.transferIn t port p

/-! ## The rows -/

def execRestoreHelloTimeout (s : State) : Host.Outcome State Fault Refusal := .next s.helloTimeout
def execJournalMirrorReceived (port : Nat) (record : Bytes) (s : State) : Host.Outcome State Fault Refusal :=
  .next (s.onPartner port 0 record.length (State.mirrorIn port record))
def execMirrorAck (port seq : Nat) (s : State) : Host.Outcome State Fault Refusal :=
  .next (s.onPartner port 1 8 fun s => (s.mirrorAckIn port seq).afterWrite)
def execMirrorAckTimeout (s : State) : Host.Outcome State Fault Refusal := .next s.mirrorTimeout.afterWrite
def execSnapshotFragmentReceived (port number step page quay digest : Nat) (data : PieceData) (s : State) :
    Host.Outcome State Fault Refusal :=
  let p := pieceOf number step page quay digest data
  .next (s.onPartner port (pieceMsg p).kind (pieceMsg p).bytes (State.storePiece port p))
def execStateTransferReceived (port : Nat) (p : StatePayload) (s : State) : Host.Outcome State Fault Refusal :=
  .next (s.onPartner port (transferMsg p).kind (transferMsg p).bytes (State.takeTransfer port p))
def execJournalWriteComplete (s : State) : Host.Outcome State Fault Refusal := .next s.localWritten
def execFlashTimeout (s : State) : Host.Outcome State Fault Refusal := .next s.flashFails
def execJournalCompacted (partner : Bool) (s : State) : Host.Outcome State Fault Refusal := .next (s.compactNow partner)
def execSnapshotDrainFragment (quay : Nat) (s : State) : Host.Outcome State Fault Refusal := .next (s.drainFragment quay)

end Sys2Proof.Machine
end

