-- ==== Sys2Proof/Machine/QuayCmds.lean ====
section
/-! DEFINITION. Requests at the quays, atomic adds, the scrub, the stash packer and waiting writes (spec/07, R187, R193 to R202,
R211 to R216; spec/04, R130 to R132; logs 2 and 5). -/

namespace Sys2Proof.Machine

/-- The tensor that a request names. -/
def State.tensorNamed (s : State) (n : Option Nat) : Option Bytes :=
  match s.job.table, n with
  | some t, some n => t.tensor? n
  | _, _ => none

/-- A read served: the code of its lines, the bytes as every earlier write has left them, and the elements that the load path
delivers. -/
def State.quayRead (src : Source) (a n : Nat) (tensor : Option Nat) (hits : List ScrubHit) (s : State) : State :=
  s.guarded src [(false, a, n)] fun s =>
    let s := (s.eccLines a n hits).count (tpAt (s.pileOf a) 0x00) n
    let d := s.view.raw a n
    let codes := match s.tensorNamed tensor with | none => [] | some x => loadCodes x s.view a n
    s.emit (.quayReturn a d codes)

/-- A write served: the store path's bytes, behind a first touch where the fragment is pending. -/
def State.quayWrite (src : Source) (a : Nat) (tensor : Option Nat) (data : Bytes) (wide : Bool) (hits : List ScrubHit) (s : State) :
    State :=
  let o := match s.tensorNamed tensor with | none => (data, TensorStat.empty) | some x => storeBytes x wide data
  s.guarded src [(true, a, o.1.length)] fun s =>
    let s := (s.eccLines a o.1.length hits).memWrite a o.1
    match s.tensorNamed tensor with
    | none => s
    | some x => if (tFmt x).isPublic then s.storeReport a 0xFFFFFFFF 0 0 x o.2 else s

/-- An add of the step and attempt in progress reaches its region; one of another is discarded (R133, R304). -/
def State.addIn (record inst loc step attempt : Nat) (c : Contribution) (s : State) : State :=
  match s.job.table with
  | none => s
  | some t =>
    if !s.tidesRun || step != s.job.step || attempt != s.job.attempt || rKind (t.tide record) != .regionOpen
        || gLocs (t.tide record) ≤ loc then s
    else s.regionAdd t record inst loc c

/-- The answers of a scrub of one pile. -/
def State.scrub (pile : Nat) (hits : List ScrubHit) (s : State) : State :=
  if !s.powered (quayDomain pile) then s
  else
    let s := (hits.filter fun h => s.pileOf (64 * h.line) == pile).foldl (fun s h => s.ecc h.line h.errors) s
    (s.count (tpAt pile 0x28) 1).settleReset

/-- One L4 block of a stash entry, once for each token block and feature of a started group. -/
def State.packBlock (entry group tb f : Nat) (s : State) : State :=
  match s.job.table with
  | none => s
  | some t => match (t.recs secShoal 2)[entry]?, s.run.groups.find? fun g => g.group == group with
    | some e, some g =>
      if !s.tidesRun || !g.started || g.recompute || ceilDiv (t.entryRows e g.tokens) 32 ≤ tb
          || s.run.packed.contains (entry, g.place, tb, f) then s
      else
        (s.packStash ⟨t, (t.inRange 1).headD 0, g.place⟩ e tb f).modRun fun r => { r with packed := r.packed ++ [(entry, g.place, tb, f)] }
    | _, _ => s

/-! ## The rows -/

/-- A request beyond the last byte of module memory has no pile. -/
def inMemory (a n : Nat) (s : State) (f : State → State) : Host.Outcome State Fault Refusal :=
  if Config.memoryEnd < a + max 1 n then .fault (.noSuchAddress a) else .next (f s)

def execQuayRead (src : Source) (addr len : Nat) (tensor : Option Nat) (hits : List ScrubHit) (s : State) :
    Host.Outcome State Fault Refusal :=
  inMemory addr len s fun s => (s.quayRead src addr len tensor hits).settleReset
def execQuayWrite (src : Source) (addr : Nat) (tensor : Option Nat) (data : StoreData) (hits : List ScrubHit) (s : State) :
    Host.Outcome State Fault Refusal :=
  inMemory addr data.bytes.length s fun s => (s.quayWrite src addr tensor data.bytes data.wide hits).settleReset
def execAtomicAdd (record inst location step attempt : Nat) (c : Contribution) (s : State) : Host.Outcome State Fault Refusal :=
  .next (s.addIn record inst location step attempt c)
def execPatrolScrub (pile : Nat) (hits : List ScrubHit) (s : State) : Host.Outcome State Fault Refusal := .next (s.scrub pile hits)
def execRefresh (_pile : Nat) (s : State) : Host.Outcome State Fault Refusal := .next s
def execStashBlockPack (entry group tokenBlock feature : Nat) (s : State) : Host.Outcome State Fault Refusal :=
  .next (s.packBlock entry group tokenBlock feature)
def execBreakwaterStall (quay : Nat) (s : State) : Host.Outcome State Fault Refusal := .next (s.resumeQuay quay).afterWrite

end Sys2Proof.Machine
end

