-- ==== Sys2Proof/Machine/TideCmds.lean ====
section
/-! DEFINITION. The tide sequencer's events: issue, start, completion, planes, deadlocks and regions (spec/08, R240; spec/06, R165;
spec/03, R74, R80; spec/04, R130, R137, R138; logs 2 and 15). -/

namespace Sys2Proof.Machine

/-- What an event of the tides does under the active table, while tides run. -/
def State.onTides (f : Table → State → State) (s : State) : State :=
  match s.job.table with
  | none => s
  | some t => if s.tidesRun then f t s else s

def State.issueNext (i : Nat) (t : Table) (s : State) : State :=
  match s.nextIssue t i with
  | none => s
  | some u => s.setTide u.tide u.inst .issued

/-- The code of each word of a stall's store (R74): a corrected bit is counted and raised, two are a module fault. -/
def State.storeEcc (i : Nat) (o : EccOutcome) (off : Nat) (s : State) : State :=
  match o with
  | .clean => s
  | .corrected => (s.count (stAt i 0x148) 1).raise 0x0204 srcStall i [(0x20, 1, 0xFF), (0x28, 8, off)]
  | .uncorrectable => (s.raise 0x0205 srcStall i [(0x20, 1, 0xFF), (0x28, 8, off)]).moduleFault

/-- The earliest ready tide of a stall starts. -/
def State.startNext (i : Nat) (ecc : EccOutcome) (off : Nat) (t : Table) (s : State) : State :=
  let s := s.conflicts t i
  match s.nextStart t i with
  | none => s
  | some u => if ecc = .uncorrectable then s.storeEcc i ecc off else (s.storeEcc i ecc off).startTide u

/-- A PRODUCT has passes to make. -/
def State.passesDue (s : State) (t : Table) (record : Nat) : Bool :=
  rKind (t.tide record) == .product && (s.stall (rStall (t.tide record))).passesLeft != 0

/-- A started tide of a stall completes, a PRODUCT once it has made its passes; a host layer's completes with its result. -/
def State.finishTide (record inst : Nat) (t : Table) (s : State) : State :=
  if s.tideStatus? record inst != some .started || rKind (t.tide record) == .hostLayer || s.passesDue t record then s
  else s.completeTide ⟨t, record, inst⟩

/-- The record that keeps a waiting tide from its tile. -/
def State.tileHolder (s : State) (u : Tide) : Nat :=
  match s.blocker u with
  | some x => x.tide
  | none => tileOwner u.idx u.bytes

/-- A tide has waited 10 ms for its tile alone, or, a closer, for its uses (R138). -/
def State.deadlock (i record inst : Nat) (t : Table) (s : State) : State :=
  match (s.issuedOf t i).find? fun u => u.idx == record && u.inst == inst with
  | none => s
  | some u =>
    if if s.closerWaits u then s.depsDone u && s.tileUsable u else !s.otherwiseReady u || s.tileUsable u then s
    else
      (s.raise 0x0206 srcStall i [(0x20, 1, u.tileByte), (0x24, 4, record), (0x28, 4, s.tileHolder u), (0x30, 8, 10000)]).moduleFault

/-- A REGION_OPEN whose dependencies have completed opens its region. -/
def State.openNow (record inst : Nat) (t : Table) (s : State) : State :=
  if s.tideStatus? record inst != some .waiting || rKind (t.tide record) != .regionOpen || !s.depsDone ⟨t, record, inst⟩ then s
  else (s.openRegion t record inst).tideDone t record inst

/-! ## The rows -/

def execTideIssue (stall : Nat) (s : State) : Host.Outcome State Fault Refusal := .next (s.onTides (State.issueNext stall))
def execTideStart (stall : Nat) (ecc : EccOutcome) (offset : Nat) (s : State) : Host.Outcome State Fault Refusal :=
  .next (s.onTides (State.startNext stall ecc offset)).settleReset
def execTideComplete (record inst : Nat) (s : State) : Host.Outcome State Fault Refusal := .next (s.onTides (State.finishTide record inst))
/-- The idle plane of a stall has its slice, as the plane port read it from the store (R74, R80). -/
def State.loadedPlane (l : PlaneLoad) (t : Table) (s : State) : State :=
  if l.ecc = .uncorrectable then s.storeEcc l.stall l.ecc l.offset else (s.storeEcc l.stall l.ecc l.offset).planeLoaded l.stall t

def execWeightPlaneLoadComplete (load : PlaneLoad) (s : State) : Host.Outcome State Fault Refusal :=
  .next (s.onTides (State.loadedPlane load)).settleReset
def execTileDeadlock (stall record inst : Nat) (s : State) : Host.Outcome State Fault Refusal :=
  .next (s.onTides (State.deadlock stall record inst)).settleReset
def execRegionOpen (record inst : Nat) (s : State) : Host.Outcome State Fault Refusal := .next (s.onTides (State.openNow record inst))

end Sys2Proof.Machine
end

