-- ==== Sys2Proof/Machine/RunCmds.lean ====
section
/-! DEFINITION. Sample groups, host layers, buckets, slack water and the boundaries of a serving run (spec/06, R158, R171, R179 to
R184; spec/10, R301; spec/12, R371 to R375; logs 13 and 38). -/

namespace Sys2Proof.Machine

/-! ## Serving (R181 to R184, R371 to R373) -/

/-- Chunks of a request's prompt. -/
def ServeReq.promptChunks (r : ServeReq) (t : Table) : Nat := ceilDiv r.prompt.length (max 1 t.chunk)

/-- The request takes part in the decode step that has just run. -/
def ServeReq.decoding (r : ServeReq) (t : Table) : Bool := r.slot.isSome && r.promptChunks t < r.chunks

/-- The highest logit, the lower token first among equals. -/
def greedy (vs : List Val) : Nat := match (topK 1 vs).head? with | none => 0 | some p => p.1

/-- The stream of the logits tensor's policy (R268). The spec names no field for the logits tensor: its number is a free value
(log 13). -/
def Table.sampleStream (t : Table) : Nat := t.stream (Config.logitsTensor t.digest)

/-- The token of one position: NaR where a logit is NaR; greedy, or drawn with the request's seed and the position as the step. -/
def pickToken (t : Table) (c : Cmd) (r : ServeReq) (vs : List Val) : Nat :=
  if vs.any (·.isNar) then 0xFFFFFFFF
  else if !eSample c.entry then greedy vs
  else
    let u := draw (eSeed c.entry) (r.prompt.length + r.output.length) t.sampleStream (Config.sampleIndex t.sampleStream)
    Config.sampleToken (BitVec.ofNat 32 u) (vs.map (·.code))

/-- The logits of a slot, as the tides of the decode step that has just run wrote them: the slot's row of the logits tensor. -/
def State.logitsOf (s : State) (t : Table) (r : ServeReq) : List Val :=
  match t.tensor? (Config.logitsTensor t.digest), r.slot with
  | some x, some k => s.rowVals ⟨t, t.range2, s.run.decodes - 1⟩ x k 0 (tCols x)
  | _, _ => []

/-- A request ends at its stop token or after its tokens. -/
def ServeReq.ended (r : ServeReq) (c : Cmd) : Bool :=
  eTokens c.entry ≤ r.output.length || (r.output.getLast? == some (eStop c.entry) && eStop c.entry != 0xFFFFFFFF)

/-- One token generated: written to the output buffer, and the request completed where it ends. A request that met a conversion cliff
has NaR outputs (R59, log 74). -/
def State.takeToken (t : Table) (logits : List Val) (r : ServeReq) (s : State) : State :=
  match s.cmd? r.sq r.cid with
  | none => s
  | some c =>
    let v := if r.spoiled then 0xFFFFFFFF else pickToken t c r logits
    let r' := { r with output := r.output ++ [v], nar := r.nar || v == 0xFFFFFFFF }
    let s := ((s.emit (.hostWrite (eOutput c.entry + 4 * r.output.length) (toLe 4 v) false)).count (tmAt 0x70) 1).modRun fun x =>
      { x with serves := x.serves.map fun y => if y.sq = r.sq && y.cid = r.cid then r' else y }
    if r'.ended c then
      (s.finishServe c .ok).modRun fun x => { x with serves := x.serves.filter fun y => !(y.sq == r.sq && y.cid == r.cid) }
    else s

/-- The lowest free slot for each waiting request, in the order of acceptance. -/
def giveSlots (slots : Nat) : List ServeReq → List ServeReq → List ServeReq
  | done, [] => done
  | done, r :: rest =>
    let r' := if r.slot.isSome then r else
      { r with slot := (List.range slots).find? fun k => !((done ++ rest).any fun x => x.slot == some k) }
    giveSlots slots (done ++ [r']) rest

/-- The next cycle: a chunk for each request whose prompt is not done, and a decode step for the others. -/
def State.nextCycle (t : Table) (s : State) : State :=
  let l := giveSlots t.maxInst [] s.run.serves
  let prefill := l.filter fun r => r.slot.isSome && r.chunks < r.promptChunks t
  let decode := l.any fun r => r.slot.isSome && r.promptChunks t ≤ r.chunks
  let us := (prefill.flatMap fun r => (t.inRange 1).map fun i => (⟨i, 1024 * r.chunks + r.slot.getD 0, .waiting⟩ : TideInst))
    ++ (if decode then (t.inRange 2).map fun i => ⟨i, s.run.decodes, .waiting⟩ else [])
  let l := l.map fun r => if r.slot.isSome && r.chunks ≤ r.promptChunks t then { r with chunks := r.chunks + 1 } else r
  (s.modRun fun x =>
    { x with serves := l, decodes := if decode then x.decodes + 1 else x.decodes, admits := [], gated := [], rowParts := [],
             once := [], tides := (x.tides.filter fun u => t.rangeOf u.tide == 0) ++ us }).passBarriers t

/-- A decode-step boundary: every tide has completed, and each decoding slot has its token. A halt, a host that has gone, or the last
request ends the run. -/
def State.boundary (t : Table) (s : State) : State :=
  let dec := s.run.serves.filter fun r => r.decoding t
  if s.mode != .running || s.run.kind != .serving || !(s.run.tides.all fun u => u.status == .done) then s
  else
    let s := (dec.map fun r => (r, s.logitsOf t r)).foldl (fun s p => s.takeToken t p.2 p.1) s
    if s.run.closing || !(s.cmdsOf opHalt).isEmpty then s.endRun .aborted .configured
    else if s.run.serves.isEmpty then s.endRun .ok .configured
    else s.nextCycle t

/-! ## The rows -/

/-- What an event does under the active table. -/
def State.onTable (f : Table → State → State) (s : State) : State :=
  match s.job.table with
  | none => s
  | some t => (f t s).settleReset

def execGroupForwardStart (group : Nat) (s : State) : Host.Outcome State Fault Refusal :=
  .next (s.onTides fun t s => s.groupForward t group)
def execHostLayerRequest (record dir : Nat) (s : State) : Host.Outcome State Fault Refusal :=
  .next (s.onTides fun t s => s.hostRequest t record dir)
def execSlackWater (s : State) : Host.Outcome State Fault Refusal := .next (s.onTable State.slackWater)
def execBucketReduce (s : State) : Host.Outcome State Fault Refusal := .next (s.onTable State.reduceBucket)
/-- The boundary after a number of decode steps of the run. -/
def execDecodeStepBoundary (decodes : Nat) (s : State) : Host.Outcome State Fault Refusal :=
  .next (s.onTable fun t s => if s.run.decodes = decodes then s.boundary t else s)

end Sys2Proof.Machine
end

