-- ==== Sys2Proof/Machine/TestCmds.lean ====
section
/-! DEFINITION. The end of a self-test (spec/15, R463 to R467). -/

namespace Sys2Proof.Machine

def execTestComplete (responses : List (List (Nat × Nat))) (s : State) : Host.Outcome State Fault Refusal :=
  .next (s.testComplete responses).settleReset

end Sys2Proof.Machine
end

