-- ==== Sys2Proof/Machine/Dispatch.lean ====
section
/-! DEFINITION. The effect of every command on everything but the queue: one arm for each row of the operation table. -/

namespace Sys2Proof.Machine

/-- The effect of a command. -/
def exec (i : Instr) (s : State) : Host.Outcome State Fault Refusal :=
  match i with
  | .identify sq cid => Sys2Proof.Machine.execIdentify sq cid s
  | .loadTideTable sq cid data => Sys2Proof.Machine.execLoadTideTable sq cid data s
  | .unload sq cid => Sys2Proof.Machine.execUnload sq cid s
  | .feedTokenBatch sq cid data => Sys2Proof.Machine.execFeedTokenBatch sq cid data s
  | .feedHostLayerResult sq cid data => Sys2Proof.Machine.execFeedHostLayerResult sq cid data s
  | .runSteps sq cid => Sys2Proof.Machine.execRunSteps sq cid s
  | .serve sq cid prompt => Sys2Proof.Machine.execServe sq cid prompt s
  | .haltAtSlack sq cid => Sys2Proof.Machine.execHaltAtSlack sq cid s
  | .snapshot sq cid => Sys2Proof.Machine.execSnapshot sq cid s
  | .restoreFromImage sq cid data => Sys2Proof.Machine.execRestoreFromImage sq cid data s
  | .restoreFromPartnerStore sq cid => Sys2Proof.Machine.execRestoreFromPartnerStore sq cid s
  | .restoreFromReplica sq cid => Sys2Proof.Machine.execRestoreFromReplica sq cid s
  | .joinHarbour sq cid block => Sys2Proof.Machine.execJoinHarbour sq cid block s
  | .leaveHarbour sq cid => Sys2Proof.Machine.execLeaveHarbour sq cid s
  | .readTelemetry sq cid => Sys2Proof.Machine.execReadTelemetry sq cid s
  | .runTest sq cid => Sys2Proof.Machine.execRunTest sq cid s
  | .setPowerCap sq cid => Sys2Proof.Machine.execSetPowerCap sq cid s
  | .attest sq cid => Sys2Proof.Machine.execAttest sq cid s
  | .enrolKey sq cid data => Sys2Proof.Machine.execEnrolKey sq cid data s
  | .applyPatch sq cid data => Sys2Proof.Machine.execApplyPatch sq cid data s
  | .exportJournal sq cid => Sys2Proof.Machine.execExportJournal sq cid s
  | .sqTailDb q value placed => Sys2Proof.Machine.execSqTailDb q value placed s
  | .cqHeadDb q value => Sys2Proof.Machine.execCqHeadDb q value s
  | .cqHeldEntryPost q => Sys2Proof.Machine.execCqHeldEntryPost q s
  | .sqEnable q cq log2Entries => Sys2Proof.Machine.execSqEnable q cq log2Entries s
  | .sqDisable q cq log2Entries => Sys2Proof.Machine.execSqDisable q cq log2Entries s
  | .cqEnable q intEnable vector log2Entries => Sys2Proof.Machine.execCqEnable q intEnable vector log2Entries s
  | .cqDisable q intEnable vector log2Entries => Sys2Proof.Machine.execCqDisable q intEnable vector log2Entries s
  | .evAck seq => Sys2Proof.Machine.execEvAck seq s
  | .evCtrlIntEn vector alertMask => Sys2Proof.Machine.execEvCtrlIntEn vector alertMask s
  | .satBitClear offset size mask => Sys2Proof.Machine.execSatBitClear offset size mask s
  | .resetKey => Sys2Proof.Machine.execResetKey s
  | .telemetryFreezeSet => Sys2Proof.Machine.execTelemetryFreezeSet s
  | .telemetryFreezeClear => Sys2Proof.Machine.execTelemetryFreezeClear s
  | .bwBaseWrite value => Sys2Proof.Machine.execBwBaseWrite value s
  | .bwBaseRead => Sys2Proof.Machine.execBwBaseRead s
  | .msixVectorUnmask v => Sys2Proof.Machine.execMsixVectorUnmask v s
  | .registerWrite offset size value => Sys2Proof.Machine.execRegisterWrite offset size value s
  | .bar2Read offset len hits => Sys2Proof.Machine.execBar2Read offset len hits s
  | .bar2Write offset data => Sys2Proof.Machine.execBar2Write offset data s
  | .i3cPointerWrite pointer => Sys2Proof.Machine.execI3cPointerWrite pointer s
  | .busMasterDisable => Sys2Proof.Machine.execBusMasterDisable s
  | .functionLevelReset => Sys2Proof.Machine.execFunctionLevelReset s
  | .d3hotToD0 => Sys2Proof.Machine.execD3hotToD0 s
  | .perstAssert => Sys2Proof.Machine.execPerstAssert s
  | .doeRequest object payload => Sys2Proof.Machine.execDoeRequest object payload s
  | .dmaErrorCompletion target address => Sys2Proof.Machine.execDmaErrorCompletion target address s
  | .powerApplied milliVolts straps => Sys2Proof.Machine.execPowerApplied milliVolts straps s
  | .bootStart milliVolts failedStalls => Sys2Proof.Machine.execBootStart milliVolts failedStalls s
  | .resetNLow => Sys2Proof.Machine.execResetNLow s
  | .resetNRelease failedStalls => Sys2Proof.Machine.execResetNRelease failedStalls s
  | .pwrEnLow => Sys2Proof.Machine.execPwrEnLow s
  | .inputUndervolt milliVolts => Sys2Proof.Machine.execInputUndervolt milliVolts s
  | .inputLockout milliVolts => Sys2Proof.Machine.execInputLockout milliVolts s
  | .inputOvervoltage milliVolts => Sys2Proof.Machine.execInputOvervoltage milliVolts s
  | .thermalStepDown pipeline => Sys2Proof.Machine.execThermalStepDown pipeline s
  | .thermalStepUp pipeline => Sys2Proof.Machine.execThermalStepUp pipeline s
  | .dramThermalHalve pile temp => Sys2Proof.Machine.execDramThermalHalve pile temp s
  | .thermalTripFault sensor temp => Sys2Proof.Machine.execThermalTripFault sensor temp s
  | .thermalTripAmrath sensor temp => Sys2Proof.Machine.execThermalTripAmrath sensor temp s
  | .clockLockLost island => Sys2Proof.Machine.execClockLockLost island s
  | .sensorRefresh r => Sys2Proof.Machine.execSensorRefresh r s
  | .deferredCapApply => Sys2Proof.Machine.execDeferredCapApply s
  | .flitError port codeword => Sys2Proof.Machine.execFlitError port codeword s
  | .replayTimeout port => Sys2Proof.Machine.execReplayTimeout port s
  | .nak port expected => Sys2Proof.Machine.execNak port expected s
  | .hello port h => Sys2Proof.Machine.execHello port h s
  | .progress port r => Sys2Proof.Machine.execProgress port r s
  | .progressSend => Sys2Proof.Machine.execProgressSend s
  | .eject port r => Sys2Proof.Machine.execEject port r s
  | .fault port r => Sys2Proof.Machine.execFault port r s
  | .leave port rank => Sys2Proof.Machine.execLeave port rank s
  | .unknownControlRecord port kind => Sys2Proof.Machine.execUnknownControlRecord port kind s
  | .bucketFrame port fr => Sys2Proof.Machine.execBucketFrame port fr s
  | .censusPart port p => Sys2Proof.Machine.execCensusPart port p s
  | .censusViewTimeout rank => Sys2Proof.Machine.execCensusViewTimeout rank s
  | .bucketLate suspect waitedUs => Sys2Proof.Machine.execBucketLate suspect waitedUs s
  | .portDown port loss => Sys2Proof.Machine.execPortDown port loss s
  | .portRetrainComplete port ok => Sys2Proof.Machine.execPortRetrainComplete port ok s
  | .joinAllowanceExpiry => Sys2Proof.Machine.execJoinAllowanceExpiry s
  | .restoreHelloTimeout => Sys2Proof.Machine.execRestoreHelloTimeout s
  | .journalMirrorReceived port record => Sys2Proof.Machine.execJournalMirrorReceived port record s
  | .mirrorAck port seq => Sys2Proof.Machine.execMirrorAck port seq s
  | .mirrorAckTimeout => Sys2Proof.Machine.execMirrorAckTimeout s
  | .snapshotFragmentReceived port number step page quay digest data => Sys2Proof.Machine.execSnapshotFragmentReceived port number step page quay digest data s
  | .stateTransferReceived port p => Sys2Proof.Machine.execStateTransferReceived port p s
  | .tideIssue stall => Sys2Proof.Machine.execTideIssue stall s
  | .tideStart stall ecc offset => Sys2Proof.Machine.execTideStart stall ecc offset s
  | .tideComplete record inst => Sys2Proof.Machine.execTideComplete record inst s
  | .weightPlaneLoadComplete stall => Sys2Proof.Machine.execWeightPlaneLoadComplete stall s
  | .tileDeadlock stall record inst => Sys2Proof.Machine.execTileDeadlock stall record inst s
  | .regionOpen record inst => Sys2Proof.Machine.execRegionOpen record inst s
  | .quayRead src addr len tensor hits => Sys2Proof.Machine.execQuayRead src addr len tensor hits s
  | .quayWrite src addr tensor data hits => Sys2Proof.Machine.execQuayWrite src addr tensor data hits s
  | .atomicAdd record inst location step attempt c => Sys2Proof.Machine.execAtomicAdd record inst location step attempt c s
  | .patrolScrub pile hits => Sys2Proof.Machine.execPatrolScrub pile hits s
  | .refresh pile => Sys2Proof.Machine.execRefresh pile s
  | .stashBlockPack entry group tokenBlock feature => Sys2Proof.Machine.execStashBlockPack entry group tokenBlock feature s
  | .groupForwardStart group => Sys2Proof.Machine.execGroupForwardStart group s
  | .hostLayerRequest record dir => Sys2Proof.Machine.execHostLayerRequest record dir s
  | .slackWater => Sys2Proof.Machine.execSlackWater s
  | .bucketReduce => Sys2Proof.Machine.execBucketReduce s
  | .journalWriteComplete => Sys2Proof.Machine.execJournalWriteComplete s
  | .flashTimeout => Sys2Proof.Machine.execFlashTimeout s
  | .journalCompacted partner => Sys2Proof.Machine.execJournalCompacted partner s
  | .snapshotDrainFragment quay => Sys2Proof.Machine.execSnapshotDrainFragment quay s
  | .breakwaterStall quay => Sys2Proof.Machine.execBreakwaterStall quay s
  | .decodeStepBoundary decodes => Sys2Proof.Machine.execDecodeStepBoundary decodes s
  | .testComplete responses => Sys2Proof.Machine.execTestComplete responses s
  | .portTrained port => Sys2Proof.Machine.execPortTrained port s
  | .flitAcknowledgement port symbols checks => Sys2Proof.Machine.execFlitAcknowledgement port symbols checks s
  | .perstDeassert => Sys2Proof.Machine.execPerstDeassert s
  | .busMasterEnable => Sys2Proof.Machine.execBusMasterEnable s
  | .inputUndervoltClear milliVolts => Sys2Proof.Machine.execInputUndervoltClear milliVolts s
  | .dramThermalHalveEnd pile => Sys2Proof.Machine.execDramThermalHalveEnd pile s
  | .powerRemoved => Sys2Proof.Machine.execPowerRemoved s
  | .dvfsRailSettled stall => Sys2Proof.Machine.execDvfsRailSettled stall s

end Sys2Proof.Machine
end

