-- ==== Sys2Proof/Machine/Idle.lean ====
section
/-! DEFINITION. What the block does when no command waits (log 1). -/

namespace Sys2Proof.Machine

/-- HM_USEC counts whole microseconds while 50 V is present (R429). DESIGN CHOICE: an idle step is one of them. -/
def State.tick (s : State) : State := if s.power.present then { s with usec := s.usec + 1 } else s

end Sys2Proof.Machine
end

