-- ==== Sys2Proof/Safety.lean ====
section
/-! DEFINITION. What a well-formed state is: the shape that the manual gives the block's arrays, rings and memory; and what a report
to the host and a final entry are. -/

namespace Sys2Proof.Machine

/-- A list of counters: keys strictly rising, no counter listed at zero, none beyond `n`. -/
def kvOk (n : Nat) (l : List (Nat × Nat)) : Prop := l.Pairwise (fun p q => p.1 < q.1) ∧ ∀ p ∈ l, 0 < p.2 ∧ p.2 ≤ n

/-- No counter exceeds 64 bits (R388). -/
def Telemetry.Ok (t : Telemetry) : Prop := kvOk allOnes64 t.ctr

/-- The event ring holds at most 512 records, the newest under EV_HEAD_SEQ, and their sequence numbers are consecutive modulo 2^32
(R391, R392). -/
def EventLog.Ok (l : EventLog) : Prop :=
  l.ring.length ≤ 512 ∧ (∀ r ∈ l.ring.head?, r.seq = l.headSeq) ∧ l.ring.IsChain fun a b => a.seq = (b.seq + 1) % 4294967296

/-- OTP holds four owner slots of at most three generations, and a security version of at most 64 (R451, Table 15.5). -/
def Boot.Ok (b : Boot) : Prop := b.slots.length = 4 ∧ b.svn ≤ svnMaximum ∧ ∀ g ∈ b.slots, g.length ≤ 3

/-- Every array has its size, memory is in its canonical form, and the event log, the counters and OTP are as the manual shapes
them. -/
structure State.Inv (s : State) : Prop where
  memory : s.mem.wf = true
  sqs : s.sqs.length = 16
  cqs : s.cqs.length = 16
  stalls : s.stalls.length = 256
  quays : s.quays.length = 24
  ports : s.ports.length = 8
  vectors : s.pcie.msix.length = 64
  log : s.log.Ok
  counters : s.tm.Ok
  otp : s.boot.Ok

/-- The two states differ at most in what a note leaves behind: counters, the event log, pending MSI-X bits, and what has been sent,
which only grows. -/
structure State.Noted (s t : State) : Prop where
  pending : t.pending = s.pending
  sent : s.out <+: t.out
  freeCtr : t.freeCtr = s.freeCtr
  usec : t.usec = s.usec
  power : t.power = s.power
  boot : t.boot = s.boot
  pcie : t.pcie = { s.pcie with msixPend := t.pcie.msixPend }
  sqs : t.sqs = s.sqs
  cqs : t.cqs = s.cqs
  sqTurn : t.sqTurn = s.sqTurn
  cmds : t.cmds = s.cmds
  job : t.job = s.job
  mem : t.mem = s.mem
  run : t.run = s.run
  stalls : t.stalls = s.stalls
  quays : t.quays = s.quays
  snap : t.snap = s.snap
  journal : t.journal = s.journal
  harbour : t.harbour = s.harbour
  ports : t.ports = s.ports
  test : t.test = s.test

/-- The two states differ at most in what notes and completion entries leave behind: that of a note, the completion queues and the
outstanding commands. -/
structure State.Reported (s t : State) : Prop where
  pending : t.pending = s.pending
  sent : s.out <+: t.out
  freeCtr : t.freeCtr = s.freeCtr
  usec : t.usec = s.usec
  power : t.power = s.power
  boot : t.boot = s.boot
  pcie : t.pcie = { s.pcie with msixPend := t.pcie.msixPend }
  sqs : t.sqs = s.sqs
  sqTurn : t.sqTurn = s.sqTurn
  job : t.job = s.job
  mem : t.mem = s.mem
  run : t.run = s.run
  stalls : t.stalls = s.stalls
  quays : t.quays = s.quays
  snap : t.snap = s.snap
  journal : t.journal = s.journal
  harbour : t.harbour = s.harbour
  ports : t.ports = s.ports
  test : t.test = s.test

/-- The 32 bytes of Table 12.4 of a command's final entry, as its completion queue stands. -/
def State.finalBytes (s : State) (c : Cmd) (st : Status) (r0 r1 : Nat) : Bytes :=
  Entry.bytes ⟨r0, r1, c.ext, c.excess s.usec, c.sq, c.cid, 0, st.code⟩ (if c.sq = 0xFF then 0 else (s.sq c.sq).head) (s.cq c.cq).phase

/-- The two writes of a command's final entry: bytes 0x00 to 0x1E, then the byte of the phase (R359). -/
def State.finalEntry (s : State) (c : Cmd) (st : Status) (r0 r1 : Nat) : List Output :=
  let a := (s.cq c.cq).base + 32 * (s.cq c.cq).tail
  [.entry c.cq a ((s.finalBytes c st r0 r1).take 31), .entry c.cq (a + 31) ((s.finalBytes c st r0 r1).drop 31)]

/-- The completion queue of a command takes its entry at once (R356, R362). -/
def State.entryFits (s : State) (c : Cmd) : Bool :=
  (s.cq c.cq).enable && (s.cq c.cq).room != 0 && (s.cq c.cq).held.isEmpty

/-- A command has completed: it is outstanding no more, and the two writes of its final entry stand side by side in what
was sent. -/
def State.Completed (s t : State) (c : Cmd) (st : Status) (r0 r1 : Nat) : Prop :=
  t.cmds = s.cmds.filter (fun d => !(d.sq == c.sq && d.cid == c.cid)) ∧
    ∃ l, t.out = s.out ++ l ∧ s.finalEntry c st r0 r1 <:+: l

/-- One of the next four records of the event log has this code and source, and the time of the command. -/
def State.Logged (s t : State) (code kind index : Nat) : Prop :=
  ∃ r ∈ t.log.ring, (∃ k < 4, r.seq = (s.log.headSeq + 1 + k) % 4294967296) ∧ r.code = code ∧ r.srcKind = kind ∧ r.srcIndex = index
    ∧ r.usec = s.usec

/-- A counter has gone up by `n`, as far as 64 bits hold it (R388). -/
def State.Counted (s t : State) (o n : Nat) : Prop := s.tm.Ok → kvGet t.tm.ctr o = min allOnes64 (kvGet s.tm.ctr o + n)

/-- A host protocol violation of a class is counted, and nothing else has changed but what notes leave behind (R379). -/
def State.Violated (s t : State) (cls : Nat) : Prop := s.Noted t ∧ s.Counted t (evViolationAt cls) 1

/-- A requested module reset waits only while a run is in progress (R443). -/
abbrev State.ResetSettled (s : State) : Prop := s.boot.resetDue = true → s.inRun = true

/-- What no reset, no supply and no other event touches: OTP, the stored patch bundle and the journals (R334, R443). -/
def State.KeptInFlash (s t : State) : Prop :=
  t.boot.svn = s.boot.svn ∧ t.boot.slots = s.boot.slots ∧ t.boot.storedPatch = s.boot.storedPatch
    ∧ t.journal.own = s.journal.own ∧ t.journal.partner = s.journal.partner ∧ t.snap.store = s.snap.store

/-- A member that is joined and in no census, with another present member `q`. -/
abbrev State.MemberWith (s : State) (q : Nat) : Prop :=
  s.harbour.joined = true ∧ s.harbour.inCensus = false ∧ s.harbour.joining = none ∧ s.harbour.decided = false
    ∧ q < s.harbour.size ∧ q ≠ s.harbour.rank ∧ q ∈ s.harbour.present ∧ q ∉ s.harbour.leavers

/-- A re-formation has begun (R312, R313): the attempt is abandoned and the next census entered; memory, the job and the outstanding
commands stand. -/
def State.Reformed (s t : State) : Prop :=
  t.harbour.inCensus = true ∧ t.harbour.censusNo = s.harbour.census + 1 ∧ t.run.tides = [] ∧ t.run.groups = [] ∧ t.mem = s.mem
    ∧ t.job = s.job ∧ t.boot = s.boot ∧ t.cmds = s.cmds ∧ t.journal = s.journal

end Sys2Proof.Machine
end

