-- ==== Sys2Proof/Certificates/Slice0/Obligations.lean ====
section
/-! DEFINITION. The statements about the block, for the provers. -/

open Sys2Proof Sys2Proof.Machine

/-! ## The machine as a whole -/

/-- A step takes the command at the front of the queue, and runs it on the state with the queue's rest. -/
def Obligations.StepRunsTheFrontCommand : Prop :=
  ∀ (c : Instr) (rest : List Instr) (s : State), s.pending = c :: rest → Machine.step s = exec c { s with pending := rest }

/-- With no command waiting the block idles, and HM_USEC counts on while 50 V is present: the model's choice of log 1. -/
def Obligations.EmptyQueueIdles : Prop :=
  ∀ s : State, s.pending = [] → Machine.step s = .next (if s.power.present then { s with usec := s.usec + 1 } else s)

/-- The state after reset meets the invariant. -/
def Obligations.ResetMeetsTheInvariant : Prop := State.reset.Inv

/-- What a module reset leaves in the registers: the Reset columns of Tables 12.2, 13.2, 13.4, 13.8, 13.9, 13.17, 13.18 and 13.20, those of
Table 13.14 but for the measured readings, page 0 of Table 13.21, and every counter; RESET_N low and the module in BOOTING are the model's
reading of log 3, the feed ID of the strap and the zeros of module memory its choices of logs 4 and 5. -/
def Obligations.ResetLeavesTheResetColumns : Prop :=
  let s := State.reset
  (s.liveWord 0 = 0x1802060000A14C58 ∧ s.liveWord 8 = Config.firmwareVersion.toNat ∧ s.liveWord 0x10 = 0x2D31584C2D59524B
    ∧ s.liveWord 0x18 = 0x36333531 ∧ s.liveWord 0x20 = 0x102 ∧ s.liveWord 0x28 = 0 ∧ s.liveWord 0x30 = 0
    ∧ s.liveWord 0x38 = 18446744073709551615 ∧ s.liveWord 0x40 = 0 ∧ s.liveWord 0x48 = 0 ∧ ∀ k < 8, s.liveWord (0x80 + 8 * k) = 0)
  ∧ (s.liveWord 0x10000 = 0x1FF0000 ∧ s.liveWord 0x10008 = 0 ∧ s.liveWord 0x10010 = 0 ∧ s.liveWord 0x10020 = 0
    ∧ (∀ k < 4096, s.liveWord (0x18000 + 8 * k) = 0) ∧ ∀ o, kvGet s.tm.ctr o = 0 ∧ o ∉ s.tm.sat)
  ∧ (∀ v < 64, s.liveWord (0x28000 + 16 * v) = 0 ∧ s.liveWord (0x28008 + 16 * v) = 4294967296) ∧ s.liveWord 0x29000 = 0
  ∧ (∀ q < 16, s.liveWord (0x40000 + 0x40 * q) = 0 ∧ s.liveWord (0x40008 + 0x40 * q) = 0 ∧ s.liveWord (0x40010 + 0x40 * q) = 0
    ∧ s.liveWord (0x40400 + 0x40 * q) = 0 ∧ s.liveWord (0x40408 + 0x40 * q) = 0 ∧ s.liveWord (0x40410 + 0x40 * q) = 1)
  ∧ (s.liveWord 0x200000 = 256 * s.power.feedId ∧ s.liveWord 0x200018 = 1000 ∧ s.liveWord 0x200020 = 0xC000000000000000
    ∧ s.liveWord 0x200028 = 0x7C03FFFFF)
  ∧ (s.liveWord 0x400000 = 1 ∧ ∀ k < 13, s.liveWord (0x400008 + 8 * k) = 0) ∧ (∀ k < 12, s.liveWord (0x500000 + 8 * k) = 0)
  ∧ s.liveWord 0x700000 = 0 ∧ s.liveWord 0x700008 = 0 ∧ s.liveWord 0x1000000 = 0 ∧ s.cmds = [] ∧ ∀ a, s.mem.byte a = 0

/-- Every step keeps the invariant: arrays, canonical memory, the event log's numbering, counters within 64 bits, OTP within
Table 15.5. -/
def Obligations.EveryStepKeepsTheInvariant : Prop := ∀ s t : State, s.Inv → Machine.step s = .next t → t.Inv

/-- A step takes at most the front command from the queue, takes back nothing that the module has sent, and no security version and no
key generation of an owner slot (R451, R452). -/
def Obligations.StepsTakeNothingBack : Prop :=
  ∀ s t : State, Machine.step s = .next t → t.pending = s.pending.tail ∧ s.out <+: t.out ∧ s.boot.svn ≤ t.boot.svn
    ∧ ∀ k, s.boot.generation k ≤ t.boot.generation k

/-- Only a quay request beyond the last byte of module memory stops the block, with a fault that names its address; no command is
refused. -/
def Obligations.OnlyMissingAddressesStop : Prop :=
  ∀ (i : Instr) (s : State), (∀ r, exec i s ≠ .refused r) ∧ ∀ f, exec i s = .fault f ↔
    (∃ src a n x h, i = .quayRead src a n x h ∧ Config.memoryEnd < a + max 1 n ∧ f = .noSuchAddress a)
      ∨ ∃ src a x d h, i = .quayWrite src a x d h ∧ Config.memoryEnd < a + max 1 d.bytes.length ∧ f = .noSuchAddress a

/-! ## Commands of the submission queues -/

/-- Admission of a fetched entry (R360, R361): an accepted command is outstanding with its bound and the time of its acceptance, and has
not started; a refused entry leaves the outstanding commands as they were, and one whose bound passes its deadline raises 0x0602; an entry
that passes the checks of its fields and of its command ID and that the module's state bars gets REFUSED_STATE. -/
def Obligations.AdmissionFollowsTheFirstFailingCheck : Prop :=
  ∀ (s : State) (q : Nat) (p : Placed),
    (∀ b, admission s q p = .accept b → ∃ c, (s.admitEntry q p).cmds = s.cmds ++ [c] ∧ c.sq = q ∧ c.cid = eCid p.entry ∧ c.entry = p.entry
      ∧ c.bound = b ∧ c.accepted = s.usec ∧ c.started = false ∧ c.cq = (s.sq q).cq ∧ c.deferred = s.defers p.entry)
    ∧ (∀ b, admission s q p = .late b → (s.admitEntry q p).cmds = s.cmds ∧ s.Logged (s.admitEntry q p) 0x0602 4 q)
    ∧ (∀ st, admission s q p = .refuse st → (s.admitEntry q p).cmds = s.cmds)
    ∧ (stateOk s p.entry = false → entryKnown p.entry = true → fieldsOk p.entry = true → s.cmd? q (eCid p.entry) = none →
      admission s q p = .refuse .refusedState)
    ∧ (s.admitEntry q p).mem = s.mem ∧ (s.admitEntry q p).job = s.job ∧ (s.admitEntry q p).boot = s.boot ∧ (s.admitEntry q p).run = s.run

/-- IDENTIFY, READ_TELEMETRY, ATTEST and EXPORT_JOURNAL write their data to the host buffer and complete with OK; nothing of the
module's work changes. -/
def Obligations.DataCommandsAnswer : Prop :=
  ∀ (s : State) (sq cid : Nat) (c : Cmd), s.entryFits c = true →
    (s.waiting opIdentify sq cid = some c →
      ∃ t, exec (.identify sq cid) s = .next t ∧ s.Reported t ∧ s.Completed t c .ok 0 0
        ∧ .commandData c.sq c.cid 0 ((List.range 4096).map Config.identifyByte) false ∈ t.out)
    ∧ (s.waiting opTelemetry sq cid = some c →
      ∃ t, exec (.readTelemetry sq cid) s = .next t ∧ s.Reported t ∧ s.Completed t c .ok s.usec 0
        ∧ .commandData c.sq c.cid 0 (s.telemetry (eTmOffset c.entry) (eTmBytes c.entry)) false ∈ t.out)
    ∧ (s.waiting opAttest sq cid = some c →
      ∃ t, exec (.attest sq cid) s = .next t ∧ s.Reported t ∧ s.Completed t c .ok 3904 0
        ∧ .commandData c.sq c.cid 0 (s.report (eNonce c.entry)) false ∈ t.out)
    ∧ (s.waiting opExport sq cid = some c →
      ∃ t l, exec (.exportJournal sq cid) s = .next t ∧ s.Reported t
        ∧ l = fitting (eLen c.entry)
            ((verified (if eJournal c.entry = 0 then s.journal.own else s.journal.partner)).filter fun r => eFirstSeq c.entry ≤ recordSeq r)
        ∧ s.Completed t c .ok ((l.getLast?.map recordSeq).getD 0) l.flatten.length
        ∧ .commandData c.sq c.cid 0 l.flatten false ∈ t.out)

/-- LOAD_TIDE_TABLE: a table that fails validation gets MALFORMED, or SIGNATURE, with the code, section and index of the failure, and
leaves the module's work as it was; a valid one that is barred gets FAULT; any other becomes active, and the command completes with OK where
the configuration record can be written, and with a module fault otherwise (R243, R244, R191, R331). -/
def Obligations.LoadActivatesAValidTable : Prop :=
  ∀ (s : State) (sq cid : Nat) (data : Bytes) (c : Cmd), s.waiting opLoad sq cid = some c → s.restsForLoad = true →
    (s.mode = .inert ∨ s.mode = .configured) → s.entryFits c = true →
    ∃ u, exec (.loadTideTable sq cid data) s = .next u ∧
      match validate s.boot.signers (s.dataOf c data) with
      | .inl f => s.Reported u ∧ s.Completed u c (if f.isSignature then .signature else .malformed) (f.code + 65536 * f.sec) f.index
      | .inr t =>
        if s.barred t then s.Reported u ∧ s.Completed u c .fault 0 0
        else
          let kept := if s.boot.lastOwner = some ⟨t.slot, t.generation, t.journalExtent⟩ then s.journal.own else []
          u.job.table = some t ∧ u.mem.classes = classMap t.pageClasses ∧ u.harbour.joined = false ∧ (u.mode = .configured ∨ u.mode = .faulted)
            ∧ (s.journal.flashOk = true → journalUsed kept + 4096 ≤ t.journalExtent * mib → u.mode = .configured
              ∧ ∃ l n, u.out = s.out ++ l ∧ s.finalEntry c .ok n 0 <:+: l)

/-- UNLOAD outside a run and a drain leaves the INERT defaults, with the domains of a test that runs (R191, R324, R417; log 95). -/
def Obligations.UnloadReturnsToInert : Prop :=
  ∀ (s : State) (sq cid : Nat) (c : Cmd) (t : Table), s.waiting opUnload sq cid = some c → s.inRun = false → s.drains = false →
    s.job.table = some t →
    ∃ u, exec (.unload sq cid) s = .next u ∧ u.mode = .inert ∧ u.job = Job.reset ∧ u.mem.classes = [] ∧ u.journal.own = []
      ∧ u.journal.partner = [] ∧ u.snap.store = [] ∧ u.harbour.joined = false ∧ u.run.kind = .none
      ∧ u.power.domains = inertDomains ||| domainMask (s.testNeeds.filter fun d => !inertDomains.getLsbD d)

/-- FEED of a token batch: a batch within Table 12.9 is retained for its step and group and answered with its digest; another gets
MALFORMED (R368). -/
def Obligations.FeedRetainsTheBatch : Prop :=
  ∀ (s : State) (sq cid : Nat) (data : Bytes) (c : Cmd) (t : Table), s.waiting opFeed sq cid = some c → eKind c.entry = 1 →
    s.job.table = some t → s.entryFits c = true →
    ∃ u, exec (.feedTokenBatch sq cid data) s = .next u ∧ u.mem = s.mem ∧ u.boot = s.boot ∧ u.power = s.power ∧ u.stalls = s.stalls ∧
      if batchOk t c.entry (s.dataOf c data) then
        (∃ l, u.out = s.out ++ l ∧ s.finalEntry c .ok (Config.batchDigest (s.dataOf c data)).toNat 0 <:+: l)
          ∧ u.job = { s.job with batches := s.job.batches ++
              [⟨eStep c.entry, eGroup c.entry, eInModule c.entry, ePtr c.entry, s.dataOf c data, (Config.batchDigest (s.dataOf c data)).toNat, false⟩] }
      else s.Reported u ∧ s.Completed u c .malformed 0 0

/-- FEED of a host-layer result answers its open request with the command's data (R180, R375): the request is closed, its tide is done, an
output tensor in the record's own format holds the bytes of the data row by row, and the command completes with OK and the digest of that
data, whose form is the model's choice of log 11; another format takes the data through the load path and the narrowing of R28. -/
def Obligations.HostLayerResultAnswersItsRequest : Prop :=
  ∀ (s : State) (sq cid : Nat) (data : Bytes) (c : Cmd) (t : Table) (q : HostReq), s.waiting opFeed sq cid = some c →
    eKind c.entry = 2 → s.job.table = some t → s.hostReq? (eGroup c.entry) = some q →
    let d := s.dataOf c data
    let u0 : Tide := ⟨t, q.tide, q.inst⟩
    exec (.feedHostLayerResult sq cid data) s = .next ((s.hostResult t q d).finishCmd c .ok (Config.batchDigest d).toNat 0)
    ∧ ∀ y r f, t.tensor? (hlOut u0.bytes) = some y → t.hostLayer? q.layer = some r → Fmt.ofCode (fld r 1 1) = some f →
      ((s.layerReach u0 y true).findSome? fun a => s.refusedPage (.tide q.tide) a.1 a.2.1 a.2.2) = none →
      s.tideStatus? q.tide q.inst = some .started →
      ∃ u, exec (.feedHostLayerResult sq cid data) s = .next u ∧ u.run.hostReqs = s.run.hostReqs.filter (fun z => z.tag != q.tag)
        ∧ u.tideStatus? q.tide q.inst = some .done ∧ s.job.progress < u.job.progress ∧ u.boot = s.boot ∧ u.power = s.power
        ∧ (s.entryFits c = true → ∃ l, u.out = s.out ++ l ∧ s.finalEntry c .ok (Config.batchDigest d).toNat 0 <:+: l)
        ∧ (tFmt y = f → s.snap.pend = [] → u.mem = (rowsOfN (tCols y * elemBytes f) d).zipIdx.foldl
            (fun m p => m.write (s.place u0 y p.2 (elemAddr y 0 (u0.rowIn y p.2) 0)) p.1) s.mem)

/-- RUN_STEPS in CONFIGURED under a training table starts its first step: RUNNING, attempt 0, none of its steps used (R370). -/
def Obligations.RunStepsStarts : Prop :=
  ∀ (s : State) (sq cid : Nat) (c : Cmd) (t : Table), s.waiting opRun sq cid = some c → s.job.table = some t → t.isTraining = true →
    s.mode = .configured → s.harbour.inCensus = false → (s.cmdsOf opRun).head? = some c →
    ∃ u, exec (.runSteps sq cid) s = .next u ∧ u.mode = .running ∧ u.job.attempt = 0 ∧ u.job.step = s.job.step
      ∧ u.run.kind = .training ∧ u.run.cur = some ⟨c.sq, c.cid, eSteps c.entry, 0, 0, 0⟩ ∧ u.mem = s.mem ∧ u.boot.svn = s.boot.svn

/-- SERVE admits the earliest accepted request that has no place yet, without a slot until the next boundary, and the first starts the
serving run (R372, R373); a later one waits for those before it. -/
def Obligations.ServeAdmitsARequest : Prop :=
  ∀ (s : State) (sq cid : Nat) (prompt : Bytes) (c : Cmd) (t : Table), s.waiting opServe sq cid = some c → s.job.table = some t →
    t.isTraining = false → (s.mode = .configured ∨ s.mode = .running) →
    (((s.cmdsOf opServe).find? fun d => !d.started) = some c →
      ∃ u, exec (.serve sq cid prompt) s = .next u ∧ u.run.kind = .serving ∧ u.mem = s.mem
        ∧ u.run.serves = (if s.run.kind = .serving then s.run.serves else [])
            ++ [⟨c.sq, c.cid, none, promptOf (s.dataOf c prompt), [], 0, false, false⟩])
    ∧ (((s.cmdsOf opServe).find? fun d => !d.started) ≠ some c → exec (.serve sq cid prompt) s = .next s)

/-- HALT_AT_SLACK waits in a run; outside one every outstanding halt completes with OK and the committed step (R371). SNAPSHOT is
queued for the next slack water; in a state without a job it gets FAULT (R337). -/
def Obligations.HaltAndSnapshotRequests : Prop :=
  ∀ (s : State) (sq cid : Nat) (c : Cmd),
    (s.waiting opHalt sq cid = some c →
      exec (.haltAtSlack sq cid) s
        = .next (if s.inRun then s.setCmd c.sq c.cid (fun d => { d with started := true })
            else s.finishAll (s.cmdsOf opHalt) .ok s.committedWord 0))
    ∧ (s.waiting opSnapshot sq cid = some c →
      exec (.snapshot sq cid) s
        = .next (if s.mode.jobState then
              (s.setCmd c.sq c.cid (fun d => { d with started := true })).modSnap fun x => { x with requests := x.requests ++ [⟨c.sq, c.cid⟩] }
            else s.finishCmd c .fault 0 0))

/-- RESTORE from an image in CONFIGURED (R342): an image that does not parse gets MALFORMED and changes nothing else; one whose chunk
digests, set digest or model digest fail gets FAULT and leaves step and scale state; any other sets step, data position and model digest
and completes with OK, once the restore record is written; a record that cannot be written is a module fault (R331). -/
def Obligations.RestoreFromAnImage : Prop :=
  ∀ (s : State) (sq cid : Nat) (data : Bytes) (c : Cmd) (t : Table), s.waiting opRestore sq cid = some c → eSource c.entry = 0 →
    s.job.table = some t → s.mode = .configured → s.harbour.joined = false → s.entryFits c = true →
    let d := s.dataOf c data
    match s.imageChunks t d with
    | none => ∃ u, exec (.restoreFromImage sq cid data) s = .next u ∧ s.Reported u ∧ s.Completed u c .malformed 0 0
    | some l =>
      let n := fld d 0x10 8
      let zeroed := ((s.markStarted c).zeroClass 2).modJob fun j => { j with batches := [] }
      let put := l.foldl (fun s k => s.putFragment k.quay k.page k.data) zeroed
      let back := put.takeRestored t n (fld d 0x30 8) (slice d 256 (fld d 0xC 4))
      let sup := firstLast (supersededBy n s.journal.own)
      let record := back.buildRecord t 4 0 back.journal.nextSeq n (scaleEntries back.job.scale ++ [(5, restoreEntry 0 n sup.1 sup.2)])
      ((l.all fun k => fragDigest s.pinned k.quay k.page k.data == k.digest) = true →
        l.foldl (fun a k => (a + k.digest) % m61) 0 = fld d 0x28 8 → t.modelDigest put.mem = fld d 0x30 8 →
        (back.canWrite t record = true → ∃ u, exec (.restoreFromImage sq cid data) s = .next u
          ∧ u.job.committed = some n ∧ u.job.step = n + 1 ∧ u.job.dataPos = n + 1 ∧ u.job.streamStep = some n
          ∧ u.job.modelDigest = fld d 0x30 8 ∧ u.job.attempt = 0 ∧ u.job.batches = [] ∧ u.job.scale = back.job.scale ∧ u.mem = back.mem
          ∧ record ∈ u.journal.own ∧ u.boot = s.boot ∧ u.power = s.power ∧ u.harbour = s.harbour ∧ s.Completed u c .ok n (n + 1))
        ∧ (back.canWrite t record = false → ∃ u, exec (.restoreFromImage sq cid data) s = .next u ∧ u.mode = .faulted))
      ∧ ((l.all fun k => fragDigest s.pinned k.quay k.page k.data == k.digest) = false
          ∨ l.foldl (fun a k => (a + k.digest) % m61) 0 ≠ fld d 0x28 8 ∨ t.modelDigest put.mem ≠ fld d 0x30 8 →
        ∃ u, exec (.restoreFromImage sq cid data) s = .next u ∧ u.job = { s.job with batches := [] } ∧ u.boot = s.boot ∧ u.power = s.power
          ∧ u.harbour = s.harbour ∧ u.journal = s.journal ∧ s.Completed u c .fault 0 0)

/-- RESTORE over a port in CONFIGURED (R341, R343): the port starts to train for the partner's role, or stays quarantined where it has failed
a test (R467), and the command stays outstanding; a replica's newcomer first zeroes its class 2 pages and drops its batches. -/
def Obligations.RestoreOverAPortBegins : Prop :=
  ∀ (s : State) (sq cid : Nat) (c : Cmd) (t : Table), s.waiting opRestore sq cid = some c → s.job.table = some t →
    s.mode = .configured → s.harbour.joined = false → ePort c.entry < 8 → s.ports.length = 8 →
    (eSource c.entry = 1 → ∃ u, exec (.restoreFromPartnerStore sq cid) s = .next u
      ∧ u.harbour.restore = some ⟨sq, cid, 1, ePort c.entry, 0xFFFF, false, none, [], [], 0, [], (0, 0)⟩
      ∧ (u.port (ePort c.entry)).state = (if (s.port (ePort c.entry)).failed then 4 else 1) ∧ (u.port (ePort c.entry)).role = 2
      ∧ u.mem = s.mem ∧ u.job = s.job ∧ u.boot = s.boot)
    ∧ (eSource c.entry = 2 → ∃ u, exec (.restoreFromReplica sq cid) s = .next u
      ∧ u.harbour.restore = some ⟨sq, cid, 2, ePort c.entry, eDonor c.entry, false, none, [], [], 0, [], (0, 0)⟩
      ∧ (u.port (ePort c.entry)).state = (if (s.port (ePort c.entry)).failed then 4 else 1) ∧ (u.port (ePort c.entry)).role = 2
      ∧ u.job = { s.job with batches := [] } ∧ u.boot = s.boot
      ∧ (∀ a, s.mem.classOf (a / pageSize) = 2 → u.mem.byte a = 0)
      ∧ ∀ a, (a / pageSize, 2) ∉ s.mem.classes → u.mem.byte a = s.mem.byte a)

/-- JOIN_HARBOUR in CONFIGURED: the checks of the parameter block in order, and the start of the join (R296, R298). -/
def Obligations.JoinChecksTheBlock : Prop :=
  ∀ (s : State) (sq cid : Nat) (block : Bytes) (c : Cmd) (t : Table), s.waiting opJoin sq cid = some c → s.job.table = some t →
    s.mode = .configured → s.harbour.joined = false → s.entryFits c = true →
    ∃ u, exec (.joinHarbour sq cid block) s = .next u ∧ u.mem = s.mem ∧ u.job = s.job ∧ u.boot = s.boot ∧
      let b := fit 128 block
      if joinBlockOk b = false then s.Reported u ∧ s.Completed u c .malformed 0 0
      else if jbCount b < t.leastMembers then s.Reported u ∧ s.Completed u c .refusedState 0 0
      else if t.shapeOk (jbCount b) (jbTopo b) = false then s.Reported u ∧ s.Completed u c .refusedState 0 0
      else if s.harbourDigest (jbId b) ≠ jbDigest b then u.harbour = s.harbour ∧ u.ports = s.ports ∧ s.Completed u c .fault 0 0
      else u.harbour.joining = some ⟨sq, cid, b, s.usec⟩ ∧ u.harbour.joined = false ∧ u.harbour.inCensus = true
        ∧ u.harbour.id = jbId b ∧ u.harbour.rank = jbRank b ∧ u.harbour.partner = jbPartner b
        ∧ u.harbour.present = List.range (jbCount b)

/-- LEAVE_HARBOUR: outside a harbour it completes at once; in a run it waits for slack water; in any other state the module leaves, every
port in use goes dark, it stands in CONFIGURED and the command completes with OK (R317). -/
def Obligations.LeaveHarbour : Prop :=
  ∀ (s : State) (sq cid : Nat) (c : Cmd), s.waiting opLeave sq cid = some c →
    (s.harbour.joined = false → s.entryFits c = true →
      ∃ u, exec (.leaveHarbour sq cid) s = .next u ∧ s.Reported u ∧ s.Completed u c .ok s.committedWord 0)
    ∧ (s.harbour.joined = true → s.inRun = true → ∃ u, exec (.leaveHarbour sq cid) s = .next u
      ∧ u = { s with cmds := u.cmds, harbour := { s.harbour with leaving := some ⟨sq, cid⟩ } })
    ∧ (s.harbour.joined = true → s.inRun = false → ∃ u, exec (.leaveHarbour sq cid) s = .next u ∧ u.mode = .configured
      ∧ u.harbour.joined = false ∧ u.harbour.rank = 0xFFFF ∧ u.mem = s.mem ∧ u.job = s.job ∧ u.journal = s.journal
      ∧ (∀ p < 8, (s.port p).role ≠ 0 → (u.port p).up = false) ∧ (s.entryFits c = true → s.Completed u c .ok s.committedWord 0))

/-- Self-tests (R462 to R466): a test of a pile or of the module outside INERT gets ABORTED, a deferred one waits for slack water, and any
other starts where no test runs, with the domains that it needs on (log 95). The end of the only test writes its entries to the host,
TS_STATUS, TS_RESULT, TS_SIGNATURE and TS_EXPECTED take the last, what the test has lit goes dark, and the command completes with OK, the
entries and the failures. -/
def Obligations.TestsStartWaitAndEnd : Prop :=
  (∀ (s : State) (sq cid : Nat) (c : Cmd), s.waiting opTest sq cid = some c →
    (3 ≤ eScope c.entry → s.mode ≠ .inert → s.mode ≠ .testing → s.entryFits c = true →
      ∃ u, exec (.runTest sq cid) s = .next u ∧ s.Reported u ∧ s.Completed u c .aborted 0 0)
    ∧ (eScope c.entry < 3 → c.deferred = true → s.inRun = true →
      ∃ u, exec (.runTest sq cid) s = .next u ∧ u.mem = s.mem ∧ u.job = s.job ∧ u.boot = s.boot ∧ u.run = s.run
        ∧ u.test = { s.test with queue := s.test.queue ++
            [⟨sq, cid, eScope c.entry, eTest c.entry, eTarget c.entry, true, false⟩] })
    ∧ (c.deferred = false → s.test.queue = [] → eScope c.entry < 3 ∨ s.mode = .inert ∨ s.mode = .testing →
      ∃ u, exec (.runTest sq cid) s = .next u ∧ u.mem = s.mem ∧ u.job = s.job ∧ u.run = s.run
        ∧ u.test = { s.test with active := true, scope := eScope c.entry, test := eTest c.entry, target := eTarget c.entry, queue := [⟨sq, cid, eScope c.entry, eTest c.entry, eTarget c.entry, false, true⟩], lit := u.test.lit }
        ∧ u.test.lit = ((testDomains (eScope c.entry) (eTarget c.entry)).filter fun d => !s.powered d)
        ∧ u.power = { s.power with domains := s.power.domains ||| domainMask u.test.lit }
        ∧ u.mode = if 3 ≤ eScope c.entry then .testing else s.mode))
  ∧ ∀ (s : State) (responses : List (List (Nat × Nat))) (r : TestReq) (c : Cmd) (e : TestEntry), s.test.queue = [r] → r.running = true →
    s.run.slack ≠ .testing → r.scope ≠ 2 → s.cmd? r.sq r.cid = some c → s.entryFits c = true →
    (testResults r.scope r.test r.target responses).getLast? = some e →
    let es := testResults r.scope r.test r.target responses
    ∃ u l, exec (.testComplete responses) s = .next u ∧ u.test.active = false ∧ u.test.queue = [] ∧ u.test.lit = []
      ∧ u.test.scope = e.scope ∧ u.test.test = e.test ∧ u.test.target = e.target
      ∧ u.test.result = (if e.signature = e.expected then 1 else 2) ∧ u.test.signature = e.signature.toNat
      ∧ u.test.expected = e.expected.toNat ∧ u.out = s.out ++ l
      ∧ .commandData r.sq r.cid 0 (es.flatMap testEntryBytes) false ∈ l
      ∧ s.finalEntry c .ok es.length (es.filter fun e => !entryPasses e).length <:+: l

/-- SET_POWER_CAP (R425): a cap that must wait is held in PT_CAP.PENDING, and replaces the one held; any other takes effect at once. The
held cap takes effect when no bounded command remains. -/
def Obligations.PowerCapAppliesOrWaits : Prop :=
  ∀ (s : State) (sq cid : Nat),
    (∀ c, s.waiting opCap sq cid = some c →
      ∃ u, exec (.setPowerCap sq cid) s = .next u ∧ u.mem = s.mem ∧ u.job = s.job ∧ u.boot = s.boot ∧ u.run = s.run
        ∧ if s.capDeferred (eWatts c.entry) then u.power = { s.power with capPending := some (eWatts c.entry) }
          else u.power = { s.power with cap := eWatts c.entry, capPending := none }
            ∧ (s.heldCap = [] → s.entryFits c = true → s.Completed u c .ok (eWatts c.entry) 0))
    ∧ ∀ w, s.power.capPending = some w →
      ∃ u, exec .deferredCapApply s = .next u ∧ u.mem = s.mem ∧ u.job = s.job ∧ u.boot = s.boot ∧ u.run = s.run
        ∧ u.power = if s.cmds.any Cmd.bounded then s.power else { s.power with cap := w, capPending := none }

/-- ENROL_KEY (R453, R454): the first failing check gives status and code, and nothing but notes and the entry changes; an enrolment that
passes programs the next generation of its slot, a revocation the revoked byte of the current one. -/
def Obligations.EnrolKeyProgramsItsSlot : Prop :=
  ∀ (s : State) (sq cid : Nat) (data : Bytes) (c : Cmd), s.waiting opEnrol sq cid = some c → s.entryFits c = true →
    s.boot.slots.length = 4 →
    let d := s.dataOf c data
    ∃ u, exec (.enrolKey sq cid data) s = .next u ∧
      match s.boot.checkEnrol (eSlot c.entry) d with
      | some k => s.Reported u ∧ s.Completed u c (objectStatus k) k 0
      | none => State.Reported (s.modBoot fun b => b.program d) u ∧ s.Completed u c .ok (eSlot c.entry) 0
        ∧ u.boot.svn = s.boot.svn ∧ soSlot d = eSlot c.entry
        ∧ ∀ k, u.boot.generation k = s.boot.generation k + (if k = eSlot c.entry ∧ soAction d = 1 then 1 else 0)

/-- APPLY_PATCH (R448): the first failing check gives status and code; a bundle that passes is stored, raises the security version to its
own where that is greater, and loads at the next boot only. -/
def Obligations.ApplyPatchStoresTheBundle : Prop :=
  ∀ (s : State) (sq cid : Nat) (data : Bytes) (c : Cmd), s.waiting opPatch sq cid = some c → s.entryFits c = true →
    let d := s.dataOf c data
    ∃ u, exec (.applyPatch sq cid data) s = .next u ∧
      match s.boot.checkPatch d with
      | some k => s.Reported u ∧ s.Completed u c (objectStatus k) k 0
      | none => s.Completed u c .ok (soVersion d) 0
        ∧ u.boot = { s.boot with svn := max s.boot.svn (soSvn d), storedPatch := if soVersion d = 0 then none else some d }
        ∧ u.mem = s.mem ∧ u.job = s.job ∧ u.power = s.power

/-! ## Doorbells, queues and BAR0 -/

/-- The doorbells of an awake module (R354, R356, R379): a tail or a head within the ring is taken; one of a disabled queue, beyond the
ring or, for a CQ, past its tail is a violation of class 3 and is discarded. A final entry that a full ring held back takes its place once
there is room, in two writes of which the last carries the phase (R359, R362). -/
def Obligations.DoorbellsTakeTheirIndex : Prop :=
  ∀ (s : State) (q v : Nat) (placed : List Placed), s.sqs.length = 16 → s.cqs.length = 16 → q < 16 →
    (s.takesWrites = true → ∃ u, exec (.sqTailDb q v placed) s = .next u ∧
      if (s.sq q).enable ∧ v < (s.sq q).entries then (u.sq q).tail = v ∧ u.mem = s.mem ∧ u.job = s.job ∧ u.boot = s.boot ∧ u.power = s.power
      else s.Violated u 3)
    ∧ (s.takesWrites = true → ∃ u, exec (.cqHeadDb q v) s = .next u ∧
      if (s.cq q).enable ∧ v < (s.cq q).entries ∧ (s.cq q).consumed v ≤ (s.cq q).posted then
        (u.cq q).head = v ∧ u.mem = s.mem ∧ u.job = s.job ∧ u.boot = s.boot ∧ u.power = s.power
      else s.Violated u 3)
    ∧ ∀ (e : Entry) (rest : List Entry), (s.cq q).held = e :: rest → (s.cq q).enable = true → 0 < (s.cq q).room →
      ∃ u l, exec (.cqHeldEntryPost q) s = .next u ∧ u.mem = s.mem ∧ u.job = s.job ∧ u.boot = s.boot
        ∧ let b := e.bytes (if e.sq = 0xFF then 0 else (s.sq e.sq).head) (s.cq q).phase
          let a := (s.cq q).base + 32 * (s.cq q).tail
          u.out = s.out ++ .entry q a (b.take 31) :: .entry q (a + 31) (b.drop 31) :: l

/-- Enabling a queue (R355, R356): ENABLE is set only with Bus Master Enable, a valid size and, for an SQ, its CQ enabled; head, tail and
phase start again, and entries that waited for an enabled CQ are fetched. Every other write of ENABLE leaves it at 0 and is a violation of
class 4. -/
def Obligations.EnablingAQueue : Prop :=
  ∀ (s : State) (q k n v : Nat) (i : Bool), s.takesWrites = true → q < 16 → s.sqs.length = 16 → s.cqs.length = 16 →
    ((s.sq q).enable = false → ∃ u, exec (.sqEnable q k n) s = .next u ∧
      if s.pcie.busMaster ∧ 4 ≤ n ∧ n ≤ 12 ∧ (s.cq k).enable then
        u = { s with sqs := u.sqs } ∧ u.sq q = { s.sq q with enable := true, cq := k, log2 := n, head := 0, tail := 0, ring := [], blocked := false }
          ∧ ∀ p, p ≠ q → u.sq p = s.sq p
      else (u.sq q).enable = false ∧ State.Violated { s with sqs := u.sqs } u 4)
    ∧ ((s.cq q).enable = false →
      (s.pcie.busMaster = true → 4 ≤ n → n ≤ 12 → ∃ y : State, exec (.cqEnable q i v n) s = .next y.fetch ∧ y = { s with cqs := y.cqs }
        ∧ y.cq q = { s.cq q with enable := true, intEn := i, vector := v % 64, log2 := n, tail := 0, head := 0, posted := 0, phase := true, held := [] }
        ∧ (∀ p, p ≠ q → y.cq p = s.cq p) ∧ y.fetch.mem = s.mem ∧ y.fetch.job = s.job ∧ y.fetch.boot = s.boot ∧ y.fetch.run = s.run)
      ∧ (¬ (s.pcie.busMaster = true ∧ 4 ≤ n ∧ n ≤ 12) → ∃ u, exec (.cqEnable q i v n) s = .next u
        ∧ (u.cq q).enable = false ∧ State.Violated { s with cqs := u.cqs } u 4))

/-- Disabling a queue (R355): ENABLE is cleared and commands already fetched run on; a CQ loses every entry that is owed to it. -/
def Obligations.DisablingAQueue : Prop :=
  ∀ (s : State) (q : Nat) (i : Bool) (v : Nat), s.takesWrites = true → q < 16 → s.sqs.length = 16 → s.cqs.length = 16 →
    ((s.sq q).enable = true → ∃ u, exec (.sqDisable q (s.sq q).cq (s.sq q).log2) s = .next u
      ∧ u = { s with sqs := u.sqs } ∧ u.sq q = { s.sq q with enable := false, ring := [], blocked := false } ∧ ∀ p, p ≠ q → u.sq p = s.sq p)
    ∧ ((s.cq q).enable = true → ∃ u, exec (.cqDisable q i v (s.cq q).log2) s = .next u
      ∧ u.cq q = { s.cq q with enable := false, intEn := i, vector := v % 64, posted := 0, held := [] }
      ∧ (∀ p, p ≠ q → u.cq p = s.cq p) ∧ u.cmds.length = s.cmds.length ∧ (∀ c ∈ u.cmds, c.cq ≠ q ∨ q = 16)
      ∧ u.mem = s.mem ∧ u.job = s.job ∧ u.boot = s.boot ∧ u.run = s.run)

/-- EV_ACK and EV_CTRL (R393): every write of EV_ACK arms the vector, and one with a newer record in the ring signals at once while INT_EN
is 1; a write of 1 to INT_EN arms the vector. -/
def Obligations.EventRegistersAreWritten : Prop :=
  ∀ (s : State) (n v : Nat) (m : BitVec 9), s.takesWrites = true →
    (∃ u, exec (.evAck n) s = .next u ∧ u = { s with log := { s.log with ack := n % 4294967296, armed := true }, pcie := u.pcie, out := u.out }
      ∧ u.pcie = { s.pcie with msixPend := u.pcie.msixPend }
      ∧ u.out = if s.log.intEn ∧ (∃ r ∈ s.log.ring, newer r.seq (n % 4294967296) = true) ∧ s.pcie.busMaster ∧ (s.pcie.msix.getD s.log.vector ⟨0, 0, true⟩).masked = false
          then s.out ++ [.msix s.log.vector (s.pcie.msix.getD s.log.vector ⟨0, 0, true⟩).addr (s.pcie.msix.getD s.log.vector ⟨0, 0, true⟩).data]
          else s.out)
    ∧ exec (.evCtrlIntEn v m) s = .next { s with log := { s.log with intEn := true, vector := v % 64, alertMask := m, armed := true } }

/-- Saturating counters (R388, R389): an increment that would pass all ones leaves all ones, sets the SAT bit, and raises COUNTER_SATURATED
where the bit was clear; writing 1 to a set SAT bit clears it and its counter, and an access of another size is a violation of class 1. -/
def Obligations.CountersStopAndSatBitsClear : Prop :=
  (∀ (s : State) (o n : Nat), s.tm.Ok → o ≠ evLostAt →
    s.Noted (s.count o n) ∧ kvGet (s.count o n).tm.ctr o = min allOnes64 (kvGet s.tm.ctr o + n)
      ∧ (o ∈ (s.count o n).tm.sat ↔ o ∈ s.tm.sat ∨ allOnes64 < kvGet s.tm.ctr o + n)
      ∧ (allOnes64 < kvGet s.tm.ctr o + n → o ∉ s.tm.sat →
          s.Logged (s.count o n) 0x0901 (if isStallCounter o then srcStall else srcModule) (if isStallCounter o then (o - 0x1000000) / 0x1000 else 0xFFFF))
      ∧ (o ∈ s.tm.sat ∨ kvGet s.tm.ctr o + n ≤ allOnes64 → (s.count o n).log = s.log))
  ∧ ∀ (s : State) (o size w : Nat), s.takesWrites = true → s.tm.Ok →
    ∃ u, exec (.satBitClear o size w) s = .next u ∧
      if sizeFits o size then
        let hit := fun c => ∃ i < 64, reaches o size i = true ∧ bit (spread o size w) i = true ∧ satCounter (o - o % 8) i = some c
        u = { s with tm := u.tm } ∧ u.tm = { s.tm with ctr := u.tm.ctr, sat := u.tm.sat }
          ∧ (∀ c, c ∈ u.tm.sat ↔ c ∈ s.tm.sat ∧ ¬ hit c)
          ∧ ∀ c, (c ∈ s.tm.sat ∧ hit c → kvGet u.tm.ctr c = 0) ∧ (¬ (c ∈ s.tm.sat ∧ hit c) → kvGet u.tm.ctr c = kvGet s.tm.ctr c)
      else s.Violated u 1

/-- ALERT (R394): it is asserted while Amrath's trip of R427 holds it and while a record newer than EV_ACK carries the ALERTED flag; a record
carries it when its class is not masked, and 0x0406 always does; out of reset every class is masked and ALERT is deasserted. -/
def Obligations.AlertFollowsTheMask : Prop :=
  (∀ s : State, s.alert = true ↔ s.power.tripAlert = true ∨ ∃ r ∈ s.log.ring, r.alerted = true ∧ newer r.seq s.log.ack = true)
    ∧ (∀ (s : State) (code kind index : Nat) (d : Bytes), 0x0100 ≤ code →
      ∃ r, (s.enterRecord code kind index d).log.ring.head? = some r ∧ r.code = code
        ∧ (r.alerted = true ↔ code = 0x0406 ∨ s.log.alertMask.getLsbD (code / 256 - 1) = false))
    ∧ (∀ c, 1 ≤ c → c ≤ 9 → State.reset.log.alertMask.getLsbD (c - 1) = true) ∧ State.reset.alert = false

/-- In STANDBY BAR0 reads zero, as nothing answers; in BOOTING only the words below 0x28, HM_IDENT to HM_STATE, read and every other offset
reads zero; both discard every write; from INERT onwards every word is live (R384). -/
def Obligations.StandbyAndBootingShutBar0 : Prop :=
  ∀ (s : State) (o size : Nat),
    (s.mode = .standby → s.bar0Read o size = 0)
    ∧ (s.mode = .booting → (o < 0x28 → s.barWord o = s.identWord o) ∧ (0x28 ≤ o → s.bar0Read o size = 0))
    ∧ (s.mode = .standby ∨ s.mode = .booting → ∀ (q v n w : Nat) (b : Bool) (l : List Placed) (m : BitVec 9),
      ∀ i ∈ [Instr.registerWrite o size v, .sqTailDb q v l, .cqHeadDb q v, .sqEnable q v n, .sqDisable q v n, .cqEnable q b w n,
        .cqDisable q b w n, .evAck v, .evCtrlIntEn w m, .satBitClear o size v, .resetKey, .telemetryFreezeSet, .telemetryFreezeClear,
        .bwBaseWrite v, .msixVectorUnmask w], exec i s = .next s)
    ∧ (s.mode ≠ .standby → s.mode ≠ .booting → s.tm.frozen = false → s.barWord o = s.liveWord o)

/-- Register writes (R351): a size or an alignment that is not allowed is a violation of class 1; a write below 0x48, where every register
is RO, changes nothing; a write to EV_ACK, the freeze bit, the reset key or BW_BASE does what its own row does; JS_SNAP_HOST_LEN takes the
value written. -/
def Obligations.RegisterWritesReachTheirRegister : Prop :=
  ∀ (s : State) (o size v : Nat), s.takesWrites = true →
    (sizeFits o size = false → ∃ u, exec (.registerWrite o size v) s = .next u ∧ s.Violated u 1)
    ∧ (sizeFits o size = true → o < 0x48 → exec (.registerWrite o size v) s = .next s)
    ∧ exec (.registerWrite 0x10010 4 v) s = exec (.evAck v) s
    ∧ exec (.registerWrite 0x48 4 1) s = exec .telemetryFreezeSet s ∧ exec (.registerWrite 0x48 4 0) s = exec .telemetryFreezeClear s
    ∧ exec (.registerWrite 0x48 4 (0xD1A0 * 65536)) s = exec .resetKey { s with tm := { s.tm with frozen := false, image := [] } }
    ∧ exec (.registerWrite 0x700000 8 v) s = exec (.bwBaseWrite v) s
    ∧ ∃ u, exec (.registerWrite 0x400068 8 v) s = .next u ∧ u = { s with snap := { s.snap with hostLen := v % 2 ^ 64 } }

/-- BW_BASE (R352): a write holds bits 40 to 21 of a byte address; the base applies once a read has returned it. -/
def Obligations.WindowBaseAppliesAfterTheRead : Prop :=
  ∀ (s : State) (v : Nat), s.takesWrites = true →
    ∃ u, exec (.bwBaseWrite v) s = .next u ∧ u = { s with pcie := { s.pcie with bwWritten := some (v / 2097152 % 1048576 * 2097152) } }
      ∧ ∃ x, exec .bwBaseRead u = .next x ∧ x.pcie = { s.pcie with bwBase := v / 2097152 % 1048576 * 2097152, bwWritten := none }
        ∧ x = { s with pcie := x.pcie, out := x.out } ∧ x.window = v / 2097152 % 1048576 * 2097152
        ∧ (x.out = s.out ++ [.bar0Return 0x700000 (v / 2097152 % 1048576 * 2097152)])

/-- Vectors that are pending (R378): unmasking one, or setting Bus Master Enable, sends its message where both allow it, and it is pending
no more. -/
def Obligations.PendingVectorsAreSent : Prop :=
  ∀ s : State,
    (∀ v (e : MsixEntry), s.takesWrites = true → s.pcie.msix[v]? = some e →
      ∃ u, exec (.msixVectorUnmask v) s = .next u ∧ u = { s with pcie := u.pcie, out := u.out }
        ∧ u.pcie.msix[v]? = some { e with masked := false } ∧ (∀ w, w ≠ v → u.pcie.msix[w]? = s.pcie.msix[w]?)
        ∧ if v ∈ s.pcie.msixPend ∧ s.pcie.busMaster then v ∉ u.pcie.msixPend ∧ u.out = s.out ++ [.msix v e.addr e.data]
          else u.pcie.msixPend = s.pcie.msixPend ∧ u.out = s.out)
    ∧ (s.hostReaches = true → s.pcie.busMaster = false →
      ∃ u, exec .busMasterEnable s = .next u ∧ u = { s with pcie := u.pcie, out := u.out }
        ∧ u.pcie = { s.pcie with busMaster := true, msixPend := u.pcie.msixPend } ∧ s.out <+: u.out
        ∧ ∀ v < 64, let e := s.pcie.msix.getD v ⟨0, 0, true⟩
          (v ∈ u.pcie.msixPend ↔ v ∈ s.pcie.msixPend ∧ e.masked = true)
            ∧ (v ∈ s.pcie.msixPend → e.masked = false → .msix v e.addr e.data ∈ u.out))

/-- Setting HM_CTRL.TELEMETRY_FREEZE captures the words that reads of the frozen blocks then return, a counter's its value at that instant,
whatever is counted later, and clearing it ends that (R390). The management pointer is 16 bits wide, and a read returns the image from it
upward, while 50 V is present (R434). The mailbox answers an attestation request with its report, its keys or its endorsement, and one of
another length with FFH (R460); what a DOE discovery answers is free (log 18). -/
def Obligations.FreezePointerAndMailbox : Prop :=
  ∀ (s : State) (p : Nat) (b : Bytes),
    (s.takesWrites = true →
      (∃ u, exec .telemetryFreezeSet s = .next u
        ∧ u = { s with tm := { s.tm with frozen := true, image := if s.tm.frozen then s.tm.image else s.capture } }
        ∧ ∀ o, frozenOffset o = true → u.barWord o = u.tm.imageWord o ∧ (∀ c n, (u.count c n).barWord o = u.barWord o)
          ∧ (s.tm.frozen = false → s.stateWordAt o = none → o < 0x180000 ∨ 0x182000 ≤ o → u.barWord o = kvGet s.tm.ctr o))
      ∧ ∃ u, exec .telemetryFreezeClear s = .next u ∧ u = { s with tm := { s.tm with frozen := false, image := [] } }
        ∧ ∀ o, u.barWord o = u.liveWord o)
    ∧ (s.power.present = true → ∃ u, exec (.i3cPointerWrite p) s = .next u ∧ u = { s with pcie := { s.pcie with i3cPtr := p % 65536 } }
      ∧ ∀ n, u.i3cRead n = (List.range n).map fun i => s.imageByte (p % 65536 + i))
    ∧ (s.power.present = false → exec (.i3cPointerWrite p) s = .next s)
    ∧ (s.hostReaches = true → s.mode.answers = true →
      exec (.doeRequest 1 b) s = .next { s with out := s.out ++ [.doe (
        if b.length = 36 ∧ zeroAt b 1 3 = true ∧ fld b 0 1 = 1 then s.report (slice b 4 32)
        else if b.length = 36 ∧ zeroAt b 1 3 = true ∧ fld b 0 1 = 2 then identityBlock
        else if b.length = 36 ∧ zeroAt b 1 3 = true ∧ fld b 0 1 = 3 then endorsement
        else [0xFF])] }
      ∧ exec (.doeRequest 0 b) s = .next { s with out := s.out ++ [.doe (Config.doeDiscovery b)] })

/-- A DMA access that ends in error (R369, R379): a violation of class 7; a command other than a started RUN_STEPS, a SERVE and a SNAPSHOT
that drains completes with ABORTED, a SERVE with the tokens that it has generated; a batch that cannot be read is marked, and the step of a
group that has started with it is skipped. -/
def Obligations.DmaErrorsEndTheirCommand : Prop :=
  ∀ (s : State) (sq cid a step group : Nat),
    (∀ c, s.cmd? sq cid = some c → (c.isOp opRun = false ∨ c.started = false) → c.isOp opServe = false →
      (c.isOp opSnapshot = false ∨ ⟨sq, cid⟩ ∉ s.snap.serving) → s.entryFits c = true →
      ∃ u, exec (.dmaErrorCompletion (.command sq cid) a) s = .next u ∧ s.Reported u ∧ s.Completed u c .aborted 0 0
        ∧ s.Counted u (evViolationAt 7) 1)
    ∧ (∀ c, s.cmd? sq cid = some c → c.isOp opServe = true → s.entryFits c = true →
      ∃ u, exec (.dmaErrorCompletion (.command sq cid) a) s = .next u ∧ State.Reported { s with run := u.run } u
        ∧ u.run = { s.run with serves := s.run.serves.filter fun x => !(x.sq == sq && x.cid == cid) }
        ∧ s.Completed u c .aborted (s.serveResult c).1 (s.serveResult c).2 ∧ s.Counted u (evViolationAt 7) 1)
    ∧ (s.cmd? sq cid = none → exec (.dmaErrorCompletion (.command sq cid) a) s = .next s)
    ∧ ((∃ b ∈ s.job.batches, b.step = step ∧ b.group = group) →
      ∃ u, exec (.dmaErrorCompletion (.batch step group) a) s = .next u ∧ State.Violated { s with job := u.job, run := u.run } u 7
        ∧ u.run = (if step = s.job.step ∧ (∃ g ∈ s.run.groups, g.group = group ∧ g.started = true) then { s.run with stepNar := true } else s.run)
        ∧ u.job = { s.job with batches := s.job.batches.map fun b => if b.step = step && b.group = group then { b with bad := true } else b })

/-! ## Resets, supply, temperatures and clocks -/

/-- A module reset (R386, R433, R443): the key, where neither a run nor a harbour holds the module, and RESET_N low bring back the
job, the run, the harbour, the commands and the submission queues; memory's bytes, OTP, the flash and HM_USEC stand. RESET_N high lets the boot go on to INERT, with every failed stall out of use. -/
def Obligations.ModuleResetForgets : Prop :=
  ∀ s : State,
    let back := fun u : State => u.mem = { s.mem with classes := [] } ∧ s.KeptInFlash u ∧ u.usec = s.usec ∧ u.job = Job.reset
      ∧ u.cmds = [] ∧ u.harbour = Harbour.reset ∧ u.run = Run.reset ∧ u.pcie.busMaster = false ∧ u.sqs = State.reset.sqs
    (s.takesWrites = true → s.inRun = false → s.harbour.joined = false →
      ∃ u, exec .resetKey s = .next u ∧ back u ∧ u.mode = if s.power.resetLow then .booting else .inert)
    ∧ (s.takesWrites = true → s.inRun = true → ∃ u, exec .resetKey s = .next u ∧ u.cmds = [] ∧ u.pcie.busMaster = false)
    ∧ (s.power.present = true → s.takesReset = true → s.inRun = false → s.harbour.joined = false →
      ∃ u, exec .resetNLow s = .next u ∧ back u ∧ u.mode = .booting ∧ u.power.resetLow = true)
    ∧ ∀ l : List Nat,
      (s.mode = .booting → s.stalls.length = 256 → ∃ u, exec (.resetNRelease l) s = .next u ∧ u.mode = .inert
        ∧ u.power.resetLow = false ∧ u.power.pwrGood = true ∧ u.power.domains = inertDomains ∧ u.mem = s.mem ∧ s.KeptInFlash u
        ∧ ∀ i ∈ l, i < 256 → (u.stall i).state = 4)
      ∧ (s.mode ≠ .booting → exec (.resetNRelease l) s = .next { s with power := { s.power with resetLow := false } })

/-- The host goes away (R350, R380, R382): Bus Master Enable cleared, a reset of the function and PERST# disable every queue and drop the
outstanding commands and the batches of the host's memory; the two resets also bring back the queue registers, BW_BASE and the MSI-X table,
and the first leaves them. PERST# released, the link trains where the PCIe domain is on, to a speed and width that are free (R435, R441;
log 91). -/
def Obligations.TheHostGoesAway : Prop :=
  ∀ s : State, s.boot.resetDue = false → s.inRun = false → s.snap.draining = false →
    let gone := fun u : State => u.cmds = [] ∧ u.pcie.busMaster = false ∧ (∀ q, (u.sq q).enable = false ∧ (u.cq q).enable = false)
      ∧ u.mem = s.mem ∧ u.boot = s.boot ∧ u.run = s.run ∧ u.journal = s.journal ∧ u.power = s.power
      ∧ u.job = { s.job with batches := s.job.batches.filter (·.inModule) }
    let regs := fun u : State => u.sqs = State.reset.sqs ∧ u.cqs = State.reset.cqs ∧ u.pcie.bwBase = 0 ∧ u.pcie.msix = Pcie.reset.msix
      ∧ u.pcie.msixPend = []
    (s.pcie.busMaster = true → ∃ u, exec .busMasterDisable s = .next u ∧ gone u
      ∧ (∀ q, u.sq q = (s.sq q).stop ∧ u.cq q = (s.cq q).stop) ∧ u.pcie = { s.pcie with busMaster := false })
    ∧ (s.hostReaches = true → ∃ u, exec .functionLevelReset s = .next u ∧ exec .d3hotToD0 s = .next u ∧ gone u ∧ regs u
      ∧ u.log.intEn = false ∧ u.log.vector = 0 ∧ u.log.alertMask = 0x1FF ∧ u.log.ack = u.log.headSeq ∧ u.tm.frozen = false
      ∧ u.snap.hostBase = 0 ∧ u.snap.hostLen = 0)
    ∧ (s.mode ≠ .standby → ∃ u, exec .perstAssert s = .next u ∧ gone u ∧ regs u ∧ u.pcie.perst = true
      ∧ u.pcie.config = PciConfig.reset)
    ∧ (s.pcie.perst = false ∨ s.mode = .standby → exec .perstDeassert s = .next { s with pcie := { s.pcie with perst := false } })
    ∧ (s.pcie.perst = true → s.mode ≠ .standby → ∃ u, exec .perstDeassert s = .next u ∧ u = { s with pcie := u.pcie, freeCtr := u.freeCtr }
      ∧ u.pcie = { s.pcie with perst := false, config := PciConfig.reset, rate := u.pcie.rate, lanes := u.pcie.lanes }
      ∧ u.pcie.rate ∈ [25, 50, 80, 160, 320] ∧ u.pcie.lanes ∈ [1, 2, 4])

/-- The input comes up (R413, R433, R440): STANDBY with HM_USEC at zero and the straps read; from 44 V on the module boots to INERT, with
every stall that failed its test out of use, unless RESET_N holds it. -/
def Obligations.TheInputComesUp : Prop :=
  ∀ (s : State) (mv straps : Nat) (l : List Nat),
    (s.power.present = false → 30000 ≤ mv → ∃ u, exec (.powerApplied mv straps) s = .next u ∧ u.mode = .standby ∧ u.power.present = true
      ∧ u.power.inputMv = mv ∧ u.power.feedId = straps % 256 ∧ u.power.domains = standbyDomains ∧ u.usec = 0 ∧ u.mem = Mem.reset
      ∧ u.job = Job.reset ∧ u.cmds = [] ∧ s.KeptInFlash u)
    ∧ (s.mode = .standby → s.power.present = true → 44000 ≤ mv → mv < 62000 → ∃ u, exec (.bootStart mv l) s = .next u
      ∧ u.mode = (if s.power.resetLow then .booting else .inert) ∧ u.power.domains = inertDomains ∧ u.power.pwrEn = true
      ∧ u.power.cap = 1000 ∧ u.usec = s.usec ∧ s.KeptInFlash u
      ∧ (s.power.resetLow = false → ∀ i ∈ l, i < 256 → (u.stall i).state = 4))
    ∧ (mv < 44000 → exec (.bootStart mv l) s = .next s)
    ∧ (s.power.present = true → 42500 ≤ mv →
      exec (.inputUndervoltClear mv) s = .next { s with power := { s.power with inputMv := mv, undervolt := false } })

/-- The input goes down (R333, R334, R433, R440, R471): without it, at the lockout, with PWR_EN low or from 62 V on the piles lose
their contents and the job ends, and in the first three OTP and the flash stand; below 42 V a module with a job goes to FAULTED, and an INERT
one raises INPUT_UNDERVOLT. -/
def Obligations.TheInputGoesDown : Prop :=
  ∀ (s : State) (mv : Nat), s.power.present = true →
    let dark := fun u : State => u.mode = .standby ∧ u.power.domains = standbyDomains ∧ u.mem = Mem.reset ∧ u.job = Job.reset ∧ u.cmds = []
    (∃ u, exec .powerRemoved s = .next u ∧ u.mode = .standby ∧ u.power.present = false ∧ u.power.domains = 0 ∧ u.mem = Mem.reset
      ∧ u.job = Job.reset ∧ u.cmds = [] ∧ s.KeptInFlash u)
    ∧ (s.mode ≠ .standby → mv < 38000 → ∃ u, exec (.inputLockout mv) s = .next u ∧ dark u ∧ s.KeptInFlash u)
    ∧ (s.mode ≠ .standby → 62000 ≤ mv → ∃ u, exec (.inputOvervoltage mv) s = .next u ∧ dark u)
    ∧ (s.mode ≠ .standby → s.inRun = false → s.harbour.joined = false → ∃ u, exec .pwrEnLow s = .next u ∧ dark u ∧ s.KeptInFlash u
      ∧ u.power.pwrEn = false)
    ∧ (mv < 42000 → s.power.undervolt = false → s.boot.resetDue = false →
      ∃ u, exec (.inputUndervolt mv) s = .next u ∧ u.power.undervolt = true ∧ u.power.inputMv = mv
        ∧ (s.mode.hasJob = true → u.mode = .faulted)
        ∧ (s.mode = .inert → State.Noted { s with power := { s.power with inputMv := mv, undervolt := true } } u ∧ s.Logged u 0x0503 0 0xFFFF))

/-- Thermal steps and halved quays (R426): a pipeline's step falls by one at 100 °C or above in its hottest stall, and rises by one after
10 ms at 95 °C or below; a DRAM die at 95 °C halves its quay until the die stands at 90 °C or below. -/
def Obligations.ThermalStepsFollowTheHottest : Prop :=
  ∀ (s : State) (p : Nat),
    (∀ i, s.hottest p = some i → s.thermalMayChange p = true →
      (16 * 100 ≤ (s.stall i).temp.toInt → s.thermalStep p < 4 → ∃ u, exec (.thermalStepDown p) s = .next u
        ∧ u.thermalStep p = s.thermalStep p + 1 ∧ (∀ q, q ≠ p → u.thermalStep q = s.thermalStep q)
        ∧ u.mem = s.mem ∧ u.job = s.job ∧ u.boot = s.boot ∧ u.run = s.run)
      ∧ ((s.stall i).temp.toInt ≤ 16 * 95 → 0 < s.thermalStep p → (∀ c, s.coolSince p = some c → c + 10000 ≤ s.usec) →
        s.coolSince p ≠ none → ∃ u, exec (.thermalStepUp p) s = .next u
        ∧ u.thermalStep p + 1 = s.thermalStep p ∧ (∀ q, q ≠ p → u.thermalStep q = s.thermalStep q)
        ∧ u = { s with power := u.power, stalls := u.stalls }))
    ∧ (∀ t : BitVec 16, p < 24 → s.sensorOn (p + 2) = true → 16 * 95 ≤ t.toInt → p ∉ s.power.halved →
      ∃ u, exec (.dramThermalHalve p t) s = .next u ∧ u.power.halved = s.power.halved ++ [p] ∧ s.Logged u 0x0502 7 (p + 2)
        ∧ u.mem = s.mem ∧ u.job = s.job ∧ u.boot = s.boot ∧ u.run = s.run)
    ∧ ∀ t : BitVec 16, p < 24 → s.sensorOn (p + 2) = true →
      (t.toInt ≤ 16 * 90 → ∃ u, exec (.dramThermalHalveEnd ⟨p, t⟩) s = .next u ∧ u = { s with power := u.power }
        ∧ u.power = { s.power with halved := s.power.halved.filter (· != p), temps := u.power.temps })
      ∧ (16 * 90 < t.toInt → exec (.dramThermalHalveEnd ⟨p, t⟩) s = .next s)

/-- Trips and lost clocks (R420, R427): the harbourmaster's trip and a clock that loses its lock are module faults, the trip with every
stall row and quay off; Amrath's trip takes the module to STANDBY and raises ALERT. -/
def Obligations.TripsAndLostClocksFault : Prop :=
  ∀ (s : State) (k : Nat) (t : BitVec 16) (i : ClockIsland),
    (tripHolds k t = true → s.sensorOn k = true → s.mode ≠ .standby → s.mode ≠ .booting → s.boot.resetDue = false →
      ∃ u, exec (.thermalTripFault k t) s = .next u ∧ u.mode = .faulted ∧ u.boot.svn = s.boot.svn
        ∧ (∀ r < 32, u.powered r = false) ∧ ∀ q < 24, u.powered (quayDomain q) = false)
    ∧ (s.power.present = true → s.sensorOn k = true → 16 * 115 ≤ t.toInt →
      ∃ u, exec (.thermalTripAmrath k t) s = .next u ∧ u.mode = .standby ∧ u.power.tripAlert = true ∧ u.alert = true ∧ s.KeptInFlash u
        ∧ (s.mode ≠ .standby → u.mem = Mem.reset ∧ u.power.domains = standbyDomains))
    ∧ (s.mode ≠ .standby → s.mode ≠ .booting → s.islandOn i = true → s.boot.resetDue = false →
      ∃ u, exec (.clockLockLost i) s = .next u ∧ u.mode = .faulted ∧ u.boot.svn = s.boot.svn
        ∧ (s.harbour.restore = none → s.test.queue = [] → u.power = s.power))

/-- Readings and rails (R402, R411, R422, R426): a refresh takes the readings, adds the energy, and keeps for each pipeline the time from which
its hottest stall has stood at 95 °C or below; where a rail has settled, every stall of the pipeline takes its target step, at most one
change a millisecond. -/
def Obligations.ReadingsAndRails : Prop :=
  ∀ (s : State) (r : Readings) (i : Nat),
    (s.power.present = true → ∃ u, exec (.sensorRefresh r) s = .next u
      ∧ u.power = { s.power with inputMv := r.milliVolts, inputMa := r.milliAmps, powerMw := r.milliWatts,
                                 temps := (List.range 40).map (fun i => r.temps.getD i (s.power.temps.getD i 0x8000)), cool := u.power.cool }
      ∧ (∀ t k h, s.job.table = some t → k ∈ t.stallsUsed.filterMap t.pipelineOf → u.hottest k = some h →
        u.coolSince k = if (u.stall h).temp.toInt ≤ 16 * 95 then some ((s.coolSince k).getD s.usec) else none)
      ∧ s.Counted u (tmAt 0x78) r.milliJoules ∧ u.mem = s.mem ∧ u.job = s.job ∧ u.boot = s.boot ∧ u.run = s.run ∧ u.cmds = s.cmds)
    ∧ (s.power.present = false → exec (.sensorRefresh r) s = .next s)
    ∧ let together := fun j => j = i ∨ ∃ t q, s.job.table = some t ∧ t.pipelineOf i = some q ∧ t.pipelineOf j = some q
      ∃ u, exec (.dvfsRailSettled i) s = .next u ∧ u = { s with stalls := u.stalls } ∧ ∀ j,
        (¬ together j → u.stall j = s.stall j)
        ∧ (together j → j < s.stalls.length → ∀ k, (s.stall j).target = some k → k < (s.stall j).dvfs →
          (∀ at', (s.stall j).lastStep = some at' → at' + 1000 ≤ s.usec) →
          u.stall j = { s.stall j with dvfs := k, target := none, lastStep := some s.usec })

/-! ## The quays and the window -/

/-- Reads at the quays (R199 to R201, R213) and a refresh: an allowed read returns the bytes as every earlier write has left them, with the
elements that the load path delivers. A line with one symbol in error, of its data or its check symbols, is corrected and counted. One
with two in error, or with a symbol of its address in error, is poisoned, and a module fault follows; a read that the page classes refuse
is a module fault too. -/
def Obligations.QuayReadsAnswer : Prop :=
  ∀ (s : State) (src : Source) (a n pile : Nat) (x : Option Nat), a + max 1 n ≤ Config.memoryEnd →
    exec (.refresh pile) s = .next s
    ∧ (s.ResetSettled → s.refusedPage src false a n = none →
      (∃ u, exec (.quayRead src a n x []) s = .next u ∧ s.Noted u
        ∧ .quayReturn a (s.view.raw a n) (match s.tensorNamed x with | none => [] | some y => loadCodes y s.view a n) ∈ u.out)
      ∧ ∀ l ∈ linesOf a n, ∀ es k, symbolsOff es = [k] → k < 35 →
        ∃ u, exec (.quayRead src a n x [⟨l, es⟩]) s = .next u ∧ State.Noted { s with run := { s.run with once := u.run.once } } u
          ∧ s.Counted u (tpAt (locate s.pinned (64 * l)).1 0x18) 1)
    ∧ (s.boot.resetDue = false → s.refusedPage src false a n = none → ∀ l ∈ linesOf a n, ∀ es,
      ((∃ k, symbolsOff es = [k] ∧ 35 ≤ k) ∨ ∃ j k, symbolsOff es = [j, k]) →
      ∃ u, exec (.quayRead src a n x [⟨l, es⟩]) s = .next u ∧ u.mode = .faulted ∧ (s.snap.draining = false → l ∈ u.mem.poisoned))
    ∧ (s.boot.resetDue = false → s.refusedPage src false a n ≠ none → ∀ hits,
      ∃ u, exec (.quayRead src a n x hits) s = .next u ∧ u.mode = .faulted ∧ u.boot.svn = s.boot.svn)

/-- Writes at the quays (R40, R202, R213, R215, R216): an allowed write stores the bytes that the store path gives, and one of a public
format joins its statistics to the step's; the first write to a fragment of a draining snapshot copies the fragment first; it waits where
there is no room for the copy, and a later one waits behind it. A refused write is a module fault that stores nothing. -/
def Obligations.QuayWritesStore : Prop :=
  ∀ (s : State) (src : Source) (a : Nat) (x : Option Nat) (d w : Bytes) (wide : Bool), a + max 1 d.length ≤ Config.memoryEnd →
    w = (match s.tensorNamed x with | none => d | some y => (storeBytes y wide d).1) →
    let whole := 0 < w.length ∧ a % granuleSize + w.length ≤ granuleSize
    let behind := (s.quay (s.fragOf a).1).waiting.any fun h => s.fragOf h.addr == s.fragOf a
    let ran := fun u : State => u.run = { s.run with stats := u.run.stats, once := u.run.once }
      ∧ ((∀ y, s.tensorNamed x = some y → (tFmt y).isPublic = false) → u.run.stats = s.run.stats)
    (s.ResetSettled → s.refusedPage src true a w.length = none →
      (s.snap.pend = [] → s.mem.wf = true → ∃ u, exec (.quayWrite src a x ⟨d, wide⟩ []) s = .next u
        ∧ State.Noted { s with mem := u.mem, run := u.run } u ∧ ran u
        ∧ (∀ y, s.tensorNamed x = some y → (tFmt y).isPublic = true → u.run.stats = mergeInto s.run.stats (tNum y) (storeBytes y wide d).2)
        ∧ ∀ b, u.mem.byte b = if a ≤ b ∧ b < a + w.length then w.getD (b - a) 0 else s.mem.byte b)
      ∧ (whole → behind = false → s.untouched (s.fragOf a) = true → s.copyRoom (s.fragOf a) = true →
        ∃ u, exec (.quayWrite src a x ⟨d, wide⟩ []) s = .next u ∧ u.mem = s.mem.write a w ∧ u.job = s.job ∧ u.boot = s.boot
          ∧ u.cmds = s.cmds ∧ ran u
          ∧ u.snap = { s.snap with
              copies := s.snap.copies ++ [((s.fragOf a).1, (s.fragOf a).2, s.fragBytes (s.fragOf a))],
              badCopies := if s.fragPoisoned (s.fragOf a) then s.snap.badCopies ++ [s.fragOf a] else s.snap.badCopies })
      ∧ (whole → s.snap.pend ≠ [] → (behind = true ∨ s.untouched (s.fragOf a) = true ∧ s.copyRoom (s.fragOf a) = false) →
        (s.fragOf a).1 < s.quays.length →
        ∃ u, exec (.quayWrite src a x ⟨d, wide⟩ []) s = .next u ∧ u.mem = s.mem ∧ u.job = s.job ∧ u.boot = s.boot ∧ u.cmds = s.cmds
          ∧ ran u ∧ u.snap = s.snap ∧ (u.quay (s.fragOf a).1).waiting = (s.quay (s.fragOf a).1).waiting ++ [⟨a, w, s.usec⟩]))
    ∧ (s.boot.resetDue = false → s.refusedPage src true a w.length ≠ none → s.snap.draining = false →
      ∃ u, exec (.quayWrite src a x ⟨d, wide⟩ []) s = .next u ∧ u.mode = .faulted ∧ u.mem = s.mem)

/-- The BAR2 window (R193, R201, R213, R352): a read that the page classes allow returns the bytes as every earlier write has left them, a
refused one zeros; a write stores its bytes; a refused access is a violation of class 2 that leaves its address, and stores nothing. -/
def Obligations.HostWindow : Prop :=
  ∀ (s : State) (o n : Nat) (d : Bytes), s.hostReaches = true → s.ResetSettled →
    (s.hostMay false (s.window + o) n = true → exec (.bar2Read o n []) s
      = .next { s.windowUsed with
          out := s.out ++ [.readReturn o (s.view.raw (s.window + o) n) (s.view.isPoisoned (s.window + o) n)] })
    ∧ (s.hostMay false (s.window + o) n = false → ∃ u, exec (.bar2Read o n []) s = .next u
      ∧ State.Violated { s.windowUsed with
          out := s.out ++ [.readReturn o (zeros n) false], pcie := { s.pcie with bwRefused := s.window + o } } u 2)
    ∧ (s.hostMay true (s.window + o) d.length = true → s.snap.pend = [] → s.mem.wf = true → ∃ u, exec (.bar2Write o d) s = .next u
      ∧ u.boot = s.boot ∧ u.power = s.power ∧ u.cmds = s.cmds ∧ u.run = s.run ∧ u.journal = s.journal
      ∧ ∀ b, u.mem.byte b = if s.window + o ≤ b ∧ b < s.window + o + d.length then d.getD (b - (s.window + o)) 0 else s.mem.byte b)
    ∧ (d ≠ [] → s.hostMay true (s.window + o) d.length = false → ∃ u, exec (.bar2Write o d) s = .next u
      ∧ State.Violated { s.windowUsed with pcie := { s.pcie with bwRefused := s.window + o } } u 2)

/-- Units of the piles: the contributions of the step and attempt in progress reach their region with an exact add, and wait while it is not
open; all others are discarded (R130, R131, R133); a region opens once its dependencies have completed (R130); a scrub counts its pile's
pass (R200); the packer packs each block of a started group once, in L4 with a scale of its own (R211). -/
def Obligations.RegionsScrubAndPacker : Prop :=
  ∀ (s : State) (t : Table), s.job.table = some t →
    (∀ i inst loc step attempt (c : Contribution), step ≠ s.job.step ∨ attempt ≠ s.job.attempt →
      exec (.atomicAdd i inst loc step attempt c) s = .next s)
    ∧ (∀ i inst loc (c : Contribution), s.tidesRun = true → rKind (t.tide i) = .regionOpen → loc < gLocs (t.tide i) →
      t.carries (t.tide i) loc = true →
      (s.region? i inst = none → exec (.atomicAdd i inst loc s.job.step s.job.attempt c) s
        = .next { s with run := { s.run with regions := s.run.regions ++ [⟨i, inst, false, [], [], [], false, [(loc, c)]⟩] } })
      ∧ ∀ (g : Region) (v : Int), s.region? i inst = some g → g.opened = true → loc ∉ g.cliffs → c.nar = false → c.cliff = false →
        kvGet g.counts loc + 1 ≤ s.regionDue t i → kvGet g.blocks loc + c.blocks ≤ 2 ^ gPhi (t.tide i) →
        s.locValue (t.tide i) (t.regionAddr (t.tide i) loc) = some v → s.snap.pend = [] →
        s.refusedPage .quayUnit true (t.regionAddr (t.tide i) loc) (locSize (t.tide i)) = none →
        ∃ u x, exec (.atomicAdd i inst loc s.job.step s.job.attempt c) s = .next u ∧ u.region? i inst = some x
          ∧ kvGet x.counts loc = kvGet g.counts loc + 1 ∧ kvGet x.blocks loc = kvGet g.blocks loc + c.blocks
          ∧ u.mem = s.mem.write (t.regionAddr (t.tide i) loc) (locBytes (t.tide i) (some (v + c.value)))
          ∧ u.job = s.job ∧ u.boot = s.boot ∧ u.cmds = s.cmds)
    ∧ (∀ i inst, s.tidesRun = true → s.tideStatus? i inst = some .waiting → rKind (t.tide i) = .regionOpen →
      s.depsDone ⟨t, i, inst⟩ = true → (∀ g, s.region? i inst = some g → g.waiting = []) →
      ((t.regionRanges (t.tide i)).findSome? fun a => s.refusedPage .quayUnit true a.1 a.2) = none →
      ∃ u x, exec (.regionOpen i inst) s = .next u ∧ u.tideStatus? i inst = some .done ∧ u.region? i inst = some x ∧ x.opened = true
        ∧ x.counts = [] ∧ x.blocks = [] ∧ x.cliffs = [] ∧ u.job = { s.job with progress := u.job.progress } ∧ s.job.progress < u.job.progress
        ∧ u.boot = s.boot ∧ u.cmds = s.cmds)
    ∧ (∀ p, s.ResetSettled → ∃ u, exec (.patrolScrub p []) s = .next u ∧
      if s.powered (quayDomain p) then s.Noted u ∧ s.Counted u (tpAt p 0x28) 1 else u = s)
    ∧ ∀ entry group tb f (e x y : Bytes) (g : GroupRun), (t.recs secShoal 2)[entry]? = some e → s.tidesRun = true →
      (s.run.groups.find? fun x => x.group == group) = some g → g.started = true → g.recompute = false →
      tb < ceilDiv (t.entryRows e g.tokens) 32 → t.tensor? (fld e 2 2) = some x → t.tensor? (fld e 4 2) = some y →
      let u0 : Tide := ⟨t, (t.inRange 1).headD 0, g.place⟩
      let b := encodeBlock .l4 false false none ((List.range 32).map fun j => s.elemVal u0 x (32 * tb + j) f)
      let a := s.place u0 y 0 (tCodes y + (tokenBlockOff (tCols y) 16 tb f).1)
      let z := s.place u0 y 0 (tScales y + (tokenBlockOff (tCols y) 16 tb f).2)
      ((entry, g.place, tb, f) ∈ s.run.packed → exec (.stashBlockPack entry group tb f) s = .next s)
      ∧ ((entry, g.place, tb, f) ∉ s.run.packed → s.snap.pend = [] → s.refusedPage .quayUnit true a 16 = none →
        s.refusedPage .quayUnit true z 1 = none →
        ∃ u, exec (.stashBlockPack entry group tb f) s = .next u ∧ u.run.packed = s.run.packed ++ [(entry, g.place, tb, f)]
          ∧ u.mem = (s.mem.write a (packCodes .l4 b.codes)).write z [BitVec.ofNat 8 (byteOfS8 b.s8)]
          ∧ u.job = s.job ∧ u.boot = s.boot ∧ u.cmds = s.cmds)

/-! ## Ports and the harbour -/

/-- The flit layer of a port that is up (R289 to R292): a codeword beyond correction, and a flit with a bad CRC, is counted and asked for
again once; a good flit acknowledges and returns credits, and the window opens, but for one that comes while another number is awaited,
which is discarded; a NAK and a timeout resend every flit from the one named; an unknown record counts as a NAK. -/
def Obligations.FlitLayerAnswers : Prop :=
  ∀ (s : State) (p n : Nat) (symbols checks : Bytes), s.ports.length = 8 → p < 8 → (s.port p).up = true →
    let cw := symbols ++ checks
    let x := s.port p
    let only := fun u : State => State.Noted { s with ports := u.ports } u ∧ ∀ q, q ≠ p → u.port q = s.port q
    let naks := (x.naks.filter fun us => decide (s.usec < us + 1000)) ++ [s.usec]
    (∀ i ∈ [Instr.flitError p cw, Instr.flitAcknowledgement p symbols checks],
      (∀ c, (flitOf cw = none ∧ c = 0x30 ∨ ∃ flit, flitOf cw = some (flit, n) ∧ flitCrcOk flit = false ∧ c = 0x38) →
        ∃ u, exec i s = .next u ∧ only u ∧ s.Counted u (tlAt p c) 1 ∧ (u.port p).awaiting = true
          ∧ if x.awaiting then u.port p = x else .link p (.nak x.rxSeq) ∈ u.out ∧ s.Counted u (tlAt p 0x18) 1 ∧ (u.port p).naks = naks)
      ∧ ∀ flit, flitOf cw = some (flit, n) → flitCrcOk flit = true → ∃ u, exec i s = .next u ∧ only u ∧ s.Counted u (tlAt p 0x28) n ∧
        let y := { x with awaiting := false, unacked := (if fld flit 4 2 ∈ x.unacked.map (·.seq) then (x.unacked.dropWhile fun f => f.seq != fld flit 4 2).drop 1
                                      else x.unacked),
                          credits := min 512 (x.credits + fld flit 6 2) }
        u.port p = if x.awaiting = true ∧ fld flit 2 2 ≠ x.rxSeq then x else if y.open = 0 then y else y.release)
    ∧ (∃ u, exec (.nak p n) s = .next u ∧ only u ∧ s.Counted u (tlAt p 0x20) 1 ∧ (u.port p).rxSeq = (x.rxSeq + 1) % 65536
      ∧ (u.port p).naks = naks
      ∧ if n ∈ x.unacked.map (·.seq) then .link p (.resend n) ∈ u.out
          ∧ (u.port p).unacked = (x.unacked.dropWhile fun f => f.seq != n).map fun f => { f with resends := f.resends + 1 }
        else (u.port p).unacked = x.unacked)
    ∧ (∀ f rest, x.unacked = f :: rest → ∃ u, exec (.replayTimeout p) s = .next u ∧ only u ∧ .link p (.resend f.seq) ∈ u.out
      ∧ s.Counted u (tlAt p 0x10) x.unacked.length
      ∧ u.port p = { x with unacked := x.unacked.map fun f => { f with resends := f.resends + 1 } })
    ∧ (x.unacked = [] → exec (.replayTimeout p) s = .next s)
    ∧ ∃ u, exec (.unknownControlRecord p n) s = .next u ∧ only u ∧ s.Counted u (tlAt p 0x20) 1
      ∧ u.port p = { x with rxSeq := (x.rxSeq + 1) % 65536, awaiting := false, naks := naks }

/-- A port trains, is lost and trains again (R292, R298, R335): a trained port of a member sends its HELLO; a first loss retrains; the second
of a step, and a training that fails, quarantine a partner port and suspend the mirroring; an optical engine below 80 °C is no loss (R427). -/
def Obligations.PortsTrainAndAreLost : Prop :=
  ∀ (s : State) (p : Nat) (l : PortLoss), s.ports.length = 8 → p < 8 → s.ResetSettled → s.harbour.inCensus = false →
    let only := fun u : State => State.Noted { s with ports := u.ports } u ∧ ∀ q, q ≠ p → u.port q = s.port q
    (∀ d : BitVec 16, d.toInt < 16 * 80 → exec (.portDown p (.overTemperature d)) s = .next s)
    ∧ ((s.port p).state = 1 → (s.port p).role ≠ 0 → ∃ u, exec (.portTrained p) s = .next u ∧ only u ∧ (u.port p).state = 2
      ∧ (u.port p).lanes = 15
      ∧ (s.harbour.restore = none → s.harbour.joined = true ∨ s.harbour.joining.isSome = true → .link p (.hello (s.ownHello p)) ∈ u.out)
      ∧ ∀ r, s.harbour.restore = some r → r.port = p → .link p (.hello (s.restoreHello p)) ∈ u.out)
    ∧ ((s.port p).up = true → (s.port p).lossHolds l = true → (s.port p).downs ≠ s.job.step + 1 →
      ∃ u, exec (.portDown p l) s = .next u ∧ only u ∧ s.Counted u (tlAt p 0x40) 1
        ∧ u.port p = { s.port p with state := 3, lanes := 0, downs := s.job.step + 1, loss := some l })
    ∧ ((s.port p).up = true → (s.port p).lossHolds l = true → (s.port p).downs = s.job.step + 1 → (s.port p).role = 2 →
      s.snap.dest ≠ .newcomer p →
      ∃ u, exec (.portDown p l) s = .next u ∧ (u.port p).state = 4 ∧ (u.port p).role = 2 ∧ u.journal = { s.journal with suspended := true }
        ∧ (∃ r ∈ u.log.ring, r.code = 0x0306 ∧ r.srcKind = 3 ∧ r.srcIndex = p) ∧ u.mem = s.mem ∧ u.job = s.job ∧ u.boot = s.boot)
    ∧ ((s.port p).state = 3 → ∃ u, exec (.portRetrainComplete p true) s = .next u ∧ only u ∧ (u.port p).state = 2
      ∧ (u.port p).lanes = 15 ∧ (u.port p).naks = [])
    ∧ ((s.port p).state = 3 → (s.port p).role = 2 → s.snap.dest ≠ .newcomer p → ∃ u, exec (.portRetrainComplete p false) s = .next u ∧ (u.port p).state = 4
        ∧ u.journal = { s.journal with suspended := true } ∧ u.mem = s.mem ∧ u.job = s.job ∧ u.boot = s.boot)

/-- HELLO and PROGRESS (R294, R298, R299, R310, R311, R431): a HELLO gives the port the rank and port of its sender, one that fits no
neighbour raises JOIN_REFUSED, and one of a present neighbour, or of the partner on another feed, with the harbour's digest is no more than
that; a neighbour's PROGRESS is kept with the time from which its count has stood, waits left out, and the member's own goes out on every
live port. -/
def Obligations.HelloAndProgress : Prop :=
  ∀ (s : State) (p : Nat) (h : Hello) (r : Progress), s.ports.length = 8 → p < 8 → (s.port p).up = true → s.ResetSettled →
    s.harbour.joined = true → s.harbour.joining = none → s.harbour.restore = none →
    (p ∈ s.harbour.ports → s.helloFits p h = false → ∃ u, exec (.hello p h) s = .next u ∧ State.Noted { s with ports := u.ports } u
      ∧ s.Logged u 0x0303 3 p ∧ (u.port p).nbrRank = h.rank ∧ (u.port p).nbrPort = h.port)
    ∧ (p ∈ s.harbour.ports → s.helloFits p h = true → h.digest = s.harbourDigest s.harbour.id → h.rank ∈ s.harbour.present →
      ∃ u, exec (.hello p h) s = .next u ∧ State.Noted { s with ports := u.ports } u ∧ (u.port p).nbrRank = h.rank ∧ (u.port p).nbrPort = h.port)
    ∧ (p ∉ s.harbour.ports → s.harbour.partnerPort = some p → h.restore = false → h.harbourId = s.harbour.id → h.rank = s.harbour.partner →
      h.partner = true → h.digest = s.harbourDigest s.harbour.id → h.feedId ≠ s.power.feedId → h.feedId ≠ 0xFF → s.power.feedId ≠ 0xFF →
      ∃ u, exec (.hello p h) s = .next u ∧ State.Noted { s with ports := u.ports } u ∧ (u.port p).nbrRank = h.rank
        ∧ (u.port p).nbrPort = h.port)
    ∧ (p ∈ s.harbour.ports → r.rank = s.harbour.neighbour p → ∃ u n, exec (.progress p r) s = .next u
      ∧ State.Noted { s with ports := u.ports, harbour := u.harbour } u ∧ u.harbour = { s.harbour with neighbours := u.harbour.neighbours }
      ∧ (u.harbour.neighbours.find? fun m => m.rank == r.rank) = some n ∧ n.count = r.count ∧ n.decided = r.decided ∧ n.wait = r.wait
      ∧ n.halted = r.halted ∧ n.waiting = (r.dataWait || r.commandWait || r.halted) ∧ n.seen = s.usec
      ∧ ∀ m, (s.harbour.neighbours.find? fun m => m.rank == r.rank) = some m → n.since =
          if m.count < r.count then s.usec else if m.waiting then m.since + (s.usec - m.seen) else m.since)
    ∧ ∃ u, exec .progressSend s = .next u ∧ State.Noted { s with ports := u.ports } u
      ∧ ∀ q ∈ s.livePorts, .link q (.progress s.progressRecord) ∈ u.out

/-- The causes of a re-formation (R303, R311 to R313, R317): an EJECT, a FAULT, a LEAVE outside a run, a neighbour or an awaited source
without progress and a frame of another step or table each abandon the attempt and begin the next census; a member that is lost is present
no more in the own view. A LEAVE in a run waits for the own commit (log 71). -/
def Obligations.CausesBeginACensus : Prop :=
  ∀ (s : State) (p q m waited : Nat) (e : EjectRec) (f : FaultRec) (fr : BucketFrame) (t : Table), s.ports.length = 8 → p < 8 →
    (s.port p).up = true → s.ResetSettled → s.MemberWith q → s.takesPart = true →
    (e.reason ≠ 2 → ∃ u, exec (.eject p e) s = .next u ∧ s.Reformed u ∧ u.harbour.causes = s.harbour.causes ++ [e])
    ∧ (e.reason = 2 → e.accused ≠ q → e.accused ≠ s.harbour.rank → e.accused ∈ s.harbour.present →
      ∃ u, exec (.eject p e) s = .next u ∧ s.Reformed u ∧ u.harbour.holds e.accused = false)
    ∧ (f.rank ≠ q → f.rank ≠ s.harbour.rank → f.rank ∈ s.harbour.present →
      ∃ u, exec (.fault p f) s = .next u ∧ s.Reformed u ∧ u.harbour.holds f.rank = false)
    ∧ (m ≠ q → m ≠ s.harbour.rank → m ∈ s.harbour.present →
      (m ∉ s.harbour.leavers → ∃ u, exec (.leave p m) s = .next u ∧
        if s.inRun then State.Noted { s with ports := u.ports, harbour := u.harbour } u
          ∧ u.harbour = { s.harbour with admitting := true, leavers := setAdd m s.harbour.leavers }
        else s.Reformed u ∧ u.harbour.holds m = false)
      ∧ (s.job.table = some t → t.tLate ≤ waited * 1000 → (s.harbour.neighbours.any fun n => n.rank == m && n.waiting) = false →
        (s.awaitedFrom t m).isSome = true ∨ s.stalled t m = true →
        ∃ u, exec (.bucketLate m waited) s = .next u ∧ s.Reformed u ∧ u.harbour.holds m = false ∧ s.Logged u 0x0301 6 m))
    ∧ (s.job.table = some t → p ∈ s.harbour.ports → fr.dest = s.harbour.rank → fr.digest ≠ s.shortDigest ∨ fr.step ≠ s.job.step →
      ∃ u, exec (.bucketFrame p fr) s = .next u ∧ s.Reformed u ∧ ∃ r ∈ u.log.ring, r.code = 0x0302 ∧ r.srcKind = 6 ∧ r.srcIndex = fr.sender)

/-- Frames and census parts (R303, R304, R313, R316): a frame for another member goes on towards it, and its payload counts on both ports; one of an abandoned attempt is
discarded, and one of a later attempt, or of a step that has not begun here, is held; a part of a view is passed on and kept until the view
is whole; a rank without a view in time is present no more; a join that runs out of time ends. -/
def Obligations.FramesAndCensusParts : Prop :=
  ∀ (s : State) (p : Nat) (fr : BucketFrame) (c : CensusPart) (t : Table), s.ports.length = 8 → p < 8 → (s.port p).up = true → s.ResetSettled →
    s.job.table = some t →
    let links := fun u : State => State.Noted { s with ports := u.ports } u
    (s.takesPart = true → s.harbour.inCensus = false → p ∈ s.harbour.ports → fr.dest ≠ s.harbour.rank →
      ∀ q, s.nextHop fr.dest = some q → ∃ u, exec (.bucketFrame p fr) s = .next u ∧ links u ∧ .link q (.forward fr) ∈ u.out
        ∧ s.Counted u (tlAt p 0x50) (payloadBytes fr.payload) ∧ s.Counted u (tlAt q 0x48) (payloadBytes fr.payload))
    ∧ (s.takesPart = true → s.harbour.inCensus = false → p ∈ s.harbour.ports → fr.dest = s.harbour.rank → fr.digest = s.shortDigest →
      fr.step = s.job.step →
      (s.inRun = true ∧ s.stepOpen = true → fr.attempt < s.job.attempt → ∃ u, exec (.bucketFrame p fr) s = .next u ∧ links u)
      ∧ ((s.inRun = true ∧ s.stepOpen = true → s.job.attempt < fr.attempt) →
        ∃ u, exec (.bucketFrame p fr) s = .next u ∧ State.Noted { s with ports := u.ports, harbour := u.harbour } u
          ∧ u.harbour = { s.harbour with link := { s.harbour.link with held := s.harbour.link.held ++ [(p, fr)] } }
          ∧ s.Counted u (tlAt p 0x50) (payloadBytes fr.payload)))
    ∧ (s.takesPart = true → p ∈ s.harbour.ports → c.harbourId = s.harbour.id → s.harbour.inCensus = true →
      c.number = s.harbour.censusNo → c.sender < s.harbour.size → c.sender ≠ s.harbour.rank → s.harbour.joining = none →
      s.harbour.agreed = false → s.harbour.hasPart c = false →
      let l := s.harbour.parts.filter (fun x => !(x.sender == c.sender && x.index == c.index)) ++ [c]
      Harbour.fullView { s.harbour with parts := l } c.sender = none →
      ∃ u, exec (.censusPart p c) s = .next u ∧ State.Noted { s with ports := u.ports, harbour := u.harbour } u
        ∧ u.harbour = { s.harbour with parts := l } ∧ ∀ q ∈ s.viewPorts, q ≠ p → .link q (.census c) ∈ u.out)
    ∧ (∀ r q, s.harbour.inCensus = true → s.harbour.joining = none → r ≠ s.harbour.rank → s.harbour.holds r = true →
      (∀ v ∈ s.harbour.views, v.1 ≠ r ∧ v.1 ≠ q) → q ≠ r → q ≠ s.harbour.rank → s.harbour.holds q = true → q < s.harbour.size →
      ∃ u, exec (.censusViewTimeout r) s = .next u ∧ State.Noted { s with ports := u.ports, harbour := u.harbour } u
        ∧ u.harbour.holds r = false ∧ u.harbour = { s.harbour with view := u.harbour.view })
    ∧ (∀ j k, s.harbour.joining = some j → s.cmd? j.sq j.cid = some k → s.entryFits k = true →
      ∃ u, exec .joinAllowanceExpiry s = .next u ∧ u.harbour.joining = none ∧ u.harbour.joined = false ∧ s.Completed u k .aborted 0 0
        ∧ u.mem = s.mem ∧ u.job = s.job ∧ u.boot = s.boot)

/-! ## Journal, snapshots and restores -/

/-- Partner traffic (R8, R329, R330, R332, R338): a mirrored record that stands (log 86) is written, after a compaction where it needs room, and acknowledged, and
without room it is neither; an acknowledgement is taken, and ends a commit that no step waits for; one that does not come in time suspends
the mirroring; a piece of a snapshot goes to the store, which erases older images for room. -/
def Obligations.PartnerMirrorsAndStores : Prop :=
  (∀ (s : State) (p : Nat) (r : Bytes) (t : Table), s.fromPartner p = true → s.ResetSettled → s.job.table = some t →
    s.journal.flashOk = true →
    (recordStands r = false → ∃ u, exec (.journalMirrorReceived p r) s = .next u ∧ State.Noted { s with ports := u.ports } u)
    ∧ (recordStands r = true →
    let room := s.partnerExtent * mib
    let kept := if recordsBytes [r] ≤ room - journalUsed s.journal.partner then s.journal.partner
      else compacted t.retained s.journal.partner
    ∃ u, exec (.journalMirrorReceived p r) s = .next u ∧
      if recordsBytes [r] ≤ room - journalUsed kept then
        State.Noted { s with ports := u.ports, journal := { s.journal with partner := kept ++ [r] } } u
          ∧ .link p (.partner (.mirrorAck (recordSeq r))) ∈ u.out
      else State.Noted { s with ports := u.ports, journal := { s.journal with partner := kept } } u))
  ∧ (∀ (s : State) (p number step page quay dig : Nat) (data : PieceData), s.fromPartner p = true → s.ResetSettled →
    s.journal.flashOk = true →
    let c := pieceOf number step page quay dig data
    let l := trimStore s.storeRoom (putPiece c s.snap.store)
    ∃ u, exec (.snapshotFragmentReceived p number step page quay dig data) s = .next u ∧ State.Noted { s with ports := u.ports, snap := u.snap } u
      ∧ u.snap = if l.any fun x => x.number == pieceNumber c then { s.snap with store := l } else s.snap)
  ∧ (∀ (s : State) (p : Nat) (c : Commit) (t : Table), s.fromPartner p = true → s.ResetSettled → s.harbour.inCensus = false →
    s.job.table = some t → s.journal.commit = some c → (c.flashDone = false ∨ c.ofStep = false) →
    ∃ u, exec (.mirrorAck p c.seq) s = .next u ∧ State.Noted { s with ports := u.ports, journal := u.journal } u
      ∧ u.journal = { s.journal with commit := if c.flashDone then none else some { c with ackDue := false } })
  ∧ ∀ (s : State) (c : Commit) (t : Table), s.ResetSettled → s.harbour.inCensus = false → s.job.table = some t →
    s.journal.commit = some c → c.ackDue = true → (c.flashDone = false ∨ c.ofStep = false) →
    ∃ u, exec .mirrorAckTimeout s = .next u ∧ u = { s with journal := u.journal }
      ∧ u.journal = { s.journal with
          suspended := true, own := u.journal.own,
          commit := if c.flashDone then none else some { c with ackDue := false, records := c.records.map clearMirrored } }
      ∧ u.journal.own = s.journal.own.map fun r => if recordSeq r ∈ c.records.map recordSeq then clearMirrored r else r

/-- A restore over a port (R341 to R343): without a HELLO in time it ends with ABORTED, and with REFUSED_STATE where the donor refuses; a
stored image that does not parse ends it with MALFORMED; a fragment of the transfer set that holds its digest is written and counted, and
one that does not ends the restore with FAULT. -/
def Obligations.RestoreOverAPortGoesOn : Prop :=
  ∀ (s : State) (r : RestoreRun) (c : Cmd) (t : Table) (page q dig : Nat) (d : Bytes), s.harbour.restore = some r → r.port < 8 →
    s.ports.length = 8 → s.cmd? r.sq r.cid = some c → s.entryFits c = true → s.ResetSettled → s.job.table = some t →
    let ended := fun u : State => u.harbour.restore = none ∧ (u.port r.port).role = 0 ∧ u.mem = s.mem ∧ u.job = s.job ∧ u.boot = s.boot
    (r.greeted = false → ∃ u, exec .restoreHelloTimeout s = .next u ∧ ended u ∧ s.Completed u c .aborted 0 0)
    ∧ (r.greeted = true → exec .restoreHelloTimeout s = .next s)
    ∧ (r.greeted = true → (s.port r.port).up = true → r.source = 1 → s.imageChunks t d = none →
      ∃ u, exec (.stateTransferReceived r.port (.image d)) s = .next u ∧ ended u ∧ s.Completed u c .malformed 0 0)
    ∧ (r.greeted = true → (s.port r.port).up = true → r.source = 2 → r.record = [] →
      (∃ u, exec (.stateTransferReceived r.port .refusedByDonor) s = .next u ∧ ended u ∧ s.Completed u c .refusedState 0 0)
      ∧ (r.step = none → page ∈ t.transferPages → s.chunkFits ⟨page, q, dig, d⟩ = true →
        ∃ u, exec (.stateTransferReceived r.port (.fragment page q dig d)) s = .next u ∧ u.job = s.job ∧ u.boot = s.boot ∧
          if fragDigest t.pinned q page d = dig then
            u.mem = (s.putFragment q page d).mem ∧ u.harbour = { s.harbour with restore := u.harbour.restore }
              ∧ u.harbour.restore = some { r with pages := r.pages ++ [(q, page)], setDigest := (r.setDigest + dig) % m61 } ∧ u.cmds = s.cmds
          else u.harbour.restore = none ∧ s.Completed u c .fault 0 0))

/-- The journal (R329, R331, R332): a finished local write appends the records, and with nothing else owed the step is committed; flash that
fails is a module fault where a job exists; compaction of either journal keeps the records of R332. -/
def Obligations.JournalWritesCommit : Prop :=
  ∀ (s : State) (t : Table), s.job.table = some t → s.harbour.inCensus = false →
    (∀ c, s.journal.commit = some c → c.flashDone = false →
      (c.ackDue = true → s.ResetSettled → ∃ u, exec .journalWriteComplete s = .next u ∧ u = { s with journal := u.journal }
        ∧ u.journal.own = s.journal.own ++ c.records ∧ u.journal.commit = some { c with flashDone := true })
      ∧ (c.ackDue = false → c.ofStep = false → s.ResetSettled → ∃ u, exec .journalWriteComplete s = .next u
        ∧ u = { s with journal := u.journal } ∧ u.journal.own = s.journal.own ++ c.records ∧ u.journal.commit = none)
      ∧ (c.ackDue = false → c.ofStep = true → s.settled = true → s.transferOpen = false → s.run.outcome = .applied →
        s.harbour.joined = false → s.boot.resetDue = false →
        ∃ u, exec .journalWriteComplete s = .next u ∧ u.job.committed = some s.job.step ∧ u.job.step = s.job.step + 1
          ∧ u.job.dataPos = s.job.step + 1 ∧ u.mem = s.mem ∧ u.boot.svn = s.boot.svn))
    ∧ (s.boot.resetDue = false → ∃ u, exec .flashTimeout s = .next u ∧ u.journal.flashOk = false
      ∧ if s.mode.jobState ∨ s.mode = .quarantined then u.mode = .faulted else u = { s with journal := { s.journal with flashOk := false } })
    ∧ (s.journal.compacting = true → ∃ u, exec (.journalCompacted false) s = .next u ∧ s.Logged u 0x0405 0 0xFFFF
      ∧ State.Noted { s with journal := { s.journal with own := compacted t.retained s.journal.own, compacting := false } } u)
    ∧ (s.partnerExtent ≠ 0 → compactDue t (s.partnerExtent * mib - journalUsed s.journal.partner) = true →
      ∃ u, exec (.journalCompacted true) s = .next u ∧ s.Logged u 0x0405 0 0xFFFF
        ∧ State.Noted { s with journal := { s.journal with partner := compacted t.retained s.journal.partner } } u)

/-- A drain takes the lowest pending page of a quay, from its copy or from the pile, and sends it with its digest to the snapshot's
destination, marked where a line of it was poisoned when it was read (R201, R214, R338, R339), and writes that waited go ahead once their fragment has been taken or copied (R216). -/
def Obligations.DrainTakesFragments : Prop :=
  ∀ (s : State) (q : Nat), s.journal.commit = none → s.harbour.inCensus = false → s.ResetSettled →
    (∀ page, s.nextFragment q = some page → s.snap.draining = true → s.drainOpen = true →
      s.refusedPage .drain false (page * pageSize) 1 = none →
      let copy := s.snap.copies.find? fun c => c.1 == q && c.2.1 == page
      let d := match copy with | none => s.fragBytes (q, page) | some c => c.2.2
      let bad := if copy.isSome then s.snap.badCopies.contains (q, page) else s.fragPoisoned (q, page)
      let dig := fragDigest s.pinned q page d
      let chunk := chunkHead page q (fragmentOf s.pinned q page).length dig ++ d
      ∃ u, exec (.snapshotDrainFragment q) s = .next u ∧ u.snap.pend = s.snap.pend.filter (· != (q, page))
        ∧ u.snap.count = s.snap.count + 1 ∧ u.snap.setDigest = (s.snap.setDigest + dig) % m61
        ∧ u.job = s.job ∧ u.boot = s.boot ∧ u.cmds = s.cmds ∧ u.journal = s.journal ∧
        match s.snap.dest with
        | .host _ _ (some sq) (some cid) => .commandData sq cid s.snap.imageOff chunk bad ∈ u.out
        | .host base _ _ _ => .hostWrite (base + s.snap.imageOff) chunk bad ∈ u.out
        | .partner => ∀ p, s.harbour.partnerPort = some p → .link p (.partner (.fragment s.snap.number s.snap.step page q dig d)) ∈ u.out
        | .newcomer p => .link p (.partner (.transfer page q dig d)) ∈ u.out)
    ∧ (s.snap.draining = false → exec (.snapshotDrainFragment q) s = .next s)
    ∧ (q < s.quays.length → (∀ w ∈ (s.quay q).waiting, (s.fragOf w.addr).1 = q ∧ s.untouched (s.fragOf w.addr) = false) →
      ∃ u, exec (.breakwaterStall q) s = .next u ∧ (u.quay q).waiting = [] ∧ u.snap = s.snap
        ∧ u.mem = (s.quay q).waiting.foldl (fun m w => m.write w.addr w.data) s.mem ∧ u.job = s.job ∧ u.boot = s.boot ∧ u.cmds = s.cmds)

/-! ## Tides and runs -/

/-- The tides (R80, R138, R165, R213, R240): the sequencer issues the next tide of a stall, and the earliest ready one starts where the pages
let it; a PRODUCT makes one pass for each slice that its idle plane loads from the stall store, and the idle plane otherwise loads for the PRODUCT to
come; a started tide completes and counts as progress; a tide that waits for its tile alone, a closer that waits for its uses, a refused
page and a word of the store beyond correction are module faults (R74). -/
def Obligations.TidesAreIssuedStartedAndDone : Prop :=
  ∀ (s : State) (i off rec_ inst : Nat) (t : Table), s.job.table = some t → s.tidesRun = true → s.boot.resetDue = false →
    let work := fun u : State => u.boot = s.boot ∧ u.cmds = s.cmds ∧ u.journal = s.journal ∧ u.power = s.power
    (∀ w, s.nextIssue t i = some w → exec (.tideIssue i) s
      = .next { s with run := { s.run with tides := s.run.tides.map fun u =>
          if u.tide = w.tide && u.inst = w.inst then { u with status := .issued } else u } })
    ∧ (∀ w, s.nextStart t i = some w →
      ((s.reach w).findSome? (fun r => s.refusedPage (.tide w.idx) r.1 r.2.1 r.2.2) = none → s.recomputes w = false →
        (pToRegion w.bytes = true → (rKind w.bytes = .product ∧ closesTile w.bytes = true) ∨ rKind w.bytes = .close →
          ∀ loc, t.carries (t.tide (pRegion w.bytes)) loc = true →
            s.refusedPage .quayUnit true (t.regionAddr (t.tide (pRegion w.bytes)) loc) (locSize (t.tide (pRegion w.bytes))) = none) →
        ∀ ecc, ecc ≠ .uncorrectable →
        ∃ u, exec (.tideStart i ecc off) s = .next u ∧ work u ∧ u.tideStatus? w.idx w.inst = some .started ∧ u.job = s.job)
      ∧ ((s.reach w).findSome? (fun r => s.refusedPage (.tide w.idx) r.1 r.2.1 r.2.2) ≠ none →
        ∃ u, exec (.tideStart i .clean off) s = .next u ∧ u.mode = .faulted)
      ∧ ∃ u, exec (.tideStart i .uncorrectable off) s = .next u ∧ u.mode = .faulted)
    ∧ (s.tideStatus? rec_ inst = some .started → rKind (t.tide rec_) ≠ .hostLayer → s.passesDue t rec_ = false →
      ∃ u, exec (.tideComplete rec_ inst) s = .next u ∧ work u ∧ u.tideStatus? rec_ inst = some .done ∧ u.mem = s.mem
        ∧ u.job = { s.job with progress := u.job.progress } ∧ s.job.progress < u.job.progress)
    ∧ (i < s.stalls.length →
      (∀ w p, s.running t i = none ∨ (s.stall i).passesLeft = 0 → s.nextPlane t i = some w → w.passes.head? = some p →
        s.recomputes w = false →
        ∃ u, exec (.weightPlaneLoadComplete ⟨i, .clean, off⟩) s = .next u ∧ u = { s with stalls := u.stalls } ∧ (∀ j, j ≠ i → u.stall j = s.stall j)
          ∧ let plane : Plane := ⟨true, w.idx, w.inst, (s.passSlice w p).1, (s.passSlice w p).2⟩
            u.stall i = { s.stall i with planes := (s.stall i).planes.set (1 - (s.stall i).active) plane, store := (u.stall i).store }
              ∧ u.stored w .stationary (pStat w.bytes) = (s.passSlice w p).1)
      ∧ (∀ w p, s.running t i = some w → (s.stall i).passesLeft ≠ 0 →
        w.passes[w.passes.length - (s.stall i).passesLeft]? = some p → pToRegion w.bytes = false →
        ∃ u, exec (.weightPlaneLoadComplete ⟨i, .clean, off⟩) s = .next u ∧ work u ∧ u.job = s.job ∧ (u.stall i).active = 1 - (s.stall i).active
          ∧ (u.stall i).passesLeft = w.passes.length - (w.passes.length - (s.stall i).passesLeft + 1)
          ∧ ∀ k n, u.tideStatus? k n = s.tideStatus? k n)
      ∧ (s.running t i = none → s.nextPlane t i = none → exec (.weightPlaneLoadComplete ⟨i, .clean, off⟩) s = .next s)
      ∧ (exec (.weightPlaneLoadComplete ⟨i, .corrected, off⟩) s = exec (.weightPlaneLoadComplete ⟨i, .clean, off⟩) (s.storeEcc i .corrected off)
        ∧ s.Noted (s.storeEcc i .corrected off) ∧ s.Counted (s.storeEcc i .corrected off) (stAt i 0x148) 1
        ∧ s.Logged (s.storeEcc i .corrected off) 0x0204 1 i)
      ∧ ∃ u, exec (.weightPlaneLoadComplete ⟨i, .uncorrectable, off⟩) s = .next u ∧ u.mode = .faulted)
    ∧ ∀ w, ((s.issuedOf t i).find? fun u => u.idx == rec_ && u.inst == inst) = some w →
      (s.otherwiseReady w = true ∧ s.tileUsable w = false) ∨ (s.closerWaits w = true ∧ s.depsDone w = false) →
      ∃ u, exec (.tileDeadlock i rec_ inst) s = .next u ∧ u.mode = .faulted

/-- A sample group starts with its whole reservation, waits while its batch is not there, and starts in recompute mode where the shoal
cannot hold the reservation and no earlier group can free pages (R154, R158, R159); a host-delegated layer writes its
input to its area and opens its request (R179, R374). -/
def Obligations.GroupsStartAndLayersAsk : Prop :=
  ∀ (s : State) (t : Table), s.job.table = some t → s.tidesRun = true →
    (∀ n g, (s.run.groups.find? fun x => x.group == n) = some g → g.started = false →
      (s.run.groups.any fun x => x.place < g.place && !x.started) = false →
      (s.batch? g.group = none → ∃ u, exec (.groupForwardStart n) s = .next u ∧ u = { s with run := { s.run with groups := u.run.groups } }
        ∧ u.run.groups = s.run.groups.map fun x =>
            if x.place = g.place then { x with waitFrom := some (x.waitFrom.getD s.usec) } else x)
      ∧ (∀ b ps, s.batch? g.group = some b → s.batchBad b = false →
        reservePages (t.recs secShoal 1) (t.framePages (batchTokens (s.batchBytes b))) 0 s.framesUsed = some ps →
        ∃ u, exec (.groupForwardStart n) s = .next u ∧ u.mem = s.mem ∧ u.job = s.job ∧ u.boot = s.boot
          ∧ ∃ x ∈ u.run.groups, x.place = g.place ∧ x.group = g.group ∧ x.started = true ∧ x.pages = ps
            ∧ x.tokens = batchTokens (s.batchBytes b) ∧ x.recompute = g.recompute)
      ∧ (∀ b ps, s.batch? g.group = some b → s.batchBad b = false →
        reservePages (t.recs secShoal 1) (t.framePages (batchTokens (s.batchBytes b))) 0 s.framesUsed = none →
        s.earlierBusy t g.place = false → t.segments.isEmpty = false →
        reservePages (t.recs secShoal 1) (t.checkpointPages (batchTokens (s.batchBytes b))) 0 s.framesUsed = some ps →
        ∃ u, exec (.groupForwardStart n) s = .next u ∧ u.mem = s.mem ∧ u.job = s.job ∧ u.boot = s.boot ∧ s.Counted u (tmAt 0x38) 1
          ∧ ∃ x ∈ u.run.groups, x.place = g.place ∧ x.started = true ∧ x.pages = ps ∧ x.recompute = true))
    ∧ ∀ i dir u0 r c x y f, s.layerTide t i dir = some u0 → t.hostLayer? i = some r → s.layerCmd = some c →
      t.tensor? (hlIn u0.bytes) = some x → t.tensor? (hlOut u0.bytes) = some y → Fmt.ofCode (fld r 1 1) = some f →
      s.pcie.busMaster = true → (s.run.hostReqs.any fun q => q.layer == i && q.dir == dir) = false →
      ((s.layerReach u0 x false).findSome? fun a => s.refusedPage (.tide u0.idx) a.1 a.2.1 a.2.2) = none →
      ∃ u q, exec (.hostLayerRequest i dir) s = .next u ∧ u.run.hostReqs = s.run.hostReqs ++ [q] ∧ q.layer = i ∧ q.dir = dir
        ∧ q.tag = s.freeTag ∧ q.posted = s.usec ∧ u.tideStatus? u0.idx u0.inst = some .started
        ∧ .commandData c.sq c.cid (t.areaOffset i dir) (s.layerBytes u0 x f).1 false ∈ u.out
        ∧ u.mem = s.mem ∧ u.job = s.job ∧ u.boot = s.boot ∧ u.cmds = s.cmds

/-- The boundaries of a run (R70, R171, R181, R329, R371): with the last backward the module enters SLACK; once the buckets are through, slack
water decides the step and begins the commit of its records, or faults where the journal cannot take them; outside a harbour a bucket is
reduced where it stands; at a decode-step boundary each decoding slot has its token, NaR where its request met a conversion cliff (R59, log 74), and the serving run ends with a halt, and goes on with
one more chunk or decode step otherwise. -/
def Obligations.RunsReachTheirBoundaries : Prop :=
  ∀ (s : State) (t : Table), s.job.table = some t → s.mode = .running → s.boot.resetDue = false →
    (s.run.kind = .training → s.tidesDone = false → exec .slackWater s = .next s)
    ∧ (s.run.kind = .training → s.run.slack = .none → s.tidesDone = true → s.harbour.inCensus = false →
      let z := (s.enter .slack).modRun fun r => { r with slack := .reducing }
      (s.stepDone t = false → exec .slackWater s = .next z)
      ∧ (s.stepDone t = true →
        (if s.outcomeOf t = .applied then t.chandlerReach else []).findSome? (fun r => s.refusedPage .quayUnit r.1 r.2.1 r.2.2) = none →
        let y := (z.harbourWait.decide t false).planSnapshot t
        let first := if y.snap.recordDue then [(y.recorded t).buildRecord t 3 0 y.journal.nextSeq y.snap.step [(3, snapEntry y.snap 2)]] else []
        let rs := first ++ [y.stepRecord t (y.journal.nextSeq + first.length)]
        ∃ u, exec .slackWater s = .next u ∧ u.boot.svn = s.boot.svn ∧
          if y.journal.flashOk = true ∧ (y.makeRoom t rs).fitsOwn rs = true then
            u.mode = .slack ∧ u.run.slack = .committing ∧ u.run.outcome = s.outcomeOf t ∧ u.job.step = s.job.step
              ∧ u.journal.commit = some ⟨rs, false, y.mirrors, true, y.snap.recordDue⟩
          else u.mode = .faulted))
    ∧ (∀ b, s.run.kind = .training → s.run.slack = .none → s.harbour.link.active = false → s.harbour.inCensus = false →
      s.harbour.joined = false → s.curBucket t = some b → s.bucketReady t b = true →
      (t.bucketReach b).findSome? (fun r => s.refusedPage .linkEngine r.1 r.2.1 r.2.2) = none → ∃ u, exec .bucketReduce s = .next u
        ∧ u.harbour.link.bucket = s.harbour.link.bucket + 1 ∧ u.job = { s.job with progress := s.job.progress + 1 }
        ∧ u.boot = s.boot ∧ u.cmds = s.cmds ∧ u.mode = .running)
    ∧ (s.run.kind = .serving → (s.run.tides.all fun u => u.status == .done) = true →
      (∀ n, n ≠ s.run.decodes → exec (.decodeStepBoundary n) s = .next s)
      ∧ (∃ u, exec (.decodeStepBoundary s.run.decodes) s = .next u ∧ u.mem = s.mem ∧ ∀ r ∈ s.run.serves, r.decoding t = true →
        ∀ c, s.cmd? r.sq r.cid = some c → (∀ x ∈ s.run.serves, x.sq = r.sq → x.cid = r.cid → x = r) →
        .hostWrite (eOutput c.entry + 4 * r.output.length) (toLe 4 (if r.spoiled then 0xFFFFFFFF else pickToken t c r (s.logitsOf t r))) false ∈ u.out)
      ∧ (s.run.closing = true ∨ s.cmdsOf opHalt ≠ [] →
        (∀ r ∈ s.run.serves, ∀ c ∈ s.cmdsOf opHalt, ¬ (c.sq = r.sq ∧ c.cid = r.cid)) →
        ∃ u, exec (.decodeStepBoundary s.run.decodes) s = .next u ∧ u.mode = .configured ∧ u.run.kind = .none ∧ u.mem = s.mem ∧ u.job = s.job)
      ∧ (s.run.closing = false → s.cmdsOf opHalt = [] → s.run.serves ≠ [] → (∀ r ∈ s.run.serves, r.decoding t = false) →
        ∃ u, exec (.decodeStepBoundary s.run.decodes) s = .next u ∧ u.mode = .running ∧ u.run.serves.length = s.run.serves.length
          ∧ u.run.admits = [] ∧ u.mem = s.mem ∧ u.job = { s.job with progress := u.job.progress } ∧ u.cmds = s.cmds))

/-- An A64 accumulator stores the same pattern whatever order its contributions come in (R116 to R118, R121). -/
def Obligations.SumsDoNotDependOnTheOrder : Prop :=
  ∀ (phi : Nat) (cs ds : List (Int × Bool)), cs.Perm ds →
    let sum := fun l : List (Int × Bool) => (l.foldl (fun (a : Acc) c => (a.add phi c.1 c.2).1) Acc.zero).stored
    sum cs = sum ds
end

