-- ==== Sys2Proof/Laws/Memory.lean ====
section
/-! SUPPORT. Module memory: every operation keeps the canonical form, and a read after a write. -/

namespace Sys2Proof.Machine

/-! ## The canonical form -/

/-- The canonical form as a property of the whole list. -/
theorem cellsWf_iff (cs : List Host.Cell) :
    cellsWf cs = true ↔ cs.Pairwise (fun x y => x.1 < y.1) ∧ ∀ c ∈ cs, c.2 ≠ 0 := by
  induction cs with
  | nil => simp [cellsWf]
  | cons c rest ih =>
    cases rest with
    | nil => simp [cellsWf]
    | cons d tail =>
      simp only [cellsWf, Bool.and_eq_true, bne_iff_ne, ne_eq, decide_eq_true_eq, ih, List.pairwise_cons, List.mem_cons,
        forall_eq_or_imp]
      constructor
      · rintro ⟨⟨hc, hlt⟩, ⟨hd, ht⟩, hv⟩
        exact ⟨⟨⟨hlt, fun x hx => lt_trans hlt (hd x hx)⟩, hd, ht⟩, hc, hv⟩
      · rintro ⟨⟨⟨hlt, _⟩, hd, ht⟩, hc, hv⟩
        exact ⟨⟨hc, hlt⟩, ⟨hd, ht⟩, hv⟩

/-- What the cells of a written range hold. -/
theorem mem_cellsOf (bs : Bytes) {a : Nat} {c : Host.Cell} (h : c ∈ cellsOf a bs) : a ≤ c.1 ∧ c.1 < a + bs.length ∧ c.2 ≠ 0 := by
  induction bs generalizing a with
  | nil => simp [cellsOf] at h
  | cons b bs ih =>
    simp only [cellsOf] at h
    simp only [List.length_cons]
    split at h
    · obtain ⟨h1, h2, h3⟩ := ih h
      exact ⟨by omega, by omega, h3⟩
    · rcases List.mem_cons.mp h with rfl | h
      · exact ⟨le_rfl, by omega, ‹_›⟩
      · obtain ⟨h1, h2, h3⟩ := ih h
        exact ⟨by omega, by omega, h3⟩

theorem cellsOf_pairwise (bs : Bytes) (a : Nat) : (cellsOf a bs).Pairwise (fun x y => x.1 < y.1) := by
  induction bs generalizing a with
  | nil => simp [cellsOf]
  | cons b bs ih =>
    simp only [cellsOf]
    split
    · exact ih _
    · exact List.pairwise_cons.mpr ⟨fun c hc => by have := mem_cellsOf bs hc; simp only; omega, ih _⟩

theorem cellsPut_wf (bs : Bytes) {cs : List Host.Cell} (a : Nat) (h : cellsWf cs = true) : cellsWf (cellsPut cs a bs) = true := by
  rw [cellsWf_iff] at h ⊢
  refine ⟨?_, fun c hc => ?_⟩
  · simp only [cellsPut, List.append_assoc, List.pairwise_append, List.mem_append, List.mem_filter, decide_eq_true_eq]
    refine ⟨h.1.filter _, ⟨cellsOf_pairwise bs a, h.1.filter _, ?_⟩, ?_⟩
    · rintro x hx y ⟨-, hy⟩
      have := mem_cellsOf bs hx; omega
    · rintro x ⟨-, hx⟩ y (hy | ⟨-, hy⟩)
      · have := mem_cellsOf bs hy; omega
      · omega
  · simp only [cellsPut, List.mem_append, List.mem_filter] at hc
    rcases hc with (hc | hc) | hc
    · exact h.2 c hc.1
    · exact (mem_cellsOf bs hc).2.2
    · exact h.2 c hc.1

theorem Mem.write_wf {m : Mem} (a : Nat) (bs : Bytes) (h : m.wf = true) : (m.write a bs).wf = true := cellsPut_wf bs a h

theorem Mem.zero_wf {m : Mem} (a n : Nat) (h : m.wf = true) : (m.zero a n).wf = true := by
  simp only [Mem.wf, Mem.zero, cellsWf_iff] at h ⊢
  exact ⟨h.1.filter _, fun c hc => h.2 c (List.mem_of_mem_filter hc)⟩

theorem Mem.poison_wf {m : Mem} (line : Nat) (h : m.wf = true) : (m.poison line).wf = true := h

theorem Mem.reset_wf : Mem.reset.wf = true := rfl

/-! ## Read after write -/

theorem cellGet_eq_zero {cs : List Host.Cell} {a : Nat} (h : ∀ c ∈ cs, c.1 ≠ a) : cellGet cs a = 0 := by
  induction cs with
  | nil => rfl
  | cons c rest ih =>
    simp only [cellGet]
    rw [if_neg fun e => h c (by simp) e.symm]
    exact ih fun d hd => h d (List.mem_cons_of_mem _ hd)

theorem cellGet_filter (cs : List Host.Cell) (p : Host.Cell → Bool) {x : Nat} (h : ∀ c ∈ cs, c.1 = x → p c = true) :
    cellGet (cs.filter p) x = cellGet cs x := by
  induction cs with
  | nil => rfl
  | cons c rest ih =>
    obtain ⟨k, v⟩ := c
    have hr := ih fun d hd => h d (List.mem_cons_of_mem _ hd)
    by_cases hx : x = k
    · rw [List.filter_cons_of_pos (h _ (by simp) hx.symm)]
      simp [cellGet, hx]
    · rw [List.filter_cons]
      split <;> simp only [cellGet, if_neg hx, hr]

theorem cellGet_append (cs ds : List Host.Cell) {x : Nat} (h : ∀ c ∈ cs, c.1 ≠ x) : cellGet (cs ++ ds) x = cellGet ds x := by
  induction cs with
  | nil => rfl
  | cons c rest ih =>
    simp only [List.cons_append, cellGet]
    rw [if_neg fun e => h c (by simp) e.symm, ih fun d hd => h d (List.mem_cons_of_mem _ hd)]

theorem cellGet_append_left (cs ds : List Host.Cell) {x : Nat} (h : ∀ c ∈ ds, c.1 ≠ x) : cellGet (cs ++ ds) x = cellGet cs x := by
  induction cs with
  | nil => exact cellGet_eq_zero h
  | cons c rest ih => simp only [List.cons_append, cellGet, ih]

theorem cellGet_cellsOf (bs : Bytes) (a x : Nat) :
    cellGet (cellsOf a bs) x = if a ≤ x ∧ x < a + bs.length then bs.getD (x - a) 0 else 0 := by
  induction bs generalizing a with
  | nil => simp [cellsOf, cellGet]
  | cons b bs ih =>
    have hrest : cellGet (cellsOf a (b :: bs)) x = if x = a then b else cellGet (cellsOf (a + 1) bs) x := by
      simp only [cellsOf]
      split
      · split
        · subst_vars; exact cellGet_eq_zero fun c hc => by have := mem_cellsOf bs hc; omega
        · rfl
      · rfl
    rw [hrest, ih]
    simp only [List.length_cons]
    rcases lt_trichotomy x a with hx | rfl | hx
    · rw [if_neg (by omega), if_neg (by omega), if_neg (by omega)]
    · rw [if_pos rfl, if_pos (by omega)]
      simp
    · by_cases hl : x < a + (bs.length + 1)
      · rw [if_neg (by omega), if_pos (by omega), if_pos (by omega), show x - a = x - (a + 1) + 1 by omega]
        simp
      · rw [if_neg (by omega), if_neg (by omega), if_neg (by omega)]

/-- The bytes of a written range, and every other byte as before. -/
theorem cellGet_cellsPut (bs : Bytes) (cs : List Host.Cell) (a x : Nat) :
    cellGet (cellsPut cs a bs) x = if a ≤ x ∧ x < a + bs.length then bs.getD (x - a) 0 else cellGet cs x := by
  have low : ∀ c ∈ cs.filter (fun c => decide (c.1 < a)), c.1 < a := fun c hc => by simpa using (List.mem_filter.mp hc).2
  have high : ∀ c ∈ cs.filter (fun c => decide (a + bs.length ≤ c.1)), a + bs.length ≤ c.1 := fun c hc => by
    simpa using (List.mem_filter.mp hc).2
  simp only [cellsPut, List.append_assoc]
  by_cases h1 : x < a
  · rw [if_neg (by omega), cellGet_append_left, cellGet_filter _ _ fun c _ e => by simp; omega]
    intro c hc
    rcases List.mem_append.mp hc with hc | hc
    · have := mem_cellsOf bs hc; omega
    · have := high c hc; omega
  · rw [cellGet_append _ _ fun c hc => by have := low c hc; omega]
    by_cases h2 : x < a + bs.length
    · rw [if_pos (by omega), cellGet_append_left _ _ fun c hc => by have := high c hc; omega, cellGet_cellsOf, if_pos (by omega)]
    · rw [if_neg (by omega), cellGet_append _ _ fun c hc => by have := mem_cellsOf bs hc; omega,
        cellGet_filter _ _ fun c _ e => by simp; omega]

/-- Reading one byte after a write. -/
theorem Mem.byte_write (m : Mem) (a x : Nat) (bs : Bytes) :
    (m.write a bs).byte x = if a ≤ x ∧ x < a + bs.length then bs.getD (x - a) 0 else m.byte x := cellGet_cellsPut bs m.cells a x

/-- A read gives the byte of each address. -/
theorem Mem.read_eq (m : Mem) (a n : Nat) : m.read a n = (List.range n).map fun i => m.byte (a + i) := by
  refine List.map_congr_left fun i hi => ?_
  have := List.mem_range.mp hi
  exact cellGet_filter _ _ fun c _ e => by simp; omega

/-- A written range reads back. -/
theorem Mem.read_write (m : Mem) (a : Nat) (bs : Bytes) : (m.write a bs).read a bs.length = bs := by
  apply List.ext_getElem
  · simp [Mem.read]
  · intro i hi hb
    simp only [Mem.read_eq, List.getElem_map, List.getElem_range, Mem.byte_write]
    rw [if_pos (by omega)]
    simp [hb]

/-- Reading one byte after a range is set to zero. -/
theorem Mem.byte_zero {m : Mem} (a n x : Nat) : (m.zero a n).byte x = if a ≤ x ∧ x < a + n then 0 else m.byte x := by
  simp only [Mem.byte, Mem.zero]
  induction m.cells with
  | nil => simp [cellGet]
  | cons c rest ih =>
    obtain ⟨k, v⟩ := c
    by_cases hk : a ≤ k ∧ k < a + n
    · rw [List.filter_cons_of_neg (by simpa using hk), ih]
      simp only [cellGet]
      split
      · rfl
      · rw [if_neg]; rintro rfl; contradiction
    · rw [List.filter_cons_of_pos (by simp; omega)]
      simp only [cellGet, ih]
      split
      · subst_vars; rw [if_neg hk]
      · rfl

end Sys2Proof.Machine
end

