-- ==== Sys2Proof/Laws/State.lean ====
section
/-! SUPPORT. One law for each field under each update of one part of the state, and the updates of one element of an array. -/

namespace Sys2Proof.Machine

variable (s : State)

/-! ## `modPower` -/

@[simp] theorem State.modPower_pending (f : Power → Power) : (s.modPower f).pending = s.pending := rfl
@[simp] theorem State.modPower_out (f : Power → Power) : (s.modPower f).out = s.out := rfl
@[simp] theorem State.modPower_freeCtr (f : Power → Power) : (s.modPower f).freeCtr = s.freeCtr := rfl
@[simp] theorem State.modPower_usec (f : Power → Power) : (s.modPower f).usec = s.usec := rfl
@[simp] theorem State.modPower_power (f : Power → Power) : (s.modPower f).power = f s.power := rfl
@[simp] theorem State.modPower_boot (f : Power → Power) : (s.modPower f).boot = s.boot := rfl
@[simp] theorem State.modPower_pcie (f : Power → Power) : (s.modPower f).pcie = s.pcie := rfl
@[simp] theorem State.modPower_sqs (f : Power → Power) : (s.modPower f).sqs = s.sqs := rfl
@[simp] theorem State.modPower_cqs (f : Power → Power) : (s.modPower f).cqs = s.cqs := rfl
@[simp] theorem State.modPower_sqTurn (f : Power → Power) : (s.modPower f).sqTurn = s.sqTurn := rfl
@[simp] theorem State.modPower_cmds (f : Power → Power) : (s.modPower f).cmds = s.cmds := rfl
@[simp] theorem State.modPower_log (f : Power → Power) : (s.modPower f).log = s.log := rfl
@[simp] theorem State.modPower_tm (f : Power → Power) : (s.modPower f).tm = s.tm := rfl
@[simp] theorem State.modPower_job (f : Power → Power) : (s.modPower f).job = s.job := rfl
@[simp] theorem State.modPower_mem (f : Power → Power) : (s.modPower f).mem = s.mem := rfl
@[simp] theorem State.modPower_run (f : Power → Power) : (s.modPower f).run = s.run := rfl
@[simp] theorem State.modPower_stalls (f : Power → Power) : (s.modPower f).stalls = s.stalls := rfl
@[simp] theorem State.modPower_quays (f : Power → Power) : (s.modPower f).quays = s.quays := rfl
@[simp] theorem State.modPower_snap (f : Power → Power) : (s.modPower f).snap = s.snap := rfl
@[simp] theorem State.modPower_journal (f : Power → Power) : (s.modPower f).journal = s.journal := rfl
@[simp] theorem State.modPower_harbour (f : Power → Power) : (s.modPower f).harbour = s.harbour := rfl
@[simp] theorem State.modPower_ports (f : Power → Power) : (s.modPower f).ports = s.ports := rfl
@[simp] theorem State.modPower_test (f : Power → Power) : (s.modPower f).test = s.test := rfl

/-! ## `modBoot` -/

@[simp] theorem State.modBoot_pending (f : Boot → Boot) : (s.modBoot f).pending = s.pending := rfl
@[simp] theorem State.modBoot_out (f : Boot → Boot) : (s.modBoot f).out = s.out := rfl
@[simp] theorem State.modBoot_freeCtr (f : Boot → Boot) : (s.modBoot f).freeCtr = s.freeCtr := rfl
@[simp] theorem State.modBoot_usec (f : Boot → Boot) : (s.modBoot f).usec = s.usec := rfl
@[simp] theorem State.modBoot_power (f : Boot → Boot) : (s.modBoot f).power = s.power := rfl
@[simp] theorem State.modBoot_boot (f : Boot → Boot) : (s.modBoot f).boot = f s.boot := rfl
@[simp] theorem State.modBoot_pcie (f : Boot → Boot) : (s.modBoot f).pcie = s.pcie := rfl
@[simp] theorem State.modBoot_sqs (f : Boot → Boot) : (s.modBoot f).sqs = s.sqs := rfl
@[simp] theorem State.modBoot_cqs (f : Boot → Boot) : (s.modBoot f).cqs = s.cqs := rfl
@[simp] theorem State.modBoot_sqTurn (f : Boot → Boot) : (s.modBoot f).sqTurn = s.sqTurn := rfl
@[simp] theorem State.modBoot_cmds (f : Boot → Boot) : (s.modBoot f).cmds = s.cmds := rfl
@[simp] theorem State.modBoot_log (f : Boot → Boot) : (s.modBoot f).log = s.log := rfl
@[simp] theorem State.modBoot_tm (f : Boot → Boot) : (s.modBoot f).tm = s.tm := rfl
@[simp] theorem State.modBoot_job (f : Boot → Boot) : (s.modBoot f).job = s.job := rfl
@[simp] theorem State.modBoot_mem (f : Boot → Boot) : (s.modBoot f).mem = s.mem := rfl
@[simp] theorem State.modBoot_run (f : Boot → Boot) : (s.modBoot f).run = s.run := rfl
@[simp] theorem State.modBoot_stalls (f : Boot → Boot) : (s.modBoot f).stalls = s.stalls := rfl
@[simp] theorem State.modBoot_quays (f : Boot → Boot) : (s.modBoot f).quays = s.quays := rfl
@[simp] theorem State.modBoot_snap (f : Boot → Boot) : (s.modBoot f).snap = s.snap := rfl
@[simp] theorem State.modBoot_journal (f : Boot → Boot) : (s.modBoot f).journal = s.journal := rfl
@[simp] theorem State.modBoot_harbour (f : Boot → Boot) : (s.modBoot f).harbour = s.harbour := rfl
@[simp] theorem State.modBoot_ports (f : Boot → Boot) : (s.modBoot f).ports = s.ports := rfl
@[simp] theorem State.modBoot_test (f : Boot → Boot) : (s.modBoot f).test = s.test := rfl

/-! ## `modPcie` -/

@[simp] theorem State.modPcie_pending (f : Pcie → Pcie) : (s.modPcie f).pending = s.pending := rfl
@[simp] theorem State.modPcie_out (f : Pcie → Pcie) : (s.modPcie f).out = s.out := rfl
@[simp] theorem State.modPcie_freeCtr (f : Pcie → Pcie) : (s.modPcie f).freeCtr = s.freeCtr := rfl
@[simp] theorem State.modPcie_usec (f : Pcie → Pcie) : (s.modPcie f).usec = s.usec := rfl
@[simp] theorem State.modPcie_power (f : Pcie → Pcie) : (s.modPcie f).power = s.power := rfl
@[simp] theorem State.modPcie_boot (f : Pcie → Pcie) : (s.modPcie f).boot = s.boot := rfl
@[simp] theorem State.modPcie_pcie (f : Pcie → Pcie) : (s.modPcie f).pcie = f s.pcie := rfl
@[simp] theorem State.modPcie_sqs (f : Pcie → Pcie) : (s.modPcie f).sqs = s.sqs := rfl
@[simp] theorem State.modPcie_cqs (f : Pcie → Pcie) : (s.modPcie f).cqs = s.cqs := rfl
@[simp] theorem State.modPcie_sqTurn (f : Pcie → Pcie) : (s.modPcie f).sqTurn = s.sqTurn := rfl
@[simp] theorem State.modPcie_cmds (f : Pcie → Pcie) : (s.modPcie f).cmds = s.cmds := rfl
@[simp] theorem State.modPcie_log (f : Pcie → Pcie) : (s.modPcie f).log = s.log := rfl
@[simp] theorem State.modPcie_tm (f : Pcie → Pcie) : (s.modPcie f).tm = s.tm := rfl
@[simp] theorem State.modPcie_job (f : Pcie → Pcie) : (s.modPcie f).job = s.job := rfl
@[simp] theorem State.modPcie_mem (f : Pcie → Pcie) : (s.modPcie f).mem = s.mem := rfl
@[simp] theorem State.modPcie_run (f : Pcie → Pcie) : (s.modPcie f).run = s.run := rfl
@[simp] theorem State.modPcie_stalls (f : Pcie → Pcie) : (s.modPcie f).stalls = s.stalls := rfl
@[simp] theorem State.modPcie_quays (f : Pcie → Pcie) : (s.modPcie f).quays = s.quays := rfl
@[simp] theorem State.modPcie_snap (f : Pcie → Pcie) : (s.modPcie f).snap = s.snap := rfl
@[simp] theorem State.modPcie_journal (f : Pcie → Pcie) : (s.modPcie f).journal = s.journal := rfl
@[simp] theorem State.modPcie_harbour (f : Pcie → Pcie) : (s.modPcie f).harbour = s.harbour := rfl
@[simp] theorem State.modPcie_ports (f : Pcie → Pcie) : (s.modPcie f).ports = s.ports := rfl
@[simp] theorem State.modPcie_test (f : Pcie → Pcie) : (s.modPcie f).test = s.test := rfl

/-! ## `modSqs` -/

@[simp] theorem State.modSqs_pending (f : List Sq → List Sq) : (s.modSqs f).pending = s.pending := rfl
@[simp] theorem State.modSqs_out (f : List Sq → List Sq) : (s.modSqs f).out = s.out := rfl
@[simp] theorem State.modSqs_freeCtr (f : List Sq → List Sq) : (s.modSqs f).freeCtr = s.freeCtr := rfl
@[simp] theorem State.modSqs_usec (f : List Sq → List Sq) : (s.modSqs f).usec = s.usec := rfl
@[simp] theorem State.modSqs_power (f : List Sq → List Sq) : (s.modSqs f).power = s.power := rfl
@[simp] theorem State.modSqs_boot (f : List Sq → List Sq) : (s.modSqs f).boot = s.boot := rfl
@[simp] theorem State.modSqs_pcie (f : List Sq → List Sq) : (s.modSqs f).pcie = s.pcie := rfl
@[simp] theorem State.modSqs_sqs (f : List Sq → List Sq) : (s.modSqs f).sqs = f s.sqs := rfl
@[simp] theorem State.modSqs_cqs (f : List Sq → List Sq) : (s.modSqs f).cqs = s.cqs := rfl
@[simp] theorem State.modSqs_sqTurn (f : List Sq → List Sq) : (s.modSqs f).sqTurn = s.sqTurn := rfl
@[simp] theorem State.modSqs_cmds (f : List Sq → List Sq) : (s.modSqs f).cmds = s.cmds := rfl
@[simp] theorem State.modSqs_log (f : List Sq → List Sq) : (s.modSqs f).log = s.log := rfl
@[simp] theorem State.modSqs_tm (f : List Sq → List Sq) : (s.modSqs f).tm = s.tm := rfl
@[simp] theorem State.modSqs_job (f : List Sq → List Sq) : (s.modSqs f).job = s.job := rfl
@[simp] theorem State.modSqs_mem (f : List Sq → List Sq) : (s.modSqs f).mem = s.mem := rfl
@[simp] theorem State.modSqs_run (f : List Sq → List Sq) : (s.modSqs f).run = s.run := rfl
@[simp] theorem State.modSqs_stalls (f : List Sq → List Sq) : (s.modSqs f).stalls = s.stalls := rfl
@[simp] theorem State.modSqs_quays (f : List Sq → List Sq) : (s.modSqs f).quays = s.quays := rfl
@[simp] theorem State.modSqs_snap (f : List Sq → List Sq) : (s.modSqs f).snap = s.snap := rfl
@[simp] theorem State.modSqs_journal (f : List Sq → List Sq) : (s.modSqs f).journal = s.journal := rfl
@[simp] theorem State.modSqs_harbour (f : List Sq → List Sq) : (s.modSqs f).harbour = s.harbour := rfl
@[simp] theorem State.modSqs_ports (f : List Sq → List Sq) : (s.modSqs f).ports = s.ports := rfl
@[simp] theorem State.modSqs_test (f : List Sq → List Sq) : (s.modSqs f).test = s.test := rfl

/-! ## `modCqs` -/

@[simp] theorem State.modCqs_pending (f : List Cq → List Cq) : (s.modCqs f).pending = s.pending := rfl
@[simp] theorem State.modCqs_out (f : List Cq → List Cq) : (s.modCqs f).out = s.out := rfl
@[simp] theorem State.modCqs_freeCtr (f : List Cq → List Cq) : (s.modCqs f).freeCtr = s.freeCtr := rfl
@[simp] theorem State.modCqs_usec (f : List Cq → List Cq) : (s.modCqs f).usec = s.usec := rfl
@[simp] theorem State.modCqs_power (f : List Cq → List Cq) : (s.modCqs f).power = s.power := rfl
@[simp] theorem State.modCqs_boot (f : List Cq → List Cq) : (s.modCqs f).boot = s.boot := rfl
@[simp] theorem State.modCqs_pcie (f : List Cq → List Cq) : (s.modCqs f).pcie = s.pcie := rfl
@[simp] theorem State.modCqs_sqs (f : List Cq → List Cq) : (s.modCqs f).sqs = s.sqs := rfl
@[simp] theorem State.modCqs_cqs (f : List Cq → List Cq) : (s.modCqs f).cqs = f s.cqs := rfl
@[simp] theorem State.modCqs_sqTurn (f : List Cq → List Cq) : (s.modCqs f).sqTurn = s.sqTurn := rfl
@[simp] theorem State.modCqs_cmds (f : List Cq → List Cq) : (s.modCqs f).cmds = s.cmds := rfl
@[simp] theorem State.modCqs_log (f : List Cq → List Cq) : (s.modCqs f).log = s.log := rfl
@[simp] theorem State.modCqs_tm (f : List Cq → List Cq) : (s.modCqs f).tm = s.tm := rfl
@[simp] theorem State.modCqs_job (f : List Cq → List Cq) : (s.modCqs f).job = s.job := rfl
@[simp] theorem State.modCqs_mem (f : List Cq → List Cq) : (s.modCqs f).mem = s.mem := rfl
@[simp] theorem State.modCqs_run (f : List Cq → List Cq) : (s.modCqs f).run = s.run := rfl
@[simp] theorem State.modCqs_stalls (f : List Cq → List Cq) : (s.modCqs f).stalls = s.stalls := rfl
@[simp] theorem State.modCqs_quays (f : List Cq → List Cq) : (s.modCqs f).quays = s.quays := rfl
@[simp] theorem State.modCqs_snap (f : List Cq → List Cq) : (s.modCqs f).snap = s.snap := rfl
@[simp] theorem State.modCqs_journal (f : List Cq → List Cq) : (s.modCqs f).journal = s.journal := rfl
@[simp] theorem State.modCqs_harbour (f : List Cq → List Cq) : (s.modCqs f).harbour = s.harbour := rfl
@[simp] theorem State.modCqs_ports (f : List Cq → List Cq) : (s.modCqs f).ports = s.ports := rfl
@[simp] theorem State.modCqs_test (f : List Cq → List Cq) : (s.modCqs f).test = s.test := rfl

/-! ## `modCmds` -/

@[simp] theorem State.modCmds_pending (f : List Cmd → List Cmd) : (s.modCmds f).pending = s.pending := rfl
@[simp] theorem State.modCmds_out (f : List Cmd → List Cmd) : (s.modCmds f).out = s.out := rfl
@[simp] theorem State.modCmds_freeCtr (f : List Cmd → List Cmd) : (s.modCmds f).freeCtr = s.freeCtr := rfl
@[simp] theorem State.modCmds_usec (f : List Cmd → List Cmd) : (s.modCmds f).usec = s.usec := rfl
@[simp] theorem State.modCmds_power (f : List Cmd → List Cmd) : (s.modCmds f).power = s.power := rfl
@[simp] theorem State.modCmds_boot (f : List Cmd → List Cmd) : (s.modCmds f).boot = s.boot := rfl
@[simp] theorem State.modCmds_pcie (f : List Cmd → List Cmd) : (s.modCmds f).pcie = s.pcie := rfl
@[simp] theorem State.modCmds_sqs (f : List Cmd → List Cmd) : (s.modCmds f).sqs = s.sqs := rfl
@[simp] theorem State.modCmds_cqs (f : List Cmd → List Cmd) : (s.modCmds f).cqs = s.cqs := rfl
@[simp] theorem State.modCmds_sqTurn (f : List Cmd → List Cmd) : (s.modCmds f).sqTurn = s.sqTurn := rfl
@[simp] theorem State.modCmds_cmds (f : List Cmd → List Cmd) : (s.modCmds f).cmds = f s.cmds := rfl
@[simp] theorem State.modCmds_log (f : List Cmd → List Cmd) : (s.modCmds f).log = s.log := rfl
@[simp] theorem State.modCmds_tm (f : List Cmd → List Cmd) : (s.modCmds f).tm = s.tm := rfl
@[simp] theorem State.modCmds_job (f : List Cmd → List Cmd) : (s.modCmds f).job = s.job := rfl
@[simp] theorem State.modCmds_mem (f : List Cmd → List Cmd) : (s.modCmds f).mem = s.mem := rfl
@[simp] theorem State.modCmds_run (f : List Cmd → List Cmd) : (s.modCmds f).run = s.run := rfl
@[simp] theorem State.modCmds_stalls (f : List Cmd → List Cmd) : (s.modCmds f).stalls = s.stalls := rfl
@[simp] theorem State.modCmds_quays (f : List Cmd → List Cmd) : (s.modCmds f).quays = s.quays := rfl
@[simp] theorem State.modCmds_snap (f : List Cmd → List Cmd) : (s.modCmds f).snap = s.snap := rfl
@[simp] theorem State.modCmds_journal (f : List Cmd → List Cmd) : (s.modCmds f).journal = s.journal := rfl
@[simp] theorem State.modCmds_harbour (f : List Cmd → List Cmd) : (s.modCmds f).harbour = s.harbour := rfl
@[simp] theorem State.modCmds_ports (f : List Cmd → List Cmd) : (s.modCmds f).ports = s.ports := rfl
@[simp] theorem State.modCmds_test (f : List Cmd → List Cmd) : (s.modCmds f).test = s.test := rfl

/-! ## `modLog` -/

@[simp] theorem State.modLog_pending (f : EventLog → EventLog) : (s.modLog f).pending = s.pending := rfl
@[simp] theorem State.modLog_out (f : EventLog → EventLog) : (s.modLog f).out = s.out := rfl
@[simp] theorem State.modLog_freeCtr (f : EventLog → EventLog) : (s.modLog f).freeCtr = s.freeCtr := rfl
@[simp] theorem State.modLog_usec (f : EventLog → EventLog) : (s.modLog f).usec = s.usec := rfl
@[simp] theorem State.modLog_power (f : EventLog → EventLog) : (s.modLog f).power = s.power := rfl
@[simp] theorem State.modLog_boot (f : EventLog → EventLog) : (s.modLog f).boot = s.boot := rfl
@[simp] theorem State.modLog_pcie (f : EventLog → EventLog) : (s.modLog f).pcie = s.pcie := rfl
@[simp] theorem State.modLog_sqs (f : EventLog → EventLog) : (s.modLog f).sqs = s.sqs := rfl
@[simp] theorem State.modLog_cqs (f : EventLog → EventLog) : (s.modLog f).cqs = s.cqs := rfl
@[simp] theorem State.modLog_sqTurn (f : EventLog → EventLog) : (s.modLog f).sqTurn = s.sqTurn := rfl
@[simp] theorem State.modLog_cmds (f : EventLog → EventLog) : (s.modLog f).cmds = s.cmds := rfl
@[simp] theorem State.modLog_log (f : EventLog → EventLog) : (s.modLog f).log = f s.log := rfl
@[simp] theorem State.modLog_tm (f : EventLog → EventLog) : (s.modLog f).tm = s.tm := rfl
@[simp] theorem State.modLog_job (f : EventLog → EventLog) : (s.modLog f).job = s.job := rfl
@[simp] theorem State.modLog_mem (f : EventLog → EventLog) : (s.modLog f).mem = s.mem := rfl
@[simp] theorem State.modLog_run (f : EventLog → EventLog) : (s.modLog f).run = s.run := rfl
@[simp] theorem State.modLog_stalls (f : EventLog → EventLog) : (s.modLog f).stalls = s.stalls := rfl
@[simp] theorem State.modLog_quays (f : EventLog → EventLog) : (s.modLog f).quays = s.quays := rfl
@[simp] theorem State.modLog_snap (f : EventLog → EventLog) : (s.modLog f).snap = s.snap := rfl
@[simp] theorem State.modLog_journal (f : EventLog → EventLog) : (s.modLog f).journal = s.journal := rfl
@[simp] theorem State.modLog_harbour (f : EventLog → EventLog) : (s.modLog f).harbour = s.harbour := rfl
@[simp] theorem State.modLog_ports (f : EventLog → EventLog) : (s.modLog f).ports = s.ports := rfl
@[simp] theorem State.modLog_test (f : EventLog → EventLog) : (s.modLog f).test = s.test := rfl

/-! ## `modTm` -/

@[simp] theorem State.modTm_pending (f : Telemetry → Telemetry) : (s.modTm f).pending = s.pending := rfl
@[simp] theorem State.modTm_out (f : Telemetry → Telemetry) : (s.modTm f).out = s.out := rfl
@[simp] theorem State.modTm_freeCtr (f : Telemetry → Telemetry) : (s.modTm f).freeCtr = s.freeCtr := rfl
@[simp] theorem State.modTm_usec (f : Telemetry → Telemetry) : (s.modTm f).usec = s.usec := rfl
@[simp] theorem State.modTm_power (f : Telemetry → Telemetry) : (s.modTm f).power = s.power := rfl
@[simp] theorem State.modTm_boot (f : Telemetry → Telemetry) : (s.modTm f).boot = s.boot := rfl
@[simp] theorem State.modTm_pcie (f : Telemetry → Telemetry) : (s.modTm f).pcie = s.pcie := rfl
@[simp] theorem State.modTm_sqs (f : Telemetry → Telemetry) : (s.modTm f).sqs = s.sqs := rfl
@[simp] theorem State.modTm_cqs (f : Telemetry → Telemetry) : (s.modTm f).cqs = s.cqs := rfl
@[simp] theorem State.modTm_sqTurn (f : Telemetry → Telemetry) : (s.modTm f).sqTurn = s.sqTurn := rfl
@[simp] theorem State.modTm_cmds (f : Telemetry → Telemetry) : (s.modTm f).cmds = s.cmds := rfl
@[simp] theorem State.modTm_log (f : Telemetry → Telemetry) : (s.modTm f).log = s.log := rfl
@[simp] theorem State.modTm_tm (f : Telemetry → Telemetry) : (s.modTm f).tm = f s.tm := rfl
@[simp] theorem State.modTm_job (f : Telemetry → Telemetry) : (s.modTm f).job = s.job := rfl
@[simp] theorem State.modTm_mem (f : Telemetry → Telemetry) : (s.modTm f).mem = s.mem := rfl
@[simp] theorem State.modTm_run (f : Telemetry → Telemetry) : (s.modTm f).run = s.run := rfl
@[simp] theorem State.modTm_stalls (f : Telemetry → Telemetry) : (s.modTm f).stalls = s.stalls := rfl
@[simp] theorem State.modTm_quays (f : Telemetry → Telemetry) : (s.modTm f).quays = s.quays := rfl
@[simp] theorem State.modTm_snap (f : Telemetry → Telemetry) : (s.modTm f).snap = s.snap := rfl
@[simp] theorem State.modTm_journal (f : Telemetry → Telemetry) : (s.modTm f).journal = s.journal := rfl
@[simp] theorem State.modTm_harbour (f : Telemetry → Telemetry) : (s.modTm f).harbour = s.harbour := rfl
@[simp] theorem State.modTm_ports (f : Telemetry → Telemetry) : (s.modTm f).ports = s.ports := rfl
@[simp] theorem State.modTm_test (f : Telemetry → Telemetry) : (s.modTm f).test = s.test := rfl

/-! ## `modJob` -/

@[simp] theorem State.modJob_pending (f : Job → Job) : (s.modJob f).pending = s.pending := rfl
@[simp] theorem State.modJob_out (f : Job → Job) : (s.modJob f).out = s.out := rfl
@[simp] theorem State.modJob_freeCtr (f : Job → Job) : (s.modJob f).freeCtr = s.freeCtr := rfl
@[simp] theorem State.modJob_usec (f : Job → Job) : (s.modJob f).usec = s.usec := rfl
@[simp] theorem State.modJob_power (f : Job → Job) : (s.modJob f).power = s.power := rfl
@[simp] theorem State.modJob_boot (f : Job → Job) : (s.modJob f).boot = s.boot := rfl
@[simp] theorem State.modJob_pcie (f : Job → Job) : (s.modJob f).pcie = s.pcie := rfl
@[simp] theorem State.modJob_sqs (f : Job → Job) : (s.modJob f).sqs = s.sqs := rfl
@[simp] theorem State.modJob_cqs (f : Job → Job) : (s.modJob f).cqs = s.cqs := rfl
@[simp] theorem State.modJob_sqTurn (f : Job → Job) : (s.modJob f).sqTurn = s.sqTurn := rfl
@[simp] theorem State.modJob_cmds (f : Job → Job) : (s.modJob f).cmds = s.cmds := rfl
@[simp] theorem State.modJob_log (f : Job → Job) : (s.modJob f).log = s.log := rfl
@[simp] theorem State.modJob_tm (f : Job → Job) : (s.modJob f).tm = s.tm := rfl
@[simp] theorem State.modJob_job (f : Job → Job) : (s.modJob f).job = f s.job := rfl
@[simp] theorem State.modJob_mem (f : Job → Job) : (s.modJob f).mem = s.mem := rfl
@[simp] theorem State.modJob_run (f : Job → Job) : (s.modJob f).run = s.run := rfl
@[simp] theorem State.modJob_stalls (f : Job → Job) : (s.modJob f).stalls = s.stalls := rfl
@[simp] theorem State.modJob_quays (f : Job → Job) : (s.modJob f).quays = s.quays := rfl
@[simp] theorem State.modJob_snap (f : Job → Job) : (s.modJob f).snap = s.snap := rfl
@[simp] theorem State.modJob_journal (f : Job → Job) : (s.modJob f).journal = s.journal := rfl
@[simp] theorem State.modJob_harbour (f : Job → Job) : (s.modJob f).harbour = s.harbour := rfl
@[simp] theorem State.modJob_ports (f : Job → Job) : (s.modJob f).ports = s.ports := rfl
@[simp] theorem State.modJob_test (f : Job → Job) : (s.modJob f).test = s.test := rfl

/-! ## `modMem` -/

@[simp] theorem State.modMem_pending (f : Mem → Mem) : (s.modMem f).pending = s.pending := rfl
@[simp] theorem State.modMem_out (f : Mem → Mem) : (s.modMem f).out = s.out := rfl
@[simp] theorem State.modMem_freeCtr (f : Mem → Mem) : (s.modMem f).freeCtr = s.freeCtr := rfl
@[simp] theorem State.modMem_usec (f : Mem → Mem) : (s.modMem f).usec = s.usec := rfl
@[simp] theorem State.modMem_power (f : Mem → Mem) : (s.modMem f).power = s.power := rfl
@[simp] theorem State.modMem_boot (f : Mem → Mem) : (s.modMem f).boot = s.boot := rfl
@[simp] theorem State.modMem_pcie (f : Mem → Mem) : (s.modMem f).pcie = s.pcie := rfl
@[simp] theorem State.modMem_sqs (f : Mem → Mem) : (s.modMem f).sqs = s.sqs := rfl
@[simp] theorem State.modMem_cqs (f : Mem → Mem) : (s.modMem f).cqs = s.cqs := rfl
@[simp] theorem State.modMem_sqTurn (f : Mem → Mem) : (s.modMem f).sqTurn = s.sqTurn := rfl
@[simp] theorem State.modMem_cmds (f : Mem → Mem) : (s.modMem f).cmds = s.cmds := rfl
@[simp] theorem State.modMem_log (f : Mem → Mem) : (s.modMem f).log = s.log := rfl
@[simp] theorem State.modMem_tm (f : Mem → Mem) : (s.modMem f).tm = s.tm := rfl
@[simp] theorem State.modMem_job (f : Mem → Mem) : (s.modMem f).job = s.job := rfl
@[simp] theorem State.modMem_mem (f : Mem → Mem) : (s.modMem f).mem = f s.mem := rfl
@[simp] theorem State.modMem_run (f : Mem → Mem) : (s.modMem f).run = s.run := rfl
@[simp] theorem State.modMem_stalls (f : Mem → Mem) : (s.modMem f).stalls = s.stalls := rfl
@[simp] theorem State.modMem_quays (f : Mem → Mem) : (s.modMem f).quays = s.quays := rfl
@[simp] theorem State.modMem_snap (f : Mem → Mem) : (s.modMem f).snap = s.snap := rfl
@[simp] theorem State.modMem_journal (f : Mem → Mem) : (s.modMem f).journal = s.journal := rfl
@[simp] theorem State.modMem_harbour (f : Mem → Mem) : (s.modMem f).harbour = s.harbour := rfl
@[simp] theorem State.modMem_ports (f : Mem → Mem) : (s.modMem f).ports = s.ports := rfl
@[simp] theorem State.modMem_test (f : Mem → Mem) : (s.modMem f).test = s.test := rfl

/-! ## `modRun` -/

@[simp] theorem State.modRun_pending (f : Run → Run) : (s.modRun f).pending = s.pending := rfl
@[simp] theorem State.modRun_out (f : Run → Run) : (s.modRun f).out = s.out := rfl
@[simp] theorem State.modRun_freeCtr (f : Run → Run) : (s.modRun f).freeCtr = s.freeCtr := rfl
@[simp] theorem State.modRun_usec (f : Run → Run) : (s.modRun f).usec = s.usec := rfl
@[simp] theorem State.modRun_power (f : Run → Run) : (s.modRun f).power = s.power := rfl
@[simp] theorem State.modRun_boot (f : Run → Run) : (s.modRun f).boot = s.boot := rfl
@[simp] theorem State.modRun_pcie (f : Run → Run) : (s.modRun f).pcie = s.pcie := rfl
@[simp] theorem State.modRun_sqs (f : Run → Run) : (s.modRun f).sqs = s.sqs := rfl
@[simp] theorem State.modRun_cqs (f : Run → Run) : (s.modRun f).cqs = s.cqs := rfl
@[simp] theorem State.modRun_sqTurn (f : Run → Run) : (s.modRun f).sqTurn = s.sqTurn := rfl
@[simp] theorem State.modRun_cmds (f : Run → Run) : (s.modRun f).cmds = s.cmds := rfl
@[simp] theorem State.modRun_log (f : Run → Run) : (s.modRun f).log = s.log := rfl
@[simp] theorem State.modRun_tm (f : Run → Run) : (s.modRun f).tm = s.tm := rfl
@[simp] theorem State.modRun_job (f : Run → Run) : (s.modRun f).job = s.job := rfl
@[simp] theorem State.modRun_mem (f : Run → Run) : (s.modRun f).mem = s.mem := rfl
@[simp] theorem State.modRun_run (f : Run → Run) : (s.modRun f).run = f s.run := rfl
@[simp] theorem State.modRun_stalls (f : Run → Run) : (s.modRun f).stalls = s.stalls := rfl
@[simp] theorem State.modRun_quays (f : Run → Run) : (s.modRun f).quays = s.quays := rfl
@[simp] theorem State.modRun_snap (f : Run → Run) : (s.modRun f).snap = s.snap := rfl
@[simp] theorem State.modRun_journal (f : Run → Run) : (s.modRun f).journal = s.journal := rfl
@[simp] theorem State.modRun_harbour (f : Run → Run) : (s.modRun f).harbour = s.harbour := rfl
@[simp] theorem State.modRun_ports (f : Run → Run) : (s.modRun f).ports = s.ports := rfl
@[simp] theorem State.modRun_test (f : Run → Run) : (s.modRun f).test = s.test := rfl

/-! ## `modStalls` -/

@[simp] theorem State.modStalls_pending (f : List Stall → List Stall) : (s.modStalls f).pending = s.pending := rfl
@[simp] theorem State.modStalls_out (f : List Stall → List Stall) : (s.modStalls f).out = s.out := rfl
@[simp] theorem State.modStalls_freeCtr (f : List Stall → List Stall) : (s.modStalls f).freeCtr = s.freeCtr := rfl
@[simp] theorem State.modStalls_usec (f : List Stall → List Stall) : (s.modStalls f).usec = s.usec := rfl
@[simp] theorem State.modStalls_power (f : List Stall → List Stall) : (s.modStalls f).power = s.power := rfl
@[simp] theorem State.modStalls_boot (f : List Stall → List Stall) : (s.modStalls f).boot = s.boot := rfl
@[simp] theorem State.modStalls_pcie (f : List Stall → List Stall) : (s.modStalls f).pcie = s.pcie := rfl
@[simp] theorem State.modStalls_sqs (f : List Stall → List Stall) : (s.modStalls f).sqs = s.sqs := rfl
@[simp] theorem State.modStalls_cqs (f : List Stall → List Stall) : (s.modStalls f).cqs = s.cqs := rfl
@[simp] theorem State.modStalls_sqTurn (f : List Stall → List Stall) : (s.modStalls f).sqTurn = s.sqTurn := rfl
@[simp] theorem State.modStalls_cmds (f : List Stall → List Stall) : (s.modStalls f).cmds = s.cmds := rfl
@[simp] theorem State.modStalls_log (f : List Stall → List Stall) : (s.modStalls f).log = s.log := rfl
@[simp] theorem State.modStalls_tm (f : List Stall → List Stall) : (s.modStalls f).tm = s.tm := rfl
@[simp] theorem State.modStalls_job (f : List Stall → List Stall) : (s.modStalls f).job = s.job := rfl
@[simp] theorem State.modStalls_mem (f : List Stall → List Stall) : (s.modStalls f).mem = s.mem := rfl
@[simp] theorem State.modStalls_run (f : List Stall → List Stall) : (s.modStalls f).run = s.run := rfl
@[simp] theorem State.modStalls_stalls (f : List Stall → List Stall) : (s.modStalls f).stalls = f s.stalls := rfl
@[simp] theorem State.modStalls_quays (f : List Stall → List Stall) : (s.modStalls f).quays = s.quays := rfl
@[simp] theorem State.modStalls_snap (f : List Stall → List Stall) : (s.modStalls f).snap = s.snap := rfl
@[simp] theorem State.modStalls_journal (f : List Stall → List Stall) : (s.modStalls f).journal = s.journal := rfl
@[simp] theorem State.modStalls_harbour (f : List Stall → List Stall) : (s.modStalls f).harbour = s.harbour := rfl
@[simp] theorem State.modStalls_ports (f : List Stall → List Stall) : (s.modStalls f).ports = s.ports := rfl
@[simp] theorem State.modStalls_test (f : List Stall → List Stall) : (s.modStalls f).test = s.test := rfl

/-! ## `modQuays` -/

@[simp] theorem State.modQuays_pending (f : List Quay → List Quay) : (s.modQuays f).pending = s.pending := rfl
@[simp] theorem State.modQuays_out (f : List Quay → List Quay) : (s.modQuays f).out = s.out := rfl
@[simp] theorem State.modQuays_freeCtr (f : List Quay → List Quay) : (s.modQuays f).freeCtr = s.freeCtr := rfl
@[simp] theorem State.modQuays_usec (f : List Quay → List Quay) : (s.modQuays f).usec = s.usec := rfl
@[simp] theorem State.modQuays_power (f : List Quay → List Quay) : (s.modQuays f).power = s.power := rfl
@[simp] theorem State.modQuays_boot (f : List Quay → List Quay) : (s.modQuays f).boot = s.boot := rfl
@[simp] theorem State.modQuays_pcie (f : List Quay → List Quay) : (s.modQuays f).pcie = s.pcie := rfl
@[simp] theorem State.modQuays_sqs (f : List Quay → List Quay) : (s.modQuays f).sqs = s.sqs := rfl
@[simp] theorem State.modQuays_cqs (f : List Quay → List Quay) : (s.modQuays f).cqs = s.cqs := rfl
@[simp] theorem State.modQuays_sqTurn (f : List Quay → List Quay) : (s.modQuays f).sqTurn = s.sqTurn := rfl
@[simp] theorem State.modQuays_cmds (f : List Quay → List Quay) : (s.modQuays f).cmds = s.cmds := rfl
@[simp] theorem State.modQuays_log (f : List Quay → List Quay) : (s.modQuays f).log = s.log := rfl
@[simp] theorem State.modQuays_tm (f : List Quay → List Quay) : (s.modQuays f).tm = s.tm := rfl
@[simp] theorem State.modQuays_job (f : List Quay → List Quay) : (s.modQuays f).job = s.job := rfl
@[simp] theorem State.modQuays_mem (f : List Quay → List Quay) : (s.modQuays f).mem = s.mem := rfl
@[simp] theorem State.modQuays_run (f : List Quay → List Quay) : (s.modQuays f).run = s.run := rfl
@[simp] theorem State.modQuays_stalls (f : List Quay → List Quay) : (s.modQuays f).stalls = s.stalls := rfl
@[simp] theorem State.modQuays_quays (f : List Quay → List Quay) : (s.modQuays f).quays = f s.quays := rfl
@[simp] theorem State.modQuays_snap (f : List Quay → List Quay) : (s.modQuays f).snap = s.snap := rfl
@[simp] theorem State.modQuays_journal (f : List Quay → List Quay) : (s.modQuays f).journal = s.journal := rfl
@[simp] theorem State.modQuays_harbour (f : List Quay → List Quay) : (s.modQuays f).harbour = s.harbour := rfl
@[simp] theorem State.modQuays_ports (f : List Quay → List Quay) : (s.modQuays f).ports = s.ports := rfl
@[simp] theorem State.modQuays_test (f : List Quay → List Quay) : (s.modQuays f).test = s.test := rfl

/-! ## `modSnap` -/

@[simp] theorem State.modSnap_pending (f : Snap → Snap) : (s.modSnap f).pending = s.pending := rfl
@[simp] theorem State.modSnap_out (f : Snap → Snap) : (s.modSnap f).out = s.out := rfl
@[simp] theorem State.modSnap_freeCtr (f : Snap → Snap) : (s.modSnap f).freeCtr = s.freeCtr := rfl
@[simp] theorem State.modSnap_usec (f : Snap → Snap) : (s.modSnap f).usec = s.usec := rfl
@[simp] theorem State.modSnap_power (f : Snap → Snap) : (s.modSnap f).power = s.power := rfl
@[simp] theorem State.modSnap_boot (f : Snap → Snap) : (s.modSnap f).boot = s.boot := rfl
@[simp] theorem State.modSnap_pcie (f : Snap → Snap) : (s.modSnap f).pcie = s.pcie := rfl
@[simp] theorem State.modSnap_sqs (f : Snap → Snap) : (s.modSnap f).sqs = s.sqs := rfl
@[simp] theorem State.modSnap_cqs (f : Snap → Snap) : (s.modSnap f).cqs = s.cqs := rfl
@[simp] theorem State.modSnap_sqTurn (f : Snap → Snap) : (s.modSnap f).sqTurn = s.sqTurn := rfl
@[simp] theorem State.modSnap_cmds (f : Snap → Snap) : (s.modSnap f).cmds = s.cmds := rfl
@[simp] theorem State.modSnap_log (f : Snap → Snap) : (s.modSnap f).log = s.log := rfl
@[simp] theorem State.modSnap_tm (f : Snap → Snap) : (s.modSnap f).tm = s.tm := rfl
@[simp] theorem State.modSnap_job (f : Snap → Snap) : (s.modSnap f).job = s.job := rfl
@[simp] theorem State.modSnap_mem (f : Snap → Snap) : (s.modSnap f).mem = s.mem := rfl
@[simp] theorem State.modSnap_run (f : Snap → Snap) : (s.modSnap f).run = s.run := rfl
@[simp] theorem State.modSnap_stalls (f : Snap → Snap) : (s.modSnap f).stalls = s.stalls := rfl
@[simp] theorem State.modSnap_quays (f : Snap → Snap) : (s.modSnap f).quays = s.quays := rfl
@[simp] theorem State.modSnap_snap (f : Snap → Snap) : (s.modSnap f).snap = f s.snap := rfl
@[simp] theorem State.modSnap_journal (f : Snap → Snap) : (s.modSnap f).journal = s.journal := rfl
@[simp] theorem State.modSnap_harbour (f : Snap → Snap) : (s.modSnap f).harbour = s.harbour := rfl
@[simp] theorem State.modSnap_ports (f : Snap → Snap) : (s.modSnap f).ports = s.ports := rfl
@[simp] theorem State.modSnap_test (f : Snap → Snap) : (s.modSnap f).test = s.test := rfl

/-! ## `modJournal` -/

@[simp] theorem State.modJournal_pending (f : Journal → Journal) : (s.modJournal f).pending = s.pending := rfl
@[simp] theorem State.modJournal_out (f : Journal → Journal) : (s.modJournal f).out = s.out := rfl
@[simp] theorem State.modJournal_freeCtr (f : Journal → Journal) : (s.modJournal f).freeCtr = s.freeCtr := rfl
@[simp] theorem State.modJournal_usec (f : Journal → Journal) : (s.modJournal f).usec = s.usec := rfl
@[simp] theorem State.modJournal_power (f : Journal → Journal) : (s.modJournal f).power = s.power := rfl
@[simp] theorem State.modJournal_boot (f : Journal → Journal) : (s.modJournal f).boot = s.boot := rfl
@[simp] theorem State.modJournal_pcie (f : Journal → Journal) : (s.modJournal f).pcie = s.pcie := rfl
@[simp] theorem State.modJournal_sqs (f : Journal → Journal) : (s.modJournal f).sqs = s.sqs := rfl
@[simp] theorem State.modJournal_cqs (f : Journal → Journal) : (s.modJournal f).cqs = s.cqs := rfl
@[simp] theorem State.modJournal_sqTurn (f : Journal → Journal) : (s.modJournal f).sqTurn = s.sqTurn := rfl
@[simp] theorem State.modJournal_cmds (f : Journal → Journal) : (s.modJournal f).cmds = s.cmds := rfl
@[simp] theorem State.modJournal_log (f : Journal → Journal) : (s.modJournal f).log = s.log := rfl
@[simp] theorem State.modJournal_tm (f : Journal → Journal) : (s.modJournal f).tm = s.tm := rfl
@[simp] theorem State.modJournal_job (f : Journal → Journal) : (s.modJournal f).job = s.job := rfl
@[simp] theorem State.modJournal_mem (f : Journal → Journal) : (s.modJournal f).mem = s.mem := rfl
@[simp] theorem State.modJournal_run (f : Journal → Journal) : (s.modJournal f).run = s.run := rfl
@[simp] theorem State.modJournal_stalls (f : Journal → Journal) : (s.modJournal f).stalls = s.stalls := rfl
@[simp] theorem State.modJournal_quays (f : Journal → Journal) : (s.modJournal f).quays = s.quays := rfl
@[simp] theorem State.modJournal_snap (f : Journal → Journal) : (s.modJournal f).snap = s.snap := rfl
@[simp] theorem State.modJournal_journal (f : Journal → Journal) : (s.modJournal f).journal = f s.journal := rfl
@[simp] theorem State.modJournal_harbour (f : Journal → Journal) : (s.modJournal f).harbour = s.harbour := rfl
@[simp] theorem State.modJournal_ports (f : Journal → Journal) : (s.modJournal f).ports = s.ports := rfl
@[simp] theorem State.modJournal_test (f : Journal → Journal) : (s.modJournal f).test = s.test := rfl

/-! ## `modHarbour` -/

@[simp] theorem State.modHarbour_pending (f : Harbour → Harbour) : (s.modHarbour f).pending = s.pending := rfl
@[simp] theorem State.modHarbour_out (f : Harbour → Harbour) : (s.modHarbour f).out = s.out := rfl
@[simp] theorem State.modHarbour_freeCtr (f : Harbour → Harbour) : (s.modHarbour f).freeCtr = s.freeCtr := rfl
@[simp] theorem State.modHarbour_usec (f : Harbour → Harbour) : (s.modHarbour f).usec = s.usec := rfl
@[simp] theorem State.modHarbour_power (f : Harbour → Harbour) : (s.modHarbour f).power = s.power := rfl
@[simp] theorem State.modHarbour_boot (f : Harbour → Harbour) : (s.modHarbour f).boot = s.boot := rfl
@[simp] theorem State.modHarbour_pcie (f : Harbour → Harbour) : (s.modHarbour f).pcie = s.pcie := rfl
@[simp] theorem State.modHarbour_sqs (f : Harbour → Harbour) : (s.modHarbour f).sqs = s.sqs := rfl
@[simp] theorem State.modHarbour_cqs (f : Harbour → Harbour) : (s.modHarbour f).cqs = s.cqs := rfl
@[simp] theorem State.modHarbour_sqTurn (f : Harbour → Harbour) : (s.modHarbour f).sqTurn = s.sqTurn := rfl
@[simp] theorem State.modHarbour_cmds (f : Harbour → Harbour) : (s.modHarbour f).cmds = s.cmds := rfl
@[simp] theorem State.modHarbour_log (f : Harbour → Harbour) : (s.modHarbour f).log = s.log := rfl
@[simp] theorem State.modHarbour_tm (f : Harbour → Harbour) : (s.modHarbour f).tm = s.tm := rfl
@[simp] theorem State.modHarbour_job (f : Harbour → Harbour) : (s.modHarbour f).job = s.job := rfl
@[simp] theorem State.modHarbour_mem (f : Harbour → Harbour) : (s.modHarbour f).mem = s.mem := rfl
@[simp] theorem State.modHarbour_run (f : Harbour → Harbour) : (s.modHarbour f).run = s.run := rfl
@[simp] theorem State.modHarbour_stalls (f : Harbour → Harbour) : (s.modHarbour f).stalls = s.stalls := rfl
@[simp] theorem State.modHarbour_quays (f : Harbour → Harbour) : (s.modHarbour f).quays = s.quays := rfl
@[simp] theorem State.modHarbour_snap (f : Harbour → Harbour) : (s.modHarbour f).snap = s.snap := rfl
@[simp] theorem State.modHarbour_journal (f : Harbour → Harbour) : (s.modHarbour f).journal = s.journal := rfl
@[simp] theorem State.modHarbour_harbour (f : Harbour → Harbour) : (s.modHarbour f).harbour = f s.harbour := rfl
@[simp] theorem State.modHarbour_ports (f : Harbour → Harbour) : (s.modHarbour f).ports = s.ports := rfl
@[simp] theorem State.modHarbour_test (f : Harbour → Harbour) : (s.modHarbour f).test = s.test := rfl

/-! ## `modPorts` -/

@[simp] theorem State.modPorts_pending (f : List Port → List Port) : (s.modPorts f).pending = s.pending := rfl
@[simp] theorem State.modPorts_out (f : List Port → List Port) : (s.modPorts f).out = s.out := rfl
@[simp] theorem State.modPorts_freeCtr (f : List Port → List Port) : (s.modPorts f).freeCtr = s.freeCtr := rfl
@[simp] theorem State.modPorts_usec (f : List Port → List Port) : (s.modPorts f).usec = s.usec := rfl
@[simp] theorem State.modPorts_power (f : List Port → List Port) : (s.modPorts f).power = s.power := rfl
@[simp] theorem State.modPorts_boot (f : List Port → List Port) : (s.modPorts f).boot = s.boot := rfl
@[simp] theorem State.modPorts_pcie (f : List Port → List Port) : (s.modPorts f).pcie = s.pcie := rfl
@[simp] theorem State.modPorts_sqs (f : List Port → List Port) : (s.modPorts f).sqs = s.sqs := rfl
@[simp] theorem State.modPorts_cqs (f : List Port → List Port) : (s.modPorts f).cqs = s.cqs := rfl
@[simp] theorem State.modPorts_sqTurn (f : List Port → List Port) : (s.modPorts f).sqTurn = s.sqTurn := rfl
@[simp] theorem State.modPorts_cmds (f : List Port → List Port) : (s.modPorts f).cmds = s.cmds := rfl
@[simp] theorem State.modPorts_log (f : List Port → List Port) : (s.modPorts f).log = s.log := rfl
@[simp] theorem State.modPorts_tm (f : List Port → List Port) : (s.modPorts f).tm = s.tm := rfl
@[simp] theorem State.modPorts_job (f : List Port → List Port) : (s.modPorts f).job = s.job := rfl
@[simp] theorem State.modPorts_mem (f : List Port → List Port) : (s.modPorts f).mem = s.mem := rfl
@[simp] theorem State.modPorts_run (f : List Port → List Port) : (s.modPorts f).run = s.run := rfl
@[simp] theorem State.modPorts_stalls (f : List Port → List Port) : (s.modPorts f).stalls = s.stalls := rfl
@[simp] theorem State.modPorts_quays (f : List Port → List Port) : (s.modPorts f).quays = s.quays := rfl
@[simp] theorem State.modPorts_snap (f : List Port → List Port) : (s.modPorts f).snap = s.snap := rfl
@[simp] theorem State.modPorts_journal (f : List Port → List Port) : (s.modPorts f).journal = s.journal := rfl
@[simp] theorem State.modPorts_harbour (f : List Port → List Port) : (s.modPorts f).harbour = s.harbour := rfl
@[simp] theorem State.modPorts_ports (f : List Port → List Port) : (s.modPorts f).ports = f s.ports := rfl
@[simp] theorem State.modPorts_test (f : List Port → List Port) : (s.modPorts f).test = s.test := rfl

/-! ## `modTest` -/

@[simp] theorem State.modTest_pending (f : Test → Test) : (s.modTest f).pending = s.pending := rfl
@[simp] theorem State.modTest_out (f : Test → Test) : (s.modTest f).out = s.out := rfl
@[simp] theorem State.modTest_freeCtr (f : Test → Test) : (s.modTest f).freeCtr = s.freeCtr := rfl
@[simp] theorem State.modTest_usec (f : Test → Test) : (s.modTest f).usec = s.usec := rfl
@[simp] theorem State.modTest_power (f : Test → Test) : (s.modTest f).power = s.power := rfl
@[simp] theorem State.modTest_boot (f : Test → Test) : (s.modTest f).boot = s.boot := rfl
@[simp] theorem State.modTest_pcie (f : Test → Test) : (s.modTest f).pcie = s.pcie := rfl
@[simp] theorem State.modTest_sqs (f : Test → Test) : (s.modTest f).sqs = s.sqs := rfl
@[simp] theorem State.modTest_cqs (f : Test → Test) : (s.modTest f).cqs = s.cqs := rfl
@[simp] theorem State.modTest_sqTurn (f : Test → Test) : (s.modTest f).sqTurn = s.sqTurn := rfl
@[simp] theorem State.modTest_cmds (f : Test → Test) : (s.modTest f).cmds = s.cmds := rfl
@[simp] theorem State.modTest_log (f : Test → Test) : (s.modTest f).log = s.log := rfl
@[simp] theorem State.modTest_tm (f : Test → Test) : (s.modTest f).tm = s.tm := rfl
@[simp] theorem State.modTest_job (f : Test → Test) : (s.modTest f).job = s.job := rfl
@[simp] theorem State.modTest_mem (f : Test → Test) : (s.modTest f).mem = s.mem := rfl
@[simp] theorem State.modTest_run (f : Test → Test) : (s.modTest f).run = s.run := rfl
@[simp] theorem State.modTest_stalls (f : Test → Test) : (s.modTest f).stalls = s.stalls := rfl
@[simp] theorem State.modTest_quays (f : Test → Test) : (s.modTest f).quays = s.quays := rfl
@[simp] theorem State.modTest_snap (f : Test → Test) : (s.modTest f).snap = s.snap := rfl
@[simp] theorem State.modTest_journal (f : Test → Test) : (s.modTest f).journal = s.journal := rfl
@[simp] theorem State.modTest_harbour (f : Test → Test) : (s.modTest f).harbour = s.harbour := rfl
@[simp] theorem State.modTest_ports (f : Test → Test) : (s.modTest f).ports = s.ports := rfl
@[simp] theorem State.modTest_test (f : Test → Test) : (s.modTest f).test = f s.test := rfl

/-! ## `emit` -/

@[simp] theorem State.emit_pending (o : Output) : (s.emit o).pending = s.pending := rfl
@[simp] theorem State.emit_out (o : Output) : (s.emit o).out = s.out ++ [o] := rfl
@[simp] theorem State.emit_freeCtr (o : Output) : (s.emit o).freeCtr = s.freeCtr := rfl
@[simp] theorem State.emit_usec (o : Output) : (s.emit o).usec = s.usec := rfl
@[simp] theorem State.emit_power (o : Output) : (s.emit o).power = s.power := rfl
@[simp] theorem State.emit_boot (o : Output) : (s.emit o).boot = s.boot := rfl
@[simp] theorem State.emit_pcie (o : Output) : (s.emit o).pcie = s.pcie := rfl
@[simp] theorem State.emit_sqs (o : Output) : (s.emit o).sqs = s.sqs := rfl
@[simp] theorem State.emit_cqs (o : Output) : (s.emit o).cqs = s.cqs := rfl
@[simp] theorem State.emit_sqTurn (o : Output) : (s.emit o).sqTurn = s.sqTurn := rfl
@[simp] theorem State.emit_cmds (o : Output) : (s.emit o).cmds = s.cmds := rfl
@[simp] theorem State.emit_log (o : Output) : (s.emit o).log = s.log := rfl
@[simp] theorem State.emit_tm (o : Output) : (s.emit o).tm = s.tm := rfl
@[simp] theorem State.emit_job (o : Output) : (s.emit o).job = s.job := rfl
@[simp] theorem State.emit_mem (o : Output) : (s.emit o).mem = s.mem := rfl
@[simp] theorem State.emit_run (o : Output) : (s.emit o).run = s.run := rfl
@[simp] theorem State.emit_stalls (o : Output) : (s.emit o).stalls = s.stalls := rfl
@[simp] theorem State.emit_quays (o : Output) : (s.emit o).quays = s.quays := rfl
@[simp] theorem State.emit_snap (o : Output) : (s.emit o).snap = s.snap := rfl
@[simp] theorem State.emit_journal (o : Output) : (s.emit o).journal = s.journal := rfl
@[simp] theorem State.emit_harbour (o : Output) : (s.emit o).harbour = s.harbour := rfl
@[simp] theorem State.emit_ports (o : Output) : (s.emit o).ports = s.ports := rfl
@[simp] theorem State.emit_test (o : Output) : (s.emit o).test = s.test := rfl

/-! ## One element of an array -/

@[simp] theorem State.setSq_eq (i : Nat) (f : Sq → Sq) : s.setSq i f = s.modSqs (modAt i f) := rfl
@[simp] theorem State.setCq_eq (i : Nat) (f : Cq → Cq) : s.setCq i f = s.modCqs (modAt i f) := rfl
@[simp] theorem State.setPort_eq (i : Nat) (f : Port → Port) : s.setPort i f = s.modPorts (modAt i f) := rfl
@[simp] theorem State.setStall_eq (i : Nat) (f : Stall → Stall) : s.setStall i f = s.modStalls (modAt i f) := rfl
@[simp] theorem State.setQuay_eq (i : Nat) (f : Quay → Quay) : s.setQuay i f = s.modQuays (modAt i f) := rfl

@[simp] theorem modAt_length {α : Type} (i : Nat) (f : α → α) (l : List α) : (modAt i f l).length = l.length := by
  induction l generalizing i with
  | nil => simp [modAt]
  | cons x xs ih => cases i <;> simp [modAt, ih]

theorem modAt_getElem? {α : Type} (i j : Nat) (f : α → α) (l : List α) :
    (modAt i f l)[j]? = if i = j then l[j]?.map f else l[j]? := by
  induction l generalizing i j with
  | nil => simp [modAt]
  | cons x xs ih => cases i <;> cases j <;> simp [modAt, ih]

/-- The changed element. -/
theorem modAt_getD_self {α : Type} (i : Nat) (f : α → α) (l : List α) (d : α) (h : i < l.length) :
    (modAt i f l).getD i d = f (l.getD i d) := by
  rw [List.getD_eq_getElem?_getD, List.getD_eq_getElem?_getD, modAt_getElem?]
  simp [h]

/-- Every other element. -/
theorem modAt_getD_ne {α : Type} (i j : Nat) (f : α → α) (l : List α) (d : α) (h : i ≠ j) :
    (modAt i f l).getD j d = l.getD j d := by
  rw [List.getD_eq_getElem?_getD, List.getD_eq_getElem?_getD, modAt_getElem?, if_neg h]

end Sys2Proof.Machine
end

