-- ==== Sys2Proof/Laws/Kept.lean ====
section
/-! SUPPORT. What every operation keeps: the queue, what has been sent, the one-time-programmable state, and the invariant. The
laws of the operations are in Laws/Kept*.lean. -/

namespace Sys2Proof.Machine

/-- What stands between a state and one that operations have made of it: the queue is the same, nothing that was sent is taken
back, the security version and the key generations of the owner slots never shrink (R451), and the invariant still holds. -/
structure Kept (s x : State) : Prop where
  queue : x.pending = s.pending
  sent : s.out <+: x.out
  svn : s.boot.svn ≤ x.boot.svn
  gens : ∀ k, s.boot.generation k ≤ x.boot.generation k
  inv : s.Inv → x.Inv

theorem kept_refl (s : State) : Kept s s := ⟨rfl, List.prefix_refl _, le_rfl, fun _ => le_rfl, id⟩

theorem kept_trans {s x y : State} (h : Kept s x) (g : Kept x y) : Kept s y :=
  ⟨g.queue.trans h.queue, h.sent.trans g.sent, h.svn.trans g.svn, fun k => (h.gens k).trans (g.gens k), g.inv ∘ h.inv⟩

/-- The state of a pair that an operation answered. -/
theorem kept_of_eq {α : Type} {s x : State} {p : α × State} {a : α} (e : p = (a, x)) (h : Kept s p.2) : Kept s x := by
  cases e
  exact h

/-! ## Folds -/

theorem foldl_kept {α : Type} {s x : State} {f : State → α → State} {l : List α} (h : Kept s x)
    (hf : ∀ y a, Kept s y → Kept s (f y a)) : Kept s (l.foldl f x) := by
  induction l generalizing x with
  | nil => exact h
  | cons a l ih => exact ih (hf x a h)

theorem foldl_kept_snd {α β : Type} {s : State} {p : β × State} {f : β × State → α → β × State} {l : List α} (h : Kept s p.2)
    (hf : ∀ y a, Kept s y.2 → Kept s (f y a).2) : Kept s (l.foldl f p).2 := by
  induction l generalizing p with
  | nil => exact h
  | cons a l ih => exact ih (hf p a h)

/-! ## Updates of one part -/

section
variable {s x : State}

theorem emit_kept (o : Output) (h : Kept s x) : Kept s (x.emit o) :=
  kept_trans h ⟨rfl, List.prefix_append _ _, le_rfl, fun _ => le_rfl, fun i => ⟨i.memory, i.sqs, i.cqs, i.stalls, i.quays, i.ports, i.vectors, i.log, i.counters, i.otp⟩⟩

theorem setFree_kept (n : Nat) (h : Kept s x) : Kept s { x with freeCtr := n } :=
  kept_trans h ⟨rfl, List.prefix_refl _, le_rfl, fun _ => le_rfl, fun i => ⟨i.memory, i.sqs, i.cqs, i.stalls, i.quays, i.ports, i.vectors, i.log, i.counters, i.otp⟩⟩

theorem setTurn_kept (n : Nat) (h : Kept s x) : Kept s { x with sqTurn := n } :=
  kept_trans h ⟨rfl, List.prefix_refl _, le_rfl, fun _ => le_rfl, fun i => ⟨i.memory, i.sqs, i.cqs, i.stalls, i.quays, i.ports, i.vectors, i.log, i.counters, i.otp⟩⟩

theorem modPower_kept (f : Power → Power) (h : Kept s x) : Kept s (x.modPower f) :=
  kept_trans h ⟨rfl, List.prefix_refl _, le_rfl, fun _ => le_rfl, fun i => ⟨i.memory, i.sqs, i.cqs, i.stalls, i.quays, i.ports, i.vectors, i.log, i.counters, i.otp⟩⟩

theorem modBoot_kept (f : Boot → Boot) (hv : x.boot.svn ≤ (f x.boot).svn) (hg : ∀ k, x.boot.generation k ≤ (f x.boot).generation k)
    (hs : x.boot.Ok → (f x.boot).Ok) (h : Kept s x) : Kept s (x.modBoot f) :=
  kept_trans h ⟨rfl, List.prefix_refl _, hv, hg, fun i => ⟨i.memory, i.sqs, i.cqs, i.stalls, i.quays, i.ports, i.vectors, i.log, i.counters, hs i.otp⟩⟩

theorem modPcie_kept (f : Pcie → Pcie) (hf : ∀ p, p.msix.length = 64 → (f p).msix.length = 64) (h : Kept s x) : Kept s (x.modPcie f) :=
  kept_trans h ⟨rfl, List.prefix_refl _, le_rfl, fun _ => le_rfl, fun i => ⟨i.memory, i.sqs, i.cqs, i.stalls, i.quays, i.ports, hf _ i.vectors, i.log, i.counters, i.otp⟩⟩

theorem modSqs_kept (f : List Sq → List Sq) (hf : ∀ l, (f l).length = l.length) (h : Kept s x) : Kept s (x.modSqs f) :=
  kept_trans h ⟨rfl, List.prefix_refl _, le_rfl, fun _ => le_rfl, fun i => ⟨i.memory, (hf _).trans i.sqs, i.cqs, i.stalls, i.quays, i.ports, i.vectors, i.log, i.counters, i.otp⟩⟩

theorem modCqs_kept (f : List Cq → List Cq) (hf : ∀ l, (f l).length = l.length) (h : Kept s x) : Kept s (x.modCqs f) :=
  kept_trans h ⟨rfl, List.prefix_refl _, le_rfl, fun _ => le_rfl, fun i => ⟨i.memory, i.sqs, (hf _).trans i.cqs, i.stalls, i.quays, i.ports, i.vectors, i.log, i.counters, i.otp⟩⟩

theorem modCmds_kept (f : List Cmd → List Cmd) (h : Kept s x) : Kept s (x.modCmds f) :=
  kept_trans h ⟨rfl, List.prefix_refl _, le_rfl, fun _ => le_rfl, fun i => ⟨i.memory, i.sqs, i.cqs, i.stalls, i.quays, i.ports, i.vectors, i.log, i.counters, i.otp⟩⟩

theorem modLog_kept (f : EventLog → EventLog) (hf : x.log.Ok → (f x.log).Ok) (h : Kept s x) : Kept s (x.modLog f) :=
  kept_trans h ⟨rfl, List.prefix_refl _, le_rfl, fun _ => le_rfl, fun i => ⟨i.memory, i.sqs, i.cqs, i.stalls, i.quays, i.ports, i.vectors, hf i.log, i.counters, i.otp⟩⟩

theorem modTm_kept (f : Telemetry → Telemetry) (hf : ∀ t, t.Ok → (f t).Ok) (h : Kept s x) : Kept s (x.modTm f) :=
  kept_trans h ⟨rfl, List.prefix_refl _, le_rfl, fun _ => le_rfl, fun i => ⟨i.memory, i.sqs, i.cqs, i.stalls, i.quays, i.ports, i.vectors, i.log, hf _ i.counters, i.otp⟩⟩

theorem modJob_kept (f : Job → Job) (h : Kept s x) : Kept s (x.modJob f) :=
  kept_trans h ⟨rfl, List.prefix_refl _, le_rfl, fun _ => le_rfl, fun i => ⟨i.memory, i.sqs, i.cqs, i.stalls, i.quays, i.ports, i.vectors, i.log, i.counters, i.otp⟩⟩

theorem modMem_kept (f : Mem → Mem) (hf : ∀ m, m.wf = true → (f m).wf = true) (h : Kept s x) : Kept s (x.modMem f) :=
  kept_trans h ⟨rfl, List.prefix_refl _, le_rfl, fun _ => le_rfl, fun i => ⟨hf _ i.memory, i.sqs, i.cqs, i.stalls, i.quays, i.ports, i.vectors, i.log, i.counters, i.otp⟩⟩

theorem modRun_kept (f : Run → Run) (h : Kept s x) : Kept s (x.modRun f) :=
  kept_trans h ⟨rfl, List.prefix_refl _, le_rfl, fun _ => le_rfl, fun i => ⟨i.memory, i.sqs, i.cqs, i.stalls, i.quays, i.ports, i.vectors, i.log, i.counters, i.otp⟩⟩

theorem modStalls_kept (f : List Stall → List Stall) (hf : ∀ l, (f l).length = l.length) (h : Kept s x) : Kept s (x.modStalls f) :=
  kept_trans h ⟨rfl, List.prefix_refl _, le_rfl, fun _ => le_rfl, fun i => ⟨i.memory, i.sqs, i.cqs, (hf _).trans i.stalls, i.quays, i.ports, i.vectors, i.log, i.counters, i.otp⟩⟩

theorem modQuays_kept (f : List Quay → List Quay) (hf : ∀ l, (f l).length = l.length) (h : Kept s x) : Kept s (x.modQuays f) :=
  kept_trans h ⟨rfl, List.prefix_refl _, le_rfl, fun _ => le_rfl, fun i => ⟨i.memory, i.sqs, i.cqs, i.stalls, (hf _).trans i.quays, i.ports, i.vectors, i.log, i.counters, i.otp⟩⟩

theorem modSnap_kept (f : Snap → Snap) (h : Kept s x) : Kept s (x.modSnap f) :=
  kept_trans h ⟨rfl, List.prefix_refl _, le_rfl, fun _ => le_rfl, fun i => ⟨i.memory, i.sqs, i.cqs, i.stalls, i.quays, i.ports, i.vectors, i.log, i.counters, i.otp⟩⟩

theorem modJournal_kept (f : Journal → Journal) (h : Kept s x) : Kept s (x.modJournal f) :=
  kept_trans h ⟨rfl, List.prefix_refl _, le_rfl, fun _ => le_rfl, fun i => ⟨i.memory, i.sqs, i.cqs, i.stalls, i.quays, i.ports, i.vectors, i.log, i.counters, i.otp⟩⟩

theorem modHarbour_kept (f : Harbour → Harbour) (h : Kept s x) : Kept s (x.modHarbour f) :=
  kept_trans h ⟨rfl, List.prefix_refl _, le_rfl, fun _ => le_rfl, fun i => ⟨i.memory, i.sqs, i.cqs, i.stalls, i.quays, i.ports, i.vectors, i.log, i.counters, i.otp⟩⟩

theorem modPorts_kept (f : List Port → List Port) (hf : ∀ l, (f l).length = l.length) (h : Kept s x) : Kept s (x.modPorts f) :=
  kept_trans h ⟨rfl, List.prefix_refl _, le_rfl, fun _ => le_rfl, fun i => ⟨i.memory, i.sqs, i.cqs, i.stalls, i.quays, (hf _).trans i.ports, i.vectors, i.log, i.counters, i.otp⟩⟩

theorem modTest_kept (f : Test → Test) (h : Kept s x) : Kept s (x.modTest f) :=
  kept_trans h ⟨rfl, List.prefix_refl _, le_rfl, fun _ => le_rfl, fun i => ⟨i.memory, i.sqs, i.cqs, i.stalls, i.quays, i.ports, i.vectors, i.log, i.counters, i.otp⟩⟩

theorem setSq_kept (i : Nat) (f : Sq → Sq) (h : Kept s x) : Kept s (x.setSq i f) := modSqs_kept _ (modAt_length i f) h

theorem setCq_kept (i : Nat) (f : Cq → Cq) (h : Kept s x) : Kept s (x.setCq i f) := modCqs_kept _ (modAt_length i f) h

theorem setPort_kept (i : Nat) (f : Port → Port) (h : Kept s x) : Kept s (x.setPort i f) := modPorts_kept _ (modAt_length i f) h

theorem setStall_kept (i : Nat) (f : Stall → Stall) (h : Kept s x) : Kept s (x.setStall i f) := modStalls_kept _ (modAt_length i f) h

theorem setQuay_kept (i : Nat) (f : Quay → Quay) (h : Kept s x) : Kept s (x.setQuay i f) := modQuays_kept _ (modAt_length i f) h

end

end Sys2Proof.Machine
end

