-- ==== Sys2Proof/Laws/KeptOps.lean ====
section
/-! SUPPORT. That each operation of Machine/Ops.lean keeps what `Kept` says (Laws/Kept.lean). -/

namespace Sys2Proof.Machine

/-! ## Counters and the event ring -/

theorem mem_kvPut {l : List (Nat × Nat)} {a b : Nat} {p : Nat × Nat} (h : p ∈ kvPut l a b) : p ∈ l ∨ p = (a, b) ∧ b ≠ 0 := by
  induction l with
  | nil =>
    simp only [kvPut] at h
    split at h
    · exact absurd h (by simp)
    · exact .inr ⟨by simpa using h, ‹_›⟩
  | cons d rest ih =>
    simp only [kvPut] at h
    split at h
    · split at h
      · exact .inl h
      · rcases List.mem_cons.mp h with rfl | h
        · exact .inr ⟨rfl, ‹_›⟩
        · exact .inl h
    · split at h
      · split at h
        · exact .inl (List.mem_cons_of_mem _ h)
        · rcases List.mem_cons.mp h with rfl | h
          · exact .inr ⟨rfl, ‹_›⟩
          · exact .inl (List.mem_cons_of_mem _ h)
      · rcases List.mem_cons.mp h with rfl | h
        · exact .inl (by simp)
        · exact (ih h).imp_left (List.mem_cons_of_mem _)

theorem kvPut_ok {n : Nat} {l : List (Nat × Nat)} (a b : Nat) (hb : b ≤ n) (h : kvOk n l) : kvOk n (kvPut l a b) := by
  refine ⟨?_, fun p hp => ?_⟩
  · obtain ⟨hp, -⟩ := h
    induction l with
    | nil => simp only [kvPut]; split <;> simp
    | cons d rest ih =>
      obtain ⟨k, v⟩ := d
      obtain ⟨hd, ht⟩ := List.pairwise_cons.mp hp
      simp only [kvPut]
      split
      · split
        · exact hp
        · refine List.pairwise_cons.mpr ⟨fun x hx => ?_, hp⟩
          rcases List.mem_cons.mp hx with rfl | hx
          · assumption
          · exact lt_trans ‹a < k› (hd x hx)
      · split
        · subst_vars
          split
          · exact ht
          · exact List.pairwise_cons.mpr ⟨hd, ht⟩
        · refine List.pairwise_cons.mpr ⟨fun x hx => ?_, ih ht⟩
          rcases mem_kvPut hx with hx | ⟨rfl, -⟩
          · exact hd x hx
          · show k < a
            omega
  · rcases mem_kvPut hp with hp | ⟨rfl, h0⟩
    · exact h.2 p hp
    · exact ⟨Nat.pos_of_ne_zero h0, hb⟩

/-- A counter read back after it has been put. -/
theorem kvGet_kvPut {l : List (Nat × Nat)} (h : l.Pairwise fun p q => p.1 < q.1) (a x b : Nat) :
    kvGet (kvPut l a b) x = if x = a then b else kvGet l x := by
  have none : ∀ (l : List (Nat × Nat)) (k : Nat), (∀ p ∈ l, k < p.1) → kvGet l k = 0 := by
    intro l k hk
    induction l with
    | nil => rfl
    | cons d rest ih =>
      simp only [kvGet]
      rw [if_neg (by have := hk d (by simp); omega)]
      exact ih fun p hp => hk p (List.mem_cons_of_mem _ hp)
  induction l with
  | nil =>
    simp only [kvPut]
    split
    · subst_vars; simp [kvGet]
    · simp only [kvGet]
  | cons d rest ih =>
    obtain ⟨k, v⟩ := d
    obtain ⟨hd, ht⟩ := List.pairwise_cons.mp h
    simp only [kvPut]
    split
    · split
      · subst_vars
        split
        · subst_vars
          simp only [kvGet]
          rw [if_neg (by omega)]
          exact none rest _ fun p hp => lt_trans ‹_› (hd p hp)
        · rfl
      · simp only [kvGet]
    · split
      · subst_vars
        split
        · subst_vars
          simp only [kvGet]
          split
          · subst_vars; exact none rest _ hd
          · rfl
        · simp only [kvGet]
          split <;> rfl
      · simp only [kvGet]
        split
        · rw [if_neg (by omega)]
        · exact ih ht

theorem Telemetry.add_ok (o n : Nat) (t : Telemetry) (h : t.Ok) : (t.add o n).Ok := by
  unfold Telemetry.add
  split
  · exact kvPut_ok o _ le_rfl h
  · exact kvPut_ok o _ (by omega) h

theorem EventLog.enter_ok {r : EventRec} {l : EventLog} (e : r.seq = (l.headSeq + 1) % 4294967296) (h : l.Ok) : (l.enter r).Ok := by
  refine ⟨by simp only [EventLog.enter, List.length_take]; omega, by simp [EventLog.enter], ?_⟩
  refine List.IsChain.take (List.IsChain.cons h.2.2 ?_) 512
  intro y hy
  rw [h.2.1 y hy, e]

theorem State.takeFree_kept {s x : State} (h : Kept s x) : Kept s x.takeFree.2 := setFree_kept _ h

theorem State.enter_kept {s x : State} (m : ModuleState) (h : Kept s x) :
    Kept s (State.enter m x) := by
  unfold State.enter
  repeat' first
    | with_reducible assumption
    | with_reducible apply modBoot_kept
    | exact fun _ h => h
    | exact fun h => h
    | exact le_rfl
    | exact fun _ => le_rfl
    | exact fun h => h
    | split

theorem State.msix_kept {s x : State} (v : Nat) (h : Kept s x) :
    Kept s (State.msix v x) := by
  unfold State.msix
  repeat' first
    | with_reducible assumption
    | with_reducible apply modPcie_kept
    | with_reducible apply emit_kept
    | exact fun _ h => h
    | exact fun h => h
    | ((try lift_lets); intro y; first | (refine (fun (_ : Kept s y) => ?_) ?_; (on_goal 1 => clear_value y); (on_goal 2 => subst y)) | clear_value y | skip)
    | split

theorem State.countLoss_kept {s x : State} (h : Kept s x) :
    Kept s (State.countLoss x) := by
  unfold State.countLoss
  repeat' first
    | with_reducible assumption
    | with_reducible apply modTm_kept
    | exact fun _ h => h
    | exact fun h => h
    | exact Telemetry.add_ok _ _
    | split

theorem State.signalLog_kept {s x : State} (h : Kept s x) :
    Kept s (State.signalLog x) := by
  unfold State.signalLog
  repeat' first
    | with_reducible assumption
    | with_reducible apply modLog_kept
    | with_reducible apply State.msix_kept
    | exact fun _ h => h
    | exact fun h => h
    | split

theorem State.enterRecord_kept {s x : State} (code kind index : Nat) (detail : Bytes) (h : Kept s x) :
    Kept s (State.enterRecord code kind index detail x) := by
  have e : x.countLoss.log = x.log := by unfold State.countLoss; split <;> rfl
  exact State.signalLog_kept (modLog_kept _ (EventLog.enter_ok (by rw [e]; rfl)) (State.countLoss_kept h))

theorem State.raise_kept {s x : State} (code kind index : Nat) (fs : List (Nat × Nat × Nat)) (h : Kept s x) :
    Kept s (State.raise code kind index fs x) := by
  unfold State.raise
  repeat' first
    | with_reducible assumption
    | with_reducible apply State.enterRecord_kept
    | ((try lift_lets); intro y; first | (refine (fun (_ : Kept s y) => ?_) ?_; (on_goal 1 => clear_value y); (on_goal 2 => subst y)) | clear_value y | skip)
    | split

theorem State.saturated_kept {s x : State} (o : Nat) (h : Kept s x) :
    Kept s (State.saturated o x) := by
  unfold State.saturated
  repeat' first
    | with_reducible assumption
    | with_reducible apply State.raise_kept

theorem State.count_kept {s x : State} (o n : Nat) (h : Kept s x) :
    Kept s (State.count o n x) := by
  unfold State.count
  repeat' first
    | with_reducible assumption
    | with_reducible apply modTm_kept
    | with_reducible apply State.saturated_kept
    | exact fun _ h => h
    | exact fun h => h
    | exact Telemetry.add_ok _ _
    | split

theorem State.raiseModule_kept {s x : State} (code : Nat) (fs : List (Nat × Nat × Nat)) (h : Kept s x) :
    Kept s (State.raiseModule code fs x) := by
  unfold State.raiseModule
  repeat' first
    | with_reducible assumption
    | with_reducible apply State.raise_kept

theorem State.raiseOnce_kept {s x : State} (code kind index : Nat) (fs : List (Nat × Nat × Nat)) (h : Kept s x) :
    Kept s (State.raiseOnce code kind index fs x) := by
  unfold State.raiseOnce
  repeat' first
    | with_reducible assumption
    | with_reducible apply modRun_kept
    | with_reducible apply State.raise_kept
    | split

theorem State.violation_kept {s x : State} (cls : Nat) (queue : Option Nat) (opcode cid addr : Nat) (h : Kept s x) :
    Kept s (State.violation cls queue opcode cid addr x) := by
  unfold State.violation
  repeat' first
    | with_reducible assumption
    | with_reducible apply State.count_kept
    | with_reducible apply modLog_kept
    | with_reducible apply State.raise_kept
    | exact fun _ h => h
    | exact fun h => h
    | ((try lift_lets); intro y; first | (refine (fun (_ : Kept s y) => ?_) ?_; (on_goal 1 => clear_value y); (on_goal 2 => subst y)) | clear_value y | skip)
    | split

theorem State.emitEntry_kept {s x : State} (q a : Nat) (b : Bytes) (h : Kept s x) :
    Kept s (State.emitEntry q a b x) := by
  unfold State.emitEntry
  repeat' first
    | with_reducible assumption
    | with_reducible apply emit_kept

theorem State.write_kept {s x : State} (q : Nat) (e : Entry) (h : Kept s x) :
    Kept s (State.write q e x) := by
  unfold State.write
  repeat' first
    | with_reducible assumption
    | with_reducible apply State.emitEntry_kept
    | with_reducible apply setCq_kept
    | with_reducible apply State.advance_kept
    | with_reducible apply State.msix_kept
    | ((try lift_lets); intro y; first | (refine (fun (_ : Kept s y) => ?_) ?_; (on_goal 1 => clear_value y); (on_goal 2 => subst y)) | clear_value y | skip)
    | split

theorem State.post_kept {s x : State} (q : Nat) (e : Entry) (h : Kept s x) :
    Kept s (State.post q e x) := by
  unfold State.post
  repeat' first
    | with_reducible assumption
    | with_reducible apply setCq_kept
    | with_reducible apply State.write_kept
    | exact fun _ h => Mem.write_wf _ _ h
    | ((try lift_lets); intro y; first | (refine (fun (_ : Kept s y) => ?_) ?_; (on_goal 1 => clear_value y); (on_goal 2 => subst y)) | clear_value y | skip)
    | split

theorem State.setCmd_kept {s x : State} (sq cid : Nat) (f : Cmd → Cmd) (h : Kept s x) :
    Kept s (State.setCmd sq cid f x) := by
  unfold State.setCmd
  repeat' first
    | with_reducible assumption
    | with_reducible apply modCmds_kept

theorem State.finishCmd_kept {s x : State} (c : Cmd) (st : Status) (r0 r1 : Nat) (h : Kept s x) :
    Kept s (State.finishCmd c st r0 r1 x) := by
  unfold State.finishCmd
  repeat' first
    | with_reducible assumption
    | with_reducible apply modCmds_kept
    | with_reducible apply State.count_kept
    | with_reducible apply State.raise_kept
    | with_reducible apply State.post_kept
    | ((try lift_lets); intro y; first | (refine (fun (_ : Kept s y) => ?_) ?_; (on_goal 1 => clear_value y); (on_goal 2 => subst y)) | clear_value y | skip)
    | split

theorem State.finish_kept {s x : State} (sq cid : Nat) (st : Status) (r0 r1 : Nat) (h : Kept s x) :
    Kept s (State.finish sq cid st r0 r1 x) := by
  unfold State.finish
  repeat' first
    | with_reducible assumption
    | with_reducible apply State.finishCmd_kept
    | split

theorem State.finishAll_kept {s x : State} (l : List Cmd) (st : Status) (r0 r1 : Nat) (h : Kept s x) :
    Kept s (State.finishAll l st r0 r1 x) := by
  unfold State.finishAll
  repeat' first
    | with_reducible assumption
    | with_reducible apply State.finishCmd_kept
    | (with_reducible apply foldl_kept; on_goal 2 => intros)

theorem State.refuse_kept {s x : State} (sq cid : Nat) (st : Status) (r0 r1 : Nat) (h : Kept s x) :
    Kept s (State.refuse sq cid st r0 r1 x) := by
  unfold State.refuse
  repeat' first
    | with_reducible assumption
    | with_reducible apply State.count_kept
    | with_reducible apply State.post_kept

theorem State.extend_kept {s x : State} (sq cid us : Nat) (h : Kept s x) :
    Kept s (State.extend sq cid us x) := by
  unfold State.extend
  repeat' first
    | with_reducible assumption
    | with_reducible apply State.setCmd_kept
    | split

theorem State.endPromise_kept {s x : State} (cause : Nat) (p : Cmd → Bool) (h : Kept s x) :
    Kept s (State.endPromise cause p x) := by
  unfold State.endPromise
  repeat' first
    | with_reducible assumption
    | with_reducible apply modCmds_kept

theorem State.noteFault_kept {s x : State} (h : Kept s x) :
    Kept s (State.noteFault x) := by
  unfold State.noteFault
  repeat' first
    | with_reducible assumption
    | with_reducible apply modCmds_kept
    | with_reducible apply State.endPromise_kept

theorem State.toHost_kept {s x : State} (sq cid off : Nat) (data : Bytes) (h : Kept s x) :
    Kept s (State.toHost sq cid off data x) := by
  unfold State.toHost
  repeat' first
    | with_reducible assumption
    | with_reducible apply emit_kept

end Sys2Proof.Machine
end

