-- ==== Sys2Proof/Laws/KeptSupply.lean ====
section
/-! SUPPORT. That each operation of Machine/Supply.lean keeps what `Kept` says (Laws/Kept.lean). -/

namespace Sys2Proof.Machine

theorem State.switch_kept {s x : State} (on : Bool) (l : List Nat) (h : Kept s x) :
    Kept s (State.switch on l x) := by
  unfold State.switch
  repeat' first
    | with_reducible assumption
    | with_reducible apply modPower_kept

theorem State.retuneStalls_kept {s x : State} (h : Kept s x) :
    Kept s (State.retuneStalls x) := by
  unfold State.retuneStalls
  repeat' first
    | with_reducible assumption
    | with_reducible apply modStalls_kept
    | exact fun _ => List.length_map _
    | exact fun _ => (List.length_map _).trans List.length_zipIdx
    | split

theorem State.capThrottleEvent_kept {s x : State} (h : Kept s x) :
    Kept s (State.capThrottleEvent x) := by
  unfold State.capThrottleEvent
  repeat' first
    | with_reducible assumption
    | with_reducible apply State.raiseModule_kept

theorem State.capChanged_kept {s x : State} (f : State → State) (h_f : ∀ y, Kept s y → Kept s (f y)) (h : Kept s x) :
    Kept s (State.capChanged f x) := by
  unfold State.capChanged
  repeat' first
    | with_reducible assumption
    | with_reducible apply h_f
    | with_reducible apply State.retuneStalls_kept
    | with_reducible apply State.capThrottleEvent_kept
    | ((try lift_lets); intro y; first | (refine (fun (_ : Kept s y) => ?_) ?_; (on_goal 1 => clear_value y); (on_goal 2 => subst y)) | clear_value y | skip)
    | split

end Sys2Proof.Machine
end

