-- ==== Sys2Proof/Laws/KeptOperands.lean ====
section
/-! SUPPORT. That each operation of Machine/Operands.lean keeps what `Kept` says (Laws/Kept.lean). -/

namespace Sys2Proof.Machine

theorem State.accept_kept {s x : State} (q : Nat) (p : Placed) (b : Nat) (h : Kept s x) :
    Kept s (State.accept q p b x) := by
  unfold State.accept
  repeat' first
    | with_reducible assumption
    | with_reducible apply modCmds_kept
    | with_reducible apply State.count_kept
    | with_reducible apply State.post_kept

theorem State.entryViolations_kept {s x : State} (q : Nat) (p : Placed) (h : Kept s x) :
    Kept s (State.entryViolations q p x) := by
  unfold State.entryViolations
  repeat' first
    | with_reducible assumption
    | with_reducible apply State.violation_kept
    | ((try lift_lets); intro y; first | (refine (fun (_ : Kept s y) => ?_) ?_; (on_goal 1 => clear_value y); (on_goal 2 => subst y)) | clear_value y | skip)
    | split

theorem State.admitEntry_kept {s x : State} (q : Nat) (p : Placed) (h : Kept s x) :
    Kept s (State.admitEntry q p x) := by
  unfold State.admitEntry
  repeat' first
    | with_reducible assumption
    | with_reducible apply State.accept_kept
    | with_reducible apply State.raise_kept
    | with_reducible apply State.refuse_kept
    | with_reducible apply State.entryViolations_kept
    | ((try lift_lets); intro y; first | (refine (fun (_ : Kept s y) => ?_) ?_; (on_goal 1 => clear_value y); (on_goal 2 => subst y)) | clear_value y | skip)
    | split

theorem State.fetchOne_kept {s x y : State} (h : Kept s x) (e : x.fetchOne = some y) : Kept s y := by
  unfold State.fetchOne at e
  split at e
  · cases e
  · split at e
    · cases e
    · cases e
      exact State.admitEntry_kept _ _ (setTurn_kept _ (setSq_kept _ _ h))

theorem State.fetchLoop_kept {s x : State} (n : Nat) (h : Kept s x) : Kept s (State.fetchLoop n x) := by
  induction n generalizing x with
  | zero => exact h
  | succ n ih =>
    simp only [State.fetchLoop]
    split
    · exact h
    · exact ih (State.fetchOne_kept h ‹_›)

theorem State.markBlocked_kept {s x : State} (h : Kept s x) :
    Kept s (State.markBlocked x) := by
  unfold State.markBlocked
  repeat' first
    | with_reducible assumption
    | with_reducible apply modSqs_kept
    | exact fun _ => List.length_map _

theorem State.fetch_kept {s x : State} (h : Kept s x) :
    Kept s (State.fetch x) := by
  unfold State.fetch
  repeat' first
    | with_reducible assumption
    | with_reducible apply State.fetchLoop_kept
    | with_reducible apply State.markBlocked_kept
    | (with_reducible apply foldl_kept; on_goal 2 => intros)
    | split

end Sys2Proof.Machine
end

