-- ==== Sys2Proof/Laws/KeptTopology.lean ====
section
/-! SUPPORT. That each operation of Machine/Topology.lean keeps what `Kept` says (Laws/Kept.lean). -/

namespace Sys2Proof.Machine

theorem State.emitFlits_kept {s x : State} (p : Nat) (fs : List SentFlit) (h : Kept s x) :
    Kept s (State.emitFlits p fs x) := by
  unfold State.emitFlits
  repeat' first
    | with_reducible assumption
    | with_reducible apply emit_kept
    | (with_reducible apply foldl_kept; on_goal 2 => intros)

theorem State.releaseFlits_kept {s x : State} (p : Nat) (h : Kept s x) :
    Kept s (State.releaseFlits p x) := by
  unfold State.releaseFlits
  repeat' first
    | with_reducible assumption
    | with_reducible apply State.emitFlits_kept
    | with_reducible apply setPort_kept
    | with_reducible apply State.count_kept
    | ((try lift_lets); intro y; first | (refine (fun (_ : Kept s y) => ?_) ?_; (on_goal 1 => clear_value y); (on_goal 2 => subst y)) | clear_value y | skip)
    | split

theorem State.sendLink_kept {s x : State} (p : Nat) (m : LinkMsg) (h : Kept s x) :
    Kept s (State.sendLink p m x) := by
  unfold State.sendLink
  repeat' first
    | with_reducible assumption
    | with_reducible apply emit_kept
    | with_reducible apply setPort_kept
    | with_reducible apply State.releaseFlits_kept
    | split

theorem State.heard_kept {s x : State} (p n : Nat) (h : Kept s x) :
    Kept s (State.heard p n x) := by
  unfold State.heard
  repeat' first
    | with_reducible assumption
    | with_reducible apply setPort_kept
    | with_reducible apply State.count_kept
    | with_reducible apply emit_kept

theorem State.noteNak_kept {s x : State} (p : Nat) (h : Kept s x) :
    Kept s (State.noteNak p x) := by
  unfold State.noteNak
  repeat' first
    | with_reducible assumption
    | with_reducible apply setPort_kept

theorem State.flood_kept {s x : State} (m : LinkMsg) (h : Kept s x) :
    Kept s (State.flood m x) := by
  unfold State.flood
  repeat' first
    | with_reducible assumption
    | with_reducible apply State.sendLink_kept
    | (with_reducible apply foldl_kept; on_goal 2 => intros)

theorem State.toPartner_kept {s x : State} (p : Nat) (m : PartnerMsg) (h : Kept s x) :
    Kept s (State.toPartner p m x) := by
  unfold State.toPartner
  repeat' first
    | with_reducible assumption
    | with_reducible apply State.sendLink_kept
    | with_reducible apply State.count_kept
    | split

end Sys2Proof.Machine
end

