-- ==== Sys2Proof/Laws/KeptTestBase.lean ====
section
/-! SUPPORT. That each operation of Machine/TestBase.lean keeps what `Kept` says (Laws/Kept.lean). -/

namespace Sys2Proof.Machine

theorem State.lightTest_kept {s x : State} (scope target : Nat) (h : Kept s x) :
    Kept s (State.lightTest scope target x) := by
  unfold State.lightTest
  repeat' first
    | with_reducible assumption
    | with_reducible apply State.capChanged_kept
    | with_reducible apply State.switch_kept
    | with_reducible apply modTest_kept
    | refine fun (_ : State) (_ : Kept s _) => ?_

theorem State.darkTest_kept {s x : State} (h : Kept s x) :
    Kept s (State.darkTest x) := by
  unfold State.darkTest
  repeat' first
    | with_reducible assumption
    | with_reducible apply State.capChanged_kept
    | with_reducible apply State.switch_kept
    | with_reducible apply modTest_kept
    | refine fun (_ : State) (_ : Kept s _) => ?_

theorem State.setDomains_kept {s x : State} (base : BitVec 99) (h : Kept s x) :
    Kept s (State.setDomains base x) := by
  unfold State.setDomains
  repeat' first
    | with_reducible assumption
    | with_reducible apply modPower_kept
    | with_reducible apply modTest_kept

end Sys2Proof.Machine
end

