-- ==== Sys2Proof/Laws/KeptFaults.lean ====
section
/-! SUPPORT. That each operation of Machine/Faults.lean keeps what `Kept` says (Laws/Kept.lean). -/

namespace Sys2Proof.Machine

theorem State.settleOptics_kept {s x : State} (h : Kept s x) :
    Kept s (State.settleOptics x) := by
  unfold State.settleOptics
  repeat' first
    | with_reducible assumption
    | with_reducible apply State.switch_kept
    | (with_reducible apply foldl_kept; on_goal 2 => intros)

theorem State.engines_kept {s x : State} (on : Bool) (ps : List Nat) (h : Kept s x) :
    Kept s (State.engines on ps x) := by
  unfold State.engines
  repeat' first
    | with_reducible assumption
    | with_reducible apply State.capChanged_kept
    | with_reducible apply State.switch_kept
    | with_reducible apply State.settleOptics_kept
    | refine fun (_ : State) (_ : Kept s _) => ?_

theorem State.lightPort_kept {s x : State} (role p : Nat) (h : Kept s x) :
    Kept s (State.lightPort role p x) := by
  unfold State.lightPort
  repeat' first
    | with_reducible assumption
    | with_reducible apply setPort_kept
    | with_reducible apply State.engines_kept
    | split

theorem State.darkPort_kept {s x : State} (p : Nat) (h : Kept s x) :
    Kept s (State.darkPort p x) := by
  unfold State.darkPort
  repeat' first
    | with_reducible assumption
    | with_reducible apply setPort_kept
    | with_reducible apply State.engines_kept

theorem State.darkPorts_kept {s x : State} (ps : List Nat) (h : Kept s x) :
    Kept s (State.darkPorts ps x) := by
  unfold State.darkPorts
  repeat' first
    | with_reducible assumption
    | with_reducible apply State.darkPort_kept
    | (with_reducible apply foldl_kept; on_goal 2 => intros)

theorem State.endWait_kept {s x : State} (g : GroupRun) (h : Kept s x) :
    Kept s (State.endWait g x) := by
  unfold State.endWait
  repeat' first
    | with_reducible assumption
    | with_reducible apply State.count_kept
    | with_reducible apply modRun_kept
    | with_reducible apply State.extend_kept
    | (with_reducible apply foldl_kept; on_goal 2 => intros)
    | ((try lift_lets); intro y; first | (refine (fun (_ : Kept s y) => ?_) ?_; (on_goal 1 => clear_value y); (on_goal 2 => subst y)) | clear_value y | skip)
    | split

theorem State.endWaits_kept {s x : State} (h : Kept s x) :
    Kept s (State.endWaits x) := by
  unfold State.endWaits
  repeat' first
    | with_reducible assumption
    | with_reducible apply State.endWait_kept
    | (with_reducible apply foldl_kept; on_goal 2 => intros)

theorem State.abandonAttempt_kept {s x : State} (h : Kept s x) :
    Kept s (State.abandonAttempt x) := by
  unfold State.abandonAttempt
  repeat' first
    | with_reducible assumption
    | with_reducible apply State.endWaits_kept
    | with_reducible apply modRun_kept
    | with_reducible apply modStalls_kept
    | with_reducible apply modHarbour_kept
    | exact fun _ => List.length_map _

theorem State.finishRun_kept {s x : State} (c : Cmd) (st : Status) (h : Kept s x) :
    Kept s (State.finishRun c st x) := by
  unfold State.finishRun
  repeat' first
    | with_reducible assumption
    | with_reducible apply State.finishCmd_kept

theorem State.finishRuns_kept {s x : State} (st : Status) (h : Kept s x) :
    Kept s (State.finishRuns st x) := by
  unfold State.finishRuns
  repeat' first
    | with_reducible assumption
    | with_reducible apply State.rest_kept
    | with_reducible apply State.finishCmd_kept
    | with_reducible apply State.finishRun_kept
    | (with_reducible apply foldl_kept; on_goal 2 => intros)
    | split

theorem State.finishServe_kept {s x : State} (c : Cmd) (st : Status) (h : Kept s x) :
    Kept s (State.finishServe c st x) := by
  unfold State.finishServe
  repeat' first
    | with_reducible assumption
    | with_reducible apply State.finishCmd_kept

theorem State.finishServes_kept {s x : State} (st : Status) (h : Kept s x) :
    Kept s (State.finishServes st x) := by
  unfold State.finishServes
  repeat' first
    | with_reducible assumption
    | with_reducible apply State.finishServe_kept
    | (with_reducible apply foldl_kept; on_goal 2 => intros)

theorem State.finishHalts_kept {s x : State} (h : Kept s x) :
    Kept s (State.finishHalts x) := by
  unfold State.finishHalts
  repeat' first
    | with_reducible assumption
    | with_reducible apply State.finishAll_kept

theorem State.dropDeferredTests_kept {s x : State} (h : Kept s x) :
    Kept s (State.dropDeferredTests x) := by
  unfold State.dropDeferredTests
  repeat' first
    | with_reducible assumption
    | with_reducible apply State.finish_kept
    | with_reducible apply modTest_kept
    | (with_reducible apply foldl_kept; on_goal 2 => intros)

theorem State.idleStalls_kept {s x : State} (h : Kept s x) :
    Kept s (State.idleStalls x) := by
  unfold State.idleStalls
  repeat' first
    | with_reducible assumption
    | with_reducible apply modStalls_kept
    | exact fun _ => List.length_map _

theorem State.endRun_kept {s x : State} (st : Status) (m : ModuleState) (h : Kept s x) :
    Kept s (State.endRun st m x) := by
  unfold State.endRun
  repeat' first
    | with_reducible assumption
    | with_reducible apply State.finishRuns_kept
    | with_reducible apply State.finishServes_kept
    | with_reducible apply State.finishHalts_kept
    | with_reducible apply State.dropDeferredTests_kept
    | with_reducible apply modRun_kept
    | with_reducible apply modHarbour_kept
    | with_reducible apply State.idleStalls_kept
    | with_reducible apply State.enter_kept

theorem State.releaseQuays_kept {s x : State} (h : Kept s x) :
    Kept s (State.releaseQuays x) := by
  unfold State.releaseQuays
  repeat' first
    | with_reducible assumption
    | with_reducible apply setQuay_kept
    | with_reducible apply modQuays_kept
    | with_reducible apply modMem_kept
    | with_reducible apply State.write_kept
    | with_reducible apply State.count_kept
    | (with_reducible apply foldl_kept; on_goal 2 => intros)
    | exact fun _ => List.length_map _
    | exact fun _ => (List.length_map _).trans List.length_zipIdx
    | exact fun _ h => h
    | exact fun h => h
    | exact fun _ h => Mem.write_wf _ _ h

theorem State.abandonSnapshot_kept {s x : State} (h : Kept s x) :
    Kept s (State.abandonSnapshot x) := by
  unfold State.abandonSnapshot
  repeat' first
    | with_reducible assumption
    | with_reducible apply State.releaseQuays_kept
    | with_reducible apply modSnap_kept
    | with_reducible apply State.finish_kept
    | (with_reducible apply foldl_kept; on_goal 2 => intros)
    | ((try lift_lets); intro y; first | (refine (fun (_ : Kept s y) => ?_) ?_; (on_goal 1 => clear_value y); (on_goal 2 => subst y)) | clear_value y | skip)
    | split

theorem State.dropSnapshots_kept {s x : State} (st : Status) (h : Kept s x) :
    Kept s (State.dropSnapshots st x) := by
  unfold State.dropSnapshots
  repeat' first
    | with_reducible assumption
    | with_reducible apply State.finish_kept
    | with_reducible apply modSnap_kept
    | (with_reducible apply foldl_kept; on_goal 2 => intros)

theorem State.markTested_kept {s x : State} (scope target : Nat) (h : Kept s x) :
    Kept s (State.markTested scope target x) := by
  unfold State.markTested
  repeat' first
    | with_reducible assumption
    | with_reducible apply setStall_kept
    | split

theorem State.unmarkTested_kept {s x : State} (h : Kept s x) :
    Kept s (State.unmarkTested x) := by
  unfold State.unmarkTested
  repeat' first
    | with_reducible assumption
    | with_reducible apply modStalls_kept
    | exact fun _ => List.length_map _

theorem State.abortEntry_kept {s x : State} (r : TestReq) (h : Kept s x) :
    Kept s (State.abortEntry r x) := by
  unfold State.abortEntry
  repeat' first
    | with_reducible assumption
    | with_reducible apply State.takeFree_kept
    | with_reducible apply State.toHost_kept
    | with_reducible apply modTest_kept
    | refine kept_of_eq (by assumption) ?_
    | ((try lift_lets); intro y; first | (refine (fun (_ : Kept s y) => ?_) ?_; (on_goal 1 => clear_value y); (on_goal 2 => subst y)) | (refine (fun (_ : Kept s y.2) => ?_) ?_; (on_goal 1 => clear_value y); (on_goal 2 => subst y)) | clear_value y | skip)
    | split

theorem State.abortTests_kept {s x : State} (h : Kept s x) :
    Kept s (State.abortTests x) := by
  unfold State.abortTests
  repeat' first
    | with_reducible assumption
    | with_reducible apply State.darkTest_kept
    | with_reducible apply State.unmarkTested_kept
    | with_reducible apply State.abortEntry_kept
    | with_reducible apply State.finish_kept
    | with_reducible apply modTest_kept
    | (with_reducible apply foldl_kept; on_goal 2 => intros)
    | ((try lift_lets); intro y; first | (refine (fun (_ : Kept s y) => ?_) ?_; (on_goal 1 => clear_value y); (on_goal 2 => subst y)) | clear_value y | skip)
    | split

theorem State.sendFault_kept {s x : State} (h : Kept s x) :
    Kept s (State.sendFault x) := by
  unfold State.sendFault
  repeat' first
    | with_reducible assumption
    | with_reducible apply State.flood_kept
    | split

theorem State.faultOthers_kept {s x : State} (h : Kept s x) :
    Kept s (State.faultOthers x) := by
  unfold State.faultOthers
  repeat' first
    | with_reducible assumption
    | with_reducible apply State.finishAll_kept

theorem State.dropCommit_kept {s x : State} (h : Kept s x) :
    Kept s (State.dropCommit x) := by
  unfold State.dropCommit
  repeat' first
    | with_reducible assumption
    | with_reducible apply modJournal_kept

theorem State.darkRestore_kept {s x : State} (h : Kept s x) :
    Kept s (State.darkRestore x) := by
  unfold State.darkRestore
  repeat' first
    | with_reducible assumption
    | with_reducible apply State.darkPort_kept
    | split

theorem State.enterFaulted_kept {s x : State} (h : Kept s x) :
    Kept s (State.enterFaulted x) := by
  unfold State.enterFaulted
  repeat' first
    | with_reducible assumption
    | with_reducible apply State.darkRestore_kept
    | with_reducible apply State.abandonSnapshot_kept
    | with_reducible apply State.abortTests_kept
    | with_reducible apply State.dropCommit_kept
    | with_reducible apply State.dropSnapshots_kept
    | with_reducible apply State.faultOthers_kept
    | with_reducible apply State.endRun_kept
    | with_reducible apply modHarbour_kept

theorem State.moduleFault_kept {s x : State} (h : Kept s x) :
    Kept s (State.moduleFault x) := by
  unfold State.moduleFault
  repeat' first
    | with_reducible assumption
    | with_reducible apply State.abortTests_kept
    | with_reducible apply State.sendFault_kept
    | with_reducible apply State.abandonAttempt_kept
    | with_reducible apply State.enterFaulted_kept
    | split

theorem State.refusedAccess_kept {s x : State} (record page : Nat) (h : Kept s x) :
    Kept s (State.refusedAccess record page x) := by
  unfold State.refusedAccess
  repeat' first
    | with_reducible assumption
    | with_reducible apply State.raiseModule_kept
    | with_reducible apply State.moduleFault_kept

end Sys2Proof.Machine
end

