-- ==== Sys2Proof/Laws/KeptStore.lean ====
section
/-! SUPPORT. That each operation of Machine/Store.lean keeps what `Kept` says (Laws/Kept.lean). -/

namespace Sys2Proof.Machine

theorem State.guarded_kept {s x : State} (src : Source) (rs : List (Bool × Nat × Nat)) (f : State → State) (h_f : ∀ y, Kept s y → Kept s (f y)) (h : Kept s x) :
    Kept s (State.guarded src rs f x) := by
  unfold State.guarded
  repeat' first
    | with_reducible assumption
    | with_reducible apply h_f
    | with_reducible apply State.refusedAccess_kept
    | split

theorem State.copyFragment_kept {s x : State} (f : Nat × Nat) (h : Kept s x) :
    Kept s (State.copyFragment f x) := by
  unfold State.copyFragment
  repeat' first
    | with_reducible assumption
    | with_reducible apply setQuay_kept
    | with_reducible apply modSnap_kept
    | with_reducible apply State.count_kept

theorem State.putBytes_kept {s x : State} (a : Nat) (bs : Bytes) (h : Kept s x) :
    Kept s (State.putBytes a bs x) := by
  unfold State.putBytes
  repeat' first
    | with_reducible assumption
    | with_reducible apply modMem_kept
    | with_reducible apply State.write_kept
    | with_reducible apply State.count_kept
    | exact fun _ h => h
    | exact fun h => h
    | exact fun _ h => Mem.write_wf _ _ h

theorem State.writeGranule_kept {s x : State} (a : Nat) (bs : Bytes) (h : Kept s x) :
    Kept s (State.writeGranule a bs x) := by
  unfold State.writeGranule
  repeat' first
    | with_reducible assumption
    | with_reducible apply State.putBytes_kept
    | with_reducible apply State.copyFragment_kept
    | with_reducible apply State.raiseOnce_kept
    | with_reducible apply setQuay_kept
    | ((try lift_lets); intro y; first | (refine (fun (_ : Kept s y) => ?_) ?_; (on_goal 1 => clear_value y); (on_goal 2 => subst y)) | clear_value y | skip)
    | split

theorem State.countWrites_kept {s x : State} (a : Nat) (bs : Bytes) (h : Kept s x) :
    Kept s (State.countWrites a bs x) := by
  unfold State.countWrites
  repeat' first
    | with_reducible assumption
    | with_reducible apply State.count_kept
    | (with_reducible apply foldl_kept; on_goal 2 => intros)

theorem State.memWrite_kept {s x : State} (a : Nat) (bs : Bytes) (h : Kept s x) :
    Kept s (State.memWrite a bs x) := by
  unfold State.memWrite
  repeat' first
    | with_reducible assumption
    | with_reducible apply modMem_kept
    | with_reducible apply State.write_kept
    | with_reducible apply State.countWrites_kept
    | with_reducible apply State.writeGranule_kept
    | (with_reducible apply foldl_kept; on_goal 2 => intros)
    | exact fun _ h => h
    | exact fun h => h
    | exact fun _ h => Mem.write_wf _ _ h
    | split

theorem State.resumeQuay_kept {s x : State} (q : Nat) (h : Kept s x) :
    Kept s (State.resumeQuay q x) := by
  unfold State.resumeQuay
  repeat' first
    | with_reducible assumption
    | with_reducible apply setQuay_kept
    | with_reducible apply State.writeGranule_kept
    | with_reducible apply State.count_kept
    | (with_reducible apply foldl_kept; on_goal 2 => intros)
    | ((try lift_lets); intro y; first | (refine (fun (_ : Kept s y) => ?_) ?_; (on_goal 1 => clear_value y); (on_goal 2 => subst y)) | clear_value y | skip)
    | split

theorem State.drainOut_kept {s x : State} (off : Nat) (d : Bytes) (poisoned : Bool) (h : Kept s x) :
    Kept s (State.drainOut off d poisoned x) := by
  unfold State.drainOut
  repeat' first
    | with_reducible assumption
    | with_reducible apply emit_kept
    | split

theorem State.drainDone_kept {s x : State} (h : Kept s x) :
    Kept s (State.drainDone x) := by
  unfold State.drainDone
  repeat' first
    | with_reducible assumption
    | with_reducible apply State.toPartner_kept
    | with_reducible apply modSnap_kept
    | with_reducible apply State.drainOut_kept
    | ((try lift_lets); intro y; first | (refine (fun (_ : Kept s y) => ?_) ?_; (on_goal 1 => clear_value y); (on_goal 2 => subst y)) | clear_value y | skip)
    | split

theorem State.takeFragment_kept {s x : State} (q page : Nat) (h : Kept s x) :
    Kept s (State.takeFragment q page x) := by
  unfold State.takeFragment
  repeat' first
    | with_reducible assumption
    | with_reducible apply State.guarded_kept
    | with_reducible apply State.count_kept
    | with_reducible apply State.drainOut_kept
    | with_reducible apply State.toPartner_kept
    | with_reducible apply setQuay_kept
    | with_reducible apply modSnap_kept
    | with_reducible apply State.resumeQuay_kept
    | with_reducible apply State.drainDone_kept
    | refine fun (_ : State) (_ : Kept s _) => ?_
    | refine fun _ (_ : State) (_ : Kept s _) => ?_
    | ((try lift_lets); intro y; first | (refine (fun (_ : Kept s y) => ?_) ?_; (on_goal 1 => clear_value y); (on_goal 2 => subst y)) | clear_value y | skip)
    | split

theorem State.eccCorrected_kept {s x : State} (line : Nat) (h : Kept s x) :
    Kept s (State.eccCorrected line x) := by
  unfold State.eccCorrected
  repeat' first
    | with_reducible assumption
    | with_reducible apply State.count_kept
    | with_reducible apply State.raiseOnce_kept

theorem State.eccPoison_kept {s x : State} (line : Nat) (h : Kept s x) :
    Kept s (State.eccPoison line x) := by
  unfold State.eccPoison
  repeat' first
    | with_reducible assumption
    | with_reducible apply modMem_kept
    | with_reducible apply State.count_kept
    | with_reducible apply State.raise_kept
    | with_reducible apply State.moduleFault_kept
    | exact fun _ h => h

theorem State.eccBeyond_kept {s x : State} (line : Nat) (h : Kept s x) :
    Kept s (State.eccBeyond line x) := by
  unfold State.eccBeyond
  repeat' first
    | with_reducible assumption
    | with_reducible apply State.eccCorrected_kept
    | with_reducible apply State.eccPoison_kept
    | with_reducible apply State.takeFree_kept
    | with_reducible apply modMem_kept
    | exact fun _ h => Mem.write_wf _ _ h
    | ((try lift_lets); intro y; first | (refine (fun (_ : Kept s y.2) => ?_) ?_; (on_goal 1 => clear_value y); (on_goal 2 => subst y)) | (refine (fun (_ : Kept s y) => ?_) ?_; (on_goal 1 => clear_value y); (on_goal 2 => subst y)) | clear_value y | skip)
    | split

theorem State.ecc_kept {s x : State} (line : Nat) (es : List SymbolError) (h : Kept s x) :
    Kept s (State.ecc line es x) := by
  unfold State.ecc
  repeat' first
    | with_reducible assumption
    | with_reducible apply State.eccBeyond_kept
    | with_reducible apply State.eccCorrected_kept
    | with_reducible apply State.eccPoison_kept
    | split

theorem State.eccLines_kept {s x : State} (a n : Nat) (hits : List ScrubHit) (h : Kept s x) :
    Kept s (State.eccLines a n hits x) := by
  unfold State.eccLines
  repeat' first
    | with_reducible assumption
    | with_reducible apply State.ecc_kept
    | (with_reducible apply foldl_kept; on_goal 2 => intros)

end Sys2Proof.Machine
end

