-- ==== Sys2Proof/Laws/KeptModel.lean ====
section
/-! SUPPORT. That each operation of Machine/Model.lean keeps what `Kept` says (Laws/Kept.lean). -/

namespace Sys2Proof.Machine

theorem State.writeG16_kept {s x : State} (t : Table) (b : Bytes) (odd : Bool) (first : Nat) (vs : List (Option Int)) (h : Kept s x) :
    Kept s (State.writeG16 t b odd first vs x) := by
  unfold State.writeG16
  repeat' first
    | with_reducible assumption
    | with_reducible apply State.memWrite_kept
    | (with_reducible apply foldl_kept; on_goal 2 => intros)

theorem State.writePiece_kept {s x : State} (w : Bytes) (n k : Nat) (kept : Option (List Nat)) (c : TileCodes) (h : Kept s x) :
    Kept s (State.writePiece w n k kept c x) := by
  unfold State.writePiece
  repeat' first
    | with_reducible assumption
    | with_reducible apply State.memWrite_kept
    | ((try lift_lets); intro y; first | (refine (fun (_ : Kept s y) => ?_) ?_; (on_goal 1 => clear_value y); (on_goal 2 => subst y)) | clear_value y | skip)
    | split

theorem State.requantize_kept {s x : State} (t : Table) (w : Bytes) (step n : Nat) (rebuild : Bool) (h : Kept s x) :
    Kept s (State.requantize t w step n rebuild x) := by
  unfold State.requantize
  repeat' first
    | with_reducible assumption
    | with_reducible apply State.count_kept
    | with_reducible apply State.memWrite_kept
    | with_reducible apply State.writePiece_kept
    | (with_reducible apply foldl_kept; on_goal 2 => intros)
    | ((try lift_lets); intro y; first | (refine (fun (_ : Kept s y) => ?_) ?_; (on_goal 1 => clear_value y); (on_goal 2 => subst y)) | clear_value y | skip)
    | split

theorem State.chandleTile_kept {s x : State} (t : Table) (w : Bytes) (lam : Int) (odd : Bool) (applied step n : Nat) (h : Kept s x) :
    Kept s (State.chandleTile t w lam odd applied step n x) := by
  unfold State.chandleTile
  repeat' first
    | with_reducible assumption
    | with_reducible apply State.memWrite_kept
    | with_reducible apply State.count_kept
    | with_reducible apply State.requantize_kept
    | ((try lift_lets); intro y; first | (refine (fun (_ : Kept s y) => ?_) ?_; (on_goal 1 => clear_value y); (on_goal 2 => subst y)) | clear_value y | skip)
    | split

theorem State.chandle_kept {s x : State} (t : Table) (lam : Int) (odd : Bool) (applied step : Nat) (h : Kept s x) :
    Kept s (State.chandle t lam odd applied step x) := by
  unfold State.chandle
  repeat' first
    | with_reducible assumption
    | with_reducible apply State.chandleTile_kept
    | (with_reducible apply foldl_kept; on_goal 2 => intros)

theorem State.rebuildCodes_kept {s x : State} (t : Table) (step : Nat) (h : Kept s x) :
    Kept s (State.rebuildCodes t step x) := by
  unfold State.rebuildCodes
  repeat' first
    | with_reducible assumption
    | with_reducible apply State.requantize_kept
    | (with_reducible apply foldl_kept; on_goal 2 => intros)

end Sys2Proof.Machine
end

