-- ==== Sys2Proof/Laws/KeptJournalOps.lean ====
section
/-! SUPPORT. That each operation of Machine/JournalOps.lean keeps what `Kept` says (Laws/Kept.lean). -/

namespace Sys2Proof.Machine

theorem State.compact_kept {s x : State} (t : Table) (partner : Bool) (h : Kept s x) :
    Kept s (State.compact t partner x) := by
  unfold State.compact
  repeat' first
    | with_reducible assumption
    | with_reducible apply modJournal_kept
    | with_reducible apply State.raiseModule_kept

theorem State.makeRoom_kept {s x : State} (t : Table) (rs : List Bytes) (h : Kept s x) :
    Kept s (State.makeRoom t rs x) := by
  unfold State.makeRoom
  repeat' first
    | with_reducible assumption
    | with_reducible apply State.compact_kept
    | split

theorem State.appendOwn_kept {s x : State} (t : Table) (rs : List Bytes) (h : Kept s x) :
    Kept s (State.appendOwn t rs x) := by
  unfold State.appendOwn
  repeat' first
    | with_reducible assumption
    | with_reducible apply modJournal_kept
    | ((try lift_lets); intro y; first | (refine (fun (_ : Kept s y) => ?_) ?_; (on_goal 1 => clear_value y); (on_goal 2 => subst y)) | clear_value y | skip)
    | split

theorem State.mirrorOut_kept {s x : State} (rs : List Bytes) (h : Kept s x) :
    Kept s (State.mirrorOut rs x) := by
  unfold State.mirrorOut
  repeat' first
    | with_reducible assumption
    | with_reducible apply State.toPartner_kept
    | (with_reducible apply foldl_kept; on_goal 2 => intros)
    | split

theorem State.writeRecord_kept {s x : State} (t : Table) (r : Bytes) (h : Kept s x) :
    Kept s (State.writeRecord t r x) := by
  unfold State.writeRecord
  repeat' first
    | with_reducible assumption
    | with_reducible apply State.makeRoom_kept
    | with_reducible apply State.appendOwn_kept
    | with_reducible apply modJournal_kept
    | with_reducible apply State.mirrorOut_kept
    | ((try lift_lets); intro y; first | (refine (fun (_ : Kept s y) => ?_) ?_; (on_goal 1 => clear_value y); (on_goal 2 => subst y)) | clear_value y | skip)
    | split

theorem State.writeNow_kept {s x : State} (t : Table) (r : Bytes) (h : Kept s x) :
    Kept s (State.writeNow t r x) := by
  unfold State.writeNow
  repeat' first
    | with_reducible assumption
    | with_reducible apply State.writeRecord_kept
    | with_reducible apply State.moduleFault_kept
    | split

theorem State.flashFault_kept {s x : State} (h : Kept s x) :
    Kept s (State.flashFault x) := by
  unfold State.flashFault
  repeat' first
    | with_reducible assumption
    | with_reducible apply modJournal_kept
    | with_reducible apply State.moduleFault_kept

theorem State.startCommit_kept {s x : State} (t : Table) (rs : List Bytes) (snap : Bool) (h : Kept s x) :
    Kept s (State.startCommit t rs snap x) := by
  unfold State.startCommit
  repeat' first
    | with_reducible assumption
    | with_reducible apply State.makeRoom_kept
    | with_reducible apply State.moduleFault_kept
    | with_reducible apply modJournal_kept
    | with_reducible apply State.mirrorOut_kept
    | ((try lift_lets); intro y; first | (refine (fun (_ : Kept s y) => ?_) ?_; (on_goal 1 => clear_value y); (on_goal 2 => subst y)) | clear_value y | skip)
    | split

theorem State.powerFailRecord_kept {s x : State} (mv : Nat) (h : Kept s x) :
    Kept s (State.powerFailRecord mv x) := by
  unfold State.powerFailRecord
  repeat' first
    | with_reducible assumption
    | with_reducible apply State.raiseModule_kept
    | with_reducible apply State.writeRecord_kept
    | ((try lift_lets); intro y; first | (refine (fun (_ : Kept s y) => ?_) ?_; (on_goal 1 => clear_value y); (on_goal 2 => subst y)) | clear_value y | skip)
    | split

end Sys2Proof.Machine
end

