-- ==== Sys2Proof/Laws/KeptTideOps.lean ====
section
/-! SUPPORT. That each operation of Machine/TideOps.lean keeps what `Kept` says (Laws/Kept.lean). -/

namespace Sys2Proof.Machine

theorem State.raiseKey_kept {s x : State} (key : Nat × Nat × Nat) (code kind index : Nat) (fs : List (Nat × Nat × Nat)) (h : Kept s x) :
    Kept s (State.raiseKey key code kind index fs x) := by
  unfold State.raiseKey
  repeat' first
    | with_reducible assumption
    | with_reducible apply modRun_kept
    | with_reducible apply State.raise_kept
    | split

theorem State.cliffEvent_kept {s x : State} (u : Tide) (owner tensor tile : Nat) (c : CliffCause) (h : Kept s x) :
    Kept s (State.cliffEvent u owner tensor tile c x) := by
  unfold State.cliffEvent
  repeat' first
    | with_reducible assumption
    | with_reducible apply State.raiseKey_kept

theorem State.narEvent_kept {s x : State} (kind index tensor record row col : Nat) (h : Kept s x) :
    Kept s (State.narEvent kind index tensor record row col x) := by
  unfold State.narEvent
  repeat' first
    | with_reducible assumption
    | with_reducible apply State.raiseKey_kept

theorem State.noteStat_kept {s x : State} (n : Nat) (st : TensorStat) (h : Kept s x) :
    Kept s (State.noteStat n st x) := by
  unfold State.noteStat
  repeat' first
    | with_reducible assumption
    | with_reducible apply modRun_kept

theorem State.setRegion_kept {s x : State} (i inst : Nat) (f : Region → Region) (h : Kept s x) :
    Kept s (State.setRegion i inst f x) := by
  unfold State.setRegion
  repeat' first
    | with_reducible assumption
    | with_reducible apply modRun_kept

theorem State.sumCliff_kept {s x : State} (g : Bytes) (i inst kind index : Nat) (fs : List (Nat × Nat × Nat)) (h : Kept s x) :
    Kept s (State.sumCliff g i inst kind index fs x) := by
  unfold State.sumCliff
  repeat' first
    | with_reducible assumption
    | with_reducible apply State.raiseKey_kept

theorem State.applyAdd_kept {s x : State} (t : Table) (i inst loc : Nat) (c : Contribution) (h : Kept s x) :
    Kept s (State.applyAdd t i inst loc c x) := by
  unfold State.applyAdd
  repeat' first
    | with_reducible assumption
    | with_reducible apply State.memWrite_kept
    | with_reducible apply State.count_kept
    | with_reducible apply State.setRegion_kept
    | with_reducible apply modRun_kept
    | with_reducible apply State.sumCliff_kept
    | ((try lift_lets); intro y; first | (refine (fun (_ : Kept s y) => ?_) ?_; (on_goal 1 => clear_value y); (on_goal 2 => subst y)) | clear_value y | skip)
    | split

theorem State.regionAdd_kept {s x : State} (t : Table) (i inst loc : Nat) (c : Contribution) (h : Kept s x) :
    Kept s (State.regionAdd t i inst loc c x) := by
  unfold State.regionAdd
  repeat' first
    | with_reducible assumption
    | with_reducible apply modRun_kept
    | with_reducible apply State.guarded_kept
    | with_reducible apply State.applyAdd_kept
    | with_reducible apply State.setRegion_kept
    | refine fun (_ : State) (_ : Kept s _) => ?_
    | refine fun _ (_ : State) (_ : Kept s _) => ?_
    | split

theorem State.openRegion_kept {s x : State} (t : Table) (i inst : Nat) (h : Kept s x) :
    Kept s (State.openRegion t i inst x) := by
  unfold State.openRegion
  repeat' first
    | with_reducible assumption
    | with_reducible apply State.guarded_kept
    | with_reducible apply State.memWrite_kept
    | with_reducible apply modRun_kept
    | with_reducible apply State.applyAdd_kept
    | (with_reducible apply foldl_kept; on_goal 2 => intros)
    | refine fun (_ : State) (_ : Kept s _) => ?_

theorem State.putRowAt_kept {s z : State} (u : Tide) (x : Bytes) (row r c0 : Nat) (f : Fmt) (codes : List Nat) (scales : List Int) (h : Kept s z) :
    Kept s (State.putRowAt u x row r c0 f codes scales z) := by
  unfold State.putRowAt
  repeat' first
    | with_reducible assumption
    | with_reducible apply State.memWrite_kept
    | (with_reducible apply foldl_kept; on_goal 2 => intros)
    | ((try lift_lets); intro y; first | (refine (fun (_ : Kept s y) => ?_) ?_; (on_goal 1 => clear_value y); (on_goal 2 => subst y)) | clear_value y | skip)
    | split

theorem State.putRow_kept {s z : State} (u : Tide) (x : Bytes) (row c0 : Nat) (f : Fmt) (c : ClosedRow) (h : Kept s z) :
    Kept s (State.putRow u x row c0 f c z) := by
  unfold State.putRow
  repeat' first
    | with_reducible assumption
    | with_reducible apply State.putRowAt_kept

theorem State.putTokenCopy_kept {s z : State} (u : Tide) (x : Bytes) (row0 c0 : Nat) (rows : List (List Val)) (h : Kept s z) :
    Kept s (State.putTokenCopy u x row0 c0 rows z) := by
  unfold State.putTokenCopy
  repeat' first
    | with_reducible assumption
    | with_reducible apply State.memWrite_kept
    | (with_reducible apply foldl_kept; on_goal 2 => intros)
    | ((try lift_lets); intro y; first | (refine (fun (_ : Kept s y) => ?_) ?_; (on_goal 1 => clear_value y); (on_goal 2 => subst y)) | clear_value y | skip)
    | split

theorem State.storeReport_kept {s z : State} (a record row col : Nat) (x : Bytes) (st : TensorStat) (h : Kept s z) :
    Kept s (State.storeReport a record row col x st z) := by
  unfold State.storeReport
  repeat' first
    | with_reducible assumption
    | with_reducible apply State.noteStat_kept
    | with_reducible apply State.raiseKey_kept
    | with_reducible apply State.narEvent_kept
    | ((try lift_lets); intro y; first | (refine (fun (_ : Kept s y) => ?_) ?_; (on_goal 1 => clear_value y); (on_goal 2 => subst y)) | clear_value y | skip)
    | split

theorem State.spoil_kept {s z : State} (u : Tide) (x : Bytes) (row : Nat) (h : Kept s z) :
    Kept s (State.spoil u x row z) := by
  unfold State.spoil
  repeat' first
    | with_reducible assumption
    | with_reducible apply modRun_kept
    | ((try lift_lets); intro y; first | (refine (fun (_ : Kept s y) => ?_) ?_; (on_goal 1 => clear_value y); (on_goal 2 => subst y)) | clear_value y | skip)
    | split

theorem State.reportRow_kept {s z : State} (u : Tide) (x : Bytes) (row c0 tile : Nat) (accCliff : Bool) (c : ClosedRow) (h : Kept s z) :
    Kept s (State.reportRow u x row c0 tile accCliff c z) := by
  unfold State.reportRow
  repeat' first
    | with_reducible assumption
    | with_reducible apply State.spoil_kept
    | with_reducible apply State.storeReport_kept
    | with_reducible apply State.noteStat_kept
    | with_reducible apply State.cliffEvent_kept
    | with_reducible apply State.narEvent_kept
    | ((try lift_lets); intro y; first | (refine (fun (_ : Kept s y) => ?_) ?_; (on_goal 1 => clear_value y); (on_goal 2 => subst y)) | clear_value y | skip)
    | split

theorem State.putStats_kept {s x : State} (u : Tide) (n row : Nat) (vs : List Val) (h : Kept s x) :
    Kept s (State.putStats u n row vs x) := by
  unfold State.putStats
  repeat' first
    | with_reducible assumption
    | with_reducible apply State.reportRow_kept
    | with_reducible apply modRun_kept
    | with_reducible apply State.memWrite_kept
    | ((try lift_lets); intro y; first | (refine (fun (_ : Kept s y) => ?_) ?_; (on_goal 1 => clear_value y); (on_goal 2 => subst y)) | clear_value y | skip)
    | split

theorem State.frameWrite_kept {s x : State} (pages : List Nat) (off : Nat) (bs : Bytes) (h : Kept s x) :
    Kept s (State.frameWrite pages off bs x) := by
  unfold State.frameWrite
  repeat' first
    | with_reducible assumption
    | with_reducible apply State.memWrite_kept
    | (with_reducible apply foldl_kept; on_goal 2 => intros)

theorem State.putCheckpoint_kept {s z : State} (u : Tide) (x : Bytes) (row c0 : Nat) (c : ClosedRow) (h : Kept s z) :
    Kept s (State.putCheckpoint u x row c0 c z) := by
  unfold State.putCheckpoint
  repeat' first
    | with_reducible assumption
    | with_reducible apply State.frameWrite_kept
    | (with_reducible apply foldl_kept; on_goal 2 => intros)
    | ((try lift_lets); intro y; first | (refine (fun (_ : Kept s y) => ?_) ?_; (on_goal 1 => clear_value y); (on_goal 2 => subst y)) | clear_value y | skip)
    | split

theorem State.putValue_kept {s z : State} (u : Tide) (x : Bytes) (row c0 : Nat) (codes : List Nat) (h : Kept s z) :
    Kept s (State.putValue u x row c0 codes z) := by
  unfold State.putValue
  repeat' first
    | with_reducible assumption
    | with_reducible apply State.memWrite_kept
    | with_reducible apply State.reportRow_kept
    | (with_reducible apply foldl_kept; on_goal 2 => intros)
    | ((try lift_lets); intro y; first | (refine (fun (_ : Kept s y) => ?_) ?_; (on_goal 1 => clear_value y); (on_goal 2 => subst y)) | clear_value y | skip)
    | split

theorem State.putOut_kept {s z : State} (u : Tide) (x : Bytes) (row c0 tile : Nat) (accCliff : Bool) (c : ClosedRow) (h : Kept s z) :
    Kept s (State.putOut u x row c0 tile accCliff c z) := by
  unfold State.putOut
  repeat' first
    | with_reducible assumption
    | with_reducible apply State.putRowAt_kept
    | with_reducible apply State.putValue_kept
    | with_reducible apply State.reportRow_kept
    | with_reducible apply State.putRow_kept
    | with_reducible apply State.putCheckpoint_kept
    | ((try lift_lets); intro y; first | (refine (fun (_ : Kept s y) => ?_) ?_; (on_goal 1 => clear_value y); (on_goal 2 => subst y)) | clear_value y | skip)
    | split

theorem State.putVals_kept {s z : State} (u : Tide) (x : Bytes) (row c0 tile : Nat) (adj : TensorStat → TensorStat) (vs : List Val) (h : Kept s z) :
    Kept s (State.putVals u x row c0 tile adj vs z) := by
  unfold State.putVals
  repeat' first
    | with_reducible assumption
    | with_reducible apply State.putOut_kept

theorem State.keepLanes_kept {s x : State} (i : Nat) (a : ChainRun) (h : Kept s x) :
    Kept s (State.keepLanes i a x) := by
  unfold State.keepLanes
  repeat' first
    | with_reducible assumption
    | with_reducible apply setStall_kept

theorem State.joinRow_kept {s z : State} (u : Tide) (x : Bytes) (row c0 : Nat) (ch : List LaneStep) (vals : List Val) (pre : TensorStat) (h : Kept s z) :
    Kept s (State.joinRow u x row c0 ch vals pre z).2 := by
  unfold State.joinRow
  repeat' first
    | with_reducible assumption
    | with_reducible apply modRun_kept
    | (with_reducible apply foldl_kept; on_goal 2 => intros)
    | (with_reducible apply foldl_kept_snd; on_goal 2 => intros)
    | ((try lift_lets); intro y; first | (refine (fun (_ : Kept s y) => ?_) ?_; (on_goal 1 => clear_value y); (on_goal 2 => subst y)) | clear_value y | skip)
    | split

theorem State.chainRow_kept {s z : State} (u : Tide) (x : Bytes) (row c0 : Nat) (alpha : Int) (ch : List LaneStep) (accs : List Acc) (h : Kept s z) :
    Kept s (State.chainRow u x row c0 alpha ch accs z).2 := by
  unfold State.chainRow
  repeat' first
    | with_reducible assumption
    | with_reducible apply State.joinRow_kept
    | with_reducible apply State.putStats_kept
    | with_reducible apply State.keepLanes_kept
    | with_reducible apply State.count_kept
    | refine kept_of_eq (by assumption) ?_
    | ((try lift_lets); intro y; first | (refine (fun (_ : Kept s y) => ?_) ?_; (on_goal 1 => clear_value y); (on_goal 2 => subst y)) | (refine (fun (_ : Kept s y.2) => ?_) ?_; (on_goal 1 => clear_value y); (on_goal 2 => subst y)) | clear_value y | skip)
    | split

theorem State.gateOut_kept {s z : State} (u : Tide) (x : Bytes) (a : Admit) (c0 tile : Nat) (vs : List Val) (pre : TensorStat) (h : Kept s z) :
    Kept s (State.gateOut u x a c0 tile vs pre z) := by
  unfold State.gateOut
  repeat' first
    | with_reducible assumption
    | with_reducible apply modRun_kept
    | with_reducible apply State.putVals_kept
    | (with_reducible apply foldl_kept; on_goal 2 => intros)
    | ((try lift_lets); intro y; first | (refine (fun (_ : Kept s y) => ?_) ?_; (on_goal 1 => clear_value y); (on_goal 2 => subst y)) | clear_value y | skip)
    | split

theorem State.closeExpertRow_kept {s z : State} (u : Tide) (x : Bytes) (row c0 tile : Nat) (alpha : Int) (ch : List LaneStep) (accs : List Acc) (h : Kept s z) :
    Kept s (State.closeExpertRow u x row c0 tile alpha ch accs z) := by
  unfold State.closeExpertRow
  repeat' first
    | with_reducible assumption
    | with_reducible apply State.putVals_kept
    | with_reducible apply State.chainRow_kept
    | with_reducible apply State.gateOut_kept
    | refine kept_of_eq (by assumption) ?_
    | (with_reducible apply foldl_kept; on_goal 2 => intros)
    | ((try lift_lets); intro y; first | (refine (fun (_ : Kept s y) => ?_) ?_; (on_goal 1 => clear_value y); (on_goal 2 => subst y)) | (refine (fun (_ : Kept s y.2) => ?_) ?_; (on_goal 1 => clear_value y); (on_goal 2 => subst y)) | clear_value y | skip)
    | split

theorem State.closeOneRow_kept {s z : State} (u : Tide) (x : Bytes) (row c0 tile : Nat) (alpha : Int) (ch : List LaneStep) (accs : List Acc) (h : Kept s z) :
    Kept s (State.closeOneRow u x row c0 tile alpha ch accs z).2 := by
  unfold State.closeOneRow
  repeat' first
    | with_reducible assumption
    | with_reducible apply State.putOut_kept
    | with_reducible apply State.chainRow_kept
    | with_reducible apply State.putVals_kept
    | refine kept_of_eq (by assumption) ?_
    | ((try lift_lets); intro y; first | (refine (fun (_ : Kept s y) => ?_) ?_; (on_goal 1 => clear_value y); (on_goal 2 => subst y)) | (refine (fun (_ : Kept s y.2) => ?_) ?_; (on_goal 1 => clear_value y); (on_goal 2 => subst y)) | clear_value y | skip)
    | split

theorem State.putCopies_kept {s z : State} (u : Tide) (x : Bytes) (row0 : Nat) (rows : List (Nat × List Val)) (h : Kept s z) :
    Kept s (State.putCopies u x row0 rows z) := by
  unfold State.putCopies
  repeat' first
    | with_reducible assumption
    | with_reducible apply State.putTokenCopy_kept
    | (with_reducible apply foldl_kept; on_goal 2 => intros)
    | ((try lift_lets); intro y; first | (refine (fun (_ : Kept s y) => ?_) ?_; (on_goal 1 => clear_value y); (on_goal 2 => subst y)) | clear_value y | skip)
    | split

theorem State.closeToTensor_kept {s z : State} (u : Tide) (x : Bytes) (row0 c0 tile : Nat) (alpha : Int) (ch : List LaneStep) (accs : List (List Acc)) (h : Kept s z) :
    Kept s (State.closeToTensor u x row0 c0 tile alpha ch accs z) := by
  unfold State.closeToTensor
  repeat' first
    | with_reducible assumption
    | with_reducible apply State.closeExpertRow_kept
    | with_reducible apply State.closeOneRow_kept
    | with_reducible apply State.putCopies_kept
    | refine kept_of_eq (by assumption) ?_
    | (with_reducible apply foldl_kept; on_goal 2 => intros)
    | (with_reducible apply foldl_kept_snd; on_goal 2 => intros)
    | ((try lift_lets); intro y; first | (refine (fun (_ : Kept s y) => ?_) ?_; (on_goal 1 => clear_value y); (on_goal 2 => subst y)) | (refine (fun (_ : Kept s y.2) => ?_) ?_; (on_goal 1 => clear_value y); (on_goal 2 => subst y)) | clear_value y | skip)
    | split

theorem State.closeToRegion_kept {s x : State} (u : Tide) (g row0 c0 tile : Nat) (alpha : Int) (accs : List (List Acc)) (h : Kept s x) :
    Kept s (State.closeToRegion u g row0 c0 tile alpha accs x) := by
  unfold State.closeToRegion
  repeat' first
    | with_reducible assumption
    | with_reducible apply State.count_kept
    | with_reducible apply State.sumCliff_kept
    | with_reducible apply State.narEvent_kept
    | with_reducible apply State.regionAdd_kept
    | (with_reducible apply foldl_kept; on_goal 2 => intros)
    | ((try lift_lets); intro y; first | (refine (fun (_ : Kept s y) => ?_) ?_; (on_goal 1 => clear_value y); (on_goal 2 => subst y)) | clear_value y | skip)
    | split

theorem State.closeTile_kept {s x : State} (u : Tide) (row0 c0 tile : Nat) (resident : Bool) (accs : List (List Acc)) (h : Kept s x) :
    Kept s (State.closeTile u row0 c0 tile resident accs x) := by
  unfold State.closeTile
  repeat' first
    | with_reducible assumption
    | with_reducible apply State.cliffEvent_kept
    | with_reducible apply State.closeToRegion_kept
    | with_reducible apply State.closeToTensor_kept
    | ((try lift_lets); intro y; first | (refine (fun (_ : Kept s y) => ?_) ?_; (on_goal 1 => clear_value y); (on_goal 2 => subst y)) | clear_value y | skip)
    | split

theorem State.packStash_kept {s x : State} (u : Tide) (e : Bytes) (tb f : Nat) (h : Kept s x) :
    Kept s (State.packStash u e tb f x) := by
  unfold State.packStash
  repeat' first
    | with_reducible assumption
    | with_reducible apply State.guarded_kept
    | with_reducible apply State.memWrite_kept
    | with_reducible apply State.noteStat_kept
    | with_reducible apply State.count_kept
    | refine fun (_ : State) (_ : Kept s _) => ?_
    | refine fun _ (_ : State) (_ : Kept s _) => ?_
    | ((try lift_lets); intro y; first | (refine (fun (_ : Kept s y) => ?_) ?_; (on_goal 1 => clear_value y); (on_goal 2 => subst y)) | clear_value y | skip)
    | split

end Sys2Proof.Machine
end

