-- ==== Sys2Proof/Laws/KeptTideEngine.lean ====
section
/-! SUPPORT. That each operation of Machine/TideEngine.lean keeps what `Kept` says (Laws/Kept.lean). -/

namespace Sys2Proof.Machine

theorem State.setTide_kept {s x : State} (i inst : Nat) (st : TideStatus) (h : Kept s x) :
    Kept s (State.setTide i inst st x) := by
  unfold State.setTide
  repeat' first
    | with_reducible assumption
    | with_reducible apply modRun_kept

theorem State.tideOver_kept {s x : State} (i inst : Nat) (h : Kept s x) :
    Kept s (State.tideOver i inst x) := by
  unfold State.tideOver
  repeat' first
    | with_reducible assumption
    | with_reducible apply State.setTide_kept
    | with_reducible apply modJob_kept

theorem State.passBarriers_kept {s x : State} (t : Table) (h : Kept s x) :
    Kept s (State.passBarriers t x) := by
  unfold State.passBarriers
  repeat' first
    | with_reducible assumption
    | with_reducible apply State.tideOver_kept
    | (with_reducible apply foldl_kept; on_goal 2 => intros)
    | split

theorem State.tideDone_kept {s x : State} (t : Table) (i inst : Nat) (h : Kept s x) :
    Kept s (State.tideDone t i inst x) := by
  unfold State.tideDone
  repeat' first
    | with_reducible assumption
    | with_reducible apply State.tideOver_kept
    | with_reducible apply State.passBarriers_kept

theorem State.setTile_kept {s x : State} (i o inst : Nat) (f : Tile → Tile) (h : Kept s x) :
    Kept s (State.setTile i o inst f x) := by
  unfold State.setTile
  repeat' first
    | with_reducible assumption
    | with_reducible apply setStall_kept

theorem State.addTile_kept {s z : State} (i : Nat) (x : Tile) (h : Kept s z) :
    Kept s (State.addTile i x z) := by
  unfold State.addTile
  repeat' first
    | with_reducible assumption
    | with_reducible apply setStall_kept

theorem State.conflicts_kept {s x : State} (t : Table) (i : Nat) (h : Kept s x) :
    Kept s (State.conflicts t i x) := by
  unfold State.conflicts
  repeat' first
    | with_reducible assumption
    | with_reducible apply modRun_kept
    | with_reducible apply State.count_kept
    | with_reducible apply State.raiseOnce_kept
    | (with_reducible apply foldl_kept; on_goal 2 => intros)
    | split

theorem State.reportAdds_kept {s z : State} (u : Tide) (row col : Nat) (x : Reduced) (h : Kept s z) :
    Kept s (State.reportAdds u row col x z) := by
  unfold State.reportAdds
  repeat' first
    | with_reducible assumption
    | with_reducible apply State.count_kept
    | with_reducible apply State.narEvent_kept
    | with_reducible apply State.cliffEvent_kept
    | (with_reducible apply foldl_kept; on_goal 2 => intros)
    | ((try lift_lets); intro y; first | (refine (fun (_ : Kept s y) => ?_) ?_; (on_goal 1 => clear_value y); (on_goal 2 => subst y)) | clear_value y | skip)
    | split

theorem State.putLatent_kept {s x : State} (u : Tide) (e : Bytes) (h : Kept s x) :
    Kept s (State.putLatent u e x) := by
  unfold State.putLatent
  repeat' first
    | with_reducible assumption
    | with_reducible apply State.guarded_kept
    | with_reducible apply State.memWrite_kept
    | (with_reducible apply foldl_kept; on_goal 2 => intros)
    | refine fun (_ : State) (_ : Kept s _) => ?_
    | refine fun _ (_ : State) (_ : Kept s _) => ?_
    | ((try lift_lets); intro y; first | (refine (fun (_ : Kept s y) => ?_) ?_; (on_goal 1 => clear_value y); (on_goal 2 => subst y)) | clear_value y | skip)
    | split

theorem State.repack_kept {s x : State} (u : Tide) (h : Kept s x) :
    Kept s (State.repack u x) := by
  unfold State.repack
  repeat' first
    | with_reducible assumption
    | with_reducible apply State.packStash_kept
    | with_reducible apply modRun_kept
    | with_reducible apply State.putLatent_kept
    | (with_reducible apply foldl_kept; on_goal 2 => intros)
    | split

theorem State.keepStore_kept {s x : State} (u : Tide) (p : StorePart) (n : Nat) (bs : List Block) (h : Kept s x) :
    Kept s (State.keepStore u p n bs x) := by
  unfold State.keepStore
  repeat' first
    | with_reducible assumption
    | with_reducible apply setStall_kept

theorem State.loadPlane_kept {s x : State} (k : Nat) (u : Tide) (p : Pass) (h : Kept s x) :
    Kept s (State.loadPlane k u p x) := by
  unfold State.loadPlane
  repeat' first
    | with_reducible assumption
    | with_reducible apply State.keepStore_kept
    | with_reducible apply setStall_kept

theorem State.storeRows_kept {s z : State} (u : Tide) (x : Bytes) (row : Nat) (h : Kept s z) :
    Kept s (State.storeRows u x row z) := by
  unfold State.storeRows
  repeat' first
    | with_reducible assumption
    | with_reducible apply State.keepStore_kept

theorem State.keepLaneRow_kept {s x : State} (u : Tide) (p : StorePart) (n : Nat) (vs : List Val) (h : Kept s x) :
    Kept s (State.keepLaneRow u p n vs x) := by
  unfold State.keepLaneRow
  repeat' first
    | with_reducible assumption
    | with_reducible apply State.keepStore_kept

theorem State.reportPass_kept {s z : State} (u : Tide) (x : Bytes) (p : Pass) (out : List (List Reduced)) (h : Kept s z) :
    Kept s (State.reportPass u x p out z) := by
  unfold State.reportPass
  repeat' first
    | with_reducible assumption
    | with_reducible apply State.count_kept
    | with_reducible apply State.reportAdds_kept
    | (with_reducible apply foldl_kept; on_goal 2 => intros)
    | ((try lift_lets); intro y; first | (refine (fun (_ : Kept s y) => ?_) ?_; (on_goal 1 => clear_value y); (on_goal 2 => subst y)) | clear_value y | skip)
    | split

theorem State.closeOwned_kept {s x : State} (u : Tide) (row0 col0 : Nat) (accs : List (List Acc)) (h : Kept s x) :
    Kept s (State.closeOwned u row0 col0 accs x) := by
  unfold State.closeOwned
  repeat' first
    | with_reducible assumption
    | with_reducible apply State.closeTile_kept
    | with_reducible apply setStall_kept
    | with_reducible apply State.count_kept
    | with_reducible apply State.cliffEvent_kept
    | ((try lift_lets); intro y; first | (refine (fun (_ : Kept s y) => ?_) ?_; (on_goal 1 => clear_value y); (on_goal 2 => subst y)) | clear_value y | skip)
    | split

theorem State.runPass_kept {s x : State} (u : Tide) (p : Pass) (h : Kept s x) :
    Kept s (State.runPass u p x) := by
  unfold State.runPass
  repeat' first
    | with_reducible assumption
    | with_reducible apply State.storeRows_kept
    | with_reducible apply State.reportPass_kept
    | with_reducible apply State.closeOwned_kept
    | with_reducible apply State.setTile_kept
    | ((try lift_lets); intro y; first | (refine (fun (_ : Kept s y) => ?_) ?_; (on_goal 1 => clear_value y); (on_goal 2 => subst y)) | clear_value y | skip)
    | split

theorem State.passesEnd_kept {s x : State} (u : Tide) (h : Kept s x) :
    Kept s (State.passesEnd u x) := by
  unfold State.passesEnd
  repeat' first
    | with_reducible assumption
    | with_reducible apply State.setTile_kept
    | split

theorem State.servePass_kept {s x : State} (u : Tide) (k : Nat) (h : Kept s x) :
    Kept s (State.servePass u k x) := by
  unfold State.servePass
  repeat' first
    | with_reducible assumption
    | with_reducible apply setStall_kept
    | with_reducible apply State.runPass_kept
    | with_reducible apply State.passesEnd_kept
    | ((try lift_lets); intro y; first | (refine (fun (_ : Kept s y) => ?_) ?_; (on_goal 1 => clear_value y); (on_goal 2 => subst y)) | clear_value y | skip)
    | split

theorem State.startProduct_kept {s x : State} (u : Tide) (h : Kept s x) :
    Kept s (State.startProduct u x) := by
  unfold State.startProduct
  repeat' first
    | with_reducible assumption
    | with_reducible apply State.addTile_kept
    | with_reducible apply State.servePass_kept
    | split

theorem State.planeAhead_kept {s x : State} (t : Table) (i : Nat) (h : Kept s x) :
    Kept s (State.planeAhead t i x) := by
  unfold State.planeAhead
  repeat' first
    | with_reducible assumption
    | with_reducible apply State.repack_kept
    | with_reducible apply State.loadPlane_kept
    | split

theorem State.planeLoaded_kept {s x : State} (i : Nat) (t : Table) (h : Kept s x) :
    Kept s (State.planeLoaded i t x) := by
  unfold State.planeLoaded
  repeat' first
    | with_reducible assumption
    | with_reducible apply State.planeAhead_kept
    | with_reducible apply State.loadPlane_kept
    | with_reducible apply State.servePass_kept
    | ((try lift_lets); intro y; first | (refine (fun (_ : Kept s y) => ?_) ?_; (on_goal 1 => clear_value y); (on_goal 2 => subst y)) | clear_value y | skip)
    | split

theorem State.startClose_kept {s x : State} (u : Tide) (h : Kept s x) :
    Kept s (State.startClose u x) := by
  unfold State.startClose
  repeat' first
    | with_reducible assumption
    | with_reducible apply State.closeOwned_kept
    | with_reducible apply State.setTile_kept
    | ((try lift_lets); intro y; first | (refine (fun (_ : Kept s y) => ?_) ?_; (on_goal 1 => clear_value y); (on_goal 2 => subst y)) | clear_value y | skip)
    | split

theorem State.startLoad_kept {s x : State} (u : Tide) (h : Kept s x) :
    Kept s (State.startLoad u x) := by
  unfold State.startLoad
  repeat' first
    | with_reducible assumption
    | with_reducible apply State.load_kept
    | with_reducible apply State.reportAdds_kept
    | with_reducible apply State.addTile_kept
    | with_reducible apply State.setTile_kept
    | (with_reducible apply foldl_kept; on_goal 2 => intros)
    | ((try lift_lets); intro y; first | (refine (fun (_ : Kept s y) => ?_) ?_; (on_goal 1 => clear_value y); (on_goal 2 => subst y)) | clear_value y | skip)
    | split

theorem State.startGather_kept {s x : State} (u : Tide) (h : Kept s x) :
    Kept s (State.startGather u x) := by
  unfold State.startGather
  repeat' first
    | with_reducible assumption
    | with_reducible apply State.addTile_kept

theorem State.laneRowStep_kept {s z : State} (u : Tide) (x : Bytes) (ch : List LaneStep) (row : Nat) (h : Kept s z) :
    Kept s (State.laneRowStep u x ch row z).2 := by
  unfold State.laneRowStep
  repeat' first
    | with_reducible assumption
    | with_reducible apply State.keepLaneRow_kept
    | with_reducible apply State.putStats_kept
    | with_reducible apply State.keepLanes_kept
    | with_reducible apply State.putVals_kept
    | (with_reducible apply foldl_kept; on_goal 2 => intros)

theorem State.startLane_kept {s x : State} (u : Tide) (h : Kept s x) :
    Kept s (State.startLane u x) := by
  unfold State.startLane
  repeat' first
    | with_reducible assumption
    | with_reducible apply State.count_kept
    | with_reducible apply State.laneRowStep_kept
    | with_reducible apply State.putTokenCopy_kept
    | refine kept_of_eq (by assumption) ?_
    | (with_reducible apply foldl_kept; on_goal 2 => intros)
    | (with_reducible apply foldl_kept_snd; on_goal 2 => intros)
    | ((try lift_lets); intro y; first | (refine (fun (_ : Kept s y) => ?_) ?_; (on_goal 1 => clear_value y); (on_goal 2 => subst y)) | (refine (fun (_ : Kept s y.2) => ?_) ?_; (on_goal 1 => clear_value y); (on_goal 2 => subst y)) | clear_value y | skip)
    | split

theorem State.copyRow_kept {s z : State} (u : Tide) (x y : Bytes) (row : Option Nat) (out : Nat) (h : Kept s z) :
    Kept s (State.copyRow u x y row out z) := by
  unfold State.copyRow
  repeat' first
    | with_reducible assumption
    | with_reducible apply State.putRowAt_kept
    | with_reducible apply State.reportRow_kept
    | ((try lift_lets); intro y; first | (refine (fun (_ : Kept s y) => ?_) ?_; (on_goal 1 => clear_value y); (on_goal 2 => subst y)) | clear_value y | skip)
    | split

theorem State.putGathered_kept {s z : State} (u : Tide) (x : Bytes) (h : Kept s z) :
    Kept s (State.putGathered u x z) := by
  unfold State.putGathered
  repeat' first
    | with_reducible assumption
    | with_reducible apply State.copyRow_kept
    | (with_reducible apply foldl_kept; on_goal 2 => intros)
    | split

theorem State.startRoute_kept {s x : State} (u : Tide) (h : Kept s x) : Kept s (State.startRoute u x) := by
  unfold State.startRoute
  dsimp only
  split
  · exact State.putGathered_kept _ _ (foldl_kept h fun y a hy => State.count_kept _ _ (modRun_kept _ hy))
  · exact h

theorem State.checkBatch_kept {s x : State} (b : Batch) (h : Kept s x) :
    Kept s (State.checkBatch b x) := by
  unfold State.checkBatch
  repeat' first
    | with_reducible assumption
    | with_reducible apply State.violation_kept
    | with_reducible apply modRun_kept
    | split

theorem State.readBatch_kept {s x : State} (u : Tide) (h : Kept s x) :
    Kept s (State.readBatch u x) := by
  unfold State.readBatch
  repeat' first
    | with_reducible assumption
    | with_reducible apply State.checkBatch_kept
    | split

theorem State.countReads_kept {s x : State} (u : Tide) (h : Kept s x) :
    Kept s (State.countReads u x) := by
  unfold State.countReads
  repeat' first
    | with_reducible assumption
    | with_reducible apply State.count_kept
    | (with_reducible apply foldl_kept; on_goal 2 => intros)

theorem State.runTide_kept {s x : State} (u : Tide) (h : Kept s x) :
    Kept s (State.runTide u x) := by
  unfold State.runTide
  repeat' first
    | with_reducible assumption
    | with_reducible apply State.readBatch_kept
    | with_reducible apply State.countReads_kept
    | with_reducible apply State.setTide_kept
    | with_reducible apply setStall_kept
    | with_reducible apply State.repack_kept
    | with_reducible apply State.startProduct_kept
    | with_reducible apply State.startClose_kept
    | with_reducible apply State.startLane_kept
    | with_reducible apply State.startLoad_kept
    | with_reducible apply State.startGather_kept
    | with_reducible apply State.startRoute_kept
    | ((try lift_lets); intro y; first | (refine (fun (_ : Kept s y) => ?_) ?_; (on_goal 1 => clear_value y); (on_goal 2 => subst y)) | clear_value y | skip)
    | split

theorem State.startTide_kept {s x : State} (u : Tide) (h : Kept s x) :
    Kept s (State.startTide u x) := by
  unfold State.startTide
  repeat' first
    | with_reducible assumption
    | with_reducible apply State.guarded_kept
    | with_reducible apply State.runTide_kept
    | refine fun (_ : State) (_ : Kept s _) => ?_

theorem State.freeStash_kept {s x : State} (t : Table) (inst : Nat) (h : Kept s x) :
    Kept s (State.freeStash t inst x) := by
  unfold State.freeStash
  repeat' first
    | with_reducible assumption
    | with_reducible apply modRun_kept
    | ((try lift_lets); intro y; first | (refine (fun (_ : Kept s y) => ?_) ?_; (on_goal 1 => clear_value y); (on_goal 2 => subst y)) | clear_value y | skip)
    | split

theorem State.completeTide_kept {s x : State} (u : Tide) (h : Kept s x) :
    Kept s (State.completeTide u x) := by
  unfold State.completeTide
  repeat' first
    | with_reducible assumption
    | with_reducible apply setStall_kept
    | with_reducible apply State.count_kept
    | with_reducible apply State.tideDone_kept
    | with_reducible apply State.freeStash_kept
    | ((try lift_lets); intro y; first | (refine (fun (_ : Kept s y) => ?_) ?_; (on_goal 1 => clear_value y); (on_goal 2 => subst y)) | clear_value y | skip)
    | split

end Sys2Proof.Machine
end

