-- ==== Sys2Proof/Laws/KeptHarbourBase.lean ====
section
/-! SUPPORT. That each operation of Machine/HarbourBase.lean keeps what `Kept` says (Laws/Kept.lean). -/

namespace Sys2Proof.Machine

theorem State.sendView_kept {s x : State} (h : Kept s x) :
    Kept s (State.sendView x) := by
  unfold State.sendView
  repeat' first
    | with_reducible assumption
    | with_reducible apply State.sendLink_kept
    | (with_reducible apply foldl_kept; on_goal 2 => intros)

theorem State.enterCensus_kept {s x : State} (h : Kept s x) :
    Kept s (State.enterCensus x) := by
  unfold State.enterCensus
  repeat' first
    | with_reducible assumption
    | with_reducible apply modHarbour_kept
    | with_reducible apply State.sendView_kept
    | ((try lift_lets); intro y; first | (refine (fun (_ : Kept s y) => ?_) ?_; (on_goal 1 => clear_value y); (on_goal 2 => subst y)) | clear_value y | skip)
    | split

theorem State.setEntry_kept {s x : State} (r : Nat) (f : CensusEntry → CensusEntry) (h : Kept s x) :
    Kept s (State.setEntry r f x) := by
  unfold State.setEntry
  repeat' first
    | with_reducible assumption
    | with_reducible apply modHarbour_kept
    | with_reducible apply State.sendView_kept
    | exact fun _ h => (modAt_length _ _ _).trans h
    | ((try lift_lets); intro y; first | (refine (fun (_ : Kept s y) => ?_) ?_; (on_goal 1 => clear_value y); (on_goal 2 => subst y)) | clear_value y | skip)
    | split

theorem State.markLost_kept {s x : State} (r reason : Nat) (ej announced : Bool) (h : Kept s x) :
    Kept s (State.markLost r reason ej announced x) := by
  unfold State.markLost
  repeat' first
    | with_reducible assumption
    | with_reducible apply State.setEntry_kept

theorem State.reform_kept {s x : State} (m : LinkMsg) (h : Kept s x) :
    Kept s (State.reform m x) := by
  unfold State.reform
  repeat' first
    | with_reducible assumption
    | with_reducible apply State.abandonAttempt_kept
    | with_reducible apply State.flood_kept
    | with_reducible apply State.enterCensus_kept
    | split

theorem State.applyEject_kept {s x : State} (e : EjectRec) (h : Kept s x) :
    Kept s (State.applyEject e x) := by
  unfold State.applyEject
  repeat' first
    | with_reducible assumption
    | with_reducible apply State.markLost_kept
    | with_reducible apply modHarbour_kept
    | split

theorem State.eject_kept {s x : State} (e : EjectRec) (h : Kept s x) :
    Kept s (State.eject e x) := by
  unfold State.eject
  repeat' first
    | with_reducible assumption
    | with_reducible apply State.reform_kept
    | with_reducible apply State.applyEject_kept
    | split

theorem State.deferLeaver_kept {s x : State} (r : Nat) (h : Kept s x) :
    Kept s (State.deferLeaver r x) := by
  unfold State.deferLeaver
  repeat' first
    | with_reducible assumption
    | with_reducible apply modHarbour_kept

theorem State.lostMember_kept {s x : State} (m : LinkMsg) (r reason : Nat) (h : Kept s x) :
    Kept s (State.lostMember m r reason x) := by
  unfold State.lostMember
  repeat' first
    | with_reducible assumption
    | with_reducible apply State.reform_kept
    | with_reducible apply State.markLost_kept
    | split

theorem State.portReform_kept {s x : State} (p : Nat) (h : Kept s x) :
    Kept s (State.portReform p x) := by
  unfold State.portReform
  repeat' first
    | with_reducible assumption
    | with_reducible apply State.eject_kept

theorem State.outOfHarbour_kept {s x : State} (keepPartner : Bool) (h : Kept s x) :
    Kept s (State.outOfHarbour keepPartner x) := by
  unfold State.outOfHarbour
  repeat' first
    | with_reducible assumption
    | with_reducible apply State.darkPorts_kept
    | with_reducible apply modHarbour_kept

end Sys2Proof.Machine
end

