-- ==== Sys2Proof/Laws/KeptLinkEngine.lean ====
section
/-! SUPPORT. That each operation of Machine/LinkEngine.lean keeps what `Kept` says (Laws/Kept.lean). -/

namespace Sys2Proof.Machine

theorem State.sendFrame_kept {s x : State} (port : Nat) (f : BucketFrame) (h : Kept s x) :
    Kept s (State.sendFrame port f x) := by
  unfold State.sendFrame
  repeat' first
    | with_reducible assumption
    | with_reducible apply State.sendLink_kept
    | with_reducible apply State.count_kept

theorem State.sendXfer_kept {s z : State} (t : Table) (x : Xfer) (h : Kept s z) :
    Kept s (State.sendXfer t x z) := by
  unfold State.sendXfer
  repeat' first
    | with_reducible assumption
    | with_reducible apply State.sendFrame_kept
    | (with_reducible apply foldl_kept; on_goal 2 => intros)
    | split

theorem State.modLink_kept {s x : State} (f : Link → Link) (h : Kept s x) :
    Kept s (State.modLink f x) := by
  unfold State.modLink
  repeat' first
    | with_reducible assumption
    | with_reducible apply modHarbour_kept

theorem State.convertCliff_kept {s x : State} (b : Bytes) (c : Converted) (h : Kept s x) :
    Kept s (State.convertCliff b c x) := by
  unfold State.convertCliff
  repeat' first
    | with_reducible assumption
    | with_reducible apply State.raiseKey_kept
    | split

theorem State.convertNar_kept {s x : State} (c : Converted) (h : Kept s x) :
    Kept s (State.convertNar c x) := by
  unfold State.convertNar
  repeat' first
    | with_reducible assumption
    | with_reducible apply State.narEvent_kept
    | (with_reducible apply foldl_kept; on_goal 2 => intros)
    | split

theorem State.convertOwn_kept {s x : State} (t : Table) (l : Lane) (h : Kept s x) :
    Kept s (State.convertOwn t l x) := by
  unfold State.convertOwn
  repeat' first
    | with_reducible assumption
    | with_reducible apply State.convertCliff_kept
    | with_reducible apply State.convertNar_kept
    | with_reducible apply State.modLink_kept
    | (with_reducible apply foldl_kept; on_goal 2 => intros)
    | ((try lift_lets); intro y; first | (refine (fun (_ : Kept s y) => ?_) ?_; (on_goal 1 => clear_value y); (on_goal 2 => subst y)) | clear_value y | skip)
    | split

theorem State.sendReady_kept {s x : State} (t : Table) (i : Nat) (l : List Xfer) (n : Nat) (h : Kept s x) :
    Kept s (State.sendReady t i l n x) := by
  induction n generalizing x with
  | zero => exact h
  | succ n ih =>
    unfold State.sendReady
    repeat' first
      | with_reducible assumption
      | with_reducible apply ih
      | with_reducible apply State.sendXfer_kept
      | with_reducible apply State.modLink_kept
      | ((try lift_lets); intro y; first | (refine (fun (_ : Kept s y) => ?_) ?_; (on_goal 1 => clear_value y); (on_goal 2 => subst y)) | clear_value y | skip)
      | split

theorem State.receiveOn_kept {s x : State} (t : Table) (i : Nat) (l : Lane) (gather : Bool) (first : Nat) (p : FramePayload) (h : Kept s x) :
    Kept s (State.receiveOn t i l gather first p x) := by
  unfold State.receiveOn
  repeat' first
    | with_reducible assumption
    | with_reducible apply State.modLink_kept
    | with_reducible apply State.convertOwn_kept
    | with_reducible apply State.sendReady_kept
    | ((try lift_lets); intro y; first | (refine (fun (_ : Kept s y) => ?_) ?_; (on_goal 1 => clear_value y); (on_goal 2 => subst y)) | clear_value y | skip)
    | split

theorem State.forward_kept {s x : State} (m : PartnerMsg) (h : Kept s x) :
    Kept s (State.forward m x) := by
  unfold State.forward
  repeat' first
    | with_reducible assumption
    | with_reducible apply State.toPartner_kept
    | split

theorem State.closeBucket_kept {s x : State} (t : Table) (b : Bytes) (h : Kept s x) :
    Kept s (State.closeBucket t b x) := by
  unfold State.closeBucket
  repeat' first
    | with_reducible assumption
    | with_reducible apply State.writeG16_kept
    | with_reducible apply State.forward_kept
    | with_reducible apply State.modLink_kept
    | ((try lift_lets); intro y; first | (refine (fun (_ : Kept s y) => ?_) ?_; (on_goal 1 => clear_value y); (on_goal 2 => subst y)) | clear_value y | skip)
    | split

theorem State.replicaFault_kept {s x : State} (h : Kept s x) :
    Kept s (State.replicaFault x) := by
  unfold State.replicaFault
  repeat' first
    | with_reducible assumption
    | with_reducible apply State.eject_kept

theorem State.closeStats_kept {s x : State} (t : Table) (h : Kept s x) :
    Kept s (State.closeStats t x) := by
  unfold State.closeStats
  repeat' first
    | with_reducible assumption
    | with_reducible apply State.modLink_kept
    | with_reducible apply State.count_kept
    | with_reducible apply State.moduleFault_kept
    | with_reducible apply State.raise_kept
    | with_reducible apply State.replicaFault_kept
    | with_reducible apply State.raiseModule_kept
    | with_reducible apply State.forward_kept
    | with_reducible apply modHarbour_kept
    | ((try lift_lets); intro y; first | (refine (fun (_ : Kept s y) => ?_) ?_; (on_goal 1 => clear_value y); (on_goal 2 => subst y)) | clear_value y | skip)
    | split

theorem State.finishBucket_kept {s x : State} (t : Table) (h : Kept s x) :
    Kept s (State.finishBucket t x) := by
  unfold State.finishBucket
  repeat' first
    | with_reducible assumption
    | with_reducible apply State.closeBucket_kept
    | with_reducible apply State.closeStats_kept
    | split

theorem State.atBucket_kept {s x : State} (b : Nat) (h : Kept s x) :
    Kept s (State.atBucket b x) := by
  unfold State.atBucket
  repeat' first
    | with_reducible assumption
    | with_reducible apply State.modLink_kept

theorem State.rejectFrame_kept {s x : State} (port : Nat) (f : BucketFrame) (h : Kept s x) :
    Kept s (State.rejectFrame port f x) := by
  unfold State.rejectFrame
  repeat' first
    | with_reducible assumption
    | with_reducible apply State.raise_kept
    | with_reducible apply State.eject_kept

theorem State.holdFrame_kept {s x : State} (port : Nat) (f : BucketFrame) (h : Kept s x) :
    Kept s (State.holdFrame port f x) := by
  unfold State.holdFrame
  repeat' first
    | with_reducible assumption
    | with_reducible apply State.modLink_kept

theorem State.useFrame_kept {s x : State} (t : Table) (port : Nat) (f : BucketFrame) (h : Kept s x) :
    Kept s (State.useFrame t port f x) := by
  unfold State.useFrame
  repeat' first
    | with_reducible assumption
    | with_reducible apply State.holdFrame_kept
    | with_reducible apply State.receiveOn_kept
    | with_reducible apply modJob_kept
    | with_reducible apply State.finishBucket_kept
    | split

theorem State.useHeld_kept {s x : State} (t : Table) (n : Nat) (h : Kept s x) :
    Kept s (State.useHeld t n x) := by
  induction n generalizing x with
  | zero => exact h
  | succ n ih =>
    unfold State.useHeld
    repeat' first
      | with_reducible assumption
      | with_reducible apply ih
      | with_reducible apply State.modLink_kept
      | with_reducible apply State.useFrame_kept
      | split

theorem State.startLanes_kept {s x : State} (t : Table) (h : Kept s x) :
    Kept s (State.startLanes t x) := by
  unfold State.startLanes
  repeat' first
    | with_reducible assumption
    | with_reducible apply State.modLink_kept
    | with_reducible apply State.convertOwn_kept
    | with_reducible apply State.sendReady_kept
    | with_reducible apply State.finishBucket_kept
    | with_reducible apply State.useHeld_kept
    | (with_reducible apply foldl_kept; on_goal 2 => intros)
    | ((try lift_lets); intro y; first | (refine (fun (_ : Kept s y) => ?_) ?_; (on_goal 1 => clear_value y); (on_goal 2 => subst y)) | clear_value y | skip)
    | split

theorem State.reduceAlone_kept {s x : State} (t : Table) (b : Bytes) (h : Kept s x) :
    Kept s (State.reduceAlone t b x) := by
  unfold State.reduceAlone
  repeat' first
    | with_reducible assumption
    | with_reducible apply State.convertCliff_kept
    | with_reducible apply State.convertNar_kept
    | with_reducible apply State.writeG16_kept
    | with_reducible apply modRun_kept
    | with_reducible apply State.modLink_kept
    | (with_reducible apply foldl_kept; on_goal 2 => intros)
    | ((try lift_lets); intro y; first | (refine (fun (_ : Kept s y) => ?_) ?_; (on_goal 1 => clear_value y); (on_goal 2 => subst y)) | clear_value y | skip)
    | split

theorem State.reduceBucket_kept {s x : State} (t : Table) (h : Kept s x) :
    Kept s (State.reduceBucket t x) := by
  unfold State.reduceBucket
  repeat' first
    | with_reducible assumption
    | with_reducible apply State.guarded_kept
    | with_reducible apply modJob_kept
    | with_reducible apply State.reduceAlone_kept
    | with_reducible apply State.modLink_kept
    | with_reducible apply State.startLanes_kept
    | refine fun (_ : State) (_ : Kept s _) => ?_
    | refine fun _ (_ : State) (_ : Kept s _) => ?_
    | ((try lift_lets); intro y; first | (refine (fun (_ : Kept s y) => ?_) ?_; (on_goal 1 => clear_value y); (on_goal 2 => subst y)) | clear_value y | skip)
    | split

theorem State.sendResult_kept {s x : State} (t : Table) (ranks : List Nat) (h : Kept s x) :
    Kept s (State.sendResult t ranks x) := by
  unfold State.sendResult
  repeat' first
    | with_reducible assumption
    | with_reducible apply State.sendFrame_kept
    | (with_reducible apply foldl_kept; on_goal 2 => intros)
    | ((try lift_lets); intro y; first | (refine (fun (_ : Kept s y) => ?_) ?_; (on_goal 1 => clear_value y); (on_goal 2 => subst y)) | clear_value y | skip)
    | split

theorem State.openResult_kept {s x : State} (t : Table) (n : Nat) (h : Kept s x) :
    Kept s (State.openResult t n x) := by
  induction n generalizing x with
  | zero => exact h
  | succ n ih =>
    unfold State.openResult
    repeat' first
      | with_reducible assumption
      | with_reducible apply ih
      | with_reducible apply State.modLink_kept
      | with_reducible apply State.closeBucket_kept
      | ((try lift_lets); intro y; first | (refine (fun (_ : Kept s y) => ?_) ?_; (on_goal 1 => clear_value y); (on_goal 2 => subst y)) | clear_value y | skip)
      | split

theorem State.awaitResult_kept {s x : State} (t : Table) (h : Kept s x) :
    Kept s (State.awaitResult t x) := by
  unfold State.awaitResult
  repeat' first
    | with_reducible assumption
    | with_reducible apply State.modLink_kept
    | with_reducible apply State.openResult_kept

theorem State.takeResult_kept {s x : State} (t : Table) (port : Nat) (f : BucketFrame) (h : Kept s x) :
    Kept s (State.takeResult t port f x) := by
  unfold State.takeResult
  repeat' first
    | with_reducible assumption
    | with_reducible apply State.rejectFrame_kept
    | with_reducible apply State.modLink_kept
    | with_reducible apply State.guarded_kept
    | with_reducible apply State.closeBucket_kept
    | with_reducible apply State.openResult_kept
    | with_reducible apply State.closeStats_kept
    | refine fun (_ : State) (_ : Kept s _) => ?_
    | refine fun _ (_ : State) (_ : Kept s _) => ?_
    | ((try lift_lets); intro y; first | (refine (fun (_ : Kept s y) => ?_) ?_; (on_goal 1 => clear_value y); (on_goal 2 => subst y)) | clear_value y | skip)
    | split

theorem State.useHeldResult_kept {s x : State} (t : Table) (n : Nat) (h : Kept s x) :
    Kept s (State.useHeldResult t n x) := by
  induction n generalizing x with
  | zero => exact h
  | succ n ih =>
    unfold State.useHeldResult
    repeat' first
      | with_reducible assumption
      | with_reducible apply ih
      | with_reducible apply State.modLink_kept
      | with_reducible apply State.takeResult_kept
      | ((try lift_lets); intro y; first | (refine (fun (_ : Kept s y) => ?_) ?_; (on_goal 1 => clear_value y); (on_goal 2 => subst y)) | clear_value y | skip)
      | split

theorem State.checkFrame_kept {s x : State} (t : Table) (port : Nat) (f : BucketFrame) (h : Kept s x) :
    Kept s (State.checkFrame t port f x) := by
  unfold State.checkFrame
  repeat' first
    | with_reducible assumption
    | with_reducible apply State.rejectFrame_kept
    | with_reducible apply State.holdFrame_kept
    | with_reducible apply State.takeResult_kept
    | with_reducible apply State.useFrame_kept
    | with_reducible apply State.useHeld_kept
    | ((try lift_lets); intro y; first | (refine (fun (_ : Kept s y) => ?_) ?_; (on_goal 1 => clear_value y); (on_goal 2 => subst y)) | clear_value y | skip)
    | split

theorem State.recheckHeld_kept {s x : State} (t : Table) (h : Kept s x) :
    Kept s (State.recheckHeld t x) := by
  unfold State.recheckHeld
  repeat' first
    | with_reducible assumption
    | with_reducible apply State.checkFrame_kept
    | with_reducible apply State.modLink_kept
    | (with_reducible apply foldl_kept; on_goal 2 => intros)

theorem State.forwardFrame_kept {s x : State} (f : BucketFrame) (h : Kept s x) :
    Kept s (State.forwardFrame f x) := by
  unfold State.forwardFrame
  repeat' first
    | with_reducible assumption
    | with_reducible apply State.sendLink_kept
    | with_reducible apply State.forward_kept
    | with_reducible apply State.count_kept
    | split

theorem State.frameIn_kept {s x : State} (t : Table) (port : Nat) (f : BucketFrame) (h : Kept s x) :
    Kept s (State.frameIn t port f x) := by
  unfold State.frameIn
  repeat' first
    | with_reducible assumption
    | with_reducible apply State.count_kept
    | with_reducible apply State.forwardFrame_kept
    | with_reducible apply State.checkFrame_kept
    | ((try lift_lets); intro y; first | (refine (fun (_ : Kept s y) => ?_) ?_; (on_goal 1 => clear_value y); (on_goal 2 => subst y)) | clear_value y | skip)
    | split

end Sys2Proof.Machine
end

