-- ==== Sys2Proof/Laws/KeptRuns.lean ====
section
/-! SUPPORT. That each operation of Machine/Runs.lean keeps what `Kept` says (Laws/Kept.lean). -/

namespace Sys2Proof.Machine

theorem State.beginAttempt_kept {s x : State} (t : Table) (h : Kept s x) :
    Kept s (State.beginAttempt t x) := by
  unfold State.beginAttempt
  repeat' first
    | with_reducible assumption
    | with_reducible apply State.abandonAttempt_kept
    | with_reducible apply modRun_kept
    | with_reducible apply modHarbour_kept
    | with_reducible apply modJob_kept
    | with_reducible apply State.passBarriers_kept
    | with_reducible apply State.enter_kept
    | with_reducible apply State.recheckHeld_kept
    | ((try lift_lets); intro y; first | (refine (fun (_ : Kept s y) => ?_) ?_; (on_goal 1 => clear_value y); (on_goal 2 => subst y)) | clear_value y | skip)
    | split

theorem State.beginStep_kept {s x : State} (t : Table) (h : Kept s x) :
    Kept s (State.beginStep t x) := by
  unfold State.beginStep
  repeat' first
    | with_reducible assumption
    | with_reducible apply modJob_kept
    | with_reducible apply modRun_kept
    | with_reducible apply State.beginAttempt_kept

theorem State.startRun_kept {s x : State} (t : Table) (c : Cmd) (h : Kept s x) :
    Kept s (State.startRun t c x) := by
  unfold State.startRun
  repeat' first
    | with_reducible assumption
    | with_reducible apply State.setCmd_kept
    | with_reducible apply State.count_kept
    | with_reducible apply modRun_kept
    | with_reducible apply modHarbour_kept
    | with_reducible apply State.beginStep_kept
    | with_reducible apply State.endPromise_kept
    | with_reducible apply State.capThrottleEvent_kept
    | ((try lift_lets); intro y; first | (refine (fun (_ : Kept s y) => ?_) ?_; (on_goal 1 => clear_value y); (on_goal 2 => subst y)) | clear_value y | skip)
    | split

theorem State.repeatStep_kept {s x : State} (t : Table) (h : Kept s x) :
    Kept s (State.repeatStep t x) := by
  unfold State.repeatStep
  repeat' first
    | with_reducible assumption
    | with_reducible apply modJob_kept
    | with_reducible apply State.count_kept
    | with_reducible apply State.raiseModule_kept
    | with_reducible apply State.beginAttempt_kept

theorem State.setGroup_kept {s x : State} (place : Nat) (f : GroupRun → GroupRun) (h : Kept s x) :
    Kept s (State.setGroup place f x) := by
  unfold State.setGroup
  repeat' first
    | with_reducible assumption
    | with_reducible apply modRun_kept

theorem State.startGroup_kept {s x : State} (t : Table) (g : GroupRun) (tokens : Nat) (h : Kept s x) :
    Kept s (State.startGroup t g tokens x) := by
  unfold State.startGroup
  repeat' first
    | with_reducible assumption
    | with_reducible apply State.setGroup_kept
    | with_reducible apply State.raiseOnce_kept
    | with_reducible apply State.count_kept
    | ((try lift_lets); intro y; first | (refine (fun (_ : Kept s y) => ?_) ?_; (on_goal 1 => clear_value y); (on_goal 2 => subst y)) | clear_value y | skip)
    | split

theorem State.groupForward_kept {s x : State} (t : Table) (n : Nat) (h : Kept s x) :
    Kept s (State.groupForward t n x) := by
  unfold State.groupForward
  repeat' first
    | with_reducible assumption
    | with_reducible apply State.setGroup_kept
    | with_reducible apply State.endWait_kept
    | with_reducible apply State.startGroup_kept
    | with_reducible apply State.checkBatch_kept
    | ((try lift_lets); intro y; first | (refine (fun (_ : Kept s y) => ?_) ?_; (on_goal 1 => clear_value y); (on_goal 2 => subst y)) | clear_value y | skip)
    | split

theorem State.hostRequest_kept {s x : State} (t : Table) (i dir : Nat) (h : Kept s x) :
    Kept s (State.hostRequest t i dir x) := by
  unfold State.hostRequest
  repeat' first
    | with_reducible assumption
    | with_reducible apply State.guarded_kept
    | with_reducible apply State.storeReport_kept
    | with_reducible apply State.toHost_kept
    | with_reducible apply modRun_kept
    | with_reducible apply State.post_kept
    | with_reducible apply State.count_kept
    | with_reducible apply State.setTide_kept
    | refine fun (_ : State) (_ : Kept s _) => ?_
    | refine fun _ (_ : State) (_ : Kept s _) => ?_
    | ((try lift_lets); intro y; first | (refine (fun (_ : Kept s y) => ?_) ?_; (on_goal 1 => clear_value y); (on_goal 2 => subst y)) | clear_value y | skip)
    | split

theorem State.lateLayer_kept {s x : State} (q : HostReq) (allow : Nat) (h : Kept s x) :
    Kept s (State.lateLayer q allow x) := by
  unfold State.lateLayer
  repeat' first
    | with_reducible assumption
    | with_reducible apply State.count_kept
    | with_reducible apply State.raise_kept
    | with_reducible apply State.endPromise_kept
    | ((try lift_lets); intro y; first | (refine (fun (_ : Kept s y) => ?_) ?_; (on_goal 1 => clear_value y); (on_goal 2 => subst y)) | clear_value y | skip)
    | split

theorem State.putLayer_kept {s x : State} (u : Tide) (y : Bytes) (f : Fmt) (d : Bytes) (h : Kept s x) :
    Kept s (State.putLayer u y f d x) := by
  unfold State.putLayer
  repeat' first
    | with_reducible assumption
    | with_reducible apply State.memWrite_kept
    | with_reducible apply State.putVals_kept
    | with_reducible apply State.putTokenCopy_kept
    | (with_reducible apply foldl_kept; on_goal 2 => intros)
    | ((try lift_lets); intro y; first | (refine (fun (_ : Kept s y) => ?_) ?_; (on_goal 1 => clear_value y); (on_goal 2 => subst y)) | clear_value y | skip)
    | split

theorem State.hostResult_kept {s x : State} (t : Table) (q : HostReq) (d : Bytes) (h : Kept s x) :
    Kept s (State.hostResult t q d x) := by
  unfold State.hostResult
  repeat' first
    | with_reducible assumption
    | with_reducible apply State.lateLayer_kept
    | with_reducible apply State.guarded_kept
    | with_reducible apply State.putLayer_kept
    | with_reducible apply modRun_kept
    | with_reducible apply State.tideDone_kept
    | refine fun (_ : State) (_ : Kept s _) => ?_
    | refine fun _ (_ : State) (_ : Kept s _) => ?_
    | ((try lift_lets); intro y; first | (refine (fun (_ : Kept s y) => ?_) ?_; (on_goal 1 => clear_value y); (on_goal 2 => subst y)) | clear_value y | skip)
    | split

theorem State.beginSnapshot_kept {s x : State} (t : Table) (d : SnapDest) (served : List SnapReq) (h : Kept s x) :
    Kept s (State.beginSnapshot t d served x) := by
  unfold State.beginSnapshot
  repeat' first
    | with_reducible assumption
    | with_reducible apply modSnap_kept

theorem State.noteInterval_kept {s x : State} (t : Table) (h : Kept s x) :
    Kept s (State.noteInterval t x) := by
  unfold State.noteInterval
  repeat' first
    | with_reducible assumption
    | with_reducible apply modSnap_kept
    | split

theorem State.beginTransfer_kept {s x : State} (t : Table) (p : Nat) (h : Kept s x) :
    Kept s (State.beginTransfer t p x) := by
  unfold State.beginTransfer
  repeat' first
    | with_reducible assumption
    | with_reducible apply State.beginSnapshot_kept
    | with_reducible apply modSnap_kept
    | with_reducible apply modHarbour_kept

theorem State.planSnapshot_kept {s x : State} (t : Table) (h : Kept s x) :
    Kept s (State.planSnapshot t x) := by
  unfold State.planSnapshot
  repeat' first
    | with_reducible assumption
    | with_reducible apply State.noteInterval_kept
    | with_reducible apply State.beginTransfer_kept
    | with_reducible apply State.finish_kept
    | with_reducible apply modSnap_kept
    | with_reducible apply State.beginSnapshot_kept
    | (with_reducible apply foldl_kept; on_goal 2 => intros)
    | ((try lift_lets); intro y; first | (refine (fun (_ : Kept s y) => ?_) ?_; (on_goal 1 => clear_value y); (on_goal 2 => subst y)) | clear_value y | skip)
    | split

theorem State.formatEvents_kept {s x : State} (before : Scale) (stats : List (Nat × TensorStat)) (h : Kept s x) :
    Kept s (State.formatEvents before stats x) := by
  unfold State.formatEvents
  repeat' first
    | with_reducible assumption
    | with_reducible apply State.raise_kept
    | (with_reducible apply foldl_kept; on_goal 2 => intros)
    | ((try lift_lets); intro y; first | (refine (fun (_ : Kept s y) => ?_) ?_; (on_goal 1 => clear_value y); (on_goal 2 => subst y)) | clear_value y | skip)
    | split

theorem State.scaleEvents_kept {s x : State} (before : Scale) (stats : List (Nat × TensorStat)) (h : Kept s x) :
    Kept s (State.scaleEvents before stats x) := by
  unfold State.scaleEvents
  repeat' first
    | with_reducible assumption
    | with_reducible apply State.raiseModule_kept
    | with_reducible apply State.raise_kept
    | (with_reducible apply foldl_kept; on_goal 2 => intros)
    | ((try lift_lets); intro y; first | (refine (fun (_ : Kept s y) => ?_) ?_; (on_goal 1 => clear_value y); (on_goal 2 => subst y)) | clear_value y | skip)
    | split

theorem State.decide_kept {s x : State} (t : Table) (odd : Bool) (h : Kept s x) :
    Kept s (State.decide t odd x) := by
  unfold State.decide
  repeat' first
    | with_reducible assumption
    | with_reducible apply modRun_kept
    | with_reducible apply State.chandle_kept
    | with_reducible apply modJob_kept
    | with_reducible apply State.formatEvents_kept
    | with_reducible apply State.scaleEvents_kept
    | ((try lift_lets); intro y; first | (refine (fun (_ : Kept s y) => ?_) ?_; (on_goal 1 => clear_value y); (on_goal 2 => subst y)) | clear_value y | skip)
    | split

theorem State.harbourWait_kept {s x : State} (h : Kept s x) :
    Kept s (State.harbourWait x) := by
  unfold State.harbourWait
  repeat' first
    | with_reducible assumption
    | with_reducible apply State.extend_kept
    | (with_reducible apply foldl_kept; on_goal 2 => intros)
    | split

theorem State.recorded_kept {s x : State} (t : Table) (h : Kept s x) :
    Kept s (State.recorded x t) := by
  unfold State.recorded
  repeat' first
    | with_reducible assumption
    | with_reducible apply modJob_kept

theorem State.commitStep_kept {s x : State} (t : Table) (h : Kept s x) :
    Kept s (State.commitStep t x) := by
  unfold State.commitStep
  repeat' first
    | with_reducible assumption
    | with_reducible apply State.planSnapshot_kept
    | with_reducible apply State.recorded_kept
    | with_reducible apply modRun_kept
    | with_reducible apply State.startCommit_kept

theorem State.decideStep_kept {s x : State} (t : Table) (h : Kept s x) :
    Kept s (State.decideStep t x) := by
  unfold State.decideStep
  repeat' first
    | with_reducible assumption
    | with_reducible apply State.guarded_kept
    | with_reducible apply State.harbourWait_kept
    | with_reducible apply State.decide_kept
    | with_reducible apply State.commitStep_kept
    | refine fun (_ : State) (_ : Kept s _) => ?_
    | refine fun _ (_ : State) (_ : Kept s _) => ?_
    | split

theorem State.slackWater_kept {s x : State} (t : Table) (h : Kept s x) :
    Kept s (State.slackWater t x) := by
  unfold State.slackWater
  repeat' first
    | with_reducible assumption
    | with_reducible apply State.enter_kept
    | with_reducible apply modRun_kept
    | with_reducible apply State.decideStep_kept
    | split

theorem State.snapshotDone_kept {s x : State} (h : Kept s x) :
    Kept s (State.snapshotDone x) := by
  unfold State.snapshotDone
  repeat' first
    | with_reducible assumption
    | with_reducible apply modSnap_kept
    | with_reducible apply State.finish_kept
    | (with_reducible apply foldl_kept; on_goal 2 => intros)

theorem State.countTensors_kept {s x : State} (t : Table) (h : Kept s x) :
    Kept s (State.countTensors t x) := by
  unfold State.countTensors
  repeat' first
    | with_reducible assumption
    | with_reducible apply State.count_kept
    | (with_reducible apply foldl_kept; on_goal 2 => intros)
    | ((try lift_lets); intro y; first | (refine (fun (_ : Kept s y) => ?_) ?_; (on_goal 1 => clear_value y); (on_goal 2 => subst y)) | clear_value y | skip)
    | split

theorem State.countStep_kept {s x : State} (h : Kept s x) :
    Kept s (State.countStep x) := by
  unfold State.countStep
  repeat' first
    | with_reducible assumption
    | with_reducible apply State.count_kept
    | with_reducible apply modRun_kept
    | (with_reducible apply foldl_kept; on_goal 2 => intros)
    | ((try lift_lets); intro y; first | (refine (fun (_ : Kept s y) => ?_) ?_; (on_goal 1 => clear_value y); (on_goal 2 => subst y)) | clear_value y | skip)
    | split

theorem State.advance_kept {s x : State} (digest : Nat) (h : Kept s x) :
    Kept s (State.advance digest x) := by
  unfold State.advance
  repeat' first
    | with_reducible assumption
    | with_reducible apply State.takeFree_kept
    | with_reducible apply modTm_kept
    | with_reducible apply modJob_kept
    | refine kept_of_eq (by assumption) ?_
    | exact fun _ h => h

theorem State.markPending_kept {s x : State} (t : Table) (step : Nat) (r : Bytes) (h : Kept s x) :
    Kept s (State.markPending t step r x) := by
  unfold State.markPending
  repeat' first
    | with_reducible assumption
    | with_reducible apply modSnap_kept
    | with_reducible apply State.toPartner_kept
    | with_reducible apply State.drainDone_kept
    | ((try lift_lets); intro y; first | (refine (fun (_ : Kept s y) => ?_) ?_; (on_goal 1 => clear_value y); (on_goal 2 => subst y)) | clear_value y | skip)
    | split

theorem State.runDeferred_kept {s x : State} (r : TestReq) (h : Kept s x) :
    Kept s (State.runDeferred r x) := by
  unfold State.runDeferred
  repeat' first
    | with_reducible assumption
    | with_reducible apply modTest_kept
    | with_reducible apply State.lightTest_kept
    | with_reducible apply State.markTested_kept
    | with_reducible apply State.raise_kept
    | with_reducible apply modRun_kept
    | with_reducible apply State.extend_kept
    | (with_reducible apply foldl_kept; on_goal 2 => intros)
    | ((try lift_lets); intro y; first | (refine (fun (_ : Kept s y) => ?_) ?_; (on_goal 1 => clear_value y); (on_goal 2 => subst y)) | clear_value y | skip)
    | split

theorem State.startDeferred_kept {s x y : State} (h : Kept s x) (e : x.startDeferred = some y) : Kept s y := by
  unfold State.startDeferred at e
  split at e
  · cases e
  · rw [← Option.some.inj e]
    apply modRun_kept
    split
    · exact h
    · exact State.runDeferred_kept _ h

theorem State.rest_kept {s x : State} (st : Status) (halted : Bool) (h : Kept s x) :
    Kept s (State.rest st halted x) := by
  unfold State.rest
  repeat' first
    | with_reducible assumption
    | with_reducible apply State.endRun_kept
    | with_reducible apply modHarbour_kept

theorem State.depart_kept {s x : State} (h : Kept s x) :
    Kept s (State.depart x) := by
  unfold State.depart
  repeat' first
    | with_reducible assumption
    | with_reducible apply State.flood_kept
    | with_reducible apply State.outOfHarbour_kept
    | with_reducible apply State.enter_kept

theorem State.leaveNow_kept {s x : State} (r : SnapReq) (h : Kept s x) :
    Kept s (State.leaveNow r x) := by
  unfold State.leaveNow
  repeat' first
    | with_reducible assumption
    | with_reducible apply State.depart_kept
    | with_reducible apply State.finish_kept

theorem State.nextRun_kept {s x : State} (t : Table) (h : Kept s x) :
    Kept s (State.nextRun t x) := by
  unfold State.nextRun
  repeat' first
    | with_reducible assumption
    | with_reducible apply State.rest_kept
    | with_reducible apply State.finishRun_kept
    | with_reducible apply State.startRun_kept
    | ((try lift_lets); intro y; first | (refine (fun (_ : Kept s y) => ?_) ?_; (on_goal 1 => clear_value y); (on_goal 2 => subst y)) | clear_value y | skip)
    | split

theorem State.lastWait_kept {s x : State} (all : Bool) (h : Kept s x) :
    Kept s (State.lastWait all x) := by
  unfold State.lastWait
  repeat' first
    | with_reducible assumption
    | with_reducible apply State.extend_kept
    | (with_reducible apply foldl_kept; on_goal 2 => intros)
    | split

theorem State.closeSlack_kept {s x : State} (t : Table) (h : Kept s x) :
    Kept s (State.closeSlack t x) := by
  unfold State.closeSlack
  repeat' first
    | with_reducible assumption
    | with_reducible apply modRun_kept
    | with_reducible apply State.lastWait_kept
    | with_reducible apply State.endRun_kept
    | with_reducible apply State.leaveNow_kept
    | with_reducible apply State.depart_kept
    | with_reducible apply State.rest_kept
    | with_reducible apply State.nextRun_kept
    | with_reducible apply State.beginStep_kept
    | ((try lift_lets); intro y; first | (refine (fun (_ : Kept s y) => ?_) ?_; (on_goal 1 => clear_value y); (on_goal 2 => subst y)) | clear_value y | skip)
    | split

theorem State.afterTests_kept {s x : State} (t : Table) (h : Kept s x) :
    Kept s (State.afterTests t x) := by
  unfold State.afterTests
  repeat' first
    | with_reducible assumption
    | with_reducible apply State.enterCensus_kept
    | with_reducible apply modRun_kept
    | with_reducible apply State.closeSlack_kept
    | ((try lift_lets); intro y; first | (refine (fun (_ : Kept s y) => ?_) ?_; (on_goal 1 => clear_value y); (on_goal 2 => subst y)) | clear_value y | skip)
    | split

theorem State.afterCommit_kept {s x : State} (t : Table) (h : Kept s x) :
    Kept s (State.afterCommit t x) := by
  unfold State.afterCommit
  split
  · exact State.startDeferred_kept h ‹_›
  · exact State.afterTests_kept t h

theorem State.forwardRecord_kept {s x : State} (r : Bytes) (h : Kept s x) :
    Kept s (State.forwardRecord r x) := by
  unfold State.forwardRecord
  repeat' first
    | with_reducible assumption
    | with_reducible apply State.toPartner_kept
    | split

theorem State.finishCommit_kept {s x : State} (t : Table) (c : Commit) (h : Kept s x) :
    Kept s (State.finishCommit t c x) := by
  unfold State.finishCommit
  repeat' first
    | with_reducible assumption
    | with_reducible apply modJournal_kept
    | with_reducible apply State.snapshotDone_kept
    | with_reducible apply State.countTensors_kept
    | with_reducible apply State.countStep_kept
    | with_reducible apply State.advance_kept
    | with_reducible apply State.markPending_kept
    | with_reducible apply modRun_kept
    | with_reducible apply State.setEntry_kept
    | with_reducible apply State.forwardRecord_kept
    | with_reducible apply modHarbour_kept
    | with_reducible apply State.afterCommit_kept
    | ((try lift_lets); intro y; first | (refine (fun (_ : Kept s y) => ?_) ?_; (on_goal 1 => clear_value y); (on_goal 2 => subst y)) | clear_value y | skip)
    | split

theorem State.tryCommit_kept {s x : State} (h : Kept s x) :
    Kept s (State.tryCommit x) := by
  unfold State.tryCommit
  repeat' first
    | with_reducible assumption
    | with_reducible apply State.finishCommit_kept
    | with_reducible apply modJournal_kept
    | split

end Sys2Proof.Machine
end

