-- ==== Sys2Proof/Laws/KeptCensus.lean ====
section
/-! SUPPORT. That each operation of Machine/Census.lean keeps what `Kept` says (Laws/Kept.lean). -/

namespace Sys2Proof.Machine

theorem State.resume.withStep_kept {s x : State} (n : Nat) (f : State → State)
    (h_f : ∀ y, Kept s y → Kept s (f y)) (h : Kept s x) : Kept s (State.resume.withStep n f x) := by
  unfold State.resume.withStep
  exact modJob_kept _ (h_f _ (modJob_kept _ h))

theorem State.closeHarbourCmds_kept {s x : State} (st : Status) (h : Kept s x) :
    Kept s (State.closeHarbourCmds st x) := by
  unfold State.closeHarbourCmds
  repeat' first
    | with_reducible assumption
    | with_reducible apply modHarbour_kept
    | with_reducible apply State.finish_kept
    | ((try lift_lets); intro y; first | (refine (fun (_ : Kept s y) => ?_) ?_; (on_goal 1 => clear_value y); (on_goal 2 => subst y)) | clear_value y | skip)
    | split

theorem State.stopHarbour_kept {s x : State} (h : Kept s x) :
    Kept s (State.stopHarbour x) := by
  unfold State.stopHarbour
  repeat' first
    | with_reducible assumption
    | with_reducible apply State.closeHarbourCmds_kept
    | with_reducible apply State.abandonAttempt_kept
    | with_reducible apply State.dropCommit_kept
    | with_reducible apply State.endRun_kept
    | with_reducible apply State.outOfHarbour_kept
    | ((try lift_lets); intro y; first | (refine (fun (_ : Kept s y) => ?_) ?_; (on_goal 1 => clear_value y); (on_goal 2 => subst y)) | clear_value y | skip)
    | split

theorem State.quarantined_kept {s x : State} (h : Kept s x) :
    Kept s (State.quarantined x) := by
  unfold State.quarantined
  repeat' first
    | with_reducible assumption
    | with_reducible apply State.abandonAttempt_kept
    | with_reducible apply State.dropCommit_kept
    | with_reducible apply State.endRun_kept
    | with_reducible apply State.darkPorts_kept
    | with_reducible apply modHarbour_kept
    | with_reducible apply State.leaveNow_kept
    | ((try lift_lets); intro y; first | (refine (fun (_ : Kept s y) => ?_) ?_; (on_goal 1 => clear_value y); (on_goal 2 => subst y)) | clear_value y | skip)
    | split

theorem State.endJoin_kept {s x : State} (st : Status) (h : Kept s x) :
    Kept s (State.endJoin st x) := by
  unfold State.endJoin
  repeat' first
    | with_reducible assumption
    | with_reducible apply State.outOfHarbour_kept
    | with_reducible apply State.finish_kept
    | split

theorem State.takeNumber_kept {s x : State} (n : Nat) (h : Kept s x) :
    Kept s (State.takeNumber n x) := by
  unfold State.takeNumber
  repeat' first
    | with_reducible assumption
    | with_reducible apply modHarbour_kept
    | with_reducible apply State.sendView_kept
    | with_reducible apply State.enterCensus_kept
    | ((try lift_lets); intro y; first | (refine (fun (_ : Kept s y) => ?_) ?_; (on_goal 1 => clear_value y); (on_goal 2 => subst y)) | clear_value y | skip)
    | split

theorem State.passPart_kept {s x : State} (port : Nat) (p : CensusPart) (h : Kept s x) :
    Kept s (State.passPart port p x) := by
  unfold State.passPart
  repeat' first
    | with_reducible assumption
    | with_reducible apply State.sendLink_kept
    | (with_reducible apply foldl_kept; on_goal 2 => intros)

theorem State.addPart_kept {s x : State} (port : Nat) (p : CensusPart) (h : Kept s x) :
    Kept s (State.addPart port p x) := by
  unfold State.addPart
  repeat' first
    | with_reducible assumption
    | with_reducible apply modHarbour_kept
    | with_reducible apply State.passPart_kept
    | with_reducible apply State.sendView_kept
    | ((try lift_lets); intro y; first | (refine (fun (_ : Kept s y) => ?_) ?_; (on_goal 1 => clear_value y); (on_goal 2 => subst y)) | clear_value y | skip)
    | split

theorem State.resume_kept {s x : State} (t : Table) (surv : List Nat) (h : Kept s x) :
    Kept s (State.resume t surv x) := by
  unfold State.resume
  repeat' first
    | with_reducible assumption
    | (with_reducible apply State.resume.withStep_kept; intros)
    | with_reducible apply State.sendResult_kept
    | with_reducible apply State.repeatStep_kept
    | with_reducible apply State.abandonAttempt_kept
    | with_reducible apply State.awaitResult_kept
    | with_reducible apply State.useHeldResult_kept
    | ((try lift_lets); intro y; first | (refine (fun (_ : Kept s y) => ?_) ?_; (on_goal 1 => clear_value y); (on_goal 2 => subst y)) | clear_value y | skip)
    | split

theorem State.slackCensusDone_kept {s x : State} (t : Table) (h : Kept s x) :
    Kept s (State.slackCensusDone t x) := by
  unfold State.slackCensusDone
  repeat' first
    | with_reducible assumption
    | with_reducible apply State.extend_kept
    | with_reducible apply State.closeSlack_kept
    | (with_reducible apply foldl_kept; on_goal 2 => intros)
    | ((try lift_lets); intro y; first | (refine (fun (_ : Kept s y) => ?_) ?_; (on_goal 1 => clear_value y); (on_goal 2 => subst y)) | clear_value y | skip)
    | split

theorem State.reportLost_kept {s x : State} (prev surv : List Nat) (h : Kept s x) :
    Kept s (State.reportLost prev surv x) := by
  unfold State.reportLost
  repeat' first
    | with_reducible assumption
    | with_reducible apply State.raise_kept
    | (with_reducible apply foldl_kept; on_goal 2 => intros)

theorem State.noteMismatch_kept {s x : State} (ejected : Bool) (h : Kept s x) :
    Kept s (State.noteMismatch ejected x) := by
  unfold State.noteMismatch
  repeat' first
    | with_reducible assumption
    | with_reducible apply modHarbour_kept

theorem State.unsuspend_kept {s x : State} (h : Kept s x) :
    Kept s (State.unsuspend x) := by
  unfold State.unsuspend
  repeat' first
    | with_reducible assumption
    | with_reducible apply modJournal_kept
    | split

theorem State.judge_kept {s : State} (present : List Nat) (e : EjectRec) (acc : List (Nat × Nat) × State) (h : Kept s acc.2) :
    Kept s (State.judge present e acc).2 := by
  unfold State.judge
  repeat' first
    | with_reducible assumption
    | with_reducible apply State.takeFree_kept
    | refine kept_of_eq (by assumption) ?_
    | ((try lift_lets); intro y; first | (refine (fun (_ : Kept s y) => ?_) ?_; (on_goal 1 => clear_value y); (on_goal 2 => subst y)) | (refine (fun (_ : Kept s y.2) => ?_) ?_; (on_goal 1 => clear_value y); (on_goal 2 => subst y)) | clear_value y | skip)
    | split

theorem State.ejections_kept {s x : State} (present : List Nat) (h : Kept s x) :
    Kept s (State.ejections present x).2 := by
  unfold State.ejections
  repeat' first
    | with_reducible assumption
    | with_reducible apply State.judge_kept
    | refine kept_of_eq (by assumption) ?_
    | (with_reducible apply foldl_kept; on_goal 2 => intros)
    | (with_reducible apply foldl_kept_snd; on_goal 2 => intros)

theorem State.closeCensus_kept {s x : State} (t : Table) (h : Kept s x) :
    Kept s (State.closeCensus t x) := by
  unfold State.closeCensus
  repeat' first
    | with_reducible assumption
    | with_reducible apply State.ejections_kept
    | with_reducible apply modHarbour_kept
    | with_reducible apply State.quarantined_kept
    | with_reducible apply State.reportLost_kept
    | with_reducible apply State.stopHarbour_kept
    | with_reducible apply State.noteFault_kept
    | with_reducible apply State.noteMismatch_kept
    | with_reducible apply State.endPromise_kept
    | with_reducible apply State.unsuspend_kept
    | with_reducible apply State.resume_kept
    | with_reducible apply State.slackCensusDone_kept
    | refine kept_of_eq (by assumption) ?_
    | (with_reducible apply foldl_kept; on_goal 2 => intros)
    | exact fun _ h => (modAt_length _ _ _).trans h
    | ((try lift_lets); intro y; first | (refine (fun (_ : Kept s y) => ?_) ?_; (on_goal 1 => clear_value y); (on_goal 2 => subst y)) | (refine (fun (_ : Kept s y.2) => ?_) ?_; (on_goal 1 => clear_value y); (on_goal 2 => subst y)) | clear_value y | skip)
    | split

theorem State.formHarbour_kept {s x : State} (j : Joining) (h : Kept s x) :
    Kept s (State.formHarbour j x) := by
  unfold State.formHarbour
  repeat' first
    | with_reducible assumption
    | with_reducible apply modHarbour_kept
    | with_reducible apply State.unsuspend_kept
    | with_reducible apply State.finish_kept
    | ((try lift_lets); intro y; first | (refine (fun (_ : Kept s y) => ?_) ?_; (on_goal 1 => clear_value y); (on_goal 2 => subst y)) | clear_value y | skip)
    | split

theorem State.joinRefused_kept {s x : State} (h : Kept s x) :
    Kept s (State.joinRefused x) := by
  unfold State.joinRefused
  repeat' first
    | with_reducible assumption
    | with_reducible apply State.raiseModule_kept
    | with_reducible apply State.endJoin_kept

theorem State.tryClose_kept {s x : State} (h : Kept s x) :
    Kept s (State.tryClose x) := by
  unfold State.tryClose
  repeat' first
    | with_reducible assumption
    | with_reducible apply State.joinRefused_kept
    | with_reducible apply State.formHarbour_kept
    | with_reducible apply State.closeCensus_kept
    | split

theorem State.censusIn_kept {s x : State} (port : Nat) (p : CensusPart) (h : Kept s x) :
    Kept s (State.censusIn port p x) := by
  unfold State.censusIn
  repeat' first
    | with_reducible assumption
    | with_reducible apply State.takeNumber_kept
    | with_reducible apply State.addPart_kept
    | with_reducible apply State.tryClose_kept
    | ((try lift_lets); intro y; first | (refine (fun (_ : Kept s y) => ?_) ?_; (on_goal 1 => clear_value y); (on_goal 2 => subst y)) | clear_value y | skip)
    | split

theorem State.viewTimeout_kept {s x : State} (r : Nat) (h : Kept s x) :
    Kept s (State.viewTimeout r x) := by
  unfold State.viewTimeout
  repeat' first
    | with_reducible assumption
    | with_reducible apply State.markLost_kept
    | with_reducible apply State.tryClose_kept
    | split

theorem State.faultIn_kept {s x : State} (r : FaultRec) (h : Kept s x) :
    Kept s (State.faultIn r x) := by
  unfold State.faultIn
  repeat' first
    | with_reducible assumption
    | with_reducible apply State.lostMember_kept
    | with_reducible apply State.tryClose_kept
    | ((try lift_lets); intro y; first | (refine (fun (_ : Kept s y) => ?_) ?_; (on_goal 1 => clear_value y); (on_goal 2 => subst y)) | clear_value y | skip)
    | split

theorem State.leaveIn_kept {s x : State} (r : Nat) (h : Kept s x) :
    Kept s (State.leaveIn r x) := by
  unfold State.leaveIn
  repeat' first
    | with_reducible assumption
    | with_reducible apply State.flood_kept
    | with_reducible apply State.deferLeaver_kept
    | with_reducible apply State.lostMember_kept
    | with_reducible apply State.tryClose_kept
    | ((try lift_lets); intro y; first | (refine (fun (_ : Kept s y) => ?_) ?_; (on_goal 1 => clear_value y); (on_goal 2 => subst y)) | clear_value y | skip)
    | split

theorem State.ejectIn_kept {s x : State} (e : EjectRec) (h : Kept s x) :
    Kept s (State.ejectIn e x) := by
  unfold State.ejectIn
  repeat' first
    | with_reducible assumption
    | with_reducible apply State.eject_kept
    | with_reducible apply State.tryClose_kept

end Sys2Proof.Machine
end

