-- ==== Sys2Proof/Laws/KeptSurvival.lean ====
section
/-! SUPPORT. That each operation of Machine/Survival.lean keeps what `Kept` says (Laws/Kept.lean). -/

namespace Sys2Proof.Machine

theorem State.zeroClass_kept {s x : State} (k : Nat) (h : Kept s x) :
    Kept s (State.zeroClass k x) := by
  unfold State.zeroClass
  repeat' first
    | with_reducible assumption
    | with_reducible apply modMem_kept
    | (with_reducible apply foldl_kept; on_goal 2 => intros)
    | exact fun _ h => h
    | exact fun h => h
    | exact fun _ h => Mem.zero_wf _ _ h
    | split

theorem State.putFragment_kept {s x : State} (q page : Nat) (d : Bytes) (h : Kept s x) :
    Kept s (State.putFragment q page d x) := by
  unfold State.putFragment
  repeat' first
    | with_reducible assumption
    | with_reducible apply modMem_kept
    | with_reducible apply State.write_kept
    | (with_reducible apply foldl_kept; on_goal 2 => intros)
    | exact fun _ h => h
    | exact fun h => h
    | exact fun _ h => Mem.write_wf _ _ h

theorem State.skewEvent_kept {s x : State} (n : Nat) (h : Kept s x) :
    Kept s (State.skewEvent n x) := by
  unfold State.skewEvent
  repeat' first
    | with_reducible assumption
    | with_reducible apply State.raiseModule_kept
    | (with_reducible apply foldl_kept; on_goal 2 => intros)
    | ((try lift_lets); intro y; first | (refine (fun (_ : Kept s y) => ?_) ?_; (on_goal 1 => clear_value y); (on_goal 2 => subst y)) | clear_value y | skip)
    | split

theorem State.takeScale_kept {s x : State} (t : Table) (r : Bytes) (h : Kept s x) :
    Kept s (State.takeScale t r x) := by
  unfold State.takeScale
  repeat' first
    | with_reducible assumption
    | with_reducible apply modJob_kept
    | with_reducible apply State.raiseModule_kept
    | ((try lift_lets); intro y; first | (refine (fun (_ : Kept s y) => ?_) ?_; (on_goal 1 => clear_value y); (on_goal 2 => subst y)) | clear_value y | skip)
    | split

theorem State.takeRestored_kept {s x : State} (t : Table) (n digest : Nat) (r : Bytes) (h : Kept s x) :
    Kept s (State.takeRestored t n digest r x) := by
  unfold State.takeRestored
  repeat' first
    | with_reducible assumption
    | with_reducible apply State.rebuildCodes_kept
    | with_reducible apply State.takeScale_kept
    | with_reducible apply modJob_kept
    | with_reducible apply State.skewEvent_kept

theorem State.restoreRecord_kept {s x : State} (t : Table) (source n : Nat) (sup : Nat × Nat) (h : Kept s x) :
    Kept s (State.restoreRecord t source n sup x) := by
  unfold State.restoreRecord
  repeat' first
    | with_reducible assumption
    | with_reducible apply State.writeNow_kept

theorem State.restoreMismatch_kept {s x : State} (digest own expected : Nat) (h : Kept s x) :
    Kept s (State.restoreMismatch digest own expected x) := by
  unfold State.restoreMismatch
  repeat' first
    | with_reducible assumption
    | with_reducible apply State.raiseModule_kept
    | with_reducible apply State.zeroClass_kept

theorem State.finishImage_kept {s x : State} (t : Table) (sq cid source : Nat) (b : Bytes) (h : Kept s x) :
    Kept s (State.finishImage t sq cid source b x) := by
  unfold State.finishImage
  repeat' first
    | with_reducible assumption
    | with_reducible apply State.finish_kept
    | with_reducible apply State.zeroClass_kept
    | with_reducible apply modJob_kept
    | with_reducible apply State.putFragment_kept
    | with_reducible apply State.restoreMismatch_kept
    | with_reducible apply State.takeRestored_kept
    | with_reducible apply State.restoreRecord_kept
    | (with_reducible apply foldl_kept; on_goal 2 => intros)
    | ((try lift_lets); intro y; first | (refine (fun (_ : Kept s y) => ?_) ?_; (on_goal 1 => clear_value y); (on_goal 2 => subst y)) | clear_value y | skip)
    | split

theorem State.failRestore_kept {s x : State} (r : RestoreRun) (st : Status) (h : Kept s x) :
    Kept s (State.failRestore r st x) := by
  unfold State.failRestore
  repeat' first
    | with_reducible assumption
    | with_reducible apply State.darkPort_kept
    | with_reducible apply modHarbour_kept
    | with_reducible apply State.finish_kept

theorem State.endShadow_kept {s x : State} (h : Kept s x) :
    Kept s (State.endShadow x) := by
  unfold State.endShadow
  repeat' first
    | with_reducible assumption
    | with_reducible apply State.darkPort_kept
    | with_reducible apply modHarbour_kept
    | split

theorem State.beginRestore_kept {s x : State} (sq cid source port donor : Nat) (h : Kept s x) :
    Kept s (State.beginRestore sq cid source port donor x) := by
  unfold State.beginRestore
  repeat' first
    | with_reducible assumption
    | with_reducible apply State.endShadow_kept
    | with_reducible apply State.zeroClass_kept
    | with_reducible apply modJob_kept
    | with_reducible apply State.lightPort_kept
    | with_reducible apply modHarbour_kept
    | ((try lift_lets); intro y; first | (refine (fun (_ : Kept s y) => ?_) ?_; (on_goal 1 => clear_value y); (on_goal 2 => subst y)) | clear_value y | skip)
    | split

theorem State.restoreHelloIn_kept {s z : State} (r : RestoreRun) (port : Nat) (x : Hello) (h : Kept s z) :
    Kept s (State.restoreHelloIn r port x z) := by
  unfold State.restoreHelloIn
  repeat' first
    | with_reducible assumption
    | with_reducible apply State.raise_kept
    | with_reducible apply State.failRestore_kept
    | with_reducible apply modHarbour_kept
    | with_reducible apply State.toPartner_kept
    | ((try lift_lets); intro y; first | (refine (fun (_ : Kept s y) => ?_) ?_; (on_goal 1 => clear_value y); (on_goal 2 => subst y)) | clear_value y | skip)
    | split

theorem State.donorHello_kept {s z : State} (port : Nat) (x : Hello) (h : Kept s z) :
    Kept s (State.donorHello port x z) := by
  unfold State.donorHello
  repeat' first
    | with_reducible assumption
    | with_reducible apply State.sendLink_kept
    | with_reducible apply State.takeFree_kept
    | with_reducible apply State.toPartner_kept
    | with_reducible apply modHarbour_kept
    | refine kept_of_eq (by assumption) ?_
    | ((try lift_lets); intro y; first | (refine (fun (_ : Kept s y) => ?_) ?_; (on_goal 1 => clear_value y); (on_goal 2 => subst y)) | (refine (fun (_ : Kept s y.2) => ?_) ?_; (on_goal 1 => clear_value y); (on_goal 2 => subst y)) | clear_value y | skip)
    | split

theorem State.shadowMismatch_kept {s x : State} (digest own expected : Nat) (h : Kept s x) :
    Kept s (State.shadowMismatch digest own expected x) := by
  unfold State.shadowMismatch
  repeat' first
    | with_reducible assumption
    | with_reducible apply State.restoreMismatch_kept
    | with_reducible apply State.failRestore_kept
    | with_reducible apply State.raiseModule_kept
    | with_reducible apply State.endShadow_kept
    | split

theorem State.modShadow_kept {s x : State} (f : RestoreRun → RestoreRun) (h : Kept s x) :
    Kept s (State.modShadow f x) := by
  unfold State.modShadow
  repeat' first
    | with_reducible assumption
    | with_reducible apply modHarbour_kept

theorem State.setComplete_kept {s x : State} (t : Table) (r : RestoreRun) (h : Kept s x) :
    Kept s (State.setComplete t r x) := by
  unfold State.setComplete
  repeat' first
    | with_reducible assumption
    | with_reducible apply State.shadowMismatch_kept
    | with_reducible apply State.takeRestored_kept
    | with_reducible apply State.modShadow_kept
    | ((try lift_lets); intro y; first | (refine (fun (_ : Kept s y) => ?_) ?_; (on_goal 1 => clear_value y); (on_goal 2 => subst y)) | clear_value y | skip)
    | split

theorem State.trySet_kept {s x : State} (t : Table) (h : Kept s x) :
    Kept s (State.trySet t x) := by
  unfold State.trySet
  repeat' first
    | with_reducible assumption
    | with_reducible apply State.setComplete_kept
    | split

theorem State.shadowCommit_kept {s x : State} (t : Table) (h : Kept s x) :
    Kept s (State.shadowCommit t x) := by
  unfold State.shadowCommit
  repeat' first
    | with_reducible assumption
    | with_reducible apply State.moduleFault_kept
    | with_reducible apply State.writeRecord_kept
    | with_reducible apply State.countTensors_kept
    | with_reducible apply State.countStep_kept
    | with_reducible apply State.advance_kept
    | with_reducible apply modRun_kept
    | with_reducible apply modHarbour_kept
    | ((try lift_lets); intro y; first | (refine (fun (_ : Kept s y) => ?_) ?_; (on_goal 1 => clear_value y); (on_goal 2 => subst y)) | clear_value y | skip)
    | split

theorem State.shadowStep_kept {s x : State} (t : Table) (es : List StatEntry) (h : Kept s x) :
    Kept s (State.shadowStep t es x) := by
  unfold State.shadowStep
  repeat' first
    | with_reducible assumption
    | with_reducible apply modRun_kept
    | with_reducible apply modHarbour_kept
    | with_reducible apply modJob_kept
    | with_reducible apply State.guarded_kept
    | with_reducible apply State.decide_kept
    | with_reducible apply State.shadowCommit_kept
    | refine fun (_ : State) (_ : Kept s _) => ?_

theorem State.shadowSteps_kept {s x : State} (t : Table) (n : Nat) (h : Kept s x) :
    Kept s (State.shadowSteps t n x) := by
  induction n generalizing x with
  | zero => exact h
  | succ n ih =>
    unfold State.shadowSteps
    repeat' first
      | with_reducible assumption
      | with_reducible apply ih
      | with_reducible apply State.modShadow_kept
      | with_reducible apply State.shadowStep_kept
      | split

theorem State.donorRecordIn_kept {s x : State} (t : Table) (b : Bytes) (h : Kept s x) :
    Kept s (State.donorRecordIn t b x) := by
  unfold State.donorRecordIn
  repeat' first
    | with_reducible assumption
    | with_reducible apply State.modShadow_kept
    | with_reducible apply State.trySet_kept
    | with_reducible apply State.shadowSteps_kept
    | with_reducible apply State.shadowMismatch_kept
    | with_reducible apply State.restoreRecord_kept
    | with_reducible apply modHarbour_kept
    | with_reducible apply State.finish_kept
    | ((try lift_lets); intro y; first | (refine (fun (_ : Kept s y) => ?_) ?_; (on_goal 1 => clear_value y); (on_goal 2 => subst y)) | clear_value y | skip)
    | split

theorem State.fragmentIn_kept {s x : State} (t : Table) (page q dig : Nat) (d : Bytes) (h : Kept s x) :
    Kept s (State.fragmentIn t page q dig d x) := by
  unfold State.fragmentIn
  repeat' first
    | with_reducible assumption
    | with_reducible apply State.putFragment_kept
    | with_reducible apply State.shadowMismatch_kept
    | with_reducible apply State.modShadow_kept
    | with_reducible apply State.trySet_kept
    | with_reducible apply State.shadowSteps_kept
    | ((try lift_lets); intro y; first | (refine (fun (_ : Kept s y) => ?_) ?_; (on_goal 1 => clear_value y); (on_goal 2 => subst y)) | clear_value y | skip)
    | split

theorem State.forwardedG16_kept {s x : State} (t : Table) (step bucket first : Nat) (vs : List (Option Int)) (h : Kept s x) :
    Kept s (State.forwardedG16 t step bucket first vs x) := by
  unfold State.forwardedG16
  repeat' first
    | with_reducible assumption
    | with_reducible apply State.guarded_kept
    | with_reducible apply State.writeG16_kept
    | refine fun (_ : State) (_ : Kept s _) => ?_
    | refine fun _ (_ : State) (_ : Kept s _) => ?_
    | split

theorem State.forwardedStats_kept {s x : State} (t : Table) (step : Nat) (es : List StatEntry) (h : Kept s x) :
    Kept s (State.forwardedStats t step es x) := by
  unfold State.forwardedStats
  repeat' first
    | with_reducible assumption
    | with_reducible apply State.modShadow_kept
    | with_reducible apply State.shadowSteps_kept
    | split

theorem State.transferIn_kept {s x : State} (t : Table) (port : Nat) (p : StatePayload) (h : Kept s x) :
    Kept s (State.transferIn t port p x) := by
  unfold State.transferIn
  repeat' first
    | with_reducible assumption
    | with_reducible apply State.darkPort_kept
    | with_reducible apply modHarbour_kept
    | with_reducible apply State.finishImage_kept
    | with_reducible apply State.failRestore_kept
    | with_reducible apply State.fragmentIn_kept
    | with_reducible apply State.donorRecordIn_kept
    | with_reducible apply State.forwardedG16_kept
    | with_reducible apply State.forwardedStats_kept
    | split

theorem State.mirrorIn_kept {s x : State} (port : Nat) (r : Bytes) (h : Kept s x) :
    Kept s (State.mirrorIn port r x) := by
  unfold State.mirrorIn
  repeat' first
    | with_reducible assumption
    | with_reducible apply State.compact_kept
    | with_reducible apply modJournal_kept
    | with_reducible apply State.toPartner_kept
    | ((try lift_lets); intro y; first | (refine (fun (_ : Kept s y) => ?_) ?_; (on_goal 1 => clear_value y); (on_goal 2 => subst y)) | clear_value y | skip)
    | split

theorem State.mirrorAckIn_kept {s x : State} (port seq : Nat) (h : Kept s x) :
    Kept s (State.mirrorAckIn port seq x) := by
  unfold State.mirrorAckIn
  repeat' first
    | with_reducible assumption
    | with_reducible apply modJournal_kept
    | split

theorem State.mirrorTimeout_kept {s x : State} (h : Kept s x) :
    Kept s (State.mirrorTimeout x) := by
  unfold State.mirrorTimeout
  repeat' first
    | with_reducible assumption
    | with_reducible apply modJournal_kept
    | ((try lift_lets); intro y; first | (refine (fun (_ : Kept s y) => ?_) ?_; (on_goal 1 => clear_value y); (on_goal 2 => subst y)) | clear_value y | skip)
    | split

theorem State.storePiece_kept {s x : State} (port : Nat) (p : SnapPiece) (h : Kept s x) :
    Kept s (State.storePiece port p x) := by
  unfold State.storePiece
  repeat' first
    | with_reducible assumption
    | with_reducible apply modSnap_kept
    | ((try lift_lets); intro y; first | (refine (fun (_ : Kept s y) => ?_) ?_; (on_goal 1 => clear_value y); (on_goal 2 => subst y)) | clear_value y | skip)
    | split

end Sys2Proof.Machine
end

