-- ==== Sys2Proof/Laws/KeptJoining.lean ====
section
/-! SUPPORT. That each operation of Machine/Joining.lean keeps what `Kept` says (Laws/Kept.lean). -/

namespace Sys2Proof.Machine

theorem State.ownDigestRefused_kept {s x : State} (sq cid : Nat) (h : Kept s x) :
    Kept s (State.ownDigestRefused sq cid x) := by
  unfold State.ownDigestRefused
  repeat' first
    | with_reducible assumption
    | with_reducible apply State.takeFree_kept
    | with_reducible apply State.raiseModule_kept
    | with_reducible apply State.finish_kept

theorem State.lightPartner_kept {s x : State} (p : Nat) (h : Kept s x) :
    Kept s (State.lightPartner p x) := by
  unfold State.lightPartner
  repeat' first
    | with_reducible assumption
    | with_reducible apply State.sendLink_kept
    | with_reducible apply State.lightPort_kept
    | split

theorem State.beginJoin_kept {s x : State} (sq cid : Nat) (b : Bytes) (h : Kept s x) :
    Kept s (State.beginJoin sq cid b x) := by
  unfold State.beginJoin
  repeat' first
    | with_reducible assumption
    | with_reducible apply State.endShadow_kept
    | with_reducible apply modHarbour_kept
    | with_reducible apply State.lightPort_kept
    | with_reducible apply State.lightPartner_kept
    | with_reducible apply State.enterCensus_kept
    | (with_reducible apply foldl_kept; on_goal 2 => intros)
    | ((try lift_lets); intro y; first | (refine (fun (_ : Kept s y) => ?_) ?_; (on_goal 1 => clear_value y); (on_goal 2 => subst y)) | clear_value y | skip)
    | split

theorem State.joinHarbour_kept {s x : State} (t : Table) (sq cid : Nat) (b : Bytes) (h : Kept s x) :
    Kept s (State.joinHarbour t sq cid b x) := by
  unfold State.joinHarbour
  repeat' first
    | with_reducible assumption
    | with_reducible apply State.finish_kept
    | with_reducible apply State.raiseModule_kept
    | with_reducible apply State.ownDigestRefused_kept
    | with_reducible apply State.beginJoin_kept
    | split

theorem State.portTrained_kept {s x : State} (p : Nat) (h : Kept s x) :
    Kept s (State.portTrained p x) := by
  unfold State.portTrained
  repeat' first
    | with_reducible assumption
    | with_reducible apply setPort_kept
    | with_reducible apply State.sendLink_kept
    | ((try lift_lets); intro y; first | (refine (fun (_ : Kept s y) => ?_) ?_; (on_goal 1 => clear_value y); (on_goal 2 => subst y)) | clear_value y | skip)
    | split

theorem State.refuseHello_kept {s x : State} (p cause rank : Nat) (h : Kept s x) :
    Kept s (State.refuseHello p cause rank x) := by
  unfold State.refuseHello
  repeat' first
    | with_reducible assumption
    | with_reducible apply State.raise_kept

theorem State.noteNeighbour_kept {s z : State} (p : Nat) (x : Hello) (h : Kept s z) :
    Kept s (State.noteNeighbour p x z) := by
  unfold State.noteNeighbour
  repeat' first
    | with_reducible assumption
    | with_reducible apply setPort_kept

theorem State.topologyHello_kept {s z : State} (p : Nat) (x : Hello) (h : Kept s z) :
    Kept s (State.topologyHello p x z) := by
  unfold State.topologyHello
  repeat' first
    | with_reducible assumption
    | with_reducible apply State.refuseHello_kept
    | with_reducible apply State.markLost_kept
    | with_reducible apply State.tryClose_kept
    | with_reducible apply State.sendLink_kept
    | with_reducible apply modHarbour_kept
    | with_reducible apply State.enterCensus_kept
    | (with_reducible apply foldl_kept; on_goal 2 => intros)
    | ((try lift_lets); intro y; first | (refine (fun (_ : Kept s y) => ?_) ?_; (on_goal 1 => clear_value y); (on_goal 2 => subst y)) | clear_value y | skip)
    | split

theorem State.partnerHello_kept {s z : State} (p : Nat) (x : Hello) (h : Kept s z) :
    Kept s (State.partnerHello p x z) := by
  unfold State.partnerHello
  repeat' first
    | with_reducible assumption
    | with_reducible apply State.refuseHello_kept
    | with_reducible apply State.takeFree_kept
    | with_reducible apply State.accept_kept
    | with_reducible apply State.raise_kept
    | with_reducible apply State.endJoin_kept
    | refine kept_of_eq (by assumption) ?_
    | ((try lift_lets); intro y; first | (refine (fun (_ : Kept s y) => ?_) ?_; (on_goal 1 => clear_value y); (on_goal 2 => subst y)) | (refine (fun (_ : Kept s y.2) => ?_) ?_; (on_goal 1 => clear_value y); (on_goal 2 => subst y)) | clear_value y | skip)
    | split

theorem State.helloIn_kept {s z : State} (p : Nat) (x : Hello) (h : Kept s z) :
    Kept s (State.helloIn p x z) := by
  unfold State.helloIn
  repeat' first
    | with_reducible assumption
    | with_reducible apply State.heard_kept
    | with_reducible apply State.noteNeighbour_kept
    | with_reducible apply State.restoreHelloIn_kept
    | with_reducible apply State.topologyHello_kept
    | with_reducible apply State.donorHello_kept
    | with_reducible apply State.partnerHello_kept
    | ((try lift_lets); intro y; first | (refine (fun (_ : Kept s y) => ?_) ?_; (on_goal 1 => clear_value y); (on_goal 2 => subst y)) | clear_value y | skip)
    | split

theorem State.joinExpired_kept {s x : State} (h : Kept s x) :
    Kept s (State.joinExpired x) := by
  unfold State.joinExpired
  repeat' first
    | with_reducible assumption
    | with_reducible apply State.endJoin_kept

theorem State.leaveHarbour_kept {s x : State} (sq cid : Nat) (h : Kept s x) :
    Kept s (State.leaveHarbour sq cid x) := by
  unfold State.leaveHarbour
  repeat' first
    | with_reducible assumption
    | with_reducible apply State.setCmd_kept
    | with_reducible apply modHarbour_kept
    | with_reducible apply State.leaveNow_kept
    | ((try lift_lets); intro y; first | (refine (fun (_ : Kept s y) => ?_) ?_; (on_goal 1 => clear_value y); (on_goal 2 => subst y)) | clear_value y | skip)
    | split

theorem State.progressSend_kept {s x : State} (h : Kept s x) :
    Kept s (State.progressSend x) := by
  unfold State.progressSend
  repeat' first
    | with_reducible assumption
    | with_reducible apply State.flood_kept
    | split

theorem State.progressIn_kept {s x : State} (p : Nat) (r : Progress) (h : Kept s x) :
    Kept s (State.progressIn p r x) := by
  unfold State.progressIn
  repeat' first
    | with_reducible assumption
    | with_reducible apply State.heard_kept
    | with_reducible apply State.count_kept
    | with_reducible apply modHarbour_kept
    | ((try lift_lets); intro y; first | (refine (fun (_ : Kept s y) => ?_) ?_; (on_goal 1 => clear_value y); (on_goal 2 => subst y)) | clear_value y | skip)
    | split

theorem State.bucketLate_kept {s x : State} (t : Table) (suspect waited : Nat) (h : Kept s x) :
    Kept s (State.bucketLate t suspect waited x) := by
  unfold State.bucketLate
  repeat' first
    | with_reducible assumption
    | with_reducible apply State.raise_kept
    | with_reducible apply State.ejectIn_kept
    | ((try lift_lets); intro y; first | (refine (fun (_ : Kept s y) => ?_) ?_; (on_goal 1 => clear_value y); (on_goal 2 => subst y)) | clear_value y | skip)
    | split

theorem State.cutOff_kept {s x : State} (p : Nat) (h : Kept s x) :
    Kept s (State.cutOff p x) := by
  unfold State.cutOff
  repeat' first
    | with_reducible assumption
    | with_reducible apply State.markLost_kept
    | with_reducible apply State.tryClose_kept
    | ((try lift_lets); intro y; first | (refine (fun (_ : Kept s y) => ?_) ?_; (on_goal 1 => clear_value y); (on_goal 2 => subst y)) | clear_value y | skip)
    | split

theorem State.endTransfer_kept {s x : State} (p : Nat) (h : Kept s x) :
    Kept s (State.endTransfer p x) := by
  unfold State.endTransfer
  repeat' first
    | with_reducible assumption
    | with_reducible apply State.releaseQuays_kept
    | with_reducible apply modSnap_kept
    | with_reducible apply State.tryCommit_kept
    | split

theorem State.suspendPartner_kept {s x : State} (p : Nat) (h : Kept s x) :
    Kept s (State.suspendPartner p x) := by
  unfold State.suspendPartner
  repeat' first
    | with_reducible assumption
    | with_reducible apply modJournal_kept
    | with_reducible apply modHarbour_kept
    | with_reducible apply State.endTransfer_kept
    | with_reducible apply State.finish_kept
    | ((try lift_lets); intro y; first | (refine (fun (_ : Kept s y) => ?_) ?_; (on_goal 1 => clear_value y); (on_goal 2 => subst y)) | clear_value y | skip)
    | split

theorem State.quarantinePort_kept {s x : State} (p cause : Nat) (loss : PortLoss) (h : Kept s x) :
    Kept s (State.quarantinePort p cause loss x) := by
  unfold State.quarantinePort
  repeat' first
    | with_reducible assumption
    | with_reducible apply setPort_kept
    | with_reducible apply State.engines_kept
    | with_reducible apply State.raise_kept
    | with_reducible apply State.portReform_kept
    | with_reducible apply State.cutOff_kept
    | with_reducible apply State.tryClose_kept
    | with_reducible apply State.suspendPartner_kept
    | ((try lift_lets); intro y; first | (refine (fun (_ : Kept s y) => ?_) ?_; (on_goal 1 => clear_value y); (on_goal 2 => subst y)) | clear_value y | skip)
    | split

theorem State.portDown_kept {s x : State} (p : Nat) (loss : PortLoss) (h : Kept s x) :
    Kept s (State.portDown p loss x) := by
  unfold State.portDown
  repeat' first
    | with_reducible assumption
    | with_reducible apply State.quarantinePort_kept
    | with_reducible apply setPort_kept
    | with_reducible apply State.count_kept
    | with_reducible apply State.cutOff_kept
    | ((try lift_lets); intro y; first | (refine (fun (_ : Kept s y) => ?_) ?_; (on_goal 1 => clear_value y); (on_goal 2 => subst y)) | clear_value y | skip)
    | split

theorem State.portRetrained_kept {s x : State} (p : Nat) (ok : Bool) (h : Kept s x) :
    Kept s (State.portRetrained p ok x) := by
  unfold State.portRetrained
  repeat' first
    | with_reducible assumption
    | with_reducible apply setPort_kept
    | with_reducible apply State.releaseFlits_kept
    | with_reducible apply State.quarantinePort_kept
    | ((try lift_lets); intro y; first | (refine (fun (_ : Kept s y) => ?_) ?_; (on_goal 1 => clear_value y); (on_goal 2 => subst y)) | clear_value y | skip)
    | split

theorem State.flitError_kept {s x : State} (p : Nat) (crc : Bool) (h : Kept s x) :
    Kept s (State.flitError p crc x) := by
  unfold State.flitError
  repeat' first
    | with_reducible assumption
    | with_reducible apply State.count_kept
    | with_reducible apply setPort_kept
    | with_reducible apply State.sendLink_kept
    | with_reducible apply State.noteNak_kept
    | ((try lift_lets); intro y; first | (refine (fun (_ : Kept s y) => ?_) ?_; (on_goal 1 => clear_value y); (on_goal 2 => subst y)) | clear_value y | skip)
    | split

theorem State.resendFrom_kept {s x : State} (p seq : Nat) (h : Kept s x) :
    Kept s (State.resendFrom p seq x) := by
  unfold State.resendFrom
  repeat' first
    | with_reducible assumption
    | with_reducible apply setPort_kept
    | with_reducible apply emit_kept
    | with_reducible apply State.emitFlits_kept
    | with_reducible apply State.count_kept
    | ((try lift_lets); intro y; first | (refine (fun (_ : Kept s y) => ?_) ?_; (on_goal 1 => clear_value y); (on_goal 2 => subst y)) | clear_value y | skip)
    | split

theorem State.ackBefore_kept {s x : State} (p seq : Nat) (h : Kept s x) :
    Kept s (State.ackBefore p seq x) := by
  unfold State.ackBefore
  repeat' first
    | with_reducible assumption
    | with_reducible apply setPort_kept

theorem State.nakIn_kept {s x : State} (p seq : Nat) (h : Kept s x) :
    Kept s (State.nakIn p seq x) := by
  unfold State.nakIn
  repeat' first
    | with_reducible assumption
    | with_reducible apply State.heard_kept
    | with_reducible apply State.count_kept
    | with_reducible apply State.noteNak_kept
    | with_reducible apply State.ackBefore_kept
    | with_reducible apply State.resendFrom_kept
    | split

theorem State.replayTimeout_kept {s x : State} (p : Nat) (h : Kept s x) :
    Kept s (State.replayTimeout p x) := by
  unfold State.replayTimeout
  repeat' first
    | with_reducible assumption
    | with_reducible apply State.resendFrom_kept
    | split

theorem State.flitAck_kept {s x : State} (p acked credits : Nat) (h : Kept s x) :
    Kept s (State.flitAck p acked credits x) := by
  unfold State.flitAck
  repeat' first
    | with_reducible assumption
    | with_reducible apply setPort_kept
    | with_reducible apply State.releaseFlits_kept

theorem State.codewordIn_kept {s x : State} (p : Nat) (cw : Bytes) (h : Kept s x) :
    Kept s (State.codewordIn p cw x) := by
  unfold State.codewordIn
  repeat' first
    | with_reducible assumption
    | with_reducible apply State.flitError_kept
    | with_reducible apply State.count_kept
    | with_reducible apply setPort_kept
    | with_reducible apply State.flitAck_kept
    | ((try lift_lets); intro y; first | (refine (fun (_ : Kept s y) => ?_) ?_; (on_goal 1 => clear_value y); (on_goal 2 => subst y)) | clear_value y | skip)
    | split

theorem State.unknownRecord_kept {s x : State} (p : Nat) (h : Kept s x) :
    Kept s (State.unknownRecord p x) := by
  unfold State.unknownRecord
  repeat' first
    | with_reducible assumption
    | with_reducible apply State.heard_kept
    | with_reducible apply State.count_kept
    | with_reducible apply State.noteNak_kept
    | split

end Sys2Proof.Machine
end

