-- ==== Sys2Proof/Laws/KeptTestOps.lean ====
section
/-! SUPPORT. That each operation of Machine/TestOps.lean keeps what `Kept` says (Laws/Kept.lean). -/

namespace Sys2Proof.Machine

theorem State.testFailEvent_kept {s x : State} (e : TestEntry) (h : Kept s x) :
    Kept s (State.testFailEvent e x) := by
  unfold State.testFailEvent
  repeat' first
    | with_reducible assumption
    | with_reducible apply State.raise_kept

theorem State.failStall_kept {s x : State} (i : Nat) (h : Kept s x) :
    Kept s (State.failStall i x) := by
  unfold State.failStall
  repeat' first
    | with_reducible assumption
    | with_reducible apply setStall_kept
    | with_reducible apply modTest_kept

theorem State.failPort_kept {s x : State} (p : Nat) (h : Kept s x) :
    Kept s (State.failPort p x) := by
  unfold State.failPort
  repeat' first
    | with_reducible assumption
    | with_reducible apply setPort_kept
    | with_reducible apply State.engines_kept
    | with_reducible apply State.portReform_kept
    | with_reducible apply State.cutOff_kept
    | with_reducible apply State.tryClose_kept
    | with_reducible apply State.suspendPartner_kept
    | ((try lift_lets); intro y; first | (refine (fun (_ : Kept s y) => ?_) ?_; (on_goal 1 => clear_value y); (on_goal 2 => subst y)) | clear_value y | skip)
    | split

theorem State.failEntry_kept {s x : State} (e : TestEntry) (h : Kept s x) :
    Kept s (State.failEntry e x) := by
  unfold State.failEntry
  repeat' first
    | with_reducible assumption
    | with_reducible apply State.testFailEvent_kept
    | with_reducible apply State.failStall_kept
    | with_reducible apply State.failPort_kept
    | with_reducible apply setQuay_kept
    | ((try lift_lets); intro y; first | (refine (fun (_ : Kept s y) => ?_) ?_; (on_goal 1 => clear_value y); (on_goal 2 => subst y)) | clear_value y | skip)
    | split

theorem State.zeroPile_kept {s x : State} (p : Nat) (h : Kept s x) : Kept s (State.zeroPile p x) := by
  unfold State.zeroPile
  refine modMem_kept _ (fun m hm => ?_) h
  simp only [Mem.wf, cellsWf_iff] at hm ⊢
  exact ⟨hm.1.filter _, fun c hc => hm.2 c (List.mem_of_mem_filter hc)⟩

theorem State.startTest_kept {s x : State} (r : TestReq) (h : Kept s x) :
    Kept s (State.startTest r x) := by
  unfold State.startTest
  repeat' first
    | with_reducible assumption
    | with_reducible apply State.lightTest_kept
    | with_reducible apply State.markTested_kept
    | with_reducible apply modTest_kept
    | with_reducible apply State.enter_kept
    | ((try lift_lets); intro y; first | (refine (fun (_ : Kept s y) => ?_) ?_; (on_goal 1 => clear_value y); (on_goal 2 => subst y)) | clear_value y | skip)
    | split

theorem State.startQueued_kept {s x : State} (h : Kept s x) :
    Kept s (State.startQueued x) := by
  unfold State.startQueued
  repeat' first
    | with_reducible assumption
    | with_reducible apply State.startTest_kept
    | split

theorem State.runTest_kept {s x : State} (c : Cmd) (h : Kept s x) :
    Kept s (State.runTest c x) := by
  unfold State.runTest
  repeat' first
    | with_reducible assumption
    | with_reducible apply State.setCmd_kept
    | with_reducible apply State.finish_kept
    | with_reducible apply modTest_kept
    | with_reducible apply State.count_kept
    | with_reducible apply State.startQueued_kept
    | ((try lift_lets); intro y; first | (refine (fun (_ : Kept s y) => ?_) ?_; (on_goal 1 => clear_value y); (on_goal 2 => subst y)) | clear_value y | skip)
    | split

theorem State.afterTest_kept {s x : State} (h : Kept s x) :
    Kept s (State.afterTest x) := by
  unfold State.afterTest
  repeat' first
    | with_reducible assumption
    | with_reducible apply State.startQueued_kept
    | with_reducible apply State.afterCommit_kept
    | with_reducible apply State.tryClose_kept
    | ((try lift_lets); intro y; first | (refine (fun (_ : Kept s y) => ?_) ?_; (on_goal 1 => clear_value y); (on_goal 2 => subst y)) | clear_value y | skip)
    | split

theorem State.stallFault_kept {s x : State} (es : List TestEntry) (h : Kept s x) :
    Kept s (State.stallFault es x) := by
  unfold State.stallFault
  repeat' first
    | with_reducible assumption
    | with_reducible apply State.moduleFault_kept
    | split

theorem State.testComplete_kept {s x : State} (responses : List (List (Nat × Nat))) (h : Kept s x) :
    Kept s (State.testComplete responses x) := by
  unfold State.testComplete
  repeat' first
    | with_reducible assumption
    | with_reducible apply State.darkTest_kept
    | with_reducible apply State.unmarkTested_kept
    | with_reducible apply State.toHost_kept
    | with_reducible apply modTest_kept
    | with_reducible apply State.zeroPile_kept
    | with_reducible apply State.enter_kept
    | with_reducible apply State.failEntry_kept
    | with_reducible apply State.finish_kept
    | with_reducible apply State.stallFault_kept
    | with_reducible apply State.afterTest_kept
    | (with_reducible apply foldl_kept; on_goal 2 => intros)
    | ((try lift_lets); intro y; first | (refine (fun (_ : Kept s y) => ?_) ?_; (on_goal 1 => clear_value y); (on_goal 2 => subst y)) | clear_value y | skip)
    | split

end Sys2Proof.Machine
end

