-- ==== Sys2Proof/Laws/KeptLifecycle.lean ====
section
/-! SUPPORT. That each operation of Machine/Lifecycle.lean keeps what `Kept` says (Laws/Kept.lean). -/

namespace Sys2Proof.Machine

theorem setSqs_kept {s x : State} (l : List Sq) (hl : l.length = 16) (h : Kept s x) : Kept s (x.modSqs fun _ => l) :=
  kept_trans h ⟨rfl, List.prefix_refl _, le_rfl, fun _ => le_rfl, fun i => ⟨i.memory, hl, i.cqs, i.stalls, i.quays, i.ports, i.vectors, i.log, i.counters, i.otp⟩⟩

theorem setCqs_kept {s x : State} (l : List Cq) (hl : l.length = 16) (h : Kept s x) : Kept s (x.modCqs fun _ => l) :=
  kept_trans h ⟨rfl, List.prefix_refl _, le_rfl, fun _ => le_rfl, fun i => ⟨i.memory, i.sqs, hl, i.stalls, i.quays, i.ports, i.vectors, i.log, i.counters, i.otp⟩⟩

theorem Telemetry.clearTensors_ok (t : Telemetry) (h : t.Ok) : t.clearTensors.Ok :=
  ⟨h.1.filter _, fun p hp => h.2 p (List.mem_of_mem_filter hp)⟩

/-- A new key adds a generation; a revocation keeps them. -/
theorem Boot.program_generation (b : Boot) (o : Bytes) (k : Nat) : b.generation k ≤ (b.program o).generation k := by
  unfold Boot.program Boot.generation Boot.gens
  dsimp only
  split
  · by_cases e : soSlot o = k
    · subst e
      by_cases l : soSlot o < b.slots.length
      · rw [modAt_getD_self _ _ _ _ l]; simp
      · simp [List.getD, List.getElem?_eq_none (Nat.le_of_not_lt l)]
    · rw [modAt_getD_ne _ _ _ _ _ e]
  · by_cases e : soSlot o = k
    · subst e
      by_cases l : soSlot o < b.slots.length
      · rw [modAt_getD_self _ _ _ _ l]; simp
      · simp [List.getD, List.getElem?_eq_none (Nat.le_of_not_lt l)]
    · rw [modAt_getD_ne _ _ _ _ _ e]

theorem Boot.program_svn (b : Boot) (o : Bytes) : (b.program o).svn = b.svn := by unfold Boot.program; dsimp only; split <;> rfl

theorem Boot.program_slots (b : Boot) (o : Bytes) : (b.program o).slots.length = b.slots.length := by
  unfold Boot.program; dsimp only; split <;> exact modAt_length _ _ _

theorem mem_modAt {α : Type} {i : Nat} {f : α → α} {l : List α} {x : α} (h : x ∈ modAt i f l) : x ∈ l ∨ ∃ y, l[i]? = some y ∧ x = f y := by
  induction l generalizing i with
  | nil => simp [modAt] at h
  | cons y ys ih =>
    cases i with
    | zero =>
      rcases List.mem_cons.mp (by simpa only [modAt] using h) with e | h
      · exact .inr ⟨y, by simp, e⟩
      · exact .inl (List.mem_cons_of_mem _ h)
    | succ i =>
      rcases List.mem_cons.mp (by simpa only [modAt] using h) with e | h
      · exact .inl (by simp [e])
      · rcases ih h with h | ⟨z, hz, e⟩
        · exact .inl (List.mem_cons_of_mem _ h)
        · exact .inr ⟨z, by simpa using hz, e⟩

/-- A checked enrolment never programs a fourth generation (R454). -/
theorem Boot.program_ok {b : Boot} {slot : Nat} {o : Bytes} (e : b.checkEnrol slot o = none) (h : b.Ok) : (b.program o).Ok := by
  refine ⟨(b.program_slots o).trans h.1, by rw [b.program_svn o]; exact h.2.1, fun g hg => ?_⟩
  unfold Boot.checkEnrol at e
  unfold Boot.program at hg
  dsimp only at hg
  split at e
  · cases e
  · split at e
    · cases e
    · rename_i hslot
      split at e
      · cases e
      · split at e
        · cases e
        · split at e
          · cases e
          · rename_i hfit
            split at hg
            · rename_i hact
              rcases mem_modAt hg with hg | ⟨y, hy, rfl⟩
              · exact h.2.2 g hg
              · have hf : b.generationFits o = true := by simpa using hfit
                unfold Boot.generationFits at hf
                simp only [hact, if_true, Bool.and_eq_true, beq_iff_eq, decide_eq_true_eq] at hf
                have hgen : b.generation (soSlot o) = y.length := by
                  simp [Boot.generation, Boot.gens, List.getD_eq_getElem?_getD, hy]
                simp only [List.length_append, List.length_cons, List.length_nil]
                omega
            · rcases mem_modAt hg with hg | ⟨y, hy, rfl⟩
              · exact h.2.2 g hg
              · have := h.2.2 y (List.mem_of_getElem? hy)
                simpa using this

theorem Boot.patch_ok {b : Boot} {o : Bytes} (e : b.checkPatch o = none) (h : b.Ok) : max b.svn (soSvn o) ≤ svnMaximum := by
  unfold Boot.checkPatch at e
  split at e
  · cases e
  · dsimp only at e
    split at e
    · cases e
    · split at e
      · cases e
      · rename_i hs
        have h1 := h.2.1
        simp only [Bool.or_eq_true, decide_eq_true_eq] at hs
        omega

theorem Boot.loadPatch_otp (b : Boot) : b.loadPatch.1.svn = b.svn ∧ b.loadPatch.1.slots = b.slots := by
  unfold Boot.loadPatch; split
  · exact ⟨rfl, rfl⟩
  · split <;> exact ⟨rfl, rfl⟩

theorem State.zeroPages_kept {s x : State} (l : List Nat) (h : Kept s x) :
    Kept s (State.zeroPages l x) := by
  unfold State.zeroPages
  repeat' first
    | with_reducible assumption
    | with_reducible apply modMem_kept
    | (with_reducible apply foldl_kept; on_goal 2 => intros)
    | exact fun _ h => h
    | exact fun h => h
    | exact fun _ h => Mem.zero_wf _ _ h

theorem State.keepFlash_kept {s x : State} (t : Table) (h : Kept s x) :
    Kept s (State.keepFlash t x) := by
  unfold State.keepFlash
  repeat' first
    | with_reducible assumption
    | with_reducible apply modBoot_kept
    | with_reducible apply modJournal_kept
    | with_reducible apply modSnap_kept
    | exact fun _ h => h
    | exact fun h => h
    | exact le_rfl
    | exact fun _ => le_rfl

theorem State.activate_kept {s x : State} (t : Table) (h : Kept s x) :
    Kept s (State.activate t x) := by
  unfold State.activate
  repeat' first
    | with_reducible assumption
    | with_reducible apply State.endShadow_kept
    | with_reducible apply State.zeroPages_kept
    | with_reducible apply modMem_kept
    | with_reducible apply modJob_kept
    | with_reducible apply State.keepFlash_kept
    | with_reducible apply modTm_kept
    | with_reducible apply modRun_kept
    | with_reducible apply modStalls_kept
    | with_reducible apply modQuays_kept
    | with_reducible apply modHarbour_kept
    | with_reducible apply modPower_kept
    | with_reducible apply State.capChanged_kept
    | with_reducible apply State.setDomains_kept
    | with_reducible apply State.enter_kept
    | with_reducible apply State.writeNow_kept
    | exact fun _ => List.length_map _
    | exact fun _ => (List.length_map _).trans List.length_zipIdx
    | exact fun _ h => h
    | exact fun h => h
    | exact Telemetry.clearTensors_ok _ ‹_›
    | exact fun t ht => t.clearTensors_ok ht
    | refine fun (_ : State) (_ : Kept s _) => ?_

theorem State.loadTable_kept {s x : State} (sq cid : Nat) (b : Bytes) (h : Kept s x) :
    Kept s (State.loadTable sq cid b x) := by
  unfold State.loadTable
  repeat' first
    | with_reducible assumption
    | with_reducible apply State.raiseModule_kept
    | with_reducible apply State.finish_kept
    | with_reducible apply State.activate_kept
    | ((try lift_lets); intro y; first | (refine (fun (_ : Kept s y) => ?_) ?_; (on_goal 1 => clear_value y); (on_goal 2 => subst y)) | clear_value y | skip)
    | split

theorem State.unload_kept {s x : State} (h : Kept s x) :
    Kept s (State.unload x) := by
  unfold State.unload
  repeat' first
    | with_reducible assumption
    | with_reducible apply State.outOfHarbour_kept
    | with_reducible apply State.zeroPages_kept
    | with_reducible apply modMem_kept
    | with_reducible apply modJob_kept
    | with_reducible apply modJournal_kept
    | with_reducible apply modSnap_kept
    | with_reducible apply modRun_kept
    | with_reducible apply modStalls_kept
    | with_reducible apply modQuays_kept
    | with_reducible apply State.setDomains_kept
    | with_reducible apply modPower_kept
    | with_reducible apply State.enter_kept
    | exact fun _ => List.length_map _
    | exact fun _ => (List.length_map _).trans List.length_zipIdx
    | exact fun _ h => h

theorem State.objectEvents_kept {s x : State} (obj c : Nat) (o : Bytes) (h : Kept s x) :
    Kept s (State.objectEvents obj c o x) := by
  unfold State.objectEvents
  repeat' first
    | with_reducible assumption
    | with_reducible apply State.raiseModule_kept
    | ((try lift_lets); intro y; first | (refine (fun (_ : Kept s y) => ?_) ?_; (on_goal 1 => clear_value y); (on_goal 2 => subst y)) | clear_value y | skip)
    | split

theorem State.applyPatch_kept {s x : State} (sq cid : Nat) (o : Bytes) (h : Kept s x) :
    Kept s (State.applyPatch sq cid o x) := by
  unfold State.applyPatch
  split
  · exact State.finish_kept _ _ _ _ _ (State.objectEvents_kept _ _ _ h)
  · exact State.finish_kept _ _ _ _ _ (modBoot_kept _ (le_max_left _ _) (fun _ => le_rfl) (fun e => ⟨e.1, Boot.patch_ok ‹_› e, e.2.2⟩) h)

theorem State.enrolKey_kept {s x : State} (sq cid slot : Nat) (o : Bytes) (h : Kept s x) :
    Kept s (State.enrolKey sq cid slot o x) := by
  unfold State.enrolKey
  split
  · exact State.finish_kept _ _ _ _ _ (State.objectEvents_kept _ _ _ h)
  · exact State.finish_kept _ _ _ _ _ (modBoot_kept _ (Nat.le_of_eq (Boot.program_svn _ o).symm)
      (fun k => Boot.program_generation _ o k) (fun e => Boot.program_ok ‹_› e) h)

theorem State.forget_kept {s x : State} (mode : ModuleState) (domains : BitVec 99) (h : Kept s x) :
    Kept s (State.forget mode domains x) :=
  kept_trans h ⟨rfl, List.prefix_refl _, le_rfl, fun _ => le_rfl, fun i => ⟨i.memory, List.length_replicate, List.length_replicate,
    List.length_replicate, List.length_replicate, List.length_replicate, List.length_replicate,
    ⟨Nat.zero_le _, fun r hr => (Option.not_mem_none r hr).elim, List.IsChain.nil⟩, ⟨List.Pairwise.nil, by intro p hp; cases hp⟩, i.otp⟩⟩

theorem State.bootFailure_kept {s x : State} (i : Nat) (h : Kept s x) :
    Kept s (State.bootFailure i x) := by
  unfold State.bootFailure
  repeat' first
    | with_reducible assumption
    | with_reducible apply State.takeFree_kept
    | with_reducible apply State.raise_kept
    | with_reducible apply State.failStall_kept

theorem State.finishBoot_kept {s x : State} (failed : List Nat) (h : Kept s x) :
    Kept s (State.finishBoot failed x) := by
  have hb : Kept s (x.modBoot fun _ => x.boot.loadPatch.1) := by
    obtain ⟨e, g⟩ := x.boot.loadPatch_otp
    refine kept_trans h ⟨rfl, List.prefix_refl _, Nat.le_of_eq e.symm, fun k => ?_, fun i => ⟨i.memory, i.sqs, i.cqs, i.stalls, i.quays, i.ports,
      i.vectors, i.log, i.counters, ?_⟩⟩
    · simp only [State.modBoot_boot, Boot.generation, Boot.gens, g]; exact le_rfl
    · have := i.otp
      simp only [State.modBoot_boot, Boot.Ok, e, g] at this ⊢
      exact this
  unfold State.finishBoot
  dsimp only
  apply State.enter_kept
  have h1 := modPower_kept (fun x => { x with domains := inertDomains, pwrGood := true }) hb
  repeat' first
    | with_reducible assumption
    | with_reducible apply State.raiseModule_kept
    | with_reducible apply State.objectEvents_kept
    | with_reducible apply State.bootFailure_kept
    | (with_reducible apply foldl_kept; on_goal 2 => intros)
    | split

theorem State.moduleReset_kept {s x : State} (failed : List Nat) (h : Kept s x) :
    Kept s (State.moduleReset failed x) := by
  unfold State.moduleReset
  repeat' first
    | with_reducible assumption
    | with_reducible apply State.forget_kept
    | with_reducible apply modPower_kept
    | with_reducible apply State.finishBoot_kept
    | ((try lift_lets); intro y; first | (refine (fun (_ : Kept s y) => ?_) ?_; (on_goal 1 => clear_value y); (on_goal 2 => subst y)) | clear_value y | skip)
    | split

theorem State.toStandby_kept {s x : State} (h : Kept s x) : Kept s (State.toStandby x) := by
  unfold State.toStandby
  split
  · exact h
  · exact modMem_kept (fun _ => Mem.reset) (fun _ _ => Mem.reset_wf) (State.forget_kept .standby standbyDomains h)

theorem State.trainLink_kept {s x : State} (h : Kept s x) :
    Kept s (State.trainLink x) := by
  unfold State.trainLink
  repeat' first
    | with_reducible assumption
    | with_reducible apply State.takeFree_kept
    | with_reducible apply modPcie_kept
    | refine kept_of_eq (by assumption) ?_
    | exact fun _ h => h

theorem State.startUp_kept {s x : State} (failed : List Nat) (h : Kept s x) :
    Kept s (State.startUp failed x) := by
  unfold State.startUp
  repeat' first
    | with_reducible assumption
    | with_reducible apply State.forget_kept
    | with_reducible apply State.trainLink_kept
    | with_reducible apply State.finishBoot_kept
    | ((try lift_lets); intro y; first | (refine (fun (_ : Kept s y) => ?_) ?_; (on_goal 1 => clear_value y); (on_goal 2 => subst y)) | clear_value y | skip)
    | split

theorem State.runWithoutHost_kept {s x : State} (h : Kept s x) :
    Kept s (State.runWithoutHost x) := by
  unfold State.runWithoutHost
  repeat' first
    | with_reducible assumption
    | with_reducible apply State.moduleFault_kept
    | with_reducible apply State.abandonAttempt_kept
    | with_reducible apply State.endRun_kept
    | with_reducible apply modRun_kept
    | split

theorem State.snapWithoutHost_kept {s x : State} (h : Kept s x) :
    Kept s (State.snapWithoutHost x) := by
  unfold State.snapWithoutHost
  repeat' first
    | with_reducible assumption
    | with_reducible apply State.abandonSnapshot_kept
    | with_reducible apply modSnap_kept
    | ((try lift_lets); intro y; first | (refine (fun (_ : Kept s y) => ?_) ?_; (on_goal 1 => clear_value y); (on_goal 2 => subst y)) | clear_value y | skip)
    | split

theorem State.testsWithoutHost_kept {s x : State} (h : Kept s x) :
    Kept s (State.testsWithoutHost x) := by
  unfold State.testsWithoutHost
  repeat' first
    | with_reducible assumption
    | with_reducible apply modTest_kept

theorem State.hostGone_kept {s x : State} (h : Kept s x) :
    Kept s (State.hostGone x) := by
  unfold State.hostGone
  repeat' first
    | with_reducible assumption
    | with_reducible apply modPcie_kept
    | with_reducible apply State.violation_kept
    | with_reducible apply modSqs_kept
    | with_reducible apply modCqs_kept
    | with_reducible apply modCmds_kept
    | with_reducible apply State.testsWithoutHost_kept
    | with_reducible apply State.snapWithoutHost_kept
    | with_reducible apply State.runWithoutHost_kept
    | with_reducible apply modJob_kept
    | exact fun _ => List.length_map _
    | exact fun _ => (List.length_map _).trans List.length_zipIdx
    | exact fun _ h => h
    | exact fun h => h
    | ((try lift_lets); intro y; first | (refine (fun (_ : Kept s y) => ?_) ?_; (on_goal 1 => clear_value y); (on_goal 2 => subst y)) | clear_value y | skip)
    | split

theorem State.resetQueues_kept {s x : State} (h : Kept s x) : Kept s (State.resetQueues x) :=
  modPcie_kept _ (fun _ _ => List.length_replicate) (setCqs_kept _ List.length_replicate (setSqs_kept _ List.length_replicate h))

theorem State.resetHostRegs_kept {s x : State} (h : Kept s x) :
    Kept s (State.resetHostRegs x) := by
  unfold State.resetHostRegs
  repeat' first
    | with_reducible assumption
    | with_reducible apply modLog_kept
    | with_reducible apply modTm_kept
    | with_reducible apply modSnap_kept
    | exact fun _ h => h
    | exact fun h => h

theorem State.functionReset_kept {s x : State} (h : Kept s x) :
    Kept s (State.functionReset x) := by
  unfold State.functionReset
  repeat' first
    | with_reducible assumption
    | with_reducible apply State.hostGone_kept
    | with_reducible apply State.resetQueues_kept
    | with_reducible apply State.resetHostRegs_kept

theorem State.settleReset_kept {s x : State} (h : Kept s x) :
    Kept s (State.settleReset x) := by
  unfold State.settleReset
  repeat' first
    | with_reducible assumption
    | with_reducible apply State.takeFree_kept
    | with_reducible apply State.moduleReset_kept
    | refine kept_of_eq (by assumption) ?_
    | split

theorem State.requestReset_kept {s x : State} (h : Kept s x) :
    Kept s (State.requestReset x) := by
  unfold State.requestReset
  repeat' first
    | with_reducible assumption
    | with_reducible apply State.hostGone_kept
    | with_reducible apply State.resetQueues_kept
    | with_reducible apply State.depart_kept
    | with_reducible apply modBoot_kept
    | with_reducible apply State.settleReset_kept
    | exact fun _ h => h
    | exact fun h => h
    | exact le_rfl
    | exact fun _ => le_rfl
    | exact fun h => h
    | ((try lift_lets); intro y; first | (refine (fun (_ : Kept s y) => ?_) ?_; (on_goal 1 => clear_value y); (on_goal 2 => subst y)) | clear_value y | skip)
    | split

theorem State.sealMirror_kept {s x : State} (c : Commit) (h : Kept s x) :
    Kept s (State.sealMirror c x) := by
  unfold State.sealMirror
  repeat' first
    | with_reducible assumption
    | with_reducible apply State.takeFree_kept
    | with_reducible apply State.mirrorTimeout_kept
    | refine kept_of_eq (by assumption) ?_
    | ((try lift_lets); intro y; first | (refine (fun (_ : Kept s y) => ?_) ?_; (on_goal 1 => clear_value y); (on_goal 2 => subst y)) | (refine (fun (_ : Kept s y.2) => ?_) ?_; (on_goal 1 => clear_value y); (on_goal 2 => subst y)) | clear_value y | skip)
    | split

theorem State.sealCommit_kept {s x : State} (h : Kept s x) :
    Kept s (State.sealCommit x) := by
  unfold State.sealCommit
  repeat' first
    | with_reducible assumption
    | with_reducible apply State.appendOwn_kept
    | with_reducible apply State.sealMirror_kept
    | with_reducible apply modJournal_kept
    | with_reducible apply State.snapshotDone_kept
    | with_reducible apply State.countTensors_kept
    | with_reducible apply State.countStep_kept
    | with_reducible apply State.advance_kept
    | ((try lift_lets); intro y; first | (refine (fun (_ : Kept s y) => ?_) ?_; (on_goal 1 => clear_value y); (on_goal 2 => subst y)) | clear_value y | skip)
    | split

theorem State.powerFail_kept {s x : State} (mv : Nat) (h : Kept s x) :
    Kept s (State.powerFail mv x) := by
  unfold State.powerFail
  repeat' first
    | with_reducible assumption
    | with_reducible apply State.abandonAttempt_kept
    | with_reducible apply State.sealCommit_kept
    | with_reducible apply State.sendFault_kept
    | with_reducible apply State.powerFailRecord_kept
    | with_reducible apply State.enterFaulted_kept
    | ((try lift_lets); intro y; first | (refine (fun (_ : Kept s y) => ?_) ?_; (on_goal 1 => clear_value y); (on_goal 2 => subst y)) | clear_value y | skip)
    | split

end Sys2Proof.Machine
end

