-- ==== Sys2Proof/Laws/KeptHostCmds.lean ====
section
/-! SUPPORT. That each operation of Machine/HostCmds.lean keeps what `Kept` says (Laws/Kept.lean). -/

namespace Sys2Proof.Machine

theorem State.markStarted_kept {s x : State} (c : Cmd) (h : Kept s x) :
    Kept s (State.markStarted c x) := by
  unfold State.markStarted
  repeat' first
    | with_reducible assumption
    | with_reducible apply State.setCmd_kept

theorem State.identify_kept {s x : State} (c : Cmd) (h : Kept s x) :
    Kept s (State.identify c x) := by
  unfold State.identify
  repeat' first
    | with_reducible assumption
    | with_reducible apply State.toHost_kept
    | with_reducible apply State.finishCmd_kept

theorem State.sampleTelemetry_kept {s x : State} (c : Cmd) (h : Kept s x) :
    Kept s (State.sampleTelemetry c x) := by
  unfold State.sampleTelemetry
  repeat' first
    | with_reducible assumption
    | with_reducible apply State.toHost_kept
    | with_reducible apply State.finishCmd_kept

theorem State.attest_kept {s x : State} (c : Cmd) (h : Kept s x) :
    Kept s (State.attest c x) := by
  unfold State.attest
  repeat' first
    | with_reducible assumption
    | with_reducible apply State.toHost_kept
    | with_reducible apply State.finishCmd_kept

theorem State.exportJournal_kept {s x : State} (c : Cmd) (h : Kept s x) :
    Kept s (State.exportJournal c x) := by
  unfold State.exportJournal
  repeat' first
    | with_reducible assumption
    | with_reducible apply State.toHost_kept
    | with_reducible apply State.finishCmd_kept

theorem State.retain_kept {s x : State} (c : Cmd) (d : Bytes) (h : Kept s x) :
    Kept s (State.retain c d x) := by
  unfold State.retain
  repeat' first
    | with_reducible assumption
    | with_reducible apply modJob_kept
    | with_reducible apply State.endWait_kept
    | with_reducible apply State.finishCmd_kept
    | ((try lift_lets); intro y; first | (refine (fun (_ : Kept s y) => ?_) ?_; (on_goal 1 => clear_value y); (on_goal 2 => subst y)) | clear_value y | skip)
    | split

theorem State.feedBatch_kept {s x : State} (c : Cmd) (data : Bytes) (h : Kept s x) :
    Kept s (State.feedBatch c data x) := by
  unfold State.feedBatch
  repeat' first
    | with_reducible assumption
    | with_reducible apply State.finishCmd_kept
    | with_reducible apply State.retain_kept
    | ((try lift_lets); intro y; first | (refine (fun (_ : Kept s y) => ?_) ?_; (on_goal 1 => clear_value y); (on_goal 2 => subst y)) | clear_value y | skip)
    | split

theorem State.feedResult_kept {s x : State} (c : Cmd) (data : Bytes) (h : Kept s x) :
    Kept s (State.feedResult c data x) := by
  unfold State.feedResult
  repeat' first
    | with_reducible assumption
    | with_reducible apply State.hostResult_kept
    | with_reducible apply State.finishCmd_kept
    | ((try lift_lets); intro y; first | (refine (fun (_ : Kept s y) => ?_) ?_; (on_goal 1 => clear_value y); (on_goal 2 => subst y)) | clear_value y | skip)
    | split

theorem State.runSteps_kept {s x : State} (c : Cmd) (h : Kept s x) :
    Kept s (State.runSteps c x) := by
  unfold State.runSteps
  repeat' first
    | with_reducible assumption
    | with_reducible apply State.finishCmd_kept
    | with_reducible apply State.startRun_kept
    | split

theorem State.startServing_kept {s x : State} (t : Table) (h : Kept s x) :
    Kept s (State.startServing t x) := by
  unfold State.startServing
  repeat' first
    | with_reducible assumption
    | with_reducible apply modRun_kept
    | with_reducible apply State.enter_kept
    | with_reducible apply State.passBarriers_kept
    | with_reducible apply State.capThrottleEvent_kept
    | ((try lift_lets); intro y; first | (refine (fun (_ : Kept s y) => ?_) ?_; (on_goal 1 => clear_value y); (on_goal 2 => subst y)) | clear_value y | skip)
    | split

theorem State.serve_kept {s x : State} (c : Cmd) (prompt : Bytes) (h : Kept s x) :
    Kept s (State.serve c prompt x) := by
  unfold State.serve
  repeat' first
    | with_reducible assumption
    | with_reducible apply State.finishCmd_kept
    | with_reducible apply State.startServing_kept
    | with_reducible apply State.markStarted_kept
    | with_reducible apply modRun_kept
    | ((try lift_lets); intro y; first | (refine (fun (_ : Kept s y) => ?_) ?_; (on_goal 1 => clear_value y); (on_goal 2 => subst y)) | clear_value y | skip)
    | split

theorem State.halt_kept {s x : State} (c : Cmd) (h : Kept s x) :
    Kept s (State.halt c x) := by
  unfold State.halt
  repeat' first
    | with_reducible assumption
    | with_reducible apply State.markStarted_kept
    | with_reducible apply State.finishHalts_kept
    | split

theorem State.askSnapshot_kept {s x : State} (c : Cmd) (h : Kept s x) :
    Kept s (State.askSnapshot c x) := by
  unfold State.askSnapshot
  repeat' first
    | with_reducible assumption
    | with_reducible apply State.finishCmd_kept
    | with_reducible apply State.markStarted_kept
    | with_reducible apply modSnap_kept
    | split

theorem State.load_kept {s x : State} (c : Cmd) (data : Bytes) (h : Kept s x) :
    Kept s (State.load c data x) := by
  unfold State.load
  repeat' first
    | with_reducible assumption
    | with_reducible apply State.finishCmd_kept
    | with_reducible apply State.loadTable_kept
    | split

theorem State.dropJobCmds_kept {s x : State} (h : Kept s x) :
    Kept s (State.dropJobCmds x) := by
  unfold State.dropJobCmds
  repeat' first
    | with_reducible assumption
    | with_reducible apply State.finishHalts_kept
    | with_reducible apply State.finishAll_kept
    | with_reducible apply State.finishServes_kept

theorem State.unloadTable_kept {s x : State} (c : Cmd) (h : Kept s x) :
    Kept s (State.unloadTable c x) := by
  unfold State.unloadTable
  repeat' first
    | with_reducible assumption
    | with_reducible apply State.unload_kept
    | with_reducible apply State.finishCmd_kept
    | with_reducible apply State.dropJobCmds_kept
    | split

theorem State.restoreWith_kept {s x : State} (source : Nat) (c : Cmd) (f : Table → State → State) (h_f : ∀ a0 y, Kept s y → Kept s (f a0 y)) (h : Kept s x) :
    Kept s (State.restoreWith source c f x) := by
  unfold State.restoreWith
  repeat' first
    | with_reducible assumption
    | with_reducible apply h_f
    | with_reducible apply State.finishCmd_kept
    | with_reducible apply State.markStarted_kept
    | split

theorem State.joinCmd_kept {s x : State} (c : Cmd) (block : Bytes) (h : Kept s x) :
    Kept s (State.joinCmd c block x) := by
  unfold State.joinCmd
  repeat' first
    | with_reducible assumption
    | with_reducible apply State.finishCmd_kept
    | with_reducible apply State.markStarted_kept
    | with_reducible apply State.joinHarbour_kept
    | split

theorem State.leaveCmd_kept {s x : State} (c : Cmd) (h : Kept s x) :
    Kept s (State.leaveCmd c x) := by
  unfold State.leaveCmd
  repeat' first
    | with_reducible assumption
    | with_reducible apply State.leaveHarbour_kept
    | with_reducible apply State.finishCmd_kept
    | split

theorem State.testCmd_kept {s x : State} (c : Cmd) (h : Kept s x) :
    Kept s (State.testCmd c x) := by
  unfold State.testCmd
  repeat' first
    | with_reducible assumption
    | with_reducible apply State.finishCmd_kept
    | with_reducible apply State.runTest_kept
    | split

theorem State.applyCap_kept {s x : State} (w : Nat) (h : Kept s x) :
    Kept s (State.applyCap w x) := by
  unfold State.applyCap
  repeat' first
    | with_reducible assumption
    | with_reducible apply State.capChanged_kept
    | with_reducible apply modPower_kept
    | refine fun (_ : State) (_ : Kept s _) => ?_

theorem State.setPowerCap_kept {s x : State} (c : Cmd) (h : Kept s x) :
    Kept s (State.setPowerCap c x) := by
  unfold State.setPowerCap
  repeat' first
    | with_reducible assumption
    | with_reducible apply State.finishAll_kept
    | with_reducible apply State.markStarted_kept
    | with_reducible apply modPower_kept
    | with_reducible apply State.applyCap_kept
    | with_reducible apply State.finishCmd_kept
    | ((try lift_lets); intro y; first | (refine (fun (_ : Kept s y) => ?_) ?_; (on_goal 1 => clear_value y); (on_goal 2 => subst y)) | clear_value y | skip)
    | split

end Sys2Proof.Machine
end

