-- ==== Sys2Proof/Laws/Noted.lean ====
section
/-! SUPPORT. What notes (interrupts, counters, events, violations) and completions leave unchanged, once for each shared operation
and then field by field. -/

namespace Sys2Proof.Machine

theorem noted_refl (s : State) : s.Noted s :=
  ⟨rfl, List.prefix_refl _, rfl, rfl, rfl, rfl, rfl, rfl, rfl, rfl, rfl, rfl, rfl, rfl, rfl, rfl, rfl, rfl, rfl, rfl, rfl⟩

theorem noted_trans {s t u : State} (h : s.Noted t) (g : t.Noted u) : s.Noted u := by
  constructor
  case sent => exact h.sent.trans g.sent
  case pcie => rw [g.pcie, h.pcie]
  case pending => exact g.pending.trans h.pending
  case freeCtr => exact g.freeCtr.trans h.freeCtr
  case usec => exact g.usec.trans h.usec
  case power => exact g.power.trans h.power
  case boot => exact g.boot.trans h.boot
  case sqs => exact g.sqs.trans h.sqs
  case cqs => exact g.cqs.trans h.cqs
  case sqTurn => exact g.sqTurn.trans h.sqTurn
  case cmds => exact g.cmds.trans h.cmds
  case job => exact g.job.trans h.job
  case mem => exact g.mem.trans h.mem
  case run => exact g.run.trans h.run
  case stalls => exact g.stalls.trans h.stalls
  case quays => exact g.quays.trans h.quays
  case snap => exact g.snap.trans h.snap
  case journal => exact g.journal.trans h.journal
  case harbour => exact g.harbour.trans h.harbour
  case ports => exact g.ports.trans h.ports
  case test => exact g.test.trans h.test

theorem State.Noted.reported {s t : State} (h : s.Noted t) : s.Reported t :=
  ⟨h.pending, h.sent, h.freeCtr, h.usec, h.power, h.boot, h.pcie, h.sqs, h.sqTurn, h.job, h.mem, h.run, h.stalls, h.quays, h.snap,
    h.journal, h.harbour, h.ports, h.test⟩

theorem reported_trans {s t u : State} (h : s.Reported t) (g : t.Reported u) : s.Reported u := by
  constructor
  case sent => exact h.sent.trans g.sent
  case pcie => rw [g.pcie, h.pcie]
  case pending => exact g.pending.trans h.pending
  case freeCtr => exact g.freeCtr.trans h.freeCtr
  case usec => exact g.usec.trans h.usec
  case power => exact g.power.trans h.power
  case boot => exact g.boot.trans h.boot
  case sqs => exact g.sqs.trans h.sqs
  case sqTurn => exact g.sqTurn.trans h.sqTurn
  case job => exact g.job.trans h.job
  case mem => exact g.mem.trans h.mem
  case run => exact g.run.trans h.run
  case stalls => exact g.stalls.trans h.stalls
  case quays => exact g.quays.trans h.quays
  case snap => exact g.snap.trans h.snap
  case journal => exact g.journal.trans h.journal
  case harbour => exact g.harbour.trans h.harbour
  case ports => exact g.ports.trans h.ports
  case test => exact g.test.trans h.test

/-! ## The operations -/

theorem emit_noted (s : State) (o : Output) : s.Noted (s.emit o) :=
  ⟨rfl, List.prefix_append _ _, rfl, rfl, rfl, rfl, rfl, rfl, rfl, rfl, rfl, rfl, rfl, rfl, rfl, rfl, rfl, rfl, rfl, rfl, rfl⟩

theorem modLog_noted (s : State) (f : EventLog → EventLog) : s.Noted (s.modLog f) :=
  ⟨rfl, List.prefix_refl _, rfl, rfl, rfl, rfl, rfl, rfl, rfl, rfl, rfl, rfl, rfl, rfl, rfl, rfl, rfl, rfl, rfl, rfl, rfl⟩

theorem modTm_noted (s : State) (f : Telemetry → Telemetry) : s.Noted (s.modTm f) :=
  ⟨rfl, List.prefix_refl _, rfl, rfl, rfl, rfl, rfl, rfl, rfl, rfl, rfl, rfl, rfl, rfl, rfl, rfl, rfl, rfl, rfl, rfl, rfl⟩

theorem setPend_noted (s : State) (f : List Nat → List Nat) : s.Noted (s.modPcie fun p => { p with msixPend := f p.msixPend }) :=
  ⟨rfl, List.prefix_refl _, rfl, rfl, rfl, rfl, rfl, rfl, rfl, rfl, rfl, rfl, rfl, rfl, rfl, rfl, rfl, rfl, rfl, rfl, rfl⟩

theorem State.msix_noted (v : Nat) (s : State) : s.Noted (s.msix v) := by
  unfold State.msix
  split
  · exact noted_refl s
  · dsimp only
    split
    · exact setPend_noted s (setAdd v)
    · exact emit_noted s _

theorem State.countLoss_noted (s : State) : s.Noted s.countLoss := by
  unfold State.countLoss
  split
  · exact modTm_noted s _
  · exact noted_refl s

theorem State.signalLog_noted (s : State) : s.Noted s.signalLog := by
  unfold State.signalLog
  split
  · exact noted_trans (modLog_noted s _) (State.msix_noted _ _)
  · exact noted_refl s

theorem State.enterRecord_noted (code kind index : Nat) (detail : Bytes) (s : State) : s.Noted (s.enterRecord code kind index detail) :=
  noted_trans (noted_trans s.countLoss_noted (modLog_noted _ _)) (State.signalLog_noted _)

theorem State.raise_noted (code kind index : Nat) (fs : List (Nat × Nat × Nat)) (s : State) : s.Noted (s.raise code kind index fs) := by
  unfold State.raise
  split
  · exact noted_trans (s.enterRecord_noted code kind index _) (State.enterRecord_noted _ _ _ _ _)
  · exact s.enterRecord_noted code kind index _

theorem State.raiseModule_noted (code : Nat) (fs : List (Nat × Nat × Nat)) (s : State) : s.Noted (s.raiseModule code fs) :=
  s.raise_noted code srcModule 0xFFFF fs

theorem State.count_noted (o n : Nat) (s : State) : s.Noted (s.count o n) := by
  unfold State.count
  split
  · exact noted_trans (modTm_noted s _) (State.raise_noted _ _ _ _ _)
  · exact modTm_noted s _

theorem State.violation_noted (cls : Nat) (queue : Option Nat) (opcode cid addr : Nat) (s : State) :
    s.Noted (s.violation cls queue opcode cid addr) := by
  unfold State.violation
  dsimp only
  repeat' split
  all_goals first
    | exact s.count_noted _ _
    | exact noted_trans (noted_trans (s.count_noted _ _) (modLog_noted _ _)) (State.raise_noted _ _ _ _ _)

theorem State.toHost_noted (sq cid off : Nat) (data : Bytes) (s : State) : s.Noted (s.toHost sq cid off data) := emit_noted s _

theorem modCqs_reported (s : State) (f : List Cq → List Cq) : s.Reported (s.modCqs f) :=
  ⟨rfl, List.prefix_refl _, rfl, rfl, rfl, rfl, rfl, rfl, rfl, rfl, rfl, rfl, rfl, rfl, rfl, rfl, rfl, rfl, rfl⟩

theorem modCmds_reported (s : State) (f : List Cmd → List Cmd) : s.Reported (s.modCmds f) :=
  ⟨rfl, List.prefix_refl _, rfl, rfl, rfl, rfl, rfl, rfl, rfl, rfl, rfl, rfl, rfl, rfl, rfl, rfl, rfl, rfl, rfl⟩

theorem State.write_reported (q : Nat) (e : Entry) (s : State) : s.Reported (s.write q e) := by
  have h : s.Reported ((s.emitEntry q ((s.cq q).base + 32 * (s.cq q).tail)
      (e.bytes (if e.sq = 0xFF then 0 else (s.sq e.sq).head) (s.cq q).phase)).setCq q Cq.advance) :=
    reported_trans (noted_trans (emit_noted s _) (emit_noted _ _)).reported (modCqs_reported _ _)
  unfold State.write
  dsimp only
  split
  · exact reported_trans h (State.msix_noted _ _).reported
  · exact h

theorem State.post_reported (q : Nat) (e : Entry) (s : State) : s.Reported (s.post q e) := by
  unfold State.post
  dsimp only
  split
  · exact (noted_refl s).reported
  · split
    · exact modCqs_reported s _
    · exact s.write_reported q e

theorem State.finishCmd_reported (c : Cmd) (st : Status) (r0 r1 : Nat) (s : State) : s.Reported (s.finishCmd c st r0 r1) := by
  have h := modCmds_reported s fun l => l.filter fun d => !(d.sq == c.sq && d.cid == c.cid)
  unfold State.finishCmd
  dsimp only
  split
  · exact reported_trans h (State.post_reported _ _ _)
  · exact reported_trans (reported_trans (reported_trans h (State.count_noted _ _ _).reported) (State.raise_noted _ _ _ _ _).reported)
      (State.post_reported _ _ _)

theorem State.finish_reported (sq cid : Nat) (st : Status) (r0 r1 : Nat) (s : State) : s.Reported (s.finish sq cid st r0 r1) := by
  unfold State.finish
  split
  · exact (noted_refl s).reported
  · exact s.finishCmd_reported _ _ _ _

theorem State.finishAll_reported (l : List Cmd) (st : Status) (r0 r1 : Nat) (s : State) : s.Reported (s.finishAll l st r0 r1) := by
  unfold State.finishAll
  induction l generalizing s with
  | nil => exact (noted_refl s).reported
  | cons c l ih => exact reported_trans (s.finishCmd_reported c st r0 r1) (ih _)

theorem State.refuse_reported (sq cid : Nat) (st : Status) (r0 r1 : Nat) (s : State) : s.Reported (s.refuse sq cid st r0 r1) :=
  reported_trans (s.count_noted _ _).reported (State.post_reported _ _ _)

/-! ## Field by field -/

section
variable (s : State)
@[simp] theorem State.msix_pending (v : Nat) : (s.msix v).pending = s.pending := (s.msix_noted v).pending
@[simp] theorem State.msix_freeCtr (v : Nat) : (s.msix v).freeCtr = s.freeCtr := (s.msix_noted v).freeCtr
@[simp] theorem State.msix_usec (v : Nat) : (s.msix v).usec = s.usec := (s.msix_noted v).usec
@[simp] theorem State.msix_power (v : Nat) : (s.msix v).power = s.power := (s.msix_noted v).power
@[simp] theorem State.msix_boot (v : Nat) : (s.msix v).boot = s.boot := (s.msix_noted v).boot
@[simp] theorem State.msix_sqs (v : Nat) : (s.msix v).sqs = s.sqs := (s.msix_noted v).sqs
@[simp] theorem State.msix_cqs (v : Nat) : (s.msix v).cqs = s.cqs := (s.msix_noted v).cqs
@[simp] theorem State.msix_sqTurn (v : Nat) : (s.msix v).sqTurn = s.sqTurn := (s.msix_noted v).sqTurn
@[simp] theorem State.msix_cmds (v : Nat) : (s.msix v).cmds = s.cmds := (s.msix_noted v).cmds
@[simp] theorem State.msix_job (v : Nat) : (s.msix v).job = s.job := (s.msix_noted v).job
@[simp] theorem State.msix_mem (v : Nat) : (s.msix v).mem = s.mem := (s.msix_noted v).mem
@[simp] theorem State.msix_run (v : Nat) : (s.msix v).run = s.run := (s.msix_noted v).run
@[simp] theorem State.msix_stalls (v : Nat) : (s.msix v).stalls = s.stalls := (s.msix_noted v).stalls
@[simp] theorem State.msix_quays (v : Nat) : (s.msix v).quays = s.quays := (s.msix_noted v).quays
@[simp] theorem State.msix_snap (v : Nat) : (s.msix v).snap = s.snap := (s.msix_noted v).snap
@[simp] theorem State.msix_journal (v : Nat) : (s.msix v).journal = s.journal := (s.msix_noted v).journal
@[simp] theorem State.msix_harbour (v : Nat) : (s.msix v).harbour = s.harbour := (s.msix_noted v).harbour
@[simp] theorem State.msix_ports (v : Nat) : (s.msix v).ports = s.ports := (s.msix_noted v).ports
@[simp] theorem State.msix_test (v : Nat) : (s.msix v).test = s.test := (s.msix_noted v).test

@[simp] theorem State.raise_pending (code kind index : Nat) (fs : List (Nat × Nat × Nat)) : (s.raise code kind index fs).pending = s.pending := (s.raise_noted code kind index fs).pending
@[simp] theorem State.raise_freeCtr (code kind index : Nat) (fs : List (Nat × Nat × Nat)) : (s.raise code kind index fs).freeCtr = s.freeCtr := (s.raise_noted code kind index fs).freeCtr
@[simp] theorem State.raise_usec (code kind index : Nat) (fs : List (Nat × Nat × Nat)) : (s.raise code kind index fs).usec = s.usec := (s.raise_noted code kind index fs).usec
@[simp] theorem State.raise_power (code kind index : Nat) (fs : List (Nat × Nat × Nat)) : (s.raise code kind index fs).power = s.power := (s.raise_noted code kind index fs).power
@[simp] theorem State.raise_boot (code kind index : Nat) (fs : List (Nat × Nat × Nat)) : (s.raise code kind index fs).boot = s.boot := (s.raise_noted code kind index fs).boot
@[simp] theorem State.raise_sqs (code kind index : Nat) (fs : List (Nat × Nat × Nat)) : (s.raise code kind index fs).sqs = s.sqs := (s.raise_noted code kind index fs).sqs
@[simp] theorem State.raise_cqs (code kind index : Nat) (fs : List (Nat × Nat × Nat)) : (s.raise code kind index fs).cqs = s.cqs := (s.raise_noted code kind index fs).cqs
@[simp] theorem State.raise_sqTurn (code kind index : Nat) (fs : List (Nat × Nat × Nat)) : (s.raise code kind index fs).sqTurn = s.sqTurn := (s.raise_noted code kind index fs).sqTurn
@[simp] theorem State.raise_cmds (code kind index : Nat) (fs : List (Nat × Nat × Nat)) : (s.raise code kind index fs).cmds = s.cmds := (s.raise_noted code kind index fs).cmds
@[simp] theorem State.raise_job (code kind index : Nat) (fs : List (Nat × Nat × Nat)) : (s.raise code kind index fs).job = s.job := (s.raise_noted code kind index fs).job
@[simp] theorem State.raise_mem (code kind index : Nat) (fs : List (Nat × Nat × Nat)) : (s.raise code kind index fs).mem = s.mem := (s.raise_noted code kind index fs).mem
@[simp] theorem State.raise_run (code kind index : Nat) (fs : List (Nat × Nat × Nat)) : (s.raise code kind index fs).run = s.run := (s.raise_noted code kind index fs).run
@[simp] theorem State.raise_stalls (code kind index : Nat) (fs : List (Nat × Nat × Nat)) : (s.raise code kind index fs).stalls = s.stalls := (s.raise_noted code kind index fs).stalls
@[simp] theorem State.raise_quays (code kind index : Nat) (fs : List (Nat × Nat × Nat)) : (s.raise code kind index fs).quays = s.quays := (s.raise_noted code kind index fs).quays
@[simp] theorem State.raise_snap (code kind index : Nat) (fs : List (Nat × Nat × Nat)) : (s.raise code kind index fs).snap = s.snap := (s.raise_noted code kind index fs).snap
@[simp] theorem State.raise_journal (code kind index : Nat) (fs : List (Nat × Nat × Nat)) : (s.raise code kind index fs).journal = s.journal := (s.raise_noted code kind index fs).journal
@[simp] theorem State.raise_harbour (code kind index : Nat) (fs : List (Nat × Nat × Nat)) : (s.raise code kind index fs).harbour = s.harbour := (s.raise_noted code kind index fs).harbour
@[simp] theorem State.raise_ports (code kind index : Nat) (fs : List (Nat × Nat × Nat)) : (s.raise code kind index fs).ports = s.ports := (s.raise_noted code kind index fs).ports
@[simp] theorem State.raise_test (code kind index : Nat) (fs : List (Nat × Nat × Nat)) : (s.raise code kind index fs).test = s.test := (s.raise_noted code kind index fs).test

@[simp] theorem State.raiseModule_pending (code : Nat) (fs : List (Nat × Nat × Nat)) : (s.raiseModule code fs).pending = s.pending := (s.raiseModule_noted code fs).pending
@[simp] theorem State.raiseModule_freeCtr (code : Nat) (fs : List (Nat × Nat × Nat)) : (s.raiseModule code fs).freeCtr = s.freeCtr := (s.raiseModule_noted code fs).freeCtr
@[simp] theorem State.raiseModule_usec (code : Nat) (fs : List (Nat × Nat × Nat)) : (s.raiseModule code fs).usec = s.usec := (s.raiseModule_noted code fs).usec
@[simp] theorem State.raiseModule_power (code : Nat) (fs : List (Nat × Nat × Nat)) : (s.raiseModule code fs).power = s.power := (s.raiseModule_noted code fs).power
@[simp] theorem State.raiseModule_boot (code : Nat) (fs : List (Nat × Nat × Nat)) : (s.raiseModule code fs).boot = s.boot := (s.raiseModule_noted code fs).boot
@[simp] theorem State.raiseModule_sqs (code : Nat) (fs : List (Nat × Nat × Nat)) : (s.raiseModule code fs).sqs = s.sqs := (s.raiseModule_noted code fs).sqs
@[simp] theorem State.raiseModule_cqs (code : Nat) (fs : List (Nat × Nat × Nat)) : (s.raiseModule code fs).cqs = s.cqs := (s.raiseModule_noted code fs).cqs
@[simp] theorem State.raiseModule_sqTurn (code : Nat) (fs : List (Nat × Nat × Nat)) : (s.raiseModule code fs).sqTurn = s.sqTurn := (s.raiseModule_noted code fs).sqTurn
@[simp] theorem State.raiseModule_cmds (code : Nat) (fs : List (Nat × Nat × Nat)) : (s.raiseModule code fs).cmds = s.cmds := (s.raiseModule_noted code fs).cmds
@[simp] theorem State.raiseModule_job (code : Nat) (fs : List (Nat × Nat × Nat)) : (s.raiseModule code fs).job = s.job := (s.raiseModule_noted code fs).job
@[simp] theorem State.raiseModule_mem (code : Nat) (fs : List (Nat × Nat × Nat)) : (s.raiseModule code fs).mem = s.mem := (s.raiseModule_noted code fs).mem
@[simp] theorem State.raiseModule_run (code : Nat) (fs : List (Nat × Nat × Nat)) : (s.raiseModule code fs).run = s.run := (s.raiseModule_noted code fs).run
@[simp] theorem State.raiseModule_stalls (code : Nat) (fs : List (Nat × Nat × Nat)) : (s.raiseModule code fs).stalls = s.stalls := (s.raiseModule_noted code fs).stalls
@[simp] theorem State.raiseModule_quays (code : Nat) (fs : List (Nat × Nat × Nat)) : (s.raiseModule code fs).quays = s.quays := (s.raiseModule_noted code fs).quays
@[simp] theorem State.raiseModule_snap (code : Nat) (fs : List (Nat × Nat × Nat)) : (s.raiseModule code fs).snap = s.snap := (s.raiseModule_noted code fs).snap
@[simp] theorem State.raiseModule_journal (code : Nat) (fs : List (Nat × Nat × Nat)) : (s.raiseModule code fs).journal = s.journal := (s.raiseModule_noted code fs).journal
@[simp] theorem State.raiseModule_harbour (code : Nat) (fs : List (Nat × Nat × Nat)) : (s.raiseModule code fs).harbour = s.harbour := (s.raiseModule_noted code fs).harbour
@[simp] theorem State.raiseModule_ports (code : Nat) (fs : List (Nat × Nat × Nat)) : (s.raiseModule code fs).ports = s.ports := (s.raiseModule_noted code fs).ports
@[simp] theorem State.raiseModule_test (code : Nat) (fs : List (Nat × Nat × Nat)) : (s.raiseModule code fs).test = s.test := (s.raiseModule_noted code fs).test

@[simp] theorem State.count_pending (o n : Nat) : (s.count o n).pending = s.pending := (s.count_noted o n).pending
@[simp] theorem State.count_freeCtr (o n : Nat) : (s.count o n).freeCtr = s.freeCtr := (s.count_noted o n).freeCtr
@[simp] theorem State.count_usec (o n : Nat) : (s.count o n).usec = s.usec := (s.count_noted o n).usec
@[simp] theorem State.count_power (o n : Nat) : (s.count o n).power = s.power := (s.count_noted o n).power
@[simp] theorem State.count_boot (o n : Nat) : (s.count o n).boot = s.boot := (s.count_noted o n).boot
@[simp] theorem State.count_sqs (o n : Nat) : (s.count o n).sqs = s.sqs := (s.count_noted o n).sqs
@[simp] theorem State.count_cqs (o n : Nat) : (s.count o n).cqs = s.cqs := (s.count_noted o n).cqs
@[simp] theorem State.count_sqTurn (o n : Nat) : (s.count o n).sqTurn = s.sqTurn := (s.count_noted o n).sqTurn
@[simp] theorem State.count_cmds (o n : Nat) : (s.count o n).cmds = s.cmds := (s.count_noted o n).cmds
@[simp] theorem State.count_job (o n : Nat) : (s.count o n).job = s.job := (s.count_noted o n).job
@[simp] theorem State.count_mem (o n : Nat) : (s.count o n).mem = s.mem := (s.count_noted o n).mem
@[simp] theorem State.count_run (o n : Nat) : (s.count o n).run = s.run := (s.count_noted o n).run
@[simp] theorem State.count_stalls (o n : Nat) : (s.count o n).stalls = s.stalls := (s.count_noted o n).stalls
@[simp] theorem State.count_quays (o n : Nat) : (s.count o n).quays = s.quays := (s.count_noted o n).quays
@[simp] theorem State.count_snap (o n : Nat) : (s.count o n).snap = s.snap := (s.count_noted o n).snap
@[simp] theorem State.count_journal (o n : Nat) : (s.count o n).journal = s.journal := (s.count_noted o n).journal
@[simp] theorem State.count_harbour (o n : Nat) : (s.count o n).harbour = s.harbour := (s.count_noted o n).harbour
@[simp] theorem State.count_ports (o n : Nat) : (s.count o n).ports = s.ports := (s.count_noted o n).ports
@[simp] theorem State.count_test (o n : Nat) : (s.count o n).test = s.test := (s.count_noted o n).test

@[simp] theorem State.violation_pending (cls : Nat) (queue : Option Nat) (opcode cid addr : Nat) : (s.violation cls queue opcode cid addr).pending = s.pending := (s.violation_noted cls queue opcode cid addr).pending
@[simp] theorem State.violation_freeCtr (cls : Nat) (queue : Option Nat) (opcode cid addr : Nat) : (s.violation cls queue opcode cid addr).freeCtr = s.freeCtr := (s.violation_noted cls queue opcode cid addr).freeCtr
@[simp] theorem State.violation_usec (cls : Nat) (queue : Option Nat) (opcode cid addr : Nat) : (s.violation cls queue opcode cid addr).usec = s.usec := (s.violation_noted cls queue opcode cid addr).usec
@[simp] theorem State.violation_power (cls : Nat) (queue : Option Nat) (opcode cid addr : Nat) : (s.violation cls queue opcode cid addr).power = s.power := (s.violation_noted cls queue opcode cid addr).power
@[simp] theorem State.violation_boot (cls : Nat) (queue : Option Nat) (opcode cid addr : Nat) : (s.violation cls queue opcode cid addr).boot = s.boot := (s.violation_noted cls queue opcode cid addr).boot
@[simp] theorem State.violation_sqs (cls : Nat) (queue : Option Nat) (opcode cid addr : Nat) : (s.violation cls queue opcode cid addr).sqs = s.sqs := (s.violation_noted cls queue opcode cid addr).sqs
@[simp] theorem State.violation_cqs (cls : Nat) (queue : Option Nat) (opcode cid addr : Nat) : (s.violation cls queue opcode cid addr).cqs = s.cqs := (s.violation_noted cls queue opcode cid addr).cqs
@[simp] theorem State.violation_sqTurn (cls : Nat) (queue : Option Nat) (opcode cid addr : Nat) : (s.violation cls queue opcode cid addr).sqTurn = s.sqTurn := (s.violation_noted cls queue opcode cid addr).sqTurn
@[simp] theorem State.violation_cmds (cls : Nat) (queue : Option Nat) (opcode cid addr : Nat) : (s.violation cls queue opcode cid addr).cmds = s.cmds := (s.violation_noted cls queue opcode cid addr).cmds
@[simp] theorem State.violation_job (cls : Nat) (queue : Option Nat) (opcode cid addr : Nat) : (s.violation cls queue opcode cid addr).job = s.job := (s.violation_noted cls queue opcode cid addr).job
@[simp] theorem State.violation_mem (cls : Nat) (queue : Option Nat) (opcode cid addr : Nat) : (s.violation cls queue opcode cid addr).mem = s.mem := (s.violation_noted cls queue opcode cid addr).mem
@[simp] theorem State.violation_run (cls : Nat) (queue : Option Nat) (opcode cid addr : Nat) : (s.violation cls queue opcode cid addr).run = s.run := (s.violation_noted cls queue opcode cid addr).run
@[simp] theorem State.violation_stalls (cls : Nat) (queue : Option Nat) (opcode cid addr : Nat) : (s.violation cls queue opcode cid addr).stalls = s.stalls := (s.violation_noted cls queue opcode cid addr).stalls
@[simp] theorem State.violation_quays (cls : Nat) (queue : Option Nat) (opcode cid addr : Nat) : (s.violation cls queue opcode cid addr).quays = s.quays := (s.violation_noted cls queue opcode cid addr).quays
@[simp] theorem State.violation_snap (cls : Nat) (queue : Option Nat) (opcode cid addr : Nat) : (s.violation cls queue opcode cid addr).snap = s.snap := (s.violation_noted cls queue opcode cid addr).snap
@[simp] theorem State.violation_journal (cls : Nat) (queue : Option Nat) (opcode cid addr : Nat) : (s.violation cls queue opcode cid addr).journal = s.journal := (s.violation_noted cls queue opcode cid addr).journal
@[simp] theorem State.violation_harbour (cls : Nat) (queue : Option Nat) (opcode cid addr : Nat) : (s.violation cls queue opcode cid addr).harbour = s.harbour := (s.violation_noted cls queue opcode cid addr).harbour
@[simp] theorem State.violation_ports (cls : Nat) (queue : Option Nat) (opcode cid addr : Nat) : (s.violation cls queue opcode cid addr).ports = s.ports := (s.violation_noted cls queue opcode cid addr).ports
@[simp] theorem State.violation_test (cls : Nat) (queue : Option Nat) (opcode cid addr : Nat) : (s.violation cls queue opcode cid addr).test = s.test := (s.violation_noted cls queue opcode cid addr).test

@[simp] theorem State.toHost_pending (sq cid off : Nat) (data : Bytes) : (s.toHost sq cid off data).pending = s.pending := (s.toHost_noted sq cid off data).pending
@[simp] theorem State.toHost_freeCtr (sq cid off : Nat) (data : Bytes) : (s.toHost sq cid off data).freeCtr = s.freeCtr := (s.toHost_noted sq cid off data).freeCtr
@[simp] theorem State.toHost_usec (sq cid off : Nat) (data : Bytes) : (s.toHost sq cid off data).usec = s.usec := (s.toHost_noted sq cid off data).usec
@[simp] theorem State.toHost_power (sq cid off : Nat) (data : Bytes) : (s.toHost sq cid off data).power = s.power := (s.toHost_noted sq cid off data).power
@[simp] theorem State.toHost_boot (sq cid off : Nat) (data : Bytes) : (s.toHost sq cid off data).boot = s.boot := (s.toHost_noted sq cid off data).boot
@[simp] theorem State.toHost_sqs (sq cid off : Nat) (data : Bytes) : (s.toHost sq cid off data).sqs = s.sqs := (s.toHost_noted sq cid off data).sqs
@[simp] theorem State.toHost_cqs (sq cid off : Nat) (data : Bytes) : (s.toHost sq cid off data).cqs = s.cqs := (s.toHost_noted sq cid off data).cqs
@[simp] theorem State.toHost_sqTurn (sq cid off : Nat) (data : Bytes) : (s.toHost sq cid off data).sqTurn = s.sqTurn := (s.toHost_noted sq cid off data).sqTurn
@[simp] theorem State.toHost_cmds (sq cid off : Nat) (data : Bytes) : (s.toHost sq cid off data).cmds = s.cmds := (s.toHost_noted sq cid off data).cmds
@[simp] theorem State.toHost_job (sq cid off : Nat) (data : Bytes) : (s.toHost sq cid off data).job = s.job := (s.toHost_noted sq cid off data).job
@[simp] theorem State.toHost_mem (sq cid off : Nat) (data : Bytes) : (s.toHost sq cid off data).mem = s.mem := (s.toHost_noted sq cid off data).mem
@[simp] theorem State.toHost_run (sq cid off : Nat) (data : Bytes) : (s.toHost sq cid off data).run = s.run := (s.toHost_noted sq cid off data).run
@[simp] theorem State.toHost_stalls (sq cid off : Nat) (data : Bytes) : (s.toHost sq cid off data).stalls = s.stalls := (s.toHost_noted sq cid off data).stalls
@[simp] theorem State.toHost_quays (sq cid off : Nat) (data : Bytes) : (s.toHost sq cid off data).quays = s.quays := (s.toHost_noted sq cid off data).quays
@[simp] theorem State.toHost_snap (sq cid off : Nat) (data : Bytes) : (s.toHost sq cid off data).snap = s.snap := (s.toHost_noted sq cid off data).snap
@[simp] theorem State.toHost_journal (sq cid off : Nat) (data : Bytes) : (s.toHost sq cid off data).journal = s.journal := (s.toHost_noted sq cid off data).journal
@[simp] theorem State.toHost_harbour (sq cid off : Nat) (data : Bytes) : (s.toHost sq cid off data).harbour = s.harbour := (s.toHost_noted sq cid off data).harbour
@[simp] theorem State.toHost_ports (sq cid off : Nat) (data : Bytes) : (s.toHost sq cid off data).ports = s.ports := (s.toHost_noted sq cid off data).ports
@[simp] theorem State.toHost_test (sq cid off : Nat) (data : Bytes) : (s.toHost sq cid off data).test = s.test := (s.toHost_noted sq cid off data).test

@[simp] theorem State.post_pending (q : Nat) (e : Entry) : (s.post q e).pending = s.pending := (s.post_reported q e).pending
@[simp] theorem State.post_freeCtr (q : Nat) (e : Entry) : (s.post q e).freeCtr = s.freeCtr := (s.post_reported q e).freeCtr
@[simp] theorem State.post_usec (q : Nat) (e : Entry) : (s.post q e).usec = s.usec := (s.post_reported q e).usec
@[simp] theorem State.post_power (q : Nat) (e : Entry) : (s.post q e).power = s.power := (s.post_reported q e).power
@[simp] theorem State.post_boot (q : Nat) (e : Entry) : (s.post q e).boot = s.boot := (s.post_reported q e).boot
@[simp] theorem State.post_sqs (q : Nat) (e : Entry) : (s.post q e).sqs = s.sqs := (s.post_reported q e).sqs
@[simp] theorem State.post_sqTurn (q : Nat) (e : Entry) : (s.post q e).sqTurn = s.sqTurn := (s.post_reported q e).sqTurn
@[simp] theorem State.post_job (q : Nat) (e : Entry) : (s.post q e).job = s.job := (s.post_reported q e).job
@[simp] theorem State.post_mem (q : Nat) (e : Entry) : (s.post q e).mem = s.mem := (s.post_reported q e).mem
@[simp] theorem State.post_run (q : Nat) (e : Entry) : (s.post q e).run = s.run := (s.post_reported q e).run
@[simp] theorem State.post_stalls (q : Nat) (e : Entry) : (s.post q e).stalls = s.stalls := (s.post_reported q e).stalls
@[simp] theorem State.post_quays (q : Nat) (e : Entry) : (s.post q e).quays = s.quays := (s.post_reported q e).quays
@[simp] theorem State.post_snap (q : Nat) (e : Entry) : (s.post q e).snap = s.snap := (s.post_reported q e).snap
@[simp] theorem State.post_journal (q : Nat) (e : Entry) : (s.post q e).journal = s.journal := (s.post_reported q e).journal
@[simp] theorem State.post_harbour (q : Nat) (e : Entry) : (s.post q e).harbour = s.harbour := (s.post_reported q e).harbour
@[simp] theorem State.post_ports (q : Nat) (e : Entry) : (s.post q e).ports = s.ports := (s.post_reported q e).ports
@[simp] theorem State.post_test (q : Nat) (e : Entry) : (s.post q e).test = s.test := (s.post_reported q e).test

@[simp] theorem State.finishCmd_pending (c : Cmd) (st : Status) (r0 r1 : Nat) : (s.finishCmd c st r0 r1).pending = s.pending := (s.finishCmd_reported c st r0 r1).pending
@[simp] theorem State.finishCmd_freeCtr (c : Cmd) (st : Status) (r0 r1 : Nat) : (s.finishCmd c st r0 r1).freeCtr = s.freeCtr := (s.finishCmd_reported c st r0 r1).freeCtr
@[simp] theorem State.finishCmd_usec (c : Cmd) (st : Status) (r0 r1 : Nat) : (s.finishCmd c st r0 r1).usec = s.usec := (s.finishCmd_reported c st r0 r1).usec
@[simp] theorem State.finishCmd_power (c : Cmd) (st : Status) (r0 r1 : Nat) : (s.finishCmd c st r0 r1).power = s.power := (s.finishCmd_reported c st r0 r1).power
@[simp] theorem State.finishCmd_boot (c : Cmd) (st : Status) (r0 r1 : Nat) : (s.finishCmd c st r0 r1).boot = s.boot := (s.finishCmd_reported c st r0 r1).boot
@[simp] theorem State.finishCmd_sqs (c : Cmd) (st : Status) (r0 r1 : Nat) : (s.finishCmd c st r0 r1).sqs = s.sqs := (s.finishCmd_reported c st r0 r1).sqs
@[simp] theorem State.finishCmd_sqTurn (c : Cmd) (st : Status) (r0 r1 : Nat) : (s.finishCmd c st r0 r1).sqTurn = s.sqTurn := (s.finishCmd_reported c st r0 r1).sqTurn
@[simp] theorem State.finishCmd_job (c : Cmd) (st : Status) (r0 r1 : Nat) : (s.finishCmd c st r0 r1).job = s.job := (s.finishCmd_reported c st r0 r1).job
@[simp] theorem State.finishCmd_mem (c : Cmd) (st : Status) (r0 r1 : Nat) : (s.finishCmd c st r0 r1).mem = s.mem := (s.finishCmd_reported c st r0 r1).mem
@[simp] theorem State.finishCmd_run (c : Cmd) (st : Status) (r0 r1 : Nat) : (s.finishCmd c st r0 r1).run = s.run := (s.finishCmd_reported c st r0 r1).run
@[simp] theorem State.finishCmd_stalls (c : Cmd) (st : Status) (r0 r1 : Nat) : (s.finishCmd c st r0 r1).stalls = s.stalls := (s.finishCmd_reported c st r0 r1).stalls
@[simp] theorem State.finishCmd_quays (c : Cmd) (st : Status) (r0 r1 : Nat) : (s.finishCmd c st r0 r1).quays = s.quays := (s.finishCmd_reported c st r0 r1).quays
@[simp] theorem State.finishCmd_snap (c : Cmd) (st : Status) (r0 r1 : Nat) : (s.finishCmd c st r0 r1).snap = s.snap := (s.finishCmd_reported c st r0 r1).snap
@[simp] theorem State.finishCmd_journal (c : Cmd) (st : Status) (r0 r1 : Nat) : (s.finishCmd c st r0 r1).journal = s.journal := (s.finishCmd_reported c st r0 r1).journal
@[simp] theorem State.finishCmd_harbour (c : Cmd) (st : Status) (r0 r1 : Nat) : (s.finishCmd c st r0 r1).harbour = s.harbour := (s.finishCmd_reported c st r0 r1).harbour
@[simp] theorem State.finishCmd_ports (c : Cmd) (st : Status) (r0 r1 : Nat) : (s.finishCmd c st r0 r1).ports = s.ports := (s.finishCmd_reported c st r0 r1).ports
@[simp] theorem State.finishCmd_test (c : Cmd) (st : Status) (r0 r1 : Nat) : (s.finishCmd c st r0 r1).test = s.test := (s.finishCmd_reported c st r0 r1).test

@[simp] theorem State.finish_pending (sq cid : Nat) (st : Status) (r0 r1 : Nat) : (s.finish sq cid st r0 r1).pending = s.pending := (s.finish_reported sq cid st r0 r1).pending
@[simp] theorem State.finish_freeCtr (sq cid : Nat) (st : Status) (r0 r1 : Nat) : (s.finish sq cid st r0 r1).freeCtr = s.freeCtr := (s.finish_reported sq cid st r0 r1).freeCtr
@[simp] theorem State.finish_usec (sq cid : Nat) (st : Status) (r0 r1 : Nat) : (s.finish sq cid st r0 r1).usec = s.usec := (s.finish_reported sq cid st r0 r1).usec
@[simp] theorem State.finish_power (sq cid : Nat) (st : Status) (r0 r1 : Nat) : (s.finish sq cid st r0 r1).power = s.power := (s.finish_reported sq cid st r0 r1).power
@[simp] theorem State.finish_boot (sq cid : Nat) (st : Status) (r0 r1 : Nat) : (s.finish sq cid st r0 r1).boot = s.boot := (s.finish_reported sq cid st r0 r1).boot
@[simp] theorem State.finish_sqs (sq cid : Nat) (st : Status) (r0 r1 : Nat) : (s.finish sq cid st r0 r1).sqs = s.sqs := (s.finish_reported sq cid st r0 r1).sqs
@[simp] theorem State.finish_sqTurn (sq cid : Nat) (st : Status) (r0 r1 : Nat) : (s.finish sq cid st r0 r1).sqTurn = s.sqTurn := (s.finish_reported sq cid st r0 r1).sqTurn
@[simp] theorem State.finish_job (sq cid : Nat) (st : Status) (r0 r1 : Nat) : (s.finish sq cid st r0 r1).job = s.job := (s.finish_reported sq cid st r0 r1).job
@[simp] theorem State.finish_mem (sq cid : Nat) (st : Status) (r0 r1 : Nat) : (s.finish sq cid st r0 r1).mem = s.mem := (s.finish_reported sq cid st r0 r1).mem
@[simp] theorem State.finish_run (sq cid : Nat) (st : Status) (r0 r1 : Nat) : (s.finish sq cid st r0 r1).run = s.run := (s.finish_reported sq cid st r0 r1).run
@[simp] theorem State.finish_stalls (sq cid : Nat) (st : Status) (r0 r1 : Nat) : (s.finish sq cid st r0 r1).stalls = s.stalls := (s.finish_reported sq cid st r0 r1).stalls
@[simp] theorem State.finish_quays (sq cid : Nat) (st : Status) (r0 r1 : Nat) : (s.finish sq cid st r0 r1).quays = s.quays := (s.finish_reported sq cid st r0 r1).quays
@[simp] theorem State.finish_snap (sq cid : Nat) (st : Status) (r0 r1 : Nat) : (s.finish sq cid st r0 r1).snap = s.snap := (s.finish_reported sq cid st r0 r1).snap
@[simp] theorem State.finish_journal (sq cid : Nat) (st : Status) (r0 r1 : Nat) : (s.finish sq cid st r0 r1).journal = s.journal := (s.finish_reported sq cid st r0 r1).journal
@[simp] theorem State.finish_harbour (sq cid : Nat) (st : Status) (r0 r1 : Nat) : (s.finish sq cid st r0 r1).harbour = s.harbour := (s.finish_reported sq cid st r0 r1).harbour
@[simp] theorem State.finish_ports (sq cid : Nat) (st : Status) (r0 r1 : Nat) : (s.finish sq cid st r0 r1).ports = s.ports := (s.finish_reported sq cid st r0 r1).ports
@[simp] theorem State.finish_test (sq cid : Nat) (st : Status) (r0 r1 : Nat) : (s.finish sq cid st r0 r1).test = s.test := (s.finish_reported sq cid st r0 r1).test

@[simp] theorem State.finishAll_pending (l : List Cmd) (st : Status) (r0 r1 : Nat) : (s.finishAll l st r0 r1).pending = s.pending := (s.finishAll_reported l st r0 r1).pending
@[simp] theorem State.finishAll_freeCtr (l : List Cmd) (st : Status) (r0 r1 : Nat) : (s.finishAll l st r0 r1).freeCtr = s.freeCtr := (s.finishAll_reported l st r0 r1).freeCtr
@[simp] theorem State.finishAll_usec (l : List Cmd) (st : Status) (r0 r1 : Nat) : (s.finishAll l st r0 r1).usec = s.usec := (s.finishAll_reported l st r0 r1).usec
@[simp] theorem State.finishAll_power (l : List Cmd) (st : Status) (r0 r1 : Nat) : (s.finishAll l st r0 r1).power = s.power := (s.finishAll_reported l st r0 r1).power
@[simp] theorem State.finishAll_boot (l : List Cmd) (st : Status) (r0 r1 : Nat) : (s.finishAll l st r0 r1).boot = s.boot := (s.finishAll_reported l st r0 r1).boot
@[simp] theorem State.finishAll_sqs (l : List Cmd) (st : Status) (r0 r1 : Nat) : (s.finishAll l st r0 r1).sqs = s.sqs := (s.finishAll_reported l st r0 r1).sqs
@[simp] theorem State.finishAll_sqTurn (l : List Cmd) (st : Status) (r0 r1 : Nat) : (s.finishAll l st r0 r1).sqTurn = s.sqTurn := (s.finishAll_reported l st r0 r1).sqTurn
@[simp] theorem State.finishAll_job (l : List Cmd) (st : Status) (r0 r1 : Nat) : (s.finishAll l st r0 r1).job = s.job := (s.finishAll_reported l st r0 r1).job
@[simp] theorem State.finishAll_mem (l : List Cmd) (st : Status) (r0 r1 : Nat) : (s.finishAll l st r0 r1).mem = s.mem := (s.finishAll_reported l st r0 r1).mem
@[simp] theorem State.finishAll_run (l : List Cmd) (st : Status) (r0 r1 : Nat) : (s.finishAll l st r0 r1).run = s.run := (s.finishAll_reported l st r0 r1).run
@[simp] theorem State.finishAll_stalls (l : List Cmd) (st : Status) (r0 r1 : Nat) : (s.finishAll l st r0 r1).stalls = s.stalls := (s.finishAll_reported l st r0 r1).stalls
@[simp] theorem State.finishAll_quays (l : List Cmd) (st : Status) (r0 r1 : Nat) : (s.finishAll l st r0 r1).quays = s.quays := (s.finishAll_reported l st r0 r1).quays
@[simp] theorem State.finishAll_snap (l : List Cmd) (st : Status) (r0 r1 : Nat) : (s.finishAll l st r0 r1).snap = s.snap := (s.finishAll_reported l st r0 r1).snap
@[simp] theorem State.finishAll_journal (l : List Cmd) (st : Status) (r0 r1 : Nat) : (s.finishAll l st r0 r1).journal = s.journal := (s.finishAll_reported l st r0 r1).journal
@[simp] theorem State.finishAll_harbour (l : List Cmd) (st : Status) (r0 r1 : Nat) : (s.finishAll l st r0 r1).harbour = s.harbour := (s.finishAll_reported l st r0 r1).harbour
@[simp] theorem State.finishAll_ports (l : List Cmd) (st : Status) (r0 r1 : Nat) : (s.finishAll l st r0 r1).ports = s.ports := (s.finishAll_reported l st r0 r1).ports
@[simp] theorem State.finishAll_test (l : List Cmd) (st : Status) (r0 r1 : Nat) : (s.finishAll l st r0 r1).test = s.test := (s.finishAll_reported l st r0 r1).test

@[simp] theorem State.refuse_pending (sq cid : Nat) (st : Status) (r0 r1 : Nat) : (s.refuse sq cid st r0 r1).pending = s.pending := (s.refuse_reported sq cid st r0 r1).pending
@[simp] theorem State.refuse_freeCtr (sq cid : Nat) (st : Status) (r0 r1 : Nat) : (s.refuse sq cid st r0 r1).freeCtr = s.freeCtr := (s.refuse_reported sq cid st r0 r1).freeCtr
@[simp] theorem State.refuse_usec (sq cid : Nat) (st : Status) (r0 r1 : Nat) : (s.refuse sq cid st r0 r1).usec = s.usec := (s.refuse_reported sq cid st r0 r1).usec
@[simp] theorem State.refuse_power (sq cid : Nat) (st : Status) (r0 r1 : Nat) : (s.refuse sq cid st r0 r1).power = s.power := (s.refuse_reported sq cid st r0 r1).power
@[simp] theorem State.refuse_boot (sq cid : Nat) (st : Status) (r0 r1 : Nat) : (s.refuse sq cid st r0 r1).boot = s.boot := (s.refuse_reported sq cid st r0 r1).boot
@[simp] theorem State.refuse_sqs (sq cid : Nat) (st : Status) (r0 r1 : Nat) : (s.refuse sq cid st r0 r1).sqs = s.sqs := (s.refuse_reported sq cid st r0 r1).sqs
@[simp] theorem State.refuse_sqTurn (sq cid : Nat) (st : Status) (r0 r1 : Nat) : (s.refuse sq cid st r0 r1).sqTurn = s.sqTurn := (s.refuse_reported sq cid st r0 r1).sqTurn
@[simp] theorem State.refuse_job (sq cid : Nat) (st : Status) (r0 r1 : Nat) : (s.refuse sq cid st r0 r1).job = s.job := (s.refuse_reported sq cid st r0 r1).job
@[simp] theorem State.refuse_mem (sq cid : Nat) (st : Status) (r0 r1 : Nat) : (s.refuse sq cid st r0 r1).mem = s.mem := (s.refuse_reported sq cid st r0 r1).mem
@[simp] theorem State.refuse_run (sq cid : Nat) (st : Status) (r0 r1 : Nat) : (s.refuse sq cid st r0 r1).run = s.run := (s.refuse_reported sq cid st r0 r1).run
@[simp] theorem State.refuse_stalls (sq cid : Nat) (st : Status) (r0 r1 : Nat) : (s.refuse sq cid st r0 r1).stalls = s.stalls := (s.refuse_reported sq cid st r0 r1).stalls
@[simp] theorem State.refuse_quays (sq cid : Nat) (st : Status) (r0 r1 : Nat) : (s.refuse sq cid st r0 r1).quays = s.quays := (s.refuse_reported sq cid st r0 r1).quays
@[simp] theorem State.refuse_snap (sq cid : Nat) (st : Status) (r0 r1 : Nat) : (s.refuse sq cid st r0 r1).snap = s.snap := (s.refuse_reported sq cid st r0 r1).snap
@[simp] theorem State.refuse_journal (sq cid : Nat) (st : Status) (r0 r1 : Nat) : (s.refuse sq cid st r0 r1).journal = s.journal := (s.refuse_reported sq cid st r0 r1).journal
@[simp] theorem State.refuse_harbour (sq cid : Nat) (st : Status) (r0 r1 : Nat) : (s.refuse sq cid st r0 r1).harbour = s.harbour := (s.refuse_reported sq cid st r0 r1).harbour
@[simp] theorem State.refuse_ports (sq cid : Nat) (st : Status) (r0 r1 : Nat) : (s.refuse sq cid st r0 r1).ports = s.ports := (s.refuse_reported sq cid st r0 r1).ports
@[simp] theorem State.refuse_test (sq cid : Nat) (st : Status) (r0 r1 : Nat) : (s.refuse sq cid st r0 r1).test = s.test := (s.refuse_reported sq cid st r0 r1).test

end

/-! ## Final entries -/

theorem State.Completed.after {s t u : State} {c : Cmd} {st : Status} {r0 r1 : Nat} (hq : t.cqs = s.cqs) (hs : t.sqs = s.sqs)
    (hu : t.usec = s.usec) (hc : t.cmds = s.cmds) (ho : s.out <+: t.out) (h : t.Completed u c st r0 r1) : s.Completed u c st r0 r1 := by
  obtain ⟨k, e⟩ := ho
  obtain ⟨h1, l, h2, h3⟩ := h
  refine ⟨h1.trans (by rw [hc]), k ++ l, by rw [h2, ← e, List.append_assoc], ?_⟩
  have e3 : s.finalEntry c st r0 r1 = t.finalEntry c st r0 r1 := by
    simp only [State.finalEntry, State.finalBytes, State.cq, State.sq, hq, hs, hu]
  rw [e3]
  exact h3.trans (List.suffix_append k l).isInfix

/-- A command completes: it leaves the list of outstanding commands, and its entry is written. -/
theorem State.finishCmd_completed (s : State) (c : Cmd) (st : Status) (r0 r1 : Nat) (h : s.entryFits c = true) :
    s.Completed (s.finishCmd c st r0 r1) c st r0 r1 := by
  obtain ⟨⟨h1, h2⟩, h3⟩ : ((s.cq c.cq).enable = true ∧ (s.cq c.cq).room ≠ 0) ∧ (s.cq c.cq).held = [] := by
    simpa [State.entryFits] using h
  have key : ∀ y : State, y.cqs = s.cqs → y.sqs = s.sqs → y.cmds = s.cmds.filter (fun d => !(d.sq == c.sq && d.cid == c.cid)) →
      s.out <+: y.out → s.Completed (y.post c.cq ⟨r0, r1, c.ext, c.excess s.usec, c.sq, c.cid, 0, st.code⟩) c st r0 r1 := by
    intro y hq hs hc ho
    obtain ⟨k, e⟩ := ho
    have hcq : y.cq c.cq = s.cq c.cq := by simp only [State.cq, hq]
    have hsq : y.sq c.sq = s.sq c.sq := by simp only [State.sq, hs]
    have hp : y.post c.cq ⟨r0, r1, c.ext, c.excess s.usec, c.sq, c.cid, 0, st.code⟩
        = y.write c.cq ⟨r0, r1, c.ext, c.excess s.usec, c.sq, c.cid, 0, st.code⟩ := by
      unfold State.post
      dsimp only
      rw [hcq, h1, h3]
      simp [h2]
    rw [hp]
    have hw : ∀ z : State, z.cmds = y.cmds → (∃ m, z.out = y.out ++ (s.finalEntry c st r0 r1 ++ m)) →
        s.Completed z c st r0 r1 := by
      rintro z hz ⟨m, hm⟩
      refine ⟨hz.trans hc, k ++ (s.finalEntry c st r0 r1 ++ m), ?_, ⟨k, m, by simp⟩⟩
      rw [hm, ← e, List.append_assoc]
    unfold State.write
    dsimp only
    have hbase : ((y.emitEntry c.cq ((y.cq c.cq).base + 32 * (y.cq c.cq).tail)
        (Entry.bytes ⟨r0, r1, c.ext, c.excess s.usec, c.sq, c.cid, 0, st.code⟩ (if c.sq = 0xFF then 0 else (y.sq c.sq).head)
          (y.cq c.cq).phase)).setCq c.cq Cq.advance).out = y.out ++ (s.finalEntry c st r0 r1 ++ []) := by
      simp [State.finalEntry, State.finalBytes, State.emitEntry, hcq, hsq]
    split
    · refine hw _ (by simp [State.emitEntry]) ?_
      obtain ⟨m, hm⟩ := (State.msix_noted (y.cq c.cq).vector ((y.emitEntry c.cq ((y.cq c.cq).base + 32 * (y.cq c.cq).tail)
        (Entry.bytes ⟨r0, r1, c.ext, c.excess s.usec, c.sq, c.cid, 0, st.code⟩ (if c.sq = 0xFF then 0 else (y.sq c.sq).head)
          (y.cq c.cq).phase)).setCq c.cq Cq.advance)).sent
      exact ⟨m, by rw [← hm, hbase]; simp⟩
    · exact hw _ (by simp [State.emitEntry]) ⟨[], hbase⟩
  unfold State.finishCmd
  dsimp only
  by_cases hx : c.excess s.usec = 0
  · rw [if_pos hx, if_pos hx]
    exact key (s.modCmds fun l => l.filter fun d => !(d.sq == c.sq && d.cid == c.cid)) (by simp) (by simp) (by simp)
      (by rw [State.modCmds_out])
  · rw [if_neg hx, if_neg hx]
    refine key (State.raise _ _ _ _ (State.count _ _ (s.modCmds fun l => l.filter fun d => !(d.sq == c.sq && d.cid == c.cid))))
      (by simp) (by simp) (by simp) ?_
    have h1 := (State.count_noted (tmAt 0x58) 1 (s.modCmds fun l => l.filter fun d => !(d.sq == c.sq && d.cid == c.cid))).sent
    rw [State.modCmds_out] at h1
    exact h1.trans (State.raise_noted _ _ _ _ _).sent

end Sys2Proof.Machine
end

