-- ==== Sys2Proof/Laws/Commands.lean ====
section
/-! SUPPORT. Commands: what starting, marking and finishing one answers, from the conditions of the command itself. -/

namespace Sys2Proof.Machine

theorem onCmd_eq {s : State} {op sq cid : Nat} {f : Cmd → State → State} {c : Cmd} (h : s.waiting op sq cid = some c) :
    s.onCmd op sq cid f = .next (f c s) := by unfold State.onCmd; rw [h]

theorem waiting_ids {s : State} {op sq cid : Nat} {c : Cmd} (h : s.waiting op sq cid = some c) :
    s.cmd? sq cid = some c ∧ c.isOp op = true ∧ c.started = false ∧ c.sq = sq ∧ c.cid = cid := by
  unfold State.waiting at h
  split at h
  · cases h
  · rename_i d e
    split at h
    · rename_i g
      cases h
      have := List.find?_some e
      simp only [Bool.and_eq_true, beq_iff_eq, Bool.not_eq_true'] at this g
      exact ⟨e, g.1, g.2, this.1, this.2⟩
    · cases h

theorem finish_eq {s y : State} {sq cid : Nat} {c : Cmd} (h : s.cmd? sq cid = some c) (e : y.cmds = s.cmds) (st : Status) (a b : Nat) :
    y.finish sq cid st a b = y.finishCmd c st a b := by
  unfold State.finish State.cmd?; rw [e]; unfold State.cmd? at h; rw [h]

theorem fits_of {s y : State} {c : Cmd} (e : y.cqs = s.cqs) (h : s.entryFits c = true) : y.entryFits c = true := by
  simpa only [State.entryFits, State.cq, e] using h

theorem noted_finish {s y : State} {sq cid : Nat} {c : Cmd} (h : s.cmd? sq cid = some c) (n : s.Noted y) (hf : s.entryFits c = true) (st : Status) (a b : Nat) :
    s.Reported (y.finish sq cid st a b) ∧ s.Completed (y.finish sq cid st a b) c st a b := by
  rw [finish_eq h n.cmds]
  exact ⟨reported_trans n.reported (State.finishCmd_reported _ _ _ _ _),
    State.Completed.after n.cqs n.sqs n.usec n.cmds n.sent (State.finishCmd_completed _ _ _ _ _ (fits_of n.cqs hf))⟩

/-- What a search finds in a list whose found members are changed in fields that the search does not look at. -/
theorem find_marked {l : List Cmd} {p : Cmd → Bool} {c : Cmd} (g : Cmd → Cmd) (h : l.find? p = some c) (hp : ∀ d, p (g d) = p d) :
    (l.map fun d => if p d then g d else d).find? p = some (g c) := by
  induction l with
  | nil => simp at h
  | cons d l ih =>
    simp only [List.find?_cons] at h
    simp only [List.map_cons, List.find?_cons]
    cases hd : p d with
    | true => rw [hd] at h; simp at h; subst h; simp [hd, hp]
    | false => rw [hd] at h; simp at h; simp [hd, ih h]

theorem cmd?_set {s : State} {sq cid : Nat} {c : Cmd} (g : Cmd → Cmd) (h : s.cmd? sq cid = some c) (h1 : ∀ d, (g d).sq = d.sq) (h2 : ∀ d, (g d).cid = d.cid) :
    (s.setCmd sq cid g).cmd? sq cid = some (g c) := by
  unfold State.setCmd State.cmd? State.modCmds
  have := find_marked (p := fun d => d.sq == sq && d.cid == cid) g h (fun d => by simp [h1, h2])
  simpa using this

theorem filter_set {l : List Cmd} {sq cid : Nat} (g : Cmd → Cmd) (h1 : ∀ d, (g d).sq = d.sq) (h2 : ∀ d, (g d).cid = d.cid) :
    (l.map fun d => if d.sq = sq && d.cid = cid then g d else d).filter (fun d => !(d.sq == sq && d.cid == cid))
      = l.filter (fun d => !(d.sq == sq && d.cid == cid)) := by
  induction l with
  | nil => rfl
  | cons d l ih =>
    simp only [List.map_cons, List.filter_cons, ih]
    by_cases hd : d.sq = sq ∧ d.cid = cid
    · simp [hd, h1, h2]
    · have : (decide (d.sq = sq) && decide (d.cid = cid)) = false := by simpa using hd
      simp [this]

/-- A command marked as started completes on a state that kept the queues and the clock and sent no less. -/
theorem marked_finish {s y : State} {op sq cid : Nat} {c : Cmd} (h : s.waiting op sq cid = some c) (hc : y.cmds = (s.markStarted c).cmds)
    (hq : y.cqs = s.cqs) (hs : y.sqs = s.sqs) (hu : y.usec = s.usec) (ho : s.out <+: y.out) (hf : s.entryFits c = true) (st : Status) (a b : Nat) :
    s.Completed (y.finish sq cid st a b) c st a b := by
  obtain ⟨h0, -, -, rfl, rfl⟩ := waiting_ids h
  have e1 : (s.markStarted c).cmd? c.sq c.cid = some { c with started := true } := cmd?_set _ h0 (fun _ => rfl) (fun _ => rfl)
  have e2 : y.finish c.sq c.cid st a b = y.finishCmd { c with started := true } st a b := by
    unfold State.finish State.cmd?; rw [hc]; unfold State.cmd? at e1; rw [e1]
  rw [e2]
  obtain ⟨p, l, q, r⟩ := State.finishCmd_completed y { c with started := true } st a b (by simpa only [State.entryFits, State.cq, hq] using hf)
  refine ⟨?_, ?_⟩
  · rw [p, hc]; exact filter_set (fun c : Cmd => { c with started := true }) (fun _ => rfl) (fun _ => rfl)
  · obtain ⟨m, e⟩ := ho
    refine ⟨m ++ l, by rw [q, ← e, List.append_assoc], ?_⟩
    have e3 : s.finalEntry c st a b = y.finalEntry { c with started := true } st a b := by
      simp only [State.finalEntry, State.finalBytes, State.cq, State.sq, hq, hs, hu, Cmd.excess]
    rw [e3]
    exact r.trans (List.suffix_append m l).isInfix

end Sys2Proof.Machine
end

