-- ==== Sys2Proof/Laws/KeptHarbourCmds.lean ====
section
/-! SUPPORT. That each operation of Machine/HarbourCmds.lean keeps what `Kept` says (Laws/Kept.lean). -/

namespace Sys2Proof.Machine

theorem State.onPort_kept {s x : State} (port n : Nat) (f : State → State) (h_f : ∀ y, Kept s y → Kept s (f y)) (h : Kept s x) :
    Kept s (State.onPort port n f x) := by
  unfold State.onPort
  repeat' first
    | with_reducible assumption
    | with_reducible apply h_f
    | with_reducible apply State.heard_kept
    | with_reducible apply State.settleReset_kept
    | split

theorem State.takeFrame_kept {s x : State} (port : Nat) (fr : BucketFrame) (h : Kept s x) :
    Kept s (State.takeFrame port fr x) := by
  unfold State.takeFrame
  repeat' first
    | with_reducible assumption
    | with_reducible apply State.frameIn_kept
    | with_reducible apply State.tryClose_kept
    | split

theorem State.lateMember_kept {s x : State} (suspect waited : Nat) (h : Kept s x) :
    Kept s (State.lateMember suspect waited x) := by
  unfold State.lateMember
  repeat' first
    | with_reducible assumption
    | with_reducible apply State.bucketLate_kept
    | with_reducible apply State.settleReset_kept
    | split

theorem State.allowanceEnds_kept {s x : State} (h : Kept s x) :
    Kept s (State.allowanceEnds x) := by
  unfold State.allowanceEnds
  repeat' first
    | with_reducible assumption
    | with_reducible apply State.joinExpired_kept
    | split

end Sys2Proof.Machine
end

