-- ==== Sys2Proof/Laws/KeptIdle.lean ====
section
/-! SUPPORT. That each operation of Machine/Idle.lean keeps what `Kept` says (Laws/Kept.lean). -/

namespace Sys2Proof.Machine

theorem State.tick_kept {s x : State} (h : Kept s x) : Kept s (State.tick x) := by
  unfold State.tick
  split
  · exact kept_trans h ⟨rfl, List.prefix_refl _, le_rfl, fun _ => le_rfl, fun i => ⟨i.memory, i.sqs, i.cqs, i.stalls, i.quays, i.ports, i.vectors, i.log, i.counters, i.otp⟩⟩
  · exact h

end Sys2Proof.Machine
end

