-- ==== Sys2Proof/Laws/KeptPowerCmds.lean ====
section
/-! SUPPORT. That each operation of Machine/PowerCmds.lean keeps what `Kept` says (Laws/Kept.lean). -/

namespace Sys2Proof.Machine

theorem setUsec_kept {s x : State} (n : Nat) (h : Kept s x) : Kept s { x with usec := n } :=
  kept_trans h ⟨rfl, List.prefix_refl _, le_rfl, fun _ => le_rfl, fun i => ⟨i.memory, i.sqs, i.cqs, i.stalls, i.quays, i.ports, i.vectors, i.log, i.counters, i.otp⟩⟩

theorem State.setInput_kept {s x : State} (mv : Nat) (h : Kept s x) :
    Kept s (State.setInput mv x) := by
  unfold State.setInput
  repeat' first
    | with_reducible assumption
    | with_reducible apply modPower_kept

theorem State.powerUp_kept {s x : State} (mv straps : Nat) (h : Kept s x) : Kept s (State.powerUp mv straps x) := by
  unfold State.powerUp
  split
  · exact h
  · exact modPcie_kept _ (fun _ h => h) (modPower_kept _ (setUsec_kept 0
      (modMem_kept (fun _ => Mem.reset) (fun _ _ => Mem.reset_wf) (State.forget_kept .standby standbyDomains h))))

theorem State.powerDown_kept {s x : State} (h : Kept s x) : Kept s (State.powerDown x) := by
  unfold State.powerDown
  split
  · exact h
  · exact modPcie_kept _ (fun _ h => h) (modPower_kept _ (setUsec_kept 0
      (modMem_kept (fun _ => Mem.reset) (fun _ _ => Mem.reset_wf) (State.forget_kept .standby 0 h))))

theorem State.bootStart_kept {s x : State} (mv : Nat) (failed : List Nat) (h : Kept s x) :
    Kept s (State.bootStart mv failed x) := by
  unfold State.bootStart
  repeat' first
    | with_reducible assumption
    | with_reducible apply modPower_kept
    | with_reducible apply State.startUp_kept
    | split

theorem State.pwrEnLow_kept {s x : State} (h : Kept s x) :
    Kept s (State.pwrEnLow x) := by
  unfold State.pwrEnLow
  repeat' first
    | with_reducible assumption
    | with_reducible apply modPower_kept
    | with_reducible apply State.powerFail_kept
    | with_reducible apply State.toStandby_kept
    | ((try lift_lets); intro y; first | (refine (fun (_ : Kept s y) => ?_) ?_; (on_goal 1 => clear_value y); (on_goal 2 => subst y)) | clear_value y | skip)
    | split

theorem State.underVolt_kept {s x : State} (mv : Nat) (h : Kept s x) :
    Kept s (State.underVolt mv x) := by
  unfold State.underVolt
  repeat' first
    | with_reducible assumption
    | with_reducible apply modPower_kept
    | with_reducible apply State.raiseModule_kept
    | with_reducible apply State.powerFail_kept
    | with_reducible apply State.settleReset_kept
    | ((try lift_lets); intro y; first | (refine (fun (_ : Kept s y) => ?_) ?_; (on_goal 1 => clear_value y); (on_goal 2 => subst y)) | clear_value y | skip)
    | split

theorem State.underVoltClear_kept {s x : State} (mv : Nat) (h : Kept s x) :
    Kept s (State.underVoltClear mv x) := by
  unfold State.underVoltClear
  repeat' first
    | with_reducible assumption
    | with_reducible apply modPower_kept
    | split

theorem State.lockout_kept {s x : State} (mv : Nat) (h : Kept s x) :
    Kept s (State.lockout mv x) := by
  unfold State.lockout
  repeat' first
    | with_reducible assumption
    | with_reducible apply State.setInput_kept
    | with_reducible apply State.toStandby_kept
    | split

theorem State.overVolt_kept {s x : State} (mv : Nat) (h : Kept s x) :
    Kept s (State.overVolt mv x) := by
  unfold State.overVolt
  repeat' first
    | with_reducible assumption
    | with_reducible apply State.setInput_kept
    | with_reducible apply State.powerFail_kept
    | with_reducible apply State.toStandby_kept
    | ((try lift_lets); intro y; first | (refine (fun (_ : Kept s y) => ?_) ?_; (on_goal 1 => clear_value y); (on_goal 2 => subst y)) | clear_value y | skip)
    | split

theorem State.setTemp_kept {s x : State} (i : Nat) (t : BitVec 16) (h : Kept s x) :
    Kept s (State.setTemp i t x) := by
  unfold State.setTemp
  repeat' first
    | with_reducible assumption
    | with_reducible apply modPower_kept

theorem State.setThermal_kept {s x : State} (p step : Nat) (h : Kept s x) :
    Kept s (State.setThermal p step x) := by
  unfold State.setThermal
  repeat' first
    | with_reducible assumption
    | with_reducible apply modPower_kept

theorem State.checkReduced_kept {s x : State} (h : Kept s x) :
    Kept s (State.checkReduced x) := by
  unfold State.checkReduced
  repeat' first
    | with_reducible assumption
    | with_reducible apply State.endPromise_kept
    | split

theorem State.trackCool_kept {s x : State} (h : Kept s x) :
    Kept s (State.trackCool x) := by
  unfold State.trackCool
  repeat' first
    | with_reducible assumption
    | with_reducible apply modPower_kept
    | split

theorem State.thermalDown_kept {s x : State} (p : Nat) (h : Kept s x) :
    Kept s (State.thermalDown p x) := by
  unfold State.thermalDown
  repeat' first
    | with_reducible assumption
    | with_reducible apply State.setThermal_kept
    | with_reducible apply State.retuneStalls_kept
    | with_reducible apply State.raise_kept
    | with_reducible apply State.checkReduced_kept
    | ((try lift_lets); intro y; first | (refine (fun (_ : Kept s y) => ?_) ?_; (on_goal 1 => clear_value y); (on_goal 2 => subst y)) | clear_value y | skip)
    | split

theorem State.thermalUp_kept {s x : State} (p : Nat) (h : Kept s x) :
    Kept s (State.thermalUp p x) := by
  unfold State.thermalUp
  repeat' first
    | with_reducible assumption
    | with_reducible apply State.setThermal_kept
    | with_reducible apply State.retuneStalls_kept
    | ((try lift_lets); intro y; first | (refine (fun (_ : Kept s y) => ?_) ?_; (on_goal 1 => clear_value y); (on_goal 2 => subst y)) | clear_value y | skip)
    | split

theorem State.halveQuay_kept {s x : State} (pile : Nat) (t : BitVec 16) (h : Kept s x) :
    Kept s (State.halveQuay pile t x) := by
  unfold State.halveQuay
  repeat' first
    | with_reducible assumption
    | with_reducible apply State.setTemp_kept
    | with_reducible apply modPower_kept
    | with_reducible apply State.raise_kept
    | with_reducible apply State.checkReduced_kept
    | ((try lift_lets); intro y; first | (refine (fun (_ : Kept s y) => ?_) ?_; (on_goal 1 => clear_value y); (on_goal 2 => subst y)) | clear_value y | skip)
    | split

theorem State.restoreQuay_kept {s x : State} (r : DramReading) (h : Kept s x) :
    Kept s (State.restoreQuay r x) := by
  unfold State.restoreQuay
  repeat' first
    | with_reducible assumption
    | with_reducible apply State.setTemp_kept
    | with_reducible apply modPower_kept
    | split

theorem State.darkHalls_kept {s x : State} (h : Kept s x) :
    Kept s (State.darkHalls x) := by
  unfold State.darkHalls
  repeat' first
    | with_reducible assumption
    | with_reducible apply State.switch_kept

theorem State.thermalTrip_kept {s x : State} (sensor : Nat) (t : BitVec 16) (h : Kept s x) :
    Kept s (State.thermalTrip sensor t x) := by
  unfold State.thermalTrip
  repeat' first
    | with_reducible assumption
    | with_reducible apply State.setTemp_kept
    | with_reducible apply State.powerFail_kept
    | with_reducible apply State.moduleFault_kept
    | with_reducible apply State.darkHalls_kept
    | with_reducible apply State.settleReset_kept
    | ((try lift_lets); intro y; first | (refine (fun (_ : Kept s y) => ?_) ?_; (on_goal 1 => clear_value y); (on_goal 2 => subst y)) | clear_value y | skip)
    | split

theorem State.amrathTrip_kept {s x : State} (sensor : Nat) (t : BitVec 16) (h : Kept s x) :
    Kept s (State.amrathTrip sensor t x) := by
  unfold State.amrathTrip
  repeat' first
    | with_reducible assumption
    | with_reducible apply State.setTemp_kept
    | with_reducible apply State.toStandby_kept
    | with_reducible apply modPower_kept
    | split

theorem State.clockLost_kept {s x : State} (i : ClockIsland) (h : Kept s x) :
    Kept s (State.clockLost i x) := by
  unfold State.clockLost
  repeat' first
    | with_reducible assumption
    | with_reducible apply State.moduleFault_kept
    | with_reducible apply State.settleReset_kept
    | split

theorem State.railSettled_kept {s x : State} (i : Nat) (h : Kept s x) :
    Kept s (State.railSettled i x) := by
  unfold State.railSettled
  repeat' first
    | with_reducible assumption
    | with_reducible apply setStall_kept
    | with_reducible apply modStalls_kept
    | exact fun _ => List.length_map _
    | exact fun _ => (List.length_map _).trans List.length_zipIdx
    | split

theorem State.refreshSensors_kept {s x : State} (r : Readings) (h : Kept s x) :
    Kept s (State.refreshSensors r x) := by
  unfold State.refreshSensors
  repeat' first
    | with_reducible assumption
    | with_reducible apply modPower_kept
    | with_reducible apply setStall_kept
    | with_reducible apply setPort_kept
    | with_reducible apply State.count_kept
    | with_reducible apply State.trackCool_kept
    | with_reducible apply State.retuneStalls_kept
    | (with_reducible apply foldl_kept; on_goal 2 => intros)
    | ((try lift_lets); intro y; first | (refine (fun (_ : Kept s y) => ?_) ?_; (on_goal 1 => clear_value y); (on_goal 2 => subst y)) | clear_value y | skip)
    | split

theorem State.applyHeldCap_kept {s x : State} (h : Kept s x) :
    Kept s (State.applyHeldCap x) := by
  unfold State.applyHeldCap
  repeat' first
    | with_reducible assumption
    | with_reducible apply State.applyCap_kept
    | with_reducible apply State.finishAll_kept
    | split

end Sys2Proof.Machine
end

