-- ==== Sys2Proof/Laws/KeptSurvivalCmds.lean ====
section
/-! SUPPORT. That each operation of Machine/SurvivalCmds.lean keeps what `Kept` says (Laws/Kept.lean). -/

namespace Sys2Proof.Machine

theorem State.afterWrite_kept {s x : State} (h : Kept s x) :
    Kept s (State.afterWrite x) := by
  unfold State.afterWrite
  repeat' first
    | with_reducible assumption
    | with_reducible apply State.tryCommit_kept
    | with_reducible apply State.tryClose_kept
    | with_reducible apply State.settleReset_kept

theorem State.onPartner_kept {s x : State} (port kind bytes : Nat) (f : State → State) (h_f : ∀ y, Kept s y → Kept s (f y)) (h : Kept s x) :
    Kept s (State.onPartner port kind bytes f x) := by
  unfold State.onPartner
  repeat' first
    | with_reducible assumption
    | with_reducible apply h_f
    | with_reducible apply State.onPort_kept
    | with_reducible apply State.count_kept
    | refine fun (_ : State) (_ : Kept s _) => ?_

theorem State.localWritten_kept {s x : State} (h : Kept s x) :
    Kept s (State.localWritten x) := by
  unfold State.localWritten
  repeat' first
    | with_reducible assumption
    | with_reducible apply State.appendOwn_kept
    | with_reducible apply modJournal_kept
    | with_reducible apply State.afterWrite_kept
    | split

theorem State.flashFails_kept {s x : State} (h : Kept s x) :
    Kept s (State.flashFails x) := by
  unfold State.flashFails
  repeat' first
    | with_reducible assumption
    | with_reducible apply State.quarantined_kept
    | with_reducible apply State.flashFault_kept
    | with_reducible apply State.settleReset_kept
    | with_reducible apply modJournal_kept
    | split

theorem State.compactNow_kept {s x : State} (partner : Bool) (h : Kept s x) :
    Kept s (State.compactNow partner x) := by
  unfold State.compactNow
  repeat' first
    | with_reducible assumption
    | with_reducible apply State.compact_kept
    | ((try lift_lets); intro y; first | (refine (fun (_ : Kept s y) => ?_) ?_; (on_goal 1 => clear_value y); (on_goal 2 => subst y)) | clear_value y | skip)
    | split

theorem State.drainFragment_kept {s x : State} (q : Nat) (h : Kept s x) :
    Kept s (State.drainFragment q x) := by
  unfold State.drainFragment
  repeat' first
    | with_reducible assumption
    | with_reducible apply State.takeFragment_kept
    | with_reducible apply State.afterWrite_kept
    | split

theorem State.helloTimeout_kept {s x : State} (h : Kept s x) :
    Kept s (State.helloTimeout x) := by
  unfold State.helloTimeout
  repeat' first
    | with_reducible assumption
    | with_reducible apply State.failRestore_kept
    | split

theorem State.takeTransfer_kept {s x : State} (port : Nat) (p : StatePayload) (h : Kept s x) :
    Kept s (State.takeTransfer port p x) := by
  unfold State.takeTransfer
  repeat' first
    | with_reducible assumption
    | with_reducible apply State.transferIn_kept
    | split

end Sys2Proof.Machine
end

