-- ==== Sys2Proof/Laws/KeptQuayCmds.lean ====
section
/-! SUPPORT. That each operation of Machine/QuayCmds.lean keeps what `Kept` says (Laws/Kept.lean). -/

namespace Sys2Proof.Machine

theorem State.quayRead_kept {s x : State} (src : Source) (a n : Nat) (tensor : Option Nat) (hits : List ScrubHit) (h : Kept s x) :
    Kept s (State.quayRead src a n tensor hits x) := by
  unfold State.quayRead
  repeat' first
    | with_reducible assumption
    | with_reducible apply State.guarded_kept
    | with_reducible apply State.eccLines_kept
    | with_reducible apply State.count_kept
    | with_reducible apply emit_kept
    | refine fun (_ : State) (_ : Kept s _) => ?_

theorem State.quayWrite_kept {s x : State} (src : Source) (a : Nat) (tensor : Option Nat) (data : Bytes) (wide : Bool) (hits : List ScrubHit) (h : Kept s x) :
    Kept s (State.quayWrite src a tensor data wide hits x) := by
  unfold State.quayWrite
  repeat' first
    | with_reducible assumption
    | with_reducible apply State.guarded_kept
    | with_reducible apply State.eccLines_kept
    | with_reducible apply State.memWrite_kept
    | with_reducible apply State.storeReport_kept
    | refine fun (_ : State) (_ : Kept s _) => ?_
    | refine fun _ (_ : State) (_ : Kept s _) => ?_
    | ((try lift_lets); intro y; first | (refine (fun (_ : Kept s y) => ?_) ?_; (on_goal 1 => clear_value y); (on_goal 2 => subst y)) | clear_value y | skip)
    | split

theorem State.addIn_kept {s x : State} (record inst loc step attempt : Nat) (c : Contribution) (h : Kept s x) :
    Kept s (State.addIn record inst loc step attempt c x) := by
  unfold State.addIn
  repeat' first
    | with_reducible assumption
    | with_reducible apply State.regionAdd_kept
    | split

theorem State.scrub_kept {s x : State} (pile : Nat) (hits : List ScrubHit) (h : Kept s x) :
    Kept s (State.scrub pile hits x) := by
  unfold State.scrub
  repeat' first
    | with_reducible assumption
    | with_reducible apply State.ecc_kept
    | with_reducible apply State.count_kept
    | with_reducible apply State.settleReset_kept
    | (with_reducible apply foldl_kept; on_goal 2 => intros)
    | ((try lift_lets); intro y; first | (refine (fun (_ : Kept s y) => ?_) ?_; (on_goal 1 => clear_value y); (on_goal 2 => subst y)) | clear_value y | skip)
    | split

theorem State.packBlock_kept {s x : State} (entry group tb f : Nat) (h : Kept s x) :
    Kept s (State.packBlock entry group tb f x) := by
  unfold State.packBlock
  repeat' first
    | with_reducible assumption
    | with_reducible apply State.packStash_kept
    | with_reducible apply modRun_kept
    | split

end Sys2Proof.Machine
end

