-- ==== Sys2Proof/Laws/KeptQueueCmds.lean ====
section
/-! SUPPORT. That each operation of Machine/QueueCmds.lean keeps what `Kept` says (Laws/Kept.lean). -/

namespace Sys2Proof.Machine

theorem State.ringTail_kept {s x : State} (q value : Nat) (placed : List Placed) (h : Kept s x) :
    Kept s (State.ringTail q value placed x) := by
  unfold State.ringTail
  repeat' first
    | with_reducible assumption
    | with_reducible apply State.violation_kept
    | with_reducible apply setSq_kept
    | with_reducible apply State.fetch_kept
    | split

theorem State.ringHead_kept {s x : State} (q value : Nat) (h : Kept s x) :
    Kept s (State.ringHead q value x) := by
  unfold State.ringHead
  repeat' first
    | with_reducible assumption
    | with_reducible apply State.violation_kept
    | with_reducible apply setCq_kept
    | with_reducible apply State.fetch_kept
    | ((try lift_lets); intro y; first | (refine (fun (_ : Kept s y) => ?_) ?_; (on_goal 1 => clear_value y); (on_goal 2 => subst y)) | clear_value y | skip)
    | split

theorem State.requestPosted_kept {s x : State} (e : Entry) (h : Kept s x) :
    Kept s (State.requestPosted e x) := by
  unfold State.requestPosted
  repeat' first
    | with_reducible assumption
    | with_reducible apply modRun_kept
    | split

theorem State.postHeld_kept {s x : State} (q : Nat) (h : Kept s x) :
    Kept s (State.postHeld q x) := by
  unfold State.postHeld
  repeat' first
    | with_reducible assumption
    | with_reducible apply State.rest_kept
    | with_reducible apply setCq_kept
    | with_reducible apply State.write_kept
    | with_reducible apply State.requestPosted_kept
    | with_reducible apply State.fetch_kept
    | exact fun _ h => Mem.write_wf _ _ h
    | split

theorem State.queueRefused_kept {s x : State} (sub : Bool) (q k : Nat) (h : Kept s x) :
    Kept s (State.queueRefused sub q k x) := by
  unfold State.queueRefused
  repeat' first
    | with_reducible assumption
    | with_reducible apply State.violation_kept

theorem State.sqCtrl_kept {s x : State} (q : Nat) (enable : Bool) (cq log2 : Nat) (h : Kept s x) :
    Kept s (State.sqCtrl q enable cq log2 x) := by
  unfold State.sqCtrl
  repeat' first
    | with_reducible assumption
    | with_reducible apply setSq_kept
    | with_reducible apply State.queueRefused_kept
    | ((try lift_lets); intro y; first | (refine (fun (_ : Kept s y) => ?_) ?_; (on_goal 1 => clear_value y); (on_goal 2 => subst y)) | clear_value y | skip)
    | split

theorem State.loseEntries_kept {s x : State} (q : Nat) (h : Kept s x) :
    Kept s (State.loseEntries q x) := by
  unfold State.loseEntries
  repeat' first
    | with_reducible assumption
    | with_reducible apply State.violation_kept
    | with_reducible apply modCmds_kept
    | (with_reducible apply foldl_kept; on_goal 2 => intros)

theorem State.cqCtrl_kept {s x : State} (q : Nat) (enable intEnable : Bool) (vector log2 : Nat) (h : Kept s x) :
    Kept s (State.cqCtrl q enable intEnable vector log2 x) := by
  unfold State.cqCtrl
  repeat' first
    | with_reducible assumption
    | with_reducible apply setCq_kept
    | with_reducible apply State.loseEntries_kept
    | with_reducible apply State.queueRefused_kept
    | with_reducible apply State.fetch_kept
    | ((try lift_lets); intro y; first | (refine (fun (_ : Kept s y) => ?_) ?_; (on_goal 1 => clear_value y); (on_goal 2 => subst y)) | clear_value y | skip)
    | split

theorem State.sqBase_kept {s x : State} (q addr : Nat) (h : Kept s x) :
    Kept s (State.sqBase q addr x) := by
  unfold State.sqBase
  repeat' first
    | with_reducible assumption
    | with_reducible apply State.queueRefused_kept
    | with_reducible apply setSq_kept
    | split

theorem State.cqBase_kept {s x : State} (q addr : Nat) (h : Kept s x) :
    Kept s (State.cqBase q addr x) := by
  unfold State.cqBase
  repeat' first
    | with_reducible assumption
    | with_reducible apply State.queueRefused_kept
    | with_reducible apply setCq_kept
    | split

end Sys2Proof.Machine
end

