-- ==== Sys2Proof/Laws/KeptRegCmds.lean ====
section
/-! SUPPORT. That each operation of Machine/RegCmds.lean keeps what `Kept` says (Laws/Kept.lean). -/

namespace Sys2Proof.Machine

theorem Telemetry.clearSat_ok (c : Nat) (t : Telemetry) (h : t.Ok) : (t.clearSat c).Ok := by
  unfold Telemetry.clearSat
  split
  · exact kvPut_ok _ _ (Nat.zero_le _) h
  · exact h

theorem State.evAck_kept {s x : State} (seq : Nat) (h : Kept s x) :
    Kept s (State.evAck seq x) := by
  unfold State.evAck
  repeat' first
    | with_reducible assumption
    | with_reducible apply modLog_kept
    | with_reducible apply State.msix_kept
    | exact fun _ h => h
    | exact fun h => h
    | ((try lift_lets); intro y; first | (refine (fun (_ : Kept s y) => ?_) ?_; (on_goal 1 => clear_value y); (on_goal 2 => subst y)) | clear_value y | skip)
    | split

theorem State.evCtrl_kept {s x : State} (intEn : Bool) (vector : Nat) (alertMask : BitVec 9) (h : Kept s x) :
    Kept s (State.evCtrl intEn vector alertMask x) := by
  unfold State.evCtrl
  repeat' first
    | with_reducible assumption
    | with_reducible apply modLog_kept
    | exact fun _ h => h
    | exact fun h => h

theorem State.clearSats_kept {s x : State} (o size mask : Nat) (h : Kept s x) :
    Kept s (State.clearSats o size mask x) := by
  unfold State.clearSats
  repeat' first
    | with_reducible assumption
    | with_reducible apply modTm_kept
    | (with_reducible apply foldl_kept; on_goal 2 => intros)
    | exact fun _ h => h
    | exact fun h => h
    | exact Telemetry.clearSat_ok _
    | exact fun t ht => t.clearSat_ok _ ht
    | ((try lift_lets); intro y; first | (refine (fun (_ : Kept s y) => ?_) ?_; (on_goal 1 => clear_value y); (on_goal 2 => subst y)) | clear_value y | skip)
    | split

theorem State.freeze_kept {s x : State} (h : Kept s x) :
    Kept s (State.freeze x) := by
  unfold State.freeze
  repeat' first
    | with_reducible assumption
    | with_reducible apply modTm_kept
    | exact fun _ h => h
    | exact fun h => h
    | split

theorem State.unfreeze_kept {s x : State} (h : Kept s x) :
    Kept s (State.unfreeze x) := by
  unfold State.unfreeze
  repeat' first
    | with_reducible assumption
    | with_reducible apply modTm_kept
    | exact fun _ h => h

theorem State.sendPending_kept {s x : State} (v : Nat) (h : Kept s x) :
    Kept s (State.sendPending v x) := by
  unfold State.sendPending
  repeat' first
    | with_reducible assumption
    | with_reducible apply State.msix_kept
    | with_reducible apply modPcie_kept
    | exact fun _ h => h
    | exact fun h => h
    | split

theorem State.unmask_kept {s x : State} (v : Nat) (h : Kept s x) :
    Kept s (State.unmask v x) := by
  unfold State.unmask
  repeat' first
    | with_reducible assumption
    | with_reducible apply modPcie_kept
    | with_reducible apply State.msix_kept
    | with_reducible apply State.sendPending_kept
    | exact fun _ h => h
    | exact fun h => h
    | exact fun _ h => (modAt_length _ _ _).trans h

theorem State.bwWrite_kept {s x : State} (v : Nat) (h : Kept s x) :
    Kept s (State.bwWrite v x) := by
  unfold State.bwWrite
  repeat' first
    | with_reducible assumption
    | with_reducible apply modPcie_kept
    | exact fun _ h => h

theorem State.bar0Load_kept {s x : State} (o size : Nat) (h : Kept s x) :
    Kept s (State.bar0Load o size x).2 := by
  unfold State.bar0Load
  repeat' first
    | with_reducible assumption
    | with_reducible apply State.violation_kept
    | split

theorem State.bwRead_kept {s x : State} (h : Kept s x) :
    Kept s (State.bwRead x) := by
  unfold State.bwRead
  repeat' first
    | with_reducible assumption
    | with_reducible apply State.bar0Load_kept
    | with_reducible apply emit_kept
    | with_reducible apply modPcie_kept
    | refine kept_of_eq (by assumption) ?_
    | exact fun _ h => h

theorem State.windowUsed_kept {s x : State} (h : Kept s x) :
    Kept s (State.windowUsed x) := by
  unfold State.windowUsed
  repeat' first
    | with_reducible assumption
    | with_reducible apply State.takeFree_kept
    | refine kept_of_eq (by assumption) ?_
    | split

theorem State.writeHm_kept {s x : State} (o size value : Nat) (h : Kept s x) :
    Kept s (State.writeHm o size value x) := by
  unfold State.writeHm
  repeat' first
    | with_reducible assumption
    | with_reducible apply State.freeze_kept
    | with_reducible apply State.unfreeze_kept
    | with_reducible apply State.requestReset_kept
    | ((try lift_lets); intro y; first | (refine (fun (_ : Kept s y) => ?_) ?_; (on_goal 1 => clear_value y); (on_goal 2 => subst y)) | clear_value y | skip)
    | split

theorem State.writeMsix_kept {s x : State} (o size value : Nat) (h : Kept s x) :
    Kept s (State.writeMsix o size value x) := by
  unfold State.writeMsix
  repeat' first
    | with_reducible assumption
    | with_reducible apply State.msix_kept
    | with_reducible apply modPcie_kept
    | with_reducible apply State.sendPending_kept
    | exact fun _ h => h
    | exact fun h => h
    | exact fun _ h => (modAt_length _ _ _).trans h

theorem State.writeQueue_kept {s x : State} (o size value : Nat) (h : Kept s x) :
    Kept s (State.writeQueue o size value x) := by
  unfold State.writeQueue
  repeat' first
    | with_reducible assumption
    | with_reducible apply State.sqBase_kept
    | with_reducible apply State.cqBase_kept
    | with_reducible apply State.sqCtrl_kept
    | with_reducible apply State.cqCtrl_kept
    | ((try lift_lets); intro y; first | (refine (fun (_ : Kept s y) => ?_) ?_; (on_goal 1 => clear_value y); (on_goal 2 => subst y)) | clear_value y | skip)
    | split

theorem State.writeReg_kept {s x : State} (o size value : Nat) (h : Kept s x) :
    Kept s (State.writeReg o size value x) := by
  unfold State.writeReg
  repeat' first
    | with_reducible assumption
    | with_reducible apply State.writeHm_kept
    | with_reducible apply State.evCtrl_kept
    | with_reducible apply State.evAck_kept
    | with_reducible apply State.clearSats_kept
    | with_reducible apply State.ringHead_kept
    | with_reducible apply State.writeMsix_kept
    | with_reducible apply State.writeQueue_kept
    | with_reducible apply modSnap_kept
    | with_reducible apply State.bwWrite_kept
    | ((try lift_lets); intro y; first | (refine (fun (_ : Kept s y) => ?_) ?_; (on_goal 1 => clear_value y); (on_goal 2 => subst y)) | clear_value y | skip)
    | split

theorem State.bar0Write_kept {s x : State} (o size value : Nat) (h : Kept s x) :
    Kept s (State.bar0Write o size value x) := by
  unfold State.bar0Write
  repeat' first
    | with_reducible assumption
    | with_reducible apply State.writeReg_kept
    | with_reducible apply State.violation_kept
    | split

theorem State.bar2Refused_kept {s x : State} (a : Nat) (h : Kept s x) :
    Kept s (State.bar2Refused a x) := by
  unfold State.bar2Refused
  repeat' first
    | with_reducible assumption
    | with_reducible apply modPcie_kept
    | with_reducible apply State.violation_kept
    | exact fun _ h => h

theorem State.bar2Read_kept {s x : State} (o n : Nat) (hits : List ScrubHit) (h : Kept s x) :
    Kept s (State.bar2Read o n hits x) := by
  unfold State.bar2Read
  repeat' first
    | with_reducible assumption
    | with_reducible apply State.windowUsed_kept
    | with_reducible apply emit_kept
    | with_reducible apply State.bar2Refused_kept
    | with_reducible apply State.eccLines_kept
    | ((try lift_lets); intro y; first | (refine (fun (_ : Kept s y) => ?_) ?_; (on_goal 1 => clear_value y); (on_goal 2 => subst y)) | clear_value y | skip)
    | split

theorem State.hostImport_kept {s x : State} (a n : Nat) (h : Kept s x) :
    Kept s (State.hostImport a n x) := by
  unfold State.hostImport
  repeat' first
    | with_reducible assumption
    | with_reducible apply modJob_kept
    | with_reducible apply State.raiseModule_kept
    | split

theorem State.bar2Write_kept {s x : State} (o : Nat) (d : Bytes) (h : Kept s x) :
    Kept s (State.bar2Write o d x) := by
  unfold State.bar2Write
  repeat' first
    | with_reducible assumption
    | with_reducible apply State.windowUsed_kept
    | with_reducible apply State.bar2Refused_kept
    | with_reducible apply State.memWrite_kept
    | with_reducible apply State.hostImport_kept
    | ((try lift_lets); intro y; first | (refine (fun (_ : Kept s y) => ?_) ?_; (on_goal 1 => clear_value y); (on_goal 2 => subst y)) | clear_value y | skip)
    | split

theorem State.doe_kept {s x : State} (object : Nat) (b : Bytes) (h : Kept s x) :
    Kept s (State.doe object b x) := by
  unfold State.doe
  repeat' first
    | with_reducible assumption
    | with_reducible apply emit_kept
    | split

theorem State.dmaAbort_kept {s x : State} (sq cid addr : Nat) (h : Kept s x) :
    Kept s (State.dmaAbort sq cid addr x) := by
  unfold State.dmaAbort
  repeat' first
    | with_reducible assumption
    | with_reducible apply State.violation_kept
    | with_reducible apply State.abandonAttempt_kept
    | with_reducible apply State.rest_kept
    | with_reducible apply State.finishCmd_kept
    | with_reducible apply State.abandonSnapshot_kept
    | with_reducible apply modRun_kept
    | ((try lift_lets); intro y; first | (refine (fun (_ : Kept s y) => ?_) ?_; (on_goal 1 => clear_value y); (on_goal 2 => subst y)) | clear_value y | skip)
    | split

theorem State.dmaBatch_kept {s x : State} (step group addr : Nat) (h : Kept s x) :
    Kept s (State.dmaBatch step group addr x) := by
  unfold State.dmaBatch
  repeat' first
    | with_reducible assumption
    | with_reducible apply State.violation_kept
    | with_reducible apply modJob_kept
    | with_reducible apply modRun_kept
    | ((try lift_lets); intro y; first | (refine (fun (_ : Kept s y) => ?_) ?_; (on_goal 1 => clear_value y); (on_goal 2 => subst y)) | clear_value y | skip)
    | split

end Sys2Proof.Machine
end

