-- ==== Sys2Proof/Laws/KeptResetCmds.lean ====
section
/-! SUPPORT. That each operation of Machine/ResetCmds.lean keeps what `Kept` says (Laws/Kept.lean). -/

namespace Sys2Proof.Machine

theorem State.resetNLow_kept {s x : State} (h : Kept s x) :
    Kept s (State.resetNLow x) := by
  unfold State.resetNLow
  repeat' first
    | with_reducible assumption
    | with_reducible apply modPower_kept
    | with_reducible apply State.requestReset_kept
    | ((try lift_lets); intro y; first | (refine (fun (_ : Kept s y) => ?_) ?_; (on_goal 1 => clear_value y); (on_goal 2 => subst y)) | clear_value y | skip)
    | split

theorem State.resetNRelease_kept {s x : State} (failed : List Nat) (h : Kept s x) :
    Kept s (State.resetNRelease failed x) := by
  unfold State.resetNRelease
  repeat' first
    | with_reducible assumption
    | with_reducible apply modPower_kept
    | with_reducible apply State.finishBoot_kept
    | ((try lift_lets); intro y; first | (refine (fun (_ : Kept s y) => ?_) ?_; (on_goal 1 => clear_value y); (on_goal 2 => subst y)) | clear_value y | skip)
    | split

theorem State.busMasterOff_kept {s x : State} (h : Kept s x) :
    Kept s (State.busMasterOff x) := by
  unfold State.busMasterOff
  repeat' first
    | with_reducible assumption
    | with_reducible apply State.hostGone_kept
    | with_reducible apply State.settleReset_kept
    | split

theorem State.busMasterOn_kept {s x : State} (h : Kept s x) :
    Kept s (State.busMasterOn x) := by
  unfold State.busMasterOn
  repeat' first
    | with_reducible assumption
    | with_reducible apply State.sendPending_kept
    | with_reducible apply modPcie_kept
    | (with_reducible apply foldl_kept; on_goal 2 => intros)
    | exact fun _ h => h
    | exact fun h => h
    | split

theorem State.flr_kept {s x : State} (h : Kept s x) :
    Kept s (State.flr x) := by
  unfold State.flr
  repeat' first
    | with_reducible assumption
    | with_reducible apply State.functionReset_kept
    | with_reducible apply State.settleReset_kept
    | split

theorem State.perstOn_kept {s x : State} (h : Kept s x) :
    Kept s (State.perstOn x) := by
  unfold State.perstOn
  repeat' first
    | with_reducible assumption
    | with_reducible apply modPcie_kept
    | with_reducible apply State.hostGone_kept
    | with_reducible apply State.resetQueues_kept
    | with_reducible apply State.settleReset_kept
    | exact fun _ h => h
    | exact fun h => h
    | ((try lift_lets); intro y; first | (refine (fun (_ : Kept s y) => ?_) ?_; (on_goal 1 => clear_value y); (on_goal 2 => subst y)) | clear_value y | skip)
    | split

theorem State.perstOff_kept {s x : State} (h : Kept s x) :
    Kept s (State.perstOff x) := by
  unfold State.perstOff
  repeat' first
    | with_reducible assumption
    | with_reducible apply modPcie_kept
    | with_reducible apply State.trainLink_kept
    | exact fun _ h => h
    | exact fun h => h
    | ((try lift_lets); intro y; first | (refine (fun (_ : Kept s y) => ?_) ?_; (on_goal 1 => clear_value y); (on_goal 2 => subst y)) | clear_value y | skip)
    | split

end Sys2Proof.Machine
end

