-- ==== Sys2Proof/Laws/KeptTideCmds.lean ====
section
/-! SUPPORT. That each operation of Machine/TideCmds.lean keeps what `Kept` says (Laws/Kept.lean). -/

namespace Sys2Proof.Machine

theorem State.onTides_kept {s x : State} (f : Table → State → State) (h_f : ∀ a0 y, Kept s y → Kept s (f a0 y)) (h : Kept s x) :
    Kept s (State.onTides f x) := by
  unfold State.onTides
  repeat' first
    | with_reducible assumption
    | with_reducible apply h_f
    | split

theorem State.issueNext_kept {s x : State} (i : Nat) (t : Table) (h : Kept s x) :
    Kept s (State.issueNext i t x) := by
  unfold State.issueNext
  repeat' first
    | with_reducible assumption
    | with_reducible apply State.setTide_kept
    | split

theorem State.storeEcc_kept {s x : State} (i : Nat) (o : EccOutcome) (off : Nat) (h : Kept s x) :
    Kept s (State.storeEcc i o off x) := by
  unfold State.storeEcc
  repeat' first
    | with_reducible assumption
    | with_reducible apply State.count_kept
    | with_reducible apply State.raise_kept
    | with_reducible apply State.moduleFault_kept
    | split

theorem State.startNext_kept {s x : State} (i : Nat) (ecc : EccOutcome) (off : Nat) (t : Table) (h : Kept s x) :
    Kept s (State.startNext i ecc off t x) := by
  unfold State.startNext
  repeat' first
    | with_reducible assumption
    | with_reducible apply State.conflicts_kept
    | with_reducible apply State.ecc_kept
    | with_reducible apply State.storeEcc_kept
    | with_reducible apply State.startTide_kept
    | ((try lift_lets); intro y; first | (refine (fun (_ : Kept s y) => ?_) ?_; (on_goal 1 => clear_value y); (on_goal 2 => subst y)) | clear_value y | skip)
    | split

theorem State.finishTide_kept {s x : State} (record inst : Nat) (t : Table) (h : Kept s x) :
    Kept s (State.finishTide record inst t x) := by
  unfold State.finishTide
  repeat' first
    | with_reducible assumption
    | with_reducible apply State.completeTide_kept
    | split

theorem State.deadlock_kept {s x : State} (i record inst : Nat) (t : Table) (h : Kept s x) :
    Kept s (State.deadlock i record inst t x) := by
  unfold State.deadlock
  repeat' first
    | with_reducible assumption
    | with_reducible apply State.raise_kept
    | with_reducible apply State.moduleFault_kept
    | split

theorem State.openNow_kept {s x : State} (record inst : Nat) (t : Table) (h : Kept s x) :
    Kept s (State.openNow record inst t x) := by
  unfold State.openNow
  repeat' first
    | with_reducible assumption
    | with_reducible apply State.openRegion_kept
    | with_reducible apply State.tideDone_kept
    | split

theorem State.loadedPlane_kept {s x : State} (l : PlaneLoad) (t : Table) (h : Kept s x) :
    Kept s (State.loadedPlane l t x) := by
  unfold State.loadedPlane
  repeat' first
    | with_reducible assumption
    | with_reducible apply State.ecc_kept
    | with_reducible apply State.storeEcc_kept
    | with_reducible apply State.planeLoaded_kept
    | split

end Sys2Proof.Machine
end

