-- ==== Sys2Proof/Laws/KeptRunCmds.lean ====
section
/-! SUPPORT. That each operation of Machine/RunCmds.lean keeps what `Kept` says (Laws/Kept.lean). -/

namespace Sys2Proof.Machine

theorem State.takeToken_kept {s x : State} (t : Table) (logits : List Val) (r : ServeReq) (h : Kept s x) :
    Kept s (State.takeToken t logits r x) := by
  unfold State.takeToken
  repeat' first
    | with_reducible assumption
    | with_reducible apply emit_kept
    | with_reducible apply State.count_kept
    | with_reducible apply modRun_kept
    | with_reducible apply State.finishServe_kept
    | ((try lift_lets); intro y; first | (refine (fun (_ : Kept s y) => ?_) ?_; (on_goal 1 => clear_value y); (on_goal 2 => subst y)) | clear_value y | skip)
    | split

theorem State.nextCycle_kept {s x : State} (t : Table) (h : Kept s x) :
    Kept s (State.nextCycle t x) := by
  unfold State.nextCycle
  repeat' first
    | with_reducible assumption
    | with_reducible apply modRun_kept
    | with_reducible apply State.passBarriers_kept

theorem State.boundary_kept {s x : State} (t : Table) (h : Kept s x) :
    Kept s (State.boundary t x) := by
  unfold State.boundary
  repeat' first
    | with_reducible assumption
    | with_reducible apply State.takeToken_kept
    | with_reducible apply State.endRun_kept
    | with_reducible apply State.nextCycle_kept
    | (with_reducible apply foldl_kept; on_goal 2 => intros)
    | ((try lift_lets); intro y; first | (refine (fun (_ : Kept s y) => ?_) ?_; (on_goal 1 => clear_value y); (on_goal 2 => subst y)) | clear_value y | skip)
    | split

theorem State.onTable_kept {s x : State} (f : Table → State → State) (h_f : ∀ a0 y, Kept s y → Kept s (f a0 y)) (h : Kept s x) :
    Kept s (State.onTable f x) := by
  unfold State.onTable
  repeat' first
    | with_reducible assumption
    | with_reducible apply h_f
    | with_reducible apply State.settleReset_kept
    | split

end Sys2Proof.Machine
end

