-- ==== Sys2Proof/Laws/Only.lean ====
section
/-! SUPPORT. Which parts of the state an operation can change: `Only ks s x` says that `x` is `s` but for the parts `ks`. One law for
each operation, in the files Laws/Only*.lean. -/

namespace Sys2Proof.Machine

/-- The parts of the state. -/
inductive Part
  | pending | out | freeCtr | usec | power | boot | pcie | sqs | cqs | sqTurn | cmds | log | tm | job | mem | run | stalls | quays | snap
  | journal | harbour | ports | test
deriving DecidableEq, Repr

/-- Two states agree on a part. -/
def State.SameAt (s x : State) : Part → Prop
  | .pending => x.pending = s.pending
  | .out => x.out = s.out
  | .freeCtr => x.freeCtr = s.freeCtr
  | .usec => x.usec = s.usec
  | .power => x.power = s.power
  | .boot => x.boot = s.boot
  | .pcie => x.pcie = s.pcie
  | .sqs => x.sqs = s.sqs
  | .cqs => x.cqs = s.cqs
  | .sqTurn => x.sqTurn = s.sqTurn
  | .cmds => x.cmds = s.cmds
  | .log => x.log = s.log
  | .tm => x.tm = s.tm
  | .job => x.job = s.job
  | .mem => x.mem = s.mem
  | .run => x.run = s.run
  | .stalls => x.stalls = s.stalls
  | .quays => x.quays = s.quays
  | .snap => x.snap = s.snap
  | .journal => x.journal = s.journal
  | .harbour => x.harbour = s.harbour
  | .ports => x.ports = s.ports
  | .test => x.test = s.test

/-- The two states agree on every part that is not listed. -/
structure Only (ks : List Part) (s x : State) : Prop where
  same : ∀ k, k ∉ ks → s.SameAt x k

theorem only_refl (ks : List Part) (s : State) : Only ks s s := ⟨fun k _ => by cases k <;> rfl⟩

theorem only_trans {ks : List Part} {s x y : State} (h : Only ks s x) (g : Only ks x y) : Only ks s y := by
  refine ⟨fun k hk => ?_⟩
  have h := h.same k hk
  have g := g.same k hk
  cases k <;> exact Eq.trans g h

theorem only_mono {ks ls : List Part} {s x : State} (h : Only ks s x) (hk : ks ⊆ ls) : Only ls s x :=
  ⟨fun k hl => h.same k fun e => hl (hk e)⟩

theorem subset_of {ks ls ms : List Part} (h : ∀ k ∈ ks, k ∈ ls) (g : ls ⊆ ms) : ks ⊆ ms := fun _ e => g (h _ e)

theorem foldl_only {α : Type} {ks : List Part} {s x : State} {f : State → α → State} {l : List α} (h : Only ks s x)
    (hf : ∀ y a, Only ks s y → Only ks s (f y a)) : Only ks s (l.foldl f x) := by
  induction l generalizing x with
  | nil => exact h
  | cons a l ih => exact ih (hf x a h)

theorem foldl_only_snd {α β : Type} {ks : List Part} {s : State} {p : β × State} {f : β × State → α → β × State} {l : List α}
    (h : Only ks s p.2) (hf : ∀ y a, Only ks s y.2 → Only ks s (f y a).2) : Only ks s (l.foldl f p).2 := by
  induction l generalizing p with
  | nil => exact h
  | cons a l ih => exact ih (hf p a h)

/-- The state of a pair that an operation answered. -/
theorem only_of_eq {α : Type} {ks : List Part} {s x : State} {p : α × State} {a : α} (e : p = (a, x)) (h : Only ks s p.2) : Only ks s x := by
  cases e
  exact h

/-! ## Updates of one part -/

section
variable {ks : List Part} {s x : State}

/-- An update that agrees on every part but one. -/
theorem only_of {y : State} {p : Part} (h : Only ks s x) (hk : [p] ⊆ ks) (e : ∀ k, k ≠ p → x.SameAt y k) : Only ks s y :=
  only_trans h ⟨fun k hn => e k fun h => hn (hk (by simp [h]))⟩

theorem emit_only (o : Output) (hk : [.out] ⊆ ks) (h : Only ks s x) : Only ks s (x.emit o) :=
  only_of h hk fun k hn => by cases k <;> first | rfl | exact absurd rfl hn

theorem setFree_only (n : Nat) (hk : [.freeCtr] ⊆ ks) (h : Only ks s x) : Only ks s { x with freeCtr := n } :=
  only_of h hk fun k hn => by cases k <;> first | rfl | exact absurd rfl hn

theorem setTurn_only (n : Nat) (hk : [.sqTurn] ⊆ ks) (h : Only ks s x) : Only ks s { x with sqTurn := n } :=
  only_of h hk fun k hn => by cases k <;> first | rfl | exact absurd rfl hn

theorem setUsec_only (n : Nat) (hk : [.usec] ⊆ ks) (h : Only ks s x) : Only ks s { x with usec := n } :=
  only_of h hk fun k hn => by cases k <;> first | rfl | exact absurd rfl hn

theorem State.takeFree_only (hk : [.freeCtr] ⊆ ks) (h : Only ks s x) : Only ks s x.takeFree.2 := setFree_only _ hk h

theorem modPower_only (g : Power → Power) (hk : [.power] ⊆ ks) (h : Only ks s x) : Only ks s (x.modPower g) :=
  only_of h hk fun k hn => by cases k <;> first | rfl | exact absurd rfl hn

theorem modBoot_only (g : Boot → Boot) (hk : [.boot] ⊆ ks) (h : Only ks s x) : Only ks s (x.modBoot g) :=
  only_of h hk fun k hn => by cases k <;> first | rfl | exact absurd rfl hn

theorem modPcie_only (g : Pcie → Pcie) (hk : [.pcie] ⊆ ks) (h : Only ks s x) : Only ks s (x.modPcie g) :=
  only_of h hk fun k hn => by cases k <;> first | rfl | exact absurd rfl hn

theorem modSqs_only (g : List Sq → List Sq) (hk : [.sqs] ⊆ ks) (h : Only ks s x) : Only ks s (x.modSqs g) :=
  only_of h hk fun k hn => by cases k <;> first | rfl | exact absurd rfl hn

theorem modCqs_only (g : List Cq → List Cq) (hk : [.cqs] ⊆ ks) (h : Only ks s x) : Only ks s (x.modCqs g) :=
  only_of h hk fun k hn => by cases k <;> first | rfl | exact absurd rfl hn

theorem modCmds_only (g : List Cmd → List Cmd) (hk : [.cmds] ⊆ ks) (h : Only ks s x) : Only ks s (x.modCmds g) :=
  only_of h hk fun k hn => by cases k <;> first | rfl | exact absurd rfl hn

theorem modLog_only (g : EventLog → EventLog) (hk : [.log] ⊆ ks) (h : Only ks s x) : Only ks s (x.modLog g) :=
  only_of h hk fun k hn => by cases k <;> first | rfl | exact absurd rfl hn

theorem modTm_only (g : Telemetry → Telemetry) (hk : [.tm] ⊆ ks) (h : Only ks s x) : Only ks s (x.modTm g) :=
  only_of h hk fun k hn => by cases k <;> first | rfl | exact absurd rfl hn

theorem modJob_only (g : Job → Job) (hk : [.job] ⊆ ks) (h : Only ks s x) : Only ks s (x.modJob g) :=
  only_of h hk fun k hn => by cases k <;> first | rfl | exact absurd rfl hn

theorem modMem_only (g : Mem → Mem) (hk : [.mem] ⊆ ks) (h : Only ks s x) : Only ks s (x.modMem g) :=
  only_of h hk fun k hn => by cases k <;> first | rfl | exact absurd rfl hn

theorem modRun_only (g : Run → Run) (hk : [.run] ⊆ ks) (h : Only ks s x) : Only ks s (x.modRun g) :=
  only_of h hk fun k hn => by cases k <;> first | rfl | exact absurd rfl hn

theorem modStalls_only (g : List Stall → List Stall) (hk : [.stalls] ⊆ ks) (h : Only ks s x) : Only ks s (x.modStalls g) :=
  only_of h hk fun k hn => by cases k <;> first | rfl | exact absurd rfl hn

theorem modQuays_only (g : List Quay → List Quay) (hk : [.quays] ⊆ ks) (h : Only ks s x) : Only ks s (x.modQuays g) :=
  only_of h hk fun k hn => by cases k <;> first | rfl | exact absurd rfl hn

theorem modSnap_only (g : Snap → Snap) (hk : [.snap] ⊆ ks) (h : Only ks s x) : Only ks s (x.modSnap g) :=
  only_of h hk fun k hn => by cases k <;> first | rfl | exact absurd rfl hn

theorem modJournal_only (g : Journal → Journal) (hk : [.journal] ⊆ ks) (h : Only ks s x) : Only ks s (x.modJournal g) :=
  only_of h hk fun k hn => by cases k <;> first | rfl | exact absurd rfl hn

theorem modHarbour_only (g : Harbour → Harbour) (hk : [.harbour] ⊆ ks) (h : Only ks s x) : Only ks s (x.modHarbour g) :=
  only_of h hk fun k hn => by cases k <;> first | rfl | exact absurd rfl hn

theorem modPorts_only (g : List Port → List Port) (hk : [.ports] ⊆ ks) (h : Only ks s x) : Only ks s (x.modPorts g) :=
  only_of h hk fun k hn => by cases k <;> first | rfl | exact absurd rfl hn

theorem modTest_only (g : Test → Test) (hk : [.test] ⊆ ks) (h : Only ks s x) : Only ks s (x.modTest g) :=
  only_of h hk fun k hn => by cases k <;> first | rfl | exact absurd rfl hn

theorem setSq_only (i : Nat) (g : Sq → Sq) (hk : [.sqs] ⊆ ks) (h : Only ks s x) : Only ks s (x.setSq i g) :=
  modSqs_only _ hk h

theorem setCq_only (i : Nat) (g : Cq → Cq) (hk : [.cqs] ⊆ ks) (h : Only ks s x) : Only ks s (x.setCq i g) :=
  modCqs_only _ hk h

theorem setPort_only (i : Nat) (g : Port → Port) (hk : [.ports] ⊆ ks) (h : Only ks s x) : Only ks s (x.setPort i g) :=
  modPorts_only _ hk h

theorem setStall_only (i : Nat) (g : Stall → Stall) (hk : [.stalls] ⊆ ks) (h : Only ks s x) : Only ks s (x.setStall i g) :=
  modStalls_only _ hk h

theorem setQuay_only (i : Nat) (g : Quay → Quay) (hk : [.quays] ⊆ ks) (h : Only ks s x) : Only ks s (x.setQuay i g) :=
  modQuays_only _ hk h

end

end Sys2Proof.Machine
end

