-- ==== Sys2Proof/Laws/OnlyOps.lean ====
section
/-! SUPPORT. Which parts of the state the operations of Machine/Ops, Supply, Operands, Topology, TestBase, Faults, Store, Model, JournalOps can change: one law for each operation. -/

namespace Sys2Proof.Machine

/-! ## Machine/Ops.lean -/

theorem State.enter_only {ks : List Part} {s x : State} (m : ModuleState) (hk : [.boot] ⊆ ks) (h : Only ks s x) :
    Only ks s (State.enter m x) := by
  unfold State.enter
  repeat' first
    | with_reducible assumption
    | with_reducible apply modBoot_only
    | exact subset_of (by decide) hk
    | split

theorem State.msix_only {ks : List Part} {s x : State} (v : Nat) (hk : [.out, .pcie] ⊆ ks) (h : Only ks s x) :
    Only ks s (State.msix v x) := by
  unfold State.msix
  repeat' first
    | with_reducible assumption
    | with_reducible apply modPcie_only
    | with_reducible apply emit_only
    | exact subset_of (by decide) hk
    | ((try lift_lets); intro y; first | (refine (fun (_ : Only ks s y) => ?_) ?_; (on_goal 1 => clear_value y); (on_goal 2 => subst y)) | clear_value y | skip)
    | split

theorem State.countLoss_only {ks : List Part} {s x : State} (hk : [.tm] ⊆ ks) (h : Only ks s x) :
    Only ks s (State.countLoss x) := by
  unfold State.countLoss
  repeat' first
    | with_reducible assumption
    | with_reducible apply modTm_only
    | exact subset_of (by decide) hk
    | split

theorem State.signalLog_only {ks : List Part} {s x : State} (hk : [.out, .pcie, .log] ⊆ ks) (h : Only ks s x) :
    Only ks s (State.signalLog x) := by
  unfold State.signalLog
  repeat' first
    | with_reducible assumption
    | with_reducible apply modLog_only
    | with_reducible apply State.msix_only
    | exact subset_of (by decide) hk
    | split

theorem State.enterRecord_only {ks : List Part} {s x : State} (code kind index : Nat) (detail : Bytes) (hk : [.out, .pcie, .log, .tm] ⊆ ks) (h : Only ks s x) :
    Only ks s (State.enterRecord code kind index detail x) := by
  unfold State.enterRecord
  repeat' first
    | with_reducible assumption
    | with_reducible apply State.countLoss_only
    | with_reducible apply modLog_only
    | with_reducible apply State.enter_only
    | with_reducible apply State.signalLog_only
    | exact subset_of (by decide) hk

theorem State.raise_only {ks : List Part} {s x : State} (code kind index : Nat) (fs : List (Nat × Nat × Nat)) (hk : [.out, .pcie, .log, .tm] ⊆ ks) (h : Only ks s x) :
    Only ks s (State.raise code kind index fs x) := by
  unfold State.raise
  repeat' first
    | with_reducible assumption
    | with_reducible apply State.enterRecord_only
    | exact subset_of (by decide) hk
    | ((try lift_lets); intro y; first | (refine (fun (_ : Only ks s y) => ?_) ?_; (on_goal 1 => clear_value y); (on_goal 2 => subst y)) | clear_value y | skip)
    | split

theorem State.saturated_only {ks : List Part} {s x : State} (o : Nat) (hk : [.out, .pcie, .log, .tm] ⊆ ks) (h : Only ks s x) :
    Only ks s (State.saturated o x) := by
  unfold State.saturated
  repeat' first
    | with_reducible assumption
    | with_reducible apply State.raise_only

theorem State.count_only {ks : List Part} {s x : State} (o n : Nat) (hk : [.out, .pcie, .log, .tm] ⊆ ks) (h : Only ks s x) :
    Only ks s (State.count o n x) := by
  unfold State.count
  repeat' first
    | with_reducible assumption
    | with_reducible apply modTm_only
    | with_reducible apply State.saturated_only
    | exact subset_of (by decide) hk
    | split

theorem State.raiseModule_only {ks : List Part} {s x : State} (code : Nat) (fs : List (Nat × Nat × Nat)) (hk : [.out, .pcie, .log, .tm] ⊆ ks) (h : Only ks s x) :
    Only ks s (State.raiseModule code fs x) := by
  unfold State.raiseModule
  repeat' first
    | with_reducible assumption
    | with_reducible apply State.raise_only

theorem State.raiseOnce_only {ks : List Part} {s x : State} (code kind index : Nat) (fs : List (Nat × Nat × Nat)) (hk : [.out, .pcie, .log, .tm, .run] ⊆ ks) (h : Only ks s x) :
    Only ks s (State.raiseOnce code kind index fs x) := by
  unfold State.raiseOnce
  repeat' first
    | with_reducible assumption
    | with_reducible apply modRun_only
    | with_reducible apply State.raise_only
    | exact subset_of (by decide) hk
    | split

theorem State.violation_only {ks : List Part} {s x : State} (cls : Nat) (queue : Option Nat) (opcode cid addr : Nat) (hk : [.out, .pcie, .log, .tm] ⊆ ks) (h : Only ks s x) :
    Only ks s (State.violation cls queue opcode cid addr x) := by
  unfold State.violation
  repeat' first
    | with_reducible assumption
    | with_reducible apply State.count_only
    | with_reducible apply modLog_only
    | with_reducible apply State.raise_only
    | exact subset_of (by decide) hk
    | ((try lift_lets); intro y; first | (refine (fun (_ : Only ks s y) => ?_) ?_; (on_goal 1 => clear_value y); (on_goal 2 => subst y)) | clear_value y | skip)
    | split

theorem State.emitEntry_only {ks : List Part} {s x : State} (q a : Nat) (b : Bytes) (hk : [.out] ⊆ ks) (h : Only ks s x) :
    Only ks s (State.emitEntry q a b x) := by
  unfold State.emitEntry
  repeat' first
    | with_reducible assumption
    | with_reducible apply emit_only

theorem State.write_only {ks : List Part} {s x : State} (q : Nat) (e : Entry) (hk : [.out, .pcie, .cqs] ⊆ ks) (h : Only ks s x) :
    Only ks s (State.write q e x) := by
  unfold State.write
  repeat' first
    | with_reducible assumption
    | with_reducible apply State.emitEntry_only
    | with_reducible apply setCq_only
    | with_reducible apply State.advance_only
    | with_reducible apply State.msix_only
    | exact subset_of (by decide) hk
    | ((try lift_lets); intro y; first | (refine (fun (_ : Only ks s y) => ?_) ?_; (on_goal 1 => clear_value y); (on_goal 2 => subst y)) | clear_value y | skip)
    | split

theorem State.post_only {ks : List Part} {s x : State} (q : Nat) (e : Entry) (hk : [.out, .pcie, .cqs] ⊆ ks) (h : Only ks s x) :
    Only ks s (State.post q e x) := by
  unfold State.post
  repeat' first
    | with_reducible assumption
    | with_reducible apply setCq_only
    | with_reducible apply State.write_only
    | exact subset_of (by decide) hk
    | ((try lift_lets); intro y; first | (refine (fun (_ : Only ks s y) => ?_) ?_; (on_goal 1 => clear_value y); (on_goal 2 => subst y)) | clear_value y | skip)
    | split

theorem State.setCmd_only {ks : List Part} {s x : State} (sq cid : Nat) (f : Cmd → Cmd) (hk : [.cmds] ⊆ ks) (h : Only ks s x) :
    Only ks s (State.setCmd sq cid f x) := by
  unfold State.setCmd
  repeat' first
    | with_reducible assumption
    | with_reducible apply modCmds_only

theorem State.finishCmd_only {ks : List Part} {s x : State} (c : Cmd) (st : Status) (r0 r1 : Nat) (hk : [.out, .pcie, .cqs, .cmds, .log, .tm] ⊆ ks) (h : Only ks s x) :
    Only ks s (State.finishCmd c st r0 r1 x) := by
  unfold State.finishCmd
  repeat' first
    | with_reducible assumption
    | with_reducible apply modCmds_only
    | with_reducible apply State.count_only
    | with_reducible apply State.raise_only
    | with_reducible apply State.post_only
    | exact subset_of (by decide) hk
    | ((try lift_lets); intro y; first | (refine (fun (_ : Only ks s y) => ?_) ?_; (on_goal 1 => clear_value y); (on_goal 2 => subst y)) | clear_value y | skip)
    | split

theorem State.finish_only {ks : List Part} {s x : State} (sq cid : Nat) (st : Status) (r0 r1 : Nat) (hk : [.out, .pcie, .cqs, .cmds, .log, .tm] ⊆ ks) (h : Only ks s x) :
    Only ks s (State.finish sq cid st r0 r1 x) := by
  unfold State.finish
  repeat' first
    | with_reducible assumption
    | with_reducible apply State.finishCmd_only
    | exact subset_of (by decide) hk
    | split

theorem State.finishAll_only {ks : List Part} {s x : State} (l : List Cmd) (st : Status) (r0 r1 : Nat) (hk : [.out, .pcie, .cqs, .cmds, .log, .tm] ⊆ ks) (h : Only ks s x) :
    Only ks s (State.finishAll l st r0 r1 x) := by
  unfold State.finishAll
  repeat' first
    | with_reducible assumption
    | with_reducible apply State.finishCmd_only
    | (with_reducible apply foldl_only; on_goal 2 => intros)

theorem State.refuse_only {ks : List Part} {s x : State} (sq cid : Nat) (st : Status) (r0 r1 : Nat) (hk : [.out, .pcie, .cqs, .log, .tm] ⊆ ks) (h : Only ks s x) :
    Only ks s (State.refuse sq cid st r0 r1 x) := by
  unfold State.refuse
  repeat' first
    | with_reducible assumption
    | with_reducible apply State.count_only
    | with_reducible apply State.post_only
    | exact subset_of (by decide) hk

theorem State.extend_only {ks : List Part} {s x : State} (sq cid us : Nat) (hk : [.cmds] ⊆ ks) (h : Only ks s x) :
    Only ks s (State.extend sq cid us x) := by
  unfold State.extend
  repeat' first
    | with_reducible assumption
    | with_reducible apply State.setCmd_only
    | exact subset_of (by decide) hk
    | split

theorem State.endPromise_only {ks : List Part} {s x : State} (cause : Nat) (p : Cmd → Bool) (hk : [.cmds] ⊆ ks) (h : Only ks s x) :
    Only ks s (State.endPromise cause p x) := by
  unfold State.endPromise
  repeat' first
    | with_reducible assumption
    | with_reducible apply modCmds_only

theorem State.noteFault_only {ks : List Part} {s x : State} (hk : [.cmds] ⊆ ks) (h : Only ks s x) :
    Only ks s (State.noteFault x) := by
  unfold State.noteFault
  repeat' first
    | with_reducible assumption
    | with_reducible apply modCmds_only
    | with_reducible apply State.endPromise_only

theorem State.toHost_only {ks : List Part} {s x : State} (sq cid off : Nat) (data : Bytes) (hk : [.out] ⊆ ks) (h : Only ks s x) :
    Only ks s (State.toHost sq cid off data x) := by
  unfold State.toHost
  repeat' first
    | with_reducible assumption
    | with_reducible apply emit_only

/-! ## Machine/Supply.lean -/

theorem State.switch_only {ks : List Part} {s x : State} (on : Bool) (l : List Nat) (hk : [.power] ⊆ ks) (h : Only ks s x) :
    Only ks s (State.switch on l x) := by
  unfold State.switch
  repeat' first
    | with_reducible assumption
    | with_reducible apply modPower_only

theorem State.retuneStalls_only {ks : List Part} {s x : State} (hk : [.stalls] ⊆ ks) (h : Only ks s x) :
    Only ks s (State.retuneStalls x) := by
  unfold State.retuneStalls
  repeat' first
    | with_reducible assumption
    | with_reducible apply modStalls_only
    | exact subset_of (by decide) hk
    | split

theorem State.capThrottleEvent_only {ks : List Part} {s x : State} (hk : [.out, .pcie, .log, .tm] ⊆ ks) (h : Only ks s x) :
    Only ks s (State.capThrottleEvent x) := by
  unfold State.capThrottleEvent
  repeat' first
    | with_reducible assumption
    | with_reducible apply State.raiseModule_only

theorem State.capChanged_only {ks : List Part} {s x : State} (f : State → State) (h_f : ∀ y, Only ks s y → Only ks s (f y)) (hk : [.out, .pcie, .log, .tm, .stalls] ⊆ ks) (h : Only ks s x) :
    Only ks s (State.capChanged f x) := by
  unfold State.capChanged
  repeat' first
    | with_reducible assumption
    | with_reducible apply h_f
    | with_reducible apply State.retuneStalls_only
    | with_reducible apply State.capThrottleEvent_only
    | exact subset_of (by decide) hk
    | ((try lift_lets); intro y; first | (refine (fun (_ : Only ks s y) => ?_) ?_; (on_goal 1 => clear_value y); (on_goal 2 => subst y)) | clear_value y | skip)
    | split

/-! ## Machine/Operands.lean -/

theorem State.accept_only {ks : List Part} {s x : State} (q : Nat) (p : Placed) (b : Nat) (hk : [.out, .pcie, .cqs, .cmds, .log, .tm] ⊆ ks) (h : Only ks s x) :
    Only ks s (State.accept q p b x) := by
  unfold State.accept
  repeat' first
    | with_reducible assumption
    | with_reducible apply modCmds_only
    | with_reducible apply State.count_only
    | with_reducible apply State.post_only
    | exact subset_of (by decide) hk

theorem State.entryViolations_only {ks : List Part} {s x : State} (q : Nat) (p : Placed) (hk : [.out, .pcie, .log, .tm] ⊆ ks) (h : Only ks s x) :
    Only ks s (State.entryViolations q p x) := by
  unfold State.entryViolations
  repeat' first
    | with_reducible assumption
    | with_reducible apply State.violation_only
    | exact subset_of (by decide) hk
    | ((try lift_lets); intro y; first | (refine (fun (_ : Only ks s y) => ?_) ?_; (on_goal 1 => clear_value y); (on_goal 2 => subst y)) | clear_value y | skip)
    | split

theorem State.admitEntry_only {ks : List Part} {s x : State} (q : Nat) (p : Placed) (hk : [.out, .pcie, .cqs, .cmds, .log, .tm] ⊆ ks) (h : Only ks s x) :
    Only ks s (State.admitEntry q p x) := by
  unfold State.admitEntry
  repeat' first
    | with_reducible assumption
    | with_reducible apply State.accept_only
    | with_reducible apply State.raise_only
    | with_reducible apply State.refuse_only
    | with_reducible apply State.entryViolations_only
    | exact subset_of (by decide) hk
    | ((try lift_lets); intro y; first | (refine (fun (_ : Only ks s y) => ?_) ?_; (on_goal 1 => clear_value y); (on_goal 2 => subst y)) | clear_value y | skip)
    | split

theorem State.fetchOne_only {ks : List Part} {s x y : State} (hk : [.out, .pcie, .sqs, .cqs, .sqTurn, .cmds, .log, .tm] ⊆ ks) (h : Only ks s x) (e : x.fetchOne = some y) : Only ks s y := by
  unfold State.fetchOne at e
  split at e
  · cases e
  · split at e
    · cases e
    · cases e
      exact State.admitEntry_only _ _ (subset_of (by decide) hk) (setTurn_only _ (subset_of (by decide) hk) (setSq_only _ _ (subset_of (by decide) hk) h))

theorem State.fetchLoop_only {ks : List Part} {s x : State} (n : Nat) (hk : [.out, .pcie, .sqs, .cqs, .sqTurn, .cmds, .log, .tm] ⊆ ks) (h : Only ks s x) : Only ks s (State.fetchLoop n x) := by
  induction n generalizing x with
  | zero => exact h
  | succ n ih =>
    simp only [State.fetchLoop]
    split
    · exact h
    · exact ih (State.fetchOne_only hk h ‹_›)

theorem State.markBlocked_only {ks : List Part} {s x : State} (hk : [.sqs] ⊆ ks) (h : Only ks s x) :
    Only ks s (State.markBlocked x) := by
  unfold State.markBlocked
  repeat' first
    | with_reducible assumption
    | with_reducible apply modSqs_only

theorem State.fetch_only {ks : List Part} {s x : State} (hk : [.out, .pcie, .sqs, .cqs, .sqTurn, .cmds, .log, .tm] ⊆ ks) (h : Only ks s x) :
    Only ks s (State.fetch x) := by
  unfold State.fetch
  repeat' first
    | with_reducible assumption
    | with_reducible apply State.fetchLoop_only
    | with_reducible apply State.markBlocked_only
    | (with_reducible apply foldl_only; on_goal 2 => intros)
    | exact subset_of (by decide) hk
    | split

/-! ## Machine/Topology.lean -/

theorem State.emitFlits_only {ks : List Part} {s x : State} (p : Nat) (fs : List SentFlit) (hk : [.out] ⊆ ks) (h : Only ks s x) :
    Only ks s (State.emitFlits p fs x) := by
  unfold State.emitFlits
  repeat' first
    | with_reducible assumption
    | with_reducible apply emit_only
    | (with_reducible apply foldl_only; on_goal 2 => intros)

theorem State.releaseFlits_only {ks : List Part} {s x : State} (p : Nat) (hk : [.out, .pcie, .log, .tm, .ports] ⊆ ks) (h : Only ks s x) :
    Only ks s (State.releaseFlits p x) := by
  unfold State.releaseFlits
  repeat' first
    | with_reducible assumption
    | with_reducible apply State.emitFlits_only
    | with_reducible apply setPort_only
    | with_reducible apply State.count_only
    | exact subset_of (by decide) hk
    | ((try lift_lets); intro y; first | (refine (fun (_ : Only ks s y) => ?_) ?_; (on_goal 1 => clear_value y); (on_goal 2 => subst y)) | clear_value y | skip)
    | split

theorem State.sendLink_only {ks : List Part} {s x : State} (p : Nat) (m : LinkMsg) (hk : [.out, .pcie, .log, .tm, .ports] ⊆ ks) (h : Only ks s x) :
    Only ks s (State.sendLink p m x) := by
  unfold State.sendLink
  repeat' first
    | with_reducible assumption
    | with_reducible apply emit_only
    | with_reducible apply setPort_only
    | with_reducible apply State.releaseFlits_only
    | exact subset_of (by decide) hk
    | split

theorem State.heard_only {ks : List Part} {s x : State} (p n : Nat) (hk : [.out, .pcie, .log, .tm, .ports] ⊆ ks) (h : Only ks s x) :
    Only ks s (State.heard p n x) := by
  unfold State.heard
  repeat' first
    | with_reducible assumption
    | with_reducible apply setPort_only
    | with_reducible apply State.count_only
    | with_reducible apply emit_only
    | exact subset_of (by decide) hk

theorem State.noteNak_only {ks : List Part} {s x : State} (p : Nat) (hk : [.ports] ⊆ ks) (h : Only ks s x) :
    Only ks s (State.noteNak p x) := by
  unfold State.noteNak
  repeat' first
    | with_reducible assumption
    | with_reducible apply setPort_only

theorem State.flood_only {ks : List Part} {s x : State} (m : LinkMsg) (hk : [.out, .pcie, .log, .tm, .ports] ⊆ ks) (h : Only ks s x) :
    Only ks s (State.flood m x) := by
  unfold State.flood
  repeat' first
    | with_reducible assumption
    | with_reducible apply State.sendLink_only
    | (with_reducible apply foldl_only; on_goal 2 => intros)

theorem State.toPartner_only {ks : List Part} {s x : State} (p : Nat) (m : PartnerMsg) (hk : [.out, .pcie, .log, .tm, .ports] ⊆ ks) (h : Only ks s x) :
    Only ks s (State.toPartner p m x) := by
  unfold State.toPartner
  repeat' first
    | with_reducible assumption
    | with_reducible apply State.sendLink_only
    | with_reducible apply State.count_only
    | exact subset_of (by decide) hk
    | split

/-! ## Machine/TestBase.lean -/

theorem State.lightTest_only {ks : List Part} {s x : State} (scope target : Nat) (hk : [.out, .power, .pcie, .log, .tm, .stalls, .test] ⊆ ks) (h : Only ks s x) :
    Only ks s (State.lightTest scope target x) := by
  unfold State.lightTest
  repeat' first
    | with_reducible assumption
    | with_reducible apply State.capChanged_only
    | with_reducible apply State.switch_only
    | with_reducible apply modTest_only
    | exact subset_of (by decide) hk
    | refine fun (_ : State) (_ : Only ks s _) => ?_

theorem State.darkTest_only {ks : List Part} {s x : State} (hk : [.out, .power, .pcie, .log, .tm, .stalls, .test] ⊆ ks) (h : Only ks s x) :
    Only ks s (State.darkTest x) := by
  unfold State.darkTest
  repeat' first
    | with_reducible assumption
    | with_reducible apply State.capChanged_only
    | with_reducible apply State.switch_only
    | with_reducible apply modTest_only
    | exact subset_of (by decide) hk
    | refine fun (_ : State) (_ : Only ks s _) => ?_

theorem State.setDomains_only {ks : List Part} {s x : State} (base : BitVec 99) (hk : [.power, .test] ⊆ ks) (h : Only ks s x) :
    Only ks s (State.setDomains base x) := by
  unfold State.setDomains
  repeat' first
    | with_reducible assumption
    | with_reducible apply modPower_only
    | with_reducible apply modTest_only
    | exact subset_of (by decide) hk

/-! ## Machine/Faults.lean -/

theorem State.settleOptics_only {ks : List Part} {s x : State} (hk : [.power] ⊆ ks) (h : Only ks s x) :
    Only ks s (State.settleOptics x) := by
  unfold State.settleOptics
  repeat' first
    | with_reducible assumption
    | with_reducible apply State.switch_only
    | (with_reducible apply foldl_only; on_goal 2 => intros)

theorem State.engines_only {ks : List Part} {s x : State} (on : Bool) (ps : List Nat) (hk : [.out, .power, .pcie, .log, .tm, .stalls] ⊆ ks) (h : Only ks s x) :
    Only ks s (State.engines on ps x) := by
  unfold State.engines
  repeat' first
    | with_reducible assumption
    | with_reducible apply State.capChanged_only
    | with_reducible apply State.switch_only
    | with_reducible apply State.settleOptics_only
    | exact subset_of (by decide) hk
    | refine fun (_ : State) (_ : Only ks s _) => ?_

theorem State.lightPort_only {ks : List Part} {s x : State} (role p : Nat) (hk : [.out, .power, .pcie, .log, .tm, .stalls, .ports] ⊆ ks) (h : Only ks s x) :
    Only ks s (State.lightPort role p x) := by
  unfold State.lightPort
  repeat' first
    | with_reducible assumption
    | with_reducible apply setPort_only
    | with_reducible apply State.engines_only
    | exact subset_of (by decide) hk
    | split

theorem State.darkPort_only {ks : List Part} {s x : State} (p : Nat) (hk : [.out, .power, .pcie, .log, .tm, .stalls, .ports] ⊆ ks) (h : Only ks s x) :
    Only ks s (State.darkPort p x) := by
  unfold State.darkPort
  repeat' first
    | with_reducible assumption
    | with_reducible apply setPort_only
    | with_reducible apply State.engines_only
    | exact subset_of (by decide) hk

theorem State.darkPorts_only {ks : List Part} {s x : State} (ps : List Nat) (hk : [.out, .power, .pcie, .log, .tm, .stalls, .ports] ⊆ ks) (h : Only ks s x) :
    Only ks s (State.darkPorts ps x) := by
  unfold State.darkPorts
  repeat' first
    | with_reducible assumption
    | with_reducible apply State.darkPort_only
    | (with_reducible apply foldl_only; on_goal 2 => intros)

theorem State.endWait_only {ks : List Part} {s x : State} (g : GroupRun) (hk : [.out, .pcie, .cmds, .log, .tm, .run] ⊆ ks) (h : Only ks s x) :
    Only ks s (State.endWait g x) := by
  unfold State.endWait
  repeat' first
    | with_reducible assumption
    | with_reducible apply State.count_only
    | with_reducible apply modRun_only
    | with_reducible apply State.extend_only
    | (with_reducible apply foldl_only; on_goal 2 => intros)
    | exact subset_of (by decide) hk
    | ((try lift_lets); intro y; first | (refine (fun (_ : Only ks s y) => ?_) ?_; (on_goal 1 => clear_value y); (on_goal 2 => subst y)) | clear_value y | skip)
    | split

theorem State.endWaits_only {ks : List Part} {s x : State} (hk : [.out, .pcie, .cmds, .log, .tm, .run] ⊆ ks) (h : Only ks s x) :
    Only ks s (State.endWaits x) := by
  unfold State.endWaits
  repeat' first
    | with_reducible assumption
    | with_reducible apply State.endWait_only
    | (with_reducible apply foldl_only; on_goal 2 => intros)

theorem State.abandonAttempt_only {ks : List Part} {s x : State} (hk : [.out, .pcie, .cmds, .log, .tm, .run, .stalls, .harbour] ⊆ ks) (h : Only ks s x) :
    Only ks s (State.abandonAttempt x) := by
  unfold State.abandonAttempt
  repeat' first
    | with_reducible assumption
    | with_reducible apply State.endWaits_only
    | with_reducible apply modRun_only
    | with_reducible apply modStalls_only
    | with_reducible apply modHarbour_only
    | exact subset_of (by decide) hk

theorem State.finishRun_only {ks : List Part} {s x : State} (c : Cmd) (st : Status) (hk : [.out, .pcie, .cqs, .cmds, .log, .tm] ⊆ ks) (h : Only ks s x) :
    Only ks s (State.finishRun c st x) := by
  unfold State.finishRun
  repeat' first
    | with_reducible assumption
    | with_reducible apply State.finishCmd_only

theorem State.finishRuns_only {ks : List Part} {s x : State} (st : Status) (hk : [.out, .boot, .pcie, .cqs, .cmds, .log, .tm, .run, .stalls, .harbour, .test] ⊆ ks) (h : Only ks s x) :
    Only ks s (State.finishRuns st x) := by
  unfold State.finishRuns
  repeat' first
    | with_reducible assumption
    | with_reducible apply State.rest_only
    | with_reducible apply State.finishCmd_only
    | with_reducible apply State.finishRun_only
    | (with_reducible apply foldl_only; on_goal 2 => intros)
    | exact subset_of (by decide) hk
    | split

theorem State.finishServe_only {ks : List Part} {s x : State} (c : Cmd) (st : Status) (hk : [.out, .pcie, .cqs, .cmds, .log, .tm] ⊆ ks) (h : Only ks s x) :
    Only ks s (State.finishServe c st x) := by
  unfold State.finishServe
  repeat' first
    | with_reducible assumption
    | with_reducible apply State.finishCmd_only

theorem State.finishServes_only {ks : List Part} {s x : State} (st : Status) (hk : [.out, .pcie, .cqs, .cmds, .log, .tm] ⊆ ks) (h : Only ks s x) :
    Only ks s (State.finishServes st x) := by
  unfold State.finishServes
  repeat' first
    | with_reducible assumption
    | with_reducible apply State.finishServe_only
    | (with_reducible apply foldl_only; on_goal 2 => intros)

theorem State.finishHalts_only {ks : List Part} {s x : State} (hk : [.out, .pcie, .cqs, .cmds, .log, .tm] ⊆ ks) (h : Only ks s x) :
    Only ks s (State.finishHalts x) := by
  unfold State.finishHalts
  repeat' first
    | with_reducible assumption
    | with_reducible apply State.finishAll_only

theorem State.dropDeferredTests_only {ks : List Part} {s x : State} (hk : [.out, .pcie, .cqs, .cmds, .log, .tm, .test] ⊆ ks) (h : Only ks s x) :
    Only ks s (State.dropDeferredTests x) := by
  unfold State.dropDeferredTests
  repeat' first
    | with_reducible assumption
    | with_reducible apply State.finish_only
    | with_reducible apply modTest_only
    | (with_reducible apply foldl_only; on_goal 2 => intros)
    | exact subset_of (by decide) hk

theorem State.idleStalls_only {ks : List Part} {s x : State} (hk : [.stalls] ⊆ ks) (h : Only ks s x) :
    Only ks s (State.idleStalls x) := by
  unfold State.idleStalls
  repeat' first
    | with_reducible assumption
    | with_reducible apply modStalls_only

theorem State.endRun_only {ks : List Part} {s x : State} (st : Status) (m : ModuleState) (hk : [.out, .boot, .pcie, .cqs, .cmds, .log, .tm, .run, .stalls, .harbour, .test] ⊆ ks) (h : Only ks s x) :
    Only ks s (State.endRun st m x) := by
  unfold State.endRun
  repeat' first
    | with_reducible assumption
    | with_reducible apply State.finishRuns_only
    | with_reducible apply State.finishServes_only
    | with_reducible apply State.finishHalts_only
    | with_reducible apply State.dropDeferredTests_only
    | with_reducible apply modRun_only
    | with_reducible apply modHarbour_only
    | with_reducible apply State.idleStalls_only
    | with_reducible apply State.enter_only
    | exact subset_of (by decide) hk

theorem State.releaseQuays_only {ks : List Part} {s x : State} (hk : [.out, .pcie, .log, .tm, .mem, .quays] ⊆ ks) (h : Only ks s x) :
    Only ks s (State.releaseQuays x) := by
  unfold State.releaseQuays
  repeat' first
    | with_reducible assumption
    | with_reducible apply setQuay_only
    | with_reducible apply modQuays_only
    | with_reducible apply modMem_only
    | with_reducible apply State.write_only
    | with_reducible apply State.count_only
    | (with_reducible apply foldl_only; on_goal 2 => intros)
    | exact subset_of (by decide) hk

theorem State.abandonSnapshot_only {ks : List Part} {s x : State} (hk : [.out, .pcie, .cqs, .cmds, .log, .tm, .mem, .quays, .snap] ⊆ ks) (h : Only ks s x) :
    Only ks s (State.abandonSnapshot x) := by
  unfold State.abandonSnapshot
  repeat' first
    | with_reducible assumption
    | with_reducible apply State.releaseQuays_only
    | with_reducible apply modSnap_only
    | with_reducible apply State.finish_only
    | (with_reducible apply foldl_only; on_goal 2 => intros)
    | exact subset_of (by decide) hk
    | ((try lift_lets); intro y; first | (refine (fun (_ : Only ks s y) => ?_) ?_; (on_goal 1 => clear_value y); (on_goal 2 => subst y)) | clear_value y | skip)
    | split

theorem State.dropSnapshots_only {ks : List Part} {s x : State} (st : Status) (hk : [.out, .pcie, .cqs, .cmds, .log, .tm, .snap] ⊆ ks) (h : Only ks s x) :
    Only ks s (State.dropSnapshots st x) := by
  unfold State.dropSnapshots
  repeat' first
    | with_reducible assumption
    | with_reducible apply State.finish_only
    | with_reducible apply modSnap_only
    | (with_reducible apply foldl_only; on_goal 2 => intros)
    | exact subset_of (by decide) hk

theorem State.markTested_only {ks : List Part} {s x : State} (scope target : Nat) (hk : [.stalls] ⊆ ks) (h : Only ks s x) :
    Only ks s (State.markTested scope target x) := by
  unfold State.markTested
  repeat' first
    | with_reducible assumption
    | with_reducible apply setStall_only
    | exact subset_of (by decide) hk
    | split

theorem State.unmarkTested_only {ks : List Part} {s x : State} (hk : [.stalls] ⊆ ks) (h : Only ks s x) :
    Only ks s (State.unmarkTested x) := by
  unfold State.unmarkTested
  repeat' first
    | with_reducible assumption
    | with_reducible apply modStalls_only

theorem State.abortEntry_only {ks : List Part} {s x : State} (r : TestReq) (hk : [.out, .freeCtr, .test] ⊆ ks) (h : Only ks s x) :
    Only ks s (State.abortEntry r x) := by
  unfold State.abortEntry
  repeat' first
    | with_reducible assumption
    | with_reducible apply State.takeFree_only
    | with_reducible apply State.toHost_only
    | with_reducible apply modTest_only
    | refine only_of_eq (by assumption) ?_
    | exact subset_of (by decide) hk
    | ((try lift_lets); intro y; first | (refine (fun (_ : Only ks s y) => ?_) ?_; (on_goal 1 => clear_value y); (on_goal 2 => subst y)) | (refine (fun (_ : Only ks s y.2) => ?_) ?_; (on_goal 1 => clear_value y); (on_goal 2 => subst y)) | clear_value y | skip)
    | split

theorem State.abortTests_only {ks : List Part} {s x : State} (hk : [.out, .freeCtr, .power, .pcie, .cqs, .cmds, .log, .tm, .stalls, .test] ⊆ ks) (h : Only ks s x) :
    Only ks s (State.abortTests x) := by
  unfold State.abortTests
  repeat' first
    | with_reducible assumption
    | with_reducible apply State.darkTest_only
    | with_reducible apply State.unmarkTested_only
    | with_reducible apply State.abortEntry_only
    | with_reducible apply State.finish_only
    | with_reducible apply modTest_only
    | (with_reducible apply foldl_only; on_goal 2 => intros)
    | exact subset_of (by decide) hk
    | ((try lift_lets); intro y; first | (refine (fun (_ : Only ks s y) => ?_) ?_; (on_goal 1 => clear_value y); (on_goal 2 => subst y)) | clear_value y | skip)
    | split

theorem State.sendFault_only {ks : List Part} {s x : State} (hk : [.out, .pcie, .log, .tm, .ports] ⊆ ks) (h : Only ks s x) :
    Only ks s (State.sendFault x) := by
  unfold State.sendFault
  repeat' first
    | with_reducible assumption
    | with_reducible apply State.flood_only
    | exact subset_of (by decide) hk
    | split

theorem State.faultOthers_only {ks : List Part} {s x : State} (hk : [.out, .pcie, .cqs, .cmds, .log, .tm] ⊆ ks) (h : Only ks s x) :
    Only ks s (State.faultOthers x) := by
  unfold State.faultOthers
  repeat' first
    | with_reducible assumption
    | with_reducible apply State.finishAll_only

theorem State.dropCommit_only {ks : List Part} {s x : State} (hk : [.journal] ⊆ ks) (h : Only ks s x) :
    Only ks s (State.dropCommit x) := by
  unfold State.dropCommit
  repeat' first
    | with_reducible assumption
    | with_reducible apply modJournal_only

theorem State.darkRestore_only {ks : List Part} {s x : State} (hk : [.out, .power, .pcie, .log, .tm, .stalls, .ports] ⊆ ks) (h : Only ks s x) :
    Only ks s (State.darkRestore x) := by
  unfold State.darkRestore
  repeat' first
    | with_reducible assumption
    | with_reducible apply State.darkPort_only
    | exact subset_of (by decide) hk
    | split

theorem State.enterFaulted_only {ks : List Part} {s x : State} (hk : [.out, .freeCtr, .power, .boot, .pcie, .cqs, .cmds, .log, .tm, .mem, .run, .stalls, .quays, .snap, .journal, .harbour, .ports, .test] ⊆ ks) (h : Only ks s x) :
    Only ks s (State.enterFaulted x) := by
  unfold State.enterFaulted
  repeat' first
    | with_reducible assumption
    | with_reducible apply State.darkRestore_only
    | with_reducible apply State.abandonSnapshot_only
    | with_reducible apply State.abortTests_only
    | with_reducible apply State.dropCommit_only
    | with_reducible apply State.dropSnapshots_only
    | with_reducible apply State.faultOthers_only
    | with_reducible apply State.endRun_only
    | with_reducible apply modHarbour_only
    | exact subset_of (by decide) hk

theorem State.moduleFault_only {ks : List Part} {s x : State} (hk : [.out, .freeCtr, .power, .boot, .pcie, .cqs, .cmds, .log, .tm, .mem, .run, .stalls, .quays, .snap, .journal, .harbour, .ports, .test] ⊆ ks) (h : Only ks s x) :
    Only ks s (State.moduleFault x) := by
  unfold State.moduleFault
  repeat' first
    | with_reducible assumption
    | with_reducible apply State.abortTests_only
    | with_reducible apply State.sendFault_only
    | with_reducible apply State.abandonAttempt_only
    | with_reducible apply State.enterFaulted_only
    | exact subset_of (by decide) hk
    | split

theorem State.refusedAccess_only {ks : List Part} {s x : State} (record page : Nat) (hk : [.out, .freeCtr, .power, .boot, .pcie, .cqs, .cmds, .log, .tm, .mem, .run, .stalls, .quays, .snap, .journal, .harbour, .ports, .test] ⊆ ks) (h : Only ks s x) :
    Only ks s (State.refusedAccess record page x) := by
  unfold State.refusedAccess
  repeat' first
    | with_reducible assumption
    | with_reducible apply State.raiseModule_only
    | with_reducible apply State.moduleFault_only
    | exact subset_of (by decide) hk

/-! ## Machine/Store.lean -/

theorem State.guarded_only {ks : List Part} {s x : State} (src : Source) (rs : List (Bool × Nat × Nat)) (f : State → State) (h_f : ∀ y, Only ks s y → Only ks s (f y)) (hk : [.out, .freeCtr, .power, .boot, .pcie, .cqs, .cmds, .log, .tm, .mem, .run, .stalls, .quays, .snap, .journal, .harbour, .ports, .test] ⊆ ks) (h : Only ks s x) :
    Only ks s (State.guarded src rs f x) := by
  unfold State.guarded
  repeat' first
    | with_reducible assumption
    | with_reducible apply h_f
    | with_reducible apply State.refusedAccess_only
    | exact subset_of (by decide) hk
    | split

theorem State.copyFragment_only {ks : List Part} {s x : State} (f : Nat × Nat) (hk : [.out, .pcie, .log, .tm, .quays, .snap] ⊆ ks) (h : Only ks s x) :
    Only ks s (State.copyFragment f x) := by
  unfold State.copyFragment
  repeat' first
    | with_reducible assumption
    | with_reducible apply setQuay_only
    | with_reducible apply modSnap_only
    | with_reducible apply State.count_only
    | exact subset_of (by decide) hk

theorem State.putBytes_only {ks : List Part} {s x : State} (a : Nat) (bs : Bytes) (hk : [.out, .pcie, .log, .tm, .mem] ⊆ ks) (h : Only ks s x) :
    Only ks s (State.putBytes a bs x) := by
  unfold State.putBytes
  repeat' first
    | with_reducible assumption
    | with_reducible apply modMem_only
    | with_reducible apply State.write_only
    | with_reducible apply State.count_only
    | exact subset_of (by decide) hk

theorem State.writeGranule_only {ks : List Part} {s x : State} (a : Nat) (bs : Bytes) (hk : [.out, .pcie, .log, .tm, .mem, .run, .quays, .snap] ⊆ ks) (h : Only ks s x) :
    Only ks s (State.writeGranule a bs x) := by
  unfold State.writeGranule
  repeat' first
    | with_reducible assumption
    | with_reducible apply State.putBytes_only
    | with_reducible apply State.copyFragment_only
    | with_reducible apply State.raiseOnce_only
    | with_reducible apply setQuay_only
    | exact subset_of (by decide) hk
    | ((try lift_lets); intro y; first | (refine (fun (_ : Only ks s y) => ?_) ?_; (on_goal 1 => clear_value y); (on_goal 2 => subst y)) | clear_value y | skip)
    | split

theorem State.countWrites_only {ks : List Part} {s x : State} (a : Nat) (bs : Bytes) (hk : [.out, .pcie, .log, .tm] ⊆ ks) (h : Only ks s x) :
    Only ks s (State.countWrites a bs x) := by
  unfold State.countWrites
  repeat' first
    | with_reducible assumption
    | with_reducible apply State.count_only
    | (with_reducible apply foldl_only; on_goal 2 => intros)

theorem State.memWrite_only {ks : List Part} {s x : State} (a : Nat) (bs : Bytes) (hk : [.out, .pcie, .log, .tm, .mem, .run, .quays, .snap] ⊆ ks) (h : Only ks s x) :
    Only ks s (State.memWrite a bs x) := by
  unfold State.memWrite
  repeat' first
    | with_reducible assumption
    | with_reducible apply modMem_only
    | with_reducible apply State.write_only
    | with_reducible apply State.countWrites_only
    | with_reducible apply State.writeGranule_only
    | (with_reducible apply foldl_only; on_goal 2 => intros)
    | exact subset_of (by decide) hk
    | split

theorem State.resumeQuay_only {ks : List Part} {s x : State} (q : Nat) (hk : [.out, .pcie, .log, .tm, .mem, .run, .quays, .snap] ⊆ ks) (h : Only ks s x) :
    Only ks s (State.resumeQuay q x) := by
  unfold State.resumeQuay
  repeat' first
    | with_reducible assumption
    | with_reducible apply setQuay_only
    | with_reducible apply State.writeGranule_only
    | with_reducible apply State.count_only
    | (with_reducible apply foldl_only; on_goal 2 => intros)
    | exact subset_of (by decide) hk
    | ((try lift_lets); intro y; first | (refine (fun (_ : Only ks s y) => ?_) ?_; (on_goal 1 => clear_value y); (on_goal 2 => subst y)) | clear_value y | skip)
    | split

theorem State.drainOut_only {ks : List Part} {s x : State} (off : Nat) (d : Bytes) (poisoned : Bool) (hk : [.out] ⊆ ks) (h : Only ks s x) :
    Only ks s (State.drainOut off d poisoned x) := by
  unfold State.drainOut
  repeat' first
    | with_reducible assumption
    | with_reducible apply emit_only
    | exact subset_of (by decide) hk
    | split

theorem State.drainDone_only {ks : List Part} {s x : State} (hk : [.out, .pcie, .log, .tm, .snap, .ports] ⊆ ks) (h : Only ks s x) :
    Only ks s (State.drainDone x) := by
  unfold State.drainDone
  repeat' first
    | with_reducible assumption
    | with_reducible apply State.toPartner_only
    | with_reducible apply modSnap_only
    | with_reducible apply State.drainOut_only
    | exact subset_of (by decide) hk
    | ((try lift_lets); intro y; first | (refine (fun (_ : Only ks s y) => ?_) ?_; (on_goal 1 => clear_value y); (on_goal 2 => subst y)) | clear_value y | skip)
    | split

theorem State.takeFragment_only {ks : List Part} {s x : State} (q page : Nat) (hk : [.out, .freeCtr, .power, .boot, .pcie, .cqs, .cmds, .log, .tm, .mem, .run, .stalls, .quays, .snap, .journal, .harbour, .ports, .test] ⊆ ks) (h : Only ks s x) :
    Only ks s (State.takeFragment q page x) := by
  unfold State.takeFragment
  repeat' first
    | with_reducible assumption
    | with_reducible apply State.guarded_only
    | with_reducible apply State.count_only
    | with_reducible apply State.drainOut_only
    | with_reducible apply State.toPartner_only
    | with_reducible apply setQuay_only
    | with_reducible apply modSnap_only
    | with_reducible apply State.resumeQuay_only
    | with_reducible apply State.drainDone_only
    | exact subset_of (by decide) hk
    | refine fun (_ : State) (_ : Only ks s _) => ?_
    | refine fun _ (_ : State) (_ : Only ks s _) => ?_
    | ((try lift_lets); intro y; first | (refine (fun (_ : Only ks s y) => ?_) ?_; (on_goal 1 => clear_value y); (on_goal 2 => subst y)) | clear_value y | skip)
    | split

theorem State.eccCorrected_only {ks : List Part} {s x : State} (line : Nat) (hk : [.out, .pcie, .log, .tm, .run] ⊆ ks) (h : Only ks s x) :
    Only ks s (State.eccCorrected line x) := by
  unfold State.eccCorrected
  repeat' first
    | with_reducible assumption
    | with_reducible apply State.count_only
    | with_reducible apply State.raiseOnce_only
    | exact subset_of (by decide) hk

theorem State.eccPoison_only {ks : List Part} {s x : State} (line : Nat) (hk : [.out, .freeCtr, .power, .boot, .pcie, .cqs, .cmds, .log, .tm, .mem, .run, .stalls, .quays, .snap, .journal, .harbour, .ports, .test] ⊆ ks) (h : Only ks s x) :
    Only ks s (State.eccPoison line x) := by
  unfold State.eccPoison
  repeat' first
    | with_reducible assumption
    | with_reducible apply modMem_only
    | with_reducible apply State.count_only
    | with_reducible apply State.raise_only
    | with_reducible apply State.moduleFault_only
    | exact subset_of (by decide) hk

theorem State.eccBeyond_only {ks : List Part} {s x : State} (line : Nat) (hk : [.out, .freeCtr, .power, .boot, .pcie, .cqs, .cmds, .log, .tm, .mem, .run, .stalls, .quays, .snap, .journal, .harbour, .ports, .test] ⊆ ks) (h : Only ks s x) :
    Only ks s (State.eccBeyond line x) := by
  unfold State.eccBeyond
  repeat' first
    | with_reducible assumption
    | with_reducible apply State.eccCorrected_only
    | with_reducible apply State.eccPoison_only
    | with_reducible apply State.takeFree_only
    | with_reducible apply modMem_only
    | exact subset_of (by decide) hk
    | ((try lift_lets); intro y; first | (refine (fun (_ : Only ks s y.2) => ?_) ?_; (on_goal 1 => clear_value y); (on_goal 2 => subst y)) | (refine (fun (_ : Only ks s y) => ?_) ?_; (on_goal 1 => clear_value y); (on_goal 2 => subst y)) | clear_value y | skip)
    | split

theorem State.ecc_only {ks : List Part} {s x : State} (line : Nat) (es : List SymbolError) (hk : [.out, .freeCtr, .power, .boot, .pcie, .cqs, .cmds, .log, .tm, .mem, .run, .stalls, .quays, .snap, .journal, .harbour, .ports, .test] ⊆ ks) (h : Only ks s x) :
    Only ks s (State.ecc line es x) := by
  unfold State.ecc
  repeat' first
    | with_reducible assumption
    | with_reducible apply State.eccBeyond_only
    | with_reducible apply State.eccCorrected_only
    | with_reducible apply State.eccPoison_only
    | exact subset_of (by decide) hk
    | split

theorem State.eccLines_only {ks : List Part} {s x : State} (a n : Nat) (hits : List ScrubHit) (hk : [.out, .freeCtr, .power, .boot, .pcie, .cqs, .cmds, .log, .tm, .mem, .run, .stalls, .quays, .snap, .journal, .harbour, .ports, .test] ⊆ ks) (h : Only ks s x) :
    Only ks s (State.eccLines a n hits x) := by
  unfold State.eccLines
  repeat' first
    | with_reducible assumption
    | with_reducible apply State.ecc_only
    | (with_reducible apply foldl_only; on_goal 2 => intros)

/-! ## Machine/Model.lean -/

theorem State.writeG16_only {ks : List Part} {s x : State} (t : Table) (b : Bytes) (odd : Bool) (first : Nat) (vs : List (Option Int)) (hk : [.out, .pcie, .log, .tm, .mem, .run, .quays, .snap] ⊆ ks) (h : Only ks s x) :
    Only ks s (State.writeG16 t b odd first vs x) := by
  unfold State.writeG16
  repeat' first
    | with_reducible assumption
    | with_reducible apply State.memWrite_only
    | (with_reducible apply foldl_only; on_goal 2 => intros)

theorem State.writePiece_only {ks : List Part} {s x : State} (w : Bytes) (n k : Nat) (kept : Option (List Nat)) (c : TileCodes) (hk : [.out, .pcie, .log, .tm, .mem, .run, .quays, .snap] ⊆ ks) (h : Only ks s x) :
    Only ks s (State.writePiece w n k kept c x) := by
  unfold State.writePiece
  repeat' first
    | with_reducible assumption
    | with_reducible apply State.memWrite_only
    | exact subset_of (by decide) hk
    | ((try lift_lets); intro y; first | (refine (fun (_ : Only ks s y) => ?_) ?_; (on_goal 1 => clear_value y); (on_goal 2 => subst y)) | clear_value y | skip)
    | split

theorem State.requantize_only {ks : List Part} {s x : State} (t : Table) (w : Bytes) (step n : Nat) (rebuild : Bool) (hk : [.out, .pcie, .log, .tm, .mem, .run, .quays, .snap] ⊆ ks) (h : Only ks s x) :
    Only ks s (State.requantize t w step n rebuild x) := by
  unfold State.requantize
  repeat' first
    | with_reducible assumption
    | with_reducible apply State.count_only
    | with_reducible apply State.memWrite_only
    | with_reducible apply State.writePiece_only
    | (with_reducible apply foldl_only; on_goal 2 => intros)
    | exact subset_of (by decide) hk
    | ((try lift_lets); intro y; first | (refine (fun (_ : Only ks s y) => ?_) ?_; (on_goal 1 => clear_value y); (on_goal 2 => subst y)) | clear_value y | skip)
    | split

theorem State.chandleTile_only {ks : List Part} {s x : State} (t : Table) (w : Bytes) (lam : Int) (odd : Bool) (applied step n : Nat) (hk : [.out, .pcie, .log, .tm, .mem, .run, .quays, .snap] ⊆ ks) (h : Only ks s x) :
    Only ks s (State.chandleTile t w lam odd applied step n x) := by
  unfold State.chandleTile
  repeat' first
    | with_reducible assumption
    | with_reducible apply State.memWrite_only
    | with_reducible apply State.count_only
    | with_reducible apply State.requantize_only
    | exact subset_of (by decide) hk
    | ((try lift_lets); intro y; first | (refine (fun (_ : Only ks s y) => ?_) ?_; (on_goal 1 => clear_value y); (on_goal 2 => subst y)) | clear_value y | skip)
    | split

theorem State.chandle_only {ks : List Part} {s x : State} (t : Table) (lam : Int) (odd : Bool) (applied step : Nat) (hk : [.out, .pcie, .log, .tm, .mem, .run, .quays, .snap] ⊆ ks) (h : Only ks s x) :
    Only ks s (State.chandle t lam odd applied step x) := by
  unfold State.chandle
  repeat' first
    | with_reducible assumption
    | with_reducible apply State.chandleTile_only
    | (with_reducible apply foldl_only; on_goal 2 => intros)

theorem State.rebuildCodes_only {ks : List Part} {s x : State} (t : Table) (step : Nat) (hk : [.out, .pcie, .log, .tm, .mem, .run, .quays, .snap] ⊆ ks) (h : Only ks s x) :
    Only ks s (State.rebuildCodes t step x) := by
  unfold State.rebuildCodes
  repeat' first
    | with_reducible assumption
    | with_reducible apply State.requantize_only
    | (with_reducible apply foldl_only; on_goal 2 => intros)

/-! ## Machine/JournalOps.lean -/

theorem State.compact_only {ks : List Part} {s x : State} (t : Table) (partner : Bool) (hk : [.out, .pcie, .log, .tm, .journal] ⊆ ks) (h : Only ks s x) :
    Only ks s (State.compact t partner x) := by
  unfold State.compact
  repeat' first
    | with_reducible assumption
    | with_reducible apply modJournal_only
    | with_reducible apply State.raiseModule_only
    | exact subset_of (by decide) hk

theorem State.makeRoom_only {ks : List Part} {s x : State} (t : Table) (rs : List Bytes) (hk : [.out, .pcie, .log, .tm, .journal] ⊆ ks) (h : Only ks s x) :
    Only ks s (State.makeRoom t rs x) := by
  unfold State.makeRoom
  repeat' first
    | with_reducible assumption
    | with_reducible apply State.compact_only
    | exact subset_of (by decide) hk
    | split

theorem State.appendOwn_only {ks : List Part} {s x : State} (t : Table) (rs : List Bytes) (hk : [.journal] ⊆ ks) (h : Only ks s x) :
    Only ks s (State.appendOwn t rs x) := by
  unfold State.appendOwn
  repeat' first
    | with_reducible assumption
    | with_reducible apply modJournal_only
    | exact subset_of (by decide) hk
    | ((try lift_lets); intro y; first | (refine (fun (_ : Only ks s y) => ?_) ?_; (on_goal 1 => clear_value y); (on_goal 2 => subst y)) | clear_value y | skip)
    | split

theorem State.mirrorOut_only {ks : List Part} {s x : State} (rs : List Bytes) (hk : [.out, .pcie, .log, .tm, .ports] ⊆ ks) (h : Only ks s x) :
    Only ks s (State.mirrorOut rs x) := by
  unfold State.mirrorOut
  repeat' first
    | with_reducible assumption
    | with_reducible apply State.toPartner_only
    | (with_reducible apply foldl_only; on_goal 2 => intros)
    | exact subset_of (by decide) hk
    | split

theorem State.writeRecord_only {ks : List Part} {s x : State} (t : Table) (r : Bytes) (hk : [.out, .pcie, .log, .tm, .journal, .ports] ⊆ ks) (h : Only ks s x) :
    Only ks s (State.writeRecord t r x) := by
  unfold State.writeRecord
  repeat' first
    | with_reducible assumption
    | with_reducible apply State.makeRoom_only
    | with_reducible apply State.appendOwn_only
    | with_reducible apply modJournal_only
    | with_reducible apply State.mirrorOut_only
    | exact subset_of (by decide) hk
    | ((try lift_lets); intro y; first | (refine (fun (_ : Only ks s y) => ?_) ?_; (on_goal 1 => clear_value y); (on_goal 2 => subst y)) | clear_value y | skip)
    | split

theorem State.writeNow_only {ks : List Part} {s x : State} (t : Table) (r : Bytes) (hk : [.out, .freeCtr, .power, .boot, .pcie, .cqs, .cmds, .log, .tm, .mem, .run, .stalls, .quays, .snap, .journal, .harbour, .ports, .test] ⊆ ks) (h : Only ks s x) :
    Only ks s (State.writeNow t r x) := by
  unfold State.writeNow
  repeat' first
    | with_reducible assumption
    | with_reducible apply State.writeRecord_only
    | with_reducible apply State.moduleFault_only
    | exact subset_of (by decide) hk
    | split

theorem State.flashFault_only {ks : List Part} {s x : State} (hk : [.out, .freeCtr, .power, .boot, .pcie, .cqs, .cmds, .log, .tm, .mem, .run, .stalls, .quays, .snap, .journal, .harbour, .ports, .test] ⊆ ks) (h : Only ks s x) :
    Only ks s (State.flashFault x) := by
  unfold State.flashFault
  repeat' first
    | with_reducible assumption
    | with_reducible apply modJournal_only
    | with_reducible apply State.moduleFault_only
    | exact subset_of (by decide) hk

theorem State.startCommit_only {ks : List Part} {s x : State} (t : Table) (rs : List Bytes) (snap : Bool) (hk : [.out, .freeCtr, .power, .boot, .pcie, .cqs, .cmds, .log, .tm, .mem, .run, .stalls, .quays, .snap, .journal, .harbour, .ports, .test] ⊆ ks) (h : Only ks s x) :
    Only ks s (State.startCommit t rs snap x) := by
  unfold State.startCommit
  repeat' first
    | with_reducible assumption
    | with_reducible apply State.makeRoom_only
    | with_reducible apply State.moduleFault_only
    | with_reducible apply modJournal_only
    | with_reducible apply State.mirrorOut_only
    | exact subset_of (by decide) hk
    | ((try lift_lets); intro y; first | (refine (fun (_ : Only ks s y) => ?_) ?_; (on_goal 1 => clear_value y); (on_goal 2 => subst y)) | clear_value y | skip)
    | split

theorem State.powerFailRecord_only {ks : List Part} {s x : State} (mv : Nat) (hk : [.out, .pcie, .log, .tm, .journal, .ports] ⊆ ks) (h : Only ks s x) :
    Only ks s (State.powerFailRecord mv x) := by
  unfold State.powerFailRecord
  repeat' first
    | with_reducible assumption
    | with_reducible apply State.raiseModule_only
    | with_reducible apply State.writeRecord_only
    | exact subset_of (by decide) hk
    | ((try lift_lets); intro y; first | (refine (fun (_ : Only ks s y) => ?_) ?_; (on_goal 1 => clear_value y); (on_goal 2 => subst y)) | clear_value y | skip)
    | split

end Sys2Proof.Machine
end

