-- ==== Sys2Proof/Laws/OnlyTides.lean ====
section
/-! SUPPORT. Which parts of the state the operations of Machine/TideOps, TideEngine can change: one law for each operation. -/

namespace Sys2Proof.Machine

/-! ## Machine/TideOps.lean -/

theorem State.raiseKey_only {ks : List Part} {s x : State} (key : Nat × Nat × Nat) (code kind index : Nat) (fs : List (Nat × Nat × Nat)) (hk : [.out, .pcie, .log, .tm, .run] ⊆ ks) (h : Only ks s x) :
    Only ks s (State.raiseKey key code kind index fs x) := by
  unfold State.raiseKey
  repeat' first
    | with_reducible assumption
    | with_reducible apply modRun_only
    | with_reducible apply State.raise_only
    | exact subset_of (by decide) hk
    | split

theorem State.cliffEvent_only {ks : List Part} {s x : State} (u : Tide) (owner tensor tile : Nat) (c : CliffCause) (hk : [.out, .pcie, .log, .tm, .run] ⊆ ks) (h : Only ks s x) :
    Only ks s (State.cliffEvent u owner tensor tile c x) := by
  unfold State.cliffEvent
  repeat' first
    | with_reducible assumption
    | with_reducible apply State.raiseKey_only

theorem State.narEvent_only {ks : List Part} {s x : State} (kind index tensor record row col : Nat) (hk : [.out, .pcie, .log, .tm, .run] ⊆ ks) (h : Only ks s x) :
    Only ks s (State.narEvent kind index tensor record row col x) := by
  unfold State.narEvent
  repeat' first
    | with_reducible assumption
    | with_reducible apply State.raiseKey_only

theorem State.noteStat_only {ks : List Part} {s x : State} (n : Nat) (st : TensorStat) (hk : [.run] ⊆ ks) (h : Only ks s x) :
    Only ks s (State.noteStat n st x) := by
  unfold State.noteStat
  repeat' first
    | with_reducible assumption
    | with_reducible apply modRun_only

theorem State.setRegion_only {ks : List Part} {s x : State} (i inst : Nat) (f : Region → Region) (hk : [.run] ⊆ ks) (h : Only ks s x) :
    Only ks s (State.setRegion i inst f x) := by
  unfold State.setRegion
  repeat' first
    | with_reducible assumption
    | with_reducible apply modRun_only

theorem State.sumCliff_only {ks : List Part} {s x : State} (g : Bytes) (i inst kind index : Nat) (fs : List (Nat × Nat × Nat)) (hk : [.out, .pcie, .log, .tm, .run] ⊆ ks) (h : Only ks s x) :
    Only ks s (State.sumCliff g i inst kind index fs x) := by
  unfold State.sumCliff
  repeat' first
    | with_reducible assumption
    | with_reducible apply State.raiseKey_only

theorem State.applyAdd_only {ks : List Part} {s x : State} (t : Table) (i inst loc : Nat) (c : Contribution) (hk : [.out, .pcie, .log, .tm, .mem, .run, .quays, .snap] ⊆ ks) (h : Only ks s x) :
    Only ks s (State.applyAdd t i inst loc c x) := by
  unfold State.applyAdd
  repeat' first
    | with_reducible assumption
    | with_reducible apply State.memWrite_only
    | with_reducible apply State.count_only
    | with_reducible apply State.setRegion_only
    | with_reducible apply modRun_only
    | with_reducible apply State.sumCliff_only
    | exact subset_of (by decide) hk
    | ((try lift_lets); intro y; first | (refine (fun (_ : Only ks s y) => ?_) ?_; (on_goal 1 => clear_value y); (on_goal 2 => subst y)) | clear_value y | skip)
    | split

theorem State.regionAdd_only {ks : List Part} {s x : State} (t : Table) (i inst loc : Nat) (c : Contribution) (hk : [.out, .freeCtr, .power, .boot, .pcie, .cqs, .cmds, .log, .tm, .mem, .run, .stalls, .quays, .snap, .journal, .harbour, .ports, .test] ⊆ ks) (h : Only ks s x) :
    Only ks s (State.regionAdd t i inst loc c x) := by
  unfold State.regionAdd
  repeat' first
    | with_reducible assumption
    | with_reducible apply modRun_only
    | with_reducible apply State.guarded_only
    | with_reducible apply State.applyAdd_only
    | with_reducible apply State.setRegion_only
    | exact subset_of (by decide) hk
    | refine fun (_ : State) (_ : Only ks s _) => ?_
    | refine fun _ (_ : State) (_ : Only ks s _) => ?_
    | split

theorem State.openRegion_only {ks : List Part} {s x : State} (t : Table) (i inst : Nat) (hk : [.out, .freeCtr, .power, .boot, .pcie, .cqs, .cmds, .log, .tm, .mem, .run, .stalls, .quays, .snap, .journal, .harbour, .ports, .test] ⊆ ks) (h : Only ks s x) :
    Only ks s (State.openRegion t i inst x) := by
  unfold State.openRegion
  repeat' first
    | with_reducible assumption
    | with_reducible apply State.guarded_only
    | with_reducible apply State.memWrite_only
    | with_reducible apply modRun_only
    | with_reducible apply State.applyAdd_only
    | (with_reducible apply foldl_only; on_goal 2 => intros)
    | exact subset_of (by decide) hk
    | refine fun (_ : State) (_ : Only ks s _) => ?_

theorem State.putRowAt_only {ks : List Part} {s z : State} (u : Tide) (x : Bytes) (row r c0 : Nat) (f : Fmt) (codes : List Nat) (scales : List Int) (hk : [.out, .pcie, .log, .tm, .mem, .run, .quays, .snap] ⊆ ks) (h : Only ks s z) :
    Only ks s (State.putRowAt u x row r c0 f codes scales z) := by
  unfold State.putRowAt
  repeat' first
    | with_reducible assumption
    | with_reducible apply State.memWrite_only
    | (with_reducible apply foldl_only; on_goal 2 => intros)
    | exact subset_of (by decide) hk
    | ((try lift_lets); intro y; first | (refine (fun (_ : Only ks s y) => ?_) ?_; (on_goal 1 => clear_value y); (on_goal 2 => subst y)) | clear_value y | skip)
    | split

theorem State.putRow_only {ks : List Part} {s z : State} (u : Tide) (x : Bytes) (row c0 : Nat) (f : Fmt) (c : ClosedRow) (hk : [.out, .pcie, .log, .tm, .mem, .run, .quays, .snap] ⊆ ks) (h : Only ks s z) :
    Only ks s (State.putRow u x row c0 f c z) := by
  unfold State.putRow
  repeat' first
    | with_reducible assumption
    | with_reducible apply State.putRowAt_only

theorem State.putTokenCopy_only {ks : List Part} {s z : State} (u : Tide) (x : Bytes) (row0 c0 : Nat) (rows : List (List Val)) (hk : [.out, .pcie, .log, .tm, .mem, .run, .quays, .snap] ⊆ ks) (h : Only ks s z) :
    Only ks s (State.putTokenCopy u x row0 c0 rows z) := by
  unfold State.putTokenCopy
  repeat' first
    | with_reducible assumption
    | with_reducible apply State.memWrite_only
    | (with_reducible apply foldl_only; on_goal 2 => intros)
    | exact subset_of (by decide) hk
    | ((try lift_lets); intro y; first | (refine (fun (_ : Only ks s y) => ?_) ?_; (on_goal 1 => clear_value y); (on_goal 2 => subst y)) | clear_value y | skip)
    | split

theorem State.storeReport_only {ks : List Part} {s z : State} (a record row col : Nat) (x : Bytes) (st : TensorStat) (hk : [.out, .pcie, .log, .tm, .run] ⊆ ks) (h : Only ks s z) :
    Only ks s (State.storeReport a record row col x st z) := by
  unfold State.storeReport
  repeat' first
    | with_reducible assumption
    | with_reducible apply State.noteStat_only
    | with_reducible apply State.raiseKey_only
    | with_reducible apply State.narEvent_only
    | exact subset_of (by decide) hk
    | ((try lift_lets); intro y; first | (refine (fun (_ : Only ks s y) => ?_) ?_; (on_goal 1 => clear_value y); (on_goal 2 => subst y)) | clear_value y | skip)
    | split

theorem State.spoil_only {ks : List Part} {s z : State} (u : Tide) (x : Bytes) (row : Nat) (hk : [.run] ⊆ ks) (h : Only ks s z) :
    Only ks s (State.spoil u x row z) := by
  unfold State.spoil
  repeat' first
    | with_reducible assumption
    | with_reducible apply modRun_only
    | exact subset_of (by decide) hk
    | ((try lift_lets); intro y; first | (refine (fun (_ : Only ks s y) => ?_) ?_; (on_goal 1 => clear_value y); (on_goal 2 => subst y)) | clear_value y | skip)
    | split

theorem State.reportRow_only {ks : List Part} {s z : State} (u : Tide) (x : Bytes) (row c0 tile : Nat) (accCliff : Bool) (c : ClosedRow) (hk : [.out, .pcie, .log, .tm, .run] ⊆ ks) (h : Only ks s z) :
    Only ks s (State.reportRow u x row c0 tile accCliff c z) := by
  unfold State.reportRow
  repeat' first
    | with_reducible assumption
    | with_reducible apply State.spoil_only
    | with_reducible apply State.storeReport_only
    | with_reducible apply State.noteStat_only
    | with_reducible apply State.cliffEvent_only
    | with_reducible apply State.narEvent_only
    | exact subset_of (by decide) hk
    | ((try lift_lets); intro y; first | (refine (fun (_ : Only ks s y) => ?_) ?_; (on_goal 1 => clear_value y); (on_goal 2 => subst y)) | clear_value y | skip)
    | split

theorem State.putStats_only {ks : List Part} {s x : State} (u : Tide) (n row : Nat) (vs : List Val) (hk : [.out, .pcie, .log, .tm, .mem, .run, .quays, .snap] ⊆ ks) (h : Only ks s x) :
    Only ks s (State.putStats u n row vs x) := by
  unfold State.putStats
  repeat' first
    | with_reducible assumption
    | with_reducible apply State.reportRow_only
    | with_reducible apply modRun_only
    | with_reducible apply State.memWrite_only
    | exact subset_of (by decide) hk
    | ((try lift_lets); intro y; first | (refine (fun (_ : Only ks s y) => ?_) ?_; (on_goal 1 => clear_value y); (on_goal 2 => subst y)) | clear_value y | skip)
    | split

theorem State.frameWrite_only {ks : List Part} {s x : State} (pages : List Nat) (off : Nat) (bs : Bytes) (hk : [.out, .pcie, .log, .tm, .mem, .run, .quays, .snap] ⊆ ks) (h : Only ks s x) :
    Only ks s (State.frameWrite pages off bs x) := by
  unfold State.frameWrite
  repeat' first
    | with_reducible assumption
    | with_reducible apply State.memWrite_only
    | (with_reducible apply foldl_only; on_goal 2 => intros)

theorem State.putCheckpoint_only {ks : List Part} {s z : State} (u : Tide) (x : Bytes) (row c0 : Nat) (c : ClosedRow) (hk : [.out, .pcie, .log, .tm, .mem, .run, .quays, .snap] ⊆ ks) (h : Only ks s z) :
    Only ks s (State.putCheckpoint u x row c0 c z) := by
  unfold State.putCheckpoint
  repeat' first
    | with_reducible assumption
    | with_reducible apply State.frameWrite_only
    | (with_reducible apply foldl_only; on_goal 2 => intros)
    | exact subset_of (by decide) hk
    | ((try lift_lets); intro y; first | (refine (fun (_ : Only ks s y) => ?_) ?_; (on_goal 1 => clear_value y); (on_goal 2 => subst y)) | clear_value y | skip)
    | split

theorem State.putValue_only {ks : List Part} {s z : State} (u : Tide) (x : Bytes) (row c0 : Nat) (codes : List Nat) (hk : [.out, .pcie, .log, .tm, .mem, .run, .quays, .snap] ⊆ ks) (h : Only ks s z) :
    Only ks s (State.putValue u x row c0 codes z) := by
  unfold State.putValue
  repeat' first
    | with_reducible assumption
    | with_reducible apply State.memWrite_only
    | with_reducible apply State.reportRow_only
    | (with_reducible apply foldl_only; on_goal 2 => intros)
    | exact subset_of (by decide) hk
    | ((try lift_lets); intro y; first | (refine (fun (_ : Only ks s y) => ?_) ?_; (on_goal 1 => clear_value y); (on_goal 2 => subst y)) | clear_value y | skip)
    | split

theorem State.putOut_only {ks : List Part} {s z : State} (u : Tide) (x : Bytes) (row c0 tile : Nat) (accCliff : Bool) (c : ClosedRow) (hk : [.out, .pcie, .log, .tm, .mem, .run, .quays, .snap] ⊆ ks) (h : Only ks s z) :
    Only ks s (State.putOut u x row c0 tile accCliff c z) := by
  unfold State.putOut
  repeat' first
    | with_reducible assumption
    | with_reducible apply State.putRowAt_only
    | with_reducible apply State.putValue_only
    | with_reducible apply State.reportRow_only
    | with_reducible apply State.putRow_only
    | with_reducible apply State.putCheckpoint_only
    | exact subset_of (by decide) hk
    | ((try lift_lets); intro y; first | (refine (fun (_ : Only ks s y) => ?_) ?_; (on_goal 1 => clear_value y); (on_goal 2 => subst y)) | clear_value y | skip)
    | split

theorem State.putVals_only {ks : List Part} {s z : State} (u : Tide) (x : Bytes) (row c0 tile : Nat) (adj : TensorStat → TensorStat) (vs : List Val) (hk : [.out, .pcie, .log, .tm, .mem, .run, .quays, .snap] ⊆ ks) (h : Only ks s z) :
    Only ks s (State.putVals u x row c0 tile adj vs z) := by
  unfold State.putVals
  repeat' first
    | with_reducible assumption
    | with_reducible apply State.putOut_only

theorem State.keepLanes_only {ks : List Part} {s x : State} (i : Nat) (a : ChainRun) (hk : [.stalls] ⊆ ks) (h : Only ks s x) :
    Only ks s (State.keepLanes i a x) := by
  unfold State.keepLanes
  repeat' first
    | with_reducible assumption
    | with_reducible apply setStall_only

theorem State.joinRow_only {ks : List Part} {s z : State} (u : Tide) (x : Bytes) (row c0 : Nat) (ch : List LaneStep) (vals : List Val) (pre : TensorStat) (hk : [.run] ⊆ ks) (h : Only ks s z) :
    Only ks s (State.joinRow u x row c0 ch vals pre z).2 := by
  unfold State.joinRow
  repeat' first
    | with_reducible assumption
    | with_reducible apply modRun_only
    | (with_reducible apply foldl_only; on_goal 2 => intros)
    | (with_reducible apply foldl_only_snd; on_goal 2 => intros)
    | exact subset_of (by decide) hk
    | ((try lift_lets); intro y; first | (refine (fun (_ : Only ks s y) => ?_) ?_; (on_goal 1 => clear_value y); (on_goal 2 => subst y)) | clear_value y | skip)
    | split

theorem State.chainRow_only {ks : List Part} {s z : State} (u : Tide) (x : Bytes) (row c0 : Nat) (alpha : Int) (ch : List LaneStep) (accs : List Acc) (hk : [.out, .pcie, .log, .tm, .mem, .run, .stalls, .quays, .snap] ⊆ ks) (h : Only ks s z) :
    Only ks s (State.chainRow u x row c0 alpha ch accs z).2 := by
  unfold State.chainRow
  repeat' first
    | with_reducible assumption
    | with_reducible apply State.joinRow_only
    | with_reducible apply State.putStats_only
    | with_reducible apply State.keepLanes_only
    | with_reducible apply State.count_only
    | refine only_of_eq (by assumption) ?_
    | exact subset_of (by decide) hk
    | ((try lift_lets); intro y; first | (refine (fun (_ : Only ks s y) => ?_) ?_; (on_goal 1 => clear_value y); (on_goal 2 => subst y)) | (refine (fun (_ : Only ks s y.2) => ?_) ?_; (on_goal 1 => clear_value y); (on_goal 2 => subst y)) | clear_value y | skip)
    | split

theorem State.gateOut_only {ks : List Part} {s z : State} (u : Tide) (x : Bytes) (a : Admit) (c0 tile : Nat) (vs : List Val) (pre : TensorStat) (hk : [.out, .pcie, .log, .tm, .mem, .run, .quays, .snap] ⊆ ks) (h : Only ks s z) :
    Only ks s (State.gateOut u x a c0 tile vs pre z) := by
  unfold State.gateOut
  repeat' first
    | with_reducible assumption
    | with_reducible apply modRun_only
    | with_reducible apply State.putVals_only
    | (with_reducible apply foldl_only; on_goal 2 => intros)
    | exact subset_of (by decide) hk
    | ((try lift_lets); intro y; first | (refine (fun (_ : Only ks s y) => ?_) ?_; (on_goal 1 => clear_value y); (on_goal 2 => subst y)) | clear_value y | skip)
    | split

theorem State.closeExpertRow_only {ks : List Part} {s z : State} (u : Tide) (x : Bytes) (row c0 tile : Nat) (alpha : Int) (ch : List LaneStep) (accs : List Acc) (hk : [.out, .pcie, .log, .tm, .mem, .run, .stalls, .quays, .snap] ⊆ ks) (h : Only ks s z) :
    Only ks s (State.closeExpertRow u x row c0 tile alpha ch accs z) := by
  unfold State.closeExpertRow
  repeat' first
    | with_reducible assumption
    | with_reducible apply State.putVals_only
    | with_reducible apply State.chainRow_only
    | with_reducible apply State.gateOut_only
    | (with_reducible apply foldl_only; on_goal 2 => intros)
    | refine only_of_eq (by assumption) ?_
    | exact subset_of (by decide) hk
    | ((try lift_lets); intro y; first | (refine (fun (_ : Only ks s y) => ?_) ?_; (on_goal 1 => clear_value y); (on_goal 2 => subst y)) | (refine (fun (_ : Only ks s y.2) => ?_) ?_; (on_goal 1 => clear_value y); (on_goal 2 => subst y)) | clear_value y | skip)
    | split

theorem State.closeOneRow_only {ks : List Part} {s z : State} (u : Tide) (x : Bytes) (row c0 tile : Nat) (alpha : Int) (ch : List LaneStep) (accs : List Acc) (hk : [.out, .pcie, .log, .tm, .mem, .run, .stalls, .quays, .snap] ⊆ ks) (h : Only ks s z) :
    Only ks s (State.closeOneRow u x row c0 tile alpha ch accs z).2 := by
  unfold State.closeOneRow
  repeat' first
    | with_reducible assumption
    | with_reducible apply State.putOut_only
    | with_reducible apply State.chainRow_only
    | with_reducible apply State.putVals_only
    | refine only_of_eq (by assumption) ?_
    | exact subset_of (by decide) hk
    | ((try lift_lets); intro y; first | (refine (fun (_ : Only ks s y) => ?_) ?_; (on_goal 1 => clear_value y); (on_goal 2 => subst y)) | (refine (fun (_ : Only ks s y.2) => ?_) ?_; (on_goal 1 => clear_value y); (on_goal 2 => subst y)) | clear_value y | skip)
    | split

theorem State.putCopies_only {ks : List Part} {s z : State} (u : Tide) (x : Bytes) (row0 : Nat) (rows : List (Nat × List Val)) (hk : [.out, .pcie, .log, .tm, .mem, .run, .quays, .snap] ⊆ ks) (h : Only ks s z) :
    Only ks s (State.putCopies u x row0 rows z) := by
  unfold State.putCopies
  repeat' first
    | with_reducible assumption
    | with_reducible apply State.putTokenCopy_only
    | (with_reducible apply foldl_only; on_goal 2 => intros)
    | exact subset_of (by decide) hk
    | ((try lift_lets); intro y; first | (refine (fun (_ : Only ks s y) => ?_) ?_; (on_goal 1 => clear_value y); (on_goal 2 => subst y)) | clear_value y | skip)
    | split

theorem State.closeToTensor_only {ks : List Part} {s z : State} (u : Tide) (x : Bytes) (row0 c0 tile : Nat) (alpha : Int) (ch : List LaneStep) (accs : List (List Acc)) (hk : [.out, .pcie, .log, .tm, .mem, .run, .stalls, .quays, .snap] ⊆ ks) (h : Only ks s z) :
    Only ks s (State.closeToTensor u x row0 c0 tile alpha ch accs z) := by
  unfold State.closeToTensor
  repeat' first
    | with_reducible assumption
    | with_reducible apply State.closeExpertRow_only
    | with_reducible apply State.closeOneRow_only
    | with_reducible apply State.putCopies_only
    | (with_reducible apply foldl_only; on_goal 2 => intros)
    | (with_reducible apply foldl_only_snd; on_goal 2 => intros)
    | refine only_of_eq (by assumption) ?_
    | exact subset_of (by decide) hk
    | ((try lift_lets); intro y; first | (refine (fun (_ : Only ks s y) => ?_) ?_; (on_goal 1 => clear_value y); (on_goal 2 => subst y)) | (refine (fun (_ : Only ks s y.2) => ?_) ?_; (on_goal 1 => clear_value y); (on_goal 2 => subst y)) | clear_value y | skip)
    | split

theorem State.closeToRegion_only {ks : List Part} {s x : State} (u : Tide) (g row0 c0 tile : Nat) (alpha : Int) (accs : List (List Acc)) (hk : [.out, .freeCtr, .power, .boot, .pcie, .cqs, .cmds, .log, .tm, .mem, .run, .stalls, .quays, .snap, .journal, .harbour, .ports, .test] ⊆ ks) (h : Only ks s x) :
    Only ks s (State.closeToRegion u g row0 c0 tile alpha accs x) := by
  unfold State.closeToRegion
  repeat' first
    | with_reducible assumption
    | with_reducible apply State.count_only
    | with_reducible apply State.sumCliff_only
    | with_reducible apply State.narEvent_only
    | with_reducible apply State.regionAdd_only
    | (with_reducible apply foldl_only; on_goal 2 => intros)
    | exact subset_of (by decide) hk
    | ((try lift_lets); intro y; first | (refine (fun (_ : Only ks s y) => ?_) ?_; (on_goal 1 => clear_value y); (on_goal 2 => subst y)) | clear_value y | skip)
    | split

theorem State.closeTile_only {ks : List Part} {s x : State} (u : Tide) (row0 c0 tile : Nat) (resident : Bool) (accs : List (List Acc)) (hk : [.out, .freeCtr, .power, .boot, .pcie, .cqs, .cmds, .log, .tm, .mem, .run, .stalls, .quays, .snap, .journal, .harbour, .ports, .test] ⊆ ks) (h : Only ks s x) :
    Only ks s (State.closeTile u row0 c0 tile resident accs x) := by
  unfold State.closeTile
  repeat' first
    | with_reducible assumption
    | with_reducible apply State.cliffEvent_only
    | with_reducible apply State.closeToRegion_only
    | with_reducible apply State.closeToTensor_only
    | exact subset_of (by decide) hk
    | ((try lift_lets); intro y; first | (refine (fun (_ : Only ks s y) => ?_) ?_; (on_goal 1 => clear_value y); (on_goal 2 => subst y)) | clear_value y | skip)
    | split

theorem State.packStash_only {ks : List Part} {s x : State} (u : Tide) (e : Bytes) (tb f : Nat) (hk : [.out, .freeCtr, .power, .boot, .pcie, .cqs, .cmds, .log, .tm, .mem, .run, .stalls, .quays, .snap, .journal, .harbour, .ports, .test] ⊆ ks) (h : Only ks s x) :
    Only ks s (State.packStash u e tb f x) := by
  unfold State.packStash
  repeat' first
    | with_reducible assumption
    | with_reducible apply State.guarded_only
    | with_reducible apply State.memWrite_only
    | with_reducible apply State.noteStat_only
    | with_reducible apply State.count_only
    | exact subset_of (by decide) hk
    | refine fun (_ : State) (_ : Only ks s _) => ?_
    | refine fun _ (_ : State) (_ : Only ks s _) => ?_
    | ((try lift_lets); intro y; first | (refine (fun (_ : Only ks s y) => ?_) ?_; (on_goal 1 => clear_value y); (on_goal 2 => subst y)) | clear_value y | skip)
    | split

/-! ## Machine/TideEngine.lean -/

theorem State.setTide_only {ks : List Part} {s x : State} (i inst : Nat) (st : TideStatus) (hk : [.run] ⊆ ks) (h : Only ks s x) :
    Only ks s (State.setTide i inst st x) := by
  unfold State.setTide
  repeat' first
    | with_reducible assumption
    | with_reducible apply modRun_only

theorem State.tideOver_only {ks : List Part} {s x : State} (i inst : Nat) (hk : [.job, .run] ⊆ ks) (h : Only ks s x) :
    Only ks s (State.tideOver i inst x) := by
  unfold State.tideOver
  repeat' first
    | with_reducible assumption
    | with_reducible apply State.setTide_only
    | with_reducible apply modJob_only
    | exact subset_of (by decide) hk

theorem State.passBarriers_only {ks : List Part} {s x : State} (t : Table) (hk : [.job, .run] ⊆ ks) (h : Only ks s x) :
    Only ks s (State.passBarriers t x) := by
  unfold State.passBarriers
  repeat' first
    | with_reducible assumption
    | with_reducible apply State.tideOver_only
    | (with_reducible apply foldl_only; on_goal 2 => intros)
    | exact subset_of (by decide) hk
    | split

theorem State.tideDone_only {ks : List Part} {s x : State} (t : Table) (i inst : Nat) (hk : [.job, .run] ⊆ ks) (h : Only ks s x) :
    Only ks s (State.tideDone t i inst x) := by
  unfold State.tideDone
  repeat' first
    | with_reducible assumption
    | with_reducible apply State.tideOver_only
    | with_reducible apply State.passBarriers_only

theorem State.setTile_only {ks : List Part} {s x : State} (i o inst : Nat) (f : Tile → Tile) (hk : [.stalls] ⊆ ks) (h : Only ks s x) :
    Only ks s (State.setTile i o inst f x) := by
  unfold State.setTile
  repeat' first
    | with_reducible assumption
    | with_reducible apply setStall_only

theorem State.addTile_only {ks : List Part} {s z : State} (i : Nat) (x : Tile) (hk : [.stalls] ⊆ ks) (h : Only ks s z) :
    Only ks s (State.addTile i x z) := by
  unfold State.addTile
  repeat' first
    | with_reducible assumption
    | with_reducible apply setStall_only

theorem State.conflicts_only {ks : List Part} {s x : State} (t : Table) (i : Nat) (hk : [.out, .pcie, .log, .tm, .run] ⊆ ks) (h : Only ks s x) :
    Only ks s (State.conflicts t i x) := by
  unfold State.conflicts
  repeat' first
    | with_reducible assumption
    | with_reducible apply modRun_only
    | with_reducible apply State.count_only
    | with_reducible apply State.raiseOnce_only
    | (with_reducible apply foldl_only; on_goal 2 => intros)
    | exact subset_of (by decide) hk
    | split

theorem State.reportAdds_only {ks : List Part} {s z : State} (u : Tide) (row col : Nat) (x : Reduced) (hk : [.out, .pcie, .log, .tm, .run] ⊆ ks) (h : Only ks s z) :
    Only ks s (State.reportAdds u row col x z) := by
  unfold State.reportAdds
  repeat' first
    | with_reducible assumption
    | with_reducible apply State.count_only
    | with_reducible apply State.narEvent_only
    | with_reducible apply State.cliffEvent_only
    | (with_reducible apply foldl_only; on_goal 2 => intros)
    | exact subset_of (by decide) hk
    | ((try lift_lets); intro y; first | (refine (fun (_ : Only ks s y) => ?_) ?_; (on_goal 1 => clear_value y); (on_goal 2 => subst y)) | clear_value y | skip)
    | split

theorem State.putLatent_only {ks : List Part} {s x : State} (u : Tide) (e : Bytes) (hk : [.out, .freeCtr, .power, .boot, .pcie, .cqs, .cmds, .log, .tm, .mem, .run, .stalls, .quays, .snap, .journal, .harbour, .ports, .test] ⊆ ks) (h : Only ks s x) :
    Only ks s (State.putLatent u e x) := by
  unfold State.putLatent
  repeat' first
    | with_reducible assumption
    | with_reducible apply State.guarded_only
    | with_reducible apply State.memWrite_only
    | (with_reducible apply foldl_only; on_goal 2 => intros)
    | exact subset_of (by decide) hk
    | refine fun (_ : State) (_ : Only ks s _) => ?_
    | refine fun _ (_ : State) (_ : Only ks s _) => ?_
    | ((try lift_lets); intro y; first | (refine (fun (_ : Only ks s y) => ?_) ?_; (on_goal 1 => clear_value y); (on_goal 2 => subst y)) | clear_value y | skip)
    | split

theorem State.repack_only {ks : List Part} {s x : State} (u : Tide) (hk : [.out, .freeCtr, .power, .boot, .pcie, .cqs, .cmds, .log, .tm, .mem, .run, .stalls, .quays, .snap, .journal, .harbour, .ports, .test] ⊆ ks) (h : Only ks s x) :
    Only ks s (State.repack u x) := by
  unfold State.repack
  repeat' first
    | with_reducible assumption
    | with_reducible apply State.packStash_only
    | with_reducible apply modRun_only
    | with_reducible apply State.putLatent_only
    | (with_reducible apply foldl_only; on_goal 2 => intros)
    | exact subset_of (by decide) hk
    | split

theorem State.keepStore_only {ks : List Part} {s x : State} (u : Tide) (p : StorePart) (n : Nat) (bs : List Block) (hk : [.stalls] ⊆ ks) (h : Only ks s x) :
    Only ks s (State.keepStore u p n bs x) := by
  unfold State.keepStore
  repeat' first
    | with_reducible assumption
    | with_reducible apply setStall_only

theorem State.loadPlane_only {ks : List Part} {s x : State} (k : Nat) (u : Tide) (p : Pass) (hk : [.stalls] ⊆ ks) (h : Only ks s x) :
    Only ks s (State.loadPlane k u p x) := by
  unfold State.loadPlane
  repeat' first
    | with_reducible assumption
    | with_reducible apply State.keepStore_only
    | with_reducible apply setStall_only

theorem State.storeRows_only {ks : List Part} {s z : State} (u : Tide) (x : Bytes) (row : Nat) (hk : [.stalls] ⊆ ks) (h : Only ks s z) :
    Only ks s (State.storeRows u x row z) := by
  unfold State.storeRows
  repeat' first
    | with_reducible assumption
    | with_reducible apply State.keepStore_only

theorem State.keepLaneRow_only {ks : List Part} {s x : State} (u : Tide) (p : StorePart) (n : Nat) (vs : List Val) (hk : [.stalls] ⊆ ks) (h : Only ks s x) :
    Only ks s (State.keepLaneRow u p n vs x) := by
  unfold State.keepLaneRow
  repeat' first
    | with_reducible assumption
    | with_reducible apply State.keepStore_only

theorem State.reportPass_only {ks : List Part} {s z : State} (u : Tide) (x : Bytes) (p : Pass) (out : List (List Reduced)) (hk : [.out, .pcie, .log, .tm, .run] ⊆ ks) (h : Only ks s z) :
    Only ks s (State.reportPass u x p out z) := by
  unfold State.reportPass
  repeat' first
    | with_reducible assumption
    | with_reducible apply State.count_only
    | with_reducible apply State.reportAdds_only
    | (with_reducible apply foldl_only; on_goal 2 => intros)
    | exact subset_of (by decide) hk
    | ((try lift_lets); intro y; first | (refine (fun (_ : Only ks s y) => ?_) ?_; (on_goal 1 => clear_value y); (on_goal 2 => subst y)) | clear_value y | skip)
    | split

theorem State.closeOwned_only {ks : List Part} {s x : State} (u : Tide) (row0 col0 : Nat) (accs : List (List Acc)) (hk : [.out, .freeCtr, .power, .boot, .pcie, .cqs, .cmds, .log, .tm, .mem, .run, .stalls, .quays, .snap, .journal, .harbour, .ports, .test] ⊆ ks) (h : Only ks s x) :
    Only ks s (State.closeOwned u row0 col0 accs x) := by
  unfold State.closeOwned
  repeat' first
    | with_reducible assumption
    | with_reducible apply State.closeTile_only
    | with_reducible apply setStall_only
    | with_reducible apply State.count_only
    | with_reducible apply State.cliffEvent_only
    | exact subset_of (by decide) hk
    | ((try lift_lets); intro y; first | (refine (fun (_ : Only ks s y) => ?_) ?_; (on_goal 1 => clear_value y); (on_goal 2 => subst y)) | clear_value y | skip)
    | split

theorem State.runPass_only {ks : List Part} {s x : State} (u : Tide) (p : Pass) (hk : [.out, .freeCtr, .power, .boot, .pcie, .cqs, .cmds, .log, .tm, .mem, .run, .stalls, .quays, .snap, .journal, .harbour, .ports, .test] ⊆ ks) (h : Only ks s x) :
    Only ks s (State.runPass u p x) := by
  unfold State.runPass
  repeat' first
    | with_reducible assumption
    | with_reducible apply State.storeRows_only
    | with_reducible apply State.reportPass_only
    | with_reducible apply State.closeOwned_only
    | with_reducible apply State.setTile_only
    | exact subset_of (by decide) hk
    | ((try lift_lets); intro y; first | (refine (fun (_ : Only ks s y) => ?_) ?_; (on_goal 1 => clear_value y); (on_goal 2 => subst y)) | clear_value y | skip)
    | split

theorem State.passesEnd_only {ks : List Part} {s x : State} (u : Tide) (hk : [.stalls] ⊆ ks) (h : Only ks s x) :
    Only ks s (State.passesEnd u x) := by
  unfold State.passesEnd
  repeat' first
    | with_reducible assumption
    | with_reducible apply State.setTile_only
    | exact subset_of (by decide) hk
    | split

theorem State.servePass_only {ks : List Part} {s x : State} (u : Tide) (k : Nat) (hk : [.out, .freeCtr, .power, .boot, .pcie, .cqs, .cmds, .log, .tm, .mem, .run, .stalls, .quays, .snap, .journal, .harbour, .ports, .test] ⊆ ks) (h : Only ks s x) :
    Only ks s (State.servePass u k x) := by
  unfold State.servePass
  repeat' first
    | with_reducible assumption
    | with_reducible apply setStall_only
    | with_reducible apply State.runPass_only
    | with_reducible apply State.passesEnd_only
    | exact subset_of (by decide) hk
    | ((try lift_lets); intro y; first | (refine (fun (_ : Only ks s y) => ?_) ?_; (on_goal 1 => clear_value y); (on_goal 2 => subst y)) | clear_value y | skip)
    | split

theorem State.startProduct_only {ks : List Part} {s x : State} (u : Tide) (hk : [.out, .freeCtr, .power, .boot, .pcie, .cqs, .cmds, .log, .tm, .mem, .run, .stalls, .quays, .snap, .journal, .harbour, .ports, .test] ⊆ ks) (h : Only ks s x) :
    Only ks s (State.startProduct u x) := by
  unfold State.startProduct
  repeat' first
    | with_reducible assumption
    | with_reducible apply State.addTile_only
    | with_reducible apply State.servePass_only
    | exact subset_of (by decide) hk
    | split

theorem State.planeAhead_only {ks : List Part} {s x : State} (t : Table) (i : Nat) (hk : [.out, .freeCtr, .power, .boot, .pcie, .cqs, .cmds, .log, .tm, .mem, .run, .stalls, .quays, .snap, .journal, .harbour, .ports, .test] ⊆ ks) (h : Only ks s x) :
    Only ks s (State.planeAhead t i x) := by
  unfold State.planeAhead
  repeat' first
    | with_reducible assumption
    | with_reducible apply State.repack_only
    | with_reducible apply State.loadPlane_only
    | exact subset_of (by decide) hk
    | split

theorem State.planeLoaded_only {ks : List Part} {s x : State} (i : Nat) (t : Table) (hk : [.out, .freeCtr, .power, .boot, .pcie, .cqs, .cmds, .log, .tm, .mem, .run, .stalls, .quays, .snap, .journal, .harbour, .ports, .test] ⊆ ks) (h : Only ks s x) :
    Only ks s (State.planeLoaded i t x) := by
  unfold State.planeLoaded
  repeat' first
    | with_reducible assumption
    | with_reducible apply State.planeAhead_only
    | with_reducible apply State.loadPlane_only
    | with_reducible apply State.servePass_only
    | exact subset_of (by decide) hk
    | ((try lift_lets); intro y; first | (refine (fun (_ : Only ks s y) => ?_) ?_; (on_goal 1 => clear_value y); (on_goal 2 => subst y)) | clear_value y | skip)
    | split

theorem State.startClose_only {ks : List Part} {s x : State} (u : Tide) (hk : [.out, .freeCtr, .power, .boot, .pcie, .cqs, .cmds, .log, .tm, .mem, .run, .stalls, .quays, .snap, .journal, .harbour, .ports, .test] ⊆ ks) (h : Only ks s x) :
    Only ks s (State.startClose u x) := by
  unfold State.startClose
  repeat' first
    | with_reducible assumption
    | with_reducible apply State.closeOwned_only
    | with_reducible apply State.setTile_only
    | exact subset_of (by decide) hk
    | ((try lift_lets); intro y; first | (refine (fun (_ : Only ks s y) => ?_) ?_; (on_goal 1 => clear_value y); (on_goal 2 => subst y)) | clear_value y | skip)
    | split

theorem State.startLoad_only {ks : List Part} {s x : State} (u : Tide) (hk : [.out, .pcie, .log, .tm, .run, .stalls] ⊆ ks) (h : Only ks s x) :
    Only ks s (State.startLoad u x) := by
  unfold State.startLoad
  repeat' first
    | with_reducible assumption
    | with_reducible apply State.load_only
    | with_reducible apply State.reportAdds_only
    | with_reducible apply State.addTile_only
    | with_reducible apply State.setTile_only
    | (with_reducible apply foldl_only; on_goal 2 => intros)
    | exact subset_of (by decide) hk
    | ((try lift_lets); intro y; first | (refine (fun (_ : Only ks s y) => ?_) ?_; (on_goal 1 => clear_value y); (on_goal 2 => subst y)) | clear_value y | skip)
    | split

theorem State.startGather_only {ks : List Part} {s x : State} (u : Tide) (hk : [.stalls] ⊆ ks) (h : Only ks s x) :
    Only ks s (State.startGather u x) := by
  unfold State.startGather
  repeat' first
    | with_reducible assumption
    | with_reducible apply State.addTile_only

theorem State.laneRowStep_only {ks : List Part} {s z : State} (u : Tide) (x : Bytes) (ch : List LaneStep) (row : Nat) (hk : [.out, .pcie, .log, .tm, .mem, .run, .stalls, .quays, .snap] ⊆ ks) (h : Only ks s z) :
    Only ks s (State.laneRowStep u x ch row z).2 := by
  unfold State.laneRowStep
  repeat' first
    | with_reducible assumption
    | with_reducible apply State.keepLaneRow_only
    | with_reducible apply State.putStats_only
    | with_reducible apply State.keepLanes_only
    | with_reducible apply State.putVals_only
    | (with_reducible apply foldl_only; on_goal 2 => intros)
    | (with_reducible apply foldl_only_snd; on_goal 2 => intros)
    | exact subset_of (by decide) hk

theorem State.startLane_only {ks : List Part} {s x : State} (u : Tide) (hk : [.out, .pcie, .log, .tm, .mem, .run, .stalls, .quays, .snap] ⊆ ks) (h : Only ks s x) :
    Only ks s (State.startLane u x) := by
  unfold State.startLane
  repeat' first
    | with_reducible assumption
    | with_reducible apply State.count_only
    | with_reducible apply State.laneRowStep_only
    | with_reducible apply State.putTokenCopy_only
    | (with_reducible apply foldl_only; on_goal 2 => intros)
    | (with_reducible apply foldl_only_snd; on_goal 2 => intros)
    | refine only_of_eq (by assumption) ?_
    | exact subset_of (by decide) hk
    | ((try lift_lets); intro y; first | (refine (fun (_ : Only ks s y) => ?_) ?_; (on_goal 1 => clear_value y); (on_goal 2 => subst y)) | (refine (fun (_ : Only ks s y.2) => ?_) ?_; (on_goal 1 => clear_value y); (on_goal 2 => subst y)) | clear_value y | skip)
    | split

theorem State.copyRow_only {ks : List Part} {s z : State} (u : Tide) (x y : Bytes) (row : Option Nat) (out : Nat) (hk : [.out, .pcie, .log, .tm, .mem, .run, .quays, .snap] ⊆ ks) (h : Only ks s z) :
    Only ks s (State.copyRow u x y row out z) := by
  unfold State.copyRow
  repeat' first
    | with_reducible assumption
    | with_reducible apply State.putRowAt_only
    | with_reducible apply State.reportRow_only
    | exact subset_of (by decide) hk
    | ((try lift_lets); intro y; first | (refine (fun (_ : Only ks s y) => ?_) ?_; (on_goal 1 => clear_value y); (on_goal 2 => subst y)) | clear_value y | skip)
    | split

theorem State.putGathered_only {ks : List Part} {s z : State} (u : Tide) (x : Bytes) (hk : [.out, .pcie, .log, .tm, .mem, .run, .quays, .snap] ⊆ ks) (h : Only ks s z) :
    Only ks s (State.putGathered u x z) := by
  unfold State.putGathered
  repeat' first
    | with_reducible assumption
    | with_reducible apply State.copyRow_only
    | (with_reducible apply foldl_only; on_goal 2 => intros)
    | exact subset_of (by decide) hk
    | split

theorem State.startRoute_only {ks : List Part} {s x : State} (u : Tide) (hk : [.out, .pcie, .log, .tm, .mem, .run, .quays, .snap] ⊆ ks) (h : Only ks s x) : Only ks s (State.startRoute u x) := by
  unfold State.startRoute
  dsimp only
  split
  · exact State.putGathered_only _ _ (subset_of (by decide) hk) <| foldl_only h fun y a hy => State.count_only _ _ (subset_of (by decide) hk) (modRun_only _ (subset_of (by decide) hk) hy)
  · exact h

theorem State.checkBatch_only {ks : List Part} {s x : State} (b : Batch) (hk : [.out, .pcie, .log, .tm, .run] ⊆ ks) (h : Only ks s x) :
    Only ks s (State.checkBatch b x) := by
  unfold State.checkBatch
  repeat' first
    | with_reducible assumption
    | with_reducible apply State.violation_only
    | with_reducible apply modRun_only
    | exact subset_of (by decide) hk
    | split

theorem State.readBatch_only {ks : List Part} {s x : State} (u : Tide) (hk : [.out, .pcie, .log, .tm, .run] ⊆ ks) (h : Only ks s x) :
    Only ks s (State.readBatch u x) := by
  unfold State.readBatch
  repeat' first
    | with_reducible assumption
    | with_reducible apply State.checkBatch_only
    | exact subset_of (by decide) hk
    | split

theorem State.countReads_only {ks : List Part} {s x : State} (u : Tide) (hk : [.out, .pcie, .log, .tm] ⊆ ks) (h : Only ks s x) :
    Only ks s (State.countReads u x) := by
  unfold State.countReads
  repeat' first
    | with_reducible assumption
    | with_reducible apply State.count_only
    | (with_reducible apply foldl_only; on_goal 2 => intros)

theorem State.runTide_only {ks : List Part} {s x : State} (u : Tide) (hk : [.out, .freeCtr, .power, .boot, .pcie, .cqs, .cmds, .log, .tm, .mem, .run, .stalls, .quays, .snap, .journal, .harbour, .ports, .test] ⊆ ks) (h : Only ks s x) :
    Only ks s (State.runTide u x) := by
  unfold State.runTide
  repeat' first
    | with_reducible assumption
    | with_reducible apply State.readBatch_only
    | with_reducible apply State.countReads_only
    | with_reducible apply State.setTide_only
    | with_reducible apply setStall_only
    | with_reducible apply State.repack_only
    | with_reducible apply State.startProduct_only
    | with_reducible apply State.startClose_only
    | with_reducible apply State.startLane_only
    | with_reducible apply State.startLoad_only
    | with_reducible apply State.startGather_only
    | with_reducible apply State.startRoute_only
    | exact subset_of (by decide) hk
    | ((try lift_lets); intro y; first | (refine (fun (_ : Only ks s y) => ?_) ?_; (on_goal 1 => clear_value y); (on_goal 2 => subst y)) | clear_value y | skip)
    | split

theorem State.startTide_only {ks : List Part} {s x : State} (u : Tide) (hk : [.out, .freeCtr, .power, .boot, .pcie, .cqs, .cmds, .log, .tm, .mem, .run, .stalls, .quays, .snap, .journal, .harbour, .ports, .test] ⊆ ks) (h : Only ks s x) :
    Only ks s (State.startTide u x) := by
  unfold State.startTide
  repeat' first
    | with_reducible assumption
    | with_reducible apply State.guarded_only
    | with_reducible apply State.runTide_only
    | exact subset_of (by decide) hk
    | refine fun (_ : State) (_ : Only ks s _) => ?_

theorem State.freeStash_only {ks : List Part} {s x : State} (t : Table) (inst : Nat) (hk : [.run] ⊆ ks) (h : Only ks s x) :
    Only ks s (State.freeStash t inst x) := by
  unfold State.freeStash
  repeat' first
    | with_reducible assumption
    | with_reducible apply modRun_only
    | exact subset_of (by decide) hk
    | ((try lift_lets); intro y; first | (refine (fun (_ : Only ks s y) => ?_) ?_; (on_goal 1 => clear_value y); (on_goal 2 => subst y)) | clear_value y | skip)
    | split

theorem State.completeTide_only {ks : List Part} {s x : State} (u : Tide) (hk : [.out, .pcie, .log, .tm, .job, .run, .stalls] ⊆ ks) (h : Only ks s x) :
    Only ks s (State.completeTide u x) := by
  unfold State.completeTide
  repeat' first
    | with_reducible assumption
    | with_reducible apply setStall_only
    | with_reducible apply State.count_only
    | with_reducible apply State.tideDone_only
    | with_reducible apply State.freeStash_only
    | exact subset_of (by decide) hk
    | ((try lift_lets); intro y; first | (refine (fun (_ : Only ks s y) => ?_) ?_; (on_goal 1 => clear_value y); (on_goal 2 => subst y)) | clear_value y | skip)
    | split

end Sys2Proof.Machine
end

