-- ==== Sys2Proof/Laws/OnlyHarbour.lean ====
section
/-! SUPPORT. Which parts of the state the operations of Machine/HarbourBase, LinkEngine, Runs, Census can change: one law for each operation. -/

namespace Sys2Proof.Machine

/-! ## Machine/HarbourBase.lean -/

theorem State.sendView_only {ks : List Part} {s x : State} (hk : [.out, .pcie, .log, .tm, .ports] ⊆ ks) (h : Only ks s x) :
    Only ks s (State.sendView x) := by
  unfold State.sendView
  repeat' first
    | with_reducible assumption
    | with_reducible apply State.sendLink_only
    | (with_reducible apply foldl_only; on_goal 2 => intros)

theorem State.enterCensus_only {ks : List Part} {s x : State} (hk : [.out, .pcie, .log, .tm, .harbour, .ports] ⊆ ks) (h : Only ks s x) :
    Only ks s (State.enterCensus x) := by
  unfold State.enterCensus
  repeat' first
    | with_reducible assumption
    | with_reducible apply modHarbour_only
    | with_reducible apply State.sendView_only
    | exact subset_of (by decide) hk
    | ((try lift_lets); intro y; first | (refine (fun (_ : Only ks s y) => ?_) ?_; (on_goal 1 => clear_value y); (on_goal 2 => subst y)) | clear_value y | skip)
    | split

theorem State.setEntry_only {ks : List Part} {s x : State} (r : Nat) (f : CensusEntry → CensusEntry) (hk : [.out, .pcie, .log, .tm, .harbour, .ports] ⊆ ks) (h : Only ks s x) :
    Only ks s (State.setEntry r f x) := by
  unfold State.setEntry
  repeat' first
    | with_reducible assumption
    | with_reducible apply modHarbour_only
    | with_reducible apply State.sendView_only
    | exact subset_of (by decide) hk
    | ((try lift_lets); intro y; first | (refine (fun (_ : Only ks s y) => ?_) ?_; (on_goal 1 => clear_value y); (on_goal 2 => subst y)) | clear_value y | skip)
    | split

theorem State.markLost_only {ks : List Part} {s x : State} (r reason : Nat) (ej announced : Bool) (hk : [.out, .pcie, .log, .tm, .harbour, .ports] ⊆ ks) (h : Only ks s x) :
    Only ks s (State.markLost r reason ej announced x) := by
  unfold State.markLost
  repeat' first
    | with_reducible assumption
    | with_reducible apply State.setEntry_only

theorem State.reform_only {ks : List Part} {s x : State} (m : LinkMsg) (hk : [.out, .pcie, .cmds, .log, .tm, .run, .stalls, .harbour, .ports] ⊆ ks) (h : Only ks s x) :
    Only ks s (State.reform m x) := by
  unfold State.reform
  repeat' first
    | with_reducible assumption
    | with_reducible apply State.abandonAttempt_only
    | with_reducible apply State.flood_only
    | with_reducible apply State.enterCensus_only
    | exact subset_of (by decide) hk
    | split

theorem State.applyEject_only {ks : List Part} {s x : State} (e : EjectRec) (hk : [.out, .pcie, .log, .tm, .harbour, .ports] ⊆ ks) (h : Only ks s x) :
    Only ks s (State.applyEject e x) := by
  unfold State.applyEject
  repeat' first
    | with_reducible assumption
    | with_reducible apply State.markLost_only
    | with_reducible apply modHarbour_only
    | exact subset_of (by decide) hk
    | split

theorem State.eject_only {ks : List Part} {s x : State} (e : EjectRec) (hk : [.out, .pcie, .cmds, .log, .tm, .run, .stalls, .harbour, .ports] ⊆ ks) (h : Only ks s x) :
    Only ks s (State.eject e x) := by
  unfold State.eject
  repeat' first
    | with_reducible assumption
    | with_reducible apply State.reform_only
    | with_reducible apply State.applyEject_only
    | exact subset_of (by decide) hk
    | split

theorem State.deferLeaver_only {ks : List Part} {s x : State} (r : Nat) (hk : [.harbour] ⊆ ks) (h : Only ks s x) :
    Only ks s (State.deferLeaver r x) := by
  unfold State.deferLeaver
  repeat' first
    | with_reducible assumption
    | with_reducible apply modHarbour_only

theorem State.lostMember_only {ks : List Part} {s x : State} (m : LinkMsg) (r reason : Nat) (hk : [.out, .pcie, .cmds, .log, .tm, .run, .stalls, .harbour, .ports] ⊆ ks) (h : Only ks s x) :
    Only ks s (State.lostMember m r reason x) := by
  unfold State.lostMember
  repeat' first
    | with_reducible assumption
    | with_reducible apply State.reform_only
    | with_reducible apply State.markLost_only
    | exact subset_of (by decide) hk
    | split

theorem State.portReform_only {ks : List Part} {s x : State} (p : Nat) (hk : [.out, .pcie, .cmds, .log, .tm, .run, .stalls, .harbour, .ports] ⊆ ks) (h : Only ks s x) :
    Only ks s (State.portReform p x) := by
  unfold State.portReform
  repeat' first
    | with_reducible assumption
    | with_reducible apply State.eject_only

theorem State.outOfHarbour_only {ks : List Part} {s x : State} (keepPartner : Bool) (hk : [.out, .power, .pcie, .log, .tm, .stalls, .harbour, .ports] ⊆ ks) (h : Only ks s x) :
    Only ks s (State.outOfHarbour keepPartner x) := by
  unfold State.outOfHarbour
  repeat' first
    | with_reducible assumption
    | with_reducible apply State.darkPorts_only
    | with_reducible apply modHarbour_only
    | exact subset_of (by decide) hk

/-! ## Machine/LinkEngine.lean -/

theorem State.sendFrame_only {ks : List Part} {s x : State} (port : Nat) (f : BucketFrame) (hk : [.out, .pcie, .log, .tm, .ports] ⊆ ks) (h : Only ks s x) :
    Only ks s (State.sendFrame port f x) := by
  unfold State.sendFrame
  repeat' first
    | with_reducible assumption
    | with_reducible apply State.sendLink_only
    | with_reducible apply State.count_only
    | exact subset_of (by decide) hk

theorem State.sendXfer_only {ks : List Part} {s z : State} (t : Table) (x : Xfer) (hk : [.out, .pcie, .log, .tm, .ports] ⊆ ks) (h : Only ks s z) :
    Only ks s (State.sendXfer t x z) := by
  unfold State.sendXfer
  repeat' first
    | with_reducible assumption
    | with_reducible apply State.sendFrame_only
    | (with_reducible apply foldl_only; on_goal 2 => intros)
    | exact subset_of (by decide) hk
    | split

theorem State.modLink_only {ks : List Part} {s x : State} (f : Link → Link) (hk : [.harbour] ⊆ ks) (h : Only ks s x) :
    Only ks s (State.modLink f x) := by
  unfold State.modLink
  repeat' first
    | with_reducible assumption
    | with_reducible apply modHarbour_only

theorem State.convertCliff_only {ks : List Part} {s x : State} (b : Bytes) (c : Converted) (hk : [.out, .pcie, .log, .tm, .run] ⊆ ks) (h : Only ks s x) :
    Only ks s (State.convertCliff b c x) := by
  unfold State.convertCliff
  repeat' first
    | with_reducible assumption
    | with_reducible apply State.raiseKey_only
    | exact subset_of (by decide) hk
    | split

theorem State.convertNar_only {ks : List Part} {s x : State} (c : Converted) (hk : [.out, .pcie, .log, .tm, .run] ⊆ ks) (h : Only ks s x) :
    Only ks s (State.convertNar c x) := by
  unfold State.convertNar
  repeat' first
    | with_reducible assumption
    | with_reducible apply State.narEvent_only
    | (with_reducible apply foldl_only; on_goal 2 => intros)
    | exact subset_of (by decide) hk
    | split

theorem State.convertOwn_only {ks : List Part} {s x : State} (t : Table) (l : Lane) (hk : [.out, .pcie, .log, .tm, .run, .harbour] ⊆ ks) (h : Only ks s x) :
    Only ks s (State.convertOwn t l x) := by
  unfold State.convertOwn
  repeat' first
    | with_reducible assumption
    | with_reducible apply State.convertCliff_only
    | with_reducible apply State.convertNar_only
    | with_reducible apply State.modLink_only
    | (with_reducible apply foldl_only; on_goal 2 => intros)
    | exact subset_of (by decide) hk
    | ((try lift_lets); intro y; first | (refine (fun (_ : Only ks s y) => ?_) ?_; (on_goal 1 => clear_value y); (on_goal 2 => subst y)) | clear_value y | skip)
    | split

theorem State.sendReady_only {ks : List Part} {s x : State} (t : Table) (i : Nat) (l : List Xfer) (n : Nat) (hk : [.out, .pcie, .log, .tm, .harbour, .ports] ⊆ ks) (h : Only ks s x) :
    Only ks s (State.sendReady t i l n x) := by
  induction n generalizing x with
  | zero => exact h
  | succ n ih =>
    unfold State.sendReady
    repeat' first
      | with_reducible assumption
      | with_reducible apply ih
      | with_reducible apply State.sendXfer_only
      | with_reducible apply State.modLink_only
      | exact subset_of (by decide) hk
      | ((try lift_lets); intro y; first | (refine (fun (_ : Only ks s y) => ?_) ?_; (on_goal 1 => clear_value y); (on_goal 2 => subst y)) | clear_value y | skip)
      | split

theorem State.receiveOn_only {ks : List Part} {s x : State} (t : Table) (i : Nat) (l : Lane) (gather : Bool) (first : Nat) (p : FramePayload) (hk : [.out, .pcie, .log, .tm, .run, .harbour, .ports] ⊆ ks) (h : Only ks s x) :
    Only ks s (State.receiveOn t i l gather first p x) := by
  unfold State.receiveOn
  repeat' first
    | with_reducible assumption
    | with_reducible apply State.modLink_only
    | with_reducible apply State.convertOwn_only
    | with_reducible apply State.sendReady_only
    | exact subset_of (by decide) hk
    | ((try lift_lets); intro y; first | (refine (fun (_ : Only ks s y) => ?_) ?_; (on_goal 1 => clear_value y); (on_goal 2 => subst y)) | clear_value y | skip)
    | split

theorem State.forward_only {ks : List Part} {s x : State} (m : PartnerMsg) (hk : [.out, .pcie, .log, .tm, .ports] ⊆ ks) (h : Only ks s x) :
    Only ks s (State.forward m x) := by
  unfold State.forward
  repeat' first
    | with_reducible assumption
    | with_reducible apply State.toPartner_only
    | exact subset_of (by decide) hk
    | split

theorem State.closeBucket_only {ks : List Part} {s x : State} (t : Table) (b : Bytes) (hk : [.out, .pcie, .log, .tm, .mem, .run, .quays, .snap, .harbour, .ports] ⊆ ks) (h : Only ks s x) :
    Only ks s (State.closeBucket t b x) := by
  unfold State.closeBucket
  repeat' first
    | with_reducible assumption
    | with_reducible apply State.writeG16_only
    | with_reducible apply State.forward_only
    | with_reducible apply State.modLink_only
    | exact subset_of (by decide) hk
    | ((try lift_lets); intro y; first | (refine (fun (_ : Only ks s y) => ?_) ?_; (on_goal 1 => clear_value y); (on_goal 2 => subst y)) | clear_value y | skip)
    | split

theorem State.replicaFault_only {ks : List Part} {s x : State} (hk : [.out, .pcie, .cmds, .log, .tm, .run, .stalls, .harbour, .ports] ⊆ ks) (h : Only ks s x) :
    Only ks s (State.replicaFault x) := by
  unfold State.replicaFault
  repeat' first
    | with_reducible assumption
    | with_reducible apply State.eject_only

theorem State.closeStats_only {ks : List Part} {s x : State} (t : Table) (hk : [.out, .freeCtr, .power, .boot, .pcie, .cqs, .cmds, .log, .tm, .mem, .run, .stalls, .quays, .snap, .journal, .harbour, .ports, .test] ⊆ ks) (h : Only ks s x) :
    Only ks s (State.closeStats t x) := by
  unfold State.closeStats
  repeat' first
    | with_reducible assumption
    | with_reducible apply State.modLink_only
    | with_reducible apply State.count_only
    | with_reducible apply State.moduleFault_only
    | with_reducible apply State.raise_only
    | with_reducible apply State.replicaFault_only
    | with_reducible apply State.raiseModule_only
    | with_reducible apply State.forward_only
    | with_reducible apply modHarbour_only
    | exact subset_of (by decide) hk
    | ((try lift_lets); intro y; first | (refine (fun (_ : Only ks s y) => ?_) ?_; (on_goal 1 => clear_value y); (on_goal 2 => subst y)) | clear_value y | skip)
    | split

theorem State.finishBucket_only {ks : List Part} {s x : State} (t : Table) (hk : [.out, .freeCtr, .power, .boot, .pcie, .cqs, .cmds, .log, .tm, .mem, .run, .stalls, .quays, .snap, .journal, .harbour, .ports, .test] ⊆ ks) (h : Only ks s x) :
    Only ks s (State.finishBucket t x) := by
  unfold State.finishBucket
  repeat' first
    | with_reducible assumption
    | with_reducible apply State.closeBucket_only
    | with_reducible apply State.closeStats_only
    | exact subset_of (by decide) hk
    | split

theorem State.atBucket_only {ks : List Part} {s x : State} (b : Nat) (hk : [.harbour] ⊆ ks) (h : Only ks s x) :
    Only ks s (State.atBucket b x) := by
  unfold State.atBucket
  repeat' first
    | with_reducible assumption
    | with_reducible apply State.modLink_only

theorem State.rejectFrame_only {ks : List Part} {s x : State} (port : Nat) (f : BucketFrame) (hk : [.out, .pcie, .cmds, .log, .tm, .run, .stalls, .harbour, .ports] ⊆ ks) (h : Only ks s x) :
    Only ks s (State.rejectFrame port f x) := by
  unfold State.rejectFrame
  repeat' first
    | with_reducible assumption
    | with_reducible apply State.raise_only
    | with_reducible apply State.eject_only
    | exact subset_of (by decide) hk

theorem State.holdFrame_only {ks : List Part} {s x : State} (port : Nat) (f : BucketFrame) (hk : [.harbour] ⊆ ks) (h : Only ks s x) :
    Only ks s (State.holdFrame port f x) := by
  unfold State.holdFrame
  repeat' first
    | with_reducible assumption
    | with_reducible apply State.modLink_only

theorem State.useFrame_only {ks : List Part} {s x : State} (t : Table) (port : Nat) (f : BucketFrame) (hk : [.out, .freeCtr, .power, .boot, .pcie, .cqs, .cmds, .log, .tm, .job, .mem, .run, .stalls, .quays, .snap, .journal, .harbour, .ports, .test] ⊆ ks) (h : Only ks s x) :
    Only ks s (State.useFrame t port f x) := by
  unfold State.useFrame
  repeat' first
    | with_reducible assumption
    | with_reducible apply State.holdFrame_only
    | with_reducible apply State.receiveOn_only
    | with_reducible apply modJob_only
    | with_reducible apply State.finishBucket_only
    | exact subset_of (by decide) hk
    | split

theorem State.useHeld_only {ks : List Part} {s x : State} (t : Table) (n : Nat) (hk : [.out, .freeCtr, .power, .boot, .pcie, .cqs, .cmds, .log, .tm, .job, .mem, .run, .stalls, .quays, .snap, .journal, .harbour, .ports, .test] ⊆ ks) (h : Only ks s x) :
    Only ks s (State.useHeld t n x) := by
  induction n generalizing x with
  | zero => exact h
  | succ n ih =>
    unfold State.useHeld
    repeat' first
      | with_reducible assumption
      | with_reducible apply ih
      | with_reducible apply State.modLink_only
      | with_reducible apply State.useFrame_only
      | exact subset_of (by decide) hk
      | split

theorem State.startLanes_only {ks : List Part} {s x : State} (t : Table) (hk : [.out, .freeCtr, .power, .boot, .pcie, .cqs, .cmds, .log, .tm, .job, .mem, .run, .stalls, .quays, .snap, .journal, .harbour, .ports, .test] ⊆ ks) (h : Only ks s x) :
    Only ks s (State.startLanes t x) := by
  unfold State.startLanes
  repeat' first
    | with_reducible assumption
    | with_reducible apply State.modLink_only
    | with_reducible apply State.convertOwn_only
    | with_reducible apply State.sendReady_only
    | with_reducible apply State.finishBucket_only
    | with_reducible apply State.useHeld_only
    | (with_reducible apply foldl_only; on_goal 2 => intros)
    | exact subset_of (by decide) hk
    | ((try lift_lets); intro y; first | (refine (fun (_ : Only ks s y) => ?_) ?_; (on_goal 1 => clear_value y); (on_goal 2 => subst y)) | clear_value y | skip)
    | split

theorem State.reduceAlone_only {ks : List Part} {s x : State} (t : Table) (b : Bytes) (hk : [.out, .pcie, .log, .tm, .mem, .run, .quays, .snap, .harbour] ⊆ ks) (h : Only ks s x) :
    Only ks s (State.reduceAlone t b x) := by
  unfold State.reduceAlone
  repeat' first
    | with_reducible assumption
    | with_reducible apply State.convertCliff_only
    | with_reducible apply State.convertNar_only
    | with_reducible apply State.writeG16_only
    | with_reducible apply modRun_only
    | with_reducible apply State.modLink_only
    | (with_reducible apply foldl_only; on_goal 2 => intros)
    | exact subset_of (by decide) hk
    | ((try lift_lets); intro y; first | (refine (fun (_ : Only ks s y) => ?_) ?_; (on_goal 1 => clear_value y); (on_goal 2 => subst y)) | clear_value y | skip)
    | split

theorem State.reduceBucket_only {ks : List Part} {s x : State} (t : Table) (hk : [.out, .freeCtr, .power, .boot, .pcie, .cqs, .cmds, .log, .tm, .job, .mem, .run, .stalls, .quays, .snap, .journal, .harbour, .ports, .test] ⊆ ks) (h : Only ks s x) :
    Only ks s (State.reduceBucket t x) := by
  unfold State.reduceBucket
  repeat' first
    | with_reducible assumption
    | with_reducible apply State.guarded_only
    | with_reducible apply modJob_only
    | with_reducible apply State.reduceAlone_only
    | with_reducible apply State.modLink_only
    | with_reducible apply State.startLanes_only
    | exact subset_of (by decide) hk
    | refine fun (_ : State) (_ : Only ks s _) => ?_
    | refine fun _ (_ : State) (_ : Only ks s _) => ?_
    | ((try lift_lets); intro y; first | (refine (fun (_ : Only ks s y) => ?_) ?_; (on_goal 1 => clear_value y); (on_goal 2 => subst y)) | clear_value y | skip)
    | split

theorem State.sendResult_only {ks : List Part} {s x : State} (t : Table) (ranks : List Nat) (hk : [.out, .pcie, .log, .tm, .ports] ⊆ ks) (h : Only ks s x) :
    Only ks s (State.sendResult t ranks x) := by
  unfold State.sendResult
  repeat' first
    | with_reducible assumption
    | with_reducible apply State.sendFrame_only
    | (with_reducible apply foldl_only; on_goal 2 => intros)
    | exact subset_of (by decide) hk
    | ((try lift_lets); intro y; first | (refine (fun (_ : Only ks s y) => ?_) ?_; (on_goal 1 => clear_value y); (on_goal 2 => subst y)) | clear_value y | skip)
    | split

theorem State.openResult_only {ks : List Part} {s x : State} (t : Table) (n : Nat) (hk : [.out, .pcie, .log, .tm, .mem, .run, .quays, .snap, .harbour, .ports] ⊆ ks) (h : Only ks s x) :
    Only ks s (State.openResult t n x) := by
  induction n generalizing x with
  | zero => exact h
  | succ n ih =>
    unfold State.openResult
    repeat' first
      | with_reducible assumption
      | with_reducible apply ih
      | with_reducible apply State.modLink_only
      | with_reducible apply State.closeBucket_only
      | exact subset_of (by decide) hk
      | ((try lift_lets); intro y; first | (refine (fun (_ : Only ks s y) => ?_) ?_; (on_goal 1 => clear_value y); (on_goal 2 => subst y)) | clear_value y | skip)
      | split

theorem State.awaitResult_only {ks : List Part} {s x : State} (t : Table) (hk : [.out, .pcie, .log, .tm, .mem, .run, .quays, .snap, .harbour, .ports] ⊆ ks) (h : Only ks s x) :
    Only ks s (State.awaitResult t x) := by
  unfold State.awaitResult
  repeat' first
    | with_reducible assumption
    | with_reducible apply State.modLink_only
    | with_reducible apply State.openResult_only
    | exact subset_of (by decide) hk

theorem State.takeResult_only {ks : List Part} {s x : State} (t : Table) (port : Nat) (f : BucketFrame) (hk : [.out, .freeCtr, .power, .boot, .pcie, .cqs, .cmds, .log, .tm, .mem, .run, .stalls, .quays, .snap, .journal, .harbour, .ports, .test] ⊆ ks) (h : Only ks s x) :
    Only ks s (State.takeResult t port f x) := by
  unfold State.takeResult
  repeat' first
    | with_reducible assumption
    | with_reducible apply State.rejectFrame_only
    | with_reducible apply State.modLink_only
    | with_reducible apply State.guarded_only
    | with_reducible apply State.closeBucket_only
    | with_reducible apply State.openResult_only
    | with_reducible apply State.closeStats_only
    | exact subset_of (by decide) hk
    | refine fun (_ : State) (_ : Only ks s _) => ?_
    | refine fun _ (_ : State) (_ : Only ks s _) => ?_
    | ((try lift_lets); intro y; first | (refine (fun (_ : Only ks s y) => ?_) ?_; (on_goal 1 => clear_value y); (on_goal 2 => subst y)) | clear_value y | skip)
    | split

theorem State.useHeldResult_only {ks : List Part} {s x : State} (t : Table) (n : Nat) (hk : [.out, .freeCtr, .power, .boot, .pcie, .cqs, .cmds, .log, .tm, .mem, .run, .stalls, .quays, .snap, .journal, .harbour, .ports, .test] ⊆ ks) (h : Only ks s x) :
    Only ks s (State.useHeldResult t n x) := by
  induction n generalizing x with
  | zero => exact h
  | succ n ih =>
    unfold State.useHeldResult
    repeat' first
      | with_reducible assumption
      | with_reducible apply ih
      | with_reducible apply State.modLink_only
      | with_reducible apply State.takeResult_only
      | exact subset_of (by decide) hk
      | ((try lift_lets); intro y; first | (refine (fun (_ : Only ks s y) => ?_) ?_; (on_goal 1 => clear_value y); (on_goal 2 => subst y)) | clear_value y | skip)
      | split

theorem State.checkFrame_only {ks : List Part} {s x : State} (t : Table) (port : Nat) (f : BucketFrame) (hk : [.out, .freeCtr, .power, .boot, .pcie, .cqs, .cmds, .log, .tm, .job, .mem, .run, .stalls, .quays, .snap, .journal, .harbour, .ports, .test] ⊆ ks) (h : Only ks s x) :
    Only ks s (State.checkFrame t port f x) := by
  unfold State.checkFrame
  repeat' first
    | with_reducible assumption
    | with_reducible apply State.rejectFrame_only
    | with_reducible apply State.holdFrame_only
    | with_reducible apply State.takeResult_only
    | with_reducible apply State.useFrame_only
    | with_reducible apply State.useHeld_only
    | exact subset_of (by decide) hk
    | ((try lift_lets); intro y; first | (refine (fun (_ : Only ks s y) => ?_) ?_; (on_goal 1 => clear_value y); (on_goal 2 => subst y)) | clear_value y | skip)
    | split

theorem State.recheckHeld_only {ks : List Part} {s x : State} (t : Table) (hk : [.out, .freeCtr, .power, .boot, .pcie, .cqs, .cmds, .log, .tm, .job, .mem, .run, .stalls, .quays, .snap, .journal, .harbour, .ports, .test] ⊆ ks) (h : Only ks s x) :
    Only ks s (State.recheckHeld t x) := by
  unfold State.recheckHeld
  repeat' first
    | with_reducible assumption
    | with_reducible apply State.checkFrame_only
    | with_reducible apply State.modLink_only
    | (with_reducible apply foldl_only; on_goal 2 => intros)
    | exact subset_of (by decide) hk

theorem State.forwardFrame_only {ks : List Part} {s x : State} (f : BucketFrame) (hk : [.out, .pcie, .log, .tm, .ports] ⊆ ks) (h : Only ks s x) :
    Only ks s (State.forwardFrame f x) := by
  unfold State.forwardFrame
  repeat' first
    | with_reducible assumption
    | with_reducible apply State.sendLink_only
    | with_reducible apply State.forward_only
    | with_reducible apply State.count_only
    | exact subset_of (by decide) hk
    | split

theorem State.frameIn_only {ks : List Part} {s x : State} (t : Table) (port : Nat) (f : BucketFrame) (hk : [.out, .freeCtr, .power, .boot, .pcie, .cqs, .cmds, .log, .tm, .job, .mem, .run, .stalls, .quays, .snap, .journal, .harbour, .ports, .test] ⊆ ks) (h : Only ks s x) :
    Only ks s (State.frameIn t port f x) := by
  unfold State.frameIn
  repeat' first
    | with_reducible assumption
    | with_reducible apply State.count_only
    | with_reducible apply State.forwardFrame_only
    | with_reducible apply State.checkFrame_only
    | exact subset_of (by decide) hk
    | ((try lift_lets); intro y; first | (refine (fun (_ : Only ks s y) => ?_) ?_; (on_goal 1 => clear_value y); (on_goal 2 => subst y)) | clear_value y | skip)
    | split

/-! ## Machine/Runs.lean -/

theorem State.beginAttempt_only {ks : List Part} {s x : State} (t : Table) (hk : [.out, .freeCtr, .power, .boot, .pcie, .cqs, .cmds, .log, .tm, .job, .mem, .run, .stalls, .quays, .snap, .journal, .harbour, .ports, .test] ⊆ ks) (h : Only ks s x) :
    Only ks s (State.beginAttempt t x) := by
  unfold State.beginAttempt
  repeat' first
    | with_reducible assumption
    | with_reducible apply State.abandonAttempt_only
    | with_reducible apply modRun_only
    | with_reducible apply modHarbour_only
    | with_reducible apply modJob_only
    | with_reducible apply State.passBarriers_only
    | with_reducible apply State.enter_only
    | with_reducible apply State.recheckHeld_only
    | exact subset_of (by decide) hk
    | ((try lift_lets); intro y; first | (refine (fun (_ : Only ks s y) => ?_) ?_; (on_goal 1 => clear_value y); (on_goal 2 => subst y)) | clear_value y | skip)
    | split

theorem State.beginStep_only {ks : List Part} {s x : State} (t : Table) (hk : [.out, .freeCtr, .power, .boot, .pcie, .cqs, .cmds, .log, .tm, .job, .mem, .run, .stalls, .quays, .snap, .journal, .harbour, .ports, .test] ⊆ ks) (h : Only ks s x) :
    Only ks s (State.beginStep t x) := by
  unfold State.beginStep
  repeat' first
    | with_reducible assumption
    | with_reducible apply modJob_only
    | with_reducible apply modRun_only
    | with_reducible apply State.beginAttempt_only
    | exact subset_of (by decide) hk

theorem State.startRun_only {ks : List Part} {s x : State} (t : Table) (c : Cmd) (hk : [.out, .freeCtr, .power, .boot, .pcie, .cqs, .cmds, .log, .tm, .job, .mem, .run, .stalls, .quays, .snap, .journal, .harbour, .ports, .test] ⊆ ks) (h : Only ks s x) :
    Only ks s (State.startRun t c x) := by
  unfold State.startRun
  repeat' first
    | with_reducible assumption
    | with_reducible apply State.setCmd_only
    | with_reducible apply State.count_only
    | with_reducible apply modRun_only
    | with_reducible apply modHarbour_only
    | with_reducible apply State.beginStep_only
    | with_reducible apply State.endPromise_only
    | with_reducible apply State.capThrottleEvent_only
    | exact subset_of (by decide) hk
    | ((try lift_lets); intro y; first | (refine (fun (_ : Only ks s y) => ?_) ?_; (on_goal 1 => clear_value y); (on_goal 2 => subst y)) | clear_value y | skip)
    | split

theorem State.repeatStep_only {ks : List Part} {s x : State} (t : Table) (hk : [.out, .freeCtr, .power, .boot, .pcie, .cqs, .cmds, .log, .tm, .job, .mem, .run, .stalls, .quays, .snap, .journal, .harbour, .ports, .test] ⊆ ks) (h : Only ks s x) :
    Only ks s (State.repeatStep t x) := by
  unfold State.repeatStep
  repeat' first
    | with_reducible assumption
    | with_reducible apply modJob_only
    | with_reducible apply State.count_only
    | with_reducible apply State.raiseModule_only
    | with_reducible apply State.beginAttempt_only
    | exact subset_of (by decide) hk

theorem State.setGroup_only {ks : List Part} {s x : State} (place : Nat) (f : GroupRun → GroupRun) (hk : [.run] ⊆ ks) (h : Only ks s x) :
    Only ks s (State.setGroup place f x) := by
  unfold State.setGroup
  repeat' first
    | with_reducible assumption
    | with_reducible apply modRun_only

theorem State.startGroup_only {ks : List Part} {s x : State} (t : Table) (g : GroupRun) (tokens : Nat) (hk : [.out, .pcie, .log, .tm, .run] ⊆ ks) (h : Only ks s x) :
    Only ks s (State.startGroup t g tokens x) := by
  unfold State.startGroup
  repeat' first
    | with_reducible assumption
    | with_reducible apply State.setGroup_only
    | with_reducible apply State.raiseOnce_only
    | with_reducible apply State.count_only
    | exact subset_of (by decide) hk
    | ((try lift_lets); intro y; first | (refine (fun (_ : Only ks s y) => ?_) ?_; (on_goal 1 => clear_value y); (on_goal 2 => subst y)) | clear_value y | skip)
    | split

theorem State.groupForward_only {ks : List Part} {s x : State} (t : Table) (n : Nat) (hk : [.out, .pcie, .cmds, .log, .tm, .run] ⊆ ks) (h : Only ks s x) :
    Only ks s (State.groupForward t n x) := by
  unfold State.groupForward
  repeat' first
    | with_reducible assumption
    | with_reducible apply State.setGroup_only
    | with_reducible apply State.endWait_only
    | with_reducible apply State.startGroup_only
    | with_reducible apply State.checkBatch_only
    | exact subset_of (by decide) hk
    | ((try lift_lets); intro y; first | (refine (fun (_ : Only ks s y) => ?_) ?_; (on_goal 1 => clear_value y); (on_goal 2 => subst y)) | clear_value y | skip)
    | split

theorem State.hostRequest_only {ks : List Part} {s x : State} (t : Table) (i dir : Nat) (hk : [.out, .freeCtr, .power, .boot, .pcie, .cqs, .cmds, .log, .tm, .mem, .run, .stalls, .quays, .snap, .journal, .harbour, .ports, .test] ⊆ ks) (h : Only ks s x) :
    Only ks s (State.hostRequest t i dir x) := by
  unfold State.hostRequest
  repeat' first
    | with_reducible assumption
    | with_reducible apply State.guarded_only
    | with_reducible apply State.storeReport_only
    | with_reducible apply State.toHost_only
    | with_reducible apply modRun_only
    | with_reducible apply State.post_only
    | with_reducible apply State.count_only
    | with_reducible apply State.setTide_only
    | exact subset_of (by decide) hk
    | refine fun (_ : State) (_ : Only ks s _) => ?_
    | refine fun _ (_ : State) (_ : Only ks s _) => ?_
    | ((try lift_lets); intro y; first | (refine (fun (_ : Only ks s y) => ?_) ?_; (on_goal 1 => clear_value y); (on_goal 2 => subst y)) | clear_value y | skip)
    | split

theorem State.lateLayer_only {ks : List Part} {s x : State} (q : HostReq) (allow : Nat) (hk : [.out, .pcie, .cmds, .log, .tm] ⊆ ks) (h : Only ks s x) :
    Only ks s (State.lateLayer q allow x) := by
  unfold State.lateLayer
  repeat' first
    | with_reducible assumption
    | with_reducible apply State.count_only
    | with_reducible apply State.raise_only
    | with_reducible apply State.endPromise_only
    | exact subset_of (by decide) hk
    | ((try lift_lets); intro y; first | (refine (fun (_ : Only ks s y) => ?_) ?_; (on_goal 1 => clear_value y); (on_goal 2 => subst y)) | clear_value y | skip)
    | split

theorem State.putLayer_only {ks : List Part} {s x : State} (u : Tide) (y : Bytes) (f : Fmt) (d : Bytes) (hk : [.out, .pcie, .log, .tm, .mem, .run, .quays, .snap] ⊆ ks) (h : Only ks s x) :
    Only ks s (State.putLayer u y f d x) := by
  unfold State.putLayer
  repeat' first
    | with_reducible assumption
    | with_reducible apply State.memWrite_only
    | with_reducible apply State.putVals_only
    | with_reducible apply State.putTokenCopy_only
    | (with_reducible apply foldl_only; on_goal 2 => intros)
    | exact subset_of (by decide) hk
    | ((try lift_lets); intro y; first | (refine (fun (_ : Only ks s y) => ?_) ?_; (on_goal 1 => clear_value y); (on_goal 2 => subst y)) | clear_value y | skip)
    | split

theorem State.hostResult_only {ks : List Part} {s x : State} (t : Table) (q : HostReq) (d : Bytes) (hk : [.out, .freeCtr, .power, .boot, .pcie, .cqs, .cmds, .log, .tm, .job, .mem, .run, .stalls, .quays, .snap, .journal, .harbour, .ports, .test] ⊆ ks) (h : Only ks s x) :
    Only ks s (State.hostResult t q d x) := by
  unfold State.hostResult
  repeat' first
    | with_reducible assumption
    | with_reducible apply State.lateLayer_only
    | with_reducible apply State.guarded_only
    | with_reducible apply State.putLayer_only
    | with_reducible apply modRun_only
    | with_reducible apply State.tideDone_only
    | exact subset_of (by decide) hk
    | refine fun (_ : State) (_ : Only ks s _) => ?_
    | refine fun _ (_ : State) (_ : Only ks s _) => ?_
    | ((try lift_lets); intro y; first | (refine (fun (_ : Only ks s y) => ?_) ?_; (on_goal 1 => clear_value y); (on_goal 2 => subst y)) | clear_value y | skip)
    | split

theorem State.beginSnapshot_only {ks : List Part} {s x : State} (t : Table) (d : SnapDest) (served : List SnapReq) (hk : [.snap] ⊆ ks) (h : Only ks s x) :
    Only ks s (State.beginSnapshot t d served x) := by
  unfold State.beginSnapshot
  repeat' first
    | with_reducible assumption
    | with_reducible apply modSnap_only

theorem State.noteInterval_only {ks : List Part} {s x : State} (t : Table) (hk : [.snap] ⊆ ks) (h : Only ks s x) :
    Only ks s (State.noteInterval t x) := by
  unfold State.noteInterval
  repeat' first
    | with_reducible assumption
    | with_reducible apply modSnap_only
    | exact subset_of (by decide) hk
    | split

theorem State.beginTransfer_only {ks : List Part} {s x : State} (t : Table) (p : Nat) (hk : [.snap, .harbour] ⊆ ks) (h : Only ks s x) :
    Only ks s (State.beginTransfer t p x) := by
  unfold State.beginTransfer
  repeat' first
    | with_reducible assumption
    | with_reducible apply State.beginSnapshot_only
    | with_reducible apply modSnap_only
    | with_reducible apply modHarbour_only
    | exact subset_of (by decide) hk

theorem State.planSnapshot_only {ks : List Part} {s x : State} (t : Table) (hk : [.out, .pcie, .cqs, .cmds, .log, .tm, .snap, .harbour] ⊆ ks) (h : Only ks s x) :
    Only ks s (State.planSnapshot t x) := by
  unfold State.planSnapshot
  repeat' first
    | with_reducible assumption
    | with_reducible apply State.noteInterval_only
    | with_reducible apply State.beginTransfer_only
    | with_reducible apply State.finish_only
    | with_reducible apply modSnap_only
    | with_reducible apply State.beginSnapshot_only
    | (with_reducible apply foldl_only; on_goal 2 => intros)
    | exact subset_of (by decide) hk
    | ((try lift_lets); intro y; first | (refine (fun (_ : Only ks s y) => ?_) ?_; (on_goal 1 => clear_value y); (on_goal 2 => subst y)) | clear_value y | skip)
    | split

theorem State.formatEvents_only {ks : List Part} {s x : State} (before : Scale) (stats : List (Nat × TensorStat)) (hk : [.out, .pcie, .log, .tm] ⊆ ks) (h : Only ks s x) :
    Only ks s (State.formatEvents before stats x) := by
  unfold State.formatEvents
  repeat' first
    | with_reducible assumption
    | with_reducible apply State.raise_only
    | (with_reducible apply foldl_only; on_goal 2 => intros)
    | exact subset_of (by decide) hk
    | ((try lift_lets); intro y; first | (refine (fun (_ : Only ks s y) => ?_) ?_; (on_goal 1 => clear_value y); (on_goal 2 => subst y)) | clear_value y | skip)
    | split

theorem State.scaleEvents_only {ks : List Part} {s x : State} (before : Scale) (stats : List (Nat × TensorStat)) (hk : [.out, .pcie, .log, .tm] ⊆ ks) (h : Only ks s x) :
    Only ks s (State.scaleEvents before stats x) := by
  unfold State.scaleEvents
  repeat' first
    | with_reducible assumption
    | with_reducible apply State.raiseModule_only
    | with_reducible apply State.raise_only
    | (with_reducible apply foldl_only; on_goal 2 => intros)
    | exact subset_of (by decide) hk
    | ((try lift_lets); intro y; first | (refine (fun (_ : Only ks s y) => ?_) ?_; (on_goal 1 => clear_value y); (on_goal 2 => subst y)) | clear_value y | skip)
    | split

theorem State.decide_only {ks : List Part} {s x : State} (t : Table) (odd : Bool) (hk : [.out, .pcie, .log, .tm, .job, .mem, .run, .quays, .snap] ⊆ ks) (h : Only ks s x) :
    Only ks s (State.decide t odd x) := by
  unfold State.decide
  repeat' first
    | with_reducible assumption
    | with_reducible apply modRun_only
    | with_reducible apply State.chandle_only
    | with_reducible apply modJob_only
    | with_reducible apply State.formatEvents_only
    | with_reducible apply State.scaleEvents_only
    | exact subset_of (by decide) hk
    | ((try lift_lets); intro y; first | (refine (fun (_ : Only ks s y) => ?_) ?_; (on_goal 1 => clear_value y); (on_goal 2 => subst y)) | clear_value y | skip)
    | split

theorem State.harbourWait_only {ks : List Part} {s x : State} (hk : [.cmds] ⊆ ks) (h : Only ks s x) :
    Only ks s (State.harbourWait x) := by
  unfold State.harbourWait
  repeat' first
    | with_reducible assumption
    | with_reducible apply State.extend_only
    | (with_reducible apply foldl_only; on_goal 2 => intros)
    | exact subset_of (by decide) hk
    | split

theorem State.recorded_only {ks : List Part} {s x : State} (t : Table) (hk : [.job] ⊆ ks) (h : Only ks s x) :
    Only ks s (State.recorded x t) := by
  unfold State.recorded
  repeat' first
    | with_reducible assumption
    | with_reducible apply modJob_only

theorem State.commitStep_only {ks : List Part} {s x : State} (t : Table) (hk : [.out, .freeCtr, .power, .boot, .pcie, .cqs, .cmds, .log, .tm, .job, .mem, .run, .stalls, .quays, .snap, .journal, .harbour, .ports, .test] ⊆ ks) (h : Only ks s x) :
    Only ks s (State.commitStep t x) := by
  unfold State.commitStep
  repeat' first
    | with_reducible assumption
    | with_reducible apply State.planSnapshot_only
    | with_reducible apply State.recorded_only
    | with_reducible apply modRun_only
    | with_reducible apply State.startCommit_only
    | exact subset_of (by decide) hk

theorem State.decideStep_only {ks : List Part} {s x : State} (t : Table) (hk : [.out, .freeCtr, .power, .boot, .pcie, .cqs, .cmds, .log, .tm, .job, .mem, .run, .stalls, .quays, .snap, .journal, .harbour, .ports, .test] ⊆ ks) (h : Only ks s x) :
    Only ks s (State.decideStep t x) := by
  unfold State.decideStep
  repeat' first
    | with_reducible assumption
    | with_reducible apply State.guarded_only
    | with_reducible apply State.harbourWait_only
    | with_reducible apply State.decide_only
    | with_reducible apply State.commitStep_only
    | exact subset_of (by decide) hk
    | refine fun (_ : State) (_ : Only ks s _) => ?_
    | refine fun _ (_ : State) (_ : Only ks s _) => ?_
    | split

theorem State.slackWater_only {ks : List Part} {s x : State} (t : Table) (hk : [.out, .freeCtr, .power, .boot, .pcie, .cqs, .cmds, .log, .tm, .job, .mem, .run, .stalls, .quays, .snap, .journal, .harbour, .ports, .test] ⊆ ks) (h : Only ks s x) :
    Only ks s (State.slackWater t x) := by
  unfold State.slackWater
  repeat' first
    | with_reducible assumption
    | with_reducible apply State.enter_only
    | with_reducible apply modRun_only
    | with_reducible apply State.decideStep_only
    | exact subset_of (by decide) hk
    | split

theorem State.snapshotDone_only {ks : List Part} {s x : State} (hk : [.out, .pcie, .cqs, .cmds, .log, .tm, .snap] ⊆ ks) (h : Only ks s x) :
    Only ks s (State.snapshotDone x) := by
  unfold State.snapshotDone
  repeat' first
    | with_reducible assumption
    | with_reducible apply modSnap_only
    | with_reducible apply State.finish_only
    | (with_reducible apply foldl_only; on_goal 2 => intros)
    | exact subset_of (by decide) hk

theorem State.countTensors_only {ks : List Part} {s x : State} (t : Table) (hk : [.out, .pcie, .log, .tm] ⊆ ks) (h : Only ks s x) :
    Only ks s (State.countTensors t x) := by
  unfold State.countTensors
  repeat' first
    | with_reducible assumption
    | with_reducible apply State.count_only
    | (with_reducible apply foldl_only; on_goal 2 => intros)
    | exact subset_of (by decide) hk
    | ((try lift_lets); intro y; first | (refine (fun (_ : Only ks s y) => ?_) ?_; (on_goal 1 => clear_value y); (on_goal 2 => subst y)) | clear_value y | skip)
    | split

theorem State.countStep_only {ks : List Part} {s x : State} (hk : [.out, .pcie, .log, .tm, .run] ⊆ ks) (h : Only ks s x) :
    Only ks s (State.countStep x) := by
  unfold State.countStep
  repeat' first
    | with_reducible assumption
    | with_reducible apply State.count_only
    | with_reducible apply modRun_only
    | (with_reducible apply foldl_only; on_goal 2 => intros)
    | exact subset_of (by decide) hk
    | ((try lift_lets); intro y; first | (refine (fun (_ : Only ks s y) => ?_) ?_; (on_goal 1 => clear_value y); (on_goal 2 => subst y)) | clear_value y | skip)
    | split

theorem State.advance_only {ks : List Part} {s x : State} (digest : Nat) (hk : [.freeCtr, .tm, .job] ⊆ ks) (h : Only ks s x) :
    Only ks s (State.advance digest x) := by
  unfold State.advance
  repeat' first
    | with_reducible assumption
    | with_reducible apply State.takeFree_only
    | with_reducible apply modTm_only
    | with_reducible apply modJob_only
    | refine only_of_eq (by assumption) ?_
    | exact subset_of (by decide) hk

theorem State.markPending_only {ks : List Part} {s x : State} (t : Table) (step : Nat) (r : Bytes) (hk : [.out, .pcie, .log, .tm, .snap, .ports] ⊆ ks) (h : Only ks s x) :
    Only ks s (State.markPending t step r x) := by
  unfold State.markPending
  repeat' first
    | with_reducible assumption
    | with_reducible apply modSnap_only
    | with_reducible apply State.toPartner_only
    | with_reducible apply State.drainDone_only
    | exact subset_of (by decide) hk
    | ((try lift_lets); intro y; first | (refine (fun (_ : Only ks s y) => ?_) ?_; (on_goal 1 => clear_value y); (on_goal 2 => subst y)) | clear_value y | skip)
    | split

theorem State.runDeferred_only {ks : List Part} {s x : State} (r : TestReq) (hk : [.out, .power, .pcie, .cmds, .log, .tm, .run, .stalls, .test] ⊆ ks) (h : Only ks s x) :
    Only ks s (State.runDeferred r x) := by
  unfold State.runDeferred
  repeat' first
    | with_reducible assumption
    | with_reducible apply modTest_only
    | with_reducible apply State.lightTest_only
    | with_reducible apply State.markTested_only
    | with_reducible apply State.raise_only
    | with_reducible apply modRun_only
    | with_reducible apply State.extend_only
    | (with_reducible apply foldl_only; on_goal 2 => intros)
    | exact subset_of (by decide) hk
    | ((try lift_lets); intro y; first | (refine (fun (_ : Only ks s y) => ?_) ?_; (on_goal 1 => clear_value y); (on_goal 2 => subst y)) | clear_value y | skip)
    | split

theorem State.startDeferred_only {ks : List Part} {s x y : State} (hk : [.out, .power, .pcie, .cmds, .log, .tm, .run, .stalls, .test] ⊆ ks) (h : Only ks s x) (e : x.startDeferred = some y) : Only ks s y := by
  unfold State.startDeferred at e
  split at e
  · cases e
  · rw [← Option.some.inj e]
    apply modRun_only _ (subset_of (by decide) hk)
    split
    · exact h
    · exact State.runDeferred_only _ (subset_of (by decide) hk) h

theorem State.rest_only {ks : List Part} {s x : State} (st : Status) (halted : Bool) (hk : [.out, .boot, .pcie, .cqs, .cmds, .log, .tm, .run, .stalls, .harbour, .test] ⊆ ks) (h : Only ks s x) :
    Only ks s (State.rest st halted x) := by
  unfold State.rest
  repeat' first
    | with_reducible assumption
    | with_reducible apply State.endRun_only
    | with_reducible apply modHarbour_only
    | exact subset_of (by decide) hk

theorem State.depart_only {ks : List Part} {s x : State} (hk : [.out, .power, .boot, .pcie, .log, .tm, .stalls, .harbour, .ports] ⊆ ks) (h : Only ks s x) :
    Only ks s (State.depart x) := by
  unfold State.depart
  repeat' first
    | with_reducible assumption
    | with_reducible apply State.flood_only
    | with_reducible apply State.outOfHarbour_only
    | with_reducible apply State.enter_only
    | exact subset_of (by decide) hk

theorem State.leaveNow_only {ks : List Part} {s x : State} (r : SnapReq) (hk : [.out, .power, .boot, .pcie, .cqs, .cmds, .log, .tm, .stalls, .harbour, .ports] ⊆ ks) (h : Only ks s x) :
    Only ks s (State.leaveNow r x) := by
  unfold State.leaveNow
  repeat' first
    | with_reducible assumption
    | with_reducible apply State.depart_only
    | with_reducible apply State.finish_only
    | exact subset_of (by decide) hk

theorem State.nextRun_only {ks : List Part} {s x : State} (t : Table) (hk : [.out, .freeCtr, .power, .boot, .pcie, .cqs, .cmds, .log, .tm, .job, .mem, .run, .stalls, .quays, .snap, .journal, .harbour, .ports, .test] ⊆ ks) (h : Only ks s x) :
    Only ks s (State.nextRun t x) := by
  unfold State.nextRun
  repeat' first
    | with_reducible assumption
    | with_reducible apply State.rest_only
    | with_reducible apply State.finishRun_only
    | with_reducible apply State.startRun_only
    | exact subset_of (by decide) hk
    | ((try lift_lets); intro y; first | (refine (fun (_ : Only ks s y) => ?_) ?_; (on_goal 1 => clear_value y); (on_goal 2 => subst y)) | clear_value y | skip)
    | split

theorem State.lastWait_only {ks : List Part} {s x : State} (all : Bool) (hk : [.cmds] ⊆ ks) (h : Only ks s x) :
    Only ks s (State.lastWait all x) := by
  unfold State.lastWait
  repeat' first
    | with_reducible assumption
    | with_reducible apply State.extend_only
    | (with_reducible apply foldl_only; on_goal 2 => intros)
    | exact subset_of (by decide) hk
    | split

theorem State.closeSlack_only {ks : List Part} {s x : State} (t : Table) (hk : [.out, .freeCtr, .power, .boot, .pcie, .cqs, .cmds, .log, .tm, .job, .mem, .run, .stalls, .quays, .snap, .journal, .harbour, .ports, .test] ⊆ ks) (h : Only ks s x) :
    Only ks s (State.closeSlack t x) := by
  unfold State.closeSlack
  repeat' first
    | with_reducible assumption
    | with_reducible apply modRun_only
    | with_reducible apply State.lastWait_only
    | with_reducible apply State.endRun_only
    | with_reducible apply State.leaveNow_only
    | with_reducible apply State.depart_only
    | with_reducible apply State.rest_only
    | with_reducible apply State.nextRun_only
    | with_reducible apply State.beginStep_only
    | exact subset_of (by decide) hk
    | ((try lift_lets); intro y; first | (refine (fun (_ : Only ks s y) => ?_) ?_; (on_goal 1 => clear_value y); (on_goal 2 => subst y)) | clear_value y | skip)
    | split

theorem State.afterTests_only {ks : List Part} {s x : State} (t : Table) (hk : [.out, .freeCtr, .power, .boot, .pcie, .cqs, .cmds, .log, .tm, .job, .mem, .run, .stalls, .quays, .snap, .journal, .harbour, .ports, .test] ⊆ ks) (h : Only ks s x) :
    Only ks s (State.afterTests t x) := by
  unfold State.afterTests
  repeat' first
    | with_reducible assumption
    | with_reducible apply State.enterCensus_only
    | with_reducible apply modRun_only
    | with_reducible apply State.closeSlack_only
    | exact subset_of (by decide) hk
    | ((try lift_lets); intro y; first | (refine (fun (_ : Only ks s y) => ?_) ?_; (on_goal 1 => clear_value y); (on_goal 2 => subst y)) | clear_value y | skip)
    | split

theorem State.afterCommit_only {ks : List Part} {s x : State} (t : Table) (hk : [.out, .freeCtr, .power, .boot, .pcie, .cqs, .cmds, .log, .tm, .job, .mem, .run, .stalls, .quays, .snap, .journal, .harbour, .ports, .test] ⊆ ks) (h : Only ks s x) :
    Only ks s (State.afterCommit t x) := by
  unfold State.afterCommit
  split
  · exact State.startDeferred_only (subset_of (by decide) hk) h ‹_›
  · exact State.afterTests_only t (subset_of (by decide) hk) h

theorem State.forwardRecord_only {ks : List Part} {s x : State} (r : Bytes) (hk : [.out, .pcie, .log, .tm, .ports] ⊆ ks) (h : Only ks s x) :
    Only ks s (State.forwardRecord r x) := by
  unfold State.forwardRecord
  repeat' first
    | with_reducible assumption
    | with_reducible apply State.toPartner_only
    | exact subset_of (by decide) hk
    | split

theorem State.finishCommit_only {ks : List Part} {s x : State} (t : Table) (c : Commit) (hk : [.out, .freeCtr, .power, .boot, .pcie, .cqs, .cmds, .log, .tm, .job, .mem, .run, .stalls, .quays, .snap, .journal, .harbour, .ports, .test] ⊆ ks) (h : Only ks s x) :
    Only ks s (State.finishCommit t c x) := by
  unfold State.finishCommit
  repeat' first
    | with_reducible assumption
    | with_reducible apply modJournal_only
    | with_reducible apply State.snapshotDone_only
    | with_reducible apply State.countTensors_only
    | with_reducible apply State.countStep_only
    | with_reducible apply State.advance_only
    | with_reducible apply State.markPending_only
    | with_reducible apply modRun_only
    | with_reducible apply State.setEntry_only
    | with_reducible apply State.forwardRecord_only
    | with_reducible apply modHarbour_only
    | with_reducible apply State.afterCommit_only
    | exact subset_of (by decide) hk
    | ((try lift_lets); intro y; first | (refine (fun (_ : Only ks s y) => ?_) ?_; (on_goal 1 => clear_value y); (on_goal 2 => subst y)) | clear_value y | skip)
    | split

theorem State.tryCommit_only {ks : List Part} {s x : State} (hk : [.out, .freeCtr, .power, .boot, .pcie, .cqs, .cmds, .log, .tm, .job, .mem, .run, .stalls, .quays, .snap, .journal, .harbour, .ports, .test] ⊆ ks) (h : Only ks s x) :
    Only ks s (State.tryCommit x) := by
  unfold State.tryCommit
  repeat' first
    | with_reducible assumption
    | with_reducible apply State.finishCommit_only
    | with_reducible apply modJournal_only
    | exact subset_of (by decide) hk
    | split

/-! ## Machine/Census.lean -/

theorem State.closeHarbourCmds_only {ks : List Part} {s x : State} (st : Status) (hk : [.out, .pcie, .cqs, .cmds, .log, .tm, .harbour] ⊆ ks) (h : Only ks s x) :
    Only ks s (State.closeHarbourCmds st x) := by
  unfold State.closeHarbourCmds
  repeat' first
    | with_reducible assumption
    | with_reducible apply modHarbour_only
    | with_reducible apply State.finish_only
    | exact subset_of (by decide) hk
    | ((try lift_lets); intro y; first | (refine (fun (_ : Only ks s y) => ?_) ?_; (on_goal 1 => clear_value y); (on_goal 2 => subst y)) | clear_value y | skip)
    | split

theorem State.stopHarbour_only {ks : List Part} {s x : State} (hk : [.out, .power, .boot, .pcie, .cqs, .cmds, .log, .tm, .run, .stalls, .journal, .harbour, .ports, .test] ⊆ ks) (h : Only ks s x) :
    Only ks s (State.stopHarbour x) := by
  unfold State.stopHarbour
  repeat' first
    | with_reducible assumption
    | with_reducible apply State.closeHarbourCmds_only
    | with_reducible apply State.abandonAttempt_only
    | with_reducible apply State.dropCommit_only
    | with_reducible apply State.endRun_only
    | with_reducible apply State.outOfHarbour_only
    | exact subset_of (by decide) hk
    | ((try lift_lets); intro y; first | (refine (fun (_ : Only ks s y) => ?_) ?_; (on_goal 1 => clear_value y); (on_goal 2 => subst y)) | clear_value y | skip)
    | split

theorem State.quarantined_only {ks : List Part} {s x : State} (hk : [.out, .power, .boot, .pcie, .cqs, .cmds, .log, .tm, .run, .stalls, .journal, .harbour, .ports, .test] ⊆ ks) (h : Only ks s x) :
    Only ks s (State.quarantined x) := by
  unfold State.quarantined
  repeat' first
    | with_reducible assumption
    | with_reducible apply State.abandonAttempt_only
    | with_reducible apply State.dropCommit_only
    | with_reducible apply State.endRun_only
    | with_reducible apply State.darkPorts_only
    | with_reducible apply modHarbour_only
    | with_reducible apply State.leaveNow_only
    | exact subset_of (by decide) hk
    | ((try lift_lets); intro y; first | (refine (fun (_ : Only ks s y) => ?_) ?_; (on_goal 1 => clear_value y); (on_goal 2 => subst y)) | clear_value y | skip)
    | split

theorem State.endJoin_only {ks : List Part} {s x : State} (st : Status) (hk : [.out, .power, .pcie, .cqs, .cmds, .log, .tm, .stalls, .harbour, .ports] ⊆ ks) (h : Only ks s x) :
    Only ks s (State.endJoin st x) := by
  unfold State.endJoin
  repeat' first
    | with_reducible assumption
    | with_reducible apply State.outOfHarbour_only
    | with_reducible apply State.finish_only
    | exact subset_of (by decide) hk
    | split

theorem State.takeNumber_only {ks : List Part} {s x : State} (n : Nat) (hk : [.out, .pcie, .log, .tm, .harbour, .ports] ⊆ ks) (h : Only ks s x) :
    Only ks s (State.takeNumber n x) := by
  unfold State.takeNumber
  repeat' first
    | with_reducible assumption
    | with_reducible apply modHarbour_only
    | with_reducible apply State.sendView_only
    | with_reducible apply State.enterCensus_only
    | exact subset_of (by decide) hk
    | ((try lift_lets); intro y; first | (refine (fun (_ : Only ks s y) => ?_) ?_; (on_goal 1 => clear_value y); (on_goal 2 => subst y)) | clear_value y | skip)
    | split

theorem State.passPart_only {ks : List Part} {s x : State} (port : Nat) (p : CensusPart) (hk : [.out, .pcie, .log, .tm, .ports] ⊆ ks) (h : Only ks s x) :
    Only ks s (State.passPart port p x) := by
  unfold State.passPart
  repeat' first
    | with_reducible assumption
    | with_reducible apply State.sendLink_only
    | (with_reducible apply foldl_only; on_goal 2 => intros)

theorem State.addPart_only {ks : List Part} {s x : State} (port : Nat) (p : CensusPart) (hk : [.out, .pcie, .log, .tm, .harbour, .ports] ⊆ ks) (h : Only ks s x) :
    Only ks s (State.addPart port p x) := by
  unfold State.addPart
  repeat' first
    | with_reducible assumption
    | with_reducible apply modHarbour_only
    | with_reducible apply State.passPart_only
    | with_reducible apply State.sendView_only
    | exact subset_of (by decide) hk
    | ((try lift_lets); intro y; first | (refine (fun (_ : Only ks s y) => ?_) ?_; (on_goal 1 => clear_value y); (on_goal 2 => subst y)) | clear_value y | skip)
    | split

theorem State.resume.withStep_only {ks : List Part} {s x : State} (n : Nat) (f : State → State) (h_f : ∀ y, Only ks s y → Only ks s (f y))
    (hk : [.job] ⊆ ks) (h : Only ks s x) : Only ks s (State.resume.withStep n f x) := by
  unfold State.resume.withStep
  exact modJob_only _ hk (h_f _ (modJob_only _ hk h))

theorem State.resume_only {ks : List Part} {s x : State} (t : Table) (surv : List Nat) (hk : [.out, .freeCtr, .power, .boot, .pcie, .cqs, .cmds, .log, .tm, .job, .mem, .run, .stalls, .quays, .snap, .journal, .harbour, .ports, .test] ⊆ ks) (h : Only ks s x) :
    Only ks s (State.resume t surv x) := by
  unfold State.resume
  repeat' first
    | with_reducible assumption
    | (with_reducible apply State.resume.withStep_only; intros)
    | with_reducible apply State.sendResult_only
    | with_reducible apply State.repeatStep_only
    | with_reducible apply State.abandonAttempt_only
    | with_reducible apply State.awaitResult_only
    | with_reducible apply State.useHeldResult_only
    | exact subset_of (by decide) hk
    | ((try lift_lets); intro y; first | (refine (fun (_ : Only ks s y) => ?_) ?_; (on_goal 1 => clear_value y); (on_goal 2 => subst y)) | clear_value y | skip)
    | split

theorem State.slackCensusDone_only {ks : List Part} {s x : State} (t : Table) (hk : [.out, .freeCtr, .power, .boot, .pcie, .cqs, .cmds, .log, .tm, .job, .mem, .run, .stalls, .quays, .snap, .journal, .harbour, .ports, .test] ⊆ ks) (h : Only ks s x) :
    Only ks s (State.slackCensusDone t x) := by
  unfold State.slackCensusDone
  repeat' first
    | with_reducible assumption
    | with_reducible apply State.extend_only
    | with_reducible apply State.closeSlack_only
    | (with_reducible apply foldl_only; on_goal 2 => intros)
    | exact subset_of (by decide) hk
    | ((try lift_lets); intro y; first | (refine (fun (_ : Only ks s y) => ?_) ?_; (on_goal 1 => clear_value y); (on_goal 2 => subst y)) | clear_value y | skip)
    | split

theorem State.reportLost_only {ks : List Part} {s x : State} (prev surv : List Nat) (hk : [.out, .pcie, .log, .tm] ⊆ ks) (h : Only ks s x) :
    Only ks s (State.reportLost prev surv x) := by
  unfold State.reportLost
  repeat' first
    | with_reducible assumption
    | with_reducible apply State.raise_only
    | (with_reducible apply foldl_only; on_goal 2 => intros)

theorem State.noteMismatch_only {ks : List Part} {s x : State} (ejected : Bool) (hk : [.harbour] ⊆ ks) (h : Only ks s x) :
    Only ks s (State.noteMismatch ejected x) := by
  unfold State.noteMismatch
  repeat' first
    | with_reducible assumption
    | with_reducible apply modHarbour_only

theorem State.unsuspend_only {ks : List Part} {s x : State} (hk : [.journal] ⊆ ks) (h : Only ks s x) :
    Only ks s (State.unsuspend x) := by
  unfold State.unsuspend
  repeat' first
    | with_reducible assumption
    | with_reducible apply modJournal_only
    | exact subset_of (by decide) hk
    | split

theorem State.judge_only {ks : List Part} {s : State} (present : List Nat) (e : EjectRec) (acc : List (Nat × Nat) × State) (hk : [.freeCtr] ⊆ ks) (h : Only ks s acc.2) :
    Only ks s (State.judge present e acc).2 := by
  unfold State.judge
  repeat' first
    | with_reducible assumption
    | with_reducible apply State.takeFree_only
    | refine only_of_eq (by assumption) ?_
    | exact subset_of (by decide) hk
    | ((try lift_lets); intro y; first | (refine (fun (_ : Only ks s y) => ?_) ?_; (on_goal 1 => clear_value y); (on_goal 2 => subst y)) | (refine (fun (_ : Only ks s y.2) => ?_) ?_; (on_goal 1 => clear_value y); (on_goal 2 => subst y)) | clear_value y | skip)
    | split

theorem State.ejections_only {ks : List Part} {s x : State} (present : List Nat) (hk : [.freeCtr] ⊆ ks) (h : Only ks s x) :
    Only ks s (State.ejections present x).2 := by
  unfold State.ejections
  repeat' first
    | with_reducible assumption
    | with_reducible apply State.judge_only
    | (with_reducible apply foldl_only; on_goal 2 => intros)
    | (with_reducible apply foldl_only_snd; on_goal 2 => intros)

theorem State.closeCensus_only {ks : List Part} {s x : State} (t : Table) (hk : [.out, .freeCtr, .power, .boot, .pcie, .cqs, .cmds, .log, .tm, .job, .mem, .run, .stalls, .quays, .snap, .journal, .harbour, .ports, .test] ⊆ ks) (h : Only ks s x) :
    Only ks s (State.closeCensus t x) := by
  unfold State.closeCensus
  repeat' first
    | with_reducible assumption
    | with_reducible apply State.ejections_only
    | with_reducible apply modHarbour_only
    | with_reducible apply State.quarantined_only
    | with_reducible apply State.reportLost_only
    | with_reducible apply State.stopHarbour_only
    | with_reducible apply State.noteFault_only
    | with_reducible apply State.noteMismatch_only
    | with_reducible apply State.endPromise_only
    | with_reducible apply State.unsuspend_only
    | with_reducible apply State.resume_only
    | with_reducible apply State.slackCensusDone_only
    | (with_reducible apply foldl_only; on_goal 2 => intros)
    | refine only_of_eq (by assumption) ?_
    | exact subset_of (by decide) hk
    | ((try lift_lets); intro y; first | (refine (fun (_ : Only ks s y) => ?_) ?_; (on_goal 1 => clear_value y); (on_goal 2 => subst y)) | (refine (fun (_ : Only ks s y.2) => ?_) ?_; (on_goal 1 => clear_value y); (on_goal 2 => subst y)) | clear_value y | skip)
    | split

theorem State.formHarbour_only {ks : List Part} {s x : State} (j : Joining) (hk : [.out, .pcie, .cqs, .cmds, .log, .tm, .journal, .harbour] ⊆ ks) (h : Only ks s x) :
    Only ks s (State.formHarbour j x) := by
  unfold State.formHarbour
  repeat' first
    | with_reducible assumption
    | with_reducible apply modHarbour_only
    | with_reducible apply State.unsuspend_only
    | with_reducible apply State.finish_only
    | exact subset_of (by decide) hk
    | ((try lift_lets); intro y; first | (refine (fun (_ : Only ks s y) => ?_) ?_; (on_goal 1 => clear_value y); (on_goal 2 => subst y)) | clear_value y | skip)
    | split

theorem State.joinRefused_only {ks : List Part} {s x : State} (hk : [.out, .power, .pcie, .cqs, .cmds, .log, .tm, .stalls, .harbour, .ports] ⊆ ks) (h : Only ks s x) :
    Only ks s (State.joinRefused x) := by
  unfold State.joinRefused
  repeat' first
    | with_reducible assumption
    | with_reducible apply State.raiseModule_only
    | with_reducible apply State.endJoin_only
    | exact subset_of (by decide) hk

theorem State.tryClose_only {ks : List Part} {s x : State} (hk : [.out, .freeCtr, .power, .boot, .pcie, .cqs, .cmds, .log, .tm, .job, .mem, .run, .stalls, .quays, .snap, .journal, .harbour, .ports, .test] ⊆ ks) (h : Only ks s x) :
    Only ks s (State.tryClose x) := by
  unfold State.tryClose
  repeat' first
    | with_reducible assumption
    | with_reducible apply State.joinRefused_only
    | with_reducible apply State.formHarbour_only
    | with_reducible apply State.closeCensus_only
    | exact subset_of (by decide) hk
    | split

theorem State.censusIn_only {ks : List Part} {s x : State} (port : Nat) (p : CensusPart) (hk : [.out, .freeCtr, .power, .boot, .pcie, .cqs, .cmds, .log, .tm, .job, .mem, .run, .stalls, .quays, .snap, .journal, .harbour, .ports, .test] ⊆ ks) (h : Only ks s x) :
    Only ks s (State.censusIn port p x) := by
  unfold State.censusIn
  repeat' first
    | with_reducible assumption
    | with_reducible apply State.takeNumber_only
    | with_reducible apply State.addPart_only
    | with_reducible apply State.tryClose_only
    | exact subset_of (by decide) hk
    | ((try lift_lets); intro y; first | (refine (fun (_ : Only ks s y) => ?_) ?_; (on_goal 1 => clear_value y); (on_goal 2 => subst y)) | clear_value y | skip)
    | split

theorem State.viewTimeout_only {ks : List Part} {s x : State} (r : Nat) (hk : [.out, .freeCtr, .power, .boot, .pcie, .cqs, .cmds, .log, .tm, .job, .mem, .run, .stalls, .quays, .snap, .journal, .harbour, .ports, .test] ⊆ ks) (h : Only ks s x) :
    Only ks s (State.viewTimeout r x) := by
  unfold State.viewTimeout
  repeat' first
    | with_reducible assumption
    | with_reducible apply State.markLost_only
    | with_reducible apply State.tryClose_only
    | exact subset_of (by decide) hk
    | split

theorem State.faultIn_only {ks : List Part} {s x : State} (r : FaultRec) (hk : [.out, .freeCtr, .power, .boot, .pcie, .cqs, .cmds, .log, .tm, .job, .mem, .run, .stalls, .quays, .snap, .journal, .harbour, .ports, .test] ⊆ ks) (h : Only ks s x) :
    Only ks s (State.faultIn r x) := by
  unfold State.faultIn
  repeat' first
    | with_reducible assumption
    | with_reducible apply State.lostMember_only
    | with_reducible apply State.tryClose_only
    | exact subset_of (by decide) hk
    | ((try lift_lets); intro y; first | (refine (fun (_ : Only ks s y) => ?_) ?_; (on_goal 1 => clear_value y); (on_goal 2 => subst y)) | clear_value y | skip)
    | split

theorem State.leaveIn_only {ks : List Part} {s x : State} (r : Nat) (hk : [.out, .freeCtr, .power, .boot, .pcie, .cqs, .cmds, .log, .tm, .job, .mem, .run, .stalls, .quays, .snap, .journal, .harbour, .ports, .test] ⊆ ks) (h : Only ks s x) :
    Only ks s (State.leaveIn r x) := by
  unfold State.leaveIn
  repeat' first
    | with_reducible assumption
    | with_reducible apply State.flood_only
    | with_reducible apply State.deferLeaver_only
    | with_reducible apply State.lostMember_only
    | with_reducible apply State.tryClose_only
    | exact subset_of (by decide) hk
    | ((try lift_lets); intro y; first | (refine (fun (_ : Only ks s y) => ?_) ?_; (on_goal 1 => clear_value y); (on_goal 2 => subst y)) | clear_value y | skip)
    | split

theorem State.ejectIn_only {ks : List Part} {s x : State} (e : EjectRec) (hk : [.out, .freeCtr, .power, .boot, .pcie, .cqs, .cmds, .log, .tm, .job, .mem, .run, .stalls, .quays, .snap, .journal, .harbour, .ports, .test] ⊆ ks) (h : Only ks s x) :
    Only ks s (State.ejectIn e x) := by
  unfold State.ejectIn
  repeat' first
    | with_reducible assumption
    | with_reducible apply State.eject_only
    | with_reducible apply State.tryClose_only
    | exact subset_of (by decide) hk

end Sys2Proof.Machine
end

