-- ==== Sys2Proof/Laws/OnlySurvival.lean ====
section
/-! SUPPORT. Which parts of the state the operations of Machine/Survival, Joining, TestOps, Lifecycle can change: one law for each operation. -/

namespace Sys2Proof.Machine

/-! ## Machine/Survival.lean -/

theorem State.zeroClass_only {ks : List Part} {s x : State} (k : Nat) (hk : [.mem] ⊆ ks) (h : Only ks s x) :
    Only ks s (State.zeroClass k x) := by
  unfold State.zeroClass
  repeat' first
    | with_reducible assumption
    | with_reducible apply modMem_only
    | (with_reducible apply foldl_only; on_goal 2 => intros)
    | exact subset_of (by decide) hk
    | split

theorem State.putFragment_only {ks : List Part} {s x : State} (q page : Nat) (d : Bytes) (hk : [.mem] ⊆ ks) (h : Only ks s x) :
    Only ks s (State.putFragment q page d x) := by
  unfold State.putFragment
  repeat' first
    | with_reducible assumption
    | with_reducible apply modMem_only
    | with_reducible apply State.write_only
    | (with_reducible apply foldl_only; on_goal 2 => intros)

theorem State.skewEvent_only {ks : List Part} {s x : State} (n : Nat) (hk : [.out, .pcie, .log, .tm] ⊆ ks) (h : Only ks s x) :
    Only ks s (State.skewEvent n x) := by
  unfold State.skewEvent
  repeat' first
    | with_reducible assumption
    | with_reducible apply State.raiseModule_only
    | (with_reducible apply foldl_only; on_goal 2 => intros)
    | exact subset_of (by decide) hk
    | ((try lift_lets); intro y; first | (refine (fun (_ : Only ks s y) => ?_) ?_; (on_goal 1 => clear_value y); (on_goal 2 => subst y)) | clear_value y | skip)
    | split

theorem State.takeScale_only {ks : List Part} {s x : State} (t : Table) (r : Bytes) (hk : [.out, .pcie, .log, .tm, .job] ⊆ ks) (h : Only ks s x) :
    Only ks s (State.takeScale t r x) := by
  unfold State.takeScale
  repeat' first
    | with_reducible assumption
    | with_reducible apply modJob_only
    | with_reducible apply State.raiseModule_only
    | exact subset_of (by decide) hk
    | ((try lift_lets); intro y; first | (refine (fun (_ : Only ks s y) => ?_) ?_; (on_goal 1 => clear_value y); (on_goal 2 => subst y)) | clear_value y | skip)
    | split

theorem State.takeRestored_only {ks : List Part} {s x : State} (t : Table) (n digest : Nat) (r : Bytes) (hk : [.out, .pcie, .log, .tm, .job, .mem, .run, .quays, .snap] ⊆ ks) (h : Only ks s x) :
    Only ks s (State.takeRestored t n digest r x) := by
  unfold State.takeRestored
  repeat' first
    | with_reducible assumption
    | with_reducible apply State.rebuildCodes_only
    | with_reducible apply State.takeScale_only
    | with_reducible apply modJob_only
    | with_reducible apply State.skewEvent_only
    | exact subset_of (by decide) hk

theorem State.restoreRecord_only {ks : List Part} {s x : State} (t : Table) (source n : Nat) (sup : Nat × Nat) (hk : [.out, .freeCtr, .power, .boot, .pcie, .cqs, .cmds, .log, .tm, .mem, .run, .stalls, .quays, .snap, .journal, .harbour, .ports, .test] ⊆ ks) (h : Only ks s x) :
    Only ks s (State.restoreRecord t source n sup x) := by
  unfold State.restoreRecord
  repeat' first
    | with_reducible assumption
    | with_reducible apply State.writeNow_only

theorem State.restoreMismatch_only {ks : List Part} {s x : State} (digest own expected : Nat) (hk : [.out, .pcie, .log, .tm, .mem] ⊆ ks) (h : Only ks s x) :
    Only ks s (State.restoreMismatch digest own expected x) := by
  unfold State.restoreMismatch
  repeat' first
    | with_reducible assumption
    | with_reducible apply State.raiseModule_only
    | with_reducible apply State.zeroClass_only
    | exact subset_of (by decide) hk

theorem State.finishImage_only {ks : List Part} {s x : State} (t : Table) (sq cid source : Nat) (b : Bytes) (hk : [.out, .freeCtr, .power, .boot, .pcie, .cqs, .cmds, .log, .tm, .job, .mem, .run, .stalls, .quays, .snap, .journal, .harbour, .ports, .test] ⊆ ks) (h : Only ks s x) :
    Only ks s (State.finishImage t sq cid source b x) := by
  unfold State.finishImage
  repeat' first
    | with_reducible assumption
    | with_reducible apply State.finish_only
    | with_reducible apply State.zeroClass_only
    | with_reducible apply modJob_only
    | with_reducible apply State.putFragment_only
    | with_reducible apply State.restoreMismatch_only
    | with_reducible apply State.takeRestored_only
    | with_reducible apply State.restoreRecord_only
    | (with_reducible apply foldl_only; on_goal 2 => intros)
    | exact subset_of (by decide) hk
    | ((try lift_lets); intro y; first | (refine (fun (_ : Only ks s y) => ?_) ?_; (on_goal 1 => clear_value y); (on_goal 2 => subst y)) | clear_value y | skip)
    | split

theorem State.failRestore_only {ks : List Part} {s x : State} (r : RestoreRun) (st : Status) (hk : [.out, .power, .pcie, .cqs, .cmds, .log, .tm, .stalls, .harbour, .ports] ⊆ ks) (h : Only ks s x) :
    Only ks s (State.failRestore r st x) := by
  unfold State.failRestore
  repeat' first
    | with_reducible assumption
    | with_reducible apply State.darkPort_only
    | with_reducible apply modHarbour_only
    | with_reducible apply State.finish_only
    | exact subset_of (by decide) hk

theorem State.endShadow_only {ks : List Part} {s x : State} (hk : [.out, .power, .pcie, .log, .tm, .stalls, .harbour, .ports] ⊆ ks) (h : Only ks s x) :
    Only ks s (State.endShadow x) := by
  unfold State.endShadow
  repeat' first
    | with_reducible assumption
    | with_reducible apply State.darkPort_only
    | with_reducible apply modHarbour_only
    | exact subset_of (by decide) hk
    | split

theorem State.beginRestore_only {ks : List Part} {s x : State} (sq cid source port donor : Nat) (hk : [.out, .power, .pcie, .log, .tm, .job, .mem, .stalls, .harbour, .ports] ⊆ ks) (h : Only ks s x) :
    Only ks s (State.beginRestore sq cid source port donor x) := by
  unfold State.beginRestore
  repeat' first
    | with_reducible assumption
    | with_reducible apply State.endShadow_only
    | with_reducible apply State.zeroClass_only
    | with_reducible apply modJob_only
    | with_reducible apply State.lightPort_only
    | with_reducible apply modHarbour_only
    | exact subset_of (by decide) hk
    | ((try lift_lets); intro y; first | (refine (fun (_ : Only ks s y) => ?_) ?_; (on_goal 1 => clear_value y); (on_goal 2 => subst y)) | clear_value y | skip)
    | split

theorem State.restoreHelloIn_only {ks : List Part} {s z : State} (r : RestoreRun) (port : Nat) (x : Hello) (hk : [.out, .power, .pcie, .cqs, .cmds, .log, .tm, .stalls, .harbour, .ports] ⊆ ks) (h : Only ks s z) :
    Only ks s (State.restoreHelloIn r port x z) := by
  unfold State.restoreHelloIn
  repeat' first
    | with_reducible assumption
    | with_reducible apply State.raise_only
    | with_reducible apply State.failRestore_only
    | with_reducible apply modHarbour_only
    | with_reducible apply State.toPartner_only
    | exact subset_of (by decide) hk
    | ((try lift_lets); intro y; first | (refine (fun (_ : Only ks s y) => ?_) ?_; (on_goal 1 => clear_value y); (on_goal 2 => subst y)) | clear_value y | skip)
    | split

theorem State.donorHello_only {ks : List Part} {s z : State} (port : Nat) (x : Hello) (hk : [.out, .freeCtr, .pcie, .log, .tm, .harbour, .ports] ⊆ ks) (h : Only ks s z) :
    Only ks s (State.donorHello port x z) := by
  unfold State.donorHello
  repeat' first
    | with_reducible assumption
    | with_reducible apply State.sendLink_only
    | with_reducible apply State.takeFree_only
    | with_reducible apply State.toPartner_only
    | with_reducible apply modHarbour_only
    | refine only_of_eq (by assumption) ?_
    | exact subset_of (by decide) hk
    | ((try lift_lets); intro y; first | (refine (fun (_ : Only ks s y) => ?_) ?_; (on_goal 1 => clear_value y); (on_goal 2 => subst y)) | (refine (fun (_ : Only ks s y.2) => ?_) ?_; (on_goal 1 => clear_value y); (on_goal 2 => subst y)) | clear_value y | skip)
    | split

theorem State.shadowMismatch_only {ks : List Part} {s x : State} (digest own expected : Nat) (hk : [.out, .power, .pcie, .cqs, .cmds, .log, .tm, .mem, .stalls, .harbour, .ports] ⊆ ks) (h : Only ks s x) :
    Only ks s (State.shadowMismatch digest own expected x) := by
  unfold State.shadowMismatch
  repeat' first
    | with_reducible assumption
    | with_reducible apply State.restoreMismatch_only
    | with_reducible apply State.failRestore_only
    | with_reducible apply State.raiseModule_only
    | with_reducible apply State.endShadow_only
    | exact subset_of (by decide) hk
    | split

theorem State.modShadow_only {ks : List Part} {s x : State} (f : RestoreRun → RestoreRun) (hk : [.harbour] ⊆ ks) (h : Only ks s x) :
    Only ks s (State.modShadow f x) := by
  unfold State.modShadow
  repeat' first
    | with_reducible assumption
    | with_reducible apply modHarbour_only

theorem State.setComplete_only {ks : List Part} {s x : State} (t : Table) (r : RestoreRun) (hk : [.out, .power, .pcie, .cqs, .cmds, .log, .tm, .job, .mem, .run, .stalls, .quays, .snap, .harbour, .ports] ⊆ ks) (h : Only ks s x) :
    Only ks s (State.setComplete t r x) := by
  unfold State.setComplete
  repeat' first
    | with_reducible assumption
    | with_reducible apply State.shadowMismatch_only
    | with_reducible apply State.takeRestored_only
    | with_reducible apply State.modShadow_only
    | exact subset_of (by decide) hk
    | ((try lift_lets); intro y; first | (refine (fun (_ : Only ks s y) => ?_) ?_; (on_goal 1 => clear_value y); (on_goal 2 => subst y)) | clear_value y | skip)
    | split

theorem State.trySet_only {ks : List Part} {s x : State} (t : Table) (hk : [.out, .power, .pcie, .cqs, .cmds, .log, .tm, .job, .mem, .run, .stalls, .quays, .snap, .harbour, .ports] ⊆ ks) (h : Only ks s x) :
    Only ks s (State.trySet t x) := by
  unfold State.trySet
  repeat' first
    | with_reducible assumption
    | with_reducible apply State.setComplete_only
    | exact subset_of (by decide) hk
    | split

theorem State.shadowCommit_only {ks : List Part} {s x : State} (t : Table) (hk : [.out, .freeCtr, .power, .boot, .pcie, .cqs, .cmds, .log, .tm, .job, .mem, .run, .stalls, .quays, .snap, .journal, .harbour, .ports, .test] ⊆ ks) (h : Only ks s x) :
    Only ks s (State.shadowCommit t x) := by
  unfold State.shadowCommit
  repeat' first
    | with_reducible assumption
    | with_reducible apply State.moduleFault_only
    | with_reducible apply State.writeRecord_only
    | with_reducible apply State.countTensors_only
    | with_reducible apply State.countStep_only
    | with_reducible apply State.advance_only
    | with_reducible apply modRun_only
    | with_reducible apply modHarbour_only
    | exact subset_of (by decide) hk
    | ((try lift_lets); intro y; first | (refine (fun (_ : Only ks s y) => ?_) ?_; (on_goal 1 => clear_value y); (on_goal 2 => subst y)) | clear_value y | skip)
    | split

theorem State.shadowStep_only {ks : List Part} {s x : State} (t : Table) (es : List StatEntry) (hk : [.out, .freeCtr, .power, .boot, .pcie, .cqs, .cmds, .log, .tm, .job, .mem, .run, .stalls, .quays, .snap, .journal, .harbour, .ports, .test] ⊆ ks) (h : Only ks s x) :
    Only ks s (State.shadowStep t es x) := by
  unfold State.shadowStep
  repeat' first
    | with_reducible assumption
    | with_reducible apply modRun_only
    | with_reducible apply modHarbour_only
    | with_reducible apply modJob_only
    | with_reducible apply State.guarded_only
    | with_reducible apply State.decide_only
    | with_reducible apply State.shadowCommit_only
    | exact subset_of (by decide) hk
    | refine fun (_ : State) (_ : Only ks s _) => ?_

theorem State.shadowSteps_only {ks : List Part} {s x : State} (t : Table) (n : Nat) (hk : [.out, .freeCtr, .power, .boot, .pcie, .cqs, .cmds, .log, .tm, .job, .mem, .run, .stalls, .quays, .snap, .journal, .harbour, .ports, .test] ⊆ ks) (h : Only ks s x) :
    Only ks s (State.shadowSteps t n x) := by
  induction n generalizing x with
  | zero => exact h
  | succ n ih =>
    unfold State.shadowSteps
    repeat' first
      | with_reducible assumption
      | with_reducible apply ih
      | with_reducible apply State.modShadow_only
      | with_reducible apply State.shadowStep_only
      | exact subset_of (by decide) hk
      | split

theorem State.donorRecordIn_only {ks : List Part} {s x : State} (t : Table) (b : Bytes) (hk : [.out, .freeCtr, .power, .boot, .pcie, .cqs, .cmds, .log, .tm, .job, .mem, .run, .stalls, .quays, .snap, .journal, .harbour, .ports, .test] ⊆ ks) (h : Only ks s x) :
    Only ks s (State.donorRecordIn t b x) := by
  unfold State.donorRecordIn
  repeat' first
    | with_reducible assumption
    | with_reducible apply State.modShadow_only
    | with_reducible apply State.trySet_only
    | with_reducible apply State.shadowSteps_only
    | with_reducible apply State.shadowMismatch_only
    | with_reducible apply State.restoreRecord_only
    | with_reducible apply modHarbour_only
    | with_reducible apply State.finish_only
    | exact subset_of (by decide) hk
    | ((try lift_lets); intro y; first | (refine (fun (_ : Only ks s y) => ?_) ?_; (on_goal 1 => clear_value y); (on_goal 2 => subst y)) | clear_value y | skip)
    | split

theorem State.fragmentIn_only {ks : List Part} {s x : State} (t : Table) (page q dig : Nat) (d : Bytes) (hk : [.out, .freeCtr, .power, .boot, .pcie, .cqs, .cmds, .log, .tm, .job, .mem, .run, .stalls, .quays, .snap, .journal, .harbour, .ports, .test] ⊆ ks) (h : Only ks s x) :
    Only ks s (State.fragmentIn t page q dig d x) := by
  unfold State.fragmentIn
  repeat' first
    | with_reducible assumption
    | with_reducible apply State.putFragment_only
    | with_reducible apply State.shadowMismatch_only
    | with_reducible apply State.modShadow_only
    | with_reducible apply State.trySet_only
    | with_reducible apply State.shadowSteps_only
    | exact subset_of (by decide) hk
    | ((try lift_lets); intro y; first | (refine (fun (_ : Only ks s y) => ?_) ?_; (on_goal 1 => clear_value y); (on_goal 2 => subst y)) | clear_value y | skip)
    | split

theorem State.forwardedG16_only {ks : List Part} {s x : State} (t : Table) (step bucket first : Nat) (vs : List (Option Int)) (hk : [.out, .freeCtr, .power, .boot, .pcie, .cqs, .cmds, .log, .tm, .mem, .run, .stalls, .quays, .snap, .journal, .harbour, .ports, .test] ⊆ ks) (h : Only ks s x) :
    Only ks s (State.forwardedG16 t step bucket first vs x) := by
  unfold State.forwardedG16
  repeat' first
    | with_reducible assumption
    | with_reducible apply State.guarded_only
    | with_reducible apply State.writeG16_only
    | exact subset_of (by decide) hk
    | refine fun (_ : State) (_ : Only ks s _) => ?_
    | refine fun _ (_ : State) (_ : Only ks s _) => ?_
    | split

theorem State.forwardedStats_only {ks : List Part} {s x : State} (t : Table) (step : Nat) (es : List StatEntry) (hk : [.out, .freeCtr, .power, .boot, .pcie, .cqs, .cmds, .log, .tm, .job, .mem, .run, .stalls, .quays, .snap, .journal, .harbour, .ports, .test] ⊆ ks) (h : Only ks s x) :
    Only ks s (State.forwardedStats t step es x) := by
  unfold State.forwardedStats
  repeat' first
    | with_reducible assumption
    | with_reducible apply State.modShadow_only
    | with_reducible apply State.shadowSteps_only
    | exact subset_of (by decide) hk
    | split

theorem State.transferIn_only {ks : List Part} {s x : State} (t : Table) (port : Nat) (p : StatePayload) (hk : [.out, .freeCtr, .power, .boot, .pcie, .cqs, .cmds, .log, .tm, .job, .mem, .run, .stalls, .quays, .snap, .journal, .harbour, .ports, .test] ⊆ ks) (h : Only ks s x) :
    Only ks s (State.transferIn t port p x) := by
  unfold State.transferIn
  repeat' first
    | with_reducible assumption
    | with_reducible apply State.darkPort_only
    | with_reducible apply modHarbour_only
    | with_reducible apply State.finishImage_only
    | with_reducible apply State.failRestore_only
    | with_reducible apply State.fragmentIn_only
    | with_reducible apply State.donorRecordIn_only
    | with_reducible apply State.forwardedG16_only
    | with_reducible apply State.forwardedStats_only
    | exact subset_of (by decide) hk
    | split

theorem State.mirrorIn_only {ks : List Part} {s x : State} (port : Nat) (r : Bytes) (hk : [.out, .pcie, .log, .tm, .journal, .ports] ⊆ ks) (h : Only ks s x) :
    Only ks s (State.mirrorIn port r x) := by
  unfold State.mirrorIn
  repeat' first
    | with_reducible assumption
    | with_reducible apply State.compact_only
    | with_reducible apply modJournal_only
    | with_reducible apply State.toPartner_only
    | exact subset_of (by decide) hk
    | ((try lift_lets); intro y; first | (refine (fun (_ : Only ks s y) => ?_) ?_; (on_goal 1 => clear_value y); (on_goal 2 => subst y)) | clear_value y | skip)
    | split

theorem State.mirrorAckIn_only {ks : List Part} {s x : State} (port seq : Nat) (hk : [.journal] ⊆ ks) (h : Only ks s x) :
    Only ks s (State.mirrorAckIn port seq x) := by
  unfold State.mirrorAckIn
  repeat' first
    | with_reducible assumption
    | with_reducible apply modJournal_only
    | exact subset_of (by decide) hk
    | split

theorem State.mirrorTimeout_only {ks : List Part} {s x : State} (hk : [.journal] ⊆ ks) (h : Only ks s x) :
    Only ks s (State.mirrorTimeout x) := by
  unfold State.mirrorTimeout
  repeat' first
    | with_reducible assumption
    | with_reducible apply modJournal_only
    | exact subset_of (by decide) hk
    | ((try lift_lets); intro y; first | (refine (fun (_ : Only ks s y) => ?_) ?_; (on_goal 1 => clear_value y); (on_goal 2 => subst y)) | clear_value y | skip)
    | split

theorem State.storePiece_only {ks : List Part} {s x : State} (port : Nat) (p : SnapPiece) (hk : [.snap] ⊆ ks) (h : Only ks s x) :
    Only ks s (State.storePiece port p x) := by
  unfold State.storePiece
  repeat' first
    | with_reducible assumption
    | with_reducible apply modSnap_only
    | exact subset_of (by decide) hk
    | ((try lift_lets); intro y; first | (refine (fun (_ : Only ks s y) => ?_) ?_; (on_goal 1 => clear_value y); (on_goal 2 => subst y)) | clear_value y | skip)
    | split

/-! ## Machine/Joining.lean -/

theorem State.ownDigestRefused_only {ks : List Part} {s x : State} (sq cid : Nat) (hk : [.out, .freeCtr, .pcie, .cqs, .cmds, .log, .tm] ⊆ ks) (h : Only ks s x) :
    Only ks s (State.ownDigestRefused sq cid x) := by
  unfold State.ownDigestRefused
  repeat' first
    | with_reducible assumption
    | with_reducible apply State.takeFree_only
    | with_reducible apply State.raiseModule_only
    | with_reducible apply State.finish_only
    | refine only_of_eq (by assumption) ?_
    | exact subset_of (by decide) hk

theorem State.lightPartner_only {ks : List Part} {s x : State} (p : Nat) (hk : [.out, .power, .pcie, .log, .tm, .stalls, .ports] ⊆ ks) (h : Only ks s x) :
    Only ks s (State.lightPartner p x) := by
  unfold State.lightPartner
  repeat' first
    | with_reducible assumption
    | with_reducible apply State.sendLink_only
    | with_reducible apply State.lightPort_only
    | exact subset_of (by decide) hk
    | split

theorem State.beginJoin_only {ks : List Part} {s x : State} (sq cid : Nat) (b : Bytes) (hk : [.out, .power, .pcie, .log, .tm, .stalls, .harbour, .ports] ⊆ ks) (h : Only ks s x) :
    Only ks s (State.beginJoin sq cid b x) := by
  unfold State.beginJoin
  repeat' first
    | with_reducible assumption
    | with_reducible apply State.endShadow_only
    | with_reducible apply modHarbour_only
    | with_reducible apply State.lightPort_only
    | with_reducible apply State.lightPartner_only
    | with_reducible apply State.enterCensus_only
    | (with_reducible apply foldl_only; on_goal 2 => intros)
    | exact subset_of (by decide) hk
    | ((try lift_lets); intro y; first | (refine (fun (_ : Only ks s y) => ?_) ?_; (on_goal 1 => clear_value y); (on_goal 2 => subst y)) | clear_value y | skip)
    | split

theorem State.joinHarbour_only {ks : List Part} {s x : State} (t : Table) (sq cid : Nat) (b : Bytes) (hk : [.out, .freeCtr, .power, .pcie, .cqs, .cmds, .log, .tm, .stalls, .harbour, .ports] ⊆ ks) (h : Only ks s x) :
    Only ks s (State.joinHarbour t sq cid b x) := by
  unfold State.joinHarbour
  repeat' first
    | with_reducible assumption
    | with_reducible apply State.finish_only
    | with_reducible apply State.raiseModule_only
    | with_reducible apply State.ownDigestRefused_only
    | with_reducible apply State.beginJoin_only
    | exact subset_of (by decide) hk
    | split

theorem State.portTrained_only {ks : List Part} {s x : State} (p : Nat) (hk : [.out, .pcie, .log, .tm, .ports] ⊆ ks) (h : Only ks s x) :
    Only ks s (State.portTrained p x) := by
  unfold State.portTrained
  repeat' first
    | with_reducible assumption
    | with_reducible apply setPort_only
    | with_reducible apply State.sendLink_only
    | exact subset_of (by decide) hk
    | ((try lift_lets); intro y; first | (refine (fun (_ : Only ks s y) => ?_) ?_; (on_goal 1 => clear_value y); (on_goal 2 => subst y)) | clear_value y | skip)
    | split

theorem State.refuseHello_only {ks : List Part} {s x : State} (p cause rank : Nat) (hk : [.out, .pcie, .log, .tm] ⊆ ks) (h : Only ks s x) :
    Only ks s (State.refuseHello p cause rank x) := by
  unfold State.refuseHello
  repeat' first
    | with_reducible assumption
    | with_reducible apply State.raise_only

theorem State.noteNeighbour_only {ks : List Part} {s z : State} (p : Nat) (x : Hello) (hk : [.ports] ⊆ ks) (h : Only ks s z) :
    Only ks s (State.noteNeighbour p x z) := by
  unfold State.noteNeighbour
  repeat' first
    | with_reducible assumption
    | with_reducible apply setPort_only

theorem State.topologyHello_only {ks : List Part} {s z : State} (p : Nat) (x : Hello) (hk : [.out, .freeCtr, .power, .boot, .pcie, .cqs, .cmds, .log, .tm, .job, .mem, .run, .stalls, .quays, .snap, .journal, .harbour, .ports, .test] ⊆ ks) (h : Only ks s z) :
    Only ks s (State.topologyHello p x z) := by
  unfold State.topologyHello
  repeat' first
    | with_reducible assumption
    | with_reducible apply State.refuseHello_only
    | with_reducible apply State.markLost_only
    | with_reducible apply State.tryClose_only
    | with_reducible apply State.sendLink_only
    | with_reducible apply modHarbour_only
    | with_reducible apply State.enterCensus_only
    | (with_reducible apply foldl_only; on_goal 2 => intros)
    | exact subset_of (by decide) hk
    | ((try lift_lets); intro y; first | (refine (fun (_ : Only ks s y) => ?_) ?_; (on_goal 1 => clear_value y); (on_goal 2 => subst y)) | clear_value y | skip)
    | split

theorem State.partnerHello_only {ks : List Part} {s z : State} (p : Nat) (x : Hello) (hk : [.out, .freeCtr, .power, .pcie, .cqs, .cmds, .log, .tm, .stalls, .harbour, .ports] ⊆ ks) (h : Only ks s z) :
    Only ks s (State.partnerHello p x z) := by
  unfold State.partnerHello
  repeat' first
    | with_reducible assumption
    | with_reducible apply State.refuseHello_only
    | with_reducible apply State.takeFree_only
    | with_reducible apply State.accept_only
    | with_reducible apply State.raise_only
    | with_reducible apply State.endJoin_only
    | refine only_of_eq (by assumption) ?_
    | exact subset_of (by decide) hk
    | ((try lift_lets); intro y; first | (refine (fun (_ : Only ks s y) => ?_) ?_; (on_goal 1 => clear_value y); (on_goal 2 => subst y)) | (refine (fun (_ : Only ks s y.2) => ?_) ?_; (on_goal 1 => clear_value y); (on_goal 2 => subst y)) | clear_value y | skip)
    | split

theorem State.helloIn_only {ks : List Part} {s z : State} (p : Nat) (x : Hello) (hk : [.out, .freeCtr, .power, .boot, .pcie, .cqs, .cmds, .log, .tm, .job, .mem, .run, .stalls, .quays, .snap, .journal, .harbour, .ports, .test] ⊆ ks) (h : Only ks s z) :
    Only ks s (State.helloIn p x z) := by
  unfold State.helloIn
  repeat' first
    | with_reducible assumption
    | with_reducible apply State.heard_only
    | with_reducible apply State.noteNeighbour_only
    | with_reducible apply State.restoreHelloIn_only
    | with_reducible apply State.topologyHello_only
    | with_reducible apply State.donorHello_only
    | with_reducible apply State.partnerHello_only
    | exact subset_of (by decide) hk
    | ((try lift_lets); intro y; first | (refine (fun (_ : Only ks s y) => ?_) ?_; (on_goal 1 => clear_value y); (on_goal 2 => subst y)) | clear_value y | skip)
    | split

theorem State.joinExpired_only {ks : List Part} {s x : State} (hk : [.out, .power, .pcie, .cqs, .cmds, .log, .tm, .stalls, .harbour, .ports] ⊆ ks) (h : Only ks s x) :
    Only ks s (State.joinExpired x) := by
  unfold State.joinExpired
  repeat' first
    | with_reducible assumption
    | with_reducible apply State.endJoin_only

theorem State.leaveHarbour_only {ks : List Part} {s x : State} (sq cid : Nat) (hk : [.out, .power, .boot, .pcie, .cqs, .cmds, .log, .tm, .stalls, .harbour, .ports] ⊆ ks) (h : Only ks s x) :
    Only ks s (State.leaveHarbour sq cid x) := by
  unfold State.leaveHarbour
  repeat' first
    | with_reducible assumption
    | with_reducible apply State.setCmd_only
    | with_reducible apply modHarbour_only
    | with_reducible apply State.leaveNow_only
    | exact subset_of (by decide) hk
    | ((try lift_lets); intro y; first | (refine (fun (_ : Only ks s y) => ?_) ?_; (on_goal 1 => clear_value y); (on_goal 2 => subst y)) | clear_value y | skip)
    | split

theorem State.progressSend_only {ks : List Part} {s x : State} (hk : [.out, .pcie, .log, .tm, .ports] ⊆ ks) (h : Only ks s x) :
    Only ks s (State.progressSend x) := by
  unfold State.progressSend
  repeat' first
    | with_reducible assumption
    | with_reducible apply State.flood_only
    | exact subset_of (by decide) hk
    | split

theorem State.progressIn_only {ks : List Part} {s x : State} (p : Nat) (r : Progress) (hk : [.out, .pcie, .log, .tm, .harbour, .ports] ⊆ ks) (h : Only ks s x) :
    Only ks s (State.progressIn p r x) := by
  unfold State.progressIn
  repeat' first
    | with_reducible assumption
    | with_reducible apply State.heard_only
    | with_reducible apply State.count_only
    | with_reducible apply modHarbour_only
    | exact subset_of (by decide) hk
    | ((try lift_lets); intro y; first | (refine (fun (_ : Only ks s y) => ?_) ?_; (on_goal 1 => clear_value y); (on_goal 2 => subst y)) | clear_value y | skip)
    | split

theorem State.bucketLate_only {ks : List Part} {s x : State} (t : Table) (suspect waited : Nat) (hk : [.out, .freeCtr, .power, .boot, .pcie, .cqs, .cmds, .log, .tm, .job, .mem, .run, .stalls, .quays, .snap, .journal, .harbour, .ports, .test] ⊆ ks) (h : Only ks s x) :
    Only ks s (State.bucketLate t suspect waited x) := by
  unfold State.bucketLate
  repeat' first
    | with_reducible assumption
    | with_reducible apply State.raise_only
    | with_reducible apply State.ejectIn_only
    | exact subset_of (by decide) hk
    | ((try lift_lets); intro y; first | (refine (fun (_ : Only ks s y) => ?_) ?_; (on_goal 1 => clear_value y); (on_goal 2 => subst y)) | clear_value y | skip)
    | split

theorem State.cutOff_only {ks : List Part} {s x : State} (p : Nat) (hk : [.out, .freeCtr, .power, .boot, .pcie, .cqs, .cmds, .log, .tm, .job, .mem, .run, .stalls, .quays, .snap, .journal, .harbour, .ports, .test] ⊆ ks) (h : Only ks s x) :
    Only ks s (State.cutOff p x) := by
  unfold State.cutOff
  repeat' first
    | with_reducible assumption
    | with_reducible apply State.markLost_only
    | with_reducible apply State.tryClose_only
    | exact subset_of (by decide) hk
    | ((try lift_lets); intro y; first | (refine (fun (_ : Only ks s y) => ?_) ?_; (on_goal 1 => clear_value y); (on_goal 2 => subst y)) | clear_value y | skip)
    | split

theorem State.endTransfer_only {ks : List Part} {s x : State} (p : Nat) (hk : [.out, .freeCtr, .power, .boot, .pcie, .cqs, .cmds, .log, .tm, .job, .mem, .run, .stalls, .quays, .snap, .journal, .harbour, .ports, .test] ⊆ ks) (h : Only ks s x) :
    Only ks s (State.endTransfer p x) := by
  unfold State.endTransfer
  repeat' first
    | with_reducible assumption
    | with_reducible apply State.releaseQuays_only
    | with_reducible apply modSnap_only
    | with_reducible apply State.tryCommit_only
    | exact subset_of (by decide) hk
    | split

theorem State.suspendPartner_only {ks : List Part} {s x : State} (p : Nat) (hk : [.out, .freeCtr, .power, .boot, .pcie, .cqs, .cmds, .log, .tm, .job, .mem, .run, .stalls, .quays, .snap, .journal, .harbour, .ports, .test] ⊆ ks) (h : Only ks s x) :
    Only ks s (State.suspendPartner p x) := by
  unfold State.suspendPartner
  repeat' first
    | with_reducible assumption
    | with_reducible apply modJournal_only
    | with_reducible apply modHarbour_only
    | with_reducible apply State.endTransfer_only
    | with_reducible apply State.finish_only
    | exact subset_of (by decide) hk
    | ((try lift_lets); intro y; first | (refine (fun (_ : Only ks s y) => ?_) ?_; (on_goal 1 => clear_value y); (on_goal 2 => subst y)) | clear_value y | skip)
    | split

theorem State.quarantinePort_only {ks : List Part} {s x : State} (p cause : Nat) (loss : PortLoss) (hk : [.out, .freeCtr, .power, .boot, .pcie, .cqs, .cmds, .log, .tm, .job, .mem, .run, .stalls, .quays, .snap, .journal, .harbour, .ports, .test] ⊆ ks) (h : Only ks s x) :
    Only ks s (State.quarantinePort p cause loss x) := by
  unfold State.quarantinePort
  repeat' first
    | with_reducible assumption
    | with_reducible apply setPort_only
    | with_reducible apply State.engines_only
    | with_reducible apply State.raise_only
    | with_reducible apply State.portReform_only
    | with_reducible apply State.cutOff_only
    | with_reducible apply State.tryClose_only
    | with_reducible apply State.suspendPartner_only
    | exact subset_of (by decide) hk
    | ((try lift_lets); intro y; first | (refine (fun (_ : Only ks s y) => ?_) ?_; (on_goal 1 => clear_value y); (on_goal 2 => subst y)) | clear_value y | skip)
    | split

theorem State.portDown_only {ks : List Part} {s x : State} (p : Nat) (loss : PortLoss) (hk : [.out, .freeCtr, .power, .boot, .pcie, .cqs, .cmds, .log, .tm, .job, .mem, .run, .stalls, .quays, .snap, .journal, .harbour, .ports, .test] ⊆ ks) (h : Only ks s x) :
    Only ks s (State.portDown p loss x) := by
  unfold State.portDown
  repeat' first
    | with_reducible assumption
    | with_reducible apply State.quarantinePort_only
    | with_reducible apply setPort_only
    | with_reducible apply State.count_only
    | with_reducible apply State.cutOff_only
    | exact subset_of (by decide) hk
    | ((try lift_lets); intro y; first | (refine (fun (_ : Only ks s y) => ?_) ?_; (on_goal 1 => clear_value y); (on_goal 2 => subst y)) | clear_value y | skip)
    | split

theorem State.portRetrained_only {ks : List Part} {s x : State} (p : Nat) (ok : Bool) (hk : [.out, .freeCtr, .power, .boot, .pcie, .cqs, .cmds, .log, .tm, .job, .mem, .run, .stalls, .quays, .snap, .journal, .harbour, .ports, .test] ⊆ ks) (h : Only ks s x) :
    Only ks s (State.portRetrained p ok x) := by
  unfold State.portRetrained
  repeat' first
    | with_reducible assumption
    | with_reducible apply setPort_only
    | with_reducible apply State.releaseFlits_only
    | with_reducible apply State.quarantinePort_only
    | exact subset_of (by decide) hk
    | ((try lift_lets); intro y; first | (refine (fun (_ : Only ks s y) => ?_) ?_; (on_goal 1 => clear_value y); (on_goal 2 => subst y)) | clear_value y | skip)
    | split

theorem State.flitError_only {ks : List Part} {s x : State} (p : Nat) (crc : Bool) (hk : [.out, .pcie, .log, .tm, .ports] ⊆ ks) (h : Only ks s x) :
    Only ks s (State.flitError p crc x) := by
  unfold State.flitError
  repeat' first
    | with_reducible assumption
    | with_reducible apply State.count_only
    | with_reducible apply setPort_only
    | with_reducible apply State.sendLink_only
    | with_reducible apply State.noteNak_only
    | exact subset_of (by decide) hk
    | ((try lift_lets); intro y; first | (refine (fun (_ : Only ks s y) => ?_) ?_; (on_goal 1 => clear_value y); (on_goal 2 => subst y)) | clear_value y | skip)
    | split

theorem State.resendFrom_only {ks : List Part} {s x : State} (p seq : Nat) (hk : [.out, .pcie, .log, .tm, .ports] ⊆ ks) (h : Only ks s x) :
    Only ks s (State.resendFrom p seq x) := by
  unfold State.resendFrom
  repeat' first
    | with_reducible assumption
    | with_reducible apply setPort_only
    | with_reducible apply emit_only
    | with_reducible apply State.emitFlits_only
    | with_reducible apply State.count_only
    | exact subset_of (by decide) hk
    | ((try lift_lets); intro y; first | (refine (fun (_ : Only ks s y) => ?_) ?_; (on_goal 1 => clear_value y); (on_goal 2 => subst y)) | clear_value y | skip)
    | split

theorem State.ackBefore_only {ks : List Part} {s x : State} (p seq : Nat) (hk : [.ports] ⊆ ks) (h : Only ks s x) :
    Only ks s (State.ackBefore p seq x) := by
  unfold State.ackBefore
  repeat' first
    | with_reducible assumption
    | with_reducible apply setPort_only

theorem State.nakIn_only {ks : List Part} {s x : State} (p seq : Nat) (hk : [.out, .pcie, .log, .tm, .ports] ⊆ ks) (h : Only ks s x) :
    Only ks s (State.nakIn p seq x) := by
  unfold State.nakIn
  repeat' first
    | with_reducible assumption
    | with_reducible apply State.heard_only
    | with_reducible apply State.count_only
    | with_reducible apply State.noteNak_only
    | with_reducible apply State.ackBefore_only
    | with_reducible apply State.resendFrom_only
    | exact subset_of (by decide) hk
    | split

theorem State.replayTimeout_only {ks : List Part} {s x : State} (p : Nat) (hk : [.out, .pcie, .log, .tm, .ports] ⊆ ks) (h : Only ks s x) :
    Only ks s (State.replayTimeout p x) := by
  unfold State.replayTimeout
  repeat' first
    | with_reducible assumption
    | with_reducible apply State.resendFrom_only
    | exact subset_of (by decide) hk
    | split

theorem State.flitAck_only {ks : List Part} {s x : State} (p acked credits : Nat) (hk : [.out, .pcie, .log, .tm, .ports] ⊆ ks) (h : Only ks s x) :
    Only ks s (State.flitAck p acked credits x) := by
  unfold State.flitAck
  repeat' first
    | with_reducible assumption
    | with_reducible apply setPort_only
    | with_reducible apply State.releaseFlits_only
    | exact subset_of (by decide) hk

theorem State.codewordIn_only {ks : List Part} {s x : State} (p : Nat) (cw : Bytes) (hk : [.out, .pcie, .log, .tm, .ports] ⊆ ks) (h : Only ks s x) :
    Only ks s (State.codewordIn p cw x) := by
  unfold State.codewordIn
  repeat' first
    | with_reducible assumption
    | with_reducible apply State.flitError_only
    | with_reducible apply State.count_only
    | with_reducible apply setPort_only
    | with_reducible apply State.flitAck_only
    | exact subset_of (by decide) hk
    | ((try lift_lets); intro y; first | (refine (fun (_ : Only ks s y) => ?_) ?_; (on_goal 1 => clear_value y); (on_goal 2 => subst y)) | clear_value y | skip)
    | split

theorem State.unknownRecord_only {ks : List Part} {s x : State} (p : Nat) (hk : [.out, .pcie, .log, .tm, .ports] ⊆ ks) (h : Only ks s x) :
    Only ks s (State.unknownRecord p x) := by
  unfold State.unknownRecord
  repeat' first
    | with_reducible assumption
    | with_reducible apply State.heard_only
    | with_reducible apply State.count_only
    | with_reducible apply State.noteNak_only
    | exact subset_of (by decide) hk
    | split

/-! ## Machine/TestOps.lean -/

theorem State.testFailEvent_only {ks : List Part} {s x : State} (e : TestEntry) (hk : [.out, .pcie, .log, .tm] ⊆ ks) (h : Only ks s x) :
    Only ks s (State.testFailEvent e x) := by
  unfold State.testFailEvent
  repeat' first
    | with_reducible assumption
    | with_reducible apply State.raise_only

theorem State.failStall_only {ks : List Part} {s x : State} (i : Nat) (hk : [.stalls, .test] ⊆ ks) (h : Only ks s x) :
    Only ks s (State.failStall i x) := by
  unfold State.failStall
  repeat' first
    | with_reducible assumption
    | with_reducible apply setStall_only
    | with_reducible apply modTest_only
    | exact subset_of (by decide) hk

theorem State.failPort_only {ks : List Part} {s x : State} (p : Nat) (hk : [.out, .freeCtr, .power, .boot, .pcie, .cqs, .cmds, .log, .tm, .job, .mem, .run, .stalls, .quays, .snap, .journal, .harbour, .ports, .test] ⊆ ks) (h : Only ks s x) :
    Only ks s (State.failPort p x) := by
  unfold State.failPort
  repeat' first
    | with_reducible assumption
    | with_reducible apply setPort_only
    | with_reducible apply State.engines_only
    | with_reducible apply State.portReform_only
    | with_reducible apply State.cutOff_only
    | with_reducible apply State.tryClose_only
    | with_reducible apply State.suspendPartner_only
    | exact subset_of (by decide) hk
    | ((try lift_lets); intro y; first | (refine (fun (_ : Only ks s y) => ?_) ?_; (on_goal 1 => clear_value y); (on_goal 2 => subst y)) | clear_value y | skip)
    | split

theorem State.failEntry_only {ks : List Part} {s x : State} (e : TestEntry) (hk : [.out, .freeCtr, .power, .boot, .pcie, .cqs, .cmds, .log, .tm, .job, .mem, .run, .stalls, .quays, .snap, .journal, .harbour, .ports, .test] ⊆ ks) (h : Only ks s x) :
    Only ks s (State.failEntry e x) := by
  unfold State.failEntry
  repeat' first
    | with_reducible assumption
    | with_reducible apply State.testFailEvent_only
    | with_reducible apply State.failStall_only
    | with_reducible apply State.failPort_only
    | with_reducible apply setQuay_only
    | exact subset_of (by decide) hk
    | ((try lift_lets); intro y; first | (refine (fun (_ : Only ks s y) => ?_) ?_; (on_goal 1 => clear_value y); (on_goal 2 => subst y)) | clear_value y | skip)
    | split

theorem State.zeroPile_only {ks : List Part} {s x : State} (p : Nat) (hk : [.mem] ⊆ ks) (h : Only ks s x) :
    Only ks s (State.zeroPile p x) := by
  unfold State.zeroPile
  repeat' first
    | with_reducible assumption
    | with_reducible apply modMem_only

theorem State.startTest_only {ks : List Part} {s x : State} (r : TestReq) (hk : [.out, .power, .boot, .pcie, .log, .tm, .stalls, .test] ⊆ ks) (h : Only ks s x) :
    Only ks s (State.startTest r x) := by
  unfold State.startTest
  repeat' first
    | with_reducible assumption
    | with_reducible apply State.lightTest_only
    | with_reducible apply State.markTested_only
    | with_reducible apply modTest_only
    | with_reducible apply State.enter_only
    | exact subset_of (by decide) hk
    | ((try lift_lets); intro y; first | (refine (fun (_ : Only ks s y) => ?_) ?_; (on_goal 1 => clear_value y); (on_goal 2 => subst y)) | clear_value y | skip)
    | split

theorem State.startQueued_only {ks : List Part} {s x : State} (hk : [.out, .power, .boot, .pcie, .log, .tm, .stalls, .test] ⊆ ks) (h : Only ks s x) :
    Only ks s (State.startQueued x) := by
  unfold State.startQueued
  repeat' first
    | with_reducible assumption
    | with_reducible apply State.startTest_only
    | exact subset_of (by decide) hk
    | split

theorem State.runTest_only {ks : List Part} {s x : State} (c : Cmd) (hk : [.out, .power, .boot, .pcie, .cqs, .cmds, .log, .tm, .stalls, .test] ⊆ ks) (h : Only ks s x) :
    Only ks s (State.runTest c x) := by
  unfold State.runTest
  repeat' first
    | with_reducible assumption
    | with_reducible apply State.setCmd_only
    | with_reducible apply State.finish_only
    | with_reducible apply modTest_only
    | with_reducible apply State.count_only
    | with_reducible apply State.startQueued_only
    | exact subset_of (by decide) hk
    | ((try lift_lets); intro y; first | (refine (fun (_ : Only ks s y) => ?_) ?_; (on_goal 1 => clear_value y); (on_goal 2 => subst y)) | clear_value y | skip)
    | split

theorem State.afterTest_only {ks : List Part} {s x : State} (hk : [.out, .freeCtr, .power, .boot, .pcie, .cqs, .cmds, .log, .tm, .job, .mem, .run, .stalls, .quays, .snap, .journal, .harbour, .ports, .test] ⊆ ks) (h : Only ks s x) :
    Only ks s (State.afterTest x) := by
  unfold State.afterTest
  repeat' first
    | with_reducible assumption
    | with_reducible apply State.startQueued_only
    | with_reducible apply State.afterCommit_only
    | with_reducible apply State.tryClose_only
    | exact subset_of (by decide) hk
    | ((try lift_lets); intro y; first | (refine (fun (_ : Only ks s y) => ?_) ?_; (on_goal 1 => clear_value y); (on_goal 2 => subst y)) | clear_value y | skip)
    | split

theorem State.stallFault_only {ks : List Part} {s x : State} (es : List TestEntry) (hk : [.out, .freeCtr, .power, .boot, .pcie, .cqs, .cmds, .log, .tm, .mem, .run, .stalls, .quays, .snap, .journal, .harbour, .ports, .test] ⊆ ks) (h : Only ks s x) :
    Only ks s (State.stallFault es x) := by
  unfold State.stallFault
  repeat' first
    | with_reducible assumption
    | with_reducible apply State.moduleFault_only
    | exact subset_of (by decide) hk
    | split

theorem State.testComplete_only {ks : List Part} {s x : State} (responses : List (List (Nat × Nat))) (hk : [.out, .freeCtr, .power, .boot, .pcie, .cqs, .cmds, .log, .tm, .job, .mem, .run, .stalls, .quays, .snap, .journal, .harbour, .ports, .test] ⊆ ks) (h : Only ks s x) :
    Only ks s (State.testComplete responses x) := by
  unfold State.testComplete
  repeat' first
    | with_reducible assumption
    | with_reducible apply State.darkTest_only
    | with_reducible apply State.unmarkTested_only
    | with_reducible apply State.toHost_only
    | with_reducible apply modTest_only
    | with_reducible apply State.zeroPile_only
    | with_reducible apply State.enter_only
    | with_reducible apply State.failEntry_only
    | with_reducible apply State.finish_only
    | with_reducible apply State.stallFault_only
    | with_reducible apply State.afterTest_only
    | (with_reducible apply foldl_only; on_goal 2 => intros)
    | exact subset_of (by decide) hk
    | ((try lift_lets); intro y; first | (refine (fun (_ : Only ks s y) => ?_) ?_; (on_goal 1 => clear_value y); (on_goal 2 => subst y)) | clear_value y | skip)
    | split

/-! ## Machine/Lifecycle.lean -/

theorem State.zeroPages_only {ks : List Part} {s x : State} (l : List Nat) (hk : [.mem] ⊆ ks) (h : Only ks s x) :
    Only ks s (State.zeroPages l x) := by
  unfold State.zeroPages
  repeat' first
    | with_reducible assumption
    | with_reducible apply modMem_only
    | (with_reducible apply foldl_only; on_goal 2 => intros)

theorem State.keepFlash_only {ks : List Part} {s x : State} (t : Table) (hk : [.boot, .snap, .journal] ⊆ ks) (h : Only ks s x) :
    Only ks s (State.keepFlash t x) := by
  unfold State.keepFlash
  repeat' first
    | with_reducible assumption
    | with_reducible apply modBoot_only
    | with_reducible apply modJournal_only
    | with_reducible apply modSnap_only
    | exact subset_of (by decide) hk

theorem State.activate_only {ks : List Part} {s x : State} (t : Table) (hk : [.out, .freeCtr, .power, .boot, .pcie, .cqs, .cmds, .log, .tm, .job, .mem, .run, .stalls, .quays, .snap, .journal, .harbour, .ports, .test] ⊆ ks) (h : Only ks s x) :
    Only ks s (State.activate t x) := by
  unfold State.activate
  repeat' first
    | with_reducible assumption
    | with_reducible apply State.endShadow_only
    | with_reducible apply State.zeroPages_only
    | with_reducible apply modMem_only
    | with_reducible apply modJob_only
    | with_reducible apply State.keepFlash_only
    | with_reducible apply modTm_only
    | with_reducible apply modRun_only
    | with_reducible apply modStalls_only
    | with_reducible apply modQuays_only
    | with_reducible apply modHarbour_only
    | with_reducible apply modPower_only
    | with_reducible apply State.capChanged_only
    | with_reducible apply State.setDomains_only
    | with_reducible apply State.enter_only
    | with_reducible apply State.writeNow_only
    | exact subset_of (by decide) hk
    | refine fun (_ : State) (_ : Only ks s _) => ?_

theorem State.loadTable_only {ks : List Part} {s x : State} (sq cid : Nat) (b : Bytes) (hk : [.out, .freeCtr, .power, .boot, .pcie, .cqs, .cmds, .log, .tm, .job, .mem, .run, .stalls, .quays, .snap, .journal, .harbour, .ports, .test] ⊆ ks) (h : Only ks s x) :
    Only ks s (State.loadTable sq cid b x) := by
  unfold State.loadTable
  repeat' first
    | with_reducible assumption
    | with_reducible apply State.raiseModule_only
    | with_reducible apply State.finish_only
    | with_reducible apply State.activate_only
    | exact subset_of (by decide) hk
    | ((try lift_lets); intro y; first | (refine (fun (_ : Only ks s y) => ?_) ?_; (on_goal 1 => clear_value y); (on_goal 2 => subst y)) | clear_value y | skip)
    | split

theorem State.unload_only {ks : List Part} {s x : State} (hk : [.out, .power, .boot, .pcie, .log, .tm, .job, .mem, .run, .stalls, .quays, .snap, .journal, .harbour, .ports, .test] ⊆ ks) (h : Only ks s x) :
    Only ks s (State.unload x) := by
  unfold State.unload
  repeat' first
    | with_reducible assumption
    | with_reducible apply State.outOfHarbour_only
    | with_reducible apply State.zeroPages_only
    | with_reducible apply modMem_only
    | with_reducible apply modJob_only
    | with_reducible apply modJournal_only
    | with_reducible apply modSnap_only
    | with_reducible apply modRun_only
    | with_reducible apply modStalls_only
    | with_reducible apply modQuays_only
    | with_reducible apply State.setDomains_only
    | with_reducible apply modPower_only
    | with_reducible apply State.enter_only
    | exact subset_of (by decide) hk

theorem State.objectEvents_only {ks : List Part} {s x : State} (obj c : Nat) (o : Bytes) (hk : [.out, .pcie, .log, .tm] ⊆ ks) (h : Only ks s x) :
    Only ks s (State.objectEvents obj c o x) := by
  unfold State.objectEvents
  repeat' first
    | with_reducible assumption
    | with_reducible apply State.raiseModule_only
    | exact subset_of (by decide) hk
    | ((try lift_lets); intro y; first | (refine (fun (_ : Only ks s y) => ?_) ?_; (on_goal 1 => clear_value y); (on_goal 2 => subst y)) | clear_value y | skip)
    | split

theorem State.applyPatch_only {ks : List Part} {s x : State} (sq cid : Nat) (o : Bytes) (hk : [.out, .boot, .pcie, .cqs, .cmds, .log, .tm] ⊆ ks) (h : Only ks s x) :
    Only ks s (State.applyPatch sq cid o x) := by
  unfold State.applyPatch
  repeat' first
    | with_reducible assumption
    | with_reducible apply State.objectEvents_only
    | with_reducible apply State.finish_only
    | with_reducible apply modBoot_only
    | exact subset_of (by decide) hk
    | split

theorem State.enrolKey_only {ks : List Part} {s x : State} (sq cid slot : Nat) (o : Bytes) (hk : [.out, .boot, .pcie, .cqs, .cmds, .log, .tm] ⊆ ks) (h : Only ks s x) :
    Only ks s (State.enrolKey sq cid slot o x) := by
  unfold State.enrolKey
  repeat' first
    | with_reducible assumption
    | with_reducible apply State.objectEvents_only
    | with_reducible apply State.finish_only
    | with_reducible apply modBoot_only
    | exact subset_of (by decide) hk
    | split

theorem State.forget_only {ks : List Part} {s x : State} (mode : ModuleState) (domains : BitVec 99) (hk : [.power, .boot, .pcie, .sqs, .cqs, .sqTurn, .cmds, .log, .tm, .job, .mem, .run, .stalls, .quays, .snap, .journal, .harbour, .ports, .test] ⊆ ks) (h : Only ks s x) :
    Only ks s (State.forget mode domains x) :=
  only_trans h ⟨fun k hn => by cases k <;> first | rfl | exact absurd (hk (by decide)) hn⟩

theorem State.bootFailure_only {ks : List Part} {s x : State} (i : Nat) (hk : [.out, .freeCtr, .pcie, .log, .tm, .stalls, .test] ⊆ ks) (h : Only ks s x) :
    Only ks s (State.bootFailure i x) := by
  unfold State.bootFailure
  repeat' first
    | with_reducible assumption
    | with_reducible apply State.takeFree_only
    | with_reducible apply State.raise_only
    | with_reducible apply State.failStall_only
    | refine only_of_eq (by assumption) ?_
    | exact subset_of (by decide) hk

theorem State.finishBoot_only {ks : List Part} {s x : State} (failed : List Nat) (hk : [.out, .freeCtr, .power, .boot, .pcie, .log, .tm, .stalls, .test] ⊆ ks) (h : Only ks s x) :
    Only ks s (State.finishBoot failed x) := by
  unfold State.finishBoot
  repeat' first
    | with_reducible assumption
    | with_reducible apply modBoot_only
    | with_reducible apply modPower_only
    | with_reducible apply State.objectEvents_only
    | with_reducible apply State.bootFailure_only
    | with_reducible apply State.raiseModule_only
    | with_reducible apply State.enter_only
    | (with_reducible apply foldl_only; on_goal 2 => intros)
    | exact subset_of (by decide) hk
    | ((try lift_lets); intro y; first | (refine (fun (_ : Only ks s y) => ?_) ?_; (on_goal 1 => clear_value y); (on_goal 2 => subst y)) | clear_value y | skip)
    | split

theorem State.moduleReset_only {ks : List Part} {s x : State} (failed : List Nat) (hk : [.out, .freeCtr, .power, .boot, .pcie, .sqs, .cqs, .sqTurn, .cmds, .log, .tm, .job, .mem, .run, .stalls, .quays, .snap, .journal, .harbour, .ports, .test] ⊆ ks) (h : Only ks s x) :
    Only ks s (State.moduleReset failed x) := by
  unfold State.moduleReset
  repeat' first
    | with_reducible assumption
    | with_reducible apply State.forget_only
    | with_reducible apply modPower_only
    | with_reducible apply State.finishBoot_only
    | exact subset_of (by decide) hk
    | ((try lift_lets); intro y; first | (refine (fun (_ : Only ks s y) => ?_) ?_; (on_goal 1 => clear_value y); (on_goal 2 => subst y)) | clear_value y | skip)
    | split

theorem State.toStandby_only {ks : List Part} {s x : State} (hk : [.power, .boot, .pcie, .sqs, .cqs, .sqTurn, .cmds, .log, .tm, .job, .mem, .run, .stalls, .quays, .snap, .journal, .harbour, .ports, .test] ⊆ ks) (h : Only ks s x) : Only ks s (State.toStandby x) := by
  unfold State.toStandby
  split
  · exact h
  · exact modMem_only (fun _ => Mem.reset) (subset_of (by decide) hk) (State.forget_only .standby standbyDomains (subset_of (by decide) hk) h)

theorem State.trainLink_only {ks : List Part} {s x : State} (hk : [.freeCtr, .pcie] ⊆ ks) (h : Only ks s x) :
    Only ks s (State.trainLink x) := by
  unfold State.trainLink
  repeat' first
    | with_reducible assumption
    | with_reducible apply State.takeFree_only
    | with_reducible apply modPcie_only
    | refine only_of_eq (by assumption) ?_
    | exact subset_of (by decide) hk

theorem State.startUp_only {ks : List Part} {s x : State} (failed : List Nat) (hk : [.out, .freeCtr, .power, .boot, .pcie, .sqs, .cqs, .sqTurn, .cmds, .log, .tm, .job, .mem, .run, .stalls, .quays, .snap, .journal, .harbour, .ports, .test] ⊆ ks) (h : Only ks s x) :
    Only ks s (State.startUp failed x) := by
  unfold State.startUp
  repeat' first
    | with_reducible assumption
    | with_reducible apply State.forget_only
    | with_reducible apply State.trainLink_only
    | with_reducible apply State.finishBoot_only
    | exact subset_of (by decide) hk
    | ((try lift_lets); intro y; first | (refine (fun (_ : Only ks s y) => ?_) ?_; (on_goal 1 => clear_value y); (on_goal 2 => subst y)) | clear_value y | skip)
    | split

theorem State.runWithoutHost_only {ks : List Part} {s x : State} (hk : [.out, .freeCtr, .power, .boot, .pcie, .cqs, .cmds, .log, .tm, .mem, .run, .stalls, .quays, .snap, .journal, .harbour, .ports, .test] ⊆ ks) (h : Only ks s x) :
    Only ks s (State.runWithoutHost x) := by
  unfold State.runWithoutHost
  repeat' first
    | with_reducible assumption
    | with_reducible apply State.moduleFault_only
    | with_reducible apply State.abandonAttempt_only
    | with_reducible apply State.endRun_only
    | with_reducible apply modRun_only
    | exact subset_of (by decide) hk
    | split

theorem State.snapWithoutHost_only {ks : List Part} {s x : State} (hk : [.out, .pcie, .cqs, .cmds, .log, .tm, .mem, .quays, .snap] ⊆ ks) (h : Only ks s x) :
    Only ks s (State.snapWithoutHost x) := by
  unfold State.snapWithoutHost
  repeat' first
    | with_reducible assumption
    | with_reducible apply State.abandonSnapshot_only
    | with_reducible apply modSnap_only
    | exact subset_of (by decide) hk
    | ((try lift_lets); intro y; first | (refine (fun (_ : Only ks s y) => ?_) ?_; (on_goal 1 => clear_value y); (on_goal 2 => subst y)) | clear_value y | skip)
    | split

theorem State.testsWithoutHost_only {ks : List Part} {s x : State} (hk : [.test] ⊆ ks) (h : Only ks s x) :
    Only ks s (State.testsWithoutHost x) := by
  unfold State.testsWithoutHost
  repeat' first
    | with_reducible assumption
    | with_reducible apply modTest_only

theorem State.hostGone_only {ks : List Part} {s x : State} (hk : [.out, .freeCtr, .power, .boot, .pcie, .sqs, .cqs, .cmds, .log, .tm, .job, .mem, .run, .stalls, .quays, .snap, .journal, .harbour, .ports, .test] ⊆ ks) (h : Only ks s x) :
    Only ks s (State.hostGone x) := by
  unfold State.hostGone
  repeat' first
    | with_reducible assumption
    | with_reducible apply modPcie_only
    | with_reducible apply State.violation_only
    | with_reducible apply modSqs_only
    | with_reducible apply modCqs_only
    | with_reducible apply modCmds_only
    | with_reducible apply State.testsWithoutHost_only
    | with_reducible apply State.snapWithoutHost_only
    | with_reducible apply State.runWithoutHost_only
    | with_reducible apply modJob_only
    | exact subset_of (by decide) hk
    | ((try lift_lets); intro y; first | (refine (fun (_ : Only ks s y) => ?_) ?_; (on_goal 1 => clear_value y); (on_goal 2 => subst y)) | clear_value y | skip)
    | split

theorem State.resetQueues_only {ks : List Part} {s x : State} (hk : [.pcie, .sqs, .cqs] ⊆ ks) (h : Only ks s x) : Only ks s (State.resetQueues x) :=
  modPcie_only _ (subset_of (by decide) hk) (modCqs_only _ (subset_of (by decide) hk) (modSqs_only _ (subset_of (by decide) hk) h))

theorem State.resetHostRegs_only {ks : List Part} {s x : State} (hk : [.log, .tm, .snap] ⊆ ks) (h : Only ks s x) :
    Only ks s (State.resetHostRegs x) := by
  unfold State.resetHostRegs
  repeat' first
    | with_reducible assumption
    | with_reducible apply modLog_only
    | with_reducible apply modTm_only
    | with_reducible apply modSnap_only
    | exact subset_of (by decide) hk

theorem State.functionReset_only {ks : List Part} {s x : State} (hk : [.out, .freeCtr, .power, .boot, .pcie, .sqs, .cqs, .cmds, .log, .tm, .job, .mem, .run, .stalls, .quays, .snap, .journal, .harbour, .ports, .test] ⊆ ks) (h : Only ks s x) :
    Only ks s (State.functionReset x) := by
  unfold State.functionReset
  repeat' first
    | with_reducible assumption
    | with_reducible apply State.hostGone_only
    | with_reducible apply State.resetQueues_only
    | with_reducible apply State.resetHostRegs_only
    | exact subset_of (by decide) hk

theorem State.settleReset_only {ks : List Part} {s x : State} (hk : [.out, .freeCtr, .power, .boot, .pcie, .sqs, .cqs, .sqTurn, .cmds, .log, .tm, .job, .mem, .run, .stalls, .quays, .snap, .journal, .harbour, .ports, .test] ⊆ ks) (h : Only ks s x) :
    Only ks s (State.settleReset x) := by
  unfold State.settleReset
  repeat' first
    | with_reducible assumption
    | with_reducible apply State.takeFree_only
    | with_reducible apply State.moduleReset_only
    | refine only_of_eq (by assumption) ?_
    | exact subset_of (by decide) hk
    | split

theorem State.requestReset_only {ks : List Part} {s x : State} (hk : [.out, .freeCtr, .power, .boot, .pcie, .sqs, .cqs, .sqTurn, .cmds, .log, .tm, .job, .mem, .run, .stalls, .quays, .snap, .journal, .harbour, .ports, .test] ⊆ ks) (h : Only ks s x) :
    Only ks s (State.requestReset x) := by
  unfold State.requestReset
  repeat' first
    | with_reducible assumption
    | with_reducible apply State.hostGone_only
    | with_reducible apply State.resetQueues_only
    | with_reducible apply State.depart_only
    | with_reducible apply modBoot_only
    | with_reducible apply State.settleReset_only
    | exact subset_of (by decide) hk
    | ((try lift_lets); intro y; first | (refine (fun (_ : Only ks s y) => ?_) ?_; (on_goal 1 => clear_value y); (on_goal 2 => subst y)) | clear_value y | skip)
    | split

theorem State.sealMirror_only {ks : List Part} {s x : State} (c : Commit) (hk : [.freeCtr, .journal] ⊆ ks) (h : Only ks s x) :
    Only ks s (State.sealMirror c x) := by
  unfold State.sealMirror
  repeat' first
    | with_reducible assumption
    | with_reducible apply State.takeFree_only
    | with_reducible apply State.mirrorTimeout_only
    | refine only_of_eq (by assumption) ?_
    | exact subset_of (by decide) hk
    | ((try lift_lets); intro y; first | (refine (fun (_ : Only ks s y) => ?_) ?_; (on_goal 1 => clear_value y); (on_goal 2 => subst y)) | (refine (fun (_ : Only ks s y.2) => ?_) ?_; (on_goal 1 => clear_value y); (on_goal 2 => subst y)) | clear_value y | skip)
    | split

theorem State.sealCommit_only {ks : List Part} {s x : State} (hk : [.out, .freeCtr, .pcie, .cqs, .cmds, .log, .tm, .job, .run, .snap, .journal] ⊆ ks) (h : Only ks s x) :
    Only ks s (State.sealCommit x) := by
  unfold State.sealCommit
  repeat' first
    | with_reducible assumption
    | with_reducible apply State.appendOwn_only
    | with_reducible apply State.sealMirror_only
    | with_reducible apply modJournal_only
    | with_reducible apply State.snapshotDone_only
    | with_reducible apply State.countTensors_only
    | with_reducible apply State.countStep_only
    | with_reducible apply State.advance_only
    | exact subset_of (by decide) hk
    | ((try lift_lets); intro y; first | (refine (fun (_ : Only ks s y) => ?_) ?_; (on_goal 1 => clear_value y); (on_goal 2 => subst y)) | clear_value y | skip)
    | split

theorem State.powerFail_only {ks : List Part} {s x : State} (mv : Nat) (hk : [.out, .freeCtr, .power, .boot, .pcie, .cqs, .cmds, .log, .tm, .job, .mem, .run, .stalls, .quays, .snap, .journal, .harbour, .ports, .test] ⊆ ks) (h : Only ks s x) :
    Only ks s (State.powerFail mv x) := by
  unfold State.powerFail
  repeat' first
    | with_reducible assumption
    | with_reducible apply State.abandonAttempt_only
    | with_reducible apply State.sealCommit_only
    | with_reducible apply State.sendFault_only
    | with_reducible apply State.powerFailRecord_only
    | with_reducible apply State.enterFaulted_only
    | exact subset_of (by decide) hk
    | ((try lift_lets); intro y; first | (refine (fun (_ : Only ks s y) => ?_) ?_; (on_goal 1 => clear_value y); (on_goal 2 => subst y)) | clear_value y | skip)
    | split

end Sys2Proof.Machine
end

