-- ==== Sys2Proof/Laws/OnlyCmds.lean ====
section
/-! SUPPORT. Which parts of the state the operations of Machine/QueueCmds, RegCmds, ResetCmds, HostCmds, PowerCmds, HarbourCmds, SurvivalCmds, QuayCmds, TideCmds, RunCmds, Idle can change: one law for each operation. -/

namespace Sys2Proof.Machine

/-! ## Machine/QueueCmds.lean -/

theorem State.ringTail_only {ks : List Part} {s x : State} (q value : Nat) (placed : List Placed) (hk : [.out, .pcie, .sqs, .cqs, .sqTurn, .cmds, .log, .tm] ⊆ ks) (h : Only ks s x) :
    Only ks s (State.ringTail q value placed x) := by
  unfold State.ringTail
  repeat' first
    | with_reducible assumption
    | with_reducible apply State.violation_only
    | with_reducible apply setSq_only
    | with_reducible apply State.fetch_only
    | exact subset_of (by decide) hk
    | split

theorem State.ringHead_only {ks : List Part} {s x : State} (q value : Nat) (hk : [.out, .pcie, .sqs, .cqs, .sqTurn, .cmds, .log, .tm] ⊆ ks) (h : Only ks s x) :
    Only ks s (State.ringHead q value x) := by
  unfold State.ringHead
  repeat' first
    | with_reducible assumption
    | with_reducible apply State.violation_only
    | with_reducible apply setCq_only
    | with_reducible apply State.fetch_only
    | exact subset_of (by decide) hk
    | ((try lift_lets); intro y; first | (refine (fun (_ : Only ks s y) => ?_) ?_; (on_goal 1 => clear_value y); (on_goal 2 => subst y)) | clear_value y | skip)
    | split

theorem State.requestPosted_only {ks : List Part} {s x : State} (e : Entry) (hk : [.run] ⊆ ks) (h : Only ks s x) :
    Only ks s (State.requestPosted e x) := by
  unfold State.requestPosted
  repeat' first
    | with_reducible assumption
    | with_reducible apply modRun_only
    | exact subset_of (by decide) hk
    | split

theorem State.postHeld_only {ks : List Part} {s x : State} (q : Nat) (hk : [.out, .boot, .pcie, .sqs, .cqs, .sqTurn, .cmds, .log, .tm, .run, .stalls, .harbour, .test] ⊆ ks) (h : Only ks s x) :
    Only ks s (State.postHeld q x) := by
  unfold State.postHeld
  repeat' first
    | with_reducible assumption
    | with_reducible apply State.rest_only
    | with_reducible apply setCq_only
    | with_reducible apply State.write_only
    | with_reducible apply State.requestPosted_only
    | with_reducible apply State.fetch_only
    | exact subset_of (by decide) hk
    | split

theorem State.queueRefused_only {ks : List Part} {s x : State} (sub : Bool) (q k : Nat) (hk : [.out, .pcie, .log, .tm] ⊆ ks) (h : Only ks s x) :
    Only ks s (State.queueRefused sub q k x) := by
  unfold State.queueRefused
  repeat' first
    | with_reducible assumption
    | with_reducible apply State.violation_only

theorem State.sqCtrl_only {ks : List Part} {s x : State} (q : Nat) (enable : Bool) (cq log2 : Nat) (hk : [.out, .pcie, .sqs, .log, .tm] ⊆ ks) (h : Only ks s x) :
    Only ks s (State.sqCtrl q enable cq log2 x) := by
  unfold State.sqCtrl
  repeat' first
    | with_reducible assumption
    | with_reducible apply setSq_only
    | with_reducible apply State.queueRefused_only
    | exact subset_of (by decide) hk
    | ((try lift_lets); intro y; first | (refine (fun (_ : Only ks s y) => ?_) ?_; (on_goal 1 => clear_value y); (on_goal 2 => subst y)) | clear_value y | skip)
    | split

theorem State.loseEntries_only {ks : List Part} {s x : State} (q : Nat) (hk : [.out, .pcie, .cmds, .log, .tm] ⊆ ks) (h : Only ks s x) :
    Only ks s (State.loseEntries q x) := by
  unfold State.loseEntries
  repeat' first
    | with_reducible assumption
    | with_reducible apply State.violation_only
    | with_reducible apply modCmds_only
    | (with_reducible apply foldl_only; on_goal 2 => intros)
    | exact subset_of (by decide) hk

theorem State.cqCtrl_only {ks : List Part} {s x : State} (q : Nat) (enable intEnable : Bool) (vector log2 : Nat) (hk : [.out, .pcie, .sqs, .cqs, .sqTurn, .cmds, .log, .tm] ⊆ ks) (h : Only ks s x) :
    Only ks s (State.cqCtrl q enable intEnable vector log2 x) := by
  unfold State.cqCtrl
  repeat' first
    | with_reducible assumption
    | with_reducible apply setCq_only
    | with_reducible apply State.loseEntries_only
    | with_reducible apply State.queueRefused_only
    | with_reducible apply State.fetch_only
    | exact subset_of (by decide) hk
    | ((try lift_lets); intro y; first | (refine (fun (_ : Only ks s y) => ?_) ?_; (on_goal 1 => clear_value y); (on_goal 2 => subst y)) | clear_value y | skip)
    | split

theorem State.sqBase_only {ks : List Part} {s x : State} (q addr : Nat) (hk : [.out, .pcie, .sqs, .log, .tm] ⊆ ks) (h : Only ks s x) :
    Only ks s (State.sqBase q addr x) := by
  unfold State.sqBase
  repeat' first
    | with_reducible assumption
    | with_reducible apply State.queueRefused_only
    | with_reducible apply setSq_only
    | exact subset_of (by decide) hk
    | split

theorem State.cqBase_only {ks : List Part} {s x : State} (q addr : Nat) (hk : [.out, .pcie, .cqs, .log, .tm] ⊆ ks) (h : Only ks s x) :
    Only ks s (State.cqBase q addr x) := by
  unfold State.cqBase
  repeat' first
    | with_reducible assumption
    | with_reducible apply State.queueRefused_only
    | with_reducible apply setCq_only
    | exact subset_of (by decide) hk
    | split

/-! ## Machine/RegCmds.lean -/

theorem State.evAck_only {ks : List Part} {s x : State} (seq : Nat) (hk : [.out, .pcie, .log] ⊆ ks) (h : Only ks s x) :
    Only ks s (State.evAck seq x) := by
  unfold State.evAck
  repeat' first
    | with_reducible assumption
    | with_reducible apply modLog_only
    | with_reducible apply State.msix_only
    | exact subset_of (by decide) hk
    | ((try lift_lets); intro y; first | (refine (fun (_ : Only ks s y) => ?_) ?_; (on_goal 1 => clear_value y); (on_goal 2 => subst y)) | clear_value y | skip)
    | split

theorem State.evCtrl_only {ks : List Part} {s x : State} (intEn : Bool) (vector : Nat) (alertMask : BitVec 9) (hk : [.log] ⊆ ks) (h : Only ks s x) :
    Only ks s (State.evCtrl intEn vector alertMask x) := by
  unfold State.evCtrl
  repeat' first
    | with_reducible assumption
    | with_reducible apply modLog_only

theorem State.clearSats_only {ks : List Part} {s x : State} (o size mask : Nat) (hk : [.tm] ⊆ ks) (h : Only ks s x) :
    Only ks s (State.clearSats o size mask x) := by
  unfold State.clearSats
  repeat' first
    | with_reducible assumption
    | with_reducible apply modTm_only
    | (with_reducible apply foldl_only; on_goal 2 => intros)
    | exact subset_of (by decide) hk
    | ((try lift_lets); intro y; first | (refine (fun (_ : Only ks s y) => ?_) ?_; (on_goal 1 => clear_value y); (on_goal 2 => subst y)) | clear_value y | skip)
    | split

theorem State.freeze_only {ks : List Part} {s x : State} (hk : [.tm] ⊆ ks) (h : Only ks s x) :
    Only ks s (State.freeze x) := by
  unfold State.freeze
  repeat' first
    | with_reducible assumption
    | with_reducible apply modTm_only
    | exact subset_of (by decide) hk
    | split

theorem State.unfreeze_only {ks : List Part} {s x : State} (hk : [.tm] ⊆ ks) (h : Only ks s x) :
    Only ks s (State.unfreeze x) := by
  unfold State.unfreeze
  repeat' first
    | with_reducible assumption
    | with_reducible apply modTm_only

theorem State.sendPending_only {ks : List Part} {s x : State} (v : Nat) (hk : [.out, .pcie] ⊆ ks) (h : Only ks s x) :
    Only ks s (State.sendPending v x) := by
  unfold State.sendPending
  repeat' first
    | with_reducible assumption
    | with_reducible apply State.msix_only
    | with_reducible apply modPcie_only
    | exact subset_of (by decide) hk
    | split

theorem State.unmask_only {ks : List Part} {s x : State} (v : Nat) (hk : [.out, .pcie] ⊆ ks) (h : Only ks s x) :
    Only ks s (State.unmask v x) := by
  unfold State.unmask
  repeat' first
    | with_reducible assumption
    | with_reducible apply modPcie_only
    | with_reducible apply State.msix_only
    | with_reducible apply State.sendPending_only
    | exact subset_of (by decide) hk

theorem State.bwWrite_only {ks : List Part} {s x : State} (v : Nat) (hk : [.pcie] ⊆ ks) (h : Only ks s x) :
    Only ks s (State.bwWrite v x) := by
  unfold State.bwWrite
  repeat' first
    | with_reducible assumption
    | with_reducible apply modPcie_only

theorem State.bar0Load_only {ks : List Part} {s x : State} (o size : Nat) (hk : [.out, .pcie, .log, .tm] ⊆ ks) (h : Only ks s x) :
    Only ks s (State.bar0Load o size x).2 := by
  unfold State.bar0Load
  repeat' first
    | with_reducible assumption
    | with_reducible apply State.violation_only
    | exact subset_of (by decide) hk
    | split

theorem State.bwRead_only {ks : List Part} {s x : State} (hk : [.out, .pcie, .log, .tm] ⊆ ks) (h : Only ks s x) :
    Only ks s (State.bwRead x) := by
  unfold State.bwRead
  repeat' first
    | with_reducible assumption
    | with_reducible apply State.bar0Load_only
    | with_reducible apply emit_only
    | with_reducible apply modPcie_only
    | refine only_of_eq (by assumption) ?_
    | exact subset_of (by decide) hk

theorem State.windowUsed_only {ks : List Part} {s x : State} (hk : [.freeCtr] ⊆ ks) (h : Only ks s x) :
    Only ks s (State.windowUsed x) := by
  unfold State.windowUsed
  repeat' first
    | with_reducible assumption
    | with_reducible apply State.takeFree_only
    | refine only_of_eq (by assumption) ?_
    | exact subset_of (by decide) hk
    | split

theorem State.writeHm_only {ks : List Part} {s x : State} (o size value : Nat) (hk : [.out, .freeCtr, .power, .boot, .pcie, .sqs, .cqs, .sqTurn, .cmds, .log, .tm, .job, .mem, .run, .stalls, .quays, .snap, .journal, .harbour, .ports, .test] ⊆ ks) (h : Only ks s x) :
    Only ks s (State.writeHm o size value x) := by
  unfold State.writeHm
  repeat' first
    | with_reducible assumption
    | with_reducible apply State.freeze_only
    | with_reducible apply State.unfreeze_only
    | with_reducible apply State.requestReset_only
    | exact subset_of (by decide) hk
    | ((try lift_lets); intro y; first | (refine (fun (_ : Only ks s y) => ?_) ?_; (on_goal 1 => clear_value y); (on_goal 2 => subst y)) | clear_value y | skip)
    | split

theorem State.writeMsix_only {ks : List Part} {s x : State} (o size value : Nat) (hk : [.out, .pcie] ⊆ ks) (h : Only ks s x) :
    Only ks s (State.writeMsix o size value x) := by
  unfold State.writeMsix
  repeat' first
    | with_reducible assumption
    | with_reducible apply State.msix_only
    | with_reducible apply modPcie_only
    | with_reducible apply State.sendPending_only
    | exact subset_of (by decide) hk

theorem State.writeQueue_only {ks : List Part} {s x : State} (o size value : Nat) (hk : [.out, .pcie, .sqs, .cqs, .sqTurn, .cmds, .log, .tm] ⊆ ks) (h : Only ks s x) :
    Only ks s (State.writeQueue o size value x) := by
  unfold State.writeQueue
  repeat' first
    | with_reducible assumption
    | with_reducible apply State.sqBase_only
    | with_reducible apply State.cqBase_only
    | with_reducible apply State.sqCtrl_only
    | with_reducible apply State.cqCtrl_only
    | exact subset_of (by decide) hk
    | ((try lift_lets); intro y; first | (refine (fun (_ : Only ks s y) => ?_) ?_; (on_goal 1 => clear_value y); (on_goal 2 => subst y)) | clear_value y | skip)
    | split

theorem State.writeReg_only {ks : List Part} {s x : State} (o size value : Nat) (hk : [.out, .freeCtr, .power, .boot, .pcie, .sqs, .cqs, .sqTurn, .cmds, .log, .tm, .job, .mem, .run, .stalls, .quays, .snap, .journal, .harbour, .ports, .test] ⊆ ks) (h : Only ks s x) :
    Only ks s (State.writeReg o size value x) := by
  unfold State.writeReg
  repeat' first
    | with_reducible assumption
    | with_reducible apply State.writeHm_only
    | with_reducible apply State.evCtrl_only
    | with_reducible apply State.evAck_only
    | with_reducible apply State.clearSats_only
    | with_reducible apply State.ringHead_only
    | with_reducible apply State.writeMsix_only
    | with_reducible apply State.writeQueue_only
    | with_reducible apply modSnap_only
    | with_reducible apply State.bwWrite_only
    | exact subset_of (by decide) hk
    | ((try lift_lets); intro y; first | (refine (fun (_ : Only ks s y) => ?_) ?_; (on_goal 1 => clear_value y); (on_goal 2 => subst y)) | clear_value y | skip)
    | split

theorem State.bar0Write_only {ks : List Part} {s x : State} (o size value : Nat) (hk : [.out, .freeCtr, .power, .boot, .pcie, .sqs, .cqs, .sqTurn, .cmds, .log, .tm, .job, .mem, .run, .stalls, .quays, .snap, .journal, .harbour, .ports, .test] ⊆ ks) (h : Only ks s x) :
    Only ks s (State.bar0Write o size value x) := by
  unfold State.bar0Write
  repeat' first
    | with_reducible assumption
    | with_reducible apply State.writeReg_only
    | with_reducible apply State.violation_only
    | exact subset_of (by decide) hk
    | split

theorem State.bar2Refused_only {ks : List Part} {s x : State} (a : Nat) (hk : [.out, .pcie, .log, .tm] ⊆ ks) (h : Only ks s x) :
    Only ks s (State.bar2Refused a x) := by
  unfold State.bar2Refused
  repeat' first
    | with_reducible assumption
    | with_reducible apply modPcie_only
    | with_reducible apply State.violation_only
    | exact subset_of (by decide) hk

theorem State.bar2Read_only {ks : List Part} {s x : State} (o n : Nat) (hits : List ScrubHit) (hk : [.out, .freeCtr, .power, .boot, .pcie, .cqs, .cmds, .log, .tm, .mem, .run, .stalls, .quays, .snap, .journal, .harbour, .ports, .test] ⊆ ks) (h : Only ks s x) :
    Only ks s (State.bar2Read o n hits x) := by
  unfold State.bar2Read
  repeat' first
    | with_reducible assumption
    | with_reducible apply State.windowUsed_only
    | with_reducible apply emit_only
    | with_reducible apply State.bar2Refused_only
    | with_reducible apply State.eccLines_only
    | exact subset_of (by decide) hk
    | ((try lift_lets); intro y; first | (refine (fun (_ : Only ks s y) => ?_) ?_; (on_goal 1 => clear_value y); (on_goal 2 => subst y)) | clear_value y | skip)
    | split

theorem State.hostImport_only {ks : List Part} {s x : State} (a n : Nat) (hk : [.out, .pcie, .log, .tm, .job] ⊆ ks) (h : Only ks s x) :
    Only ks s (State.hostImport a n x) := by
  unfold State.hostImport
  repeat' first
    | with_reducible assumption
    | with_reducible apply modJob_only
    | with_reducible apply State.raiseModule_only
    | exact subset_of (by decide) hk
    | split

theorem State.bar2Write_only {ks : List Part} {s x : State} (o : Nat) (d : Bytes) (hk : [.out, .freeCtr, .pcie, .log, .tm, .job, .mem, .run, .quays, .snap] ⊆ ks) (h : Only ks s x) :
    Only ks s (State.bar2Write o d x) := by
  unfold State.bar2Write
  repeat' first
    | with_reducible assumption
    | with_reducible apply State.windowUsed_only
    | with_reducible apply State.bar2Refused_only
    | with_reducible apply State.memWrite_only
    | with_reducible apply State.hostImport_only
    | exact subset_of (by decide) hk
    | ((try lift_lets); intro y; first | (refine (fun (_ : Only ks s y) => ?_) ?_; (on_goal 1 => clear_value y); (on_goal 2 => subst y)) | clear_value y | skip)
    | split

theorem State.doe_only {ks : List Part} {s x : State} (object : Nat) (b : Bytes) (hk : [.out] ⊆ ks) (h : Only ks s x) :
    Only ks s (State.doe object b x) := by
  unfold State.doe
  repeat' first
    | with_reducible assumption
    | with_reducible apply emit_only
    | exact subset_of (by decide) hk
    | split

theorem State.dmaAbort_only {ks : List Part} {s x : State} (sq cid addr : Nat) (hk : [.out, .boot, .pcie, .cqs, .cmds, .log, .tm, .mem, .run, .stalls, .quays, .snap, .harbour, .test] ⊆ ks) (h : Only ks s x) :
    Only ks s (State.dmaAbort sq cid addr x) := by
  unfold State.dmaAbort
  repeat' first
    | with_reducible assumption
    | with_reducible apply State.violation_only
    | with_reducible apply State.abandonAttempt_only
    | with_reducible apply State.rest_only
    | with_reducible apply State.finishCmd_only
    | with_reducible apply State.abandonSnapshot_only
    | with_reducible apply modRun_only
    | exact subset_of (by decide) hk
    | ((try lift_lets); intro y; first | (refine (fun (_ : Only ks s y) => ?_) ?_; (on_goal 1 => clear_value y); (on_goal 2 => subst y)) | clear_value y | skip)
    | split

theorem State.dmaBatch_only {ks : List Part} {s x : State} (step group addr : Nat) (hk : [.out, .pcie, .log, .tm, .job, .run] ⊆ ks) (h : Only ks s x) :
    Only ks s (State.dmaBatch step group addr x) := by
  unfold State.dmaBatch
  repeat' first
    | with_reducible assumption
    | with_reducible apply State.violation_only
    | with_reducible apply modJob_only
    | with_reducible apply modRun_only
    | exact subset_of (by decide) hk
    | ((try lift_lets); intro y; first | (refine (fun (_ : Only ks s y) => ?_) ?_; (on_goal 1 => clear_value y); (on_goal 2 => subst y)) | clear_value y | skip)
    | split

/-! ## Machine/ResetCmds.lean -/

theorem State.resetNLow_only {ks : List Part} {s x : State} (hk : [.out, .freeCtr, .power, .boot, .pcie, .sqs, .cqs, .sqTurn, .cmds, .log, .tm, .job, .mem, .run, .stalls, .quays, .snap, .journal, .harbour, .ports, .test] ⊆ ks) (h : Only ks s x) :
    Only ks s (State.resetNLow x) := by
  unfold State.resetNLow
  repeat' first
    | with_reducible assumption
    | with_reducible apply modPower_only
    | with_reducible apply State.requestReset_only
    | exact subset_of (by decide) hk
    | ((try lift_lets); intro y; first | (refine (fun (_ : Only ks s y) => ?_) ?_; (on_goal 1 => clear_value y); (on_goal 2 => subst y)) | clear_value y | skip)
    | split

theorem State.resetNRelease_only {ks : List Part} {s x : State} (failed : List Nat) (hk : [.out, .freeCtr, .power, .boot, .pcie, .log, .tm, .stalls, .test] ⊆ ks) (h : Only ks s x) :
    Only ks s (State.resetNRelease failed x) := by
  unfold State.resetNRelease
  repeat' first
    | with_reducible assumption
    | with_reducible apply modPower_only
    | with_reducible apply State.finishBoot_only
    | exact subset_of (by decide) hk
    | ((try lift_lets); intro y; first | (refine (fun (_ : Only ks s y) => ?_) ?_; (on_goal 1 => clear_value y); (on_goal 2 => subst y)) | clear_value y | skip)
    | split

theorem State.busMasterOff_only {ks : List Part} {s x : State} (hk : [.out, .freeCtr, .power, .boot, .pcie, .sqs, .cqs, .sqTurn, .cmds, .log, .tm, .job, .mem, .run, .stalls, .quays, .snap, .journal, .harbour, .ports, .test] ⊆ ks) (h : Only ks s x) :
    Only ks s (State.busMasterOff x) := by
  unfold State.busMasterOff
  repeat' first
    | with_reducible assumption
    | with_reducible apply State.hostGone_only
    | with_reducible apply State.settleReset_only
    | exact subset_of (by decide) hk
    | split

theorem State.busMasterOn_only {ks : List Part} {s x : State} (hk : [.out, .pcie] ⊆ ks) (h : Only ks s x) :
    Only ks s (State.busMasterOn x) := by
  unfold State.busMasterOn
  repeat' first
    | with_reducible assumption
    | with_reducible apply State.sendPending_only
    | with_reducible apply modPcie_only
    | (with_reducible apply foldl_only; on_goal 2 => intros)
    | exact subset_of (by decide) hk
    | split

theorem State.flr_only {ks : List Part} {s x : State} (hk : [.out, .freeCtr, .power, .boot, .pcie, .sqs, .cqs, .sqTurn, .cmds, .log, .tm, .job, .mem, .run, .stalls, .quays, .snap, .journal, .harbour, .ports, .test] ⊆ ks) (h : Only ks s x) :
    Only ks s (State.flr x) := by
  unfold State.flr
  repeat' first
    | with_reducible assumption
    | with_reducible apply State.functionReset_only
    | with_reducible apply State.settleReset_only
    | exact subset_of (by decide) hk
    | split

theorem State.perstOn_only {ks : List Part} {s x : State} (hk : [.out, .freeCtr, .power, .boot, .pcie, .sqs, .cqs, .sqTurn, .cmds, .log, .tm, .job, .mem, .run, .stalls, .quays, .snap, .journal, .harbour, .ports, .test] ⊆ ks) (h : Only ks s x) :
    Only ks s (State.perstOn x) := by
  unfold State.perstOn
  repeat' first
    | with_reducible assumption
    | with_reducible apply modPcie_only
    | with_reducible apply State.hostGone_only
    | with_reducible apply State.resetQueues_only
    | with_reducible apply State.settleReset_only
    | exact subset_of (by decide) hk
    | ((try lift_lets); intro y; first | (refine (fun (_ : Only ks s y) => ?_) ?_; (on_goal 1 => clear_value y); (on_goal 2 => subst y)) | clear_value y | skip)
    | split

theorem State.perstOff_only {ks : List Part} {s x : State} (hk : [.freeCtr, .pcie] ⊆ ks) (h : Only ks s x) :
    Only ks s (State.perstOff x) := by
  unfold State.perstOff
  repeat' first
    | with_reducible assumption
    | with_reducible apply modPcie_only
    | with_reducible apply State.trainLink_only
    | exact subset_of (by decide) hk
    | ((try lift_lets); intro y; first | (refine (fun (_ : Only ks s y) => ?_) ?_; (on_goal 1 => clear_value y); (on_goal 2 => subst y)) | clear_value y | skip)
    | split

/-! ## Machine/HostCmds.lean -/

theorem State.markStarted_only {ks : List Part} {s x : State} (c : Cmd) (hk : [.cmds] ⊆ ks) (h : Only ks s x) :
    Only ks s (State.markStarted c x) := by
  unfold State.markStarted
  repeat' first
    | with_reducible assumption
    | with_reducible apply State.setCmd_only

theorem State.identify_only {ks : List Part} {s x : State} (c : Cmd) (hk : [.out, .pcie, .cqs, .cmds, .log, .tm] ⊆ ks) (h : Only ks s x) :
    Only ks s (State.identify c x) := by
  unfold State.identify
  repeat' first
    | with_reducible assumption
    | with_reducible apply State.toHost_only
    | with_reducible apply State.finishCmd_only
    | exact subset_of (by decide) hk

theorem State.sampleTelemetry_only {ks : List Part} {s x : State} (c : Cmd) (hk : [.out, .pcie, .cqs, .cmds, .log, .tm] ⊆ ks) (h : Only ks s x) :
    Only ks s (State.sampleTelemetry c x) := by
  unfold State.sampleTelemetry
  repeat' first
    | with_reducible assumption
    | with_reducible apply State.toHost_only
    | with_reducible apply State.finishCmd_only
    | exact subset_of (by decide) hk

theorem State.attest_only {ks : List Part} {s x : State} (c : Cmd) (hk : [.out, .pcie, .cqs, .cmds, .log, .tm] ⊆ ks) (h : Only ks s x) :
    Only ks s (State.attest c x) := by
  unfold State.attest
  repeat' first
    | with_reducible assumption
    | with_reducible apply State.toHost_only
    | with_reducible apply State.finishCmd_only
    | exact subset_of (by decide) hk

theorem State.exportJournal_only {ks : List Part} {s x : State} (c : Cmd) (hk : [.out, .pcie, .cqs, .cmds, .log, .tm] ⊆ ks) (h : Only ks s x) :
    Only ks s (State.exportJournal c x) := by
  unfold State.exportJournal
  repeat' first
    | with_reducible assumption
    | with_reducible apply State.toHost_only
    | with_reducible apply State.finishCmd_only
    | exact subset_of (by decide) hk

theorem State.retain_only {ks : List Part} {s x : State} (c : Cmd) (d : Bytes) (hk : [.out, .pcie, .cqs, .cmds, .log, .tm, .job, .run] ⊆ ks) (h : Only ks s x) :
    Only ks s (State.retain c d x) := by
  unfold State.retain
  repeat' first
    | with_reducible assumption
    | with_reducible apply modJob_only
    | with_reducible apply State.endWait_only
    | with_reducible apply State.finishCmd_only
    | exact subset_of (by decide) hk
    | ((try lift_lets); intro y; first | (refine (fun (_ : Only ks s y) => ?_) ?_; (on_goal 1 => clear_value y); (on_goal 2 => subst y)) | clear_value y | skip)
    | split

theorem State.feedBatch_only {ks : List Part} {s x : State} (c : Cmd) (data : Bytes) (hk : [.out, .pcie, .cqs, .cmds, .log, .tm, .job, .run] ⊆ ks) (h : Only ks s x) :
    Only ks s (State.feedBatch c data x) := by
  unfold State.feedBatch
  repeat' first
    | with_reducible assumption
    | with_reducible apply State.finishCmd_only
    | with_reducible apply State.retain_only
    | exact subset_of (by decide) hk
    | ((try lift_lets); intro y; first | (refine (fun (_ : Only ks s y) => ?_) ?_; (on_goal 1 => clear_value y); (on_goal 2 => subst y)) | clear_value y | skip)
    | split

theorem State.feedResult_only {ks : List Part} {s x : State} (c : Cmd) (data : Bytes) (hk : [.out, .freeCtr, .power, .boot, .pcie, .cqs, .cmds, .log, .tm, .job, .mem, .run, .stalls, .quays, .snap, .journal, .harbour, .ports, .test] ⊆ ks) (h : Only ks s x) :
    Only ks s (State.feedResult c data x) := by
  unfold State.feedResult
  repeat' first
    | with_reducible assumption
    | with_reducible apply State.hostResult_only
    | with_reducible apply State.finishCmd_only
    | exact subset_of (by decide) hk
    | ((try lift_lets); intro y; first | (refine (fun (_ : Only ks s y) => ?_) ?_; (on_goal 1 => clear_value y); (on_goal 2 => subst y)) | clear_value y | skip)
    | split

theorem State.runSteps_only {ks : List Part} {s x : State} (c : Cmd) (hk : [.out, .freeCtr, .power, .boot, .pcie, .cqs, .cmds, .log, .tm, .job, .mem, .run, .stalls, .quays, .snap, .journal, .harbour, .ports, .test] ⊆ ks) (h : Only ks s x) :
    Only ks s (State.runSteps c x) := by
  unfold State.runSteps
  repeat' first
    | with_reducible assumption
    | with_reducible apply State.finishCmd_only
    | with_reducible apply State.startRun_only
    | exact subset_of (by decide) hk
    | split

theorem State.startServing_only {ks : List Part} {s x : State} (t : Table) (hk : [.out, .boot, .pcie, .log, .tm, .job, .run] ⊆ ks) (h : Only ks s x) :
    Only ks s (State.startServing t x) := by
  unfold State.startServing
  repeat' first
    | with_reducible assumption
    | with_reducible apply modRun_only
    | with_reducible apply State.enter_only
    | with_reducible apply State.passBarriers_only
    | with_reducible apply State.capThrottleEvent_only
    | exact subset_of (by decide) hk
    | ((try lift_lets); intro y; first | (refine (fun (_ : Only ks s y) => ?_) ?_; (on_goal 1 => clear_value y); (on_goal 2 => subst y)) | clear_value y | skip)
    | split

theorem State.serve_only {ks : List Part} {s x : State} (c : Cmd) (prompt : Bytes) (hk : [.out, .boot, .pcie, .cqs, .cmds, .log, .tm, .job, .run] ⊆ ks) (h : Only ks s x) :
    Only ks s (State.serve c prompt x) := by
  unfold State.serve
  repeat' first
    | with_reducible assumption
    | with_reducible apply State.finishCmd_only
    | with_reducible apply State.startServing_only
    | with_reducible apply State.markStarted_only
    | with_reducible apply modRun_only
    | exact subset_of (by decide) hk
    | ((try lift_lets); intro y; first | (refine (fun (_ : Only ks s y) => ?_) ?_; (on_goal 1 => clear_value y); (on_goal 2 => subst y)) | clear_value y | skip)
    | split

theorem State.halt_only {ks : List Part} {s x : State} (c : Cmd) (hk : [.out, .pcie, .cqs, .cmds, .log, .tm] ⊆ ks) (h : Only ks s x) :
    Only ks s (State.halt c x) := by
  unfold State.halt
  repeat' first
    | with_reducible assumption
    | with_reducible apply State.markStarted_only
    | with_reducible apply State.finishHalts_only
    | exact subset_of (by decide) hk
    | split

theorem State.askSnapshot_only {ks : List Part} {s x : State} (c : Cmd) (hk : [.out, .pcie, .cqs, .cmds, .log, .tm, .snap] ⊆ ks) (h : Only ks s x) :
    Only ks s (State.askSnapshot c x) := by
  unfold State.askSnapshot
  repeat' first
    | with_reducible assumption
    | with_reducible apply State.finishCmd_only
    | with_reducible apply State.markStarted_only
    | with_reducible apply modSnap_only
    | exact subset_of (by decide) hk
    | split

theorem State.load_only {ks : List Part} {s x : State} (c : Cmd) (data : Bytes) (hk : [.out, .freeCtr, .power, .boot, .pcie, .cqs, .cmds, .log, .tm, .job, .mem, .run, .stalls, .quays, .snap, .journal, .harbour, .ports, .test] ⊆ ks) (h : Only ks s x) :
    Only ks s (State.load c data x) := by
  unfold State.load
  repeat' first
    | with_reducible assumption
    | with_reducible apply State.finishCmd_only
    | with_reducible apply State.loadTable_only
    | exact subset_of (by decide) hk
    | split

theorem State.dropJobCmds_only {ks : List Part} {s x : State} (hk : [.out, .pcie, .cqs, .cmds, .log, .tm] ⊆ ks) (h : Only ks s x) :
    Only ks s (State.dropJobCmds x) := by
  unfold State.dropJobCmds
  repeat' first
    | with_reducible assumption
    | with_reducible apply State.finishHalts_only
    | with_reducible apply State.finishAll_only
    | with_reducible apply State.finishServes_only

theorem State.unloadTable_only {ks : List Part} {s x : State} (c : Cmd) (hk : [.out, .power, .boot, .pcie, .cqs, .cmds, .log, .tm, .job, .mem, .run, .stalls, .quays, .snap, .journal, .harbour, .ports, .test] ⊆ ks) (h : Only ks s x) :
    Only ks s (State.unloadTable c x) := by
  unfold State.unloadTable
  repeat' first
    | with_reducible assumption
    | with_reducible apply State.unload_only
    | with_reducible apply State.finishCmd_only
    | with_reducible apply State.dropJobCmds_only
    | exact subset_of (by decide) hk
    | split

theorem State.restoreWith_only {ks : List Part} {s x : State} (source : Nat) (c : Cmd) (f : Table → State → State) (h_f : ∀ a0 y, Only ks s y → Only ks s (f a0 y)) (hk : [.out, .pcie, .cqs, .cmds, .log, .tm] ⊆ ks) (h : Only ks s x) :
    Only ks s (State.restoreWith source c f x) := by
  unfold State.restoreWith
  repeat' first
    | with_reducible assumption
    | with_reducible apply h_f
    | with_reducible apply State.finishCmd_only
    | with_reducible apply State.markStarted_only
    | exact subset_of (by decide) hk
    | split

theorem State.joinCmd_only {ks : List Part} {s x : State} (c : Cmd) (block : Bytes) (hk : [.out, .freeCtr, .power, .pcie, .cqs, .cmds, .log, .tm, .stalls, .harbour, .ports] ⊆ ks) (h : Only ks s x) :
    Only ks s (State.joinCmd c block x) := by
  unfold State.joinCmd
  repeat' first
    | with_reducible assumption
    | with_reducible apply State.finishCmd_only
    | with_reducible apply State.markStarted_only
    | with_reducible apply State.joinHarbour_only
    | exact subset_of (by decide) hk
    | split

theorem State.leaveCmd_only {ks : List Part} {s x : State} (c : Cmd) (hk : [.out, .power, .boot, .pcie, .cqs, .cmds, .log, .tm, .stalls, .harbour, .ports] ⊆ ks) (h : Only ks s x) :
    Only ks s (State.leaveCmd c x) := by
  unfold State.leaveCmd
  repeat' first
    | with_reducible assumption
    | with_reducible apply State.leaveHarbour_only
    | with_reducible apply State.finishCmd_only
    | exact subset_of (by decide) hk
    | split

theorem State.testCmd_only {ks : List Part} {s x : State} (c : Cmd) (hk : [.out, .power, .boot, .pcie, .cqs, .cmds, .log, .tm, .stalls, .test] ⊆ ks) (h : Only ks s x) :
    Only ks s (State.testCmd c x) := by
  unfold State.testCmd
  repeat' first
    | with_reducible assumption
    | with_reducible apply State.finishCmd_only
    | with_reducible apply State.runTest_only
    | exact subset_of (by decide) hk
    | split

theorem State.applyCap_only {ks : List Part} {s x : State} (w : Nat) (hk : [.out, .power, .pcie, .log, .tm, .stalls] ⊆ ks) (h : Only ks s x) :
    Only ks s (State.applyCap w x) := by
  unfold State.applyCap
  repeat' first
    | with_reducible assumption
    | with_reducible apply State.capChanged_only
    | with_reducible apply modPower_only
    | exact subset_of (by decide) hk
    | refine fun (_ : State) (_ : Only ks s _) => ?_

theorem State.setPowerCap_only {ks : List Part} {s x : State} (c : Cmd) (hk : [.out, .power, .pcie, .cqs, .cmds, .log, .tm, .stalls] ⊆ ks) (h : Only ks s x) :
    Only ks s (State.setPowerCap c x) := by
  unfold State.setPowerCap
  repeat' first
    | with_reducible assumption
    | with_reducible apply State.finishAll_only
    | with_reducible apply State.markStarted_only
    | with_reducible apply modPower_only
    | with_reducible apply State.applyCap_only
    | with_reducible apply State.finishCmd_only
    | exact subset_of (by decide) hk
    | ((try lift_lets); intro y; first | (refine (fun (_ : Only ks s y) => ?_) ?_; (on_goal 1 => clear_value y); (on_goal 2 => subst y)) | clear_value y | skip)
    | split

/-! ## Machine/PowerCmds.lean -/

theorem State.setInput_only {ks : List Part} {s x : State} (mv : Nat) (hk : [.power] ⊆ ks) (h : Only ks s x) :
    Only ks s (State.setInput mv x) := by
  unfold State.setInput
  repeat' first
    | with_reducible assumption
    | with_reducible apply modPower_only

theorem State.powerUp_only {ks : List Part} {s x : State} (mv straps : Nat) (hk : [.usec, .power, .boot, .pcie, .sqs, .cqs, .sqTurn, .cmds, .log, .tm, .job, .mem, .run, .stalls, .quays, .snap, .journal, .harbour, .ports, .test] ⊆ ks) (h : Only ks s x) : Only ks s (State.powerUp mv straps x) := by
  unfold State.powerUp
  split
  · exact h
  · exact modPcie_only _ (subset_of (by decide) hk) (modPower_only _ (subset_of (by decide) hk) (setUsec_only 0 (subset_of (by decide) hk)
      (modMem_only (fun _ => Mem.reset) (subset_of (by decide) hk) (State.forget_only .standby standbyDomains (subset_of (by decide) hk) h))))

theorem State.powerDown_only {ks : List Part} {s x : State} (hk : [.usec, .power, .boot, .pcie, .sqs, .cqs, .sqTurn, .cmds, .log, .tm, .job, .mem, .run, .stalls, .quays, .snap, .journal, .harbour, .ports, .test] ⊆ ks) (h : Only ks s x) : Only ks s (State.powerDown x) := by
  unfold State.powerDown
  split
  · exact h
  · exact modPcie_only _ (subset_of (by decide) hk) (modPower_only _ (subset_of (by decide) hk) (setUsec_only 0 (subset_of (by decide) hk)
      (modMem_only (fun _ => Mem.reset) (subset_of (by decide) hk) (State.forget_only .standby 0 (subset_of (by decide) hk) h))))

theorem State.bootStart_only {ks : List Part} {s x : State} (mv : Nat) (failed : List Nat) (hk : [.out, .freeCtr, .power, .boot, .pcie, .sqs, .cqs, .sqTurn, .cmds, .log, .tm, .job, .mem, .run, .stalls, .quays, .snap, .journal, .harbour, .ports, .test] ⊆ ks) (h : Only ks s x) :
    Only ks s (State.bootStart mv failed x) := by
  unfold State.bootStart
  repeat' first
    | with_reducible assumption
    | with_reducible apply modPower_only
    | with_reducible apply State.startUp_only
    | exact subset_of (by decide) hk
    | split

theorem State.pwrEnLow_only {ks : List Part} {s x : State} (hk : [.out, .freeCtr, .power, .boot, .pcie, .sqs, .cqs, .sqTurn, .cmds, .log, .tm, .job, .mem, .run, .stalls, .quays, .snap, .journal, .harbour, .ports, .test] ⊆ ks) (h : Only ks s x) :
    Only ks s (State.pwrEnLow x) := by
  unfold State.pwrEnLow
  repeat' first
    | with_reducible assumption
    | with_reducible apply modPower_only
    | with_reducible apply State.powerFail_only
    | with_reducible apply State.toStandby_only
    | exact subset_of (by decide) hk
    | ((try lift_lets); intro y; first | (refine (fun (_ : Only ks s y) => ?_) ?_; (on_goal 1 => clear_value y); (on_goal 2 => subst y)) | clear_value y | skip)
    | split

theorem State.underVolt_only {ks : List Part} {s x : State} (mv : Nat) (hk : [.out, .freeCtr, .power, .boot, .pcie, .sqs, .cqs, .sqTurn, .cmds, .log, .tm, .job, .mem, .run, .stalls, .quays, .snap, .journal, .harbour, .ports, .test] ⊆ ks) (h : Only ks s x) :
    Only ks s (State.underVolt mv x) := by
  unfold State.underVolt
  repeat' first
    | with_reducible assumption
    | with_reducible apply modPower_only
    | with_reducible apply State.raiseModule_only
    | with_reducible apply State.powerFail_only
    | with_reducible apply State.settleReset_only
    | exact subset_of (by decide) hk
    | ((try lift_lets); intro y; first | (refine (fun (_ : Only ks s y) => ?_) ?_; (on_goal 1 => clear_value y); (on_goal 2 => subst y)) | clear_value y | skip)
    | split

theorem State.underVoltClear_only {ks : List Part} {s x : State} (mv : Nat) (hk : [.power] ⊆ ks) (h : Only ks s x) :
    Only ks s (State.underVoltClear mv x) := by
  unfold State.underVoltClear
  repeat' first
    | with_reducible assumption
    | with_reducible apply modPower_only
    | exact subset_of (by decide) hk
    | split

theorem State.lockout_only {ks : List Part} {s x : State} (mv : Nat) (hk : [.power, .boot, .pcie, .sqs, .cqs, .sqTurn, .cmds, .log, .tm, .job, .mem, .run, .stalls, .quays, .snap, .journal, .harbour, .ports, .test] ⊆ ks) (h : Only ks s x) :
    Only ks s (State.lockout mv x) := by
  unfold State.lockout
  repeat' first
    | with_reducible assumption
    | with_reducible apply State.setInput_only
    | with_reducible apply State.toStandby_only
    | exact subset_of (by decide) hk
    | split

theorem State.overVolt_only {ks : List Part} {s x : State} (mv : Nat) (hk : [.out, .freeCtr, .power, .boot, .pcie, .sqs, .cqs, .sqTurn, .cmds, .log, .tm, .job, .mem, .run, .stalls, .quays, .snap, .journal, .harbour, .ports, .test] ⊆ ks) (h : Only ks s x) :
    Only ks s (State.overVolt mv x) := by
  unfold State.overVolt
  repeat' first
    | with_reducible assumption
    | with_reducible apply State.setInput_only
    | with_reducible apply State.powerFail_only
    | with_reducible apply State.toStandby_only
    | exact subset_of (by decide) hk
    | ((try lift_lets); intro y; first | (refine (fun (_ : Only ks s y) => ?_) ?_; (on_goal 1 => clear_value y); (on_goal 2 => subst y)) | clear_value y | skip)
    | split

theorem State.setTemp_only {ks : List Part} {s x : State} (i : Nat) (t : BitVec 16) (hk : [.power] ⊆ ks) (h : Only ks s x) :
    Only ks s (State.setTemp i t x) := by
  unfold State.setTemp
  repeat' first
    | with_reducible assumption
    | with_reducible apply modPower_only

theorem State.setThermal_only {ks : List Part} {s x : State} (p step : Nat) (hk : [.power] ⊆ ks) (h : Only ks s x) :
    Only ks s (State.setThermal p step x) := by
  unfold State.setThermal
  repeat' first
    | with_reducible assumption
    | with_reducible apply modPower_only

theorem State.checkReduced_only {ks : List Part} {s x : State} (hk : [.cmds] ⊆ ks) (h : Only ks s x) :
    Only ks s (State.checkReduced x) := by
  unfold State.checkReduced
  repeat' first
    | with_reducible assumption
    | with_reducible apply State.endPromise_only
    | exact subset_of (by decide) hk
    | split

theorem State.trackCool_only {ks : List Part} {s x : State} (hk : [.power] ⊆ ks) (h : Only ks s x) :
    Only ks s (State.trackCool x) := by
  unfold State.trackCool
  repeat' first
    | with_reducible assumption
    | with_reducible apply modPower_only
    | exact subset_of (by decide) hk
    | split

theorem State.thermalDown_only {ks : List Part} {s x : State} (p : Nat) (hk : [.out, .power, .pcie, .cmds, .log, .tm, .stalls] ⊆ ks) (h : Only ks s x) :
    Only ks s (State.thermalDown p x) := by
  unfold State.thermalDown
  repeat' first
    | with_reducible assumption
    | with_reducible apply State.setThermal_only
    | with_reducible apply State.retuneStalls_only
    | with_reducible apply State.raise_only
    | with_reducible apply State.checkReduced_only
    | exact subset_of (by decide) hk
    | ((try lift_lets); intro y; first | (refine (fun (_ : Only ks s y) => ?_) ?_; (on_goal 1 => clear_value y); (on_goal 2 => subst y)) | clear_value y | skip)
    | split

theorem State.thermalUp_only {ks : List Part} {s x : State} (p : Nat) (hk : [.power, .stalls] ⊆ ks) (h : Only ks s x) :
    Only ks s (State.thermalUp p x) := by
  unfold State.thermalUp
  repeat' first
    | with_reducible assumption
    | with_reducible apply State.setThermal_only
    | with_reducible apply State.retuneStalls_only
    | exact subset_of (by decide) hk
    | ((try lift_lets); intro y; first | (refine (fun (_ : Only ks s y) => ?_) ?_; (on_goal 1 => clear_value y); (on_goal 2 => subst y)) | clear_value y | skip)
    | split

theorem State.halveQuay_only {ks : List Part} {s x : State} (pile : Nat) (t : BitVec 16) (hk : [.out, .power, .pcie, .cmds, .log, .tm] ⊆ ks) (h : Only ks s x) :
    Only ks s (State.halveQuay pile t x) := by
  unfold State.halveQuay
  repeat' first
    | with_reducible assumption
    | with_reducible apply State.setTemp_only
    | with_reducible apply modPower_only
    | with_reducible apply State.raise_only
    | with_reducible apply State.checkReduced_only
    | exact subset_of (by decide) hk
    | ((try lift_lets); intro y; first | (refine (fun (_ : Only ks s y) => ?_) ?_; (on_goal 1 => clear_value y); (on_goal 2 => subst y)) | clear_value y | skip)
    | split

theorem State.restoreQuay_only {ks : List Part} {s x : State} (r : DramReading) (hk : [.power] ⊆ ks) (h : Only ks s x) :
    Only ks s (State.restoreQuay r x) := by
  unfold State.restoreQuay
  repeat' first
    | with_reducible assumption
    | with_reducible apply State.setTemp_only
    | with_reducible apply modPower_only
    | exact subset_of (by decide) hk
    | split

theorem State.darkHalls_only {ks : List Part} {s x : State} (hk : [.power] ⊆ ks) (h : Only ks s x) :
    Only ks s (State.darkHalls x) := by
  unfold State.darkHalls
  repeat' first
    | with_reducible assumption
    | with_reducible apply State.switch_only

theorem State.thermalTrip_only {ks : List Part} {s x : State} (sensor : Nat) (t : BitVec 16) (hk : [.out, .freeCtr, .power, .boot, .pcie, .sqs, .cqs, .sqTurn, .cmds, .log, .tm, .job, .mem, .run, .stalls, .quays, .snap, .journal, .harbour, .ports, .test] ⊆ ks) (h : Only ks s x) :
    Only ks s (State.thermalTrip sensor t x) := by
  unfold State.thermalTrip
  repeat' first
    | with_reducible assumption
    | with_reducible apply State.setTemp_only
    | with_reducible apply State.powerFail_only
    | with_reducible apply State.moduleFault_only
    | with_reducible apply State.darkHalls_only
    | with_reducible apply State.settleReset_only
    | exact subset_of (by decide) hk
    | ((try lift_lets); intro y; first | (refine (fun (_ : Only ks s y) => ?_) ?_; (on_goal 1 => clear_value y); (on_goal 2 => subst y)) | clear_value y | skip)
    | split

theorem State.amrathTrip_only {ks : List Part} {s x : State} (sensor : Nat) (t : BitVec 16) (hk : [.power, .boot, .pcie, .sqs, .cqs, .sqTurn, .cmds, .log, .tm, .job, .mem, .run, .stalls, .quays, .snap, .journal, .harbour, .ports, .test] ⊆ ks) (h : Only ks s x) :
    Only ks s (State.amrathTrip sensor t x) := by
  unfold State.amrathTrip
  repeat' first
    | with_reducible assumption
    | with_reducible apply State.setTemp_only
    | with_reducible apply State.toStandby_only
    | with_reducible apply modPower_only
    | exact subset_of (by decide) hk
    | split

theorem State.clockLost_only {ks : List Part} {s x : State} (i : ClockIsland) (hk : [.out, .freeCtr, .power, .boot, .pcie, .sqs, .cqs, .sqTurn, .cmds, .log, .tm, .job, .mem, .run, .stalls, .quays, .snap, .journal, .harbour, .ports, .test] ⊆ ks) (h : Only ks s x) :
    Only ks s (State.clockLost i x) := by
  unfold State.clockLost
  repeat' first
    | with_reducible assumption
    | with_reducible apply State.moduleFault_only
    | with_reducible apply State.settleReset_only
    | exact subset_of (by decide) hk
    | split

theorem State.railSettled_only {ks : List Part} {s x : State} (i : Nat) (hk : [.stalls] ⊆ ks) (h : Only ks s x) :
    Only ks s (State.railSettled i x) := by
  unfold State.railSettled
  repeat' first
    | with_reducible assumption
    | with_reducible apply setStall_only
    | with_reducible apply modStalls_only
    | exact subset_of (by decide) hk
    | split

theorem State.refreshSensors_only {ks : List Part} {s x : State} (r : Readings) (hk : [.out, .power, .pcie, .log, .tm, .stalls, .ports] ⊆ ks) (h : Only ks s x) :
    Only ks s (State.refreshSensors r x) := by
  unfold State.refreshSensors
  repeat' first
    | with_reducible assumption
    | with_reducible apply modPower_only
    | with_reducible apply setStall_only
    | with_reducible apply setPort_only
    | with_reducible apply State.count_only
    | with_reducible apply State.trackCool_only
    | with_reducible apply State.retuneStalls_only
    | (with_reducible apply foldl_only; on_goal 2 => intros)
    | exact subset_of (by decide) hk
    | ((try lift_lets); intro y; first | (refine (fun (_ : Only ks s y) => ?_) ?_; (on_goal 1 => clear_value y); (on_goal 2 => subst y)) | clear_value y | skip)
    | split

theorem State.applyHeldCap_only {ks : List Part} {s x : State} (hk : [.out, .power, .pcie, .cqs, .cmds, .log, .tm, .stalls] ⊆ ks) (h : Only ks s x) :
    Only ks s (State.applyHeldCap x) := by
  unfold State.applyHeldCap
  repeat' first
    | with_reducible assumption
    | with_reducible apply State.applyCap_only
    | with_reducible apply State.finishAll_only
    | exact subset_of (by decide) hk
    | split

/-! ## Machine/HarbourCmds.lean -/

theorem State.onPort_only {ks : List Part} {s x : State} (port n : Nat) (f : State → State) (h_f : ∀ y, Only ks s y → Only ks s (f y)) (hk : [.out, .freeCtr, .power, .boot, .pcie, .sqs, .cqs, .sqTurn, .cmds, .log, .tm, .job, .mem, .run, .stalls, .quays, .snap, .journal, .harbour, .ports, .test] ⊆ ks) (h : Only ks s x) :
    Only ks s (State.onPort port n f x) := by
  unfold State.onPort
  repeat' first
    | with_reducible assumption
    | with_reducible apply h_f
    | with_reducible apply State.heard_only
    | with_reducible apply State.settleReset_only
    | exact subset_of (by decide) hk
    | split

theorem State.takeFrame_only {ks : List Part} {s x : State} (port : Nat) (fr : BucketFrame) (hk : [.out, .freeCtr, .power, .boot, .pcie, .cqs, .cmds, .log, .tm, .job, .mem, .run, .stalls, .quays, .snap, .journal, .harbour, .ports, .test] ⊆ ks) (h : Only ks s x) :
    Only ks s (State.takeFrame port fr x) := by
  unfold State.takeFrame
  repeat' first
    | with_reducible assumption
    | with_reducible apply State.frameIn_only
    | with_reducible apply State.tryClose_only
    | exact subset_of (by decide) hk
    | split

theorem State.lateMember_only {ks : List Part} {s x : State} (suspect waited : Nat) (hk : [.out, .freeCtr, .power, .boot, .pcie, .sqs, .cqs, .sqTurn, .cmds, .log, .tm, .job, .mem, .run, .stalls, .quays, .snap, .journal, .harbour, .ports, .test] ⊆ ks) (h : Only ks s x) :
    Only ks s (State.lateMember suspect waited x) := by
  unfold State.lateMember
  repeat' first
    | with_reducible assumption
    | with_reducible apply State.bucketLate_only
    | with_reducible apply State.settleReset_only
    | exact subset_of (by decide) hk
    | split

theorem State.allowanceEnds_only {ks : List Part} {s x : State} (hk : [.out, .power, .pcie, .cqs, .cmds, .log, .tm, .stalls, .harbour, .ports] ⊆ ks) (h : Only ks s x) :
    Only ks s (State.allowanceEnds x) := by
  unfold State.allowanceEnds
  repeat' first
    | with_reducible assumption
    | with_reducible apply State.joinExpired_only
    | exact subset_of (by decide) hk
    | split

/-! ## Machine/SurvivalCmds.lean -/

theorem State.afterWrite_only {ks : List Part} {s x : State} (hk : [.out, .freeCtr, .power, .boot, .pcie, .sqs, .cqs, .sqTurn, .cmds, .log, .tm, .job, .mem, .run, .stalls, .quays, .snap, .journal, .harbour, .ports, .test] ⊆ ks) (h : Only ks s x) :
    Only ks s (State.afterWrite x) := by
  unfold State.afterWrite
  repeat' first
    | with_reducible assumption
    | with_reducible apply State.tryCommit_only
    | with_reducible apply State.tryClose_only
    | with_reducible apply State.settleReset_only
    | exact subset_of (by decide) hk

theorem State.onPartner_only {ks : List Part} {s x : State} (port kind bytes : Nat) (f : State → State) (h_f : ∀ y, Only ks s y → Only ks s (f y)) (hk : [.out, .freeCtr, .power, .boot, .pcie, .sqs, .cqs, .sqTurn, .cmds, .log, .tm, .job, .mem, .run, .stalls, .quays, .snap, .journal, .harbour, .ports, .test] ⊆ ks) (h : Only ks s x) :
    Only ks s (State.onPartner port kind bytes f x) := by
  unfold State.onPartner
  repeat' first
    | with_reducible assumption
    | with_reducible apply h_f
    | with_reducible apply State.onPort_only
    | with_reducible apply State.count_only
    | exact subset_of (by decide) hk
    | refine fun (_ : State) (_ : Only ks s _) => ?_

theorem State.localWritten_only {ks : List Part} {s x : State} (hk : [.out, .freeCtr, .power, .boot, .pcie, .sqs, .cqs, .sqTurn, .cmds, .log, .tm, .job, .mem, .run, .stalls, .quays, .snap, .journal, .harbour, .ports, .test] ⊆ ks) (h : Only ks s x) :
    Only ks s (State.localWritten x) := by
  unfold State.localWritten
  repeat' first
    | with_reducible assumption
    | with_reducible apply State.appendOwn_only
    | with_reducible apply modJournal_only
    | with_reducible apply State.afterWrite_only
    | exact subset_of (by decide) hk
    | split

theorem State.flashFails_only {ks : List Part} {s x : State} (hk : [.out, .freeCtr, .power, .boot, .pcie, .sqs, .cqs, .sqTurn, .cmds, .log, .tm, .job, .mem, .run, .stalls, .quays, .snap, .journal, .harbour, .ports, .test] ⊆ ks) (h : Only ks s x) :
    Only ks s (State.flashFails x) := by
  unfold State.flashFails
  repeat' first
    | with_reducible assumption
    | with_reducible apply State.quarantined_only
    | with_reducible apply State.flashFault_only
    | with_reducible apply State.settleReset_only
    | with_reducible apply modJournal_only
    | exact subset_of (by decide) hk
    | split

theorem State.compactNow_only {ks : List Part} {s x : State} (partner : Bool) (hk : [.out, .pcie, .log, .tm, .journal] ⊆ ks) (h : Only ks s x) :
    Only ks s (State.compactNow partner x) := by
  unfold State.compactNow
  repeat' first
    | with_reducible assumption
    | with_reducible apply State.compact_only
    | exact subset_of (by decide) hk
    | ((try lift_lets); intro y; first | (refine (fun (_ : Only ks s y) => ?_) ?_; (on_goal 1 => clear_value y); (on_goal 2 => subst y)) | clear_value y | skip)
    | split

theorem State.drainFragment_only {ks : List Part} {s x : State} (q : Nat) (hk : [.out, .freeCtr, .power, .boot, .pcie, .sqs, .cqs, .sqTurn, .cmds, .log, .tm, .job, .mem, .run, .stalls, .quays, .snap, .journal, .harbour, .ports, .test] ⊆ ks) (h : Only ks s x) :
    Only ks s (State.drainFragment q x) := by
  unfold State.drainFragment
  repeat' first
    | with_reducible assumption
    | with_reducible apply State.takeFragment_only
    | with_reducible apply State.afterWrite_only
    | exact subset_of (by decide) hk
    | split

theorem State.helloTimeout_only {ks : List Part} {s x : State} (hk : [.out, .power, .pcie, .cqs, .cmds, .log, .tm, .stalls, .harbour, .ports] ⊆ ks) (h : Only ks s x) :
    Only ks s (State.helloTimeout x) := by
  unfold State.helloTimeout
  repeat' first
    | with_reducible assumption
    | with_reducible apply State.failRestore_only
    | exact subset_of (by decide) hk
    | split

theorem State.takeTransfer_only {ks : List Part} {s x : State} (port : Nat) (p : StatePayload) (hk : [.out, .freeCtr, .power, .boot, .pcie, .cqs, .cmds, .log, .tm, .job, .mem, .run, .stalls, .quays, .snap, .journal, .harbour, .ports, .test] ⊆ ks) (h : Only ks s x) :
    Only ks s (State.takeTransfer port p x) := by
  unfold State.takeTransfer
  repeat' first
    | with_reducible assumption
    | with_reducible apply State.transferIn_only
    | exact subset_of (by decide) hk
    | split

/-! ## Machine/QuayCmds.lean -/

theorem State.quayRead_only {ks : List Part} {s x : State} (src : Source) (a n : Nat) (tensor : Option Nat) (hits : List ScrubHit) (hk : [.out, .freeCtr, .power, .boot, .pcie, .cqs, .cmds, .log, .tm, .mem, .run, .stalls, .quays, .snap, .journal, .harbour, .ports, .test] ⊆ ks) (h : Only ks s x) :
    Only ks s (State.quayRead src a n tensor hits x) := by
  unfold State.quayRead
  repeat' first
    | with_reducible assumption
    | with_reducible apply State.guarded_only
    | with_reducible apply State.eccLines_only
    | with_reducible apply State.count_only
    | with_reducible apply emit_only
    | exact subset_of (by decide) hk
    | refine fun (_ : State) (_ : Only ks s _) => ?_

theorem State.quayWrite_only {ks : List Part} {s x : State} (src : Source) (a : Nat) (tensor : Option Nat) (data : Bytes) (wide : Bool) (hits : List ScrubHit) (hk : [.out, .freeCtr, .power, .boot, .pcie, .cqs, .cmds, .log, .tm, .mem, .run, .stalls, .quays, .snap, .journal, .harbour, .ports, .test] ⊆ ks) (h : Only ks s x) :
    Only ks s (State.quayWrite src a tensor data wide hits x) := by
  unfold State.quayWrite
  repeat' first
    | with_reducible assumption
    | with_reducible apply State.guarded_only
    | with_reducible apply State.eccLines_only
    | with_reducible apply State.memWrite_only
    | with_reducible apply State.storeReport_only
    | exact subset_of (by decide) hk
    | refine fun (_ : State) (_ : Only ks s _) => ?_
    | refine fun _ (_ : State) (_ : Only ks s _) => ?_
    | ((try lift_lets); intro y; first | (refine (fun (_ : Only ks s y) => ?_) ?_; (on_goal 1 => clear_value y); (on_goal 2 => subst y)) | clear_value y | skip)
    | split

theorem State.addIn_only {ks : List Part} {s x : State} (record inst loc step attempt : Nat) (c : Contribution) (hk : [.out, .freeCtr, .power, .boot, .pcie, .cqs, .cmds, .log, .tm, .mem, .run, .stalls, .quays, .snap, .journal, .harbour, .ports, .test] ⊆ ks) (h : Only ks s x) :
    Only ks s (State.addIn record inst loc step attempt c x) := by
  unfold State.addIn
  repeat' first
    | with_reducible assumption
    | with_reducible apply State.regionAdd_only
    | exact subset_of (by decide) hk
    | split

theorem State.scrub_only {ks : List Part} {s x : State} (pile : Nat) (hits : List ScrubHit) (hk : [.out, .freeCtr, .power, .boot, .pcie, .sqs, .cqs, .sqTurn, .cmds, .log, .tm, .job, .mem, .run, .stalls, .quays, .snap, .journal, .harbour, .ports, .test] ⊆ ks) (h : Only ks s x) :
    Only ks s (State.scrub pile hits x) := by
  unfold State.scrub
  repeat' first
    | with_reducible assumption
    | with_reducible apply State.ecc_only
    | with_reducible apply State.count_only
    | with_reducible apply State.settleReset_only
    | (with_reducible apply foldl_only; on_goal 2 => intros)
    | exact subset_of (by decide) hk
    | ((try lift_lets); intro y; first | (refine (fun (_ : Only ks s y) => ?_) ?_; (on_goal 1 => clear_value y); (on_goal 2 => subst y)) | clear_value y | skip)
    | split

theorem State.packBlock_only {ks : List Part} {s x : State} (entry group tb f : Nat) (hk : [.out, .freeCtr, .power, .boot, .pcie, .cqs, .cmds, .log, .tm, .mem, .run, .stalls, .quays, .snap, .journal, .harbour, .ports, .test] ⊆ ks) (h : Only ks s x) :
    Only ks s (State.packBlock entry group tb f x) := by
  unfold State.packBlock
  repeat' first
    | with_reducible assumption
    | with_reducible apply State.packStash_only
    | with_reducible apply modRun_only
    | exact subset_of (by decide) hk
    | split

/-! ## Machine/TideCmds.lean -/

theorem State.onTides_only {ks : List Part} {s x : State} (f : Table → State → State) (h_f : ∀ a0 y, Only ks s y → Only ks s (f a0 y)) (hk : [] ⊆ ks) (h : Only ks s x) :
    Only ks s (State.onTides f x) := by
  unfold State.onTides
  repeat' first
    | with_reducible assumption
    | with_reducible apply h_f
    | exact subset_of (by decide) hk
    | split

theorem State.issueNext_only {ks : List Part} {s x : State} (i : Nat) (t : Table) (hk : [.run] ⊆ ks) (h : Only ks s x) :
    Only ks s (State.issueNext i t x) := by
  unfold State.issueNext
  repeat' first
    | with_reducible assumption
    | with_reducible apply State.setTide_only
    | exact subset_of (by decide) hk
    | split

theorem State.storeEcc_only {ks : List Part} {s x : State} (i : Nat) (o : EccOutcome) (off : Nat) (hk : [.out, .freeCtr, .power, .boot, .pcie, .cqs, .cmds, .log, .tm, .mem, .run, .stalls, .quays, .snap, .journal, .harbour, .ports, .test] ⊆ ks) (h : Only ks s x) :
    Only ks s (State.storeEcc i o off x) := by
  unfold State.storeEcc
  repeat' first
    | with_reducible assumption
    | with_reducible apply State.count_only
    | with_reducible apply State.raise_only
    | with_reducible apply State.moduleFault_only
    | exact subset_of (by decide) hk
    | split

theorem State.startNext_only {ks : List Part} {s x : State} (i : Nat) (ecc : EccOutcome) (off : Nat) (t : Table) (hk : [.out, .freeCtr, .power, .boot, .pcie, .cqs, .cmds, .log, .tm, .mem, .run, .stalls, .quays, .snap, .journal, .harbour, .ports, .test] ⊆ ks) (h : Only ks s x) :
    Only ks s (State.startNext i ecc off t x) := by
  unfold State.startNext
  repeat' first
    | with_reducible assumption
    | with_reducible apply State.conflicts_only
    | with_reducible apply State.ecc_only
    | with_reducible apply State.storeEcc_only
    | with_reducible apply State.startTide_only
    | exact subset_of (by decide) hk
    | ((try lift_lets); intro y; first | (refine (fun (_ : Only ks s y) => ?_) ?_; (on_goal 1 => clear_value y); (on_goal 2 => subst y)) | clear_value y | skip)
    | split

theorem State.finishTide_only {ks : List Part} {s x : State} (record inst : Nat) (t : Table) (hk : [.out, .pcie, .log, .tm, .job, .run, .stalls] ⊆ ks) (h : Only ks s x) :
    Only ks s (State.finishTide record inst t x) := by
  unfold State.finishTide
  repeat' first
    | with_reducible assumption
    | with_reducible apply State.completeTide_only
    | exact subset_of (by decide) hk
    | split

theorem State.deadlock_only {ks : List Part} {s x : State} (i record inst : Nat) (t : Table) (hk : [.out, .freeCtr, .power, .boot, .pcie, .cqs, .cmds, .log, .tm, .mem, .run, .stalls, .quays, .snap, .journal, .harbour, .ports, .test] ⊆ ks) (h : Only ks s x) :
    Only ks s (State.deadlock i record inst t x) := by
  unfold State.deadlock
  repeat' first
    | with_reducible assumption
    | with_reducible apply State.raise_only
    | with_reducible apply State.moduleFault_only
    | exact subset_of (by decide) hk
    | split

theorem State.openNow_only {ks : List Part} {s x : State} (record inst : Nat) (t : Table) (hk : [.out, .freeCtr, .power, .boot, .pcie, .cqs, .cmds, .log, .tm, .job, .mem, .run, .stalls, .quays, .snap, .journal, .harbour, .ports, .test] ⊆ ks) (h : Only ks s x) :
    Only ks s (State.openNow record inst t x) := by
  unfold State.openNow
  repeat' first
    | with_reducible assumption
    | with_reducible apply State.openRegion_only
    | with_reducible apply State.tideDone_only
    | exact subset_of (by decide) hk
    | split

theorem State.loadedPlane_only {ks : List Part} {s x : State} (l : PlaneLoad) (t : Table) (hk : [.out, .freeCtr, .power, .boot, .pcie, .cqs, .cmds, .log, .tm, .mem, .run, .stalls, .quays, .snap, .journal, .harbour, .ports, .test] ⊆ ks) (h : Only ks s x) :
    Only ks s (State.loadedPlane l t x) := by
  unfold State.loadedPlane
  repeat' first
    | with_reducible assumption
    | with_reducible apply State.ecc_only
    | with_reducible apply State.storeEcc_only
    | with_reducible apply State.planeLoaded_only
    | exact subset_of (by decide) hk
    | split

/-! ## Machine/RunCmds.lean -/

theorem State.takeToken_only {ks : List Part} {s x : State} (t : Table) (logits : List Val) (r : ServeReq) (hk : [.out, .pcie, .cqs, .cmds, .log, .tm, .run] ⊆ ks) (h : Only ks s x) :
    Only ks s (State.takeToken t logits r x) := by
  unfold State.takeToken
  repeat' first
    | with_reducible assumption
    | with_reducible apply emit_only
    | with_reducible apply State.count_only
    | with_reducible apply modRun_only
    | with_reducible apply State.finishServe_only
    | exact subset_of (by decide) hk
    | ((try lift_lets); intro y; first | (refine (fun (_ : Only ks s y) => ?_) ?_; (on_goal 1 => clear_value y); (on_goal 2 => subst y)) | clear_value y | skip)
    | split

theorem State.nextCycle_only {ks : List Part} {s x : State} (t : Table) (hk : [.job, .run] ⊆ ks) (h : Only ks s x) :
    Only ks s (State.nextCycle t x) := by
  unfold State.nextCycle
  repeat' first
    | with_reducible assumption
    | with_reducible apply modRun_only
    | with_reducible apply State.passBarriers_only
    | exact subset_of (by decide) hk

theorem State.boundary_only {ks : List Part} {s x : State} (t : Table) (hk : [.out, .boot, .pcie, .cqs, .cmds, .log, .tm, .job, .run, .stalls, .harbour, .test] ⊆ ks) (h : Only ks s x) :
    Only ks s (State.boundary t x) := by
  unfold State.boundary
  repeat' first
    | with_reducible assumption
    | with_reducible apply State.takeToken_only
    | with_reducible apply State.endRun_only
    | with_reducible apply State.nextCycle_only
    | (with_reducible apply foldl_only; on_goal 2 => intros)
    | exact subset_of (by decide) hk
    | ((try lift_lets); intro y; first | (refine (fun (_ : Only ks s y) => ?_) ?_; (on_goal 1 => clear_value y); (on_goal 2 => subst y)) | clear_value y | skip)
    | split

theorem State.onTable_only {ks : List Part} {s x : State} (f : Table → State → State) (h_f : ∀ a0 y, Only ks s y → Only ks s (f a0 y)) (hk : [.out, .freeCtr, .power, .boot, .pcie, .sqs, .cqs, .sqTurn, .cmds, .log, .tm, .job, .mem, .run, .stalls, .quays, .snap, .journal, .harbour, .ports, .test] ⊆ ks) (h : Only ks s x) :
    Only ks s (State.onTable f x) := by
  unfold State.onTable
  repeat' first
    | with_reducible assumption
    | with_reducible apply h_f
    | with_reducible apply State.settleReset_only
    | exact subset_of (by decide) hk
    | split

/-! ## Machine/Idle.lean -/

theorem State.tick_only {ks : List Part} {s x : State} (hk : [.usec] ⊆ ks) (h : Only ks s x) : Only ks s (State.tick x) := by
  unfold State.tick
  split
  · exact setUsec_only _ hk h
  · exact h

end Sys2Proof.Machine
end

