-- ==== Sys2Proof/WellFormed.lean ====
section
/-! DEFINITION. The range of every operand of a command: the values that the manual's fields and indices can take. -/

namespace Sys2Proof

/-- A submission or completion queue (R353), a command ID (Table 12.3), a port (R287), a rank (R296), a pile (R186), a stall (R72). -/
def wfQueue (q : Nat) : Bool := q < 16
def wfCid (cid : Nat) : Bool := cid < 65536
def wfPort (p : Nat) : Bool := p < 8
def wfRank (r : Nat) : Bool := r < 512
def wfPile (p : Nat) : Bool := p < 24
def wfStall (i : Nat) : Bool := i < 256
def wfCmd (sq cid : Nat) : Bool := wfQueue sq && wfCid cid

def wfBytes2 (v : Nat) : Bool := v < 65536
def wfBytes4 (v : Nat) : Bool := v < 4294967296
def wfBytes8 (v : Nat) : Bool := v < 18446744073709551616

/-- An entry placed in a ring: 64 bytes, a scatter list of at most 65,536 elements (R357, R358). -/
def wfPlaced (p : Placed) : Bool :=
  p.entry.length == 64 && p.sgl.length ≤ 65536 && p.sgl.all fun x => wfBytes8 x.addr && wfBytes8 x.len

def wfHello (h : Hello) : Bool :=
  wfPort h.port && wfRank h.rank || (wfPort h.port && h.rank == 0xFFFF)

def wfTensorStat (x : TensorStat) : Bool :=
  wfBytes8 x.c && wfBytes8 x.f && wfBytes8 x.f4 && wfBytes8 x.sat && wfBytes8 x.dom

def wfEntry : StatEntry → Bool
  | .harbour m w _ _ d => wfBytes2 m && wfBytes4 w && wfBytes8 d
  | .bucket d => wfBytes8 d
  | .tensor x => wfTensorStat x

def wfPayload : FramePayload → Bool
  | .stats es => es.all wfEntry
  | .p32 vs | .g16 vs => vs.length ≤ 1904

def wfFrame (f : BucketFrame) : Bool :=
  f.phase ≤ 4 && wfBytes2 f.bucket && wfRank f.sender && wfRank f.dest && wfBytes8 f.step && wfBytes8 f.digest && wfBytes2 f.attempt
    && wfPayload f.payload

def wfPart (p : CensusPart) : Bool :=
  p.index < p.count && wfRank p.sender && wfRank p.firstRank && p.entries.length ≤ 158

/-- Only a fragment has a step, a page, a quay and a digest of its own. -/
def wfPiece (step page quay digest : Nat) : PieceData → Bool
  | .fragment _ => wfPile quay && wfBytes8 digest
  | .record _ | .header _ => step == 0 && page == 0 && quay == 0 && digest == 0

def wfLine (h : ScrubHit) : Bool := h.line < 25769803776 && h.errors.all fun e => e.symbol < 37 && e.diff < 65536

/-- A byte range of the BAR2 window that does not cross 4 KiB (R352). -/
def wfWindow (offset len : Nat) : Bool := 1 ≤ len && offset + len ≤ 68719476736 && offset / 4096 == (offset + len - 1) / 4096

def wfSource : Source → Bool
  | .tide r => wfBytes4 r
  | _ => true

def wfIsland : ClockIsland → Bool
  | .stall i => wfStall i
  | .quay p => wfPile p
  | .aisle h => h < 2
  | .port p => wfPort p
  | .control | .crystal => true

def wfTarget : DmaTarget → Bool
  | .command sq cid => wfCmd sq cid
  | .batch step group => wfBytes8 step && wfBytes4 group

/-- Whether every operand of a command lies in its range. -/
def Instr.wf : Instr → Bool
  | .identify sq cid | .unload sq cid | .runSteps sq cid | .haltAtSlack sq cid | .snapshot sq cid | .restoreFromPartnerStore sq cid
  | .restoreFromReplica sq cid | .leaveHarbour sq cid | .readTelemetry sq cid | .runTest sq cid | .setPowerCap sq cid | .attest sq cid
  | .exportJournal sq cid => wfCmd sq cid
  | .loadTideTable sq cid _ | .feedTokenBatch sq cid _ | .feedHostLayerResult sq cid _ | .serve sq cid _ | .restoreFromImage sq cid _
  | .enrolKey sq cid _ | .applyPatch sq cid _ => wfCmd sq cid
  | .joinHarbour sq cid block => wfCmd sq cid && block.length == 128
  | .sqTailDb q value placed => wfQueue q && wfBytes2 value && placed.length ≤ 4096 && placed.all wfPlaced
  | .cqHeadDb q value => wfQueue q && wfBytes2 value
  | .cqHeldEntryPost q => wfQueue q
  | .sqEnable q cq n | .sqDisable q cq n => wfQueue q && wfQueue cq && n < 16
  | .cqEnable q _ v n | .cqDisable q _ v n => wfQueue q && v < 64 && n < 16
  | .evAck seq => wfBytes4 seq
  | .evCtrlIntEn v _ => v < 64
  | .satBitClear o size mask => o < 33554432 && size ≤ 8 && wfBytes8 mask
  | .resetKey | .telemetryFreezeSet | .telemetryFreezeClear | .bwBaseRead | .busMasterDisable | .busMasterEnable | .functionLevelReset
  | .d3hotToD0 | .perstAssert | .perstDeassert | .resetNLow | .pwrEnLow | .powerRemoved | .deferredCapApply | .progressSend
  | .joinAllowanceExpiry | .restoreHelloTimeout | .mirrorAckTimeout | .slackWater | .bucketReduce | .journalWriteComplete | .flashTimeout | .decodeStepBoundary _ => true
  | .bwBaseWrite value => wfBytes8 value
  | .msixVectorUnmask v => v < 64
  | .registerWrite o size value => o < 33554432 && size ≤ 8 && wfBytes8 value
  | .bar2Read o len hits => wfWindow o len && hits.all wfLine
  | .bar2Write o d => wfWindow o d.length
  | .i3cPointerWrite p => wfBytes2 p
  | .doeRequest object _ => object < 256
  | .dmaErrorCompletion target a => wfTarget target && wfBytes8 a
  | .powerApplied mv straps => wfBytes2 mv && straps < 256
  | .bootStart mv failed => wfBytes2 mv && failed.all wfStall
  | .resetNRelease failed => failed.all wfStall
  | .inputUndervolt mv | .inputLockout mv | .inputOvervoltage mv | .inputUndervoltClear mv => wfBytes2 mv
  | .thermalStepDown p | .thermalStepUp p => p < 256
  | .dramThermalHalve p _ => wfPile p
  | .dramThermalHalveEnd r => wfPile r.pile
  | .thermalTripFault sensor _ => sensor < 26
  | .thermalTripAmrath sensor _ => sensor < 38
  | .clockLockLost i => wfIsland i
  | .sensorRefresh r => wfBytes2 r.milliVolts && wfBytes4 r.milliAmps && wfBytes4 r.milliWatts && r.temps.length == 40
      && (r.stallTemps.all fun p => wfStall p.1) && r.ports.all fun p => wfPort p.port && wfBytes8 p.rx && wfBytes8 p.tx
  | .replayTimeout port | .portDown port _ | .portRetrainComplete port _ | .portTrained port => wfPort port
  | .nak port n => wfPort port && wfBytes2 n
  | .flitError port cw => wfPort port && cw.length == 268
  | .flitAcknowledgement port symbols checks => wfPort port && symbols.length == 256 && checks.length == 12
  | .hello port h => wfPort port && wfHello h
  | .progress port r => wfPort port && wfRank r.rank && wfBytes2 r.attempt
  | .eject port r => wfPort port && 1 ≤ r.reason && r.reason ≤ 7 && wfRank r.accused && wfRank r.accuser
  | .fault port r => wfPort port && 1 ≤ r.reason && r.reason ≤ 7 && wfRank r.rank
  | .leave port rank => wfPort port && wfRank rank
  | .unknownControlRecord port kind => wfPort port && kind < 256
  | .bucketFrame port f => wfPort port && wfFrame f
  | .censusPart port p => wfPort port && wfPart p
  | .censusViewTimeout rank => wfRank rank
  | .bucketLate suspect _ => wfRank suspect
  | .journalMirrorReceived port _ => wfPort port
  | .mirrorAck port seq => wfPort port && wfBytes8 seq
  | .snapshotFragmentReceived port number step page quay digest data =>
    wfPort port && wfBytes4 number && wfPiece step page quay digest data
  | .stateTransferReceived port _ => wfPort port
  | .tideIssue i | .tideStart i _ _ | .dvfsRailSettled i => wfStall i
  | .weightPlaneLoadComplete l => wfStall l.stall
  | .tideComplete record _ => wfBytes4 record
  | .tileDeadlock i record _ => wfStall i && wfBytes4 record
  | .regionOpen record _ => wfBytes4 record
  | .quayRead src _ len _ hits => wfSource src && 1 ≤ len && hits.all wfLine
  | .quayWrite src _ _ d hits => wfSource src && 1 ≤ d.bytes.length && hits.all wfLine
  | .atomicAdd record _ _ step attempt _ => wfBytes4 record && wfBytes8 step && wfBytes2 attempt
  | .patrolScrub pile hits => wfPile pile && hits.all wfLine
  | .refresh pile => wfPile pile
  | .stashBlockPack _ group _ _ => wfBytes4 group
  | .groupForwardStart group => wfBytes4 group
  | .hostLayerRequest record dir => wfBytes2 record && dir < 2
  | .journalCompacted _ => true
  | .snapshotDrainFragment q | .breakwaterStall q => wfPile q
  | .testComplete rs => rs.all fun l => l.all fun p => wfBytes8 p.1

end Sys2Proof
end

