-- ==== Sys2Proof/Tests/Slice0.lean ====
section
/-! SUPPORT. Small states, witnesses that the hypotheses of each statement can hold together, and tests of single steps. -/

namespace Sys2Proof.Tests

open Sys2Proof.Machine

/-! ## Small states -/

/-- A command of queue 0 with command ID 1. -/
def cmd (op : Nat) (fs : List (Nat × Nat × Nat)) : Cmd :=
  ⟨0, 0, 1, layout 64 ((0, 1, op) :: (2, 2, 1) :: fs), [], 0, 1000000000, 0, false, 0, 0, false⟩

/-- A table of a kind (1 training, 2 serving) without records but those given. -/
def table (kind : Nat) (secs : List (Nat × List Bytes)) : Table := ⟨layout 64 [(0x21, 1, kind)], [], secs, 0, 0, [], [], [], 0, 0⟩

/-- A module state with queue pair 0 enabled and bus mastering on. -/
def awake (m : ModuleState) : State :=
  { State.reset with
    boot := { Boot.reset with mode := m }, power := { Power.reset with resetLow := false },
    pcie := { Pcie.reset with busMaster := true },
    sqs := { Sq.reset with enable := true, log2 := 4 } :: List.replicate 15 Sq.reset,
    cqs := { Cq.reset with enable := true, log2 := 4 } :: List.replicate 15 Cq.reset }

def withCmd (c : Cmd) (s : State) : State := { s with cmds := [c] }
def withTable (t : Table) (s : State) : State := { s with job := { s.job with table := some t } }

/-- A harbour of four ranks on a ring, own rank 0, with port 0 up. -/
def ringHarbour : Harbour :=
  { Harbour.reset with joined := true, id := 7, topo := 1, sizes := [4, 0, 0], coords := [0, 0, 0], rank := 0, present := [0, 1, 2, 3],
                       partner := 2, partnerPort := some 3 }

def upPort (role : Nat) : Port := { Port.reset with state := 2, role := role, lanes := 15 }

/-- A joined member in a run of a training table. -/
def member (t : Table) : State :=
  { awake .running with
    job := { Job.reset with table := some t }, run := { Run.reset with kind := .training }, harbour := ringHarbour,
    ports := [upPort 1, Port.reset, Port.reset, upPort 2, upPort 1, Port.reset, Port.reset, Port.reset] }

def train0 : Table := table 1 []

/-! ## Witnesses: the hypotheses of each statement hold together -/

/-- A state with one command accepted. -/
def given (op : Nat) (fs : List (Nat × Nat × Nat)) (m : ModuleState) : State := withCmd (cmd op fs) (awake m)
def configured (op : Nat) (fs : List (Nat × Nat × Nat)) (t : Table) : State := withTable t (given op fs .configured)

def withPending (l : List Instr) (s : State) : State := { s with pending := l }

theorem reset_log_ok : EventLog.reset.Ok := ⟨Nat.zero_le _, fun r h => (Option.not_mem_none r h).elim, List.IsChain.nil⟩
theorem reset_boot_ok (m : ModuleState) : ({ Boot.reset with mode := m } : Boot).Ok := by
  refine ⟨rfl, Nat.zero_le _, fun g h => ?_⟩
  rw [List.eq_of_mem_replicate h]
  exact Nat.zero_le _
theorem reset_counters_ok : Telemetry.reset.Ok := ⟨List.Pairwise.nil, fun _ h => nomatch h⟩

theorem witness_StepRunsTheFrontCommand : (withPending [.slackWater] State.reset).pending = .slackWater :: [] := by decide
theorem witness_EmptyQueueIdles : State.reset.pending = [] := by decide

/-- A state that meets the invariant, and that steps. -/
theorem awake_inv (m : ModuleState) (l : List Instr) : (withPending l (awake m)).Inv :=
  ⟨rfl, rfl, rfl, List.length_replicate, List.length_replicate, rfl, List.length_replicate, reset_log_ok, reset_counters_ok, reset_boot_ok m⟩

theorem witness_EveryStepKeepsTheInvariant :
    (withPending [.refresh 0] (awake .inert)).Inv ∧ step (withPending [.refresh 0] (awake .inert)) = .next (awake .inert) :=
  ⟨awake_inv _ _, rfl⟩
theorem witness_StepsTakeNothingBack : step (withPending [.refresh 0] (awake .inert)) = .next (awake .inert) := rfl

def identifyEntry (deadline : Nat) : Placed :=
  ⟨layout 64 [(0, 1, opIdentify), (2, 2, 1), (8, 8, deadline), (0x10, 8, 0x1000), (0x18, 8, 4096)], [], []⟩
def runEntry : Placed := ⟨layout 64 [(0, 1, opRun), (2, 2, 1), (0x20, 8, 1)], [], []⟩

theorem witness_AdmissionFollowsTheFirstFailingCheck :
    admission (awake .inert) 0 (identifyEntry 0) = .accept 1000000
      ∧ admission (awake .inert) 0 (identifyEntry 1) = .late 1000000
      ∧ admission (awake .inert) 0 ⟨zeros 64, [], []⟩ = .refuse .malformed
      ∧ stateOk (awake .inert) runEntry.entry = false ∧ entryKnown runEntry.entry = true ∧ fieldsOk runEntry.entry = true
      ∧ (awake .inert).cmd? 0 (eCid runEntry.entry) = none := by decide

def exportFields : List (Nat × Nat × Nat) := [(0x18, 8, 4096)]

theorem witness_DataCommandsAnswer :
    ((given opIdentify [] .inert).entryFits (cmd opIdentify []) = true
        ∧ (given opIdentify [] .inert).waiting opIdentify 0 1 = some (cmd opIdentify []))
      ∧ ((given opTelemetry [] .inert).entryFits (cmd opTelemetry []) = true
        ∧ (given opTelemetry [] .inert).waiting opTelemetry 0 1 = some (cmd opTelemetry []))
      ∧ ((given opAttest [] .inert).entryFits (cmd opAttest []) = true
        ∧ (given opAttest [] .inert).waiting opAttest 0 1 = some (cmd opAttest []))
      ∧ (given opExport exportFields .inert).entryFits (cmd opExport exportFields) = true
      ∧ (given opExport exportFields .inert).waiting opExport 0 1 = some (cmd opExport exportFields) := by decide

theorem witness_LoadActivatesAValidTable :
    (given opLoad [] .inert).waiting opLoad 0 1 = some (cmd opLoad []) ∧ (given opLoad [] .inert).restsForLoad = true
      ∧ ((given opLoad [] .inert).mode = .inert ∨ (given opLoad [] .inert).mode = .configured)
      ∧ (given opLoad [] .inert).entryFits (cmd opLoad []) = true := by decide

theorem witness_UnloadReturnsToInert :
    (configured opUnload [] train0).waiting opUnload 0 1 = some (cmd opUnload []) ∧ (configured opUnload [] train0).inRun = false
      ∧ (configured opUnload [] train0).drains = false ∧ (configured opUnload [] train0).job.table = some train0 := by decide

theorem witness_FeedRetainsTheBatch :
    (configured opFeed [(0x20, 1, 1)] train0).waiting opFeed 0 1 = some (cmd opFeed [(0x20, 1, 1)])
      ∧ eKind (cmd opFeed [(0x20, 1, 1)]).entry = 1 ∧ (configured opFeed [(0x20, 1, 1)] train0).job.table = some train0
      ∧ (configured opFeed [(0x20, 1, 1)] train0).entryFits (cmd opFeed [(0x20, 1, 1)]) = true := by decide

def layerFields : List (Nat × Nat × Nat) := [(0x20, 1, 2), (0x24, 4, 5)]
def openLayer : State :=
  { configured opFeed layerFields train0 with run := { Run.reset with hostReqs := [⟨5, 0, 0, 0, 0, 0, 2, 0, 4⟩] } }

theorem witness_HostLayerResultAnswersItsRequest :
    openLayer.waiting opFeed 0 1 = some (cmd opFeed layerFields) ∧ eKind (cmd opFeed layerFields).entry = 2
      ∧ openLayer.job.table = some train0
      ∧ openLayer.hostReq? (eGroup (cmd opFeed layerFields).entry) = some ⟨5, 0, 0, 0, 0, 0, 2, 0, 4⟩ := by decide

theorem witness_RunStepsStarts :
    (configured opRun [(0x20, 8, 1)] train0).waiting opRun 0 1 = some (cmd opRun [(0x20, 8, 1)])
      ∧ (configured opRun [(0x20, 8, 1)] train0).job.table = some train0 ∧ train0.isTraining = true
      ∧ (configured opRun [(0x20, 8, 1)] train0).mode = .configured
      ∧ (configured opRun [(0x20, 8, 1)] train0).harbour.inCensus = false
      ∧ ((configured opRun [(0x20, 8, 1)] train0).cmdsOf opRun).head? = some (cmd opRun [(0x20, 8, 1)]) := by decide

def serve0 : Table := table 2 []

theorem witness_ServeAdmitsARequest :
    (configured opServe [] serve0).waiting opServe 0 1 = some (cmd opServe [])
      ∧ (((configured opServe [] serve0).cmdsOf opServe).find? fun d => !d.started) = some (cmd opServe []) ∧
      (configured opServe [] serve0).job.table = some serve0
      ∧ serve0.isTraining = false ∧ ((configured opServe [] serve0).mode = .configured ∨ (configured opServe [] serve0).mode = .running) := by
  decide

theorem witness_HaltAndSnapshotRequests :
    (given opHalt [] .running).waiting opHalt 0 1 = some (cmd opHalt [])
      ∧ (given opSnapshot [] .running).waiting opSnapshot 0 1 = some (cmd opSnapshot []) := by decide

def restoreFields (source : Nat) : List (Nat × Nat × Nat) := [(0x18, 8, 256), (0x20, 1, source), (0x21, 1, 3), (0x22, 2, 0xFFFF)]
def restoring (source : Nat) : State := configured opRestore (restoreFields source) train0
def withExtent (n : Nat) (s : State) : State := { s with journal := { s.journal with extent := n } }

/-- The image of a table without pages at step 4, and its set digest. -/
def emptyImage (set : Nat) : Bytes :=
  layout 256 [(0, 4, 0x50414E53), (4, 2, 1), (6, 2, 256), (0x10, 8, 4), (0x20, 8, 256), (0x28, 8, set)]

/-- The restore record that the statement names, for the empty image. -/
def imageRecord (s : State) (d : Bytes) : State × Bytes :=
  let z := ((s.markStarted (cmd opRestore (restoreFields 0))).zeroClass 2).modJob fun j => { j with batches := [] }
  let back := z.takeRestored train0 (fld d 0x10 8) (fld d 0x30 8) (slice d 256 (fld d 0xC 4))
  let sup := firstLast (supersededBy (fld d 0x10 8) s.journal.own)
  (back, back.buildRecord train0 4 0 back.journal.nextSeq (fld d 0x10 8)
    (scaleEntries back.job.scale ++ [(5, restoreEntry 0 (fld d 0x10 8) sup.1 sup.2)]))

theorem witness_RestoreFromAnImage :
    ((restoring 0).waiting opRestore 0 1 = some (cmd opRestore (restoreFields 0)) ∧ eSource (cmd opRestore (restoreFields 0)).entry = 0
        ∧ (restoring 0).job.table = some train0 ∧ (restoring 0).mode = .configured ∧ (restoring 0).harbour.joined = false
        ∧ (restoring 0).entryFits (cmd opRestore (restoreFields 0)) = true)
      ∧ (restoring 0).imageChunks train0 ((restoring 0).dataOf (cmd opRestore (restoreFields 0)) []) = none
      ∧ (restoring 0).dataOf (cmd opRestore (restoreFields 0)) (emptyImage 0) = emptyImage 0
      ∧ (restoring 0).imageChunks train0 (emptyImage 0) = some [] ∧ (0 : Nat) = fld (emptyImage 0) 0x28 8
      ∧ train0.modelDigest (restoring 0).mem = fld (emptyImage 0) 0x30 8
      ∧ (imageRecord (restoring 0) (emptyImage 0)).1.canWrite train0 (imageRecord (restoring 0) (emptyImage 0)).2 = false
      ∧ (imageRecord (withExtent 1 (restoring 0)) (emptyImage 0)).1.canWrite train0
          (imageRecord (withExtent 1 (restoring 0)) (emptyImage 0)).2 = true
      ∧ (restoring 0).imageChunks train0 (emptyImage 1) = some [] ∧ (0 : Nat) ≠ fld (emptyImage 1) 0x28 8 := by decide +kernel

theorem witness_RestoreOverAPortBegins :
    ((restoring 1).waiting opRestore 0 1 = some (cmd opRestore (restoreFields 1)) ∧ (restoring 1).job.table = some train0
        ∧ (restoring 1).mode = .configured ∧ (restoring 1).harbour.joined = false ∧ ePort (cmd opRestore (restoreFields 1)).entry < 8
        ∧ (restoring 1).ports.length = 8 ∧ eSource (cmd opRestore (restoreFields 1)).entry = 1)
      ∧ (restoring 2).waiting opRestore 0 1 = some (cmd opRestore (restoreFields 2)) ∧ (restoring 2).job.table = some train0
        ∧ (restoring 2).mode = .configured ∧ (restoring 2).harbour.joined = false ∧ ePort (cmd opRestore (restoreFields 2)).entry < 8
        ∧ (restoring 2).ports.length = 8 ∧ eSource (cmd opRestore (restoreFields 2)).entry = 2 := by decide

theorem witness_JoinChecksTheBlock :
    (configured opJoin [] train0).waiting opJoin 0 1 = some (cmd opJoin []) ∧ (configured opJoin [] train0).job.table = some train0
      ∧ (configured opJoin [] train0).mode = .configured ∧ (configured opJoin [] train0).harbour.joined = false
      ∧ (configured opJoin [] train0).entryFits (cmd opJoin []) = true := by decide

def leaving (run joined : Bool) : State :=
  { given opLeave [] (if run then .running else .configured) with
    harbour := { ringHarbour with joined := joined }, ports := upPort 1 :: List.replicate 7 Port.reset }

theorem witness_LeaveHarbour :
    ((leaving false false).waiting opLeave 0 1 = some (cmd opLeave []) ∧ (leaving false false).harbour.joined = false
        ∧ (leaving false false).entryFits (cmd opLeave []) = true)
      ∧ ((leaving true true).waiting opLeave 0 1 = some (cmd opLeave []) ∧ (leaving true true).harbour.joined = true
        ∧ (leaving true true).inRun = true)
      ∧ (leaving false true).waiting opLeave 0 1 = some (cmd opLeave []) ∧ (leaving false true).harbour.joined = true
        ∧ (leaving false true).inRun = false ∧ ((leaving false true).port 0).role ≠ 0
        ∧ (leaving false true).entryFits (cmd opLeave []) = true := by decide

def testFields (scope : Nat) : List (Nat × Nat × Nat) := [(0x20, 1, scope), (0x22, 2, if scope = 1 then 1 else 0x0202), (0x24, 4, 3)]
def testing (scope : Nat) (late : Bool) (m : ModuleState) : State := withCmd { cmd opTest (testFields scope) with deferred := late } (awake m)
def endingTest : State :=
  { withCmd { cmd opTest (testFields 1) with started := true } (awake .inert) with
    test := { Test.reset with active := true, scope := 1, test := 1, target := 3, queue := [⟨0, 1, 1, 1, 3, false, true⟩] } }

theorem witness_TestsStartWaitAndEnd :
    ((testing 3 false .running).waiting opTest 0 1 = some (cmd opTest (testFields 3)) ∧ 3 ≤ eScope (cmd opTest (testFields 3)).entry
        ∧ (testing 3 false .running).mode ≠ .inert ∧ (testing 3 false .running).mode ≠ .testing
        ∧ (testing 3 false .running).entryFits (cmd opTest (testFields 3)) = true)
      ∧ ((testing 1 true .running).waiting opTest 0 1 = some { cmd opTest (testFields 1) with deferred := true }
        ∧ eScope (cmd opTest (testFields 1)).entry < 3 ∧ (testing 1 true .running).inRun = true)
      ∧ ((testing 3 false .inert).waiting opTest 0 1 = some (cmd opTest (testFields 3)) ∧ (testing 3 false .inert).test.queue = []
        ∧ (eScope (cmd opTest (testFields 3)).entry < 3 ∨ (testing 3 false .inert).mode = .inert ∨ (testing 3 false .inert).mode = .testing))
      ∧ (endingTest.test.queue = [⟨0, 1, 1, 1, 3, false, true⟩] ∧ endingTest.run.slack ≠ .testing
        ∧ endingTest.cmd? 0 1 = some { cmd opTest (testFields 1) with started := true }
        ∧ endingTest.entryFits { cmd opTest (testFields 1) with started := true } = true)
      ∧ (testResults 1 1 3 []).getLast?.isSome = true := by
  refine ⟨by decide, by decide, by decide, by decide, rfl⟩

def capped (w : Nat) : State := given opCap [(0x20, 2, w)] .inert
def heldCap : State := { awake .inert with power := { Power.reset with capPending := some 500 } }

theorem witness_PowerCapAppliesOrWaits :
    (capped 600).waiting opCap 0 1 = some (cmd opCap [(0x20, 2, 600)]) ∧ (capped 600).capDeferred 600 = false
      ∧ (capped 600).heldCap = [] ∧ (capped 600).entryFits (cmd opCap [(0x20, 2, 600)]) = true
      ∧ heldCap.power.capPending = some 500 := by decide

theorem witness_EnrolKeyProgramsItsSlot :
    (given opEnrol [] .inert).waiting opEnrol 0 1 = some (cmd opEnrol []) ∧ (given opEnrol [] .inert).entryFits (cmd opEnrol []) = true
      ∧ (given opEnrol [] .inert).boot.slots.length = 4 := by decide

theorem witness_ApplyPatchStoresTheBundle :
    (given opPatch [] .inert).waiting opPatch 0 1 = some (cmd opPatch [])
      ∧ (given opPatch [] .inert).entryFits (cmd opPatch []) = true := by decide

/-! ### Queues, BAR0, resets -/

def heldEntry : State :=
  { awake .inert with
    cqs := { Cq.reset with enable := true, log2 := 4, held := [⟨0, 0, 0, 0, 0, 1, 0, 0⟩] } :: List.replicate 15 Cq.reset }

theorem witness_DoorbellsTakeTheirIndex :
    (awake .inert).sqs.length = 16 ∧ (awake .inert).cqs.length = 16 ∧ (awake .inert).takesWrites = true
      ∧ heldEntry.sqs.length = 16 ∧ heldEntry.cqs.length = 16
      ∧ (heldEntry.cq 0).held = ⟨0, 0, 0, 0, 0, 1, 0, 0⟩ :: [] ∧ (heldEntry.cq 0).enable = true ∧ 0 < (heldEntry.cq 0).room := by decide

theorem witness_EnablingAQueue :
    (awake .inert).takesWrites = true ∧ (awake .inert).pcie.busMaster = true ∧ (awake .inert).sqs.length = 16 ∧ (awake .inert).cqs.length = 16
      ∧ ((awake .inert).sq 1).enable = false ∧ ((awake .inert).cq 1).enable = false := by decide

theorem witness_DisablingAQueue :
    (awake .inert).takesWrites = true ∧ ((awake .inert).sq 0).enable = true ∧ ((awake .inert).cq 0).enable = true := by decide

theorem witness_EventRegistersAreWritten : (awake .inert).takesWrites = true := by decide

theorem witness_CountersStopAndSatBitsClear : (awake .inert).takesWrites = true ∧ (awake .inert).tm.Ok ∧ tmAt 0 ≠ evLostAt :=
  ⟨by decide, reset_counters_ok, by decide⟩

theorem witness_AlertFollowsTheMask : 0x0100 ≤ 0x0601 ∧ 1 ≤ 9 := by decide

theorem witness_StandbyAndBootingShutBar0 :
    (awake .standby).mode = .standby ∧ State.reset.mode = .booting ∧ (awake .inert).mode ≠ .standby ∧ (awake .inert).mode ≠ .booting
      ∧ (awake .inert).tm.frozen = false := by decide

theorem witness_RegisterWritesReachTheirRegister :
    (awake .inert).takesWrites = true ∧ sizeFits 0x20 2 = false ∧ sizeFits 0x40 8 = true := by decide

theorem witness_WindowBaseAppliesAfterTheRead : (awake .inert).takesWrites = true := by decide

theorem witness_PendingVectorsAreSent :
    (awake .inert).takesWrites = true ∧ (awake .inert).pcie.msix[63]? = some ⟨0, 0, true⟩
      ∧ State.reset.hostReaches = true ∧ State.reset.pcie.busMaster = false := by decide

theorem witness_FreezePointerAndMailbox :
    (awake .inert).takesWrites = true ∧ (awake .inert).power.present = true ∧ { State.reset with power := { Power.reset with present := false } }.power.present = false
      ∧ frozenOffset (tmAt 0) = true ∧ (awake .inert).tm.frozen = false ∧ (awake .inert).stateWordAt (tmAt 0) = none ∧ tmAt 0 < 0x180000 ∧ (awake .inert).hostReaches = true ∧ (awake .inert).mode.answers = true := by decide

def fedBatch : State := { awake .configured with job := { Job.reset with batches := [⟨3, 2, false, 0, [], 0, false⟩] } }

theorem witness_DmaErrorsEndTheirCommand :
    (given opIdentify [] .inert).cmd? 0 1 = some (cmd opIdentify []) ∧ (cmd opIdentify []).isOp opRun = false
      ∧ (cmd opIdentify []).isOp opServe = false ∧ (cmd opIdentify []).isOp opSnapshot = false
      ∧ (given opIdentify [] .inert).entryFits (cmd opIdentify []) = true ∧ (awake .inert).cmd? 0 1 = none
      ∧ ((given opServe [] .running).cmd? 0 1 = some (cmd opServe []) ∧ (cmd opServe []).isOp opServe = true
        ∧ (given opServe [] .running).entryFits (cmd opServe []) = true)
      ∧ ∃ b ∈ fedBatch.job.batches, b.step = 3 ∧ b.group = 2 := by decide

theorem witness_ModuleResetForgets :
    ((awake .inert).takesWrites = true ∧ (awake .inert).inRun = false ∧ (awake .inert).harbour.joined = false)
      ∧ ((awake .running).takesWrites = true ∧ (awake .running).inRun = true)
      ∧ ((awake .inert).power.present = true ∧ (awake .inert).takesReset = true)
      ∧ (State.reset.mode = .booting ∧ State.reset.stalls.length = 256) ∧ (awake .inert).mode ≠ .booting :=
  ⟨by decide, by decide, by decide, ⟨by decide, List.length_replicate⟩, by decide⟩

def heldInPerst : State := { awake .configured with pcie := { Pcie.reset with perst := true } }

theorem witness_TheHostGoesAway :
    (awake .configured).boot.resetDue = false ∧ (awake .configured).inRun = false ∧ (awake .configured).snap.draining = false
      ∧ (awake .configured).pcie.busMaster = true ∧ (awake .configured).hostReaches = true ∧ (awake .configured).mode ≠ .standby
      ∧ heldInPerst.pcie.perst = true ∧ heldInPerst.mode ≠ .standby ∧ heldInPerst.inRun = false ∧ heldInPerst.snap.draining = false
      ∧ heldInPerst.boot.resetDue = false := by
  decide

/-! ### Supply, temperatures -/

def dead : State := { State.reset with power := { Power.reset with present := false } }

theorem witness_TheInputComesUp :
    dead.power.present = false ∧ (awake .standby).mode = .standby ∧ (awake .standby).power.present = true := by decide

theorem witness_TheInputGoesDown :
    (awake .inert).power.present = true ∧ (awake .inert).mode ≠ .standby ∧ (awake .inert).inRun = false
      ∧ (awake .inert).harbour.joined = false ∧ (awake .inert).power.undervolt = false ∧ (awake .inert).boot.resetDue = false
      ∧ (awake .inert).mode = .inert ∧ (awake .configured).mode.hasJob = true ∧ (awake .configured).power.present = true := by decide

/-- One stall of pipeline 0 at a temperature in 1/16 °C, with a thermal step, 10 ms after its change. -/
def warm (temp : BitVec 16) (k : Nat) : State :=
  { withTable (table 1 [(secStallMap, [layout 4 []])]) (awake .configured) with
    stalls := { Stall.reset with temp := temp } :: List.replicate 255 Stall.reset, usec := 10000,
    power := { Power.reset with thermal := [(0, k, 0)], cool := [(0, 0)] } }

theorem witness_ThermalStepsFollowTheHottest :
    ((warm 1600 0).hottest 0 = some 0 ∧ (warm 1600 0).thermalMayChange 0 = true ∧ 16 * 100 ≤ ((warm 1600 0).stall 0).temp.toInt
        ∧ (warm 1600 0).thermalStep 0 < 4)
      ∧ ((warm 1520 1).hottest 0 = some 0 ∧ (warm 1520 1).thermalMayChange 0 = true ∧ ((warm 1520 1).stall 0).temp.toInt ≤ 16 * 95
        ∧ 0 < (warm 1520 1).thermalStep 0 ∧ (warm 1520 1).coolSince 0 = some 0 ∧ 0 + 10000 ≤ (warm 1520 1).usec)
      ∧ (awake .inert).sensorOn 2 = true ∧ 16 * 95 ≤ (1520#16).toInt ∧ 0 ∉ (awake .inert).power.halved
      ∧ (1440#16).toInt ≤ 16 * 90 ∧ 16 * 90 < (1441#16).toInt := by
  refine ⟨⟨by rfl, by decide, by decide, by decide⟩, ⟨by rfl, by decide, by decide, by decide, by decide, by decide⟩, by decide, by decide, by decide,
    by decide, by decide⟩

theorem witness_TripsAndLostClocksFault :
    (tripHolds 2 1600 = true ∧ (awake .inert).sensorOn 2 = true ∧ (awake .inert).mode ≠ .standby ∧ (awake .inert).mode ≠ .booting
        ∧ (awake .inert).boot.resetDue = false)
      ∧ ((awake .inert).power.present = true ∧ 16 * 115 ≤ (1840#16).toInt)
      ∧ (awake .inert).islandOn .crystal = true ∧ (awake .inert).harbour.restore = none ∧ (awake .inert).test.queue = [] := by decide

theorem witness_ReadingsAndRails :
    let x : Stall := { Stall.reset with dvfs := 1, target := some 0 }
    (awake .inert).power.present = true ∧ dead.power.present = false ∧ x.target = some 0 ∧ 0 < x.dvfs ∧ x.lastStep = none
      ∧ (warm 0 0).job.table = some (table 1 [(secStallMap, [layout 4 []])])
      ∧ (table 1 [(secStallMap, [layout 4 []])]).pipelineOf 0 = some 0
      ∧ 0 ∈ (table 1 [(secStallMap, [layout 4 []])]).stallsUsed.filterMap (table 1 [(secStallMap, [layout 4 []])]).pipelineOf
      ∧ (warm 0 0).hottest 0 = some 0 := by decide

/-! ### Quays, window, regions -/

/-- Page 0 is of a class; the fragment of address 0 is pending in a drain where asked. -/
def paged (cls : Nat) (pend : List (Nat × Nat)) (dest : SnapDest) : State :=
  { awake .running with
    mem := { Mem.reset with classes := [(0, cls)] }, snap := { Snap.reset with draining := !pend.isEmpty, pend := pend, dest := dest },
    quays := List.replicate 24 { Quay.reset with free := 512 } }

theorem witness_QuayReadsAnswer :
    0 + max 1 64 ≤ Config.memoryEnd ∧ (paged 2 [] .partner).ResetSettled ∧ (paged 2 [] .partner).refusedPage .quayUnit false 0 64 = none
      ∧ (paged 2 [] .partner).boot.resetDue = false
      ∧ (paged 0 [] .partner).boot.resetDue = false ∧ (paged 0 [] .partner).refusedPage .quayUnit false 0 64 ≠ none
      ∧ 0 ∈ linesOf 0 64 ∧ (paged 2 [] .partner).snap.draining = false
      ∧ symbolsOff [⟨34, 1⟩] = [34] ∧ symbolsOff [⟨35, 0xFFFF⟩] = [35] ∧ symbolsOff [⟨0, 1⟩, ⟨36, 9⟩] = [0, 36] := by decide

/-- Two differences on one symbol cancel or count as one symbol; a symbol of the address is never corrected (R199). -/
theorem test_lineCode :
    lineCheck [⟨3, 5⟩, ⟨3, 5⟩] = some .clean ∧ lineCheck [⟨3, 5⟩, ⟨3, 4⟩] = some .corrected ∧ lineCheck [⟨36, 1⟩] = some .uncorrectable
      ∧ lineCheck [⟨0, 1⟩, ⟨1, 1⟩] = some .uncorrectable ∧ lineCheck [⟨0, 1⟩, ⟨1, 1⟩, ⟨2, 1⟩] = none := by decide

/-- A fragment has at most the 512 granules of its page. -/
theorem fragment_fits (s : State) (f : Nat × Nat) (h : s.drainsToNewcomer = false) (h2 : 512 ≤ (s.quay f.1).free) : s.copyRoom f = true := by
  have : (fragmentOf s.pinned f.1 f.2).length ≤ 512 := by
    unfold fragmentOf
    exact Nat.le_trans (List.length_filter_le _ _) (by simp)
  simp only [State.copyRoom, h, State.copyGranules, Bool.not_false, Bool.true_and]
  exact decide_eq_true (Nat.le_trans this h2)

theorem witness_QuayWritesStore :
    let s := paged 2 [(0, 0)] .partner
    let n := paged 2 [(0, 0)] (.newcomer 3)
    (0 + max 1 ([7] : Bytes).length ≤ Config.memoryEnd ∧ ([7] : Bytes) = (match s.tensorNamed none with | none => [7] | some y => (storeBytes y false [7]).1)
        ∧ (paged 2 [] .partner).ResetSettled
        ∧ (paged 2 [] .partner).refusedPage .quayUnit true 0 ([7] : Bytes).length = none ∧ (paged 2 [] .partner).snap.pend = []
        ∧ (paged 2 [] .partner).mem.wf = true)
      ∧ (s.ResetSettled ∧ s.refusedPage .quayUnit true 0 ([7] : Bytes).length = none ∧ 0 < ([7] : Bytes).length
        ∧ 0 % granuleSize + ([7] : Bytes).length ≤ granuleSize ∧ s.untouched (s.fragOf 0) = true
        ∧ ((s.quay (s.fragOf 0).1).waiting.any fun h => s.fragOf h.addr == s.fragOf 0) = false)
      ∧ s.copyRoom (s.fragOf 0) = true
      ∧ (n.ResetSettled ∧ n.refusedPage .quayUnit true 0 ([7] : Bytes).length = none ∧ n.snap.pend ≠ []
        ∧ n.untouched (n.fragOf 0) = true ∧ n.copyRoom (n.fragOf 0) = false ∧ (n.fragOf 0).1 < n.quays.length)
      ∧ (paged 0 [] .partner).boot.resetDue = false ∧ (paged 0 [] .partner).refusedPage .quayUnit true 0 ([7] : Bytes).length ≠ none
      ∧ (paged 0 [] .partner).snap.draining = false :=
  ⟨by decide, by decide, fragment_fits _ _ rfl (by decide), by decide, by decide, by decide, by decide⟩

def windowed (cls : Nat) : State := { awake .configured with mem := { Mem.reset with classes := [(0, cls)] } }

theorem witness_HostWindow :
    (windowed 3).hostReaches = true ∧ (windowed 3).ResetSettled ∧ (windowed 3).hostMay false ((windowed 3).window + 0) 64 = true
      ∧ (windowed 0).hostMay false ((windowed 0).window + 0) 64 = false
      ∧ (windowed 3).hostMay true ((windowed 3).window + 0) ([7] : Bytes).length = true ∧ (windowed 3).snap.pend = []
      ∧ (windowed 3).mem.wf = true ∧ ([7] : Bytes) ≠ []
      ∧ (windowed 0).hostMay true ((windowed 0).window + 0) ([7] : Bytes).length = false := by decide

/-- A region of one P32 location at address 0, one contribution due. -/
def regionRec : Bytes := layout 64 [(0, 1, 5), (0x18, 4, 1), (0x1C, 1, 2), (0x24, 2, 1), (0x26, 2, 0xFFFF), (0x28, 4, 1)]
def stashTensor (n : Nat) : Bytes := layout 128 [(0, 1, 1), (1, 1, 2), (2, 2, n), (4, 1, Fmt.toCode .l16), (8, 4, 32), (0xC, 4, 1)]
def regionTable : Table :=
  table 2 [(secTides, [regionRec]), (secShoal, [layout 32 [(0, 1, 2), (2, 2, 1), (4, 2, 2)]]), (secFormats, [stashTensor 1, stashTensor 2])]
def regionRun (st : TideStatus) : State :=
  { withTable regionTable (awake .running) with
    run := { Run.reset with kind := .training, tides := [⟨0, 0, st⟩], regions := [⟨0, 0, true, [], [], [], false, []⟩],
                            groups := [⟨4, 0, 32, [], false, true, none⟩] },
    mem := { Mem.reset with classes := [(0, 1)] } }

/-- A module whose piles are powered. -/
def lit : State := { awake .inert with power := { Power.reset with domains := domainMask [quayDomain 0] } }

theorem witness_RegionsScrubAndPacker :
    let u : Tide := ⟨regionTable, (regionTable.inRange 1).headD 0, 0⟩
    ((regionRun .done).job.table = some regionTable ∧ (regionRun .done).tidesRun = true
        ∧ rKind (regionTable.tide 0) = .regionOpen ∧ 0 < gLocs (regionTable.tide 0) ∧ regionTable.carries (regionTable.tide 0) 0 = true
        ∧ (regionRun .done).region? 0 1 = none ∧ 0 ∉ ([] : List Nat)
        ∧ (regionRun .done).region? 0 0 = some ⟨0, 0, true, [], [], [], false, []⟩ ∧ (1 : Nat) ≠ (regionRun .done).job.step
        ∧ kvGet [] 0 + 1 ≤ (regionRun .done).regionDue regionTable 0 ∧ kvGet [] 0 + 1 ≤ 2 ^ gPhi (regionTable.tide 0)
        ∧ ((regionTable.regionRanges (regionTable.tide 0)).findSome? fun a => (regionRun .waiting).refusedPage .quayUnit true a.1 a.2) = none
        ∧ (regionRun .done).refusedPage .quayUnit true (regionTable.regionAddr (regionTable.tide 0) 0) (locSize (regionTable.tide 0)) = none
        ∧ (regionRun .done).locValue (regionTable.tide 0) (regionTable.regionAddr (regionTable.tide 0) 0) = some 0
        ∧ (regionRun .done).snap.pend = [])
      ∧ ((regionRun .waiting).tideStatus? 0 0 = some .waiting ∧ (regionRun .waiting).depsDone ⟨regionTable, 0, 0⟩ = true
        ∧ ∀ g, (regionRun .waiting).region? 0 0 = some g → g.waiting = [])
      ∧ (regionRun .done).ResetSettled ∧ lit.powered (quayDomain 0) = true ∧ dead.powered (quayDomain 0) = false
      ∧ (regionTable.recs secShoal 2)[0]? = some (layout 32 [(0, 1, 2), (2, 2, 1), (4, 2, 2)])
      ∧ ((regionRun .done).run.groups.find? fun x => x.group == 4) = some ⟨4, 0, 32, [], false, true, none⟩
      ∧ 0 < ceilDiv (regionTable.entryRows (layout 32 [(0, 1, 2), (2, 2, 1), (4, 2, 2)]) 32) 32
      ∧ regionTable.tensor? 1 = some (stashTensor 1) ∧ regionTable.tensor? 2 = some (stashTensor 2)
      ∧ (0, 0, 0, 0) ∉ (regionRun .done).run.packed
      ∧ (regionRun .done).refusedPage .quayUnit true ((regionRun .done).place u (stashTensor 2) 0 (tCodes (stashTensor 2))) 16 = none
      ∧ (regionRun .done).refusedPage .quayUnit true ((regionRun .done).place u (stashTensor 2) 0 (tScales (stashTensor 2))) 1 = none := by
  refine ⟨by decide, ⟨by decide, by decide, ?_⟩, by decide, by decide, by decide, by decide, by decide, by decide, by decide, by decide, by decide,
    by decide, by decide⟩
  intro g h
  have : (regionRun .waiting).region? 0 0 = some ⟨0, 0, true, [], [], [], false, []⟩ := by decide
  rw [this] at h
  cases h
  rfl

/-! ### Ports, harbour -/

theorem ports_member (t : Table) : (member t).ports.length = 8 := rfl

def idleBody : FlitBody := ⟨0, false, 0, []⟩
def sent (n : Nat) : SentFlit := ⟨n, 0, idleBody⟩
def flighty : State :=
  { member train0 with ports := { upPort 1 with unacked := [sent 5, sent 6] } :: (member train0).ports.drop 1 }

def goodFlit : Bytes := flitBytes idleBody 0 5 3

set_option maxRecDepth 100000 in
theorem zero_codeword : flitOf (zeros 268) = some (zeros 256, 0) ∧ flitCrcOk (zeros 256) = false := by decide +kernel

set_option maxRecDepth 100000 in
theorem good_codeword : flitOf (flitCodeword goodFlit) = some (goodFlit, 0) ∧ flitCrcOk goodFlit = true := by decide +kernel

/-- A codeword without bytes, one of zeros, whose CRC fails, and one that acknowledges flit 5 and returns 3 credits. -/
theorem witness_FlitLayerAnswers :
    (flighty.ports.length = 8 ∧ (flighty.port 0).up = true ∧ 6 ∈ (flighty.port 0).unacked.map (·.seq)
        ∧ (flighty.port 0).unacked = sent 5 :: [sent 6] ∧ (flighty.port 4).unacked = [] ∧ (flighty.port 4).up = true)
      ∧ flitOf [] = none ∧ (flitOf (zeros 268) = some (zeros 256, 0) ∧ flitCrcOk (zeros 256) = false)
      ∧ (flitOf (flitCodeword goodFlit) = some (goodFlit, 0) ∧ flitCrcOk goodFlit = true) :=
  ⟨by decide, by decide, zero_codeword, good_codeword⟩

def withPort3 (x : Port) : State := { member train0 with ports := (member train0).ports.set 3 x }

/-- A module that restores over port 3. -/
def trainingForRestore : State :=
  { withPort3 { upPort 2 with state := 1 } with
    harbour := { Harbour.reset with restore := some ⟨0, 1, 1, 3, 0xFFFF, false, none, [], [], 0, [], (0, 0)⟩ } }

theorem witness_PortsTrainAndAreLost :
    ((withPort3 { upPort 2 with state := 1 }).ports.length = 8 ∧ (withPort3 { upPort 2 with state := 1 }).ResetSettled
        ∧ (withPort3 { upPort 2 with state := 1 }).harbour.inCensus = false ∧ ((withPort3 { upPort 2 with state := 1 }).port 3).state = 1
        ∧ ((withPort3 { upPort 2 with state := 1 }).port 3).role ≠ 0
        ∧ (withPort3 { upPort 2 with state := 1 }).harbour.restore = none ∧ (withPort3 { upPort 2 with state := 1 }).harbour.joined = true)
      ∧ (trainingForRestore.harbour.restore = some ⟨0, 1, 1, 3, 0xFFFF, false, none, [], [], 0, [], (0, 0)⟩
        ∧ trainingForRestore.harbour.inCensus = false ∧ (trainingForRestore.port 3).state = 1 ∧ (trainingForRestore.port 3).role ≠ 0)
      ∧ (((withPort3 (upPort 2)).port 3).up = true ∧ ((withPort3 (upPort 2)).port 3).lossHolds .laneSilent = true
        ∧ ((withPort3 (upPort 2)).port 3).downs ≠ (withPort3 (upPort 2)).job.step + 1)
      ∧ (((withPort3 { upPort 2 with downs := 1 }).port 3).up = true
        ∧ ((withPort3 { upPort 2 with downs := 1 }).port 3).downs = (withPort3 { upPort 2 with downs := 1 }).job.step + 1
        ∧ ((withPort3 { upPort 2 with downs := 1 }).port 3).role = 2
        ∧ (withPort3 { upPort 2 with downs := 1 }).snap.dest ≠ .newcomer 3 ∧ (1279#16).toInt < 16 * 80)
      ∧ ((withPort3 { upPort 2 with state := 3 }).port 3).state = 3 ∧ ((withPort3 { upPort 2 with state := 3 }).port 3).role = 2 := by decide

def helloFrom (rank feed : Nat) (partner : Bool) : Hello := ⟨4, 1, feed, rank, 0, 0, 0, partner, false, 7, [], []⟩
def fed (feed : Nat) : State := { member train0 with power := { (member train0).power with feedId := feed } }

/-- The HELLOs of the neighbour at port 0 and of the partner. -/
def withDigest (h : Hello) (d : Bytes) : Hello := { h with digest := d }
theorem withDigest_digest (h : Hello) (d : Bytes) : (withDigest h d).digest = d := rfl
def nextHello : Hello := withDigest (helloFrom 1 2 false) ((fed 1).harbourDigest (fed 1).harbour.id)
def partnersHello : Hello := withDigest (helloFrom 2 2 true) ((fed 1).harbourDigest (fed 1).harbour.id)

theorem witness_HelloAndProgress :
    ((fed 1).ports.length = 8 ∧ ((fed 1).port 0).up = true ∧ ((fed 1).port 3).up = true ∧ (fed 1).ResetSettled
        ∧ (fed 1).harbour.joined = true ∧ (fed 1).harbour.joining = none ∧ (fed 1).harbour.restore = none)
      ∧ (0 ∈ (fed 1).harbour.ports ∧ (fed 1).helloFits 0 (helloFrom 3 2 false) = false)
      ∧ (0 ∈ (fed 1).harbour.ports ∧ (fed 1).helloFits 0 nextHello = true ∧ nextHello.rank ∈ (fed 1).harbour.present)
      ∧ nextHello.digest = (fed 1).harbourDigest (fed 1).harbour.id
      ∧ (3 ∉ (fed 1).harbour.ports ∧ (fed 1).harbour.partnerPort = some 3 ∧ partnersHello.restore = false
        ∧ partnersHello.harbourId = (fed 1).harbour.id ∧ partnersHello.rank = (fed 1).harbour.partner ∧ partnersHello.partner = true
        ∧ partnersHello.feedId ≠ (fed 1).power.feedId ∧ partnersHello.feedId ≠ 0xFF ∧ (fed 1).power.feedId ≠ 0xFF)
      ∧ partnersHello.digest = (fed 1).harbourDigest (fed 1).harbour.id
      ∧ 1 = (fed 1).harbour.neighbour 0 :=
  ⟨by decide, by decide, by decide, withDigest_digest _ _, by decide, withDigest_digest _ _, by decide⟩

theorem witness_CausesBeginACensus :
    (member train0).MemberWith 3 ∧ (member train0).ResetSettled ∧ ((member train0).port 0).up = true ∧ (member train0).ports.length = 8
      ∧ (member train0).takesPart = true ∧ (member train0).stalled train0 1 = true
      ∧ (⟨1, 0, 0, 0, 0⟩ : EjectRec).reason ≠ 2 ∧ (⟨2, 1, 0, 0, 0⟩ : EjectRec).reason = 2
      ∧ (1 ≠ 3 ∧ 1 ≠ (member train0).harbour.rank ∧ 1 ∈ (member train0).harbour.present ∧ 1 ∉ (member train0).harbour.leavers)
      ∧ (member train0).job.table = some train0 ∧ train0.tLate ≤ 1000 * 1000
      ∧ ((member train0).harbour.neighbours.any fun n => n.rank == 1 && n.waiting) = false
      ∧ 0 ∈ (member train0).harbour.ports ∧ (1 : Nat) ≠ (member train0).job.step := by decide

def frameTo (dest attempt : Nat) : BucketFrame := ⟨0, 0, 1, dest, 0, train0.shortDigest, attempt, 0, .p32 [some 1]⟩
def present4 : List CensusEntry := List.replicate 4 ⟨.present, false, false, 0, none, 0⟩
def counting : State :=
  { member train0 with harbour := { ringHarbour with inCensus := true, censusNo := 2, view := present4 } }
def partOf : CensusPart := ⟨0, 1, 1, 0, 2, 7, []⟩
def joiningState : State :=
  { withCmd { cmd opJoin [] with started := true } (awake .configured) with
    harbour := { ringHarbour with joined := false, inCensus := true, joining := some ⟨0, 1, [], 0⟩ } }

def retried : State := { member train0 with job := { (member train0).job with attempt := 2 } }

theorem witness_FramesAndCensusParts :
    ((member train0).harbour.joined = true ∧ (member train0).harbour.inCensus = false ∧ 2 ≠ (member train0).harbour.rank
        ∧ (member train0).nextHop (frameTo 2 0).dest = some 0)
      ∧ ((frameTo 0 1).dest = (member train0).harbour.rank ∧ (frameTo 0 1).step = (member train0).job.step
        ∧ (member train0).inRun = true ∧ (member train0).stepOpen = true ∧ (member train0).job.attempt < (frameTo 0 1).attempt
        ∧ (member train0).takesPart = true ∧ 0 ∈ (member train0).harbour.ports)
      ∧ (retried.takesPart = true ∧ retried.harbour.inCensus = false ∧ 0 ∈ retried.harbour.ports ∧ (frameTo 0 1).dest = retried.harbour.rank
        ∧ (frameTo 0 1).step = retried.job.step ∧ retried.inRun = true ∧ retried.stepOpen = true ∧ (frameTo 0 1).attempt < retried.job.attempt)
      ∧ (frameTo 0 1).digest = retried.shortDigest
      ∧ (frameTo 0 1).digest = (member train0).shortDigest
      ∧ (counting.harbour.joined = true ∧ partOf.harbourId = counting.harbour.id ∧ counting.mode ≠ .quarantined
        ∧ counting.harbour.inCensus = true ∧ partOf.number = counting.harbour.censusNo ∧ partOf.sender < counting.harbour.size
        ∧ counting.harbour.joining = none ∧ counting.harbour.agreed = false ∧ counting.takesPart = true ∧ 0 ∈ counting.harbour.ports
        ∧ counting.harbour.hasPart partOf = false ∧ partOf.sender ≠ counting.harbour.rank
        ∧ Harbour.fullView { counting.harbour with parts := [partOf] } 1 = none)
      ∧ (1 ≠ counting.harbour.rank ∧ counting.harbour.holds 1 = true ∧ (∀ v ∈ counting.harbour.views, v.1 ≠ 1 ∧ v.1 ≠ 2)
        ∧ 2 ≠ counting.harbour.rank ∧ counting.harbour.holds 2 = true ∧ 2 < counting.harbour.size)
      ∧ joiningState.harbour.joining = some ⟨0, 1, [], 0⟩ ∧ joiningState.cmd? 0 1 = some { cmd opJoin [] with started := true }
      ∧ joiningState.entryFits { cmd opJoin [] with started := true } = true :=
  ⟨by decide, by decide, by decide, rfl, rfl, by decide, by decide, by decide, by decide, by decide⟩

/-! ### Journal, restores -/

def mirrorTable : Table := table 1 [(secSurvival, [layout 64 [(0, 1, 1), (1, 1, 1)]])]
def mirroring (c : Option Commit) : State :=
  { member mirrorTable with journal := { Journal.reset with extent := 1, commit := c } }

/-- A step commit whose acknowledgement is due. -/
def owing : State := mirroring (some ⟨[], false, true, true, false⟩)

/-- A record without entries, and one whose Reserved byte 8FH is not 0. -/
def aRecord (r : BitVec 8) : Bytes := closeRecord (zeros 0x8F ++ [r]) []

set_option maxRecDepth 100000 in
theorem records_stand : recordStands (aRecord 0) = true ∧ recordStands (aRecord 1) = false := by decide +kernel

set_option maxRecDepth 100000 in
theorem witness_PartnerMirrorsAndStores :
    (recordStands (aRecord 0) = true ∧ recordStands (aRecord 1) = false) ∧ (mirroring none).ports.length = 8 ∧ (mirroring none).fromPartner 3 = true ∧ (mirroring none).ResetSettled
      ∧ (mirroring none).job.table = some mirrorTable ∧ (mirroring none).harbour.inCensus = false
      ∧ (mirroring none).journal.flashOk = true
      ∧ recordsBytes [aRecord 0] ≤ (mirroring none).partnerExtent * mib - journalUsed (mirroring none).journal.partner
      ∧ ((member train0).fromPartner 3 = true ∧ (member train0).journal.flashOk = true
        ∧ ¬ recordsBytes [aRecord 0] ≤ (member train0).partnerExtent * mib - journalUsed (member train0).journal.partner)
      ∧ (owing.fromPartner 3 = true ∧ owing.ResetSettled ∧ owing.harbour.inCensus = false ∧ owing.job.table = some mirrorTable
        ∧ owing.journal.commit = some ⟨[], false, true, true, false⟩)
      ∧ ((mirroring (some ⟨[], true, true, false, false⟩)).fromPartner 3 = true
        ∧ (mirroring (some ⟨[], true, true, false, false⟩)).journal.commit = some ⟨[], true, true, false, false⟩) :=
  ⟨records_stand, by decide, by decide, by decide, by decide, by decide, by decide, by decide +kernel, ⟨by decide, by decide, by decide +kernel⟩,
    by decide, by decide⟩

/-- One weight of one tile that is not trained, its codes in page 0. -/
def weightTable : Table :=
  table 1 [(secFormats, [layout 128 [(0, 1, 1), (1, 1, 1), (5, 1, 1), (8, 4, 32), (0xC, 4, 32), (0x11, 1, 0xFF), (0x20, 8, noAddr), (0x28, 8, noAddr),
    (0x40, 8, noAddr), (0x48, 8, noAddr), (0x50, 8, noAddr), (0x58, 8, noAddr)]])]
def restoreRun (greeted : Bool) : RestoreRun := ⟨0, 1, 2, 3, 0xFFFF, greeted, none, [], [], 0, [], (0, 0)⟩
def overPort (greeted : Bool) : State :=
  { withTable weightTable (withCmd { cmd opRestore [] with started := true } (awake .configured)) with
    harbour := { Harbour.reset with restore := some (restoreRun greeted) }, mem := { Mem.reset with classes := [(0, 1)] },
    ports := List.replicate 3 Port.reset ++ upPort 2 :: List.replicate 4 Port.reset }

/-- The fragment of page 0 on quay 0 has 43 granules. -/
theorem fragment_of_page0 : (fragmentOf [] 0 0).length = 43 := by decide +kernel

def fromStore : State := { overPort true with harbour := { Harbour.reset with restore := some { restoreRun true with source := 1 } } }

theorem witness_RestoreOverAPortGoesOn :
    ((overPort false).harbour.restore = some (restoreRun false) ∧ (overPort false).ports.length = 8
        ∧ (overPort false).cmd? 0 1 = some { cmd opRestore [] with started := true }
        ∧ (overPort false).entryFits { cmd opRestore [] with started := true } = true ∧ (overPort false).ResetSettled
        ∧ (overPort false).job.table = some weightTable)
      ∧ ((overPort true).harbour.restore = some (restoreRun true) ∧ ((overPort true).port 3).up = true ∧ (restoreRun true).source = 2
        ∧ (restoreRun true).record = [] ∧ (restoreRun true).step = none)
      ∧ (fromStore.harbour.restore = some { restoreRun true with source := 1 } ∧ (fromStore.port 3).up = true
        ∧ fromStore.imageChunks weightTable [] = none)
      ∧ 0 ∈ weightTable.transferPages
      ∧ (overPort true).chunkFits ⟨0, 0, 0, List.replicate (granuleSize * 43) 0⟩ = true := by
  refine ⟨by decide +kernel, by decide, by decide, by decide +kernel, ?_⟩
  have h : (fragmentOf (overPort true).pinned 0 0).length = 43 := fragment_of_page0
  have k : (overPort true).mem.classOf 0 = 1 := by decide
  unfold State.chunkFits
  rw [h, k, List.length_replicate]
  rfl

def committing (c : Commit) (m : ModuleState) : State :=
  { withTable train0 (awake m) with journal := { Journal.reset with commit := some c, compacting := true } }

/-- A partner's journal of 1 MiB under a table with a budget of 1 MiB a record: its free space is below the limit of R332. -/
def budgetTable : Table := table 1 [(secSurvival, [layout 64 [(0, 1, 1), (1, 1, 1), (0x18, 4, 1048576)]])]
def compactingPartner : State := { member budgetTable with journal := { Journal.reset with extent := 1 } }

theorem witness_JournalWritesCommit :
    let mirrored : Commit := ⟨[], false, true, true, false⟩
    let other : Commit := ⟨[], false, false, false, false⟩
    let ofStep : Commit := ⟨[], false, false, true, false⟩
    ((committing mirrored .slack).job.table = some train0 ∧ (committing mirrored .slack).harbour.inCensus = false
        ∧ (committing mirrored .slack).journal.commit = some mirrored ∧ (committing mirrored .slack).ResetSettled)
      ∧ ((committing other .slack).journal.commit = some other ∧ (committing other .slack).ResetSettled)
      ∧ ((committing ofStep .slack).journal.commit = some ofStep ∧ (committing ofStep .slack).settled = true
        ∧ (committing ofStep .slack).transferOpen = false ∧ (committing ofStep .slack).run.outcome = .applied
        ∧ (committing ofStep .slack).harbour.joined = false ∧ (committing ofStep .slack).boot.resetDue = false)
      ∧ (committing ofStep .slack).journal.compacting = true
      ∧ compactingPartner.job.table = some budgetTable ∧ compactingPartner.harbour.inCensus = false ∧ compactingPartner.partnerExtent ≠ 0
      ∧ compactDue budgetTable (compactingPartner.partnerExtent * mib - journalUsed compactingPartner.journal.partner) = true := by decide

def draining (w : List HeldWrite) : State :=
  { paged 2 [(0, 0)] (.host 0 4096 none none) with quays := { Quay.reset with waiting := w } :: List.replicate 23 Quay.reset }

theorem witness_DrainTakesFragments :
    ((draining []).journal.commit = none ∧ (draining []).harbour.inCensus = false ∧ (draining []).ResetSettled
        ∧ (draining []).nextFragment 0 = some 0 ∧ (draining []).snap.draining = true ∧ (draining []).drainOpen = true
        ∧ (draining []).refusedPage .drain false (0 * pageSize) 1 = none)
      ∧ (awake .configured).snap.draining = false
      ∧ 0 < (draining [⟨2121728, [7], 0⟩]).quays.length
      ∧ ∀ w ∈ ((draining [⟨2121728, [7], 0⟩]).quay 0).waiting, ((draining [⟨2121728, [7], 0⟩]).fragOf w.addr).1 = 0
          ∧ (draining [⟨2121728, [7], 0⟩]).untouched ((draining [⟨2121728, [7], 0⟩]).fragOf w.addr) = false := by decide

/-! ### Tides, runs -/

def gatherRec : Bytes := layout 64 [(0, 1, 6)]
def gatherTable : Table := table 2 [(secTides, [gatherRec])]
def tideRun (st : TideStatus) (tiles : List Tile) : State :=
  { withTable gatherTable (awake .running) with
    run := { Run.reset with kind := .training, tides := [⟨0, 0, st⟩] },
    stalls := { Stall.reset with tiles := tiles } :: List.replicate 255 Stall.reset }
def oldTile : Tile := ⟨9, 0, 0, 1, false, .opened, 0, []⟩

def gather0 : Tide := ⟨gatherTable, 0, 0⟩

/-- One tide of stall 0 in a state, with passes to make. -/
def runOf (t : Table) (st : TideStatus) (left : Nat) : State :=
  { withTable t (awake .running) with
    run := { Run.reset with kind := .training, tides := [⟨0, 0, st⟩] },
    stalls := { Stall.reset with passesLeft := left } :: List.replicate 255 Stall.reset }

/-- A LANE that writes tensor 1, whose page has no class. -/
def laneTable : Table := table 2 [(secTides, [layout 64 [(0, 1, 3), (0x16, 2, 1)]]), (secFormats, [stashTensor 1])]
def lane0 : Tide := ⟨laneTable, 0, 0⟩

/-- A PRODUCT of one block and two column tiles. -/
def planeTable : Table :=
  table 2 [(secTides, [layout 64 [(0, 1, 1), (0x1C, 2, 1), (0x1E, 2, 1), (0x24, 2, 2), (0x2C, 4, 1), (0x3A, 1, 1)]])]
def plane0 : Tide := ⟨planeTable, 0, 0⟩

/-- A closer of a gathering tile that waits for the one use of it. -/
def closerTable : Table :=
  { table 2 [(secTides, [layout 64 [(0, 1, 1), (1, 1, 2)], layout 64 [(0, 1, 2), (1, 1, 4), (8, 2, 1)]])] with deps := [0] }
def closing : State :=
  { withTable closerTable (awake .running) with
    run := { Run.reset with kind := .training, tides := [⟨0, 0, .waiting⟩, ⟨1, 0, .issued⟩] } }

theorem witness_TidesAreIssuedStartedAndDone :
    ((tideRun .waiting []).job.table = some gatherTable ∧ (tideRun .waiting []).tidesRun = true
        ∧ (tideRun .waiting []).nextIssue gatherTable 0 = some ⟨0, 0, .waiting⟩)
      ∧ ((tideRun .issued []).nextStart gatherTable 0 = some gather0 ∧ (tideRun .issued []).boot.resetDue = false
        ∧ ((tideRun .issued []).reach gather0).findSome? (fun r => (tideRun .issued []).refusedPage (.tide 0) r.1 r.2.1 r.2.2) = none
        ∧ (tideRun .issued []).recomputes gather0 = false ∧ pToRegion gather0.bytes = false)
      ∧ ((runOf laneTable .issued 0).job.table = some laneTable ∧ (runOf laneTable .issued 0).tidesRun = true
        ∧ (runOf laneTable .issued 0).nextStart laneTable 0 = some lane0
        ∧ ((runOf laneTable .issued 0).reach lane0).findSome?
            (fun r => (runOf laneTable .issued 0).refusedPage (.tide 0) r.1 r.2.1 r.2.2) ≠ none)
      ∧ ((tideRun .started []).tideStatus? 0 0 = some .started ∧ rKind (gatherTable.tide 0) ≠ .hostLayer
        ∧ (tideRun .started []).passesDue gatherTable 0 = false)
      ∧ (0 < (runOf planeTable .issued 0).stalls.length ∧ (runOf planeTable .issued 0).running planeTable 0 = none
        ∧ (runOf planeTable .issued 0).nextPlane planeTable 0 = some plane0 ∧ (runOf planeTable .issued 0).recomputes plane0 = false
        ∧ plane0.passes.head? = some ⟨0, 0, 0, 1, 0, true, true⟩)
      ∧ ((runOf planeTable .started 1).running planeTable 0 = some plane0 ∧ ((runOf planeTable .started 1).stall 0).passesLeft ≠ 0
        ∧ plane0.passes[plane0.passes.length - ((runOf planeTable .started 1).stall 0).passesLeft]? = some ⟨0, 128, 0, 1, 0, true, true⟩
        ∧ pToRegion plane0.bytes = false)
      ∧ ((tideRun .done []).running gatherTable 0 = none ∧ (tideRun .done []).nextPlane gatherTable 0 = none)
      ∧ ((tideRun .issued [oldTile]).boot.resetDue = false
        ∧ (((tideRun .issued [oldTile]).issuedOf gatherTable 0).find? fun u => u.idx == 0 && u.inst == 0) = some ⟨gatherTable, 0, 0⟩
        ∧ (tideRun .issued [oldTile]).otherwiseReady ⟨gatherTable, 0, 0⟩ = true
        ∧ (tideRun .issued [oldTile]).tileUsable ⟨gatherTable, 0, 0⟩ = false)
      ∧ (closing.job.table = some closerTable ∧ closing.tidesRun = true ∧ closing.boot.resetDue = false
        ∧ ((closing.issuedOf closerTable 0).find? fun u => u.idx == 1 && u.inst == 0) = some ⟨closerTable, 1, 0⟩
        ∧ closing.closerWaits ⟨closerTable, 1, 0⟩ = true ∧ closing.depsDone ⟨closerTable, 1, 0⟩ = false) := by decide +kernel

/-- A host layer from tensor 1 to tensor 2, four L16 elements each. -/
def layerTable : Table :=
  table 2 [(secTides, [layout 64 [(0, 1, 8), (0x14, 2, 1), (0x16, 2, 2)]]), (secHostLayers, [layout 32 [(1, 1, Fmt.toCode .l16)]]),
    (secFormats, [layout 128 [(0, 1, 1), (1, 1, 2), (2, 2, 1), (4, 1, Fmt.toCode .l16), (8, 4, 1), (0xC, 4, 4)],
      layout 128 [(0, 1, 1), (1, 1, 2), (2, 2, 2), (4, 1, Fmt.toCode .l16), (8, 4, 1), (0xC, 4, 4)]])]
def asking : State :=
  { withTable layerTable (withCmd { cmd opServe [] with started := true } (awake .running)) with
    run := { Run.reset with kind := .serving, tides := [⟨0, 0, .waiting⟩] }, mem := { Mem.reset with classes := [(0, 2)] } }

/-- Its request is open, and the result is there to be read. -/
def answering : State :=
  { withTable layerTable (withCmd (cmd opFeed layerFields) (awake .running)) with
    run := { Run.reset with kind := .serving, tides := [⟨0, 0, .started⟩], hostReqs := [⟨5, 0, 0, 0, 0, 0, 2, 0, 4⟩] },
    mem := { Mem.reset with classes := [(0, 2)] } }

theorem witness_HostLayerResultStoresItsRows :
    (answering.waiting opFeed 0 1 = some (cmd opFeed layerFields) ∧ eKind (cmd opFeed layerFields).entry = 2
        ∧ answering.job.table = some layerTable
        ∧ answering.hostReq? (eGroup (cmd opFeed layerFields).entry) = some ⟨5, 0, 0, 0, 0, 0, 2, 0, 4⟩)
      ∧ (layerTable.tensor? (hlOut (layerTable.tide 0)) = some (layout 128 [(0, 1, 1), (1, 1, 2), (2, 2, 2), (4, 1, Fmt.toCode .l16), (8, 4, 1), (0xC, 4, 4)])
        ∧ layerTable.hostLayer? 0 = some (layout 32 [(1, 1, Fmt.toCode .l16)]) ∧ Fmt.ofCode (Fmt.toCode .l16) = some .l16
        ∧ tFmt (layout 128 [(0, 1, 1), (1, 1, 2), (2, 2, 2), (4, 1, Fmt.toCode .l16), (8, 4, 1), (0xC, 4, 4)]) = .l16
        ∧ ((answering.layerReach ⟨layerTable, 0, 0⟩ (layout 128 [(0, 1, 1), (1, 1, 2), (2, 2, 2), (4, 1, Fmt.toCode .l16), (8, 4, 1), (0xC, 4, 4)])
            true).findSome? fun a => answering.refusedPage (.tide 0) a.1 a.2.1 a.2.2) = none)
      ∧ answering.tideStatus? 0 0 = some .started ∧ answering.snap.pend = []
      ∧ answering.entryFits (cmd opFeed layerFields) = true := by decide

def batch2 (data : Bytes) : Batch := ⟨0, 2, false, 0, data, (Config.batchDigest data).toNat, false⟩
def grouped (l : List Batch) : State :=
  { withTable train0 (awake .running) with
    job := { Job.reset with table := some train0, batches := l },
    run := { Run.reset with kind := .training, groups := [⟨2, 0, 0, [], false, false, none⟩] } }

/-- A batch of 32 tokens, and a table whose shoal has no region but a stash entry and a segment. -/
def batch32 : Bytes := layout 64 [(0x18, 4, 32)]
def tightTable : Table :=
  table 1 [(secShoal, [layout 32 [(0, 1, 2), (2, 2, 1), (4, 2, 2)], layout 32 [(0, 1, 3), (2, 2, 0), (4, 2, 9)]]),
    (secFormats, [stashTensor 1, stashTensor 2])]
def packed1 : State :=
  { withTable tightTable (awake .running) with
    job := { Job.reset with table := some tightTable, batches := [batch2 batch32] },
    run := { Run.reset with kind := .training, groups := [⟨2, 0, 0, [], false, false, none⟩] } }

theorem witness_GroupsStartAndLayersAsk :
    ((grouped []).job.table = some train0 ∧ (grouped []).tidesRun = true
        ∧ ((grouped []).run.groups.find? fun x => x.group == 2) = some ⟨2, 0, 0, [], false, false, none⟩
        ∧ ((grouped []).run.groups.any fun x => x.place < 0 && !x.started) = false ∧ (grouped []).batch? 2 = none)
      ∧ ((grouped [batch2 []]).batch? 2 = some (batch2 []) ∧ (grouped [batch2 []]).batchBad (batch2 []) = false
        ∧ (grouped [batch2 []]).ResetSettled
        ∧ reservePages (train0.recs secShoal 1) (train0.framePages (batchTokens ((grouped [batch2 []]).batchBytes (batch2 []))))
            0 (grouped [batch2 []]).framesUsed = some [])
      ∧ (packed1.job.table = some tightTable ∧ packed1.tidesRun = true ∧ packed1.batch? 2 = some (batch2 batch32)
        ∧ packed1.batchBad (batch2 batch32) = false
        ∧ reservePages (tightTable.recs secShoal 1) (tightTable.framePages (batchTokens (packed1.batchBytes (batch2 batch32))))
            0 packed1.framesUsed = none
        ∧ packed1.earlierBusy tightTable 0 = false ∧ tightTable.segments.isEmpty = false
        ∧ reservePages (tightTable.recs secShoal 1) (tightTable.checkpointPages (batchTokens (packed1.batchBytes (batch2 batch32))))
            0 packed1.framesUsed = some [])
      ∧ asking.layerTide layerTable 0 0 = some ⟨layerTable, 0, 0⟩ ∧ (layerTable.hostLayer? 0).isSome = true
      ∧ asking.layerCmd = some { cmd opServe [] with started := true }
      ∧ ((layerTable.tensor? (hlIn (layerTable.tide 0))).isSome = true ∧ (layerTable.tensor? (hlOut (layerTable.tide 0))).isSome = true
        ∧ Fmt.ofCode (Fmt.toCode .l16) = some .l16 ∧ asking.pcie.busMaster = true ∧ asking.settled = true
        ∧ (asking.run.hostReqs.any fun q => q.layer == 0 && q.dir == 0) = false
        ∧ ((asking.layerReach ⟨layerTable, 0, 0⟩ (layout 128 [(0, 1, 1), (1, 1, 2), (2, 2, 1), (4, 1, Fmt.toCode .l16), (8, 4, 1), (0xC, 4, 4)])
            false).findSome? fun a => asking.refusedPage (.tide 0) a.1 a.2.1 a.2.2) = none) := by
  refine ⟨by decide, ⟨rfl, ?_, by decide, by decide⟩, ⟨by decide, by decide, rfl, ?_, by decide, by decide, by decide, by decide⟩, by decide,
    by decide, by decide, by decide⟩
  all_goals simp [State.batchBad, State.batchBytes, batch2]

def stepping (kind : RunKind) (t : Table) : State :=
  { withTable t (awake .running) with run := { Run.reset with kind := kind } }
def bucketTable : Table := table 1 [(secBuckets, [layout 32 [(0, 1, 2)]])]
def serving (closing : Bool) (l : List ServeReq) : State :=
  { withTable serve0 (awake .running) with run := { Run.reset with kind := .serving, closing := closing, serves := l } }

def decodingRun : State :=
  { withTable serve0 (withCmd (cmd opServe []) (awake .running)) with
    run := { Run.reset with kind := .serving, serves := [⟨0, 1, some 0, [], [], 1, true, false⟩] } }

theorem witness_RunsReachTheirBoundaries :
    ((stepping .training train0).job.table = some train0 ∧ (stepping .training train0).mode = .running
        ∧ (stepping .training train0).boot.resetDue = false ∧ (stepping .training train0).run.kind = .training
        ∧ (stepping .training train0).harbour.inCensus = false
        ∧ (stepping .training train0).run.slack = .none ∧ (stepping .training train0).tidesDone = true
        ∧ (stepping .training train0).stepDone train0 = true
        ∧ (if (stepping .training train0).outcomeOf train0 = .applied then train0.chandlerReach else []).findSome?
            (fun r => (stepping .training train0).refusedPage .quayUnit r.1 r.2.1 r.2.2) = none)
      ∧ (runOf gatherTable .started 0).tidesDone = false
      ∧ (stepping .training bucketTable).tidesDone = true
      ∧ ((stepping .training bucketTable).stepDone bucketTable = false ∧ (stepping .training bucketTable).harbour.link.active = false
        ∧ (stepping .training bucketTable).harbour.inCensus = false ∧ (stepping .training bucketTable).harbour.joined = false
        ∧ (stepping .training bucketTable).curBucket bucketTable = some (layout 32 [(0, 1, 2)])
        ∧ (stepping .training bucketTable).bucketReady bucketTable (layout 32 [(0, 1, 2)]) = true
        ∧ (bucketTable.bucketReach (layout 32 [(0, 1, 2)])).findSome?
            (fun r => (stepping .training bucketTable).refusedPage .linkEngine r.1 r.2.1 r.2.2) = none)
      ∧ ((serving true []).run.kind = .serving ∧ ((serving true []).run.tides.all fun u => u.status == .done) = true
        ∧ (serving true []).run.closing = true)
      ∧ ((decodingRun.run.tides.all fun u => u.status == .done) = true
        ∧ decodingRun.run.serves = [⟨0, 1, some 0, [], [], 1, true, false⟩] ∧ (⟨0, 1, some 0, [], [], 1, true, false⟩ : ServeReq).decoding serve0 = true
        ∧ decodingRun.cmd? 0 1 = some (cmd opServe [])
        ∧ ∀ x ∈ decodingRun.run.serves, x.sq = 0 → x.cid = 1 → x = ⟨0, 1, some 0, [], [], 1, true, false⟩)
      ∧ ((serving false [⟨0, 1, none, [5], [], 0, false, false⟩]).run.closing = false
        ∧ (serving false [⟨0, 1, none, [5], [], 0, false, false⟩]).cmdsOf opHalt = []
        ∧ (∀ r ∈ (serving false [⟨0, 1, none, [5], [], 0, false, false⟩]).run.serves, r.decoding serve0 = false)) := by decide

theorem witness_SumsDoNotDependOnTheOrder : [((1 : Int), false), (2, true)].Perm [(2, true), (1, false)] := List.Perm.swap _ _ _

/-! ## Operands out of range: one ill-formed command for each check of WellFormed.lean -/

theorem test_ill_formed_ids :
    Instr.wf (.identify 16 0) = false ∧ Instr.wf (.identify 0 65536) = false ∧ Instr.wf (.identify 15 65535) = true
      ∧ Instr.wf (.serve 16 0 []) = false ∧ Instr.wf (.joinHarbour 0 0 (zeros 127)) = false ∧ Instr.wf (.joinHarbour 0 0 (zeros 128)) = true := by
  decide +kernel

theorem test_ill_formed_queue_writes :
    Instr.wf (.sqTailDb 0 65536 []) = false ∧ Instr.wf (.sqTailDb 0 1 [⟨zeros 63, [], []⟩]) = false
      ∧ Instr.wf (.sqTailDb 0 1 [⟨zeros 64, [⟨2 ^ 64, 0⟩], []⟩]) = false ∧ Instr.wf (.sqTailDb 0 1 [⟨zeros 64, [⟨0, 2 ^ 64⟩], []⟩]) = false
      ∧ Instr.wf (.cqHeadDb 16 0) = false ∧ Instr.wf (.cqHeldEntryPost 16) = false ∧ Instr.wf (.sqEnable 0 16 4) = false
      ∧ Instr.wf (.sqDisable 0 0 16) = false ∧ Instr.wf (.cqEnable 0 true 64 4) = false ∧ Instr.wf (.cqDisable 0 true 0 16) = false := by
  decide

theorem test_ill_formed_register_writes :
    Instr.wf (.evAck (2 ^ 32)) = false ∧ Instr.wf (.evCtrlIntEn 64 0) = false ∧ Instr.wf (.satBitClear (2 ^ 25) 8 1) = false
      ∧ Instr.wf (.satBitClear 0 9 1) = false ∧ Instr.wf (.satBitClear 0 8 (2 ^ 64)) = false ∧ Instr.wf (.bwBaseWrite (2 ^ 64)) = false
      ∧ Instr.wf (.msixVectorUnmask 64) = false ∧ Instr.wf (.registerWrite (2 ^ 25) 4 0) = false ∧ Instr.wf (.registerWrite 0 9 0) = false
      ∧ Instr.wf (.registerWrite 0 8 (2 ^ 64)) = false ∧ Instr.wf (.i3cPointerWrite 65536) = false ∧ Instr.wf (.doeRequest 256 []) = false := by
  decide

/-- A BAR2 request that crosses 4 KiB, is empty, or reaches past 64 GiB (R352). -/
theorem test_ill_formed_window :
    Instr.wf (.bar2Read 4095 2 []) = false ∧ Instr.wf (.bar2Read 0 0 []) = false ∧ Instr.wf (.bar2Read 68719476735 2 []) = false
      ∧ Instr.wf (.bar2Read 0 1 [⟨25769803776, []⟩]) = false ∧ Instr.wf (.bar2Write 0 []) = false ∧ Instr.wf (.bar2Write 4095 [1]) = true := by
  decide

theorem test_ill_formed_pins_and_sensors :
    Instr.wf (.dmaErrorCompletion (.command 16 0) 0) = false ∧ Instr.wf (.dmaErrorCompletion (.batch (2 ^ 64) 0) 0) = false
      ∧ Instr.wf (.dmaErrorCompletion (.command 0 0) (2 ^ 64)) = false ∧ Instr.wf (.powerApplied 65536 0) = false
      ∧ Instr.wf (.powerApplied 50000 256) = false ∧ Instr.wf (.bootStart 50000 [256]) = false ∧ Instr.wf (.resetNRelease [256]) = false
      ∧ Instr.wf (.inputUndervolt 65536) = false ∧ Instr.wf (.thermalStepDown 256) = false ∧ Instr.wf (.dramThermalHalve 24 0) = false
      ∧ Instr.wf (.thermalTripFault 26 0) = false ∧ Instr.wf (.thermalTripAmrath 38 0) = false ∧ Instr.wf (.clockLockLost (.aisle 2)) = false
      ∧ Instr.wf (.clockLockLost (.stall 256)) = false ∧ Instr.wf (.clockLockLost (.quay 24)) = false ∧ Instr.wf (.clockLockLost (.port 8)) = false := by
  decide

def readings (n : Nat) : Readings := ⟨50000, 0, 0, 0, List.replicate n 0, [], []⟩

theorem test_ill_formed_readings :
    Instr.wf (.sensorRefresh (readings 39)) = false ∧ Instr.wf (.sensorRefresh (readings 40)) = true
      ∧ Instr.wf (.sensorRefresh { readings 40 with milliVolts := 65536 }) = false
      ∧ Instr.wf (.sensorRefresh { readings 40 with stallTemps := [(256, 0)] }) = false
      ∧ Instr.wf (.sensorRefresh { readings 40 with ports := [⟨8, 0, 0, 0⟩] }) = false := by decide

theorem test_ill_formed_links :
    Instr.wf (.flitError 8 (zeros 268)) = false ∧ Instr.wf (.flitError 0 []) = false ∧ Instr.wf (.nak 0 65536) = false
      ∧ Instr.wf (.flitAcknowledgement 0 (zeros 256) (zeros 11)) = false ∧ Instr.wf (.flitAcknowledgement 0 (zeros 256) (zeros 12)) = true
      ∧ Instr.wf (.hello 0 ⟨8, 1, 1, 0, 0, 0, 0, false, false, 0, [], []⟩) = false
      ∧ Instr.wf (.hello 0 ⟨0, 1, 1, 512, 0, 0, 0, false, false, 0, [], []⟩) = false
      ∧ Instr.wf (.hello 0 ⟨0, 1, 1, 0xFFFF, 0, 0, 0, false, false, 0, [], []⟩) = true
      ∧ Instr.wf (.progress 0 ⟨false, false, false, false, 0, 512, 0, 0, 0⟩) = false ∧ Instr.wf (.eject 0 ⟨0, 0, 0, 0, 0⟩) = false
      ∧ Instr.wf (.eject 0 ⟨8, 0, 0, 0, 0⟩) = false ∧ Instr.wf (.fault 0 ⟨1, 512, 0⟩) = false ∧ Instr.wf (.leave 0 512) = false
      ∧ Instr.wf (.unknownControlRecord 0 256) = false ∧ Instr.wf (.censusViewTimeout 512) = false ∧ Instr.wf (.bucketLate 512 0) = false := by
  decide +kernel

def aFrame : BucketFrame := ⟨0, 0, 1, 2, 0, 0, 0, 0, .p32 []⟩

theorem test_ill_formed_frames :
    Instr.wf (.bucketFrame 0 aFrame) = true ∧ Instr.wf (.bucketFrame 0 { aFrame with phase := 5 }) = false
      ∧ Instr.wf (.bucketFrame 0 { aFrame with sender := 512 }) = false
      ∧ Instr.wf (.bucketFrame 0 { aFrame with payload := .stats [.harbour 65536 0 false false 0] }) = false
      ∧ Instr.wf (.bucketFrame 0 { aFrame with payload := .stats [.tensor ⟨none, false, false, 2 ^ 64, 0, 0, 0, 0⟩] }) = false
      ∧ Instr.wf (.censusPart 0 ⟨1, 1, 0, 0, 0, 0, []⟩) = false ∧ Instr.wf (.censusPart 0 ⟨0, 1, 512, 0, 0, 0, []⟩) = false := by decide

theorem test_ill_formed_partner_and_engines :
    Instr.wf (.journalMirrorReceived 8 []) = false ∧ Instr.wf (.mirrorAck 0 (2 ^ 64)) = false
      ∧ Instr.wf (.snapshotFragmentReceived 0 0 0 0 24 0 (.fragment [])) = false
      ∧ Instr.wf (.snapshotFragmentReceived 0 0 1 0 0 0 (.record [])) = false ∧ Instr.wf (.stateTransferReceived 8 .refusedByDonor) = false
      ∧ Instr.wf (.tideStart 256 .clean 0) = false ∧ Instr.wf (.tideComplete (2 ^ 32) 0) = false ∧ Instr.wf (.tileDeadlock 256 0 0) = false
      ∧ Instr.wf (.regionOpen (2 ^ 32) 0) = false ∧ Instr.wf (.quayRead (.tide (2 ^ 32)) 0 1 none []) = false
      ∧ Instr.wf (.quayRead .drain 0 0 none []) = false ∧ Instr.wf (.quayWrite .drain 0 none ⟨[], false⟩ []) = false
      ∧ Instr.wf (.atomicAdd 0 0 0 0 65536 ⟨0, false, false, 0⟩) = false ∧ Instr.wf (.patrolScrub 24 []) = false ∧ Instr.wf (.refresh 24) = false
      ∧ Instr.wf (.stashBlockPack 0 (2 ^ 32) 0 0) = false ∧ Instr.wf (.groupForwardStart (2 ^ 32)) = false
      ∧ Instr.wf (.hostLayerRequest 0 2) = false ∧ Instr.wf (.breakwaterStall 24) = false ∧ Instr.wf (.testComplete [[(2 ^ 64, 0)]]) = false := by decide

/-! ## Worked numbers of the manual -/

/-- Chapter 1, worked conversion of an E4M3 block into L4: the L19 codes and the L4 codes under S8 = 5. -/
theorem test_e4m3_block_into_l4 :
    ([0x4C, 0xB8, 0x2A, 0x36, 0x40, 0x03].map fun c => (loadPublic .e4m3 false c).code)
        = [0x20A57, 0x60000, 0x1F94A, 0x1FF3B, 0x20400, 0]
      ∧ ([0x4C, 0xB8, 0x2A, 0x36, 0x40, 0x03].map fun c => (narrow .l4 5 none (loadPublic .e4m3 false c)).1) = [7, 0xA, 0, 2, 4, 0]
      ∧ packCodes .l4 [7, 0xA, 0, 2, 4, 0, 0, 0] = [0xA7, 0x20, 0x04, 0] := by decide +kernel

/-- Chapter 1, stochastic rounding of element 3, on both sides of its threshold. -/
theorem test_stochastic_rounding :
    (narrow .l4 5 (some 0xA0000000) (loadPublic .e4m3 false 0x36)).1 = 1
      ∧ (narrow .l4 5 (some 0x9D7FFFFF) (loadPublic .e4m3 false 0x36)).1 = 2 := by decide +kernel

/-- Chapter 1: L16 out to binary16 and E4M3, and A64 into G16 with a tie in both signs. -/
theorem test_l16_out_and_g16_tie :
    (storePublic .binary16 false (decodeLog .l16 0 0x412C)).1 = 0x3E01 ∧ (storePublic .e4m3 false (decodeLog .l16 0 0x412C)).1 = 0x3C
      ∧ g16Code (some (toG16 0x000134A000000000 (-56) (-3)).1) = 0x04D2
      ∧ g16Code (some (toG16 (-0x000134A000000000) (-56) (-3)).1) = 0xFB2E := by decide +kernel

/-- Chapter 2: one block in L4 is dominated, with scale code 11 and three flushed elements; in L8 it is not. -/
theorem test_dominated_block :
    let vs := [.num false 5450, .num false (-1779), .num true (-2048), .num false (-1317)] ++ List.replicate 28 Val.zero
    (encodeBlock .l4 false false none vs).s8 = 11 ∧ (encodeBlock .l4 false false none vs).codes.take 4 = [7, 0, 0, 0]
      ∧ (encodeBlock .l8 false false none vs).s8 = 11 ∧ (encodeBlock .l8 false false none vs).codes.take 2 = [0x7E, 0x45] := by decide

/-- Chapter 3: one L4 block through the tally path, under the anchors 4 and 30. -/
theorem test_tally_block :
    let xs := [7, 0xA, 0, 2, 4, 0, 0, 0, 5, 0xF] ++ List.replicate 7 0 ++ [6] ++ List.replicate 12 0 ++ [3, 0]
    let ws := [6, 5, 0xC, 0xB, 7, 0, 0, 0, 0xE, 0xF] ++ List.replicate 7 0 ++ [0] ++ List.replicate 12 0 ++ [9, 0]
    (tallyBlock ⟨.l4, 5, xs⟩ ⟨.l4, -6, ws⟩ 4).value = 0x00001175CCC00000
      ∧ (tallyBlock ⟨.l4, 5, xs⟩ ⟨.l4, -6, ws⟩ 30).value = 0x45D73 := by decide +kernel

/-- Chapter 3: Φ[256], and the digits of the lanes of the skewed block. -/
theorem test_phi_and_digits :
    phi 256 = 0xB504F3 ∧ [0x0005, 0x00F0, 0xFFFF, 0xAAAA, 0, 0x0777].map digitCount = [2, 2, 1, 9, 0, 4]
      ∧ recode 0xFFFF = [(0, true)] := by decide +kernel

/-- Chapter 4: the small blocks are lost behind the large one, and survive where they meet first. -/
theorem test_resident_merge :
    residentAdd (2 ^ 53) 5 (2 ^ 22) (-18) = some (2 ^ 53, 5) ∧ residentAdd (2 ^ 53) 5 64 0 = some (2 ^ 53 + 2, 5)
      ∧ residentToA64 (2 ^ 53 + 3) 5 48 = some 0x0400000000000060 := by decide

/-- Chapter 5: 2.0 plus 2^(−4/512) in L16. -/
theorem test_log_add :
    (logAdd (decodeLog .l16 0 0x4200) (decodeLog .l16 0 0x3FFC)).code = 0x20654
      ∧ (narrow .l16 0 none (logAdd (decodeLog .l16 0 0x4200) (decodeLog .l16 0 0x3FFC))).1 = 0x432A := by decide +kernel

/-- Chapter 7: placing one address, striped and pinned. -/
theorem test_place_an_address :
    locate [] 0x0D345679ABC = (19, 0x19B1DFABC) ∧ pileFields 0x19B1DFABC = ⟨0x3C, 2, 10, 7, 27, 6577⟩
      ∧ locate [⟨1, 3288, 1⟩] 0x0D345679ABC = (23, 1683577 * 4096 + 0xABC) := by decide

/-- Chapter 9: where the arrays of tile 389 lie. -/
theorem test_dealt_tile :
    [2048, 4096, 512, 64].map (dealt 0 389) = [0xA10000, 0xA20000, 0xA04000, 0xA00800] := by decide

/-- Chapter 14: the rated power of 24 rows with both halls, 24 quays and cores and 8 optical engines lit, at each step. -/
theorem test_rated_power :
    [0, 1, 2, 3, 4].map (ratedWatts (domainMask (List.range 24 ++ (List.range 67).map (32 + ·))) true) = [867, 786, 715, 657, 612] := by decide +kernel

/-- Chapter 10: T_red of the 512-module harbour after one ejection is 2.4193 s. -/
theorem test_reduction_time : tRed 18426593280 512 3 / 100000 = 24193 := by decide

/-- The check value of CRC-32C, and the first bytes of SHA-384 of "abc" (FIPS 180-4). -/
theorem test_crc32c : crc32c [0x31, 0x32, 0x33, 0x34, 0x35, 0x36, 0x37, 0x38, 0x39] = 0xE3069283 := by decide +kernel

set_option maxRecDepth 100000 in
theorem test_sha384 : (sha384 [0x61, 0x62, 0x63]).take 8 = [0xCB, 0x00, 0x75, 0x3F, 0x45, 0xA3, 0x5E, 0x8B] := by decide +kernel

theorem test_no_row_has_an_encoding : decodeTableWord 32 0 = none ∧ decodeTableWord 64 1 = none := by decide

end Sys2Proof.Tests
end

/-! PROOF. LOAD_TIDE_TABLE (R191, R242 to R244, R331): what a module fault leaves, the size of a record without entries, what activation
sets up before its configuration record is written, and the statement about the command. -/

namespace Sys2Proof.Machine

/-! ## What a module fault leaves -/

@[simp] theorem State.enter_mode (m : ModuleState) (s : State) : (s.enter m).boot.mode = m := by
  unfold State.enter
  split
  · assumption
  · rfl

theorem State.finishRuns_reported (st : Status) (s : State) : s.Reported (s.finishRuns st) := by
  unfold State.finishRuns
  split
  · exact (noted_refl s).reported
  · exact List.foldlRecOn (motive := s.Reported) _ _ (s.finishCmd_reported _ _ _ _)
      fun _ h _ _ => reported_trans h (State.finishCmd_reported _ _ _ _ _)

/-- An operation that leaves the harbour leaves the membership. -/
theorem Only.joined {ks : List Part} {s x : State} (h : Only ks s x) (hk : .harbour ∉ ks) : x.harbour.joined = s.harbour.joined :=
  congrArg Harbour.joined (h.same .harbour hk)

theorem State.abandonAttempt_joined (s : State) : s.abandonAttempt.harbour.joined = s.harbour.joined :=
  have waits : Only [.out, .pcie, .cmds, .log, .tm, .run] s s.endWaits := State.endWaits_only (by decide) (only_refl _ s)
  waits.joined (by decide)

theorem State.endRun_joined (st : Status) (m : ModuleState) (s : State) : (s.endRun st m).harbour.joined = s.harbour.joined := by
  have commands : Only [.out, .pcie, .cqs, .cmds, .log, .tm, .test] (s.finishRuns st)
      ((s.finishRuns st).finishServes st).finishHalts.dropDeferredTests :=
    State.dropDeferredTests_only (by decide) (State.finishHalts_only (by decide) (State.finishServes_only st (by decide) (only_refl _ _)))
  have leaves (x : State) : Only [.boot, .stalls] x (x.idleStalls.enter m) :=
    State.enter_only m (by decide) (State.idleStalls_only (by decide) (only_refl _ x))
  unfold State.endRun
  rw [(leaves _).joined (by decide), State.modHarbour_harbour]
  exact (commands.joined (by decide)).trans (congrArg Harbour.joined (s.finishRuns_reported st).harbour)

theorem State.endRun_mode (st : Status) (m : ModuleState) (s : State) : (s.endRun st m).boot.mode = m := State.enter_mode m _

theorem State.abandonSnapshot_of_idle {s : State} (h : s.snap.draining = false) : s.abandonSnapshot = s := by
  simp [State.abandonSnapshot, h]

theorem State.enterFaulted_mode (s : State) : s.enterFaulted.boot.mode = .faulted := by
  unfold State.enterFaulted
  rw [State.modHarbour_boot, State.endRun_mode]

theorem State.enterFaulted_joined (s : State) : s.enterFaulted.harbour.joined = s.harbour.joined := by
  unfold State.enterFaulted
  simp only [State.modHarbour_harbour, State.endRun_joined]
  refine Only.joined (ks := [.out, .freeCtr, .power, .pcie, .cqs, .cmds, .log, .tm, .mem, .stalls, .quays, .snap, .journal, .ports,
    .test]) ?_ (by decide)
  exact State.faultOthers_only (by decide) (State.dropSnapshots_only _ (by decide) (State.dropCommit_only (by decide)
    (State.abortTests_only (by decide) (State.abandonSnapshot_only (by decide) (State.darkRestore_only (by decide) (only_refl _ s))))))

/-- Only a drain that is given up writes memory. -/
theorem State.enterFaulted_mem {s : State} (h : s.snap.draining = false) : s.enterFaulted.mem = s.mem := by
  have dark : Only [.out, .power, .pcie, .log, .tm, .stalls, .ports] s s.darkRestore := State.darkRestore_only (by decide) (only_refl _ s)
  have idle : s.darkRestore.snap.draining = false := (congrArg Snap.draining (dark.same .snap (by decide))).trans h
  unfold State.enterFaulted
  rw [State.abandonSnapshot_of_idle idle]
  refine Only.same (ks := [.out, .freeCtr, .power, .boot, .pcie, .cqs, .cmds, .log, .tm, .run, .stalls, .snap, .journal, .harbour, .ports,
    .test]) ?_ .mem (by decide)
  exact modHarbour_only _ (by decide) (State.endRun_only _ _ (by decide) (State.faultOthers_only (by decide)
    (State.dropSnapshots_only _ (by decide) (State.dropCommit_only (by decide) (State.abortTests_only (by decide)
      (only_mono dark (by decide)))))))

theorem State.moduleFault_mode (s : State) : s.moduleFault.boot.mode = .faulted := by
  unfold State.moduleFault
  split
  next already =>
    have tests : Only [.out, .freeCtr, .power, .pcie, .cqs, .cmds, .log, .tm, .stalls, .test] s s.abortTests :=
      State.abortTests_only (by decide) (only_refl _ s)
    exact (congrArg Boot.mode (tests.same .boot (by decide))).trans (beq_iff_eq.mp already)
  next => exact State.enterFaulted_mode _

theorem State.moduleFault_joined (s : State) : s.moduleFault.harbour.joined = s.harbour.joined := by
  unfold State.moduleFault
  split
  next => exact Only.joined (State.abortTests_only (List.Subset.refl _) (only_refl _ s)) (by decide)
  next =>
    exact (State.enterFaulted_joined _).trans ((State.abandonAttempt_joined _).trans
      (Only.joined (State.sendFault_only (List.Subset.refl _) (only_refl _ s)) (by decide)))

theorem State.moduleFault_mem {s : State} (h : s.snap.draining = false) : s.moduleFault.mem = s.mem := by
  unfold State.moduleFault
  split
  next => exact (State.abortTests_only (List.Subset.refl _) (only_refl _ s)).same .mem (by decide)
  next =>
    have drop : Only [.out, .pcie, .cmds, .log, .tm, .run, .stalls, .harbour, .ports] s s.sendFault.abandonAttempt :=
      State.abandonAttempt_only (by decide) (State.sendFault_only (by decide) (only_refl _ s))
    have idle := (congrArg Snap.draining (drop.same .snap (by decide))).trans h
    exact (State.enterFaulted_mem idle).trans (drop.same .mem (by decide))

/-! ## A record without entries (Table 11.3), and its place in the journal (R329) -/

theorem fit_length (n : Nat) (b : Bytes) : (fit n b).length = n := by
  simp only [fit, zeros, List.length_append, List.length_take, List.length_replicate]
  omega

theorem sha384_length_le (m : Bytes) : (sha384 m).length ≤ 48 := List.length_take_le _ _

/-- The header and the trailer, padded to a multiple of 64. -/
theorem closeRecord_nil_length_le (head : Bytes) : (closeRecord head []).length ≤ 256 := by
  have padded : roundUp (192 + 0 + 48) 64 = 256 := by decide
  simp only [closeRecord, List.flatten_nil, List.length_nil, padded, List.length_append, fit_length]
  have := sha384_length_le (fit (256 - 48) (patch (fit 192 head) 8 (toLe 4 256) ++ []))
  omega

/-- Outside a harbour and without a drain a record carries its own entries alone. -/
theorem State.buildRecord_nil_length_le {s : State} (hd : s.snap.draining = false) (hj : s.harbour.joined = false) (t : Table)
    (kind flags seq step : Nat) : (s.buildRecord t kind flags seq step []).length ≤ 256 := by
  simp only [State.buildRecord, State.drains, hd, hj]
  exact closeRecord_nil_length_le _

/-- Such a record takes one block of 4 KiB. -/
theorem recordsBytes_le_of_length {r : Bytes} (h : r.length ≤ 256) : recordsBytes [r] ≤ 4096 := by
  simp only [recordsBytes, journalUsed, List.foldl_cons, List.foldl_nil, roundUp, ceilDiv]
  omega

theorem State.canWrite_of_fits {s : State} {r : Bytes} (t : Table) (hf : s.journal.flashOk = true) (h : s.fitsOwn [r] = true) :
    s.canWrite t r = true := by
  simp [State.canWrite, State.makeRoom, hf, h]

/-! ## Activation, up to its configuration record (R191, R245, R246, R324) -/

theorem keptJob_table (prev : Option Table) (t : Table) (j : Job) : (keptJob prev t j).table = some t := by
  unfold keptJob
  split
  · rfl
  · split <;> rfl

@[simp] theorem State.keepFlash_cqs (t : Table) (s : State) : (s.keepFlash t).cqs = s.cqs := rfl
@[simp] theorem State.keepFlash_sqs (t : Table) (s : State) : (s.keepFlash t).sqs = s.sqs := rfl
@[simp] theorem State.keepFlash_usec (t : Table) (s : State) : (s.keepFlash t).usec = s.usec := rfl
@[simp] theorem State.keepFlash_cmds (t : Table) (s : State) : (s.keepFlash t).cmds = s.cmds := rfl

theorem State.keepFlash_draining (t : Table) (s : State) : (s.keepFlash t).snap.draining = false := by
  simp only [State.keepFlash, State.modSnap_snap]
  split <;> rfl

theorem State.keepFlash_flashOk (t : Table) (s : State) : (s.keepFlash t).journal.flashOk = s.journal.flashOk := by
  simp only [State.keepFlash, State.modSnap_journal, State.modJournal_journal]
  split <;> rfl

theorem State.keepFlash_extent (t : Table) (s : State) : (s.keepFlash t).journal.extent = t.journalExtent := by
  simp only [State.keepFlash, State.modSnap_journal, State.modJournal_journal]
  split <;> rfl

/-- The records that the own journal keeps under a table: all of them for the same generation of the same owner slot with the same extent,
and none otherwise (R324, R455). -/
def State.keptOwn (s : State) (t : Table) : List Bytes :=
  if s.boot.lastOwner = some ⟨t.slot, t.generation, t.journalExtent⟩ then s.journal.own else []

theorem State.keepFlash_own (t : Table) (s : State) : (s.keepFlash t).journal.own = s.keptOwn t := by
  simp only [State.keepFlash, State.keptOwn, State.modSnap_journal, State.modJournal_journal, beq_iff_eq]
  split <;> rfl

/-- What activation has set up when it comes to the configuration record; the queues and the commands stand as before. -/
structure State.SetUp (s : State) (t : Table) (x : State) : Prop where
  table : x.job.table = some t
  classes : x.mem.classes = classMap t.pageClasses
  harbour : x.harbour = Harbour.reset
  draining : x.snap.draining = false
  flashOk : x.journal.flashOk = s.journal.flashOk
  extent : x.journal.extent = t.journalExtent
  own : x.journal.own = s.keptOwn t
  cqs : x.cqs = s.cqs
  sqs : x.sqs = s.sqs
  usec : x.usec = s.usec
  cmds : x.cmds = s.cmds

/-- The powered domains and the mode, which activation sets last. -/
theorem powered_only (base : BitVec 99) (m : ModuleState) (y : State) :
    Only [.out, .power, .boot, .pcie, .log, .tm, .stalls, .test] y ((y.capChanged fun z => z.setDomains base).enter m) :=
  State.enter_only m (by decide) (State.capChanged_only _ (fun _ h => State.setDomains_only base (by decide) h) (by decide) (only_refl _ y))

theorem State.SetUp.of_only {s y x : State} {t : Table} (h : s.SetUp t y)
    (k : Only [.out, .power, .boot, .pcie, .log, .tm, .stalls, .test] y x) : s.SetUp t x := by
  have job : x.job = y.job := k.same .job (by decide)
  have mem : x.mem = y.mem := k.same .mem (by decide)
  have harbour : x.harbour = y.harbour := k.same .harbour (by decide)
  have snap : x.snap = y.snap := k.same .snap (by decide)
  have journal : x.journal = y.journal := k.same .journal (by decide)
  have cqs : x.cqs = y.cqs := k.same .cqs (by decide)
  have sqs : x.sqs = y.sqs := k.same .sqs (by decide)
  have usec : x.usec = y.usec := k.same .usec (by decide)
  have cmds : x.cmds = y.cmds := k.same .cmds (by decide)
  constructor
  case table => rw [job, h.table]
  case classes => rw [mem, h.classes]
  case harbour => rw [harbour, h.harbour]
  case draining => rw [snap, h.draining]
  case flashOk => rw [journal, h.flashOk]
  case extent => rw [journal, h.extent]
  case own => rw [journal, h.own]
  case cqs => rw [cqs, h.cqs]
  case sqs => rw [sqs, h.sqs]
  case usec => rw [usec, h.usec]
  case cmds => rw [cmds, h.cmds]

/-- An activation sets up the table, and then writes the configuration record. -/
theorem State.activate_eq_writeNow (t : Table) (s : State) :
    ∃ x, s.SetUp t x ∧ x.boot.mode = .configured
      ∧ s.activate t = x.writeNow t (x.buildRecord t 2 0 x.journal.nextSeq x.job.step []) := by
  have pages : Only [.out, .power, .pcie, .log, .tm, .mem, .stalls, .harbour, .ports] s
      (s.endShadow.zeroPages (t.pages.filter fun g => !(keptPages s.job.table t).contains g)) :=
    State.zeroPages_only _ (by decide) (State.endShadow_only (by decide) (only_refl _ s))
  unfold State.activate
  dsimp only
  generalize s.endShadow.zeroPages _ = z at pages ⊢
  have boot : z.boot = s.boot := pages.same .boot (by decide)
  have journal : z.journal = s.journal := pages.same .journal (by decide)
  have cqs : z.cqs = s.cqs := pages.same .cqs (by decide)
  have sqs : z.sqs = s.sqs := pages.same .sqs (by decide)
  have usec : z.usec = s.usec := pages.same .usec (by decide)
  have cmds : z.cmds = s.cmds := pages.same .cmds (by decide)
  refine ⟨_, State.SetUp.of_only ?_ (powered_only _ _ _), State.enter_mode _ _, rfl⟩
  constructor
  case table => exact keptJob_table _ t _
  case classes => rfl
  case harbour => rfl
  case draining => exact State.keepFlash_draining t _
  case flashOk =>
    refine (State.keepFlash_flashOk t _).trans ?_
    rw [State.modJob_journal, State.modMem_journal, journal]
  case extent => exact State.keepFlash_extent t _
  case own =>
    refine (State.keepFlash_own t _).trans ?_
    rw [State.keptOwn, State.keptOwn, State.modJob_journal, State.modMem_journal, journal, State.modJob_boot, State.modMem_boot, boot]
  case cqs => simp [cqs]
  case sqs => simp [sqs]
  case usec => simp [usec]
  case cmds => simp [cmds]

/-- What every activation leaves, whether or not its configuration record can be written. -/
structure State.Active (t : Table) (y : State) : Prop where
  table : y.job.table = some t
  classes : y.mem.classes = classMap t.pageClasses
  joined : y.harbour.joined = false
  mode : y.boot.mode = .configured ∨ y.boot.mode = .faulted

/-- The configuration record is written, or the module faults; the table stands in either case. -/
theorem State.activate_active (t : Table) (s : State) : State.Active t (s.activate t) := by
  obtain ⟨x, set, mode, e⟩ := s.activate_eq_writeNow t
  rw [e]
  unfold State.writeNow
  split
  next =>
    have write := State.writeRecord_only (ks := [.out, .pcie, .log, .tm, .journal, .ports]) t
      (x.buildRecord t 2 0 x.journal.nextSeq x.job.step []) (by decide) (only_refl _ x)
    exact ⟨(congrArg Job.table (write.same .job (by decide))).trans set.table,
      (congrArg Mem.classes (write.same .mem (by decide))).trans set.classes,
      (write.joined (by decide)).trans (congrArg Harbour.joined set.harbour),
      .inl ((congrArg Boot.mode (write.same .boot (by decide))).trans mode)⟩
  next =>
    have fault : x.moduleFault.job = x.job := (State.moduleFault_only (List.Subset.refl _) (only_refl _ x)).same .job (by decide)
    exact ⟨(congrArg Job.table fault).trans set.table, (congrArg Mem.classes (State.moduleFault_mem set.draining)).trans set.classes,
      x.moduleFault_joined.trans (congrArg Harbour.joined set.harbour), .inr x.moduleFault_mode⟩

/-- One free block of 4 KiB in a flash that answers is room for the configuration record. -/
theorem State.SetUp.canWrite {s x : State} {t : Table} (set : s.SetUp t x) (hf : s.journal.flashOk = true)
    (room : journalUsed (s.keptOwn t) + 4096 ≤ t.journalExtent * mib) :
    x.canWrite t (x.buildRecord t 2 0 x.journal.nextSeq x.job.step []) = true := by
  have size := recordsBytes_le_of_length (State.buildRecord_nil_length_le set.draining (congrArg Harbour.joined set.harbour) t 2 0
    x.journal.nextSeq x.job.step)
  refine State.canWrite_of_fits t (set.flashOk.trans hf) (decide_eq_true ?_)
  rw [Journal.ownFree, set.extent, set.own]
  omega

/-- Where its configuration record can be written an activation ends in CONFIGURED, with the queues and the commands as before. -/
theorem State.activate_of_room {s : State} {t : Table} (hf : s.journal.flashOk = true)
    (room : journalUsed (s.keptOwn t) + 4096 ≤ t.journalExtent * mib) :
    (s.activate t).boot.mode = .configured ∧ (s.activate t).cqs = s.cqs ∧ (s.activate t).sqs = s.sqs ∧ (s.activate t).usec = s.usec
      ∧ (s.activate t).cmds = s.cmds := by
  obtain ⟨x, set, mode, e⟩ := s.activate_eq_writeNow t
  rw [e, State.writeNow, if_pos (set.canWrite hf room)]
  have write := State.writeRecord_only (ks := [.out, .pcie, .log, .tm, .journal, .ports]) t
    (x.buildRecord t 2 0 x.journal.nextSeq x.job.step []) (by decide) (only_refl _ x)
  exact ⟨(congrArg Boot.mode (write.same .boot (by decide))).trans mode, (write.same .cqs (by decide)).trans set.cqs,
    (write.same .sqs (by decide)).trans set.sqs, (write.same .usec (by decide)).trans set.usec,
    (write.same .cmds (by decide)).trans set.cmds⟩

/-! ## The command (R242 to R244) -/

theorem State.load_eq {s : State} (rests : s.restsForLoad = true) (mode : s.mode = .inert ∨ s.mode = .configured) (c : Cmd)
    (data : Bytes) : s.load c data = s.loadTable c.sq c.cid (s.dataOf c data) := by
  rcases mode with m | m <;> simp [State.load, rests, m]

/-- A table that fails validation raises one event and completes. -/
theorem State.loadTable_of_failure {s : State} {b : Bytes} {f : Failure} (h : validate s.boot.signers b = .inl f) (sq cid : Nat) :
    ∃ y, s.Noted y ∧ s.loadTable sq cid b
      = y.finish sq cid (if f.isSignature then .signature else .malformed) (f.code + 65536 * f.sec) f.index := by
  unfold State.loadTable
  rw [h]
  dsimp only
  split
  · exact ⟨_, State.raiseModule_noted _ _ s, rfl⟩
  · exact ⟨_, State.raiseModule_noted _ _ s, rfl⟩

theorem State.loadTable_of_barred {s : State} {b : Bytes} {t : Table} (h : validate s.boot.signers b = .inr t) (hb : s.barred t = true)
    (sq cid : Nat) : s.loadTable sq cid b = s.finish sq cid .fault 0 0 := by
  simp [State.loadTable, h, hb]

/-- A valid table that is not barred is activated; the status tells a module fault. -/
theorem State.loadTable_of_table {s : State} {b : Bytes} {t : Table} (h : validate s.boot.signers b = .inr t) (hb : s.barred t = false)
    (sq cid : Nat) :
    ∃ n, s.loadTable sq cid b = (s.activate t).finish sq cid (if (s.activate t).boot.mode = .faulted then .fault else .ok) n 0 := by
  unfold State.loadTable
  rw [h]
  simp only [hb, State.mode, beq_iff_eq, Bool.false_eq_true, if_false]
  by_cases faulted : (s.activate t).boot.mode = .faulted
  · exact ⟨0, by rw [if_pos faulted, if_pos faulted]⟩
  · exact ⟨_, by rw [if_neg faulted, if_neg faulted]⟩

/-- Settles O10: the three outcomes of `loadTable`, with what activation leaves and, where the journal has room, its final entry. -/
theorem loadActivatesAValidTable : Obligations.LoadActivatesAValidTable := by
  unfold Obligations.LoadActivatesAValidTable
  intro s sq cid data c waits rests mode fits
  obtain ⟨found, -, -, rfl, rfl⟩ := waiting_ids waits
  refine ⟨s.load c data, onCmd_eq waits, ?_⟩
  rw [State.load_eq rests mode]
  cases valid : validate s.boot.signers (s.dataOf c data) with
  | inl f =>
    obtain ⟨y, noted, e⟩ := State.loadTable_of_failure valid c.sq c.cid
    rw [e]
    exact noted_finish found noted fits _ _ _
  | inr t =>
    dsimp only
    split
    next barred =>
      rw [State.loadTable_of_barred valid barred]
      exact noted_finish found (noted_refl s) fits _ _ _
    next free =>
      obtain ⟨n, e⟩ := State.loadTable_of_table valid (Bool.eq_false_iff.mpr free) c.sq c.cid
      obtain ⟨table, classes, joined, after⟩ := s.activate_active t
      have kept := State.finish_reported c.sq c.cid (if (s.activate t).boot.mode = .faulted then .fault else .ok) n 0 (s.activate t)
      rw [← e] at kept
      refine ⟨(congrArg Job.table kept.job).trans table, (congrArg Mem.classes kept.mem).trans classes,
        (congrArg Harbour.joined kept.harbour).trans joined, ?_, fun flash room => ?_⟩
      · rwa [State.mode, kept.boot]
      · obtain ⟨configured, cqs, sqs, usec, cmds⟩ := State.activate_of_room flash room
        refine ⟨by rw [State.mode, kept.boot, configured], ?_⟩
        have completed : s.Completed ((s.activate t).finishCmd c .ok n 0) c .ok n 0 :=
          State.Completed.after cqs sqs usec cmds (State.activate_kept t (kept_refl s)).sent
            (State.finishCmd_completed _ _ _ _ _ (fits_of cqs fits))
        obtain ⟨-, l, out, entry⟩ := completed
        refine ⟨l, n, ?_, entry⟩
        rw [e, configured, finish_eq found cmds]
        exact out

end Sys2Proof.Machine

/-! PROOF. ALERT and the mask (R333, R394, R427): what raises the signal, and the record that an event enters at the head of the ring. -/

namespace Sys2Proof.Machine

/-! ## What asserts the signal -/

theorem State.alert_iff (s : State) :
    s.alert = true ↔ s.power.tripAlert = true ∨ ∃ r ∈ s.log.ring, r.alerted = true ∧ newer r.seq s.log.ack = true := by
  simp only [State.alert, Bool.or_eq_true, List.any_eq_true, Bool.and_eq_true]

/-- POWER_FAIL_COMMIT is never masked. -/
theorem EventLog.alerts_iff (l : EventLog) (code : Nat) :
    l.alerts code = true ↔ code = 0x0406 ∨ l.alertMask.getLsbD (code / 256 - 1) = false := by
  simp only [EventLog.alerts, Bool.or_eq_true, beq_iff_eq, Bool.not_eq_true']

/-! ## The record that an event enters -/

@[simp] theorem State.msix_log (v : Nat) (s : State) : (s.msix v).log = s.log :=
  (State.msix_only v (List.Subset.refl _) (only_refl _ s)).same .log (by decide)

@[simp] theorem State.countLoss_log (s : State) : s.countLoss.log = s.log :=
  (State.countLoss_only (List.Subset.refl _) (only_refl _ s)).same .log (by decide)

/-- Signalling the vector disarms it and leaves the records. -/
@[simp] theorem State.signalLog_ring (s : State) : s.signalLog.log.ring = s.log.ring := by
  unfold State.signalLog
  split
  · rw [State.msix_log, State.modLog_log]
  · rfl

theorem State.enterRecord_ring (code kind index : Nat) (detail : Bytes) (s : State) :
    (s.enterRecord code kind index detail).log.ring = (s.record code kind index detail :: s.log.ring).take 512 := by
  simp only [State.enterRecord, State.signalLog_ring, State.modLog_log, State.countLoss_log, EventLog.enter]

/-- The new record is the first of the ring. -/
theorem State.enterRecord_head (code kind index : Nat) (detail : Bytes) (s : State) :
    (s.enterRecord code kind index detail).log.ring.head? = some (s.record code kind index detail) := by
  rw [State.enterRecord_ring, List.take_succ_cons, List.head?_cons]

/-! ## Out of reset -/

theorem State.reset_alertMask : State.reset.log.alertMask = BitVec.allOnes 9 := by decide

/-- Settles O30: the flag of the record at the head of the ring is what `EventLog.alerts` says of its code. -/
theorem alertFollowsTheMask : Obligations.AlertFollowsTheMask := by
  unfold Obligations.AlertFollowsTheMask
  refine ⟨State.alert_iff, fun s code kind index d _ => ?_, fun c first last => ?_, rfl⟩
  · exact ⟨s.record code kind index d, s.enterRecord_head code kind index d, rfl, s.log.alerts_iff code⟩
  · rw [State.reset_alertMask, BitVec.getLsbD_allOnes, decide_eq_true_eq]
    omega

end Sys2Proof.Machine

/-! PROOF. BAR0 in STANDBY, in BOOTING and from INERT onwards (R384): the word that a read returns in each, and the register writes that
are discarded. -/

namespace Sys2Proof.Machine

/-! ## Reads -/

theorem frozenOffset_of_ident {o : Nat} (h : o < 0x28) : frozenOffset o = false := by
  simp only [frozenOffset, evLostAt, Bool.or_eq_false_iff, Bool.and_eq_false_iff, decide_eq_false_iff_not, beq_eq_false_iff_ne]
  omega

theorem State.liveWord_of_ident (s : State) {o : Nat} (h : o < 0x10000) : s.liveWord o = s.identWord o := if_pos h

/-- Both widths of a read take the word of the 8 bytes around it. -/
theorem State.bar0Read_eq_zero {s : State} {o : Nat} (h : s.barWord (o - o % 8) = 0) (size : Nat) : s.bar0Read o size = 0 := by
  unfold State.bar0Read
  split
  next whole =>
    obtain ⟨-, aligned⟩ : size = 8 ∧ o % 8 = 0 := by simpa using whole
    rwa [aligned, Nat.sub_zero] at h
  next =>
    split
    · rw [h, Nat.zero_div, Nat.zero_mod]
    · rfl

theorem State.barWord_of_standby {s : State} (h : s.mode = .standby) (o : Nat) : s.barWord o = 0 := if_pos h

theorem State.barWord_of_booting_ident {s : State} (h : s.mode = .booting) {o : Nat} (ho : o < 0x28) : s.barWord o = s.identWord o := by
  rw [← s.liveWord_of_ident (by omega)]
  simp [State.barWord, h, ho, frozenOffset_of_ident ho]

theorem State.barWord_of_booting_beyond {s : State} (h : s.mode = .booting) {o : Nat} (ho : 0x28 ≤ o) : s.barWord o = 0 := by
  simp [State.barWord, h, ho]

/-- From INERT onwards; a frozen counter alone reads its captured word instead (R390). -/
theorem State.barWord_of_live {s : State} (standby : s.mode ≠ .standby) (booting : s.mode ≠ .booting) (thawed : s.tm.frozen = false)
    (o : Nat) : s.barWord o = s.liveWord o := by
  simp [State.barWord, standby, booting, thawed]

/-! ## Writes -/

theorem State.takesWrites_of_shut {s : State} (h : s.mode = .standby ∨ s.mode = .booting) : s.takesWrites = false := by
  obtain standby | booting := h
  · simp [State.takesWrites, State.hostReaches, standby]
  · simp [State.takesWrites, booting]

theorem State.onWrite_of_shut {s : State} (h : s.takesWrites = false) (f : State → State) : s.onWrite f = .next s := by
  simp [State.onWrite, h]

/-- Settles O31: a read returns what `barWord` gives in the mode, and each command that writes a register does so through `onWrite`. -/
theorem standbyAndBootingShutBar0 : Obligations.StandbyAndBootingShutBar0 := by
  unfold Obligations.StandbyAndBootingShutBar0
  intro s o size
  refine ⟨fun standby => ?_, fun booting => ⟨fun ident => ?_, fun beyond => ?_⟩, fun shut q v n w b l m => ?_,
    fun standby booting thawed => ?_⟩
  · exact State.bar0Read_eq_zero (State.barWord_of_standby standby _) size
  · exact State.barWord_of_booting_ident booting ident
  · exact State.bar0Read_eq_zero (State.barWord_of_booting_beyond booting (by omega)) size
  · have discards := State.onWrite_of_shut (State.takesWrites_of_shut shut)
    simp only [List.forall_mem_cons]
    exact ⟨discards (State.bar0Write o size v), discards (State.ringTail q v l), discards (State.ringHead q v),
      discards (State.sqCtrl q true v n), discards (State.sqCtrl q false v n), discards (State.cqCtrl q true b w n),
      discards (State.cqCtrl q false b w n), discards (State.evAck v), discards (State.evCtrl true w m),
      discards fun s => if sizeFits o size then s.clearSats o size v else s.violation 1 none 0 0 o, discards State.requestReset,
      discards State.freeze, discards State.unfreeze, discards (State.bwWrite v), discards (State.unmask w),
      List.forall_mem_nil _⟩
  · exact State.barWord_of_live standby booting thawed o

end Sys2Proof.Machine

/-! PROOF. The machine as a whole: each command answers a state that keeps what `Kept` says, but for a quay request beyond the last byte
of module memory, which stops the block (R187). -/

namespace Sys2Proof.Machine

/-! ## Requests beyond module memory -/

/-- The address of a quay request that reaches beyond the last byte of module memory. -/
def missingAddress : Instr → Option Nat
  | .quayRead _ a n _ _ => if Config.memoryEnd < a + max 1 n then some a else none
  | .quayWrite _ a _ d _ => if Config.memoryEnd < a + max 1 d.bytes.length then some a else none
  | _ => none

theorem missingAddress_iff (i : Instr) (f : Fault) :
    (∃ a, missingAddress i = some a ∧ f = .noSuchAddress a) ↔
      (∃ src a n x h, i = .quayRead src a n x h ∧ Config.memoryEnd < a + max 1 n ∧ f = .noSuchAddress a)
        ∨ ∃ src a x d h, i = .quayWrite src a x d h ∧ Config.memoryEnd < a + max 1 d.bytes.length ∧ f = .noSuchAddress a := by
  constructor
  · rintro ⟨a, missing, e⟩
    unfold missingAddress at missing
    split at missing
    · obtain ⟨beyond, same⟩ := Option.ite_none_right_eq_some.mp missing
      cases same
      exact .inl ⟨_, _, _, _, _, rfl, beyond, e⟩
    · obtain ⟨beyond, same⟩ := Option.ite_none_right_eq_some.mp missing
      cases same
      exact .inr ⟨_, _, _, _, _, rfl, beyond, e⟩
    · cases missing
  · rintro (⟨src, a, n, x, h, rfl, beyond, e⟩ | ⟨src, a, x, d, h, rfl, beyond, e⟩)
    · exact ⟨a, if_pos beyond, e⟩
    · exact ⟨a, if_pos beyond, e⟩

theorem exec_missing {i : Instr} {a : Nat} (missing : missingAddress i = some a) (s : State) : exec i s = .fault (.noSuchAddress a) := by
  obtain ⟨src, b, n, x, h, rfl, beyond, e⟩ | ⟨src, b, x, d, h, rfl, beyond, e⟩ := (missingAddress_iff i _).mp ⟨a, missing, rfl⟩
  · rw [e]
    exact if_pos beyond
  · rw [e]
    exact if_pos beyond

/-! ## What a row answers -/

/-- A command answers a state, and it keeps what `Kept` says. -/
def Answers (s : State) (o : Host.Outcome State Fault Refusal) : Prop := ∃ t, o = .next t ∧ Kept s t

theorem answers_next {s t : State} (h : Kept s t) : Answers s (.next t) := ⟨t, rfl, h⟩

/-- A row whose function runs under a condition. -/
theorem kept_if {s x y : State} {c : Prop} [Decidable c] (hy : Kept s y) (hx : Kept s x) : Kept s (if c then y else x) := by
  split
  · exact hy
  · exact hx

theorem onCmd_answers {op sq cid : Nat} {f : Cmd → State → State} (hf : ∀ c {s x}, Kept s x → Kept s (f c x)) (s : State) :
    Answers s (s.onCmd op sq cid f) := by
  unfold State.onCmd
  split
  · exact answers_next (kept_refl s)
  · exact answers_next (hf _ (kept_refl s))

theorem onWrite_answers {f : State → State} (hf : ∀ {s x}, Kept s x → Kept s (f x)) (s : State) : Answers s (s.onWrite f) :=
  answers_next (kept_if (hf (kept_refl s)) (kept_refl s))

theorem inMemory_answers {a n : Nat} {f : State → State} (here : ¬ Config.memoryEnd < a + max 1 n)
    (hf : ∀ {s x}, Kept s x → Kept s (f x)) (s : State) : Answers s (inMemory a n s f) := by
  unfold inMemory
  rw [if_neg here]
  exact answers_next (hf (kept_refl s))

theorem dmaError_kept {s x : State} (target : DmaTarget) (a : Nat) (h : Kept s x) :
    Kept s (match target with | .command sq cid => x.dmaAbort sq cid a | .batch step group => x.dmaBatch step group a) := by
  cases target with
  | command sq cid => exact State.dmaAbort_kept sq cid a h
  | batch step group => exact State.dmaBatch_kept step group a h

/-! ## Every command -/

theorem exec_answers (i : Instr) (s : State) (here : missingAddress i = none) : Answers s (exec i s) := by
  have keeps := kept_refl s
  cases i with
  | identify => exact onCmd_answers (fun c _ _ h => State.identify_kept _ h) s
  | loadTideTable => exact onCmd_answers (fun c _ _ h => State.load_kept _ _ h) s
  | unload => exact onCmd_answers (fun c _ _ h => State.unloadTable_kept _ h) s
  | feedTokenBatch => exact onCmd_answers (fun c _ _ h => kept_if (State.feedBatch_kept _ _ h) h) s
  | feedHostLayerResult => exact onCmd_answers (fun c _ _ h => kept_if (State.feedResult_kept _ _ h) h) s
  | runSteps => exact onCmd_answers (fun c _ _ h => State.runSteps_kept _ h) s
  | serve => exact onCmd_answers (fun c _ _ h => State.serve_kept _ _ h) s
  | haltAtSlack => exact onCmd_answers (fun c _ _ h => State.halt_kept _ h) s
  | snapshot => exact onCmd_answers (fun c _ _ h => State.askSnapshot_kept _ h) s
  | restoreFromImage sq cid data =>
    exact onCmd_answers (fun c _ _ h => State.restoreWith_kept 0 c
      (fun t s => s.finishImage t sq cid 0 (s.dataOf c data))
      (fun _ _ h => State.finishImage_kept _ _ _ _ _ h) h) s
  | restoreFromPartnerStore sq cid =>
    exact onCmd_answers (fun c _ _ h => State.restoreWith_kept 1 c
      (fun _ s => s.beginRestore sq cid 1 (ePort c.entry) 0xFFFF)
      (fun _ _ h => State.beginRestore_kept _ _ _ _ _ h) h) s
  | restoreFromReplica sq cid =>
    exact onCmd_answers (fun c _ _ h => State.restoreWith_kept 2 c
      (fun _ s => s.beginRestore sq cid 2 (ePort c.entry) (eDonor c.entry))
      (fun _ _ h => State.beginRestore_kept _ _ _ _ _ h) h) s
  | joinHarbour => exact onCmd_answers (fun c _ _ h => State.joinCmd_kept _ _ h) s
  | leaveHarbour => exact onCmd_answers (fun c _ _ h => State.leaveCmd_kept _ h) s
  | readTelemetry => exact onCmd_answers (fun c _ _ h => State.sampleTelemetry_kept _ h) s
  | runTest => exact onCmd_answers (fun c _ _ h => State.testCmd_kept _ h) s
  | setPowerCap => exact onCmd_answers (fun c _ _ h => State.setPowerCap_kept _ h) s
  | attest => exact onCmd_answers (fun c _ _ h => State.attest_kept _ h) s
  | enrolKey => exact onCmd_answers (fun c _ _ h => State.enrolKey_kept _ _ _ _ h) s
  | applyPatch => exact onCmd_answers (fun c _ _ h => State.applyPatch_kept _ _ _ h) s
  | exportJournal => exact onCmd_answers (fun c _ _ h => State.exportJournal_kept _ h) s
  | sqTailDb => exact onWrite_answers (State.ringTail_kept _ _ _) s
  | cqHeadDb => exact onWrite_answers (State.ringHead_kept _ _) s
  | cqHeldEntryPost => exact answers_next (State.postHeld_kept _ keeps)
  | sqEnable => exact onWrite_answers (State.sqCtrl_kept _ _ _ _) s
  | sqDisable => exact onWrite_answers (State.sqCtrl_kept _ _ _ _) s
  | cqEnable => exact onWrite_answers (State.cqCtrl_kept _ _ _ _ _) s
  | cqDisable => exact onWrite_answers (State.cqCtrl_kept _ _ _ _ _) s
  | evAck => exact onWrite_answers (State.evAck_kept _) s
  | evCtrlIntEn => exact onWrite_answers (State.evCtrl_kept _ _ _) s
  | satBitClear => exact onWrite_answers (fun h => kept_if (State.clearSats_kept _ _ _ h) (State.violation_kept _ _ _ _ _ h)) s
  | resetKey => exact onWrite_answers (State.requestReset_kept) s
  | telemetryFreezeSet => exact onWrite_answers (State.freeze_kept) s
  | telemetryFreezeClear => exact onWrite_answers (State.unfreeze_kept) s
  | bwBaseWrite => exact onWrite_answers (State.bwWrite_kept _) s
  | bwBaseRead => exact answers_next (kept_if (State.bwRead_kept keeps) keeps)
  | msixVectorUnmask => exact onWrite_answers (State.unmask_kept _) s
  | registerWrite => exact onWrite_answers (State.bar0Write_kept _ _ _) s
  | bar2Read => exact answers_next (kept_if (State.settleReset_kept (State.bar2Read_kept _ _ _ keeps)) keeps)
  | bar2Write => exact answers_next (kept_if (State.bar2Write_kept _ _ keeps) keeps)
  | i3cPointerWrite => exact answers_next (kept_if (modPcie_kept _ (fun _ h => h) keeps) keeps)
  | busMasterDisable => exact answers_next (State.busMasterOff_kept keeps)
  | functionLevelReset => exact answers_next (State.flr_kept keeps)
  | d3hotToD0 => exact answers_next (State.flr_kept keeps)
  | perstAssert => exact answers_next (State.perstOn_kept keeps)
  | doeRequest => exact answers_next (State.doe_kept _ _ keeps)
  | dmaErrorCompletion => exact answers_next (dmaError_kept _ _ keeps)
  | powerApplied => exact answers_next (State.powerUp_kept _ _ keeps)
  | bootStart => exact answers_next (State.bootStart_kept _ _ keeps)
  | resetNLow => exact answers_next (State.resetNLow_kept keeps)
  | resetNRelease => exact answers_next (State.resetNRelease_kept _ keeps)
  | pwrEnLow => exact answers_next (State.pwrEnLow_kept keeps)
  | inputUndervolt => exact answers_next (State.underVolt_kept _ keeps)
  | inputLockout => exact answers_next (State.lockout_kept _ keeps)
  | inputOvervoltage => exact answers_next (State.overVolt_kept _ keeps)
  | thermalStepDown => exact answers_next (State.thermalDown_kept _ keeps)
  | thermalStepUp => exact answers_next (State.thermalUp_kept _ keeps)
  | dramThermalHalve => exact answers_next (State.halveQuay_kept _ _ keeps)
  | thermalTripFault => exact answers_next (State.thermalTrip_kept _ _ keeps)
  | thermalTripAmrath => exact answers_next (State.amrathTrip_kept _ _ keeps)
  | clockLockLost => exact answers_next (State.clockLost_kept _ keeps)
  | sensorRefresh => exact answers_next (State.refreshSensors_kept _ keeps)
  | deferredCapApply => exact answers_next (State.applyHeldCap_kept keeps)
  | flitError => exact answers_next (State.codewordIn_kept _ _ keeps)
  | replayTimeout => exact answers_next (State.replayTimeout_kept _ keeps)
  | nak => exact answers_next (State.nakIn_kept _ _ keeps)
  | hello => exact answers_next (State.settleReset_kept (State.helloIn_kept _ _ keeps))
  | progress => exact answers_next (State.progressIn_kept _ _ keeps)
  | progressSend => exact answers_next (State.progressSend_kept keeps)
  | eject => exact answers_next (State.onPort_kept _ _ _ (fun _ h => State.ejectIn_kept _ h) keeps)
  | fault => exact answers_next (State.onPort_kept _ _ _ (fun _ h => State.faultIn_kept _ h) keeps)
  | leave => exact answers_next (State.onPort_kept _ _ _ (fun _ h => State.leaveIn_kept _ h) keeps)
  | unknownControlRecord => exact answers_next (State.unknownRecord_kept _ keeps)
  | bucketFrame => exact answers_next (State.onPort_kept _ _ _ (fun _ h => State.takeFrame_kept _ _ h) keeps)
  | censusPart => exact answers_next (State.onPort_kept _ _ _ (fun _ h => State.censusIn_kept _ _ h) keeps)
  | censusViewTimeout => exact answers_next (State.settleReset_kept (State.viewTimeout_kept _ keeps))
  | bucketLate => exact answers_next (State.lateMember_kept _ _ keeps)
  | portDown => exact answers_next (State.settleReset_kept (State.portDown_kept _ _ keeps))
  | portRetrainComplete => exact answers_next (State.settleReset_kept (State.portRetrained_kept _ _ keeps))
  | joinAllowanceExpiry => exact answers_next (State.allowanceEnds_kept keeps)
  | restoreHelloTimeout => exact answers_next (State.helloTimeout_kept keeps)
  | journalMirrorReceived => exact answers_next (State.onPartner_kept _ _ _ _ (fun _ h => State.mirrorIn_kept _ _ h) keeps)
  | mirrorAck => exact answers_next (State.onPartner_kept _ _ _ _ (fun _ h => State.afterWrite_kept (State.mirrorAckIn_kept _ _ h)) keeps)
  | mirrorAckTimeout => exact answers_next (State.afterWrite_kept (State.mirrorTimeout_kept keeps))
  | snapshotFragmentReceived => exact answers_next (State.onPartner_kept _ _ _ _ (fun _ h => State.storePiece_kept _ _ h) keeps)
  | stateTransferReceived => exact answers_next (State.onPartner_kept _ _ _ _ (fun _ h => State.takeTransfer_kept _ _ h) keeps)
  | tideIssue => exact answers_next (State.onTides_kept _ (fun _ _ h => State.issueNext_kept _ _ h) keeps)
  | tideStart => exact answers_next (State.settleReset_kept (State.onTides_kept _ (fun _ _ h => State.startNext_kept _ _ _ _ h) keeps))
  | tideComplete => exact answers_next (State.onTides_kept _ (fun _ _ h => State.finishTide_kept _ _ _ h) keeps)
  | weightPlaneLoadComplete =>
    exact answers_next (State.settleReset_kept (State.onTides_kept _ (fun _ _ h => State.loadedPlane_kept _ _ h) keeps))
  | tileDeadlock => exact answers_next (State.settleReset_kept (State.onTides_kept _ (fun _ _ h => State.deadlock_kept _ _ _ _ h) keeps))
  | regionOpen => exact answers_next (State.onTides_kept _ (fun _ _ h => State.openNow_kept _ _ _ h) keeps)
  | quayRead =>
    exact inMemory_answers (fun beyond => nomatch ite_eq_right_iff.mp here beyond)
      (fun h => State.settleReset_kept (State.quayRead_kept _ _ _ _ _ h)) s
  | quayWrite =>
    exact inMemory_answers (fun beyond => nomatch ite_eq_right_iff.mp here beyond)
      (fun h => State.settleReset_kept (State.quayWrite_kept _ _ _ _ _ _ h)) s
  | atomicAdd => exact answers_next (State.addIn_kept _ _ _ _ _ _ keeps)
  | patrolScrub => exact answers_next (State.scrub_kept _ _ keeps)
  | refresh => exact answers_next (keeps)
  | stashBlockPack => exact answers_next (State.packBlock_kept _ _ _ _ keeps)
  | groupForwardStart => exact answers_next (State.onTides_kept _ (fun _ _ h => State.groupForward_kept _ _ h) keeps)
  | hostLayerRequest => exact answers_next (State.onTides_kept _ (fun _ _ h => State.hostRequest_kept _ _ _ h) keeps)
  | slackWater => exact answers_next (State.onTable_kept _ (fun _ _ h => State.slackWater_kept _ h) keeps)
  | bucketReduce => exact answers_next (State.onTable_kept _ (fun _ _ h => State.reduceBucket_kept _ h) keeps)
  | journalWriteComplete => exact answers_next (State.localWritten_kept keeps)
  | flashTimeout => exact answers_next (State.flashFails_kept keeps)
  | journalCompacted => exact answers_next (State.compactNow_kept _ keeps)
  | snapshotDrainFragment => exact answers_next (State.drainFragment_kept _ keeps)
  | breakwaterStall => exact answers_next (State.afterWrite_kept (State.resumeQuay_kept _ keeps))
  | decodeStepBoundary => exact answers_next (State.onTable_kept _ (fun _ _ h => kept_if (State.boundary_kept _ h) h) keeps)
  | testComplete => exact answers_next (State.settleReset_kept (State.testComplete_kept _ keeps))
  | portTrained => exact answers_next (State.portTrained_kept _ keeps)
  | flitAcknowledgement => exact answers_next (State.codewordIn_kept _ _ keeps)
  | perstDeassert => exact answers_next (State.perstOff_kept keeps)
  | busMasterEnable => exact answers_next (State.busMasterOn_kept keeps)
  | inputUndervoltClear => exact answers_next (State.underVoltClear_kept _ keeps)
  | dramThermalHalveEnd => exact answers_next (State.restoreQuay_kept _ keeps)
  | powerRemoved => exact answers_next (State.powerDown_kept keeps)
  | dvfsRailSettled => exact answers_next (State.railSettled_kept _ keeps)

/-- A command faults at its missing address, and answers in every other case. -/
theorem exec_cases (i : Instr) (s : State) :
    (∃ a, missingAddress i = some a ∧ exec i s = .fault (.noSuchAddress a)) ∨ (missingAddress i = none ∧ Answers s (exec i s)) := by
  cases missing : missingAddress i with
  | none => exact .inr ⟨rfl, exec_answers i s missing⟩
  | some a => exact .inl ⟨a, rfl, exec_missing missing s⟩

/-- What a step that answers keeps, once the queue has lost its front. -/
theorem step_kept {s t : State} (h : step s = .next t) : Kept { s with pending := s.pending.tail } t := by
  unfold step at h
  split at h
  next empty =>
    cases h
    rw [empty, List.tail_nil, ← empty]
    exact State.tick_kept (kept_refl s)
  next c rest front =>
    rw [front, List.tail_cons]
    obtain ⟨a, -, stops⟩ | ⟨-, u, next, kept⟩ := exec_cases c { s with pending := rest }
    · rw [stops] at h
      cases h
    · rw [next] at h
      cases h
      exact kept

theorem State.Inv.withPending {s : State} (inv : s.Inv) (l : List Instr) : State.Inv { s with pending := l } :=
  ⟨inv.memory, inv.sqs, inv.cqs, inv.stalls, inv.quays, inv.ports, inv.vectors, inv.log, inv.counters, inv.otp⟩

/-- Settles O5: every operation keeps the invariant (`Kept.inv`), and so does the idle step. -/
theorem everyStepKeepsTheInvariant : Obligations.EveryStepKeepsTheInvariant := by
  unfold Obligations.EveryStepKeepsTheInvariant
  intro s t inv next
  exact (step_kept next).inv (inv.withPending _)

/-- Settles O6: the other four parts of `Kept`, from the state with the queue's rest on. -/
theorem stepsTakeNothingBack : Obligations.StepsTakeNothingBack := by
  unfold Obligations.StepsTakeNothingBack
  intro s t next
  have kept := step_kept next
  exact ⟨kept.queue, kept.sent, kept.svn, kept.gens⟩

/-- Settles O7: a command that has a missing address faults with it, and every other one answers. -/
theorem onlyMissingAddressesStop : Obligations.OnlyMissingAddressesStop := by
  unfold Obligations.OnlyMissingAddressesStop
  intro i s
  simp only [← missingAddress_iff]
  obtain ⟨a, missing, stops⟩ | ⟨here, t, next, -⟩ := exec_cases i s
  · rw [stops, missing]
    exact ⟨fun _ => nofun, fun f => ⟨fun e => ⟨a, rfl, (Host.Outcome.fault.inj e).symm⟩, fun ⟨b, same, e⟩ =>
       by cases same; rw [e]⟩⟩
  · rw [next, here]
    exact ⟨fun _ => nofun, fun f => ⟨nofun, nofun⟩⟩

end Sys2Proof.Machine

/-! PROOF. The state after reset, the idle step, and the rows whose effect is a single update. -/

namespace Sys2Proof.Machine

/-! ## States that agree on every part -/

theorem State.eq_of_same {s x : State} (h : ∀ k, s.SameAt x k) : x = s := by
  cases s
  cases x
  obtain rfl := h .pending
  obtain rfl := h .out
  obtain rfl := h .freeCtr
  obtain rfl := h .usec
  obtain rfl := h .power
  obtain rfl := h .boot
  obtain rfl := h .pcie
  obtain rfl := h .sqs
  obtain rfl := h .cqs
  obtain rfl := h .sqTurn
  obtain rfl := h .cmds
  obtain rfl := h .log
  obtain rfl := h .tm
  obtain rfl := h .job
  obtain rfl := h .mem
  obtain rfl := h .run
  obtain rfl := h .stalls
  obtain rfl := h .quays
  obtain rfl := h .snap
  obtain rfl := h .journal
  obtain rfl := h .harbour
  obtain rfl := h .ports
  obtain rfl := h .test
  rfl

/-- A state that is `s` but for some parts is the state `z` that takes those parts from it and the rest from `s`. -/
theorem Only.eq {ks : List Part} {s x : State} (h : Only ks s x) (z : State) (taken : ∀ k ∈ ks, z.SameAt x k)
    (rest : ∀ k ∉ ks, s.SameAt z k) : x = z := by
  refine State.eq_of_same fun k => ?_
  by_cases hk : k ∈ ks
  · exact taken k hk
  · have hx := h.same k hk
    have hz := rest k hk
    cases k <;> exact Eq.trans hx (Eq.symm hz)

/-! ## Steps -/

/-- Settles O1: this is the arm of `step` for a queue with a front. -/
theorem stepRunsTheFrontCommand : Obligations.StepRunsTheFrontCommand := by
  unfold Obligations.StepRunsTheFrontCommand
  intro c rest s front
  simp only [step, front]

/-- Settles O2: this is the arm of `step` for an empty queue. -/
theorem emptyQueueIdles : Obligations.EmptyQueueIdles := by
  unfold Obligations.EmptyQueueIdles
  intro s empty
  simp only [step, empty, State.tick]

/-! ## Reset -/

/-- Settles O3, part by part. -/
theorem resetMeetsTheInvariant : Obligations.ResetMeetsTheInvariant where
  memory := rfl
  sqs := List.length_replicate
  cqs := List.length_replicate
  stalls := List.length_replicate
  quays := List.length_replicate
  ports := List.length_replicate
  vectors := List.length_replicate
  log := ⟨by decide, nofun, .nil⟩
  counters := ⟨.nil, nofun⟩
  otp := ⟨rfl, by decide, by decide⟩

/-- The patch part of HM_VERSION is zero, whatever the ROM's own version is. -/
theorem State.reset_version : State.reset.liveWord 8 = Config.firmwareVersion.toNat := by
  rw [State.liveWord_of_ident _ (by decide)]
  exact Nat.add_zero _

/-- An empty ring reads zeros in every slot. -/
theorem State.evWord_of_empty {s : State} (empty : s.log.ring = []) {o : Nat} (h : 0x18000 ≤ o) (h' : o < 0x20000) : s.evWord o = 0 := by
  have zero : fld (zeros 64) (o % 64) 8 = 0 := by
    have : ∀ k < 64, fld (zeros 64) k 8 = 0 := by decide
    exact this _ (Nat.mod_lt _ (by decide))
  simp only [State.evWord, evLostAt, EventLog.slot, empty, List.find?_nil, zero]
  split_ifs <;> first | rfl | omega

theorem State.reset_eventSlot {k : Nat} (h : k < 4096) : State.reset.liveWord (0x18000 + 8 * k) = 0 := by
  rw [State.liveWord, if_neg (by omega), if_pos (by omega)]
  exact State.evWord_of_empty rfl (by omega) (by omega)

/-- Settles O4: the words are computed, but for the ROM's version and the 4,096 words of the event ring. -/
theorem resetLeavesTheResetColumns : Obligations.ResetLeavesTheResetColumns := by
  unfold Obligations.ResetLeavesTheResetColumns
  have ident : ∀ k < 8, State.reset.liveWord (0x80 + 8 * k) = 0 := by decide
  refine ⟨⟨by decide, State.reset_version, by decide, by decide, by decide, rfl, rfl, rfl, rfl, rfl, ident⟩,
    ⟨by decide, by decide, by decide, by decide, fun k => State.reset_eventSlot, fun o => ⟨rfl, List.not_mem_nil⟩⟩,
    by decide, by decide, by decide, by decide, by decide, by decide, by decide, by decide, by decide, by decide, fun a => rfl⟩

/-! ## HALT_AT_SLACK and SNAPSHOT -/

/-- Settles O16: the two rows, once their command is known to wait. -/
theorem haltAndSnapshotRequests : Obligations.HaltAndSnapshotRequests := by
  unfold Obligations.HaltAndSnapshotRequests
  refine fun s sq cid c => ⟨fun waits => onCmd_eq waits, fun waits => (onCmd_eq waits).trans ?_⟩
  unfold State.askSnapshot
  cases s.mode.jobState <;> rfl

/-! ## EV_ACK, EV_CTRL and BW_BASE -/

theorem onWrite_eq {s : State} (takes : s.takesWrites = true) (f : State → State) : s.onWrite f = .next (f s) := by
  simp [State.onWrite, takes]

/-- The message that signalling a vector sends. -/
theorem State.msix_out (v : Nat) (s : State) :
    (s.msix v).out = if s.pcie.busMaster ∧ (s.pcie.msix.getD v ⟨0, 0, true⟩).masked = false
      then s.out ++ [.msix v (s.pcie.msix.getD v ⟨0, 0, true⟩).addr (s.pcie.msix.getD v ⟨0, 0, true⟩).data] else s.out := by
  unfold State.msix
  generalize s.pcie.msix.getD v ⟨0, 0, true⟩ = e
  cases master : s.pcie.busMaster
  · simp
  · cases masked : e.masked <;> simp [masked]

theorem State.msix_eq (v : Nat) (s : State) : s.msix v = { s with pcie := (s.msix v).pcie, out := (s.msix v).out } :=
  (State.msix_only v (List.Subset.refl _) (only_refl _ s)).eq _ (by simp [State.SameAt]) fun k hk => by cases k <;> simp_all [State.SameAt]

/-- Settles O28: the message is that of the vector, where the log says that it is signalled. -/
theorem eventRegistersAreWritten : Obligations.EventRegistersAreWritten := by
  unfold Obligations.EventRegistersAreWritten
  intro s n v m takes
  refine ⟨⟨_, onWrite_eq takes _, ?_⟩, (onWrite_eq takes _).trans ?_⟩
  · have newerLeft : (s.log.ring.any fun r => newer r.seq (n % 4294967296)) = true ↔ ∃ r ∈ s.log.ring, newer r.seq (n % 4294967296) = true :=
      List.any_eq_true
    unfold State.evAck
    dsimp only
    split
    next signals =>
      obtain ⟨intEn, left⟩ : s.log.intEn = true ∧ _ := (Bool.and_eq_true _ _).mp signals
      refine ⟨State.msix_eq _ _, (State.msix_noted _ _).pcie, ?_⟩
      rw [State.msix_out]
      simp only [State.modLog_log, State.modLog_pcie, State.modLog_out, intEn, newerLeft.mp left, true_and]
    next quiet =>
      refine ⟨rfl, rfl, (if_neg fun h => quiet ?_).symm⟩
      obtain ⟨intEn, left, -⟩ := h
      exact (Bool.and_eq_true _ _).mpr ⟨intEn, newerLeft.mpr left⟩
  · simp [State.evCtrl, State.modLog]

/-- An awake module, whose registers a write reaches. -/
theorem State.takesWrites_iff (s : State) : s.takesWrites = true ↔ s.hostReaches = true ∧ s.mode ≠ .standby ∧ s.mode ≠ .booting := by
  simp only [State.takesWrites, State.hostReaches, Bool.and_eq_true, bne_iff_ne, Bool.not_eq_true']
  tauto

/-- BW_BASE is in no frozen block. -/
theorem State.bar0Read_bwBase {s : State} (takes : s.takesWrites = true) :
    s.bar0Read 0x700000 8 = s.pcie.bwWritten.getD s.pcie.bwBase := by
  obtain ⟨-, standby, booting⟩ := s.takesWrites_iff.mp takes
  have thawed : frozenOffset 0x700000 = false := by decide
  simp [State.bar0Read, State.barWord, standby, booting, thawed, State.liveWord, State.bwWord]

/-- Settles O33: the read returns the base that was written, and then takes it. -/
theorem windowBaseAppliesAfterTheRead : Obligations.WindowBaseAppliesAfterTheRead := by
  unfold Obligations.WindowBaseAppliesAfterTheRead
  intro s v takes
  obtain ⟨reaches, -, -⟩ := s.takesWrites_iff.mp takes
  refine ⟨s.bwWrite v, onWrite_eq takes _, rfl, (s.bwWrite v).bwRead, congrArg Host.Outcome.next (if_pos reaches), rfl, rfl, rfl, ?_⟩
  have returned : (s.bwWrite v).bar0Read 0x700000 8 = baseBits v := State.bar0Read_bwBase (s := s.bwWrite v) takes
  unfold State.bwRead State.bar0Load
  rw [if_pos (by decide), returned]
  rfl

end Sys2Proof.Machine

/-! PROOF. What notes leave in the counters and in the event log (R388 to R393, R397): how a counter adds up over several of them, and
which records stand in the ring after them. -/

namespace Sys2Proof.Machine

/-! ## Counters -/

theorem kvGet_le {n : Nat} {l : List (Nat × Nat)} (h : kvOk n l) (a : Nat) : kvGet l a ≤ n := by
  obtain ⟨-, bounded⟩ := h
  induction l with
  | nil => exact Nat.zero_le n
  | cons d rest ih =>
    simp only [kvGet]
    split
    · exact (bounded d List.mem_cons_self).2
    · exact ih fun p hp => bounded p (List.mem_cons_of_mem d hp)

/-- The counter `o` goes up by `n`, as far as 64 bits hold it, and the counters stay well formed. -/
def State.Counts (o n : Nat) (s t : State) : Prop := s.tm.Ok → t.tm.Ok ∧ kvGet t.tm.ctr o = min allOnes64 (kvGet s.tm.ctr o + n)

theorem State.Counts.counted {o n : Nat} {s t : State} (h : s.Counts o n t) : s.Counted t o n := fun ok => (h ok).2

theorem counts_of_tm {s t : State} (h : t.tm = s.tm) (o : Nat) : s.Counts o 0 t := by
  intro ok
  rw [h]
  exact ⟨ok, (Nat.min_eq_right (kvGet_le ok o)).symm⟩

theorem counts_trans {o m n : Nat} {s x t : State} (h : s.Counts o m x) (g : x.Counts o n t) : s.Counts o (m + n) t := by
  intro ok
  obtain ⟨okx, ex⟩ := h ok
  obtain ⟨okt, et⟩ := g okx
  exact ⟨okt, by rw [et, ex]; omega⟩

theorem counts_zero_left {o n : Nat} {s x t : State} (h : s.Counts o 0 x) (g : x.Counts o n t) : s.Counts o n t :=
  Nat.zero_add n ▸ counts_trans h g

theorem Telemetry.add_ctr {t : Telemetry} (ok : t.Ok) (o n x : Nat) :
    kvGet (t.add o n).ctr x = if x = o then min allOnes64 (kvGet t.ctr o + n) else kvGet t.ctr x := by
  unfold Telemetry.add
  split
  next beyond =>
    rw [kvGet_kvPut ok.1]
    split
    · omega
    · rfl
  next =>
    rw [kvGet_kvPut ok.1]
    split
    · omega
    · rfl

theorem modTm_add_counts (o n : Nat) (s : State) : s.Counts o n (s.modTm (Telemetry.add o n)) := by
  intro ok
  rw [State.modTm_tm]
  exact ⟨Telemetry.add_ok o n _ ok, by rw [Telemetry.add_ctr ok, if_pos rfl]⟩

theorem modTm_add_counts_ne {o x : Nat} (h : x ≠ o) (n : Nat) (s : State) : s.Counts x 0 (s.modTm (Telemetry.add o n)) := by
  intro ok
  rw [State.modTm_tm]
  refine ⟨Telemetry.add_ok o n _ ok, ?_⟩
  rw [Telemetry.add_ctr ok, if_neg h]
  exact (Nat.min_eq_right (kvGet_le ok x)).symm

theorem State.msix_tm (v : Nat) (s : State) : (s.msix v).tm = s.tm :=
  (State.msix_only v (List.Subset.refl _) (only_refl _ s)).same .tm (by decide)

theorem State.signalLog_tm (s : State) : s.signalLog.tm = s.tm :=
  (State.signalLog_only (List.Subset.refl _) (only_refl _ s)).same .tm (by decide)

theorem State.enterRecord_tm (code kind index : Nat) (detail : Bytes) (s : State) :
    (s.enterRecord code kind index detail).tm = s.countLoss.tm := by
  rw [State.enterRecord, State.signalLog_tm, State.modLog_tm]

/-- A record that is entered counts on EV_LOST alone. -/
theorem State.enterRecord_counts {o : Nat} (ho : o ≠ evLostAt) (code kind index : Nat) (detail : Bytes) (s : State) :
    s.Counts o 0 (s.enterRecord code kind index detail) := by
  refine counts_zero_left (x := s.countLoss) ?_ (counts_of_tm (State.enterRecord_tm _ _ _ _ s) o)
  unfold State.countLoss
  split
  · exact modTm_add_counts_ne ho 1 s
  · exact counts_of_tm rfl o

theorem State.raise_counts {o : Nat} (ho : o ≠ evLostAt) (code kind index : Nat) (fs : List (Nat × Nat × Nat)) (s : State) :
    s.Counts o 0 (s.raise code kind index fs) := by
  have first := s.enterRecord_counts ho code kind index (eventDetail fs)
  unfold State.raise
  split
  · exact counts_zero_left first (State.enterRecord_counts ho _ _ _ _ _)
  · exact first

theorem State.count_counts {o : Nat} (ho : o ≠ evLostAt) (n : Nat) (s : State) : s.Counts o n (s.count o n) := by
  have add := modTm_add_counts o n s
  unfold State.count
  split
  · exact counts_trans add (State.raise_counts ho _ _ _ _ _)
  · exact add

theorem State.count_counts_ne {o x : Nat} (hx : x ≠ o) (lost : x ≠ evLostAt) (n : Nat) (s : State) : s.Counts x 0 (s.count o n) := by
  have add := modTm_add_counts_ne hx n s
  unfold State.count
  split
  · exact counts_trans add (State.raise_counts lost _ _ _ _ _)
  · exact add

theorem evViolationAt_ne (cls : Nat) : evViolationAt cls ≠ evLostAt := by
  simp only [evViolationAt, evLostAt]
  omega

/-- A violation is its count, and at most one event behind it. -/
theorem State.violation_eq (cls : Nat) (queue : Option Nat) (opcode cid addr : Nat) (s : State) :
    s.violation cls queue opcode cid addr = s.count (evViolationAt cls) 1
      ∨ ∃ (f : List (Nat × Nat) → List (Nat × Nat)) (kind index : Nat) (fs : List (Nat × Nat × Nat)), s.violation cls queue opcode cid addr
          = (((s.count (evViolationAt cls) 1).modLog fun l => { l with lastViol := f l.lastViol }).raise 0x0601 kind index fs) := by
  unfold State.violation
  dsimp only
  generalize s.count (evViolationAt cls) 1 = y
  split_ifs
  · exact .inl rfl
  · exact .inr ⟨fun l => (cls, y.usec) :: l.filter fun p => p.1 != cls, _, _, _, rfl⟩

theorem State.violation_counts (cls : Nat) (queue : Option Nat) (opcode cid addr : Nat) (s : State) :
    s.Counts (evViolationAt cls) 1 (s.violation cls queue opcode cid addr) := by
  have first := s.count_counts (evViolationAt_ne cls) 1
  obtain e | ⟨f, kind, index, fs, e⟩ := s.violation_eq cls queue opcode cid addr
  · rwa [e]
  · rw [e]
    exact counts_trans first (counts_zero_left (counts_of_tm (State.modLog_tm _ _) _) (State.raise_counts (evViolationAt_ne cls) _ _ _ _ _))

theorem State.violation_violated (cls : Nat) (queue : Option Nat) (opcode cid addr : Nat) (s : State) :
    s.Violated (s.violation cls queue opcode cid addr) cls :=
  ⟨s.violation_noted cls queue opcode cid addr, (s.violation_counts cls queue opcode cid addr).counted⟩

/-! ## Records -/

/-- `k` records have been entered since `s`: they stand in front of those of `s`, and the newest carries the last sequence number. -/
def State.Grew (k : Nat) (s t : State) : Prop :=
  (∃ l : List EventRec, l.length = k ∧ ∀ j < 512, t.log.ring[j]? = (l ++ s.log.ring)[j]?)
    ∧ t.log.headSeq % 4294967296 = (s.log.headSeq + k) % 4294967296

/-- At most `n` records have been entered. -/
def State.GrewBy (n : Nat) (s t : State) : Prop := ∃ k ≤ n, s.Grew k t

theorem grew_of_log {s t : State} (h : t.log.ring = s.log.ring) (hs : t.log.headSeq = s.log.headSeq) : s.GrewBy 0 t :=
  ⟨0, le_rfl, ⟨[], rfl, by simp [h]⟩, by rw [hs, Nat.add_zero]⟩

theorem grew_trans {m n : Nat} {s x t : State} (h : s.GrewBy m x) (g : x.GrewBy n t) : s.GrewBy (m + n) t := by
  obtain ⟨j, hj, ⟨l, rfl, el⟩, sl⟩ := h
  obtain ⟨k, hk, ⟨r, rfl, er⟩, sr⟩ := g
  refine ⟨r.length + l.length, by omega, ⟨r ++ l, List.length_append, fun i hi => ?_⟩, by omega⟩
  rw [er i hi, List.append_assoc]
  by_cases h : i < r.length
  · rw [List.getElem?_append_left h, List.getElem?_append_left h]
  · rw [List.getElem?_append_right (by omega), List.getElem?_append_right (by omega)]
    exact el _ (by omega)

theorem grew_mono {m n : Nat} {s t : State} (h : s.GrewBy m t) (hm : m ≤ n) : s.GrewBy n t := by
  obtain ⟨k, hk, g⟩ := h
  exact ⟨k, hk.trans hm, g⟩

theorem State.signalLog_headSeq (s : State) : s.signalLog.log.headSeq = s.log.headSeq := by
  unfold State.signalLog
  split
  · rw [State.msix_log, State.modLog_log]
  · rfl

theorem State.enterRecord_headSeq (code kind index : Nat) (detail : Bytes) (s : State) :
    (s.enterRecord code kind index detail).log.headSeq = (s.log.headSeq + 1) % 4294967296 := by
  rw [State.enterRecord, State.signalLog_headSeq, State.modLog_log]
  rfl

theorem State.enterRecord_grew (code kind index : Nat) (detail : Bytes) (s : State) :
    s.GrewBy 1 (s.enterRecord code kind index detail) := by
  refine ⟨1, le_rfl, ⟨[s.record code kind index detail], rfl, fun j hj => ?_⟩, by rw [State.enterRecord_headSeq]; omega⟩
  rw [State.enterRecord_ring, List.getElem?_take_of_lt hj]
  rfl

theorem State.raise_grew (code kind index : Nat) (fs : List (Nat × Nat × Nat)) (s : State) : s.GrewBy 2 (s.raise code kind index fs) := by
  have first := s.enterRecord_grew code kind index (eventDetail fs)
  unfold State.raise
  split
  · exact grew_trans first (State.enterRecord_grew _ _ _ _ _)
  · exact grew_mono first (by decide)

theorem State.count_grew (o n : Nat) (s : State) : s.GrewBy 2 (s.count o n) := by
  have add : s.GrewBy 0 (s.modTm (Telemetry.add o n)) := grew_of_log rfl rfl
  unfold State.count
  split
  · exact grew_trans add (State.raise_grew _ _ _ _ _)
  · exact grew_mono add (by decide)

/-- A record that is entered stands in the ring, whatever few records come before and after it. -/
theorem logged_of_enterRecord {n : Nat} {s x t : State} {code kind index : Nat} {detail : Bytes} (before : s.GrewBy 3 x)
    (now : x.usec = s.usec) (after : (x.enterRecord code kind index detail).GrewBy n t) (hn : n ≤ 511) : s.Logged t code kind index := by
  obtain ⟨k, hk, -, sk⟩ := before
  obtain ⟨m, hm, ⟨l, rfl, el⟩, -⟩ := after
  refine ⟨x.record code kind index detail, ?_, ⟨k, by omega, ?_⟩, rfl, rfl, rfl, now⟩
  · have at_ := el l.length (by omega)
    rw [List.getElem?_append_right le_rfl, Nat.sub_self, State.enterRecord_ring, List.take_succ_cons, List.getElem?_cons_zero] at at_
    exact List.mem_of_getElem? at_
  · simp only [State.record]
    omega

theorem logged_of_raise {n : Nat} {s x t : State} {code kind index : Nat} {fs : List (Nat × Nat × Nat)} (before : s.GrewBy 3 x)
    (now : x.usec = s.usec) (after : (x.raise code kind index fs).GrewBy n t) (hn : n ≤ 510) : s.Logged t code kind index := by
  refine logged_of_enterRecord (detail := eventDetail fs) (n := 1 + n) before now (grew_trans ?_ after) (by omega)
  unfold State.raise
  dsimp only
  split
  · exact State.enterRecord_grew _ _ _ _ _
  · exact grew_mono (grew_of_log rfl rfl) (by decide)

theorem grewBy_refl (n : Nat) (s : State) : s.GrewBy n s := grew_mono (grew_of_log rfl rfl) (Nat.zero_le n)

theorem State.raise_logged (code kind index : Nat) (fs : List (Nat × Nat × Nat)) (s : State) :
    s.Logged (s.raise code kind index fs) code kind index :=
  logged_of_raise (n := 0) (grewBy_refl 3 s) rfl (grewBy_refl 0 _) (by decide)

end Sys2Proof.Machine

/-! PROOF. Saturating counters and their SAT bits (R388, R389), and the order of an exact sum (R116 to R118, R121). -/

namespace Sys2Proof.Machine

/-! ## Sets held as lists -/

theorem mem_setAdd {a x : Nat} {l : List Nat} : x ∈ setAdd a l ↔ x ∈ l ∨ x = a := by
  unfold setAdd
  split
  next h =>
    refine ⟨.inl, ?_⟩
    rintro (hx | rfl)
    · exact hx
    · exact List.contains_iff_mem.mp h
  next => simp

theorem mem_setDel {a x : Nat} {l : List Nat} : x ∈ setDel a l ↔ x ∈ l ∧ x ≠ a := by
  simp [setDel]

/-! ## An increment -/

theorem Telemetry.mem_sat_add {t : Telemetry} {o n x : Nat} :
    x ∈ (t.add o n).sat ↔ x ∈ t.sat ∨ x = o ∧ allOnes64 < kvGet t.ctr o + n := by
  unfold Telemetry.add
  split
  next h => simp [mem_setAdd, h]
  next h => simp [h]

theorem State.countLoss_sat {o : Nat} (ho : o ≠ evLostAt) (s : State) : o ∈ s.countLoss.tm.sat ↔ o ∈ s.tm.sat := by
  unfold State.countLoss
  split
  · simp [Telemetry.mem_sat_add, ho]
  · rfl

theorem State.raise_sat {o : Nat} (ho : o ≠ evLostAt) (code kind index : Nat) (fs : List (Nat × Nat × Nat)) (s : State) :
    o ∈ (s.raise code kind index fs).tm.sat ↔ o ∈ s.tm.sat := by
  unfold State.raise
  dsimp only
  split
  · rw [State.enterRecord_tm, State.countLoss_sat ho, State.enterRecord_tm, State.countLoss_sat ho]
  · rw [State.enterRecord_tm, State.countLoss_sat ho]

theorem State.count_sat {o : Nat} (ho : o ≠ evLostAt) (n : Nat) (s : State) :
    o ∈ (s.count o n).tm.sat ↔ o ∈ s.tm.sat ∨ allOnes64 < kvGet s.tm.ctr o + n := by
  unfold State.count
  split
  · rw [State.saturated, State.raise_sat ho, State.modTm_tm, Telemetry.mem_sat_add]
    simp
  · rw [State.modTm_tm, Telemetry.mem_sat_add]
    simp

theorem Telemetry.saturates_iff {t : Telemetry} {o n : Nat} :
    t.saturates o n = true ↔ allOnes64 < kvGet t.ctr o + n ∧ o ∉ t.sat := by
  simp [Telemetry.saturates]

theorem State.count_logged {o n : Nat} {s : State} (beyond : allOnes64 < kvGet s.tm.ctr o + n) (clear : o ∉ s.tm.sat) :
    s.Logged (s.count o n) 0x0901 (if isStallCounter o then srcStall else srcModule)
      (if isStallCounter o then (o - 0x1000000) / 0x1000 else 0xFFFF) := by
  rw [State.count, if_pos (Telemetry.saturates_iff.mpr ⟨beyond, clear⟩), State.saturated]
  have before : s.GrewBy 3 (s.modTm (Telemetry.add o n)) := grew_mono (grew_of_log rfl rfl) (by decide)
  exact logged_of_raise before rfl (grewBy_refl 0 _) (by decide)

theorem State.count_log {o n : Nat} {s : State} (h : o ∈ s.tm.sat ∨ kvGet s.tm.ctr o + n ≤ allOnes64) : (s.count o n).log = s.log := by
  rw [State.count, if_neg]
  · rfl
  · rw [Telemetry.saturates_iff]
    rintro ⟨beyond, clear⟩
    exact h.elim clear (Nat.not_le_of_lt beyond)

/-! ## SAT bits written with 1 -/

/-- The counters that `hit` names have lost their SAT bit and their count, where the bit was set; nothing else has changed. -/
structure SatsCleared (hit : Nat → Prop) (s t : State) : Prop where
  rest : t = { s with tm := t.tm }
  others : t.tm = { s.tm with ctr := t.tm.ctr, sat := t.tm.sat }
  ok : s.tm.Ok → t.tm.Ok
  sats : ∀ c, c ∈ t.tm.sat ↔ c ∈ s.tm.sat ∧ ¬ hit c
  cleared : s.tm.Ok → ∀ c, c ∈ s.tm.sat → hit c → kvGet t.tm.ctr c = 0
  kept : s.tm.Ok → ∀ c, ¬ (c ∈ s.tm.sat ∧ hit c) → kvGet t.tm.ctr c = kvGet s.tm.ctr c

theorem satsCleared_refl (s : State) : SatsCleared (fun _ => False) s s :=
  ⟨rfl, rfl, id, by simp, by simp, by simp⟩

theorem satsCleared_trans {h g : Nat → Prop} {s x t : State} (a : SatsCleared h s x) (b : SatsCleared g x t) :
    SatsCleared (fun c => h c ∨ g c) s t where
  rest := by rw [b.rest, a.rest]
  others := by rw [b.others, a.others]
  ok := b.ok ∘ a.ok
  sats c := by rw [b.sats, a.sats]; tauto
  cleared ok c set := by
    rintro hit
    by_cases hc : h c
    · rw [b.kept (a.ok ok) c (by rw [a.sats]; tauto), a.cleared ok c set hc]
    · exact b.cleared (a.ok ok) c ((a.sats c).mpr ⟨set, hc⟩) (hit.resolve_left hc)
  kept ok c not := by
    rw [b.kept (a.ok ok) c (by rw [a.sats]; tauto), a.kept ok c (by tauto)]

theorem clearSat_cleared (c : Nat) (s : State) : SatsCleared (· = c) s (s.modTm (Telemetry.clearSat c)) := by
  by_cases set : c ∈ s.tm.sat
  · have e : s.tm.clearSat c = { s.tm with sat := setDel c s.tm.sat, ctr := kvPut s.tm.ctr c 0 } := by simp [Telemetry.clearSat, set]
    refine ⟨rfl, by rw [State.modTm_tm, e], Telemetry.clearSat_ok c _, fun d => ?_, fun ok d _ hd => ?_, fun ok d hd => ?_⟩
    · rw [State.modTm_tm, e]
      exact mem_setDel
    · rw [State.modTm_tm, e]
      exact (kvGet_kvPut ok.1 _ _ _).trans (if_pos hd)
    · rw [State.modTm_tm, e]
      refine (kvGet_kvPut ok.1 _ _ _).trans (if_neg ?_)
      rintro rfl
      exact hd ⟨set, rfl⟩
  · have e : s.tm.clearSat c = s.tm := by simp [Telemetry.clearSat, set]
    refine ⟨rfl, by rw [State.modTm_tm, e], Telemetry.clearSat_ok c _, fun d => ?_, fun ok d hd hc => ?_, fun ok d _ => ?_⟩
    · rw [State.modTm_tm, e]
      refine ⟨fun hd => ⟨hd, ?_⟩, And.left⟩
      rintro rfl
      exact set hd
    · subst hc
      exact absurd hd set
    · rw [State.modTm_tm, e]

/-- What one bit of the written word clears. -/
theorem clearBit_cleared (p : Nat → Bool) (f : Nat → Option Nat) (i : Nat) (s : State) :
    SatsCleared (fun c => p i = true ∧ f i = some c) s
      (if p i then match f i with | none => s | some c => s.modTm (Telemetry.clearSat c) else s) := by
  cases p i with
  | false => simpa using satsCleared_refl s
  | true =>
    cases f i with
    | none => simpa using satsCleared_refl s
    | some c => simpa [eq_comm] using clearSat_cleared c s

theorem clearBits_cleared (p : Nat → Bool) (f : Nat → Option Nat) (l : List Nat) (s : State) :
    SatsCleared (fun c => ∃ i ∈ l, p i = true ∧ f i = some c) s
      (l.foldl (fun s i => if p i then match f i with | none => s | some c => s.modTm (Telemetry.clearSat c) else s) s) := by
  induction l generalizing s with
  | nil => simpa using satsCleared_refl s
  | cons i l ih => simpa using satsCleared_trans (clearBit_cleared p f i s) (ih _)

theorem State.clearSats_cleared (o size w : Nat) (s : State) :
    SatsCleared (fun c => ∃ i < 64, reaches o size i = true ∧ bit (spread o size w) i = true ∧ satCounter (o - o % 8) i = some c) s
      (s.clearSats o size w) := by
  have h := clearBits_cleared (fun i => reaches o size i && bit (spread o size w) i) (satCounter (o - o % 8)) (List.range 64) s
  have e : ∀ c, (∃ i ∈ List.range 64, (reaches o size i && bit (spread o size w) i) = true ∧ satCounter (o - o % 8) i = some c)
      = ∃ i < 64, reaches o size i = true ∧ bit (spread o size w) i = true ∧ satCounter (o - o % 8) i = some c := fun c => by
    simp only [List.mem_range, Bool.and_eq_true, and_assoc]
  simp only [e] at h
  exact h

/-- Settles O29: an increment counts, and its event is the one of `State.saturated`; a word of SAT bits clears one counter a bit. -/
theorem countersStopAndSatBitsClear : Obligations.CountersStopAndSatBitsClear := by
  unfold Obligations.CountersStopAndSatBitsClear
  refine ⟨fun s o n ok lost => ?_, fun s o size w takes ok => ?_⟩
  · exact ⟨s.count_noted o n, (s.count_counts lost n ok).2, s.count_sat lost n, State.count_logged, State.count_log⟩
  · refine ⟨if sizeFits o size then s.clearSats o size w else s.violation 1 none 0 0 o, onWrite_eq takes fun s => if sizeFits o size then s.clearSats o size w else s.violation 1 none 0 0 o, ?_⟩
    split
    · have c := s.clearSats_cleared o size w
      exact ⟨c.rest, c.others, c.sats, fun d => ⟨fun ⟨set, hit⟩ => c.cleared ok d set hit, c.kept ok d⟩⟩
    · exact s.violation_violated 1 none 0 0 o

/-! ## Exact sums -/

/-- Contributions that an accumulator of a count takes without a flag: no more than the count allows, and each a number within its
share. -/
def fitsSum (phi count : Nat) (l : List (Int × Bool)) : Bool :=
  count + l.length ≤ 2 ^ phi && l.all fun c => !c.2 && c.1.natAbs ≤ shareA64 phi

def Acc.flagged (a : Acc) : Bool := a.nar || a.cliff

/-- A flag stays, whatever is added. -/
theorem Acc.add_flagged {a : Acc} (h : a.flagged = true) (phi : Nat) (c : Int) (n : Bool) : (a.add phi c n).1.flagged = true := by
  simp only [Acc.flagged, Bool.or_eq_true] at h ⊢
  unfold Acc.add
  split_ifs <;> simp_all

theorem sum_flagged {a : Acc} (h : a.flagged = true) (phi : Nat) (l : List (Int × Bool)) :
    (l.foldl (fun a c => (a.add phi c.1 c.2).1) a).flagged = true := by
  induction l generalizing a with
  | nil => exact h
  | cons c l ih => exact ih (Acc.add_flagged h phi c.1 c.2)

/-- One contribution to an accumulator without a flag: it is added, or sets a flag. -/
theorem Acc.add_clear {a : Acc} (h : a.flagged = false) (phi : Nat) (c : Int) (n : Bool) :
    if fitsSum phi a.count [(c, n)] then (a.add phi c n).1 = { a with v := a.v + c, count := a.count + 1 }
    else (a.add phi c n).1.flagged = true := by
  obtain ⟨nar, cliff⟩ : a.nar = false ∧ a.cliff = false := by simpa [Acc.flagged] using h
  simp only [fitsSum, List.length_singleton, List.all_cons, List.all_nil, Bool.and_true, Bool.and_eq_true, decide_eq_true_eq,
    Bool.not_eq_true', Acc.add, nar, cliff, Acc.flagged, Bool.false_eq_true, if_false]
  split_ifs <;> simp_all <;> omega

theorem fitsSum_cons (phi count : Nat) (c : Int × Bool) (l : List (Int × Bool)) :
    fitsSum phi count (c :: l) = (fitsSum phi count [c] && fitsSum phi (count + 1) l) := by
  rw [Bool.eq_iff_iff]
  simp only [fitsSum, List.length_cons, List.length_nil, List.all_cons, List.all_nil, Bool.and_eq_true, decide_eq_true_eq]
  refine ⟨fun ⟨room, head, tail⟩ => ⟨⟨by omega, head, trivial⟩, by omega, tail⟩, fun ⟨⟨_, head, _⟩, room, tail⟩ => ⟨by omega, head, tail⟩⟩

/-- The sum is that of the contributions where every one fits, and flagged otherwise. -/
theorem sum_clear {a : Acc} (h : a.flagged = false) (phi : Nat) (l : List (Int × Bool)) (room : a.count ≤ 2 ^ phi) :
    let sum := l.foldl (fun a c => (a.add phi c.1 c.2).1) a
    if fitsSum phi a.count l then sum.flagged = false ∧ sum.v = a.v + (l.map (·.1)).sum else sum.flagged = true := by
  induction l generalizing a with
  | nil => simp [h, room, fitsSum]
  | cons c l ih =>
    have one := Acc.add_clear h phi c.1 c.2
    simp only [List.foldl_cons, List.map_cons, List.sum_cons, fitsSum_cons phi a.count c l]
    by_cases first : fitsSum phi a.count [c] = true
    · rw [if_pos first] at one
      have more := ih (a := { a with v := a.v + c.1, count := a.count + 1 }) h
        (by simp only [fitsSum, Bool.and_eq_true, decide_eq_true_eq] at first; exact first.1)
      rw [one, first, Bool.true_and, ← add_assoc]
      exact more
    · rw [if_neg first] at one
      rw [Bool.not_eq_true] at first
      rw [first, Bool.false_and, if_neg Bool.false_ne_true]
      exact sum_flagged one phi l

/-- Settles O60: whether the contributions fit, and their sum, do not depend on their order. -/
theorem sumsDoNotDependOnTheOrder : Obligations.SumsDoNotDependOnTheOrder := by
  unfold Obligations.SumsDoNotDependOnTheOrder
  intro phi cs ds perm
  have fits : fitsSum phi 0 cs = fitsSum phi 0 ds := by simp only [fitsSum, perm.length_eq, perm.all_eq]
  have value : (cs.map (·.1)).sum = (ds.map (·.1)).sum := (perm.map _).sum_eq
  have stored : ∀ l : List (Int × Bool), (l.foldl (fun (a : Acc) c => (a.add phi c.1 c.2).1) Acc.zero).stored
      = a64Code (if fitsSum phi 0 l then some (l.map (·.1)).sum else none) := by
    intro l
    have sum := sum_clear (a := Acc.zero) rfl phi l (Nat.zero_le _)
    dsimp only at sum
    generalize l.foldl (fun (a : Acc) c => (a.add phi c.1 c.2).1) Acc.zero = x at sum
    unfold Acc.flagged at sum
    unfold Acc.stored
    change if fitsSum phi 0 l then _ ∧ x.v = 0 + _ else _ at sum
    split at sum
    next ok => rw [sum.1, sum.2, if_pos ok, Int.zero_add, if_neg Bool.false_ne_true]
    next bad => rw [sum, if_neg bad, if_pos rfl]
  simp only [stored, fits, value]

end Sys2Proof.Machine

/-! PROOF. The doorbells and the queue registers (R353 to R356, R359, R362, R379). -/

namespace Sys2Proof.Machine

/-! ## One element of an array -/

theorem State.sq_setSq (s : State) {q : Nat} (h : q < s.sqs.length) (f : Sq → Sq) : (s.setSq q f).sq q = f (s.sq q) :=
  modAt_getD_self q f s.sqs _ h

theorem State.sq_setSq_ne (s : State) {q p : Nat} (h : p ≠ q) (f : Sq → Sq) : (s.setSq q f).sq p = s.sq p :=
  modAt_getD_ne q p f s.sqs _ h.symm

theorem State.cq_setCq (s : State) {q : Nat} (h : q < s.cqs.length) (f : Cq → Cq) : (s.setCq q f).cq q = f (s.cq q) :=
  modAt_getD_self q f s.cqs _ h

theorem State.cq_setCq_ne (s : State) {q p : Nat} (h : p ≠ q) (f : Cq → Cq) : (s.setCq q f).cq p = s.cq p :=
  modAt_getD_ne q p f s.cqs _ h.symm

/-- What `g` sees of the elements stands where `f` does not change it. -/
theorem getD_modAt_of_eq {α β : Type} (g : α → β) {f : α → α} (h : ∀ x, g (f x) = g x) (i j : Nat) (l : List α) (d : α) :
    g ((modAt i f l).getD j d) = g (l.getD j d) := by
  rw [List.getD_eq_getElem?_getD, List.getD_eq_getElem?_getD, modAt_getElem?]
  split
  · cases l[j]? with
    | none => rfl
    | some x => exact h x
  · rfl

theorem getD_map_of_eq {α β : Type} (g : α → β) {f : α → α} (h : ∀ x, g (f x) = g x) (j : Nat) (l : List α) (d : α) :
    g ((l.map f).getD j d) = g (l.getD j d) := by
  rw [List.getD_eq_getElem?_getD, List.getD_eq_getElem?_getD, List.getElem?_map]
  cases l[j]? with
  | none => rfl
  | some x => exact h x

/-! ## What fetching leaves of the queues -/

/-- Every submission queue keeps its tail, and every completion queue its head. -/
structure State.IndicesKept (s t : State) : Prop where
  tails : ∀ q, (t.sq q).tail = (s.sq q).tail
  heads : ∀ q, (t.cq q).head = (s.cq q).head

theorem indices_trans {s x t : State} (h : s.IndicesKept x) (g : x.IndicesKept t) : s.IndicesKept t :=
  ⟨fun q => (g.tails q).trans (h.tails q), fun q => (g.heads q).trans (h.heads q)⟩

theorem indices_of_eq {s t : State} (hs : t.sqs = s.sqs) (hc : t.cqs = s.cqs) : s.IndicesKept t :=
  ⟨fun q => by rw [State.sq, State.sq, hs], fun q => by rw [State.cq, State.cq, hc]⟩

theorem State.Noted.indices {s t : State} (h : s.Noted t) : s.IndicesKept t := indices_of_eq h.sqs h.cqs

theorem setCq_indices (s : State) (i : Nat) {f : Cq → Cq} (h : ∀ c, (f c).head = c.head) : s.IndicesKept (s.setCq i f) :=
  ⟨fun _ => rfl, fun q => getD_modAt_of_eq Cq.head h i q s.cqs _⟩

theorem setSq_indices (s : State) (i : Nat) {f : Sq → Sq} (h : ∀ x, (f x).tail = x.tail) : s.IndicesKept (s.setSq i f) :=
  ⟨fun q => getD_modAt_of_eq Sq.tail h i q s.sqs _, fun _ => rfl⟩

theorem State.write_indices (q : Nat) (e : Entry) (s : State) : s.IndicesKept (s.write q e) := by
  have entry : ∀ a b, s.IndicesKept ((s.emitEntry q a b).setCq q Cq.advance) := fun a b =>
    indices_trans (x := s.emitEntry q a b) (indices_of_eq rfl rfl) (setCq_indices _ q fun _ => rfl)
  unfold State.write
  dsimp only
  split
  · exact indices_trans (entry _ _) (State.msix_noted _ _).indices
  · exact entry _ _

theorem State.post_indices (q : Nat) (e : Entry) (s : State) : s.IndicesKept (s.post q e) := by
  unfold State.post
  dsimp only
  split
  · exact indices_of_eq rfl rfl
  · split
    · exact setCq_indices s q fun _ => rfl
    · exact s.write_indices q e

theorem State.entryViolations_noted (q : Nat) (p : Placed) (s : State) : s.Noted (s.entryViolations q p) := by
  unfold State.entryViolations
  dsimp only
  split
  · exact s.violation_noted _ _ _ _ _
  · split
    · exact s.violation_noted _ _ _ _ _
    · exact noted_refl s

theorem State.accept_indices (q : Nat) (p : Placed) (bound : Nat) (s : State) : s.IndicesKept (s.accept q p bound) := by
  unfold State.accept
  dsimp only
  exact indices_trans (x := s.modCmds _) (indices_of_eq rfl rfl)
    (indices_trans (State.count_noted _ _ _).indices (State.post_indices _ _ _))

theorem State.admitEntry_indices (q : Nat) (p : Placed) (s : State) : s.IndicesKept (s.admitEntry q p) := by
  unfold State.admitEntry
  dsimp only
  split
  · exact s.accept_indices q p _
  · exact indices_trans (noted_trans (State.raise_noted _ _ _ _ s) (State.count_noted _ _ _)).indices (State.post_indices _ _ _)
  · exact indices_trans (noted_trans (s.entryViolations_noted q p) (State.count_noted _ _ _)).indices (State.post_indices _ _ _)

theorem State.fetchOne_indices {s t : State} (h : s.fetchOne = some t) : s.IndicesKept t := by
  unfold State.fetchOne at h
  split at h
  · cases h
  · split at h
    · cases h
    · cases h
      refine indices_trans ?_ (State.admitEntry_indices _ _ _)
      exact indices_trans (setSq_indices s _ (f := fun x => { x with head := (x.head + 1) % x.entries, ring := x.ring.drop 1 })
        fun _ => rfl) (indices_of_eq rfl rfl)

theorem State.fetchLoop_indices (n : Nat) (s : State) : s.IndicesKept (s.fetchLoop n) := by
  induction n generalizing s with
  | zero => exact indices_of_eq rfl rfl
  | succ n ih =>
    simp only [State.fetchLoop]
    split
    · exact indices_of_eq rfl rfl
    · exact indices_trans (State.fetchOne_indices ‹_›) (ih _)

theorem State.markBlocked_indices (s : State) : s.IndicesKept s.markBlocked :=
  ⟨fun q => getD_map_of_eq Sq.tail (f := fun x => { x with blocked := x.next?.isSome && !s.cqRoom x.cq }) (fun _ => rfl) q s.sqs _,
    fun _ => rfl⟩

theorem State.fetch_indices (s : State) : s.IndicesKept s.fetch := by
  unfold State.fetch
  split
  · exact indices_of_eq rfl rfl
  · exact indices_trans (State.fetchLoop_indices _ s) (State.markBlocked_indices _)

/-- Fetching leaves everything but the queues, the commands, the notes and what is sent. -/
theorem State.fetch_rest (s : State) : Only [.out, .pcie, .sqs, .cqs, .sqTurn, .cmds, .log, .tm] s s.fetch :=
  State.fetch_only (List.Subset.refl _) (only_refl _ s)

/-! ## Doorbells -/

/-- The two writes of a held entry, and what comes after them. -/
theorem State.write_out (q : Nat) (e : Entry) (s : State) :
    ∃ l, (s.write q e).out = s.out ++ .entry q ((s.cq q).base + 32 * (s.cq q).tail)
          ((e.bytes (if e.sq = 0xFF then 0 else (s.sq e.sq).head) (s.cq q).phase).take 31)
        :: .entry q ((s.cq q).base + 32 * (s.cq q).tail + 31)
          ((e.bytes (if e.sq = 0xFF then 0 else (s.sq e.sq).head) (s.cq q).phase).drop 31) :: l := by
  unfold State.write
  dsimp only
  split
  · obtain ⟨l, e⟩ := (State.msix_noted (s.cq q).vector ((s.emitEntry q ((s.cq q).base + 32 * (s.cq q).tail)
      (e.bytes (if e.sq = 0xFF then 0 else (s.sq e.sq).head) (s.cq q).phase)).setCq q Cq.advance)).sent
    exact ⟨l, by rw [← e]; simp [State.emitEntry]⟩
  · exact ⟨[], by simp [State.emitEntry]⟩

theorem State.requestPosted_out (e : Entry) (s : State) : (s.requestPosted e).out = s.out := by
  unfold State.requestPosted
  split <;> rfl

theorem State.ringTail_taken {s : State} {q v : Nat} (placed : List Placed) (good : (s.sq q).enable = true ∧ v < (s.sq q).entries) :
    s.ringTail q v placed = (s.setSq q (Sq.place v placed)).fetch := by
  unfold State.ringTail
  rw [if_neg (by simp [good])]

theorem State.ringTail_refused {s : State} {q v : Nat} (placed : List Placed)
    (bad : ¬ ((s.sq q).enable = true ∧ v < (s.sq q).entries)) : s.Violated (s.ringTail q v placed) 3 := by
  unfold State.ringTail
  rw [if_pos (by simpa [Bool.or_eq_true, imp_iff_not_or] using bad)]
  exact s.violation_violated 3 _ _ _ _

theorem State.ringHead_taken {s : State} {q v : Nat}
    (good : (s.cq q).enable = true ∧ v < (s.cq q).entries ∧ (s.cq q).consumed v ≤ (s.cq q).posted) :
    s.ringHead q v = (s.setCq q fun c => { c with head := v, posted := c.posted - c.consumed v }).fetch := by
  obtain ⟨enabled, below, owed⟩ := good
  unfold State.ringHead
  dsimp only
  rw [if_neg (by simp [enabled, below, owed])]

theorem State.ringHead_refused {s : State} {q v : Nat}
    (bad : ¬ ((s.cq q).enable = true ∧ v < (s.cq q).entries ∧ (s.cq q).consumed v ≤ (s.cq q).posted)) :
    s.Violated (s.ringHead q v) 3 := by
  unfold State.ringHead
  dsimp only
  rw [if_pos (by simpa [Bool.or_eq_true, imp_iff_not_or, or_assoc, not_and_or] using bad)]
  exact s.violation_violated 3 _ _ _ _

theorem State.postHeld_posts {s : State} {q : Nat} {e : Entry} {rest : List Entry} (held : (s.cq q).held = e :: rest)
    (enabled : (s.cq q).enable = true) (room : 0 < (s.cq q).room) :
    s.postHeld q = (((s.setCq q fun c => { c with held := rest }).write q e).requestPosted e).fetch := by
  unfold State.postHeld
  rw [held]
  dsimp only
  rw [if_neg (by simp [enabled]; omega)]

/-- Settles O25: a tail and a head are taken before the fetch, which keeps both; a held entry is written before it. -/
theorem doorbellsTakeTheirIndex : Obligations.DoorbellsTakeTheirIndex := by
  unfold Obligations.DoorbellsTakeTheirIndex
  intro s q v placed hsqs hcqs hq
  refine ⟨fun takes => ⟨_, onWrite_eq takes _, ?_⟩, fun takes => ⟨_, onWrite_eq takes _, ?_⟩, fun e rest held enabled room => ?_⟩
  · split
    case isTrue good =>
      rw [State.ringTail_taken placed good]
      have rest := (s.setSq q (Sq.place v placed)).fetch_rest
      refine ⟨?_, rest.same .mem (by decide), rest.same .job (by decide), rest.same .boot (by decide), rest.same .power (by decide)⟩
      rw [(State.fetch_indices _).tails, s.sq_setSq (by omega)]
      rfl
    case isFalse bad => exact State.ringTail_refused placed bad
  · split
    case isTrue good =>
      rw [State.ringHead_taken good]
      have rest := (s.setCq q fun c => { c with head := v, posted := c.posted - c.consumed v }).fetch_rest
      refine ⟨?_, rest.same .mem (by decide), rest.same .job (by decide), rest.same .boot (by decide), rest.same .power (by decide)⟩
      rw [(State.fetch_indices _).heads, s.cq_setCq (by omega)]
    case isFalse bad => exact State.ringHead_refused bad
  · set y := s.setCq q fun c => { c with held := rest } with hy
    have only : Only [.out, .pcie, .sqs, .cqs, .sqTurn, .cmds, .log, .tm, .run] s ((y.write q e).requestPosted e).fetch :=
      State.fetch_only (by decide) (State.requestPosted_only _ (by decide) (State.write_only _ _ (by decide)
        (setCq_only _ _ (by decide) (only_refl _ s))))
    obtain ⟨l, out⟩ := y.write_out q e
    obtain ⟨m, more⟩ := (State.fetch_kept (kept_refl ((y.write q e).requestPosted e))).sent
    refine ⟨_, l ++ m, congrArg Host.Outcome.next (State.postHeld_posts held enabled room), only.same .mem (by decide),
      only.same .job (by decide), only.same .boot (by decide), ?_⟩
    have same : y.cq q = { s.cq q with held := rest } := s.cq_setCq (by omega) _
    rw [← more, State.requestPosted_out, out, same]
    simp [hy, State.sq]

/-! ## Queue configuration -/

theorem sizeOk_iff {n : Nat} : sizeOk n = true ↔ 4 ≤ n ∧ n ≤ 12 := by simp [sizeOk]

/-- A refused write of a queue register is a violation of class 4. -/
theorem State.queueRefused_violated (sub : Bool) (q k : Nat) (s : State) : s.Violated (s.queueRefused sub q k) 4 :=
  s.violation_violated 4 _ _ _ _

theorem State.queueRefused_noted (sub : Bool) (q k : Nat) (s : State) : s.Noted (s.queueRefused sub q k) := s.violation_noted _ _ _ _ _

/-- ENABLE of a disabled SQ whose conditions hold. -/
theorem State.sqCtrl_enable {s : State} {q k n : Nat} (off : (s.sq q).enable = false) (master : s.pcie.busMaster = true)
    (size : sizeOk n = true) (on : (s.cq k).enable = true) :
    s.sqCtrl q true k n = (s.setSq q fun x => { x with cq := k, log2 := n }).setSq q Sq.start := by
  unfold State.sqCtrl
  dsimp only
  rw [off, size]
  change (if (!true || s.pcie.busMaster && true && (s.cq k).enable) = true
    then (if (true && (s.pcie.busMaster && true && (s.cq k).enable)) = true then _ else _) else _) = _
  rw [master, on]
  rfl

/-- ENABLE of a disabled SQ of which a condition fails. -/
theorem State.sqCtrl_refused {s : State} {q k n : Nat} (off : (s.sq q).enable = false)
    (bad : (s.pcie.busMaster && sizeOk n && (s.cq k).enable) = false) :
    s.sqCtrl q true k n = (s.setSq q fun x => { x with cq := k, log2 := if sizeOk n then n else x.log2 }).queueRefused true q 8 := by
  unfold State.sqCtrl
  dsimp only
  rw [off]
  change (if (sizeOk n && (!true || (s.pcie.busMaster && sizeOk n && (s.cq k).enable))) = true then _
    else State.queueRefused true q 8 (if (true && (s.pcie.busMaster && sizeOk n && (s.cq k).enable)) = true then _ else _)) = _
  rw [bad]
  cases sizeOk n <;> rfl

/-- ENABLE of a disabled CQ whose conditions hold. -/
theorem State.cqCtrl_enable {s : State} {q v n : Nat} {i : Bool} (off : (s.cq q).enable = false)
    (master : s.pcie.busMaster = true) (size : sizeOk n = true) :
    s.cqCtrl q true i v n = ((((s.setCq q fun c => { c with intEn := i, vector := v % 64 }).setCq q fun c => { c with log2 := n }).setCq q
      Cq.start).fetch) := by
  unfold State.cqCtrl
  dsimp only
  rw [off, size]
  change (if (!true || s.pcie.busMaster && true) = true then (if (true && (s.pcie.busMaster && true)) = true then _ else _) else _) = _
  rw [master]
  rfl

/-- ENABLE of a disabled CQ of which a condition fails. -/
theorem State.cqCtrl_refused {s : State} {q v n : Nat} {i : Bool} (off : (s.cq q).enable = false)
    (bad : (s.pcie.busMaster && sizeOk n) = false) :
    s.cqCtrl q true i v n = ((s.setCq q fun c => { c with intEn := i, vector := v % 64 }).setCq q
      fun c => { c with log2 := if sizeOk n then n else c.log2 }).queueRefused false q 8 := by
  unfold State.cqCtrl
  dsimp only
  rw [off]
  change (if (sizeOk n && (!true || (s.pcie.busMaster && sizeOk n))) = true then _
    else State.queueRefused false q 8 (if (true && (s.pcie.busMaster && sizeOk n)) = true then _ else _)) = _
  rw [bad]
  cases sizeOk n <;> rfl

/-- Settles O26: `go` of SQ_CTRL and CQ_CTRL decides, and a refused write has left ENABLE alone. -/
theorem enablingAQueue : Obligations.EnablingAQueue := by
  unfold Obligations.EnablingAQueue
  intro s q k n v i takes hq hsqs hcqs
  refine ⟨fun off => ⟨_, onWrite_eq takes _, ?_⟩, fun off => ⟨fun master low high => ?_, fun bad => ⟨_, onWrite_eq takes _, ?_⟩⟩⟩
  · split
    case isTrue good =>
      obtain ⟨master, low, high, on⟩ := good
      rw [State.sqCtrl_enable off master (sizeOk_iff.mpr ⟨low, high⟩) on]
      refine ⟨rfl, ?_, fun p ne => ?_⟩
      · rw [State.sq_setSq _ (by simp; omega), s.sq_setSq (by omega)]
        rfl
      · rw [State.sq_setSq_ne _ ne, s.sq_setSq_ne ne]
    case isFalse bad =>
      rw [State.sqCtrl_refused off (by simpa [← Bool.not_eq_true, sizeOk_iff, and_assoc] using bad)]
      set y := s.setSq q fun x => { x with cq := k, log2 := if sizeOk n then n else x.log2 } with hy
      have sqs := (y.queueRefused_noted true q 8).sqs
      have on : (y.sq q).enable = (s.sq q).enable := by
        rw [hy, s.sq_setSq (show q < s.sqs.length by omega)]
      refine ⟨?_, ?_⟩
      · rw [State.sq, sqs]
        exact on.trans off
      · rw [sqs]
        exact y.queueRefused_violated true q 8
  · set y := ((s.setCq q fun c => { c with intEn := i, vector := v % 64 }).setCq q fun c => { c with log2 := n }).setCq q Cq.start with hy
    have rest := y.fetch_rest
    refine ⟨y, (onWrite_eq takes _).trans (congrArg Host.Outcome.next (State.cqCtrl_enable off master (sizeOk_iff.mpr ⟨low, high⟩))),
      rfl, ?_, fun p ne => ?_, rest.same .mem (by decide), rest.same .job (by decide), rest.same .boot (by decide), rest.same .run (by decide)⟩
    · have hq' : q < s.cqs.length := by omega
      rw [hy, State.cq_setCq _ (by simpa using hq'), State.cq_setCq _ (by simpa using hq'), s.cq_setCq hq']
      rfl
    · rw [State.cq_setCq_ne _ ne, State.cq_setCq_ne _ ne, s.cq_setCq_ne ne]
  · rw [State.cqCtrl_refused off (by simpa [← Bool.not_eq_true, sizeOk_iff] using bad)]
    set y := (s.setCq q fun c => { c with intEn := i, vector := v % 64 }).setCq q
      fun c => { c with log2 := if sizeOk n then n else c.log2 } with hy
    have cqs := (y.queueRefused_noted false q 8).cqs
    have on : (y.cq q).enable = (s.cq q).enable := by
      rw [hy, State.cq_setCq _ (by simp; omega), s.cq_setCq (by omega)]
    refine ⟨?_, ?_⟩
    · rw [State.cq, cqs]
      exact on.trans off
    · rw [cqs]
      exact y.queueRefused_violated false q 8

/-- SQ_CTRL with ENABLE 0 on an enabled queue, the rest of the register as it stands. -/
theorem State.sqCtrl_disable {s : State} {q : Nat} (on : (s.sq q).enable = true) :
    s.sqCtrl q false (s.sq q).cq (s.sq q).log2 = s.setSq q Sq.stop := by
  unfold State.sqCtrl
  simp [on]

/-- CQ_CTRL with ENABLE 0 on an enabled queue, its size as it stands. -/
theorem State.cqCtrl_disable {s : State} {q v : Nat} {i : Bool} (on : (s.cq q).enable = true) :
    s.cqCtrl q false i v (s.cq q).log2
      = ((s.setCq q fun c => { c with intEn := i, vector := v % 64 }).loseEntries q).setCq q Cq.stop := by
  unfold State.cqCtrl
  dsimp only
  rw [on, if_pos rfl, if_pos rfl]
  rfl

theorem noted_foldl {α : Type} {f : State → α → State} (h : ∀ x a, State.Noted x (f x a)) (l : List α) (s : State) :
    s.Noted (l.foldl f s) := by
  induction l generalizing s with
  | nil => exact noted_refl s
  | cons a l ih => exact noted_trans (h s a) (ih _)

/-- The violations that the loss of a CQ's entries makes. -/
def State.lossNoted (q : Nat) (s : State) : State :=
  let y := (s.cmds.filter fun c => c.cq == q).foldl (fun x c => x.violation 6 (some c.sq) c.op c.cid 0) s
  (y.cq q).held.foldl (fun x e => x.violation 6 (some e.sq) 0 e.cid 0) y

theorem State.lossNoted_noted (q : Nat) (s : State) : s.Noted (s.lossNoted q) :=
  noted_trans
    (noted_foldl (f := fun x (c : Cmd) => x.violation 6 (some c.sq) c.op c.cid 0) (fun _ _ => State.violation_noted _ _ _ _ _ _) _ s)
    (noted_foldl (f := fun x (e : Entry) => x.violation 6 (some e.sq) 0 e.cid 0) (fun _ _ => State.violation_noted _ _ _ _ _ _) _ _)

theorem State.loseEntries_eq (q : Nat) (s : State) :
    s.loseEntries q = (s.lossNoted q).modCmds fun l => l.map fun c => if c.cq = q then { c with cq := 16 } else c := rfl

/-- Settles O27: the loss of a CQ's entries notes violations and takes the queue from their commands. -/
theorem disablingAQueue : Obligations.DisablingAQueue := by
  unfold Obligations.DisablingAQueue
  intro s q i v takes hq hsqs hcqs
  refine ⟨fun on => ⟨_, (onWrite_eq takes _).trans (congrArg Host.Outcome.next (State.sqCtrl_disable on)), rfl, ?_, fun p ne => ?_⟩,
    fun on => ⟨_, (onWrite_eq takes _).trans (congrArg Host.Outcome.next (State.cqCtrl_disable on)), ?_⟩⟩
  · rw [s.sq_setSq (by omega)]
    rfl
  · exact s.sq_setSq_ne ne _
  · set y := s.setCq q fun c => { c with intEn := i, vector := v % 64 } with hy
    have noted := y.lossNoted_noted q
    have cqs : (y.loseEntries q).cqs = y.cqs := noted.cqs
    have cmds : (y.loseEntries q).cmds = s.cmds.map fun c => if c.cq = q then { c with cq := 16 } else c := by
      rw [State.loseEntries_eq]
      exact congrArg _ noted.cmds
    refine ⟨?_, fun p ne => ?_, ?_, ?_, noted.mem, noted.job, noted.boot, noted.run⟩
    · rw [State.cq_setCq _ (by rw [cqs, hy]; simp; omega), State.cq, cqs]
      exact congrArg Cq.stop (s.cq_setCq (by omega) _)
    · rw [State.cq_setCq_ne _ ne, State.cq, cqs]
      exact s.cq_setCq_ne ne _
    · exact (congrArg List.length cmds).trans (by simp)
    · intro c hc
      obtain ⟨d, -, rfl⟩ := List.mem_map.mp (cmds ▸ (hc : c ∈ (y.loseEntries q).cmds))
      split
      · exact .inl (by simp; omega)
      · exact .inl ‹_›

end Sys2Proof.Machine

/-! PROOF. Register writes and pending vectors (R351, R352, R378). -/

namespace Sys2Proof.Machine

/-! ## JS_SNAP_HOST_LEN -/

/-- An awake module whose JS_SNAP_HOST_LEN stands beyond 64 bits. -/
def State.longHostLen : State := { State.reset with boot := { State.reset.boot with mode := .inert }, snap := { State.reset.snap with hostLen := 2 ^ 64 } }

/-- Refutes O32: a write of 8 bytes keeps what a state has in JS_SNAP_HOST_LEN from bit 64 on, so that 2 ^ 64 stands after a write of 0. -/
theorem not_registerWritesReachTheirRegister : ¬ Obligations.RegisterWritesReachTheirRegister := by
  unfold Obligations.RegisterWritesReachTheirRegister
  intro h
  obtain ⟨-, -, -, -, -, -, -, u, written, rest⟩ := h State.longHostLen 0 0 0 (by decide)
  have stands : exec (.registerWrite 0x400068 8 0) State.longHostLen = .next State.longHostLen := by
    refine (onWrite_eq (by decide) _).trans (congrArg Host.Outcome.next ?_)
    rfl
  rw [stands] at written
  cases written
  exact absurd (congrArg (fun s => s.snap.hostLen) rest) (by decide)

/-! ## Pending vectors -/

theorem State.msix_of_sent {s : State} {v : Nat} (master : s.pcie.busMaster = true)
    (shown : (s.pcie.msix.getD v ⟨0, 0, true⟩).masked = false) :
    s.msix v = s.emit (.msix v (s.pcie.msix.getD v ⟨0, 0, true⟩).addr (s.pcie.msix.getD v ⟨0, 0, true⟩).data) := by
  unfold State.msix
  rw [if_neg (by simp [master])]
  exact if_neg (by simp [-List.getD_eq_getElem?_getD, shown])

theorem State.sendPending_of_sent {s : State} {v : Nat} (pending : v ∈ s.pcie.msixPend) (master : s.pcie.busMaster = true)
    (shown : (s.pcie.msix.getD v ⟨0, 0, true⟩).masked = false) :
    s.sendPending v = { s with
      pcie := { s.pcie with msixPend := setDel v s.pcie.msixPend }
      out := s.out ++ [.msix v (s.pcie.msix.getD v ⟨0, 0, true⟩).addr (s.pcie.msix.getD v ⟨0, 0, true⟩).data] } := by
  unfold State.sendPending
  rw [if_pos (by simp [pending, master, -List.getD_eq_getElem?_getD, shown])]
  exact State.msix_of_sent (s := s.modPcie fun p => { p with msixPend := setDel v p.msixPend }) master shown

theorem State.sendPending_of_held {s : State} {v : Nat}
    (held : ¬ (v ∈ s.pcie.msixPend ∧ s.pcie.busMaster = true ∧ (s.pcie.msix.getD v ⟨0, 0, true⟩).masked = false)) :
    s.sendPending v = s := by
  unfold State.sendPending
  rw [if_neg]
  simpa [and_assoc] using held

theorem mem_setDel_iff {x y : Nat} {l : List Nat} : x ∈ setDel y l ↔ x ∈ l ∧ x ≠ y := by simp [setDel]

/-- What sending the pending vectors of `l` in turn makes of `s`. -/
structure State.SentPending (l : List Nat) (s u : State) : Prop where
  rest : u = { s with pcie := { s.pcie with msixPend := u.pcie.msixPend }, out := u.out }
  sent : s.out <+: u.out
  pending : ∀ v, v ∈ u.pcie.msixPend ↔ v ∈ s.pcie.msixPend ∧ ((s.pcie.msix.getD v ⟨0, 0, true⟩).masked = true ∨ v ∉ l)
  message : ∀ v ∈ l, v ∈ s.pcie.msixPend → (s.pcie.msix.getD v ⟨0, 0, true⟩).masked = false →
    .msix v (s.pcie.msix.getD v ⟨0, 0, true⟩).addr (s.pcie.msix.getD v ⟨0, 0, true⟩).data ∈ u.out

theorem State.sendPending_sent {s : State} (v : Nat) (master : s.pcie.busMaster = true) : s.SentPending [v] (s.sendPending v) := by
  by_cases goes : v ∈ s.pcie.msixPend ∧ (s.pcie.msix.getD v ⟨0, 0, true⟩).masked = false
  · obtain ⟨pending, shown⟩ := goes
    rw [State.sendPending_of_sent pending master shown]
    refine ⟨rfl, List.prefix_append _ _, fun w => ?_, fun w hw _ _ => ?_⟩
    · rw [mem_setDel_iff]
      by_cases e : w = v <;> simp [e, -List.getD_eq_getElem?_getD, shown]
    · obtain rfl := List.mem_singleton.mp hw
      simp
  · rw [State.sendPending_of_held fun h => goes ⟨h.1, h.2.2⟩]
    refine ⟨rfl, List.prefix_refl _, fun w => ?_, fun w hw pending shown => ?_⟩
    · by_cases e : w = v
      · subst e
        simp only [List.mem_singleton, not_true_eq_false, or_false]
        exact ⟨fun h => ⟨h, by simpa [h] using goes⟩, fun h => h.1⟩
      · simp [e]
    · obtain rfl := List.mem_singleton.mp hw
      exact absurd ⟨pending, shown⟩ goes

theorem sentPending_cons {s x u : State} {v : Nat} {l : List Nat} (h : s.SentPending [v] x) (g : x.SentPending l u) :
    s.SentPending (v :: l) u := by
  obtain ⟨rest, sent, pending, message⟩ := h
  have msix : x.pcie.msix = s.pcie.msix := by rw [rest]
  refine ⟨g.rest.trans (by rw [rest]), sent.trans g.sent, fun w => ?_, fun w hw waits shown => ?_⟩
  · rw [g.pending, pending, msix]
    simp only [List.mem_cons, List.not_mem_nil, or_false, not_or]
    tauto
  · by_cases e : w = v
    · exact g.sent.subset (message w (by simp [e]) waits shown)
    · rw [← msix]
      exact g.message w ((List.mem_cons.mp hw).resolve_left e) ((pending w).mpr ⟨waits, .inr (by simpa using e)⟩) (msix ▸ shown)

theorem State.sendPendings_sent (l : List Nat) {s : State} (master : s.pcie.busMaster = true) :
    s.SentPending l (l.foldl (fun x v => x.sendPending v) s) := by
  induction l generalizing s with
  | nil => exact ⟨rfl, List.prefix_refl _, by simp, by simp⟩
  | cons v l ih =>
    have first := State.sendPending_sent v master
    exact sentPending_cons first (ih (by rw [first.rest]; exact master))

/-- Settles O34: what one vector's turn sends, and the turns of all 64 in order. -/
theorem pendingVectorsAreSent : Obligations.PendingVectorsAreSent := by
  unfold Obligations.PendingVectorsAreSent
  refine fun s => ⟨fun v e takes entry => ⟨_, onWrite_eq takes _, ?_⟩, fun reaches off => ⟨_, congrArg Host.Outcome.next (if_neg (by simp [reaches, off])), ?_⟩⟩
  · unfold State.unmask
    set y := s.modPcie fun p => { p with msix := modAt v (fun e => { e with masked := false }) p.msix } with hy
    have here : y.pcie.msix[v]? = some { e with masked := false } := by simp [hy, modAt_getElem?, entry]
    have others : ∀ w, w ≠ v → y.pcie.msix[w]? = s.pcie.msix[w]? := fun w ne => by simp [hy, modAt_getElem?, ne.symm]
    have read : y.pcie.msix.getD v ⟨0, 0, true⟩ = { e with masked := false } := by
      rw [List.getD_eq_getElem?_getD, here]
      rfl
    by_cases goes : v ∈ s.pcie.msixPend ∧ s.pcie.busMaster = true
    · rw [if_pos goes, State.sendPending_of_sent (s := y) goes.1 goes.2 (by rw [read])]
      exact ⟨rfl, here, others, by simp [mem_setDel_iff], by rw [read]; rfl⟩
    · rw [if_neg goes, State.sendPending_of_held (s := y) fun h => goes ⟨h.1, h.2.1⟩]
      exact ⟨rfl, here, others, rfl, rfl⟩
  · have all := State.sendPendings_sent (List.range 64) (s := s.modPcie fun p => { p with busMaster := true }) rfl
    generalize (List.range 64).foldl (fun x v => x.sendPending v) (s.modPcie fun p => { p with busMaster := true }) = u at all ⊢
    have pcie := congrArg State.pcie all.rest
    refine ⟨all.rest.trans (by rw [pcie]; rfl), pcie, all.sent, fun v hv => ⟨?_, ?_⟩⟩
    · rw [all.pending]
      simp [hv]
    · exact all.message v (List.mem_range.mpr hv)

end Sys2Proof.Machine

/-! PROOF. The telemetry freeze, the management pointer, the mailbox (R390, R434, R460), and DMA errors (R369, R379). -/

namespace Sys2Proof.Machine

/-! ## Reads while the telemetry is frozen -/

theorem kvGet_kvPut_ne {x a : Nat} (h : x ≠ a) (l : List (Nat × Nat)) (b : Nat) : kvGet (kvPut l a b) x = kvGet l x := by
  induction l with
  | nil =>
    unfold kvPut
    split <;> simp [kvGet, h]
  | cons p rest ih =>
    obtain ⟨k, v⟩ := p
    unfold kvPut
    split_ifs <;> simp_all [kvGet]

theorem kvGet_foldl_kvPut {x : Nat} (f : Nat → Nat) {words : List Nat} (h : x ∉ words) (m : List (Nat × Nat)) :
    kvGet (words.foldl (fun m o => kvPut m o (f o)) m) x = kvGet m x := by
  induction words generalizing m with
  | nil => rfl
  | cons w words ih =>
    rw [List.mem_cons, not_or] at h
    rw [List.foldl_cons, ih h.2, kvGet_kvPut_ne h.1]

theorem State.stateWordAt_loss (s : State) : s.stateWordAt (tmAt 0xF8) ≠ none := by simp [State.stateWordAt]

theorem State.stateWordAt_pile (s : State) {p k : Nat} (hp : p < 24) (hk : k = 0x58 ∨ k = 0x60) : s.stateWordAt (tpAt p k) ≠ none := by
  have range : 0x110000 ≤ tpAt p k ∧ tpAt p k < 0x111800 := by simp only [tpAt]; omega
  have offset : tpAt p k % 0x100 = 0x58 ∨ tpAt p k % 0x100 = 0x60 := by simp only [tpAt]; omega
  have apart : tpAt p k ≠ tmAt 0xF8 := by simp only [tpAt, tmAt]; omega
  unfold State.stateWordAt
  rw [if_neg apart, if_pos range]
  rcases offset with h | h <;> simp [h]

theorem State.stateWordAt_tensor (s : State) {i : Nat} (hi : i < 4096) : s.stateWordAt (ttAt i 0x38) ≠ none := by
  have range : 0x140000 ≤ ttAt i 0x38 ∧ ttAt i 0x38 < 0x180000 := by simp only [ttAt]; omega
  have offset : ttAt i 0x38 % 0x40 = 0x38 := by simp only [ttAt]; omega
  have apart : ttAt i 0x38 ≠ tmAt 0xF8 := by simp only [ttAt, tmAt]; omega
  unfold State.stateWordAt
  rw [if_neg apart, if_neg (by omega), if_pos range, if_pos offset]
  exact Option.some_ne_none _

/-- The capture of an offset without a state word and outside the SAT words is its counter. -/
theorem State.capture_counter {s : State} {o : Nat} (none : s.stateWordAt o = none) (ho : o < 0x180000 ∨ 0x182000 ≤ o) :
    kvGet s.capture o = kvGet s.tm.ctr o := by
  refine kvGet_foldl_kvPut _ ?_ _
  intro mem
  simp only [List.mem_append, List.mem_flatMap, List.mem_range, List.mem_map, List.mem_filterMap, List.mem_cons,
    List.not_mem_nil, or_false] at mem
  rcases mem with ((rfl | ⟨p, hp, rfl | rfl⟩) | ⟨i, hi, rfl⟩) | ⟨c, -, hc⟩
  · exact s.stateWordAt_loss none
  · exact s.stateWordAt_pile hp (.inl rfl) none
  · exact s.stateWordAt_pile hp (.inr rfl) none
  · exact s.stateWordAt_tensor (by omega) none
  · split at hc
    · simp only [Bool.and_eq_true, decide_eq_true_eq] at *
      cases hc
      omega
    · cases hc

/-- A word that the image does not read as that of an empty tensor slot. -/
theorem Telemetry.imageWord_of_none {s : State} {o : Nat} (none : s.stateWordAt o = none) (t : Telemetry) : t.imageWord o = kvGet t.image o := by
  unfold Telemetry.imageWord
  rw [if_neg]
  rintro ⟨low, high, offset, -⟩
  have tensor := s.stateWordAt_tensor (i := (o - 0x140000) / 0x40) (by omega)
  rw [show ttAt ((o - 0x140000) / 0x40) 0x38 = o by simp only [ttAt]; omega] at tensor
  exact tensor none

/-- What reads of the frozen blocks return is fixed by the image and the module's state. -/
theorem State.barWord_frozen {s : State} {o : Nat} (frozen : s.tm.frozen = true) (ho : frozenOffset o = true) (standby : s.mode ≠ .standby)
    (booting : s.mode ≠ .booting) : s.barWord o = s.tm.imageWord o := by
  simp [State.barWord, standby, booting, frozen, ho]

/-- Counts and notes leave the image alone. -/
def State.SameImage (s t : State) : Prop := t.tm.frozen = s.tm.frozen ∧ t.tm.image = s.tm.image

theorem sameImage_of_tm {s t : State} (h : t.tm = s.tm) : s.SameImage t := ⟨by rw [h], by rw [h]⟩

theorem sameImage_trans {s x t : State} (h : s.SameImage x) (g : x.SameImage t) : s.SameImage t := ⟨g.1.trans h.1, g.2.trans h.2⟩

theorem modTm_add_sameImage (o n : Nat) (s : State) : s.SameImage (s.modTm (Telemetry.add o n)) := by
  unfold State.SameImage
  rw [State.modTm_tm]
  unfold Telemetry.add
  split <;> exact ⟨rfl, rfl⟩

theorem State.enterRecord_sameImage (code kind index : Nat) (detail : Bytes) (s : State) :
    s.SameImage (s.enterRecord code kind index detail) := by
  refine sameImage_trans (x := s.countLoss) ?_ (sameImage_of_tm (State.enterRecord_tm _ _ _ _ s))
  unfold State.countLoss
  split
  · exact modTm_add_sameImage _ _ s
  · exact sameImage_of_tm rfl

theorem State.raise_sameImage (code kind index : Nat) (fs : List (Nat × Nat × Nat)) (s : State) :
    s.SameImage (s.raise code kind index fs) := by
  have first := s.enterRecord_sameImage code kind index (eventDetail fs)
  unfold State.raise
  split
  · exact sameImage_trans first (State.enterRecord_sameImage _ _ _ _ _)
  · exact first

theorem State.count_sameImage (o n : Nat) (s : State) : s.SameImage (s.count o n) := by
  have add := modTm_add_sameImage o n s
  unfold State.count
  split
  · exact sameImage_trans add (State.raise_sameImage _ _ _ _ _)
  · exact add

theorem State.count_mode (o n : Nat) (s : State) : (s.count o n).mode = s.mode := congrArg Boot.mode (s.count_noted o n).boot

theorem State.freeze_eq (s : State) :
    s.freeze = { s with tm := { s.tm with frozen := true, image := if s.tm.frozen then s.tm.image else s.capture } } := by
  unfold State.freeze
  cases h : s.tm.frozen
  · rfl
  · simp [← h]

/-! ## The mailbox -/

theorem State.doe_taken (s : State) (reaches : s.hostReaches = true) (answers : s.mode.answers = true) (object : Nat) (b : Bytes) :
    s.doe object b = if object = 0 then s.emit (.doe (Config.doeDiscovery b)) else if object = 1 then s.emit (.doe (s.doeAnswer b)) else s := by
  unfold State.doe
  rw [if_neg (by simp [reaches, State.doeBusy, answers])]

theorem State.doeAnswer_eq (s : State) (b : Bytes) :
    s.doeAnswer b = if b.length = 36 ∧ zeroAt b 1 3 = true ∧ fld b 0 1 = 1 then s.report (slice b 4 32)
      else if b.length = 36 ∧ zeroAt b 1 3 = true ∧ fld b 0 1 = 2 then identityBlock
      else if b.length = 36 ∧ zeroAt b 1 3 = true ∧ fld b 0 1 = 3 then endorsement
      else [0xFF] := by
  unfold State.doeAnswer
  by_cases shape : b.length = 36 ∧ zeroAt b 1 3 = true
  · obtain ⟨length, zeros⟩ := shape
    simp [length, zeros]
  · rw [if_pos (by simpa [imp_iff_not_or] using shape), if_neg (by tauto), if_neg (by tauto), if_neg (by tauto)]

/-- Settles O35: the freeze fixes the image that counts leave alone; the pointer and the mailbox answer from the state. -/
theorem freezePointerAndMailbox : Obligations.FreezePointerAndMailbox := by
  unfold Obligations.FreezePointerAndMailbox
  intro s p b
  refine ⟨fun takes => ⟨⟨_, onWrite_eq takes _, s.freeze_eq, fun o ho => ?_⟩, ⟨_, onWrite_eq takes _, rfl, fun o => ?_⟩⟩,
    fun present => ⟨_, congrArg Host.Outcome.next (if_pos present), rfl, fun n => ?_⟩, fun absent => ?_, fun reaches answers => ⟨?_, ?_⟩⟩
  · obtain ⟨-, standby, booting⟩ := s.takesWrites_iff.mp takes
    have image : s.freeze.barWord o = s.freeze.tm.imageWord o := by
      rw [s.freeze_eq]
      exact State.barWord_frozen rfl ho standby booting
    refine ⟨image, fun c n => ?_, fun thawed none out => ?_⟩
    · obtain ⟨frozen, same⟩ := s.freeze.count_sameImage c n
      have on : s.freeze.tm.frozen = true := by rw [s.freeze_eq]
      have mode : s.freeze.mode = s.mode := by rw [s.freeze_eq]; rfl
      rw [image, State.barWord_frozen (frozen.trans on) ho (by rwa [State.count_mode, mode]) (by rwa [State.count_mode, mode])]
      simp only [Telemetry.imageWord, same]
    · have captured : s.freeze.tm.image = s.capture := by
        rw [s.freeze_eq]
        exact if_neg (by simp [thawed])
      rw [image, Telemetry.imageWord_of_none none, captured, State.capture_counter none out]
  · obtain ⟨-, standby, booting⟩ := s.takesWrites_iff.mp takes
    have mode : s.unfreeze.mode = s.mode := rfl
    have off : s.unfreeze.tm.frozen = false := rfl
    simp [State.barWord, mode, standby, booting, off]
  · simp only [State.i3cRead]
    exact (if_pos present).trans rfl
  · exact congrArg Host.Outcome.next (if_neg (by simp [absent]))
  · exact congrArg Host.Outcome.next ((s.doe_taken reaches answers 1 b).trans (by rw [if_neg (by decide), if_pos rfl, s.doeAnswer_eq]; rfl))
  · exact congrArg Host.Outcome.next ((s.doe_taken reaches answers 0 b).trans (if_pos rfl))

/-! ## DMA errors -/

/-- A final entry counts on no violation counter. -/
theorem State.write_tm (q : Nat) (e : Entry) (s : State) : (s.write q e).tm = s.tm := by
  unfold State.write
  dsimp only
  split
  · exact State.msix_tm _ _
  · rfl

theorem State.post_tm (q : Nat) (e : Entry) (s : State) : (s.post q e).tm = s.tm := by
  unfold State.post
  dsimp only
  split
  · rfl
  · split
    · rfl
    · exact s.write_tm q e

/-- A command that ends counts only that it took too long, and EV_LOST. -/
theorem State.finishCmd_counts {o : Nat} (late : o ≠ tmAt 0x58) (lost : o ≠ evLostAt) (c : Cmd) (st : Status) (r0 r1 : Nat) (s : State) :
    s.Counts o 0 (s.finishCmd c st r0 r1) := by
  unfold State.finishCmd
  dsimp only
  split
  · exact counts_zero_left (x := s.modCmds _) (counts_of_tm rfl o) (counts_of_tm (State.post_tm _ _ _) o)
  · refine counts_zero_left ?_ (counts_of_tm (State.post_tm _ _ _) o)
    exact counts_zero_left (State.count_counts_ne late lost 1 (s.modCmds _)) (State.raise_counts lost _ _ _ _ _)

theorem evViolationAt_ne_late {cls : Nat} (h : cls ≤ 9) : evViolationAt cls ≠ tmAt 0x58 := by
  simp only [evViolationAt, tmAt]
  omega

/-- A noted state stays noted where both get the same job and run. -/
theorem noted_with {s t : State} (h : s.Noted t) (j : Job) (r : Run) : State.Noted { s with job := j, run := r } { t with job := j, run := r } :=
  ⟨h.pending, h.sent, h.freeCtr, h.usec, h.power, h.boot, h.pcie, h.sqs, h.cqs, h.sqTurn, h.cmds, rfl, h.mem, rfl, h.stalls, h.quays,
    h.snap, h.journal, h.harbour, h.ports, h.test⟩

/-- The violation of class 7 of a command's access. -/
abbrev State.dmaNoted (sq cid a : Nat) (c : Cmd) (s : State) : State := s.violation 7 (some sq) c.op cid a

theorem State.dmaAbort_plain {s : State} {sq cid a : Nat} {c : Cmd} (found : s.cmd? sq cid = some c)
    (run : c.isOp opRun = false ∨ c.started = false) (serve : c.isOp opServe = false)
    (snapshot : c.isOp opSnapshot = false ∨ ⟨sq, cid⟩ ∉ s.snap.serving) :
    s.dmaAbort sq cid a = (s.dmaNoted sq cid a c).finishCmd c .aborted 0 0 := by
  unfold State.dmaAbort
  rw [found]
  dsimp only
  rw [State.violation_snap, if_neg (by simpa [-not_and, not_and_or] using run), if_neg (by simpa [-not_and, not_and_or] using snapshot),
    if_neg (by simp [serve])]

theorem State.dmaAbort_serve {s : State} {sq cid a : Nat} {c : Cmd} (found : s.cmd? sq cid = some c) (serve : c.isOp opServe = true) :
    s.dmaAbort sq cid a = (((s.dmaNoted sq cid a c).modRun fun r =>
      { r with serves := r.serves.filter fun x => !(x.sq == sq && x.cid == cid) }).finishCmd c .aborted (s.serveResult c).1 (s.serveResult c).2) := by
  have op : c.op = opServe := by simpa [Cmd.isOp] using serve
  have result : (s.dmaNoted sq cid a c).serveResult c = s.serveResult c := by simp [State.serveResult]
  unfold State.dmaAbort
  rw [found]
  dsimp only
  rw [if_neg (by simp [Cmd.isOp, op, opRun, opServe]), if_neg (by simp [Cmd.isOp, op, opSnapshot, opServe]), if_pos serve, result]

/-- A batch that cannot be read, with its violation. -/
def State.batchLost (step group addr : Nat) (s : State) : State :=
  (s.violation 7 none 0 0 addr).modJob fun j =>
    { j with batches := j.batches.map fun b : Batch => if b.step = step && b.group = group then { b with bad := true } else b }

theorem State.dmaBatch_eq {s : State} {step group a : Nat} (held : ∃ b ∈ s.job.batches, b.step = step ∧ b.group = group) :
    s.dmaBatch step group a = if step = s.job.step ∧ (∃ g ∈ s.run.groups, g.group = group ∧ g.started = true)
      then (s.batchLost step group a).modRun fun r => { r with stepNar := true } else s.batchLost step group a := by
  have noted := s.violation_noted 7 none 0 0 a
  have step' : (s.batchLost step group a).job.step = s.job.step :=
    (congrArg Job.step noted.job : (s.violation 7 none 0 0 a).job.step = s.job.step)
  have run : (s.batchLost step group a).run = s.run := noted.run
  unfold State.dmaBatch
  rw [if_neg (by simpa using held)]
  change (if (Decidable.decide (step = (s.batchLost step group a).job.step) && (s.batchLost step group a).run.groups.any _) = true
    then (s.batchLost step group a).modRun fun r => { r with stepNar := true } else s.batchLost step group a) = _
  rw [step', run]
  exact if_congr (by simp) rfl rfl

theorem State.dmaBatch_skips {s : State} {step group a : Nat} (held : ∃ b ∈ s.job.batches, b.step = step ∧ b.group = group)
    (skip : step = s.job.step ∧ (∃ g ∈ s.run.groups, g.group = group ∧ g.started = true)) :
    s.dmaBatch step group a = (s.batchLost step group a).modRun fun r => { r with stepNar := true } :=
  (State.dmaBatch_eq held).trans (if_pos skip)

theorem State.dmaBatch_marks {s : State} {step group a : Nat} (held : ∃ b ∈ s.job.batches, b.step = step ∧ b.group = group)
    (skip : ¬ (step = s.job.step ∧ (∃ g ∈ s.run.groups, g.group = group ∧ g.started = true))) :
    s.dmaBatch step group a = s.batchLost step group a :=
  (State.dmaBatch_eq held).trans (if_neg skip)

/-- Settles O36: the violation of class 7 comes first; what follows counts on no violation. -/
theorem dmaErrorsEndTheirCommand : Obligations.DmaErrorsEndTheirCommand := by
  unfold Obligations.DmaErrorsEndTheirCommand
  intro s sq cid a step group
  refine ⟨fun c found run serve snapshot fits => ?_, fun c found serve fits => ?_, fun none => ?_, fun held => ?_⟩
  · have noted := s.violation_noted 7 (some sq) c.op cid a
    have counts := counts_trans (s.violation_counts 7 (some sq) c.op cid a)
      (State.finishCmd_counts (evViolationAt_ne_late (by decide)) (evViolationAt_ne 7) c .aborted 0 0 _)
    refine ⟨_, congrArg Host.Outcome.next (State.dmaAbort_plain found run serve snapshot), ?_, ?_, counts.counted⟩
    · exact reported_trans noted.reported (State.finishCmd_reported _ _ _ _ _)
    · exact State.Completed.after noted.cqs noted.sqs noted.usec noted.cmds noted.sent
        (State.finishCmd_completed _ _ _ _ _ (fits_of noted.cqs fits))
  · have noted := s.violation_noted 7 (some sq) c.op cid a
    set y := (s.dmaNoted sq cid a c).modRun fun r => { r with serves := r.serves.filter fun x => !(x.sq == sq && x.cid == cid) } with hy
    have left : State.Noted { s with run := y.run } y := noted_with noted s.job y.run |> fun h => { h with job := noted.job }
    have counts := counts_trans (counts_trans (s.violation_counts 7 (some sq) c.op cid a) (counts_of_tm (t := y) rfl _))
      (State.finishCmd_counts (evViolationAt_ne_late (by decide)) (evViolationAt_ne 7) c .aborted (s.serveResult c).1 (s.serveResult c).2 y)
    have run := y.finishCmd_run c .aborted (s.serveResult c).1 (s.serveResult c).2
    refine ⟨_, congrArg Host.Outcome.next (State.dmaAbort_serve found serve), ?_, ?_, ?_, counts.counted⟩
    · rw [run]
      exact reported_trans left.reported (State.finishCmd_reported _ _ _ _ _)
    · rw [run, hy, State.modRun_run, noted.run]
    · exact State.Completed.after noted.cqs noted.sqs noted.usec noted.cmds noted.sent
        (State.finishCmd_completed y _ _ _ _ (fits_of noted.cqs fits))
  · refine congrArg Host.Outcome.next ?_
    show s.dmaAbort sq cid a = s
    unfold State.dmaAbort
    rw [none]
  · have noted := s.violation_noted 7 none 0 0 a
    have counts := s.violation_counts 7 none 0 0 a
    have job : (s.batchLost step group a).job = { s.job with
        batches := s.job.batches.map fun b : Batch => if b.step = step && b.group = group then { b with bad := true } else b } :=
      congrArg (fun j : Job => { j with
        batches := j.batches.map fun b : Batch => if b.step = step && b.group = group then { b with bad := true } else b }) noted.job
    have lost := noted_with noted (s.batchLost step group a).job
    by_cases skip : step = s.job.step ∧ (∃ g ∈ s.run.groups, g.group = group ∧ g.started = true)
    · have run : ((s.batchLost step group a).modRun fun r => { r with stepNar := true }).run = { s.run with stepNar := true } :=
        congrArg (fun r : Run => { r with stepNar := true }) noted.run
      refine ⟨_, congrArg Host.Outcome.next (State.dmaBatch_skips held skip), ⟨?_, counts.counted⟩, run.trans (if_pos skip).symm, job⟩
      exact lost _
    · refine ⟨_, congrArg Host.Outcome.next (State.dmaBatch_marks held skip), ⟨?_, counts.counted⟩, noted.run.trans (if_neg skip).symm, job⟩
      exact lost _

end Sys2Proof.Machine

/-! PROOF. Admission, and commands that answer at once (R360, R361, R365, R368, R425, R448, R453). -/

namespace Sys2Proof.Machine

/-! ## Admission -/

theorem State.write_cmds (q : Nat) (e : Entry) (s : State) : (s.write q e).cmds = s.cmds := by
  unfold State.write
  dsimp only
  split
  · exact State.msix_cmds _ _
  · rfl

theorem State.post_cmds (q : Nat) (e : Entry) (s : State) : (s.post q e).cmds = s.cmds := by
  unfold State.post
  dsimp only
  split
  · rfl
  · split
    · rfl
    · exact s.write_cmds q e

theorem State.accept_cmds (q : Nat) (p : Placed) (b : Nat) (s : State) :
    (s.accept q p b).cmds = s.cmds ++ [⟨q, (s.sq q).cq, eCid p.entry, p.entry, p.sgl, s.usec, b, 0, s.defers p.entry,
      if s.thermalReduced then 3 else 0, 0, false⟩] := by
  unfold State.accept
  dsimp only
  rw [State.post_cmds, State.count_cmds, State.modCmds_cmds]

theorem State.refuse_cmds (sq cid : Nat) (st : Status) (r0 r1 : Nat) (s : State) : (s.refuse sq cid st r0 r1).cmds = s.cmds := by
  unfold State.refuse
  rw [State.post_cmds, State.count_cmds]

theorem State.admitEntry_reported (q : Nat) (p : Placed) (s : State) : s.Reported (s.admitEntry q p) := by
  unfold State.admitEntry
  dsimp only
  split
  · unfold State.accept
    dsimp only
    exact reported_trans (reported_trans (modCmds_reported s _) (State.count_noted _ _ _).reported) (State.post_reported _ _ _)
  · exact reported_trans (State.raise_noted _ _ _ _ s).reported (State.refuse_reported _ _ _ _ _ _)
  · exact reported_trans (s.entryViolations_noted q p).reported (State.refuse_reported _ _ _ _ _ _)

theorem State.write_log (q : Nat) (e : Entry) (s : State) : (s.write q e).log = s.log := by
  unfold State.write
  dsimp only
  split
  · exact State.msix_log _ _
  · rfl

theorem State.post_log (q : Nat) (e : Entry) (s : State) : (s.post q e).log = s.log := by
  unfold State.post
  dsimp only
  split
  · rfl
  · split
    · rfl
    · exact s.write_log q e

/-- A refusal enters the records of one count. -/
theorem State.refuse_grew (sq cid : Nat) (st : Status) (r0 r1 : Nat) (s : State) : s.GrewBy 2 (s.refuse sq cid st r0 r1) := by
  have log := State.post_log (s.sq sq).cq ⟨r0, r1, 0, 0, sq, cid, 0, st.code⟩ (s.count (tmAt 0x68) 1)
  exact grew_trans (s.count_grew (tmAt 0x68) 1) (grew_of_log (congrArg EventLog.ring log) (congrArg EventLog.headSeq log))

/-- Settles O8: what each verdict makes of the entry. -/
theorem admissionFollowsTheFirstFailingCheck : Obligations.AdmissionFollowsTheFirstFailingCheck := by
  unfold Obligations.AdmissionFollowsTheFirstFailingCheck
  intro s q p
  have reported := s.admitEntry_reported q p
  refine ⟨fun b verdict => ?_, fun b verdict => ⟨?_, ?_⟩, fun st verdict => ?_, fun state known fields fresh => ?_, reported.mem,
    reported.job, reported.boot, reported.run⟩
  · refine ⟨⟨q, (s.sq q).cq, eCid p.entry, p.entry, p.sgl, s.usec, b, 0, s.defers p.entry, if s.thermalReduced then 3 else 0, 0, false⟩, ?_,
      rfl, rfl, rfl, rfl, rfl, rfl, rfl, rfl⟩
    unfold State.admitEntry
    rw [verdict]
    exact s.accept_cmds q p b
  · unfold State.admitEntry
    rw [verdict]
    dsimp only
    rw [State.refuse_cmds, State.raise_cmds]
  · unfold State.admitEntry
    rw [verdict]
    exact logged_of_raise (grewBy_refl 3 s) rfl (State.refuse_grew _ _ _ _ _ _) (by decide)
  · unfold State.admitEntry
    rw [verdict]
    dsimp only
    rw [State.refuse_cmds]
    exact (s.entryViolations_noted q p).cmds
  · simp [admission, known, fields, fresh, state]

/-! ## Final entries behind other operations -/

/-- The final entry of a command, on a state that has kept the queues and the clock and sent no less. -/
theorem finishCmd_entry {s y : State} {c : Cmd} (cqs : y.cqs = s.cqs) (sqs : y.sqs = s.sqs) (usec : y.usec = s.usec) (sent : s.out <+: y.out)
    (fits : s.entryFits c = true) (st : Status) (r0 r1 : Nat) :
    ∃ l, (y.finishCmd c st r0 r1).out = s.out ++ l ∧ s.finalEntry c st r0 r1 <:+: l := by
  obtain ⟨-, l, out, entry⟩ := State.finishCmd_completed y c st r0 r1 (fits_of cqs fits)
  obtain ⟨m, e⟩ := sent
  have same : s.finalEntry c st r0 r1 = y.finalEntry c st r0 r1 := by
    simp only [State.finalEntry, State.finalBytes, State.cq, State.sq, cqs, sqs, usec]
  exact ⟨m ++ l, by rw [out, ← e, List.append_assoc], same ▸ entry.trans (List.suffix_append m l).isInfix⟩

/-! ## Commands that give data -/

/-- Data to the host, and the final entry behind them. -/
theorem toHost_finishCmd {s : State} {c : Cmd} (fits : s.entryFits c = true) (data : Bytes) (r0 r1 : Nat) :
    let t := (s.toHost c.sq c.cid 0 data).finishCmd c .ok r0 r1
    s.Reported t ∧ s.Completed t c .ok r0 r1 ∧ .commandData c.sq c.cid 0 data false ∈ t.out := by
  have noted := State.toHost_noted c.sq c.cid 0 data s
  have reported := State.finishCmd_reported c .ok r0 r1 (s.toHost c.sq c.cid 0 data)
  refine ⟨reported_trans noted.reported reported, State.Completed.after noted.cqs noted.sqs noted.usec noted.cmds noted.sent
    (State.finishCmd_completed _ _ _ _ _ (fits_of noted.cqs fits)), reported.sent.subset ?_⟩
  simp [State.toHost]

/-- Settles O9: each of the four sends its data and ends. -/
theorem dataCommandsAnswer : Obligations.DataCommandsAnswer := by
  unfold Obligations.DataCommandsAnswer
  intro s sq cid c fits
  refine ⟨fun w => ⟨_, onCmd_eq w, toHost_finishCmd fits _ _ _⟩, fun w => ⟨_, onCmd_eq w, toHost_finishCmd fits _ _ _⟩,
    fun w => ⟨_, onCmd_eq w, toHost_finishCmd fits _ _ _⟩, fun w => ⟨_, fitting (eLen c.entry)
      ((verified (if eJournal c.entry = 0 then s.journal.own else s.journal.partner)).filter fun r => eFirstSeq c.entry ≤ recordSeq r),
      onCmd_eq w, ?_⟩⟩
  obtain ⟨reported, completed, sent⟩ := toHost_finishCmd (s := s) (c := c) fits _ _ _
  exact ⟨reported, rfl, completed, sent⟩

/-! ## FEED of a token batch -/

/-- The batch that a FEED brings, retained. -/
def State.withBatch (c : Cmd) (d : Bytes) (s : State) : State :=
  s.modJob fun j => { j with batches := j.batches ++
    [⟨eStep c.entry, eGroup c.entry, eInModule c.entry, ePtr c.entry, d, (Config.batchDigest d).toNat, false⟩] }

/-- The wait of its sample group ends. -/
def State.endWaitOf (c : Cmd) (s : State) : State :=
  if eStep c.entry != s.job.step then s else match s.run.groups.find? fun g => g.group == eGroup c.entry with
    | none => s
    | some g => s.endWait g

theorem State.retain_eq (c : Cmd) (d : Bytes) (s : State) :
    s.retain c d = ((s.withBatch c d).endWaitOf c).finishCmd c .ok (Config.batchDigest d).toNat 0 := rfl

theorem State.endWaitOf_only (c : Cmd) (s : State) : Only [.out, .pcie, .cmds, .log, .tm, .run] s (s.endWaitOf c) := by
  unfold State.endWaitOf
  split
  · exact only_refl _ s
  · split
    · exact only_refl _ s
    · exact State.endWait_only _ (List.Subset.refl _) (only_refl _ s)

theorem State.endWaitOf_sent (c : Cmd) (s : State) : s.out <+: (s.endWaitOf c).out := by
  unfold State.endWaitOf
  split
  · exact List.prefix_refl _
  · split
    · exact List.prefix_refl _
    · exact (State.endWait_kept _ (kept_refl s)).sent

theorem State.feedBatch_eq {s : State} (c : Cmd) (data : Bytes) {t : Table} (table : s.job.table = some t) :
    s.feedBatch c data
      = if !batchOk t c.entry (s.dataOf c data) then s.finishCmd c .malformed 0 0 else s.retain c (s.dataOf c data) := by
  unfold State.feedBatch
  rw [table]

theorem exec_feedTokenBatch {s : State} {sq cid : Nat} {c : Cmd} (data : Bytes) (waits : s.waiting opFeed sq cid = some c)
    (kind : eKind c.entry = 1) : exec (.feedTokenBatch sq cid data) s = .next (s.feedBatch c data) := by
  refine (onCmd_eq (f := fun c s => if eKind c.entry = 1 then s.feedBatch c data else s) waits).trans ?_
  rw [if_pos kind]

/-- Settles O12: the end of a wait leaves the job that holds the batch. -/
theorem feedRetainsTheBatch : Obligations.FeedRetainsTheBatch := by
  unfold Obligations.FeedRetainsTheBatch
  intro s sq cid data c t waits kind table fits
  rw [exec_feedTokenBatch data waits kind, State.feedBatch_eq c data table]
  cases valid : batchOk t c.entry (s.dataOf c data) with
  | false =>
    have reported := s.finishCmd_reported c .malformed 0 0
    exact ⟨_, rfl, reported.mem, reported.boot, reported.power, reported.stalls, reported, State.finishCmd_completed _ _ _ _ _ fits⟩
  | true =>
    set x := s.withBatch c (s.dataOf c data) with hx
    have only := x.endWaitOf_only c
    have reported := (x.endWaitOf c).finishCmd_reported c .ok (Config.batchDigest (s.dataOf c data)).toNat 0
    refine ⟨_, congrArg Host.Outcome.next (s.retain_eq c _), reported.mem.trans (only.same .mem (by decide)),
      reported.boot.trans (only.same .boot (by decide)), reported.power.trans (only.same .power (by decide)),
      reported.stalls.trans (only.same .stalls (by decide)), ?_⟩
    exact ⟨finishCmd_entry (only.same .cqs (by decide)) (only.same .sqs (by decide)) (only.same .usec (by decide)) (x.endWaitOf_sent c) fits _ _ _,
      reported.job.trans (only.same .job (by decide))⟩

/-! ## SET_POWER_CAP -/

theorem State.applyCap_power (w : Nat) (s : State) : (s.applyCap w).power = { s.power with cap := w, capPending := none } := by
  unfold State.applyCap State.capChanged
  dsimp only
  split
  · rw [State.capThrottleEvent, State.raiseModule_power]
    exact (State.retuneStalls_only (List.Subset.refl _) (only_refl _ (s.modPower _))).same .power (by decide)
  · exact (State.retuneStalls_only (List.Subset.refl _) (only_refl _ (s.modPower _))).same .power (by decide)

theorem State.applyCap_rest (w : Nat) (s : State) : Only [.out, .power, .pcie, .log, .tm, .stalls] s (s.applyCap w) :=
  State.applyCap_only w (List.Subset.refl _) (only_refl _ s)

/-- Settles O22: a cap is held, or applied with the commands that it ends. -/
theorem powerCapAppliesOrWaits : Obligations.PowerCapAppliesOrWaits := by
  unfold Obligations.PowerCapAppliesOrWaits
  refine fun s sq cid => ⟨fun c waits => ⟨_, onCmd_eq waits, ?_⟩, fun w pending => ⟨_, rfl, ?_⟩⟩
  · unfold State.setPowerCap
    dsimp only
    split
    · simp [State.markStarted, State.setCmd]
    · have rest := s.applyCap_rest (eWatts c.entry)
      simp only [State.finishCmd_mem, State.finishCmd_job, State.finishCmd_boot, State.finishCmd_run, State.finishCmd_power,
        State.finishAll_mem, State.finishAll_job, State.finishAll_boot, State.finishAll_run, State.finishAll_power]
      refine ⟨rest.same .mem (by decide), rest.same .job (by decide), rest.same .boot (by decide), rest.same .run (by decide),
        s.applyCap_power _, fun none fits => ?_⟩
      rw [none]
      exact State.Completed.after (rest.same .cqs (by decide)) (rest.same .sqs (by decide)) (rest.same .usec (by decide))
        (rest.same .cmds (by decide)) (State.applyCap_kept _ (kept_refl s)).sent
        (State.finishCmd_completed _ _ _ _ _ (fits_of (rest.same .cqs (by decide)) fits))
  · unfold State.applyHeldCap
    rw [pending]
    dsimp only
    have rest := s.applyCap_rest w
    split
    · exact ⟨rfl, rfl, rfl, rfl, rfl⟩
    · simp only [State.finishAll_mem, State.finishAll_job, State.finishAll_boot, State.finishAll_run, State.finishAll_power]
      exact ⟨rest.same .mem (by decide), rest.same .job (by decide), rest.same .boot (by decide), rest.same .run (by decide),
        s.applyCap_power w⟩

/-! ## ENROL_KEY and APPLY_PATCH -/

theorem State.objectEvents_noted (obj c : Nat) (o : Bytes) (s : State) : s.Noted (s.objectEvents obj c o) := by
  unfold State.objectEvents
  lift_lets
  intro failed slot y
  have first : s.Noted y := by
    simp only [y]
    split
    · exact s.raiseModule_noted _ _
    · exact noted_refl s
  clear_value y
  split_ifs
  · exact noted_trans first (y.raiseModule_noted _ _)
  · exact noted_trans first (y.raiseModule_noted _ _)
  · exact first

/-- Programming a slot adds a generation to it where it enrols. -/
theorem Boot.program_generation_eq {b : Boot} {o : Bytes} (four : b.slots.length = 4) (low : soSlot o ≤ 3) (k : Nat) :
    (b.program o).generation k = b.generation k + (if k = soSlot o ∧ soAction o = 1 then 1 else 0) := by
  unfold Boot.program Boot.generation Boot.gens
  dsimp only
  by_cases same : k = soSlot o
  · subst same
    split
    next enrols => rw [modAt_getD_self _ _ _ _ (by omega)]; simp [enrols]
    next enrols => rw [modAt_getD_self _ _ _ _ (by omega)]; simp [enrols]
  · split <;> rw [modAt_getD_ne _ _ _ _ _ (Ne.symm same)] <;> simp [same]

theorem Boot.checkEnrol_slot {b : Boot} {slot : Nat} {o : Bytes} (h : b.checkEnrol slot o = none) : soSlot o = slot ∧ soSlot o ≤ 3 := by
  unfold Boot.checkEnrol at h
  split at h
  · cases h
  · split at h
    · cases h
    next slots =>
      simp only [Bool.or_eq_true, bne_iff_ne, decide_eq_true_eq, not_or, not_not, Nat.not_lt] at slots
      tauto

/-- Settles O23: a refusal is its events and the entry; a passing object programs its slot. -/
theorem enrolKeyProgramsItsSlot : Obligations.EnrolKeyProgramsItsSlot := by
  unfold Obligations.EnrolKeyProgramsItsSlot
  intro s sq cid data c waits fits four
  dsimp only
  obtain ⟨found, -⟩ := waiting_ids waits
  refine ⟨_, onCmd_eq waits, ?_⟩
  unfold State.enrolKey
  cases checked : s.boot.checkEnrol (eSlot c.entry) (s.dataOf c data) with
  | some k => exact noted_finish found (s.objectEvents_noted 3 k _) fits _ _ _
  | none =>
    obtain ⟨slot, low⟩ := Boot.checkEnrol_slot checked
    refine ⟨State.finish_reported _ _ _ _ _ _, ?_, ?_, slot, fun k => ?_⟩
    · dsimp only
      rw [finish_eq (y := s.modBoot _) found rfl]
      exact State.Completed.after rfl rfl rfl rfl (List.prefix_refl _) (State.finishCmd_completed (s.modBoot _) _ _ _ _ fits)
    · rw [State.finish_boot]
      exact Boot.program_svn _ _
    · rw [State.finish_boot, State.modBoot_boot, Boot.program_generation_eq four low, slot]

/-- Settles O24: a refusal is its events and the entry; a passing bundle changes the stored patch and the security version. -/
theorem applyPatchStoresTheBundle : Obligations.ApplyPatchStoresTheBundle := by
  unfold Obligations.ApplyPatchStoresTheBundle
  intro s sq cid data c waits fits
  dsimp only
  obtain ⟨found, -⟩ := waiting_ids waits
  refine ⟨_, onCmd_eq waits, ?_⟩
  unfold State.applyPatch
  cases checked : s.boot.checkPatch (s.dataOf c data) with
  | some k => exact noted_finish found (s.objectEvents_noted 2 k _) fits _ _ _
  | none =>
    refine ⟨?_, by rw [State.finish_boot]; rfl, by rw [State.finish_mem]; rfl, by rw [State.finish_job]; rfl, by rw [State.finish_power]; rfl⟩
    dsimp only
    rw [finish_eq (y := s.modBoot _) found rfl]
    exact State.Completed.after rfl rfl rfl rfl (List.prefix_refl _) (State.finishCmd_completed (s.modBoot _) _ _ _ _ fits)

end Sys2Proof.Machine

/-! PROOF. What ending an attempt, a re-formation and a census leave of the run, the harbour and the ports (R312, R313). -/

namespace Sys2Proof.Machine

/-- What every step of a fold keeps, the fold keeps. -/
theorem foldl_inv {α : Type} {P : State → Prop} {f : State → α → State} (hf : ∀ y a, P y → P (f y a)) (l : List α) {x : State} (h : P x) :
    P (l.foldl f x) := by
  induction l generalizing x with
  | nil => exact h
  | cons a l ih => exact ih (hf x a h)

/-! ## Ends of waits -/

/-- The run is that of `s` but for its waits. -/
def State.WaitsOnly (s t : State) : Prop := ∃ w gs, t.run = { s.run with waitUs := w, groups := gs }

theorem waitsOnly_of_run {s t : State} (h : t.run = s.run) : s.WaitsOnly t := ⟨s.run.waitUs, s.run.groups, by rw [h]⟩

theorem waitsOnly_trans {s x t : State} (h : s.WaitsOnly x) (g : x.WaitsOnly t) : s.WaitsOnly t := by
  obtain ⟨w, gs, e⟩ := h
  obtain ⟨v, hs, f⟩ := g
  exact ⟨v, hs, by rw [f, e]⟩

theorem State.extends_only (l : List Cmd) (us : Nat) (s : State) : Only [.cmds] s (l.foldl (fun s c => s.extend c.sq c.cid us) s) :=
  foldl_only (only_refl _ s) fun _ _ h => State.extend_only _ _ _ (by decide) h

theorem State.endWait_waits (g : GroupRun) (s : State) : s.WaitsOnly (s.endWait g) := by
  unfold State.endWait
  split
  · exact waitsOnly_of_run rfl
  · dsimp only
    split
    · exact ⟨_, _, by rw [State.modRun_run, State.count_run]⟩
    · exact ⟨_, _, ((State.extends_only _ _ _).same .run (by decide)).trans (by rw [State.modRun_run, State.count_run])⟩

theorem State.endWaits_waits (s : State) : s.WaitsOnly s.endWaits :=
  foldl_inv (P := s.WaitsOnly) (fun y g h => waitsOnly_trans h (y.endWait_waits g)) _ (waitsOnly_of_run rfl)

/-- In a harbour the end of a wait extends no command. -/
theorem State.endWait_cmds {s : State} (joined : s.harbour.joined = true) (g : GroupRun) : (s.endWait g).cmds = s.cmds := by
  unfold State.endWait
  split
  · rfl
  · dsimp only
    rw [if_pos (by simpa using joined), State.modRun_cmds, State.count_cmds]

theorem State.endWaits_rest (s : State) : Only [.out, .pcie, .cmds, .log, .tm, .run] s s.endWaits :=
  State.endWaits_only (List.Subset.refl _) (only_refl _ s)

theorem State.endWaits_cmds {s : State} (joined : s.harbour.joined = true) : s.endWaits.cmds = s.cmds := by
  have all : ∀ x : State, x.harbour.joined = true ∧ x.cmds = s.cmds → (x.endWaits).cmds = s.cmds := fun x h =>
    (foldl_inv (P := fun y => y.harbour.joined = true ∧ y.cmds = s.cmds) (fun y g h =>
      ⟨(congrArg Harbour.joined ((State.endWait_only g (List.Subset.refl _) (only_refl _ y)).same .harbour (by decide))).trans h.1,
        (State.endWait_cmds h.1 g).trans h.2⟩) x.run.groups h).2
  exact all s ⟨joined, rfl⟩

/-! ## The end of an attempt -/

theorem State.abandonAttempt_rest (s : State) : Only [.out, .pcie, .cmds, .log, .tm, .run, .stalls, .harbour] s s.abandonAttempt :=
  State.abandonAttempt_only (List.Subset.refl _) (only_refl _ s)

theorem State.abandonAttempt_harbour (s : State) : s.abandonAttempt.harbour = { s.harbour with link := s.harbour.link.cleared } := by
  unfold State.abandonAttempt
  rw [State.modHarbour_harbour, State.modStalls_harbour, State.modRun_harbour, s.endWaits_rest.same .harbour (by decide)]

theorem State.abandonAttempt_run (s : State) : ∃ w, s.abandonAttempt.run = { s.run.cleared with waitUs := w } := by
  obtain ⟨w, gs, e⟩ := s.endWaits_waits
  refine ⟨w, ?_⟩
  unfold State.abandonAttempt
  rw [State.modHarbour_run, State.modStalls_run, State.modRun_run, e]
  rfl

theorem State.abandonAttempt_cmds {s : State} (joined : s.harbour.joined = true) : s.abandonAttempt.cmds = s.cmds :=
  State.endWaits_cmds joined

/-! ## What sending leaves of the ports -/

/-- A port without its flits in flight. -/
def Port.frame (p : Port) : Port := { p with txSeq := 0, backlog := [], unacked := [], credits := 0 }

/-- Every port stands as it was, but for its flits in flight. -/
def State.SamePorts (s t : State) : Prop := ∀ q, (t.port q).frame = (s.port q).frame

theorem samePorts_of_eq {s t : State} (h : t.ports = s.ports) : s.SamePorts t := fun q => by rw [State.port, State.port, h]

theorem samePorts_trans {s x t : State} (h : s.SamePorts x) (g : x.SamePorts t) : s.SamePorts t := fun q => (g q).trans (h q)

theorem setPort_samePorts {f : Port → Port} (h : ∀ p, (f p).frame = p.frame) (i : Nat) (s : State) : s.SamePorts (s.setPort i f) :=
  fun q => getD_modAt_of_eq Port.frame h i q s.ports _

theorem State.Noted.samePorts {s t : State} (h : s.Noted t) : s.SamePorts t := samePorts_of_eq h.ports

theorem State.releaseFlits_samePorts (p : Nat) (s : State) : s.SamePorts (s.releaseFlits p) := by
  unfold State.releaseFlits
  dsimp only
  split
  · exact samePorts_of_eq rfl
  · refine samePorts_trans (samePorts_of_eq ((State.emitFlits_only p (s.port p).leaving (List.Subset.refl _) (only_refl _ s)).same .ports (by decide))) (samePorts_trans ?_ (State.count_noted _ _ _).samePorts)
    exact setPort_samePorts (f := Port.release) (fun _ => rfl) p _

theorem State.sendLink_samePorts (p : Nat) (m : LinkMsg) (s : State) : s.SamePorts (s.sendLink p m) := by
  unfold State.sendLink
  split
  · exact samePorts_of_eq rfl
  · refine samePorts_trans ?_ (State.releaseFlits_samePorts _ _)
    exact setPort_samePorts (f := fun x => { x with backlog := enqueue m.bodies x.backlog }) (fun _ => rfl) p (s.emit _)

theorem State.flood_samePorts (m : LinkMsg) (s : State) : s.SamePorts (s.flood m) :=
  foldl_inv (P := s.SamePorts) (fun y p h => samePorts_trans h (y.sendLink_samePorts p m)) _ (samePorts_of_eq rfl)

theorem State.flood_rest (m : LinkMsg) (s : State) : Only [.out, .pcie, .log, .tm, .ports] s (s.flood m) :=
  State.flood_only m (List.Subset.refl _) (only_refl _ s)

theorem State.sendView_rest (s : State) : Only [.out, .pcie, .log, .tm, .ports] s s.sendView :=
  State.sendView_only (List.Subset.refl _) (only_refl _ s)

/-! ## Census and re-formation -/

theorem State.enterCensus_rest (s : State) : Only [.out, .pcie, .log, .tm, .harbour, .ports] s s.enterCensus :=
  State.enterCensus_only (List.Subset.refl _) (only_refl _ s)

theorem State.enterCensus_harbour (s : State) : s.enterCensus.harbour = if s.harbour.inCensus then s.harbour else
    { s.harbour with inCensus := true, censusNo := s.harbour.census + 1, censusFrom := s.usec, view := s.firstView, views := [], parts := [] } := by
  unfold State.enterCensus
  dsimp only
  split
  · rfl
  · exact (State.sendView_rest _).same .harbour (by decide)

theorem State.setEntry_harbour (r : Nat) (f : CensusEntry → CensusEntry) (s : State) :
    (s.setEntry r f).harbour = { s.harbour with view := modAt r f s.harbour.view } := by
  unfold State.setEntry
  dsimp only
  split
  next same => rw [same]
  · exact (State.sendView_rest _).same .harbour (by decide)

theorem State.reform_rest (m : LinkMsg) (s : State) : Only [.out, .pcie, .cmds, .log, .tm, .run, .stalls, .harbour, .ports] s (s.reform m) :=
  State.reform_only m (List.Subset.refl _) (only_refl _ s)

theorem State.reform_eq {s : State} (m : LinkMsg) (undecided : s.harbour.decided = false) :
    s.reform m = (s.abandonAttempt.flood m).enterCensus := by
  unfold State.reform
  rw [undecided]
  rfl

/-- A re-formation of a member that is not decided ends its attempt and enters a census. -/
theorem State.reform_harbour {s : State} (m : LinkMsg) (undecided : s.harbour.decided = false) :
    (s.reform m).harbour.link = s.harbour.link.cleared ∧ (s.reform m).harbour.inCensus = true
      ∧ (s.harbour.inCensus = false → (s.reform m).harbour.censusNo = s.harbour.census + 1) := by
  have flooded : (s.abandonAttempt.flood m).harbour = { s.harbour with link := s.harbour.link.cleared } :=
    ((State.flood_rest m _).same .harbour (by decide)).trans s.abandonAttempt_harbour
  rw [State.reform_eq m undecided, State.enterCensus_harbour, flooded]
  cases inCensus : s.harbour.inCensus <;> simp [inCensus]

theorem State.reform_run {s : State} (m : LinkMsg) (undecided : s.harbour.decided = false) :
    ∃ w, (s.reform m).run = { s.run.cleared with waitUs := w } := by
  obtain ⟨w, e⟩ := s.abandonAttempt_run
  rw [State.reform_eq m undecided]
  exact ⟨w, ((State.enterCensus_rest _).same .run (by decide)).trans (((State.flood_rest m _).same .run (by decide)).trans e)⟩

theorem State.reform_cmds {s : State} (m : LinkMsg) (undecided : s.harbour.decided = false) (joined : s.harbour.joined = true) :
    (s.reform m).cmds = s.cmds := by
  rw [State.reform_eq m undecided]
  exact ((State.enterCensus_rest _).same .cmds (by decide)).trans
    (((State.flood_rest m _).same .cmds (by decide)).trans (State.abandonAttempt_cmds joined))

/-- A re-formation from outside a census is what the census of R312 begins with. -/
theorem State.reform_reformed {s : State} (m : LinkMsg) (undecided : s.harbour.decided = false) (joined : s.harbour.joined = true)
    (outside : s.harbour.inCensus = false) : s.Reformed (s.reform m) := by
  obtain ⟨-, inCensus, number⟩ := State.reform_harbour m undecided
  obtain ⟨w, run⟩ := State.reform_run m undecided
  have rest := s.reform_rest m
  exact ⟨inCensus, number outside, by rw [run]; rfl, by rw [run]; rfl, rest.same .mem (by decide), rest.same .job (by decide),
    rest.same .boot (by decide), State.reform_cmds m undecided joined, rest.same .journal (by decide)⟩

theorem State.applyEject_rest (e : EjectRec) (s : State) : Only [.out, .pcie, .log, .tm, .harbour, .ports] s (s.applyEject e) :=
  State.applyEject_only e (List.Subset.refl _) (only_refl _ s)

theorem State.applyEject_harbour (e : EjectRec) (s : State) : (s.applyEject e).harbour.link = s.harbour.link
    ∧ (s.applyEject e).harbour.inCensus = s.harbour.inCensus ∧ (s.applyEject e).harbour.censusNo = s.harbour.censusNo
    ∧ (s.applyEject e).harbour.decided = s.harbour.decided ∧ (s.applyEject e).harbour.joined = s.harbour.joined := by
  unfold State.applyEject
  split
  · unfold State.markLost
    rw [State.setEntry_harbour]
    exact ⟨rfl, rfl, rfl, rfl, rfl⟩
  · exact ⟨rfl, rfl, rfl, rfl, rfl⟩

end Sys2Proof.Machine

/-! PROOF. RUN_STEPS, SERVE and LEAVE_HARBOUR (R317, R370, R372, R373). -/

namespace Sys2Proof.Machine

/-! ## BARRIERs that pass -/

/-- Tides have completed: nothing but their statuses and the progress has changed. -/
def State.TidesOver (s t : State) : Prop :=
  ∃ ts n, t = { s with run := { s.run with tides := ts }, job := { s.job with progress := s.job.progress + n } }

theorem tidesOver_refl (s : State) : s.TidesOver s := ⟨s.run.tides, 0, rfl⟩

theorem tidesOver_trans {s x t : State} (h : s.TidesOver x) (g : x.TidesOver t) : s.TidesOver t := by
  obtain ⟨ts, m, rfl⟩ := h
  obtain ⟨us, n, rfl⟩ := g
  exact ⟨us, m + n, by simp only [Nat.add_assoc]⟩

theorem State.tideOver_over (i inst : Nat) (s : State) : s.TidesOver (s.tideOver i inst) := ⟨_, 1, rfl⟩

theorem State.passBarriers_over (t : Table) (s : State) : s.TidesOver (s.passBarriers t) := by
  refine foldl_inv (P := s.TidesOver) (fun y u h => ?_) _ (tidesOver_refl s)
  split
  · exact tidesOver_trans h (y.tideOver_over _ _)
  · exact h

/-! ## RUN_STEPS -/

/-- An attempt of step `n` is in progress for the RUN_STEPS `c`, and its link engine idles. -/
structure State.InAttempt (s0 : State) (n : Nat) (c : RunCmd) (s : State) : Prop where
  mode : s.mode = .running
  attempt : s.job.attempt = 0
  step : s.job.step = n
  kind : s.run.kind = .training
  cur : s.run.cur = some c
  mem : s.mem = s0.mem
  svn : s.boot.svn = s0.boot.svn
  active : s.harbour.link.active = false
  awaiting : s.harbour.link.awaiting = false
  decided : s.harbour.decided = false

/-- A change of other parts leaves the attempt in progress. -/
theorem State.InAttempt.of_only {s0 s t : State} {n : Nat} {c : RunCmd} {ks : List Part} (h : s0.InAttempt n c s) (only : Only ks s t)
    (boot : .boot ∉ ks) (job : .job ∉ ks) (mem : .mem ∉ ks) (kind : t.run.kind = s.run.kind) (cur : t.run.cur = s.run.cur)
    (active : t.harbour.link.active = false) (awaiting : t.harbour.link.awaiting = false) (decided : t.harbour.decided = false) :
    s0.InAttempt n c t where
  mode := (congrArg Boot.mode (only.same .boot boot)).trans h.mode
  attempt := (congrArg Job.attempt (only.same .job job)).trans h.attempt
  step := (congrArg Job.step (only.same .job job)).trans h.step
  kind := kind.trans h.kind
  cur := cur.trans h.cur
  mem := (only.same .mem mem).trans h.mem
  svn := (congrArg Boot.svn (only.same .boot boot)).trans h.svn
  active := active
  awaiting := awaiting
  decided := decided

theorem State.InAttempt.of_noted {s0 s t : State} {n : Nat} {c : RunCmd} (h : s0.InAttempt n c s) (noted : s.Noted t) :
    s0.InAttempt n c t where
  mode := (congrArg Boot.mode noted.boot).trans h.mode
  attempt := (congrArg Job.attempt noted.job).trans h.attempt
  step := (congrArg Job.step noted.job).trans h.step
  kind := (congrArg Run.kind noted.run).trans h.kind
  cur := (congrArg Run.cur noted.run).trans h.cur
  mem := noted.mem.trans h.mem
  svn := (congrArg Boot.svn noted.boot).trans h.svn
  active := (congrArg (fun x => x.link.active) noted.harbour).trans h.active
  awaiting := (congrArg (fun x => x.link.awaiting) noted.harbour).trans h.awaiting
  decided := (congrArg Harbour.decided noted.harbour).trans h.decided

theorem State.InAttempt.holdFrame {s0 s : State} {n : Nat} {c : RunCmd} (h : s0.InAttempt n c s) (port : Nat) (f : BucketFrame) :
    s0.InAttempt n c (s.holdFrame port f) :=
  h.of_only (State.holdFrame_only port f (List.Subset.refl _) (only_refl _ s)) (by decide) (by decide) (by decide) rfl rfl
    h.active h.awaiting h.decided

theorem State.InAttempt.eject {s0 s : State} {n : Nat} {c : RunCmd} (h : s0.InAttempt n c s) (e : EjectRec) :
    s0.InAttempt n c (s.eject e) := by
  unfold State.eject
  split
  · exact h
  · obtain ⟨link, -, -⟩ := State.reform_harbour (.eject e) h.decided
    obtain ⟨w, run⟩ := State.reform_run (.eject e) h.decided
    obtain ⟨link', -, -, decided, -⟩ := (s.reform (.eject e)).applyEject_harbour e
    have undecided : (s.reform (.eject e)).harbour.decided = s.harbour.decided := by
      rw [State.reform_eq _ h.decided, State.enterCensus_harbour, (State.flood_rest _ _).same .harbour (by decide),
        State.abandonAttempt_harbour]
      split <;> rfl
    have run' : ((s.reform (.eject e)).applyEject e).run = (s.reform (.eject e)).run :=
      (State.applyEject_rest e _).same .run (by decide)
    refine h.of_only (only_trans (s.reform_rest _) (only_mono (State.applyEject_rest e _) (by decide))) (by decide) (by decide)
      (by decide) ?_ ?_ ?_ ?_ ?_
    · rw [run', run]; rfl
    · rw [run', run]; rfl
    · rw [link', link]; rfl
    · rw [link', link]; rfl
    · rw [decided, undecided, h.decided]

theorem State.InAttempt.rejectFrame {s0 s : State} {n : Nat} {c : RunCmd} (h : s0.InAttempt n c s) (port : Nat) (f : BucketFrame) :
    s0.InAttempt n c (s.rejectFrame port f) :=
  (h.of_noted (s.raise_noted _ _ _ _)).eject _

/-- An idle link engine takes no frame. -/
theorem State.matchFrame_idle {s : State} (idle : s.harbour.link.active = false) (t : Table) (f : BucketFrame) : s.matchFrame t f = none := by
  unfold State.matchFrame
  rw [idle]
  rfl

theorem State.useHeld_idle {s : State} (idle : s.harbour.link.active = false) (t : Table) (n : Nat) : s.useHeld t n = s := by
  cases n with
  | zero => rfl
  | succ n =>
    have none : (s.harbour.link.held.find? fun p => s.ofAttempt p.2 && (s.matchFrame t p.2).isSome) = none := by
      simp [State.matchFrame_idle idle]
    unfold State.useHeld
    rw [none]

theorem State.InAttempt.checkFrame {s0 s : State} {n : Nat} {c : RunCmd} (h : s0.InAttempt n c s) (t : Table) (port : Nat) (f : BucketFrame) :
    s0.InAttempt n c (s.checkFrame t port f) := by
  have idle : s.useFrame t port f = s.holdFrame port f := by
    unfold State.useFrame
    rw [State.matchFrame_idle h.active]
  have held := h.holdFrame port f
  have rejected := h.rejectFrame port f
  unfold State.checkFrame
  dsimp only
  rw [h.awaiting, idle, State.useHeld_idle held.active]
  simp only [Bool.false_eq_true, if_false]
  split_ifs <;> assumption

theorem State.InAttempt.recheckHeld {s0 s : State} {n : Nat} {c : RunCmd} (h : s0.InAttempt n c s) (t : Table) :
    s0.InAttempt n c (s.recheckHeld t) :=
  foldl_inv (P := s0.InAttempt n c) (fun _ p g => g.checkFrame t p.1 p.2) _
    (h.of_only (State.modLink_only _ (List.Subset.refl _) (only_refl _ s)) (by decide) (by decide) (by decide) rfl rfl h.active h.awaiting
      h.decided)

/-- What an attempt begins with: its groups and tides, nothing of them done. -/
def State.attemptSet (t : Table) (s : State) : State :=
  let s := s.abandonAttempt
  let gs := s.assigned.zipIdx.map fun p => (⟨p.1, p.2, 0, [], false, false, none⟩ : GroupRun)
  let us := (t.stepInstances gs.length).map fun u => (⟨u.1, u.2, .waiting⟩ : TideInst)
  let s := (s.modRun fun r => { r with groups := gs, tides := us, slack := .none }).modHarbour fun h => { h with decided := false }
  s.modJob fun j => { j with streamStep := some (max (j.streamStep.getD 0) j.step) }

theorem State.beginAttempt_eq (t : Table) (s : State) : s.beginAttempt t =
    if (((s.attemptSet t).passBarriers t).enter .running).harbour.joined then (((s.attemptSet t).passBarriers t).enter .running).recheckHeld t
    else ((s.attemptSet t).passBarriers t).enter .running := rfl

theorem State.enter_svn (m : ModuleState) (s : State) : (s.enter m).boot.svn = s.boot.svn := by
  unfold State.enter
  split <;> rfl

/-- The tides of an attempt begin, in RUNNING. -/
theorem State.passBarriers_inAttempt {s0 x : State} {n : Nat} {c : RunCmd} (t : Table) (attempt : x.job.attempt = 0) (step : x.job.step = n)
    (kind : x.run.kind = .training) (cur : x.run.cur = some c) (mem : x.mem = s0.mem) (svn : x.boot.svn = s0.boot.svn)
    (active : x.harbour.link.active = false) (awaiting : x.harbour.link.awaiting = false) (decided : x.harbour.decided = false) :
    s0.InAttempt n c ((x.passBarriers t).enter .running) := by
  obtain ⟨ts, k, passed⟩ := x.passBarriers_over t
  rw [passed]
  have entered := State.enter_only .running (List.Subset.refl _) (only_refl _
    { x with run := { x.run with tides := ts }, job := { x.job with progress := x.job.progress + k } })
  exact {
    mode := State.enter_mode _ _
    attempt := (congrArg Job.attempt (entered.same .job (by decide))).trans attempt
    step := (congrArg Job.step (entered.same .job (by decide))).trans step
    kind := (congrArg Run.kind (entered.same .run (by decide))).trans kind
    cur := (congrArg Run.cur (entered.same .run (by decide))).trans cur
    mem := (entered.same .mem (by decide)).trans mem
    svn := (State.enter_svn _ _).trans svn
    active := (congrArg (fun h => h.link.active) (entered.same .harbour (by decide))).trans active
    awaiting := (congrArg (fun h => h.link.awaiting) (entered.same .harbour (by decide))).trans awaiting
    decided := (congrArg Harbour.decided (entered.same .harbour (by decide))).trans decided }

/-- An attempt begins idle. -/
theorem State.beginAttempt_inAttempt {s0 s : State} {n : Nat} {c : RunCmd} (t : Table) (attempt : s.job.attempt = 0) (step : s.job.step = n)
    (kind : s.run.kind = .training) (cur : s.run.cur = some c) (mem : s.mem = s0.mem) (svn : s.boot.svn = s0.boot.svn) :
    s0.InAttempt n c (s.beginAttempt t) := by
  obtain ⟨w, run⟩ := s.abandonAttempt_run
  have rest := s.abandonAttempt_rest
  have job := rest.same .job (by decide)
  have link : (s.attemptSet t).harbour.link = s.harbour.link.cleared := congrArg Harbour.link s.abandonAttempt_harbour
  have begun : s0.InAttempt n c (((s.attemptSet t).passBarriers t).enter .running) :=
    State.passBarriers_inAttempt t ((congrArg Job.attempt job).trans attempt) ((congrArg Job.step job).trans step)
      ((congrArg Run.kind run).trans kind) ((congrArg Run.cur run).trans cur) ((rest.same .mem (by decide)).trans mem)
      ((congrArg Boot.svn (rest.same .boot (by decide))).trans svn) (congrArg Link.active link) (congrArg Link.awaiting link) rfl
  rw [State.beginAttempt_eq]
  split
  · exact begun.recheckHeld t
  · exact begun

theorem State.beginStep_inAttempt {s0 y : State} {n : Nat} {c : RunCmd} (t : Table) (step : y.job.step = n) (kind : y.run.kind = .training)
    (cur : y.run.cur = some c) (mem : y.mem = s0.mem) (svn : y.boot.svn = s0.boot.svn) : s0.InAttempt n c (y.beginStep t) :=
  State.beginAttempt_inAttempt (s := (y.modJob fun j => { j with attempt := 0 }).modRun fun r =>
    { r with once := [], probe := (y.modJob fun j => { j with attempt := 0 }).needsProbe, outcome := .applied }) t rfl step kind cur mem svn

/-- A RUN_STEPS starts an attempt of the step at which the module stands. -/
theorem State.startRun_inAttempt (t : Table) (c : Cmd) (s : State) :
    s.InAttempt s.job.step ⟨c.sq, c.cid, eSteps c.entry, 0, 0, 0⟩ (s.startRun t c) := by
  unfold State.startRun
  dsimp only
  set idle := match s.harbour.idleFrom with | none => 0 | some u => s.usec - u
  set y := (((s.setCmd c.sq c.cid fun c => { c with started := true }).count (tmAt 0x30) idle).modRun fun r =>
    { r with kind := .training, cur := some ⟨c.sq, c.cid, eSteps c.entry, 0, 0, 0⟩, waitUs := r.waitUs + idle }).modHarbour
      (fun h => { h with idleFrom := none, halted := false }) with hy
  have noted := (s.setCmd c.sq c.cid fun c => { c with started := true }).count_noted (tmAt 0x30) idle
  have begun : s.InAttempt s.job.step ⟨c.sq, c.cid, eSteps c.entry, 0, 0, 0⟩ (y.beginStep t) :=
    State.beginStep_inAttempt t (congrArg Job.step noted.job) rfl rfl noted.mem (congrArg Boot.svn noted.boot)
  generalize y.beginStep t = z at begun ⊢
  have promised : s.InAttempt s.job.step ⟨c.sq, c.cid, eSteps c.entry, 0, 0, 0⟩
      (if z.rateLost then z.endPromise 4 (Cmd.isOp opRun) else z) := by
    split
    · exact begun.of_only (State.endPromise_only 4 _ (List.Subset.refl _) (only_refl _ _)) (by decide) (by decide) (by decide) rfl rfl
        begun.active begun.awaiting begun.decided
    · exact begun
  generalize (if z.rateLost then z.endPromise 4 (Cmd.isOp opRun) else z) = x at promised ⊢
  split
  · exact promised
  · exact promised.of_noted (State.raiseModule_noted _ _ _)

/-- Settles O14: the frames held for the attempt can at most begin a re-formation, which leaves the RUN_STEPS and the step. -/
theorem runStepsStarts : Obligations.RunStepsStarts := by
  unfold Obligations.RunStepsStarts
  intro s sq cid c t waits table training mode outside first
  have started := s.startRun_inAttempt t c
  have starts : s.runSteps c = s.startRun t c := by
    unfold State.runSteps
    rw [table]
    dsimp only
    rw [if_neg (by simp [training]), if_neg (by simp [mode, outside, first])]
  exact ⟨_, (onCmd_eq waits).trans (congrArg Host.Outcome.next starts), started.mode, started.attempt, started.step, started.kind, started.cur,
    started.mem, started.svn⟩

/-! ## SERVE -/

theorem State.startServing_started (t : Table) (s : State) :
    (s.startServing t).run.kind = .serving ∧ (s.startServing t).run.serves = [] ∧ (s.startServing t).mem = s.mem := by
  unfold State.startServing
  dsimp only
  set x := s.modRun fun r => { Run.reset with
    kind := .serving, nextTag := r.nextTag, tides := (t.inRange 0).map fun i => ⟨i, 0, .waiting⟩ } with hx
  have entered := State.enter_only .running (List.Subset.refl _) (only_refl _ x)
  have base : (x.enter .running).run.kind = .serving ∧ (x.enter .running).run.serves = [] ∧ (x.enter .running).mem = s.mem := by
    rw [entered.same .run (by decide), entered.same .mem (by decide)]
    exact ⟨rfl, rfl, rfl⟩
  generalize x.enter .running = y at base ⊢
  obtain ⟨ts, k, passed⟩ := y.passBarriers_over t
  have after : (y.passBarriers t).run.kind = .serving ∧ (y.passBarriers t).run.serves = [] ∧ (y.passBarriers t).mem = s.mem := by
    rw [passed]
    exact base
  split
  · exact after
  · simp only [State.capThrottleEvent, State.raiseModule_run, State.raiseModule_mem]
    exact after

/-- Settles O15: the first request finds the reset run that the serving run begins with. -/
theorem serveAdmitsARequest : Obligations.ServeAdmitsARequest := by
  unfold Obligations.ServeAdmitsARequest
  intro s sq cid prompt c t waits table serving mode
  have open_ : (t.isTraining || !(s.mode == .configured || s.mode == .running)) = false := by
    rw [serving]
    rcases mode with h | h <;> simp [h]
  refine ⟨fun first => ⟨_, onCmd_eq (f := fun c => State.serve c prompt) waits, ?_⟩,
    fun later => (onCmd_eq (f := fun c => State.serve c prompt) waits).trans ?_⟩
  · unfold State.serve
    rw [table]
    dsimp only
    rw [open_, if_neg (by decide), if_neg (by simp [first])]
    have data : ∀ x : State, x.mem = s.mem → (x.markStarted c).dataOf c prompt = s.dataOf c prompt := fun x h => by
      simp only [State.dataOf, State.markStarted, State.setCmd, State.modCmds_mem, h]
    split
    next running =>
      exact ⟨running, rfl, by rw [State.modRun_run, data s rfl]; rfl⟩
    next fresh =>
      obtain ⟨kind, serves, mem⟩ := s.startServing_started t
      refine ⟨kind, mem, ?_⟩
      rw [State.modRun_run, data _ mem]
      exact congrArg (· ++ _) serves
  · unfold State.serve
    rw [table]
    dsimp only
    rw [open_, if_neg (by decide), if_pos (by simpa using later)]

/-! ## LEAVE_HARBOUR -/

/-- A port that goes dark is not up, and no other lights up. -/
theorem State.darkPort_up (p q : Nat) (s : State) (dark : q = p ∨ (s.port q).up = false) : ((s.darkPort p).port q).up = false := by
  have engines : ∀ x : State, (x.engines false [p]).ports = x.ports := fun x =>
    (State.engines_only false [p] (List.Subset.refl _) (only_refl _ x)).same .ports (by decide)
  unfold State.darkPort
  rw [State.port, engines]
  change Port.up ((modAt p (fun x => { Port.reset with state := if x.failed then 4 else 0, failed := x.failed }) s.ports).getD q Port.reset) = false
  rw [List.getD_eq_getElem?_getD, modAt_getElem?]
  split
  · cases s.ports[q]? with
    | none => rfl
    | some x => cases failed : x.failed <;> simp [Port.up, failed]
  next other =>
    rw [← List.getD_eq_getElem?_getD]
    exact dark.resolve_left fun same => other same.symm

theorem State.darkPorts_up (ps : List Nat) (q : Nat) (s : State) (dark : q ∈ ps ∨ (s.port q).up = false) :
    ((s.darkPorts ps).port q).up = false := by
  unfold State.darkPorts
  induction ps generalizing s with
  | nil => exact dark.resolve_left (by simp)
  | cons p ps ih =>
    refine ih _ ?_
    rcases dark with mem | up
    · rcases List.mem_cons.mp mem with same | rest
      · exact .inr (s.darkPort_up p q (.inl same))
      · exact .inl rest
    · exact .inr (s.darkPort_up p q (.inr up))

theorem State.outOfHarbour_dark {s : State} {q : Nat} (hq : q < 8) (role : (s.port q).role ≠ 0) :
    ((s.outOfHarbour false).port q).up = false := by
  refine s.darkPorts_up _ q (.inl ?_)
  simp [State.litPorts, hq, role]

theorem State.outOfHarbour_harbour (keep : Bool) (s : State) :
    (s.outOfHarbour keep).harbour.joined = false ∧ (s.outOfHarbour keep).harbour.rank = 0xFFFF := ⟨rfl, rfl⟩

/-- What leaving leaves: CONFIGURED, no harbour, every port in use dark. -/
theorem State.depart_left (s : State) :
    s.depart.boot.mode = .configured ∧ s.depart.harbour = { Harbour.reset with lastMismatch := s.harbour.lastMismatch }
      ∧ Only [.out, .power, .boot, .pcie, .log, .tm, .stalls, .harbour, .ports] s s.depart
      ∧ ∀ p < 8, (s.port p).role ≠ 0 → (s.depart.port p).up = false := by
  have entered := State.enter_only .configured (List.Subset.refl _) (only_refl _ ((s.flood (.leave s.harbour.rank)).outOfHarbour false))
  have flooded := s.flood_samePorts (.leave s.harbour.rank)
  refine ⟨State.enter_mode _ _, ?_, ?_, fun p hp role => ?_⟩
  · rw [State.depart, entered.same .harbour (by decide)]
    have same : ∀ ps, ((s.flood (.leave s.harbour.rank)).darkPorts ps).harbour = s.harbour := fun ps =>
      ((State.darkPorts_only ps (List.Subset.refl _) (only_refl _ _)).same .harbour (by decide)).trans
        ((State.flood_rest _ s).same .harbour (by decide))
    unfold State.outOfHarbour
    dsimp only
    rw [State.modHarbour_harbour, same]
    rfl
  · exact State.depart_only (List.Subset.refl _) (only_refl _ s)
  · rw [State.depart, State.port, entered.same .ports (by decide)]
    exact State.outOfHarbour_dark hp fun h => role ((congrArg Port.role (flooded p)).symm.trans h)

/-- Settles O20: in a run the module notes the command; otherwise it leaves, and the command completes behind it. -/
theorem leaveHarbour : Obligations.LeaveHarbour := by
  unfold Obligations.LeaveHarbour
  intro s sq cid c waits
  obtain ⟨found, -, -, rfl, rfl⟩ := waiting_ids waits
  refine ⟨fun out fits => ⟨_, onCmd_eq waits, ?_⟩, fun joined inRun => ⟨_, onCmd_eq waits, ?_⟩, fun joined idle => ⟨_, onCmd_eq waits, ?_⟩⟩
  · unfold State.leaveCmd
    rw [if_neg (by simp [out])]
    exact ⟨s.finishCmd_reported _ _ _ _, s.finishCmd_completed _ _ _ _ fits⟩
  · unfold State.leaveCmd State.leaveHarbour
    rw [if_pos joined]
    dsimp only
    rw [if_pos (by exact inRun)]
    rfl
  · unfold State.leaveCmd State.leaveHarbour
    rw [if_pos joined]
    dsimp only
    rw [if_neg (by rw [show State.inRun (State.setCmd _ _ _ s) = s.inRun from rfl, idle]; decide)]
    obtain ⟨mode, harbour, rest, dark⟩ := (s.markStarted c).depart_left
    refine ⟨?_, ?_, ?_, ?_, ?_, ?_, fun p hp role => ?_, fun fits => ?_⟩
    · rw [State.mode, State.leaveNow, State.finish_boot]
      exact mode
    · rw [State.leaveNow, State.finish_harbour]
      exact congrArg Harbour.joined harbour
    · rw [State.leaveNow, State.finish_harbour]
      exact congrArg Harbour.rank harbour
    · rw [State.leaveNow, State.finish_mem]
      exact rest.same .mem (by decide)
    · rw [State.leaveNow, State.finish_job]
      exact rest.same .job (by decide)
    · rw [State.leaveNow, State.finish_journal]
      exact rest.same .journal (by decide)
    · rw [State.leaveNow, State.port, State.finish_ports]
      exact dark p hp role
    · exact marked_finish waits (rest.same .cmds (by decide)) (rest.same .cqs (by decide)) (rest.same .sqs (by decide))
        (rest.same .usec (by decide)) (State.depart_kept (kept_refl (s.markStarted c))).sent fits _ _ _

end Sys2Proof.Machine

/-! PROOF. Boots, resets and the supply (R334, R386, R413, R433, R440 to R443). -/

namespace Sys2Proof.Machine

/-! ## Boot -/

/-- What the boot events and the self-test change. -/
structure State.SelfTested (s t : State) : Prop where
  rest : Only [.out, .freeCtr, .pcie, .log, .tm, .stalls, .test] s t
  master : t.pcie.busMaster = s.pcie.busMaster
  stalls : t.stalls.length = s.stalls.length
  failed : ∀ i, (s.stall i).state = 4 → (t.stall i).state = 4

theorem selfTested_trans {s x t : State} (h : s.SelfTested x) (g : x.SelfTested t) : s.SelfTested t :=
  ⟨only_trans h.rest g.rest, g.master.trans h.master, g.stalls.trans h.stalls, fun i e => g.failed i (h.failed i e)⟩

theorem State.Noted.only {s t : State} (h : s.Noted t) : Only [.out, .pcie, .log, .tm] s t := by
  refine ⟨fun k hk => ?_⟩
  cases k with
  | out | pcie | log | tm => exact absurd (by decide) hk
  | pending => exact h.pending
  | freeCtr => exact h.freeCtr
  | usec => exact h.usec
  | power => exact h.power
  | boot => exact h.boot
  | sqs => exact h.sqs
  | cqs => exact h.cqs
  | sqTurn => exact h.sqTurn
  | cmds => exact h.cmds
  | job => exact h.job
  | mem => exact h.mem
  | run => exact h.run
  | stalls => exact h.stalls
  | quays => exact h.quays
  | snap => exact h.snap
  | journal => exact h.journal
  | harbour => exact h.harbour
  | ports => exact h.ports
  | test => exact h.test

theorem State.Noted.selfTested {s t : State} (h : s.Noted t) : s.SelfTested t :=
  ⟨only_mono h.only (by decide), by rw [h.pcie], by rw [h.stalls], fun i e => by rw [State.stall, h.stalls]; exact e⟩

theorem State.stall_setStall (s : State) {i : Nat} (h : i < s.stalls.length) (f : Stall → Stall) : (s.setStall i f).stall i = f (s.stall i) :=
  modAt_getD_self i f s.stalls _ h

theorem State.stall_setStall_ne (s : State) {i j : Nat} (h : j ≠ i) (f : Stall → Stall) : (s.setStall i f).stall j = s.stall j :=
  modAt_getD_ne i j f s.stalls _ h.symm

theorem State.failStall_selfTested (i : Nat) (s : State) : s.SelfTested (s.failStall i) := by
  refine ⟨State.failStall_only i (by decide) (only_refl _ s), rfl, modAt_length _ _ _, fun j e => ?_⟩
  unfold State.failStall
  rw [State.stall, State.modTest_stalls]
  change ((s.setStall i _).stall j).state = 4
  by_cases same : j = i
  · subst same
    by_cases h : j < s.stalls.length
    · rw [s.stall_setStall h]
    · rw [State.stall, List.getD_eq_getElem?_getD, List.getElem?_eq_none (by simpa using h)] at e
      exact absurd e (by decide)
  · rw [s.stall_setStall_ne same]
    exact e

theorem State.bootFailure_selfTested (i : Nat) (s : State) : s.SelfTested (s.bootFailure i) := by
  unfold State.bootFailure
  dsimp only
  have free : s.SelfTested s.takeFree.2 := ⟨State.takeFree_only (by decide) (only_refl _ s), rfl, rfl, fun _ e => e⟩
  exact selfTested_trans free (selfTested_trans (State.raise_noted _ _ _ _ _).selfTested (State.failStall_selfTested _ _))

theorem State.bootFailure_fails {i : Nat} {s : State} (h : i < s.stalls.length) : ((s.bootFailure i).stall i).state = 4 := by
  unfold State.bootFailure State.failStall
  dsimp only
  rw [State.stall, State.modTest_stalls]
  exact congrArg Stall.state (State.stall_setStall _ (by rw [State.raise_stalls]; exact h) _)

theorem State.bootFailures_selfTested (l : List Nat) (s : State) : s.SelfTested (l.foldl (fun s i => s.bootFailure i) s) :=
  foldl_inv (P := s.SelfTested) (fun y i h => selfTested_trans h (y.bootFailure_selfTested i)) l (State.Noted.selfTested (noted_refl s))

theorem State.bootFailures_fail {l : List Nat} {i : Nat} {s : State} (hi : i ∈ l) (h : i < s.stalls.length) :
    ((l.foldl (fun s i => s.bootFailure i) s).stall i).state = 4 := by
  induction l generalizing s with
  | nil => cases hi
  | cons a l ih =>
    rcases List.mem_cons.mp hi with rfl | rest
    · exact (State.bootFailures_selfTested l _).failed _ (State.bootFailure_fails h)
    · exact ih rest (by rw [(s.bootFailure_selfTested a).stalls]; exact h)

/-- Row 5: the stored bundle is checked and loaded, with the domains of INERT on. -/
def State.patchLoaded (s : State) : State :=
  (s.modBoot fun _ => s.boot.loadPatch.1).modPower fun x => { x with domains := inertDomains, pwrGood := true }

/-- The events of a bundle that fails. -/
def State.patchEvents (s : State) : State :=
  match s.boot.loadPatch.2, s.patchLoaded.boot.storedPatch with
  | some c, some o => s.patchLoaded.objectEvents 2 c o
  | _, _ => s.patchLoaded

/-- The self-test's stalls, and the warning that stands. -/
def State.selfTest (failed : List Nat) (s : State) : State :=
  let s := (failed.filter (· < 256)).foldl (fun s i => s.bootFailure i) s
  if s.power.undervolt then s.raiseModule 0x0503 [(0x20, 4, s.power.inputMv)] else s

theorem State.finishBoot_eq (failed : List Nat) (s : State) : s.finishBoot failed = (s.patchEvents.selfTest failed).enter .inert := rfl

theorem State.selfTest_selfTested (failed : List Nat) (s : State) : s.SelfTested (s.selfTest failed) := by
  have tested := s.bootFailures_selfTested (failed.filter (· < 256))
  unfold State.selfTest
  dsimp only
  split
  · exact selfTested_trans tested (State.raiseModule_noted _ _ _).selfTested
  · exact tested

theorem State.selfTest_fails {failed : List Nat} {i : Nat} {s : State} (hi : i ∈ failed) (low : i < 256) (h : i < s.stalls.length) :
    ((s.selfTest failed).stall i).state = 4 := by
  have fails := State.bootFailures_fail (l := failed.filter (· < 256)) (i := i) (s := s) (by simpa using ⟨hi, low⟩) h
  unfold State.selfTest
  dsimp only
  split
  · exact (State.raiseModule_noted _ _ _).selfTested.failed i fails
  · exact fails

theorem State.patchEvents_noted (s : State) : s.patchLoaded.Noted s.patchEvents := by
  unfold State.patchEvents
  split
  · exact State.objectEvents_noted _ _ _ _
  · exact noted_refl _

theorem Boot.loadPatch_kept (b : Boot) : b.loadPatch.1.svn = b.svn ∧ b.loadPatch.1.slots = b.slots ∧ b.loadPatch.1.storedPatch = b.storedPatch := by
  unfold Boot.loadPatch
  split
  · exact ⟨rfl, rfl, rfl⟩
  · split <;> exact ⟨rfl, rfl, rfl⟩

theorem State.enter_flash (m : ModuleState) (s : State) :
    (s.enter m).boot.svn = s.boot.svn ∧ (s.enter m).boot.slots = s.boot.slots ∧ (s.enter m).boot.storedPatch = s.boot.storedPatch := by
  unfold State.enter
  split <;> exact ⟨rfl, rfl, rfl⟩

/-- What a boot leaves. -/
structure State.Booted (failed : List Nat) (s u : State) : Prop where
  rest : Only [.out, .freeCtr, .power, .boot, .pcie, .log, .tm, .stalls, .test] s u
  mode : u.mode = .inert
  svn : u.boot.svn = s.boot.svn
  slots : u.boot.slots = s.boot.slots
  storedPatch : u.boot.storedPatch = s.boot.storedPatch
  power : u.power = { s.power with domains := inertDomains, pwrGood := true }
  master : u.pcie.busMaster = s.pcie.busMaster
  failed : ∀ i ∈ failed, i < 256 → s.stalls.length = 256 → (u.stall i).state = 4

theorem State.finishBoot_booted (failed : List Nat) (s : State) : s.Booted failed (s.finishBoot failed) := by
  have noted := s.patchEvents_noted
  have tested := selfTested_trans noted.selfTested (s.patchEvents.selfTest_selfTested failed)
  have entered := State.enter_only .inert (List.Subset.refl _) (only_refl _ (s.patchEvents.selfTest failed))
  obtain ⟨svn, slots, stored⟩ := (s.patchEvents.selfTest failed).enter_flash .inert
  obtain ⟨svn', slots', stored'⟩ := s.boot.loadPatch_kept
  have boot : (s.patchEvents.selfTest failed).boot = s.boot.loadPatch.1 := tested.rest.same .boot (by decide)
  rw [State.finishBoot_eq]
  exact {
    rest := State.finishBoot_only failed (List.Subset.refl _) (only_refl _ s)
    mode := State.enter_mode _ _
    svn := by rw [svn, boot, svn']
    slots := by rw [slots, boot, slots']
    storedPatch := by rw [stored, boot, stored']
    power := by rw [entered.same .power (by decide), tested.rest.same .power (by decide)]; rfl
    master := by rw [entered.same .pcie (by decide), tested.master]; rfl
    failed := fun i hi low length => by
      have fails := State.selfTest_fails (s := s.patchEvents) hi low (by rw [noted.stalls]; exact low.trans_eq length.symm)
      rw [State.stall, entered.same .stalls (by decide)]
      exact fails }

/-! ## Module reset -/

/-- What a module reset brings back, and what stands (R386, R443). -/
structure State.ResetTo (s u : State) : Prop where
  mem : u.mem = { s.mem with classes := [] }
  flash : s.KeptInFlash u
  usec : u.usec = s.usec
  job : u.job = Job.reset
  cmds : u.cmds = []
  harbour : u.harbour = Harbour.reset
  run : u.run = Run.reset
  master : u.pcie.busMaster = false
  sqs : u.sqs = State.reset.sqs

theorem State.forget_resetTo (m : ModuleState) (domains : BitVec 99) (s : State) : s.ResetTo (s.forget m domains) :=
  ⟨rfl, ⟨rfl, rfl, rfl, rfl, rfl, rfl⟩, rfl, rfl, rfl, rfl, rfl, rfl, rfl⟩

theorem State.ResetTo.booted {s x u : State} {l : List Nat} (h : s.ResetTo x) (g : x.Booted l u) : s.ResetTo u where
  mem := (g.rest.same .mem (by decide)).trans h.mem
  flash := by
    obtain ⟨svn, slots, stored, own, partner, store⟩ := h.flash
    have journal := g.rest.same .journal (by decide)
    exact ⟨g.svn.trans svn, g.slots.trans slots, g.storedPatch.trans stored, (congrArg Journal.own journal).trans own,
      (congrArg Journal.partner journal).trans partner, (congrArg Snap.store (g.rest.same .snap (by decide))).trans store⟩
  usec := (g.rest.same .usec (by decide)).trans h.usec
  job := (g.rest.same .job (by decide)).trans h.job
  cmds := (g.rest.same .cmds (by decide)).trans h.cmds
  harbour := (g.rest.same .harbour (by decide)).trans h.harbour
  run := (g.rest.same .run (by decide)).trans h.run
  master := g.master.trans h.master
  sqs := (g.rest.same .sqs (by decide)).trans h.sqs

/-- A module reset before its boot goes on. -/
def State.heldInReset (s : State) : State := (s.forget .booting inertDomains).modPower fun p => { p with tripAlert := false }

theorem State.moduleReset_eq (l : List Nat) (s : State) :
    s.moduleReset l = if s.power.resetLow then s.heldInReset else s.heldInReset.finishBoot l := rfl

theorem State.heldInReset_resetTo (s : State) : s.ResetTo s.heldInReset :=
  ⟨rfl, ⟨rfl, rfl, rfl, rfl, rfl, rfl⟩, rfl, rfl, rfl, rfl, rfl, rfl, rfl⟩

theorem State.moduleReset_resetTo (l : List Nat) (s : State) :
    s.ResetTo (s.moduleReset l) ∧ (s.moduleReset l).mode = (if s.power.resetLow then .booting else .inert)
      ∧ (s.moduleReset l).power.resetLow = s.power.resetLow := by
  rw [State.moduleReset_eq]
  split
  · exact ⟨s.heldInReset_resetTo, rfl, rfl⟩
  · have booted := State.finishBoot_booted l s.heldInReset
    exact ⟨s.heldInReset_resetTo.booted booted, booted.mode, (congrArg Power.resetLow booted.power).trans rfl⟩

/-- A requested reset of a module that neither a run nor a harbour holds. -/
theorem State.requestReset_idle {s : State} (idle : s.inRun = false) (alone : s.harbour.joined = false) :
    s.ResetTo s.requestReset ∧ s.requestReset.mode = (if s.power.resetLow then .booting else .inert)
      ∧ s.requestReset.power.resetLow = s.power.resetLow := by
  have due : s.requestReset = (s.modBoot fun b => { b with resetDue := true }).settleReset := by
    unfold State.requestReset
    simp [idle, alone]
  have settles : (s.modBoot fun b => { b with resetDue := true }).settleReset
      = ((s.modBoot fun b => { b with resetDue := true }).takeFree.2).moduleReset (Config.bootStallFails s.freeCtr) := by
    unfold State.settleReset
    exact if_pos (by simpa [State.inRun] using idle)
  rw [due, settles]
  obtain ⟨reset, mode, low⟩ := State.moduleReset_resetTo (Config.bootStallFails s.freeCtr) (s.modBoot fun b => { b with resetDue := true }).takeFree.2
  exact ⟨⟨reset.mem, reset.flash, reset.usec, reset.job, reset.cmds, reset.harbour, reset.run, reset.master, reset.sqs⟩, mode, low⟩

/-! ## The host is gone -/

/-- No command is outstanding, and nothing goes to the host. -/
structure State.Hostless (s : State) : Prop where
  cmds : s.cmds = []
  master : s.pcie.busMaster = false

theorem State.Hostless.of_noted {s t : State} (h : s.Hostless) (g : s.Noted t) : t.Hostless :=
  ⟨g.cmds.trans h.cmds, by rw [g.pcie]; exact h.master⟩

/-- Without commands there is none to finish. -/
theorem State.Hostless.finish {s : State} (h : s.Hostless) (sq cid : Nat) (st : Status) (r0 r1 : Nat) : s.finish sq cid st r0 r1 = s := by
  unfold State.finish State.cmd?
  rw [h.cmds]
  rfl

theorem State.Hostless.releaseQuays {s : State} (h : s.Hostless) : s.releaseQuays.Hostless := by
  unfold State.releaseQuays
  refine foldl_inv (P := State.Hostless) (fun y w hy => ?_) _ ?_
  · have wrote : State.Hostless (y.modMem fun m => m.write w.2.addr w.2.data) := ⟨hy.cmds, hy.master⟩
    exact (wrote.of_noted (State.count_noted _ _ _)).of_noted (State.count_noted _ _ _)
  · have freed := foldl_inv (P := State.Hostless)
      (f := fun s c => s.setQuay c.1 fun x => { x with free := x.free + s.copyGranules c.1 c.2.1 })
      (fun y _ hy => ⟨hy.cmds, hy.master⟩) s.snap.copies h
    exact ⟨freed.cmds, freed.master⟩

theorem State.Hostless.abandonSnapshot {s : State} (h : s.Hostless) : s.abandonSnapshot.Hostless := by
  unfold State.abandonSnapshot
  split
  · exact h
  · refine foldl_inv (P := State.Hostless) (fun y r hy => by rw [hy.finish]; exact hy) _ ?_
    exact ⟨h.releaseQuays.cmds, h.releaseQuays.master⟩

theorem State.Hostless.snapWithoutHost {s : State} (h : s.Hostless) : s.snapWithoutHost.Hostless := by
  unfold State.snapWithoutHost
  dsimp only
  split
  · exact ⟨h.abandonSnapshot.cmds, h.abandonSnapshot.master⟩
  · exact ⟨h.cmds, h.master⟩

/-- A run that goes on without the host has lost nothing but the host. -/
theorem State.runWithoutHost_running {s : State} (h : s.Hostless) (running : s.runWithoutHost.inRun = true) : s.runWithoutHost.Hostless := by
  unfold State.runWithoutHost at running ⊢
  split
  · exact h
  next t table =>
    rw [table] at running
    dsimp only at running ⊢
    split_ifs at running ⊢
    · exact h
    · rw [State.inRun, State.moduleFault_mode] at running
      exact absurd running (by decide)
    · rw [State.inRun, State.endRun_mode] at running
      exact absurd running (by decide)
    · exact ⟨h.cmds, h.master⟩

/-- The queues and the commands are gone. -/
def State.queuesGone (s : State) : State :=
  let on := s.sqs.any (·.enable) || s.cqs.any (·.enable)
  let s := s.modPcie fun p => { p with busMaster := false }
  let s := if on then s.violation 9 none 0 0 0 else s
  ((s.modSqs fun l => l.map Sq.stop).modCqs fun l => l.map Cq.stop).modCmds fun _ => []

theorem State.hostGone_eq (s : State) : s.hostGone =
    (s.queuesGone.testsWithoutHost.snapWithoutHost.runWithoutHost).modJob fun j => { j with batches := j.batches.filter (·.inModule) } := rfl

theorem State.queuesGone_hostless (s : State) : s.queuesGone.Hostless := by
  refine ⟨rfl, ?_⟩
  unfold State.queuesGone
  dsimp only
  rw [State.modCmds_pcie, State.modCqs_pcie, State.modSqs_pcie]
  split
  · rw [((s.modPcie fun p => { p with busMaster := false }).violation_noted 9 none 0 0 0).pcie]
    rfl
  · rfl

theorem State.hostGone_running {s : State} (running : s.hostGone.inRun = true) : s.hostGone.Hostless := by
  have tests : s.queuesGone.testsWithoutHost.Hostless := ⟨s.queuesGone_hostless.cmds, s.queuesGone_hostless.master⟩
  have run := State.runWithoutHost_running tests.snapWithoutHost running
  exact ⟨run.cmds, run.master⟩

/-- A reset that is due comes at once, unless a run still waits for its slack water. -/
theorem State.settleReset_due {s : State} (due : s.boot.resetDue = true) (running : s.inRun = true → s.Hostless) : s.settleReset.Hostless := by
  unfold State.settleReset
  rw [due]
  split
  · obtain ⟨reset, -⟩ := State.moduleReset_resetTo (Config.bootStallFails s.takeFree.1) s.takeFree.2
    exact ⟨reset.cmds, reset.master⟩
  next waits => exact running (by simpa using waits)

/-- What follows the loss of the host where a reset is requested in a run. -/
def State.resetAsked (y : State) : State :=
  ((if y.harbour.joined && !y.inRun && y.mode != .faulted then y.depart else y).modBoot fun b => { b with resetDue := true }).settleReset

theorem State.requestReset_eq {s : State} (running : s.inRun = true) : s.requestReset = s.hostGone.resetQueues.resetAsked := by
  unfold State.requestReset State.resetAsked
  rw [running]
  rfl

theorem State.resetAsked_hostless {y : State} (running : y.inRun = true → y.Hostless) : y.resetAsked.Hostless := by
  unfold State.resetAsked
  split
  · refine State.settleReset_due rfl fun still => ?_
    rw [State.inRun, State.modBoot_boot, y.depart_left.1] at still
    exact absurd still (by decide)
  · exact State.settleReset_due rfl fun still => ⟨(running still).cmds, (running still).master⟩

theorem State.resetQueues_inRun (s : State) : s.resetQueues.inRun = s.inRun := rfl

theorem State.Hostless.resetQueues {s : State} (h : s.Hostless) : s.resetQueues.Hostless := ⟨h.cmds, h.master⟩

theorem State.requestReset_running {s : State} (running : s.inRun = true) : s.requestReset.Hostless := by
  rw [State.requestReset_eq running]
  exact State.resetAsked_hostless fun still => (State.hostGone_running (s.hostGone.resetQueues_inRun.symm.trans still)).resetQueues

/-- Settles O37: the key and RESET_N low request the same reset; RESET_N high lets the boot go on. -/
theorem moduleResetForgets : Obligations.ModuleResetForgets := by
  unfold Obligations.ModuleResetForgets
  intro s
  dsimp only
  refine ⟨fun takes idle alone => ⟨_, onWrite_eq takes _, ?_, ?_⟩, fun takes running => ⟨_, onWrite_eq takes _, ?_⟩,
    fun present takes idle alone => ⟨(s.modPower fun p => { p with resetLow := true }).requestReset, ?_, ?_⟩,
    fun l => ⟨fun booting length => ⟨(s.modPower fun p => { p with resetLow := false }).finishBoot l, ?_, ?_⟩, fun other => ?_⟩⟩
  · obtain ⟨reset, -⟩ := State.requestReset_idle idle alone
    exact ⟨reset.mem, reset.flash, reset.usec, reset.job, reset.cmds, reset.harbour, reset.run, reset.master, reset.sqs⟩
  · exact (State.requestReset_idle idle alone).2.1
  · exact ⟨(State.requestReset_running running).cmds, (State.requestReset_running running).master⟩
  · refine congrArg Host.Outcome.next ?_
    show s.resetNLow = _
    unfold State.resetNLow
    rw [if_neg (by simp [present])]
    exact if_pos takes
  · obtain ⟨reset, mode, low⟩ := State.requestReset_idle (s := s.modPower fun p => { p with resetLow := true }) idle alone
    exact ⟨⟨reset.mem, reset.flash, reset.usec, reset.job, reset.cmds, reset.harbour, reset.run, reset.master, reset.sqs⟩, mode, low⟩
  · exact congrArg Host.Outcome.next (if_pos (beq_iff_eq.mpr booting))
  · have booted := State.finishBoot_booted l (s.modPower fun p => { p with resetLow := false })
    have journal := booted.rest.same .journal (by decide)
    exact ⟨booted.mode, by rw [booted.power]; rfl, by rw [booted.power], by rw [booted.power], booted.rest.same .mem (by decide),
      ⟨booted.svn, booted.slots, booted.storedPatch, congrArg Journal.own journal, congrArg Journal.partner journal,
        congrArg Snap.store (booted.rest.same .snap (by decide))⟩, fun i hi low => booted.failed i hi low length⟩
  · exact congrArg Host.Outcome.next (if_neg fun h => other (beq_iff_eq.mp h))

end Sys2Proof.Machine

/-! PROOF. The host goes away, and the 50 V input (R333, R350, R380, R382, R413, R433, R440, R471). -/

namespace Sys2Proof.Machine

/-! ## Notes without Bus Master Enable -/

/-- Without Bus Master Enable no vector becomes pending. -/
def State.Quiet (s t : State) : Prop := s.pcie.busMaster = false → t.pcie = s.pcie

theorem quiet_trans {s x t : State} (h : s.Quiet x) (g : x.Quiet t) : s.Quiet t :=
  fun off => (g (by rw [h off]; exact off)).trans (h off)

theorem State.msix_quiet (v : Nat) (s : State) : s.Quiet (s.msix v) := by
  intro off
  unfold State.msix
  rw [off]
  rfl

theorem State.enterRecord_quiet (code kind index : Nat) (detail : Bytes) (s : State) : s.Quiet (s.enterRecord code kind index detail) := by
  have lost : s.countLoss.pcie = s.pcie := (State.countLoss_noted s).only |> fun h => by
    unfold State.countLoss
    split <;> rfl
  intro off
  unfold State.enterRecord State.signalLog
  split
  · exact (State.msix_quiet _ _ (by simpa [lost] using off)).trans lost
  · exact lost

theorem State.raise_quiet (code kind index : Nat) (fs : List (Nat × Nat × Nat)) (s : State) : s.Quiet (s.raise code kind index fs) := by
  have first := s.enterRecord_quiet code kind index (eventDetail fs)
  unfold State.raise
  split
  · exact quiet_trans first (State.enterRecord_quiet _ _ _ _ _)
  · exact first

theorem State.count_quiet (o n : Nat) (s : State) : s.Quiet (s.count o n) := by
  unfold State.count
  split
  · exact quiet_trans (x := s.modTm (Telemetry.add o n)) (fun _ => rfl) (State.raise_quiet _ _ _ _ _)
  · exact fun _ => rfl

theorem State.violation_quiet (cls : Nat) (queue : Option Nat) (opcode cid addr : Nat) (s : State) :
    s.Quiet (s.violation cls queue opcode cid addr) := by
  have first := s.count_quiet (evViolationAt cls) 1
  obtain e | ⟨f, kind, index, fs, e⟩ := s.violation_eq cls queue opcode cid addr
  · rwa [e]
  · rw [e]
    exact quiet_trans first (quiet_trans (x := (s.count (evViolationAt cls) 1).modLog _) (fun _ => rfl) (State.raise_quiet _ _ _ _ _))

/-! ## The host goes away -/

/-- What is gone with the host, where no run and no drain is in progress. -/
structure State.HostLeft (s u : State) : Prop where
  cmds : u.cmds = []
  pcie : u.pcie = { s.pcie with busMaster := false }
  sqs : u.sqs = s.sqs.map Sq.stop
  cqs : u.cqs = s.cqs.map Cq.stop
  mem : u.mem = s.mem
  boot : u.boot = s.boot
  run : u.run = s.run
  journal : u.journal = s.journal
  power : u.power = s.power
  job : u.job = { s.job with batches := s.job.batches.filter (·.inModule) }

/-- What the loss of the queues leaves, before the drain, the run and the batches. -/
structure State.QueuesLeft (s u : State) : Prop where
  cmds : u.cmds = []
  pcie : u.pcie = { s.pcie with busMaster := false }
  sqs : u.sqs = s.sqs.map Sq.stop
  cqs : u.cqs = s.cqs.map Cq.stop
  mem : u.mem = s.mem
  boot : u.boot = s.boot
  run : u.run = s.run
  journal : u.journal = s.journal
  power : u.power = s.power
  job : u.job = s.job
  snap : u.snap = s.snap

theorem State.queuesGone_left (s : State) : s.QueuesLeft s.queuesGone := by
  have left : ∀ y : State, State.Noted { s with pcie := { s.pcie with busMaster := false } } y → y.pcie = { s.pcie with busMaster := false } →
      s.QueuesLeft (((y.modSqs fun l => l.map Sq.stop).modCqs fun l => l.map Cq.stop).modCmds fun _ => []) := fun y noted pcie =>
    ⟨rfl, pcie, congrArg (List.map Sq.stop) noted.sqs, congrArg (List.map Cq.stop) noted.cqs, noted.mem, noted.boot, noted.run,
      noted.journal, noted.power, noted.job, noted.snap⟩
  unfold State.queuesGone
  dsimp only
  split
  · exact left _ (State.violation_noted _ _ _ _ _ _) (State.violation_quiet 9 none 0 0 0 _ rfl)
  · exact left _ (noted_refl _) rfl

theorem State.snapWithoutHost_idle {s : State} (idle : s.snap.draining = false) :
    s.snapWithoutHost = s.modSnap fun x => { x with requests := [], serving := [] } := by
  unfold State.snapWithoutHost
  dsimp only
  split
  · rw [State.abandonSnapshot_of_idle idle]
  · rfl

theorem State.runWithoutHost_idle {s : State} (idle : s.inRun = false) : s.runWithoutHost = s := by
  unfold State.runWithoutHost
  split
  · rfl
  · rw [if_pos (by simp [idle])]

theorem State.hostGone_left {s : State} (idle : s.inRun = false) (still : s.snap.draining = false) : s.HostLeft s.hostGone := by
  obtain ⟨cmds, pcie, sqs, cqs, mem, boot, run, journal, power, job, snap⟩ := s.queuesGone_left
  rw [State.hostGone_eq]
  generalize s.queuesGone = y at *
  have drained : y.testsWithoutHost.snapWithoutHost = y.testsWithoutHost.modSnap fun x => { x with requests := [], serving := [] } :=
    State.snapWithoutHost_idle ((congrArg Snap.draining snap).trans still)
  have ran : (y.testsWithoutHost.modSnap fun x => { x with requests := [], serving := [] }).runWithoutHost
      = y.testsWithoutHost.modSnap fun x => { x with requests := [], serving := [] } :=
    State.runWithoutHost_idle ((congrArg (fun b : Boot => b.mode == .running || b.mode == .slack) boot).trans idle)
  rw [drained, ran]
  exact ⟨cmds, pcie, sqs, cqs, mem, boot, run, journal, power, congrArg (fun j : Job => { j with batches := j.batches.filter (·.inModule) }) job⟩

theorem State.settleReset_none {s : State} (none : s.boot.resetDue = false) : s.settleReset = s := by
  unfold State.settleReset
  rw [none]
  rfl

theorem getD_map_stop (q : Nat) (l : List Sq) : (l.map Sq.stop).getD q Sq.reset = (l.getD q Sq.reset).stop := by
  rw [List.getD_eq_getElem?_getD, List.getD_eq_getElem?_getD, List.getElem?_map]
  cases l[q]? <;> rfl

theorem getD_map_stop_cq (q : Nat) (l : List Cq) : (l.map Cq.stop).getD q Cq.reset = (l.getD q Cq.reset).stop := by
  rw [List.getD_eq_getElem?_getD, List.getD_eq_getElem?_getD, List.getElem?_map]
  cases l[q]? <;> rfl

theorem State.HostLeft.sq {s u : State} (h : s.HostLeft u) (q : Nat) : u.sq q = (s.sq q).stop := by
  rw [State.sq, h.sqs]
  exact getD_map_stop q s.sqs

theorem State.HostLeft.cq {s u : State} (h : s.HostLeft u) (q : Nat) : u.cq q = (s.cq q).stop := by
  rw [State.cq, h.cqs]
  exact getD_map_stop_cq q s.cqs

theorem getD_replicate_self {α : Type} (n q : Nat) (a : α) : (List.replicate n a).getD q a = a := by
  rw [List.getD_eq_getElem?_getD, List.getElem?_replicate]
  split <;> rfl

/-- Queues at their reset values are disabled. -/
theorem reset_queues_off {s : State} (hs : s.sqs = State.reset.sqs) (hc : s.cqs = State.reset.cqs) (q : Nat) :
    (s.sq q).enable = false ∧ (s.cq q).enable = false := by
  rw [State.sq, State.cq, hs, hc]
  exact ⟨congrArg Sq.enable (getD_replicate_self 16 q Sq.reset), congrArg Cq.enable (getD_replicate_self 16 q Cq.reset)⟩

theorem linkRate_mem : ∀ r : Fin 5, [25, 50, 80, 160, 320].getD r.val 320 ∈ [25, 50, 80, 160, 320] := by decide
theorem linkLanes_mem : ∀ r : Fin 3, [1, 2, 4].getD r.val 4 ∈ [1, 2, 4] := by decide

/-- What is gone with the host, as the two resets of the function leave it. -/
theorem State.HostLeft.gone {s u : State} (h : s.HostLeft u) : u.cmds = [] ∧ u.pcie.busMaster = false
    ∧ (∀ q, (u.sq q).enable = false ∧ (u.cq q).enable = false) ∧ u.mem = s.mem ∧ u.boot = s.boot ∧ u.run = s.run
    ∧ u.journal = s.journal ∧ u.power = s.power ∧ u.job = { s.job with batches := s.job.batches.filter (·.inModule) } :=
  ⟨h.cmds, by rw [h.pcie], fun q => ⟨by rw [h.sq]; rfl, by rw [h.cq]; rfl⟩, h.mem, h.boot, h.run, h.journal, h.power, h.job⟩

/-- What is left once the host has gone and the queue registers are reset. -/
structure State.HostReset (s u : State) : Prop where
  rest : Only [.pcie, .sqs, .cqs, .log, .tm, .snap] s u
  master : u.pcie.busMaster = s.pcie.busMaster
  sqs : u.sqs = State.reset.sqs
  cqs : u.cqs = State.reset.cqs

theorem State.resetQueues_hostReset (s : State) : s.HostReset s.resetQueues :=
  ⟨State.resetQueues_only (by decide) (only_refl _ s), rfl, rfl, rfl⟩

theorem State.resetHostRegs_sqs (s : State) : s.resetHostRegs.sqs = s.sqs := rfl
theorem State.resetHostRegs_cqs (s : State) : s.resetHostRegs.cqs = s.cqs := rfl
theorem State.resetHostRegs_pcie (s : State) : s.resetHostRegs.pcie = s.pcie := rfl

theorem State.HostReset.regs {s u : State} (h : s.HostReset u) : s.HostReset u.resetHostRegs :=
  ⟨State.resetHostRegs_only (by decide) h.rest, (congrArg Pcie.busMaster u.resetHostRegs_pcie).trans h.master,
    u.resetHostRegs_sqs.trans h.sqs, u.resetHostRegs_cqs.trans h.cqs⟩

theorem State.HostLeft.reset {s y u : State} (h : s.HostLeft y) (r : y.HostReset u) : u.cmds = [] ∧ u.pcie.busMaster = false
    ∧ (∀ q, (u.sq q).enable = false ∧ (u.cq q).enable = false) ∧ u.mem = s.mem ∧ u.boot = s.boot ∧ u.run = s.run
    ∧ u.journal = s.journal ∧ u.power = s.power ∧ u.job = { s.job with batches := s.job.batches.filter (·.inModule) } :=
  ⟨(r.rest.same .cmds (by decide)).trans h.cmds, by rw [r.master, h.pcie], reset_queues_off r.sqs r.cqs,
    (r.rest.same .mem (by decide)).trans h.mem, (r.rest.same .boot (by decide)).trans h.boot, (r.rest.same .run (by decide)).trans h.run,
    (r.rest.same .journal (by decide)).trans h.journal, (r.rest.same .power (by decide)).trans h.power,
    (r.rest.same .job (by decide)).trans h.job⟩

theorem State.functionReset_gone {s : State} (h : s.HostLeft s.hostGone) : s.functionReset.cmds = [] ∧ s.functionReset.pcie.busMaster = false
    ∧ (∀ q, (s.functionReset.sq q).enable = false ∧ (s.functionReset.cq q).enable = false) ∧ s.functionReset.mem = s.mem
    ∧ s.functionReset.boot = s.boot ∧ s.functionReset.run = s.run ∧ s.functionReset.journal = s.journal ∧ s.functionReset.power = s.power
    ∧ s.functionReset.job = { s.job with batches := s.job.batches.filter (·.inModule) } :=
  h.reset s.hostGone.resetQueues_hostReset.regs

/-- The registers of the queues, of the window and of the vectors, as the two resets leave them. -/
def State.QueueRegsReset (u : State) : Prop :=
  u.sqs = State.reset.sqs ∧ u.cqs = State.reset.cqs ∧ u.pcie.bwBase = 0 ∧ u.pcie.msix = Pcie.reset.msix ∧ u.pcie.msixPend = []

theorem State.resetQueues_regs (s : State) : s.resetQueues.QueueRegsReset := ⟨rfl, rfl, rfl, rfl, rfl⟩

theorem State.resetHostRegs_reset (s : State) : s.resetHostRegs.log.intEn = false ∧ s.resetHostRegs.log.vector = 0
    ∧ s.resetHostRegs.log.alertMask = 0x1FF ∧ s.resetHostRegs.log.ack = s.resetHostRegs.log.headSeq ∧ s.resetHostRegs.tm.frozen = false
    ∧ s.resetHostRegs.snap.hostBase = 0 ∧ s.resetHostRegs.snap.hostLen = 0 :=
  ⟨rfl, rfl, rfl, rfl, rfl, rfl, rfl⟩

theorem State.QueueRegsReset.regs {u : State} (h : u.QueueRegsReset) : u.resetHostRegs.QueueRegsReset := by
  obtain ⟨sqs, cqs, base, msix, pend⟩ := h
  exact ⟨sqs, cqs, base, msix, pend⟩

theorem State.functionReset_regs (s : State) : s.functionReset.QueueRegsReset := by
  unfold State.functionReset
  exact s.hostGone.resetQueues_regs.regs

/-- PERST# resets the function with its configuration space. -/
theorem State.perstOn_eq {s : State} (awake : s.mode ≠ .standby) :
    s.perstOn = (s.modPcie fun p => { p with perst := true, config := PciConfig.reset }).hostGone.resetQueues.settleReset := by
  unfold State.perstOn
  dsimp only
  rw [if_neg]
  intro standby
  exact awake (beq_iff_eq.mp standby)

theorem State.perstOff_dark {s : State} (dark : s.pcie.perst = false ∨ s.mode = .standby) :
    s.perstOff = s.modPcie fun p => { p with perst := false } := by
  unfold State.perstOff
  dsimp only
  rw [if_pos]
  simpa using dark

theorem State.perstOff_trains {s : State} (held : s.pcie.perst = true) (awake : s.mode ≠ .standby) :
    s.perstOff = (s.modPcie fun p => { p with perst := false }).trainLink := by
  unfold State.perstOff
  dsimp only
  rw [if_neg]
  simp [held, awake]

/-- Settles O38: outside a run and a drain the host takes with it its queues, its commands and its batches. -/
theorem theHostGoesAway : Obligations.TheHostGoesAway := by
  unfold Obligations.TheHostGoesAway
  intro s none idle still
  dsimp only
  have left := State.hostGone_left idle still
  have settled : ∀ x : State, x.boot = s.boot → x.settleReset = x := fun x h => State.settleReset_none (by rw [h]; exact none)
  refine ⟨fun master => ⟨s.hostGone, ?_, left.gone, fun q => ⟨left.sq q, left.cq q⟩, left.pcie⟩,
    fun reaches => ⟨s.functionReset, ?_, ?_, State.functionReset_gone left, s.functionReset_regs,
      s.hostGone.resetQueues.resetHostRegs_reset⟩,
    fun awake => ?_, fun dark => ?_, fun held awake => ?_⟩
  · exact congrArg Host.Outcome.next ((if_pos master).trans (settled _ left.boot))
  · exact congrArg Host.Outcome.next ((if_pos reaches).trans (settled _ (State.functionReset_gone left).2.2.2.2.1))
  · exact congrArg Host.Outcome.next ((if_pos reaches).trans (settled _ (State.functionReset_gone left).2.2.2.2.1))
  · have left' := State.hostGone_left (s := s.modPcie fun p => { p with perst := true, config := PciConfig.reset }) idle still
    generalize hy : (s.modPcie fun p => { p with perst := true, config := PciConfig.reset }).hostGone = y at left'
    have gone := left'.reset y.resetQueues_hostReset
    refine ⟨y.resetQueues, congrArg Host.Outcome.next ?_, gone, y.resetQueues_regs, ?_, ?_⟩
    · exact (State.perstOn_eq awake).trans (by rw [hy]; exact settled _ gone.2.2.2.2.1)
    · exact (congrArg Pcie.perst left'.pcie).trans rfl
    · exact (congrArg Pcie.config left'.pcie).trans rfl
  · exact congrArg Host.Outcome.next (State.perstOff_dark dark)
  · exact ⟨_, congrArg Host.Outcome.next (State.perstOff_trains held awake), rfl, rfl, linkRate_mem _, linkLanes_mem _⟩

end Sys2Proof.Machine

/-! PROOF. The 50 V input comes up and goes down (R333, R334, R413, R433, R440, R471). -/

namespace Sys2Proof.Machine

/-! ## The input comes up -/

/-- The state in which the start from STANDBY leaves the module before its boot: in BOOTING, its link trained. -/
def State.startedUp (s : State) : State :=
  if (s.forget .booting inertDomains).pcie.perst then s.forget .booting inertDomains else (s.forget .booting inertDomains).trainLink

theorem State.startUp_eq (l : List Nat) (s : State) :
    s.startUp l = if s.startedUp.power.resetLow then s.startedUp else s.startedUp.finishBoot l := rfl

theorem State.startedUp_only (s : State) : Only [.freeCtr, .pcie] (s.forget .booting inertDomains) s.startedUp := by
  unfold State.startedUp
  split
  · exact only_refl _ _
  · exact State.trainLink_only (by decide) (only_refl _ _)

theorem State.KeptInFlash.of_only {s x u : State} {ks : List Part} (h : s.KeptInFlash x) (g : Only ks x u)
    (boot : Part.boot ∉ ks := by decide) (journal : Part.journal ∉ ks := by decide) (snap : Part.snap ∉ ks := by decide) :
    s.KeptInFlash u := by
  obtain ⟨svn, slots, stored, own, partner, store⟩ := h
  have b := g.same .boot boot
  have j := g.same .journal journal
  exact ⟨(congrArg Boot.svn b).trans svn, (congrArg Boot.slots b).trans slots, (congrArg Boot.storedPatch b).trans stored,
    (congrArg Journal.own j).trans own, (congrArg Journal.partner j).trans partner,
    (congrArg Snap.store (g.same .snap snap)).trans store⟩

theorem State.KeptInFlash.booted {s x u : State} {l : List Nat} (h : s.KeptInFlash x) (g : x.Booted l u) : s.KeptInFlash u := by
  obtain ⟨svn, slots, stored, own, partner, store⟩ := h
  have journal := g.rest.same .journal (by decide)
  exact ⟨g.svn.trans svn, g.slots.trans slots, g.storedPatch.trans stored, (congrArg Journal.own journal).trans own,
    (congrArg Journal.partner journal).trans partner, (congrArg Snap.store (g.rest.same .snap (by decide))).trans store⟩

/-- What the start from STANDBY leaves, whether RESET_N lets the boot go on or not. -/
structure State.Started (l : List Nat) (s u : State) : Prop where
  mode : u.mode = if s.power.resetLow then .booting else .inert
  domains : u.power.domains = inertDomains
  pwrEn : u.power.pwrEn = s.power.pwrEn
  cap : u.power.cap = 1000
  usec : u.usec = s.usec
  flash : s.KeptInFlash u
  failed : s.power.resetLow = false → ∀ i ∈ l, i < 256 → (u.stall i).state = 4

theorem State.startUp_started (l : List Nat) (s : State) : s.Started l (s.startUp l) := by
  have rest := s.startedUp_only
  have power : s.startedUp.power = (s.forget .booting inertDomains).power := rest.same .power (by decide)
  have flash : s.KeptInFlash s.startedUp := State.KeptInFlash.of_only (s.forget_resetTo .booting inertDomains).flash rest
  have low : s.startedUp.power.resetLow = s.power.resetLow := (congrArg Power.resetLow power).trans rfl
  have usec : s.startedUp.usec = s.usec := rest.same .usec (by decide)
  rw [State.startUp_eq, low]
  split
  next held =>
    exact ⟨by rw [if_pos held]; exact congrArg Boot.mode (rest.same .boot (by decide)), congrArg Power.domains power,
      (congrArg Power.pwrEn power).trans rfl, congrArg Power.cap power, usec, flash, fun free => absurd held (by simp [free])⟩
  next free =>
    have booted := State.finishBoot_booted l s.startedUp
    have length : s.startedUp.stalls.length = 256 := (congrArg List.length (rest.same .stalls (by decide))).trans List.length_replicate
    exact ⟨by rw [if_neg free]; exact booted.mode, by rw [booted.power], by rw [booted.power]; exact (congrArg Power.pwrEn power).trans rfl,
      by rw [booted.power]; exact congrArg Power.cap power, (booted.rest.same .usec (by decide)).trans usec,
      flash.booted booted, fun _ i hi low => booted.failed i hi low length⟩

/-- Settles O39: both starts are a reset of what is not in the flash, and the second goes on to a boot. -/
theorem theInputComesUp : Obligations.TheInputComesUp := by
  unfold Obligations.TheInputComesUp
  intro s mv straps l
  refine ⟨fun absent high => ?_, fun standby present low high => ?_, fun low => ?_, fun present high => ?_⟩
  · have up : (s.power.present || Decidable.decide (mv < amrathMv)) = false := by
      rw [absent, Bool.false_or, decide_eq_false_iff_not, Nat.not_lt]
      exact high
    refine ⟨_, congrArg Host.Outcome.next (if_neg (by rw [up]; decide)), rfl, rfl, rfl, rfl, rfl, rfl, rfl, rfl, rfl, ?_⟩
    exact ⟨rfl, rfl, rfl, rfl, rfl, rfl⟩
  · have started := State.startUp_started l (s.modPower fun p => { p with pwrEn := true, inputMv := mv, undervolt := false })
    refine ⟨_, congrArg Host.Outcome.next (if_neg ?_), started.mode, started.domains, started.pwrEn, started.cap, started.usec,
      started.flash, started.failed⟩
    have stands : s.boot.mode = .standby := standby
    rw [State.mode, stands, present]
    simp only [Bool.or_eq_true, decide_eq_true_eq]
    simp [startMv, overMv]
    omega
  · refine congrArg Host.Outcome.next (if_pos ?_)
    simp [startMv, low]
  · refine congrArg Host.Outcome.next (if_neg ?_)
    rw [present]
    simp only [Bool.or_eq_true, decide_eq_true_eq]
    simp [warningClearMv]
    omega

/-! ## The input goes down -/

/-- Only the powered domains of the supply differ. -/
def State.SameInput (s t : State) : Prop := t.power = { s.power with domains := t.power.domains }

theorem sameInput_refl (s : State) : s.SameInput s := rfl

theorem sameInput_trans {s x t : State} (h : s.SameInput x) (g : x.SameInput t) : s.SameInput t := by
  unfold State.SameInput at *
  rw [g, h]

theorem sameInput_of_eq {s t : State} (h : t.power = s.power) : s.SameInput t := by
  unfold State.SameInput
  rw [h]

theorem State.capChanged_sameInput {f : State → State} {s : State} (h : s.SameInput (f s)) : s.SameInput (s.capChanged f) := by
  have rest := State.capChanged_only (ks := [.out, .pcie, .log, .tm, .stalls]) (s := f s) (fun _ => f s) (fun _ _ => only_refl _ _)
    (by decide) (only_refl _ (f s))
  unfold State.capChanged at rest ⊢
  have retuned : Only [.out, .pcie, .log, .tm, .stalls] (f s) (f s).retuneStalls := State.retuneStalls_only (by decide) (only_refl _ _)
  refine sameInput_trans h (sameInput_of_eq ?_)
  dsimp only
  split
  · exact (State.capThrottleEvent_only (by decide) retuned).same .power (by decide)
  · exact retuned.same .power (by decide)

theorem State.engines_sameInput (on : Bool) (ps : List Nat) (s : State) : s.SameInput (s.engines on ps) := by
  have step : ∀ (y : State) (h : Nat), s.SameInput y →
      s.SameInput (y.switch ((List.range 8).any fun p => portHall p == h && y.powered (engineDomain p)) [opticsDomain h]) :=
    fun _ _ h => sameInput_trans h rfl
  exact State.capChanged_sameInput (foldl_inv step [0, 1] rfl)

theorem State.darkRestore_sameInput (s : State) : s.SameInput s.darkRestore := by
  unfold State.darkRestore
  split
  · exact sameInput_refl s
  · split
    · exact sameInput_refl s
    · exact sameInput_trans (x := s.setPort _ _) rfl (State.engines_sameInput _ _ _)

theorem State.darkTest_sameInput (s : State) : s.SameInput s.darkTest :=
  State.capChanged_sameInput (f := fun s => s.switch false _) rfl

theorem State.abortTests_sameInput (s : State) : s.SameInput s.abortTests := by
  unfold State.abortTests
  dsimp only
  have ends : ∀ (l : List TestReq) (x : State), s.SameInput x →
      s.SameInput (l.foldl (fun s r => s.finish r.sq r.cid .aborted (if r.running then 1 else 0) 0)
        (x.modTest fun t => { t with active := false, queue := [] })) := fun l x h =>
    foldl_inv (P := s.SameInput) (fun y r hy => sameInput_trans hy (sameInput_of_eq
      ((State.finish_only _ _ _ _ _ (List.Subset.refl _) (only_refl _ y)).same .power (by decide)))) l h
  refine ends _ _ ?_
  split
  · exact sameInput_refl s
  · refine sameInput_trans s.darkTest_sameInput (sameInput_of_eq ?_)
    exact (State.abortEntry_only (ks := [.out, .freeCtr, .test, .stalls]) _ (by decide)
      (State.unmarkTested_only (by decide) (only_refl _ _))).same .power (by decide)

theorem State.enter_resetDue (m : ModuleState) (s : State) : (s.enter m).boot.resetDue = s.boot.resetDue := by
  unfold State.enter
  split <;> rfl

theorem State.enter_boot_congr {s t : State} (m : ModuleState) (h : s.boot = t.boot) : (s.enter m).boot = (t.enter m).boot := by
  unfold State.enter
  rw [h]
  split
  · exact h
  · rw [State.modBoot_boot, State.modBoot_boot, h]

/-- The end of a run touches nothing of the boot but the mode. -/
theorem State.endRun_boot (st : Status) (m : ModuleState) (s : State) : (s.endRun st m).boot = (s.enter m).boot := by
  have ends : Only [.out, .pcie, .cqs, .cmds, .log, .tm, .test] (s.finishRuns st)
      ((s.finishRuns st).finishServes st).finishHalts.dropDeferredTests :=
    State.dropDeferredTests_only (by decide) (State.finishHalts_only (by decide) (State.finishServes_only st (by decide) (only_refl _ _)))
  have boot := (ends.same .boot (by decide)).trans (s.finishRuns_reported st).boot
  unfold State.endRun
  dsimp only
  generalize (((s.finishRuns st).finishServes st).finishHalts.dropDeferredTests) = x at boot
  refine State.enter_boot_congr m (Eq.trans ?_ boot)
  rw [State.idleStalls, State.modStalls_boot, State.modHarbour_boot, State.modRun_boot]

/-- What ends with the entry into FAULTED, before the run does. -/
def State.faultEnds (s : State) : State :=
  ((s.darkRestore.abandonSnapshot.abortTests.dropCommit).dropSnapshots .fault).faultOthers

theorem State.enterFaulted_eq (s : State) : s.enterFaulted = (s.faultEnds.endRun .fault .faulted).modHarbour fun h =>
    { h with joining := none, leaving := none, restore := none, inCensus := false } := rfl

theorem State.faultEnds_kept_input (s : State) : s.SameInput s.faultEnds ∧ s.faultEnds.boot = s.boot := by
  have dark : Only [.out, .power, .pcie, .log, .tm, .stalls, .ports] s s.darkRestore := State.darkRestore_only (by decide) (only_refl _ s)
  have snap : Only [.out, .pcie, .cqs, .cmds, .log, .tm, .mem, .quays, .snap] s.darkRestore s.darkRestore.abandonSnapshot :=
    State.abandonSnapshot_only (by decide) (only_refl _ _)
  have tests := State.abortTests_only (List.Subset.refl _) (only_refl _ s.darkRestore.abandonSnapshot)
  have others : Only [.out, .pcie, .cqs, .cmds, .log, .tm, .snap, .journal] s.darkRestore.abandonSnapshot.abortTests s.faultEnds :=
    State.faultOthers_only (by decide) (State.dropSnapshots_only _ (by decide) (State.dropCommit_only (by decide) (only_refl _ _)))
  have input := sameInput_trans (sameInput_of_eq (snap.same .power (by decide))) (State.abortTests_sameInput _)
  exact ⟨sameInput_trans s.darkRestore_sameInput (sameInput_trans input (sameInput_of_eq (others.same .power (by decide)))),
    (others.same .boot (by decide)).trans ((tests.same .boot (by decide)).trans ((snap.same .boot (by decide)).trans
      (dark.same .boot (by decide))))⟩

/-- Entering FAULTED keeps what the input side holds, and of the boot all but the mode. -/
theorem State.enterFaulted_kept_input (s : State) : s.SameInput s.enterFaulted ∧ s.enterFaulted.boot = (s.enter .faulted).boot := by
  obtain ⟨input, boot⟩ := s.faultEnds_kept_input
  have ended := State.endRun_only .fault .faulted (List.Subset.refl _) (only_refl _ s.faultEnds)
  rw [State.enterFaulted_eq, State.modHarbour_boot, State.endRun_boot]
  refine ⟨sameInput_trans input (sameInput_of_eq ?_), State.enter_boot_congr .faulted boot⟩
  rw [State.modHarbour_power]
  exact ended.same .power (by decide)

/-- What happens before a power failure enters FAULTED. -/
def State.powerFailing (mv : Nat) (s : State) : State :=
  ((if s.harbour.decided then s else if s.stepOpen then s.abandonAttempt else s).sealCommit.sendFault).powerFailRecord mv

theorem State.powerFail_eq (mv : Nat) (s : State) : s.powerFail mv = (s.powerFailing mv).enterFaulted := rfl

theorem State.powerFail_mode (mv : Nat) (s : State) : (s.powerFail mv).mode = .faulted := State.enterFaulted_mode _

theorem State.powerFailing_only (mv : Nat) (s : State) :
    Only [.out, .freeCtr, .pcie, .cqs, .cmds, .log, .tm, .job, .run, .stalls, .snap, .journal, .harbour, .ports] s (s.powerFailing mv) := by
  have open' : Only [.out, .pcie, .cmds, .log, .tm, .run, .stalls, .harbour] s
      (if s.harbour.decided then s else if s.stepOpen then s.abandonAttempt else s) := by
    split
    · exact only_refl _ s
    · split
      · exact State.abandonAttempt_only (List.Subset.refl _) (only_refl _ s)
      · exact only_refl _ s
  exact State.powerFailRecord_only mv (by decide) (State.sendFault_only (by decide) (State.sealCommit_only (by decide)
    (only_mono open' (by decide))))

/-- A power failure keeps what the input side holds, and of the boot all but the mode. -/
theorem State.powerFail_kept_input (mv : Nat) (s : State) :
    s.SameInput (s.powerFail mv) ∧ (s.powerFail mv).boot = (s.enter .faulted).boot := by
  have failing := s.powerFailing_only mv
  obtain ⟨input, due⟩ := (s.powerFailing mv).enterFaulted_kept_input
  rw [State.powerFail_eq]
  exact ⟨sameInput_trans (sameInput_of_eq (failing.same .power (by decide))) input,
    due.trans (State.enter_boot_congr .faulted (failing.same .boot (by decide)))⟩

/-- In STANDBY nothing of the piles and of the job is left. -/
structure State.Dark (s : State) : Prop where
  mode : s.mode = .standby
  domains : s.power.domains = standbyDomains
  mem : s.mem = Mem.reset
  job : s.job = Job.reset
  cmds : s.cmds = []

theorem State.toStandby_eq {s : State} (awake : s.mode ≠ .standby) :
    s.toStandby = { s.forget .standby standbyDomains with mem := Mem.reset } := if_neg fun h => awake (beq_iff_eq.mp h)

theorem State.toStandby_dark {s : State} (awake : s.mode ≠ .standby) : s.toStandby.Dark := by
  rw [State.toStandby_eq awake]
  exact ⟨rfl, rfl, rfl, rfl, rfl⟩

theorem State.toStandby_flash {s : State} (awake : s.mode ≠ .standby) : s.KeptInFlash s.toStandby := by
  rw [State.toStandby_eq awake]
  exact ⟨rfl, rfl, rfl, rfl, rfl, rfl⟩

theorem State.underVolt_eq {mv : Nat} {s : State} (present : s.power.present = true) (low : mv < 42000) (first : s.power.undervolt = false) :
    s.underVolt mv =
      let x := s.modPower fun p => { p with inputMv := mv, undervolt := true }
      if s.mode == .standby || s.mode == .booting then x
      else if s.mode.hasJob then ((x.raiseModule 0x0503 [(0x20, 4, mv)]).powerFail mv).settleReset
      else x.raiseModule 0x0503 [(0x20, 4, mv)] := by
  have noted := State.raiseModule_noted 0x0503 [(0x20, 4, mv)] (s.modPower fun p => { p with inputMv := mv, undervolt := true })
  unfold State.underVolt
  rw [if_neg (by rw [present, first, Bool.or_eq_true, Bool.or_eq_true, decide_eq_true_eq]; simp [warningMv, low])]
  dsimp only
  rw [show (State.raiseModule 0x0503 [(0x20, 4, mv)] (s.modPower fun p => { p with inputMv := mv, undervolt := true })).mode = s.mode from
    congrArg Boot.mode noted.boot]
  rfl

/-- Settles O40: each way down is a start from STANDBY again, after the power-fail steps where a job exists. -/
theorem theInputGoesDown : Obligations.TheInputGoesDown := by
  unfold Obligations.TheInputGoesDown
  intro s mv present
  dsimp only
  have in_dark : ∀ u : State, u.Dark → u.mode = .standby ∧ u.power.domains = standbyDomains ∧ u.mem = Mem.reset ∧ u.job = Job.reset
      ∧ u.cmds = [] := fun u h => ⟨h.mode, h.domains, h.mem, h.job, h.cmds⟩
  refine ⟨?_, fun awake low => ?_, fun awake high => ?_, fun awake idle alone => ?_, fun low first none => ?_⟩
  · refine ⟨_, congrArg Host.Outcome.next (if_neg (by simp [present])), rfl, rfl, rfl, rfl, rfl, rfl, ?_⟩
    exact ⟨rfl, rfl, rfl, rfl, rfl, rfl⟩
  · have stands : (s.setInput mv).mode ≠ .standby := awake
    refine ⟨(s.setInput mv).toStandby, congrArg Host.Outcome.next (if_neg ?_), in_dark _ (State.toStandby_dark stands), ?_⟩
    · rw [present]
      simp only [Bool.or_eq_true, decide_eq_true_eq]
      simp [lockoutMv, low]
    · obtain ⟨svn, slots, stored, own, partner, store⟩ := State.toStandby_flash stands
      exact ⟨svn, slots, stored, own, partner, store⟩
  · refine ⟨_, congrArg Host.Outcome.next (if_neg ?_), in_dark _ (State.toStandby_dark ?_)⟩
    · rw [present]
      simp only [Bool.or_eq_true, decide_eq_true_eq]
      simp [overMv, high]
    · split
      · rw [State.powerFail_mode]
        decide
      · exact awake
  · have stands : (s.modPower fun p => { p with pwrEn := false }).mode ≠ .standby := awake
    refine ⟨(s.modPower fun p => { p with pwrEn := false }).toStandby, ?_, in_dark _ (State.toStandby_dark stands), ?_, ?_⟩
    · refine congrArg Host.Outcome.next ?_
      show s.pwrEnLow = _
      unfold State.pwrEnLow
      rw [if_neg (by simp [present])]
      dsimp only
      rw [if_neg]
      simp only [State.inRun, State.modPower_boot, State.modPower_harbour, alone]
      intro h
      rw [State.inRun] at idle
      simp [idle] at h
    · obtain ⟨svn, slots, stored, own, partner, store⟩ := State.toStandby_flash stands
      exact ⟨svn, slots, stored, own, partner, store⟩
    · rw [State.toStandby_eq stands]
      rfl
  · set x := s.modPower (fun p => { p with inputMv := mv, undervolt := true }) with hx
    have raised := State.raiseModule_noted 0x0503 [(0x20, 4, mv)] x
    refine ⟨s.underVolt mv, rfl, ?_⟩
    rw [State.underVolt_eq present low first]
    dsimp only
    rw [← hx]
    split
    next early =>
      refine ⟨rfl, rfl, fun job => ?_, fun inert => ?_⟩
      · rcases Bool.or_eq_true_iff.mp early with e | e <;> rw [beq_iff_eq.mp e] at job <;> exact absurd job (by decide)
      · rw [inert] at early
        exact absurd early (by decide)
    next later =>
      split
      next job =>
        obtain ⟨input, due⟩ := (State.raiseModule 0x0503 [(0x20, 4, mv)] x).powerFail_kept_input mv
        have due' : ((State.raiseModule 0x0503 [(0x20, 4, mv)] x).powerFail mv).boot.resetDue = false := by
          rw [due, State.enter_resetDue, raised.boot]
          exact none
        rw [State.settleReset_none due', input, raised.power]
        refine ⟨rfl, rfl, fun _ => State.powerFail_mode _ _, fun inert => ?_⟩
        rw [inert] at job
        exact absurd job (by decide)
      next other =>
        refine ⟨by rw [raised.power]; rfl, by rw [raised.power]; rfl, fun job => absurd job other, fun _ => ⟨raised, ?_⟩⟩
        exact State.raise_logged _ _ _ _ x

end Sys2Proof.Machine

/-! PROOF. Thermal steps, trips, lost clocks, readings and rails (R402, R420, R422, R426, R427). -/

namespace Sys2Proof.Machine

/-! ## Lists of pairs with a key -/

theorem find?_put_self {β : Type} (p : Nat) (b : β) (l : List (Nat × β)) :
    ((l.filter fun e => e.1 != p) ++ [(p, b)]).find? (fun e => e.1 == p) = some (p, b) := by
  rw [List.find?_append, List.find?_eq_none.mpr]
  · simp
  · intro e he
    simpa using (List.mem_filter.mp he).2

theorem find?_put_ne {β : Type} {p q : Nat} (h : q ≠ p) (b : β) (l : List (Nat × β)) :
    ((l.filter fun e => e.1 != p) ++ [(p, b)]).find? (fun e => e.1 == q) = l.find? fun e => e.1 == q := by
  have last : [(p, b)].find? (fun e => e.1 == q) = none := by simp [h.symm]
  rw [List.find?_append, last, Option.or_none, List.find?_filter]
  refine congrArg (fun f => l.find? f) (funext fun e => ?_)
  by_cases same : e.1 = q
  · simp [same, h]
  · simp [same]

theorem find?_keyed {β : Type} (f : Nat → β) (k : Nat) (l : List Nat) :
    ((l.map fun k => (k, f k)).find? fun e => e.1 == k).map (·.2) = if k ∈ l then some (f k) else none := by
  induction l with
  | nil => rfl
  | cons a l ih =>
    by_cases same : a = k
    · simp [same]
    · rw [List.map_cons, List.find?_cons_of_neg (by simpa using same), ih]
      simp [Ne.symm same]

/-! ## Thermal steps and halved quays -/

theorem State.thermalStep_congr {s t : State} (h : t.power = s.power) (q : Nat) : t.thermalStep q = s.thermalStep q := by
  unfold State.thermalStep
  rw [h]

theorem State.thermalStep_setThermal (p k : Nat) (s : State) :
    (s.setThermal p k).thermalStep p = k ∧ ∀ q, q ≠ p → (s.setThermal p k).thermalStep q = s.thermalStep q := by
  have here : (s.setThermal p k).power.thermal = (s.power.thermal.filter fun e => e.1 != p) ++ [(p, k, s.usec)] := rfl
  refine ⟨?_, fun q ne => ?_⟩
  · rw [State.thermalStep, here, find?_put_self]
  · rw [State.thermalStep, State.thermalStep, here, find?_put_ne ne]

theorem atLeast_of {deg : Int} {t : BitVec 16} (h : 16 * deg ≤ t.toInt) : atLeast deg t = true := decide_eq_true h
theorem atMost_of {deg : Int} {t : BitVec 16} (h : t.toInt ≤ 16 * deg) : atMost deg t = true := decide_eq_true h

theorem State.Logged.of_log {s t u : State} {code kind index : Nat} (h : s.Logged t code kind index) (log : u.log = t.log) :
    s.Logged u code kind index := by
  unfold State.Logged at h ⊢
  rw [log]
  exact h

theorem State.thermalDown_steps {s : State} {p i : Nat} (hot : s.hottest p = some i) (may : s.thermalMayChange p = true)
    (high : 16 * 100 ≤ (s.stall i).temp.toInt) (low : s.thermalStep p < 4) :
    Only [.out, .pcie, .log, .tm, .stalls, .cmds] (s.setThermal p (s.thermalStep p + 1)) (s.thermalDown p) := by
  unfold State.thermalDown
  rw [hot]
  dsimp only
  rw [if_neg (by simp [atLeast_of high, may, low])]
  refine State.checkReduced_only (by decide) (only_trans (x := (s.setThermal p (s.thermalStep p + 1)).retuneStalls)
    (State.retuneStalls_only (by decide) (only_refl _ _)) ?_)
  split
  · exact only_mono (State.raise_noted _ _ _ _ _).only (by decide)
  · exact only_refl _ _

theorem State.thermalUp_steps {s : State} {p i since : Nat} (hot : s.hottest p = some i) (may : s.thermalMayChange p = true)
    (low : (s.stall i).temp.toInt ≤ 16 * 95) (reduced : 0 < s.thermalStep p) (cool : s.coolSince p = some since)
    (long : since + 10000 ≤ s.usec) : s.thermalUp p = (s.setThermal p (s.thermalStep p - 1)).retuneStalls := by
  unfold State.thermalUp
  rw [hot]
  dsimp only
  rw [if_neg]
  have cooled : s.hasCooled p = true := by
    unfold State.hasCooled
    rw [cool]
    exact decide_eq_true long
  simp [atMost_of low, may, cooled, Nat.pos_iff_ne_zero.mp reduced]

theorem State.retuneStalls_eq (s : State) : s.retuneStalls = { s with stalls := s.retuneStalls.stalls } := by
  unfold State.retuneStalls
  split <;> rfl

/-- Settles O41: a thermal step moves by one, and a die's reading halves its quay or ends that. -/
theorem thermalStepsFollowTheHottest : Obligations.ThermalStepsFollowTheHottest := by
  unfold Obligations.ThermalStepsFollowTheHottest
  intro s p
  refine ⟨fun i hot may => ⟨fun high low => ?_, fun low reduced long known => ?_⟩, fun t small on high fresh => ?_,
    fun t small on => ⟨fun low => ?_, fun high => ?_⟩⟩
  · have steps := State.thermalDown_steps hot may high low
    have power := steps.same .power (by decide)
    obtain ⟨up, others⟩ := State.thermalStep_setThermal p (s.thermalStep p + 1) s
    exact ⟨s.thermalDown p, rfl, (State.thermalStep_congr power p).trans up, fun q ne => (State.thermalStep_congr power q).trans (others q ne),
      steps.same .mem (by decide), steps.same .job (by decide), steps.same .boot (by decide), steps.same .run (by decide)⟩
  · obtain ⟨since, cool⟩ := Option.ne_none_iff_exists'.mp known
    have steps := State.thermalUp_steps hot may low reduced cool (long since cool)
    obtain ⟨down, others⟩ := State.thermalStep_setThermal p (s.thermalStep p - 1) s
    have power := (State.retuneStalls_only (List.Subset.refl _) (only_refl _ (s.setThermal p (s.thermalStep p - 1)))).same .power (by decide)
    refine ⟨s.thermalUp p, rfl, ?_, fun q ne => ?_, ?_⟩
    · rw [steps, State.thermalStep_congr power p, down]
      omega
    · rw [steps, State.thermalStep_congr power q, others q ne]
    · rw [steps, State.retuneStalls_eq]
      rfl
  · set x := (s.setTemp (p + 2) t).modPower (fun x => { x with halved := setAdd p x.halved }) with hx
    have raised := State.raise_noted 0x0502 srcSensor (p + 2) [(0x20, 2, t.toNat), (0x28, 1, s.slowestStep)] x
    have logged := State.raise_logged 0x0502 srcSensor (p + 2) [(0x20, 2, t.toNat), (0x28, 1, s.slowestStep)] x
    generalize hy : State.raise 0x0502 srcSensor (p + 2) [(0x20, 2, t.toNat), (0x28, 1, s.slowestStep)] x = y at raised logged
    have reduced : Only [.cmds] y y.checkReduced := State.checkReduced_only (by decide) (only_refl _ y)
    have halves : s.halveQuay p t = y.checkReduced := by
      rw [← hy, hx]
      exact if_neg (by simp [small, on, atLeast_of high, fresh])
    refine ⟨y.checkReduced, congrArg Host.Outcome.next halves, ?_, logged.of_log (reduced.same .log (by decide)),
      (reduced.same .mem (by decide)).trans raised.mem, (reduced.same .job (by decide)).trans raised.job,
      (reduced.same .boot (by decide)).trans raised.boot, (reduced.same .run (by decide)).trans raised.run⟩
    have power : y.checkReduced.power = x.power := (reduced.same .power (by decide)).trans raised.power
    rw [power]
    exact if_neg (fun h => fresh (List.contains_iff_mem.mp h))
  · refine ⟨s.restoreQuay ⟨p, t⟩, rfl, ?_⟩
    have restores : s.restoreQuay ⟨p, t⟩ = (s.setTemp (p + 2) t).modPower fun x => { x with halved := setDel p x.halved } :=
      if_neg (by simp [small, on, atMost_of low])
    rw [restores]
    exact ⟨rfl, rfl⟩
  · refine congrArg Host.Outcome.next (if_pos ?_)
    have hot : atMost 90 t = false := decide_eq_false (by simpa using high)
    simp [hot]

/-! ## Trips and lost clocks -/

theorem powered_of_switch_off {s : State} {d : Nat} {l : List Nat} (h : (domainMask l).getLsbD d = true) : (s.switch false l).powered d = false := by
  show (s.power.domains &&& ~~~(domainMask l)).getLsbD d = false
  rw [BitVec.getLsbD_and, BitVec.getLsbD_not, h]
  simp

/-- The domains of the stall rows and of the quays. -/
def hallDomains : List Nat := List.range 32 ++ (List.range 24).map quayDomain

theorem hallDomains_rows : ∀ r < 32, (domainMask hallDomains).getLsbD r = true := by decide
theorem hallDomains_quays : ∀ q < 24, (domainMask hallDomains).getLsbD (quayDomain q) = true := by decide

theorem State.darkHalls_dark (s : State) :
    (∀ r < 32, s.darkHalls.powered r = false) ∧ ∀ q < 24, s.darkHalls.powered (quayDomain q) = false :=
  ⟨fun r h => powered_of_switch_off (hallDomains_rows r h), fun q h => powered_of_switch_off (hallDomains_quays q h)⟩

theorem State.moduleFault_boot (s : State) : s.moduleFault.boot = (s.enter .faulted).boot := by
  unfold State.moduleFault
  split
  next already =>
    rw [State.enter, if_pos (show s.boot.mode = .faulted from beq_iff_eq.mp already)]
    exact (State.abortTests_only (List.Subset.refl _) (only_refl _ s)).same .boot (by decide)
  next =>
    have rest : Only [.out, .pcie, .cmds, .log, .tm, .run, .stalls, .harbour, .ports] s s.sendFault.abandonAttempt :=
      State.abandonAttempt_only (by decide) (State.sendFault_only (by decide) (only_refl _ s))
    exact (State.enterFaulted_kept_input _).2.trans (State.enter_boot_congr .faulted (rest.same .boot (by decide)))

theorem State.abortTests_power {s : State} (none : s.test.queue = []) : s.abortTests.power = s.power := by
  unfold State.abortTests
  rw [none]
  rfl

theorem State.faultEnds_power {s : State} (restore : s.harbour.restore = none) (tests : s.test.queue = []) : s.faultEnds.power = s.power := by
  have dark : s.darkRestore = s := by
    unfold State.darkRestore
    rw [restore]
  have snap : Only [.out, .pcie, .cqs, .cmds, .log, .tm, .mem, .quays, .snap] s s.abandonSnapshot :=
    State.abandonSnapshot_only (by decide) (only_refl _ _)
  have others : Only [.out, .pcie, .cqs, .cmds, .log, .tm, .snap, .journal] s.abandonSnapshot.abortTests s.faultEnds := by
    unfold State.faultEnds
    rw [dark]
    exact State.faultOthers_only (by decide) (State.dropSnapshots_only _ (by decide) (State.dropCommit_only (by decide) (only_refl _ _)))
  have queue : s.abandonSnapshot.test.queue = [] := (congrArg Test.queue (snap.same .test (by decide))).trans tests
  exact (others.same .power (by decide)).trans ((State.abortTests_power queue).trans (snap.same .power (by decide)))

theorem State.enterFaulted_power {s : State} (restore : s.harbour.restore = none) (tests : s.test.queue = []) :
    s.enterFaulted.power = s.power := by
  have ended := State.endRun_only .fault .faulted (List.Subset.refl _) (only_refl _ s.faultEnds)
  rw [State.enterFaulted_eq, State.modHarbour_power]
  exact (ended.same .power (by decide)).trans (State.faultEnds_power restore tests)

/-- Without a restore and tests a module fault switches nothing. -/
theorem State.moduleFault_power {s : State} (restore : s.harbour.restore = none) (tests : s.test.queue = []) :
    s.moduleFault.power = s.power := by
  unfold State.moduleFault
  split
  · exact State.abortTests_power tests
  · have sent : Only [.out, .pcie, .log, .tm, .ports] s s.sendFault := State.sendFault_only (by decide) (only_refl _ s)
    have rest : Only [.out, .pcie, .cmds, .log, .tm, .run, .stalls, .harbour] s.sendFault s.sendFault.abandonAttempt :=
      State.abandonAttempt_only (by decide) (only_refl _ _)
    have harbour : s.sendFault.abandonAttempt.harbour.restore = none := by
      rw [State.abandonAttempt_harbour, sent.same .harbour (by decide)]
      exact restore
    have queue : s.sendFault.abandonAttempt.test.queue = [] := by
      rw [rest.same .test (by decide), sent.same .test (by decide)]
      exact tests
    exact (State.enterFaulted_power harbour queue).trans ((rest.same .power (by decide)).trans (sent.same .power (by decide)))

/-- Settles O42: each is a module fault, or a start from STANDBY again. -/
theorem tripsAndLostClocksFault : Obligations.TripsAndLostClocksFault := by
  unfold Obligations.TripsAndLostClocksFault
  intro s k t i
  refine ⟨fun holds on awake booted none => ?_, fun present on hot => ?_, fun awake booted on none => ?_⟩
  · have fault : ∀ y : State, y.boot = ((s.setTemp k t).enter .faulted).boot → y.mode = .faulted →
        y.darkHalls.settleReset = y.darkHalls ∧ y.darkHalls.mode = .faulted ∧ y.darkHalls.boot.svn = s.boot.svn := fun y boot mode =>
      ⟨State.settleReset_none (by rw [show y.darkHalls.boot = y.boot from rfl, boot, State.enter_resetDue]; exact none), mode,
        (congrArg Boot.svn boot).trans ((s.setTemp k t).enter_svn .faulted)⟩
    have trips : s.thermalTrip k t = ((if s.mode.hasJob then (s.setTemp k t).powerFail s.power.inputMv
        else (s.setTemp k t).moduleFault).darkHalls).settleReset := if_neg (by simp [holds, on, awake, booted])
    refine ⟨_, congrArg Host.Outcome.next trips, ?_⟩
    split
    · obtain ⟨settled, mode, svn⟩ := fault _ ((s.setTemp k t).powerFail_kept_input s.power.inputMv).2 (State.powerFail_mode _ _)
      rw [settled]
      exact ⟨mode, svn, State.darkHalls_dark _⟩
    · obtain ⟨settled, mode, svn⟩ := fault _ (s.setTemp k t).moduleFault_boot (State.moduleFault_mode _)
      rw [settled]
      exact ⟨mode, svn, State.darkHalls_dark _⟩
  · have trips : s.amrathTrip k t = ((s.setTemp k t).toStandby).modPower fun p => { p with tripAlert := true } :=
      if_neg (by simp [present, on, atLeast_of hot])
    refine ⟨_, congrArg Host.Outcome.next trips, ?_⟩
    by_cases stands : s.mode = .standby
    · rw [show (s.setTemp k t).toStandby = s.setTemp k t from if_pos (beq_iff_eq.mpr stands)]
      exact ⟨stands, rfl, rfl, ⟨rfl, rfl, rfl, rfl, rfl, rfl⟩, fun awake => absurd stands awake⟩
    · have awake : (s.setTemp k t).mode ≠ .standby := stands
      obtain ⟨svn, slots, stored, own, partner, store⟩ := State.toStandby_flash awake
      have dark := State.toStandby_dark awake
      generalize (s.setTemp k t).toStandby = y at svn slots stored own partner store dark ⊢
      exact ⟨dark.mode, rfl, rfl, ⟨svn, slots, stored, own, partner, store⟩, fun _ => ⟨dark.mem, dark.domains⟩⟩
  · have settled : s.moduleFault.settleReset = s.moduleFault :=
      State.settleReset_none (by rw [State.moduleFault_boot, State.enter_resetDue]; exact none)
    refine ⟨s.moduleFault, congrArg Host.Outcome.next ((if_neg (by simp [on, awake, booted])).trans settled), State.moduleFault_mode s, ?_,
      fun restore tests => State.moduleFault_power restore tests⟩
    rw [State.moduleFault_boot, State.enter_svn]

/-! ## Readings and rails -/

theorem getD_zipIdx_map {α : Type} (f : α × Nat → α) (l : List α) (i : Nat) (d : α) :
    (l.zipIdx.map f).getD i d = if h : i < l.length then f (l[i], i) else d := by
  rw [List.getD_eq_getElem?_getD, List.getElem?_map, List.getElem?_zipIdx]
  by_cases h : i < l.length
  · simp [h]
  · simp [h]

theorem State.stall_of_lt {s : State} {i : Nat} (h : i < s.stalls.length) : s.stall i = s.stalls[i] := by
  simp [State.stall, List.getD_eq_getElem?_getD, h]

/-- A stall after an update that knows its index. -/
theorem State.stall_modStalls (f : Stall × Nat → Stall) (s : State) (i : Nat) :
    (s.modStalls fun l => l.zipIdx.map f).stall i = if i < s.stalls.length then f (s.stall i, i) else s.stall i := by
  rw [State.stall, State.modStalls_stalls, getD_zipIdx_map]
  split
  next h => rw [State.stall_of_lt h]
  next h => rw [State.stall, List.getD_eq_getElem?_getD, List.getElem?_eq_none (Nat.le_of_not_lt h)]; rfl

theorem Stall.retune_temp (step now : Nat) (x : Stall) : (x.retune step now).temp = x.temp := by
  unfold Stall.retune
  split
  · rfl
  · split <;> rfl

theorem State.retuneStalls_temp (s : State) (i : Nat) : (s.retuneStalls.stall i).temp = (s.stall i).temp := by
  unfold State.retuneStalls
  split
  · rfl
  · rw [State.stall_modStalls]
    split
    · dsimp only
      split
      · rfl
      · exact Stall.retune_temp _ _ _
    · rfl

theorem State.hottest_congr {s t : State} (job : t.job = s.job) (temp : ∀ i, (t.stall i).temp = (s.stall i).temp) (k : Nat) :
    t.hottest k = s.hottest k := by
  unfold State.hottest State.pipelineStalls
  rw [job]
  simp only [temp]

/-- The readings are taken. -/
def State.readings (r : Readings) (s : State) : State :=
  let s := s.modPower fun p =>
    { p with inputMv := r.milliVolts, inputMa := r.milliAmps, powerMw := r.milliWatts,
             temps := (List.range 40).map fun i => r.temps.getD i (p.temps.getD i 0x8000) }
  let s := r.stallTemps.foldl (fun s e => s.setStall e.1 fun x => { x with temp := e.2 }) s
  let s := r.ports.foldl (fun s e => s.setPort e.port fun x =>
    if x.role = 0 then x else { x with rx := e.rx, tx := e.tx, superframes := e.superframes }) s
  if r.milliJoules = 0 then s else s.count (tmAt 0x78) r.milliJoules

theorem State.refreshSensors_eq {s : State} (r : Readings) (present : s.power.present = true) :
    s.refreshSensors r = (s.readings r).trackCool.retuneStalls := if_neg (by simp [present])

theorem State.readings_rest (r : Readings) (s : State) : Only [.out, .pcie, .log, .tm, .stalls, .ports]
      (s.modPower fun p => { p with inputMv := r.milliVolts, inputMa := r.milliAmps, powerMw := r.milliWatts,
                                    temps := (List.range 40).map fun i => r.temps.getD i (p.temps.getD i 0x8000) }) (s.readings r)
    ∧ s.Counted (s.readings r) (tmAt 0x78) r.milliJoules := by
  generalize hx : (s.modPower fun p => { p with inputMv := r.milliVolts, inputMa := r.milliAmps, powerMw := r.milliWatts,
                                                temps := (List.range 40).map fun i => r.temps.getD i (p.temps.getD i 0x8000) }) = x
  have temps : Only [.stalls] x (r.stallTemps.foldl (fun s e => s.setStall e.1 fun x => { x with temp := e.2 }) x) :=
    foldl_inv (P := Only [.stalls] x) (fun y e h => setStall_only _ _ (by decide) h) _ (only_refl _ x)
  generalize hy : r.stallTemps.foldl (fun s e => s.setStall e.1 fun x => { x with temp := e.2 }) x = y at temps
  have ports : Only [.ports] y (r.ports.foldl (fun s e => s.setPort e.port fun x =>
      if x.role = 0 then x else { x with rx := e.rx, tx := e.tx, superframes := e.superframes }) y) :=
    foldl_inv (P := Only [.ports] y) (fun z e h => setPort_only _ _ (by decide) h) _ (only_refl _ y)
  generalize hz : r.ports.foldl (fun s e => s.setPort e.port fun x =>
      if x.role = 0 then x else { x with rx := e.rx, tx := e.tx, superframes := e.superframes }) y = z at ports
  have tm : z.tm = s.tm := by
    rw [ports.same .tm (by decide), temps.same .tm (by decide), ← hx]
    rfl
  have reads : s.readings r = if r.milliJoules = 0 then z else z.count (tmAt 0x78) r.milliJoules := by
    rw [← hz, ← hy, ← hx]
    rfl
  have taken : Only [.out, .pcie, .log, .tm, .stalls, .ports] x z := only_trans (only_mono temps (by decide)) (only_mono ports (by decide))
  rw [reads]
  split
  next zero => exact ⟨taken, by rw [zero]; exact (counts_of_tm tm _).counted⟩
  next =>
    exact ⟨only_trans taken (only_mono (State.count_noted _ _ _).only (by decide)),
      (counts_zero_left (counts_of_tm tm _) (z.count_counts (by decide) _)).counted⟩

theorem State.trackCool_eq (s : State) : s.trackCool = { s with power := { s.power with cool := s.trackCool.power.cool } } := by
  unfold State.trackCool
  split <;> rfl

theorem State.trackCool_since {s : State} {t : Table} {k h : Nat} (table : s.job.table = some t)
    (used : k ∈ t.stallsUsed.filterMap t.pipelineOf) (hot : s.hottest k = some h) :
    s.trackCool.coolSince k = if (s.stall h).temp.toInt ≤ 16 * 95 then some ((s.coolSince k).getD s.usec) else none := by
  have cool : s.trackCool.power.cool = ((t.stallsUsed.filterMap t.pipelineOf).eraseDups.filter fun k =>
      match s.hottest k with | none => false | some i => atMost 95 (s.stall i).temp).map fun k => (k, (s.coolSince k).getD s.usec) := by
    unfold State.trackCool
    rw [table]
    rfl
  rw [State.coolSince, cool, find?_keyed]
  refine if_congr ?_ rfl rfl
  rw [List.mem_filter, List.mem_eraseDups, hot]
  simp [used, atMost]

theorem Stall.railSettled_due {x : Stall} {k now : Nat} (target : x.target = some k) (up : k < x.dvfs)
    (since : ∀ at', x.lastStep = some at' → at' + 1000 ≤ now) :
    x.railSettled now = { x with dvfs := k, target := none, lastStep := some now } := by
  have past : milliPast x.lastStep now = true := by
    unfold milliPast
    split
    · rfl
    next u e => exact decide_eq_true (since u e)
  unfold Stall.railSettled
  rw [target]
  dsimp only
  rw [if_pos (by simp [up, past])]

/-- The stalls whose generators switch with that of stall `i`. -/
def State.Together (s : State) (i j : Nat) : Prop :=
  j = i ∨ ∃ t q, s.job.table = some t ∧ t.pipelineOf i = some q ∧ t.pipelineOf j = some q

theorem State.railSettled_stall (s : State) (i j : Nat) :
    (¬ s.Together i j → (s.railSettled i).stall j = s.stall j)
    ∧ (s.Together i j → j < s.stalls.length → (s.railSettled i).stall j = (s.stall j).railSettled s.usec) := by
  unfold State.railSettled
  split
  next table =>
    refine ⟨fun apart => State.stall_setStall_ne s (fun e => apart (.inl e)) _, fun together inside => ?_⟩
    rcases together with rfl | ⟨t, q, has, -⟩
    · exact State.stall_setStall s inside _
    · rw [table] at has
      cases has
  next t table =>
    have meets : (Decidable.decide (j = i) || ((t.pipelineOf i).isSome && t.pipelineOf j == t.pipelineOf i)) = true ↔ s.Together i j := by
      rw [Bool.or_eq_true, decide_eq_true_eq, Bool.and_eq_true, beq_iff_eq]
      refine or_congr Iff.rfl ⟨fun ⟨is, e⟩ => ?_, fun ⟨u, q, has, hi, hj⟩ => ?_⟩
      · obtain ⟨q, hq⟩ := Option.isSome_iff_exists.mp is
        exact ⟨t, q, table, hq, e.trans hq⟩
      · rw [table] at has
        cases has
        exact ⟨by rw [hi]; rfl, hj.trans hi.symm⟩
    rw [State.stall_modStalls]
    refine ⟨fun apart => ?_, fun together inside => ?_⟩
    · split
      · exact if_neg (fun h => apart (meets.mp h))
      · rfl
    · rw [if_pos inside]
      exact if_pos (meets.mpr together)

/-- Settles O43: the readings are taken and the time of cooling kept; a settled rail moves its pipeline's stalls. -/
theorem readingsAndRails : Obligations.ReadingsAndRails := by
  unfold Obligations.ReadingsAndRails
  intro s r i
  refine ⟨fun present => ⟨s.refreshSensors r, rfl, ?_⟩, fun absent => congrArg Host.Outcome.next (if_pos (by simp [absent])), ?_⟩
  · obtain ⟨rest, counted⟩ := s.readings_rest r
    have temp := (s.readings r).trackCool.retuneStalls_temp
    have since := fun t k h => State.trackCool_since (s := s.readings r) (t := t) (k := k) (h := h)
    have tracked : Only [.power] (s.readings r) (s.readings r).trackCool := State.trackCool_only (by decide) (only_refl _ _)
    have cools := congrArg State.power (s.readings r).trackCool_eq
    have tuned : Only [.stalls] (s.readings r).trackCool (s.readings r).trackCool.retuneStalls :=
      State.retuneStalls_only (List.Subset.refl _) (only_refl _ _)
    rw [State.refreshSensors_eq r present]
    generalize (s.readings r).trackCool.retuneStalls = u at tuned temp ⊢
    generalize (s.readings r).trackCool = y at *
    generalize s.readings r = x at *
    have power : x.power = _ := rest.same .power (by decide)
    have later : Only [.power, .stalls] x u := only_trans (only_mono tracked (by decide)) (only_mono tuned (by decide))
    have taken : Only [.out, .pcie, .log, .tm, .stalls, .ports, .power] s x :=
      only_trans (modPower_only _ (by decide) (only_refl _ s)) (only_mono rest (by decide))
    have all : Only [.out, .pcie, .log, .tm, .stalls, .ports, .power] s u := only_trans taken (only_mono later (by decide))
    have stays : u.power = y.power := tuned.same .power (by decide)
    refine ⟨?_, fun t k h table used hot => ?_, ?_, all.same .mem (by decide), all.same .job (by decide), all.same .boot (by decide),
      all.same .run (by decide), all.same .cmds (by decide)⟩
    · rw [stays, cools, power]
      rfl
    · have reads : ∀ j, (u.stall j).temp = (x.stall j).temp := fun j => by
        rw [temp j, State.stall, tracked.same .stalls (by decide)]
        rfl
      rw [State.hottest_congr (later.same .job (by decide)) reads] at hot
      have cooled := since t k h (by rw [taken.same .job (by decide)]; exact table) used hot
      have before : x.coolSince k = s.coolSince k := by
        rw [State.coolSince, power]
        rfl
      rw [reads h, State.coolSince, stays, ← before, ← (taken.same .usec (by decide) : x.usec = s.usec)]
      exact cooled
    · unfold State.Counted
      rw [later.same .tm (by decide)]
      exact counted
  · dsimp only
    refine ⟨s.railSettled i, rfl, ?_, fun j => ?_⟩
    · unfold State.railSettled
      split <;> rfl
    · obtain ⟨apart, together⟩ := s.railSettled_stall i j
      refine ⟨apart, fun t inside k target up long => ?_⟩
      rw [together t inside]
      exact Stall.railSettled_due target up long

end Sys2Proof.Machine

/-! PROOF. Reads at the quays and through the window (R193, R199 to R202, R213, R352). -/

namespace Sys2Proof.Machine

/-! ## Notes, and some parts besides -/

/-- Only some parts, and what notes leave behind, may differ. -/
structure State.NotedBut (ks : List Part) (s t : State) : Prop where
  rest : Only (.out :: .pcie :: .log :: .tm :: ks) s t
  sent : s.out <+: t.out
  pcie : t.pcie = { s.pcie with msixPend := t.pcie.msixPend }

theorem notedBut_trans {ks : List Part} {s x t : State} (h : s.NotedBut ks x) (g : x.NotedBut ks t) : s.NotedBut ks t :=
  ⟨only_trans h.rest g.rest, h.sent.trans g.sent, by rw [g.pcie, h.pcie]⟩

theorem notedBut_mono {ks ls : List Part} {s t : State} (h : s.NotedBut ks t) (sub : ks ⊆ ls) : s.NotedBut ls t :=
  ⟨only_mono h.rest (List.cons_subset_cons _ (List.cons_subset_cons _ (List.cons_subset_cons _ (List.cons_subset_cons _ sub)))), h.sent, h.pcie⟩

theorem State.Noted.but {s t : State} (h : s.Noted t) (ks : List Part) : s.NotedBut ks t :=
  ⟨only_mono h.only (by
    intro k hk
    fin_cases hk <;> simp), h.sent, h.pcie⟩

theorem notedBut_of_only {ks : List Part} {s t : State} (h : Only ks s t) (out : t.out = s.out := by rfl) (pcie : t.pcie = s.pcie := by rfl) :
    s.NotedBut ks t :=
  ⟨only_mono h (fun _ hk => by simp [hk]), by rw [out], by rw [pcie]⟩

theorem State.NotedBut.noted {s t : State} (h : s.NotedBut [.mem, .run] t) : State.Noted { s with mem := t.mem, run := t.run } t where
  pending := h.rest.same .pending (by decide)
  sent := h.sent
  freeCtr := h.rest.same .freeCtr (by decide)
  usec := h.rest.same .usec (by decide)
  power := h.rest.same .power (by decide)
  boot := h.rest.same .boot (by decide)
  pcie := h.pcie
  sqs := h.rest.same .sqs (by decide)
  cqs := h.rest.same .cqs (by decide)
  sqTurn := h.rest.same .sqTurn (by decide)
  cmds := h.rest.same .cmds (by decide)
  job := h.rest.same .job (by decide)
  mem := rfl
  run := rfl
  stalls := h.rest.same .stalls (by decide)
  quays := h.rest.same .quays (by decide)
  snap := h.rest.same .snap (by decide)
  journal := h.rest.same .journal (by decide)
  harbour := h.rest.same .harbour (by decide)
  ports := h.rest.same .ports (by decide)
  test := h.rest.same .test (by decide)

theorem State.NotedBut.noted_run {s t : State} (h : s.NotedBut [.run] t) {r : Run} (run : t.run = r) : State.Noted { s with run := r } t := by
  have mem : t.mem = s.mem := h.rest.same .mem (by decide)
  have noted := (notedBut_mono h (by decide)).noted
  rw [mem, run] at noted
  exact noted

/-! ## Guards and errors of lines -/

theorem State.guarded_free {s : State} {src : Source} {w : Bool} {a n : Nat} (free : s.refusedPage src w a n = none) (f : State → State) :
    s.guarded src [(w, a, n)] f = f s := by
  unfold State.guarded
  rw [List.findSome?_cons, free]
  rfl

theorem State.guarded_refused {s : State} {src : Source} {w : Bool} {a n : Nat} (refused : s.refusedPage src w a n ≠ none)
    (f : State → State) : ∃ g, s.guarded src [(w, a, n)] f = s.refusedAccess (sourceRecord src) g := by
  obtain ⟨g, hg⟩ := Option.ne_none_iff_exists'.mp refused
  refine ⟨g, ?_⟩
  unfold State.guarded
  rw [List.findSome?_cons, hg]

theorem State.refusedAccess_fault (record page : Nat) (s : State) : (s.refusedAccess record page).mode = .faulted
    ∧ (s.refusedAccess record page).boot = (s.enter .faulted).boot
    ∧ (s.snap.draining = false → (s.refusedAccess record page).mem = s.mem) := by
  have raised := s.raiseModule_noted 0x0902 [(0x20, 2, 0), (0x24, 4, record), (0x28, 8, page * pageSize)]
  unfold State.refusedAccess
  generalize s.raiseModule 0x0902 [(0x20, 2, 0), (0x24, 4, record), (0x28, 8, page * pageSize)] = x at raised
  refine ⟨State.moduleFault_mode x, x.moduleFault_boot.trans (State.enter_boot_congr .faulted raised.boot), fun still => ?_⟩
  rw [State.moduleFault_mem (by rw [raised.snap]; exact still), raised.mem]

theorem State.settleReset_settled {s : State} (h : s.ResetSettled) : s.settleReset = s := by
  unfold State.settleReset
  rw [if_neg]
  intro due
  rw [Bool.and_eq_true, Bool.not_eq_true'] at due
  exact absurd (h due.1) (by simp [due.2])

theorem State.ResetSettled.of_boot {s t : State} (h : s.ResetSettled) (boot : t.boot = s.boot) : t.ResetSettled := by
  have mode : t.inRun = s.inRun := congrArg (fun b : Boot => b.mode == .running || b.mode == .slack) boot
  intro due
  rw [mode]
  exact h (by rw [← boot]; exact due)

theorem State.eccLines_one {a n l : Nat} (inside : l ∈ linesOf a n) (es : List SymbolError) (s : State) :
    s.eccLines a n [⟨l, es⟩] = s.ecc l es := by
  unfold State.eccLines
  rw [List.filter_cons_of_pos (by simpa using inside)]
  rfl

theorem State.raiseOnce_notedBut (code kind index : Nat) (fs : List (Nat × Nat × Nat)) (s : State) :
    s.NotedBut [.run] (s.raiseOnce code kind index fs)
      ∧ (s.raiseOnce code kind index fs).run = { s.run with once := (s.raiseOnce code kind index fs).run.once } := by
  unfold State.raiseOnce
  split
  · exact ⟨(noted_refl s).but _, rfl⟩
  · have raised := State.raise_noted code kind index fs (s.modRun fun r => { r with once := r.once ++ [(code, kind, index)] })
    exact ⟨notedBut_trans (notedBut_of_only (modRun_only _ (by decide) (only_refl _ s))) (raised.but _), by rw [raised.run]; rfl⟩

theorem State.raiseOnce_counts {o : Nat} (ho : o ≠ evLostAt) (code kind index : Nat) (fs : List (Nat × Nat × Nat)) (s : State) :
    s.Counts o 0 (s.raiseOnce code kind index fs) := by
  unfold State.raiseOnce
  split
  · exact counts_of_tm rfl o
  · exact counts_zero_left (counts_of_tm (t := s.modRun _) rfl o) (State.raise_counts ho _ _ _ _ _)

theorem lineCheck_corrected {es : List SymbolError} {k : Nat} (one : symbolsOff es = [k]) (data : k < 35) : lineCheck es = some .corrected := by
  unfold lineCheck
  rw [one]
  exact congrArg some (if_pos data)

theorem lineCheck_uncorrectable {es : List SymbolError} (off : (∃ k, symbolsOff es = [k] ∧ 35 ≤ k) ∨ ∃ j k, symbolsOff es = [j, k]) :
    lineCheck es = some .uncorrectable := by
  unfold lineCheck
  rcases off with ⟨k, one, address⟩ | ⟨j, k, two⟩
  · rw [one]
    exact congrArg some (if_neg (by omega))
  · rw [two]

theorem tpAt_ne_lost (p k : Nat) : tpAt p k ≠ evLostAt := by
  simp only [tpAt, evLostAt]
  omega

theorem tpAt_ne {p q j k : Nat} (hj : j < 256) (hk : k < 256) (ne : j ≠ k) : tpAt p j ≠ tpAt q k := by
  simp only [tpAt]
  omega

/-- What a line with one symbol of its data in error leaves. -/
theorem State.eccCorrected_spec (line : Nat) (s : State) : s.NotedBut [.run] (s.eccCorrected line)
    ∧ (s.eccCorrected line).run = { s.run with once := (s.eccCorrected line).run.once }
    ∧ s.Counts (tpAt (locate s.pinned (64 * line)).1 0x18) 1 (s.eccCorrected line) := by
  unfold State.eccCorrected State.lineDetail
  dsimp only
  have counted := s.count_noted (tpAt (locate s.pinned (64 * line)).1 0x18) 1
  have counts := s.count_counts (tpAt_ne_lost (locate s.pinned (64 * line)).1 0x18) 1
  generalize s.count (tpAt (locate s.pinned (64 * line)).1 0x18) 1 = x at counted counts
  obtain ⟨but, run⟩ := x.raiseOnce_notedBut 0x0204 srcPile (locate s.pinned (64 * line)).1
    [(0x20, 1, (pileFields (locate s.pinned (64 * line)).2).channel), (0x28, 8, (locate s.pinned (64 * line)).2)]
  refine ⟨notedBut_trans (counted.but _) but, run.trans (by rw [counted.run]), ?_⟩
  exact counts_trans counts (State.raiseOnce_counts (tpAt_ne_lost _ _) _ _ _ _ x)

/-- An uncorrectable line is a module fault, and the line is poisoned. -/
theorem State.eccPoison_spec (line : Nat) (s : State) : (s.eccPoison line).mode = .faulted
    ∧ (s.eccPoison line).boot = (s.enter .faulted).boot ∧ (s.snap.draining = false → line ∈ (s.eccPoison line).mem.poisoned) := by
  unfold State.eccPoison State.lineDetail
  dsimp only
  have noted := noted_trans ((s.modMem fun m => m.poison line).count_noted (tpAt (locate s.pinned (64 * line)).1 0x20) 1)
    (State.raise_noted 0x0205 srcPile (locate s.pinned (64 * line)).1
      [(0x20, 1, (pileFields (locate s.pinned (64 * line)).2).channel), (0x28, 8, (locate s.pinned (64 * line)).2)] _)
  generalize State.raise 0x0205 srcPile (locate s.pinned (64 * line)).1 _ _ = x at noted ⊢
  refine ⟨State.moduleFault_mode x, x.moduleFault_boot.trans (State.enter_boot_congr .faulted noted.boot), fun still => ?_⟩
  rw [State.moduleFault_mem (by rw [noted.snap]; exact still), noted.mem]
  exact mem_setAdd.mpr (.inr rfl)

/-! ## Reads -/

/-- What answers a read once its lines have been checked. -/
def State.answerRead (pile a n : Nat) (x : Option Nat) (s : State) : State :=
  let s := s.count (tpAt pile 0x00) n
  s.emit (.quayReturn a (s.view.raw a n) (match s.tensorNamed x with | none => [] | some y => loadCodes y s.view a n))

theorem State.quayRead_eq (src : Source) (a n : Nat) (x : Option Nat) (hits : List ScrubHit) (s : State) :
    s.quayRead src a n x hits = s.guarded src [(false, a, n)] fun s => (s.eccLines a n hits).answerRead (s.pileOf a) a n x := rfl

theorem State.quayRead_free {s : State} {src : Source} {a n : Nat} (free : s.refusedPage src false a n = none) (x : Option Nat)
    (hits : List ScrubHit) : s.quayRead src a n x hits = (s.eccLines a n hits).answerRead (s.pileOf a) a n x := by
  rw [State.quayRead_eq, State.guarded_free free]

theorem State.answerRead_noted (pile a n : Nat) (x : Option Nat) (s : State) : s.Noted (s.answerRead pile a n x) :=
  noted_trans (State.count_noted _ _ _) (emit_noted _ _)

theorem State.answerRead_counts {o pile : Nat} (ne : o ≠ tpAt pile 0x00) (lost : o ≠ evLostAt) (a n : Nat) (x : Option Nat) (s : State) :
    s.Counts o 0 (s.answerRead pile a n x) := counts_trans (s.count_counts_ne ne lost n) (counts_of_tm rfl o)

theorem State.view_congr {s t : State} (quays : t.quays = s.quays) (mem : t.mem = s.mem) : t.view = s.view := by
  unfold State.view
  rw [quays, mem]

theorem State.tensorNamed_congr {s t : State} (job : t.job = s.job) (x : Option Nat) : t.tensorNamed x = s.tensorNamed x := by
  unfold State.tensorNamed
  rw [job]

theorem State.answerRead_out (pile a n : Nat) (x : Option Nat) (s : State) :
    .quayReturn a (s.view.raw a n) (match s.tensorNamed x with | none => [] | some y => loadCodes y s.view a n)
      ∈ (s.answerRead pile a n x).out := by
  have noted := s.count_noted (tpAt pile 0x00) n
  unfold State.answerRead
  dsimp only
  rw [State.view_congr noted.quays noted.mem, State.tensorNamed_congr noted.job]
  exact List.mem_append_right _ List.mem_cons_self

theorem exec_quayRead {s : State} {src : Source} {a n : Nat} (inside : a + max 1 n ≤ Config.memoryEnd) (x : Option Nat) (hits : List ScrubHit) :
    exec (.quayRead src a n x hits) s = .next (s.quayRead src a n x hits).settleReset := if_neg (Nat.not_lt.mpr inside)

/-- Settles O44: a read answers, and its lines are corrected or poisoned. -/
theorem quayReadsAnswer : Obligations.QuayReadsAnswer := by
  unfold Obligations.QuayReadsAnswer
  intro s src a n pile x inside
  refine ⟨rfl, fun settled free => ⟨?_, fun l hl es k one data => ?_⟩, fun none free l hl es off => ?_, fun none refused hits => ?_⟩
  · have noted := s.answerRead_noted (s.pileOf a) a n x
    refine ⟨s.answerRead (s.pileOf a) a n x, ?_, noted, s.answerRead_out (s.pileOf a) a n x⟩
    rw [exec_quayRead inside, State.quayRead_free free]
    exact congrArg Host.Outcome.next (State.settleReset_settled (settled.of_boot noted.boot))
  · obtain ⟨but, run, counts⟩ := s.eccCorrected_spec l
    have checked : s.eccLines a n [⟨l, es⟩] = s.eccCorrected l := by
      rw [State.eccLines_one hl, State.ecc, lineCheck_corrected one data]
    have noted := (s.eccCorrected l).answerRead_noted (s.pileOf a) a n x
    have answered := counts_trans counts ((s.eccCorrected l).answerRead_counts (pile := s.pileOf a)
      (tpAt_ne (j := 0x18) (k := 0) (by decide) (by decide) (by decide)) (tpAt_ne_lost _ _) a n x)
    have all := notedBut_trans but (noted.but _)
    refine ⟨(s.eccCorrected l).answerRead (s.pileOf a) a n x, ?_, ?_, answered.counted⟩
    · rw [exec_quayRead inside, State.quayRead_free free, checked,
        State.settleReset_settled (settled.of_boot (all.rest.same .boot (by decide)))]
    · exact all.noted_run (noted.run.trans (run.trans (by rw [noted.run])))
  · obtain ⟨mode, boot, poisoned⟩ := s.eccPoison_spec l
    have checked : s.eccLines a n [⟨l, es⟩] = s.eccPoison l := by
      rw [State.eccLines_one hl, State.ecc, lineCheck_uncorrectable off]
    have noted := (s.eccPoison l).answerRead_noted (s.pileOf a) a n x
    refine ⟨(s.eccPoison l).answerRead (s.pileOf a) a n x, ?_, (congrArg Boot.mode noted.boot).trans mode, fun still => ?_⟩
    · rw [exec_quayRead inside, State.quayRead_free free, checked,
        State.settleReset_none (by rw [noted.boot, boot, State.enter_resetDue]; exact none)]
    · rw [noted.mem]
      exact poisoned still
  · obtain ⟨g, faults⟩ := State.guarded_refused refused fun s => (s.eccLines a n hits).answerRead (s.pileOf a) a n x
    obtain ⟨mode, boot, -⟩ := s.refusedAccess_fault (sourceRecord src) g
    refine ⟨s.refusedAccess (sourceRecord src) g, ?_, mode, by rw [boot, State.enter_svn]⟩
    rw [exec_quayRead inside, State.quayRead_eq, faults, State.settleReset_none (by rw [boot, State.enter_resetDue]; exact none)]

/-! ## The window -/

theorem State.windowUsed_eq (s : State) : s.windowUsed = { s with freeCtr := s.windowUsed.freeCtr } := by
  unfold State.windowUsed
  split <;> rfl

theorem State.countWrites_noted (a : Nat) (bs : Bytes) (s : State) : s.Noted (s.countWrites a bs) := by
  unfold State.countWrites
  exact List.foldlRecOn (motive := s.Noted) _ _ (noted_refl s) fun y h p _ => noted_trans h (State.count_noted _ _ _)

/-- With no drain pending, a write stores its bytes. -/
theorem State.memWrite_noted {s : State} (still : s.snap.pend = []) (a : Nat) (bs : Bytes) :
    State.Noted { s with mem := s.mem.write a bs } (s.memWrite a bs) := by
  unfold State.memWrite
  rw [still]
  exact State.countWrites_noted a bs _

theorem State.bar2Read_allowed {s : State} {o n : Nat} (may : s.hostMay false (s.window + o) n = true) : s.bar2Read o n []
    = { s.windowUsed with out := s.out ++ [.readReturn o (s.view.raw (s.window + o) n) (s.view.isPoisoned (s.window + o) n)] } := by
  have may' : s.windowUsed.hostMay false (s.window + o) n = true := by
    rw [s.windowUsed_eq]
    exact may
  unfold State.bar2Read
  dsimp only
  rw [if_neg (by simp [may'])]
  rw [s.windowUsed_eq]
  rfl

theorem State.bar2Read_refused {s : State} {o n : Nat} (refused : s.hostMay false (s.window + o) n = false) : s.bar2Read o n []
    = (s.windowUsed.emit (.readReturn o (zeros n) false)).bar2Refused (s.window + o) := by
  have refused' : s.windowUsed.hostMay false (s.window + o) n = false := by
    rw [s.windowUsed_eq]
    exact refused
  unfold State.bar2Read
  dsimp only
  rw [if_pos (by simp [refused'])]

theorem State.windowUsed_hostMay (w : Bool) (a n : Nat) (s : State) : s.windowUsed.hostMay w a n = s.hostMay w a n := by
  rw [s.windowUsed_eq]
  rfl

/-- Settles O46: an allowed access of the window reads or stores, another is a violation of class 2. -/
theorem hostWindow : Obligations.HostWindow := by
  unfold Obligations.HostWindow
  intro s o n d reaches settled
  have read : ∀ u : State, s.bar2Read o n [] = u → u.boot = s.boot → exec (.bar2Read o n []) s = .next u := fun u e boot =>
    congrArg Host.Outcome.next ((if_pos reaches).trans (by rw [e, State.settleReset_settled (settled.of_boot boot)]))
  have write : ∀ u : State, s.bar2Write o d = u → exec (.bar2Write o d) s = .next u := fun u e =>
    congrArg Host.Outcome.next ((if_pos reaches).trans e)
  refine ⟨fun may => read _ (State.bar2Read_allowed may) ?_, fun refused => ?_, fun may still wf => ?_, fun some refused => ?_⟩
  · rw [s.windowUsed_eq]
  · have violated := State.violation_violated 2 none 0 0 (s.window + o) { s.windowUsed with
      out := s.out ++ [.readReturn o (zeros n) false], pcie := { s.pcie with bwRefused := s.window + o } }
    refine ⟨_, read _ ?_ ?_, violated⟩
    · rw [State.bar2Read_refused refused, s.windowUsed_eq]
      rfl
    · rw [violated.1.boot, s.windowUsed_eq]
  · by_cases empty : d = []
    · refine ⟨s.windowUsed, write _ ?_, ?_⟩
      · unfold State.bar2Write
        dsimp only
        rw [if_pos (by simp [empty])]
      · rw [s.windowUsed_eq, empty]
        refine ⟨rfl, rfl, rfl, rfl, rfl, fun b => ?_⟩
        rw [if_neg (by simp)]
    · have still' : s.windowUsed.snap.pend = [] := by
        rw [s.windowUsed_eq]
        exact still
      have wrote := State.memWrite_noted still' (s.window + o) d
      have imported := State.hostImport_only (s.window + o) d.length (List.Subset.refl _)
        (only_refl _ (s.windowUsed.memWrite (s.window + o) d))
      refine ⟨(s.windowUsed.memWrite (s.window + o) d).hostImport (s.window + o) d.length, write _ ?_, ?_⟩
      · unfold State.bar2Write
        dsimp only
        rw [if_neg (by simpa using empty), if_neg (by simp [State.windowUsed_hostMay, may])]
      · have same := s.windowUsed_eq
        refine ⟨(imported.same .boot (by decide)).trans (wrote.boot.trans ?_), (imported.same .power (by decide)).trans (wrote.power.trans ?_),
          (imported.same .cmds (by decide)).trans (wrote.cmds.trans ?_), (imported.same .run (by decide)).trans (wrote.run.trans ?_),
          (imported.same .journal (by decide)).trans (wrote.journal.trans ?_), fun b => ?_⟩
        iterate 5 rw [same]
        rw [show ((s.windowUsed.memWrite (s.window + o) d).hostImport (s.window + o) d.length).mem = _ from
          (imported.same .mem (by decide)).trans wrote.mem, same]
        exact s.mem.byte_write _ _ _
  · have violated := State.violation_violated 2 none 0 0 (s.window + o) { s.windowUsed with pcie := { s.pcie with bwRefused := s.window + o } }
    refine ⟨_, write _ ?_, violated⟩
    unfold State.bar2Write
    dsimp only
    rw [if_neg (by simpa using some), if_pos (by simp [State.windowUsed_hostMay, refused]), s.windowUsed_eq]
    rfl

end Sys2Proof.Machine

/-! PROOF. Writes at the quays, and the copies for a draining snapshot (R40, R202, R213, R215, R216). -/

namespace Sys2Proof.Machine

/-! ## What a store path reports -/

/-- Of the run only the statistics of the step and the events raised once differ. -/
def State.RunReported (s t : State) : Prop := t.run = { s.run with stats := t.run.stats, once := t.run.once }

theorem runReported_refl (s : State) : s.RunReported s := rfl

theorem runReported_trans {s x t : State} (h : s.RunReported x) (g : x.RunReported t) : s.RunReported t := by
  unfold State.RunReported at *
  rw [g, h]

theorem runReported_of_eq {s t : State} (h : t.run = s.run) : s.RunReported t := by
  unfold State.RunReported
  rw [h]

/-- Notes, and an event raised once: the statistics stand. -/
structure State.Once (s t : State) : Prop where
  but : s.NotedBut [.run] t
  run : s.RunReported t
  stats : t.run.stats = s.run.stats

theorem once_trans {s x t : State} (h : s.Once x) (g : x.Once t) : s.Once t :=
  ⟨notedBut_trans h.but g.but, runReported_trans h.run g.run, g.stats.trans h.stats⟩

theorem State.Noted.once {s t : State} (h : s.Noted t) : s.Once t :=
  ⟨h.but _, runReported_of_eq h.run, by rw [h.run]⟩

theorem State.raiseKey_once (key : Nat × Nat × Nat) (code kind index : Nat) (fs : List (Nat × Nat × Nat)) (s : State) :
    s.Once (s.raiseKey key code kind index fs) := by
  unfold State.raiseKey
  split
  · exact (noted_refl s).once
  · have marked : s.Once (s.modRun fun r => { r with once := r.once ++ [key] }) :=
      ⟨notedBut_of_only (modRun_only _ (by decide) (only_refl _ s)), rfl, rfl⟩
    exact once_trans marked (State.raise_noted _ _ _ _ _).once

theorem State.raiseOnce_once (code kind index : Nat) (fs : List (Nat × Nat × Nat)) (s : State) : s.Once (s.raiseOnce code kind index fs) := by
  obtain ⟨but, run⟩ := s.raiseOnce_notedBut code kind index fs
  exact ⟨but, run.trans (by rw [run]), by rw [run]⟩

/-- The statistics of a write join those of the step, and nothing else is left but notes. -/
theorem State.storeReport_spec (a record row col : Nat) (x : Bytes) (st : TensorStat) (s : State) :
    s.NotedBut [.run] (s.storeReport a record row col x st) ∧ s.RunReported (s.storeReport a record row col x st)
      ∧ (s.storeReport a record row col x st).run.stats = mergeInto s.run.stats (tNum x) st := by
  have noted : ∀ y : State, (s.noteStat (tNum x) st).Once y →
      s.NotedBut [.run] y ∧ s.RunReported y ∧ y.run.stats = mergeInto s.run.stats (tNum x) st := fun y h =>
    ⟨notedBut_trans (notedBut_of_only (modRun_only _ (by decide) (only_refl _ s))) h.but, runReported_trans (x := s.noteStat (tNum x) st) rfl h.run,
      h.stats.trans rfl⟩
  unfold State.storeReport
  dsimp only
  refine noted _ ?_
  have cliff : (s.noteStat (tNum x) st).Once (if st.cliff then (s.noteStat (tNum x) st).raiseKey (0x10101, tNum x, 0xFFFF) 0x0101 srcPile
      ((s.noteStat (tNum x) st).pileOf a) [(0x20, 1, CliffCause.conversion.code), (0x24, 4, record), (0x28, 2, tNum x)]
      else s.noteStat (tNum x) st) := by
    split
    · exact State.raiseKey_once _ _ _ _ _ _
    · exact (noted_refl _).once
  split
  · exact once_trans cliff (State.raiseKey_once _ _ _ _ _ _)
  · exact cliff

/-! ## A write within one granule -/

theorem granules_nil (fuel a : Nat) : granules fuel a [] = [] := by
  cases fuel <;> rfl

theorem granules_cons {a : Nat} {w : Bytes} (some : w.isEmpty = false) (fuel : Nat) : granules (fuel + 1) a w
    = (a, w.take (granuleSize - a % granuleSize)) :: granules fuel (a + (granuleSize - a % granuleSize)) (w.drop (granuleSize - a % granuleSize)) := by
  rw [granules, if_neg (by simp [some])]

theorem granules_whole {a : Nat} {w : Bytes} (some : 0 < w.length) (whole : a % granuleSize + w.length ≤ granuleSize) (fuel : Nat) :
    granules (fuel + 1) a w = [(a, w)] := by
  have fits : w.length ≤ granuleSize - a % granuleSize := Nat.le_sub_of_add_le (Nat.add_comm _ _ ▸ whole)
  rw [granules_cons (by simpa using List.ne_nil_of_length_pos some), List.take_of_length_le fits, List.drop_of_length_le fits, granules_nil]

/-- While a drain is pending, a write within one granule goes through the fragment's check. -/
theorem State.memWrite_whole {s : State} (pending : s.snap.pend ≠ []) {a : Nat} {w : Bytes} (some : 0 < w.length)
    (whole : a % granuleSize + w.length ≤ granuleSize) : s.memWrite a w = s.writeGranule a w := by
  unfold State.memWrite
  rw [if_neg (by simpa using pending), granules_whole some whole]
  rfl

theorem State.pend_of_untouched {s : State} {f : Nat × Nat} (h : s.untouched f = true) : s.snap.pend ≠ [] := by
  intro empty
  unfold State.untouched at h
  rw [empty] at h
  exact absurd h (by simp)

/-- Whether a write waits behind earlier ones of its fragment. -/
def State.behind (s : State) (a : Nat) : Bool := (s.quay (s.fragOf a).1).waiting.any fun h => s.fragOf h.addr == s.fragOf a

theorem State.writeGranule_copies {s : State} {a : Nat} (first : s.behind a = false) (fresh : s.untouched (s.fragOf a) = true)
    (room : s.copyRoom (s.fragOf a) = true) (w : Bytes) : s.writeGranule a w = (s.copyFragment (s.fragOf a)).putBytes a w := by
  unfold State.behind at first
  unfold State.writeGranule
  dsimp only
  rw [first, fresh, room, if_neg (by decide), if_pos (by decide)]

/-- A write that waits for room, or behind another. -/
def State.holdWrite (a : Nat) (w : Bytes) (s : State) : State :=
  let f := s.fragOf a
  let s := s.raiseOnce 0x0203 srcPile f.1 [(0x28, 8, f.2 * pageSize), (0x30, 4, (s.quay f.1).free)]
  s.setQuay f.1 fun x => { x with waiting := x.waiting ++ [⟨a, w, s.usec⟩] }

theorem State.writeGranule_holds {s : State} {a : Nat}
    (waits : s.behind a = true ∨ s.untouched (s.fragOf a) = true ∧ s.copyRoom (s.fragOf a) = false) (w : Bytes) :
    s.writeGranule a w = s.holdWrite a w := by
  unfold State.behind at waits
  unfold State.writeGranule
  dsimp only
  rcases waits with behind | ⟨fresh, full⟩
  · rw [behind, if_neg (by simp), if_neg (by simp)]
    rfl
  · rw [fresh, full, if_neg (by simp), if_neg (by simp)]
    rfl

theorem State.putBytes_noted (a : Nat) (w : Bytes) (s : State) : State.Noted { s with mem := s.mem.write a w } (s.putBytes a w) :=
  State.count_noted _ _ _

/-- The copy of a fragment. -/
theorem State.copyFragment_spec (f : Nat × Nat) (s : State) : s.NotedBut [.quays, .snap] (s.copyFragment f)
    ∧ (s.copyFragment f).snap = { s.snap with
        copies := s.snap.copies ++ [(f.1, f.2, s.fragBytes f)],
        badCopies := if s.fragPoisoned f then s.snap.badCopies ++ [f] else s.snap.badCopies } := by
  unfold State.copyFragment
  dsimp only
  generalize hy : ((s.setQuay f.1 fun x => { x with free := x.free - s.copyGranules f.1 f.2 }).modSnap fun x =>
    { x with copies := x.copies ++ [(f.1, f.2, s.fragBytes f)],
             badCopies := if s.fragPoisoned f then x.badCopies ++ [f] else x.badCopies }) = y
  have but : s.NotedBut [.quays, .snap] y := by
    rw [← hy]
    exact notedBut_of_only (modSnap_only _ (by decide) (setQuay_only _ _ (by decide) (only_refl _ s)))
  have noted := noted_trans (y.count_noted (tpAt f.1 0x48) 1) (State.count_noted (tpAt f.1 0x00) (s.fragBytes f).length _)
  refine ⟨notedBut_trans but (noted.but _), noted.snap.trans ?_⟩
  rw [← hy]
  rfl

/-! ## Writes of a request -/

/-- What a write reports of its conversion. -/
def State.reportWrite (a : Nat) (x : Option Nat) (st : TensorStat) (s : State) : State :=
  match s.tensorNamed x with
  | none => s
  | some x => if (tFmt x).isPublic then s.storeReport a 0xFFFFFFFF 0 0 x st else s

/-- The bytes that a write stores, with their statistics. -/
def State.storedOf (s : State) (x : Option Nat) (wide : Bool) (d : Bytes) : Bytes × TensorStat :=
  match s.tensorNamed x with | none => (d, TensorStat.empty) | some x => storeBytes x wide d

theorem State.quayWrite_eq (src : Source) (a : Nat) (x : Option Nat) (d : Bytes) (wide : Bool) (s : State) :
    s.quayWrite src a x d wide [] = s.guarded src [(true, a, (s.storedOf x wide d).1.length)] fun s' =>
      (s'.memWrite a (s.storedOf x wide d).1).reportWrite a x (s.storedOf x wide d).2 := rfl

theorem State.reportWrite_spec (a : Nat) (x : Option Nat) (st : TensorStat) (s : State) :
    s.NotedBut [.run] (s.reportWrite a x st) ∧ s.RunReported (s.reportWrite a x st)
      ∧ ((∀ y, s.tensorNamed x = some y → (tFmt y).isPublic = false) → (s.reportWrite a x st).run.stats = s.run.stats)
      ∧ ∀ y, s.tensorNamed x = some y → (tFmt y).isPublic = true → (s.reportWrite a x st).run.stats = mergeInto s.run.stats (tNum y) st := by
  unfold State.reportWrite
  split
  next absent => exact ⟨(noted_refl s).but _, rfl, fun _ => rfl, fun y e => absurd (absent.symm.trans e) (by simp)⟩
  next z named =>
    split
    next isPub =>
      obtain ⟨but, run, stats⟩ := s.storeReport_spec a 0xFFFFFFFF 0 0 z st
      refine ⟨but, run, fun never => absurd isPub (by simp [never z named]), fun y e _ => ?_⟩
      cases named.symm.trans e
      exact stats
    next other =>
      refine ⟨(noted_refl s).but _, rfl, fun _ => rfl, fun y e isPub => absurd isPub ?_⟩
      cases named.symm.trans e
      exact other

/-- The run after a write and its report. -/
def State.RunStored (s u : State) (x : Option Nat) (st : TensorStat) : Prop :=
  s.RunReported u ∧ ((∀ y, s.tensorNamed x = some y → (tFmt y).isPublic = false) → u.run.stats = s.run.stats)
    ∧ ∀ y, s.tensorNamed x = some y → (tFmt y).isPublic = true → u.run.stats = mergeInto s.run.stats (tNum y) st

theorem State.reportWrite_stored {s y : State} (job : y.job = s.job) (run : s.RunReported y) (stats : y.run.stats = s.run.stats) (a : Nat)
    (x : Option Nat) (st : TensorStat) : s.RunStored (y.reportWrite a x st) x st := by
  obtain ⟨-, reported, kept, merged⟩ := y.reportWrite_spec a x st
  rw [State.tensorNamed_congr job, stats] at kept merged
  exact ⟨runReported_trans run reported, kept, merged⟩

theorem exec_quayWrite {s : State} {src : Source} {a : Nat} {d : Bytes} (inside : a + max 1 d.length ≤ Config.memoryEnd) (x : Option Nat)
    (wide : Bool) : exec (.quayWrite src a x ⟨d, wide⟩ []) s = .next (s.quayWrite src a x d wide []).settleReset :=
  if_neg (Nat.not_lt.mpr inside)

theorem State.quayWrite_free {s : State} {src : Source} {a : Nat} {d w : Bytes} {x : Option Nat} {wide : Bool}
    (bytes : w = (s.storedOf x wide d).1) (free : s.refusedPage src true a w.length = none) :
    s.quayWrite src a x d wide [] = (s.memWrite a w).reportWrite a x (s.storedOf x wide d).2 := by
  subst bytes
  rw [State.quayWrite_eq, State.guarded_free free]

/-- An allowed write with no drain pending. -/
theorem State.storeStill {s : State} (still : s.snap.pend = []) (a : Nat) (w : Bytes) (x : Option Nat) (st : TensorStat) :
    s.NotedBut [.mem, .run] ((s.memWrite a w).reportWrite a x st) ∧ ((s.memWrite a w).reportWrite a x st).mem = s.mem.write a w
      ∧ s.RunStored ((s.memWrite a w).reportWrite a x st) x st := by
  have wrote := State.memWrite_noted still a w
  obtain ⟨but, -⟩ := (s.memWrite a w).reportWrite_spec a x st
  have stored : s.NotedBut [.mem, .run] (s.memWrite a w) :=
    notedBut_trans (x := s.modMem fun m => m.write a w)
      (notedBut_mono (ks := [.mem]) (notedBut_of_only (modMem_only _ (List.Subset.refl _) (only_refl _ s))) (by decide)) (wrote.but _)
  exact ⟨notedBut_trans stored (notedBut_mono but (by decide)), (but.rest.same .mem (by decide)).trans wrote.mem,
    State.reportWrite_stored wrote.job (runReported_of_eq wrote.run) (congrArg Run.stats wrote.run) a x st⟩

theorem State.putBytes_spec (a : Nat) (w : Bytes) (y : State) : y.NotedBut [.mem] (y.putBytes a w) ∧ (y.putBytes a w).mem = y.mem.write a w := by
  have put := State.putBytes_noted a w y
  exact ⟨notedBut_trans (x := y.modMem fun m => m.write a w)
    (notedBut_of_only (modMem_only _ (List.Subset.refl _) (only_refl _ y))) (put.but _), put.mem⟩

theorem State.memWrite_copies {s : State} {a : Nat} {w : Bytes} (some : 0 < w.length) (whole : a % granuleSize + w.length ≤ granuleSize)
    (first : s.behind a = false) (fresh : s.untouched (s.fragOf a) = true) (room : s.copyRoom (s.fragOf a) = true) :
    s.memWrite a w = (s.copyFragment (s.fragOf a)).putBytes a w :=
  (State.memWrite_whole (State.pend_of_untouched fresh) some whole).trans (State.writeGranule_copies first fresh room w)

/-- An allowed write that copies its fragment first. -/
theorem State.copyThenPut (a : Nat) (w : Bytes) (s : State) :
    s.NotedBut [.mem, .quays, .snap] ((s.copyFragment (s.fragOf a)).putBytes a w)
      ∧ ((s.copyFragment (s.fragOf a)).putBytes a w).mem = s.mem.write a w
      ∧ ((s.copyFragment (s.fragOf a)).putBytes a w).snap = (s.copyFragment (s.fragOf a)).snap := by
  obtain ⟨but, -⟩ := State.copyFragment_spec (s.fragOf a) s
  generalize s.copyFragment (s.fragOf a) = y at but
  obtain ⟨put, mem⟩ := y.putBytes_spec a w
  refine ⟨notedBut_trans (notedBut_mono but (by decide)) (notedBut_mono put (by decide)), mem.trans ?_, put.rest.same .snap (by decide)⟩
  rw [but.rest.same .mem (by decide)]

/-- A write that waits stores nothing. -/
theorem State.storeHolds (a : Nat) (w : Bytes) (s : State) : s.NotedBut [.run, .quays] (s.holdWrite a w) ∧ s.RunReported (s.holdWrite a w)
    ∧ (s.holdWrite a w).run.stats = s.run.stats ∧ ((s.fragOf a).1 < s.quays.length →
      ((s.holdWrite a w).quay (s.fragOf a).1).waiting = (s.quay (s.fragOf a).1).waiting ++ [⟨a, w, s.usec⟩]) := by
  have raised := State.raiseOnce_once 0x0203 srcPile (s.fragOf a).1
    [(0x28, 8, (s.fragOf a).2 * pageSize), (0x30, 4, (s.quay (s.fragOf a).1).free)] s
  unfold State.holdWrite
  dsimp only
  generalize State.raiseOnce 0x0203 srcPile (s.fragOf a).1 _ s = y at raised ⊢
  have quays : y.quays = s.quays := raised.but.rest.same .quays (by decide)
  have usec : y.usec = s.usec := raised.but.rest.same .usec (by decide)
  refine ⟨notedBut_trans (notedBut_mono raised.but (by decide)) (notedBut_of_only (setQuay_only _ _ (by decide) (only_refl _ y))),
    raised.run, raised.stats, fun inside => ?_⟩
  rw [State.quay, State.setQuay_eq, State.modQuays_quays, modAt_getD_self _ _ _ _ (by rw [quays]; exact inside), quays, usec]
  rfl

/-- Settles O45: an allowed write stores, copies its fragment first or waits; a refused one is a module fault. -/
theorem quayWritesStore : Obligations.QuayWritesStore := by
  unfold Obligations.QuayWritesStore
  intro s src a x d w wide inside bytes
  dsimp only
  have bytes' : w = (s.storedOf x wide d).1 := by
    rw [bytes]
    unfold State.storedOf
    cases s.tensorNamed x <;> rfl
  have stat : ∀ y, s.tensorNamed x = some y → (s.storedOf x wide d).2 = (storeBytes y wide d).2 := fun y e => by
    unfold State.storedOf
    rw [e]
  refine ⟨fun settled free => ?_, fun none refused still => ?_⟩
  · have stores : ∀ u : State, (s.memWrite a w).reportWrite a x (s.storedOf x wide d).2 = u → u.boot = s.boot →
        exec (.quayWrite src a x ⟨d, wide⟩ []) s = .next u := fun u e boot => by
      rw [exec_quayWrite inside, State.quayWrite_free bytes' free, e, State.settleReset_settled (settled.of_boot boot)]
    refine ⟨fun still wf => ?_, fun whole first fresh room => ?_, fun whole pending waits inside' => ?_⟩
    · obtain ⟨but, mem, run, kept, merged⟩ := State.storeStill still a w x (s.storedOf x wide d).2
      refine ⟨_, stores _ rfl (but.rest.same .boot (by decide)), but.noted, ⟨run, kept⟩,
        fun y e isPub => by rw [merged y e isPub, stat y e], fun b => ?_⟩
      rw [mem]
      exact s.mem.byte_write _ _ _
    · obtain ⟨but, mem, snap⟩ := s.copyThenPut a w
      rw [← State.memWrite_copies whole.1 whole.2 first fresh room] at but mem snap
      obtain ⟨reported, -⟩ := (s.memWrite a w).reportWrite_spec a x (s.storedOf x wide d).2
      have same : (s.memWrite a w).run = s.run := but.rest.same .run (by decide)
      obtain ⟨run, kept, -⟩ := State.reportWrite_stored (but.rest.same .job (by decide)) (runReported_of_eq same)
        (congrArg Run.stats same) a x (s.storedOf x wide d).2
      have all := notedBut_trans (notedBut_mono (ls := [.mem, .run, .quays, .snap]) but (by decide)) (notedBut_mono reported (by decide))
      refine ⟨_, stores _ rfl (all.rest.same .boot (by decide)), (reported.rest.same .mem (by decide)).trans mem,
        all.rest.same .job (by decide), all.rest.same .boot (by decide), all.rest.same .cmds (by decide), ⟨run, kept⟩, ?_⟩
      exact (reported.rest.same .snap (by decide)).trans (snap.trans (State.copyFragment_spec _ s).2)
    · obtain ⟨but, run', stats, held⟩ := s.storeHolds a w
      have holds : s.memWrite a w = s.holdWrite a w :=
        (State.memWrite_whole pending whole.1 whole.2).trans (State.writeGranule_holds waits w)
      obtain ⟨reported, -⟩ := (s.holdWrite a w).reportWrite_spec a x (s.storedOf x wide d).2
      obtain ⟨run, kept, -⟩ := State.reportWrite_stored (but.rest.same .job (by decide)) run' stats a x (s.storedOf x wide d).2
      have all := notedBut_trans but (notedBut_mono reported (by decide))
      refine ⟨_, stores _ (by rw [holds]) (all.rest.same .boot (by decide)), all.rest.same .mem (by decide),
        all.rest.same .job (by decide), all.rest.same .boot (by decide), all.rest.same .cmds (by decide), ⟨run, kept⟩,
        all.rest.same .snap (by decide), ?_⟩
      rw [State.quay, reported.rest.same .quays (by decide)]
      exact held inside'
  · subst bytes'
    obtain ⟨g, faults⟩ := State.guarded_refused refused fun s' =>
      (s'.memWrite a (s.storedOf x wide d).1).reportWrite a x (s.storedOf x wide d).2
    obtain ⟨mode, boot, mem⟩ := s.refusedAccess_fault (sourceRecord src) g
    refine ⟨s.refusedAccess (sourceRecord src) g, ?_, mode, mem still⟩
    rw [exec_quayWrite inside, State.quayWrite_eq, faults, State.settleReset_none (by rw [boot, State.enter_resetDue]; exact none)]

end Sys2Proof.Machine

/-! PROOF. The regions, the scrub and the packer (R130, R131, R133, R200, R211). -/

namespace Sys2Proof.Machine

/-- One REGION_OPEN of a single A64 location at address 0, with three completions and φ = 4. -/
def lonelyRegion : Bytes := layout 48 [(0, 1, 5), (0x18, 4, 1), (0x1C, 1, 1), (0x22, 1, 4), (0x24, 2, 3), (0x26, 2, 0xFFFF)]

/-- A table of that record alone. -/
def lonelyTable : Table := ⟨[], [], [(secTides, [lonelyRegion])], 0, 0, [], [], [], 0, 0⟩

/-- A run of that table whose open region lists location 0 twice in its block counts. -/
def twiceListed : State :=
  { State.reset with
    boot := { State.reset.boot with mode := .running }
    job := { Job.reset with table := some lonelyTable }
    run := { Run.reset with kind := .serving, regions := [⟨0, 0, true, [], [(0, 0), (0, 5)], [], false, []⟩] }
    mem := { Mem.reset with classes := [(0, 2)] } }

/-- A contribution without blocks. -/
def oneAdd : Contribution := ⟨1, false, false, 0⟩

theorem twiceListed_add : ((twiceListed.addIn 0 0 0 twiceListed.job.step twiceListed.job.attempt oneAdd).region? 0 0).map
    (fun x => kvGet x.blocks 0) = some 5 := by decide

/-- Refutes O47: a region whose block counts list a location twice shows the hidden entry once an add without blocks has removed the
entry of 0 before it. -/
theorem not_regionsScrubAndPacker : ¬ Obligations.RegionsScrubAndPacker := by
  unfold Obligations.RegionsScrubAndPacker
  intro h
  obtain ⟨-, adds, -⟩ := h twiceListed lonelyTable rfl
  obtain ⟨u, x, ran, found, -, blocks, -⟩ := (adds 0 0 0 oneAdd (by decide) (by decide) (by decide) (by decide)).2
    ⟨0, 0, true, [], [(0, 0), (0, 5)], [], false, []⟩ 0 rfl rfl (by decide) rfl rfl (by decide) (by decide) (by decide) rfl (by decide)
  cases ran
  have five := twiceListed_add
  rw [found] at five
  exact absurd (blocks.symm.trans (Option.some.inj five)) (by decide)

end Sys2Proof.Machine

/-! PROOF. UNLOAD, and the commands that restore and join (R191, R296 to R298, R341 to R343, R470). -/

namespace Sys2Proof.Machine

/-! ## UNLOAD -/

/-- The parts of the state without a table, once the module has left its harbour. -/
def State.tableGone (s : State) : State :=
  let s := (s.modMem fun m => { m with classes := [] }).modJob fun _ => Job.reset
  let s := s.modJournal fun j => { Journal.reset with flashOk := j.flashOk }
  let s := s.modSnap fun x => { Snap.reset with hostBase := x.hostBase, hostLen := x.hostLen }
  let s := s.modRun fun r => { Run.reset with nextTag := r.nextTag }
  let s := s.modStalls fun l => l.map fun x =>
    { x.dropped with state := if 3 ≤ x.state then x.state else 0, dvfs := 0, target := none, pipeline := 0 }
  s.modQuays fun l => l.map fun x => { x with free := 0, waiting := [] }

/-- The pages of the active table, to be zeroed. -/
def State.activePages (s : State) : List Nat := match s.job.table with | none => [] | some t => t.pages

theorem State.unload_eq (s : State) : s.unload = (((((s.outOfHarbour false).zeroPages s.activePages).tableGone).setDomains inertDomains).modPower
    fun p => { p with thermal := [], cool := [], halved := [] }).enter .inert := rfl

/-- The INERT defaults that UNLOAD leaves. -/
structure State.Unloaded (s u : State) : Prop where
  mode : u.mode = .inert
  job : u.job = Job.reset
  classes : u.mem.classes = []
  own : u.journal.own = []
  partner : u.journal.partner = []
  store : u.snap.store = []
  joined : u.harbour.joined = false
  kind : u.run.kind = .none
  domains : u.power.domains = inertDomains ||| domainMask (s.testNeeds.filter fun d => !inertDomains.getLsbD d)

theorem State.testNeeds_congr {s t : State} (h : t.test = s.test) : t.testNeeds = s.testNeeds := by
  unfold State.testNeeds
  rw [h]

theorem State.setDomains_domains (base : BitVec 99) (s : State) :
    (s.setDomains base).power.domains = base ||| domainMask (s.testNeeds.filter fun d => !base.getLsbD d) := rfl

theorem State.tableGone_test (s : State) : s.tableGone.test = s.test := by simp [State.tableGone]

theorem State.unload_unloaded (s : State) : s.Unloaded s.unload := by
  have out : Only [.out, .power, .pcie, .log, .tm, .stalls, .harbour, .ports] s (s.outOfHarbour false) :=
    State.outOfHarbour_only _ (List.Subset.refl _) (only_refl _ s)
  have zero : Only [.mem] (s.outOfHarbour false) ((s.outOfHarbour false).zeroPages s.activePages) :=
    State.zeroPages_only _ (List.Subset.refl _) (only_refl _ _)
  have joined : ((s.outOfHarbour false).zeroPages s.activePages).harbour.joined = false := by
    rw [zero.same .harbour (by decide)]
    exact (s.outOfHarbour_harbour false).1
  have test : ((s.outOfHarbour false).zeroPages s.activePages).test = s.test :=
    (zero.same .test (by decide)).trans (out.same .test (by decide))
  rw [State.unload_eq]
  generalize (s.outOfHarbour false).zeroPages s.activePages = y at joined test
  generalize hx : ((y.tableGone.setDomains inertDomains).modPower fun p => { p with thermal := [], cool := [], halved := [] }) = x
  have entered := State.enter_only .inert (List.Subset.refl _) (only_refl _ x)
  have at_ : ∀ k : Part, k ≠ .boot → x.SameAt (x.enter .inert) k := fun k ne => entered.same k (by simpa using ne)
  refine ⟨State.enter_mode _ _, (at_ .job (by decide)).trans ?_, (congrArg Mem.classes (at_ .mem (by decide))).trans ?_,
    (congrArg Journal.own (at_ .journal (by decide))).trans ?_, (congrArg Journal.partner (at_ .journal (by decide))).trans ?_,
    (congrArg Snap.store (at_ .snap (by decide))).trans ?_, (congrArg Harbour.joined (at_ .harbour (by decide))).trans ?_,
    (congrArg Run.kind (at_ .run (by decide))).trans ?_, (congrArg Power.domains (at_ .power (by decide))).trans ?_⟩
  iterate 5 (rw [← hx]; rfl)
  · rw [← hx]
    exact joined
  · rw [← hx]
    rfl
  · rw [← hx, State.modPower_power, ← State.testNeeds_congr (y.tableGone_test.trans test)]
    exact State.setDomains_domains inertDomains y.tableGone

theorem State.Unloaded.of_only {s x u : State} (h : s.Unloaded x) (g : Only [.out, .pcie, .cqs, .cmds, .log, .tm] x u) :
    s.Unloaded u where
  mode := (congrArg Boot.mode (g.same .boot (by decide))).trans h.mode
  job := (g.same .job (by decide)).trans h.job
  classes := (congrArg Mem.classes (g.same .mem (by decide))).trans h.classes
  own := (congrArg Journal.own (g.same .journal (by decide))).trans h.own
  partner := (congrArg Journal.partner (g.same .journal (by decide))).trans h.partner
  store := (congrArg Snap.store (g.same .snap (by decide))).trans h.store
  joined := (congrArg Harbour.joined (g.same .harbour (by decide))).trans h.joined
  kind := (congrArg Run.kind (g.same .run (by decide))).trans h.kind
  domains := (congrArg Power.domains (g.same .power (by decide))).trans h.domains

/-- Settles O11: the table's commands end, and the module returns to the INERT defaults. -/
theorem unloadReturnsToInert : Obligations.UnloadReturnsToInert := by
  unfold Obligations.UnloadReturnsToInert
  intro s sq cid c t waits idle free table
  have dropped : Only [.out, .pcie, .cqs, .cmds, .log, .tm] s s.dropJobCmds := State.dropJobCmds_only (List.Subset.refl _) (only_refl _ s)
  have left := s.dropJobCmds.unload_unloaded
  have ended : Only [.out, .pcie, .cqs, .cmds, .log, .tm] s.dropJobCmds.unload (s.dropJobCmds.unload.finishCmd c .ok t.pageBytes 0) :=
    State.finishCmd_only _ _ _ _ (List.Subset.refl _) (only_refl _ _)
  obtain ⟨mode, job, classes, own, partner, store, joined, kind, domains⟩ := left.of_only ended
  refine ⟨_, (onCmd_eq waits).trans (congrArg Host.Outcome.next ?_), mode, job, classes, own, partner, store, joined, kind, ?_⟩
  · unfold State.unloadTable
    rw [idle, free, table]
    rfl
  · rw [domains, State.testNeeds_congr (dropped.same .test (by decide))]

end Sys2Proof.Machine

/-! PROOF. What the writes of tides and host layers leave of the run, and FEED of a host-layer result (R28, R42, R180, R375). -/

namespace Sys2Proof.Machine

/-! ## The run after writes -/

/-- Writes touch of the run its statistics, the events raised once, the row statistics of a recomputed group and what requests have met. -/
def State.RunWrote (s t : State) : Prop :=
  t.run = { s.run with stats := t.run.stats, once := t.run.once, latent := t.run.latent, serves := t.run.serves }

theorem runWrote_refl (s : State) : s.RunWrote s := rfl

theorem runWrote_trans {s x t : State} (h : s.RunWrote x) (g : x.RunWrote t) : s.RunWrote t := by
  unfold State.RunWrote at *
  rw [g, h]

theorem runWrote_of_eq {s t : State} (h : t.run = s.run) : s.RunWrote t := by
  unfold State.RunWrote
  rw [h]

theorem State.Once.runWrote {s t : State} (h : s.Once t) : s.RunWrote t := by
  unfold State.RunWrote
  rw [h.run]

theorem foldl_runWrote {α : Type} {f : State → α → State} (hf : ∀ (y : State) (a : α), y.RunWrote (f y a)) (l : List α) (s : State) : s.RunWrote (l.foldl f s) :=
  foldl_inv (P := s.RunWrote) (fun y a h => runWrote_trans h (hf y a)) l (runWrote_refl s)

theorem State.holdWrite_runWrote (a : Nat) (w : Bytes) (s : State) : s.RunWrote (s.holdWrite a w) := by
  obtain ⟨-, run, -⟩ := s.storeHolds a w
  unfold State.RunWrote
  rw [run]

theorem State.writeGranule_runWrote (a : Nat) (w : Bytes) (s : State) : s.RunWrote (s.writeGranule a w) := by
  by_cases waits : s.behind a = true ∨ s.untouched (s.fragOf a) = true ∧ s.copyRoom (s.fragOf a) = false
  · rw [State.writeGranule_holds waits]
    exact s.holdWrite_runWrote a w
  · have put : ∀ y : State, y.run = s.run → s.RunWrote (y.putBytes a w) := fun y e =>
      runWrote_of_eq (((y.putBytes_spec a w).1.rest.same .run (by decide)).trans e)
    rw [not_or, Bool.not_eq_true] at waits
    obtain ⟨first, room⟩ := waits
    cases fresh : s.untouched (s.fragOf a)
    · rw [State.behind] at first
      unfold State.writeGranule
      dsimp only
      rw [first, fresh, if_pos (by decide)]
      exact put s rfl
    · rw [State.writeGranule_copies first fresh (by simpa [fresh] using room)]
      exact put _ ((State.copyFragment_spec _ s).1.rest.same .run (by decide))

theorem State.memWrite_runWrote (a : Nat) (w : Bytes) (s : State) : s.RunWrote (s.memWrite a w) := by
  unfold State.memWrite
  split
  · exact runWrote_of_eq (State.countWrites_noted a w _).run
  · have step : ∀ (y : State) (p : Nat × Bytes), y.RunWrote (y.writeGranule p.1 p.2) := fun y p => y.writeGranule_runWrote p.1 p.2
    exact foldl_runWrote step _ s

theorem State.noteStat_runWrote (n : Nat) (st : TensorStat) (s : State) : s.RunWrote (s.noteStat n st) := rfl

theorem State.storeReport_runWrote (a record row col : Nat) (x : Bytes) (st : TensorStat) (s : State) :
    s.RunWrote (s.storeReport a record row col x st) := by
  obtain ⟨-, run, -⟩ := s.storeReport_spec a record row col x st
  unfold State.RunWrote
  rw [run]

theorem State.spoil_runWrote (u : Tide) (x : Bytes) (row : Nat) (s : State) : s.RunWrote (s.spoil u x row) := by
  unfold State.spoil
  split
  · exact runWrote_refl s
  · rfl

theorem State.reportRow_runWrote (u : Tide) (x : Bytes) (row c0 tile : Nat) (accCliff : Bool) (c : ClosedRow) (s : State) :
    s.RunWrote (s.reportRow u x row c0 tile accCliff c) := by
  have spoiled : s.RunWrote (if c.stat.cliff && !accCliff then s.spoil u x row else s) := by
    split
    · exact s.spoil_runWrote u x row
    · exact runWrote_refl s
  unfold State.reportRow
  dsimp only
  refine runWrote_trans spoiled ?_
  generalize (if c.stat.cliff && !accCliff then s.spoil u x row else s) = y
  split
  · exact State.storeReport_runWrote _ _ _ _ _ _ _
  · have cliff : y.RunWrote (if c.stat.cliff && !accCliff then
        (y.noteStat (tNum x) c.stat).cliffEvent u (tileOwner u.idx u.bytes) (tNum x) tile .conversion else y.noteStat (tNum x) c.stat) := by
      refine runWrote_trans (State.noteStat_runWrote (tNum x) c.stat y) ?_
      split
      · exact (State.raiseKey_once _ _ _ _ _ _).runWrote
      · exact runWrote_refl _
    split
    · exact runWrote_trans cliff (State.raiseKey_once _ _ _ _ _ _).runWrote
    · exact cliff

theorem State.putRowAt_runWrote (u : Tide) (x : Bytes) (row r c0 : Nat) (f : Fmt) (codes : List Nat) (scales : List Int) (s : State) :
    s.RunWrote (s.putRowAt u x row r c0 f codes scales) := by
  unfold State.putRowAt
  split
  · exact foldl_runWrote (fun y p => runWrote_trans (State.memWrite_runWrote _ _ y) (State.memWrite_runWrote _ _ _)) _ s
  · split
    · exact foldl_runWrote (fun y p => State.memWrite_runWrote _ _ y) _ s
    · exact State.memWrite_runWrote _ _ s

theorem State.putTokenCopy_runWrote (u : Tide) (x : Bytes) (row0 c0 : Nat) (rows : List (List Val)) (s : State) :
    s.RunWrote (s.putTokenCopy u x row0 c0 rows) := by
  unfold State.putTokenCopy
  split
  · exact runWrote_refl s
  · exact foldl_runWrote (fun y k => foldl_runWrote
      (fun y c => runWrote_trans (State.memWrite_runWrote _ _ y) (State.memWrite_runWrote _ _ _)) _ y) _ s

theorem State.frameWrite_runWrote (pages : List Nat) (off : Nat) (bs : Bytes) (s : State) : s.RunWrote (s.frameWrite pages off bs) :=
  foldl_runWrote (fun y _ => State.memWrite_runWrote _ _ y) _ s

theorem State.putCheckpoint_runWrote (u : Tide) (x : Bytes) (row c0 : Nat) (c : ClosedRow) (s : State) :
    s.RunWrote (s.putCheckpoint u x row c0 c) := by
  unfold State.putCheckpoint
  split
  · exact runWrote_refl s
  · split
    · exact runWrote_refl s
    · refine foldl_runWrote (fun y r => ?_) _ s
      dsimp only
      split
      · exact runWrote_trans (State.frameWrite_runWrote _ _ _ y) (State.frameWrite_runWrote _ _ _ _)
      · exact State.frameWrite_runWrote _ _ _ y

theorem State.putValue_runWrote (u : Tide) (x : Bytes) (row c0 : Nat) (codes : List Nat) (s : State) : s.RunWrote (s.putValue u x row c0 codes) := by
  unfold State.putValue
  dsimp only
  refine foldl_runWrote (fun y v => ?_) _ s
  split
  · exact runWrote_trans (State.memWrite_runWrote _ _ y) (runWrote_trans (State.memWrite_runWrote _ _ _)
      (runWrote_trans (State.memWrite_runWrote _ _ _) (State.reportRow_runWrote _ _ _ _ _ _ _ _)))
  · exact State.memWrite_runWrote _ _ y

theorem State.putOut_runWrote (u : Tide) (x : Bytes) (row c0 tile : Nat) (accCliff : Bool) (c : ClosedRow) (s : State) :
    s.RunWrote (s.putOut u x row c0 tile accCliff c) := by
  unfold State.putOut
  split
  · split
    · exact runWrote_refl s
    · refine runWrote_trans ?_ (State.reportRow_runWrote _ _ _ _ _ _ _ _)
      split
      · exact State.putRowAt_runWrote _ _ _ _ _ _ _ _ s
      · exact State.putValue_runWrote _ _ _ _ _ s
  · exact runWrote_trans (State.putRowAt_runWrote _ _ _ _ _ _ _ _ s)
      (runWrote_trans (State.putCheckpoint_runWrote _ _ _ _ _ _) (State.reportRow_runWrote _ _ _ _ _ _ _ _))

theorem State.putVals_runWrote (u : Tide) (x : Bytes) (row c0 tile : Nat) (adj : TensorStat → TensorStat) (vs : List Val) (s : State) :
    s.RunWrote (s.putVals u x row c0 tile adj vs) := State.putOut_runWrote _ _ _ _ _ _ _ s

theorem State.putLayer_runWrote (u : Tide) (y : Bytes) (f : Fmt) (d : Bytes) (s : State) : s.RunWrote (s.putLayer u y f d) := by
  unfold State.putLayer
  split
  · exact foldl_runWrote (fun z p => State.memWrite_runWrote _ _ z) _ s
  · exact runWrote_trans (foldl_runWrote (fun z p => State.putVals_runWrote _ _ _ _ _ _ _ z) _ s) (State.putTokenCopy_runWrote _ _ _ _ _ _)

/-! ## A tide completes -/

theorem find?_map_status {i inst : Nat} (f : TideInst → TideInst) (same : ∀ u, (f u).tide = u.tide ∧ (f u).inst = u.inst) (l : List TideInst) :
    (l.map f).find? (fun u => u.tide == i && u.inst == inst) = (l.find? fun u => u.tide == i && u.inst == inst).map f := by
  rw [List.find?_map]
  refine congrArg (Option.map f) (congrArg (fun p => l.find? p) (funext fun u => ?_))
  rw [Function.comp_apply, (same u).1, (same u).2]

/-- The status of a tide after one has been set. -/
theorem State.tideStatus_setTide (i inst j k : Nat) (st : TideStatus) (s : State) : (s.setTide j k st).tideStatus? i inst
    = (s.tideStatus? i inst).map fun old => if i = j ∧ inst = k then st else old := by
  unfold State.tideStatus? State.setTide
  rw [State.modRun_run, find?_map_status _ (fun u => by split <;> exact ⟨rfl, rfl⟩)]
  cases found : s.run.tides.find? fun u => u.tide == i && u.inst == inst with
  | none => rfl
  | some u =>
    have key : u.tide = i ∧ u.inst = inst := by simpa using List.find?_some found
    obtain ⟨rfl, rfl⟩ := key
    by_cases same : u.tide = j ∧ u.inst = k
    · obtain ⟨rfl, rfl⟩ := same
      simp
    · simp only [Option.map_some]
      rw [if_neg (by simpa using same), if_neg same]

theorem State.tideStatus_tideOver (i inst j k : Nat) (s : State) : (s.tideOver j k).tideStatus? i inst
    = (s.tideStatus? i inst).map fun old => if i = j ∧ inst = k then .done else old := State.tideStatus_setTide i inst j k .done s

/-- What is done stays done while BARRIERs pass. -/
theorem State.passBarriers_done {s : State} {i inst : Nat} (done : s.tideStatus? i inst = some .done) (t : Table) :
    (s.passBarriers t).tideStatus? i inst = some .done := by
  unfold State.passBarriers
  refine foldl_inv (P := fun y => y.tideStatus? i inst = some .done) (fun y u h => ?_) _ done
  split
  · rw [State.tideStatus_tideOver, h, Option.map_some, ite_self]
  · exact h

/-- A tide that is known completes: progress is made, and of the run only the tides' statuses change. -/
theorem State.tideDone_spec {s : State} {i inst : Nat} {st : TideStatus} (known : s.tideStatus? i inst = some st) (t : Table) :
    s.TidesOver (s.tideDone t i inst) ∧ (s.tideDone t i inst).tideStatus? i inst = some .done
      ∧ s.job.progress < (s.tideDone t i inst).job.progress := by
  have ends := tidesOver_trans (s.tideOver_over i inst) (State.passBarriers_over t (s.tideOver i inst))
  have done : (s.tideOver i inst).tideStatus? i inst = some .done := by
    rw [State.tideStatus_tideOver, known]
    simp
  refine ⟨ends, State.passBarriers_done done t, ?_⟩
  obtain ⟨ts, n, e⟩ := State.passBarriers_over t (s.tideOver i inst)
  unfold State.tideDone
  rw [e]
  show s.job.progress < s.job.progress + 1 + n
  omega

/-! ## FEED of a host-layer result -/

theorem State.group?_congr {s t : State} (groups : t.run.groups = s.run.groups) (inst : Nat) : t.group? inst = s.group? inst := by
  unfold State.group?
  rw [groups]

theorem State.place_congr {s t : State} (groups : t.run.groups = s.run.groups) (u : Tide) (x : Bytes) (row a : Nat) :
    t.place u x row a = s.place u x row a := by
  unfold State.place State.frameAddr
  rw [State.group?_congr groups]

theorem State.extent_congr {s t : State} (groups : t.run.groups = s.run.groups) (serves : t.run.serves = s.run.serves) (u : Tide) (x : Bytes) :
    t.extent u x = s.extent u x := by
  unfold State.extent
  rw [State.group?_congr groups, serves]

theorem State.refusedPage_congr {s t : State} (classes : t.mem.classes = s.mem.classes) (src : Source) (w : Bool) (a n : Nat) :
    t.refusedPage src w a n = s.refusedPage src w a n := by
  unfold State.refusedPage Mem.classOf
  rw [classes]

theorem State.guarded_all {s : State} {src : Source} {rs : List (Bool × Nat × Nat)}
    (free : (rs.findSome? fun r => s.refusedPage src r.1 r.2.1 r.2.2) = none) (f : State → State) : s.guarded src rs f = f s := by
  unfold State.guarded
  rw [free]

theorem State.lateLayer_rest (q : HostReq) (allow : Nat) (s : State) : Only [.out, .pcie, .cmds, .log, .tm] s (s.lateLayer q allow) :=
  State.lateLayer_only q allow (List.Subset.refl _) (only_refl _ s)

/-- A result as it is stored where nothing refuses it. -/
def State.resultStored (t : Table) (q : HostReq) (y r d : Bytes) (f : Fmt) (s : State) : State :=
  (((s.lateLayer q (fld r (if q.dir = 0 then 4 else 8) 4)).putLayer ⟨t, q.tide, q.inst⟩ y f d).modRun fun x =>
    { x with hostReqs := x.hostReqs.filter fun z => z.tag != q.tag })

theorem State.hostResult_stores {s : State} {t : Table} {q : HostReq} {y r d : Bytes} {f : Fmt}
    (out : t.tensor? (hlOut (⟨t, q.tide, q.inst⟩ : Tide).bytes) = some y) (layer : t.hostLayer? q.layer = some r) (fmt : Fmt.ofCode (fld r 1 1) = some f)
    (free : ((s.layerReach ⟨t, q.tide, q.inst⟩ y true).findSome? fun a => s.refusedPage (.tide q.tide) a.1 a.2.1 a.2.2) = none) :
    s.hostResult t q d = (s.resultStored t q y r d f).tideDone t q.tide q.inst := by
  have late := s.lateLayer_rest q (fld r (if q.dir = 0 then 4 else 8) 4)
  unfold State.hostResult
  dsimp only
  rw [out, layer]
  dsimp only
  rw [fmt]
  dsimp only
  rw [State.guarded_all]
  · rfl
  · have run := late.same .run (by decide)
    have same : ∀ w a n, (s.lateLayer q (fld r (if q.dir = 0 then 4 else 8) 4)).refusedPage (.tide q.tide) w a n
        = s.refusedPage (.tide q.tide) w a n :=
      State.refusedPage_congr (congrArg Mem.classes (late.same .mem (by decide))) _
    unfold State.layerReach
    rw [State.extent_congr (congrArg Run.groups run) (congrArg Run.serves run)]
    simp only [same]
    exact free

/-- With no drain pending, a list of writes, whose addresses the run gives, stores its bytes in turn. -/
theorem State.foldl_memWrite {α : Type} {a : State → α → Nat} (stable : ∀ (y z : State) (x : α), y.run = z.run → a y x = a z x) (b : α → Bytes)
    (l : List α) {s : State} (still : s.snap.pend = []) :
    (l.foldl (fun y x => y.memWrite (a y x) (b x)) s).mem = l.foldl (fun m x => m.write (a s x) (b x)) s.mem := by
  induction l generalizing s with
  | nil => rfl
  | cons x l ih =>
    have wrote := State.memWrite_noted still (a s x) (b x)
    rw [List.foldl_cons, List.foldl_cons]
    generalize s.memWrite (a s x) (b x) = y at wrote
    have run : y.run = s.run := wrote.run
    have same : ∀ z, a y z = a s z := fun z => stable y s z run
    rw [ih ((congrArg Snap.pend wrote.snap).trans still), wrote.mem]
    simp only [same]

theorem State.putLayer_mem {s : State} (still : s.snap.pend = []) {u : Tide} {y : Bytes} {f : Fmt} (own : tFmt y = f) (d : Bytes) :
    (s.putLayer u y f d).mem = (rowsOfN (tCols y * elemBytes f) d).zipIdx.foldl
      (fun m p => m.write (s.place u y p.2 (elemAddr y 0 (u.rowIn y p.2) 0)) p.1) s.mem := by
  unfold State.putLayer
  rw [if_pos own]
  have stable : ∀ (z w : State) (p : Bytes × Nat), z.run = w.run →
      z.place u y p.2 (elemAddr y 0 (u.rowIn y p.2) 0) = w.place u y p.2 (elemAddr y 0 (u.rowIn y p.2) 0) :=
    fun z w p run => State.place_congr (congrArg Run.groups run) u y p.2 _
  exact State.foldl_memWrite (α := Bytes × Nat) (a := fun s p => s.place u y p.2 (elemAddr y 0 (u.rowIn y p.2) 0))
    stable (fun p => p.1) _ still

theorem State.resultStored_mem {s : State} (still : s.snap.pend = []) (t : Table) (q : HostReq) {y : Bytes} (r d : Bytes) {f : Fmt}
    (own : tFmt y = f) : (s.resultStored t q y r d f).mem = (rowsOfN (tCols y * elemBytes f) d).zipIdx.foldl
      (fun m p => m.write (s.place ⟨t, q.tide, q.inst⟩ y p.2 (elemAddr y 0 ((⟨t, q.tide, q.inst⟩ : Tide).rowIn y p.2) 0)) p.1) s.mem := by
  have late := s.lateLayer_rest q (fld r (if q.dir = 0 then 4 else 8) 4)
  unfold State.resultStored
  rw [State.modRun_mem, State.putLayer_mem ((congrArg Snap.pend (late.same .snap (by decide))).trans still) own, late.same .mem (by decide)]
  simp only [State.place_congr (congrArg Run.groups (late.same .run (by decide)))]

/-- What is left once a result has been stored. -/
theorem State.resultStored_spec (t : Table) (q : HostReq) (y r d : Bytes) (f : Fmt) (s : State) :
    Only [.out, .pcie, .cmds, .log, .tm, .mem, .run, .quays, .snap] s (s.resultStored t q y r d f)
      ∧ (s.resultStored t q y r d f).run.hostReqs = s.run.hostReqs.filter (fun z => z.tag != q.tag)
      ∧ (s.resultStored t q y r d f).run.tides = s.run.tides
      ∧ s.out <+: (s.resultStored t q y r d f).out := by
  have late := s.lateLayer_rest q (fld r (if q.dir = 0 then 4 else 8) 4)
  have sent := (State.lateLayer_kept q (fld r (if q.dir = 0 then 4 else 8) 4) (kept_refl s)).sent
  unfold State.resultStored
  generalize s.lateLayer q (fld r (if q.dir = 0 then 4 else 8) 4) = x at late sent
  have put : Only [.out, .pcie, .log, .tm, .mem, .run, .quays, .snap] x (x.putLayer ⟨t, q.tide, q.inst⟩ y f d) :=
    State.putLayer_only _ _ _ _ (List.Subset.refl _) (only_refl _ x)
  have run := x.putLayer_runWrote ⟨t, q.tide, q.inst⟩ y f d
  have sent' := (State.putLayer_kept ⟨t, q.tide, q.inst⟩ y f d (kept_refl x)).sent
  generalize x.putLayer ⟨t, q.tide, q.inst⟩ y f d = z at put run sent' ⊢
  unfold State.RunWrote at run
  have same : x.run = s.run := late.same .run (by decide)
  refine ⟨modRun_only _ (by decide) (only_trans (only_mono late (by decide)) (only_mono put (by decide))), ?_, ?_, sent.trans sent'⟩
  · rw [State.modRun_run, run, same]
  · rw [State.modRun_run, run, same]

/-- Settles O13: the result is stored, its request closed and its tide done. -/
theorem hostLayerResultAnswersItsRequest : Obligations.HostLayerResultAnswersItsRequest := by
  unfold Obligations.HostLayerResultAnswersItsRequest
  intro s sq cid data c t q waits kind table asked
  dsimp only
  have feeds : exec (.feedHostLayerResult sq cid data) s
      = .next ((s.hostResult t q (s.dataOf c data)).finishCmd c .ok (Config.batchDigest (s.dataOf c data)).toNat 0) := by
    refine (onCmd_eq (f := fun c s => if eKind c.entry = 2 then s.feedResult c data else s) waits).trans ?_
    rw [if_pos kind]
    unfold State.feedResult
    rw [table, asked]
  refine ⟨feeds, fun y r f out layer fmt free started => ?_⟩
  rw [feeds, State.hostResult_stores out layer fmt free]
  obtain ⟨rest, reqs, tides, sent⟩ := s.resultStored_spec t q y r (s.dataOf c data) f
  have mem := fun (still : s.snap.pend = []) (own : tFmt y = f) => State.resultStored_mem still t q r (s.dataOf c data) own
  generalize s.resultStored t q y r (s.dataOf c data) f = x at rest reqs tides sent mem ⊢
  have known : x.tideStatus? q.tide q.inst = some .started := by
    unfold State.tideStatus? at started ⊢
    rw [tides]
    exact started
  obtain ⟨⟨ts, n, same⟩, done, progress⟩ := State.tideDone_spec known t
  have completes : Only [.job, .run] x (x.tideDone t q.tide q.inst) := State.tideDone_only _ _ _ (List.Subset.refl _) (only_refl _ x)
  have reqs' : (x.tideDone t q.tide q.inst).run.hostReqs = x.run.hostReqs := by rw [same]
  have out' : (x.tideDone t q.tide q.inst).out = x.out := by rw [same]
  generalize x.tideDone t q.tide q.inst = z at done progress completes reqs' out'
  have reported := State.finishCmd_reported c .ok (Config.batchDigest (s.dataOf c data)).toNat 0 z
  have all : Only [.out, .pcie, .cmds, .log, .tm, .mem, .run, .quays, .snap, .job] s z :=
    only_trans (only_mono rest (by decide)) (only_mono completes (by decide))
  refine ⟨_, rfl, ?_, ?_, ?_, reported.boot.trans (all.same .boot (by decide)), reported.power.trans (all.same .power (by decide)),
    fun fits => finishCmd_entry (all.same .cqs (by decide)) (all.same .sqs (by decide)) (all.same .usec (by decide)) ?_ fits _ _ _,
    fun own still => ?_⟩
  · rw [reported.run, reqs', reqs]
  · rw [State.tideStatus?, reported.run]
    exact done
  · rw [reported.job, ← (rest.same .job (by decide) : x.job = s.job)]
    exact progress
  · rw [out']
    exact sent
  · rw [reported.mem, completes.same .mem (by decide)]
    exact mem still own

end Sys2Proof.Machine

/-! PROOF. RESTORE from an image (R339, R342, R345, R346). -/

namespace Sys2Proof.Machine

/-! ## The chunks of an image -/

/-- Whether a chunk's data have the digest that it names. -/
def Chunk.holds (ps : List Pinned) (k : Chunk) : Bool := fragDigest ps k.quay k.page k.data == k.digest

theorem takeWhile_all {α : Type} {p : α → Bool} {l : List α} (all : l.all p = true) : l.takeWhile p = l :=
  List.takeWhile_eq_self_iff.mpr fun a ha => List.all_eq_true.mp all a ha

theorem takeWhile_short {α : Type} {p : α → Bool} {l : List α} (bad : l.all p = false) : ∃ a, l[(l.takeWhile p).length]? = some a := by
  have short : (l.takeWhile p).length < l.length := by
    refine Nat.lt_of_le_of_ne (List.takeWhile_prefix p).length_le fun e => ?_
    have whole : l.takeWhile p = l := (List.takeWhile_prefix p).eq_of_length e
    rw [List.all_eq_true.mpr (List.takeWhile_eq_self_iff.mp whole)] at bad
    exact absurd bad (by decide)
  exact ⟨_, List.getElem?_eq_getElem short⟩

/-- The class 2 pages zeroed and the batches dropped. -/
def State.cleared (s : State) : State := (s.zeroClass 2).modJob fun j => { j with batches := [] }

/-- Chunks written to their pages. -/
def State.placed (l : List Chunk) (s : State) : State := l.foldl (fun s k => s.putFragment k.quay k.page k.data) s

theorem State.cleared_pinned (s : State) : s.cleared.pinned = s.pinned := by
  have zero : Only [.mem] s (s.zeroClass 2) := State.zeroClass_only 2 (List.Subset.refl _) (only_refl _ s)
  unfold State.cleared State.pinned
  rw [State.modJob_job, zero.same .job (by decide)]

theorem State.finishImage_malformed {s : State} {t : Table} {b : Bytes} (fails : s.imageChunks t b = none) (sq cid source : Nat) :
    s.finishImage t sq cid source b = s.finish sq cid .malformed 0 0 := by
  unfold State.finishImage
  rw [fails]

/-- An image with a chunk whose digest fails. -/
theorem State.finishImage_badChunk {s : State} {t : Table} {b : Bytes} {l : List Chunk} (parses : s.imageChunks t b = some l)
    (bad : l.all (Chunk.holds s.pinned) = false) (sq cid source : Nat) : ∃ (k : Chunk) (a : List Chunk) (own : Nat), s.finishImage t sq cid source b
      = ((((s.cleared.placed a).putFragment k.quay k.page k.data).restoreMismatch 3 own k.digest).finish sq cid .fault 0 0) := by
  obtain ⟨k, found⟩ := takeWhile_short bad
  refine ⟨k, l.takeWhile (Chunk.holds s.pinned), fragDigest s.pinned k.quay k.page k.data, ?_⟩
  have pinned := s.cleared_pinned
  unfold State.finishImage
  rw [parses]
  dsimp only
  unfold State.cleared at pinned ⊢
  unfold Chunk.holds at found ⊢
  rw [pinned, found]
  rfl

/-- An image whose chunks hold. -/
theorem State.finishImage_goodChunks {s : State} {t : Table} {b : Bytes} {l : List Chunk} (parses : s.imageChunks t b = some l)
    (good : l.all (Chunk.holds s.pinned) = true) (sq cid source : Nat) : s.finishImage t sq cid source b =
      let put := s.cleared.placed l
      let set := l.foldl (fun d c => (d + c.digest) % m61) 0
      let n := fld b 0x10 8
      let digest := t.modelDigest put.mem
      if set != fld b 0x28 8 then (put.restoreMismatch 3 set (fld b 0x28 8)).finish sq cid .fault 0 0
      else if digest != fld b 0x30 8 then (put.restoreMismatch 2 digest (fld b 0x30 8)).finish sq cid .fault 0 0
      else
        let back := (put.takeRestored t n digest (slice b 256 (fld b 0xC 4))).restoreRecord t source n
          (firstLast (supersededBy n put.journal.own))
        back.finish sq cid .ok n back.job.dataPos := by
  have pinned := s.cleared_pinned
  have whole := takeWhile_all good
  unfold State.finishImage
  rw [parses]
  dsimp only
  unfold State.cleared at pinned ⊢
  unfold Chunk.holds at whole
  rw [pinned, whole, List.getElem?_eq_none le_rfl]
  rfl

/-! ## What an image leaves -/

theorem State.cleared_rest (s : State) : Only [.mem, .job] s s.cleared :=
  modJob_only _ (by decide) (State.zeroClass_only 2 (by decide) (only_refl _ s))

theorem State.cleared_job (s : State) : s.cleared.job = { s.job with batches := [] } := by
  have zero : Only [.mem] s (s.zeroClass 2) := State.zeroClass_only 2 (List.Subset.refl _) (only_refl _ s)
  unfold State.cleared
  rw [State.modJob_job, zero.same .job (by decide)]

theorem State.placed_rest (l : List Chunk) (s : State) : Only [.mem] s (s.placed l) :=
  foldl_only (only_refl _ s) fun _ _ h => State.putFragment_only _ _ _ (List.Subset.refl _) h

theorem State.placed_kept (l : List Chunk) (s : State) : Kept s (s.cleared.placed l) :=
  foldl_kept (modJob_kept _ (State.zeroClass_kept 2 (kept_refl s))) fun _ _ h => State.putFragment_kept _ _ _ h

/-- A state that a restore's command may complete on: queues, clock and commands are those of the start, and nothing sent is lost. -/
structure State.Completes (s : State) (c : Cmd) (y : State) : Prop where
  cmds : y.cmds = (s.markStarted c).cmds
  cqs : y.cqs = s.cqs
  sqs : y.sqs = s.sqs
  usec : y.usec = s.usec
  sent : s.out <+: y.out

theorem State.Completes.of_only {s y : State} {c : Cmd} {ks : List Part} (h : Only ks (s.markStarted c) y) (k : Kept (s.markStarted c) y)
    (cmds : Part.cmds ∉ ks := by decide) (cqs : Part.cqs ∉ ks := by decide) (sqs : Part.sqs ∉ ks := by decide)
    (usec : Part.usec ∉ ks := by decide) : s.Completes c y :=
  ⟨h.same .cmds cmds, h.same .cqs cqs, h.same .sqs sqs, h.same .usec usec, k.sent⟩

theorem State.Completes.finish {s y : State} {op sq cid : Nat} {c : Cmd} (h : s.Completes c y) (waits : s.waiting op sq cid = some c)
    (fits : s.entryFits c = true) (st : Status) (a b : Nat) : s.Completed (y.finish sq cid st a b) c st a b :=
  marked_finish waits h.cmds h.cqs h.sqs h.usec h.sent fits st a b

/-- What an image that fails leaves, before its command completes. -/
structure State.ImageFailed (s : State) (c : Cmd) (y : State) : Prop where
  completes : s.Completes c y
  job : y.job = { s.job with batches := [] }
  boot : y.boot = s.boot
  power : y.power = s.power
  harbour : y.harbour = s.harbour
  journal : y.journal = s.journal

/-- An image without a chunk that holds, and one whose digests do not agree, leave a mismatch. -/
theorem State.restoreMismatch_failed {s x : State} {c : Cmd} (rest : Only [.mem] (s.markStarted c).cleared x) (kept : Kept (s.markStarted c) x)
    (digest own expected : Nat) : s.ImageFailed c (x.restoreMismatch digest own expected) := by
  have clear := (s.markStarted c).cleared_rest
  have failed : Only [.out, .pcie, .log, .tm, .mem] x (x.restoreMismatch digest own expected) :=
    State.restoreMismatch_only _ _ _ (List.Subset.refl _) (only_refl _ x)
  have all : Only [.out, .pcie, .log, .tm, .mem, .job] (s.markStarted c) (x.restoreMismatch digest own expected) :=
    only_trans (only_mono clear (by decide)) (only_trans (only_mono rest (by decide)) (only_mono failed (by decide)))
  exact ⟨State.Completes.of_only all (State.restoreMismatch_kept _ _ _ kept),
    (failed.same .job (by decide)).trans ((rest.same .job (by decide)).trans (s.markStarted c).cleared_job),
    all.same .boot (by decide), all.same .power (by decide), all.same .harbour (by decide), all.same .journal (by decide)⟩

/-! ## The record of a restore -/

theorem State.makeRoom_rest (t : Table) (rs : List Bytes) (s : State) : Only [.out, .pcie, .log, .tm, .journal] s (s.makeRoom t rs) :=
  State.makeRoom_only t rs (List.Subset.refl _) (only_refl _ s)

/-- Records appended, before the check for a compaction. -/
def State.appended (rs : List Bytes) (s : State) : State := s.modJournal fun j => { j with own := j.own ++ rs }

theorem State.appendOwn_eq (t : Table) (rs : List Bytes) (s : State) : s.appendOwn t rs =
    if compactDue t (s.appended rs).journal.ownFree then (s.appended rs).modJournal fun j => { j with compacting := true }
    else s.appended rs := rfl

theorem State.appended_own (rs : List Bytes) (s : State) : (s.appended rs).journal.own = s.journal.own ++ rs := rfl

theorem State.appendOwn_own (t : Table) (rs : List Bytes) (s : State) : (s.appendOwn t rs).journal.own = s.journal.own ++ rs := by
  rw [State.appendOwn_eq]
  generalize compactDue t (s.appended rs).journal.ownFree = due
  cases due
  · exact s.appended_own rs
  · exact s.appended_own rs

/-- What a record without a step commits at once. -/
def State.mirrorNow (r : Bytes) (s : State) : State :=
  (s.modJournal fun j => { j with commit := some ⟨[r], true, true, false, false⟩ }).mirrorOut [r]

theorem State.writeRecord_eq (t : Table) (r : Bytes) (s : State) : s.writeRecord t r =
    if ((s.makeRoom t [r]).appendOwn t [r]).mirrors then ((s.makeRoom t [r]).appendOwn t [r]).mirrorNow r
    else (s.makeRoom t [r]).appendOwn t [r] := rfl

theorem State.mirrorNow_own (r : Bytes) (s : State) : (s.mirrorNow r).journal.own = s.journal.own := by
  have out : Only [.out, .pcie, .log, .tm, .ports] (s.modJournal fun j => { j with commit := some ⟨[r], true, true, false, false⟩ })
      (s.mirrorNow r) := State.mirrorOut_only _ (List.Subset.refl _) (only_refl _ _)
  rw [out.same .journal (by decide), State.modJournal_journal]

/-- A record that is written stands in the own journal, behind those that stood there once room was made. -/
theorem State.writeRecord_own (t : Table) (r : Bytes) (s : State) :
    (s.writeRecord t r).journal.own = (s.makeRoom t [r]).journal.own ++ [r] := by
  have appended := State.appendOwn_own t [r] (s.makeRoom t [r])
  rw [State.writeRecord_eq]
  generalize State.appendOwn t [r] (State.makeRoom t [r] s) = y at appended
  rw [← appended]
  split
  · exact State.mirrorNow_own r y
  · rfl

theorem State.mem_writeRecord (t : Table) (r : Bytes) (s : State) : r ∈ (s.writeRecord t r).journal.own := by
  rw [State.writeRecord_own]
  exact List.mem_append_right _ List.mem_cons_self

/-- The job after a restore to step `n`. -/
structure Job.RestoredTo (n digest : Nat) (j : Job) : Prop where
  committed : j.committed = some n
  step : j.step = n + 1
  dataPos : j.dataPos = n + 1
  streamStep : j.streamStep = some n
  modelDigest : j.modelDigest = digest
  attempt : j.attempt = 0

theorem State.takeScale_batches (t : Table) (r : Bytes) (s : State) : (s.takeScale t r).job.batches = s.job.batches := by
  unfold State.takeScale
  split
  · rfl
  · rw [State.raiseModule_job]
    rfl

theorem State.takeRestored_job (t : Table) (n digest : Nat) (r : Bytes) (s : State) :
    Job.RestoredTo n digest (s.takeRestored t n digest r).job ∧ (s.takeRestored t n digest r).job.batches = s.job.batches := by
  have codes : Only [.out, .pcie, .log, .tm, .mem, .run, .quays, .snap] s (s.rebuildCodes t n) :=
    State.rebuildCodes_only t n (List.Subset.refl _) (only_refl _ s)
  have batches := ((s.rebuildCodes t n).takeScale_batches t r).trans (congrArg Job.batches (codes.same .job (by decide)))
  unfold State.takeRestored
  dsimp only
  generalize (s.rebuildCodes t n).takeScale t r = x at batches
  generalize hy : (x.modJob fun j =>
    { j with step := n + 1, committed := some n, dataPos := n + 1, streamStep := some n, modelDigest := digest, attempt := 0 }) = y
  have skew : Only [.out, .pcie, .log, .tm] y (y.skewEvent n) := State.skewEvent_only n (List.Subset.refl _) (only_refl _ y)
  rw [skew.same .job (by decide), ← hy]
  exact ⟨⟨rfl, rfl, rfl, rfl, rfl, rfl⟩, batches⟩

theorem State.restoreRecord_eq (t : Table) (source n : Nat) (sup : Nat × Nat) (s : State) : s.restoreRecord t source n sup =
    s.writeNow t (s.buildRecord t 4 0 s.journal.nextSeq (s.job.committed.getD n)
      (scaleEntries s.job.scale ++ [(5, restoreEntry source n sup.1 sup.2)])) := rfl

theorem State.writeNow_written {t : Table} {r : Bytes} {s : State} (can : s.canWrite t r = true) : s.writeNow t r = s.writeRecord t r :=
  if_pos can

theorem State.writeNow_fault {t : Table} {r : Bytes} {s : State} (cannot : s.canWrite t r = false) : s.writeNow t r = s.moduleFault :=
  if_neg (by simp [cannot])

theorem State.writeRecord_rest (t : Table) (r : Bytes) (s : State) : Only [.out, .pcie, .log, .tm, .journal, .ports] s (s.writeRecord t r) :=
  State.writeRecord_only t r (List.Subset.refl _) (only_refl _ s)

/-- What a restored image leaves, before its command completes. -/
structure State.ImageTaken (s back : State) (c : Cmd) (n digest : Nat) (record : Bytes) (y : State) : Prop where
  completes : s.Completes c y
  restored : Job.RestoredTo n digest y.job
  batches : y.job.batches = []
  scale : y.job.scale = back.job.scale
  mem : y.mem = back.mem
  written : record ∈ y.journal.own
  boot : y.boot = s.boot
  power : y.power = s.power
  harbour : y.harbour = s.harbour

/-- The state of a restored step with its record written. -/
theorem State.restored_taken {s x : State} {c : Cmd} (rest : Only [.mem] (s.markStarted c).cleared x) (kept : Kept (s.markStarted c) x)
    (t : Table) (n digest : Nat) (r record : Bytes) :
    s.ImageTaken (x.takeRestored t n digest r) c n digest record ((x.takeRestored t n digest r).writeRecord t record) := by
  have clear := (s.markStarted c).cleared_rest
  have taken : Only [.out, .pcie, .log, .tm, .job, .mem, .run, .quays, .snap] x (x.takeRestored t n digest r) :=
    State.takeRestored_only t n digest r (List.Subset.refl _) (only_refl _ x)
  obtain ⟨restored, batches⟩ := x.takeRestored_job t n digest r
  have keptTaken := State.takeRestored_kept t n digest r kept
  generalize x.takeRestored t n digest r = b at taken restored batches keptTaken ⊢
  have wrote := b.writeRecord_rest t record
  have all : Only [.out, .pcie, .log, .tm, .job, .mem, .run, .quays, .snap, .journal, .ports] (s.markStarted c) (b.writeRecord t record) :=
    only_trans (only_mono clear (by decide)) (only_trans (only_mono rest (by decide)) (only_trans (only_mono taken (by decide))
      (only_mono wrote (by decide))))
  have job : (b.writeRecord t record).job = b.job := wrote.same .job (by decide)
  refine ⟨State.Completes.of_only all (State.writeRecord_kept _ _ keptTaken), by rw [job]; exact restored, ?_, by rw [job],
    wrote.same .mem (by decide), b.mem_writeRecord t record, all.same .boot (by decide), all.same .power (by decide),
    all.same .harbour (by decide)⟩
  rw [job, batches, rest.same .job (by decide), (s.markStarted c).cleared_job]

theorem State.markStarted_reported (c : Cmd) (s : State) : s.Reported (s.markStarted c) :=
  ⟨rfl, List.prefix_refl _, rfl, rfl, rfl, rfl, rfl, rfl, rfl, rfl, rfl, rfl, rfl, rfl, rfl, rfl, rfl, rfl, rfl⟩

theorem exec_restoreFromImage {s : State} {sq cid : Nat} {data : Bytes} {c : Cmd} {t : Table} (waits : s.waiting opRestore sq cid = some c)
    (source : eSource c.entry = 0) (table : s.job.table = some t) (mode : s.mode = .configured) (joined : s.harbour.joined = false) :
    exec (.restoreFromImage sq cid data) s = .next ((s.markStarted c).finishImage t sq cid 0 (s.dataOf c data)) := by
  refine (onCmd_eq (f := fun c s => s.restoreWith 0 c fun t s => s.finishImage t sq cid 0 (s.dataOf c data)) waits).trans ?_
  refine congrArg Host.Outcome.next ?_
  have idle : s.inRun = false := by
    unfold State.inRun
    rw [show s.boot.mode = .configured from mode]
    rfl
  unfold State.restoreWith
  rw [source, idle, table, mode, joined]
  rfl

/-- Settles O17: an image that does not parse, one whose digests fail, and one that is taken. -/
theorem restoreFromAnImage : Obligations.RestoreFromAnImage := by
  unfold Obligations.RestoreFromAnImage
  intro s sq cid data c t waits source table mode joined fits
  dsimp only
  have runs := exec_restoreFromImage (data := data) waits source table mode joined
  generalize s.dataOf c data = d at runs ⊢
  have parse : s.imageChunks t d = (s.markStarted c).imageChunks t d := rfl
  rw [parse]
  cases parses : (s.markStarted c).imageChunks t d with
  | none =>
    refine ⟨_, runs.trans (congrArg Host.Outcome.next (State.finishImage_malformed parses _ _ _)), ?_, ?_⟩
    · exact reported_trans (s.markStarted_reported c) (State.finish_reported sq cid .malformed 0 0 (s.markStarted c))
    · exact marked_finish waits rfl rfl rfl rfl (List.prefix_refl _) fits _ _ _
  | some l =>
    have rest : Only [.mem] (s.markStarted c).cleared ((s.markStarted c).cleared.placed l) := State.placed_rest _ _
    have kept : Kept (s.markStarted c) ((s.markStarted c).cleared.placed l) := State.placed_kept _ _
    have fails : ∀ y : State, (s.markStarted c).finishImage t sq cid 0 d = y.finish sq cid .fault 0 0 → s.ImageFailed c y →
        ∃ u, exec (.restoreFromImage sq cid data) s = .next u ∧ u.job = { s.job with batches := [] } ∧ u.boot = s.boot ∧ u.power = s.power
          ∧ u.harbour = s.harbour ∧ u.journal = s.journal ∧ s.Completed u c .fault 0 0 := fun y e h =>
      ⟨_, runs.trans (congrArg Host.Outcome.next e), by rw [State.finish_job, h.job], by rw [State.finish_boot, h.boot],
        by rw [State.finish_power, h.power], by rw [State.finish_harbour, h.harbour], by rw [State.finish_journal, h.journal],
        h.completes.finish waits fits _ _ _⟩
    have chunks := fun good => State.finishImage_goodChunks parses good sq cid 0
    dsimp only at chunks
    have placed : l.foldl (fun s k => s.putFragment k.quay k.page k.data)
        (((s.markStarted c).zeroClass 2).modJob fun j => { j with batches := [] }) = (s.markStarted c).cleared.placed l := rfl
    have own : ((s.markStarted c).cleared.placed l).journal.own = s.journal.own := by
      rw [rest.same .journal (by decide), (s.markStarted c).cleared_rest.same .journal (by decide)]
      rfl
    dsimp only
    rw [placed]
    refine ⟨fun good set digest => ?_, fun bad => ?_⟩
    · have restores := chunks good
      rw [if_neg (by simpa using set), if_neg (by simpa using digest), digest, own] at restores
      have taken := State.restored_taken rest kept t (fld d 0x10 8) (fld d 0x30 8) (slice d 256 (fld d 0xC 4))
      have committed := (((s.markStarted c).cleared.placed l).takeRestored_job t (fld d 0x10 8) (fld d 0x30 8) (slice d 256 (fld d 0xC 4))).1.committed
      generalize ((s.markStarted c).cleared.placed l).takeRestored t (fld d 0x10 8) (fld d 0x30 8) (slice d 256 (fld d 0xC 4)) = back
        at restores taken committed ⊢
      rw [State.restoreRecord_eq, committed, Option.getD_some] at restores
      generalize back.buildRecord t 4 0 back.journal.nextSeq (fld d 0x10 8) _ = record at restores ⊢
      refine ⟨fun can => ?_, fun cannot => ?_⟩
      · rw [State.writeNow_written can] at restores
        have h := taken record
        generalize back.writeRecord t record = y at h restores
        have restored := h.restored
        rw [restored.dataPos] at restores
        refine ⟨_, runs.trans (congrArg Host.Outcome.next restores), ?_⟩
        simp only [State.finish_job, State.finish_mem, State.finish_journal, State.finish_boot, State.finish_power, State.finish_harbour]
        exact ⟨restored.committed, restored.step, restored.dataPos, restored.streamStep, restored.modelDigest, restored.attempt, h.batches,
          h.scale, h.mem, h.written, h.boot, h.power, h.harbour, h.completes.finish waits fits _ _ _⟩
      · rw [State.writeNow_fault cannot] at restores
        refine ⟨_, runs.trans (congrArg Host.Outcome.next restores), ?_⟩
        rw [State.mode, State.finish_boot]
        exact State.moduleFault_mode back
    · by_cases good : l.all (Chunk.holds (s.markStarted c).pinned) = true
      · have ends := chunks good
        by_cases set : l.foldl (fun d c => (d + c.digest) % m61) 0 = fld d 0x28 8
        · have digest : t.modelDigest ((s.markStarted c).cleared.placed l).mem ≠ fld d 0x30 8 := by
            rcases bad with bad | bad | bad
            · exact absurd (good.symm.trans bad) (by decide)
            · exact absurd set bad
            · exact bad
          rw [if_neg (by simpa using set), if_pos (by simpa using digest)] at ends
          exact fails _ ends (State.restoreMismatch_failed rest kept _ _ _)
        · rw [if_pos (by simpa using set)] at ends
          exact fails _ ends (State.restoreMismatch_failed rest kept _ _ _)
      · obtain ⟨k, a, o, ends⟩ := State.finishImage_badChunk parses (by simpa using good) sq cid 0
        refine fails _ ends (State.restoreMismatch_failed ?_ (State.putFragment_kept _ _ _ (State.placed_kept _ _)) _ _ _)
        exact State.putFragment_only _ _ _ (List.Subset.refl _) (State.placed_rest _ _)

end Sys2Proof.Machine

/-! PROOF. RESTORE over a port (R341, R343) and JOIN_HARBOUR (R296, R298) begin. -/

namespace Sys2Proof.Machine

/-! ## Ports that go dark and light up -/

theorem State.engines_ports (on : Bool) (ps : List Nat) (s : State) : (s.engines on ps).ports = s.ports :=
  (State.engines_only on ps (List.Subset.refl _) (only_refl _ s)).same .ports (by decide)

theorem State.setPort_self {s : State} {p : Nat} (here : p < s.ports.length) (f : Port → Port) : (s.setPort p f).port p = f (s.port p) :=
  modAt_getD_self p f s.ports Port.reset here

theorem State.engines_port (on : Bool) (ps : List Nat) (s : State) (q : Nat) : (s.engines on ps).port q = s.port q := by
  rw [State.port, State.engines_ports]
  rfl

theorem State.setPort_length (p : Nat) (f : Port → Port) (s : State) : (s.setPort p f).ports.length = s.ports.length := by
  change (modAt p f s.ports).length = _
  simp

/-- Whether a port has failed a test outlasts its going dark (R467). -/
theorem State.darkPort_failed (p q : Nat) (s : State) : ((s.darkPort p).port q).failed = (s.port q).failed := by
  unfold State.darkPort
  rw [State.engines_port, State.port]
  change Port.failed ((modAt p (fun x => { Port.reset with state := if x.failed then 4 else 0, failed := x.failed }) s.ports).getD q Port.reset) = _
  rw [List.getD_eq_getElem?_getD, modAt_getElem?, State.port, List.getD_eq_getElem?_getD]
  split
  · cases s.ports[q]? <;> rfl
  · rfl

theorem State.darkPort_length (p : Nat) (s : State) : (s.darkPort p).ports.length = s.ports.length := by
  unfold State.darkPort
  rw [State.engines_ports, State.setPort_length]

/-- A port that lights up trains for its role, or stays quarantined where it has failed a test. -/
theorem State.lightPort_port {s : State} {p : Nat} (here : p < s.ports.length) (role : Nat) :
    ((s.lightPort role p).port p).state = (if (s.port p).failed then 4 else 1) ∧ ((s.lightPort role p).port p).role = role := by
  unfold State.lightPort
  split
  · rw [State.setPort_self here]
    exact ⟨rfl, rfl⟩
  · rw [State.engines_port, State.setPort_self here]
    exact ⟨rfl, rfl⟩

/-- A shadowing that ends leaves which ports have failed a test. -/
theorem State.endShadow_ports (s : State) :
    s.endShadow.ports.length = s.ports.length ∧ ∀ q, (s.endShadow.port q).failed = (s.port q).failed := by
  unfold State.endShadow
  split
  · exact ⟨rfl, fun _ => rfl⟩
  next r _ => exact ⟨s.darkPort_length r.port, fun q => s.darkPort_failed r.port q⟩

theorem State.endShadow_rest (s : State) : Only [.out, .power, .pcie, .log, .tm, .stalls, .harbour, .ports] s s.endShadow :=
  State.endShadow_only (List.Subset.refl _) (only_refl _ s)

theorem State.lightPort_rest (role p : Nat) (s : State) : Only [.out, .power, .pcie, .log, .tm, .stalls, .ports] s (s.lightPort role p) :=
  State.lightPort_only role p (List.Subset.refl _) (only_refl _ s)

/-! ## Pages set to zero -/

/-- Some page of the list holds the byte and belongs to the class. -/
def zeroes (k : Nat) (classes : List (Nat × Nat)) (a : Nat) : Bool := classes.any fun p => p.1 == a / pageSize && p.2 == k

theorem zeroClass_fold (k a : Nat) (l : List (Nat × Nat)) (s : State) :
    (l.foldl (fun (s : State) (p : Nat × Nat) => if p.2 = k then s.modMem fun m => m.zero (p.1 * pageSize) pageSize else s) s).mem.byte a
      = if zeroes k l a then 0 else s.mem.byte a := by
  induction l generalizing s with
  | nil => rfl
  | cons p l ih =>
    have page : p.1 * pageSize ≤ a ∧ a < p.1 * pageSize + pageSize ↔ p.1 = a / pageSize := by
      unfold pageSize
      omega
    rw [List.foldl_cons, ih]
    unfold zeroes
    rw [List.any_cons]
    by_cases class_ : p.2 = k
    · rw [if_pos class_, State.modMem_mem, Mem.byte_zero]
      by_cases here : p.1 = a / pageSize
      · rw [if_pos (page.mpr here)]
        simp [class_, here]
      · rw [if_neg fun h => here (page.mp h)]
        simp [here]
    · rw [if_neg class_]
      simp [class_]

theorem State.zeroClass_byte (k a : Nat) (s : State) : (s.zeroClass k).mem.byte a = if zeroes k s.mem.classes a then 0 else s.mem.byte a :=
  zeroClass_fold k a s.mem.classes s

theorem kvGet_mem {k : Nat} (v : Nat) (set : v ≠ 0) : ∀ l : List (Nat × Nat), kvGet l k = v → (k, v) ∈ l
  | [], h => absurd h.symm set
  | (j, w) :: rest, h => by
    rw [kvGet] at h
    split at h
    next same => rw [same, h]; exact List.mem_cons_self
    · exact List.mem_cons_of_mem _ (kvGet_mem v set rest h)

theorem zeroes_iff (k a : Nat) (l : List (Nat × Nat)) : zeroes k l a = true ↔ (a / pageSize, k) ∈ l := by
  simp [zeroes]

/-! ## RESTORE over a port -/

theorem State.restoreWith_begins {s : State} {t : Table} {c : Cmd} (source : Nat) (f : Table → State → State) (kind : eSource c.entry = source)
    (table : s.job.table = some t) (mode : s.mode = .configured) (joined : s.harbour.joined = false) :
    s.restoreWith source c f = f t (s.markStarted c) := by
  have idle : s.inRun = false := by
    unfold State.inRun
    rw [show s.boot.mode = .configured from mode]
    rfl
  unfold State.restoreWith
  rw [kind, idle, table, mode, joined]
  simp

/-- The state in which the port of a restore lights up. -/
def State.restoreFrom (source : Nat) (s : State) : State :=
  if source = 2 then (s.endShadow.zeroClass 2).modJob fun j => { j with batches := [] } else s.endShadow

theorem State.restoreFrom_ports (source : Nat) (s : State) : (s.restoreFrom source).ports = s.endShadow.ports := by
  unfold State.restoreFrom
  split
  · have zero : Only [.mem] s.endShadow (s.endShadow.zeroClass 2) := State.zeroClass_only 2 (List.Subset.refl _) (only_refl _ _)
    rw [State.modJob_ports, zero.same .ports (by decide)]
  · rfl

theorem State.restoreFrom_rest (source : Nat) (s : State) :
    Only [.out, .power, .pcie, .log, .tm, .stalls, .harbour, .ports, .mem, .job] s (s.restoreFrom source) := by
  unfold State.restoreFrom
  have ends := only_mono s.endShadow_rest (by decide : _ ⊆ [.out, .power, .pcie, .log, .tm, .stalls, .harbour, .ports, .mem, .job])
  split
  · exact modJob_only _ (by decide) (State.zeroClass_only 2 (by decide) ends)
  · exact ends

/-- A restore over a port has begun: what is open, what its port does, and what else stands. -/
theorem State.beginRestore_begun {s : State} {p : Nat} (here : p < s.ports.length) (sq cid source donor : Nat) :
    (s.beginRestore sq cid source p donor).harbour.restore
        = some ⟨sq, cid, source, p, donor, false, none, [], [], 0, [], (0, 0)⟩
      ∧ ((s.beginRestore sq cid source p donor).port p).state = (if (s.port p).failed then 4 else 1)
      ∧ ((s.beginRestore sq cid source p donor).port p).role = 2
      ∧ (s.beginRestore sq cid source p donor).mem = (s.restoreFrom source).mem
      ∧ (s.beginRestore sq cid source p donor).job = (s.restoreFrom source).job
      ∧ (s.beginRestore sq cid source p donor).boot = s.boot := by
  have ports := s.restoreFrom_ports source
  have boot := (s.restoreFrom_rest source).same .boot (by decide)
  have begins : s.beginRestore sq cid source p donor = ((s.restoreFrom source).lightPort 2 p).modHarbour fun h =>
    { h with restore := some ⟨sq, cid, source, p, donor, false, none, [], [], 0, [], (0, 0)⟩ } := rfl
  have lit : ((s.restoreFrom source).port p).failed = (s.port p).failed := by
    rw [← s.endShadow_ports.2 p, State.port, ports, State.port]
  rw [begins]
  generalize s.restoreFrom source = y at ports boot lit ⊢
  have yhere : p < y.ports.length := by rwa [ports, s.endShadow_ports.1]
  have rest := y.lightPort_rest 2 p
  have port := State.lightPort_port yhere 2
  rw [lit] at port
  exact ⟨rfl, port.1, port.2, rest.same .mem (by decide), rest.same .job (by decide), (rest.same .boot (by decide)).trans boot⟩

/-- Settles O18: both forms of a restore over a port begin. -/
theorem restoreOverAPortBegins : Obligations.RestoreOverAPortBegins := by
  unfold Obligations.RestoreOverAPortBegins
  intro s sq cid c t waits table mode joined eight ports
  have here : ePort c.entry < (s.markStarted c).ports.length := by
    rw [show (s.markStarted c).ports = s.ports from rfl, ports]
    exact eight
  have ends := (s.markStarted c).endShadow_rest
  refine ⟨fun kind => ?_, fun kind => ?_⟩
  · obtain ⟨restore, state, role, mem, job, boot⟩ := State.beginRestore_begun here sq cid 1 0xFFFF
    refine ⟨_, (onCmd_eq (f := fun c s => s.restoreWith 1 c fun _ s => s.beginRestore sq cid 1 (ePort c.entry) 0xFFFF) waits).trans
      (congrArg Host.Outcome.next (State.restoreWith_begins 1 _ kind table mode joined)), restore, state, role, ?_, ?_, boot⟩
    · exact mem.trans (ends.same .mem (by decide))
    · exact job.trans (ends.same .job (by decide))
  · obtain ⟨restore, state, role, mem, job, boot⟩ := State.beginRestore_begun here sq cid 2 (eDonor c.entry)
    have zero : Only [.mem] (s.markStarted c).endShadow ((s.markStarted c).endShadow.zeroClass 2) :=
      State.zeroClass_only 2 (List.Subset.refl _) (only_refl _ _)
    have memory : ((s.markStarted c).restoreFrom 2).mem = ((s.markStarted c).endShadow.zeroClass 2).mem := by
      unfold State.restoreFrom
      rw [if_pos rfl, State.modJob_mem]
    have byte : ∀ a, ((s.markStarted c).restoreFrom 2).mem.byte a = if zeroes 2 s.mem.classes a then 0 else s.mem.byte a := by
      intro a
      rw [memory, State.zeroClass_byte, ends.same .mem (by decide)]
      rfl
    refine ⟨_, (onCmd_eq (f := fun c s => s.restoreWith 2 c fun _ s => s.beginRestore sq cid 2 (ePort c.entry) (eDonor c.entry)) waits).trans
      (congrArg Host.Outcome.next (State.restoreWith_begins 2 _ kind table mode joined)), restore, state, role, ?_, boot, ?_, ?_⟩
    · rw [job, State.restoreFrom, if_pos rfl, State.modJob_job, zero.same .job (by decide), ends.same .job (by decide)]
      rfl
    · intro a class_
      have listed : zeroes 2 s.mem.classes a = true := (zeroes_iff 2 a _).mpr (kvGet_mem 2 (by decide) _ class_)
      rw [mem, byte, listed]
      rfl
    · intro a other
      rw [mem, byte, if_neg fun listed => other ((zeroes_iff 2 a _).mp listed)]

/-! ## JOIN_HARBOUR -/

theorem exec_joinHarbour {s : State} {sq cid : Nat} {block : Bytes} {c : Cmd} {t : Table} (waits : s.waiting opJoin sq cid = some c)
    (table : s.job.table = some t) (mode : s.mode = .configured) (joined : s.harbour.joined = false) :
    exec (.joinHarbour sq cid block) s = .next ((s.markStarted c).joinHarbour t sq cid (fit 128 block)) := by
  obtain ⟨-, -, -, hsq, hcid⟩ := waiting_ids waits
  refine (onCmd_eq (f := fun c s => s.joinCmd c block) waits).trans (congrArg Host.Outcome.next ?_)
  have idle : s.inRun = false := by
    unfold State.inRun
    rw [show s.boot.mode = .configured from mode]
    rfl
  unfold State.joinCmd
  rw [idle, table, mode, joined, hsq, hcid]
  rfl

theorem State.lightPorts_rest (role : Nat) (ps : List Nat) (s : State) :
    Only [.out, .power, .pcie, .log, .tm, .stalls, .ports] s (ps.foldl (fun s p => s.lightPort role p) s) :=
  foldl_only (only_refl _ s) fun _ p h => State.lightPort_only role p (List.Subset.refl _) h

theorem State.lightPartner_rest (p : Nat) (s : State) : Only [.out, .power, .pcie, .log, .tm, .stalls, .ports] s (s.lightPartner p) :=
  State.lightPartner_only p (List.Subset.refl _) (only_refl _ s)

/-- The partner port that a block keeps. -/
def joinKeep (b : Bytes) : Option Nat := if jbPort b = 0xFF then none else some (jbPort b)

/-- The harbour with which a join begins. -/
def State.joiningHarbour (sq cid : Nat) (b : Bytes) (s : State) (h : Harbour) : Harbour :=
  { Harbour.reset with
    id := jbId b, topo := jbTopo b, sizes := jbSizes b, coords := jbCoords b, rank := jbRank b,
    partner := jbPartner b, partnerPort := joinKeep b, override := jbOverride b,
    joining := some ⟨sq, cid, b, s.usec⟩, present := List.range (jbCount b), lastMismatch := h.lastMismatch,
    shadow := h.shadow }

/-- A join without the shadowing of another port. -/
def State.joinAlone (b : Bytes) (s : State) : State :=
  match s.harbour.shadow with
  | none => s
  | some r => if joinKeep b = some r.port then s else s.endShadow

/-- The topology ports are lit, and the partner's. -/
def State.joinLit (b : Bytes) (s : State) : State :=
  let s := (topoPorts (jbTopo b)).foldl (fun s p => s.lightPort 1 p) s
  match joinKeep b with | none => s | some p => s.lightPartner p

theorem State.beginJoin_eq (sq cid : Nat) (b : Bytes) (s : State) : s.beginJoin sq cid b =
    (((s.joinAlone b).modHarbour ((s.joinAlone b).joiningHarbour sq cid b)).joinLit b).enterCensus := rfl

theorem State.joinAlone_rest (b : Bytes) (s : State) :
    Only [.out, .power, .pcie, .log, .tm, .stalls, .harbour, .ports] s (s.joinAlone b) := by
  unfold State.joinAlone
  split
  · exact only_refl _ s
  · split
    · exact only_refl _ s
    · exact s.endShadow_rest

theorem State.joinLit_rest (b : Bytes) (s : State) : Only [.out, .power, .pcie, .log, .tm, .stalls, .ports] s (s.joinLit b) := by
  have lit := s.lightPorts_rest 1 (topoPorts (jbTopo b))
  unfold State.joinLit
  dsimp only
  split
  · exact lit
  next p _ => exact only_trans lit (State.lightPartner_rest p _)

/-- What a join leaves alone, and the harbour that it begins with. -/
theorem State.beginJoin_begun (sq cid : Nat) (b : Bytes) (s : State) :
    Only [.out, .power, .pcie, .log, .tm, .stalls, .harbour, .ports] s (s.beginJoin sq cid b)
      ∧ ∃ h v, (s.beginJoin sq cid b).harbour
          = { s.joiningHarbour sq cid b h with inCensus := true, censusNo := 1, censusFrom := s.usec, view := v } := by
  have alone := s.joinAlone_rest b
  have usec : (s.joinAlone b).usec = s.usec := alone.same .usec (by decide)
  rw [State.beginJoin_eq]
  generalize s.joinAlone b = y at alone usec ⊢
  have begins : Only [.harbour] y (y.modHarbour (y.joiningHarbour sq cid b)) := modHarbour_only _ (by decide) (only_refl _ y)
  have harbour : (y.modHarbour (y.joiningHarbour sq cid b)).harbour = s.joiningHarbour sq cid b y.harbour := by
    rw [State.modHarbour_harbour, State.joiningHarbour, usec]
    rfl
  have after : (y.modHarbour (y.joiningHarbour sq cid b)).usec = s.usec := usec
  generalize y.modHarbour (y.joiningHarbour sq cid b) = z at begins harbour after ⊢
  have lit := z.joinLit_rest b
  have sets : (z.joinLit b).harbour = s.joiningHarbour sq cid b y.harbour := (lit.same .harbour (by decide)).trans harbour
  have clock : (z.joinLit b).usec = s.usec := (lit.same .usec (by decide)).trans after
  have census := (z.joinLit b).enterCensus_rest
  refine ⟨only_trans alone (only_trans (only_mono begins (by decide)) (only_trans (only_mono lit (by decide)) (only_mono census (by decide)))),
    y.harbour, (z.joinLit b).firstView, ?_⟩
  rw [State.enterCensus_harbour, sets, clock]
  rfl

/-- A refusal of the own digest raises its records and completes with FAULT. -/
def State.ownDigestRaised (s : State) : State :=
  let f := s.takeFree
  (f.2.raiseModule 0x0302 [(0x20, 1, 0xFF), (0x28, 8, (Config.joinDigest f.1).toNat), (0x30, 8, f.2.shortDigest)]).raiseModule 0x0303
    [(0x20, 1, 1), (0x22, 2, 0xFFFF)]

theorem State.ownDigestRefused_eq (sq cid : Nat) (s : State) : s.ownDigestRefused sq cid = s.ownDigestRaised.finish sq cid .fault 0 0 := rfl

theorem State.ownDigestRaised_rest (s : State) : Only [.out, .pcie, .log, .tm, .freeCtr] s s.ownDigestRaised :=
  State.raiseModule_only _ _ (by decide) (State.raiseModule_only _ _ (by decide) (State.takeFree_only (by decide) (only_refl _ s)))

theorem State.ownDigestRaised_kept (s : State) : Kept s s.ownDigestRaised :=
  State.raiseModule_kept _ _ (State.raiseModule_kept _ _ (State.takeFree_kept (kept_refl s)))

/-- What a join does once its own digest holds or fails: it begins, or is refused. -/
theorem State.joinHarbour_eq (t : Table) (sq cid : Nat) (b : Bytes) (s : State) : s.joinHarbour t sq cid b =
    if !joinBlockOk b then s.finish sq cid .malformed 0 0
    else if jbCount b < t.leastMembers then s.finish sq cid .refusedState 0 0
    else if !t.shapeOk (jbCount b) (jbTopo b) then
      (s.raiseModule 0x0902 [(0x20, 2, 0x50), (0x22, 1, 0x0D), (0x24, 4, 0xFFFFFFFF)]).finish sq cid .refusedState 0 0
    else if s.harbourDigest (jbId b) != jbDigest b then s.ownDigestRefused sq cid
    else s.beginJoin sq cid b := rfl

/-- A join refused on a state with the records of its refusal. -/
theorem State.joinEnds {s y : State} {op sq cid : Nat} {c : Cmd} (waits : s.waiting op sq cid = some c) (fits : s.entryFits c = true)
    (noted : Only [.out, .pcie, .log, .tm, .freeCtr] (s.markStarted c) y) (kept : Kept (s.markStarted c) y) (st : Status) :
    (y.finish sq cid st 0 0).mem = s.mem ∧ (y.finish sq cid st 0 0).job = s.job ∧ (y.finish sq cid st 0 0).boot = s.boot
      ∧ (y.finish sq cid st 0 0).harbour = s.harbour ∧ (y.finish sq cid st 0 0).ports = s.ports
      ∧ s.Completed (y.finish sq cid st 0 0) c st 0 0 := by
  have completes : s.Completes c y := State.Completes.of_only noted kept
  rw [State.finish_mem, State.finish_job, State.finish_boot, State.finish_harbour, State.finish_ports]
  exact ⟨noted.same .mem (by decide), noted.same .job (by decide), noted.same .boot (by decide), noted.same .harbour (by decide),
    noted.same .ports (by decide), completes.finish waits fits _ _ _⟩

/-- Settles O19: the checks of the block in order, and the start of the join. -/
theorem joinChecksTheBlock : Obligations.JoinChecksTheBlock := by
  unfold Obligations.JoinChecksTheBlock
  intro s sq cid block c t waits table mode joined fits
  refine ⟨_, exec_joinHarbour waits table mode joined, ?_⟩
  have started := s.markStarted_reported c
  have digest : ∀ id, (s.markStarted c).harbourDigest id = s.harbourDigest id := fun _ => rfl
  have same : Only [.out, .pcie, .log, .tm, .freeCtr] (s.markStarted c) (s.markStarted c) := only_refl _ _
  rw [State.joinHarbour_eq]
  dsimp only
  generalize fit 128 block = b
  by_cases wellFormed : joinBlockOk b = false
  · obtain ⟨mem, job, boot, -, -, completed⟩ := State.joinEnds waits fits same (kept_refl _) .malformed
    rw [if_pos (by simpa using wellFormed), if_pos wellFormed]
    exact ⟨mem, job, boot, reported_trans started (State.finish_reported sq cid .malformed 0 0 _), completed⟩
  rw [if_neg (by simpa using wellFormed), if_neg wellFormed]
  by_cases few : jbCount b < t.leastMembers
  · obtain ⟨mem, job, boot, -, -, completed⟩ := State.joinEnds waits fits same (kept_refl _) .refusedState
    rw [if_pos few, if_pos few]
    exact ⟨mem, job, boot, reported_trans started (State.finish_reported sq cid .refusedState 0 0 _), completed⟩
  rw [if_neg few, if_neg few]
  by_cases shape : t.shapeOk (jbCount b) (jbTopo b) = false
  · have noted : Only [.out, .pcie, .log, .tm, .freeCtr] (s.markStarted c) ((s.markStarted c).raiseModule 0x0902
        [(0x20, 2, 0x50), (0x22, 1, 0x0D), (0x24, 4, 0xFFFFFFFF)]) := State.raiseModule_only _ _ (by decide) (only_refl _ _)
    have raised := (State.raiseModule_noted 0x0902 [(0x20, 2, 0x50), (0x22, 1, 0x0D), (0x24, 4, 0xFFFFFFFF)] (s.markStarted c)).reported
    obtain ⟨mem, job, boot, -, -, completed⟩ := State.joinEnds waits fits noted (State.raiseModule_kept _ _ (kept_refl _)) .refusedState
    rw [if_pos (by simpa using shape), if_pos shape]
    exact ⟨mem, job, boot, reported_trans started (reported_trans raised (State.finish_reported sq cid .refusedState 0 0 _)), completed⟩
  rw [if_neg (by simpa using shape), if_neg shape, digest]
  by_cases agrees : s.harbourDigest (jbId b) ≠ jbDigest b
  · obtain ⟨mem, job, boot, harbour, ports, completed⟩ :=
      State.joinEnds waits fits (s.markStarted c).ownDigestRaised_rest (s.markStarted c).ownDigestRaised_kept .fault
    rw [if_pos (by simpa using agrees), if_pos agrees, State.ownDigestRefused_eq]
    exact ⟨mem, job, boot, harbour, ports, completed⟩
  rw [if_neg (by simpa using agrees), if_neg agrees]
  obtain ⟨rest, h, v, harbour⟩ := (s.markStarted c).beginJoin_begun sq cid b
  refine ⟨rest.same .mem (by decide), rest.same .job (by decide), rest.same .boot (by decide), ?_⟩
  rw [harbour]
  exact ⟨rfl, rfl, rfl, rfl, rfl, rfl, rfl⟩

end Sys2Proof.Machine

/-! PROOF. The end of a test under a reset that is due (R443, R464). -/

namespace Sys2Proof.Machine

/-- A test of scope 0 runs while a reset is due and RESET_N holds the module: its command's queue has room for the entry. -/
def State.testUnderReset : State :=
  { State.reset with
    boot := { State.reset.boot with resetDue := true }
    cqs := [{ Cq.reset with enable := true }]
    cmds := [⟨0, 0, 0, [], [], 0, 0, 0, false, 0, 0, true⟩]
    test := { Test.reset with queue := [⟨0, 0, 0, 0, 7, false, true⟩] } }

/-- What the end of a test without faults changes. -/
def testEndParts : List Part := [.out, .power, .pcie, .cqs, .cmds, .log, .tm, .mem, .stalls, .test]

/-- The entries of a test go to the host, and the registers take the last. -/
def State.testEntered (r : TestReq) (es : List TestEntry) (s : State) : State :=
  let s := s.darkTest.unmarkTested
  let s := if (s.cmd? r.sq r.cid).isNone then s else s.toHost r.sq r.cid 0 (es.flatMap testEntryBytes)
  match es.getLast? with
  | none => s
  | some e => s.modTest fun t =>
    { t with scope := e.scope, test := e.test, target := e.target, result := if entryPasses e then 1 else 2, signature := e.signature.toNat, expected := e.expected.toNat }

/-- The test has left the queue, and what it has marched over is zero. -/
def State.testReported (r : TestReq) (es : List TestEntry) (s : State) : State :=
  let s := (s.testEntered r es).modTest fun t => { t with active := false, queue := t.queue.filter fun x => !(x.sq == r.sq && x.cid == r.cid) }
  es.foldl (fun s e => if e.test = 0x0201 then s.zeroPile e.target else s) s

theorem State.testComplete_eq {s : State} {r : TestReq} (responses : List (List (Nat × Nat)))
    (runs : s.test.queue.find? (·.running) = some r) :
    s.testComplete responses =
      (let es := testResults r.scope r.test r.target responses
       let failed := es.filter fun e => !entryPasses e
       let s := s.testReported r es
       let s := if s.mode == .testing then s.enter .inert else s
       let s := failed.foldl (fun s e => s.failEntry e) s
       ((s.finish r.sq r.cid .ok es.length failed.length).stallFault es).afterTest) := by
  unfold State.testComplete
  rw [runs]
  rfl

theorem State.testEntered_only (r : TestReq) (es : List TestEntry) (s : State) : Only [.out, .stalls, .test] s.darkTest (s.testEntered r es) := by
  have unmarked : Only [.out, .stalls, .test] s.darkTest s.darkTest.unmarkTested := State.unmarkTested_only (by decide) (only_refl _ _)
  have sent : Only [.out, .stalls, .test] s.darkTest (if (s.darkTest.unmarkTested.cmd? r.sq r.cid).isNone then s.darkTest.unmarkTested
      else s.darkTest.unmarkTested.toHost r.sq r.cid 0 (es.flatMap testEntryBytes)) := by
    split
    · exact unmarked
    · exact State.toHost_only _ _ _ _ (by decide) unmarked
  unfold State.testEntered
  dsimp only
  generalize (if (s.darkTest.unmarkTested.cmd? r.sq r.cid).isNone then s.darkTest.unmarkTested
    else s.darkTest.unmarkTested.toHost r.sq r.cid 0 (es.flatMap testEntryBytes)) = y at sent ⊢
  cases es.getLast? with
  | none => exact sent
  | some e => exact modTest_only _ (by decide) sent

theorem State.testEntered_queue (r : TestReq) (es : List TestEntry) (s : State) : (s.testEntered r es).test.queue = s.test.queue := by
  have capped : (s.capChanged fun x => x.switch false (s.test.lit.filter fun d => !s.portUses d)).test = s.test :=
    (State.capChanged_only (ks := [.out, .power, .pcie, .log, .tm, .stalls]) _ (fun _ h => State.switch_only _ _ (by decide) h) (by decide)
      (only_refl _ s)).same .test (by decide)
  have dark : s.darkTest.test.queue = s.test.queue := (congrArg Test.queue capped :)
  have asked : (if (s.darkTest.unmarkTested.cmd? r.sq r.cid).isNone then s.darkTest.unmarkTested
      else s.darkTest.unmarkTested.toHost r.sq r.cid 0 (es.flatMap testEntryBytes)).test.queue = s.test.queue := by
    split
    · exact dark
    · exact dark
  unfold State.testEntered
  dsimp only
  generalize (if (s.darkTest.unmarkTested.cmd? r.sq r.cid).isNone then s.darkTest.unmarkTested
    else s.darkTest.unmarkTested.toHost r.sq r.cid 0 (es.flatMap testEntryBytes)) = y at asked ⊢
  cases es.getLast? with
  | none => exact asked
  | some e => exact asked

theorem State.testReported_only (r : TestReq) (es : List TestEntry) (s : State) :
    Only [.out, .mem, .stalls, .test] s.darkTest (s.testReported r es) :=
  foldl_only (modTest_only _ (by decide) (only_mono (s.testEntered_only r es) (by decide))) fun y e h => by
    split
    · exact modMem_only _ (by decide) h
    · exact h

theorem State.testReported_queue {s : State} {r : TestReq} (queue : s.test.queue = [r]) (es : List TestEntry) :
    (s.testReported r es).test.queue = [] := by
  have zeroed : ∀ (l : List TestEntry) (y : State),
      Only [.mem] y (l.foldl (fun s e => if e.test = 0x0201 then s.zeroPile e.target else s) y) := fun l y =>
    foldl_only (only_refl _ y) fun x e h => by
      split
      · exact modMem_only _ (by decide) h
      · exact h
  unfold State.testReported
  rw [(zeroed es _).same .test (by decide), State.modTest_test, State.testEntered_queue, queue]
  simp

/-- An entry of scope 0 has no part that fails. -/
theorem State.failEntry_scopeless {e : TestEntry} (scope : e.scope = 0) (s : State) : s.failEntry e = s.testFailEvent e := by
  unfold State.failEntry
  rw [scope]
  rfl

theorem testResults_scopeless (test target : Nat) (responses : List (List (Nat × Nat))) :
    ∀ e ∈ testResults 0 test target responses, e.scope = 0 := by
  simp [testResults, testEntries]

/-- The end of a test of scope 0 without a table: boot, and what holds the module in reset, stand. -/
theorem State.testComplete_scopeless {s : State} {r : TestReq} (responses : List (List (Nat × Nat))) (queue : s.test.queue = [r])
    (runs : r.running = true) (scope : r.scope = 0) (table : s.job.table = none) (mode : s.mode ≠ .testing) :
    Only testEndParts s (s.testComplete responses) ∧ s.SameInput (s.testComplete responses) := by
  have first : s.test.queue.find? (·.running) = some r := by
    rw [queue]
    simp [runs]
  rw [State.testComplete_eq responses first, scope]
  dsimp only
  have scopes := testResults_scopeless r.test r.target responses
  generalize testResults 0 r.test r.target responses = es at scopes ⊢
  have dark : Only [.out, .power, .pcie, .log, .tm, .stalls, .test] s s.darkTest := State.darkTest_only (by decide) (only_refl _ s)
  have reported := s.testReported_only r es
  have empty := State.testReported_queue queue es
  have stays : (s.testReported r es).mode = s.mode :=
    congrArg Boot.mode ((reported.same .boot (by decide)).trans (dark.same .boot (by decide)))
  rw [if_neg (by rw [stays]; simpa using mode)]
  generalize s.testReported r es = y at reported empty stays ⊢
  have fails : ∀ l : List TestEntry, (∀ e ∈ l, e.scope = 0) → ∀ y : State,
      Only [.out, .pcie, .log, .tm] y (l.foldl (fun s e => s.failEntry e) y) := by
    intro l
    induction l with
    | nil => exact fun _ y => only_refl _ y
    | cons e l ih =>
      intro hl y
      have one : Only [.out, .pcie, .log, .tm] y (y.failEntry e) := by
        rw [State.failEntry_scopeless (hl e (by simp))]
        exact State.raise_only _ _ _ _ (by decide) (only_refl _ y)
      exact only_trans one (ih (fun x hx => hl x (by simp [hx])) _)
  have failed := fails (es.filter fun e => !entryPasses e) (fun e he => scopes e (List.mem_of_mem_filter he)) y
  generalize (es.filter fun e => !entryPasses e) = f at failed ⊢
  generalize f.foldl (fun s e => s.failEntry e) y = x at failed ⊢
  have ended : Only [.out, .pcie, .cqs, .cmds, .log, .tm] x (x.finish r.sq r.cid .ok es.length f.length) :=
    State.finish_only _ _ _ _ _ (List.Subset.refl _) (only_refl _ x)
  generalize x.finish r.sq r.cid .ok es.length f.length = z at ended ⊢
  have all : Only testEndParts s z := only_trans (only_mono dark (by decide)) (only_trans (only_mono reported (by decide))
    (only_trans (only_mono failed (by decide)) (only_mono ended (by decide))))
  have none_ : z.job.table = none := by rw [all.same .job (by decide), table]
  have done : z.test.queue = [] := by
    rw [ended.same .test (by decide), failed.same .test (by decide), empty]
  have same : (z.stallFault es).afterTest = z := by
    have stands : z.stallFault es = z := by
      unfold State.stallFault
      rw [none_]
    have idle : z.startQueued = z := by
      unfold State.startQueued
      rw [done]
      rfl
    rw [stands]
    unfold State.afterTest
    dsimp only
    rw [idle, done, none_]
    rfl
  rw [same]
  refine ⟨all, sameInput_trans s.darkTest_sameInput (sameInput_of_eq ?_)⟩
  rw [ended.same .power (by decide), failed.same .power (by decide), reported.same .power (by decide)]

/-- A reset that is due at a module held by RESET_N leaves no trace of a test. -/
theorem State.settleReset_held {s : State} (due : s.boot.resetDue = true) (idle : s.inRun = false) (low : s.power.resetLow = true) :
    s.settleReset.test = Test.reset := by
  unfold State.settleReset
  rw [if_pos (by simp [due, idle]), State.moduleReset_eq, if_pos (show s.takeFree.2.power.resetLow = true from low)]
  rfl

/-- Refutes O21: where a reset is due, the end of a test brings the module back to reset, and TS_STATUS and its target with it. -/
theorem not_testsStartWaitAndEnd : ¬ Obligations.TestsStartWaitAndEnd := by
  unfold Obligations.TestsStartWaitAndEnd
  rintro ⟨-, h⟩
  obtain ⟨u, l, ran, -, -, -, -, -, target, -⟩ := h State.testUnderReset [] ⟨0, 0, 0, 0, 7, false, true⟩ _ _ rfl rfl (by decide) (by decide)
    rfl rfl rfl
  obtain ⟨only, input⟩ := State.testComplete_scopeless (s := State.testUnderReset) [] rfl rfl rfl rfl (by decide)
  generalize hx : State.testUnderReset.testComplete [] = x at only input
  have reset : u = x.settleReset := by
    rw [← hx]
    exact (Host.Outcome.next.inj ran).symm
  have boot : x.boot = State.testUnderReset.boot := only.same .boot (by decide)
  have low : x.power.resetLow = true := by
    rw [input]
    rfl
  rw [reset, State.settleReset_held (by rw [boot]; rfl) (by rw [State.inRun, boot]; rfl) low] at target
  exact absurd target (by decide)

end Sys2Proof.Machine

/-! PROOF. The flit layer of a port that is up (R289 to R292), and the training and loss of ports (R292, R298, R335, R427). -/

namespace Sys2Proof.Machine

/-! ## What one port's traffic changes -/

theorem modAt_modAt {α : Type} (i : Nat) (f g : α → α) (l : List α) : modAt i g (modAt i f l) = modAt i (fun x => g (f x)) l := by
  refine List.ext_getElem? fun j => ?_
  simp only [modAt_getElem?]
  split
  · cases l[j]? <;> rfl
  · rfl

theorem modAt_same {α : Type} {i : Nat} {f : α → α} {l : List α} (h : ∀ x, l[i]? = some x → f x = x) : modAt i f l = l := by
  refine List.ext_getElem? fun j => ?_
  rw [modAt_getElem?]
  split
  next same =>
    subst same
    cases e : l[i]? with
    | none => rfl
    | some x => rw [Option.map_some, h x e]
  · rfl

theorem modAt_congr {α : Type} {i : Nat} {f g : α → α} {l : List α} (h : ∀ x, l[i]? = some x → f x = g x) : modAt i f l = modAt i g l := by
  refine List.ext_getElem? fun j => ?_
  rw [modAt_getElem?, modAt_getElem?]
  split
  next same =>
    subst same
    cases e : l[i]? with
    | none => rfl
    | some x => rw [Option.map_some, Option.map_some, h x e]
  · rfl

/-- What the increments of a list add to a counter. -/
def increments (cs : List (Nat × Nat)) (o : Nat) : Nat := ((cs.filter fun c => c.1 == o).map (·.2)).sum

theorem increments_append (cs ds : List (Nat × Nat)) (o : Nat) : increments (cs ++ ds) o = increments cs o + increments ds o := by
  simp [increments]

/-- One port has changed as told, the increments of `cs` are counted, and nothing else has changed but what notes leave behind. -/
structure State.OnLink (p : Nat) (f : Port → Port) (cs : List (Nat × Nat)) (s t : State) : Prop where
  noted : State.Noted { s with ports := t.ports } t
  ports : t.ports = modAt p f s.ports
  counts : ∀ o, o ≠ evLostAt → s.Counts o (increments cs o) t

theorem noted_withPorts {s t : State} (h : s.Noted t) (l : List Port) : State.Noted { s with ports := l } { t with ports := l } :=
  ⟨h.pending, h.sent, h.freeCtr, h.usec, h.power, h.boot, h.pcie, h.sqs, h.cqs, h.sqTurn, h.cmds, h.job, h.mem, h.run, h.stalls, h.quays,
    h.snap, h.journal, h.harbour, rfl, h.test⟩

theorem onLink_trans {p : Nat} {f g : Port → Port} {cs ds : List (Nat × Nat)} {s x t : State} (h : s.OnLink p f cs x) (k : x.OnLink p g ds t) :
    s.OnLink p (fun y => g (f y)) (cs ++ ds) t where
  noted := noted_trans (noted_withPorts h.noted t.ports) k.noted
  ports := by rw [k.ports, h.ports, modAt_modAt]
  counts := fun o lost => by
    rw [increments_append]
    exact counts_trans (h.counts o lost) (k.counts o lost)

theorem onLink_refl (p : Nat) (s : State) : s.OnLink p id [] s :=
  ⟨noted_refl s, (modAt_same fun _ _ => rfl).symm, fun o _ => counts_of_tm rfl o⟩

theorem State.setPort_onLink (p : Nat) (f : Port → Port) (s : State) : s.OnLink p f [] (s.setPort p f) :=
  ⟨noted_refl _, rfl, fun o _ => counts_of_tm rfl o⟩

theorem State.count_onLink (p o n : Nat) (s : State) : s.OnLink p id [(o, n)] (s.count o n) where
  noted := by
    have noted := s.count_noted o n
    rw [noted.ports]
    exact noted
  ports := (s.count_noted o n).ports.trans (modAt_same fun _ _ => rfl).symm
  counts := fun x lost => by
    by_cases same : o = x
    · subst same
      simpa [increments] using State.count_counts lost n s
    · simpa [increments, same] using State.count_counts_ne (Ne.symm same) lost n s

theorem emit_onLink (p : Nat) (o : Output) (s : State) : s.OnLink p id [] (s.emit o) :=
  ⟨emit_noted s o, (modAt_same fun _ _ => rfl).symm, fun x _ => counts_of_tm rfl x⟩

theorem State.OnLink.of_eq {p : Nat} {f g : Port → Port} {cs : List (Nat × Nat)} {s t : State} (h : s.OnLink p f cs t)
    (same : f (s.port p) = g (s.port p)) : s.OnLink p g cs t where
  noted := h.noted
  ports := h.ports.trans (modAt_congr fun x e => by
    have here : s.port p = x := by rw [State.port, List.getD_eq_getElem?_getD, e]; rfl
    rw [← here, same])
  counts := h.counts

theorem State.OnLink.port {p : Nat} {f : Port → Port} {cs : List (Nat × Nat)} {s t : State} (h : s.OnLink p f cs t)
    (here : p < s.ports.length) : t.port p = f (s.port p) := by
  rw [State.port, h.ports, modAt_getD_self _ _ _ _ here]
  rfl

theorem State.OnLink.others {p : Nat} {f : Port → Port} {cs : List (Nat × Nat)} {s t : State} (h : s.OnLink p f cs t) (q : Nat) (other : q ≠ p) :
    t.port q = s.port q := by
  rw [State.port, h.ports, modAt_getD_ne _ _ _ _ _ (Ne.symm other)]
  rfl

theorem State.OnLink.length {p : Nat} {f : Port → Port} {cs : List (Nat × Nat)} {s t : State} (h : s.OnLink p f cs t) :
    t.ports.length = s.ports.length := by
  rw [h.ports, modAt_length]

theorem State.OnLink.sent {p : Nat} {f : Port → Port} {cs : List (Nat × Nat)} {s t : State} (h : s.OnLink p f cs t) : s.out <+: t.out :=
  h.noted.sent

theorem State.OnLink.usec {p : Nat} {f : Port → Port} {cs : List (Nat × Nat)} {s t : State} (h : s.OnLink p f cs t) : t.usec = s.usec :=
  h.noted.usec

theorem State.OnLink.counted {p o : Nat} {f : Port → Port} {cs : List (Nat × Nat)} {s t : State} (h : s.OnLink p f cs t) {n : Nat}
    (lost : o ≠ evLostAt) (sum : increments cs o = n) : s.Counted t o n := by
  rw [← sum]
  exact (h.counts o lost).counted

/-! ## The window -/

theorem emitFlits_onLink (p q : Nat) (fs : List SentFlit) (s : State) : s.OnLink p id [] (s.emitFlits q fs) := by
  unfold State.emitFlits
  induction fs generalizing s with
  | nil => exact onLink_refl p s
  | cons f fs ih => exact onLink_trans (emit_onLink p _ s) (ih _)

/-- The port after its window has opened. -/
def Port.opened (x : Port) : Port := if x.open = 0 then x else x.release

theorem Port.leaving_empty (x : Port) : x.leaving = [] ↔ x.open = 0 := by
  have bound : x.open ≤ x.backlog.length := Nat.min_le_left _ _
  rw [Port.leaving, List.map_eq_nil_iff, List.zipIdx_eq_nil_iff, List.take_eq_nil_iff]
  refine ⟨fun h => h.elim id fun none => ?_, .inl⟩
  rw [none] at bound
  exact Nat.le_zero.mp bound

theorem Port.leaving_length (x : Port) : x.leaving.length = x.open := by
  have bound : x.open ≤ x.backlog.length := Nat.min_le_left _ _
  simp [Port.leaving, Nat.min_eq_left bound]

theorem State.releaseFlits_onLink (p : Nat) (s : State) : s.OnLink p Port.opened [(tlAt p 0x00, (s.port p).open)] (s.releaseFlits p) := by
  unfold State.releaseFlits
  dsimp only
  split
  next none =>
    have shut : (s.port p).open = 0 := (s.port p).leaving_empty.mp (List.isEmpty_iff.mp none)
    have stands : s.OnLink p Port.opened [] s := (onLink_refl p s).of_eq (by rw [Port.opened, if_pos shut]; rfl)
    refine ⟨stands.noted, stands.ports, fun o lost => ?_⟩
    have zero : increments [(tlAt p 0x00, (s.port p).open)] o = 0 := by
      rw [shut]
      by_cases same : tlAt p 0x00 = o
      · simp [increments, same]
      · simp [increments, same]
    rw [zero]
    exact counts_of_tm rfl o
  next some =>
    have opens : ¬ (s.port p).open = 0 := fun shut => some (List.isEmpty_iff.mpr ((s.port p).leaving_empty.mpr shut))
    have sends := onLink_trans (onLink_trans (emitFlits_onLink p p (s.port p).leaving s) (State.setPort_onLink p Port.release _))
      (State.count_onLink p (tlAt p 0x00) (s.port p).leaving.length _)
    rw [Port.leaving_length] at sends
    rw [Port.leaving_length]
    exact sends.of_eq (by rw [Port.opened, if_neg opens]; rfl)

/-- What a message joins. -/
def Port.queued (m : LinkMsg) (x : Port) : Port := { x with backlog := enqueue m.bodies x.backlog }

theorem State.sendLink_onLink {s : State} {p : Nat} (up : (s.port p).up = true) (m : LinkMsg) :
    ∃ n, s.OnLink p (fun x => (x.queued m).opened) [(tlAt p 0x00, n)] (s.sendLink p m) ∧ .link p m ∈ (s.sendLink p m).out := by
  have sent : s.sendLink p m = ((s.emit (.link p m)).setPort p (Port.queued m)).releaseFlits p := by
    unfold State.sendLink
    rw [if_neg (by simp [up])]
    rfl
  rw [sent]
  have queues := onLink_trans (emit_onLink p (.link p m) s) (State.setPort_onLink p (Port.queued m) _)
  refine ⟨_, onLink_trans queues (State.releaseFlits_onLink p _), ?_⟩
  exact (State.releaseFlits_onLink p _).sent.subset (by simp [State.setPort, emit_out])

/-! ## Flits -/

theorem State.noteNak_onLink (p : Nat) (s : State) : s.OnLink p (Port.noteNak s.usec) [] (s.noteNak p) := State.setPort_onLink p _ s

theorem State.heard_onLink (p n : Nat) (s : State) :
    s.OnLink p (fun x => { x with rxSeq := (x.rxSeq + n) % 65536, awaiting := false }) [(tlAt p 0x08, n)] (s.heard p n) :=
  onLink_trans (onLink_trans (State.setPort_onLink p _ s) (State.count_onLink p (tlAt p 0x08) n _)) (emit_onLink p _ _)

/-- A codeword or a flit in error is counted, and asked for again where no NAK is out. -/
theorem State.flitError_awaiting {s : State} {p : Nat} (awaits : (s.port p).awaiting = true) (crc : Bool) :
    s.OnLink p id [(tlAt p (if crc then 0x38 else 0x30), 1)] (s.flitError p crc) := by
  unfold State.flitError
  dsimp only
  rw [if_pos awaits]
  exact State.count_onLink p _ 1 s

theorem State.flitError_asks {s : State} {p : Nat} (here : p < s.ports.length) (up : (s.port p).up = true) (awaits : (s.port p).awaiting = false) (crc : Bool) :
    ∃ n, s.OnLink p (fun x => (({ x with awaiting := true }).queued (.nak (s.port p).rxSeq)).opened.noteNak s.usec)
        [(tlAt p (if crc then 0x38 else 0x30), 1), (tlAt p 0x00, n), (tlAt p 0x18, 1)] (s.flitError p crc)
      ∧ .link p (.nak (s.port p).rxSeq) ∈ (s.flitError p crc).out := by
  have counted := State.count_onLink p (tlAt p (if crc then 0x38 else 0x30)) 1 s
  have asks := onLink_trans counted (State.setPort_onLink p (fun x => { x with awaiting := true }) _)
  have still : ((s.count (tlAt p (if crc then 0x38 else 0x30)) 1).setPort p fun x => { x with awaiting := true }).port p
      = { s.port p with awaiting := true } := asks.port here
  unfold State.flitError
  dsimp only
  rw [if_neg (show ¬ (s.port p).awaiting = true by simp [awaits])]
  generalize (s.count (tlAt p (if crc then 0x38 else 0x30)) 1).setPort p (fun x => { x with awaiting := true }) = y at asks still ⊢
  obtain ⟨n, sends, sent⟩ := State.sendLink_onLink (s := y) (p := p) (by rw [still]; exact up) (.nak (s.port p).rxSeq)
  generalize y.sendLink p (.nak (s.port p).rxSeq) = z at sends sent ⊢
  have counts := State.count_onLink p (tlAt p 0x18) 1 z
  have noted := (z.count (tlAt p 0x18) 1).noteNak_onLink p
  have all := onLink_trans asks (onLink_trans sends (onLink_trans counts noted))
  rw [counts.usec, sends.usec, asks.usec] at all
  exact ⟨n, all, (noted.sent.subset (counts.sent.subset sent))⟩

/-- A good flit acknowledges and returns credits, and the window opens. -/
theorem State.goodFlit_onLink (p n acked credits : Nat) (s : State) :
    ∃ m, s.OnLink p (fun x => (({ x with awaiting := false }).acked acked credits).opened) [(tlAt p 0x28, n), (tlAt p 0x00, m)]
      (((s.count (tlAt p 0x28) n).setPort p fun x => { x with awaiting := false }).flitAck p acked credits) :=
  ⟨_, onLink_trans (State.count_onLink p (tlAt p 0x28) n s) (onLink_trans (State.setPort_onLink p (fun x => { x with awaiting := false }) _)
    (onLink_trans (State.setPort_onLink p (Port.acked acked credits) _) (State.releaseFlits_onLink p _)))⟩

theorem Port.acked_eq (x : Port) (seq credits : Nat) : x.acked seq credits =
    { x with
      unacked := (if seq ∈ x.unacked.map (·.seq) then (x.unacked.dropWhile fun f => f.seq != seq).drop 1 else x.unacked)
      credits := min 512 (x.credits + credits) } := by
  have found : (x.unacked.findIdx fun f => f.seq == seq) < x.unacked.length ↔ seq ∈ x.unacked.map (·.seq) := by
    simp [List.findIdx_lt_length]
  unfold Port.acked
  dsimp only
  by_cases known : seq ∈ x.unacked.map (·.seq)
  · rw [if_pos (found.mpr known), if_pos known, List.dropWhile_eq_drop_findIdx_not, List.drop_drop]
    simp [Nat.add_comm, bne]
  · rw [if_neg fun h => known (found.mp h), if_neg known]

/-! ## Resends -/

/-- Each flit has gone once more. -/
def resent (l : List SentFlit) : List SentFlit := l.map fun f => { f with resends := f.resends + 1 }

/-- A resend from the oldest flit on. -/
theorem State.resendFrom_oldest {s : State} {p : Nat} {f : SentFlit} {rest : List SentFlit} (oldest : (s.port p).unacked = f :: rest) :
    s.OnLink p (fun x => { x with unacked := resent x.unacked }) [(tlAt p 0x00, (s.port p).unacked.length), (tlAt p 0x10, (s.port p).unacked.length)]
      (s.resendFrom p f.seq) ∧ .link p (.resend f.seq) ∈ (s.resendFrom p f.seq).out := by
  have first : ((s.port p).unacked.findIdx fun g => g.seq == f.seq) = 0 := by
    rw [oldest]
    simp [List.findIdx_cons]
  unfold State.resendFrom
  dsimp only
  rw [first, List.drop_zero, if_neg (by simp [oldest])]
  have emits := onLink_trans (State.setPort_onLink p (fun x => { x with unacked := resendFlits 0 x.unacked }) s)
    (emit_onLink p (.link p (.resend f.seq)) _)
  have flits := emitFlits_onLink p p (s.port p).unacked ((s.setPort p fun x => { x with unacked := resendFlits 0 x.unacked }).emit (.link p (.resend f.seq)))
  generalize ((s.setPort p fun x => { x with unacked := resendFlits 0 x.unacked }).emit (.link p (.resend f.seq))).emitFlits p
    (s.port p).unacked = y at flits ⊢
  have counts := onLink_trans (State.count_onLink p (tlAt p 0x00) (s.port p).unacked.length y)
    (State.count_onLink p (tlAt p 0x10) (s.port p).unacked.length _)
  exact ⟨onLink_trans emits (onLink_trans flits counts), counts.sent.subset (flits.sent.subset (by simp [emit_out]))⟩

theorem State.resendFrom_none {s : State} {p seq : Nat} (unknown : seq ∉ (s.port p).unacked.map (·.seq)) : s.resendFrom p seq = s := by
  have none : ((s.port p).unacked.findIdx fun g => g.seq == seq) = (s.port p).unacked.length :=
    List.findIdx_eq_length.mpr fun g hg => by
      simp only [beq_eq_false_iff_ne]
      exact fun same => unknown (List.mem_map.mpr ⟨g, hg, same⟩)
  unfold State.resendFrom
  dsimp only
  rw [none, List.drop_length]
  rfl

/-- What a number acknowledges before it. -/
def Port.ackedBefore (seq : Nat) (x : Port) : Port :=
  { x with unacked := if seq ∈ x.unacked.map (·.seq) then x.unacked.dropWhile fun f => f.seq != seq else x.unacked }

theorem State.ackBefore_onLink (p seq : Nat) (s : State) : s.OnLink p (Port.ackedBefore seq) [] (s.ackBefore p seq) := by
  refine (State.setPort_onLink p _ s).of_eq ?_
  generalize s.port p = x
  have found : (x.unacked.findIdx fun f => f.seq == seq) < x.unacked.length ↔ seq ∈ x.unacked.map (·.seq) := by
    simp [List.findIdx_lt_length]
  unfold Port.ackedBefore
  dsimp only
  by_cases known : seq ∈ x.unacked.map (·.seq)
  · rw [if_pos (found.mpr known), if_pos known, List.dropWhile_eq_drop_findIdx_not]
    simp [bne]
  · rw [if_neg fun h => known (found.mp h), if_neg known]

/-- A NAK before its resends. -/
theorem State.nakHeard_onLink (p n : Nat) (s : State) :
    s.OnLink p (fun x => (({ x with rxSeq := (x.rxSeq + 1) % 65536, awaiting := false }).noteNak s.usec).ackedBefore n)
      [(tlAt p 0x08, 1), (tlAt p 0x20, 1)] ((((s.heard p 1).count (tlAt p 0x20) 1).noteNak p).ackBefore p n) := by
  have hears := onLink_trans (State.heard_onLink p 1 s) (State.count_onLink p (tlAt p 0x20) 1 _)
  have noted := State.noteNak_onLink p ((s.heard p 1).count (tlAt p 0x20) 1)
  rw [hears.usec] at noted
  exact onLink_trans hears (onLink_trans noted (State.ackBefore_onLink p n _))

/-- The counters of a port differ where their offsets do, and are not EV_LOST. -/
theorem tlAt_inj (p a b : Nat) : tlAt p a = tlAt p b ↔ a = b := by
  unfold tlAt
  omega

theorem tlAt_ne_lost (p a : Nat) : tlAt p a ≠ evLostAt := by
  unfold tlAt evLostAt
  omega

/-- A codeword in error, or a flit with a bad CRC, of which `n` symbols have been corrected. -/
theorem State.codewordIn_error {s : State} {p n c : Nat} {cw : Bytes} (up : (s.port p).up = true)
    (bad : flitOf cw = none ∧ c = 0x30 ∨ ∃ flit, flitOf cw = some (flit, n) ∧ flitCrcOk flit = false ∧ c = 0x38) :
    ∃ y crc, s.OnLink p id (if crc then [(tlAt p 0x28, n)] else []) y ∧ c = (if crc then 0x38 else 0x30)
      ∧ s.codewordIn p cw = y.flitError p crc := by
  unfold State.codewordIn
  rw [if_neg (by simp [up])]
  rcases bad with ⟨none, at_⟩ | ⟨flit, found, crc, at_⟩
  · exact ⟨s, false, onLink_refl p s, at_, by rw [none]⟩
  · refine ⟨s.count (tlAt p 0x28) n, true, State.count_onLink p _ n s, at_, ?_⟩
    rw [found]
    exact if_pos (by simp [crc])

/-- What a codeword does that holds no good flit. -/
theorem State.codewordIn_asks {s : State} {p n c : Nat} {cw : Bytes} (here : p < s.ports.length) (up : (s.port p).up = true)
    (bad : flitOf cw = none ∧ c = 0x30 ∨ ∃ flit, flitOf cw = some (flit, n) ∧ flitCrcOk flit = false ∧ c = 0x38) :
    ∃ f cs, s.OnLink p f cs (s.codewordIn p cw) ∧ increments cs (tlAt p c) = 1
      ∧ if (s.port p).awaiting then f = id
        else .link p (.nak (s.port p).rxSeq) ∈ (s.codewordIn p cw).out ∧ increments cs (tlAt p 0x18) = 1
          ∧ f = fun x => (({ x with awaiting := true }).queued (.nak (s.port p).rxSeq)).opened.noteNak s.usec := by
  obtain ⟨y, crc, counted, at_, does⟩ := State.codewordIn_error up bad
  have port : y.port p = s.port p := counted.port here
  rw [does]
  cases awaits : (s.port p).awaiting with
  | true =>
    have stays := onLink_trans counted (State.flitError_awaiting (s := y) (by rw [port, awaits]) crc)
    refine ⟨_, _, stays, ?_, rfl⟩
    rw [at_]
    cases crc <;> simp [increments, tlAt_inj]
  | false =>
    obtain ⟨m, asks, sent⟩ := State.flitError_asks (s := y) (p := p) (by rw [counted.length]; exact here) (by rw [port, up]) (by rw [port, awaits]) crc
    rw [port, counted.usec] at asks
    rw [port] at sent
    refine ⟨_, _, onLink_trans counted asks, ?_, sent, ?_, rfl⟩
    · rw [at_]
      cases crc <;> simp [increments, tlAt_inj]
    · cases crc <;> simp [increments, tlAt_inj]

theorem Port.opened_naks (x : Port) : x.opened.naks = x.naks ∧ x.opened.awaiting = x.awaiting := by
  unfold Port.opened
  split <;> exact ⟨rfl, rfl⟩

/-- A good flit that comes while another number is awaited is discarded; any other acknowledges and returns credits. -/
theorem State.codewordIn_good {s : State} {p n : Nat} {cw flit : Bytes} (up : (s.port p).up = true) (here : p < s.ports.length)
    (found : flitOf cw = some (flit, n)) (good : flitCrcOk flit = true) :
    ∃ m, s.OnLink p (fun x => if x.awaiting = true ∧ fld flit 2 2 ≠ x.rxSeq then x
        else (({ x with awaiting := false }).acked (fld flit 4 2) (fld flit 6 2)).opened) [(tlAt p 0x28, n), (tlAt p 0x00, m)] (s.codewordIn p cw) := by
  have counted := State.count_onLink p (tlAt p 0x28) n s
  have port : (s.count (tlAt p 0x28) n).port p = s.port p := counted.port here
  unfold State.codewordIn
  rw [if_neg (by simp [up]), found]
  dsimp only
  rw [if_neg (by simp [good]), port]
  by_cases other : (s.port p).awaiting = true ∧ fld flit 2 2 ≠ (s.port p).rxSeq
  · rw [if_pos (by simpa using other)]
    have zero := onLink_trans counted (onLink_refl p _)
    refine ⟨0, ?_⟩
    have same : s.OnLink p _ [(tlAt p 0x28, n), (tlAt p 0x00, 0)] (s.count (tlAt p 0x28) n) :=
      ⟨counted.noted, counted.ports, fun o lost => by
        have sum : increments [(tlAt p 0x28, n), (tlAt p 0x00, 0)] o = increments [(tlAt p 0x28, n)] o := by
          simp [increments, List.filter_cons]
          split <;> split <;> simp
        rw [sum]
        exact counted.counts o lost⟩
    exact same.of_eq (by rw [if_pos other]; rfl)
  · rw [if_neg (by simpa using other)]
    obtain ⟨m, acks⟩ := State.goodFlit_onLink p n (fld flit 4 2) (fld flit 6 2) s
    exact ⟨m, acks.of_eq (by rw [if_neg other])⟩

/-- The flits from a known number on begin with it. -/
theorem dropWhile_oldest {l : List SentFlit} {n : Nat} (known : n ∈ l.map (·.seq)) :
    ∃ f rest, l.dropWhile (fun f => f.seq != n) = f :: rest ∧ f.seq = n := by
  induction l with
  | nil => exact absurd known (by simp)
  | cons f l ih =>
    by_cases same : f.seq = n
    · exact ⟨f, l, by simp [same], same⟩
    · obtain ⟨g, rest, drop, seq⟩ := ih (by simpa [Ne.symm same] using known)
      exact ⟨g, rest, by simp [same, drop], seq⟩

/-- Settles O48: codewords in error, good flits, NAKs, timeouts and unknown records. -/
theorem flitLayerAnswers : Obligations.FlitLayerAnswers := by
  unfold Obligations.FlitLayerAnswers
  intro s p n symbols checks eight low up
  have here : p < s.ports.length := by omega
  dsimp only
  refine ⟨fun i hi => ?_, ?_, ?_, ?_, ?_⟩
  · have runs : exec i s = .next (s.codewordIn p (symbols ++ checks)) := by
      rcases List.mem_cons.mp hi with rfl | one
      · rfl
      · rw [List.mem_singleton.mp one]
        rfl
    refine ⟨fun c bad => ?_, fun flit found good => ?_⟩
    · obtain ⟨f, cs, link, sum, does⟩ := State.codewordIn_asks here up bad
      refine ⟨_, runs, ⟨link.noted, link.others⟩, link.counted (tlAt_ne_lost p c) sum, ?_⟩
      rw [link.port here]
      cases awaits : (s.port p).awaiting with
      | true =>
        rw [awaits, if_pos rfl] at does
        rw [does, if_pos rfl]
        exact ⟨awaits, rfl⟩
      | false =>
        rw [awaits, if_neg (by decide)] at does
        obtain ⟨sent, naks, is⟩ := does
        rw [if_neg (by decide), is]
        refine ⟨?_, sent, link.counted (tlAt_ne_lost p _) naks, ?_⟩
        · exact (Port.opened_naks _).2
        · exact congrArg (fun l => (l.filter fun us => decide (s.usec < us + 1000)) ++ [s.usec]) (Port.opened_naks _).1
    · obtain ⟨m, link⟩ := State.codewordIn_good up here found good
      refine ⟨_, runs, ⟨link.noted, link.others⟩, link.counted (tlAt_ne_lost p _) (by simp [increments, tlAt_inj]), ?_⟩
      rw [link.port here, Port.acked_eq]
      rfl
  · have heard := State.nakHeard_onLink p n s
    have runs : exec (.nak p n) s = .next (((((s.heard p 1).count (tlAt p 0x20) 1).noteNak p).ackBefore p n).resendFrom p n) :=
      congrArg Host.Outcome.next (if_neg (by simp [up]))
    generalize (((s.heard p 1).count (tlAt p 0x20) 1).noteNak p).ackBefore p n = y at heard runs
    have port := heard.port here
    by_cases known : n ∈ (s.port p).unacked.map (·.seq)
    · obtain ⟨f, rest, oldest, seq⟩ := dropWhile_oldest known
      have unacked : (y.port p).unacked = f :: rest := by
        rw [port, ← oldest]
        exact if_pos known
      obtain ⟨resends, sent⟩ := State.resendFrom_oldest unacked
      rw [seq] at resends sent
      have link := onLink_trans heard resends
      refine ⟨_, runs, ⟨link.noted, link.others⟩, link.counted (tlAt_ne_lost p _) (by simp [increments, tlAt_inj]), ?_⟩
      rw [link.port here, if_pos known]
      refine ⟨rfl, rfl, sent, ?_⟩
      exact congrArg resent (if_pos known)
    · have unknown : n ∉ (y.port p).unacked.map (·.seq) := by
        rw [port]
        change n ∉ (if n ∈ (s.port p).unacked.map (·.seq) then _ else (s.port p).unacked).map (·.seq)
        rwa [if_neg known]
      rw [State.resendFrom_none unknown] at runs
      refine ⟨_, runs, ⟨heard.noted, heard.others⟩, heard.counted (tlAt_ne_lost p _) (by simp [increments, tlAt_inj]), ?_⟩
      rw [port, if_neg known]
      exact ⟨rfl, rfl, if_neg known⟩
  · intro f rest oldest
    obtain ⟨link, sent⟩ := State.resendFrom_oldest oldest
    have runs : exec (.replayTimeout p) s = .next (s.resendFrom p f.seq) := by
      refine congrArg Host.Outcome.next ?_
      unfold State.replayTimeout
      rw [oldest, List.head?_cons, up]
      rfl
    refine ⟨_, runs, ⟨link.noted, link.others⟩, sent, ?_, link.port here⟩
    exact link.counted (tlAt_ne_lost p _) (by simp [increments, tlAt_inj])
  · intro none
    refine congrArg Host.Outcome.next ?_
    unfold State.replayTimeout
    rw [none]
    rfl
  · have hears := onLink_trans (State.heard_onLink p 1 s) (State.count_onLink p (tlAt p 0x20) 1 _)
    have link := onLink_trans hears (State.noteNak_onLink p _)
    refine ⟨_, congrArg Host.Outcome.next (if_neg (by simp [up])), ⟨link.noted, link.others⟩, ?_, ?_⟩
    · exact link.counted (tlAt_ne_lost p _) (by simp [increments, tlAt_inj])
    · rw [link.port here, hears.usec]
      rfl

end Sys2Proof.Machine

/-! PROOF. The training and the loss of ports (R292, R298, R335, R427). -/

namespace Sys2Proof.Machine

/-! ## Ports that train and retrain -/

theorem State.OnLink.settled {p : Nat} {f : Port → Port} {cs : List (Nat × Nat)} {s t : State} (h : s.OnLink p f cs t) (settled : s.ResetSettled) :
    t.settleReset = t := by
  refine State.settleReset_settled fun due => ?_
  have boot : t.boot = s.boot := h.noted.boot
  rw [boot] at due
  rw [State.inRun, boot]
  exact settled due

theorem Port.opened_state (x : Port) : x.opened.state = x.state ∧ x.opened.lanes = x.lanes := by
  unfold Port.opened
  split <;> exact ⟨rfl, rfl⟩

/-- A port that has trained. -/
def Port.trained (x : Port) : Port := { x with state := 2, lanes := 0xF, superframes := 0 }

theorem State.portTrained_eq {s : State} {p : Nat} (training : (s.port p).state = 1) (role : (s.port p).role ≠ 0) :
    s.portTrained p = match s.harbour.restore with
      | some r => if r.port = p then (s.setPort p Port.trained).sendLink p (.hello (s.restoreHello p)) else s.setPort p Port.trained
      | none => if s.harbour.joined || s.harbour.joining.isSome then (s.setPort p Port.trained).sendLink p (.hello (s.ownHello p))
        else s.setPort p Port.trained := by
  unfold State.portTrained
  dsimp only
  rw [if_neg (by simp [training, role])]
  rfl

/-- A port that has trained carries traffic, and sends what it owes. -/
theorem State.trained_sends {s : State} {p : Nat} (here : p < s.ports.length) (m : LinkMsg) :
    ∃ n, s.OnLink p (fun x => ((x.trained).queued m).opened) [(tlAt p 0x00, n)] ((s.setPort p Port.trained).sendLink p m)
      ∧ .link p m ∈ ((s.setPort p Port.trained).sendLink p m).out := by
  have trains := State.setPort_onLink p Port.trained s
  have up : ((s.setPort p Port.trained).port p).up = true := by
    rw [trains.port here]
    rfl
  obtain ⟨n, sends, sent⟩ := State.sendLink_onLink up m
  exact ⟨n, onLink_trans trains sends, sent⟩

/-- What a trained port is, whatever it sends. -/
theorem State.portTrained_link {s : State} {p : Nat} (here : p < s.ports.length) (training : (s.port p).state = 1) (role : (s.port p).role ≠ 0) :
    ∃ f cs, s.OnLink p f cs (s.portTrained p) ∧ (f (s.port p)).state = 2 ∧ (f (s.port p)).lanes = 15
      ∧ (s.harbour.restore = none → s.harbour.joined = true ∨ s.harbour.joining.isSome = true →
          .link p (.hello (s.ownHello p)) ∈ (s.portTrained p).out)
      ∧ ∀ r, s.harbour.restore = some r → r.port = p → .link p (.hello (s.restoreHello p)) ∈ (s.portTrained p).out := by
  rw [State.portTrained_eq training role]
  have quiet := State.setPort_onLink p Port.trained s
  have opened : ∀ m, (((s.port p).trained.queued m).opened).state = 2 ∧ (((s.port p).trained.queued m).opened).lanes = 15 :=
    fun m => Port.opened_state _
  cases restore : s.harbour.restore with
  | none =>
    dsimp only
    by_cases member : (s.harbour.joined || s.harbour.joining.isSome) = true
    · rw [if_pos member]
      obtain ⟨n, sends, sent⟩ := State.trained_sends here (.hello (s.ownHello p))
      exact ⟨_, _, sends, (opened _).1, (opened _).2, fun _ _ => sent, nofun⟩
    · rw [if_neg member]
      exact ⟨_, _, quiet, rfl, rfl, fun _ is => absurd (by simpa using is) member, nofun⟩
  | some r =>
    dsimp only
    by_cases port : r.port = p
    · rw [if_pos port]
      obtain ⟨n, sends, sent⟩ := State.trained_sends here (.hello (s.restoreHello p))
      exact ⟨_, _, sends, (opened _).1, (opened _).2, nofun, fun _ _ _ => sent⟩
    · rw [if_neg port]
      exact ⟨_, _, quiet, rfl, rfl, nofun, fun q is at_ => absurd (Option.some.inj is ▸ at_) port⟩

/-! ## Ports that are lost -/

/-- A first loss of a step: the port retrains. -/
theorem State.portDown_first {s : State} {p : Nat} {l : PortLoss} (up : (s.port p).up = true) (holds : (s.port p).lossHolds l = true)
    (first : (s.port p).downs ≠ s.job.step + 1) (census : s.harbour.inCensus = false) :
    s.OnLink p (fun x => { x with state := 3, lanes := 0, downs := s.job.step + 1, loss := some l }) [(tlAt p 0x40, 1)] (s.portDown p l) := by
  have lost := onLink_trans
    (State.setPort_onLink p (fun x => { x with state := 3, lanes := 0, downs := s.job.step + 1, loss := some l }) s)
    (State.count_onLink p (tlAt p 0x40) 1 _)
  have whole : s.portDown p l = (s.setPort p fun x => { x with state := 3, lanes := 0, downs := s.job.step + 1, loss := some l }).count
      (tlAt p 0x40) 1 := by
    unfold State.portDown
    dsimp only
    rw [if_neg (by simp [up, holds]), if_neg first]
    unfold State.cutOff
    dsimp only
    rw [if_pos]
    rw [lost.noted.harbour, census]
    rfl
  rw [whole]
  exact lost

theorem State.finishCmd_grew (c : Cmd) (st : Status) (r0 r1 : Nat) (s : State) : s.GrewBy 4 (s.finishCmd c st r0 r1) := by
  have posted : ∀ (x y : State) (q : Nat) (e : Entry), x.GrewBy 4 y → x.GrewBy 4 (y.post q e) := fun x y q e h =>
    grew_trans h (grew_of_log (congrArg EventLog.ring (State.post_log q e y)) (congrArg EventLog.headSeq (State.post_log q e y)))
  have gone : ∀ f, s.GrewBy 0 (s.modCmds f) := fun f => grew_of_log rfl rfl
  unfold State.finishCmd
  dsimp only
  split
  · exact posted _ _ _ _ (grew_mono (gone _) (by decide))
  · exact posted _ _ _ _ (grew_trans (gone _) (grew_trans (State.count_grew _ _ _) (State.raise_grew _ _ _ _ _)))

theorem State.finish_grew (sq cid : Nat) (st : Status) (r0 r1 : Nat) (s : State) : s.GrewBy 4 (s.finish sq cid st r0 r1) := by
  unfold State.finish
  split
  · exact grewBy_refl 4 s
  · exact s.finishCmd_grew _ st r0 r1

/-- Mirroring and what a donor sends stop. -/
def State.mirrorStops (s : State) : State :=
  (s.modJournal fun j => { j with suspended := true }).modHarbour fun h => { h with donating := none, forwarding := none }

/-- A restore over the port ends. -/
def State.restoreEnds (p : Nat) (s : State) : State :=
  match s.harbour.restore with
  | some r => if r.port = p then (s.modHarbour fun h => { h with restore := none }).finish r.sq r.cid .fault 0 0 else s
  | none => s

/-- A shadowing over the port ends. -/
def State.shadowEnds (p : Nat) (s : State) : State :=
  match s.harbour.shadow with
  | some r => if r.port = p then s.modHarbour fun h => { h with shadow := none } else s
  | none => s

theorem State.suspendPartner_eq (p : Nat) (s : State) : s.suspendPartner p = ((s.mirrorStops.endTransfer p).restoreEnds p).shadowEnds p := rfl

theorem State.restoreEnds_ends (p : Nat) (s : State) :
    Only [.out, .pcie, .cqs, .cmds, .log, .tm, .harbour] s (s.restoreEnds p) ∧ s.GrewBy 4 (s.restoreEnds p) := by
  unfold State.restoreEnds
  split
  · split
    · refine ⟨State.finish_only _ _ _ _ _ (by decide) (modHarbour_only _ (by decide) (only_refl _ s)), ?_⟩
      have gone : s.GrewBy 0 (s.modHarbour fun h => { h with restore := none }) := grew_of_log rfl rfl
      exact grew_trans gone (State.finish_grew _ _ _ _ _ _)
    · exact ⟨only_refl _ s, grewBy_refl 4 s⟩
  · exact ⟨only_refl _ s, grewBy_refl 4 s⟩

theorem State.shadowEnds_ends (p : Nat) (s : State) : Only [.harbour] s (s.shadowEnds p) := by
  unfold State.shadowEnds
  split
  · split
    · exact modHarbour_only _ (by decide) (only_refl _ s)
    · exact only_refl _ s
  · exact only_refl _ s

/-- What a partner port that is quarantined suspends, where no snapshot drains over it. -/
theorem State.suspendPartner_suspended {s : State} {p : Nat} (dest : s.snap.dest ≠ .newcomer p) :
    Only [.out, .pcie, .cqs, .cmds, .log, .tm, .journal, .harbour] s (s.suspendPartner p)
      ∧ (s.suspendPartner p).journal = { s.journal with suspended := true } ∧ s.GrewBy 4 (s.suspendPartner p) := by
  have stops : Only [.journal, .harbour] s s.mirrorStops := modHarbour_only _ (by decide) (modJournal_only _ (by decide) (only_refl _ s))
  have stays : s.mirrorStops.endTransfer p = s.mirrorStops := by
    have other : s.mirrorStops.snap.dest ≠ .newcomer p := dest
    unfold State.endTransfer
    rw [if_neg (by simp [other])]
  obtain ⟨restore, grew⟩ := s.mirrorStops.restoreEnds_ends p
  have shadow := (s.mirrorStops.restoreEnds p).shadowEnds_ends p
  rw [State.suspendPartner_eq, stays]
  refine ⟨only_trans (only_mono stops (by decide)) (only_trans (only_mono restore (by decide)) (only_mono shadow (by decide))), ?_, ?_⟩
  · rw [shadow.same .journal (by decide), restore.same .journal (by decide)]
    rfl
  · have log := shadow.same .log (by decide)
    have before : s.GrewBy 0 s.mirrorStops := grew_of_log rfl rfl
    exact grew_trans before (grew_trans grew (grew_of_log (congrArg EventLog.ring log) (congrArg EventLog.headSeq log)))

/-- A partner port that is quarantined. -/
structure State.PartnerCut (p : Nat) (s u : State) : Prop where
  state : (u.port p).state = 4
  role : (u.port p).role = 2
  journal : u.journal = { s.journal with suspended := true }
  logged : ∃ r ∈ u.log.ring, r.code = 0x0306 ∧ r.srcKind = 3 ∧ r.srcIndex = p
  mem : u.mem = s.mem
  job : u.job = s.job
  boot : u.boot = s.boot

/-- The port of a partner that is quarantined goes dark. -/
def State.portCut (p : Nat) (l : PortLoss) (s : State) : State :=
  (s.setPort p fun x => { Port.reset with state := 4, role := x.role, nbrRank := x.nbrRank, nbrPort := x.nbrPort, downs := x.downs,
                                          loss := some l, failed := x.failed }).engines false [p]

theorem State.quarantinePort_partner {s : State} {p : Nat} (role : (s.port p).role = 2) (cause : Nat) (l : PortLoss) :
    s.quarantinePort p cause l
      = ((s.portCut p l).raise 0x0306 srcPort p [(0x20, 1, cause), (0x21, 1, lossCode l), (0x22, 1, (s.port p).role)]).suspendPartner p := by
  unfold State.quarantinePort
  dsimp only
  rw [if_neg (by rw [role]; decide)]
  rfl

theorem State.quarantinePort_cut {s : State} {p : Nat} (here : p < s.ports.length) (role : (s.port p).role = 2)
    (dest : s.snap.dest ≠ .newcomer p) (cause : Nat) (l : PortLoss) : s.PartnerCut p (s.quarantinePort p cause l) := by
  have cut : Only [.out, .power, .pcie, .log, .tm, .stalls, .ports] s (s.portCut p l) :=
    State.engines_only _ _ (by decide) (setPort_only _ _ (by decide) (only_refl _ s))
  have port : ((s.portCut p l).port p).state = 4 ∧ ((s.portCut p l).port p).role = 2 := by
    unfold State.portCut
    rw [State.engines_port, State.setPort_self here]
    exact ⟨rfl, role⟩
  rw [State.quarantinePort_partner role]
  generalize s.portCut p l = y at cut port ⊢
  have noted := y.raise_noted 0x0306 srcPort p [(0x20, 1, cause), (0x21, 1, lossCode l), (0x22, 1, (s.port p).role)]
  have snap : (y.raise 0x0306 srcPort p [(0x20, 1, cause), (0x21, 1, lossCode l), (0x22, 1, (s.port p).role)]).snap.dest ≠ .newcomer p := by
    rw [noted.snap, cut.same .snap (by decide)]
    exact dest
  obtain ⟨rest, journal, grew⟩ := State.suspendPartner_suspended snap
  have logged : y.Logged _ 0x0306 srcPort p := logged_of_raise (grewBy_refl 3 y) rfl grew (by decide)
  obtain ⟨r, ring, -, code, kind, index, -⟩ := logged
  have ports := (rest.same .ports (by decide)).trans noted.ports
  exact {
    state := by rw [State.port, ports]; exact port.1
    role := by rw [State.port, ports]; exact port.2
    journal := by rw [journal, noted.journal, cut.same .journal (by decide)]
    logged := ⟨r, ring, code, kind, index⟩
    mem := (rest.same .mem (by decide)).trans (noted.mem.trans (cut.same .mem (by decide)))
    job := (rest.same .job (by decide)).trans (noted.job.trans (cut.same .job (by decide)))
    boot := (rest.same .boot (by decide)).trans (noted.boot.trans (cut.same .boot (by decide))) }

theorem settleReset_of_boot {s t : State} (settled : s.ResetSettled) (boot : t.boot = s.boot) : t.settleReset = t := by
  refine State.settleReset_settled fun due => ?_
  rw [boot] at due
  rw [State.inRun, boot]
  exact settled due

/-- Settles O49: a port trains, is lost, trains again, and is quarantined. -/
theorem portsTrainAndAreLost : Obligations.PortsTrainAndAreLost := by
  unfold Obligations.PortsTrainAndAreLost
  intro s p l eight low settled census
  have here : p < s.ports.length := by omega
  dsimp only
  refine ⟨fun d cool => ?_, fun training role => ?_, fun up holds first => ?_, fun up holds second role dest => ?_, fun retrains => ?_,
    fun retrains role dest => ?_⟩
  · have stays : s.portDown p (.overTemperature d) = s := by
      have below : (s.port p).lossHolds (.overTemperature d) = false := by
        simp only [Port.lossHolds, atLeast, decide_eq_false_iff_not]
        omega
      unfold State.portDown
      dsimp only
      rw [if_pos (by simp [below])]
    refine congrArg Host.Outcome.next ?_
    rw [stays, State.settleReset_settled settled]
  · obtain ⟨f, cs, link, state, lanes, hello, restore⟩ := State.portTrained_link here training role
    rw [← link.port here] at state lanes
    exact ⟨_, rfl, ⟨link.noted, link.others⟩, state, lanes, hello, restore⟩
  · have link := State.portDown_first up holds first census
    exact ⟨_, congrArg Host.Outcome.next (link.settled settled), ⟨link.noted, link.others⟩,
      link.counted (tlAt_ne_lost p _) (by simp [increments]), link.port here⟩
  · have cut := State.quarantinePort_cut here role dest 2 l
    have down : s.portDown p l = s.quarantinePort p 2 l := by
      unfold State.portDown
      dsimp only
      rw [if_neg (by simp [up, holds]), if_pos second]
    refine ⟨_, congrArg Host.Outcome.next ?_, cut.state, cut.role, cut.journal, cut.logged, cut.mem, cut.job, cut.boot⟩
    rw [down, settleReset_of_boot settled cut.boot]
  · have link := onLink_trans (State.setPort_onLink p (fun x => { x with state := 2, lanes := 0xF, superframes := 0, naks := [], unacked := x.unacked.map fun f => { f with resends := 0 } }) s)
      (State.releaseFlits_onLink p _)
    have up : s.portRetrained p true = (s.setPort p fun x => { x with state := 2, lanes := 0xF, superframes := 0, naks := [], unacked := x.unacked.map fun f => { f with resends := 0 } }).releaseFlits p := by
      unfold State.portRetrained
      dsimp only
      rw [if_neg (by simp [retrains])]
      rfl
    rw [← up] at link
    refine ⟨_, congrArg Host.Outcome.next (link.settled settled), ⟨link.noted, link.others⟩, ?_⟩
    rw [link.port here]
    exact ⟨(Port.opened_state _).1, (Port.opened_state _).2, (Port.opened_naks _).1⟩
  · have cut := State.quarantinePort_cut here role dest 1 ((s.port p).loss.getD .laneSilent)
    have down : s.portRetrained p false = s.quarantinePort p 1 ((s.port p).loss.getD .laneSilent) := by
      unfold State.portRetrained
      dsimp only
      rw [if_neg (by simp [retrains])]
      rfl
    refine ⟨_, congrArg Host.Outcome.next ?_, cut.state, cut.journal, cut.mem, cut.job, cut.boot⟩
    rw [down, settleReset_of_boot settled cut.boot]

end Sys2Proof.Machine

/-! PROOF. HELLO and PROGRESS records (R294, R298, R299, R310, R311, R431). -/

namespace Sys2Proof.Machine

/-! ## A record heard on a port -/

/-- A port has heard a HELLO. -/
def Port.greeted (x : Hello) (y : Port) : Port :=
  { y with rxSeq := (y.rxSeq + 1) % 65536, awaiting := false, nbrRank := x.rank, nbrPort := x.port }

theorem State.helloHeard_onLink (p : Nat) (x : Hello) (s : State) :
    s.OnLink p (Port.greeted x) [(tlAt p 0x08, 1)] ((s.heard p 1).noteNeighbour p x) :=
  onLink_trans (State.heard_onLink p 1 s) (State.setPort_onLink p (fun y => { y with nbrRank := x.rank, nbrPort := x.port }) _)

theorem State.heard_grew (p n : Nat) (s : State) : s.GrewBy 2 (s.heard p n) := by
  have before : s.GrewBy 0 (s.setPort p fun x => { x with rxSeq := (x.rxSeq + n) % 65536, awaiting := false }) := grew_of_log rfl rfl
  have counted := State.count_grew (tlAt p 0x08) n (s.setPort p fun x => { x with rxSeq := (x.rxSeq + n) % 65536, awaiting := false })
  unfold State.heard
  dsimp only
  generalize (s.setPort p fun x => { x with rxSeq := (x.rxSeq + n) % 65536, awaiting := false }).count (tlAt p 0x08) n = y at counted ⊢
  exact grew_trans before (grew_trans counted (grew_of_log rfl rfl))

/-- The digest of a harbour rests on the job and on the patch. -/
theorem State.harbourDigest_congr {s t : State} (job : t.job = s.job) (boot : t.boot = s.boot) (id : Nat) :
    t.harbourDigest id = s.harbourDigest id := by
  have format : t.formatSet = s.formatSet := by
    unfold State.formatSet State.storedFormat State.isNarrowed State.gammaOf
    rw [job]
  unfold State.harbourDigest State.harbourRecord
  rw [job, boot, format]

theorem State.OnLink.harbourDigest {p : Nat} {f : Port → Port} {cs : List (Nat × Nat)} {s t : State} (h : s.OnLink p f cs t) (id : Nat) :
    t.harbourDigest id = s.harbourDigest id := State.harbourDigest_congr h.noted.job h.noted.boot id

theorem State.OnLink.harbour {p : Nat} {f : Port → Port} {cs : List (Nat × Nat)} {s t : State} (h : s.OnLink p f cs t) : t.harbour = s.harbour :=
  h.noted.harbour

theorem State.OnLink.helloFits {p : Nat} {f : Port → Port} {cs : List (Nat × Nat)} {s t : State} (h : s.OnLink p f cs t) (q : Nat) (x : Hello) :
    t.helloFits q x = s.helloFits q x := by
  unfold State.helloFits
  rw [h.harbour]

/-- What a member makes of a HELLO that comes on a topology port, once it is heard. -/
theorem State.helloIn_topology {s : State} {p : Nat} (x : Hello) (up : (s.port p).up = true) (restore : s.harbour.restore = none)
    (joined : s.harbour.joined = true) (port : p ∈ s.harbour.ports) :
    s.helloIn p x = ((s.heard p 1).noteNeighbour p x).topologyHello p x := by
  have heard := (s.helloHeard_onLink p x).harbour
  unfold State.helloIn
  rw [if_neg (by simp [up])]
  generalize (s.heard p 1).noteNeighbour p x = y at heard ⊢
  dsimp only
  rw [heard, restore]
  dsimp only
  rw [if_neg (by simp [joined]), if_pos (by simpa using port)]

/-- A HELLO that fits no neighbour is refused. -/
theorem State.topologyHello_misfit {s : State} {p : Nat} {x : Hello} (misfit : s.helloFits p x = false) (alone : s.harbour.joining = none) :
    s.topologyHello p x = s.refuseHello p 2 (s.harbour.neighbour p) := by
  unfold State.topologyHello
  dsimp only
  rw [misfit, if_pos (show (!false) = true from rfl), if_pos (by decide : (2 != 0) = true), if_neg (by simp [alone])]

/-- A HELLO of a present neighbour with the harbour's digest asks for nothing. -/
theorem State.topologyHello_present {s : State} {p : Nat} {x : Hello} (fits : s.helloFits p x = true)
    (digest : x.digest = s.harbourDigest s.harbour.id) (alone : s.harbour.joining = none) (present : x.rank ∈ s.harbour.present) :
    s.topologyHello p x = s := by
  have rank : s.harbour.neighbour p = x.rank := by
    unfold State.helloFits at fits
    simp only [Bool.and_eq_true, beq_iff_eq] at fits
    exact fits.1.1.2.symm
  unfold State.topologyHello
  dsimp only
  rw [fits, digest, rank, alone]
  simp [present]

/-- A HELLO of the partner on another feed asks for nothing. -/
theorem State.partnerHello_fits {s : State} {p : Nat} {x : Hello} (id : x.harbourId = s.harbour.id) (rank : x.rank = s.harbour.partner)
    (partner : x.partner = true) (digest : x.digest = s.harbourDigest s.harbour.id) (other : x.feedId ≠ s.power.feedId) (named : x.feedId ≠ 0xFF)
    (own : s.power.feedId ≠ 0xFF) : s.partnerHello p x = s := by
  unfold State.partnerHello
  dsimp only
  rw [if_neg (by simp [id, rank, partner]), if_neg (by simp [digest]), if_pos (by simp [other, named, own])]

theorem State.helloIn_partner {s : State} {p : Nat} {x : Hello} (up : (s.port p).up = true) (none_ : s.harbour.restore = none)
    (joined : s.harbour.joined = true) (port : p ∉ s.harbour.ports) (partner : s.harbour.partnerPort = some p) (restore : x.restore = false) :
    s.helloIn p x = ((s.heard p 1).noteNeighbour p x).partnerHello p x := by
  have heard := (s.helloHeard_onLink p x).harbour
  unfold State.helloIn
  rw [if_neg (by simp [up])]
  generalize (s.heard p 1).noteNeighbour p x = y at heard ⊢
  dsimp only
  rw [heard, none_]
  dsimp only
  rw [if_neg (by simp [joined]), if_neg (by simpa using port), if_neg (by simp [partner]), if_neg (by simp [restore])]

/-! ## PROGRESS -/

/-- What a neighbour's record becomes. -/
def State.neighbourOf (r : Progress) (s : State) : Neighbour :=
  ⟨r.rank, r.count, ((s.harbour.neighbours.find? fun n => n.rank == r.rank).elim s.usec fun n => n.standing s.usec r.count), s.usec,
    r.dataWait || r.commandWait || r.halted, r.halted, r.decided, r.wait⟩

theorem State.progressIn_eq {s : State} {p : Nat} {r : Progress} (up : (s.port p).up = true) (joined : s.harbour.joined = true)
    (port : p ∈ s.harbour.ports) (rank : r.rank = s.harbour.neighbour p) :
    s.progressIn p r = (s.heard p 1).modHarbour fun h =>
      { h with neighbours := h.neighbours.filter (fun n => n.rank != r.rank) ++ [s.neighbourOf r] } := by
  have heard := s.heard_onLink p 1
  have harbour := heard.harbour
  have clock := heard.usec
  unfold State.progressIn State.neighbourOf
  rw [if_neg (by simp [up])]
  generalize s.heard p 1 = y at harbour clock ⊢
  dsimp only
  rw [harbour, clock, if_neg (by simp [joined, port, rank])]
  cases s.harbour.neighbours.find? (fun n => n.rank == r.rank) <;> rfl

theorem find_appended {l : List Neighbour} (n : Neighbour) :
    (l.filter (fun m => m.rank != n.rank) ++ [n]).find? (fun m => m.rank == n.rank) = some n := by
  have gone : (l.filter fun m => m.rank != n.rank).find? (fun m => m.rank == n.rank) = none := by
    rw [List.find?_eq_none]
    intro m hm
    simpa using (List.mem_filter.mp hm).2
  rw [List.find?_append, gone]
  simp

/-! ## What is flooded -/

/-- Messages have gone out: ports have changed in their flits in flight alone. -/
structure State.Flooded (s t : State) : Prop where
  noted : State.Noted { s with ports := t.ports } t
  ports : s.SamePorts t

theorem flooded_trans {s x t : State} (h : s.Flooded x) (g : x.Flooded t) : s.Flooded t :=
  ⟨noted_trans (noted_withPorts h.noted t.ports) g.noted, samePorts_trans h.ports g.ports⟩

theorem State.up_of_samePorts {s t : State} (h : s.SamePorts t) (q : Nat) : (t.port q).up = (s.port q).up := by
  have state := congrArg Port.state (h q)
  unfold Port.up
  exact congrArg (· == 2) state

theorem State.sendLink_flooded (p : Nat) (m : LinkMsg) (s : State) : s.Flooded (s.sendLink p m) := by
  refine ⟨?_, s.sendLink_samePorts p m⟩
  by_cases up : (s.port p).up = true
  · exact (State.sendLink_onLink up m).choose_spec.1.noted
  · unfold State.sendLink
    rw [if_pos (by simpa using up)]
    exact noted_refl s

/-- A message goes out on every port of a list that is up. -/
theorem State.sends_flooded (m : LinkMsg) (ps : List Nat) (s : State) :
    s.Flooded (ps.foldl (fun s p => s.sendLink p m) s)
      ∧ ∀ q ∈ ps, (s.port q).up = true → .link q m ∈ (ps.foldl (fun s p => s.sendLink p m) s).out := by
  induction ps generalizing s with
  | nil => exact ⟨⟨noted_refl s, samePorts_of_eq rfl⟩, nofun⟩
  | cons p ps ih =>
    have first := s.sendLink_flooded p m
    obtain ⟨rest, sent⟩ := ih (s.sendLink p m)
    refine ⟨flooded_trans first rest, fun q hq up => ?_⟩
    rcases List.mem_cons.mp hq with rfl | later
    · exact rest.noted.sent.subset (State.sendLink_onLink up m).choose_spec.2
    · exact sent q later (by rw [State.up_of_samePorts first.ports, up])

theorem State.flood_flooded (m : LinkMsg) (s : State) : s.Flooded (s.flood m) ∧ ∀ q ∈ s.livePorts, .link q m ∈ (s.flood m).out := by
  obtain ⟨flooded, sent⟩ := State.sends_flooded m s.livePorts s
  exact ⟨flooded, fun q live => sent q live (List.mem_filter.mp live).2⟩

/-- Settles O50: what HELLO and PROGRESS records do. -/
theorem helloAndProgress : Obligations.HelloAndProgress := by
  unfold Obligations.HelloAndProgress
  intro s p h r eight low up settled joined alone restore
  have here : p < s.ports.length := by omega
  have link := s.helloHeard_onLink p h
  have harbour := link.harbour
  refine ⟨fun port misfit => ?_, fun port fits digest present => ?_, fun port partner fresh id rank is digest other named own => ?_,
    fun port rank => ?_, ?_⟩
  · have runs := State.helloIn_topology h up restore joined port
    rw [State.topologyHello_misfit (by rw [link.helloFits, misfit]) (by rw [harbour, alone]), harbour] at runs
    have before : s.GrewBy 3 ((s.heard p 1).noteNeighbour p h) :=
      grew_mono (grew_trans (s.heard_grew p 1) (grew_of_log rfl rfl)) (by decide)
    generalize (s.heard p 1).noteNeighbour p h = y at link runs before
    have noted := y.raise_noted 0x0303 srcPort p [(0x20, 1, 2), (0x22, 2, s.harbour.neighbour p)]
    have logged : s.Logged (y.raise 0x0303 srcPort p [(0x20, 1, 2), (0x22, 2, s.harbour.neighbour p)]) 0x0303 srcPort p :=
      logged_of_raise before link.usec (grewBy_refl 0 _) (by decide)
    have boot := noted.boot.trans link.noted.boot
    have port := link.port here
    have all := noted_trans link.noted noted
    refine ⟨_, congrArg Host.Outcome.next ((congrArg State.settleReset runs).trans (settleReset_of_boot settled boot)), ?_, logged, ?_, ?_⟩
    · unfold State.refuseHello
      rw [noted.ports]
      exact all
    · rw [State.refuseHello, State.port, noted.ports]
      exact congrArg Port.nbrRank port
    · rw [State.refuseHello, State.port, noted.ports]
      exact congrArg Port.nbrPort port
  · have runs := State.helloIn_topology h up restore joined port
    rw [State.topologyHello_present (by rw [link.helloFits, fits]) (by rw [link.harbourDigest, harbour, digest]) (by rw [harbour, alone])
      (by rw [harbour]; exact present)] at runs
    refine ⟨_, congrArg Host.Outcome.next ((congrArg State.settleReset runs).trans (settleReset_of_boot settled link.noted.boot)), link.noted, ?_, ?_⟩
    · rw [link.port here]; rfl
    · rw [link.port here]; rfl
  · have runs := State.helloIn_partner up restore joined port partner fresh
    rw [State.partnerHello_fits (by rw [harbour, id]) (by rw [harbour, rank]) is (by rw [link.harbourDigest, harbour, digest])
      (by rw [link.noted.power]; exact other) named (by rw [link.noted.power]; exact own)] at runs
    refine ⟨_, congrArg Host.Outcome.next ((congrArg State.settleReset runs).trans (settleReset_of_boot settled link.noted.boot)), link.noted, ?_, ?_⟩
    · rw [link.port here]; rfl
    · rw [link.port here]; rfl
  · have heard := s.heard_onLink p 1
    have runs := State.progressIn_eq up joined port rank
    have kept : (s.heard p 1).harbour = s.harbour := heard.harbour
    generalize s.heard p 1 = y at heard runs kept
    refine ⟨_, s.neighbourOf r, congrArg Host.Outcome.next runs, ?_, ?_, ?_, rfl, rfl, rfl, rfl, rfl, rfl, fun m found => ?_⟩
    · have n := heard.noted
      exact ⟨n.pending, n.sent, n.freeCtr, n.usec, n.power, n.boot, n.pcie, n.sqs, n.cqs, n.sqTurn, n.cmds, n.job, n.mem, n.run, n.stalls,
        n.quays, n.snap, n.journal, rfl, rfl, n.test⟩
    · rw [State.modHarbour_harbour, kept]
    · exact find_appended (s.neighbourOf r)
    · unfold State.neighbourOf
      rw [found]
      rfl
  · obtain ⟨flooded, sent⟩ := State.flood_flooded (.progress s.progressRecord) s
    have runs : s.progressSend = s.flood (.progress s.progressRecord) := by
      unfold State.progressSend
      rw [if_pos joined]
    exact ⟨_, congrArg Host.Outcome.next runs, flooded.noted, sent⟩

end Sys2Proof.Machine

/-! PROOF. The causes of a re-formation (R303, R311 to R313, R317; log 71). -/

namespace Sys2Proof.Machine

/-! ## Records that a re-formation enters: at most two for each counter that saturates -/

/-- The counters of a list whose SAT bit is clear. -/
def State.clearOf (cs : List Nat) (s : State) : Nat := cs.countP fun o => !s.tm.sat.contains o

/-- The records that have been entered are those of counters of `cs` that have saturated. -/
def State.GrewIn (cs : List Nat) (s t : State) : Prop := ∃ n, s.GrewBy n t ∧ n + 2 * t.clearOf cs ≤ 2 * s.clearOf cs

theorem grewIn_trans {cs : List Nat} {s x t : State} (h : s.GrewIn cs x) (g : x.GrewIn cs t) : s.GrewIn cs t := by
  obtain ⟨m, hm, em⟩ := h
  obtain ⟨n, hn, en⟩ := g
  exact ⟨m + n, grew_trans hm hn, by omega⟩

theorem grewIn_of_same {s t : State} (log : t.log = s.log) (tm : t.tm = s.tm) (cs : List Nat) : s.GrewIn cs t :=
  ⟨0, grew_of_log (congrArg EventLog.ring log) (congrArg EventLog.headSeq log), by rw [State.clearOf, tm, State.clearOf, Nat.zero_add]⟩

theorem grewIn_refl (cs : List Nat) (s : State) : s.GrewIn cs s := grewIn_of_same rfl rfl cs

theorem State.GrewIn.bound {cs : List Nat} {s t : State} (h : s.GrewIn cs t) : s.GrewBy (2 * cs.length) t := by
  obtain ⟨n, grew, le⟩ := h
  have most : s.clearOf cs ≤ cs.length := List.countP_le_length
  exact grew_mono grew (by omega)

theorem countP_less {α : Type} {p q : α → Bool} {l : List α} {a : α} (all : ∀ x ∈ l, q x = true → p x = true) (mem : a ∈ l) (ha : p a = true)
    (na : q a = false) : l.countP q < l.countP p := by
  induction l with
  | nil => exact absurd mem (by simp)
  | cons b l ih =>
    have rest : l.countP q ≤ l.countP p := List.countP_mono_left fun x hx => all x (List.mem_cons_of_mem _ hx)
    rw [List.countP_cons, List.countP_cons]
    rcases List.mem_cons.mp mem with rfl | later
    · rw [ha, na]
      simp
      omega
    · have less := ih (fun x hx => all x (List.mem_cons_of_mem _ hx)) later
      have head := all b List.mem_cons_self
      cases hq : q b with
      | false => simp; split <;> omega
      | true => simp [head hq]; omega

/-- A count enters records only where it sets the SAT bit of its counter. -/
theorem State.count_grewIn {cs : List Nat} {o : Nat} (mem : o ∈ cs) (lost : evLostAt ∉ cs) (n : Nat) (s : State) : s.GrewIn cs (s.count o n) := by
  have ne : ∀ x ∈ cs, x ≠ evLostAt := fun x hx same => lost (same ▸ hx)
  have keeps : ∀ x ∈ cs, x ∈ s.tm.sat → x ∈ (s.count o n).tm.sat := by
    intro x hx set
    unfold State.count
    split
    · rw [State.saturated, State.raise_sat (ne x hx), State.modTm_tm, Telemetry.mem_sat_add]
      exact .inl set
    · rw [State.modTm_tm, Telemetry.mem_sat_add]
      exact .inl set
  have le : (s.count o n).clearOf cs ≤ s.clearOf cs := List.countP_mono_left fun x hx h => by
    simp only [Bool.not_eq_true', List.contains_eq_mem, decide_eq_false_iff_not] at h ⊢
    exact fun set => h (keeps x hx set)
  by_cases sets : s.tm.saturates o n = true
  · obtain ⟨beyond, clear⟩ := Telemetry.saturates_iff.mp sets
    refine ⟨2, s.count_grew o n, ?_⟩
    have less : (s.count o n).clearOf cs < s.clearOf cs := by
      refine countP_less (a := o) (fun x hx h => ?_) mem (by simpa using clear) ?_
      · simp only [Bool.not_eq_true', List.contains_eq_mem, decide_eq_false_iff_not] at h ⊢
        exact fun set => h (keeps x hx set)
      · simpa using (State.count_sat (ne o mem) n s).mpr (.inr beyond)
    omega
  · have log : (s.count o n).log = s.log := by
      rw [State.count, if_neg sets]
      rfl
    exact ⟨0, grew_of_log (congrArg EventLog.ring log) (congrArg EventLog.headSeq log), by omega⟩

/-- The counters that a re-formation counts on: the waits, and the flits of each port. -/
def reformCounters : List Nat := tmAt 0x28 :: (List.range 8).map fun p => tlAt p 0x00

theorem evLostAt_not_reform : evLostAt ∉ reformCounters := by decide

/-- What a re-formation may do, as far as the log is concerned: every port past the eighth is dark. -/
structure State.Reforming (s t : State) : Prop where
  grew : s.GrewIn reformCounters t
  ports : s.SamePorts t

theorem reforming_trans {s x t : State} (h : s.Reforming x) (g : x.Reforming t) : s.Reforming t :=
  ⟨grewIn_trans h.grew g.grew, samePorts_trans h.ports g.ports⟩

theorem reforming_of_same {s t : State} (log : t.log = s.log) (tm : t.tm = s.tm) (ports : t.ports = s.ports) : s.Reforming t :=
  ⟨grewIn_of_same log tm _, samePorts_of_eq ports⟩

theorem reforming_refl (s : State) : s.Reforming s := reforming_of_same rfl rfl rfl

/-- No port past the eighth is up. -/
def State.EightPorts (s : State) : Prop := ∀ q, 8 ≤ q → (s.port q).up = false

theorem eightPorts_of_length {s : State} (eight : s.ports.length = 8) : s.EightPorts := by
  intro q high
  rw [State.port, List.getD_eq_default _ _ (by omega)]
  rfl

theorem State.EightPorts.of_same {s t : State} (h : s.EightPorts) (same : s.SamePorts t) : t.EightPorts := fun q high => by
  rw [State.up_of_samePorts same, h q high]

theorem State.sendLink_reforming {s : State} (eight : s.EightPorts) (p : Nat) (m : LinkMsg) : s.Reforming (s.sendLink p m) := by
  refine ⟨?_, s.sendLink_samePorts p m⟩
  unfold State.sendLink
  split
  · exact grewIn_refl _ s
  next up =>
    have low : p < 8 := by
      by_contra high
      exact up (by simp [eight p (by omega)])
    have queues : s.GrewIn reformCounters ((s.emit (.link p m)).setPort p fun x => { x with backlog := enqueue m.bodies x.backlog }) :=
      grewIn_of_same rfl rfl _
    generalize (s.emit (.link p m)).setPort p (fun x => { x with backlog := enqueue m.bodies x.backlog }) = y at queues ⊢
    refine grewIn_trans queues ?_
    unfold State.releaseFlits
    dsimp only
    split
    · exact grewIn_refl _ y
    · have flits : Only [.out, .ports] y ((y.emitFlits p (y.port p).leaving).setPort p Port.release) :=
        setPort_only _ _ (by decide) (State.emitFlits_only p _ (by decide) (only_refl _ y))
      refine grewIn_trans (grewIn_of_same (flits.same .log (by decide)) (flits.same .tm (by decide)) _) ?_
      exact State.count_grewIn (List.mem_cons_of_mem _ (List.mem_map.mpr ⟨p, List.mem_range.mpr low, rfl⟩)) evLostAt_not_reform _ _

theorem reforming_foldl {α : Type} {f : State → α → State} {s x : State} (eight : s.EightPorts)
    (hf : ∀ (y : State) (a : α), y.EightPorts → y.Reforming (f y a))
    (l : List α) (h : s.Reforming x) : s.Reforming (l.foldl f x) :=
  foldl_inv (P := s.Reforming) (fun y a hy => reforming_trans hy (hf y a (eight.of_same hy.ports))) l h

theorem State.flood_reforming {s : State} (eight : s.EightPorts) (m : LinkMsg) : s.Reforming (s.flood m) :=
  reforming_foldl eight (fun _ p h => State.sendLink_reforming h p m) _ (reforming_refl s)

theorem State.sendView_reforming {s : State} (eight : s.EightPorts) : s.Reforming s.sendView :=
  reforming_foldl eight (fun y p h => reforming_foldl h (fun _ c g => State.sendLink_reforming g p (.census c)) _ (reforming_refl y)) _
    (reforming_refl s)

/-- A change of the own view is sent. -/
theorem State.viewSent_reforming {s : State} (eight : s.EightPorts) (f : Harbour → Harbour) : s.Reforming (s.modHarbour f).sendView := by
  have still : (s.modHarbour f).EightPorts := eight
  have changed : s.Reforming (s.modHarbour f) := reforming_of_same rfl rfl rfl
  exact reforming_trans changed (State.sendView_reforming still)

theorem State.endWait_reforming (g : GroupRun) (s : State) : s.Reforming (s.endWait g) := by
  unfold State.endWait
  split
  · exact reforming_refl s
  next u _ =>
    have counts : s.Reforming (s.count (tmAt 0x28) (s.usec - u)) :=
      ⟨State.count_grewIn List.mem_cons_self evLostAt_not_reform _ _, (State.count_noted _ _ _).samePorts⟩
    dsimp only
    generalize s.count (tmAt 0x28) (s.usec - u) = y at counts ⊢
    split
    · exact reforming_trans counts (reforming_of_same rfl rfl rfl)
    · have extends_ := State.extends_only ((y.modRun fun r =>
        { r with waitUs := r.waitUs + (s.usec - u), groups := r.groups.map fun x => if x.place = g.place then { x with waitFrom := none } else x }).cmdsOf
          opRun) (s.usec - u) (y.modRun fun r =>
        { r with waitUs := r.waitUs + (s.usec - u), groups := r.groups.map fun x => if x.place = g.place then { x with waitFrom := none } else x })
      exact reforming_trans counts (reforming_of_same (extends_.same .log (by decide)) (extends_.same .tm (by decide)) (extends_.same .ports (by decide)))

theorem State.abandonAttempt_reforming (s : State) : s.Reforming s.abandonAttempt := by
  have waits : s.Reforming s.endWaits :=
    foldl_inv (P := s.Reforming) (fun y g h => reforming_trans h (y.endWait_reforming g)) _ (reforming_refl s)
  unfold State.abandonAttempt
  exact reforming_trans waits (reforming_of_same rfl rfl rfl)

theorem State.enterCensus_reforming {s : State} (eight : s.EightPorts) : s.Reforming s.enterCensus := by
  unfold State.enterCensus
  split
  · exact reforming_refl s
  · exact State.viewSent_reforming eight _

theorem State.markLost_reforming {s : State} (eight : s.EightPorts) (r reason : Nat) (ej announced : Bool) :
    s.Reforming (s.markLost r reason ej announced) := by
  unfold State.markLost State.setEntry
  dsimp only
  split
  · exact reforming_refl s
  · exact State.viewSent_reforming eight _

theorem State.reform_reforming {s : State} (eight : s.EightPorts) (m : LinkMsg) : s.Reforming (s.reform m) := by
  unfold State.reform
  have ends : s.Reforming (if s.harbour.decided then s else s.abandonAttempt) := by
    split
    · exact reforming_refl s
    · exact s.abandonAttempt_reforming
  have floods := reforming_trans ends (State.flood_reforming (eight.of_same ends.ports) m)
  exact reforming_trans floods (State.enterCensus_reforming (eight.of_same floods.ports))

theorem State.eject_reforming {s : State} (eight : s.EightPorts) (e : EjectRec) : s.Reforming (s.eject e) := by
  unfold State.eject
  split
  · exact reforming_refl s
  · have reforms := State.reform_reforming eight (.eject e)
    refine reforming_trans reforms ?_
    unfold State.applyEject
    split
    · exact State.markLost_reforming (eight.of_same reforms.ports) _ _ _ _
    · exact reforming_of_same rfl rfl rfl

/-! ## The census that a cause begins -/

/-- A census is open that waits for the view of `q`. -/
structure State.CensusOpen (q : Nat) (s u : State) : Prop where
  reformed : s.Reformed u
  joining : u.harbour.joining = none
  views : u.harbour.views = []
  held : u.harbour.holds q = true
  size : q < u.harbour.size
  other : q ≠ u.harbour.rank

/-- A census does not close while a rank held present has sent no view. -/
theorem State.CensusOpen.tryClose {s u : State} {q : Nat} (h : s.CensusOpen q u) : u.tryClose = u := by
  have apart : u.harbour.agreed = false := by
    rw [Bool.eq_false_iff]
    intro all
    have at_ := List.all_eq_true.mp all q (List.mem_range.mpr h.size)
    rw [h.held, h.views] at at_
    simp [h.other] at at_
  unfold State.tryClose
  split
  · rfl
  · rw [h.joining]
    cases u.job.table with
    | none => rfl
    | some t => exact if_pos (by simp [apart])

theorem State.firstView_holds {s : State} {q : Nat} (size : q < s.harbour.size) (other : q ≠ s.harbour.rank) (present : q ∈ s.harbour.present)
    (stays : q ∉ s.harbour.leavers) : s.firstView[q]? = some ⟨.present, false, false, 0, none, 0⟩ := by
  unfold State.firstView
  rw [List.getElem?_map, List.getElem?_range size, Option.map_some, if_neg other, if_neg (by simpa using stays), if_pos (by simp [present])]

/-- A cause at a member that is in no census opens one. -/
theorem State.reform_open {s : State} {q : Nat} (member : s.MemberWith q) (m : LinkMsg) :
    s.CensusOpen q (s.reform m) ∧ (s.reform m).harbour.causes = s.harbour.causes := by
  obtain ⟨joined, outside, joining, undecided, size, other, present, stays⟩ := member
  have flooded : (s.abandonAttempt.flood m).harbour = { s.harbour with link := s.harbour.link.cleared } :=
    ((State.flood_rest m _).same .harbour (by decide)).trans s.abandonAttempt_harbour
  have harbour : (s.reform m).harbour = { (s.abandonAttempt.flood m).harbour with
      inCensus := true, censusNo := s.harbour.census + 1, censusFrom := (s.abandonAttempt.flood m).usec,
      view := (s.abandonAttempt.flood m).firstView, views := [], parts := [] } := by
    rw [State.reform_eq m undecided, State.enterCensus_harbour, flooded, outside]
    rfl
  have holds : (s.abandonAttempt.flood m).firstView[q]? = some ⟨.present, false, false, 0, none, 0⟩ :=
    State.firstView_holds (by rw [flooded]; exact size) (by rw [flooded]; exact other) (by rw [flooded]; exact present) (by rw [flooded]; exact stays)
  refine ⟨⟨State.reform_reformed m undecided joined outside, ?_, ?_, ?_, ?_, ?_⟩, ?_⟩
  · rw [harbour, flooded]; exact joining
  · rw [harbour]
  · rw [harbour, Harbour.holds, holds]
    rfl
  · rw [harbour, flooded]; exact size
  · rw [harbour, flooded]; exact other
  · rw [harbour, flooded]

theorem State.markLost_rest (r reason : Nat) (ej announced : Bool) (s : State) :
    Only [.out, .pcie, .log, .tm, .harbour, .ports] s (s.markLost r reason ej announced) :=
  State.markLost_only _ _ _ _ (List.Subset.refl _) (only_refl _ s)

theorem State.Reformed.of_only {s x u : State} (h : s.Reformed x) (rest : Only [.out, .pcie, .log, .tm, .harbour, .ports] x u)
    (census : u.harbour.inCensus = x.harbour.inCensus) (number : u.harbour.censusNo = x.harbour.censusNo) : s.Reformed u := by
  obtain ⟨inCensus, no, tides, groups, mem, job, boot, cmds, journal⟩ := h
  exact ⟨census.trans inCensus, number.trans no, (congrArg Run.tides (rest.same .run (by decide))).trans tides,
    (congrArg Run.groups (rest.same .run (by decide))).trans groups, (rest.same .mem (by decide)).trans mem, (rest.same .job (by decide)).trans job,
    (rest.same .boot (by decide)).trans boot, (rest.same .cmds (by decide)).trans cmds, (rest.same .journal (by decide)).trans journal⟩

/-- A rank that is lost is held present no more, and the census still waits for the others. -/
theorem State.CensusOpen.markLost {s x : State} {q r : Nat} (h : s.CensusOpen q x) (other : r ≠ q) (reason : Nat) (ej announced : Bool) :
    s.CensusOpen q (x.markLost r reason ej announced) ∧ (x.markLost r reason ej announced).harbour.holds r = false := by
  have harbour : (x.markLost r reason ej announced).harbour
      = { x.harbour with view := modAt r (CensusEntry.lose ej announced reason) x.harbour.view } := State.setEntry_harbour _ _ _
  refine ⟨⟨h.reformed.of_only (State.markLost_rest r reason ej announced x) (by rw [harbour]) (by rw [harbour]), ?_, ?_, ?_, ?_, ?_⟩, ?_⟩
  · rw [harbour]; exact h.joining
  · rw [harbour]; exact h.views
  · have held := h.held
    unfold Harbour.holds at held ⊢
    rw [harbour]
    dsimp only
    rw [modAt_getElem?, if_neg other]
    exact held
  · rw [harbour]; exact h.size
  · rw [harbour]; exact h.other
  · unfold Harbour.holds
    rw [harbour]
    dsimp only
    rw [modAt_getElem?, if_pos rfl]
    cases x.harbour.view[r]? with
    | none => rfl
    | some e => cases ej <;> cases e with | mk state => cases state <;> rfl

/-- An EJECT of a member opens a census; one of reason 2 counts its rank as lost. -/
theorem State.eject_open {s : State} {q : Nat} (member : s.MemberWith q) (part : s.takesPart = true) (e : EjectRec) :
    (e.reason ≠ 2 → s.CensusOpen q (s.eject e) ∧ (s.eject e).harbour.causes = s.harbour.causes ++ [e])
      ∧ (e.reason = 2 → e.accused ≠ q → s.CensusOpen q (s.eject e) ∧ (s.eject e).harbour.holds e.accused = false) := by
  obtain ⟨opens, causes⟩ := State.reform_open member (.eject e)
  obtain ⟨-, outside, -⟩ := member
  have goes : s.eject e = (s.reform (.eject e)).applyEject e := by
    unfold State.eject
    rw [if_neg]
    simp [part, Harbour.knows, outside]
  rw [goes]
  generalize s.reform (.eject e) = x at opens causes
  unfold State.applyEject
  refine ⟨fun other => ?_, fun two apart => ?_⟩
  · rw [if_neg other]
    exact ⟨⟨opens.reformed, opens.joining, opens.views, opens.held, opens.size, opens.other⟩, by rw [State.modHarbour_harbour, causes]⟩
  · rw [if_pos two]
    exact opens.markLost apart _ _ _

/-- The statement's effects do not see that a record has been heard before. -/
theorem State.CensusOpen.after {p q : Nat} {f : Port → Port} {cs : List (Nat × Nat)} {s x u : State} (h : x.CensusOpen q u) (link : s.OnLink p f cs x) :
    s.CensusOpen q u := by
  obtain ⟨inCensus, no, tides, groups, mem, job, boot, cmds, journal⟩ := h.reformed
  have n := link.noted
  exact ⟨⟨inCensus, by rw [no, n.harbour], tides, groups, by rw [mem, n.mem], by rw [job, n.job], by rw [boot, n.boot], by rw [cmds, n.cmds],
    by rw [journal, n.journal]⟩, h.joining, h.views, h.held, h.size, h.other⟩

theorem State.CensusOpen.settle {s u : State} {q : Nat} (h : s.CensusOpen q u) (settled : s.ResetSettled) : u.settleReset = u := by
  obtain ⟨-, -, -, -, -, -, boot, -, -⟩ := h.reformed
  exact settleReset_of_boot settled boot

theorem State.OnLink.member {p q : Nat} {f : Port → Port} {cs : List (Nat × Nat)} {s x : State} (link : s.OnLink p f cs x) (h : s.MemberWith q) :
    x.MemberWith q := by
  unfold State.MemberWith
  rw [link.harbour]
  exact h

theorem State.OnLink.takesPart {p : Nat} {f : Port → Port} {cs : List (Nat × Nat)} {s x : State} (link : s.OnLink p f cs x) :
    x.takesPart = s.takesPart := by
  unfold State.takesPart State.mode
  rw [link.harbour, link.noted.boot]

theorem State.ejectIn_open {s : State} {q : Nat} (member : s.MemberWith q) (part : s.takesPart = true) (e : EjectRec) :
    (e.reason ≠ 2 → s.CensusOpen q (s.ejectIn e) ∧ (s.ejectIn e).harbour.causes = s.harbour.causes ++ [e])
      ∧ (e.reason = 2 → e.accused ≠ q → s.CensusOpen q (s.ejectIn e) ∧ (s.ejectIn e).harbour.holds e.accused = false) := by
  obtain ⟨one, two⟩ := State.eject_open member part e
  unfold State.ejectIn
  refine ⟨fun other => ?_, fun is apart => ?_⟩
  · rw [(one other).1.tryClose]
    exact one other
  · rw [(two is apart).1.tryClose]
    exact two is apart

theorem State.onPort_eq {s : State} {p : Nat} (up : (s.port p).up = true) (n : Nat) (f : State → State) :
    s.onPort p n f = (f (s.heard p n)).settleReset := if_pos up

/-- A record that a member hears on a port and that opens a census. -/
theorem State.onPort_open {s : State} {p q n : Nat} (up : (s.port p).up = true) (settled : s.ResetSettled) {f : State → State}
    (opens : (s.heard p n).CensusOpen q (f (s.heard p n))) :
    s.onPort p n f = f (s.heard p n) ∧ s.CensusOpen q (f (s.heard p n)) := by
  have after := opens.after (s.heard_onLink p n)
  rw [State.onPort_eq up]
  exact ⟨after.settle settled, after⟩

theorem State.lostMember_open {s : State} {q r : Nat} (member : s.MemberWith q) (part : s.takesPart = true) (apart : r ≠ q) (m : LinkMsg)
    (reason : Nat) : (s.lostMember m r reason).tryClose = s.lostMember m r reason ∧ s.CensusOpen q (s.lostMember m r reason)
      ∧ (s.lostMember m r reason).harbour.holds r = false := by
  have lost := (State.reform_open member m).1.markLost apart reason false true
  unfold State.lostMember
  rw [if_pos part]
  exact ⟨lost.1.tryClose, lost⟩

theorem State.faultIn_open {s : State} {q : Nat} {f : FaultRec} (member : s.MemberWith q) (part : s.takesPart = true) (apart : f.rank ≠ q)
    (other : f.rank ≠ s.harbour.rank) (present : f.rank ∈ s.harbour.present) :
    s.CensusOpen q (s.faultIn f) ∧ (s.faultIn f).harbour.holds f.rank = false := by
  obtain ⟨still, opens, lost⟩ := State.lostMember_open member part apart (.fault f) f.reason
  obtain ⟨joined, outside, -⟩ := member
  unfold State.faultIn
  dsimp only
  rw [if_neg (by simp [joined, other, present, outside]), still]
  exact ⟨opens, lost⟩

theorem State.leaveIn_open {s : State} {q r : Nat} (member : s.MemberWith q) (part : s.takesPart = true) (apart : r ≠ q)
    (other : r ≠ s.harbour.rank) (present : r ∈ s.harbour.present) (stays : r ∉ s.harbour.leavers) (idle : s.inRun = false) :
    s.CensusOpen q (s.leaveIn r) ∧ (s.leaveIn r).harbour.holds r = false := by
  obtain ⟨still, opens, lost⟩ := State.lostMember_open member part apart (.leave r) 7
  obtain ⟨joined, outside, -⟩ := member
  unfold State.leaveIn
  dsimp only
  rw [if_neg (by simp [joined, other, present, outside, stays]), idle, if_neg (by simp), still]
  exact ⟨opens, lost⟩

theorem State.leaveIn_deferred {s : State} {r : Nat} (joined : s.harbour.joined = true) (outside : s.harbour.inCensus = false)
    (other : r ≠ s.harbour.rank) (present : r ∈ s.harbour.present) (stays : r ∉ s.harbour.leavers) (running : s.inRun = true) :
    s.leaveIn r = (s.flood (.leave r)).deferLeaver r := by
  unfold State.leaveIn
  dsimp only
  rw [if_neg (by simp [joined, other, present, outside, stays]), running, outside, if_pos (by decide)]

theorem noted_withHarbour {s t : State} (h : State.Noted { s with ports := t.ports } t) (f : Harbour → Harbour) :
    State.Noted { s with ports := t.ports, harbour := (t.modHarbour f).harbour } (t.modHarbour f) :=
  ⟨h.pending, h.sent, h.freeCtr, h.usec, h.power, h.boot, h.pcie, h.sqs, h.cqs, h.sqTurn, h.cmds, h.job, h.mem, h.run, h.stalls, h.quays,
    h.snap, h.journal, rfl, h.ports, h.test⟩

theorem State.raise_onLink (p code kind index : Nat) (fs : List (Nat × Nat × Nat)) (s : State) : s.OnLink p id [] (s.raise code kind index fs) where
  noted := by
    have noted := s.raise_noted code kind index fs
    rw [noted.ports]
    exact noted
  ports := (s.raise_noted code kind index fs).ports.trans (modAt_same fun _ _ => rfl).symm
  counts := fun _ lost => State.raise_counts lost _ _ _ _ _

/-- A record and the EJECT that follows it: the record stands in the ring. -/
theorem State.raiseEject_logged {s : State} (eight : s.EightPorts) (code kind index : Nat) (fs : List (Nat × Nat × Nat)) (e : EjectRec) :
    s.Logged ((s.raise code kind index fs).eject e) code kind index := by
  have still : (s.raise code kind index fs).EightPorts := eight.of_same (s.raise_noted code kind index fs).samePorts
  exact logged_of_raise (grewBy_refl 3 s) rfl (State.eject_reforming still e).grew.bound (by decide)

/-- A member without progress is reported, and counted as lost. -/
theorem State.bucketLate_open {s : State} {t : Table} {q m waited : Nat} (member : s.MemberWith q) (part : s.takesPart = true) (apart : m ≠ q)
    (other : m ≠ s.harbour.rank) (present : m ∈ s.harbour.present) (late : t.tLate ≤ waited * 1000)
    (stands : (s.harbour.neighbours.any fun n => n.rank == m && n.waiting) = false)
    (due : (s.awaitedFrom t m).isSome = true ∨ s.stalled t m = true) (eight : s.EightPorts) :
    s.CensusOpen q (s.bucketLate t m waited) ∧ (s.bucketLate t m waited).harbour.holds m = false
      ∧ s.Logged (s.bucketLate t m waited) 0x0301 srcMember m := by
  have waits : ((s.awaitedFrom t m).isNone && !s.stalled t m) = false := by
    rcases due with awaited | stalled
    · simp [Option.isNone_iff_eq_none, Option.isSome_iff_ne_none.mp awaited]
    · simp [stalled]
  have logged := State.raiseEject_logged eight 0x0301 srcMember m [(0x20, 2, (s.lateAt t m).1), (0x22, 1, (s.lateAt t m).2), (0x28, 8, waited)]
    ⟨2, m, s.harbour.rank, s.job.step, s.job.attempt⟩
  have link := s.raise_onLink 0 0x0301 srcMember m [(0x20, 2, (s.lateAt t m).1), (0x22, 1, (s.lateAt t m).2), (0x28, 8, waited)]
  unfold State.bucketLate
  dsimp only
  rw [if_neg (by simp [part, other, present, stands, Nat.not_lt.mpr late, waits])]
  generalize s.raise 0x0301 srcMember m [(0x20, 2, (s.lateAt t m).1), (0x22, 1, (s.lateAt t m).2), (0x28, 8, waited)] = x at link logged ⊢
  obtain ⟨opens, lost⟩ := (State.eject_open (link.member member) (by rw [link.takesPart, part])
    ⟨2, m, s.harbour.rank, s.job.step, s.job.attempt⟩).2 rfl apart
  unfold State.ejectIn
  rw [opens.tryClose]
  exact ⟨opens.after link, lost, logged⟩

/-- A frame of another step or table is reported, and opens a census. -/
theorem State.frameIn_open {s : State} {t : Table} {p q : Nat} {f : BucketFrame} (member : s.MemberWith q) (part : s.takesPart = true)
    (up : (s.port p).up = true) (port : p ∈ s.harbour.ports) (dest : f.dest = s.harbour.rank)
    (foreign : f.digest ≠ s.shortDigest ∨ f.step ≠ s.job.step) (eight : s.EightPorts) :
    s.CensusOpen q (s.frameIn t p f) ∧ ∃ r ∈ (s.frameIn t p f).log.ring, r.code = 0x0302 ∧ r.srcKind = srcMember ∧ r.srcIndex = f.sender := by
  have counted := s.count_onLink p (tlAt p 0x50) (payloadBytes f.payload)
  have job := counted.noted.job
  have digest : (s.count (tlAt p 0x50) (payloadBytes f.payload)).shortDigest = s.shortDigest := by
    unfold State.shortDigest
    rw [job]
  have still : (s.count (tlAt p 0x50) (payloadBytes f.payload)).EightPorts := eight.of_same (State.count_noted _ _ _).samePorts
  have rejects : s.frameIn t p f = (s.count (tlAt p 0x50) (payloadBytes f.payload)).rejectFrame p f := by
    unfold State.frameIn
    dsimp only
    rw [if_neg (by simp [up]), counted.takesPart, counted.harbour, part, if_neg (by simp [port]), if_neg (by simp [dest])]
    unfold State.checkFrame
    dsimp only
    rw [digest, job, if_pos (by simpa using foreign)]
  rw [rejects]
  generalize s.count (tlAt p 0x50) (payloadBytes f.payload) = x at counted still
  have raised := x.raise_onLink p 0x0302 srcMember f.sender [(0x20, 1, p), (0x28, 8, f.digest), (0x30, 8, x.shortDigest)]
  obtain ⟨r, ring, -, code, kind, index, -⟩ := State.raiseEject_logged still 0x0302 srcMember f.sender
    [(0x20, 1, p), (0x28, 8, f.digest), (0x30, 8, x.shortDigest)] ⟨3, f.sender, x.harbour.rank, x.job.step, x.job.attempt⟩
  have link := onLink_trans counted raised
  have opens := ((State.eject_open (link.member member) (by rw [link.takesPart, part])
    ⟨3, f.sender, x.harbour.rank, x.job.step, x.job.attempt⟩).1 (by simp)).1.after link
  exact ⟨opens, r, ring, code, kind, index⟩

/-- Settles O51: each cause opens a census. -/
theorem causesBeginACensus : Obligations.CausesBeginACensus := by
  unfold Obligations.CausesBeginACensus
  intro s p q m waited e f fr t eight low up settled member part
  have ports := eightPorts_of_length eight
  have one := s.heard_onLink p 1
  have heard := one.member member
  have takes : (s.heard p 1).takesPart = true := by rw [one.takesPart, part]
  have harbour := one.harbour
  refine ⟨fun other => ?_, fun two apart _ _ => ?_, fun apart other present => ?_, fun apart other present => ⟨fun stays => ?_, ?_⟩, ?_⟩
  · obtain ⟨opens, causes⟩ := (State.ejectIn_open heard takes e).1 other
    obtain ⟨runs, after⟩ := State.onPort_open up settled opens
    exact ⟨_, congrArg Host.Outcome.next runs, after.reformed, by rw [causes, harbour]⟩
  · obtain ⟨opens, lost⟩ := (State.ejectIn_open heard takes e).2 two apart
    obtain ⟨runs, after⟩ := State.onPort_open up settled opens
    exact ⟨_, congrArg Host.Outcome.next runs, after.reformed, lost⟩
  · obtain ⟨opens, lost⟩ := State.faultIn_open heard takes apart (by rw [harbour]; exact other) (by rw [harbour]; exact present)
    obtain ⟨runs, after⟩ := State.onPort_open up settled opens
    exact ⟨_, congrArg Host.Outcome.next runs, after.reformed, lost⟩
  · by_cases running : s.inRun = true
    · have runs := State.onPort_eq up 1 (State.leaveIn m)
      rw [State.leaveIn_deferred heard.1 heard.2.1 (by rw [harbour]; exact other) (by rw [harbour]; exact present) (by rw [harbour]; exact stays)
        (by rw [State.inRun, one.noted.boot]; exact running)] at runs
      have floods := (State.flood_flooded (.leave m) (s.heard p 1)).1
      generalize (s.heard p 1).flood (.leave m) = x at floods runs
      have all := noted_trans (noted_withPorts one.noted x.ports) floods.noted
      have stands : x.harbour = s.harbour := all.harbour
      have boot : (x.deferLeaver m).boot = s.boot := all.boot
      rw [settleReset_of_boot settled boot] at runs
      refine ⟨_, congrArg Host.Outcome.next runs, ?_⟩
      rw [if_pos running]
      refine ⟨noted_withHarbour all _, ?_⟩
      unfold State.deferLeaver
      rw [State.modHarbour_harbour, stands]
    · obtain ⟨opens, lost⟩ := State.leaveIn_open heard takes apart (by rw [harbour]; exact other) (by rw [harbour]; exact present)
        (by rw [harbour]; exact stays) (by rw [State.inRun, one.noted.boot]; simpa [State.inRun] using running)
      obtain ⟨runs, after⟩ := State.onPort_open up settled opens
      refine ⟨_, congrArg Host.Outcome.next runs, ?_⟩
      rw [if_neg running]
      exact ⟨after.reformed, lost⟩
  · intro table late stands due
    obtain ⟨opens, lost, logged⟩ := State.bucketLate_open member part apart other present late stands due ports
    have runs : s.lateMember m waited = s.bucketLate t m waited := by
      unfold State.lateMember
      rw [table]
      exact opens.settle settled
    exact ⟨_, congrArg Host.Outcome.next runs, opens.reformed, lost, logged⟩
  · intro table port dest foreign
    have many := s.heard_onLink p (LinkMsg.frame fr).bodies.length
    have short : (s.heard p (LinkMsg.frame fr).bodies.length).shortDigest = s.shortDigest := by
      unfold State.shortDigest
      rw [many.noted.job]
    obtain ⟨opens, ring⟩ := State.frameIn_open (t := t) (many.member member) (by rw [many.takesPart, part])
      (by rw [many.port (by omega)]; exact up) (by rw [many.harbour]; exact port) (by rw [many.harbour]; exact dest)
      (by rw [short, many.noted.job]; exact foreign) (eightPorts_of_length (by rw [many.length, eight]))
    have takes_ : State.takeFrame p fr (s.heard p (LinkMsg.frame fr).bodies.length)
        = (s.heard p (LinkMsg.frame fr).bodies.length).frameIn t p fr := by
      unfold State.takeFrame
      rw [many.noted.job, table]
      exact opens.tryClose
    obtain ⟨runs, after⟩ := State.onPort_open (f := State.takeFrame p fr) up settled (takes_ ▸ opens)
    rw [takes_] at runs after
    exact ⟨_, congrArg Host.Outcome.next runs, after.reformed, ring⟩

end Sys2Proof.Machine

/-! PROOF. Frames that go on or are held, census parts and timeouts (R298, R303, R304, R313, R316). -/

namespace Sys2Proof.Machine

/-! ## Paths -/

/-- The same harbour over ports in the same states. -/
structure State.SameWays (s t : State) : Prop where
  harbour : t.harbour = s.harbour
  states : ∀ q, (t.port q).state = (s.port q).state

theorem State.SameWays.up {s t : State} (h : s.SameWays t) (q : Nat) : (t.port q).up = (s.port q).up := by
  unfold Port.up
  rw [h.states q]

theorem State.SameWays.livePorts {s t : State} (h : s.SameWays t) : t.livePorts = s.livePorts := by
  unfold State.livePorts
  rw [h.harbour]
  exact List.filter_congr fun q _ => h.up q

theorem State.SameWays.viewPorts {s t : State} (h : s.SameWays t) : t.viewPorts = s.viewPorts := by
  unfold State.viewPorts
  rw [h.livePorts, h.harbour]

theorem State.SameWays.linkWorks {s t : State} (h : s.SameWays t) : t.linkWorks = s.linkWorks := by
  have cut : t.cutLinks = s.cutLinks := by
    unfold State.cutLinks
    rw [h.harbour, List.filter_congr fun q _ => congrArg (· == 4) (h.states q)]
  funext r p
  unfold State.linkWorks
  dsimp only
  rw [h.harbour, cut, h.up, h.up]

theorem State.SameWays.within {s t : State} (h : s.SameWays t) (k d : Nat) : t.within k d = s.within k d := by
  induction k with
  | zero => rfl
  | succ k ih => rw [State.within, State.within, ih, h.linkWorks, h.harbour]

theorem State.SameWays.nextHop {s t : State} (h : s.SameWays t) (d : Nat) : t.nextHop d = s.nextHop d := by
  have within : t.within = s.within := funext fun k => funext fun e => h.within k e
  unfold State.nextHop State.hopFrom
  rw [h.harbour, h.linkWorks, within]

/-- The first port of a path is up. -/
theorem State.nextHop_up {s : State} {d q : Nat} (hop : s.nextHop d = some q) : (s.port q).up = true := by
  unfold State.nextHop State.hopFrom at hop
  dsimp only at hop
  split at hop
  · exact absurd hop (by simp)
  · obtain ⟨l₁, k, l₂, -, found, -⟩ := List.findSome?_eq_some_iff.mp hop
    have works := List.find?_some found
    simp only [Bool.and_eq_true] at works
    have mine := works.1.1
    unfold State.linkWorks at mine
    simpa using mine

theorem State.OnLink.sameWays {p : Nat} {f : Port → Port} {cs : List (Nat × Nat)} {s t : State} (h : s.OnLink p f cs t)
    (stands : ∀ x, (f x).state = x.state) : s.SameWays t := by
  refine ⟨h.harbour, fun q => ?_⟩
  rw [State.port, h.ports, List.getD_eq_getElem?_getD, modAt_getElem?, State.port, List.getD_eq_getElem?_getD]
  split
  next same =>
    subst same
    cases s.ports[p]? with
    | none => rfl
    | some x => exact stands x
  · rfl

/-! ## Frames -/

/-- A frame is heard, and its payload counted. -/
theorem State.frameHeard {s : State} (p : Nat) (fr : BucketFrame) :
    s.OnLink p (fun x => { x with rxSeq := (x.rxSeq + (LinkMsg.frame fr).bodies.length) % 65536, awaiting := false })
      [(tlAt p 0x08, (LinkMsg.frame fr).bodies.length), (tlAt p 0x50, payloadBytes fr.payload)]
      ((s.heard p (LinkMsg.frame fr).bodies.length).count (tlAt p 0x50) (payloadBytes fr.payload)) :=
  onLink_trans (State.heard_onLink p _ s) (State.count_onLink p _ _ _)

theorem State.tryClose_outside {s : State} (outside : s.harbour.inCensus = false) : s.tryClose = s := by
  unfold State.tryClose
  rw [outside]
  rfl

/-- A frame that a member outside a census takes, once it is heard and counted. -/
theorem State.frame_taken {s : State} {p : Nat} {fr : BucketFrame} {t : Table} (up : (s.port p).up = true) (here : p < s.ports.length)
    (table : s.job.table = some t) (part : s.takesPart = true) (port : p ∈ s.harbour.ports) :
    exec (.bucketFrame p fr) s = .next
      ((if fr.dest != s.harbour.rank then ((s.heard p (LinkMsg.frame fr).bodies.length).count (tlAt p 0x50) (payloadBytes fr.payload)).forwardFrame fr
        else ((s.heard p (LinkMsg.frame fr).bodies.length).count (tlAt p 0x50) (payloadBytes fr.payload)).checkFrame t p fr).tryClose.settleReset) := by
  have heard := State.heard_onLink p (LinkMsg.frame fr).bodies.length s
  have counted := State.frameHeard (s := s) p fr
  refine congrArg Host.Outcome.next ?_
  rw [State.onPort_eq up]
  unfold State.takeFrame State.frameIn
  rw [heard.noted.job, table]
  dsimp only
  rw [if_neg (by rw [heard.port here]; simpa [Port.up] using up), counted.takesPart, counted.harbour, part, if_neg (by simp [port])]

/-- What a state from outside a census is after the checks that follow a record. -/
theorem settles_outside {s u : State} (settled : s.ResetSettled) (boot : u.boot = s.boot) (outside : u.harbour.inCensus = false) :
    u.tryClose.settleReset = u := by
  rw [State.tryClose_outside outside]
  exact settleReset_of_boot settled boot

/-- The frame goes out on the port, and is counted there. -/
theorem State.forwardFrame_sends {s : State} {fr : BucketFrame} {q : Nat} (hop : s.nextHop fr.dest = some q) :
    ∃ f n, s.OnLink q f [(tlAt q 0x00, n), (tlAt q 0x48, payloadBytes fr.payload)] (s.forwardFrame fr)
      ∧ .link q (.forward fr) ∈ (s.forwardFrame fr).out := by
  unfold State.forwardFrame
  rw [hop]
  obtain ⟨n, sends, sent⟩ := State.sendLink_onLink (State.nextHop_up hop) (.forward fr)
  have counted := State.count_onLink q (tlAt q 0x48) (payloadBytes fr.payload) (s.sendLink q (.forward fr))
  exact ⟨_, n, onLink_trans sends counted, counted.sent.subset sent⟩

/-- What every frame counts, on the ports that it comes in and goes out. -/
theorem counted_both {p q : Nat} {f g : Port → Port} {cs ds : List (Nat × Nat)} {s x t : State} (h : s.OnLink p f cs x) (k : x.OnLink q g ds t)
    {o n : Nat} (lost : o ≠ evLostAt) (sum : increments cs o + increments ds o = n) : s.Counted t o n := by
  rw [← sum]
  exact (counts_trans (h.counts o lost) (k.counts o lost)).counted

theorem tlAt_ne_of_offsets {p q a b : Nat} (small : a < 0x100) (low : b < 0x100) (ne : a ≠ b) : tlAt p a ≠ tlAt q b := by
  unfold tlAt
  omega

/-! ## Census parts -/

/-- A census waits for the view of `q`. -/
structure State.CensusWaits (q : Nat) (s : State) : Prop where
  joining : s.harbour.joining = none
  held : s.harbour.holds q = true
  size : q < s.harbour.size
  other : q ≠ s.harbour.rank
  silent : ∀ v ∈ s.harbour.views, v.1 ≠ q

theorem State.CensusWaits.tryClose {s : State} {q : Nat} (h : s.CensusWaits q) : s.tryClose = s := by
  have apart : s.harbour.agreed = false := by
    rw [Bool.eq_false_iff]
    intro all
    have at_ := List.all_eq_true.mp all q (List.mem_range.mpr h.size)
    have silent : (s.harbour.views.any fun x => x.1 == q && x.2 == s.harbour.view) = false := by
      rw [List.any_eq_false]
      intro v hv
      simp [h.silent v hv]
    rw [h.held, silent] at at_
    simp [h.other] at at_
  unfold State.tryClose
  split
  · rfl
  · rw [h.joining]
    cases s.job.table with
    | none => rfl
    | some t => exact if_pos (by simp [apart])

theorem State.tryClose_apart {s : State} (joining : s.harbour.joining = none) (apart : s.harbour.agreed = false) : s.tryClose = s := by
  unfold State.tryClose
  split
  · rfl
  · rw [joining]
    cases s.job.table with
    | none => rfl
    | some t => exact if_pos (by simp [apart])

/-- The part of a view is kept. -/
def Harbour.withPart (c : CensusPart) (h : Harbour) : Harbour :=
  { h with parts := h.parts.filter (fun q => !(q.sender == c.sender && q.index == c.index)) ++ [c] }

/-- A part of a view that is not whole is kept and passed on. -/
theorem State.addPart_passes {s : State} {p : Nat} {c : CensusPart} (whole : (s.harbour.withPart c).fullView c.sender = none) :
    s.addPart p c = (s.modHarbour (Harbour.withPart c)).passPart p c ∧ (s.modHarbour (Harbour.withPart c)).Flooded (s.addPart p c)
      ∧ ∀ q ∈ s.viewPorts, q ≠ p → .link q (.census c) ∈ (s.addPart p c).out := by
  have passes := State.sends_flooded (.census c) ((s.modHarbour (Harbour.withPart c)).viewPorts.filter (· != p)) (s.modHarbour (Harbour.withPart c))
  have adds : s.addPart p c = (s.modHarbour (Harbour.withPart c)).passPart p c := by
    have harbour : ((s.modHarbour (Harbour.withPart c)).passPart p c).harbour = s.harbour.withPart c := passes.1.noted.harbour
    have partly := (congrArg (fun h => Harbour.fullView h c.sender) harbour).trans whole
    unfold State.addPart
    dsimp only
    split
    · rfl
    next v found => exact absurd (partly.symm.trans found) (by simp)
  rw [adds]
  refine ⟨rfl, passes.1, fun q view other => ?_⟩
  have live : q ∈ s.livePorts := (List.mem_filter.mp view).1
  exact passes.2 q (List.mem_filter.mpr ⟨view, by simpa using other⟩) (List.mem_filter.mp live).2

/-- A part of a view that a census takes in. -/
theorem State.censusIn_adds {s : State} {p : Nat} {c : CensusPart} (up : (s.port p).up = true) (part : s.takesPart = true)
    (port : p ∈ s.harbour.ports) (id : c.harbourId = s.harbour.id) (inside : s.harbour.inCensus = true) (number : c.number = s.harbour.censusNo)
    (size : c.sender < s.harbour.size) (other : c.sender ≠ s.harbour.rank) (fresh : s.harbour.hasPart c = false) :
    s.censusIn p c = (s.addPart p c).tryClose := by
  have own : s.harbour.number = c.number := by
    unfold Harbour.number
    rw [if_pos inside, number]
  unfold State.censusIn
  dsimp only
  rw [if_neg (by simp [part, up, port, id, own, inside, Nat.not_le.mpr size, other]), own, if_neg (Nat.lt_irrefl _), if_neg (by simp [fresh])]

/-- A frame of an abandoned attempt is discarded, and one that comes before its attempt is held. -/
theorem State.checkFrame_own {s : State} (t : Table) (p : Nat) {fr : BucketFrame} (digest : fr.digest = s.shortDigest) (step : fr.step = s.job.step) :
    (s.inRun = true ∧ s.stepOpen = true → fr.attempt < s.job.attempt → s.checkFrame t p fr = s)
      ∧ ((s.inRun = true ∧ s.stepOpen = true → s.job.attempt < fr.attempt) → s.checkFrame t p fr = s.holdFrame p fr) := by
  unfold State.checkFrame
  dsimp only
  rw [if_neg (by simp [digest, step])]
  refine ⟨fun runs early => ?_, fun late => ?_⟩
  · rw [if_pos (show (s.inRun && s.stepOpen) = true by simp [runs]), if_pos early]
  · by_cases runs : s.inRun = true ∧ s.stepOpen = true
    · rw [if_pos (show (s.inRun && s.stepOpen) = true by simp [runs]), if_neg (by have := late runs; omega), if_pos (by simp [late runs])]
    · have waits : ¬ (s.inRun && s.stepOpen) = true := by simpa using runs
      rw [if_neg waits, if_neg (Nat.not_lt_zero _), if_pos]
      by_cases running : s.inRun = true
      · have closed : s.stepOpen = false := by simpa [running] using runs
        simp [closed]
      · simp [running]

theorem State.OnLink.stepOpen {p : Nat} {f : Port → Port} {cs : List (Nat × Nat)} {s t : State} (h : s.OnLink p f cs t) :
    t.stepOpen = s.stepOpen := by
  unfold State.stepOpen
  rw [h.noted.run]

theorem State.OnLink.inRun {p : Nat} {f : Port → Port} {cs : List (Nat × Nat)} {s t : State} (h : s.OnLink p f cs t) : t.inRun = s.inRun := by
  unfold State.inRun
  rw [h.noted.boot]

theorem State.OnLink.shortDigest {p : Nat} {f : Port → Port} {cs : List (Nat × Nat)} {s t : State} (h : s.OnLink p f cs t) :
    t.shortDigest = s.shortDigest := by
  unfold State.shortDigest
  rw [h.noted.job]

theorem State.markLost_flooded (r reason : Nat) (ej announced : Bool) (s : State) :
    State.Noted { s with ports := (s.markLost r reason ej announced).ports, harbour := (s.markLost r reason ej announced).harbour }
      (s.markLost r reason ej announced) := by
  have sends : ∀ y : State, y.Flooded y.sendView := fun y =>
    foldl_inv (P := y.Flooded) (fun _ p h => foldl_inv (P := y.Flooded) (fun z c h => flooded_trans h (z.sendLink_flooded p (.census c))) _ h) _
      ⟨noted_refl y, samePorts_of_eq rfl⟩
  unfold State.markLost State.setEntry
  dsimp only
  split
  · exact noted_refl s
  · have sent := (sends (s.modHarbour fun h => { h with view := modAt r (CensusEntry.lose ej announced reason) s.harbour.view })).noted
    generalize (s.modHarbour fun h => { h with view := modAt r (CensusEntry.lose ej announced reason) s.harbour.view }).sendView = x at sent ⊢
    exact ⟨sent.pending, sent.sent, sent.freeCtr, sent.usec, sent.power, sent.boot, sent.pcie, sent.sqs, sent.cqs, sent.sqTurn, sent.cmds,
      sent.job, sent.mem, sent.run, sent.stalls, sent.quays, sent.snap, sent.journal, rfl, rfl, sent.test⟩

theorem State.markLost_harbour (r reason : Nat) (ej announced : Bool) (s : State) :
    (s.markLost r reason ej announced).harbour = { s.harbour with view := modAt r (CensusEntry.lose ej announced reason) s.harbour.view } :=
  State.setEntry_harbour _ _ _

theorem Harbour.holds_lost (r reason : Nat) (ej announced : Bool) (h : Harbour) :
    Harbour.holds { h with view := modAt r (CensusEntry.lose ej announced reason) h.view } r = false := by
  unfold Harbour.holds
  dsimp only
  rw [modAt_getElem?, if_pos rfl]
  cases h.view[r]? with
  | none => rfl
  | some e => cases ej <;> cases e with | mk state => cases state <;> rfl

/-- A command that ends on a state with its queues, clock and outstanding commands. -/
theorem finish_ended {s y : State} {sq cid : Nat} {k : Cmd} (cmd : s.cmd? sq cid = some k) (cmds : y.cmds = s.cmds) (cqs : y.cqs = s.cqs)
    (sqs : y.sqs = s.sqs) (usec : y.usec = s.usec) (sent : s.out <+: y.out) (fits : s.entryFits k = true) (st : Status) (a b : Nat) :
    s.Completed (y.finish sq cid st a b) k st a b := by
  have same : y.cmd? sq cid = some k := by rw [State.cmd?, cmds]; exact cmd
  have ends : y.finish sq cid st a b = y.finishCmd k st a b := by
    unfold State.finish
    rw [same]
  rw [ends]
  refine ⟨?_, finishCmd_entry cqs sqs usec sent fits st a b⟩
  rw [← cmds]
  exact (State.finishCmd_completed y k st a b (fits_of cqs fits)).1

/-- Settles O52: frames, census parts, and the ends of waits. -/
theorem framesAndCensusParts : Obligations.FramesAndCensusParts := by
  unfold Obligations.FramesAndCensusParts
  intro s p fr c t eight low up settled table
  have here : p < s.ports.length := by omega
  have heard := State.frameHeard (s := s) p fr
  have taken := fun part port => State.frame_taken (fr := fr) up here table part port
  dsimp only
  refine ⟨fun part outside port dest q hop => ?_, fun part outside port dest digest step => ⟨fun runs early => ?_, fun late => ?_⟩,
    fun part port id inside number size other joining apart fresh whole => ?_,
    fun r q inside joining mine holds silent ne other held size => ?_, fun j k joining cmd fits => ?_⟩
  · have runs := taken part port
    rw [if_pos (by simpa using dest)] at runs
    generalize (s.heard p (LinkMsg.frame fr).bodies.length).count (tlAt p 0x50) (payloadBytes fr.payload) = y at heard runs
    obtain ⟨f, n, sends, sent⟩ := State.forwardFrame_sends (s := y) ((heard.sameWays fun _ => rfl).nextHop fr.dest ▸ hop)
    have noted := noted_trans (noted_withPorts heard.noted (y.forwardFrame fr).ports) sends.noted
    have out : (y.forwardFrame fr).harbour.inCensus = false := by rw [sends.harbour, heard.harbour, outside]
    rw [settles_outside settled noted.boot out] at runs
    refine ⟨_, runs, noted, sent, counted_both heard sends (tlAt_ne_lost p _) ?_, counted_both heard sends (tlAt_ne_lost q _) ?_⟩
    · simp [increments, tlAt_inj, tlAt_ne_of_offsets (p := q) (q := p) (a := 0x00) (b := 0x50),
        tlAt_ne_of_offsets (p := q) (q := p) (a := 0x48) (b := 0x50)]
    · simp [increments, tlAt_inj, tlAt_ne_of_offsets (p := p) (q := q) (a := 0x08) (b := 0x48),
        tlAt_ne_of_offsets (p := p) (q := q) (a := 0x50) (b := 0x48)]
  · have ran := taken part port
    rw [if_neg (by simpa using dest)] at ran
    generalize (s.heard p (LinkMsg.frame fr).bodies.length).count (tlAt p 0x50) (payloadBytes fr.payload) = y at heard ran
    have check := (State.checkFrame_own (s := y) t p (by rw [heard.shortDigest, digest]) (by rw [heard.noted.job, step])).1
      (by rw [heard.inRun, heard.stepOpen]; exact runs) (by rw [heard.noted.job]; exact early)
    rw [check, settles_outside settled heard.noted.boot (by rw [heard.harbour, outside])] at ran
    exact ⟨_, ran, heard.noted⟩
  · have ran := taken part port
    rw [if_neg (by simpa using dest)] at ran
    generalize (s.heard p (LinkMsg.frame fr).bodies.length).count (tlAt p 0x50) (payloadBytes fr.payload) = y at heard ran
    have check := (State.checkFrame_own (s := y) t p (by rw [heard.shortDigest, digest]) (by rw [heard.noted.job, step])).2
      (by rw [heard.inRun, heard.stepOpen, heard.noted.job]; exact late)
    have held : (y.holdFrame p fr).harbour = { s.harbour with link := { s.harbour.link with held := s.harbour.link.held ++ [(p, fr)] } } := by
      unfold State.holdFrame State.modLink
      rw [State.modHarbour_harbour, heard.harbour]
    rw [check, settles_outside settled (show (y.holdFrame p fr).boot = s.boot from heard.noted.boot) (by rw [held]; exact outside)] at ran
    refine ⟨_, ran, noted_withHarbour heard.noted _, held, ?_⟩
    exact heard.counted (t := y) (tlAt_ne_lost p _) (by simp [increments, tlAt_inj])
  · have link := State.heard_onLink p (LinkMsg.census c).bodies.length s
    have same := link.sameWays fun _ => rfl
    have runs : exec (.censusPart p c) s = .next ((s.heard p (LinkMsg.census c).bodies.length).censusIn p c).settleReset :=
      congrArg Host.Outcome.next (State.onPort_eq up _ _)
    generalize s.heard p (LinkMsg.census c).bodies.length = y at link same runs
    have harbour := link.harbour
    rw [State.censusIn_adds (by rw [same.up, up]) (by rw [link.takesPart, part]) (by rw [harbour]; exact port) (by rw [harbour, id])
      (by rw [harbour, inside]) (by rw [harbour, number]) (by rw [harbour]; exact size) (by rw [harbour]; exact other)
      (by rw [harbour, fresh])] at runs
    obtain ⟨-, floods, sent⟩ := State.addPart_passes (s := y) (p := p) (c := c) (by rw [harbour]; exact whole)
    generalize y.addPart p c = x at runs floods sent
    have kept : x.harbour = s.harbour.withPart c := by
      rw [floods.noted.harbour]
      exact congrArg (Harbour.withPart c) harbour
    have open_ : x.tryClose = x := State.tryClose_apart (by rw [kept]; exact joining) (by rw [kept]; exact apart)
    have boot : x.boot = s.boot := floods.noted.boot.trans link.noted.boot
    rw [open_, settleReset_of_boot settled boot] at runs
    have n := noted_trans (noted_withPorts (noted_withHarbour link.noted (Harbour.withPart c)) x.ports) floods.noted
    refine ⟨_, runs, ?_, kept, fun q view ne => sent q (by rw [same.viewPorts]; exact view) ne⟩
    exact ⟨n.pending, n.sent, n.freeCtr, n.usec, n.power, n.boot, n.pcie, n.sqs, n.cqs, n.sqTurn, n.cmds, n.job, n.mem, n.run, n.stalls,
      n.quays, n.snap, n.journal, rfl, rfl, n.test⟩
  · have harbour := State.markLost_harbour r 1 false false s
    have rest := State.markLost_rest r 1 false false s
    have runs : s.viewTimeout r = (s.markLost r 1 false false).tryClose := by
      have quiet : (s.harbour.views.any fun x => x.1 == r) = false := by
        rw [List.any_eq_false]
        intro v hv
        simp [(silent v hv).1]
      unfold State.viewTimeout
      rw [if_neg (by simp [inside, mine, holds, quiet])]
    have waits : (s.markLost r 1 false false).CensusWaits q := by
      refine ⟨by rw [harbour]; exact joining, ?_, by rw [harbour]; exact size, by rw [harbour]; exact other, ?_⟩
      · unfold Harbour.holds at held ⊢
        rw [harbour]
        dsimp only
        rw [modAt_getElem?, if_neg (Ne.symm ne)]
        exact held
      · rw [harbour]
        exact fun v hv => (silent v hv).2
    have boot : (s.markLost r 1 false false).boot = s.boot := rest.same .boot (by decide)
    refine ⟨_, congrArg Host.Outcome.next ?_, State.markLost_flooded r 1 false false s, ?_, by rw [harbour]⟩
    · rw [runs, waits.tryClose, settleReset_of_boot settled boot]
    · rw [harbour]
      exact Harbour.holds_lost _ _ _ _ _
  · have out : Only [.out, .power, .pcie, .log, .tm, .stalls, .harbour, .ports] s (s.outOfHarbour false) :=
      State.outOfHarbour_only _ (List.Subset.refl _) (only_refl _ s)
    have runs : s.allowanceEnds = (s.outOfHarbour false).finish j.sq j.cid .aborted 0 0 := by
      unfold State.allowanceEnds State.joinExpired State.endJoin
      rw [joining]
      rfl
    have left : (s.outOfHarbour false).harbour.joining = none ∧ (s.outOfHarbour false).harbour.joined = false := ⟨rfl, rfl⟩
    have sent : s.out <+: (s.outOfHarbour false).out := (State.outOfHarbour_kept _ (kept_refl s)).sent
    have done := finish_ended cmd (out.same .cmds (by decide)) (out.same .cqs (by decide)) (out.same .sqs (by decide))
      (out.same .usec (by decide)) sent fits .aborted 0 0
    refine ⟨_, congrArg Host.Outcome.next runs, ?_, ?_, done, ?_, ?_, ?_⟩
    · rw [State.finish_harbour, left.1]
    · rw [State.finish_harbour, left.2]
    · rw [State.finish_mem, out.same .mem (by decide)]
    · rw [State.finish_job, out.same .job (by decide)]
    · rw [State.finish_boot, out.same .boot (by decide)]

end Sys2Proof.Machine

/-! PROOF. The partner's mirror and store, and what its acknowledgements end (R8, R329, R330, R332, R338; log 86). -/

namespace Sys2Proof.Machine

/-! ## Partner traffic -/

theorem State.port_here {s : State} {p : Nat} (up : (s.port p).up = true) : p < s.ports.length := by
  by_contra high
  rw [State.port, List.getD_eq_default _ _ (by omega)] at up
  exact absurd up (by decide)

theorem State.fromPartner_up {s : State} {p : Nat} (partner : s.fromPartner p = true) : (s.port p).up = true := by
  unfold State.fromPartner at partner
  simp only [Bool.and_eq_true] at partner
  exact partner.1.2

/-- Partner traffic on a port: the port has heard its flits. -/
structure State.HeardPartner (p : Nat) (s y : State) : Prop where
  link : ∃ n cs, s.OnLink p (fun x => { x with rxSeq := (x.rxSeq + n) % 65536, awaiting := false }) cs y

theorem State.HeardPartner.noted {p : Nat} {s y : State} (h : s.HeardPartner p y) : State.Noted { s with ports := y.ports } y :=
  h.link.choose_spec.choose_spec.noted

theorem State.HeardPartner.sameWays {p : Nat} {s y : State} (h : s.HeardPartner p y) : s.SameWays y :=
  h.link.choose_spec.choose_spec.sameWays fun _ => rfl

theorem State.HeardPartner.fromPartner {p : Nat} {s y : State} (h : s.HeardPartner p y) : y.fromPartner p = s.fromPartner p := by
  obtain ⟨n, cs, link⟩ := h.link
  unfold State.fromPartner
  rw [link.harbour, h.sameWays.up]
  by_cases up : (s.port p).up = true
  · rw [link.port (State.port_here up)]
  · simp [up]

theorem State.HeardPartner.partnerExtent {p : Nat} {s y : State} (h : s.HeardPartner p y) : y.partnerExtent = s.partnerExtent := by
  unfold State.partnerExtent
  rw [h.noted.job, h.noted.journal]

/-- A member that hears partner traffic takes it, and a reset follows where it is due. -/
theorem State.onPartner_hears {s : State} {p : Nat} (up : (s.port p).up = true) (kind bytes : Nat) (f : State → State) :
    ∃ y, s.HeardPartner p y ∧ s.onPartner p kind bytes f = (f y).settleReset :=
  ⟨_, ⟨_, _, onLink_trans (State.heard_onLink p (messageFlits ((Config.partnerHead kind bytes).length + bytes)) s)
    (State.count_onLink p (tlAt p tlPartnerBytes) bytes _)⟩, State.onPort_eq up _ _⟩

/-! ## Mirrored records -/

/-- The partner journal after the compaction that a record of the partner may need. -/
def State.partnerKept (t : Table) (r : Bytes) (s : State) : List Bytes :=
  if recordsBytes [r] ≤ s.partnerExtent * mib - journalUsed s.journal.partner then s.journal.partner else compacted t.retained s.journal.partner

/-- The partner journal has room, after a compaction where it needs one. -/
theorem State.partnerRoom_noted (t : Table) (r : Bytes) (s : State) :
    State.Noted { s with journal := { s.journal with partner := s.partnerKept t r } }
      (if recordsBytes [r] ≤ s.partnerExtent * mib - journalUsed s.journal.partner then s else s.compact t true) := by
  unfold State.partnerKept
  split
  · exact noted_refl s
  · exact State.raiseModule_noted _ _ _

theorem State.toPartner_sends {s : State} {p : Nat} (up : (s.port p).up = true) (m : PartnerMsg) :
    State.Noted { s with ports := (s.toPartner p m).ports } (s.toPartner p m) ∧ .link p (.partner m) ∈ (s.toPartner p m).out := by
  obtain ⟨n, sends, sent⟩ := State.sendLink_onLink up (.partner m)
  have all := onLink_trans sends (State.count_onLink p (tlAt p tlPartnerBytes) m.bytes _)
  unfold State.toPartner
  rw [if_pos up]
  exact ⟨all.noted, (State.count_noted _ _ _).sent.subset sent⟩

theorem noted_withJournal {s t : State} (h : s.Noted t) (j : Journal) : State.Noted { s with journal := j } { t with journal := j } :=
  ⟨h.pending, h.sent, h.freeCtr, h.usec, h.power, h.boot, h.pcie, h.sqs, h.cqs, h.sqTurn, h.cmds, h.job, h.mem, h.run, h.stalls, h.quays,
    h.snap, rfl, h.harbour, h.ports, h.test⟩

/-- A mirrored record that stands is written and acknowledged where the partner journal has room for it. -/
theorem State.mirrorIn_takes {s : State} {p : Nat} {r : Bytes} {t : Table} (partner : s.fromPartner p = true) (flash : s.journal.flashOk = true)
    (stands : recordStands r = true) (table : s.job.table = some t) :
    if recordsBytes [r] ≤ s.partnerExtent * mib - journalUsed (s.partnerKept t r) then
      State.Noted { s with ports := (s.mirrorIn p r).ports, journal := { s.journal with partner := s.partnerKept t r ++ [r] } } (s.mirrorIn p r)
        ∧ .link p (.partner (.mirrorAck (recordSeq r))) ∈ (s.mirrorIn p r).out
    else State.Noted { s with journal := { s.journal with partner := s.partnerKept t r } } (s.mirrorIn p r) := by
  have room := s.partnerRoom_noted t r
  have mirrors : s.mirrorIn p r =
      (let x := if recordsBytes [r] ≤ s.partnerExtent * mib - journalUsed s.journal.partner then s else s.compact t true
       if x.partnerExtent * mib - journalUsed x.journal.partner < recordsBytes [r] then x
       else (x.modJournal fun j => { j with partner := j.partner ++ [r] }).toPartner p (.mirrorAck (recordSeq r))) := by
    unfold State.mirrorIn
    rw [if_neg (by simp [partner, flash, stands]), table]
  rw [mirrors]
  generalize (if recordsBytes [r] ≤ s.partnerExtent * mib - journalUsed s.journal.partner then s else s.compact t true) = x at room ⊢
  have extent : x.partnerExtent = s.partnerExtent := by
    unfold State.partnerExtent
    rw [room.job, room.journal]
  have kept : x.journal.partner = s.partnerKept t r := by rw [room.journal]
  have up : (x.port p).up = true := by
    rw [State.port, room.ports]
    exact State.fromPartner_up partner
  dsimp only
  rw [extent, kept]
  by_cases fits : recordsBytes [r] ≤ s.partnerExtent * mib - journalUsed (s.partnerKept t r)
  · rw [if_pos fits, if_neg (Nat.not_lt.mpr fits)]
    have upNow : ((x.modJournal fun j => { j with partner := j.partner ++ [r] }).port p).up = true := up
    obtain ⟨noted, sent⟩ := State.toPartner_sends upNow (.mirrorAck (recordSeq r))
    have wrote := noted_withJournal room { s.journal with partner := s.partnerKept t r ++ [r] }
    have is : (x.modJournal fun j => { j with partner := j.partner ++ [r] }) = { x with journal := { s.journal with partner := s.partnerKept t r ++ [r] } } := by
      unfold State.modJournal
      rw [room.journal]
    rw [is] at noted sent ⊢
    exact ⟨noted_trans (noted_withPorts wrote _) noted, sent⟩
  · rw [if_neg fits, if_pos (Nat.lt_of_not_le fits)]
    exact room

/-! ## Acknowledgements -/

/-- Where no step waits for it, a commit without an acknowledgement to come ends with its write. -/
theorem State.tryCommit_free {s : State} {c : Commit} {t : Table} (commit : s.journal.commit = some c) (acked : c.ackDue = false)
    (free : c.flashDone = false ∨ c.ofStep = false) (table : s.job.table = some t) :
    s.tryCommit = s.modJournal fun j => { j with commit := if c.flashDone then none else some c } := by
  have ready : s.commitReady = (c.flashDone && !c.ackDue && (!c.ofStep || (s.settled && !s.transferOpen))) := by
    unfold State.commitReady
    rw [commit]
  unfold State.tryCommit
  rw [ready, acked]
  cases done : c.flashDone with
  | false =>
    rw [if_pos (by simp), if_neg (by simp), ← commit]
    rfl
  | true =>
    have step : c.ofStep = false := free.resolve_left (by simp [done])
    rw [if_neg (by simp [step]), table, commit]
    dsimp only
    rw [step]
    rfl

theorem State.afterWrite_free {s : State} {c : Commit} {t : Table} (commit : s.journal.commit = some c) (acked : c.ackDue = false)
    (free : c.flashDone = false ∨ c.ofStep = false) (table : s.job.table = some t) (outside : s.harbour.inCensus = false)
    (settled : s.ResetSettled) :
    s.afterWrite = s.modJournal fun j => { j with commit := if c.flashDone then none else some c } := by
  unfold State.afterWrite
  rw [State.tryCommit_free commit acked free table]
  exact settles_outside settled rfl outside

/-- Settles O53: mirrored records, pieces of snapshots, acknowledgements and their timeouts. -/
theorem partnerMirrorsAndStores : Obligations.PartnerMirrorsAndStores := by
  unfold Obligations.PartnerMirrorsAndStores
  refine ⟨fun s p r t partner settled table flash => ⟨fun falls => ?_, fun stands => ?_⟩, fun s p number step page quay dig data partner settled flash => ?_,
    fun s p c t partner settled outside table commit free => ?_, fun s c t settled outside table commit due free => ?_⟩
  · obtain ⟨y, heard, runs⟩ := State.onPartner_hears (State.fromPartner_up partner) 0 r.length (State.mirrorIn p r)
    have same : y.mirrorIn p r = y := by
      unfold State.mirrorIn
      rw [if_pos (by simp [falls])]
    rw [same, settleReset_of_boot settled heard.noted.boot] at runs
    exact ⟨_, congrArg Host.Outcome.next runs, heard.noted⟩
  · obtain ⟨y, heard, runs⟩ := State.onPartner_hears (State.fromPartner_up partner) 0 r.length (State.mirrorIn p r)
    have takes := State.mirrorIn_takes (s := y) (t := t) (by rw [heard.fromPartner, partner]) (by rw [heard.noted.journal, flash]) stands
      (by rw [heard.noted.job, table])
    have journal : y.journal = s.journal := heard.noted.journal
    have kept : y.partnerKept t r = s.partnerKept t r := by
      unfold State.partnerKept
      rw [heard.partnerExtent, journal]
    rw [kept, heard.partnerExtent, journal] at takes
    refine ⟨_, congrArg Host.Outcome.next runs, ?_⟩
    by_cases fits : recordsBytes [r] ≤ s.partnerExtent * mib - journalUsed (s.partnerKept t r)
    · rw [if_pos fits] at takes
      have all := noted_trans (noted_withJournal (noted_withPorts heard.noted (y.mirrorIn p r).ports)
        { s.journal with partner := s.partnerKept t r ++ [r] }) takes.1
      have boot : (y.mirrorIn p r).boot = s.boot := all.boot
      rw [settleReset_of_boot settled boot]
      exact (if_pos fits).mpr ⟨all, takes.2⟩
    · rw [if_neg fits] at takes
      have all := noted_trans (noted_withJournal heard.noted { s.journal with partner := s.partnerKept t r }) takes
      have boot : (y.mirrorIn p r).boot = s.boot := all.boot
      have ports : (y.mirrorIn p r).ports = y.ports := takes.ports
      rw [settleReset_of_boot settled boot]
      refine (if_neg fits).mpr ?_
      rw [ports]
      exact all
  · obtain ⟨y, heard, runs⟩ := State.onPartner_hears (State.fromPartner_up partner) (pieceMsg (pieceOf number step page quay dig data)).kind
      (pieceMsg (pieceOf number step page quay dig data)).bytes (State.storePiece p (pieceOf number step page quay dig data))
    have n := heard.noted
    have room : y.storeRoom = s.storeRoom := by
      unfold State.storeRoom
      rw [heard.partnerExtent, n.journal]
    have stores : y.storePiece p (pieceOf number step page quay dig data)
        = if (trimStore s.storeRoom (putPiece (pieceOf number step page quay dig data) s.snap.store)).any fun x =>
            x.number == pieceNumber (pieceOf number step page quay dig data)
          then y.modSnap fun x => { x with store := trimStore s.storeRoom (putPiece (pieceOf number step page quay dig data) s.snap.store) } else y := by
      unfold State.storePiece
      dsimp only
      rw [if_neg (by simp [heard.fromPartner, partner, n.journal, flash]), room, n.snap]
    have boot : (y.storePiece p (pieceOf number step page quay dig data)).boot = s.boot := by
      rw [stores]
      split <;> exact n.boot
    rw [settleReset_of_boot settled boot, stores] at runs
    dsimp only
    refine ⟨_, congrArg Host.Outcome.next runs, ?_⟩
    split
    · refine ⟨⟨n.pending, n.sent, n.freeCtr, n.usec, n.power, n.boot, n.pcie, n.sqs, n.cqs, n.sqTurn, n.cmds, n.job, n.mem, n.run, n.stalls,
        n.quays, rfl, n.journal, n.harbour, rfl, n.test⟩, ?_⟩
      rw [State.modSnap_snap, n.snap]
    · refine ⟨?_, n.snap⟩
      rw [n.snap]
      exact n
  · obtain ⟨y, heard, runs⟩ := State.onPartner_hears (State.fromPartner_up partner) 1 8 fun s => (s.mirrorAckIn p c.seq).afterWrite
    have n := heard.noted
    have acks : y.mirrorAckIn p c.seq = y.modJournal fun j => { j with commit := some { c with ackDue := false } } := by
      have now : y.journal.commit = some c := by rw [n.journal, commit]
      unfold State.mirrorAckIn
      rw [if_neg (by simp [heard.fromPartner, partner])]
      unfold State.modJournal
      dsimp only
      rw [now, Option.map_some, if_pos rfl]
    have settledNow : y.ResetSettled := by
      unfold State.ResetSettled State.inRun
      rw [n.boot]
      exact settled
    have ends := State.afterWrite_free (s := y.modJournal fun j => { j with commit := some { c with ackDue := false } }) (c := { c with ackDue := false })
      rfl rfl free ((congrArg Job.table n.job).trans table) ((congrArg Harbour.inCensus n.harbour).trans outside) settledNow
    have boot : (y.mirrorAckIn p c.seq).afterWrite.boot = s.boot := by
      rw [acks, ends]
      exact n.boot
    rw [settleReset_of_boot settled boot, acks, ends] at runs
    refine ⟨_, congrArg Host.Outcome.next runs, ⟨n.pending, n.sent, n.freeCtr, n.usec, n.power, n.boot, n.pcie, n.sqs, n.cqs, n.sqTurn, n.cmds,
      n.job, n.mem, n.run, n.stalls, n.quays, n.snap, rfl, n.harbour, rfl, n.test⟩, ?_⟩
    rw [State.modJournal_journal, State.modJournal_journal, n.journal]
  · have late : s.mirrorTimeout = s.modJournal fun j =>
        { j with suspended := true, own := j.own.map fun r => if (c.records.map recordSeq).contains (recordSeq r) then clearMirrored r else r,
                 commit := some { c with ackDue := false, records := c.records.map clearMirrored } } := by
      unfold State.mirrorTimeout
      rw [commit]
      dsimp only
      rw [if_neg (by simp [due])]
    have ends := State.afterWrite_free (s := s.modJournal fun j =>
        { j with suspended := true, own := j.own.map fun r => if (c.records.map recordSeq).contains (recordSeq r) then clearMirrored r else r,
                 commit := some { c with ackDue := false, records := c.records.map clearMirrored } })
      (c := { c with ackDue := false, records := c.records.map clearMirrored }) rfl rfl free table outside settled
    refine ⟨_, congrArg Host.Outcome.next ((congrArg State.afterWrite late).trans ends), rfl, rfl, ?_⟩
    simp [State.modJournal]

end Sys2Proof.Machine

/-! PROOF. A restore over a port goes on and ends (R341 to R343). -/

namespace Sys2Proof.Machine

/-! ## A restore that ends -/

/-- A restore over a port has failed: the port is dark, and its command has completed. -/
structure State.RestoreFailed (r : RestoreRun) (c : Cmd) (st : Status) (s u : State) : Prop where
  restore : u.harbour.restore = none
  role : (u.port r.port).role = 0
  job : u.job = s.job
  boot : u.boot = s.boot
  completed : s.Completed u c st 0 0

/-- The port of a restore goes dark, and nothing of it is open. -/
def State.restoreDark (r : RestoreRun) (s : State) : State := (s.darkPort r.port).modHarbour fun h => { h with restore := none }

theorem State.failRestore_eq (r : RestoreRun) (st : Status) (s : State) : s.failRestore r st = (s.restoreDark r).finish r.sq r.cid st 0 0 := rfl

theorem State.restoreDark_rest (r : RestoreRun) (s : State) :
    Only [.out, .power, .pcie, .log, .tm, .stalls, .harbour, .ports] s (s.restoreDark r) :=
  modHarbour_only _ (by decide) (State.darkPort_only _ (by decide) (only_refl _ s))

theorem State.darkPort_role (p : Nat) (s : State) : ((s.darkPort p).port p).role = 0 := by
  unfold State.darkPort
  rw [State.engines_port, State.port, List.getD_eq_getElem?_getD]
  change Port.role (((modAt p (fun x => { Port.reset with state := if x.failed then 4 else 0, failed := x.failed }) s.ports)[p]?).getD Port.reset) = 0
  rw [modAt_getElem?, if_pos rfl]
  cases s.ports[p]? <;> rfl

/-- What a restore's end may be reached through: the queues, the clock and the commands stand. -/
structure State.Reached (s y : State) : Prop where
  cmds : y.cmds = s.cmds
  cqs : y.cqs = s.cqs
  sqs : y.sqs = s.sqs
  usec : y.usec = s.usec
  sent : s.out <+: y.out
  job : y.job = s.job
  boot : y.boot = s.boot

theorem reached_refl (s : State) : s.Reached s := ⟨rfl, rfl, rfl, rfl, List.prefix_refl _, rfl, rfl⟩

theorem State.Reached.of_only {s x y : State} {ks : List Part} (h : s.Reached x) (rest : Only ks x y) (kept : Kept x y)
    (cmds : Part.cmds ∉ ks := by decide) (cqs : Part.cqs ∉ ks := by decide) (sqs : Part.sqs ∉ ks := by decide)
    (usec : Part.usec ∉ ks := by decide) (job : Part.job ∉ ks := by decide) (boot : Part.boot ∉ ks := by decide) : s.Reached y :=
  ⟨(rest.same .cmds cmds).trans h.cmds, (rest.same .cqs cqs).trans h.cqs, (rest.same .sqs sqs).trans h.sqs, (rest.same .usec usec).trans h.usec,
    h.sent.trans kept.sent, (rest.same .job job).trans h.job, (rest.same .boot boot).trans h.boot⟩

theorem State.HeardPartner.reached {p : Nat} {s y : State} (h : s.HeardPartner p y) : s.Reached y :=
  ⟨h.noted.cmds, h.noted.cqs, h.noted.sqs, h.noted.usec, h.noted.sent, h.noted.job, h.noted.boot⟩

theorem State.restoreDark_kept (r : RestoreRun) (s : State) : Kept s (s.restoreDark r) :=
  modHarbour_kept _ (State.darkPort_kept _ (kept_refl s))

/-- A restore that ends on a state reached from `s` completes the command of `s`. -/
theorem State.Reached.fails {s y : State} (h : s.Reached y) {r : RestoreRun} {c : Cmd} (cmd : s.cmd? r.sq r.cid = some c)
    (fits : s.entryFits c = true) (st : Status) : s.RestoreFailed r c st (y.failRestore r st) := by
  have dark := h.of_only (y.restoreDark_rest r) (y.restoreDark_kept r)
  have ports : (y.restoreDark r).ports = (y.darkPort r.port).ports := rfl
  have gone : (y.restoreDark r).harbour.restore = none := rfl
  rw [State.failRestore_eq]
  exact {
    restore := by rw [State.finish_harbour, gone]
    role := by rw [State.port, State.finish_ports, ports]; exact y.darkPort_role r.port
    job := by rw [State.finish_job, dark.job]
    boot := by rw [State.finish_boot, dark.boot]
    completed := finish_ended cmd dark.cmds dark.cqs dark.sqs dark.usec dark.sent fits st 0 0 }

theorem State.failRestore_mem (r : RestoreRun) (st : Status) (s : State) : (s.failRestore r st).mem = s.mem := by
  rw [State.failRestore_eq, State.finish_mem]
  exact (s.restoreDark_rest r).same .mem (by decide)

/-! ## What comes over the port -/

theorem State.pinned_congr {s t : State} (job : t.job = s.job) : t.pinned = s.pinned := by
  unfold State.pinned
  rw [job]

theorem State.chunkFits_congr {s t : State} (mem : t.mem = s.mem) (job : t.job = s.job) (k : Chunk) : t.chunkFits k = s.chunkFits k := by
  unfold State.chunkFits
  rw [mem, State.pinned_congr job]

theorem State.imageChunks_congr {s t : State} (mem : t.mem = s.mem) (job : t.job = s.job) (tab : Table) (b : Bytes) :
    t.imageChunks tab b = s.imageChunks tab b := by
  have fits : t.chunkFits = s.chunkFits := funext fun k => State.chunkFits_congr mem job k
  unfold State.imageChunks
  rw [fits]

/-- What a payload does at the newcomer of a restore, once it is heard. -/
theorem State.transfer_heard {s : State} {r : RestoreRun} (restore : s.harbour.restore = some r) (up : (s.port r.port).up = true) {t : Table}
    (table : s.job.table = some t) (x : StatePayload) :
    ∃ y, s.HeardPartner r.port y ∧ exec (.stateTransferReceived r.port x) s = .next (y.transferIn t r.port x).settleReset
      ∧ y.harbour.restore = some r ∧ (y.port r.port).up = true := by
  obtain ⟨y, heard, runs⟩ := State.onPartner_hears up (transferMsg x).kind (transferMsg x).bytes (State.takeTransfer r.port x)
  refine ⟨y, heard, congrArg Host.Outcome.next (runs.trans (congrArg State.settleReset ?_)), ?_, ?_⟩
  · unfold State.takeTransfer
    rw [heard.noted.job, table]
  · rw [heard.noted.harbour]
    exact restore
  · rw [heard.sameWays.up, up]

theorem Harbour.newcomer_of {h : Harbour} {r : RestoreRun} (restore : h.restore = some r) (source : r.source = 2) : h.newcomer = some r := by
  unfold Harbour.newcomer
  rw [restore]
  exact if_pos source

theorem State.fragmentIn_eq {s : State} {r : RestoreRun} (newcomer : s.harbour.newcomer = some r) (t : Table) (page q dig : Nat) (d : Bytes) :
    s.fragmentIn t page q dig d =
      if r.step.isSome || !t.transferPages.contains page || !s.chunkFits ⟨page, q, dig, d⟩ then s
      else if fragDigest s.pinned q page d != dig then (s.putFragment q page d).shadowMismatch 3 (fragDigest s.pinned q page d) dig
      else (((s.putFragment q page d).modShadow fun x =>
        { x with pages := x.pages ++ [(q, page)], setDigest := (x.setDigest + dig) % m61 }).trySet t).shadowSteps t (r.stats.length + 1) := by
  unfold State.fragmentIn
  rw [newcomer]

theorem State.putFragment_rest (q page : Nat) (d : Bytes) (s : State) : Only [.mem] s (s.putFragment q page d) :=
  State.putFragment_only _ _ _ (List.Subset.refl _) (only_refl _ s)

theorem State.shadowMismatch_restore {s : State} {r : RestoreRun} (restore : s.harbour.restore = some r) (digest own expected : Nat) :
    s.shadowMismatch digest own expected = (s.restoreMismatch digest own expected).failRestore r .fault := by
  unfold State.shadowMismatch
  rw [restore]

theorem foldl_modMem_mem {α : Type} (g : α → Mem → Mem) (l : List α) (s : State) :
    (l.foldl (fun s a => s.modMem (g a)) s).mem = l.foldl (fun m a => g a m) s.mem := by
  induction l generalizing s with
  | nil => rfl
  | cons a l ih => exact ih (s.modMem (g a))

/-- What a fragment writes rests on memory and on the pinned pages. -/
theorem State.putFragment_congr {s t : State} (mem : t.mem = s.mem) (job : t.job = s.job) (q page : Nat) (d : Bytes) :
    (t.putFragment q page d).mem = (s.putFragment q page d).mem := by
  unfold State.putFragment
  rw [State.pinned_congr job, foldl_modMem_mem (α := Nat × Nat) fun p m => m.write p.1 (slice d (granuleSize * p.2) granuleSize),
    foldl_modMem_mem (α := Nat × Nat) fun p m => m.write p.1 (slice d (granuleSize * p.2) granuleSize), mem]

/-- A fragment of the transfer set whose digest fails ends the restore. -/
theorem State.fragmentIn_fails {s : State} {r : RestoreRun} (restore : s.harbour.restore = some r) (source : r.source = 2) (open_ : r.step = none)
    {t : Table} {page q dig : Nat} {d : Bytes} (listed : page ∈ t.transferPages) (fits : s.chunkFits ⟨page, q, dig, d⟩ = true)
    (fails : fragDigest s.pinned q page d ≠ dig) :
    s.fragmentIn t page q dig d
      = ((s.putFragment q page d).restoreMismatch 3 (fragDigest s.pinned q page d) dig).failRestore r .fault := by
  have still : (s.putFragment q page d).harbour.restore = some r := by rw [(s.putFragment_rest q page d).same .harbour (by decide), restore]
  rw [State.fragmentIn_eq (Harbour.newcomer_of restore source), if_neg, if_pos]
  · exact State.shadowMismatch_restore still _ _ _
  · exact bne_iff_ne.mpr fails
  · simp [open_, listed, fits]

/-- The restore after a fragment of its set. -/
def RestoreRun.counted (q page dig : Nat) (r : RestoreRun) : RestoreRun :=
  { r with pages := r.pages ++ [(q, page)], setDigest := (r.setDigest + dig) % m61 }

theorem State.modShadow_restore {s : State} {r : RestoreRun} (restore : s.harbour.restore = some r) (f : RestoreRun → RestoreRun) :
    s.modShadow f = s.modHarbour fun h => { h with restore := some (f r) } := by
  unfold State.modShadow State.modHarbour
  dsimp only
  rw [restore]

/-- Without its record a set is not complete, and nothing is applied before it is. -/
theorem State.set_waits {s : State} {r : RestoreRun} (newcomer : s.harbour.newcomer = some r) (open_ : r.step = none) (record : r.record = [])
    (t : Table) (n : Nat) : (s.trySet t).shadowSteps t (n + 1) = s := by
  have waits : s.trySet t = s := by
    unfold State.trySet
    rw [newcomer]
    exact if_neg (by simp [record])
  rw [waits, State.shadowSteps, newcomer]
  exact if_pos (by simp [open_])

/-- A fragment of the transfer set that holds its digest is written and counted. -/
theorem State.fragmentIn_takes {s : State} {r : RestoreRun} (restore : s.harbour.restore = some r) (source : r.source = 2) (open_ : r.step = none)
    (record : r.record = []) {t : Table} {page q dig : Nat} {d : Bytes} (listed : page ∈ t.transferPages)
    (fits : s.chunkFits ⟨page, q, dig, d⟩ = true) (holds : fragDigest s.pinned q page d = dig) :
    s.fragmentIn t page q dig d = (s.putFragment q page d).modHarbour fun h => { h with restore := some (r.counted q page dig) } := by
  have still : (s.putFragment q page d).harbour.restore = some r := by rw [(s.putFragment_rest q page d).same .harbour (by decide), restore]
  rw [State.fragmentIn_eq (Harbour.newcomer_of restore source), if_neg, if_neg]
  · rw [State.modShadow_restore still]
    have next : ((s.putFragment q page d).modHarbour fun h => { h with restore := some (r.counted q page dig) }).harbour.newcomer
        = some (r.counted q page dig) := Harbour.newcomer_of rfl source
    exact State.set_waits next open_ record t _
  · simp [holds]
  · simp [open_, listed, fits]

/-- An image over the port that does not parse. -/
theorem State.transferIn_image {s : State} {r : RestoreRun} (restore : s.harbour.restore = some r) (up : (s.port r.port).up = true)
    (greeted : r.greeted = true) (source : r.source = 1) {t : Table} {b : Bytes} (fails : s.imageChunks t b = none) :
    s.transferIn t r.port (.image b) = s.failRestore r .malformed := by
  have dark := s.restoreDark_rest r
  have unparsed : (s.restoreDark r).imageChunks t b = none := by
    rw [State.imageChunks_congr (dark.same .mem (by decide)) (dark.same .job (by decide)), fails]
  unfold State.transferIn
  rw [restore]
  dsimp only
  rw [if_neg (by simp [greeted, up]), if_pos source, State.failRestore_eq, ← State.finishImage_malformed unparsed r.sq r.cid 1]
  rfl

theorem State.transferIn_refused {s : State} {r : RestoreRun} (restore : s.harbour.restore = some r) (up : (s.port r.port).up = true)
    (greeted : r.greeted = true) (source : r.source = 2) (record : r.record = []) (t : Table) :
    s.transferIn t r.port .refusedByDonor = s.failRestore r .refusedState := by
  unfold State.transferIn
  rw [restore]
  dsimp only
  rw [if_neg (by simp [greeted, up]), if_pos (by simp [source, record])]

theorem State.transferIn_fragment {s : State} {r : RestoreRun} (restore : s.harbour.restore = some r) (up : (s.port r.port).up = true)
    (greeted : r.greeted = true) (t : Table) (page q dig : Nat) (d : Bytes) :
    s.transferIn t r.port (.fragment page q dig d) = s.fragmentIn t page q dig d := by
  unfold State.transferIn
  rw [restore]
  dsimp only
  rw [if_neg (by simp [greeted, up])]

/-- What a fragment that has been counted leaves. -/
theorem State.harbour_counted {s x : State} (counted : RestoreRun) (harbour : x.harbour = s.harbour) (job : x.job = s.job) (boot : x.boot = s.boot)
    (cmds : x.cmds = s.cmds) {u : State} (now : u = x.modHarbour fun h => { h with restore := some counted }) :
    u.job = s.job ∧ u.boot = s.boot ∧ u.mem = x.mem ∧ u.harbour = { s.harbour with restore := u.harbour.restore }
      ∧ u.harbour.restore = some counted ∧ u.cmds = s.cmds := by
  subst now
  exact ⟨job, boot, rfl, congrArg (fun h : Harbour => { h with restore := some counted }) harbour, rfl, cmds⟩

/-- A fragment that comes over the port, and whose digest holds. -/
theorem State.fragment_holds {s : State} {r : RestoreRun} {t : Table} {page q dig : Nat} {d : Bytes} (restore : s.harbour.restore = some r)
    (up : (s.port r.port).up = true) (greeted : r.greeted = true) (source : r.source = 2) (record : r.record = []) (open_ : r.step = none)
    (table : s.job.table = some t) (settled : s.ResetSettled) (listed : page ∈ t.transferPages) (chunk : s.chunkFits ⟨page, q, dig, d⟩ = true)
    (holds : fragDigest t.pinned q page d = dig) :
    ∃ u, exec (.stateTransferReceived r.port (.fragment page q dig d)) s = .next u ∧ u.job = s.job ∧ u.boot = s.boot
      ∧ u.mem = (s.putFragment q page d).mem ∧ u.harbour = { s.harbour with restore := u.harbour.restore }
      ∧ u.harbour.restore = some (r.counted q page dig) ∧ u.cmds = s.cmds := by
  obtain ⟨y, heard, runs, restoreNow, upNow⟩ := State.transfer_heard restore up table (.fragment page q dig d)
  have n := heard.noted
  have memory : y.mem = s.mem := n.mem
  have job : y.job = s.job := n.job
  have pinned : y.pinned = t.pinned := by
    unfold State.pinned
    rw [job, table]
  have chunkNow : y.chunkFits ⟨page, q, dig, d⟩ = true :=
    (State.chunkFits_congr memory job _).trans chunk
  have taken := (State.transferIn_fragment restoreNow upNow greeted t page q dig d).trans
    (State.fragmentIn_takes restoreNow source open_ record listed chunkNow (by rw [pinned, holds]))
  rw [taken] at runs
  have put := y.putFragment_rest q page d
  have mem : (y.putFragment q page d).mem = (s.putFragment q page d).mem := State.putFragment_congr memory job q page d
  generalize y.putFragment q page d = x at put runs mem
  have harbour : x.harbour = s.harbour := (put.same .harbour (by decide)).trans n.harbour
  generalize r.counted q page dig = counted at runs ⊢
  have now := State.harbour_counted counted harbour ((put.same .job (by decide)).trans job) ((put.same .boot (by decide)).trans n.boot)
    ((put.same .cmds (by decide)).trans n.cmds) rfl
  rw [settleReset_of_boot settled now.2.1] at runs
  rw [mem] at now
  exact ⟨_, runs, now⟩

/-- A fragment that comes over the port, and whose digest fails. -/
theorem State.fragment_fails {s : State} {r : RestoreRun} {c : Cmd} {t : Table} {page q dig : Nat} {d : Bytes} (restore : s.harbour.restore = some r)
    (up : (s.port r.port).up = true) (greeted : r.greeted = true) (source : r.source = 2) (open_ : r.step = none)
    (table : s.job.table = some t) (settled : s.ResetSettled) (listed : page ∈ t.transferPages) (chunk : s.chunkFits ⟨page, q, dig, d⟩ = true)
    (cmd : s.cmd? r.sq r.cid = some c) (fits : s.entryFits c = true) (fails : fragDigest t.pinned q page d ≠ dig) :
    ∃ u, exec (.stateTransferReceived r.port (.fragment page q dig d)) s = .next u ∧ s.RestoreFailed r c .fault u := by
  obtain ⟨y, heard, runs, restoreNow, upNow⟩ := State.transfer_heard restore up table (.fragment page q dig d)
  have n := heard.noted
  have memory : y.mem = s.mem := n.mem
  have job : y.job = s.job := n.job
  have pinned : y.pinned = t.pinned := by
    unfold State.pinned
    rw [job, table]
  have chunkNow : y.chunkFits ⟨page, q, dig, d⟩ = true :=
    (State.chunkFits_congr memory job _).trans chunk
  rw [State.transferIn_fragment restoreNow upNow greeted,
    State.fragmentIn_fails restoreNow source open_ listed chunkNow (by rw [pinned]; exact fails)] at runs
  have wrote := heard.reached.of_only (y.putFragment_rest q page d) (State.putFragment_kept _ _ _ (kept_refl y))
  generalize y.putFragment q page d = x at wrote runs
  have mismatch := wrote.of_only (State.restoreMismatch_only 3 (fragDigest y.pinned q page d) dig (ks := [.out, .pcie, .log, .tm, .mem]) (List.Subset.refl _) (only_refl _ x))
    (State.restoreMismatch_kept _ _ _ (kept_refl x))
  have failed := mismatch.fails cmd fits .fault
  rw [settleReset_of_boot settled failed.boot] at runs
  exact ⟨_, runs, failed⟩

/-- Settles O54: the ends of a restore, and its fragments. -/
theorem restoreOverAPortGoesOn : Obligations.RestoreOverAPortGoesOn := by
  unfold Obligations.RestoreOverAPortGoesOn
  intro s r c t page q dig d restore eightPort eight cmd fits settled table
  have reached := reached_refl s
  refine ⟨fun waits => ?_, fun greeted => ?_, fun greeted up source unparsed => ?_, fun greeted up source record => ⟨?_, fun open_ listed chunk => ?_⟩⟩
  · have failed := reached.fails cmd fits .aborted
    have runs : s.helloTimeout = s.failRestore r .aborted := by
      unfold State.helloTimeout
      rw [restore]
      dsimp only
      rw [if_neg (by simp [waits])]
    exact ⟨_, congrArg Host.Outcome.next runs, ⟨failed.restore, failed.role, s.failRestore_mem r _, failed.job, failed.boot⟩, failed.completed⟩
  · refine congrArg Host.Outcome.next ?_
    unfold State.helloTimeout
    rw [restore]
    exact if_pos greeted
  · obtain ⟨y, heard, runs, restoreNow, upNow⟩ := State.transfer_heard restore up table (.image d)
    have failed := heard.reached.fails cmd fits .malformed
    rw [State.transferIn_image restoreNow upNow greeted source ((State.imageChunks_congr heard.noted.mem heard.noted.job t d).trans unparsed),
      settleReset_of_boot settled failed.boot] at runs
    exact ⟨_, runs, ⟨failed.restore, failed.role, (y.failRestore_mem r _).trans heard.noted.mem, failed.job, failed.boot⟩, failed.completed⟩
  · obtain ⟨y, heard, runs, restoreNow, upNow⟩ := State.transfer_heard restore up table .refusedByDonor
    have failed := heard.reached.fails cmd fits .refusedState
    rw [State.transferIn_refused restoreNow upNow greeted source record, settleReset_of_boot settled failed.boot] at runs
    exact ⟨_, runs, ⟨failed.restore, failed.role, (y.failRestore_mem r _).trans heard.noted.mem, failed.job, failed.boot⟩, failed.completed⟩
  · split
    next holds => exact State.fragment_holds restore up greeted source record open_ table settled listed chunk holds
    next fails =>
      obtain ⟨u, runs, failed⟩ := State.fragment_fails restore up greeted source open_ table settled listed chunk cmd fits fails
      exact ⟨u, runs, failed.job, failed.boot, failed.restore, failed.completed⟩

end Sys2Proof.Machine

/-! PROOF. The journal: local writes, commits of steps, failing flash and compaction (R329, R331, R332). -/

namespace Sys2Proof.Machine

/-! ## What follows a commit leaves the step -/

theorem State.endRun_harbour (st : Status) (m : ModuleState) (s : State) :
    (s.endRun st m).harbour = { s.harbour with decided := false, link := s.harbour.link.cleared } := by
  have commands : Only [.out, .pcie, .cqs, .cmds, .log, .tm, .test] (s.finishRuns st)
      ((s.finishRuns st).finishServes st).finishHalts.dropDeferredTests :=
    State.dropDeferredTests_only (by decide) (State.finishHalts_only (by decide) (State.finishServes_only st (by decide) (only_refl _ _)))
  have leaves (x : State) : Only [.boot, .stalls] x (x.idleStalls.enter m) :=
    State.enter_only m (by decide) (State.idleStalls_only (by decide) (only_refl _ x))
  have harbour := (commands.same .harbour (by decide)).trans (s.finishRuns_reported st).harbour
  unfold State.endRun
  dsimp only
  generalize ((s.finishRuns st).finishServes st).finishHalts.dropDeferredTests = x at harbour
  rw [(leaves _).same .harbour (by decide), State.modHarbour_harbour, State.modRun_harbour, harbour]

/-- The time held for want of a RUN_STEPS. -/
def State.idleTime (s : State) : Nat := match s.harbour.idleFrom with | none => 0 | some u => s.usec - u

/-- A RUN_STEPS becomes the one under way. -/
def State.runOpened (c : Cmd) (idle : Nat) (s : State) : State :=
  ((s.setCmd c.sq c.cid fun c => { c with started := true }).count (tmAt 0x30) idle).modRun fun r =>
    { r with kind := .training, cur := some ⟨c.sq, c.cid, eSteps c.entry, 0, 0, 0⟩, waitUs := r.waitUs + idle }

/-- What a cap step below 800 MHz leaves of the promises. -/
def State.runPromised (s : State) : State :=
  let s := if s.rateLost then s.endPromise 4 (Cmd.isOp opRun) else s
  if s.capStep = 0 then s else s.capThrottleEvent

theorem State.startRun_eq (t : Table) (c : Cmd) (s : State) : s.startRun t c =
    (State.beginStep t ((s.runOpened c s.idleTime).modHarbour fun h => { h with idleFrom := none, halted := false })).runPromised := rfl

theorem State.runOpened_rest (c : Cmd) (idle : Nat) (s : State) : Only [.out, .pcie, .log, .tm, .cmds, .run] s (s.runOpened c idle) :=
  modRun_only _ (by decide) (State.count_only _ _ (by decide) (State.setCmd_only _ _ _ (by decide) (only_refl _ s)))

theorem State.runPromised_rest (s : State) : Only [.out, .pcie, .log, .tm, .cmds] s s.runPromised := by
  have promised : Only [.out, .pcie, .log, .tm, .cmds] s (if s.rateLost then s.endPromise 4 (Cmd.isOp opRun) else s) := by
    split
    · exact State.endPromise_only 4 _ (by decide) (only_refl _ s)
    · exact only_refl _ s
  unfold State.runPromised
  generalize (if s.rateLost then s.endPromise 4 (Cmd.isOp opRun) else s) = x at promised
  dsimp only
  split
  · exact promised
  · exact State.capThrottleEvent_only (by decide) promised

/-- The tests' time goes to the commands that end with this slack water. -/
def State.slackWaited (t : Table) (s : State) : State :=
  if s.harbour.leaving.isSome || s.run.closing || s.skipLimitHit t || !(s.cmdsOf opHalt).isEmpty then s.lastWait true
  else if s.runUsed then s.lastWait false else s

/-- What ends the slack water, under the status of a run that ends early and the skip limit. -/
def State.slackEnds (t : Table) (early : Status) (lim : Bool) (s : State) : State :=
  match s.harbour.leaving with
  | some r => (s.endRun (if lim then .fault else early) .configured).leaveNow r
  | none =>
    if s.run.closing then
      let s := s.endRun (if lim then .fault else early) .configured
      if s.harbour.joined then s.depart else s
    else if lim then s.rest .fault false
    else if !(s.cmdsOf opHalt).isEmpty then s.rest early true
    else if s.runUsed then s.nextRun t
    else s.beginStep t

theorem State.closeSlack_eq (t : Table) (s : State) :
    let y := s.modRun fun r => { r with slack := .none }
    s.closeSlack t = (y.slackWaited t).slackEnds t (if y.runUsed then Status.ok else Status.aborted) (y.skipLimitHit t) := rfl

/-- The step at which the module stands, its memory and what OTP holds, outside a harbour and its census. -/
structure State.StepStands (s t : State) : Prop where
  mem : t.mem = s.mem
  committed : t.job.committed = s.job.committed
  step : t.job.step = s.job.step
  dataPos : t.job.dataPos = s.job.dataPos
  svn : t.boot.svn = s.boot.svn
  due : t.boot.resetDue = false
  alone : t.harbour.joined = false
  outside : t.harbour.inCensus = false

namespace State.StepStands

variable {s x y : State} {ks : List Part}

theorem of_only (h : s.StepStands x) (frame : Only ks x y) (mem : .mem ∉ ks) (job : .job ∉ ks) (boot : .boot ∉ ks) (harbour : .harbour ∉ ks) :
    s.StepStands y where
  mem := (frame.same .mem mem).trans h.mem
  committed := (congrArg Job.committed (frame.same .job job)).trans h.committed
  step := (congrArg Job.step (frame.same .job job)).trans h.step
  dataPos := (congrArg Job.dataPos (frame.same .job job)).trans h.dataPos
  svn := (congrArg Boot.svn (frame.same .boot boot)).trans h.svn
  due := (congrArg Boot.resetDue (frame.same .boot boot)).trans h.due
  alone := (congrArg Harbour.joined (frame.same .harbour harbour)).trans h.alone
  outside := (congrArg Harbour.inCensus (frame.same .harbour harbour)).trans h.outside

/-- As `of_only`, where the harbour changes but for the membership. -/
theorem of_harbour (h : s.StepStands x) (frame : Only ks x y) (mem : .mem ∉ ks) (job : .job ∉ ks) (boot : .boot ∉ ks)
    (alone : y.harbour.joined = x.harbour.joined) (outside : y.harbour.inCensus = x.harbour.inCensus) : s.StepStands y where
  mem := (frame.same .mem mem).trans h.mem
  committed := (congrArg Job.committed (frame.same .job job)).trans h.committed
  step := (congrArg Job.step (frame.same .job job)).trans h.step
  dataPos := (congrArg Job.dataPos (frame.same .job job)).trans h.dataPos
  svn := (congrArg Boot.svn (frame.same .boot boot)).trans h.svn
  due := (congrArg Boot.resetDue (frame.same .boot boot)).trans h.due
  alone := alone.trans h.alone
  outside := outside.trans h.outside

theorem modRun (h : s.StepStands x) (f : Run → Run) : s.StepStands (x.modRun f) := { h with }

theorem modHarbour (h : s.StepStands x) (f : Harbour → Harbour) (alone : ∀ h, (f h).joined = h.joined) (outside : ∀ h, (f h).inCensus = h.inCensus) :
    s.StepStands (x.modHarbour f) := { h with alone := (alone _).trans h.alone, outside := (outside _).trans h.outside }

theorem enter (h : s.StepStands x) (m : ModuleState) : s.StepStands (x.enter m) := by
  have frame := State.enter_only m (List.Subset.refl _) (only_refl _ x)
  exact {
    mem := (frame.same .mem (by decide)).trans h.mem
    committed := (congrArg Job.committed (frame.same .job (by decide))).trans h.committed
    step := (congrArg Job.step (frame.same .job (by decide))).trans h.step
    dataPos := (congrArg Job.dataPos (frame.same .job (by decide))).trans h.dataPos
    svn := (State.enter_svn m x).trans h.svn
    due := (State.enter_resetDue m x).trans h.due
    alone := (congrArg Harbour.joined (frame.same .harbour (by decide))).trans h.alone
    outside := (congrArg Harbour.inCensus (frame.same .harbour (by decide))).trans h.outside }

theorem finish (h : s.StepStands x) (sq cid : Nat) (st : Status) (a b : Nat) : s.StepStands (x.finish sq cid st a b) :=
  h.of_only (State.finish_only sq cid st a b (List.Subset.refl _) (only_refl _ x)) (by decide) (by decide) (by decide) (by decide)

theorem abandonAttempt (h : s.StepStands x) : s.StepStands x.abandonAttempt :=
  h.of_harbour x.abandonAttempt_rest (by decide) (by decide) (by decide) (by rw [x.abandonAttempt_harbour]) (by rw [x.abandonAttempt_harbour])

theorem endRun (h : s.StepStands x) (st : Status) (m : ModuleState) : s.StepStands (x.endRun st m) := by
  have frame := State.endRun_only st m (List.Subset.refl _) (only_refl _ x)
  have boot := x.endRun_boot st m
  exact {
    mem := (frame.same .mem (by decide)).trans h.mem
    committed := (congrArg Job.committed (frame.same .job (by decide))).trans h.committed
    step := (congrArg Job.step (frame.same .job (by decide))).trans h.step
    dataPos := (congrArg Job.dataPos (frame.same .job (by decide))).trans h.dataPos
    svn := (congrArg Boot.svn boot).trans (h.enter m).svn
    due := (congrArg Boot.resetDue boot).trans (h.enter m).due
    alone := (congrArg Harbour.joined (x.endRun_harbour st m)).trans h.alone
    outside := (congrArg Harbour.inCensus (x.endRun_harbour st m)).trans h.outside }

theorem rest (h : s.StepStands x) (st : Status) (halted : Bool) : s.StepStands (x.rest st halted) := by
  have ended := h.endRun st .configured
  refine ended.of_harbour (modHarbour_only _ (List.Subset.refl _) (only_refl _ _)) (by decide) (by decide) (by decide) ?_ ?_
  · simp [State.rest, ended.alone]
  · simp [State.rest, ended.alone]

theorem depart (h : s.StepStands x) : s.StepStands x.depart := by
  have left : Only [.out, .power, .pcie, .log, .tm, .stalls, .harbour, .ports] x ((x.flood (.leave x.harbour.rank)).outOfHarbour false) :=
    State.outOfHarbour_only _ (by decide) (State.flood_only _ (by decide) (only_refl _ x))
  exact (h.of_harbour left (by decide) (by decide) (by decide) h.alone.symm h.outside.symm).enter .configured

theorem beginAttempt (h : s.StepStands x) (t : Table) : s.StepStands (x.beginAttempt t) := by
  have set : s.StepStands (x.attemptSet t) := { h.abandonAttempt with }
  obtain ⟨ts, k, passed⟩ := (x.attemptSet t).passBarriers_over t
  have after : s.StepStands ((x.attemptSet t).passBarriers t) := by
    rw [passed]
    exact { set with }
  have begun := after.enter .running
  rw [State.beginAttempt_eq, if_neg (by simp [begun.alone])]
  exact begun

theorem beginStep (h : s.StepStands x) (t : Table) : s.StepStands (x.beginStep t) :=
  have set : s.StepStands ((x.modJob fun j => { j with attempt := 0 }).modRun fun r =>
    { r with once := [], probe := (x.modJob fun j => { j with attempt := 0 }).needsProbe, outcome := .applied }) := { h with }
  set.beginAttempt t

/-- A RUN_STEPS that waits begins. -/
theorem startRun (h : s.StepStands x) (t : Table) (c : Cmd) : s.StepStands (x.startRun t c) := by
  have opened : s.StepStands (x.runOpened c x.idleTime) :=
    { h.of_only (x.runOpened_rest c x.idleTime) (by decide) (by decide) (by decide) (by decide) with }
  have begun := (opened.modHarbour (fun h => { h with idleFrom := none, halted := false }) (fun _ => rfl) fun _ => rfl).beginStep t
  rw [State.startRun_eq]
  exact begun.of_only (State.runPromised_rest _) (by decide) (by decide) (by decide) (by decide)

theorem nextRun (h : s.StepStands x) (t : Table) : s.StepStands (x.nextRun t) := by
  unfold State.nextRun
  split
  · exact h.rest _ _
  next c _ _ =>
    have ended := h.of_only (State.finishRun_only c .ok (List.Subset.refl _) (only_refl _ x)) (by decide) (by decide) (by decide) (by decide)
    dsimp only
    split
    · exact ended.rest _ _
    next d _ _ => exact ended.startRun t d

theorem lastWait (h : s.StepStands x) (all : Bool) : s.StepStands (x.lastWait all) :=
  h.of_only (State.lastWait_only all (List.Subset.refl _) (only_refl _ x)) (by decide) (by decide) (by decide) (by decide)

theorem slackWaited (h : s.StepStands x) (t : Table) : s.StepStands (x.slackWaited t) := by
  unfold State.slackWaited
  split
  · exact h.lastWait true
  · split
    · exact h.lastWait false
    · exact h

/-- However slack water ends, the step stands. -/
theorem slackEnds (h : s.StepStands x) (t : Table) (early : Status) (lim : Bool) : s.StepStands (x.slackEnds t early lim) := by
  have ended := h.endRun (if lim then .fault else early) .configured
  unfold State.slackEnds
  generalize (if lim then Status.fault else early) = st at ended ⊢
  generalize x.endRun st .configured = y at ended ⊢
  dsimp only
  split
  · exact ended.depart.finish _ _ _ _ _
  · split_ifs
    · exact ended.depart
    · exact ended
    · exact h.rest _ _
    · exact h.rest _ _
    · exact h.nextRun t
    · exact h.beginStep t

theorem closeSlack (h : s.StepStands x) (t : Table) : s.StepStands (x.closeSlack t) := by
  rw [State.closeSlack_eq]
  exact ((h.modRun _).slackWaited t).slackEnds t _ _

theorem afterCommit (h : s.StepStands x) (t : Table) : s.StepStands (x.afterCommit t) := by
  unfold State.afterCommit
  split
  next y deferred =>
    exact h.of_only (State.startDeferred_only (List.Subset.refl _) (only_refl _ x) deferred) (by decide) (by decide) (by decide) (by decide)
  next =>
    unfold State.afterTests
    dsimp only
    rw [if_neg (show ¬ (x.harbour.joined && x.harbour.admitting) = true by simp [h.alone]), if_neg (by simp [h.outside])]
    exact h.closeSlack t

end State.StepStands

/-! ## The end of a commit -/

/-- What a commit that is through has counted. -/
def State.commitCounted (t : Table) (c : Commit) (s : State) : State :=
  let s := s.modJournal fun j => { j with commit := none }
  ((if c.snapDone then s.snapshotDone else s).countTensors t).countStep

/-- What follows a committed step. -/
def State.commitShown (t : Table) (step : Nat) (r : Bytes) (s : State) : State :=
  let s := (s.markPending t step r).modRun fun r => { r with waitUs := 0 }
  let s := if s.harbour.inCensus then s.setEntry s.harbour.rank fun _ => s.ownEntry else s
  let s := s.forwardRecord r
  (s.modHarbour fun h => { h with censusFrom := s.usec }).afterCommit t

theorem State.finishCommit_eq (t : Table) (c : Commit) (s : State) :
    let x := s.commitCounted t c
    let r := c.records.getLast?.getD []
    s.finishCommit t c = (if x.run.outcome.isProbe then x else x.advance (fld r 0x38 8)).commitShown t s.job.step r := rfl

theorem State.countStep_outcome (s : State) : s.countStep.run.outcome = s.run.outcome := by
  unfold State.countStep
  dsimp only
  rw [State.modRun_run]
  dsimp only
  cases outcome : s.run.outcome <;> simp only [State.count_run, outcome]

theorem State.commitCounted_rest (t : Table) (c : Commit) (s : State) :
    Only [.out, .pcie, .cqs, .cmds, .log, .tm, .snap, .run, .journal] s (s.commitCounted t c) := by
  unfold State.commitCounted
  refine State.countStep_only (by decide) (State.countTensors_only t (by decide) ?_)
  have none := modJournal_only (ks := [.out, .pcie, .cqs, .cmds, .log, .tm, .snap, .run, .journal]) (fun j => { j with commit := none })
    (by decide) (only_refl _ s)
  split
  · exact State.snapshotDone_only (by decide) none
  · exact none

theorem State.commitCounted_outcome (t : Table) (c : Commit) (s : State) : (s.commitCounted t c).run.outcome = s.run.outcome := by
  unfold State.commitCounted
  dsimp only
  have cleared := modJournal_only (ks := [.out, .pcie, .cqs, .cmds, .log, .tm, .snap, .journal]) (fun j => { j with commit := none })
    (by decide) (only_refl _ s)
  have snap : Only [.out, .pcie, .cqs, .cmds, .log, .tm, .snap, .journal] s
      (if c.snapDone then (s.modJournal fun j => { j with commit := none }).snapshotDone else s.modJournal fun j => { j with commit := none }) := by
    split
    · exact State.snapshotDone_only (by decide) cleared
    · exact cleared
  rw [State.countStep_outcome, (State.countTensors_only t (by decide) snap).same .run (by decide)]

theorem State.StepStands.commitShown {s x : State} (h : s.StepStands x) (t : Table) (step : Nat) (r : Bytes) :
    s.StepStands (x.commitShown t step r) := by
  have marked := (h.of_only (State.markPending_only t step r (List.Subset.refl _) (only_refl _ x)) (by decide) (by decide) (by decide)
    (by decide)).modRun fun r => { r with waitUs := 0 }
  unfold State.commitShown
  generalize (x.markPending t step r).modRun (fun r => { r with waitUs := 0 }) = y at marked
  dsimp only
  rw [if_neg (by simp [marked.outside])]
  have sent := marked.of_only (State.forwardRecord_only r (List.Subset.refl _) (only_refl _ y)) (by decide) (by decide) (by decide) (by decide)
  exact (sent.modHarbour (fun h => { h with censusFrom := (y.forwardRecord r).usec }) (fun _ => rfl) fun _ => rfl).afterCommit t

/-- A step that has applied its result is committed, and the next one stands. -/
theorem State.finishCommit_commits {s : State} (t : Table) (c : Commit) (applied : s.run.outcome = .applied) (alone : s.harbour.joined = false)
    (outside : s.harbour.inCensus = false) (due : s.boot.resetDue = false) :
    ∃ a : State, a.StepStands (s.finishCommit t c) ∧ a.job.committed = some s.job.step ∧ a.job.step = s.job.step + 1
      ∧ a.job.dataPos = s.job.step + 1 ∧ a.mem = s.mem ∧ a.boot.svn = s.boot.svn := by
  have counted := s.commitCounted_rest t c
  have outcome := (s.commitCounted_outcome t c).trans applied
  rw [State.finishCommit_eq]
  rw [if_neg (by rw [outcome]; decide)]
  generalize s.commitCounted t c = x at counted
  generalize c.records.getLast?.getD [] = r
  have advanced := State.advance_only (fld r 0x38 8) (List.Subset.refl _) (only_refl _ x)
  have job := counted.same .job (by decide)
  have harbour := (advanced.same .harbour (by decide)).trans (counted.same .harbour (by decide))
  have boot := (advanced.same .boot (by decide)).trans (counted.same .boot (by decide))
  have stands : (x.advance (fld r 0x38 8)).StepStands (x.advance (fld r 0x38 8)) :=
    { mem := rfl, committed := rfl, step := rfl, dataPos := rfl, svn := rfl, due := (congrArg Boot.resetDue boot).trans due,
      alone := (congrArg Harbour.joined harbour).trans alone, outside := (congrArg Harbour.inCensus harbour).trans outside }
  refine ⟨_, stands.commitShown t s.job.step r, congrArg (fun j : Job => some j.step) job, congrArg (fun j : Job => j.step + 1) job,
    congrArg (fun j : Job => j.step + 1) job, (advanced.same .mem (by decide)).trans (counted.same .mem (by decide)), congrArg Boot.svn boot⟩

/-! ## The local write, failing flash -/

/-- A commit whose local write is finished. -/
def State.flashed (c : Commit) (s : State) : State := s.modJournal fun j => { j with commit := some { c with flashDone := true } }

/-- The state with the records of its commit written. -/
def State.written (t : Table) (c : Commit) (s : State) : State := (s.appendOwn t c.records).flashed c

theorem State.written_eq (t : Table) (c : Commit) (s : State) : s.written t c = (s.appendOwn t c.records).flashed c := rfl

theorem State.localWritten_eq {s : State} {c : Commit} {t : Table} (table : s.job.table = some t) (commit : s.journal.commit = some c)
    (flash : c.flashDone = false) : s.localWritten = (s.written t c).afterWrite := by
  unfold State.localWritten
  rw [table, commit]
  exact if_neg (by simp [flash])

theorem State.written_journal (t : Table) (c : Commit) (s : State) : ∃ j : Journal, s.written t c = { s with journal := j }
    ∧ j.own = s.journal.own ++ c.records ∧ j.commit = some { c with flashDone := true } := by
  rw [State.written_eq, State.appendOwn_eq]
  generalize compactDue t (s.appended c.records).journal.ownFree = due
  cases due
  · exact ⟨_, rfl, rfl, rfl⟩
  · exact ⟨_, rfl, rfl, rfl⟩

theorem State.dropCommit_flash (s : State) : s.dropCommit.journal.flashOk = s.journal.flashOk := rfl

theorem State.enterFaulted_flash (s : State) : s.enterFaulted.journal.flashOk = s.journal.flashOk := by
  have tests : Only [.out, .freeCtr, .power, .pcie, .cqs, .cmds, .log, .tm, .mem, .stalls, .quays, .snap, .ports, .test] s
      s.darkRestore.abandonSnapshot.abortTests :=
    State.abortTests_only (by decide) (State.abandonSnapshot_only (by decide) (State.darkRestore_only (by decide) (only_refl _ s)))
  have others : Only [.out, .pcie, .cqs, .cmds, .log, .tm, .snap] s.darkRestore.abandonSnapshot.abortTests.dropCommit s.faultEnds := by
    unfold State.faultEnds
    exact State.faultOthers_only (by decide) (State.dropSnapshots_only _ (by decide) (only_refl _ _))
  have ended := State.endRun_only .fault .faulted (List.Subset.refl _) (only_refl _ s.faultEnds)
  rw [State.enterFaulted_eq, State.modHarbour_journal, ended.same .journal (by decide), others.same .journal (by decide), State.dropCommit_flash,
    tests.same .journal (by decide)]

theorem State.moduleFault_flash (s : State) : s.moduleFault.journal.flashOk = s.journal.flashOk := by
  unfold State.moduleFault
  split
  · exact congrArg Journal.flashOk ((State.abortTests_only (List.Subset.refl _) (only_refl _ s)).same .journal (by decide))
  · have drop : Only [.out, .pcie, .cmds, .log, .tm, .run, .stalls, .harbour, .ports] s s.sendFault.abandonAttempt :=
      State.abandonAttempt_only (by decide) (State.sendFault_only (by decide) (only_refl _ s))
    rw [State.enterFaulted_flash, drop.same .journal (by decide)]

theorem State.compact_own (t : Table) (s : State) : ∃ fs, s.compact t false = State.raiseModule 0x0405 fs
    { s with journal := { s.journal with own := compacted t.retained s.journal.own, compacting := false } } := ⟨_, rfl⟩

theorem State.compact_partner (t : Table) (s : State) : ∃ fs, s.compact t true = State.raiseModule 0x0405 fs
    { s with journal := { s.journal with partner := compacted t.retained s.journal.partner } } := ⟨_, rfl⟩

/-- A compaction is reported, whatever journal it leaves. -/
theorem State.withJournal_reported (j : Journal) (fs : List (Nat × Nat × Nat)) (s : State) :
    s.Logged (State.raiseModule 0x0405 fs { s with journal := j }) 0x0405 0 0xFFFF
      ∧ State.Noted { s with journal := j } (State.raiseModule 0x0405 fs { s with journal := j }) :=
  ⟨State.raise_logged 0x0405 srcModule 0xFFFF fs { s with journal := j }, State.raiseModule_noted 0x0405 fs _⟩

/-- What a finished local write comes to. -/
theorem State.written_ends {s y : State} {c : Commit} {t : Table} {j : Journal} (runs : exec .journalWriteComplete s = .next y.afterWrite)
    (only : y = { s with journal := j }) (own : j.own = s.journal.own ++ c.records) (committed : j.commit = some { c with flashDone := true })
    (table : s.job.table = some t) (outside : s.harbour.inCensus = false) :
    (c.ackDue = true → s.ResetSettled → ∃ u, exec .journalWriteComplete s = .next u ∧ u = { s with journal := u.journal }
        ∧ u.journal.own = s.journal.own ++ c.records ∧ u.journal.commit = some { c with flashDone := true })
      ∧ (c.ackDue = false → c.ofStep = false → s.ResetSettled → ∃ u, exec .journalWriteComplete s = .next u
        ∧ u = { s with journal := u.journal } ∧ u.journal.own = s.journal.own ++ c.records ∧ u.journal.commit = none)
      ∧ (c.ackDue = false → c.ofStep = true → s.settled = true → s.transferOpen = false → s.run.outcome = .applied →
        s.harbour.joined = false → s.boot.resetDue = false →
        ∃ u, exec .journalWriteComplete s = .next u ∧ u.job.committed = some s.job.step ∧ u.job.step = s.job.step + 1
          ∧ u.job.dataPos = s.job.step + 1 ∧ u.mem = s.mem ∧ u.boot.svn = s.boot.svn) := by
  have journal : y.journal = j := by rw [only]
  subst journal
  have harbour : y.harbour = s.harbour := by rw [only]
  have job : y.job = s.job := by rw [only]
  have boot : y.boot = s.boot := by rw [only]
  refine ⟨fun owed settled => ?_, fun acked free settled => ?_, fun acked ofStep idle open_ applied alone due => ?_⟩
  · have waits : y.tryCommit = y := by
      unfold State.tryCommit State.commitReady
      rw [committed]
      simp [owed]
    have settledNow : y.ResetSettled := by rw [only]; exact settled
    have ends : y.afterWrite = y := by
      unfold State.afterWrite
      rw [waits]
      exact settles_outside settledNow rfl (by rw [harbour, outside])
    exact ⟨y, runs.trans (congrArg Host.Outcome.next ends), only, own, committed⟩
  · have settledNow : y.ResetSettled := by rw [only]; exact settled
    have ends := State.afterWrite_free (s := y) committed acked (.inr free) (by rw [job, table]) (by rw [harbour, outside]) settledNow
    refine ⟨_, runs.trans (congrArg Host.Outcome.next ends), ?_, own, rfl⟩
    exact congrArg (fun x : State => x.modJournal fun j => { j with commit := none }) only
  · have ready : y.commitReady = true := by
      have quays : y.settled = s.settled := by
        unfold State.settled
        rw [only]
      have transfer : y.transferOpen = s.transferOpen := by rw [only]; rfl
      unfold State.commitReady
      rw [committed]
      simp [acked, quays, transfer, idle, open_]
    have ends : y.tryCommit = y.finishCommit t { c with flashDone := true } := by
      unfold State.tryCommit
      rw [ready, job, table, committed]
      simp [ofStep]
    obtain ⟨a, stands, comm, step, data, mem, svn⟩ := State.finishCommit_commits (s := y) t { c with flashDone := true }
      (by rw [only]; exact applied) (by rw [harbour, alone]) (by rw [harbour, outside]) (by rw [boot, due])
    have after : y.afterWrite = y.finishCommit t { c with flashDone := true } := by
      unfold State.afterWrite
      rw [ends]
      exact settles_outside (by simp [State.ResetSettled, stands.due]) rfl stands.outside
    refine ⟨_, runs.trans (congrArg Host.Outcome.next after), ?_, ?_, ?_, ?_, ?_⟩
    · rw [stands.committed, comm, job]
    · rw [stands.step, step, job]
    · rw [stands.dataPos, data, job]
    · exact stands.mem.trans (mem.trans (by rw [only]))
    · rw [stands.svn, svn, boot]

/-- Settles O55: the local write and its commit, failing flash, compaction. -/
theorem journalWritesCommit : Obligations.JournalWritesCommit := by
  unfold Obligations.JournalWritesCommit
  intro s t table outside
  refine ⟨fun c commit flash => ?_, fun due => ?_, fun compacting => ?_, fun extent due => ?_⟩
  · have runs : exec .journalWriteComplete s = .next s.localWritten := rfl
    rw [State.localWritten_eq table commit flash] at runs
    obtain ⟨j, only, own, committed⟩ := s.written_journal t c
    exact State.written_ends runs only own committed table outside
  · by_cases exists_ : s.mode.jobState = true ∨ s.mode = .quarantined
    · have fails : s.flashFails = s.flashFault := by
        unfold State.flashFails
        rw [if_pos (by simpa using exists_)]
        refine State.settleReset_none ?_
        unfold State.flashFault
        rw [State.moduleFault_boot, State.enter_resetDue]
        exact due
      exact ⟨_, congrArg Host.Outcome.next fails, State.moduleFault_flash _, by rw [if_pos exists_]; exact State.moduleFault_mode _⟩
    · have fails : s.flashFails = s.modJournal fun j => { j with flashOk := false } := by
        unfold State.flashFails
        exact if_neg (by simpa using exists_)
      exact ⟨_, congrArg Host.Outcome.next fails, rfl, by rw [if_neg exists_]; rfl⟩
  · obtain ⟨fs, compacts⟩ := s.compact_own t
    have runs : s.compactNow false = s.compact t false := by
      unfold State.compactNow
      rw [table]
      exact if_pos compacting
    exact ⟨_, congrArg Host.Outcome.next (runs.trans compacts), State.withJournal_reported _ fs s⟩
  · obtain ⟨fs, compacts⟩ := s.compact_partner t
    have runs : s.compactNow true = s.compact t true := by
      unfold State.compactNow
      rw [table]
      exact if_pos (by simp [extent, due])
    exact ⟨_, congrArg Host.Outcome.next (runs.trans compacts), State.withJournal_reported _ fs s⟩

end Sys2Proof.Machine

/-! PROOF. A snapshot drain takes its fragments, and writes that waited go ahead (R201, R214, R216, R338, R339). -/

namespace Sys2Proof.Machine

/-! ## Writes that waited -/

/-- What a drain has counted, and what it still owes. -/
structure State.SameDrain (s t : State) : Prop where
  pend : t.snap.pend = s.snap.pend
  count : t.snap.count = s.snap.count
  setDigest : t.snap.setDigest = s.snap.setDigest

theorem sameDrain_of_snap {s t : State} (snap : t.snap = s.snap) : s.SameDrain t := ⟨by rw [snap], by rw [snap], by rw [snap]⟩

theorem sameDrain_trans {s x t : State} (h : s.SameDrain x) (g : x.SameDrain t) : s.SameDrain t :=
  ⟨g.pend.trans h.pend, g.count.trans h.count, g.setDigest.trans h.setDigest⟩

theorem State.copyFragment_sameDrain (f : Nat × Nat) (s : State) : s.SameDrain (s.copyFragment f) := by
  unfold State.copyFragment
  dsimp only
  exact sameDrain_trans (x := (s.setQuay f.1 fun x => { x with free := x.free - s.copyGranules f.1 f.2 }).modSnap fun x =>
    { x with copies := x.copies ++ [(f.1, f.2, s.fragBytes f)], badCopies := if s.fragPoisoned f then x.badCopies ++ [f] else x.badCopies })
    ⟨rfl, rfl, rfl⟩ (sameDrain_of_snap (by rw [State.count_snap, State.count_snap]))

theorem State.writeGranule_sameDrain (a : Nat) (bs : Bytes) (s : State) : s.SameDrain (s.writeGranule a bs) := by
  have puts : ∀ x : State, x.SameDrain (x.putBytes a bs) := fun x =>
    sameDrain_of_snap ((State.putBytes_only a bs (List.Subset.refl _) (only_refl _ x)).same .snap (by decide))
  unfold State.writeGranule
  dsimp only
  split
  · exact puts s
  · split
    · exact sameDrain_trans (s.copyFragment_sameDrain _) (puts _)
    · exact sameDrain_of_snap ((State.raiseOnce_only _ _ _ _ (List.Subset.refl _) (only_refl _ s)).same .snap (by decide))

theorem State.resumeQuay_sameDrain (q : Nat) (s : State) : s.SameDrain (s.resumeQuay q) := by
  unfold State.resumeQuay
  refine foldl_inv (P := s.SameDrain) (fun y w h => sameDrain_trans h ?_) _ (sameDrain_of_snap rfl)
  dsimp only
  split
  · exact sameDrain_of_snap rfl
  · exact sameDrain_trans (y.writeGranule_sameDrain _ _) (sameDrain_of_snap (State.count_snap _ _ _))

theorem State.drainDone_sameDrain (s : State) : s.SameDrain s.drainDone := by
  have sends : ∀ (x : State) (p : Nat) (m : PartnerMsg), x.SameDrain (x.toPartner p m) := fun x p m =>
    sameDrain_of_snap ((State.toPartner_only p m (List.Subset.refl _) (only_refl _ x)).same .snap (by decide))
  unfold State.drainDone
  split
  · exact sameDrain_of_snap rfl
  · split
    next p _ => exact sameDrain_trans (sends s p _) ⟨rfl, rfl, rfl⟩
    next =>
      dsimp only
      split
      · exact ⟨rfl, rfl, rfl⟩
      next p _ => exact sameDrain_trans (sends s p _) ⟨rfl, rfl, rfl⟩
    next => exact sameDrain_trans (sameDrain_of_snap ((State.drainOut_only 0 _ _ (List.Subset.refl _) (only_refl _ s)).same .snap (by decide))) ⟨rfl, rfl, rfl⟩

/-- Without a commit or a census, nothing follows. -/
theorem State.afterWrite_still {s t : State} (settled : s.ResetSettled) (boot : t.boot = s.boot) (commit : t.journal.commit = none)
    (outside : t.harbour.inCensus = false) : t.afterWrite = t := by
  have waits : t.tryCommit = t := by
    unfold State.tryCommit State.commitReady
    rw [commit]
    rfl
  unfold State.afterWrite
  rw [waits]
  exact settles_outside settled boot outside

/-! ## A fragment goes out -/

/-- The bytes of a fragment that the drain takes: of its copy where one exists. -/
def State.fragmentData (q page : Nat) (s : State) : Bytes :=
  match s.snap.copies.find? fun c => c.1 == q && c.2.1 == page with | none => s.fragBytes (q, page) | some c => c.2.2

/-- Whether the drain takes a fragment from its copy. -/
def State.fragmentCopied (q page : Nat) (s : State) : Bool := (s.snap.copies.find? fun c => c.1 == q && c.2.1 == page).isSome

/-- Whether a line of the fragment was poisoned when it was read. -/
def State.fragmentBad (q page : Nat) (s : State) : Bool :=
  if s.fragmentCopied q page then s.snap.badCopies.contains (q, page) else s.fragPoisoned (q, page)

/-- The fragment goes to the destination of the drain. -/
def State.fragmentSent (q page n dig : Nat) (d : Bytes) (bad copied : Bool) (s : State) : State :=
  let s := if copied then s else s.count (tpAt q 0x00) d.length
  let s := s.drainOut s.snap.imageOff (chunkHead page q n dig ++ d) bad
  match s.drainPort, s.snap.dest with
  | some p, .partner => s.toPartner p (.fragment s.snap.number s.snap.step page q dig d)
  | some p, _ => s.toPartner p (.transfer page q dig d)
  | none, _ => s

/-- The fragment is counted, and owed no more. -/
def State.fragmentGone (q page n len dig : Nat) (copied : Bool) (s : State) : State :=
  let s := if copied then s.setQuay q fun x => { x with free := x.free + n } else s
  s.modSnap fun x =>
    { x with pend := x.pend.filter (· != (q, page)), copies := x.copies.filter (fun c => !(c.1 == q && c.2.1 == page)),
             badCopies := x.badCopies.filter (· != (q, page)),
             drained := x.drained + len, setDigest := (x.setDigest + dig) % m61, count := x.count + 1,
             imageOff := x.imageOff + 32 + len }

theorem State.takeFragment_eq {s : State} {q page : Nat} (free : s.refusedPage .drain false (page * pageSize) 1 = none) {d : Bytes} {dig : Nat}
    (data : s.fragmentData q page = d) (digest : fragDigest s.pinned q page d = dig) : s.takeFragment q page =
      (((s.fragmentSent q page (s.copyGranules q page) dig d (s.fragmentBad q page) (s.fragmentCopied q page)).fragmentGone q page
        (s.copyGranules q page) d.length dig (s.fragmentCopied q page)).resumeQuay q).drainDone := by
  subst digest
  subst data
  exact guarded_free free _

theorem State.fragmentSent_rest (q page n dig : Nat) (d : Bytes) (bad copied : Bool) (s : State) :
    Only [.out, .pcie, .log, .tm, .ports] s (s.fragmentSent q page n dig d bad copied) := by
  unfold State.fragmentSent
  have counted : Only [.out, .pcie, .log, .tm, .ports] s (if copied then s else s.count (tpAt q 0x00) d.length) := by
    split
    · exact only_refl _ s
    · exact State.count_only _ _ (by decide) (only_refl _ s)
  dsimp only
  split
  · exact State.toPartner_only _ _ (by decide) (State.drainOut_only _ _ _ (by decide) counted)
  · exact State.toPartner_only _ _ (by decide) (State.drainOut_only _ _ _ (by decide) counted)
  · exact State.drainOut_only _ _ _ (by decide) counted

theorem State.fragmentGone_rest (q page n len dig : Nat) (copied : Bool) (s : State) :
    Only [.quays, .snap] s (s.fragmentGone q page n len dig copied) := by
  unfold State.fragmentGone
  refine modSnap_only _ (by decide) ?_
  split
  · exact modQuays_only _ (by decide) (only_refl _ s)
  · exact only_refl _ s

theorem State.fragmentGone_counts (q page n len dig : Nat) (copied : Bool) (s : State) :
    (s.fragmentGone q page n len dig copied).snap.pend = s.snap.pend.filter (· != (q, page))
      ∧ (s.fragmentGone q page n len dig copied).snap.count = s.snap.count + 1
      ∧ (s.fragmentGone q page n len dig copied).snap.setDigest = (s.snap.setDigest + dig) % m61 := by
  unfold State.fragmentGone
  cases copied <;> exact ⟨rfl, rfl, rfl⟩

theorem State.fragmentGone_out (q page n len dig : Nat) (copied : Bool) (s : State) : (s.fragmentGone q page n len dig copied).out = s.out :=
  (s.fragmentGone_rest q page n len dig copied).same .out (by decide)

/-! ## Where a fragment goes -/

theorem State.drainOut_data {s : State} {base len sq cid : Nat} (dest : s.snap.dest = .host base len (some sq) (some cid)) (off : Nat) (d : Bytes)
    (bad : Bool) : .commandData sq cid off d bad ∈ (s.drainOut off d bad).out := by
  unfold State.drainOut
  rw [dest]
  simp

theorem State.drainOut_write {s : State} {base len : Nat} {sq cid : Option Nat} (dest : s.snap.dest = .host base len sq cid)
    (plain : ∀ x y, sq = some x → cid = some y → False) (off : Nat) (d : Bytes) (bad : Bool) :
    .hostWrite (base + off) d bad ∈ (s.drainOut off d bad).out := by
  unfold State.drainOut
  rw [dest]
  cases sq with
  | none => simp
  | some x => cases cid with
    | none => simp
    | some y => exact absurd (plain x y rfl rfl) id

/-- What the drain reads of the pile is counted. -/
def State.fragmentRead (q len : Nat) (copied : Bool) (s : State) : State := if copied then s else s.count (tpAt q 0x00) len

theorem State.fragmentRead_rest (q len : Nat) (copied : Bool) (s : State) : Only [.out, .pcie, .log, .tm] s (s.fragmentRead q len copied) := by
  unfold State.fragmentRead
  split
  · exact only_refl _ s
  · exact State.count_only _ _ (List.Subset.refl _) (only_refl _ s)

theorem State.fragmentSent_host {s : State} {base len : Nat} {sq cid : Option Nat} (dest : s.snap.dest = .host base len sq cid) (q page n dig : Nat)
    (d : Bytes) (bad copied : Bool) : s.fragmentSent q page n dig d bad copied =
      (s.fragmentRead q d.length copied).drainOut s.snap.imageOff (chunkHead page q n dig ++ d) bad := by
  have read : (s.fragmentRead q d.length copied).snap = s.snap := (s.fragmentRead_rest q d.length copied).same .snap (by decide)
  unfold State.fragmentRead at read ⊢
  unfold State.fragmentSent
  have out := State.drainOut_only s.snap.imageOff (chunkHead page q n dig ++ d) bad (List.Subset.refl _)
    (only_refl _ (if copied then s else s.count (tpAt q 0x00) d.length))
  dsimp only
  rw [read]
  have none : (State.drainOut s.snap.imageOff (chunkHead page q n dig ++ d) bad (if copied then s else s.count (tpAt q 0x00) d.length)).drainPort
      = none := by
    unfold State.drainPort
    rw [out.same .snap (by decide), read, dest]
  rw [none]

theorem State.drainOut_port {s : State} (away : ∀ base len sq cid, s.snap.dest ≠ .host base len sq cid) (off : Nat) (d : Bytes) (bad : Bool) :
    s.drainOut off d bad = s := by
  unfold State.drainOut
  split
  next dest => exact absurd dest (away _ _ _ _)
  next dest => exact absurd dest (away _ _ _ _)
  next => rfl

theorem State.fragmentSent_partner {s : State} {p : Nat} (dest : s.snap.dest = .partner) (port : s.harbour.partnerPort = some p)
    (up : (s.port p).up = true) (q page n dig : Nat) (d : Bytes) (bad copied : Bool) :
    .link p (.partner (.fragment s.snap.number s.snap.step page q dig d)) ∈ (s.fragmentSent q page n dig d bad copied).out := by
  have rest := s.fragmentRead_rest q d.length copied
  have snap : (s.fragmentRead q d.length copied).snap = s.snap := rest.same .snap (by decide)
  have portNow : (s.fragmentRead q d.length copied).drainPort = some p := by
    unfold State.drainPort
    rw [snap, dest, rest.same .harbour (by decide)]
    exact port
  have upNow : ((s.fragmentRead q d.length copied).port p).up = true := by
    rw [State.port, rest.same .ports (by decide)]
    exact up
  have sent := (State.toPartner_sends upNow (.fragment s.snap.number s.snap.step page q dig d)).2
  have away := State.drainOut_port (s := s.fragmentRead q d.length copied) (fun _ _ _ _ h => by rw [snap, dest] at h; cases h)
    s.snap.imageOff (chunkHead page q n dig ++ d) bad
  unfold State.fragmentRead at snap portNow sent away
  unfold State.fragmentSent
  dsimp only
  rw [snap, away, portNow, snap, dest]
  exact sent

theorem State.fragmentSent_newcomer {s : State} {p : Nat} (dest : s.snap.dest = .newcomer p) (up : (s.port p).up = true) (q page n dig : Nat)
    (d : Bytes) (bad copied : Bool) : .link p (.partner (.transfer page q dig d)) ∈ (s.fragmentSent q page n dig d bad copied).out := by
  have rest := s.fragmentRead_rest q d.length copied
  have snap : (s.fragmentRead q d.length copied).snap = s.snap := rest.same .snap (by decide)
  have portNow : (s.fragmentRead q d.length copied).drainPort = some p := by
    unfold State.drainPort
    rw [snap, dest]
  have upNow : ((s.fragmentRead q d.length copied).port p).up = true := by
    rw [State.port, rest.same .ports (by decide)]
    exact up
  have sent := (State.toPartner_sends upNow (.transfer page q dig d)).2
  have away := State.drainOut_port (s := s.fragmentRead q d.length copied) (fun _ _ _ _ h => by rw [snap, dest] at h; cases h)
    s.snap.imageOff (chunkHead page q n dig ++ d) bad
  unfold State.fragmentRead at snap portNow sent away
  unfold State.fragmentSent
  dsimp only
  rw [snap, away, portNow, snap, dest]
  exact sent

theorem State.fragmentSent_data {s : State} {base len sq cid : Nat} (dest : s.snap.dest = .host base len (some sq) (some cid)) (q page n dig : Nat)
    (d : Bytes) (bad copied : Bool) :
    .commandData sq cid s.snap.imageOff (chunkHead page q n dig ++ d) bad ∈ (s.fragmentSent q page n dig d bad copied).out := by
  rw [State.fragmentSent_host dest]
  refine State.drainOut_data (base := base) (len := len) ?_ _ _ _
  rw [(s.fragmentRead_rest q d.length copied).same .snap (by decide), dest]

theorem State.fragmentSent_write {s : State} {base len : Nat} {sq cid : Option Nat} (dest : s.snap.dest = .host base len sq cid)
    (plain : ∀ x y, sq = some x → cid = some y → False) (q page n dig : Nat) (d : Bytes) (bad copied : Bool) :
    .hostWrite (base + s.snap.imageOff) (chunkHead page q n dig ++ d) bad ∈ (s.fragmentSent q page n dig d bad copied).out := by
  rw [State.fragmentSent_host dest]
  refine State.drainOut_write (len := len) (sq := sq) (cid := cid) ?_ plain _ _ _
  rw [(s.fragmentRead_rest q d.length copied).same .snap (by decide), dest]

/-! ## What taking a fragment leaves -/

/-- A fragment taken: what has gone out, what is counted, and what stands. -/
structure State.FragmentTaken (q page dig : Nat) (z s u : State) : Prop where
  sent : z.out <+: u.out
  pend : u.snap.pend = s.snap.pend.filter (· != (q, page))
  count : u.snap.count = s.snap.count + 1
  setDigest : u.snap.setDigest = (s.snap.setDigest + dig) % m61
  job : u.job = s.job
  boot : u.boot = s.boot
  cmds : u.cmds = s.cmds
  journal : u.journal = s.journal
  harbour : u.harbour = s.harbour

theorem State.fragmentGone_taken {s z : State} (sent : Only [.out, .pcie, .log, .tm, .ports] s z) (q page n len dig : Nat) (copied : Bool) :
    State.FragmentTaken q page dig z s ((z.fragmentGone q page n len dig copied).resumeQuay q).drainDone := by
  have gone := z.fragmentGone_rest q page n len dig copied
  obtain ⟨pend, count, setDigest⟩ := z.fragmentGone_counts q page n len dig copied
  have out := z.fragmentGone_out q page n len dig copied
  have snap : z.snap = s.snap := sent.same .snap (by decide)
  have still := sameDrain_trans ((z.fragmentGone q page n len dig copied).resumeQuay_sameDrain q) (State.drainDone_sameDrain _)
  have rest : Only [.out, .pcie, .log, .tm, .mem, .run, .quays, .snap, .ports] s
      ((z.fragmentGone q page n len dig copied).resumeQuay q).drainDone :=
    State.drainDone_only (by decide) (State.resumeQuay_only q (by decide) (only_trans (only_mono sent (by decide)) (only_mono gone (by decide))))
  have kept := State.drainDone_kept (State.resumeQuay_kept q (kept_refl (z.fragmentGone q page n len dig copied)))
  exact {
    sent := by rw [← out]; exact kept.sent
    pend := by rw [still.pend, pend, snap]
    count := by rw [still.count, count, snap]
    setDigest := by rw [still.setDigest, setDigest, snap]
    job := rest.same .job (by decide)
    boot := rest.same .boot (by decide)
    cmds := rest.same .cmds (by decide)
    journal := rest.same .journal (by decide)
    harbour := rest.same .harbour (by decide) }

/-- An event of the drain takes its fragment, and nothing follows. -/
theorem State.drainFragment_taken {s : State} {q page : Nat} (commit : s.journal.commit = none) (outside : s.harbour.inCensus = false)
    (settled : s.ResetSettled) (next_ : s.nextFragment q = some page) (draining : s.snap.draining = true) (open_ : s.drainOpen = true)
    (free : s.refusedPage .drain false (page * pageSize) 1 = none) {d : Bytes} {dig : Nat} (data : s.fragmentData q page = d)
    (digest : fragDigest s.pinned q page d = dig) :
    State.FragmentTaken q page dig (s.fragmentSent q page (s.copyGranules q page) dig d (s.fragmentBad q page) (s.fragmentCopied q page)) s
      (s.drainFragment q) := by
  have taken := State.fragmentGone_taken (s.fragmentSent_rest q page (s.copyGranules q page) dig d (s.fragmentBad q page) (s.fragmentCopied q page))
    q page (s.copyGranules q page) d.length dig (s.fragmentCopied q page)
  rw [← State.takeFragment_eq free data digest] at taken
  have ends := State.afterWrite_still settled taken.boot (taken.journal ▸ commit) (taken.harbour ▸ outside)
  unfold State.drainFragment
  rw [next_]
  dsimp only
  rw [if_pos (by simp [draining, open_]), ends]
  exact taken

/-! ## Waiting writes whose fragments are taken or copied -/

/-- Every write of a quay that waited has gone ahead. -/
structure State.WritesWent (q : Nat) (m : Mem) (s u : State) : Prop where
  rest : Only [.out, .pcie, .log, .tm, .mem, .quays] s u
  waiting : (u.quay q).waiting = []
  mem : u.mem = m

theorem State.fragOf_congr {s t : State} (job : t.job = s.job) (a : Nat) : t.fragOf a = s.fragOf a := by
  unfold State.fragOf State.pinned
  rw [job]

theorem State.untouched_congr {s t : State} (snap : t.snap = s.snap) (f : Nat × Nat) : t.untouched f = s.untouched f := by
  unfold State.untouched
  rw [snap]

/-- A waiting write whose fragment is no longer owed reaches the pile. -/
theorem State.resumeOne_went {s y : State} {q : Nat} {m : Mem} (h : s.WritesWent q m y) (w : HeldWrite) (quay : (s.fragOf w.addr).1 = q)
    (touched : s.untouched (s.fragOf w.addr) = false) :
    s.WritesWent q (m.write w.addr w.data) ((y.writeGranule w.addr w.data).count (tpAt q 0x50) (y.usec - w.since)) := by
  have frag := State.fragOf_congr (h.rest.same .job (by decide)) w.addr
  have free := State.untouched_congr (h.rest.same .snap (by decide)) (s.fragOf w.addr)
  have writes : y.writeGranule w.addr w.data = y.putBytes w.addr w.data := by
    unfold State.writeGranule
    dsimp only
    rw [frag, free, touched, quay, h.waiting]
    rfl
  rw [writes]
  obtain ⟨put, mem⟩ := y.putBytes_spec w.addr w.data
  have counted := (y.putBytes w.addr w.data).count_noted (tpAt q 0x50) (y.usec - w.since)
  have all := only_trans put.rest (only_mono counted.only (by decide))
  refine ⟨only_trans h.rest (only_mono all (by decide)), ?_, ?_⟩
  · rw [State.quay, all.same .quays (by decide)]
    exact h.waiting
  · rw [counted.mem, mem, h.mem]

theorem State.resumeQuay_went {s : State} {q : Nat} (inside : q < s.quays.length)
    (free : ∀ w ∈ (s.quay q).waiting, (s.fragOf w.addr).1 = q ∧ s.untouched (s.fragOf w.addr) = false) :
    s.WritesWent q ((s.quay q).waiting.foldl (fun m w => m.write w.addr w.data) s.mem) (s.resumeQuay q) := by
  have cleared : s.WritesWent q s.mem (s.setQuay q fun x => { x with waiting := [] }) :=
    ⟨modQuays_only _ (by decide) (only_refl _ s), by rw [State.quay, State.setQuay, State.modQuays_quays, modAt_getD_self _ _ _ _ inside], rfl⟩
  have each : ∀ (l : List HeldWrite) (m : Mem) (y : State), s.WritesWent q m y →
      (∀ w ∈ l, (s.fragOf w.addr).1 = q ∧ s.untouched (s.fragOf w.addr) = false) →
      s.WritesWent q (l.foldl (fun m w => m.write w.addr w.data) m) (l.foldl (fun s w =>
        let f := s.fragOf w.addr
        if s.untouched f && !s.copyRoom f then s.setQuay q fun x => { x with waiting := x.waiting ++ [w] }
        else (s.writeGranule w.addr w.data).count (tpAt q 0x50) (s.usec - w.since)) y) := by
    intro l
    induction l with
    | nil => exact fun m y h _ => h
    | cons w l ih =>
      intro m y h all
      obtain ⟨quay, touched⟩ := all w List.mem_cons_self
      have free : y.untouched (y.fragOf w.addr) = false := by
        rw [State.fragOf_congr (h.rest.same .job (by decide)), State.untouched_congr (h.rest.same .snap (by decide)), touched]
      rw [List.foldl_cons, List.foldl_cons]
      dsimp only
      rw [if_neg (by simp [free])]
      exact ih _ _ (State.resumeOne_went h w quay touched) fun x hx => all x (List.mem_cons_of_mem w hx)
  exact each _ _ _ cleared free

/-- Settles O56: a drain takes a fragment, and waiting writes go ahead. -/
theorem drainTakesFragments : Obligations.DrainTakesFragments := by
  unfold Obligations.DrainTakesFragments
  intro s q commit outside settled
  refine ⟨fun page next_ draining open_ free => ?_, fun idle => ?_, fun inside free => ?_⟩
  · have taken := State.drainFragment_taken commit outside settled next_ draining open_ free (d := s.fragmentData q page) rfl rfl
    refine ⟨_, rfl, taken.pend, taken.count, taken.setDigest, taken.job, taken.boot, taken.cmds, taken.journal, ?_⟩
    split
    next dest => exact taken.sent.subset (State.fragmentSent_data dest _ _ _ _ _ _ _)
    next base len sq cid plain dest =>
      exact taken.sent.subset (State.fragmentSent_write dest plain _ _ _ _ _ _ _)
    next dest =>
      intro p port
      have up : (s.port p).up = true := by
        unfold State.drainOpen State.drainPort at open_
        rw [dest, port] at open_
        exact open_
      exact taken.sent.subset (State.fragmentSent_partner dest port up _ _ _ _ _ _ _)
    next p dest =>
      have up : (s.port p).up = true := by
        unfold State.drainOpen State.drainPort at open_
        rw [dest] at open_
        exact open_
      exact taken.sent.subset (State.fragmentSent_newcomer dest up _ _ _ _ _ _ _)
  · refine congrArg Host.Outcome.next ?_
    unfold State.drainFragment
    rw [idle]
    split <;> rfl
  · have went := State.resumeQuay_went inside free
    have ends := State.afterWrite_still settled (went.rest.same .boot (by decide)) (by rw [went.rest.same .journal (by decide), commit])
      (by rw [went.rest.same .harbour (by decide), outside])
    exact ⟨_, congrArg Host.Outcome.next ends, went.waiting, went.rest.same .snap (by decide), went.mem, went.rest.same .job (by decide),
      went.rest.same .boot (by decide), went.rest.same .cmds (by decide)⟩

end Sys2Proof.Machine

/-! PROOF. What the work of a tide leaves alone: the tides' statuses, the page classes and the roles of the planes. -/

namespace Sys2Proof.Machine

/-- What the work of a tide on the array and the lanes can change, as long as no page refuses it. -/
structure State.TideWork (s t : State) : Prop where
  rest : Only [.out, .pcie, .log, .tm, .mem, .run, .stalls, .quays, .snap] s t
  tides : t.run.tides = s.run.tides
  classes : t.mem.classes = s.mem.classes
  active : ∀ j, (t.stall j).active = (s.stall j).active
  left : ∀ j, (t.stall j).passesLeft = (s.stall j).passesLeft

theorem tideWork_refl (s : State) : s.TideWork s := ⟨only_refl _ s, rfl, rfl, fun _ => rfl, fun _ => rfl⟩

/-- What keeps a part of a stall keeps it in every stall. -/
theorem State.stall_setStall_keeps {α : Type} (g : Stall → α) {f : Stall → Stall} (same : ∀ x, g (f x) = g x) (i j : Nat) (s : State) :
    g ((s.setStall i f).stall j) = g (s.stall j) := by
  rw [State.stall, State.setStall, State.modStalls_stalls, List.getD_eq_getElem?_getD, modAt_getElem?]
  rw [State.stall, List.getD_eq_getElem?_getD]
  split
  · cases s.stalls[j]? with
    | none => rfl
    | some x => exact same x
  · rfl

namespace State.TideWork

variable {s x y : State}

/-! ## The operations of the state -/

theorem of_only {ks : List Part} (h : s.TideWork x) (frame : Only ks x y) (sub : ks ⊆ [.out, .pcie, .log, .tm, .quays, .snap]) : s.TideWork y where
  rest := only_trans h.rest (only_mono frame (List.Subset.trans sub (by decide)))
  tides := (congrArg Run.tides (frame.same .run fun m => absurd (sub m) (by decide))).trans h.tides
  classes := (congrArg Mem.classes (frame.same .mem fun m => absurd (sub m) (by decide))).trans h.classes
  active j := (congrArg (fun l : List Stall => (l.getD j Stall.reset).active) (frame.same .stalls fun m => absurd (sub m) (by decide))).trans (h.active j)
  left j := (congrArg (fun l : List Stall => (l.getD j Stall.reset).passesLeft) (frame.same .stalls fun m => absurd (sub m) (by decide))).trans
    (h.left j)

/-- What writes the run's reports, and memory but for the page classes. -/
theorem of_writes {ks : List Part} (h : s.TideWork x) (frame : Only ks x y) (sub : ks ⊆ [.out, .pcie, .log, .tm, .mem, .run, .quays, .snap])
    (tides : y.run.tides = x.run.tides) (classes : y.mem.classes = x.mem.classes) : s.TideWork y where
  rest := only_trans h.rest (only_mono frame (List.Subset.trans sub (by decide)))
  tides := tides.trans h.tides
  classes := classes.trans h.classes
  active j := (congrArg (fun l : List Stall => (l.getD j Stall.reset).active) (frame.same .stalls fun m => absurd (sub m) (by decide))).trans (h.active j)
  left j := (congrArg (fun l : List Stall => (l.getD j Stall.reset).passesLeft) (frame.same .stalls fun m => absurd (sub m) (by decide))).trans
    (h.left j)

theorem modRun (h : s.TideWork x) (f : Run → Run) (tides : ∀ r, (f r).tides = r.tides := by intro; rfl) : s.TideWork (x.modRun f) :=
  h.of_writes (modRun_only f (List.Subset.refl _) (only_refl _ x)) (by decide) (tides x.run) rfl

theorem setStall (h : s.TideWork x) (i : Nat) (f : Stall → Stall) (active : ∀ z, (f z).active = z.active := by intro; rfl)
    (left : ∀ z, (f z).passesLeft = z.passesLeft := by intro; rfl) : s.TideWork (x.setStall i f) where
  rest := setStall_only i f (by decide) h.rest
  tides := h.tides
  classes := h.classes
  active j := (State.stall_setStall_keeps Stall.active active i j x).trans (h.active j)
  left j := (State.stall_setStall_keeps Stall.passesLeft left i j x).trans (h.left j)

theorem count (h : s.TideWork x) (o n : Nat) : s.TideWork (x.count o n) :=
  h.of_only (State.count_only o n (List.Subset.refl _) (only_refl _ x)) (by decide)

theorem raise (h : s.TideWork x) (code kind index : Nat) (fs : List (Nat × Nat × Nat)) : s.TideWork (x.raise code kind index fs) :=
  h.of_only (State.raise_only code kind index fs (List.Subset.refl _) (only_refl _ x)) (by decide)

theorem raiseKey (h : s.TideWork x) (key : Nat × Nat × Nat) (code kind index : Nat) (fs : List (Nat × Nat × Nat)) :
    s.TideWork (x.raiseKey key code kind index fs) := by
  unfold State.raiseKey
  split
  · exact h
  · exact (h.modRun _).raise _ _ _ _

theorem raiseOnce (h : s.TideWork x) (code kind index : Nat) (fs : List (Nat × Nat × Nat)) : s.TideWork (x.raiseOnce code kind index fs) := by
  unfold State.raiseOnce
  split
  · exact h
  · exact (h.modRun _).raise _ _ _ _

theorem putBytes (h : s.TideWork x) (a : Nat) (bs : Bytes) : s.TideWork (x.putBytes a bs) :=
  h.of_writes (State.putBytes_only a bs (List.Subset.refl _) (only_refl _ x)) (by decide)
    (by rw [(State.putBytes_noted a bs x).run]) (by rw [(State.putBytes_noted a bs x).mem]; rfl)

theorem writeGranule (h : s.TideWork x) (a : Nat) (bs : Bytes) : s.TideWork (x.writeGranule a bs) := by
  unfold State.writeGranule
  dsimp only
  split
  · exact h.putBytes a bs
  · split
    · exact (h.of_only (State.copyFragment_only _ (List.Subset.refl _) (only_refl _ x)) (by decide)).putBytes a bs
    · exact (h.raiseOnce _ _ _ _).of_only (modQuays_only _ (List.Subset.refl _) (only_refl _ _)) (by decide)

theorem memWrite (h : s.TideWork x) (a : Nat) (bs : Bytes) : s.TideWork (x.memWrite a bs) := by
  unfold State.memWrite
  split
  · have wrote := h.of_writes (modMem_only (fun m => m.write a bs) (List.Subset.refl _) (only_refl _ x)) (by decide) rfl rfl
    exact wrote.of_only (State.countWrites_only a bs (List.Subset.refl _) (only_refl _ _)) (by decide)
  · exact foldl_inv (P := s.TideWork) (fun _ _ h => h.writeGranule _ _) _ h

/-! ## Reports, and rows that are written -/

theorem cliffEvent (h : s.TideWork x) (u : Tide) (owner tensor tile : Nat) (c : CliffCause) : s.TideWork (x.cliffEvent u owner tensor tile c) :=
  h.raiseKey _ _ _ _ _

theorem narEvent (h : s.TideWork x) (kind index tensor record row col : Nat) : s.TideWork (x.narEvent kind index tensor record row col) :=
  h.raiseKey _ _ _ _ _

theorem sumCliff (h : s.TideWork x) (g : Bytes) (i inst kind index : Nat) (fs : List (Nat × Nat × Nat)) :
    s.TideWork (x.sumCliff g i inst kind index fs) :=
  h.raiseKey _ _ _ _ _

theorem reportRow (h : s.TideWork x) (u : Tide) (z : Bytes) (row c0 tile : Nat) (accCliff : Bool) (c : ClosedRow) :
    s.TideWork (x.reportRow u z row c0 tile accCliff c) :=
  have only := State.reportRow_only u z row c0 tile accCliff c (List.Subset.refl _) (only_refl _ x)
  h.of_writes only (by decide) (by rw [State.reportRow_runWrote u z row c0 tile accCliff c x]) (congrArg Mem.classes (only.same .mem (by decide)))

theorem putRowAt (h : s.TideWork x) (u : Tide) (z : Bytes) (row r c0 : Nat) (f : Fmt) (codes : List Nat) (scales : List Int) :
    s.TideWork (x.putRowAt u z row r c0 f codes scales) := by
  unfold State.putRowAt
  split
  · exact foldl_inv (P := s.TideWork) (fun _ _ h => (h.memWrite _ _).memWrite _ _) _ h
  · split
    · exact foldl_inv (P := s.TideWork) (fun _ _ h => h.memWrite _ _) _ h
    · exact h.memWrite _ _

theorem putTokenCopy (h : s.TideWork x) (u : Tide) (z : Bytes) (row0 c0 : Nat) (rows : List (List Val)) :
    s.TideWork (x.putTokenCopy u z row0 c0 rows) := by
  unfold State.putTokenCopy
  split
  · exact h
  · exact foldl_inv (P := s.TideWork) (fun _ _ h => foldl_inv (P := s.TideWork) (fun _ _ h => (h.memWrite _ _).memWrite _ _) _ h) _ h

theorem putStats (h : s.TideWork x) (u : Tide) (n row : Nat) (vs : List Val) : s.TideWork (x.putStats u n row vs) := by
  unfold State.putStats
  split
  · exact h
  · exact h
  · dsimp only
    split
    · exact (h.reportRow _ _ _ _ _ _ _).modRun _
    · exact (h.reportRow _ _ _ _ _ _ _).memWrite _ _

theorem frameWrite (h : s.TideWork x) (pages : List Nat) (off : Nat) (bs : Bytes) : s.TideWork (x.frameWrite pages off bs) :=
  foldl_inv (P := s.TideWork) (fun _ _ h => h.memWrite _ _) _ h

theorem putCheckpoint (h : s.TideWork x) (u : Tide) (z : Bytes) (row c0 : Nat) (c : ClosedRow) : s.TideWork (x.putCheckpoint u z row c0 c) := by
  unfold State.putCheckpoint
  split
  · exact h
  · split
    · exact h
    · refine foldl_inv (P := s.TideWork) (fun _ _ h => ?_) _ h
      dsimp only
      split
      · exact (h.frameWrite _ _ _).frameWrite _ _ _
      · exact h.frameWrite _ _ _

theorem putValue (h : s.TideWork x) (u : Tide) (z : Bytes) (row c0 : Nat) (codes : List Nat) : s.TideWork (x.putValue u z row c0 codes) := by
  unfold State.putValue
  refine foldl_inv (P := s.TideWork) (fun _ _ h => ?_) _ h
  dsimp only
  split
  · exact (((h.memWrite _ _).memWrite _ _).memWrite _ _).reportRow _ _ _ _ _ _ _
  · exact h.memWrite _ _

theorem putOut (h : s.TideWork x) (u : Tide) (z : Bytes) (row c0 tile : Nat) (accCliff : Bool) (c : ClosedRow) :
    s.TideWork (x.putOut u z row c0 tile accCliff c) := by
  unfold State.putOut
  split
  · split
    · exact h
    · dsimp only
      split
      · exact (h.putRowAt _ _ _ _ _ _ _ _).reportRow _ _ _ _ _ _ _
      · exact (h.putValue _ _ _ _ _).reportRow _ _ _ _ _ _ _
  · exact ((h.putRowAt _ _ _ _ _ _ _ _).putCheckpoint _ _ _ _ _).reportRow _ _ _ _ _ _ _

theorem putVals (h : s.TideWork x) (u : Tide) (z : Bytes) (row c0 tile : Nat) (adj : TensorStat → TensorStat) (vs : List Val) :
    s.TideWork (x.putVals u z row c0 tile adj vs) := h.putOut _ _ _ _ _ _ _

/-! ## Lane chains and expert outputs -/

theorem keepLanes (h : s.TideWork x) (i : Nat) (a : ChainRun) : s.TideWork (x.keepLanes i a) := h.setStall _ _

theorem joinRow (h : s.TideWork x) (u : Tide) (z : Bytes) (row c0 : Nat) (ch : List LaneStep) (vals : List Val) (pre : TensorStat) :
    s.TideWork (x.joinRow u z row c0 ch vals pre).2 := by
  unfold State.joinRow
  split
  · exact h
  · dsimp only
    split
    · exact h.modRun (fun r => { r with rowParts := _ })
    · exact h.modRun (fun r => { r with rowParts := _ })

theorem chainRow (h : s.TideWork x) (u : Tide) (z : Bytes) (row c0 : Nat) (alpha : Int) (ch : List LaneStep) (accs : List Acc) :
    s.TideWork (x.chainRow u z row c0 alpha ch accs).2 := by
  unfold State.chainRow
  have joined := h.joinRow u z row c0 ch (accs.map (accVal alpha)) (preStat alpha (x.promoted z) accs)
  dsimp only
  split
  · exact h
  · split
    next y e =>
      rw [e] at joined
      exact joined
    next p y e =>
      rw [e] at joined
      exact ((joined.putStats _ _ _ _).keepLanes _ _).count _ _

theorem gateOut (h : s.TideWork x) (u : Tide) (z : Bytes) (a : Admit) (c0 tile : Nat) (vs : List Val) (pre : TensorStat) :
    s.TideWork (x.gateOut u z a c0 tile vs pre) := by
  unfold State.gateOut
  dsimp only
  split
  · exact h.modRun _
  · exact (h.modRun _).putVals _ _ _ _ _ _ _

theorem closeExpertRow (h : s.TideWork x) (u : Tide) (z : Bytes) (row c0 tile : Nat) (alpha : Int) (ch : List LaneStep) (accs : List Acc) :
    s.TideWork (x.closeExpertRow u z row c0 tile alpha ch accs) := by
  unfold State.closeExpertRow
  lift_lets
  intro cap y
  have first : s.TideWork y := by
    unfold y
    split
    · exact foldl_inv (P := s.TideWork) (fun _ _ h => h.putVals _ _ _ _ _ _ _) _ h
    · exact h
  clear_value y
  split
  · exact first
  next a _ =>
    have chained := first.chainRow u z row c0 alpha ch accs
    split
    next w e =>
      rw [e] at chained
      exact chained
    next p w e =>
      rw [e] at chained
      exact chained.gateOut _ _ _ _ _ _ _

theorem closeOneRow (h : s.TideWork x) (u : Tide) (z : Bytes) (row c0 tile : Nat) (alpha : Int) (ch : List LaneStep) (accs : List Acc) :
    s.TideWork (x.closeOneRow u z row c0 tile alpha ch accs).2 := by
  unfold State.closeOneRow
  dsimp only
  have chained := h.chainRow u z row c0 alpha ch accs
  split
  · exact h
  · split
    · exact h.putOut _ _ _ _ _ _ _
    · split
      next y e =>
        rw [e] at chained
        exact chained
      next p y e =>
        rw [e] at chained
        exact chained.putVals _ _ _ _ _ _ _

theorem putCopies (h : s.TideWork x) (u : Tide) (z : Bytes) (row0 : Nat) (rows : List (Nat × List Val)) : s.TideWork (x.putCopies u z row0 rows) := by
  unfold State.putCopies
  refine foldl_inv (P := s.TideWork) (fun _ _ h => ?_) _ h
  dsimp only
  split
  · exact h
  · exact h.putTokenCopy _ _ _ _ _

theorem closeToTensor (h : s.TideWork x) (u : Tide) (z : Bytes) (row0 c0 tile : Nat) (alpha : Int) (ch : List LaneStep) (accs : List (List Acc)) :
    s.TideWork (x.closeToTensor u z row0 c0 tile alpha ch accs) := by
  have rows (l : List (List Acc × Nat)) : ∀ (o : List (Nat × List Val)) (y : State), s.TideWork y →
      s.TideWork (l.foldl (fun (a : List (Nat × List Val) × State) p =>
        let o := a.2.closeOneRow u z (row0 + p.2) c0 tile alpha ch p.1
        (a.1 ++ [o.1], o.2)) (o, y)).2 := by
    induction l with
    | nil => exact fun _ _ h => h
    | cons p l ih => exact fun o y h => ih _ _ (h.closeOneRow _ _ _ _ _ _ _ _)
  unfold State.closeToTensor
  dsimp only
  split
  · exact foldl_inv (P := s.TideWork) (fun _ _ h => h.closeExpertRow _ _ _ _ _ _ _ _) _ h
  · exact (rows _ [] x h).putCopies _ _ _ _

end State.TideWork

/-! ## Contributions to a region -/

/-- Every location of a region that takes contributions may be written. -/
def State.RegionFree (t : Table) (g : Nat) (s : State) : Prop :=
  ∀ loc, t.carries (t.tide g) loc = true → s.refusedPage .quayUnit true (t.regionAddr (t.tide g) loc) (locSize (t.tide g)) = none

namespace State.TideWork

variable {s x y : State}

theorem setRegion (h : s.TideWork x) (i inst : Nat) (f : Region → Region) : s.TideWork (x.setRegion i inst f) := h.modRun _

theorem applyAdd (h : s.TideWork x) (t : Table) (i inst loc : Nat) (c : Contribution) : s.TideWork (x.applyAdd t i inst loc c) := by
  unfold State.applyAdd
  split
  · exact h
  next rg _ =>
    lift_lets
    intro g due a q n b excess old new y1 y2 y3 y4
    have reported : s.TideWork y4 := by
      have added : s.TideWork y3 := (((h.memWrite _ _).count _ _).setRegion _ _ _).modRun _
      unfold y4
      clear_value y3
      split
      · exact added.sumCliff _ _ _ _ _ _
      · exact added
    clear_value y4
    split
    · exact reported
    · split
      · exact reported.setRegion _ _ _
      · exact reported

theorem regionAdd (h : s.TideWork x) {t : Table} {i : Nat} (free : s.RegionFree t i) (inst loc : Nat) (c : Contribution) :
    s.TideWork (x.regionAdd t i inst loc c) := by
  unfold State.regionAdd
  split
  · exact h
  next carries =>
    split
    · exact h.modRun _
    · split
      · rw [State.guarded_free ((State.refusedPage_congr h.classes _ _ _ _).trans (free loc (by simpa using carries)))]
        exact h.applyAdd _ _ _ _ _
      · exact h.setRegion _ _ _

theorem closeToRegion (h : s.TideWork x) (u : Tide) {g : Nat} (free : s.RegionFree u.t g) (row0 c0 tile : Nat) (alpha : Int)
    (accs : List (List Acc)) : s.TideWork (x.closeToRegion u g row0 c0 tile alpha accs) := by
  unfold State.closeToRegion
  refine foldl_inv (P := s.TideWork) (fun _ p h => foldl_inv (P := s.TideWork) (fun y q h => ?_) _ h) _ h
  lift_lets
  intro loc c y1 y2
  have shared : s.TideWork y1 := by
    unfold y1
    split
    · exact (h.count _ _).sumCliff _ _ _ _ _ _
    · exact h
  have noted : s.TideWork y2 := by
    unfold y2
    clear_value y1
    split
    · exact shared.narEvent _ _ _ _ _ _
    · exact shared
  exact noted.regionAdd free _ _ _

/-- A tile that closes, into a tensor or a region that takes it. -/
theorem closeTile (h : s.TideWork x) (u : Tide) (free : pToRegion u.bytes = true → s.RegionFree u.t (pRegion u.bytes)) (row0 c0 tile : Nat)
    (resident : Bool) (accs : List (List Acc)) : s.TideWork (x.closeTile u row0 c0 tile resident accs) := by
  unfold State.closeTile
  lift_lets
  intro r alpha fixed lost y
  have reported : s.TideWork y := by
    unfold y
    split
    · exact h.cliffEvent _ _ _ _ _
    · exact h
  clear_value y
  split
  next region => exact reported.closeToRegion u (free region) _ _ _ _ _
  next =>
    split
    · exact reported
    · exact reported.closeToTensor _ _ _ _ _ _ _ _

/-! ## PRODUCT -/

theorem reportAdds (h : s.TideWork x) (u : Tide) (row col : Nat) (z : Reduced) : s.TideWork (x.reportAdds u row col z) := by
  unfold State.reportAdds
  lift_lets
  intro y
  have counted : s.TideWork y := by
    unfold y
    split
    · exact h
    · exact h.count _ _
  refine foldl_inv (P := s.TideWork) (fun _ n h => ?_) _ counted
  split
  · exact h
  · exact (h.count _ _).narEvent _ _ _ _ _ _
  · split
    · exact (h.count _ _).cliffEvent _ _ _ _ _
    · exact h.cliffEvent _ _ _ _ _

theorem keepStore (h : s.TideWork x) (u : Tide) (p : StorePart) (n : Nat) (bs : List Block) : s.TideWork (x.keepStore u p n bs) := h.setStall _ _

theorem storeRows (h : s.TideWork x) (u : Tide) (z : Bytes) (row : Nat) : s.TideWork (x.storeRows u z row) := h.keepStore _ _ _ _

theorem keepLaneRow (h : s.TideWork x) (u : Tide) (p : StorePart) (n : Nat) (vs : List Val) : s.TideWork (x.keepLaneRow u p n vs) :=
  h.keepStore _ _ _ _

theorem loadPlane (h : s.TideWork x) (k : Nat) (u : Tide) (p : Pass) : s.TideWork (x.loadPlane k u p) :=
  ((h.keepStore _ _ _ _).keepStore _ _ _ _).setStall _ _

theorem setTile (h : s.TideWork x) (i o inst : Nat) (f : Tile → Tile) : s.TideWork (x.setTile i o inst f) := h.setStall _ _

theorem addTile (h : s.TideWork x) (i : Nat) (z : Tile) : s.TideWork (x.addTile i z) := h.setStall _ _

theorem reportPass (h : s.TideWork x) (u : Tide) (z : Bytes) (p : Pass) (out : List (List Reduced)) : s.TideWork (x.reportPass u z p out) := by
  unfold State.reportPass
  lift_lets
  intro d y1 y2
  have counted : s.TideWork y2 := by
    have products : s.TideWork y1 := h.count _ _
    unfold y2
    clear_value y1
    split
    · exact products
    · exact products.count _ _
  exact foldl_inv (P := s.TideWork) (fun _ _ h => foldl_inv (P := s.TideWork) (fun _ _ h => h.reportAdds _ _ _ _) _ h) _ counted

theorem closeOwned (h : s.TideWork x) (u : Tide) (free : pToRegion u.bytes = true → s.RegionFree u.t (pRegion u.bytes)) (row0 col0 : Nat)
    (accs : List (List Acc)) : s.TideWork (x.closeOwned u row0 col0 accs) := by
  unfold State.closeOwned
  lift_lets
  intro o res
  split
  · exact h.closeTile u free _ _ _ _ _
  · intro key ps mine
    split
    · exact h.setStall _ _
    · intro phi whole lost cause y1 y2
      have merged : s.TideWork y2 := by
        have dropped : s.TideWork y1 := h.setStall _ _
        unfold y2
        clear_value y1
        split
        · exact dropped.cliffEvent _ _ _ _ _
        · exact dropped
      exact merged.closeTile u free _ _ _ _ _

/-- One pass over the plane that serves it. -/
theorem runPass (h : s.TideWork x) (u : Tide) (free : pToRegion u.bytes = true → closesTile u.bytes = true → s.RegionFree u.t (pRegion u.bytes))
    (p : Pass) : s.TideWork (x.runPass u p) := by
  unfold State.runPass
  extract_lets r o cur
  split
  · exact h
  next z _ =>
    lift_lets
    intro y1 out accs y2
    have reported : s.TideWork y2 := by
      have stored : s.TideWork y1 := by
        unfold y1
        split
        · exact h.storeRows _ _ _
        · exact h
      exact stored.reportPass _ _ _ _
    clear_value y2
    split
    next closes => exact (reported.closeOwned u (fun r => free r (Bool.and_eq_true_iff.mp closes).2) _ _ _).setTile _ _ _ _
    next => exact reported.setTile _ _ _ _

theorem passesEnd (h : s.TideWork x) (u : Tide) : s.TideWork (x.passesEnd u) := by
  unfold State.passesEnd
  split
  · exact h.setTile _ _ _ _
  · exact h

/-! ## The other kinds -/

theorem startClose (h : s.TideWork x) (u : Tide) (free : pToRegion u.bytes = true → s.RegionFree u.t (pRegion u.bytes)) :
    s.TideWork (x.startClose u) := by
  unfold State.startClose
  dsimp only
  split
  · exact h
  · exact (h.closeOwned u free _ _ _).setTile _ _ _ _

theorem startLoad (h : s.TideWork x) (u : Tide) : s.TideWork (x.startLoad u) := by
  unfold State.startLoad
  lift_lets
  intro r g phi rg cliffs blocks cur out accs y
  have reported : s.TideWork y := foldl_inv (P := s.TideWork) (fun _ _ h => foldl_inv (P := s.TideWork) (fun _ _ h => h.reportAdds _ _ _ _) _ h) _ h
  clear_value y
  split
  · exact reported.addTile _ _
  · exact reported.setTile _ _ _ _

theorem startGather (h : s.TideWork x) (u : Tide) : s.TideWork (x.startGather u) := h.addTile _ _

theorem laneRowStep (h : s.TideWork x) (u : Tide) (z : Bytes) (ch : List LaneStep) (row : Nat) : s.TideWork (x.laneRowStep u z ch row).2 := by
  unfold State.laneRowStep
  dsimp only
  exact (((foldl_inv (P := s.TideWork) (fun _ _ h => h.keepLaneRow _ _ _ _) _ h).putStats _ _ _ _).keepLanes _ _).keepLaneRow _ _ _ _
    |>.putVals _ _ _ _ _ _ _

theorem startLane (h : s.TideWork x) (u : Tide) : s.TideWork (x.startLane u) := by
  unfold State.startLane
  dsimp only
  split
  · exact h
  next z _ =>
    have rows (ch : List LaneStep) (l : List Nat) : ∀ (o : List (List Val)) (y : State), s.TideWork y →
        s.TideWork (l.foldl (fun (a : List (List Val) × State) i =>
          let p := a.2.laneRowStep u z ch (lRowBase u.bytes + i)
          (a.1 ++ [p.1], p.2)) (o, y)).2 := by
      induction l with
      | nil => exact fun _ _ h => h
      | cons i l ih => exact fun o y h => ih _ _ (h.laneRowStep _ _ _ _)
    exact (rows _ _ [] _ (h.count _ _)).putTokenCopy _ _ _ _ _

theorem copyRow (h : s.TideWork x) (u : Tide) (a b : Bytes) (row : Option Nat) (out : Nat) : s.TideWork (x.copyRow u a b row out) := by
  unfold State.copyRow
  dsimp only
  split
  · exact h.putRowAt _ _ _ _ _ _ _ _
  · split
    · exact h.putRowAt _ _ _ _ _ _ _ _
    · exact (h.putRowAt _ _ _ _ _ _ _ _).reportRow _ _ _ _ _ _ _

theorem startRoute (h : s.TideWork x) (u : Tide) : s.TideWork (x.startRoute u) := by
  unfold State.startRoute
  dsimp only
  split
  · unfold State.putGathered
    split
    · exact foldl_inv (P := s.TideWork) (fun _ _ h => h.copyRow _ _ _ _ _) _ (foldl_inv (P := s.TideWork) (fun _ _ h => (h.modRun _).count _ _) _ h)
    · exact foldl_inv (P := s.TideWork) (fun _ _ h => (h.modRun _).count _ _) _ h
  · exact h

theorem readBatch (h : s.TideWork x) (u : Tide) : s.TideWork (x.readBatch u) := by
  unfold State.readBatch
  split
  · exact h
  · split
    · exact h
    next b _ =>
      unfold State.checkBatch
      split
      · exact h
      · split
        · exact h.modRun _
        · exact (h.of_only (State.violation_noted 7 none 0 0 b.addr x).only (by decide)).modRun _

theorem countReads (h : s.TideWork x) (u : Tide) : s.TideWork (x.countReads u) :=
  foldl_inv (P := s.TideWork) (fun _ _ h => foldl_inv (P := s.TideWork) (fun _ _ h => h.count _ _) _ h) _ h

end State.TideWork

end Sys2Proof.Machine

/-! PROOF. Tides are issued, started and completed, and the planes loaded (R74, R80, R138, R165, R213, R240). -/

namespace Sys2Proof.Machine

/-! ## Notes leave what the sequencer reads -/

/-- A state that differs from another by notes and by what a step raises once. -/
theorem State.Once.is {s t : State} (h : s.Once t) : t =
    { s with out := t.out, pcie := t.pcie, log := t.log, tm := t.tm, run := { s.run with once := t.run.once } } := by
  have same := fun k hk => h.but.rest.same k hk
  have run : t.run = { s.run with once := t.run.once } := by
    conv_lhs => rw [h.run, h.stats]
  cases t
  congr 1
  · exact same .pending (by decide)
  · exact same .freeCtr (by decide)
  · exact same .usec (by decide)
  · exact same .power (by decide)
  · exact same .boot (by decide)
  · exact same .sqs (by decide)
  · exact same .cqs (by decide)
  · exact same .sqTurn (by decide)
  · exact same .cmds (by decide)
  · exact same .job (by decide)
  · exact same .mem (by decide)
  · exact same .stalls (by decide)
  · exact same .quays (by decide)
  · exact same .snap (by decide)
  · exact same .journal (by decide)
  · exact same .harbour (by decide)
  · exact same .ports (by decide)
  · exact same .test (by decide)

theorem once_refl (s : State) : s.Once s := (noted_refl s).once

theorem State.conflicts_once (t : Table) (i : Nat) (s : State) : s.Once (s.conflicts t i) := by
  unfold State.conflicts
  refine foldl_inv (P := s.Once) (fun y u h => once_trans h ?_) _ (once_refl s)
  split
  · exact once_refl y
  next x _ =>
    split
    · exact once_refl y
    · have marked : y.Once (y.modRun fun r => { r with once := r.once ++ [(0x30202, u.idx, u.inst)] }) :=
        ⟨notedBut_of_only (modRun_only _ (by decide) (only_refl _ y)), rfl, rfl⟩
      exact once_trans (once_trans marked (State.count_noted _ _ _).once) (State.raiseOnce_once _ _ _ _ _)

theorem State.Once.nextStart {s y : State} (h : s.Once y) (t : Table) (i : Nat) : y.nextStart t i = s.nextStart t i := by
  rw [h.is]
  rfl

theorem State.Once.reach {s y : State} (h : s.Once y) (w : Tide) : y.reach w = s.reach w := by
  rw [h.is]
  rfl

theorem State.storeEcc_noted (i off : Nat) {ecc : EccOutcome} (mends : ecc ≠ .uncorrectable) (s : State) : s.Noted (s.storeEcc i ecc off) := by
  cases ecc with
  | clean => exact noted_refl s
  | corrected => exact noted_trans (s.count_noted _ _) (State.raise_noted _ _ _ _ _)
  | uncorrectable => exact absurd rfl mends

/-- Two bits of a word of the store in error are a module fault. -/
theorem State.storeEcc_faults (i off : Nat) (s : State) :
    (s.storeEcc i .uncorrectable off).mode = .faulted ∧ (s.storeEcc i .uncorrectable off).boot = (s.enter .faulted).boot := by
  have raised := s.raise_noted 0x0205 srcStall i [(0x20, 1, 0xFF), (0x28, 8, off)]
  refine ⟨State.moduleFault_mode _, ?_⟩
  unfold State.storeEcc
  dsimp only
  rw [State.moduleFault_boot]
  exact State.enter_boot_congr .faulted raised.boot

/-- A module fault is not followed by a reset that was not due. -/
theorem State.faulted_stays {s y : State} (due : s.boot.resetDue = false) (boot : y.boot = (s.enter .faulted).boot) : y.settleReset = y :=
  State.settleReset_none (by rw [boot, State.enter_resetDue, due])

theorem State.onTides_eq {s : State} {t : Table} (table : s.job.table = some t) (run : s.tidesRun = true) (f : Table → State → State) :
    s.onTides f = f t s := by
  unfold State.onTides
  rw [table]
  exact if_pos run

/-! ## A tide that starts -/

/-- An issued tide has a status. -/
theorem State.issuedOf_status {s : State} {t : Table} {i : Nat} {w : Tide} (mem : w ∈ s.issuedOf t i) :
    w.t = t ∧ w.stall = i ∧ ∃ st, s.tideStatus? w.idx w.inst = some st := by
  obtain ⟨u, hu, rfl⟩ := List.mem_map.mp mem
  obtain ⟨listed, -⟩ := List.mem_filter.mp hu
  obtain ⟨known, stall⟩ := List.mem_filter.mp listed
  refine ⟨rfl, beq_iff_eq.mp stall, ?_⟩
  have found : (s.run.tides.find? fun v => v.tide == u.tide && v.inst == u.inst).isSome := by
    rw [List.find?_isSome]
    exact ⟨u, known, by simp⟩
  obtain ⟨v, hv⟩ := Option.isSome_iff_exists.mp found
  exact ⟨v.status, by rw [State.tideStatus?, hv]; rfl⟩

theorem State.nextStart_status {s : State} {t : Table} {i : Nat} {w : Tide} (next_ : s.nextStart t i = some w) :
    w.t = t ∧ w.stall = i ∧ ∃ st, s.tideStatus? w.idx w.inst = some st :=
  State.issuedOf_status (List.mem_of_find?_eq_some next_)

/-- What a tide that has run leaves of the module. -/
structure State.TideRan (s t : State) : Prop where
  rest : Only [.out, .pcie, .log, .tm, .mem, .run, .stalls, .quays, .snap] s t
  tides : t.run.tides = s.run.tides

theorem State.TideWork.ran {s t : State} (h : s.TideWork t) : s.TideRan t := ⟨h.rest, h.tides⟩

theorem tideRan_trans {s x t : State} (h : s.TideRan x) (g : x.TideRan t) : s.TideRan t := ⟨only_trans h.rest g.rest, g.tides.trans h.tides⟩

theorem State.servePass_ran {s : State} (u : Tide)
    (free : pToRegion u.bytes = true → closesTile u.bytes = true → s.RegionFree u.t (pRegion u.bytes)) (k : Nat) :
    s.TideRan (s.servePass u k) := by
  unfold State.servePass
  lift_lets
  intro l y
  have turned : s.TideRan y := ⟨setStall_only _ _ (by decide) (only_refl _ s), rfl⟩
  have freeNow : pToRegion u.bytes = true → closesTile u.bytes = true → y.RegionFree u.t (pRegion u.bytes) := free
  clear_value y
  split
  · exact turned
  next p _ => exact tideRan_trans turned (((tideWork_refl y).runPass u freeNow p).passesEnd u).ran

theorem State.RegionFree.congr {s t : State} (classes : t.mem.classes = s.mem.classes) {tb : Table} {g : Nat} (h : s.RegionFree tb g) :
    t.RegionFree tb g := fun loc carries => (State.refusedPage_congr classes _ _ _ _).trans (h loc carries)

theorem State.startProduct_ran {s : State} (u : Tide)
    (free : pToRegion u.bytes = true → closesTile u.bytes = true → s.RegionFree u.t (pRegion u.bytes)) : s.TideRan (s.startProduct u) := by
  have opened : s.TideWork (if opensTile u.bytes then s.addTile u.stall (newTile u (pTile u.bytes) 0 .opened []) else s) := by
    split
    · exact (tideWork_refl s).addTile _ _
    · exact tideWork_refl s
  unfold State.startProduct
  exact tideRan_trans opened.ran (State.servePass_ran u (fun r c => (free r c).congr opened.classes) 0)

/-- The regions that a closing tide adds into take what it adds. -/
def State.ClosesFree (u : Tide) (s : State) : Prop :=
  pToRegion u.bytes = true → (rKind u.bytes = .product ∧ closesTile u.bytes = true) ∨ rKind u.bytes = .close → s.RegionFree u.t (pRegion u.bytes)

/-- The work of a tide by its kind. -/
def State.startKind (u : Tide) (s : State) : State :=
  match rKind u.bytes with
  | .product => s.startProduct u
  | .close => s.startClose u
  | .lane => s.startLane u
  | .partialLoad => s.startLoad u
  | .gatherOpen => s.startGather u
  | .route => s.startRoute u
  | _ => s

theorem State.startKind_ran {s : State} {u : Tide} (free : s.ClosesFree u) : s.TideRan (s.startKind u) := by
  unfold State.startKind
  split
  next kind => exact State.startProduct_ran u fun r c => free r (.inl ⟨kind, c⟩)
  next kind => exact ((tideWork_refl s).startClose u fun r => free r (.inr kind)).ran
  next => exact ((tideWork_refl s).startLane u).ran
  next => exact ((tideWork_refl s).startLoad u).ran
  next => exact ((tideWork_refl s).startGather u).ran
  next => exact ((tideWork_refl s).startRoute u).ran
  next => exact (tideWork_refl s).ran

/-- A tide reads its batch and its operands. -/
def State.tideRead (u : Tide) (s : State) : State := (s.readBatch u).countReads u

/-- A tide stands on its unit. -/
def State.tideOn (u : Tide) (s : State) : State :=
  let shown := s.shownInst u
  (s.setTide u.idx u.inst .started).setStall u.stall fun x => { x with state := 2, lastRec := some u.idx, lastInst := shown }

theorem State.runTide_eq (u : Tide) (s : State) : s.runTide u = (((s.tideRead u).tideOn u).repack u).startKind u := rfl

theorem State.readBatch_groups (u : Tide) (s : State) : (s.readBatch u).run.groups = s.run.groups := by
  unfold State.readBatch
  split
  · rfl
  · split
    · rfl
    next b _ =>
      unfold State.checkBatch
      split
      · rfl
      · rw [State.modRun_run]
        split
        · rfl
        · have run := (State.violation_noted 7 none 0 0 b.addr s).run
          have groups := congrArg Run.groups run
          exact groups

theorem State.recomputes_congr {s t : State} (groups : t.run.groups = s.run.groups) (u : Tide) : t.recomputes u = s.recomputes u := by
  unfold State.recomputes
  rw [State.group?_congr groups]

/-- A tide that nothing refuses runs, and is started. -/
theorem State.runTide_runs {s : State} {u : Tide} {st : TideStatus} (known : s.tideStatus? u.idx u.inst = some st) (plain : s.recomputes u = false)
    (free : s.ClosesFree u) : Only [.out, .pcie, .log, .tm, .mem, .run, .stalls, .quays, .snap] s (s.runTide u)
      ∧ (s.runTide u).tideStatus? u.idx u.inst = some .started := by
  have read : s.TideWork (s.tideRead u) := ((tideWork_refl s).readBatch u).countReads u
  have groups : (s.tideRead u).run.groups = s.run.groups :=
    (congrArg Run.groups ((State.countReads_only u (List.Subset.refl _) (only_refl _ (s.readBatch u))).same .run (by decide))).trans
      (s.readBatch_groups u)
  rw [State.runTide_eq]
  generalize s.tideRead u = x at read groups
  have on : Only [.run, .stalls] x (x.tideOn u) := setStall_only _ _ (by decide) (State.setTide_only _ _ _ (by decide) (only_refl _ x))
  have same : (x.tideOn u).run.groups = s.run.groups := groups
  have still : (x.tideOn u).repack u = x.tideOn u := by
    unfold State.repack
    rw [State.recomputes_congr same, plain]
    rfl
  have status : (x.tideOn u).tideStatus? u.idx u.inst = some .started := by
    have was : x.tideStatus? u.idx u.inst = some st := by
      rw [State.tideStatus?, read.tides]
      exact known
    have now := State.tideStatus_setTide u.idx u.inst u.idx u.inst .started x
    rw [was] at now
    exact now.trans (by simp)
  have ran := State.startKind_ran (s := x.tideOn u) (u := u) fun r k => (free r k).congr read.classes
  rw [still]
  refine ⟨only_trans read.rest (only_trans (only_mono on (by decide)) ran.rest), ?_⟩
  rw [State.tideStatus?, ran.tides]
  exact status

/-! ## A tide that completes -/

theorem State.freeStash_tides (t : Table) (inst : Nat) (s : State) : (s.freeStash t inst).run.tides = s.run.tides := by
  unfold State.freeStash
  split <;> rfl

/-- A started tide is done, and the module has made progress. -/
theorem State.completeTide_done {s : State} {u : Tide} {st : TideStatus} (known : s.tideStatus? u.idx u.inst = some st) :
    Only [.out, .pcie, .log, .tm, .job, .run, .stalls] s (s.completeTide u) ∧ (s.completeTide u).tideStatus? u.idx u.inst = some .done
      ∧ (s.completeTide u).job = { s.job with progress := (s.completeTide u).job.progress }
      ∧ s.job.progress < (s.completeTide u).job.progress := by
  refine ⟨State.completeTide_only u (List.Subset.refl _) (only_refl _ s), ?_⟩
  unfold State.completeTide
  lift_lets
  intro r o y1 y2 busy y3
  have counted : Only [.out, .pcie, .log, .tm, .stalls] s (y1.count (stAt u.stall 0x158) 1) :=
    State.count_only _ _ (by decide) (setStall_only _ _ (by decide) (only_refl _ s))
  have knownNow : (y1.count (stAt u.stall 0x158) 1).tideStatus? u.idx u.inst = some st := by
    rw [State.tideStatus?, counted.same .run (by decide)]
    exact known
  obtain ⟨⟨ts, n, overs⟩, done, more⟩ := State.tideDone_spec knownNow u.t
  have job := counted.same .job (by decide)
  have idle : Only [.stalls] y2 y3 := by
    unfold y3
    split
    · exact only_refl _ y2
    · exact setStall_only _ _ (List.Subset.refl _) (only_refl _ y2)
  have freed : Only [.run] y3 (if u.t.isTraining && u.range = 1 && !u.stashRead.isEmpty then y3.freeStash u.t u.inst else y3) := by
    split
    · exact State.freeStash_only _ _ (List.Subset.refl _) (only_refl _ y3)
    · exact only_refl _ y3
  have tides : (if u.t.isTraining && u.range = 1 && !u.stashRead.isEmpty then y3.freeStash u.t u.inst else y3).run.tides = y2.run.tides := by
    split
    · rw [State.freeStash_tides, idle.same .run (by decide)]
    · rw [idle.same .run (by decide)]
  have same := (freed.same .job (by decide)).trans (idle.same .job (by decide))
  have over2 : y2.job = { s.job with progress := y2.job.progress } := by
    unfold y2
    rw [overs, job]
  refine ⟨?_, ?_, ?_⟩
  · rw [State.tideStatus?, tides]
    exact done
  · rw [same]
    exact over2
  · rw [same, ← job]
    exact more

/-! ## A plane that is loaded -/

theorem State.stalls_setStall (i : Nat) (f : Stall → Stall) (s : State) : (s.setStall i f).stalls.length = s.stalls.length := modAt_length _ _ _

theorem find?_replaced {α : Type} {p : α → Bool} {x : α} (hx : p x = true) (l : List α) :
    ((l.filter fun a => !p a) ++ [x]).find? p = some x := by
  have none : (l.filter fun a => !p a).find? p = none := List.find?_eq_none.mpr fun a ha => by
    simpa using (List.mem_filter.mp ha).2
  rw [List.find?_append, none, Option.none_or, List.find?_singleton, hx]
  rfl

theorem find?_replaced_ne {α : Type} {p q : α → Bool} (apart : ∀ a, p a = true → q a = false) {x : α} (hx : p x = false) (l : List α) :
    ((l.filter fun a => !q a) ++ [x]).find? p = l.find? p := by
  have none : [x].find? p = none := by simp [hx]
  rw [List.find?_append, none, Option.or_none, List.find?_filter]
  refine congrArg (fun f => l.find? f) (funext fun a => ?_)
  cases h : p a with
  | false => simp
  | true => simp [apart a h]

/-- What a tide has put in the stall store is what it finds there. -/
theorem State.stored_keepStore {s : State} {w : Tide} (inside : w.stall < s.stalls.length) (p : StorePart) (n : Nat) (bs : List Block) :
    (s.keepStore w p n bs).stored w p n = bs := by
  unfold State.stored State.keepStore
  rw [State.stall_setStall s inside]
  dsimp only
  rw [find?_replaced (p := StoreItem.isOf w p n) (by simp [StoreItem.isOf])]

theorem State.stored_keepStore_ne {s : State} {w : Tide} (inside : w.stall < s.stalls.length) {p q : StorePart} (ne : p ≠ q) (n m : Nat)
    (bs : List Block) : (s.keepStore w q m bs).stored w p n = s.stored w p n := by
  unfold State.stored State.keepStore
  rw [State.stall_setStall s inside]
  dsimp only
  rw [find?_replaced_ne (p := StoreItem.isOf w p n) (q := StoreItem.isOf w q m)]
  · intro a ha
    have part : a.part = p := by
      simp only [StoreItem.isOf, Bool.and_eq_true, beq_iff_eq] at ha
      exact ha.1.2
    simp [StoreItem.isOf, part, ne]
  · simp [StoreItem.isOf, ne.symm]

/-- A plane that holds the slice of a pass. -/
def State.planeOf (w : Tide) (p : Pass) (s : State) : Plane := ⟨true, w.idx, w.inst, (s.passSlice w p).1, (s.passSlice w p).2⟩

/-- A slice in the stall store, with its ledgers. -/
def State.sliceStored (w : Tide) (p : Pass) (s : State) : State :=
  (s.keepStore w .stationary (pStat w.bytes) (s.passSlice w p).1).keepStore w .ledger (pStat w.bytes)
    ((s.passSlice w p).2.map fun es => ⟨.l16, 0, es⟩)

theorem State.sliceStored_stored {s : State} {w : Tide} (inside : w.stall < s.stalls.length) (p : Pass) :
    (s.sliceStored w p).stored w .stationary (pStat w.bytes) = (s.passSlice w p).1
      ∧ ((s.sliceStored w p).stored w .ledger (pStat w.bytes)).map (·.codes) = (s.passSlice w p).2 := by
  unfold State.sliceStored
  have insideNow : w.stall < (s.keepStore w .stationary (pStat w.bytes) (s.passSlice w p).1).stalls.length := by
    rw [State.keepStore, State.stalls_setStall]
    exact inside
  refine ⟨?_, ?_⟩
  · rw [State.stored_keepStore_ne insideNow (by decide), State.stored_keepStore inside]
  · rw [State.stored_keepStore insideNow, List.map_map]
    exact List.map_id _

theorem State.loadPlane_unfold (k : Nat) (w : Tide) (p : Pass) (s : State) :
    let y := s.sliceStored w p
    let plane : Plane := ⟨true, w.idx, w.inst, y.stored w .stationary (pStat w.bytes), (y.stored w .ledger (pStat w.bytes)).map (·.codes)⟩
    s.loadPlane k w p = y.setStall w.stall fun x => { x with planes := x.planes.set k plane } := rfl

theorem State.loadPlane_eq {s : State} {w : Tide} (inside : w.stall < s.stalls.length) (k : Nat) (p : Pass) : s.loadPlane k w p =
    (s.sliceStored w p).setStall w.stall fun x => { x with planes := x.planes.set k (s.planeOf w p) } := by
  obtain ⟨blocks, ledgers⟩ := State.sliceStored_stored inside p
  rw [State.loadPlane_unfold, blocks, ledgers]
  rfl

theorem eq_of_only_stalls {s t : State} (h : Only [.stalls] s t) : t = { s with stalls := t.stalls } := by
  have same := fun k hk => h.same k hk
  cases t
  congr 1
  · exact same .pending (by decide)
  · exact same .out (by decide)
  · exact same .freeCtr (by decide)
  · exact same .usec (by decide)
  · exact same .power (by decide)
  · exact same .boot (by decide)
  · exact same .pcie (by decide)
  · exact same .sqs (by decide)
  · exact same .cqs (by decide)
  · exact same .sqTurn (by decide)
  · exact same .cmds (by decide)
  · exact same .log (by decide)
  · exact same .tm (by decide)
  · exact same .job (by decide)
  · exact same .mem (by decide)
  · exact same .run (by decide)
  · exact same .quays (by decide)
  · exact same .snap (by decide)
  · exact same .journal (by decide)
  · exact same .harbour (by decide)
  · exact same .ports (by decide)
  · exact same .test (by decide)

/-- A plane of a stall has been loaded: of the module only that plane and the stall's store differ. -/
structure State.PlaneLoaded (i k : Nat) (w : Tide) (p : Pass) (s u : State) : Prop where
  rest : Only [.stalls] s u
  others : ∀ j, j ≠ i → u.stall j = s.stall j
  own : u.stall i = { s.stall i with planes := (s.stall i).planes.set k (s.planeOf w p), store := (u.stall i).store }
  stored : u.stored w .stationary (pStat w.bytes) = (s.passSlice w p).1
  length : u.stalls.length = s.stalls.length

theorem State.keepStore_stall {s : State} {w : Tide} (inside : w.stall < s.stalls.length) (p : StorePart) (n : Nat) (bs : List Block) :
    (s.keepStore w p n bs).stall w.stall = { s.stall w.stall with store := ((s.keepStore w p n bs).stall w.stall).store } := by
  unfold State.keepStore
  rw [State.stall_setStall s inside]

theorem State.keepStore_length (w : Tide) (p : StorePart) (n : Nat) (bs : List Block) (s : State) :
    (s.keepStore w p n bs).stalls.length = s.stalls.length := State.stalls_setStall _ _ _

theorem State.keepStore_others {w : Tide} {j : Nat} (other : j ≠ w.stall) (p : StorePart) (n : Nat) (bs : List Block) (s : State) :
    (s.keepStore w p n bs).stall j = s.stall j := State.stall_setStall_ne s other _

theorem State.sliceStored_spec {s : State} {w : Tide} (inside : w.stall < s.stalls.length) (p : Pass) :
    (s.sliceStored w p).stall w.stall = { s.stall w.stall with store := ((s.sliceStored w p).stall w.stall).store }
      ∧ (s.sliceStored w p).stalls.length = s.stalls.length ∧ ∀ j, j ≠ w.stall → (s.sliceStored w p).stall j = s.stall j := by
  unfold State.sliceStored
  have first := State.keepStore_stall inside .stationary (pStat w.bytes) (s.passSlice w p).1
  have length := State.keepStore_length w .stationary (pStat w.bytes) (s.passSlice w p).1 s
  have others : ∀ j, j ≠ w.stall → (s.keepStore w .stationary (pStat w.bytes) (s.passSlice w p).1).stall j = s.stall j :=
    fun j other => State.keepStore_others other _ _ _ s
  generalize s.keepStore w .stationary (pStat w.bytes) (s.passSlice w p).1 = y at first length others
  have insideNow : w.stall < y.stalls.length := by rw [length]; exact inside
  refine ⟨?_, (State.keepStore_length _ _ _ _ _).trans length, fun j other => (State.keepStore_others other _ _ _ _).trans (others j other)⟩
  rw [State.keepStore_stall insideNow, first]

theorem State.loadPlane_loaded {s : State} {i : Nat} {w : Tide} (stall : w.stall = i) (inside : i < s.stalls.length) (k : Nat) (p : Pass) :
    s.PlaneLoaded i k w p (s.loadPlane k w p) := by
  subst stall
  obtain ⟨own, length, others⟩ := State.sliceStored_spec inside p
  obtain ⟨blocks, -⟩ := State.sliceStored_stored inside p
  have rest : Only [.stalls] s (s.loadPlane k w p) := State.loadPlane_only k w p (List.Subset.refl _) (only_refl _ s)
  rw [State.loadPlane_eq inside] at rest ⊢
  generalize s.sliceStored w p = y at own length others blocks rest ⊢
  have insideNow : w.stall < y.stalls.length := by rw [length]; exact inside
  have now := State.stall_setStall y insideNow fun x => { x with planes := x.planes.set k (s.planeOf w p) }
  refine ⟨rest, fun j other => (State.stall_setStall_ne y other _).trans (others j other), ?_, ?_, (State.stalls_setStall _ _ _).trans length⟩
  · rw [now, own]
  · rw [State.stored, now]
    exact blocks

/-! ## The PRODUCT that runs, and the one to come -/

theorem State.nextPlane_issued {s : State} {t : Table} {i : Nat} {w : Tide} (next_ : s.nextPlane t i = some w) : w ∈ s.issuedOf t i := by
  have sub : ∀ q : Tide → Bool, ((s.issuedOf t i).filter fun u => rKind u.bytes == .product).find? q = some w → w ∈ s.issuedOf t i :=
    fun q found => (List.mem_filter.mp (List.mem_of_find?_eq_some found)).1
  unfold State.nextPlane at next_
  dsimp only at next_
  split at next_
  next found => exact sub _ (by rw [found, next_])
  next =>
    split at next_
    next found => exact sub _ (by rw [found, next_])
    next => exact sub _ next_

theorem State.running_stall {s : State} {t : Table} {i : Nat} {w : Tide} (run : s.running t i = some w) : w.t = t ∧ w.stall = i := by
  obtain ⟨v, found, rfl⟩ := Option.map_eq_some_iff.mp run
  exact ⟨rfl, beq_iff_eq.mp (List.mem_filter.mp (List.mem_of_find?_eq_some found)).2⟩

theorem State.planeLoaded_ahead {s : State} {t : Table} {i : Nat} (idle : s.running t i = none ∨ (s.stall i).passesLeft = 0) :
    s.planeLoaded i t = s.planeAhead t i := by
  unfold State.planeLoaded
  dsimp only
  split
  · rfl
  next w run => exact if_pos (idle.resolve_left (by rw [run]; exact Option.some_ne_none w))

theorem State.planeAhead_loads {s : State} {t : Table} {i : Nat} {w : Tide} {p : Pass} (next_ : s.nextPlane t i = some w)
    (head : w.passes.head? = some p) (plain : s.recomputes w = false) : s.planeAhead t i = s.loadPlane (1 - (s.stall i).active) w p := by
  have still : (if s.depsDone w && s.stashReady w then s.repack w else s) = s := by
    split
    · unfold State.repack
      rw [plain]
      rfl
    · rfl
  unfold State.planeAhead
  rw [next_]
  dsimp only
  rw [head]
  exact congrArg (State.loadPlane _ w p) still

/-- The planes change roles, and the pass that is due runs. -/
theorem State.servePass_serves {s : State} {i k : Nat} {w : Tide} {p : Pass} (stall : w.stall = i) (inside : i < s.stalls.length)
    (due : w.passes[k]? = some p) (tensor : pToRegion w.bytes = false) : Only [.out, .pcie, .log, .tm, .mem, .run, .stalls, .quays, .snap] s (s.servePass w k)
      ∧ (s.servePass w k).run.tides = s.run.tides ∧ ((s.servePass w k).stall i).active = 1 - (s.stall i).active
      ∧ ((s.servePass w k).stall i).passesLeft = w.passes.length - (k + 1) := by
  subst stall
  have ran := State.servePass_ran (s := s) w (fun r => absurd r (by simp [tensor])) k
  refine ⟨ran.rest, ran.tides, ?_⟩
  unfold State.servePass
  dsimp only
  rw [due]
  have turned := State.stall_setStall s inside fun x =>
    { x with active := 1 - x.active, planes := x.planes.set x.active Plane.reset, passesLeft := w.passes.length - (k + 1) }
  generalize s.setStall w.stall _ = y at turned
  have work := ((tideWork_refl y).runPass w (fun r => absurd r (by simp [tensor])) p).passesEnd w
  exact ⟨(work.active w.stall).trans (congrArg Stall.active turned), (work.left w.stall).trans (congrArg Stall.passesLeft turned)⟩

/-! ## The events -/

theorem exec_tideStart {s : State} {t : Table} (table : s.job.table = some t) (run : s.tidesRun = true) (i : Nat) (ecc : EccOutcome) (off : Nat) :
    exec (.tideStart i ecc off) s = .next (s.startNext i ecc off t).settleReset := by
  refine congrArg Host.Outcome.next (congrArg State.settleReset ?_)
  exact State.onTides_eq table run _

theorem State.startNext_starts {s : State} {t : Table} {i : Nat} {w : Tide} (next_ : s.nextStart t i = some w) {ecc : EccOutcome}
    (mends : ecc ≠ .uncorrectable) (off : Nat) : ∃ y, s.Once y ∧ s.startNext i ecc off t = y.startTide w := by
  have noted := s.conflicts_once t i
  refine ⟨(s.conflicts t i).storeEcc i ecc off, once_trans noted (State.storeEcc_noted i off mends _).once, ?_⟩
  unfold State.startNext
  dsimp only
  rw [noted.nextStart, next_]
  exact if_neg mends

theorem State.startNext_faults {s : State} {t : Table} {i : Nat} {w : Tide} (next_ : s.nextStart t i = some w) (off : Nat) :
    (s.startNext i .uncorrectable off t).mode = .faulted ∧ (s.startNext i .uncorrectable off t).boot = (s.enter .faulted).boot := by
  have noted := s.conflicts_once t i
  obtain ⟨mode, boot⟩ := State.storeEcc_faults i off (s.conflicts t i)
  have is : s.startNext i .uncorrectable off t = (s.conflicts t i).storeEcc i .uncorrectable off := by
    unfold State.startNext
    dsimp only
    rw [noted.nextStart, next_]
    exact if_pos rfl
  rw [is]
  exact ⟨mode, boot.trans (State.enter_boot_congr .faulted (noted.but.rest.same .boot (by decide)))⟩

/-- The pages that a tide reaches are asked of a state that notes leave alone. -/
theorem State.Once.reached {s y : State} (h : s.Once y) (w : Tide) :
    ((y.reach w).findSome? fun r => y.refusedPage (.tide w.idx) r.1 r.2.1 r.2.2)
      = (s.reach w).findSome? fun r => s.refusedPage (.tide w.idx) r.1 r.2.1 r.2.2 := by
  have mem : y.mem = s.mem := h.but.rest.same .mem (by decide)
  have same : ∀ wr a n, y.refusedPage (.tide w.idx) wr a n = s.refusedPage (.tide w.idx) wr a n :=
    State.refusedPage_congr (congrArg Mem.classes mem) _
  rw [h.reach]
  simp only [same]

theorem State.startTide_runs {s y : State} {w : Tide} {st : TideStatus} (noted : s.Once y) (known : s.tideStatus? w.idx w.inst = some st)
    (reach : ((s.reach w).findSome? fun r => s.refusedPage (.tide w.idx) r.1 r.2.1 r.2.2) = none) (plain : s.recomputes w = false)
    (free : s.ClosesFree w) : Only [.out, .pcie, .log, .tm, .mem, .run, .stalls, .quays, .snap] s (y.startTide w)
      ∧ (y.startTide w).tideStatus? w.idx w.inst = some .started := by
  have mem : y.mem = s.mem := noted.but.rest.same .mem (by decide)
  have tides : y.run.tides = s.run.tides := by rw [noted.is]
  have groups : y.run.groups = s.run.groups := by rw [noted.is]
  have runs : y.startTide w = y.runTide w := State.guarded_all ((noted.reached w).trans reach) _
  obtain ⟨rest, started⟩ := State.runTide_runs (s := y) (u := w) (st := st) (by rw [State.tideStatus?, tides]; exact known)
    ((State.recomputes_congr groups w).trans plain) fun r k => (free r k).congr (congrArg Mem.classes mem)
  rw [runs]
  exact ⟨only_trans (only_mono noted.but.rest (by decide)) rest, started⟩

theorem State.startTide_refused {s y : State} {w : Tide} (noted : s.Once y)
    (refused : ((s.reach w).findSome? fun r => s.refusedPage (.tide w.idx) r.1 r.2.1 r.2.2) ≠ none) :
    (y.startTide w).mode = .faulted ∧ (y.startTide w).boot = (s.enter .faulted).boot := by
  obtain ⟨g, page⟩ := Option.ne_none_iff_exists'.mp refused
  have is : y.startTide w = y.refusedAccess (sourceRecord (.tide w.idx)) g := by
    unfold State.startTide State.guarded
    rw [noted.reached, page]
  obtain ⟨mode, boot, -⟩ := State.refusedAccess_fault (sourceRecord (.tide w.idx)) g y
  rw [is]
  exact ⟨mode, boot.trans (State.enter_boot_congr .faulted (noted.but.rest.same .boot (by decide)))⟩

theorem exec_planeLoad {s : State} {t : Table} (table : s.job.table = some t) (run : s.tidesRun = true) (l : PlaneLoad) :
    exec (.weightPlaneLoadComplete l) s = .next (s.loadedPlane l t).settleReset := by
  refine congrArg Host.Outcome.next (congrArg State.settleReset ?_)
  exact State.onTides_eq table run _

theorem State.loadedPlane_clean (i off : Nat) (t : Table) (s : State) : s.loadedPlane ⟨i, .clean, off⟩ t = s.planeLoaded i t := rfl

theorem State.loadedPlane_corrected (i off : Nat) (t : Table) (s : State) :
    s.loadedPlane ⟨i, .corrected, off⟩ t = (s.storeEcc i .corrected off).planeLoaded i t := rfl

theorem stAt_ne_lost (i o : Nat) : stAt i o ≠ evLostAt := by
  simp only [stAt, evLostAt]
  omega

/-- A corrected bit of a stall's store. -/
theorem State.storeEcc_corrects (i off : Nat) (s : State) : s.Noted (s.storeEcc i .corrected off)
    ∧ s.Counted (s.storeEcc i .corrected off) (stAt i 0x148) 1 ∧ s.Logged (s.storeEcc i .corrected off) 0x0204 1 i := by
  have counts := counts_trans (s.count_counts (stAt_ne_lost i 0x148) 1)
    (State.raise_counts (stAt_ne_lost i 0x148) 0x0204 srcStall i [(0x20, 1, 0xFF), (0x28, 8, off)] _)
  refine ⟨State.storeEcc_noted i off (by decide) s, fun ok => (counts ok).2, ?_⟩
  exact logged_of_raise (n := 0) (grew_mono (s.count_grew (stAt i 0x148) 1) (by decide)) (s.count_noted _ _).usec (grewBy_refl 0 _) (by decide)

/-- A tide that waits for its tile alone, or a closer for its uses. -/
theorem State.deadlock_faults {s : State} {t : Table} {i r inst : Nat} {w : Tide}
    (found : ((s.issuedOf t i).find? fun u => u.idx == r && u.inst == inst) = some w)
    (waits : (s.otherwiseReady w = true ∧ s.tileUsable w = false) ∨ (s.closerWaits w = true ∧ s.depsDone w = false)) :
    (s.deadlock i r inst t).mode = .faulted ∧ (s.deadlock i r inst t).boot = (s.enter .faulted).boot := by
  have stuck : ¬ ((if s.closerWaits w then s.depsDone w && s.tileUsable w else !s.otherwiseReady w || s.tileUsable w) = true) := by
    rcases waits with ⟨ready, tile⟩ | ⟨closer, deps⟩
    · cases s.closerWaits w <;> simp [ready, tile]
    · simp [closer, deps]
  have raised := s.raise_noted 0x0206 srcStall i [(0x20, 1, w.tileByte), (0x24, 4, r), (0x28, 4, s.tileHolder w), (0x30, 8, 10000)]
  unfold State.deadlock
  rw [found]
  dsimp only
  rw [if_neg stuck]
  exact ⟨State.moduleFault_mode _, (State.moduleFault_boot _).trans (State.enter_boot_congr .faulted raised.boot)⟩

/-- Settles O57: the tides are issued, start, complete; the planes load. -/
theorem tidesAreIssuedStartedAndDone : Obligations.TidesAreIssuedStartedAndDone := by
  unfold Obligations.TidesAreIssuedStartedAndDone
  intro s i off rec_ inst t table run due
  have settled : ∀ {y : State}, y.boot = s.boot → y.settleReset = y := fun boot => State.settleReset_none (by rw [boot, due])
  refine ⟨fun w next_ => ?_, fun w next_ => ⟨fun reach plain closes ecc mends => ?_, fun refused => ?_, ?_⟩, fun known kind passes => ?_,
    fun inside => ⟨fun w p idle next_ head plain => ?_, fun w p running left pass tensor => ?_, fun idle none => ?_, ⟨?_, ?_⟩, ?_⟩,
    fun w found waits => ?_⟩
  · refine congrArg Host.Outcome.next ((State.onTides_eq table run _).trans ?_)
    unfold State.issueNext
    rw [next_]
    rfl
  · obtain ⟨y, noted, starts⟩ := State.startNext_starts next_ mends off
    obtain ⟨owner, -, st, known⟩ := State.nextStart_status next_
    obtain ⟨rest, started⟩ := State.startTide_runs noted known reach plain (fun r k => by rw [owner]; exact closes r k)
    have runs := exec_tideStart table run i ecc off
    rw [starts, settled (rest.same .boot (by decide))] at runs
    exact ⟨_, runs, ⟨rest.same .boot (by decide), rest.same .cmds (by decide), rest.same .journal (by decide), rest.same .power (by decide)⟩,
      started, rest.same .job (by decide)⟩
  · obtain ⟨y, noted, starts⟩ := State.startNext_starts next_ (ecc := .clean) (by decide) off
    obtain ⟨mode, boot⟩ := State.startTide_refused noted refused
    have runs := exec_tideStart table run i .clean off
    rw [starts, State.faulted_stays due boot] at runs
    exact ⟨_, runs, mode⟩
  · obtain ⟨mode, boot⟩ := State.startNext_faults next_ off
    have runs := exec_tideStart table run i .uncorrectable off
    rw [State.faulted_stays due boot] at runs
    exact ⟨_, runs, mode⟩
  · obtain ⟨rest, done, job, more⟩ := State.completeTide_done (s := s) (u := ⟨t, rec_, inst⟩) known
    have ends : s.finishTide rec_ inst t = s.completeTide ⟨t, rec_, inst⟩ := by
      unfold State.finishTide
      exact if_neg (by simp [known, kind, passes])
    exact ⟨_, congrArg Host.Outcome.next ((State.onTides_eq table run _).trans ends),
      ⟨rest.same .boot (by decide), rest.same .cmds (by decide), rest.same .journal (by decide), rest.same .power (by decide)⟩, done,
      rest.same .mem (by decide), job, more⟩
  · obtain ⟨owner, stall, -⟩ := State.issuedOf_status (State.nextPlane_issued next_)
    have loaded := State.loadPlane_loaded stall inside (1 - (s.stall i).active) p
    have runs := exec_planeLoad table run ⟨i, .clean, off⟩
    rw [State.loadedPlane_clean, State.planeLoaded_ahead idle, State.planeAhead_loads next_ head plain,
      settled (loaded.rest.same .boot (by decide))] at runs
    exact ⟨_, runs, eq_of_only_stalls loaded.rest, loaded.others, loaded.own, loaded.stored⟩
  · obtain ⟨owner, stall⟩ := State.running_stall running
    have loaded := State.loadPlane_loaded stall inside (1 - (s.stall i).active) p
    obtain ⟨rest, tides, active, passesLeft⟩ := State.servePass_serves (s := s.loadPlane (1 - (s.stall i).active) w p) stall
      (by rw [loaded.length]; exact inside) pass tensor
    have all := only_trans (only_mono loaded.rest (by decide)) rest
    have serves : s.planeLoaded i t
        = (s.loadPlane (1 - (s.stall i).active) w p).servePass w (w.passes.length - (s.stall i).passesLeft) := by
      unfold State.planeLoaded
      rw [running]
      dsimp only
      rw [if_neg left, pass]
    have runs := exec_planeLoad table run ⟨i, .clean, off⟩
    rw [State.loadedPlane_clean, serves, settled (all.same .boot (by decide))] at runs
    refine ⟨_, runs, ⟨all.same .boot (by decide), all.same .cmds (by decide), all.same .journal (by decide), all.same .power (by decide)⟩,
      all.same .job (by decide), ?_, passesLeft, fun k n => ?_⟩
    · rw [active, loaded.own]
    · rw [State.tideStatus?, tides, loaded.rest.same .run (by decide)]
      rfl
  · have runs := exec_planeLoad table run ⟨i, .clean, off⟩
    have stays : s.planeAhead t i = s := by
      unfold State.planeAhead
      rw [none]
    rw [State.loadedPlane_clean, State.planeLoaded_ahead (.inl idle), stays, settled rfl] at runs
    exact runs
  · have noted := State.storeEcc_noted i off (ecc := .corrected) (by decide) s
    have runNow : (s.storeEcc i .corrected off).tidesRun = true := by
      unfold State.tidesRun State.mode
      rw [noted.boot, noted.run]
      exact run
    have tableNow : (s.storeEcc i .corrected off).job.table = some t := by rw [noted.job, table]
    rw [exec_planeLoad table run, exec_planeLoad tableNow runNow, State.loadedPlane_corrected, State.loadedPlane_clean]
  · exact State.storeEcc_corrects i off s
  · obtain ⟨mode, boot⟩ := State.storeEcc_faults i off s
    have runs := exec_planeLoad table run ⟨i, .uncorrectable, off⟩
    have faults : s.loadedPlane ⟨i, .uncorrectable, off⟩ t = s.storeEcc i .uncorrectable off := if_pos rfl
    rw [faults, State.faulted_stays due boot] at runs
    exact ⟨_, runs, mode⟩
  · obtain ⟨mode, boot⟩ := State.deadlock_faults found waits
    have runs : exec (.tileDeadlock i rec_ inst) s = .next (s.deadlock i rec_ inst t).settleReset :=
      congrArg Host.Outcome.next (congrArg State.settleReset (State.onTides_eq table run _))
    rw [State.faulted_stays due boot] at runs
    exact ⟨_, runs, mode⟩

end Sys2Proof.Machine

/-! PROOF. Sample groups start, and host-delegated layers ask (R154, R158, R159, R179, R374). -/

namespace Sys2Proof.Machine

/-! ## The end of a group's wait -/

/-- What the end of a group's wait leaves: of the groups, only the waits differ. -/
structure State.WaitEnded (s y : State) : Prop where
  rest : Only [.out, .pcie, .cmds, .log, .tm, .run] s y
  tides : y.run.tides = s.run.tides
  groups : ∃ f : GroupRun → GroupRun, (∀ x, f x = { x with waitFrom := (f x).waitFrom }) ∧ y.run.groups = s.run.groups.map f
  counts : s.Counts (tmAt 0x38) 0 y

theorem State.extends_rest (l : List Cmd) (us : Nat) (s : State) : Only [.cmds] s (l.foldl (fun s c => s.extend c.sq c.cid us) s) :=
  foldl_only (only_refl _ s) fun _ _ h => State.extend_only _ _ _ (List.Subset.refl _) h

/-- The wait of a group that stands at one place. -/
def endedWait (g x : GroupRun) : GroupRun := if x.place = g.place then { x with waitFrom := none } else x

theorem endedWait_is (g x : GroupRun) : endedWait g x = { x with waitFrom := (endedWait g x).waitFrom } := by
  unfold endedWait
  split <;> rfl

theorem State.endWait_ended (g : GroupRun) (s : State) : s.WaitEnded (s.endWait g) := by
  suffices h : (s.endWait g).run.tides = s.run.tides
      ∧ (∃ f : GroupRun → GroupRun, (∀ x, f x = { x with waitFrom := (f x).waitFrom }) ∧ (s.endWait g).run.groups = s.run.groups.map f)
      ∧ s.Counts (tmAt 0x38) 0 (s.endWait g) by
    obtain ⟨tides, groups, counts⟩ := h
    exact ⟨State.endWait_only g (List.Subset.refl _) (only_refl _ s), tides, groups, counts⟩
  unfold State.endWait
  split
  · exact ⟨rfl, ⟨id, fun _ => rfl, (List.map_id _).symm⟩, counts_of_tm rfl _⟩
  next u _ =>
    lift_lets
    intro w y
    have tides : y.run.tides = s.run.tides := by
      unfold y
      rw [State.modRun_run, State.count_run]
    have groups : y.run.groups = s.run.groups.map (endedWait g) := by
      unfold y
      rw [State.modRun_run, State.count_run]
      rfl
    have counts : s.Counts (tmAt 0x38) 0 y := State.count_counts_ne (by decide) (by decide) w s
    clear_value y
    split
    · exact ⟨tides, ⟨endedWait g, endedWait_is g, groups⟩, counts⟩
    · have extended := State.extends_rest (y.cmdsOf opRun) w y
      have run := extended.same .run (by decide)
      exact ⟨(congrArg Run.tides run).trans tides, ⟨endedWait g, endedWait_is g, (congrArg Run.groups run).trans groups⟩,
        counts_trans counts (counts_of_tm (extended.same .tm (by decide)) _)⟩

namespace State.WaitEnded

variable {s y : State}

theorem framesUsed (h : s.WaitEnded y) : y.framesUsed = s.framesUsed := by
  obtain ⟨f, same, groups⟩ := h.groups
  have pages : ∀ x : GroupRun, (f x).pages = x.pages := fun x => by rw [same x]
  unfold State.framesUsed
  rw [groups, List.flatMap_map]
  simp only [pages]

theorem earlierBusy (h : s.WaitEnded y) (t : Table) (place : Nat) : y.earlierBusy t place = s.earlierBusy t place := by
  obtain ⟨f, same, groups⟩ := h.groups
  have places : ∀ x : GroupRun, (f x).place = x.place := fun x => by rw [same x]
  have starts : ∀ x : GroupRun, (f x).started = x.started := fun x => by rw [same x]
  have status : ∀ i n, y.tideStatus? i n = s.tideStatus? i n := fun i n => by rw [State.tideStatus?, h.tides]; rfl
  unfold State.earlierBusy
  rw [groups, List.any_map]
  refine congrArg (List.any _) (funext fun x => ?_)
  simp only [Function.comp_apply, places, starts, status]

/-- The group that waited stands where it stood. -/
theorem group (h : s.WaitEnded y) {g : GroupRun} (mem : g ∈ s.run.groups) :
    ∃ x ∈ y.run.groups, x.place = g.place ∧ x.group = g.group ∧ x.recompute = g.recompute := by
  obtain ⟨f, same, groups⟩ := h.groups
  refine ⟨f g, ?_, ?_, ?_, ?_⟩
  · rw [groups]
    exact List.mem_map_of_mem mem
  · rw [same g]
  · rw [same g]
  · rw [same g]

end State.WaitEnded

theorem State.batchBytes_congr {s t : State} (quays : t.quays = s.quays) (mem : t.mem = s.mem) (b : Batch) : t.batchBytes b = s.batchBytes b := by
  unfold State.batchBytes
  rw [State.view_congr quays mem]

theorem State.batchBad_congr {s t : State} (quays : t.quays = s.quays) (mem : t.mem = s.mem) (b : Batch) : t.batchBad b = s.batchBad b := by
  unfold State.batchBad
  rw [State.batchBytes_congr quays mem]

/-- A group whose batch is not there waits, and its wait is timed from its start. -/
theorem State.groupForward_waits {s : State} {t : Table} {n : Nat} {g : GroupRun} (found : (s.run.groups.find? fun x => x.group == n) = some g)
    (waits : g.started = false) (first : (s.run.groups.any fun x => x.place < g.place && !x.started) = false) (batch : s.batch? g.group = none) :
    s.groupForward t n = s.setGroup g.place fun x => { x with waitFrom := some (x.waitFrom.getD s.usec) } := by
  unfold State.groupForward
  rw [found]
  dsimp only
  rw [if_neg (by simp [waits, first]), batch]

/-- A group whose batch reads as it was fed starts. -/
theorem State.groupForward_starts {s : State} {t : Table} {n : Nat} {g : GroupRun} {b : Batch}
    (found : (s.run.groups.find? fun x => x.group == n) = some g) (waits : g.started = false)
    (first : (s.run.groups.any fun x => x.place < g.place && !x.started) = false) (batch : s.batch? g.group = some b) (good : s.batchBad b = false) :
    s.groupForward t n = (s.endWait g).startGroup t g (batchTokens (s.batchBytes b)) := by
  have ended := (s.endWait_ended g).rest
  have started := State.startGroup_only t g (batchTokens (s.batchBytes b)) (List.Subset.refl _) (only_refl _ (s.endWait g))
  have bytes := State.batchBytes_congr (ended.same .quays (by decide)) (ended.same .mem (by decide)) b
  have bad : ((s.endWait g).startGroup t g (batchTokens (s.batchBytes b))).batchBad b = false := by
    rw [State.batchBad_congr ((started.same .quays (by decide)).trans (ended.same .quays (by decide)))
      ((started.same .mem (by decide)).trans (ended.same .mem (by decide))), good]
  unfold State.groupForward
  rw [found]
  dsimp only
  rw [if_neg (by simp [waits, first]), batch]
  dsimp only
  rw [bytes]
  split
  · unfold State.checkBatch
    rw [bad]
    rfl
  · rfl

theorem State.setGroup_group {y : State} {g x : GroupRun} (mem : x ∈ y.run.groups) (place : x.place = g.place) (f : GroupRun → GroupRun) :
    f x ∈ (y.setGroup g.place f).run.groups := by
  unfold State.setGroup
  rw [State.modRun_run]
  exact List.mem_map.mpr ⟨x, mem, if_pos place⟩

/-- The whole reservation of a group. -/
theorem State.startGroup_whole {s y : State} {t : Table} {g : GroupRun} {tokens : Nat} {ps : List Nat} (ended : s.WaitEnded y) (mem : g ∈ s.run.groups)
    (whole : reservePages (t.recs secShoal 1) (t.framePages tokens) 0 s.framesUsed = some ps) :
    ∃ x ∈ (y.startGroup t g tokens).run.groups, x.place = g.place ∧ x.group = g.group ∧ x.started = true ∧ x.pages = ps ∧ x.tokens = tokens
      ∧ x.recompute = g.recompute := by
  obtain ⟨x, inside, place, group, recompute⟩ := ended.group mem
  have starts : y.startGroup t g tokens = y.setGroup g.place fun x => { x with tokens := tokens, pages := ps, started := true } := by
    unfold State.startGroup
    dsimp only
    rw [ended.framesUsed, whole]
  rw [starts]
  exact ⟨_, State.setGroup_group inside place _, place, group, rfl, rfl, rfl, recompute⟩

/-- A group in recompute mode. -/
theorem State.startGroup_recompute {s y : State} {t : Table} {g : GroupRun} {tokens : Nat} {ps : List Nat} (ended : s.WaitEnded y)
    (mem : g ∈ s.run.groups) (full : reservePages (t.recs secShoal 1) (t.framePages tokens) 0 s.framesUsed = none)
    (idle : s.earlierBusy t g.place = false) (segments : t.segments.isEmpty = false)
    (checkpoints : reservePages (t.recs secShoal 1) (t.checkpointPages tokens) 0 s.framesUsed = some ps) :
    s.Counts (tmAt 0x38) 1 (y.startGroup t g tokens)
      ∧ ∃ x ∈ (y.startGroup t g tokens).run.groups, x.place = g.place ∧ x.started = true ∧ x.pages = ps ∧ x.recompute = true := by
  obtain ⟨x, inside, place, -, -⟩ := ended.group mem
  have once := y.raiseOnce_once 0x0201 srcModule 0xFFFF [(0x20, 4, g.group), (0x24, 4, t.framePages tokens), (0x28, 4, y.pagesFree t)]
  have counts := State.raiseOnce_counts (o := tmAt 0x38) (by decide) 0x0201 srcModule 0xFFFF
    [(0x20, 4, g.group), (0x24, 4, t.framePages tokens), (0x28, 4, y.pagesFree t)] y
  have starts : ∀ z : State, z.run.groups = y.run.groups → z = y.raiseOnce 0x0201 srcModule 0xFFFF
      [(0x20, 4, g.group), (0x24, 4, t.framePages tokens), (0x28, 4, y.pagesFree t)] → y.startGroup t g tokens =
        (z.count (tmAt 0x38) 1).setGroup g.place fun x => { x with tokens := tokens, pages := ps, recompute := true, started := true } := by
    rintro z groups rfl
    have frames : State.framesUsed (y.raiseOnce 0x0201 srcModule 0xFFFF
        [(0x20, 4, g.group), (0x24, 4, t.framePages tokens), (0x28, 4, y.pagesFree t)]) = s.framesUsed := by
      rw [← ended.framesUsed, State.framesUsed, groups]
      rfl
    unfold State.startGroup
    dsimp only
    rw [ended.framesUsed, full]
    dsimp only
    rw [ended.earlierBusy, idle, segments, if_neg (by decide), frames, checkpoints]
  have groups : (y.raiseOnce 0x0201 srcModule 0xFFFF
      [(0x20, 4, g.group), (0x24, 4, t.framePages tokens), (0x28, 4, y.pagesFree t)]).run.groups = y.run.groups := by
    rw [once.is]
  rw [starts _ groups rfl]
  generalize State.raiseOnce _ _ _ _ y = z at groups counts
  have here : x ∈ (z.count (tmAt 0x38) 1).run.groups := by
    rw [State.count_run, groups]
    exact inside
  refine ⟨?_, _, State.setGroup_group here place _, place, rfl, rfl, rfl⟩
  exact counts_trans (counts_zero_left ended.counts (counts_zero_left counts (State.count_counts (by decide) 1 z))) (counts_of_tm rfl _)

/-! ## A host-delegated layer asks -/

/-- The statistics of an input that is converted on its way to the host. -/
def State.layerReported (u : Tide) (x : Bytes) (f : Fmt) (st : TensorStat) (s : State) : State :=
  if tFmt x = f then s else s.storeReport (s.place u x 0 (tCodes x)) u.idx 0 0 x st

/-- The request of a host layer goes out, and its tide starts. -/
def State.layerAsked (u : Tide) (r : Bytes) (c : Cmd) (i dir off tag need : Nat) (d : Bytes) (s : State) : State :=
  let s := (s.toHost c.sq c.cid off d).modRun fun q =>
    { q with hostReqs := q.hostReqs ++ [⟨tag, i, dir, u.idx, u.inst, c.sq, c.cid, s.usec, need⟩], nextTag := (tag + 1) % 65536 }
  let s := s.post (fld r 2 1) ⟨off, d.length + 2 ^ 32 * i + 2 ^ 48 * dir, 0, 0, 0xFF, tag, 2, 0⟩
  (s.count (tmAt 0x48) 1).setTide u.idx u.inst .started

theorem State.hostRequest_asks {s : State} {t : Table} {i dir : Nat} {u : Tide} {r x y : Bytes} {c : Cmd} {f : Fmt}
    (tide : s.layerTide t i dir = some u) (layer : t.hostLayer? i = some r) (cmd : s.layerCmd = some c)
    (input : t.tensor? (hlIn u.bytes) = some x) (output : t.tensor? (hlOut u.bytes) = some y) (fmt : Fmt.ofCode (fld r 1 1) = some f)
    (master : s.pcie.busMaster = true) (closed : (s.run.hostReqs.any fun q => q.layer == i && q.dir == dir) = false)
    (free : ((s.layerReach u x false).findSome? fun a => s.refusedPage (.tide u.idx) a.1 a.2.1 a.2.2) = none) :
    s.hostRequest t i dir = (s.layerReported u x f (s.layerBytes u x f).2).layerAsked u r c i dir (t.areaOffset i dir) s.freeTag
      (s.layerRows u y * tCols y * elemBytes f) (s.layerBytes u x f).1 := by
  unfold State.hostRequest
  rw [tide, layer, cmd]
  dsimp only
  rw [input, output, fmt]
  dsimp only
  rw [if_neg (by simp [master, closed]), State.guarded_all free]
  rfl

theorem State.layerReported_spec (u : Tide) (x : Bytes) (f : Fmt) (st : TensorStat) (s : State) :
    s.NotedBut [.run] (s.layerReported u x f st) ∧ s.RunReported (s.layerReported u x f st) := by
  unfold State.layerReported
  split
  · exact ⟨(noted_refl s).but _, runReported_refl s⟩
  · obtain ⟨but, run, -⟩ := State.storeReport_spec (s.place u x 0 (tCodes x)) u.idx 0 0 x st s
    exact ⟨but, run⟩

/-- The notice of a request, and its tide started. -/
theorem State.layerNoticed_spec {z : State} {i n : Nat} {st : TideStatus} (known : z.tideStatus? i n = some st) (q : Nat) (e : Entry) (v : TideStatus) :
    Only [.out, .pcie, .cqs, .log, .tm, .run] z (((z.post q e).count (tmAt 0x48) 1).setTide i n v)
      ∧ (((z.post q e).count (tmAt 0x48) 1).setTide i n v).run.hostReqs = z.run.hostReqs
      ∧ (((z.post q e).count (tmAt 0x48) 1).setTide i n v).tideStatus? i n = some v
      ∧ z.out <+: (((z.post q e).count (tmAt 0x48) 1).setTide i n v).out := by
  have posted : Only [.out, .pcie, .cqs, .log, .tm] z ((z.post q e).count (tmAt 0x48) 1) :=
    State.count_only _ _ (by decide) (State.post_only q e (by decide) (only_refl _ z))
  have run := posted.same .run (by decide)
  have reqs : ((z.post q e).count (tmAt 0x48) 1).run.hostReqs = z.run.hostReqs := congrArg Run.hostReqs run
  refine ⟨State.setTide_only _ _ _ (by decide) (only_mono posted (by decide)), reqs, ?_,
    (State.setTide_kept _ _ _ (State.count_kept _ _ (State.post_kept q e (kept_refl z)))).sent⟩
  have was : ((z.post q e).count (tmAt 0x48) 1).tideStatus? i n = some st := by
    unfold State.tideStatus?
    rw [run]
    exact known
  have now := State.tideStatus_setTide i n i n v ((z.post q e).count (tmAt 0x48) 1)
  rw [was] at now
  exact now.trans (by simp)

/-- What a request leaves. -/
theorem State.layerAsked_spec {s : State} {u : Tide} {st : TideStatus} (known : s.tideStatus? u.idx u.inst = some st) (r : Bytes) (c : Cmd)
    (i dir off tag need : Nat) (d : Bytes) :
    Only [.out, .pcie, .cqs, .log, .tm, .run] s (s.layerAsked u r c i dir off tag need d)
      ∧ (s.layerAsked u r c i dir off tag need d).run.hostReqs = s.run.hostReqs ++ [⟨tag, i, dir, u.idx, u.inst, c.sq, c.cid, s.usec, need⟩]
      ∧ (s.layerAsked u r c i dir off tag need d).tideStatus? u.idx u.inst = some .started
      ∧ .commandData c.sq c.cid off d false ∈ (s.layerAsked u r c i dir off tag need d).out := by
  unfold State.layerAsked
  lift_lets
  intro z y
  have asked : Only [.out, .run] s z := modRun_only _ (by decide) (State.toHost_only _ _ _ _ (by decide) (only_refl _ s))
  have reqs : z.run.hostReqs = s.run.hostReqs ++ [⟨tag, i, dir, u.idx, u.inst, c.sq, c.cid, s.usec, need⟩] := rfl
  have was : z.tideStatus? u.idx u.inst = some st := known
  have out : .commandData c.sq c.cid off d false ∈ z.out := List.mem_append_right _ (List.mem_singleton.mpr rfl)
  obtain ⟨noticed, same, now, sent⟩ :=
    State.layerNoticed_spec was (fld r 2 1) ⟨off, d.length + 2 ^ 32 * i + 2 ^ 48 * dir, 0, 0, 0xFF, tag, 2, 0⟩ .started
  exact ⟨only_trans (only_mono asked (by decide)) noticed, same.trans reqs, now, sent.subset out⟩

theorem State.layerTide_status {s : State} {t : Table} {i dir : Nat} {u : Tide} (tide : s.layerTide t i dir = some u) :
    ∃ st, s.tideStatus? u.idx u.inst = some st := by
  obtain ⟨p, found, rfl⟩ := Option.map_eq_some_iff.mp tide
  obtain ⟨v, known, rfl⟩ := List.mem_map.mp (List.mem_of_find?_eq_some found)
  have listed : (s.run.tides.find? fun x => x.tide == v.tide && x.inst == v.inst).isSome := by
    rw [List.find?_isSome]
    exact ⟨v, known, by simp⟩
  obtain ⟨x, hx⟩ := Option.isSome_iff_exists.mp listed
  exact ⟨x.status, by rw [State.tideStatus?, hx]; rfl⟩

/-- Settles O58: sample groups start, and host-delegated layers ask. -/
theorem groupsStartAndLayersAsk : Obligations.GroupsStartAndLayersAsk := by
  unfold Obligations.GroupsStartAndLayersAsk
  intro s t table run
  refine ⟨fun n g found waits first => ⟨fun batch => ?_, fun b ps batch good whole => ?_, fun b ps batch good full idle segments checkpoints => ?_⟩,
    fun i dir u r c x y f tide layer cmd input output fmt master closed free => ?_⟩
  · have runs : exec (.groupForwardStart n) s = .next (s.groupForward t n) := congrArg Host.Outcome.next (State.onTides_eq table run _)
    rw [State.groupForward_waits found waits first batch] at runs
    exact ⟨_, runs, rfl, rfl⟩
  · have runs : exec (.groupForwardStart n) s = .next (s.groupForward t n) := congrArg Host.Outcome.next (State.onTides_eq table run _)
    rw [State.groupForward_starts found waits first batch good] at runs
    have ended := s.endWait_ended g
    have all := only_trans ended.rest (State.startGroup_only t g (batchTokens (s.batchBytes b)) (by decide) (only_refl _ (s.endWait g)))
    exact ⟨_, runs, all.same .mem (by decide), all.same .job (by decide), all.same .boot (by decide),
      State.startGroup_whole ended (List.mem_of_find?_eq_some found) whole⟩
  · have runs : exec (.groupForwardStart n) s = .next (s.groupForward t n) := congrArg Host.Outcome.next (State.onTides_eq table run _)
    rw [State.groupForward_starts found waits first batch good] at runs
    have ended := s.endWait_ended g
    have all := only_trans ended.rest (State.startGroup_only t g (batchTokens (s.batchBytes b)) (by decide) (only_refl _ (s.endWait g)))
    obtain ⟨counts, started⟩ := State.startGroup_recompute ended (List.mem_of_find?_eq_some found) full idle segments checkpoints
    exact ⟨_, runs, all.same .mem (by decide), all.same .job (by decide), all.same .boot (by decide), fun ok => (counts ok).2, started⟩
  · have runs : exec (.hostLayerRequest i dir) s = .next (s.hostRequest t i dir) := congrArg Host.Outcome.next (State.onTides_eq table run _)
    rw [State.hostRequest_asks tide layer cmd input output fmt master closed free] at runs
    obtain ⟨st, known⟩ := State.layerTide_status tide
    obtain ⟨but, runR⟩ := State.layerReported_spec u x f (s.layerBytes u x f).2 s
    generalize s.layerReported u x f (s.layerBytes u x f).2 = z at runs but runR
    have was : z.tideStatus? u.idx u.inst = some st := by
      unfold State.tideStatus?
      rw [runR]
      exact known
    have reqs : z.run.hostReqs = s.run.hostReqs := by rw [runR]
    have usec : z.usec = s.usec := but.rest.same .usec (by decide)
    obtain ⟨asked, opened, started, out⟩ := State.layerAsked_spec was r c i dir (t.areaOffset i dir) s.freeTag
      (s.layerRows u y * tCols y * elemBytes f) (s.layerBytes u x f).1
    rw [reqs] at opened
    generalize s.freeTag = tag at runs opened started out asked ⊢
    have rest : Only [.out, .pcie, .cqs, .log, .tm, .run] s z := only_mono but.rest (by decide)
    have all := only_trans rest asked
    refine ⟨_, ⟨tag, i, dir, u.idx, u.inst, c.sq, c.cid, z.usec, _⟩, runs, opened, rfl, rfl, rfl, usec, started, out, all.same .mem (by decide), all.same .job (by decide),
      all.same .boot (by decide), all.same .cmds (by decide)⟩

end Sys2Proof.Machine

/-! PROOF. What slack water decides and commits (R67, R171, R329), and a bucket reduced outside a harbour (R171 row 2). -/

namespace Sys2Proof.Machine

/-! ## The chandler leaves the run's decisions -/

theorem State.writePiece_runWrote (w : Bytes) (n k : Nat) (kept : Option (List Nat)) (c : TileCodes) (s : State) :
    s.RunWrote (s.writePiece w n k kept c) := by
  unfold State.writePiece
  lift_lets
  intro f off z y x
  have first : s.RunWrote y := State.memWrite_runWrote _ _ s
  have second : s.RunWrote x := by
    unfold x
    split
    · exact first
    · exact runWrote_trans first (State.memWrite_runWrote _ _ y)
  clear_value x
  split
  · exact second
  · exact runWrote_trans second (State.memWrite_runWrote _ _ x)

theorem State.requantize_runWrote (t : Table) (w : Bytes) (step n : Nat) (rebuild : Bool) (s : State) :
    s.RunWrote (s.requantize t w step n rebuild) := by
  unfold State.requantize
  extract_lets ms vs f y
  have counted : s.RunWrote y := runWrote_of_eq (State.count_run _ _ _)
  clear_value y
  refine runWrote_trans counted ?_
  split
  · split
    · exact runWrote_refl y
    · extract_lets a led x
      have ledger : y.RunWrote x := by
        unfold x
        split
        · exact State.memWrite_runWrote _ _ y
        · exact runWrote_refl y
      exact runWrote_trans ledger (State.writePiece_runWrote _ _ _ _ _ x)
  · split
    · exact State.writePiece_runWrote _ _ _ _ _ y
    · split
      · exact foldl_runWrote (fun x p => State.writePiece_runWrote _ _ _ _ _ x) _ y
      · exact State.writePiece_runWrote _ _ _ _ _ y

theorem State.chandleTile_runWrote (t : Table) (w : Bytes) (lam : Int) (odd : Bool) (applied step n : Nat) (s : State) :
    s.RunWrote (s.chandleTile t w lam odd applied step n) := by
  unfold State.chandleTile
  extract_lets es gamma ms m1 m2 pile
  split
  · exact runWrote_refl s
  · exact runWrote_refl s
  · extract_lets c new a b d
    have masters : s.RunWrote a := State.memWrite_runWrote _ _ s
    have firsts : a.RunWrote b := State.memWrite_runWrote _ _ a
    have seconds : b.RunWrote d := State.memWrite_runWrote _ _ b
    have counted : d.RunWrote ((d.count (tpAt pile 0x00) (4 * 2048)).count (tpAt pile 0x30) es.length) :=
      runWrote_of_eq (by rw [State.count_run, State.count_run])
    exact runWrote_trans masters (runWrote_trans firsts (runWrote_trans seconds (runWrote_trans counted (State.requantize_runWrote _ _ _ _ _ _))))

theorem State.chandle_runWrote (t : Table) (lam : Int) (odd : Bool) (applied step : Nat) (s : State) :
    s.RunWrote (s.chandle t lam odd applied step) :=
  foldl_runWrote (fun y _ => foldl_runWrote (fun x _ => State.chandleTile_runWrote _ _ _ _ _ _ _ x) _ y) _ s

/-! ## The decision -/

/-- A decision keeps the step's number and stands in the run. -/
theorem State.decide_spec (t : Table) (odd : Bool) (s : State) :
    (s.decide t odd).run.outcome = s.outcomeOf t ∧ (s.decide t odd).job.step = s.job.step := by
  unfold State.decide
  extract_lets stats o before a b x d e
  have ready : b.run.outcome = o ∧ b.job = s.job := by
    unfold b
    split
    · have run : a.RunWrote (a.chandle t before.lam odd (before.applied + 1) a.job.step) := State.chandle_runWrote _ _ _ _ _ a
      have job : (a.chandle t before.lam odd (before.applied + 1) a.job.step).job = a.job :=
        (State.chandle_only _ _ _ _ _ (List.Subset.refl _) (only_refl _ a)).same .job (by decide)
      refine ⟨?_, job⟩
      rw [run]
      rfl
    · exact ⟨rfl, rfl⟩
  clear_value b
  obtain ⟨outcome, job⟩ := ready
  have kept : b.job.step = s.job.step := congrArg Job.step job
  have step : d.job.step = s.job.step := kept
  have decided : d.run.outcome = o := outcome
  clear_value d
  have told : Only [.out, .pcie, .log, .tm] d e := by
    unfold e
    split
    · exact State.formatEvents_only _ _ (by decide) (only_refl _ d)
    · exact only_refl _ d
  clear_value e
  have all := State.scaleEvents_only before stats (by decide) told
  exact ⟨(congrArg Run.outcome (all.same .run (by decide))).trans decided, (congrArg Job.step (all.same .job (by decide))).trans step⟩

theorem State.outcomeOf_congr {s y : State} (t : Table) (harbour : y.harbour = s.harbour) (probe : y.run.probe = s.run.probe)
    (cliff : y.run.stepCliff = s.run.stepCliff) (nar : y.run.stepNar = s.run.stepNar) (stats : y.run.stats = s.run.stats)
    (reduced : y.run.reduced = s.run.reduced) : y.outcomeOf t = s.outcomeOf t := by
  unfold State.outcomeOf State.stepFlags State.stepStats
  rw [harbour, probe, cliff, nar, stats, reduced]

/-! ## The commit of its records -/

theorem State.makeRoom_journal (t : Table) (rs : List Bytes) (s : State) : (s.makeRoom t rs).journal =
    if s.fitsOwn rs then s.journal else { s.journal with own := compacted t.retained s.journal.own, compacting := false } := by
  unfold State.makeRoom
  split
  · rfl
  · obtain ⟨fs, eq⟩ := State.compact_own t s
    rw [eq, State.raiseModule_journal]

theorem State.fitsOwn_congr {s y : State} (journal : y.journal = s.journal) (rs : List Bytes) : y.fitsOwn rs = s.fitsOwn rs := by
  unfold State.fitsOwn
  rw [journal]

theorem State.makeRoom_journal_congr {s y : State} (journal : y.journal = s.journal) (t : Table) (rs : List Bytes) :
    (y.makeRoom t rs).journal = (s.makeRoom t rs).journal := by
  rw [State.makeRoom_journal, State.makeRoom_journal, State.fitsOwn_congr journal, journal]

theorem State.makeRoom_flash (t : Table) (rs : List Bytes) (s : State) : (s.makeRoom t rs).journal.flashOk = s.journal.flashOk := by
  rw [State.makeRoom_journal]
  split <;> rfl

theorem State.makeRoom_suspended (t : Table) (rs : List Bytes) (s : State) : (s.makeRoom t rs).journal.suspended = s.journal.suspended := by
  rw [State.makeRoom_journal]
  split <;> rfl

theorem State.mirrors_congr {s y : State} (job : y.job = s.job) (harbour : y.harbour = s.harbour) (ports : y.ports = s.ports)
    (suspended : y.journal.suspended = s.journal.suspended) : y.mirrors = s.mirrors := by
  unfold State.mirrors State.partnerPresent State.port
  rw [job, harbour, ports, suspended]

/-- Records for which the journal has room, once compacted, begin their commit. -/
theorem State.startCommit_begins {s : State} {t : Table} {rs : List Bytes} (snap : Bool) (flash : s.journal.flashOk = true)
    (room : (s.makeRoom t rs).fitsOwn rs = true) : Only [.out, .pcie, .log, .tm, .journal, .ports] s (s.startCommit t rs snap)
      ∧ (s.startCommit t rs snap).journal.commit = some ⟨rs, false, s.mirrors, true, snap⟩ := by
  have rest := s.makeRoom_rest t rs
  have mirrors : (s.makeRoom t rs).mirrors = s.mirrors :=
    State.mirrors_congr (rest.same .job (by decide)) (rest.same .harbour (by decide)) (rest.same .ports (by decide)) (s.makeRoom_suspended t rs)
  have begins : s.startCommit t rs snap =
      ((s.makeRoom t rs).modJournal fun j => { j with commit := some ⟨rs, false, s.mirrors, true, snap⟩ }).mirrorOut rs := by
    unfold State.startCommit
    dsimp only
    rw [if_neg (by simp [room, s.makeRoom_flash t rs, flash]), mirrors]
  rw [begins]
  have written : Only [.out, .pcie, .log, .tm, .journal, .ports] s
      ((s.makeRoom t rs).modJournal fun j => { j with commit := some ⟨rs, false, s.mirrors, true, snap⟩ }) :=
    modJournal_only _ (by decide) (only_mono rest (by decide))
  have commit : ((s.makeRoom t rs).modJournal fun j => { j with commit := some ⟨rs, false, s.mirrors, true, snap⟩ }).journal.commit
      = some ⟨rs, false, s.mirrors, true, snap⟩ := rfl
  generalize State.modJournal _ _ = x at written commit
  have out : Only [.out, .pcie, .log, .tm, .ports] x (x.mirrorOut rs) := State.mirrorOut_only rs (by decide) (only_refl _ x)
  exact ⟨only_trans written (only_mono out (by decide)), (congrArg Journal.commit (out.same .journal (by decide))).trans commit⟩

/-- Records without room, or without a flash, are a module fault. -/
theorem State.startCommit_faults {s : State} {t : Table} {rs : List Bytes} (snap : Bool)
    (full : ¬ (s.journal.flashOk = true ∧ (s.makeRoom t rs).fitsOwn rs = true)) :
    (s.startCommit t rs snap).mode = .faulted ∧ (s.startCommit t rs snap).boot = (s.enter .faulted).boot := by
  have faults : s.startCommit t rs snap = (s.makeRoom t rs).moduleFault := by
    unfold State.startCommit
    dsimp only
    refine if_pos ?_
    rw [s.makeRoom_flash t rs]
    cases flash : s.journal.flashOk
    · simp
    · have short : (s.makeRoom t rs).fitsOwn rs = false := Bool.not_eq_true _ ▸ fun room => full ⟨flash, room⟩
      rw [short]
      rfl
  rw [faults]
  exact ⟨State.moduleFault_mode _,
    (State.moduleFault_boot _).trans (State.enter_boot_congr _ ((s.makeRoom_rest t rs).same .boot (by decide)))⟩

/-! ## A bucket outside a harbour -/

theorem State.reduceAlone_bucket (t : Table) (b : Bytes) (s : State) :
    (s.reduceAlone t b).harbour.link.bucket = s.harbour.link.bucket + 1 := by
  unfold State.reduceAlone
  extract_lets c y x
  have told : Only [.out, .pcie, .log, .tm, .run] s y :=
    State.convertNar_only _ (by decide) (State.convertCliff_only _ _ (by decide) (only_refl _ s))
  have written : Only [.out, .pcie, .log, .tm, .mem, .run, .quays, .snap] s x := by
    unfold x
    split
    · exact only_mono told (by decide)
    · exact State.writeG16_only _ _ _ _ _ (by decide) (only_mono told (by decide))
  clear_value x
  have same := written.same .harbour (by decide)
  exact congrArg (fun h : Harbour => h.link.bucket + 1) same

end Sys2Proof.Machine

/-! PROOF. The boundary of a decode step: its tokens, the end of the run and the next cycle (R181 to R184, R371, R373). -/

namespace Sys2Proof.Machine

/-! ## Tokens taken -/

theorem State.finishCmd_cmds (c : Cmd) (st : Status) (r0 r1 : Nat) (s : State) :
    (s.finishCmd c st r0 r1).cmds = s.cmds.filter fun d => !(d.sq == c.sq && d.cid == c.cid) := by
  have out : Only [.cmds] s (s.modCmds fun l => l.filter fun d => !(d.sq == c.sq && d.cid == c.cid)) := modCmds_only _ (by decide) (only_refl _ s)
  have cmds : (s.modCmds fun l => l.filter fun d => !(d.sq == c.sq && d.cid == c.cid)).cmds = s.cmds.filter fun d => !(d.sq == c.sq && d.cid == c.cid) := rfl
  unfold State.finishCmd
  extract_lets late y z x
  have told : Only [.out, .pcie, .log, .tm] y x := by
    unfold x z
    split
    · exact only_refl _ y
    · exact State.raise_only _ _ _ _ (by decide) (State.count_only _ _ (by decide) (only_refl _ y))
  clear_value x
  exact ((State.post_only _ _ (List.Subset.refl _) (only_refl _ x)).same .cmds (by decide)).trans ((told.same .cmds (by decide)).trans cmds)

/-- What the tokens of some requests leave: of the run only the requests change, and other commands stay outstanding. -/
structure State.TokensTaken (rs : List ServeReq) (s y : State) : Prop where
  rest : Only [.out, .pcie, .cqs, .cmds, .log, .tm, .run] s y
  run : y.run = { s.run with serves := y.run.serves }
  sent : s.out <+: y.out
  cmds : ∃ keep : Cmd → Bool, (∀ d, (∀ r ∈ rs, ¬ (d.sq = r.sq ∧ d.cid = r.cid)) → keep d = true) ∧ y.cmds = s.cmds.filter keep

theorem tokensTaken_refl (rs : List ServeReq) (s : State) : s.TokensTaken rs s :=
  ⟨only_refl _ s, rfl, List.prefix_refl _, fun _ => true, fun _ _ => rfl, (List.filter_eq_self.mpr fun _ _ => rfl).symm⟩

theorem tokensTaken_trans {ps rs : List ServeReq} {s x y : State} (h : s.TokensTaken ps x) (g : x.TokensTaken rs y) :
    s.TokensTaken (ps ++ rs) y := by
  obtain ⟨k, keeps, cmds⟩ := h.cmds
  obtain ⟨l, stays, left⟩ := g.cmds
  refine ⟨only_trans h.rest g.rest, by rw [g.run, h.run], h.sent.trans g.sent, fun d => k d && l d, fun d other => ?_, ?_⟩
  · show (k d && l d) = true
    rw [keeps d fun r mem => other r (List.mem_append_left _ mem), stays d fun r mem => other r (List.mem_append_right _ mem)]
    rfl
  · rw [left, cmds, List.filter_filter]
    simp only [Bool.and_comm]

namespace State.TokensTaken

variable {rs : List ServeReq} {s y : State}

/-- A command that no token ends is found as before. -/
theorem cmd? (h : s.TokensTaken rs y) {sq cid : Nat} (other : ∀ r ∈ rs, ¬ (sq = r.sq ∧ cid = r.cid)) : y.cmd? sq cid = s.cmd? sq cid := by
  obtain ⟨keep, keeps, cmds⟩ := h.cmds
  unfold State.cmd?
  rw [cmds, List.find?_filter]
  refine congrArg (fun p => s.cmds.find? p) (funext fun d => ?_)
  cases hit : d.sq == sq && d.cid == cid
  · simp
  · obtain ⟨rfl, rfl⟩ : d.sq = sq ∧ d.cid = cid := by simpa using hit
    simp [keeps d other]

/-- A command that no token ends stays outstanding. -/
theorem mem_cmdsOf (h : s.TokensTaken rs y) {c : Cmd} {op : Nat} (mem : c ∈ s.cmdsOf op) (other : ∀ r ∈ rs, ¬ (c.sq = r.sq ∧ c.cid = r.cid)) :
    c ∈ y.cmdsOf op := by
  obtain ⟨keep, keeps, cmds⟩ := h.cmds
  obtain ⟨listed, isOp⟩ := List.mem_filter.mp mem
  unfold State.cmdsOf
  rw [cmds]
  exact List.mem_filter.mpr ⟨List.mem_filter.mpr ⟨listed, keeps c other⟩, isOp⟩

end State.TokensTaken

/-- The token that a request takes at a boundary. -/
def ServeReq.token (t : Table) (c : Cmd) (logits : List Val) (r : ServeReq) : Nat :=
  if r.spoiled then 0xFFFFFFFF else pickToken t c r logits

/-- A token is written to its request's output. -/
theorem State.takeToken_takes (t : Table) (logits : List Val) (r : ServeReq) (s : State) : s.TokensTaken [r] (s.takeToken t logits r)
    ∧ ∀ c, s.cmd? r.sq r.cid = some c →
      .hostWrite (eOutput c.entry + 4 * r.output.length) (toLe 4 (r.token t c logits)) false ∈ (s.takeToken t logits r).out := by
  have rest := State.takeToken_only t logits r (List.Subset.refl _) (only_refl _ s)
  have sent := (State.takeToken_kept t logits r (kept_refl s)).sent
  suffices h : ((s.takeToken t logits r).run = { s.run with serves := (s.takeToken t logits r).run.serves })
      ∧ (∃ keep : Cmd → Bool, (∀ d, ¬ (d.sq = r.sq ∧ d.cid = r.cid) → keep d = true) ∧ (s.takeToken t logits r).cmds = s.cmds.filter keep)
      ∧ ∀ c, s.cmd? r.sq r.cid = some c →
        .hostWrite (eOutput c.entry + 4 * r.output.length) (toLe 4 (r.token t c logits)) false ∈ (s.takeToken t logits r).out by
    obtain ⟨run, ⟨keep, keeps, cmds⟩, out⟩ := h
    exact ⟨⟨rest, run, sent, keep, fun d other => keeps d (other r (List.mem_singleton.mpr rfl)), cmds⟩, out⟩
  have every : (∃ keep : Cmd → Bool, (∀ d, ¬ (d.sq = r.sq ∧ d.cid = r.cid) → keep d = true) ∧ s.cmds = s.cmds.filter keep) :=
    ⟨fun _ => true, fun _ _ => rfl, (List.filter_eq_self.mpr fun _ _ => rfl).symm⟩
  unfold State.takeToken
  split
  next none => exact ⟨rfl, every, fun c found => by rw [none] at found; cases found⟩
  next c found =>
    obtain ⟨sq, cid⟩ : c.sq = r.sq ∧ c.cid = r.cid := by simpa using List.find?_some found
    extract_lets v r' y
    have noted := (s.emit (.hostWrite (eOutput c.entry + 4 * r.output.length) (toLe 4 v) false)).count_noted (tmAt 0x70) 1
    have run : y.run = { s.run with serves := y.run.serves } := by
      unfold y
      rw [State.modRun_run, noted.run]
      rfl
    have cmds : y.cmds = s.cmds := noted.cmds
    have out : .hostWrite (eOutput c.entry + 4 * r.output.length) (toLe 4 v) false ∈ y.out :=
      noted.sent.subset (List.mem_append_right _ (List.mem_singleton.mpr rfl))
    have token : ∀ d, s.cmd? r.sq r.cid = some d →
        .hostWrite (eOutput d.entry + 4 * r.output.length) (toLe 4 (r.token t d logits)) false ∈ y.out := fun d same => by
      rw [found] at same
      cases same
      exact out
    clear_value y
    split
    · have ended := State.finishServe_kept c .ok (kept_refl y)
      have run' : (y.finishServe c .ok).run = y.run := State.finishCmd_run y c _ _ _
      have cmds' : (y.finishServe c .ok).cmds = s.cmds.filter fun d => !(d.sq == r.sq && d.cid == r.cid) := by
        rw [← cmds, ← sq, ← cid]
        exact State.finishCmd_cmds c _ _ _ y
      refine ⟨?_, ⟨_, fun d other => ?_, cmds'⟩, fun d same => ended.sent.subset (token d same)⟩
      · rw [State.modRun_run, run', run]
      · have apart := not_and_or.mp other
        simpa using apart
    · refine ⟨run, ?_, token⟩
      rw [cmds]
      exact every

/-- The tokens of several requests. -/
theorem State.takeTokens_taken (t : Table) (l : List (ServeReq × List Val)) (s : State) :
    s.TokensTaken (l.map (·.1)) (l.foldl (fun s p => s.takeToken t p.2 p.1) s) := by
  induction l generalizing s with
  | nil => exact tokensTaken_refl _ s
  | cons p l ih => exact tokensTaken_trans (s.takeToken_takes t p.2 p.1).1 (ih _)

/-- Each of the requests has its token, where no other has its command. -/
theorem State.takeTokens_writes (t : Table) {r : ServeReq} {logits : List Val} {c : Cmd} (l : List (ServeReq × List Val)) (s : State)
    (mem : (r, logits) ∈ l) (alone : ∀ p ∈ l, p.1.sq = r.sq → p.1.cid = r.cid → p = (r, logits)) (found : s.cmd? r.sq r.cid = some c) :
    .hostWrite (eOutput c.entry + 4 * r.output.length) (toLe 4 (r.token t c logits)) false
      ∈ (l.foldl (fun s p => s.takeToken t p.2 p.1) s).out := by
  induction l generalizing s with
  | nil => cases mem
  | cons p l ih =>
    obtain ⟨taken, written⟩ := s.takeToken_takes t p.2 p.1
    by_cases here : p = (r, logits)
    · subst here
      exact (State.takeTokens_taken t l _).sent.subset (written c found)
    · have later : (r, logits) ∈ l := (List.mem_cons.mp mem).resolve_left (Ne.symm here)
      refine ih _ later (fun q hq => alone q (List.mem_cons_of_mem _ hq)) ?_
      rw [taken.cmd? fun q hq => ?_]
      · exact found
      · obtain rfl := List.mem_singleton.mp hq
        exact fun same => here (alone p List.mem_cons_self same.1.symm same.2.symm)

/-! ## The boundary -/

/-- The state after the tokens of a decode step. -/
def State.tokensOf (t : Table) (s : State) : State :=
  ((s.run.serves.filter fun r => r.decoding t).map fun r => (r, s.logitsOf t r)).foldl (fun s p => s.takeToken t p.2 p.1) s

theorem State.boundary_eq {s : State} {t : Table} (mode : s.mode = .running) (kind : s.run.kind = .serving)
    (done : (s.run.tides.all fun u => u.status == .done) = true) : s.boundary t =
      if (s.tokensOf t).run.closing || !((s.tokensOf t).cmdsOf opHalt).isEmpty then (s.tokensOf t).endRun .aborted .configured
      else if (s.tokensOf t).run.serves.isEmpty then (s.tokensOf t).endRun .ok .configured
      else (s.tokensOf t).nextCycle t := by
  unfold State.boundary
  dsimp only
  rw [if_neg (by simp [mode, kind, done])]
  rfl

theorem State.tokensOf_taken (t : Table) (s : State) : s.TokensTaken (s.run.serves.filter fun r => r.decoding t) (s.tokensOf t) := by
  have taken := State.takeTokens_taken t ((s.run.serves.filter fun r => r.decoding t).map fun r => (r, s.logitsOf t r)) s
  rw [List.map_map, show (fun p : ServeReq × List Val => p.1) ∘ (fun r => (r, s.logitsOf t r)) = id from rfl, List.map_id] at taken
  exact taken

theorem State.tokensOf_writes {s : State} {t : Table} {r : ServeReq} {c : Cmd} (mem : r ∈ s.run.serves) (decoding : r.decoding t = true)
    (found : s.cmd? r.sq r.cid = some c) (alone : ∀ x ∈ s.run.serves, x.sq = r.sq → x.cid = r.cid → x = r) :
    .hostWrite (eOutput c.entry + 4 * r.output.length) (toLe 4 (r.token t c (s.logitsOf t r))) false ∈ (s.tokensOf t).out := by
  refine State.takeTokens_writes t _ s (List.mem_map.mpr ⟨r, List.mem_filter.mpr ⟨mem, decoding⟩, rfl⟩) (fun p hp sq cid => ?_) found
  obtain ⟨x, hx, rfl⟩ := List.mem_map.mp hp
  rw [alone x (List.mem_filter.mp hx).1 sq cid]

theorem State.endRun_kind (st : Status) (m : ModuleState) (s : State) : (s.endRun st m).run.kind = .none := by
  unfold State.endRun
  extract_lets y
  have leaves : Only [.boot, .stalls] ((y.modRun fun r => { Run.reset with nextTag := r.nextTag }).modHarbour fun h =>
      { h with decided := false, link := h.link.cleared }) (State.enter m (State.idleStalls ((y.modRun fun r =>
      { Run.reset with nextTag := r.nextTag }).modHarbour fun h => { h with decided := false, link := h.link.cleared }))) :=
    State.enter_only m (by decide) (State.idleStalls_only (by decide) (only_refl _ _))
  rw [leaves.same .run (by decide)]
  rfl

theorem State.boundary_mem (t : Table) (s : State) : (s.boundary t).mem = s.mem :=
  (State.boundary_only t (List.Subset.refl _) (only_refl _ s)).same .mem (by decide)

theorem State.endRun_resetDue (st : Status) (m : ModuleState) (s : State) : (s.endRun st m).boot.resetDue = s.boot.resetDue := by
  rw [State.endRun_boot, State.enter_resetDue]

/-- A boundary takes no reset. -/
theorem State.boundary_resetDue (t : Table) {s : State} (mode : s.mode = .running) (kind : s.run.kind = .serving)
    (done : (s.run.tides.all fun u => u.status == .done) = true) : (s.boundary t).boot.resetDue = s.boot.resetDue := by
  have boot : (s.tokensOf t).boot = s.boot := (s.tokensOf_taken t).rest.same .boot (by decide)
  rw [State.boundary_eq mode kind done]
  split
  · rw [State.endRun_resetDue, boot]
  · split
    · rw [State.endRun_resetDue, boot]
    · have next_ : Only [.job, .run] (s.tokensOf t) ((s.tokensOf t).nextCycle t) :=
        State.nextCycle_only t (List.Subset.refl _) (only_refl _ (s.tokensOf t))
      rw [next_.same .boot (by decide), boot]

/-! ## The next cycle -/

theorem giveSlots_length (slots : Nat) (done l : List ServeReq) : (giveSlots slots done l).length = done.length + l.length := by
  induction l generalizing done with
  | nil => rfl
  | cons r rest ih =>
    unfold giveSlots
    rw [ih, List.length_append, List.length_singleton, List.length_cons]
    omega

theorem State.nextCycle_next (t : Table) (s : State) : Only [.job, .run] s (s.nextCycle t)
    ∧ (s.nextCycle t).run.serves.length = s.run.serves.length ∧ (s.nextCycle t).run.admits = []
    ∧ (s.nextCycle t).job = { s.job with progress := (s.nextCycle t).job.progress } := by
  refine ⟨State.nextCycle_only t (List.Subset.refl _) (only_refl _ s), ?_⟩
  unfold State.nextCycle
  extract_lets l prefill decode us m
  have length : m.length = s.run.serves.length := by
    unfold m l
    rw [List.length_map, giveSlots_length, List.length_nil, Nat.zero_add]
  obtain ⟨ts, n, eq⟩ := State.passBarriers_over t (s.modRun fun x =>
    { x with serves := m, decodes := if decode then x.decodes + 1 else x.decodes, admits := [], gated := [], rowParts := [],
             once := [], tides := (x.tides.filter fun u => t.rangeOf u.tide == 0) ++ us })
  rw [eq]
  exact ⟨length, rfl, rfl⟩

end Sys2Proof.Machine

/-! PROOF. Slack water and the boundaries of a run (R70, R171, R181, R329, R371). -/

namespace Sys2Proof.Machine

theorem State.onTable_eq {s : State} {t : Table} (table : s.job.table = some t) (f : Table → State → State) :
    s.onTable f = (f t s).settleReset := by
  unfold State.onTable
  rw [table]

/-- Entry to SLACK. -/
def State.intoSlack (s : State) : State := (s.enter .slack).modRun fun r => { r with slack := .reducing }

theorem State.intoSlack_spec (s : State) : Only [.boot, .run] s s.intoSlack ∧ s.intoSlack.mode = .slack
    ∧ s.intoSlack.boot.resetDue = s.boot.resetDue ∧ s.intoSlack.boot.svn = s.boot.svn
    ∧ s.intoSlack.run = { s.run with slack := .reducing } := by
  have entered : Only [.boot] s (s.enter .slack) := State.enter_only .slack (List.Subset.refl _) (only_refl _ s)
  refine ⟨modRun_only _ (by decide) (only_mono entered (by decide)), State.enter_mode .slack s, State.enter_resetDue .slack s,
    State.enter_svn .slack s, ?_⟩
  unfold State.intoSlack
  rw [State.modRun_run, entered.same .run (by decide)]

theorem State.slackWater_enters {s : State} {t : Table} (mode : s.mode = .running) (kind : s.run.kind = .training) (slack : s.run.slack = .none)
    (done : s.tidesDone = true) (census : s.harbour.inCensus = false) : s.slackWater t = s.intoSlack.decideStep t := by
  unfold State.slackWater
  rw [if_neg (by simp [kind, done, census]), if_pos (by simp [mode, slack])]
  rfl

theorem State.intoSlack_stepDone (t : Table) (s : State) : s.intoSlack.stepDone t = s.stepDone t := by
  obtain ⟨rest, -, -, -, run⟩ := s.intoSlack_spec
  unfold State.stepDone State.tidesDone
  rw [run, rest.same .harbour (by decide)]

/-- The decisions of a step whose statistics are complete, and the snapshot that they start. -/
def State.decided (t : Table) (s : State) : State := (s.intoSlack.harbourWait.decide t false).planSnapshot t

theorem State.decided_spec (t : Table) (s : State) : (s.decided t).boot = s.intoSlack.boot ∧ (s.decided t).run.outcome = s.outcomeOf t
    ∧ (s.decided t).job.step = s.job.step := by
  obtain ⟨rest, -, -, -, run⟩ := s.intoSlack_spec
  unfold State.decided
  generalize s.intoSlack = z at rest run
  have waited : Only [.cmds] z z.harbourWait := State.harbourWait_only (List.Subset.refl _) (only_refl _ z)
  have outcome : z.harbourWait.outcomeOf t = s.outcomeOf t := by
    have same : z.harbourWait.run = { s.run with slack := .reducing } := (waited.same .run (by decide)).trans run
    refine State.outcomeOf_congr t ((waited.same .harbour (by decide)).trans (rest.same .harbour (by decide))) ?_ ?_ ?_ ?_ ?_ <;> rw [same]
  have step : z.harbourWait.job.step = s.job.step := by rw [waited.same .job (by decide), rest.same .job (by decide)]
  obtain ⟨decides, keeps⟩ := State.decide_spec t false z.harbourWait
  have only := State.decide_only t false (List.Subset.refl _) (only_refl _ z.harbourWait)
  have boot : (z.harbourWait.decide t false).boot = z.boot := (only.same .boot (by decide)).trans (waited.same .boot (by decide))
  generalize z.harbourWait.decide t false = x at decides keeps boot
  have planned := State.planSnapshot_only t (List.Subset.refl _) (only_refl _ x)
  exact ⟨(planned.same .boot (by decide)).trans boot, by rw [planned.same .run (by decide), decides, outcome],
    by rw [planned.same .job (by decide), keeps, step]⟩

/-- The records of a commit: the snapshot-complete record, where one is due, and the step record. -/
def State.stepRecords (t : Table) (y : State) : List Bytes :=
  let first := if y.snap.recordDue then [(y.recorded t).buildRecord t 3 0 y.journal.nextSeq y.snap.step [(3, snapEntry y.snap 2)]] else []
  first ++ [y.stepRecord t (y.journal.nextSeq + first.length)]

/-- The commit of the step under way. -/
def State.committing (y : State) : State := y.modRun fun r => { r with slack := .committing }

theorem State.decideStep_commits {s : State} {t : Table} (done : s.stepDone t = true)
    (free : (if s.outcomeOf t = .applied then t.chandlerReach else []).findSome? (fun r => s.refusedPage .quayUnit r.1 r.2.1 r.2.2) = none) :
    s.intoSlack.decideStep t = (s.decided t).committing.startCommit t ((s.decided t).stepRecords t) (s.decided t).snap.recordDue := by
  obtain ⟨rest, -, -, -, run⟩ := s.intoSlack_spec
  have outcome : s.intoSlack.outcomeOf t = s.outcomeOf t := by
    refine State.outcomeOf_congr t (rest.same .harbour (by decide)) ?_ ?_ ?_ ?_ ?_ <;> rw [run]
  have reach : (if s.outcomeOf t = .applied then t.chandlerReach else []).findSome?
      (fun r => s.intoSlack.refusedPage .quayUnit r.1 r.2.1 r.2.2) = none := by
    rw [← free]
    refine congrArg (fun f => List.findSome? f _) (funext fun r => ?_)
    exact State.refusedPage_congr (congrArg Mem.classes (rest.same .mem (by decide))) _ _ _ _
  unfold State.decideStep
  rw [s.intoSlack_stepDone t, done, if_neg (by decide), outcome, State.guarded_all reach]
  rfl

/-- Slack water commits the step, or faults where the journal cannot take its records. -/
theorem State.commit_ends {s y : State} {t : Table} {rs : List Bytes} {o : StepOutcome} {n : Nat} (mode : s.mode = .slack)
    (due : s.boot.resetDue = false) (boot : y.boot = s.boot) (outcome : y.run.outcome = o) (step : y.job.step = n) (snap : Bool) :
    (y.committing.startCommit t rs snap).boot.resetDue = false ∧ (y.committing.startCommit t rs snap).boot.svn = s.boot.svn
      ∧ if y.journal.flashOk = true ∧ (y.makeRoom t rs).fitsOwn rs = true then
          (y.committing.startCommit t rs snap).mode = .slack ∧ (y.committing.startCommit t rs snap).run.slack = .committing
            ∧ (y.committing.startCommit t rs snap).run.outcome = o ∧ (y.committing.startCommit t rs snap).job.step = n
            ∧ (y.committing.startCommit t rs snap).journal.commit = some ⟨rs, false, y.mirrors, true, snap⟩
        else (y.committing.startCommit t rs snap).mode = .faulted := by
  have rest : Only [.run] y y.committing := modRun_only _ (List.Subset.refl _) (only_refl _ y)
  have slack : y.committing.run.slack = .committing := rfl
  have chosen : y.committing.run.outcome = o := outcome
  have room : (y.committing.makeRoom t rs).fitsOwn rs = (y.makeRoom t rs).fitsOwn rs :=
    State.fitsOwn_congr (State.makeRoom_journal_congr (rest.same .journal (by decide)) t rs) rs
  have mirrors : y.committing.mirrors = y.mirrors := State.mirrors_congr rfl rfl rfl rfl
  have flash : y.committing.journal.flashOk = y.journal.flashOk := rfl
  have boots : y.committing.boot = s.boot := boot
  have steps : y.committing.job.step = n := step
  generalize y.committing = x at rest slack chosen room mirrors flash boots steps
  rw [← room, ← flash]
  split
  next ok =>
    obtain ⟨flash, fits⟩ := ok
    obtain ⟨begun, commit⟩ := State.startCommit_begins snap flash fits
    have same : (x.startCommit t rs snap).boot = s.boot := (begun.same .boot (by decide)).trans boots
    have run := begun.same .run (by decide)
    refine ⟨by rw [same, due], by rw [same], ?_, (congrArg Run.slack run).trans slack, (congrArg Run.outcome run).trans chosen,
      (congrArg Job.step (begun.same .job (by decide))).trans steps, commit.trans (by rw [mirrors])⟩
    rw [State.mode, same]
    exact mode
  next full =>
    obtain ⟨faulted, same⟩ := State.startCommit_faults snap full
    refine ⟨?_, ?_, faulted⟩
    · rw [same, State.enter_resetDue, boots, due]
    · rw [same, State.enter_svn, boots]

/-- A bucket whose regions have completed is reduced where it stands. -/
theorem State.reduceBucket_alone {s : State} {t : Table} {b : Bytes} (mode : s.mode = .running) (kind : s.run.kind = .training)
    (slack : s.run.slack = .none) (idle : s.harbour.link.active = false) (census : s.harbour.inCensus = false) (alone : s.harbour.joined = false)
    (cur : s.curBucket t = some b) (ready : s.bucketReady t b = true)
    (free : (t.bucketReach b).findSome? (fun r => s.refusedPage .linkEngine r.1 r.2.1 r.2.2) = none) :
    s.reduceBucket t = (s.modJob fun j => { j with progress := j.progress + 1 }).reduceAlone t b := by
  have run : s.inRun = true := by
    unfold State.inRun
    rw [show s.boot.mode = .running from mode]
    rfl
  unfold State.reduceBucket
  rw [if_neg (by simp [run, kind, State.stepOpen, slack, idle, census]), cur]
  dsimp only
  rw [if_neg (by simp [ready]), State.guarded_all free]
  rw [if_pos (by simp [State.modJob, alone])]

theorem State.boundary_sent (t : Table) {s : State} (mode : s.mode = .running) (kind : s.run.kind = .serving)
    (done : (s.run.tides.all fun u => u.status == .done) = true) : (s.tokensOf t).out <+: (s.boundary t).out := by
  rw [State.boundary_eq mode kind done]
  generalize s.tokensOf t = y
  split
  · exact (State.endRun_kept _ _ (kept_refl y)).sent
  · split
    · exact (State.endRun_kept _ _ (kept_refl y)).sent
    · exact (State.nextCycle_kept t (kept_refl y)).sent

/-- A halt or a host that has gone ends the run. -/
theorem State.boundary_ends {s : State} {t : Table} (mode : s.mode = .running) (kind : s.run.kind = .serving)
    (done : (s.run.tides.all fun u => u.status == .done) = true) (ends : s.run.closing = true ∨ s.cmdsOf opHalt ≠ [])
    (halts : ∀ r ∈ s.run.serves, ∀ c ∈ s.cmdsOf opHalt, ¬ (c.sq = r.sq ∧ c.cid = r.cid)) :
    s.boundary t = (s.tokensOf t).endRun .aborted .configured := by
  have taken := s.tokensOf_taken t
  rw [State.boundary_eq mode kind done]
  refine if_pos ?_
  rcases ends with closing | halted
  · rw [taken.run, closing]
    rfl
  · obtain ⟨c, mem⟩ := List.exists_mem_of_ne_nil _ halted
    have stays := taken.mem_cmdsOf mem fun r hr => halts r (List.mem_filter.mp hr).1 c mem
    simp [List.ne_nil_of_mem stays]

/-- Without a halt, and where no request decodes, the run goes on. -/
theorem State.boundary_goes {s : State} {t : Table} (mode : s.mode = .running) (kind : s.run.kind = .serving)
    (done : (s.run.tides.all fun u => u.status == .done) = true) (goes : s.run.closing = false) (calm : s.cmdsOf opHalt = [])
    (requests : s.run.serves ≠ []) (idle : ∀ r ∈ s.run.serves, r.decoding t = false) : s.boundary t = s.nextCycle t := by
  have same : s.tokensOf t = s := by
    unfold State.tokensOf
    rw [List.filter_eq_nil_iff.mpr fun r hr => by simp [idle r hr]]
    rfl
  rw [State.boundary_eq mode kind done, same, if_neg (by simp [goes, calm]), if_neg (by simp [requests])]

/-- Settles O59: slack water, bucket reduction and decode-step boundaries. -/
theorem runsReachTheirBoundaries : Obligations.RunsReachTheirBoundaries := by
  unfold Obligations.RunsReachTheirBoundaries
  intro s t table mode due
  have settled : ∀ {y : State}, y.boot.resetDue = false → y.settleReset = y := fun h => State.settleReset_none h
  have slackRuns : exec .slackWater s = .next (s.slackWater t).settleReset := congrArg Host.Outcome.next (State.onTable_eq table _)
  refine ⟨fun kind undone => ?_, fun kind slack done census => ⟨fun undone => ?_, fun stepDone free => ?_⟩,
    fun b kind slack idle census alone cur ready free => ?_, fun kind done => ?_⟩
  · have still : s.slackWater t = s := by
      unfold State.slackWater
      exact if_pos (by simp [undone])
    rw [slackRuns, still, settled due]
  · obtain ⟨-, -, same, -⟩ := s.intoSlack_spec
    have still : s.intoSlack.decideStep t = s.intoSlack := by
      unfold State.decideStep
      rw [s.intoSlack_stepDone t, undone]
      rfl
    rw [slackRuns, State.slackWater_enters mode kind slack done census, still, settled (same.trans due)]
    rfl
  · obtain ⟨-, into, same, svn, -⟩ := s.intoSlack_spec
    obtain ⟨boot, outcome, step⟩ := s.decided_spec t
    obtain ⟨reset, kept, ends⟩ := State.commit_ends (t := t) (rs := (s.decided t).stepRecords t) into (same.trans due) boot outcome step
      (s.decided t).snap.recordDue
    rw [slackRuns, State.slackWater_enters mode kind slack done census, State.decideStep_commits stepDone free, settled reset]
    exact ⟨_, rfl, kept.trans svn, ends⟩
  · have runs : exec .bucketReduce s = .next (s.reduceBucket t).settleReset := congrArg Host.Outcome.next (State.onTable_eq table _)
    rw [State.reduceBucket_alone mode kind slack idle census alone cur ready free] at runs
    have rest := State.reduceAlone_only t b (List.Subset.refl _) (only_refl _ (s.modJob fun j => { j with progress := j.progress + 1 }))
    have bucket := State.reduceAlone_bucket t b (s.modJob fun j => { j with progress := j.progress + 1 })
    have boot := rest.same .boot (by decide)
    have job := rest.same .job (by decide)
    have cmds := rest.same .cmds (by decide)
    generalize State.reduceAlone t b _ = y at runs bucket boot job cmds
    rw [settled ((congrArg Boot.resetDue boot).trans due)] at runs
    exact ⟨y, runs, bucket, job, boot, cmds, (congrArg Boot.mode boot).trans mode⟩
  · have runs : exec (.decodeStepBoundary s.run.decodes) s = .next (s.boundary t) :=
      (congrArg Host.Outcome.next ((State.onTable_eq table _).trans (congrArg State.settleReset (if_pos rfl)))).trans
        (congrArg Host.Outcome.next (settled ((State.boundary_resetDue t mode kind done).trans due)))
    refine ⟨fun n other => ?_, ?_, fun ends halts => ?_, fun goes calm requests idle => ?_⟩
    · have still : exec (.decodeStepBoundary n) s = .next s.settleReset :=
        congrArg Host.Outcome.next ((State.onTable_eq table _).trans (congrArg State.settleReset (if_neg (Ne.symm other))))
      rw [still, settled due]
    · exact ⟨_, runs, State.boundary_mem t s, fun r mem decoding c found alone =>
        (State.boundary_sent t mode kind done).subset (State.tokensOf_writes mem decoding found alone)⟩
    · have ended := State.boundary_ends (t := t) mode kind done ends halts
      rw [ended] at runs
      have rest := (s.tokensOf_taken t).rest
      have out := State.endRun_only .aborted .configured (List.Subset.refl _) (only_refl _ (s.tokensOf t))
      exact ⟨_, runs, State.endRun_mode _ _ _, State.endRun_kind _ _ _, (out.same .mem (by decide)).trans (rest.same .mem (by decide)),
        (out.same .job (by decide)).trans (rest.same .job (by decide))⟩
    · rw [State.boundary_goes mode kind done goes calm requests idle] at runs
      obtain ⟨rest, serves, admits, job⟩ := State.nextCycle_next t s
      exact ⟨_, runs, (congrArg Boot.mode (rest.same .boot (by decide))).trans mode, serves, admits, rest.same .mem (by decide), job,
        rest.same .cmds (by decide)⟩

end Sys2Proof.Machine
